-- ==== Sys2Proof/Word.lean ====
section
/-! DEFINITION. The words of the MZ-960 and their plainest arithmetic (spec/00_scope.md R5, R12). -/

namespace Sys2Proof

/-- One byte of storage. -/
abbrev Byte := BitVec 8

/-- One lane's 32-bit register value (09, Table 5). -/
abbrev W32 := BitVec 32

/-- A 64-bit value: an S register, an address, an instruction word, a record word. -/
abbrev W64 := BitVec 64

/-- A 32-bit lane mask: bit L is logical lane L (00, R11). -/
abbrev Mask := BitVec 32

/-- A 128-bit operand (09, R225). -/
abbrev W128 := BitVec 128

end Sys2Proof
end

