-- ==== Sys2Proof/Syntax.lean ====
section
/-! DEFINITION. The instructions of spec/opcode_table.json, whole: the 158 instructions that have a word
(spec/09_encoding_assembly.md), the paired word, and the 131 steps of the other agents of the module, each of
which is a row of the table too. An instruction holds its operands as data; no raw encoding reaches the machine. -/

namespace Sys2Proof

/-- The special selectors 480 to 487 (09, R224 Table 6). -/
inductive Sel where
  | lane | group | ngrp | tid | active | live | onef | all1
  deriving DecidableEq, Repr

/-- What a 9-bit register field names (09, R223 Table 5). -/
inductive Reg where
  | v (n : Fin 384)
  | s (n : Fin 64)
  | q (n : Fin 8)
  | sel (x : Sel)
  | z
  deriving DecidableEq, Repr

/-- A predicate P0 to P7 (09, R227). -/
abbrev Pred := Fin 8

/-- A tile T0 to T15 (09, R228). -/
abbrev Tile := Fin 16

/-- What every full word carries: the switch marker and the guard field with its negation (09, R220, R227). -/
structure Hdr where
  sw : Bool
  g  : Pred
  gn : Bool
  deriving DecidableEq, Repr

/-- The operation types (09, R229 Table 7); code 0xF is no type. -/
inductive Ty where
  | s32 | l32 | s64 | l64 | s16 | l16 | s8 | l8
  | f32 | f64 | f16 | bf16 | e4m3 | e5m2 | i8
  deriving DecidableEq, Repr

/-- The rounding modes (09, R229; 11, R273). -/
inductive Rm where
  | rne | rtz | rup | rdn
  deriving DecidableEq, Repr

/-- Integer condition codes (10, R250 Table 3). -/
inductive Cmp where
  | eq | ne | lt | le | gt | ge
  deriving DecidableEq, Repr

/-- Floating condition codes (11, R282 Table 6). -/
inductive FCmp where
  | eq | ne | lt | le | gt | ge | num | nan
  deriving DecidableEq, Repr

/-- Source modifiers of classes 3 and 4 (11, R276). -/
structure FMods where
  na : Bool := false
  nb : Bool := false
  nc : Bool := false
  aa : Bool := false
  ab : Bool := false
  ac : Bool := false
  deriving DecidableEq, Repr

/-- Access orders (09, R230 Table 9). -/
inductive Ord where
  | weak | rlx | acq | rel | ar | sc
  deriving DecidableEq, Repr

/-- Scopes (09, R230 Table 9; 03, R76). -/
inductive Sco where
  | none | wg | gang | dev | dom | sys
  deriving DecidableEq, Repr

/-- Access sizes with their extension (12, R295 Table 1). -/
inductive Sz where
  | l8 | s8 | l16 | s16 | w32 | d64 | b128
  deriving DecidableEq, Repr

/-- A memory operand with its modifiers (09, R230 Table 8). -/
structure MemOp where
  base : Reg
  idx  : Reg
  off  : BitVec 6
  xs   : BitVec 2
  rct  : BitVec 4
  sco  : Sco
  ord  : Ord
  sz   : Sz
  deriving DecidableEq, Repr

/-- ATOM operations (12, R300 Table 3). -/
inductive AOp where
  | add | and | or | xor | min | max | exch | cas
  deriving DecidableEq, Repr

/-- RED operations (12, R301 Table 4). -/
inductive ROp where
  | add | and | or | xor | smin | smax | umin | umax | fadd
  deriving DecidableEq, Repr

/-- The four uses of PMOV (10, R257 Table 7). -/
inductive PMov where
  | pp   (d a : Pred)
  | rd   (d : Reg) (a : Pred)
  | nz   (d : Pred) (a : Reg)
  | bits (d : Pred) (a : Reg)
  deriving DecidableEq, Repr

/-- LXCH modes (14, R338). -/
inductive LxMode where
  | from | back | fwd | flip
  deriving DecidableEq, Repr

/-- LXCH segment lengths 32, 16, 8, 4 and 2 (14, R338). -/
inductive Seg where
  | seg32 | seg16 | seg8 | seg4 | seg2
  deriving DecidableEq, Repr

/-- What POLL writes (14, R338, R340). -/
inductive PollDst where
  | some  (d : Pred)
  | every (d : Pred)
  | same  (d : Pred)
  | mask  (d : Reg)
  deriving DecidableEq, Repr

/-- LRED operations (14, R341 Table 2). -/
inductive LOp where
  | add | min | max | and | or | xor
  deriving DecidableEq, Repr

/-- CMNT operations (12, R298 Table 2). -/
inductive CmntOp where
  | inv | inva | drop
  deriving DecidableEq, Repr

/-- Asynchronous engine classes (03, R94 Table 4). -/
inductive Cls where
  | cp | mx | gc | cl
  deriving DecidableEq, Repr

/-- MMA forms (13, R323). -/
inductive MForm where
  | single | pair | quad
  deriving DecidableEq, Repr

/-- The two uses of QTRY (14, R348). -/
inductive QTry where
  | pop  (p : Pred) (d : Reg) (q : Fin 8)
  | push (p : Pred) (q : Fin 8) (b : Reg)
  deriving DecidableEq, Repr

/-- Special registers (14, R355 Table 6). -/
inductive SReg where
  | cycle | gtime | gtcmp | preq | lwid | ctx
  | steer (k : Fin 8)
  | interval | rwc
  | hist (k : Fin 16)
  | stall (k : Fin 13)
  | beatc | idle | ftva | ftkind | walkpc | ftpc | ptroot
  deriving DecidableEq, Repr

/-- The restricted opcodes of a paired word (09, R232 Table 10). -/
inductive Pop where
  | mov | iadd | isub | and | or | xor | imin | imax | fadd | fmul | fmin | fmax
  | iaddK | shl | shr | sar | rotl | movk | andK
  deriving DecidableEq, Repr

/-- One slot of a paired word (09, R222 Table 4). -/
structure Slot where
  op : Pop
  d  : Reg
  a  : Reg
  k  : BitVec 6
  deriving DecidableEq, Repr

/-- The units that are checked and that retire (16, R381 Table 1), with the lane block, core or die that holds them. -/
inductive HwUnit where
  | lane (lb : Nat) (i : Nat)
  | regBank (lb : Nat) (i : Nat)
  | lsBank (core : Nat) (i : Nat)
  | column (core : Nat) (i : Nat)
  | slice (die : Nat) (i : Nat)
  | channel (die : Nat) (i : Nat)
  | neighbour (die : Nat) (i : Nat)
  deriving DecidableEq, Repr

/-- Why a check was run, or a count reached (16, R383 Table 2 REASON). -/
inductive Reason where
  | entry | idle | errors | strike | early
  deriving DecidableEq, Repr

/-- The units whose watermarks a sweep pass visits (04, R108). -/
inductive SweepUnit where
  | slice (die ls : Nat)
  | rdc (die bank : Nat)
  | l1 (core : Nat)
  | localStore (core : Nat)
  deriving DecidableEq, Repr

/-- Strike zones (16, R386 Table 3), with the unit struck. -/
inductive Zone where
  | laneBlock (lb : Nat)
  | corePort (core : Nat)
  | localStore (core : Nat) (off : Nat) (correctable : Bool)
  | tileWord (core : Nat) (idx : Nat) (correctable : Bool)
  | matrix (core : Nat)
  | felt (core : Nat)
  | l1 (core : Nat)
  | sliceData (pa : Nat) (correctable : Bool)
  | sliceDir (die ls : Nat)
  | headbox (die : Nat)
  deriving DecidableEq, Repr

/-- Host atomics through the aperture (18, R411). -/
inductive HostAtom where
  | add (x : W64)
  | exch (x : W64)
  | cas (expected new : W64)
  deriving DecidableEq, Repr

/-- Every row of spec/opcode_table.json. -/
inductive Instr where
  -- class 0, integer (10, R247 to R251)
  | iadd (h : Hdr) (d a b : Reg) (ty : Ty)
  | iaddRri (h : Hdr) (d a : Reg) (imm : BitVec 22) (ty : Ty)
  | isub (h : Hdr) (d a b : Reg) (ty : Ty)
  | isubRri (h : Hdr) (d a : Reg) (imm : BitVec 22) (ty : Ty)
  | iadds (h : Hdr) (d a b : Reg) (ty : Ty)
  | iaddsRri (h : Hdr) (d a : Reg) (imm : BitVec 22) (ty : Ty)
  | isubs (h : Hdr) (d a b : Reg) (ty : Ty)
  | isubsRri (h : Hdr) (d a : Reg) (imm : BitVec 22) (ty : Ty)
  | imul (h : Hdr) (d a b : Reg) (ty : Ty)
  | imulRri (h : Hdr) (d a : Reg) (imm : BitVec 22) (ty : Ty)
  | imulh (h : Hdr) (d a b : Reg) (ty : Ty)
  | imad (h : Hdr) (d a b c : Reg) (ty : Ty)
  | imadw (h : Hdr) (d a b c : Reg) (ty : Ty)
  | idiv (h : Hdr) (d a b : Reg) (ty : Ty)
  | irem (h : Hdr) (d a b : Reg) (ty : Ty)
  | imin (h : Hdr) (d a b : Reg) (ty : Ty)
  | iminRri (h : Hdr) (d a : Reg) (imm : BitVec 22) (ty : Ty)
  | imax (h : Hdr) (d a b : Reg) (ty : Ty)
  | imaxRri (h : Hdr) (d a : Reg) (imm : BitVec 22) (ty : Ty)
  | iabs (h : Hdr) (d a : Reg) (ty : Ty)
  | ineg (h : Hdr) (d a : Reg) (ty : Ty)
  | lea (h : Hdr) (d a b : Reg) (sh : BitVec 3) (ty : Ty)
  | mov (h : Hdr) (d a : Reg) (ty : Ty)
  | icmp (h : Hdr) (d a b : Reg) (cc : Cmp) (ty : Ty)
  | icmpRri (h : Hdr) (d a : Reg) (imm : BitVec 22) (cc : Cmp) (ty : Ty)
  | icmpp (h : Hdr) (d : Pred) (a b : Reg) (cc : Cmp) (ty : Ty)
  | icmppRri (h : Hdr) (d : Pred) (a : Reg) (imm : BitVec 22) (cc : Cmp) (ty : Ty)
  | pick (h : Hdr) (d a b : Reg) (c : Pred) (ty : Ty)
  | movi (h : Hdr) (d : Reg) (imm : W32) (ty : Ty)
  | movih (h : Hdr) (d : Reg) (imm : W32)
  -- class 1, bits and widths (10, R252 to R256)
  | and (h : Hdr) (d a b : Reg) (ty : Ty)
  | andRri (h : Hdr) (d a : Reg) (imm : BitVec 22) (ty : Ty)
  | or (h : Hdr) (d a b : Reg) (ty : Ty)
  | orRri (h : Hdr) (d a : Reg) (imm : BitVec 22) (ty : Ty)
  | xor (h : Hdr) (d a b : Reg) (ty : Ty)
  | xorRri (h : Hdr) (d a : Reg) (imm : BitVec 22) (ty : Ty)
  | not (h : Hdr) (d a : Reg) (ty : Ty)
  | andn (h : Hdr) (d a b : Reg) (ty : Ty)
  | andnRri (h : Hdr) (d a : Reg) (imm : BitVec 22) (ty : Ty)
  | shl (h : Hdr) (d a b : Reg) (ty : Ty)
  | shlRri (h : Hdr) (d a : Reg) (imm : BitVec 22) (ty : Ty)
  | shr (h : Hdr) (d a b : Reg) (ty : Ty)
  | shrRri (h : Hdr) (d a : Reg) (imm : BitVec 22) (ty : Ty)
  | sar (h : Hdr) (d a b : Reg) (ty : Ty)
  | sarRri (h : Hdr) (d a : Reg) (imm : BitVec 22) (ty : Ty)
  | rotl (h : Hdr) (d a b : Reg) (ty : Ty)
  | rotlRri (h : Hdr) (d a : Reg) (imm : BitVec 22) (ty : Ty)
  | funnel (h : Hdr) (d a b c : Reg) (right : Bool)
  | popc (h : Hdr) (d a : Reg) (ty : Ty)
  | clz (h : Hdr) (d a : Reg) (ty : Ty)
  | ctz (h : Hdr) (d a : Reg) (ty : Ty)
  | brev (h : Hdr) (d a : Reg) (ty : Ty)
  | bfx (h : Hdr) (d a b c : Reg) (ty : Ty)
  | bfi (h : Hdr) (d a b c : Reg) (ty : Ty)
  | bmrg (h : Hdr) (d a b c : Reg)
  | cnvi (h : Hdr) (d a : Reg) (ty st : Ty) (sat : Bool)
  -- class 2, predicates (10, R257)
  | pand (h : Hdr) (d a b : Pred)
  | por (h : Hdr) (d a b : Pred)
  | pxor (h : Hdr) (d a b : Pred)
  | pnot (h : Hdr) (d a : Pred)
  | pmov (h : Hdr) (m : PMov)
  | pset (h : Hdr) (d : Pred) (imm : W32)
  -- class 3, floating (11, R278 to R284)
  | fadd (h : Hdr) (d a b : Reg) (m : FMods) (ty : Ty) (rm : Rm)
  | fsub (h : Hdr) (d a b : Reg) (m : FMods) (ty : Ty) (rm : Rm)
  | fmul (h : Hdr) (d a b : Reg) (m : FMods) (ty : Ty) (rm : Rm)
  | ffma (h : Hdr) (d a b c : Reg) (m : FMods) (ty : Ty) (rm : Rm)
  | fmin (h : Hdr) (d a b : Reg) (m : FMods) (ty : Ty)
  | fmax (h : Hdr) (d a b : Reg) (m : FMods) (ty : Ty)
  | fminx (h : Hdr) (d a b : Reg) (m : FMods) (ty : Ty)
  | fmaxx (h : Hdr) (d a b : Reg) (m : FMods) (ty : Ty)
  | fdiv (h : Hdr) (d a b : Reg) (m : FMods) (ty : Ty) (rm : Rm)
  | fsqrt (h : Hdr) (d a : Reg) (m : FMods) (ty : Ty) (rm : Rm)
  | frcp (h : Hdr) (d a : Reg) (m : FMods) (ty : Ty) (rm : Rm)
  | frsq (h : Hdr) (d a : Reg) (m : FMods) (ty : Ty) (rm : Rm)
  | fex2 (h : Hdr) (d a : Reg) (m : FMods) (ty : Ty) (rm : Rm)
  | flg2 (h : Hdr) (d a : Reg) (m : FMods) (ty : Ty) (rm : Rm)
  | fcmpp (h : Hdr) (d : Pred) (a b : Reg) (m : FMods) (cc : FCmp) (ty : Ty)
  | fclass (h : Hdr) (d a : Reg) (ty : Ty)
  | frnd (h : Hdr) (d a : Reg) (m : FMods) (ty : Ty) (rm : Rm)
  -- class 4, packed and conversion (11, R285 to R293)
  | pkadd (h : Hdr) (d a b : Reg) (m : FMods) (ty : Ty) (rm : Rm)
  | pkmul (h : Hdr) (d a b : Reg) (m : FMods) (ty : Ty) (rm : Rm)
  | pkfma (h : Hdr) (d a b c : Reg) (m : FMods) (ty : Ty) (rm : Rm)
  | bdot4 (h : Hdr) (d a b c : Reg) (sa sb sat : Bool)
  | pkdot (h : Hdr) (d a b c : Reg) (m : FMods) (ty : Ty) (rm : Rm)
  | fcvt (h : Hdr) (d a : Reg) (ty st : Ty) (rm : Rm)
  | ftoi (h : Hdr) (d a : Reg) (ty st : Ty) (rm : Rm)
  | itof (h : Hdr) (d a : Reg) (ty st : Ty) (rm : Rm)
  | fpack (h : Hdr) (d a b : Reg) (ty : Ty) (rm : Rm) (hi : Bool)
  | funpk (h : Hdr) (d a : Reg) (ty : Ty) (ix : BitVec 2)
  | rngk (h : Hdr) (d a b : Reg)
  -- class 5, control (10, R258 to R268)
  | bra (h : Hdr) (off : W32)
  | brx (h : Hdr) (a : Reg)
  | call (h : Hdr) (d : Reg) (off : W32)
  | ret (h : Hdr) (a : Reg)
  | mjoin (h : Hdr) (off : W32)
  | join (h : Hdr)
  | exit (h : Hdr)
  | nop (h : Hdr)
  | region (h : Hdr)
  | yield (h : Hdr) (d a b : Reg)
  -- class 6, cross-lane (14, R338 to R344)
  | lxch (h : Hdr) (d a b : Reg) (mode : LxMode) (seg : Seg)
  | lxchRri (h : Hdr) (d a : Reg) (imm : BitVec 22) (mode : LxMode) (seg : Seg)
  | poll (h : Hdr) (d : PollDst) (a : Pred) (inv : Bool)
  | lred (h : Hdr) (d a : Reg) (op : LOp) (ty : Ty)
  | peer (h : Hdr) (d a : Reg) (ty : Ty) (whole : Bool)
  | bcast (h : Hdr) (d a b : Reg) (first : Bool)
  | regroup (h : Hdr) (d a b : Reg) (g : BitVec 5)
  -- class 7, loads, stores and fences (12, R295 to R299)
  | ld (h : Hdr) (d : Reg) (m : MemOp)
  | st (h : Hdr) (d : Reg) (m : MemOp)
  | lds (h : Hdr) (d : Reg) (m : MemOp)
  | sts (h : Hdr) (d : Reg) (m : MemOp)
  | pref (h : Hdr) (near : Bool) (m : MemOp)
  | cmnt (h : Hdr) (a : Reg) (op : CmntOp)
  | fence (h : Hdr) (ord : Ord) (sco : Sco)
  | efence (h : Hdr)
  -- class 8, atomics and transactions (12, R300 to R303)
  | atom (h : Hdr) (d a b c : Reg) (op : AOp) (sz : Sz) (ord : Ord) (sco : Sco)
  | red (h : Hdr) (d : Reg) (m : MemOp) (op : ROp)
  | redo (h : Hdr) (d : Reg) (m : MemOp)
  | txb (h : Hdr)
  | txe (h : Hdr)
  | txa (h : Hdr) (code : Byte)
  | txq (h : Hdr) (d : Reg)
  -- class 9, copies, batches and subscriptions (12, R304 to R308)
  | cpy (h : Hdr) (d a b c : Reg)
  | cpys (h : Hdr) (d a b c : Reg)
  | cpyx (h : Hdr) (d a b c : Reg)
  | batch (h : Hdr) (d : Reg) (cls : Cls)
  | waitb (h : Hdr) (a : Reg) (imm : BitVec 22) (cls : Cls)
  | waitn (h : Hdr) (imm : BitVec 22) (cls : Cls)
  | subs (h : Hdr) (d a b c : Reg) (pair : Bool)
  | unsub (h : Hdr) (d a : Reg)
  | subfl (h : Hdr)
  | subq (h : Hdr) (d a : Reg)
  -- class 10, matrix (13)
  | mma (h : Hdr) (t : Tile) (a b c : Reg) (form : MForm) (sp ck : Bool) (ckt : Tile)
  | mzero (h : Hdr) (t : Tile)
  | mldt (h : Hdr) (t : Tile) (a : Reg)
  | mstt (h : Hdr) (t : Tile) (a : Reg)
  | mepi (h : Hdr) (t : Tile) (a b c : Reg)
  | mchk (h : Hdr) (t k : Tile) (b : Reg) (te : BitVec 6) (i8 : Bool)
  | mzmap (h : Hdr) (d : Reg) (t : Tile)
  -- class 11, barriers, queues, collectives, launch (14, R345 to R354)
  | bar (h : Hdr)
  | bara (h : Hdr)
  | barw (h : Hdr)
  | cbar (h : Hdr)
  | gbar (h : Hdr)
  | qcnt (h : Hdr) (d : Reg) (q : Fin 8)
  | qtry (h : Hdr) (op : QTry)
  | coll (h : Hdr) (a : Reg)
  | cabort (h : Hdr) (a : Reg)
  | launch (h : Hdr) (d a : Reg)
  | lwait (h : Hdr) (d a : Reg)
  -- class 12, system and trap (14, R355 to R357)
  | srd (h : Hdr) (d : Reg) (r : SReg)
  | swr (h : Hdr) (a : Reg) (r : SReg)
  | trap (h : Hdr) (imm : W32)
  | bpt (h : Hdr) (imm : W32)
  | mark (h : Hdr) (imm : W32)
  -- class 13, supervisor and translation (14, R358 to R360)
  | tlbw (h : Hdr) (a b : Reg) (lvl : Fin 3)
  | tlbi (h : Hdr) (a b : Reg) (space : Bool)
  | hret (h : Hdr) (status : Byte)
  -- the paired word (09, R232 to R234)
  | pairedWord (sw : Bool) (s0 s1 : Slot)
  -- steps of the core, its pipelines and its lane blocks
  | longResultReturn (rq : Nat)
  | groupPromotion (gs : Nat)
  | groupRetirement (gs : Nat)
  | gtimeTimer (gs : Nat)
  | walkerStart (lb : Nat)
  | walkerTimeout (lb : Nat)
  | firstTouchTimeout (gs : Nat)
  -- steps of the memory system, mesh and watermark
  | homeSliceAccess (rq : Nat)
  | remoteInvalidation (die line : Nat)
  | writeAcknowledgement (rq : Nat)
  | writeReturnedUnperformed (rq : Nat)
  | sectorHoldTimeout (sector : Nat)
  | meshPacketArrival (rq : Nat) (room : Bool)
  | negativeAcknowledgement (rq : Nat)
  | meshRetransmit (rq : Nat)
  | watermarkSweep (u : SweepUnit)
  | incarnationAdvance (gs : Nat)
  | ownershipRequest (core line : Nat)
  | ownershipRecall (core line : Nat)
  -- exactly-once remote operations and transactions
  | resultCacheRequest (rq copy : Nat)
  | requestReply (rq : Nat)
  | retirePacket (runit owner : Nat)
  | retirePacketSend (runit owner : Nat)
  | busyRetry (rq : Nat)
  | requestResend (rq : Nat)
  | requestAbandon (rq : Nat)
  | ageExpiry (rq copy : Nat)
  | tombstoneExpiry (owner runit : Nat) (ser : BitVec 16)
  | ownerIncarnationAdvance
  | incarnationAnnounce (die modul : Nat) (inc : Byte)
  | requesterHoldRelease (runit : Nat)
  | txPrepare (gs : Nat)
  | txPrepareReply (gs : Nat)
  | txPrepareTimeout (gs lane : Nat)
  | txCommitMessage (gs lane slice : Nat)
  | txAbortMessage (gs lane slice : Nat)
  -- grids
  | reductionApplication (grid : Nat)
  | gridRetirement (grid : Nat)
  | workgroupPlacement (grid : Nat)
  -- subscription
  | snapshotSegment (core pub : Nat)
  | feltEviction (core : Nat)
  | feltEntryAgeExpiry (core : Nat)
  | feltUpdateApply (src dst : Nat)
  | detachMessage (core sub : Nat)
  | detachAcknowledgement (core sub : Nat)
  | attachMessage (core sub : Nat)
  | attachReply (core sub : Nat)
  | resumeMessage (core sub : Nat)
  | unsubRemoval (core sub : Nat)
  -- engines
  | matrixOperation (core : Nat)
  | quadArrivalTimeout (quad : Nat) (qj : BitVec 16)
  | copyChunk (core : Nat)
  | batchComplete (gs : Nat) (cls : Cls)
  | collectivePacket (coll rank chunk : Nat)
  | collectiveComplete (coll : Nat)
  | abortToken (comm : W32) (att : Byte)
  -- Headbox and its packets
  | doorbellWrite (hwq : Nat) (value : W64)
  | headboxLaneTake (queue : Nat)
  | headerRereadTimeout (queue : Nat)
  | nopPacket (pk : Nat)
  | signal (pk : Nat)
  | wait (pk : Nat)
  | barrierAnd (pk : Nat)
  | barrierOr (pk : Nat)
  | waitRetest (pk : Nat)
  | launchPacket (pk : Nat)
  | copy (pk : Nat)
  | ckpt (pk : Nat)
  | quiesce (pk : Nat)
  | packetCompletion (pk : Nat)
  | createQueue (pk : Nat)
  | bindQueue (pk : Nat)
  | unbindQueue (pk : Nat)
  | resetQueue (pk : Nat)
  | flushControlBlocks (pk : Nat)
  | createSpace (pk : Nat)
  | tearDownSpace (pk : Nat)
  | setRaceMode (pk : Nat)
  | setWayMasks (pk : Nat)
  | setBudget (pk : Nat)
  | meterPeriodStart (part meter inst : Nat)
  | preEmptContext (pk : Nat)
  | preemptionDeadline (grid : Nat)
  | groupSave (gs : Nat)
  | resumeContext (pk : Nat)
  | releaseContext (pk : Nat)
  | invalidateTranslations (pk : Nat)
  | setInjector (pk : Nat)
  -- links
  | linkFlitTransmit (link lane rq : Nat)
  | linkAcknowledgement (link rq : Nat)
  | linkTimeoutRetransmit (link rq : Nat)
  -- debug
  | setRecording (pk : Nat)
  | stopAtPoint (pk : Nat)
  | sampleCounters (pk : Nat)
  | automaticCheckpoint (spid : Nat)
  -- safe function
  | createPartition (pk : Nat)
  | deletePartition (pk : Nat)
  | setDomain (pk : Nat)
  | attest (pk : Nat)
  | readAuditLog (pk : Nat)
  | reclaimAuditLog (pk : Nat)
  | extendMeasurement (pk : Nat)
  | setQueueTable (pk : Nat)
  -- host
  | sqbaseWrite (value : W64)
  | safeQueueDoorbell (value : W64)
  | sqridxAtomicAdd (n : W64)
  | registerWrite (off : Nat) (value : W64)
  | hostWrite (port : Nat) (ordered : Bool) (off : Nat) (bytes : List Byte)
  | hostRead (port off len : Nat)
  | hostAtomic (port off : Nat) (op : HostAtom)
  | portFailure (port : Nat)
  | powerGood
  | startStage (verified : List Bool) (units : List Nat) (digests : List (BitVec 384))
  | firmwareEntryAppend (body : List Byte)
  -- shrinkage, strikes, halts
  | selfCheck (u : HwUnit) (why : Reason) (pass : Bool)
  | localStoreBankMigration (core : Nat)
  | registerBankMigration (lb : Nat)
  | steeringRewrite (lb : Nat)
  | sliceEvacuationSet (die : Nat)
  | channelEvacuationLine (die : Nat)
  | strikeReport (z : Zone) (age : Nat)
  | thermalThrottle (on : Bool)
  | overtemperatureShutdown
  | haltLine (part : Nat)
  | haltDrainComplete (part : Nat)
  | earlyCheckFlag (u : HwUnit)
  | tentativeResultCommit (gs : Nat)
  | instructionFetch (gs : Nat) (slotB : Bool)
  | spillAreaRefill (gs : Nat)
  | fabricPortRetirement (link : Bool) (i : Nat)
  | powerLoss
  deriving DecidableEq, Repr

end Sys2Proof
end

