-- ==== Sys2Proof/Machine/Fields.lean ====
section
/-! DEFINITION. What each word's fields are: the registers and predicates it names with their roles (09, R223 to R230),
the types and modifier values its entry accepts (10 to 14), and the marks the issue of a word depends on. Decoding
checks these and issuing reads them. -/

namespace Sys2Proof

/-- The width in which an operand field is read or written (09, R225). -/
inductive Role where
  | r32 | r64 | r128
  deriving DecidableEq, Repr

/-- Which registers a field may name: any of Table 5; no S register, Q register or selector (14, R338 "V"); no Q
register or selector ("V, S or Z"); S registers and Z only (12, R294); a memory base (12, R294); a memory index (09,
R230). -/
inductive Kind where
  | any | vOnly | vs | sOnly | base | idx
  deriving DecidableEq, Repr

/-- A register field of a word, with its role. -/
structure Use where
  reg  : Reg
  role : Role
  kind : Kind
  deriving DecidableEq, Repr

/-- What a word's fields are. `src` lists the register sources in field order A, B, C, then D where D is read. -/
structure Info where
  h    : Hdr
  dst  : List Use := []
  src  : List Use := []
  ps   : List Pred := []
  pd   : List Pred := []
  ok   : Bool := true
  alu  : Bool := false
  long : Bool := false
  quiet : Bool := false
  unguarded : Bool := false
  priv : Bool := false
  team : Bool := false
  deriving DecidableEq, Repr

/-- The width of a type in bits (10, R245; 11, R269). -/
def Ty.bits : Ty → Nat
  | .s32 | .l32 | .f32 => 32
  | .s64 | .l64 | .f64 => 64
  | .s16 | .l16 | .f16 | .bf16 => 16
  | .s8 | .l8 | .e4m3 | .e5m2 | .i8 => 8

/-- A signed integer type (10, R245). -/
def Ty.isSigned : Ty → Bool
  | .s32 | .s64 | .s16 | .s8 => true
  | _ => false

/-- TY 0x0 to 0x7. -/
def Ty.isInt : Ty → Bool
  | .s32 | .l32 | .s64 | .l64 | .s16 | .l16 | .s8 | .l8 => true
  | _ => false

/-- TY 0x0 to 0x3. -/
def Ty.isWord : Ty → Bool
  | .s32 | .l32 | .s64 | .l64 => true
  | _ => false

/-- TY 0x0 and 0x1. -/
def Ty.is32 : Ty → Bool
  | .s32 | .l32 => true
  | _ => false

/-- TY 0x1 and 0x3. -/
def Ty.isL : Ty → Bool
  | .l32 | .l64 => true
  | _ => false

/-- TY 0x0 and 0x2. -/
def Ty.isS : Ty → Bool
  | .s32 | .s64 => true
  | _ => false

/-- TY 0x8 to 0xB. -/
def Ty.isFloat : Ty → Bool
  | .f32 | .f64 | .f16 | .bf16 => true
  | _ => false

/-- TY 0x8 to 0xD. -/
def Ty.isAnyFloat : Ty → Bool
  | .f32 | .f64 | .f16 | .bf16 | .e4m3 | .e5m2 => true
  | _ => false

/-- TY 0xA and 0xB. -/
def Ty.is16f : Ty → Bool
  | .f16 | .bf16 => true
  | _ => false

/-- The role of an operand of a type (10, R245; 11, R271). -/
def Ty.role (t : Ty) : Role := if t.bits = 64 then .r64 else .r32

/-- The role of an access's data register (12, R295 Table 1). -/
def Sz.role : Sz → Role
  | .d64 => .r64
  | .b128 => .r128
  | _ => .r32

/-- The bytes of an access (12, R295 Table 1). -/
def Sz.bytes : Sz → Nat
  | .l8 | .s8 => 1
  | .l16 | .s16 => 2
  | .w32 => 4
  | .d64 => 8
  | .b128 => 16

/-- The width of a special register (14, R355 Table 6). [DEDUCED, log entry 20] -/
def SReg.role : SReg → Role
  | .ftkind => .r32
  | _ => .r64

/-- A counter of Table 6 (14, R355): its SRD is a long result. -/
def SReg.isCounter : SReg → Bool
  | .cycle | .gtime | .hist _ | .stall _ | .beatc | .idle => true
  | _ => false

/-- One value per lane (14, R355 Table 6). -/
def SReg.perLane : SReg → Bool
  | .ftva | .ftkind => true
  | _ => false

/-- Out of reach of code that is neither a handler nor supervisor code (14, R355 Table 6). -/
def SReg.restricted : SReg → Bool
  | .ftva | .ftkind | .walkpc | .ftpc | .ptroot => true
  | _ => false

/-- One value for the whole group (09, R224 Table 6). -/
def Sel.uniform : Sel → Bool
  | .lane | .tid => false
  | _ => true

/-- An S register. -/
def Reg.isS : Reg → Bool
  | .s _ => true
  | _ => false

/-- A Q register. -/
def Reg.isQ : Reg → Bool
  | .q _ => true
  | _ => false

/-- A source that a scalar word may have: an S register, Z or a uniform selector (09, R226). -/
def Reg.isScalar : Reg → Bool
  | .s _ | .z => true
  | .sel x => x.uniform
  | _ => false

/-- An S register or Z. -/
def Reg.isSZ : Reg → Bool
  | .s _ | .z => true
  | _ => false

/-- A 32-bit field of Table 5. -/
def u32 (r : Reg) : Use := ⟨r, .r32, .any⟩
/-- A 64-bit field of Table 5. -/
def u64 (r : Reg) : Use := ⟨r, .r64, .any⟩
/-- A field in the role of a type. -/
def uty (t : Ty) (r : Reg) : Use := ⟨r, t.role, .any⟩
/-- A field that names S registers or Z only. -/
def us (r : Reg) : Use := ⟨r, .r64, .sOnly⟩
/-- A field that names V registers only. -/
def uv (r : Reg) : Use := ⟨r, .r32, .vOnly⟩
/-- A 32-bit field that names V, S or Z. -/
def uvs (r : Reg) : Use := ⟨r, .r32, .vs⟩
/-- A memory base (12, R294). -/
def ubase (r : Reg) : Use := ⟨r, .r64, .base⟩
/-- A memory index: a V register in 32 bits, an S register in 64 (09, R230). -/
def uidx (r : Reg) : Use := ⟨r, if r.isS then .r64 else .r32, .idx⟩

/-- A memory operand's base and index. -/
def MemOp.uses (m : MemOp) : List Use := [ubase m.base, uidx m.idx]

/-- No source modifier on source B (11, R276). -/
def FMods.noB (m : FMods) : Bool := !m.nb && !m.ab
/-- No source modifier on source C. -/
def FMods.noC (m : FMods) : Bool := !m.nc && !m.ac
/-- No absolute-value modifier (11, R285). -/
def FMods.noAbs (m : FMods) : Bool := !m.aa && !m.ab && !m.ac

/-- An order and scope as R230 allows them together: both or neither. -/
def ordSco (o : Ord) (c : Sco) : Bool := (o == .weak) == (c == .none)

/-- Orders of LD and LDS (03, R75 Table 1). -/
def loadOrd (o : Ord) : Bool := o == .weak || o == .rlx || o == .acq
/-- Orders of ST and STS. -/
def storeOrd (o : Ord) : Bool := o == .weak || o == .rlx || o == .rel
/-- Orders of ATOM. -/
def atomOrd (o : Ord) : Bool := o == .rlx || o == .acq || o == .rel || o == .ar
/-- Orders of RED and REDO. -/
def redOrd (o : Ord) : Bool := o == .rlx || o == .rel
/-- Orders of FENCE. -/
def fenceOrd (o : Ord) : Bool := o == .acq || o == .rel || o == .ar || o == .sc

/-- Sizes of an ATOM operation (12, R300 Table 3). -/
def AOp.sizes : AOp → Sz → Bool
  | .exch, .b128 | .cas, .b128 => true
  | _, .w32 | _, .d64 => true
  | _, _ => false

/-- Sizes of a RED operation (12, R301 Table 4). -/
def ROp.sizes : ROp → Sz → Bool
  | .fadd, .w32 => true
  | .fadd, _ => false
  | _, .w32 | _, .d64 => true
  | _, _ => false

/-- Types of an LRED operation (14, R341 Table 2). -/
def LOp.types : LOp → Ty → Bool
  | .add, t | .min, t | .max, t => t.is32 || t == .f32
  | _, t => t == .l32

/-- The number of a V register. -/
def Reg.vNum : Reg → Option Nat
  | .v n => some n.val
  | _ => none

/-- A register range Va to Vb, or both Z (10, R266; 14, R344). -/
def rangeOk (a b : Reg) : Bool :=
  match a, b with
  | .z, .z => true
  | .v a, .v b => decide (a.val ≤ b.val)
  | _, _ => false

/-- An S register whose number is a multiple of 4 (13, R317). -/
def quadS : Reg → Bool
  | .s n => n.val % 4 == 0
  | _ => false

/-- What MMA accepts (13, R323; 09, R235). -/
def mmaOk (t : Tile) (a b c : Reg) (form : MForm) (ck : Bool) (ckt : Tile) : Bool :=
  a.isS && b.isS && quadS c && (if ck then ckt != t && form != .quad else ckt.val == 0) &&
    (form != .quad || t.val == 0 || t.val == 8)

/-- The registers a slot of a paired word reads (09, R233 rule 2). -/
def Slot.reads (x : Slot) : List Reg :=
  match x.op with
  | .mov | .iaddK | .shl | .shr | .sar | .rotl | .andK => [x.a]
  | .movk => []
  | _ => [x.d, x.a]

/-- What a slot of a paired word accepts (09, R232). [DEDUCED, log entry 19] -/
def Slot.ok (x : Slot) : Bool :=
  (match x.op with
   | .mov | .iadd | .isub | .and | .or | .xor | .imin | .imax | .fadd | .fmul | .fmin | .fmax => x.k.toNat == 0
   | .shl | .shr | .sar | .rotl => x.k.toNat < 32
   | .movk => x.a == .v 0
   | .iaddK | .andK => true) && !x.d.isQ && !x.a.isQ

/-- A two-source integer word (10, R247 Table 1). -/
def iAlu (h : Hdr) (d a b : Reg) (ty : Ty) (ok : Bool) : Info :=
  { h, dst := [uty ty d], src := [uty ty a, uty ty b], ok, alu := true }
/-- Its one-source and immediate forms. -/
def iAlu1 (h : Hdr) (d a : Reg) (ty : Ty) (ok : Bool) : Info :=
  { h, dst := [uty ty d], src := [uty ty a], ok, alu := true }
/-- A shift: the count is in a 32-bit role (10, R252). -/
def iShift (h : Hdr) (d a b : Reg) (ty : Ty) (ok : Bool) : Info :=
  { h, dst := [uty ty d], src := [uty ty a, u32 b], ok, alu := true }
/-- A floating word of two sources (11, R278 Table 4). -/
def fAlu (h : Hdr) (d a b : Reg) (m : FMods) (ty : Ty) (ok : Bool) : Info :=
  { h, dst := [uty ty d], src := [uty ty a, uty ty b], ok := ok && m.noC, alu := true }
/-- A floating word of one source. -/
def fAlu1 (h : Hdr) (d a : Reg) (m : FMods) (ty : Ty) (ok : Bool) : Info :=
  { h, dst := [uty ty d], src := [uty ty a], ok := ok && m.noC && m.noB, alu := true }
/-- A packed word (11, R285 Table 7). -/
def pkAlu (h : Hdr) (d : Reg) (src : List Reg) (ok : Bool) : Info :=
  { h, dst := [u32 d], src := src.map u32, ok, alu := true }
/-- A barrier (14, R345). -/
def barInfo (h : Hdr) : Info := { h, quiet := true, unguarded := true }
/-- A matrix instruction that counts in the matrix sequence (13, R311). -/
def matInfo (h : Hdr) (src : List Use) (ok : Bool) : Info :=
  { h, src, ok, quiet := true, unguarded := true, team := true }

/-- A predicate as a condition of PICK: P7 when the destination is scalar (10, R250). -/
def pickOk (d : Reg) (c : Pred) : Bool := !d.isS || c.val == 7

/-- No header: the paired word is unguarded (09, R234). -/
def bareHdr (sw : Bool) : Hdr := { sw, g := 7, gn := false }

/-- The fields of every word. Rows that are no words have none. -/
def Instr.info : Instr → Option Info
  | .iadd h d a b ty => some (iAlu h d a b ty ty.isInt)
  | .iaddRri h d a _ ty => some (iAlu1 h d a ty ty.isInt)
  | .isub h d a b ty => some (iAlu h d a b ty ty.isInt)
  | .isubRri h d a _ ty => some (iAlu1 h d a ty ty.isInt)
  | .iadds h d a b ty => some (iAlu h d a b ty ty.isInt)
  | .iaddsRri h d a _ ty => some (iAlu1 h d a ty ty.isInt)
  | .isubs h d a b ty => some (iAlu h d a b ty ty.isInt)
  | .isubsRri h d a _ ty => some (iAlu1 h d a ty ty.isInt)
  | .imul h d a b ty => some (iAlu h d a b ty ty.isInt)
  | .imulRri h d a _ ty => some (iAlu1 h d a ty ty.isInt)
  | .imulh h d a b ty => some (iAlu h d a b ty ty.isWord)
  | .imad h d a b c ty => some { iAlu h d a b ty ty.isInt with src := [uty ty a, uty ty b, uty ty c] }
  | .imadw h d a b c ty => some { h, dst := [u64 d], src := [u32 a, u32 b, u64 c], ok := ty.is32, alu := true }
  | .idiv h d a b ty => some (iAlu h d a b ty ty.isInt)
  | .irem h d a b ty => some (iAlu h d a b ty ty.isInt)
  | .imin h d a b ty => some (iAlu h d a b ty ty.isInt)
  | .iminRri h d a _ ty => some (iAlu1 h d a ty ty.isInt)
  | .imax h d a b ty => some (iAlu h d a b ty ty.isInt)
  | .imaxRri h d a _ ty => some (iAlu1 h d a ty ty.isInt)
  | .iabs h d a ty => some (iAlu1 h d a ty (ty.isInt && ty.isSigned))
  | .ineg h d a ty => some (iAlu1 h d a ty (ty.isInt && ty.isSigned))
  | .lea h d a b _ ty => some { h, dst := [u64 d], src := [u64 a, u32 b], ok := ty.is32, alu := true }
  | .mov h d a ty => some (iAlu1 h d a ty ty.isWord)
  | .icmp h d a b _ ty => some { h, dst := [u32 d], src := [uty ty a, uty ty b], ok := ty.isInt, alu := true }
  | .icmpRri h d a _ _ ty => some { h, dst := [u32 d], src := [uty ty a], ok := ty.isInt, alu := true }
  | .icmpp h d a b _ ty => some { h, pd := [d], src := [uty ty a, uty ty b], ok := ty.isInt, alu := true }
  | .icmppRri h d a _ _ ty => some { h, pd := [d], src := [uty ty a], ok := ty.isInt, alu := true }
  | .pick h d a b c ty => some { iAlu h d a b ty (ty.isWord && pickOk d c) with ps := [c] }
  | .movi h d _ ty => some { h, dst := [uty ty d], ok := ty.isWord, alu := true }
  | .movih h d _ => some { h, dst := [u64 d], src := [u64 d], alu := true }
  | .and h d a b ty => some (iAlu h d a b ty ty.isL)
  | .andRri h d a _ ty => some (iAlu1 h d a ty ty.isL)
  | .or h d a b ty => some (iAlu h d a b ty ty.isL)
  | .orRri h d a _ ty => some (iAlu1 h d a ty ty.isL)
  | .xor h d a b ty => some (iAlu h d a b ty ty.isL)
  | .xorRri h d a _ ty => some (iAlu1 h d a ty ty.isL)
  | .not h d a ty => some (iAlu1 h d a ty ty.isL)
  | .andn h d a b ty => some (iAlu h d a b ty ty.isL)
  | .andnRri h d a _ ty => some (iAlu1 h d a ty ty.isL)
  | .shl h d a b ty => some (iShift h d a b ty ty.isL)
  | .shlRri h d a _ ty => some (iAlu1 h d a ty ty.isL)
  | .shr h d a b ty => some (iShift h d a b ty ty.isL)
  | .shrRri h d a _ ty => some (iAlu1 h d a ty ty.isL)
  | .sar h d a b ty => some (iShift h d a b ty ty.isS)
  | .sarRri h d a _ ty => some (iAlu1 h d a ty ty.isS)
  | .rotl h d a b ty => some (iShift h d a b ty ty.isL)
  | .rotlRri h d a _ ty => some (iAlu1 h d a ty ty.isL)
  | .funnel h d a b c _ => some (pkAlu h d [a, b, c] true)
  | .popc h d a ty => some { h, dst := [u32 d], src := [uty ty a], ok := ty.isL, alu := true }
  | .clz h d a ty => some { h, dst := [u32 d], src := [uty ty a], ok := ty.isL, alu := true }
  | .ctz h d a ty => some { h, dst := [u32 d], src := [uty ty a], ok := ty.isL, alu := true }
  | .brev h d a ty => some (iAlu1 h d a ty ty.isL)
  | .bfx h d a b c ty => some { h, dst := [uty ty d], src := [uty ty a, u32 b, u32 c], ok := ty.isWord, alu := true }
  | .bfi h d a b c ty =>
    some { h, dst := [uty ty d], src := [uty ty a, uty ty b, u32 c], ok := ty.isL, alu := true }
  | .bmrg h d a b c => some (pkAlu h d [a, b, c] true)
  | .cnvi h d a ty sty _ => some { h, dst := [uty ty d], src := [uty sty a], ok := ty.isInt && sty.isInt, alu := true }
  | .pand h d a b => some { h, pd := [d], ps := [a, b], alu := true }
  | .por h d a b => some { h, pd := [d], ps := [a, b], alu := true }
  | .pxor h d a b => some { h, pd := [d], ps := [a, b], alu := true }
  | .pnot h d a => some { h, pd := [d], ps := [a], alu := true }
  | .pmov h m => some (match m with
    | .pp d a => { h, pd := [d], ps := [a], alu := true }
    | .rd d a => { h, dst := [uvs d], ps := [a], alu := true }
    | .nz d a => { h, pd := [d], src := [u32 a], alu := true }
    | .bits d a => { h, pd := [d], src := [u32 a], ok := a.isScalar, alu := true })
  | .pset h d _ => some { h, pd := [d], alu := true }
  | .fadd h d a b m ty _ => some (fAlu h d a b m ty ty.isFloat)
  | .fsub h d a b m ty _ => some (fAlu h d a b m ty ty.isFloat)
  | .fmul h d a b m ty _ => some (fAlu h d a b m ty ty.isFloat)
  | .ffma h d a b c _ ty _ =>
    some { h, dst := [uty ty d], src := [uty ty a, uty ty b, uty ty c], ok := ty.isFloat, alu := true }
  | .fmin h d a b m ty => some (fAlu h d a b m ty ty.isFloat)
  | .fmax h d a b m ty => some (fAlu h d a b m ty ty.isFloat)
  | .fminx h d a b m ty => some (fAlu h d a b m ty ty.isFloat)
  | .fmaxx h d a b m ty => some (fAlu h d a b m ty ty.isFloat)
  | .fdiv h d a b m ty _ => some { fAlu h d a b m ty ty.isFloat with long := true }
  | .fsqrt h d a m ty _ => some { fAlu1 h d a m ty ty.isFloat with long := true }
  | .frcp h d a m ty _ => some { fAlu1 h d a m ty ty.isFloat with long := true }
  | .frsq h d a m ty _ => some { fAlu1 h d a m ty ty.isFloat with long := true }
  | .fex2 h d a m ty _ => some { fAlu1 h d a m ty (ty.isFloat && ty != .f64) with long := true }
  | .flg2 h d a m ty _ => some { fAlu1 h d a m ty (ty.isFloat && ty != .f64) with long := true }
  | .fcmpp h d a b m _ ty =>
    some { h, pd := [d], src := [uty ty a, uty ty b], ok := ty.isFloat && m.noC, alu := true }
  | .fclass h d a ty => some { h, dst := [u32 d], src := [uty ty a], ok := ty.isFloat, alu := true }
  | .frnd h d a m ty _ => some (fAlu1 h d a m ty ty.isFloat)
  | .pkadd h d a b m ty _ => some (pkAlu h d [a, b] (ty.is16f && m.noAbs && m.noC))
  | .pkmul h d a b m ty _ => some (pkAlu h d [a, b] (ty.is16f && m.noAbs && m.noC))
  | .pkfma h d a b c m ty _ => some (pkAlu h d [a, b, c] (ty.is16f && m.noAbs))
  | .bdot4 h d a b c _ _ _ => some (pkAlu h d [a, b, c] true)
  | .pkdot h d a b c m ty _ => some (pkAlu h d [a, b, c] (ty.is16f && m.noAbs))
  | .fcvt h d a ty sty _ =>
    some { h, dst := [uty ty d], src := [uty sty a], ok := ty.isAnyFloat && sty.isAnyFloat, alu := true }
  | .ftoi h d a ty sty _ =>
    some { h, dst := [uty ty d], src := [uty sty a], ok := ty.isInt && sty.isAnyFloat, alu := true }
  | .itof h d a ty sty _ =>
    some { h, dst := [uty ty d], src := [uty sty a], ok := ty.isFloat && sty.isInt, alu := true }
  | .fpack h d a b ty _ hi =>
    some { h, dst := [u32 d], src := if ty.bits = 8 then [u32 a, u32 b, u32 d] else [u32 a, u32 b],
           ok := ty.isAnyFloat && ty.bits != 32 && ty.bits != 64 && (!hi || ty.bits == 8), alu := true }
  | .funpk h d a ty ix =>
    some { h, dst := [u32 d], src := [u32 a],
           ok := ty.isAnyFloat && ty.bits != 32 && ty.bits != 64 && (ix.toNat < 2 || ty.bits == 8), alu := true }
  | .rngk h d a b => some { h, dst := [u32 d], src := [us a, u64 b], alu := true, long := true }
  | .bra h _ => some { h }
  | .brx h a => some { h, src := [u64 a] }
  | .call h d _ => some { h, dst := [u64 d] }
  | .ret h a => some { h, src := [u64 a] }
  | .mjoin h _ => some { h, unguarded := true }
  | .join h => some { h, unguarded := true, quiet := true }
  | .exit h => some { h, quiet := true }
  | .nop h => some { h }
  | .region h => some { h, unguarded := true }
  | .yield h d a b =>
    some { h, dst := [us d], src := [uv a, uv b], ok := rangeOk a b, unguarded := true, quiet := true }
  | .lxch h d a b _ _ => some { h, dst := [uv d], src := [uv a, uvs b], long := true }
  | .lxchRri h d a _ _ _ => some { h, dst := [uv d], src := [uv a], long := true }
  | .poll h m a _ => some (match m with
    | .some d | .every d | .same d => { h, pd := [d], ps := [a] }
    | .mask d => { h, dst := [uvs d], ps := [a] })
  | .lred h d a op ty => some { h, dst := [uvs d], src := [uv a], ok := op.types ty }
  | .peer h d a ty _ => some { h, dst := [uv d], src := [⟨a, ty.role, .vOnly⟩], ok := ty.isL }
  | .bcast h d a b first => some { h, dst := [uvs d], src := [uv a, us b], ok := first == (b == .z) }
  | .regroup h d a b _ =>
    some { h, dst := [us d], src := [uv a, uv b], ok := rangeOk a b, unguarded := true, quiet := true }
  | .ld h d m =>
    some { h, dst := [⟨d, m.sz.role, .any⟩], src := m.uses, long := true,
           ok := ordSco m.ord m.sco && loadOrd m.ord && (!d.isS || (m.base.isSZ && m.idx.isSZ)) }
  | .st h d m =>
    some { h, src := m.uses ++ [⟨d, m.sz.role, .any⟩],
           ok := ordSco m.ord m.sco && storeOrd m.ord && m.rct.toNat == 0 }
  | .lds h d m =>
    some { h, dst := [⟨d, m.sz.role, .any⟩], src := m.uses, long := true,
           ok := ordSco m.ord m.sco && loadOrd m.ord && m.rct.toNat == 0 &&
             (!d.isS || (m.base.isSZ && m.idx.isSZ)) }
  | .sts h d m =>
    some { h, src := m.uses ++ [⟨d, m.sz.role, .any⟩],
           ok := ordSco m.ord m.sco && storeOrd m.ord && m.rct.toNat == 0 }
  | .pref h _ m =>
    some { h, src := m.uses, ok := m.sz == .w32 && m.ord == .weak && m.sco == .none && m.rct.toNat == 0 }
  | .cmnt h a op => some { h, src := [ubase a], ok := op != .inva || a == .z }
  | .fence h o c => some { h, ok := ordSco o c && fenceOrd o }
  | .efence h => some { h }
  | .atom h d a b c op sz o sc =>
    some { h, dst := [⟨d, sz.role, .any⟩],
           src := if op = .cas then [ubase a, ⟨b, sz.role, .any⟩, ⟨c, sz.role, .any⟩] else [ubase a, ⟨b, sz.role, .any⟩],
           ok := ordSco o sc && atomOrd o && op.sizes sz && (op == .cas || c == .v 0) &&
             (!d.isS || (a.isSZ && b.isSZ && (op != .cas || c.isSZ))),
           long := true, quiet := true }
  | .red h d m op =>
    some { h, src := m.uses ++ [⟨d, m.sz.role, .any⟩], quiet := true,
           ok := ordSco m.ord m.sco && redOrd m.ord && op.sizes m.sz && m.rct.toNat == 0 }
  | .redo h d m =>
    some { h, src := m.uses ++ [⟨d, m.sz.role, .any⟩], quiet := true,
           ok := ordSco m.ord m.sco && redOrd m.ord && m.sz == .w32 && m.rct.toNat == 0 }
  | .txb h => some { h, quiet := true }
  | .txe h => some { h, quiet := true, long := true }
  | .txa h _ => some { h, quiet := true }
  | .txq h d => some { h, dst := [uv d] }
  | .cpy h d a b c => some { h, src := [us a, us b, us c, us d], quiet := true }
  | .cpys h d a b c => some { h, src := [us a, us b, us c, us d], quiet := true }
  | .cpyx h d a b c => some { h, src := [us a, us b, us c, us d], quiet := true }
  | .batch h d _ => some { h, dst := [us d], quiet := true }
  | .waitb h a _ _ => some { h, src := [us a] }
  | .waitn h imm _ => some { h, ok := imm.toNat < 2 ^ 21 }
  | .subs h d a b c pair => some { h, dst := [us d], src := [us a, us b, us c], ok := !pair || c == .z, quiet := true }
  | .unsub h d a => some { h, dst := [us d], src := [us a], quiet := true }
  | .subfl h => some { h, quiet := true }
  | .subq h d a => some { h, dst := [us d], src := [us a] }
  | .mma h t a b c form _ ck ckt => some (matInfo h [us a, us b, ⟨c, .r128, .sOnly⟩] (mmaOk t a b c form ck ckt))
  | .mzero h _ => some (matInfo h [] true)
  | .mldt h _ a => some (matInfo h [us a] true)
  | .mstt h _ a => some (matInfo h [us a] true)
  | .mepi h _ a b c => some (matInfo h [us a, us b, ⟨c, .r128, .sOnly⟩] true)
  | .mchk h t k b te i8 => some (matInfo h [us b] (t != k && (!i8 || te.toNat == 0)))
  | .mzmap h d _ => some { h, dst := [⟨d, .r128, .sOnly⟩], unguarded := true }
  | .bar h => some (barInfo h)
  | .bara h => some (barInfo h)
  | .barw h => some (barInfo h)
  | .cbar h => some (barInfo h)
  | .gbar h => some (barInfo h)
  | .qcnt h d _ => some { h, dst := [us d] }
  | .qtry h op => some (match op with
    | .pop p d _ => { h, pd := [p], dst := [uv d], quiet := true }
    | .push p _ b => { h, pd := [p], src := [uv b], quiet := true })
  | .coll h a => some { h, src := [us a], quiet := true }
  | .cabort h a => some { h, src := [us a], quiet := true }
  | .launch h d a => some { h, dst := [us d], src := [us a], quiet := true }
  | .lwait h d a => some { h, dst := [us d], src := [us a], quiet := true }
  | .srd h d r => some { h, dst := [⟨d, r.role, .vs⟩], ok := !r.perLane || !d.isS, long := r.isCounter }
  | .swr h a r => some { h, src := [us a], ok := r == .gtcmp, quiet := true }
  | .trap h imm => some { h, ok := imm != 0xFFFFFFFF#32 }
  | .bpt h _ => some { h }
  | .mark h _ => some { h }
  | .tlbw h a b _ => some { h, src := [us a, us b], priv := true, quiet := true }
  | .tlbi h a b space => some { h, src := [us a, us b], ok := !space || a == .z, priv := true, quiet := true }
  | .hret h _ => some { h, priv := true, quiet := true }
  | .pairedWord sw x y =>
    some { h := bareHdr sw, dst := [u32 x.d, u32 y.d], src := (x.reads ++ y.reads).map u32, ok := x.ok && y.ok }
  | _ => none

/-- A register start that suits its role (09, R225). -/
def roleOk (r : Role) (n : Nat) : Bool :=
  match r with
  | .r32 => true
  | .r64 => n % 2 == 0
  | .r128 => n % 4 == 0

/-- A field that its role and kind allow (09, R223 to R225, R191; 12, R294). [DEDUCED, log entry 19] -/
def Use.ok (dest : Bool) (u : Use) : Bool :=
  match u.reg with
  | .v n => u.kind != .sOnly && roleOk u.role n.val
  | .s n => u.kind != .vOnly && (u.role != .r128 || n.val % 2 == 0)
  | .q _ => u.kind == .any && u.role == .r32
  | .sel _ => u.kind == .any && u.role == .r32 && !dest
  | .z => true

/-- The guard field of a word: never P7 negated, and no guard where the entry forbids one (09, R227; 10, R258). -/
def Info.guardOk (i : Info) : Bool :=
  if i.h.g.val = 7 then !i.h.gn else !i.unguarded

/-- Every register field is one that its role allows. -/
def Info.fieldsOk (i : Info) : Bool := i.dst.all (Use.ok true) && i.src.all (Use.ok false)

/-- No queue register feeds a scalar destination, and none takes a long result (07, R191). -/
def Info.queuesOk (i : Info) : Bool :=
  (!(i.dst.any (·.reg.isS)) || !(i.src.any (·.reg.isQ))) && (!i.long || !(i.dst.any (·.reg.isQ)))

/-- A word of classes 0 to 4 with an S destination has scalar sources (09, R226). -/
def Info.scalarOk (i : Info) : Bool :=
  !i.alu || !(i.dst.any (·.reg.isS)) || i.src.all (·.reg.isScalar)

/-- A restricted instruction with an S destination has scalar sources (09, R226, R232). -/
def Slot.scalarOk (x : Slot) : Bool := !x.d.isS || x.reads.all (·.isScalar)

/-- The V registers a field names (09, R225). -/
def Use.vregs (u : Use) : List Nat :=
  match u.reg with
  | .v n => (match u.role with
    | .r32 => [n.val]
    | .r64 => [n.val, n.val + 1]
    | .r128 => [n.val, n.val + 1, n.val + 2, n.val + 3])
  | _ => []

/-- The S registers a field names (09, R225). -/
def Use.sregs (u : Use) : List Nat :=
  match u.reg with
  | .s n => (match u.role with
    | .r128 => [n.val, n.val + 1]
    | _ => [n.val])
  | _ => []

end Sys2Proof
end

