-- ==== Sys2Proof/WellFormed.lean ====
section
/-! DEFINITION. Well-formed instructions: those that some word encodes (09, R237 Table 12, order 1). What each field
may hold is said in Machine/Fields.lean. A row of the table that has no word is not a well-formed instruction. -/

namespace Sys2Proof

/-- Both slots of a paired word obey R226 (09, R232). -/
def Instr.slotsOk : Instr → Bool
  | .pairedWord _ x y => x.scalarOk && y.scalarOk
  | _ => true

/-- The instruction is one that a word encodes: types and modifiers accepted, the guard legal, every register field
legal in its role, the rules of queue and scalar registers kept. -/
def Instr.wellFormed (i : Instr) : Bool :=
  match i.info with
  | some f => f.ok && f.guardOk && f.fieldsOk && f.queuesOk && f.scalarOk && i.slotsOk
  | none => false

end Sys2Proof
end

