-- ==== Sys2Proof/Decode.lean ====
section
/-! DEFINITION. Decoding and encoding of instruction words (09, R219 to R237; the modifier fields of 10 to 14). The
decoder is total: a word that no row of Tables 10 and 11 gives, or whose fields its entry does not accept, decodes to
none, which raises 0x01 (09, R237). -/

namespace Sys2Proof

/-! ### Bit fields -/

/-- `x` above `y`. -/
def cat (m n : Nat) (x : BitVec m) (y : BitVec n) : BitVec (m + n) := x ++ y
/-- The top `m` bits. -/
def hi (m n : Nat) (x : BitVec (m + n)) : BitVec m := x.extractLsb' n m
/-- The low `n` bits. -/
def lo (m n : Nat) (x : BitVec (m + n)) : BitVec n := x.extractLsb' 0 n
/-- `x` with `m` zero bits above it. -/
def zx (m n : Nat) (x : BitVec n) : BitVec (m + n) := cat m n 0#m x
/-- The low bits, where the bits above them are zero (09, R231). -/
def low (m n : Nat) (x : BitVec (m + n)) : Option (BitVec n) := if hi m n x = 0#m then some (lo m n x) else none
/-- A truth value as one bit. -/
def b1 (b : Bool) : BitVec 1 := if b then 1#1 else 0#1
/-- One bit as a truth value. -/
def bit1 (x : BitVec 1) : Bool := x == 1#1

@[simp] theorem hi_cat (m n : Nat) (x : BitVec m) (y : BitVec n) : hi m n (cat m n x y) = x := by
  unfold hi cat; ext i h
  simp [BitVec.getLsbD_append, BitVec.getLsbD_eq_getElem h]
@[simp] theorem lo_cat (m n : Nat) (x : BitVec m) (y : BitVec n) : lo m n (cat m n x y) = y := by
  unfold lo cat; ext i h; simp [BitVec.getLsbD_append, h]
@[simp] theorem low_zx (m n : Nat) (x : BitVec n) : low m n (zx m n x) = some x := by simp [low, zx]
@[simp] theorem bit1_b1 (b : Bool) : bit1 (b1 b) = b := by cases b <;> rfl

/-! ### Forms (09, Tables 1 and 2), bits 47:0 -/

def rrr (d a b : BitVec 9) (m : BitVec 21) : BitVec 48 := cat 9 39 d (cat 9 30 a (cat 9 21 b m))
def rrrc (d a b c : BitVec 9) (m : BitVec 12) : BitVec 48 := rrr d a b (cat 9 12 c m)
def rri (d a : BitVec 9) (imm : BitVec 22) (m : BitVec 8) : BitVec 48 := cat 9 39 d (cat 9 30 a (cat 22 8 imm m))
def ri (d : BitVec 9) (imm : BitVec 32) (m : BitVec 7) : BitVec 48 := cat 9 39 d (cat 32 7 imm m)
def fD (x : BitVec 48) : BitVec 9 := hi 9 39 x
def fA (x : BitVec 48) : BitVec 9 := hi 9 30 (lo 9 39 x)
def fB (x : BitVec 48) : BitVec 9 := hi 9 21 (lo 9 30 (lo 9 39 x))
def fM (x : BitVec 48) : BitVec 21 := lo 9 21 (lo 9 30 (lo 9 39 x))
def fC (x : BitVec 48) : BitVec 9 := hi 9 12 (fM x)
def fMc (x : BitVec 48) : BitVec 12 := lo 9 12 (fM x)
def fI (x : BitVec 48) : BitVec 22 := hi 22 8 (lo 9 30 (lo 9 39 x))
def fMi (x : BitVec 48) : BitVec 8 := lo 22 8 (lo 9 30 (lo 9 39 x))
def fJ (x : BitVec 48) : BitVec 32 := hi 32 7 (lo 9 39 x)
def fMj (x : BitVec 48) : BitVec 7 := lo 32 7 (lo 9 39 x)

@[simp] theorem fD_rrr (d a b m) : fD (rrr d a b m) = d := by simp [fD, rrr]
@[simp] theorem fA_rrr (d a b m) : fA (rrr d a b m) = a := by simp [fA, rrr]
@[simp] theorem fB_rrr (d a b m) : fB (rrr d a b m) = b := by simp [fB, rrr]
@[simp] theorem fM_rrr (d a b m) : fM (rrr d a b m) = m := by simp [fM, rrr]
@[simp] theorem fD_rrrc (d a b c m) : fD (rrrc d a b c m) = d := by simp [rrrc]
@[simp] theorem fA_rrrc (d a b c m) : fA (rrrc d a b c m) = a := by simp [rrrc]
@[simp] theorem fB_rrrc (d a b c m) : fB (rrrc d a b c m) = b := by simp [rrrc]
@[simp] theorem fC_rrrc (d a b c m) : fC (rrrc d a b c m) = c := by simp [rrrc, fC]
@[simp] theorem fMc_rrrc (d a b c m) : fMc (rrrc d a b c m) = m := by simp [rrrc, fMc]
@[simp] theorem fD_rri (d a i m) : fD (rri d a i m) = d := by simp [fD, rri]
@[simp] theorem fA_rri (d a i m) : fA (rri d a i m) = a := by simp [fA, rri]
@[simp] theorem fI_rri (d a i m) : fI (rri d a i m) = i := by simp [fI, rri]
@[simp] theorem fMi_rri (d a i m) : fMi (rri d a i m) = m := by simp [fMi, rri]
@[simp] theorem fD_ri (d i m) : fD (ri d i m) = d := by simp [fD, ri]
@[simp] theorem fJ_ri (d i m) : fJ (ri d i m) = i := by simp [fJ, ri]
@[simp] theorem fMj_ri (d i m) : fMj (ri d i m) = m := by simp [fMj, ri]

/-! ### Register, predicate and tile fields (09, R223, R227, R228) -/

/-- The number of a selector above 480 (09, Table 6). -/
def Sel.num : Sel → Nat
  | .lane => 0 | .group => 1 | .ngrp => 2 | .tid => 3 | .active => 4 | .live => 5 | .onef => 6 | .all1 => 7

/-- The selector of a number above 480. -/
def Sel.ofNum : Nat → Option Sel
  | 0 => some .lane | 1 => some .group | 2 => some .ngrp | 3 => some .tid
  | 4 => some .active | 5 => some .live | 6 => some .onef | 7 => some .all1 | _ => none

/-- The number of a register (09, Table 5). -/
def eR : Reg → BitVec 9
  | .v n => BitVec.ofNat 9 n.val
  | .s n => BitVec.ofNat 9 (384 + n.val)
  | .q n => BitVec.ofNat 9 (448 + n.val)
  | .sel x => BitVec.ofNat 9 (480 + x.num)
  | .z => 511#9

/-- The register of a number (09, Table 5); 456 to 479 and unlisted selectors are none. -/
def dR (x : BitVec 9) : Option Reg :=
  if h : x.toNat < 384 then some (.v ⟨x.toNat, h⟩)
  else if _h : x.toNat < 448 then some (.s ⟨x.toNat - 384, by omega⟩)
  else if _h : x.toNat < 456 then some (.q ⟨x.toNat - 448, by omega⟩)
  else if x.toNat < 480 then none
  else if x.toNat = 511 then some .z
  else (Sel.ofNum (x.toNat - 480)).map .sel

theorem toNat9 (n : Nat) (h : n < 512) : (BitVec.ofNat 9 n).toNat = n := by
  rw [BitVec.toNat_ofNat]; exact Nat.mod_eq_of_lt h

@[simp] theorem dR_eR (r : Reg) : dR (eR r) = some r := by
  cases r with
  | v n =>
    have e : (eR (.v n)).toNat = n.val := by
      simp only [eR]; exact toNat9 _ (by omega)
    unfold dR
    rw [dif_pos (by omega)]
    simp only [e]
  | s n =>
    have e : (eR (.s n)).toNat = 384 + n.val := by
      simp only [eR]; exact toNat9 _ (by omega)
    unfold dR
    rw [dif_neg (by omega), dif_pos (by omega)]
    simp only [e, Nat.add_sub_cancel_left]
  | q n =>
    have e : (eR (.q n)).toNat = 448 + n.val := by
      simp only [eR]; exact toNat9 _ (by omega)
    unfold dR
    rw [dif_neg (by omega), dif_neg (by omega), dif_pos (by omega)]
    simp only [e, Nat.add_sub_cancel_left]
  | sel x => cases x <;> decide +kernel
  | z => decide +kernel

def eP (p : Pred) : BitVec 9 := BitVec.ofNat 9 p.val
def dP (x : BitVec 9) : Option Pred := if h : x.toNat < 8 then some ⟨x.toNat, h⟩ else none
@[simp] theorem dP_eP (p : Pred) : dP (eP p) = some p := by
  have h : p.val % 512 = p.val := Nat.mod_eq_of_lt (by omega)
  simp [dP, eP, h]

def eTile (t : Tile) : BitVec 9 := BitVec.ofNat 9 t.val
def dTile (x : BitVec 9) : Option Tile := if h : x.toNat < 16 then some ⟨x.toNat, h⟩ else none
@[simp] theorem dTile_eTile (t : Tile) : dTile (eTile t) = some t := by
  have h : t.val % 512 = t.val := Nat.mod_eq_of_lt (by omega)
  simp [dTile, eTile, h]

/-- A queue named as a queue (14, R348). -/
def eQ (q : Fin 8) : BitVec 9 := BitVec.ofNat 9 (448 + q.val)
def dQ (x : BitVec 9) : Option (Fin 8) :=
  if h : 448 ≤ x.toNat ∧ x.toNat < 456 then some ⟨x.toNat - 448, by omega⟩ else none
@[simp] theorem dQ_eQ (q : Fin 8) : dQ (eQ q) = some q := by
  have h : (448 + q.val) % 512 = 448 + q.val := Nat.mod_eq_of_lt (by omega)
  have h2 : 448 + q.val < 456 := by omega
  simp [dQ, eQ, h, h2]

/-- A field that an instruction does not use is zero (09, R231). -/
def unused (x : BitVec 9) (i : Option Instr) : Option Instr := if x = 0#9 then i else none
@[simp] theorem unused_zero (i : Option Instr) : unused 0#9 i = i := by simp [unused]

/-- A modifier field that must hold one value. -/
def only {w : Nat} (x v : BitVec w) (i : Option Instr) : Option Instr := if x = v then i else none
@[simp] theorem only_self {w : Nat} (v : BitVec w) (i : Option Instr) : only v v i = i := by simp [only]

/-- Type codes (09, Table 7). -/
def eT : Ty → BitVec 4
  | .s32 => 0#4
  | .l32 => 1#4
  | .s64 => 2#4
  | .l64 => 3#4
  | .s16 => 4#4
  | .l16 => 5#4
  | .s8 => 6#4
  | .l8 => 7#4
  | .f32 => 8#4
  | .f64 => 9#4
  | .f16 => 10#4
  | .bf16 => 11#4
  | .e4m3 => 12#4
  | .e5m2 => 13#4
  | .i8 => 14#4
def dT (x : BitVec 4) : Option Ty :=
  match x.toNat with
  | 0 => some .s32
  | 1 => some .l32
  | 2 => some .s64
  | 3 => some .l64
  | 4 => some .s16
  | 5 => some .l16
  | 6 => some .s8
  | 7 => some .l8
  | 8 => some .f32
  | 9 => some .f64
  | 10 => some .f16
  | 11 => some .bf16
  | 12 => some .e4m3
  | 13 => some .e5m2
  | 14 => some .i8
  | _ => none
@[simp] theorem dT_eT (x : Ty) : dT (eT x) = some x := by cases x <;> rfl

/-- Rounding modes (09, R229). -/
def eRm : Rm → BitVec 2
  | .rne => 0#2
  | .rtz => 1#2
  | .rup => 2#2
  | .rdn => 3#2
def dRm (x : BitVec 2) : Option Rm :=
  match x.toNat with
  | 0 => some .rne
  | 1 => some .rtz
  | 2 => some .rup
  | 3 => some .rdn
  | _ => none
@[simp] theorem dRm_eRm (x : Rm) : dRm (eRm x) = some x := by cases x <;> rfl

/-- Integer condition codes (10, Table 3). -/
def eCmp : Cmp → BitVec 3
  | .eq => 0#3
  | .ne => 1#3
  | .lt => 2#3
  | .le => 3#3
  | .gt => 4#3
  | .ge => 5#3
def dCmp (x : BitVec 3) : Option Cmp :=
  match x.toNat with
  | 0 => some .eq
  | 1 => some .ne
  | 2 => some .lt
  | 3 => some .le
  | 4 => some .gt
  | 5 => some .ge
  | _ => none
@[simp] theorem dCmp_eCmp (x : Cmp) : dCmp (eCmp x) = some x := by cases x <;> rfl

/-- Floating condition codes (11, Table 6). -/
def eFCmp : FCmp → BitVec 3
  | .eq => 0#3
  | .ne => 1#3
  | .lt => 2#3
  | .le => 3#3
  | .gt => 4#3
  | .ge => 5#3
  | .num => 6#3
  | .nan => 7#3
def dFCmp (x : BitVec 3) : Option FCmp :=
  match x.toNat with
  | 0 => some .eq
  | 1 => some .ne
  | 2 => some .lt
  | 3 => some .le
  | 4 => some .gt
  | 5 => some .ge
  | 6 => some .num
  | 7 => some .nan
  | _ => none
@[simp] theorem dFCmp_eFCmp (x : FCmp) : dFCmp (eFCmp x) = some x := by cases x <;> rfl

/-- Orders (09, Table 9). -/
def eOrd : Ord → BitVec 3
  | .weak => 0#3
  | .rlx => 1#3
  | .acq => 2#3
  | .rel => 3#3
  | .ar => 4#3
  | .sc => 5#3
def dOrd (x : BitVec 3) : Option Ord :=
  match x.toNat with
  | 0 => some .weak
  | 1 => some .rlx
  | 2 => some .acq
  | 3 => some .rel
  | 4 => some .ar
  | 5 => some .sc
  | _ => none
@[simp] theorem dOrd_eOrd (x : Ord) : dOrd (eOrd x) = some x := by cases x <;> rfl

/-- Scopes (09, Table 9). -/
def eSco : Sco → BitVec 3
  | .none => 0#3
  | .wg => 1#3
  | .gang => 2#3
  | .dev => 3#3
  | .dom => 4#3
  | .sys => 5#3
def dSco (x : BitVec 3) : Option Sco :=
  match x.toNat with
  | 0 => some .none
  | 1 => some .wg
  | 2 => some .gang
  | 3 => some .dev
  | 4 => some .dom
  | 5 => some .sys
  | _ => none
@[simp] theorem dSco_eSco (x : Sco) : dSco (eSco x) = some x := by cases x <;> rfl

/-- Access sizes (09, Table 8). -/
def eSz : Sz → BitVec 3
  | .l8 => 0#3
  | .s8 => 1#3
  | .l16 => 2#3
  | .s16 => 3#3
  | .w32 => 4#3
  | .d64 => 5#3
  | .b128 => 6#3
def dSz (x : BitVec 3) : Option Sz :=
  match x.toNat with
  | 0 => some .l8
  | 1 => some .s8
  | 2 => some .l16
  | 3 => some .s16
  | 4 => some .w32
  | 5 => some .d64
  | 6 => some .b128
  | _ => none
@[simp] theorem dSz_eSz (x : Sz) : dSz (eSz x) = some x := by cases x <;> rfl

/-- ATOM operations (12, Table 3). -/
def eAOp : AOp → BitVec 3
  | .add => 0#3
  | .and => 1#3
  | .or => 2#3
  | .xor => 3#3
  | .min => 4#3
  | .max => 5#3
  | .exch => 6#3
  | .cas => 7#3
def dAOp (x : BitVec 3) : Option AOp :=
  match x.toNat with
  | 0 => some .add
  | 1 => some .and
  | 2 => some .or
  | 3 => some .xor
  | 4 => some .min
  | 5 => some .max
  | 6 => some .exch
  | 7 => some .cas
  | _ => none
@[simp] theorem dAOp_eAOp (x : AOp) : dAOp (eAOp x) = some x := by cases x <;> rfl

/-- RED operations (12, Table 4). -/
def eROp : ROp → BitVec 4
  | .add => 0#4
  | .and => 1#4
  | .or => 2#4
  | .xor => 3#4
  | .smin => 4#4
  | .smax => 5#4
  | .umin => 6#4
  | .umax => 7#4
  | .fadd => 8#4
def dROp (x : BitVec 4) : Option ROp :=
  match x.toNat with
  | 0 => some .add
  | 1 => some .and
  | 2 => some .or
  | 3 => some .xor
  | 4 => some .smin
  | 5 => some .smax
  | 6 => some .umin
  | 7 => some .umax
  | 8 => some .fadd
  | _ => none
@[simp] theorem dROp_eROp (x : ROp) : dROp (eROp x) = some x := by cases x <;> rfl

/-- LXCH modes (14, Table 1). -/
def eLxMode : LxMode → BitVec 2
  | .from => 0#2
  | .back => 1#2
  | .fwd => 2#2
  | .flip => 3#2
def dLxMode (x : BitVec 2) : Option LxMode :=
  match x.toNat with
  | 0 => some .from
  | 1 => some .back
  | 2 => some .fwd
  | 3 => some .flip
  | _ => none
@[simp] theorem dLxMode_eLxMode (x : LxMode) : dLxMode (eLxMode x) = some x := by cases x <;> rfl

/-- LXCH segments (14, R338). -/
def eSeg : Seg → BitVec 3
  | .seg32 => 0#3
  | .seg16 => 1#3
  | .seg8 => 2#3
  | .seg4 => 3#3
  | .seg2 => 4#3
def dSeg (x : BitVec 3) : Option Seg :=
  match x.toNat with
  | 0 => some .seg32
  | 1 => some .seg16
  | 2 => some .seg8
  | 3 => some .seg4
  | 4 => some .seg2
  | _ => none
@[simp] theorem dSeg_eSeg (x : Seg) : dSeg (eSeg x) = some x := by cases x <;> rfl

/-- LRED operations (14, Table 2). -/
def eLOp : LOp → BitVec 3
  | .add => 0#3
  | .min => 1#3
  | .max => 2#3
  | .and => 3#3
  | .or => 4#3
  | .xor => 5#3
def dLOp (x : BitVec 3) : Option LOp :=
  match x.toNat with
  | 0 => some .add
  | 1 => some .min
  | 2 => some .max
  | 3 => some .and
  | 4 => some .or
  | 5 => some .xor
  | _ => none
@[simp] theorem dLOp_eLOp (x : LOp) : dLOp (eLOp x) = some x := by cases x <;> rfl

/-- CMNT operations (12, Table 2). -/
def eCmnt : CmntOp → BitVec 2
  | .inv => 0#2
  | .inva => 1#2
  | .drop => 2#2
def dCmnt (x : BitVec 2) : Option CmntOp :=
  match x.toNat with
  | 0 => some .inv
  | 1 => some .inva
  | 2 => some .drop
  | _ => none
@[simp] theorem dCmnt_eCmnt (x : CmntOp) : dCmnt (eCmnt x) = some x := by cases x <;> rfl

/-- Engine classes (12, R307). -/
def eCls : Cls → BitVec 2
  | .cp => 0#2
  | .mx => 1#2
  | .gc => 2#2
  | .cl => 3#2
def dCls (x : BitVec 2) : Option Cls :=
  match x.toNat with
  | 0 => some .cp
  | 1 => some .mx
  | 2 => some .gc
  | 3 => some .cl
  | _ => none
@[simp] theorem dCls_eCls (x : Cls) : dCls (eCls x) = some x := by cases x <;> rfl

/-- MMA forms (13, R323). -/
def eMForm : MForm → BitVec 2
  | .single => 0#2
  | .pair => 1#2
  | .quad => 2#2
def dMForm (x : BitVec 2) : Option MForm :=
  match x.toNat with
  | 0 => some .single
  | 1 => some .pair
  | 2 => some .quad
  | _ => none
@[simp] theorem dMForm_eMForm (x : MForm) : dMForm (eMForm x) = some x := by cases x <;> rfl

/-- Restricted opcodes (09, Table 10). -/
def ePop : Pop → BitVec 7
  | .mov => 1#7
  | .iadd => 2#7
  | .isub => 3#7
  | .and => 4#7
  | .or => 5#7
  | .xor => 6#7
  | .imin => 7#7
  | .imax => 8#7
  | .fadd => 9#7
  | .fmul => 10#7
  | .fmin => 11#7
  | .fmax => 12#7
  | .iaddK => 16#7
  | .shl => 17#7
  | .shr => 18#7
  | .sar => 19#7
  | .rotl => 20#7
  | .movk => 21#7
  | .andK => 22#7
def dPop (x : BitVec 7) : Option Pop :=
  match x.toNat with
  | 1 => some .mov
  | 2 => some .iadd
  | 3 => some .isub
  | 4 => some .and
  | 5 => some .or
  | 6 => some .xor
  | 7 => some .imin
  | 8 => some .imax
  | 9 => some .fadd
  | 10 => some .fmul
  | 11 => some .fmin
  | 12 => some .fmax
  | 16 => some .iaddK
  | 17 => some .shl
  | 18 => some .shr
  | 19 => some .sar
  | 20 => some .rotl
  | 21 => some .movk
  | 22 => some .andK
  | _ => none
@[simp] theorem dPop_ePop (x : Pop) : dPop (ePop x) = some x := by cases x <;> rfl

/-- Special-register numbers (14, R355 Table 6). -/
def eSReg : SReg → BitVec 12
  | .cycle => 0x000#12 | .gtime => 0x001#12 | .gtcmp => 0x002#12 | .preq => 0x003#12 | .lwid => 0x004#12
  | .ctx => 0x005#12 | .steer k => BitVec.ofNat 12 (0x008 + k.val) | .interval => 0x010#12 | .rwc => 0x011#12
  | .hist k => BitVec.ofNat 12 (0x020 + k.val) | .stall k => BitVec.ofNat 12 (0x030 + k.val)
  | .beatc => 0x03D#12 | .idle => 0x03E#12 | .ftva => 0x040#12 | .ftkind => 0x041#12 | .walkpc => 0x042#12
  | .ftpc => 0x043#12 | .ptroot => 0x044#12
def dSReg (x : BitVec 12) : Option SReg :=
  let n := x.toNat
  if n < 0x008 then
    (match n with
     | 0 => some .cycle | 1 => some .gtime | 2 => some .gtcmp | 3 => some .preq | 4 => some .lwid | 5 => some .ctx
     | _ => none)
  else if h : n < 0x010 then some (.steer ⟨n % 8, by omega⟩)
  else if n = 0x010 then some .interval
  else if n = 0x011 then some .rwc
  else if n < 0x020 then none
  else if h : n < 0x030 then some (.hist ⟨n % 16, by omega⟩)
  else if h : n < 0x03D then some (.stall ⟨n - 0x030, by omega⟩)
  else (match n with
    | 0x03D => some .beatc | 0x03E => some .idle | 0x040 => some .ftva | 0x041 => some .ftkind
    | 0x042 => some .walkpc | 0x043 => some .ftpc | 0x044 => some .ptroot | _ => none)
theorem dSReg_steer : ∀ k : Fin 8, dSReg (eSReg (.steer k)) = some (.steer k) := by decide
theorem dSReg_hist : ∀ k : Fin 16, dSReg (eSReg (.hist k)) = some (.hist k) := by decide
theorem dSReg_stall : ∀ k : Fin 13, dSReg (eSReg (.stall k)) = some (.stall k) := by decide
@[simp] theorem dSReg_eSReg (r : SReg) : dSReg (eSReg r) = some r := by
  cases r with
  | steer k => exact dSReg_steer k
  | hist k => exact dSReg_hist k
  | stall k => exact dSReg_stall k
  | _ => rfl

/-! ### Modifier fields -/

/-- Source modifiers (11, R276), M[11:6]. -/
def eMods (m : FMods) : BitVec 6 :=
  cat 1 5 (b1 m.ac) (cat 1 4 (b1 m.ab) (cat 1 3 (b1 m.aa) (cat 1 2 (b1 m.nc) (cat 1 1 (b1 m.nb) (b1 m.na)))))
def dMods (x : BitVec 6) : FMods :=
  let y := lo 1 5 x
  let z := lo 1 4 y
  let u := lo 1 3 z
  let v := lo 1 2 u
  { ac := bit1 (hi 1 5 x), ab := bit1 (hi 1 4 y), aa := bit1 (hi 1 3 z), nc := bit1 (hi 1 2 u),
    nb := bit1 (hi 1 1 v), na := bit1 (lo 1 1 v) }
@[simp] theorem dMods_eMods (m : FMods) : dMods (eMods m) = m := by simp [dMods, eMods]

/-- M[5:0] of classes 3 and 4: RM and TY (09, R229). -/
def eRT (r : Rm) (t : Ty) : BitVec 6 := cat 2 4 (eRm r) (eT t)
def dRT (x : BitVec 6) : Option (Rm × Ty) := (dRm (hi 2 4 x)).bind fun r => (dT (lo 2 4 x)).map fun t => (r, t)
@[simp] theorem dRT_eRT (r : Rm) (t : Ty) : dRT (eRT r t) = some (r, t) := by simp [dRT, eRT]

/-- M[11:0] of class 3: modifiers, RM, TY. -/
def eFM (m : FMods) (r : Rm) (t : Ty) : BitVec 12 := cat 6 6 (eMods m) (eRT r t)
def dFM (x : BitVec 12) : Option (FMods × Rm × Ty) := (dRT (lo 6 6 x)).map fun p => (dMods (hi 6 6 x), p)
@[simp] theorem dFM_eFM (m : FMods) (r : Rm) (t : Ty) : dFM (eFM m r t) = some (m, r, t) := by simp [dFM, eFM]

/-- M[8:0] of the memory layout: SCO, ORD, SZ (09, Table 8). -/
def eAcc (c : Sco) (o : Ord) (z : Sz) : BitVec 9 := cat 3 6 (eSco c) (cat 3 3 (eOrd o) (eSz z))
def dAcc (x : BitVec 9) : Option (Sco × Ord × Sz) :=
  (dSco (hi 3 6 x)).bind fun c => (dOrd (hi 3 3 (lo 3 6 x))).bind fun o =>
    (dSz (lo 3 3 (lo 3 6 x))).map fun z => (c, o, z)
@[simp] theorem dAcc_eAcc (c : Sco) (o : Ord) (z : Sz) : dAcc (eAcc c o z) = some (c, o, z) := by simp [dAcc, eAcc]

/-- M[20:0] of the memory layout, with the field at M[12:9] (RCT, or ROP of RED) apart (09, Table 8). -/
def eMem (m : MemOp) (f : BitVec 4) : BitVec 21 := cat 6 15 m.off (cat 2 13 m.xs (cat 4 9 f (eAcc m.sco m.ord m.sz)))
/-- The field at M[12:9]. -/
def dMemF (x : BitVec 21) : BitVec 4 := hi 4 9 (lo 2 13 (lo 6 15 x))
def dMem (x : BitVec 48) (rct : BitVec 4) : Option MemOp :=
  (dR (fA x)).bind fun base => (dR (fB x)).bind fun idx =>
    (dAcc (lo 4 9 (lo 2 13 (lo 6 15 (fM x))))).map fun p =>
      { base, idx, off := hi 6 15 (fM x), xs := hi 2 13 (lo 6 15 (fM x)), rct, sco := p.1, ord := p.2.1, sz := p.2.2 }
/-- A word with a memory operand. -/
def memBody (d : BitVec 9) (m : MemOp) (f : BitVec 4) : BitVec 48 := rrr d (eR m.base) (eR m.idx) (eMem m f)
@[simp] theorem dMemF_body (d : BitVec 9) (m : MemOp) (f : BitVec 4) : dMemF (fM (memBody d m f)) = f := by
  simp [dMemF, memBody, eMem]
@[simp] theorem fD_memBody (d : BitVec 9) (m : MemOp) (f : BitVec 4) : fD (memBody d m f) = d := by simp [memBody]
@[simp] theorem dMem_body (d : BitVec 9) (m : MemOp) (f : BitVec 4) :
    dMem (memBody d m f) m.rct = some m := by simp [dMem, memBody, eMem]

/-! ### Shapes of words -/

def eRRR (d a b : Reg) (t : Ty) : BitVec 48 := rrr (eR d) (eR a) (eR b) (zx 17 4 (eT t))
def dRRR (f : Reg → Reg → Reg → Ty → Instr) (x : BitVec 48) : Option Instr :=
  (dR (fD x)).bind fun d => (dR (fA x)).bind fun a => (dR (fB x)).bind fun b =>
    (low 17 4 (fM x)).bind fun m => (dT m).map fun t => f d a b t
@[simp] theorem dRRR_e (f d a b t) : dRRR f (eRRR d a b t) = some (f d a b t) := by simp [dRRR, eRRR]

def eRR (d a : Reg) (t : Ty) : BitVec 48 := rrr (eR d) (eR a) 0#9 (zx 17 4 (eT t))
def dRR (f : Reg → Reg → Ty → Instr) (x : BitVec 48) : Option Instr :=
  unused (fB x) ((dR (fD x)).bind fun d => (dR (fA x)).bind fun a =>
    (low 17 4 (fM x)).bind fun m => (dT m).map fun t => f d a t)
@[simp] theorem dRR_e (f d a t) : dRR f (eRR d a t) = some (f d a t) := by simp [dRR, eRR]

def eRRI (d a : Reg) (i : BitVec 22) (t : Ty) : BitVec 48 := rri (eR d) (eR a) i (zx 4 4 (eT t))
def dRRI (f : Reg → Reg → BitVec 22 → Ty → Instr) (x : BitVec 48) : Option Instr :=
  (dR (fD x)).bind fun d => (dR (fA x)).bind fun a =>
    (low 4 4 (fMi x)).bind fun m => (dT m).map fun t => f d a (fI x) t
@[simp] theorem dRRI_e (f d a i t) : dRRI f (eRRI d a i t) = some (f d a i t) := by simp [dRRI, eRRI]

def eRRRC (d a b c : Reg) (t : Ty) : BitVec 48 := rrrc (eR d) (eR a) (eR b) (eR c) (zx 8 4 (eT t))
def dRRRC (f : Reg → Reg → Reg → Reg → Ty → Instr) (x : BitVec 48) : Option Instr :=
  (dR (fD x)).bind fun d => (dR (fA x)).bind fun a => (dR (fB x)).bind fun b => (dR (fC x)).bind fun c =>
    (low 8 4 (fMc x)).bind fun m => (dT m).map fun t => f d a b c t
@[simp] theorem dRRRC_e (f d a b c t) : dRRRC f (eRRRC d a b c t) = some (f d a b c t) := by simp [dRRRC, eRRRC]

/-- RRR with a condition, or LEA's shift, at M[6:4]. -/
def eCC (d : BitVec 9) (a b : Reg) (c : BitVec 3) (t : Ty) : BitVec 48 :=
  rrr d (eR a) (eR b) (zx 14 7 (cat 3 4 c (eT t)))
def dCC (f : Reg → Reg → BitVec 3 → Ty → Option Instr) (x : BitVec 48) : Option Instr :=
  (dR (fA x)).bind fun a => (dR (fB x)).bind fun b => (low 14 7 (fM x)).bind fun m =>
    (dT (lo 3 4 m)).bind fun t => f a b (hi 3 4 m) t
@[simp] theorem dCC_e (f d a b c t) : dCC f (eCC d a b c t) = f a b c t := by simp [dCC, eCC]
@[simp] theorem fD_eCC (d a b c t) : fD (eCC d a b c t) = d := by simp [eCC]

def eCCI (d : BitVec 9) (a : Reg) (i : BitVec 22) (c : BitVec 3) (t : Ty) : BitVec 48 :=
  rri d (eR a) i (zx 1 7 (cat 3 4 c (eT t)))
def dCCI (f : Reg → BitVec 22 → BitVec 3 → Ty → Option Instr) (x : BitVec 48) : Option Instr :=
  (dR (fA x)).bind fun a => (low 1 7 (fMi x)).bind fun m => (dT (lo 3 4 m)).bind fun t => f a (fI x) (hi 3 4 m) t
@[simp] theorem dCCI_e (f d a i c t) : dCCI f (eCCI d a i c t) = f a i c t := by simp [dCCI, eCCI]
@[simp] theorem fD_eCCI (d a i c t) : fD (eCCI d a i c t) = d := by simp [eCCI]

/-- Predicate words (10, R257). -/
def ePPP (d a b : Pred) : BitVec 48 := rrr (eP d) (eP a) (eP b) 0#21
def dPPP (f : Pred → Pred → Pred → Instr) (x : BitVec 48) : Option Instr :=
  only (fM x) 0#21 ((dP (fD x)).bind fun d => (dP (fA x)).bind fun a => (dP (fB x)).map fun b => f d a b)
@[simp] theorem dPPP_e (f d a b) : dPPP f (ePPP d a b) = some (f d a b) := by simp [dPPP, ePPP]

/-- Floating words of two sources (11, R276). -/
def eFF (d a b : Reg) (m : FMods) (t : Ty) (r : Rm) : BitVec 48 := rrr (eR d) (eR a) (eR b) (zx 9 12 (eFM m r t))
def dFF (f : Reg → Reg → Reg → FMods → Ty → Rm → Option Instr) (x : BitVec 48) : Option Instr :=
  (dR (fD x)).bind fun d => (dR (fA x)).bind fun a => (dR (fB x)).bind fun b =>
    (low 9 12 (fM x)).bind fun m => (dFM m).bind fun p => f d a b p.1 p.2.2 p.2.1
@[simp] theorem dFF_e (f d a b m t r) : dFF f (eFF d a b m t r) = f d a b m t r := by simp [dFF, eFF]

def eF1 (d a : Reg) (m : FMods) (t : Ty) (r : Rm) : BitVec 48 := rrr (eR d) (eR a) 0#9 (zx 9 12 (eFM m r t))
def dF1 (f : Reg → Reg → FMods → Ty → Rm → Option Instr) (x : BitVec 48) : Option Instr :=
  unused (fB x) ((dR (fD x)).bind fun d => (dR (fA x)).bind fun a =>
    (low 9 12 (fM x)).bind fun m => (dFM m).bind fun p => f d a p.1 p.2.2 p.2.1)
@[simp] theorem dF1_e (f d a m t r) : dF1 f (eF1 d a m t r) = f d a m t r := by simp [dF1, eF1]

def eF3 (d a b c : Reg) (m : FMods) (t : Ty) (r : Rm) : BitVec 48 := rrrc (eR d) (eR a) (eR b) (eR c) (eFM m r t)
def dF3 (f : Reg → Reg → Reg → Reg → FMods → Ty → Rm → Option Instr) (x : BitVec 48) : Option Instr :=
  (dR (fD x)).bind fun d => (dR (fA x)).bind fun a => (dR (fB x)).bind fun b => (dR (fC x)).bind fun c =>
    (dFM (fMc x)).bind fun p => f d a b c p.1 p.2.2 p.2.1
@[simp] theorem dF3_e (f d a b c m t r) : dF3 f (eF3 d a b c m t r) = f d a b c m t r := by simp [dF3, eF3]

/-- An entry that takes no rounding mode (11, R276). -/
def noRm (r : Rm) (i : Instr) : Option Instr := if r = .rne then some i else none
@[simp] theorem noRm_rne (i : Instr) : noRm .rne i = some i := rfl

/-- Conversions: ST at M[9:6] (11, R288). -/
def eCv (d a : Reg) (t sty : Ty) (r : Rm) : BitVec 48 := rrr (eR d) (eR a) 0#9 (zx 11 10 (cat 4 6 (eT sty) (eRT r t)))
def dCv (f : Reg → Reg → Ty → Ty → Rm → Instr) (x : BitVec 48) : Option Instr :=
  unused (fB x) ((dR (fD x)).bind fun d => (dR (fA x)).bind fun a =>
    (low 11 10 (fM x)).bind fun m => (dT (hi 4 6 m)).bind fun sty => (dRT (lo 4 6 m)).map fun p => f d a p.2 sty p.1)
@[simp] theorem dCv_e (f d a t sty r) : dCv f (eCv d a t sty r) = some (f d a t sty r) := by simp [dCv, eCv]

/-- Words with no field (10, R258; 14, R345). -/
def eNone : BitVec 48 := rrr 0#9 0#9 0#9 0#21
def dNone (i : Instr) (x : BitVec 48) : Option Instr := if x = eNone then some i else none
@[simp] theorem dNone_e (i : Instr) : dNone i eNone = some i := by simp [dNone]

/-- Words with one or two register fields and no modifier. -/
def eD (d : Reg) : BitVec 48 := rrr (eR d) 0#9 0#9 0#21
def dD (f : Reg → Instr) (x : BitVec 48) : Option Instr :=
  unused (fA x) (unused (fB x) (only (fM x) 0#21 ((dR (fD x)).map f)))
@[simp] theorem dD_e (f d) : dD f (eD d) = some (f d) := by simp [dD, eD]
def eA (a : Reg) : BitVec 48 := rrr 0#9 (eR a) 0#9 0#21
def dA (f : Reg → Instr) (x : BitVec 48) : Option Instr :=
  unused (fD x) (unused (fB x) (only (fM x) 0#21 ((dR (fA x)).map f)))
@[simp] theorem dA_e (f a) : dA f (eA a) = some (f a) := by simp [dA, eA]
def eDA (d a : Reg) : BitVec 48 := rrr (eR d) (eR a) 0#9 0#21
def dDA (f : Reg → Reg → Instr) (x : BitVec 48) : Option Instr :=
  unused (fB x) (only (fM x) 0#21 ((dR (fD x)).bind fun d => (dR (fA x)).map fun a => f d a))
@[simp] theorem dDA_e (f d a) : dDA f (eDA d a) = some (f d a) := by simp [dDA, eDA]
def eTA (t : Tile) (a : Reg) : BitVec 48 := rrr (eTile t) (eR a) 0#9 0#21
def dTA (f : Tile → Reg → Instr) (x : BitVec 48) : Option Instr :=
  unused (fB x) (only (fM x) 0#21 ((dTile (fD x)).bind fun t => (dR (fA x)).map fun a => f t a))
@[simp] theorem dTA_e (f t a) : dTA f (eTA t a) = some (f t a) := by simp [dTA, eTA]

/-- Copies (12, R304). -/
def eCpy (d a b c : Reg) : BitVec 48 := rrrc (eR d) (eR a) (eR b) (eR c) 0#12
def dCpy (f : Reg → Reg → Reg → Reg → Instr) (x : BitVec 48) : Option Instr :=
  only (fMc x) 0#12 ((dR (fD x)).bind fun d => (dR (fA x)).bind fun a => (dR (fB x)).bind fun b =>
    (dR (fC x)).map fun c => f d a b c)
@[simp] theorem dCpy_e (f d a b c) : dCpy f (eCpy d a b c) = some (f d a b c) := by simp [dCpy, eCpy]

/-- Branches (09, Table 2). -/
def eBr (off : W32) : BitVec 48 := ri 0#9 off 0#7
def dBr (f : W32 → Instr) (x : BitVec 48) : Option Instr := unused (fD x) (only (fMj x) 0#7 (some (f (fJ x))))
@[simp] theorem dBr_e (f off) : dBr f (eBr off) = some (f off) := by simp [dBr, eBr]

/-- Eight bits of an RRI immediate, the rest zero (12, R303; 14, R360). -/
def eI8 (c : Byte) : BitVec 48 := rri 0#9 0#9 (zx 14 8 c) 0#8
def dI8 (f : Byte → Instr) (x : BitVec 48) : Option Instr :=
  unused (fD x) (unused (fA x) (only (fMi x) 0#8 ((low 14 8 (fI x)).map f)))
@[simp] theorem dI8_e (f c) : dI8 f (eI8 c) = some (f c) := by simp [dI8, eI8]

/-- The four uses of PMOV (10, Table 7): MODE at M[5:4]. -/
def ePMov : PMov → BitVec 48
  | .pp d a => rrr (eP d) (eP a) 0#9 (zx 15 6 (cat 2 4 0#2 0#4))
  | .rd d a => rrr (eR d) (eP a) 0#9 (zx 15 6 (cat 2 4 1#2 0#4))
  | .nz d a => rrr (eP d) (eR a) 0#9 (zx 15 6 (cat 2 4 2#2 0#4))
  | .bits d a => rrr (eP d) (eR a) 0#9 (zx 15 6 (cat 2 4 3#2 0#4))
def dPMov (h : Hdr) (x : BitVec 48) : Option Instr :=
  unused (fB x) ((low 15 6 (fM x)).bind fun m => only (lo 2 4 m) 0#4
    (match (hi 2 4 m).toNat with
     | 0 => (dP (fD x)).bind fun d => (dP (fA x)).map fun a => .pmov h (.pp d a)
     | 1 => (dR (fD x)).bind fun d => (dP (fA x)).map fun a => .pmov h (.rd d a)
     | 2 => (dP (fD x)).bind fun d => (dR (fA x)).map fun a => .pmov h (.nz d a)
     | _ => (dP (fD x)).bind fun d => (dR (fA x)).map fun a => .pmov h (.bits d a)))
@[simp] theorem dPMov_e (h m) : dPMov h (ePMov m) = some (.pmov h m) := by cases m <;> simp [dPMov, ePMov]

/-- POLL (14, R338): mode at M[1:0], INV at M[2]. -/
def ePoll (p : PollDst) (a : Pred) (inv : Bool) : BitVec 48 :=
  match p with
  | .some d => rrr (eP d) (eP a) 0#9 (zx 18 3 (cat 1 2 (b1 inv) 0#2))
  | .every d => rrr (eP d) (eP a) 0#9 (zx 18 3 (cat 1 2 (b1 inv) 1#2))
  | .same d => rrr (eP d) (eP a) 0#9 (zx 18 3 (cat 1 2 (b1 inv) 2#2))
  | .mask d => rrr (eR d) (eP a) 0#9 (zx 18 3 (cat 1 2 (b1 inv) 3#2))
def dPoll (h : Hdr) (x : BitVec 48) : Option Instr :=
  unused (fB x) ((low 18 3 (fM x)).bind fun m => (dP (fA x)).bind fun a =>
    (match (lo 1 2 m).toNat with
     | 0 => (dP (fD x)).map fun d => .poll h (.some d) a (bit1 (hi 1 2 m))
     | 1 => (dP (fD x)).map fun d => .poll h (.every d) a (bit1 (hi 1 2 m))
     | 2 => (dP (fD x)).map fun d => .poll h (.same d) a (bit1 (hi 1 2 m))
     | _ => (dR (fD x)).map fun d => .poll h (.mask d) a (bit1 (hi 1 2 m))))
@[simp] theorem dPoll_e (h p a inv) : dPoll h (ePoll p a inv) = some (.poll h p a inv) := by
  cases p <;> simp [dPoll, ePoll]

/-- QTRY (14, R348): push at M[3], the predicate at M[2:0]. -/
def eQTry : QTry → BitVec 48
  | .pop p d q => rrr (eR d) (eQ q) 0#9 (zx 17 4 (cat 1 3 0#1 (BitVec.ofNat 3 p.val)))
  | .push p q b => rrr 0#9 (eQ q) (eR b) (zx 17 4 (cat 1 3 1#1 (BitVec.ofNat 3 p.val)))
def dQTry (h : Hdr) (x : BitVec 48) : Option Instr :=
  (low 17 4 (fM x)).bind fun m => (dQ (fA x)).bind fun q =>
    if bit1 (hi 1 3 m) then unused (fD x) ((dR (fB x)).map fun b => .qtry h (.push (lo 1 3 m).toFin q b))
    else unused (fB x) ((dR (fD x)).map fun d => .qtry h (.pop (lo 1 3 m).toFin d q))
@[simp] theorem dQTry_e (h o) : dQTry h (eQTry o) = some (.qtry h o) := by
  cases o <;> simp [dQTry, eQTry, bit1]

/-- Slots of a paired word (09, Table 4). -/
def eSlot (x : Slot) : BitVec 31 := cat 7 24 (ePop x.op) (cat 9 15 (eR x.d) (cat 9 6 (eR x.a) x.k))
def dSlot (x : BitVec 31) : Option Slot :=
  (dPop (hi 7 24 x)).bind fun op => (dR (hi 9 15 (lo 7 24 x))).bind fun d =>
    (dR (hi 9 6 (lo 9 15 (lo 7 24 x)))).map fun a => ⟨op, d, a, lo 9 6 (lo 9 15 (lo 7 24 x))⟩
@[simp] theorem dSlot_e (x : Slot) : dSlot (eSlot x) = some x := by simp [dSlot, eSlot]

/-- TLBW levels 0 to 2 (14, R358). -/
def dLvl (x : BitVec 2) : Option (Fin 3) := if h : x.toNat < 3 then some ⟨x.toNat, h⟩ else none
@[simp] theorem dLvl_e (l : Fin 3) : dLvl (BitVec.ofNat 2 l.val) = some l := by
  have h : l.val % 4 = l.val := Nat.mod_eq_of_lt (by omega)
  simp [dLvl, h]

/-! ### The opcode map (09, R235, R236 Table 11), class by class -/

/-- Class 0: integer. -/
def dClass0 (h : Hdr) (x : BitVec 48) : Nat → Option Instr
  | 0x01 => dRRR (.iadd h) x
  | 0x02 => dRRR (.isub h) x
  | 0x03 => dRRR (.iadds h) x
  | 0x04 => dRRR (.isubs h) x
  | 0x05 => dRRR (.imul h) x
  | 0x06 => dRRR (.imulh h) x
  | 0x07 => dRRRC (.imad h) x
  | 0x08 => dRRRC (.imadw h) x
  | 0x09 => dRRR (.idiv h) x
  | 0x0a => dRRR (.irem h) x
  | 0x0b => dRRR (.imin h) x
  | 0x0c => dRRR (.imax h) x
  | 0x0d => dRR (.iabs h) x
  | 0x0e => dRR (.ineg h) x
  | 0x0f => dCC (fun a b sh t => (dR (fD x)).map fun d => .lea h d a b sh t) x
  | 0x10 => dRR (.mov h) x
  | 0x11 => dCC (fun a b c t => (dR (fD x)).bind fun d => (dCmp c).map fun c => .icmp h d a b c t) x
  | 0x12 => dCC (fun a b c t => (dP (fD x)).bind fun d => (dCmp c).map fun c => .icmpp h d a b c t) x
  | 0x13 => (dR (fD x)).bind fun d => (dR (fA x)).bind fun a => (dR (fB x)).bind fun b => (dP (fC x)).bind fun c =>
      (low 8 4 (fMc x)).bind fun m => (dT m).map fun t => .pick h d a b c t
  | 0x14 => (dR (fD x)).bind fun d => (low 3 4 (fMj x)).bind fun m => (dT m).map fun t => .movi h d (fJ x) t
  | 0x15 => only (fMj x) 3#7 ((dR (fD x)).map fun d => .movih h d (fJ x))
  | 0x21 => dRRI (.iaddRri h) x
  | 0x22 => dRRI (.isubRri h) x
  | 0x23 => dRRI (.iaddsRri h) x
  | 0x24 => dRRI (.isubsRri h) x
  | 0x25 => dRRI (.imulRri h) x
  | 0x2b => dRRI (.iminRri h) x
  | 0x2c => dRRI (.imaxRri h) x
  | 0x31 => dCCI (fun a i c t => (dR (fD x)).bind fun d => (dCmp c).map fun c => .icmpRri h d a i c t) x
  | 0x32 => dCCI (fun a i c t => (dP (fD x)).bind fun d => (dCmp c).map fun c => .icmppRri h d a i c t) x
  | _ => none

/-- Class 1: bits. -/
def dClass1 (h : Hdr) (x : BitVec 48) : Nat → Option Instr
  | 0x01 => dRRR (.and h) x
  | 0x02 => dRRR (.or h) x
  | 0x03 => dRRR (.xor h) x
  | 0x04 => dRR (.not h) x
  | 0x05 => dRRR (.andn h) x
  | 0x06 => dRRR (.shl h) x
  | 0x07 => dRRR (.shr h) x
  | 0x08 => dRRR (.sar h) x
  | 0x09 => dRRR (.rotl h) x
  | 0x0a => (dR (fD x)).bind fun d => (dR (fA x)).bind fun a => (dR (fB x)).bind fun b => (dR (fC x)).bind fun c =>
      (low 7 5 (fMc x)).bind fun m => only (lo 1 4 m) 1#4 (some (.funnel h d a b c (bit1 (hi 1 4 m))))
  | 0x0b => dRR (.popc h) x
  | 0x0c => dRR (.clz h) x
  | 0x0d => dRR (.ctz h) x
  | 0x0e => dRR (.brev h) x
  | 0x0f => dRRRC (.bfx h) x
  | 0x10 => dRRRC (.bfi h) x
  | 0x11 => only (fMc x) 1#12 ((dR (fD x)).bind fun d => (dR (fA x)).bind fun a => (dR (fB x)).bind fun b => (dR
      (fC x)).map fun c => .bmrg h d a b c)
  | 0x12 => unused (fB x) ((dR (fD x)).bind fun d => (dR (fA x)).bind fun a => (low 12 9 (fM x)).bind fun m => (dT
      (hi 4 4 (lo 1 8 m))).bind fun sty => (dT (lo 4 4 (lo 1 8 m))).map fun t => .cnvi h d a t sty (bit1 (hi 1 8 m)))
  | 0x21 => dRRI (.andRri h) x
  | 0x22 => dRRI (.orRri h) x
  | 0x23 => dRRI (.xorRri h) x
  | 0x25 => dRRI (.andnRri h) x
  | 0x26 => dRRI (.shlRri h) x
  | 0x27 => dRRI (.shrRri h) x
  | 0x28 => dRRI (.sarRri h) x
  | 0x29 => dRRI (.rotlRri h) x
  | _ => none

/-- Class 2: predicate. -/
def dClass2 (h : Hdr) (x : BitVec 48) : Nat → Option Instr
  | 0x01 => dPPP (.pand h) x
  | 0x02 => dPPP (.por h) x
  | 0x03 => dPPP (.pxor h) x
  | 0x04 => unused (fB x) (only (fM x) 0#21 ((dP (fD x)).bind fun d => (dP (fA x)).map fun a => .pnot h d a))
  | 0x05 => dPMov h x
  | 0x06 => only (fMj x) 0#7 ((dP (fD x)).map fun d => .pset h d (fJ x))
  | _ => none

/-- Class 3: floating. -/
def dClass3 (h : Hdr) (x : BitVec 48) : Nat → Option Instr
  | 0x01 => dFF (fun d a b m t r => some (.fadd h d a b m t r)) x
  | 0x02 => dFF (fun d a b m t r => some (.fsub h d a b m t r)) x
  | 0x03 => dFF (fun d a b m t r => some (.fmul h d a b m t r)) x
  | 0x04 => dF3 (fun d a b c m t r => some (.ffma h d a b c m t r)) x
  | 0x05 => dFF (fun d a b m t r => noRm r (.fmin h d a b m t)) x
  | 0x06 => dFF (fun d a b m t r => noRm r (.fmax h d a b m t)) x
  | 0x07 => dFF (fun d a b m t r => noRm r (.fminx h d a b m t)) x
  | 0x08 => dFF (fun d a b m t r => noRm r (.fmaxx h d a b m t)) x
  | 0x09 => dFF (fun d a b m t r => some (.fdiv h d a b m t r)) x
  | 0x0a => dF1 (fun d a m t r => some (.fsqrt h d a m t r)) x
  | 0x0b => dF1 (fun d a m t r => some (.frcp h d a m t r)) x
  | 0x0c => dF1 (fun d a m t r => some (.frsq h d a m t r)) x
  | 0x0d => dF1 (fun d a m t r => some (.fex2 h d a m t r)) x
  | 0x0e => dF1 (fun d a m t r => some (.flg2 h d a m t r)) x
  | 0x0f => (dP (fD x)).bind fun d => (dR (fA x)).bind fun a => (dR (fB x)).bind fun b => (low 6 15 (fM x)).bind
      fun m => (dFCmp (hi 3 12 m)).bind fun c => (dFM (lo 3 12 m)).bind fun p => noRm p.2.1 (.fcmpp h d a b p.1 c
      p.2.2)
  | 0x10 => dRR (.fclass h) x
  | 0x11 => dF1 (fun d a m t r => some (.frnd h d a m t r)) x
  | _ => none

/-- Class 4: packed and conversion. -/
def dClass4 (h : Hdr) (x : BitVec 48) : Nat → Option Instr
  | 0x01 => dFF (fun d a b m t r => some (.pkadd h d a b m t r)) x
  | 0x02 => dFF (fun d a b m t r => some (.pkmul h d a b m t r)) x
  | 0x03 => dF3 (fun d a b c m t r => some (.pkfma h d a b c m t r)) x
  | 0x04 => (dR (fD x)).bind fun d => (dR (fA x)).bind fun a => (dR (fB x)).bind fun b => (dR (fC x)).bind fun c =>
      (low 3 9 (fMc x)).bind fun m => only (lo 1 6 (lo 1 7 (lo 1 8 m))) 0#6 (some (.bdot4 h d a b c (bit1 (hi 1 6
      (lo 1 7 (lo 1 8 m)))) (bit1 (hi 1 7 (lo 1 8 m))) (bit1 (hi 1 8 m))))
  | 0x05 => dF3 (fun d a b c m t r => some (.pkdot h d a b c m t r)) x
  | 0x06 => dCv (.fcvt h) x
  | 0x07 => dCv (.ftoi h) x
  | 0x08 => dCv (.itof h) x
  | 0x09 => (dR (fD x)).bind fun d => (dR (fA x)).bind fun a => (dR (fB x)).bind fun b => (low 14 7 (fM x)).bind
      fun m => (dRT (lo 1 6 m)).map fun p => .fpack h d a b p.2 p.1 (bit1 (hi 1 6 m))
  | 0x0a => unused (fB x) ((dR (fD x)).bind fun d => (dR (fA x)).bind fun a => (low 13 8 (fM x)).bind fun m => (dRT
      (lo 2 6 m)).bind fun p => noRm p.1 (.funpk h d a p.2 (hi 2 6 m)))
  | 0x0b => only (fM x) 1#21 ((dR (fD x)).bind fun d => (dR (fA x)).bind fun a => (dR (fB x)).map fun b => .rngk h
      d a b)
  | _ => none

/-- Class 5: control. -/
def dClass5 (h : Hdr) (x : BitVec 48) : Nat → Option Instr
  | 0x01 => dBr (.bra h) x
  | 0x02 => dA (.brx h) x
  | 0x03 => only (fMj x) 0#7 ((dR (fD x)).map fun d => .call h d (fJ x))
  | 0x04 => dA (.ret h) x
  | 0x05 => dBr (.mjoin h) x
  | 0x06 => dNone (.join h) x
  | 0x07 => dNone (.exit h) x
  | 0x08 => dNone (.nop h) x
  | 0x09 => dNone (.region h) x
  | 0x0a => only (fM x) 0#21 ((dR (fD x)).bind fun d => (dR (fA x)).bind fun a => (dR (fB x)).map fun b => .yield h
      d a b)
  | _ => none

/-- Class 6: cross-lane. -/
def dClass6 (h : Hdr) (x : BitVec 48) : Nat → Option Instr
  | 0x01 => (dR (fD x)).bind fun d => (dR (fA x)).bind fun a => (dR (fB x)).bind fun b => (low 16 5 (fM x)).bind
      fun m => (dSeg (hi 3 2 m)).bind fun sg => (dLxMode (lo 3 2 m)).map fun mo => .lxch h d a b mo sg
  | 0x02 => dPoll h x
  | 0x03 => unused (fB x) ((dR (fD x)).bind fun d => (dR (fA x)).bind fun a => (low 14 7 (fM x)).bind fun m =>
      (dLOp (hi 3 4 m)).bind fun o => (dT (lo 3 4 m)).map fun t => .lred h d a o t)
  | 0x04 => unused (fB x) ((dR (fD x)).bind fun d => (dR (fA x)).bind fun a => (low 16 5 (fM x)).bind fun m => (dT
      (lo 1 4 m)).map fun t => .peer h d a t (bit1 (hi 1 4 m)))
  | 0x05 => (dR (fD x)).bind fun d => (dR (fA x)).bind fun a => (dR (fB x)).bind fun b => (low 20 1 (fM x)).map fun
      m => .bcast h d a b (bit1 m)
  | 0x06 => (dR (fD x)).bind fun d => (dR (fA x)).bind fun a => (dR (fB x)).bind fun b => (low 16 5 (fM x)).map fun
      m => .regroup h d a b m
  | 0x21 => (dR (fD x)).bind fun d => (dR (fA x)).bind fun a => (low 3 5 (fMi x)).bind fun m => (dSeg (hi 3 2
      m)).bind fun sg => (dLxMode (lo 3 2 m)).map fun mo => .lxchRri h d a (fI x) mo sg
  | _ => none

/-- Class 7: loads and stores. -/
def dClass7 (h : Hdr) (x : BitVec 48) : Nat → Option Instr
  | 0x01 => (dR (fD x)).bind fun d => (dMem x (dMemF (fM x))).map fun m => .ld h d m
  | 0x02 => (dR (fD x)).bind fun d => (dMem x (dMemF (fM x))).map fun m => .st h d m
  | 0x03 => (dR (fD x)).bind fun d => (dMem x (dMemF (fM x))).map fun m => .lds h d m
  | 0x04 => (dR (fD x)).bind fun d => (dMem x (dMemF (fM x))).map fun m => .sts h d m
  | 0x05 => (low 8 1 (fD x)).bind fun n => (dMem x (dMemF (fM x))).map fun m => .pref h (bit1 n) m
  | 0x06 => unused (fD x) (unused (fB x) ((dR (fA x)).bind fun a => (low 19 2 (fM x)).bind fun m => (dCmnt m).map
      fun o => .cmnt h a o))
  | 0x07 => unused (fD x) (unused (fA x) (unused (fB x) ((low 12 9 (fM x)).bind fun m => only (lo 3 3 (lo 3 6 m))
      0#3 ((dSco (hi 3 6 m)).bind fun c => (dOrd (hi 3 3 (lo 3 6 m))).map fun o => .fence h o c))))
  | 0x08 => dNone (.efence h) x
  | _ => none

/-- Class 8: atomics and transactions. -/
def dClass8 (h : Hdr) (x : BitVec 48) : Nat → Option Instr
  | 0x01 => (dR (fD x)).bind fun d => (dR (fA x)).bind fun a => (dR (fB x)).bind fun b => (dR (fC x)).bind fun c =>
      (dAOp (hi 3 9 (fMc x))).bind fun o => (dAcc (lo 3 9 (fMc x))).map fun p => .atom h d a b c o p.2.2 p.2.1 p.1
  | 0x02 => (dR (fD x)).bind fun d => (dROp (dMemF (fM x))).bind fun o => (dMem x 0#4).map fun m => .red h d m o
  | 0x03 => (dR (fD x)).bind fun d => (dMem x (dMemF (fM x))).map fun m => .redo h d m
  | 0x04 => dNone (.txb h) x
  | 0x05 => dNone (.txe h) x
  | 0x06 => dI8 (.txa h) x
  | 0x07 => dD (.txq h) x
  | _ => none

/-- Class 9: copies, batches and subscriptions. -/
def dClass9 (h : Hdr) (x : BitVec 48) : Nat → Option Instr
  | 0x01 => dCpy (.cpy h) x
  | 0x02 => dCpy (.cpys h) x
  | 0x03 => dCpy (.cpyx h) x
  | 0x04 => unused (fA x) (unused (fB x) ((dR (fD x)).bind fun d => (low 19 2 (fM x)).bind fun m => (dCls m).map
      fun k => .batch h d k))
  | 0x05 => unused (fD x) ((dR (fA x)).bind fun a => (low 6 2 (fMi x)).bind fun m => (dCls m).map fun k => .waitb h
      a (fI x) k)
  | 0x06 => unused (fD x) (unused (fA x) ((low 6 2 (fMi x)).bind fun m => (dCls m).map fun k => .waitn h (fI x) k))
  | 0x07 => (dR (fD x)).bind fun d => (dR (fA x)).bind fun a => (dR (fB x)).bind fun b => (dR (fC x)).bind fun c =>
      (low 11 1 (fMc x)).map fun m => .subs h d a b c (bit1 m)
  | 0x08 => dDA (.unsub h) x
  | 0x09 => dNone (.subfl h) x
  | 0x0a => dDA (.subq h) x
  | _ => none

/-- Class 10: matrix. -/
def dClass10 (h : Hdr) (x : BitVec 48) : Nat → Option Instr
  | 0x01 => (dTile (fD x)).bind fun t => (dR (fA x)).bind fun a => (dR (fB x)).bind fun b => (dR (fC x)).bind fun c
      => (low 4 8 (fMc x)).bind fun m => (dMForm (lo 1 2 (lo 1 3 (lo 4 4 m)))).map fun f => .mma h t a b c f (bit1
      (hi 1 2 (lo 1 3 (lo 4 4 m)))) (bit1 (hi 1 3 (lo 4 4 m))) (hi 4 4 m).toFin
  | 0x02 => unused (fA x) (unused (fB x) (only (fM x) 0#21 ((dTile (fD x)).map fun t => .mzero h t)))
  | 0x03 => dTA (.mldt h) x
  | 0x04 => dTA (.mstt h) x
  | 0x05 => only (fMc x) 0#12 ((dTile (fD x)).bind fun t => (dR (fA x)).bind fun a => (dR (fB x)).bind fun b => (dR
      (fC x)).map fun c => .mepi h t a b c)
  | 0x06 => (dTile (fD x)).bind fun t => (dTile (fA x)).bind fun k => (dR (fB x)).bind fun b => (low 14 7 (fM
      x)).map fun m => .mchk h t k b (lo 1 6 m) (bit1 (hi 1 6 m))
  | 0x07 => unused (fB x) (only (fM x) 0#21 ((dR (fD x)).bind fun d => (dTile (fA x)).map fun t => .mzmap h d t))
  | _ => none

/-- Class 11: barriers, queues, collectives and launch. -/
def dClass11 (h : Hdr) (x : BitVec 48) : Nat → Option Instr
  | 0x01 => dNone (.bar h) x
  | 0x02 => dNone (.bara h) x
  | 0x03 => dNone (.barw h) x
  | 0x04 => dNone (.cbar h) x
  | 0x05 => dNone (.gbar h) x
  | 0x06 => unused (fB x) (only (fM x) 0#21 ((dR (fD x)).bind fun d => (dQ (fA x)).map fun q => .qcnt h d q))
  | 0x07 => dQTry h x
  | 0x08 => unused (fD x) (unused (fB x) (unused (fC x) (only (fMc x) 0#12 ((dR (fA x)).map fun a => .coll h a))))
  | 0x09 => dA (.cabort h) x
  | 0x0a => dDA (.launch h) x
  | 0x0b => dDA (.lwait h) x
  | _ => none

/-- Class 12: system and trap. -/
def dClass12 (h : Hdr) (x : BitVec 48) : Nat → Option Instr
  | 0x01 => unused (fA x) (only (fMi x) 0#8 ((dR (fD x)).bind fun d => (low 10 12 (fI x)).bind fun n => (dSReg
      n).map fun r => .srd h d r))
  | 0x02 => unused (fD x) (only (fMi x) 0#8 ((dR (fA x)).bind fun a => (low 10 12 (fI x)).bind fun n => (dSReg
      n).map fun r => .swr h a r))
  | 0x03 => dBr (.trap h) x
  | 0x04 => dBr (.bpt h) x
  | 0x05 => dBr (.mark h) x
  | _ => none

/-- Class 13: supervisor and translation. -/
def dClass13 (h : Hdr) (x : BitVec 48) : Nat → Option Instr
  | 0x01 => unused (fD x) ((dR (fA x)).bind fun a => (dR (fB x)).bind fun b => (low 19 2 (fM x)).bind fun m =>
      (dLvl m).map fun l => .tlbw h a b l)
  | 0x02 => unused (fD x) ((dR (fA x)).bind fun a => (dR (fB x)).bind fun b => (low 20 1 (fM x)).map fun m => .tlbi
      h a b (bit1 m))
  | 0x03 => dI8 (.hret h) x
  | _ => none

/-- The full word of an opcode (09, R220, R235): class at OP[9:6], operation at OP[5:0]. -/
def dOp (h : Hdr) (x : BitVec 48) (c op : Nat) : Option Instr :=
  match c with
  | 0 => dClass0 h x op
  | 1 => dClass1 h x op
  | 2 => dClass2 h x op
  | 3 => dClass3 h x op
  | 4 => dClass4 h x op
  | 5 => dClass5 h x op
  | 6 => dClass6 h x op
  | 7 => dClass7 h x op
  | 8 => dClass8 h x op
  | 9 => dClass9 h x op
  | 10 => dClass10 h x op
  | 11 => dClass11 h x op
  | 12 => dClass12 h x op
  | 13 => dClass13 h x op
  | _ => none

/-- A full word (09, Table 1). -/
def full (h : Hdr) (c op : Nat) (x : BitVec 48) : W64 :=
  cat 1 63 0#1 (cat 1 62 (b1 h.sw) (cat 4 58 (BitVec.ofNat 4 c) (cat 6 52 (BitVec.ofNat 6 op)
    (cat 3 49 (BitVec.ofNat 3 h.g.val) (cat 1 48 (b1 h.gn) x)))))

/-- A paired word (09, Table 3). -/
def paired (sw : Bool) (x y : Slot) : W64 :=
  cat 1 63 1#1 (cat 1 62 (b1 sw) (cat 31 31 (eSlot x) (eSlot y)))

/-- The instruction of a word's fields, before its entry's own conditions are looked at. -/
def decodeRaw (w : W64) : Option Instr :=
  let x := lo 1 63 w
  let sw := bit1 (hi 1 62 x)
  let y := lo 1 62 x
  if bit1 (hi 1 63 w) then
    (dSlot (hi 31 31 y)).bind fun a => (dSlot (lo 31 31 y)).map fun b => .pairedWord sw a b
  else
    let z := lo 4 58 y
    let u := lo 6 52 z
    let v := lo 3 49 u
    dOp { sw, g := (hi 3 49 u).toFin, gn := bit1 (hi 1 48 v) } (lo 1 48 v) (hi 4 58 y).toNat (hi 6 52 z).toNat

/-- The decoder: the instruction of a word, or none for an encoding that is no instruction (09, R237 order 1). -/
def decode (w : W64) : Option Instr :=
  match decodeRaw w with
  | some i => if i.wellFormed then some i else none
  | none => none

/-- The word of an instruction, from the same tables. A row that has no word encodes as the all-zero word, which is
no instruction (09, R237). -/
def encode : Instr → W64
  | .iadd h d a b t => full h 0 0x01 (eRRR d a b t)
  | .iaddRri h d a i t => full h 0 0x21 (eRRI d a i t)
  | .isub h d a b t => full h 0 0x02 (eRRR d a b t)
  | .isubRri h d a i t => full h 0 0x22 (eRRI d a i t)
  | .iadds h d a b t => full h 0 0x03 (eRRR d a b t)
  | .iaddsRri h d a i t => full h 0 0x23 (eRRI d a i t)
  | .isubs h d a b t => full h 0 0x04 (eRRR d a b t)
  | .isubsRri h d a i t => full h 0 0x24 (eRRI d a i t)
  | .imul h d a b t => full h 0 0x05 (eRRR d a b t)
  | .imulRri h d a i t => full h 0 0x25 (eRRI d a i t)
  | .imulh h d a b t => full h 0 0x06 (eRRR d a b t)
  | .imad h d a b c t => full h 0 0x07 (eRRRC d a b c t)
  | .imadw h d a b c t => full h 0 0x08 (eRRRC d a b c t)
  | .idiv h d a b t => full h 0 0x09 (eRRR d a b t)
  | .irem h d a b t => full h 0 0x0a (eRRR d a b t)
  | .imin h d a b t => full h 0 0x0b (eRRR d a b t)
  | .iminRri h d a i t => full h 0 0x2b (eRRI d a i t)
  | .imax h d a b t => full h 0 0x0c (eRRR d a b t)
  | .imaxRri h d a i t => full h 0 0x2c (eRRI d a i t)
  | .iabs h d a t => full h 0 0x0d (eRR d a t)
  | .ineg h d a t => full h 0 0x0e (eRR d a t)
  | .lea h d a b sh t => full h 0 0x0f (eCC (eR d) a b sh t)
  | .mov h d a t => full h 0 0x10 (eRR d a t)
  | .icmp h d a b c t => full h 0 0x11 (eCC (eR d) a b (eCmp c) t)
  | .icmpRri h d a i c t => full h 0 0x31 (eCCI (eR d) a i (eCmp c) t)
  | .icmpp h d a b c t => full h 0 0x12 (eCC (eP d) a b (eCmp c) t)
  | .icmppRri h d a i c t => full h 0 0x32 (eCCI (eP d) a i (eCmp c) t)
  | .pick h d a b c t => full h 0 0x13 (rrrc (eR d) (eR a) (eR b) (eP c) (zx 8 4 (eT t)))
  | .movi h d i t => full h 0 0x14 (ri (eR d) i (zx 3 4 (eT t)))
  | .movih h d i => full h 0 0x15 (ri (eR d) i 3#7)
  | .and h d a b t => full h 1 0x01 (eRRR d a b t)
  | .andRri h d a i t => full h 1 0x21 (eRRI d a i t)
  | .or h d a b t => full h 1 0x02 (eRRR d a b t)
  | .orRri h d a i t => full h 1 0x22 (eRRI d a i t)
  | .xor h d a b t => full h 1 0x03 (eRRR d a b t)
  | .xorRri h d a i t => full h 1 0x23 (eRRI d a i t)
  | .not h d a t => full h 1 0x04 (eRR d a t)
  | .andn h d a b t => full h 1 0x05 (eRRR d a b t)
  | .andnRri h d a i t => full h 1 0x25 (eRRI d a i t)
  | .shl h d a b t => full h 1 0x06 (eRRR d a b t)
  | .shlRri h d a i t => full h 1 0x26 (eRRI d a i t)
  | .shr h d a b t => full h 1 0x07 (eRRR d a b t)
  | .shrRri h d a i t => full h 1 0x27 (eRRI d a i t)
  | .sar h d a b t => full h 1 0x08 (eRRR d a b t)
  | .sarRri h d a i t => full h 1 0x28 (eRRI d a i t)
  | .rotl h d a b t => full h 1 0x09 (eRRR d a b t)
  | .rotlRri h d a i t => full h 1 0x29 (eRRI d a i t)
  | .funnel h d a b c r => full h 1 0x0a (rrrc (eR d) (eR a) (eR b) (eR c) (zx 7 5 (cat 1 4 (b1 r) 1#4)))
  | .popc h d a t => full h 1 0x0b (eRR d a t)
  | .clz h d a t => full h 1 0x0c (eRR d a t)
  | .ctz h d a t => full h 1 0x0d (eRR d a t)
  | .brev h d a t => full h 1 0x0e (eRR d a t)
  | .bfx h d a b c t => full h 1 0x0f (eRRRC d a b c t)
  | .bfi h d a b c t => full h 1 0x10 (eRRRC d a b c t)
  | .bmrg h d a b c => full h 1 0x11 (rrrc (eR d) (eR a) (eR b) (eR c) 1#12)
  | .cnvi h d a t sty sat => full h 1 0x12 (rrr (eR d) (eR a) 0#9 (zx 12 9 (cat 1 8 (b1 sat) (cat 4 4 (eT sty) (eT
      t)))))
  | .pand h d a b => full h 2 0x01 (ePPP d a b)
  | .por h d a b => full h 2 0x02 (ePPP d a b)
  | .pxor h d a b => full h 2 0x03 (ePPP d a b)
  | .pnot h d a => full h 2 0x04 (rrr (eP d) (eP a) 0#9 0#21)
  | .pmov h m => full h 2 0x05 (ePMov m)
  | .pset h d i => full h 2 0x06 (ri (eP d) i 0#7)
  | .fadd h d a b m t r => full h 3 0x01 (eFF d a b m t r)
  | .fsub h d a b m t r => full h 3 0x02 (eFF d a b m t r)
  | .fmul h d a b m t r => full h 3 0x03 (eFF d a b m t r)
  | .ffma h d a b c m t r => full h 3 0x04 (eF3 d a b c m t r)
  | .fmin h d a b m t => full h 3 0x05 (eFF d a b m t .rne)
  | .fmax h d a b m t => full h 3 0x06 (eFF d a b m t .rne)
  | .fminx h d a b m t => full h 3 0x07 (eFF d a b m t .rne)
  | .fmaxx h d a b m t => full h 3 0x08 (eFF d a b m t .rne)
  | .fdiv h d a b m t r => full h 3 0x09 (eFF d a b m t r)
  | .fsqrt h d a m t r => full h 3 0x0a (eF1 d a m t r)
  | .frcp h d a m t r => full h 3 0x0b (eF1 d a m t r)
  | .frsq h d a m t r => full h 3 0x0c (eF1 d a m t r)
  | .fex2 h d a m t r => full h 3 0x0d (eF1 d a m t r)
  | .flg2 h d a m t r => full h 3 0x0e (eF1 d a m t r)
  | .fcmpp h d a b m c t => full h 3 0x0f (rrr (eP d) (eR a) (eR b) (zx 6 15 (cat 3 12 (eFCmp c) (eFM m .rne t))))
  | .fclass h d a t => full h 3 0x10 (eRR d a t)
  | .frnd h d a m t r => full h 3 0x11 (eF1 d a m t r)
  | .pkadd h d a b m t r => full h 4 0x01 (eFF d a b m t r)
  | .pkmul h d a b m t r => full h 4 0x02 (eFF d a b m t r)
  | .pkfma h d a b c m t r => full h 4 0x03 (eF3 d a b c m t r)
  | .bdot4 h d a b c sa sb sat => full h 4 0x04 (rrrc (eR d) (eR a) (eR b) (eR c) (zx 3 9 (cat 1 8 (b1 sat) (cat 1
      7 (b1 sb) (cat 1 6 (b1 sa) 0#6)))))
  | .pkdot h d a b c m t r => full h 4 0x05 (eF3 d a b c m t r)
  | .fcvt h d a t sty r => full h 4 0x06 (eCv d a t sty r)
  | .ftoi h d a t sty r => full h 4 0x07 (eCv d a t sty r)
  | .itof h d a t sty r => full h 4 0x08 (eCv d a t sty r)
  | .fpack h d a b t r u => full h 4 0x09 (rrr (eR d) (eR a) (eR b) (zx 14 7 (cat 1 6 (b1 u) (eRT r t))))
  | .funpk h d a t ix => full h 4 0x0a (rrr (eR d) (eR a) 0#9 (zx 13 8 (cat 2 6 ix (eRT .rne t))))
  | .rngk h d a b => full h 4 0x0b (rrr (eR d) (eR a) (eR b) 1#21)
  | .bra h o => full h 5 0x01 (eBr o)
  | .brx h a => full h 5 0x02 (eA a)
  | .call h d o => full h 5 0x03 (ri (eR d) o 0#7)
  | .ret h a => full h 5 0x04 (eA a)
  | .mjoin h o => full h 5 0x05 (eBr o)
  | .join h => full h 5 0x06 (eNone)
  | .exit h => full h 5 0x07 (eNone)
  | .nop h => full h 5 0x08 (eNone)
  | .region h => full h 5 0x09 (eNone)
  | .yield h d a b => full h 5 0x0a (rrr (eR d) (eR a) (eR b) 0#21)
  | .lxch h d a b mo sg => full h 6 0x01 (rrr (eR d) (eR a) (eR b) (zx 16 5 (cat 3 2 (eSeg sg) (eLxMode mo))))
  | .lxchRri h d a i mo sg => full h 6 0x21 (rri (eR d) (eR a) i (zx 3 5 (cat 3 2 (eSeg sg) (eLxMode mo))))
  | .poll h p a inv => full h 6 0x02 (ePoll p a inv)
  | .lred h d a o t => full h 6 0x03 (rrr (eR d) (eR a) 0#9 (zx 14 7 (cat 3 4 (eLOp o) (eT t))))
  | .peer h d a t w => full h 6 0x04 (rrr (eR d) (eR a) 0#9 (zx 16 5 (cat 1 4 (b1 w) (eT t))))
  | .bcast h d a b f => full h 6 0x05 (rrr (eR d) (eR a) (eR b) (zx 20 1 (b1 f)))
  | .regroup h d a b g => full h 6 0x06 (rrr (eR d) (eR a) (eR b) (zx 16 5 g))
  | .ld h d m => full h 7 0x01 (memBody (eR d) m m.rct)
  | .st h d m => full h 7 0x02 (memBody (eR d) m m.rct)
  | .lds h d m => full h 7 0x03 (memBody (eR d) m m.rct)
  | .sts h d m => full h 7 0x04 (memBody (eR d) m m.rct)
  | .pref h n m => full h 7 0x05 (memBody (zx 8 1 (b1 n)) m m.rct)
  | .cmnt h a o => full h 7 0x06 (rrr 0#9 (eR a) 0#9 (zx 19 2 (eCmnt o)))
  | .fence h o c => full h 7 0x07 (rrr 0#9 0#9 0#9 (zx 12 9 (cat 3 6 (eSco c) (cat 3 3 (eOrd o) 0#3))))
  | .efence h => full h 7 0x08 (eNone)
  | .atom h d a b c o z r s => full h 8 0x01 (rrrc (eR d) (eR a) (eR b) (eR c) (cat 3 9 (eAOp o) (eAcc s r z)))
  | .red h d m o => full h 8 0x02 (memBody (eR d) m (eROp o))
  | .redo h d m => full h 8 0x03 (memBody (eR d) m m.rct)
  | .txb h => full h 8 0x04 (eNone)
  | .txe h => full h 8 0x05 (eNone)
  | .txa h c => full h 8 0x06 (eI8 c)
  | .txq h d => full h 8 0x07 (eD d)
  | .cpy h d a b c => full h 9 0x01 (eCpy d a b c)
  | .cpys h d a b c => full h 9 0x02 (eCpy d a b c)
  | .cpyx h d a b c => full h 9 0x03 (eCpy d a b c)
  | .batch h d k => full h 9 0x04 (rrr (eR d) 0#9 0#9 (zx 19 2 (eCls k)))
  | .waitb h a i k => full h 9 0x05 (rri 0#9 (eR a) i (zx 6 2 (eCls k)))
  | .waitn h i k => full h 9 0x06 (rri 0#9 0#9 i (zx 6 2 (eCls k)))
  | .subs h d a b c p => full h 9 0x07 (rrrc (eR d) (eR a) (eR b) (eR c) (zx 11 1 (b1 p)))
  | .unsub h d a => full h 9 0x08 (eDA d a)
  | .subfl h => full h 9 0x09 (eNone)
  | .subq h d a => full h 9 0x0a (eDA d a)
  | .mma h t a b c f sp ck k => full h 10 0x01 (rrrc (eTile t) (eR a) (eR b) (eR c) (zx 4 8 (cat 4 4 (BitVec.ofNat
      4 k.val) (cat 1 3 (b1 ck) (cat 1 2 (b1 sp) (eMForm f))))))
  | .mzero h t => full h 10 0x02 (rrr (eTile t) 0#9 0#9 0#21)
  | .mldt h t a => full h 10 0x03 (eTA t a)
  | .mstt h t a => full h 10 0x04 (eTA t a)
  | .mepi h t a b c => full h 10 0x05 (rrrc (eTile t) (eR a) (eR b) (eR c) 0#12)
  | .mchk h t k b te i8 => full h 10 0x06 (rrr (eTile t) (eTile k) (eR b) (zx 14 7 (cat 1 6 (b1 i8) te)))
  | .mzmap h d t => full h 10 0x07 (rrr (eR d) (eTile t) 0#9 0#21)
  | .bar h => full h 11 0x01 (eNone)
  | .bara h => full h 11 0x02 (eNone)
  | .barw h => full h 11 0x03 (eNone)
  | .cbar h => full h 11 0x04 (eNone)
  | .gbar h => full h 11 0x05 (eNone)
  | .qcnt h d q => full h 11 0x06 (rrr (eR d) (eQ q) 0#9 0#21)
  | .qtry h o => full h 11 0x07 (eQTry o)
  | .coll h a => full h 11 0x08 (rrrc 0#9 (eR a) 0#9 0#9 0#12)
  | .cabort h a => full h 11 0x09 (eA a)
  | .launch h d a => full h 11 0x0a (eDA d a)
  | .lwait h d a => full h 11 0x0b (eDA d a)
  | .srd h d r => full h 12 0x01 (rri (eR d) 0#9 (zx 10 12 (eSReg r)) 0#8)
  | .swr h a r => full h 12 0x02 (rri 0#9 (eR a) (zx 10 12 (eSReg r)) 0#8)
  | .trap h i => full h 12 0x03 (eBr i)
  | .bpt h i => full h 12 0x04 (eBr i)
  | .mark h i => full h 12 0x05 (eBr i)
  | .tlbw h a b l => full h 13 0x01 (rrr 0#9 (eR a) (eR b) (zx 19 2 (BitVec.ofNat 2 l.val)))
  | .tlbi h a b s => full h 13 0x02 (rrr 0#9 (eR a) (eR b) (zx 20 1 (b1 s)))
  | .hret h c => full h 13 0x03 (eI8 c)
  | .pairedWord sw x y => paired sw x y
  | _ => 0#64

/-- The instruction the decoder reads from a word whose low `nbits` bits are `w` and whose bits above are zero. -/
def decodeTableWord (nbits w : Nat) : Option Instr := decode (BitVec.ofNat 64 (w % 2 ^ nbits))

end Sys2Proof
end

