-- ==== Sys2Proof/Config.lean ====
section
/-! DEFINITION. What the spec leaves open, as constants with no body: nothing can be proved of their values, so a
theorem about the model holds whatever they are. The machine applies each to the plain counter `free` of its state
(or to the operands the value depends on). -/

namespace Sys2Proof.Config

/-- The bits of an undefined value (00, R8), by the number of free values drawn before it. [DESIGN CHOICE, log entry 4] -/
opaque freeWord : Nat → W64

/-- A key by which an unpredictable order is taken (03, R73; 05, R148): the members of a set are taken by ascending key.
[DESIGN CHOICE, log entry 4] -/
opaque freeKey : Nat → Nat → Nat

/-- An unpredictable choice between outcomes that the spec lists (00, R8). [DESIGN CHOICE, log entry 4] -/
opaque freeBool : Nat → Bool

/-- The RSA-3072 signature that the attestation key gives a SHA-384 digest (18, R419): keys never leave the key store.
[DESIGN CHOICE, log entry 116] -/
opaque rsaSignature : BitVec 384 → List Byte

/-- The SLH-DSA-SHA2-192s signature of the attestation key over a SHA-384 digest (18, R419). [DESIGN CHOICE, log entry 116] -/
opaque slhSignature : BitVec 384 → List Byte

/-- The two certificates of the attestation keys, as bytes (18, R419). [DESIGN CHOICE, log entry 116] -/
opaque certificates : List Byte

/-- The module's serial number (18, R409 IDENT). [DESIGN CHOICE, log entry 116] -/
opaque ident : W64

/-- An undefined byte, by the number of free values drawn before it. [DESIGN CHOICE, log entry 4] -/
opaque freeByte : Nat → Byte

/-- The router stop, one of the 16 of rows 0 and 7, where a port or the Headbox of a die is attached (02, R52 names the rows
only). [DESIGN CHOICE, log entry 138] -/
opaque portStop : Nat → Nat → Nat

/-- The bus address at which the host maps the module's register window, which the host's system gives it (08, R200; 18, R408).
[DEDUCED, log entry 135] -/
opaque windowBus : Nat

end Sys2Proof.Config
end

