-- ==== Sys2Proof/Machine/Tbl.lean ====
section
/-! DEFINITION. Tables: finite maps from natural numbers, as lists of key and value with the keys strictly rising.
Memory, register files and every set of numbered records of the machine are such tables, so that states are plain
data that can be written out and compared. -/

namespace Sys2Proof.Machine

/-- A table: keys and values, the keys strictly rising. -/
abbrev Tbl (α : Type) := List (Nat × α)

/-- The entry of key `i`, if the table lists one. -/
def Tbl.find {α : Type} : Tbl α → Nat → Option α
  | [], _ => none
  | (k, a) :: t, i => if k = i then some a else Tbl.find t i

/-- The table with `a` at key `i`. -/
def Tbl.put {α : Type} : Tbl α → Nat → α → Tbl α
  | [], i, a => [(i, a)]
  | (k, b) :: t, i, a =>
    if k = i then (i, a) :: t else if i < k then (i, a) :: (k, b) :: t else (k, b) :: Tbl.put t i a

/-- The table with no entry at key `i`. -/
def Tbl.del {α : Type} : Tbl α → Nat → Tbl α
  | [], _ => []
  | (k, b) :: t, i => if k = i then Tbl.del t i else (k, b) :: Tbl.del t i

/-- The keys of a table rise strictly. -/
def Tbl.wf {α : Type} : Tbl α → Bool
  | [] => true
  | (k, _) :: t => t.all (fun e => decide (k < e.1)) && Tbl.wf t

/-- What a table reads at key `i` where an unlisted key reads as `d`. -/
def Tbl.get {α : Type} (d : α) (t : Tbl α) (i : Nat) : α := (Tbl.find t i).getD d

/-- Writing `a` at key `i` of a table whose unlisted keys read as `d`: writing `d` removes the entry. -/
def Tbl.set {α : Type} [DecidableEq α] (d : α) (t : Tbl α) (i : Nat) (a : α) : Tbl α :=
  if a = d then Tbl.del t i else Tbl.put t i a

/-- Changing the entry of key `i`, where there is one. -/
def Tbl.upd {α : Type} (t : Tbl α) (i : Nat) (f : α → α) : Tbl α :=
  match Tbl.find t i with
  | some a => Tbl.put t i (f a)
  | none => t

/-- The canonical form of a table with default `d`: keys strictly rising and no entry equal to `d`. -/
def Tbl.canon {α : Type} [DecidableEq α] (d : α) (t : Tbl α) : Bool :=
  Tbl.wf t && t.all (fun e => decide (e.2 ≠ d))

/-- The lowest key above every key of the table: a key for a new record. -/
def Tbl.fresh {α : Type} (t : Tbl α) : Nat := t.foldl (fun m e => max m (e.1 + 1)) 0

/-- Bits `[hi:lo]` of a word as a number (00, R5). -/
def bits (x : W64) (hi lo : Nat) : Nat := (x.toNat / 2 ^ lo) % 2 ^ (hi + 1 - lo)

/-- Bit `i` of a word. -/
def bit (x : W64) (i : Nat) : Bool := x.toNat.testBit i

/-- A field of `w` bits at bit `lo` of a record's word. -/
def fld (w lo x : Nat) : Nat := (x % 2 ^ w) * 2 ^ lo

/-- A truth value as a bit. -/
def b2n (b : Bool) : Nat := if b then 1 else 0

/-- `x mod 2^n` read as a signed n-bit number (04, R111 `sdiff`). -/
def signed (n : Nat) (x : Int) : Int :=
  let y := x % (2 ^ n : Nat)
  if y < (2 ^ (n - 1) : Nat) then y else y - (2 ^ n : Nat)

/-- The logical lanes, ascending (00, R12). -/
def lanes32 : List Nat := List.range 32

/-- Lane `L` is in the mask. -/
def inMask (m : Mask) (L : Nat) : Bool := m.getLsbD L

/-- The lanes of a mask, ascending. -/
def laneList (m : Mask) : List Nat := lanes32.filter (inMask m)

/-- The mask of the lanes that satisfy `f`. -/
def maskOf (f : Nat → Bool) : Mask :=
  lanes32.foldl (fun m L => if f L then m ||| (1#32 <<< L) else m) 0#32

/-- The mask of the first `n` lanes. -/
def firstLanes (n : Nat) : Mask := maskOf (fun L => decide (L < n))

/-- A list's members ordered by a key, stable: the order in which an unpredictable sequence is taken. -/
def insertBy {α : Type} (key : α → Nat) (a : α) : List α → List α
  | [] => [a]
  | b :: t => if key a < key b then a :: b :: t else b :: insertBy key a t

/-- The members of a list by ascending key. -/
def sortBy {α : Type} (key : α → Nat) : List α → List α
  | [] => []
  | a :: t => insertBy key a (sortBy key t)

/-- The list with its entry `i` changed. -/
def listUpd {α : Type} (l : List α) (i : Nat) (f : α → α) : List α := l.modify i f

/-- Little-endian bytes of a number (00, R5). -/
def toBytes : Nat → Nat → List Byte
  | 0, _ => []
  | n + 1, x => BitVec.ofNat 8 (x % 256) :: toBytes n (x / 256)

/-- The number that little-endian bytes hold (00, R5). -/
def ofBytes : List Byte → Nat
  | [] => 0
  | b :: t => b.toNat + 256 * ofBytes t

end Sys2Proof.Machine
end

