-- ==== Sys2Proof/Machine/State.lean ====
section
/-! DEFINITION. The state of the MZ-960 as plain data: everything the spec gives the module (INVENTORY.md, ## State).
A group is keyed by its slot number gs = core * 64 + lane block * 16 + slot (04, R107); a lane block by core * 4 + its
number; a core by die * 192 + core (04, R102); a cluster by die * 48 + cluster. Registers and stores are tables whose
unlisted keys read as zero. -/

namespace Sys2Proof.Machine

/-- Bytes by address, in the canonical form of a table whose unlisted addresses read as zero. [DESIGN CHOICE, log entry 3] -/
abbrev Memory := List Host.Cell

/-- The canonical form of a memory: addresses strictly rising, no byte listed that reads as an unlisted one does.
[DESIGN CHOICE, log entry 3] -/
abbrev Memory.wf (m : Memory) : Bool := Tbl.canon 0#8 m

/-- Park reasons (07, R196 Table 6), codes 0 to 12. -/
inductive Stall where
  | switchPark | batchWait | barrier | queueFull | queueEmpty | teamArrival | arrayLent | walker
  | txCommit | fetch | subFlush | gangMember | budget
  deriving DecidableEq, Repr

/-- A register whose pending bit can be set (07, R193). -/
inductive RegRef where
  | v (n : Nat)
  | s (n : Nat)
  | p (n : Nat)
  deriving DecidableEq, Repr

/-- One write of a register: a lane of a V register, an S register, lanes of a predicate, an entry pushed to a queue. -/
inductive RegW where
  | v (n L : Nat) (x : W32)
  | s (n : Nat) (x : W64)
  | p (n : Nat) (lanes val : Mask)
  | push (q : Nat) (lanes : Mask) (vals : List W32)
  deriving DecidableEq, Repr

/-- How far a word that does not perform at once has come (the word is issued again when its slot is taken again).
[DEDUCED, log entry 119] -/
inductive Phase where
  | idle
  | drain (upds : List Nat)                -- it waits for these updates (06, R163)
  | arrived                                -- it has arrived at a barrier, a team or REGROUP
  | sub (h : Nat)                          -- SUBS or UNSUB of this handle is under way
  | commit                                 -- TXE is under way (05, R141)
  | token                                  -- CABORT waits for its token (14, R352)
  | saving (dst : Option Nat) (range : Option (Nat × Nat))  -- YIELD with status 1, its D and register range (10, R266)
  | asked                                  -- the agent it asked has not answered
  | answered (x : W64)                     -- the agent asked has answered
  deriving DecidableEq, Repr

/-- A program-counter slot (07, R185), with a word fetched ahead (09, R219), the progress of its word, whether a page
of the word waits for the walker, and how the walker ended for pages of the word (01, R26, R27). -/
structure PcSlot where
  pc      : W64
  mask    : Mask
  fetched : Option W64 := none
  phase   : Phase := .idle
  missing : Bool := false
  walked  : List (Nat × Nat) := []
  deriving DecidableEq, Repr

/-- A join-stack entry (07, R187), with the JOIN words that wait in it to retire (17, R398). -/
structure JoinEntry where
  rejoin : W64
  mask   : Mask
  arr    : Mask
  joins  : Nat := 0
  deriving DecidableEq, Repr

/-- A divergence spill-stack entry (07, R186). -/
structure SpillEntry where
  pc   : W64
  mask : Mask
  deriving DecidableEq, Repr

/-- A release record (04, R109 Table 8): `leadW` and `leadG` are the slots and incarnations of the leads. -/
structure RelRec where
  writer : W64
  epoch  : BitVec 4
  leadW  : Nat
  incW   : BitVec 4
  leadG  : Nat
  incG   : BitVec 4
  gang   : Bool
  kwg    : W32
  kgg    : W32
  kdg    : W32
  ic     : Bool
  rc     : W32
  table  : List W64
  used   : Nat := 0
  deriving DecidableEq, Repr

/-- A group's check state (04, R105 Table 4); the acquired table lists the entry merged longest ago first. -/
structure CheckState where
  rc  : W32 := 0#32
  pwg : W32 := 0#32
  pgg : W32 := 0#32
  pdg : W32 := 0#32
  kwg : W32 := 0#32
  kgg : W32 := 0#32
  kdg : W32 := 0#32
  table   : List W64 := []
  ic      : Bool := true
  icAt    : W32 := 0#32
  pendRec : Option RelRec := none
  pendMiss : Bool := false
  relFence : Bool := false
  deriving DecidableEq, Repr

/-- What an arriving member hands to a departing one (04, R110). -/
structure Merge where
  table : List W64 := []
  kwg   : W32 := 0#32
  kgg   : W32 := 0#32
  kdg   : W32 := 0#32
  ic    : Bool := true
  deriving DecidableEq, Repr

/-- A word of a lane's transaction set (05, R138): an aligned 8-byte word by its physical address and the generic address at which
the lane named it, with the different values that the lane read from its home. -/
structure TxWord where
  pa    : Nat
  ga    : W64
  rd    : List W64
  wmask : Byte
  wdata : W64
  deriving DecidableEq, Repr

/-- A lane's transaction (05, R137, R140, R143). -/
structure TxLane where
  depth  : Nat := 0
  status : W32 := 0#32
  doomed : Bool := false
  words  : List TxWord := []
  deriving DecidableEq, Repr

/-- An outermost TXE under way (05, R141): the lanes still in it, the logical slices still to prepare in ascending
order, the lanes that hold reservations at each prepared slice, the lanes that wait in the present slice's prepare
queue with the clock at which each began to wait, whether the decision is taken, the sectors of its writes that have been checked
and recorded (04, R119, R120), the race mode at its issue (04, R117). -/
structure TxRun where
  lanes    : Mask
  todo     : List Nat
  prepared : List (Nat × Mask)
  waiting  : List (Nat × Nat)
  decided  : Bool
  seen     : List Nat := []
  mode     : BitVec 2 := 1#2
  deriving DecidableEq, Repr

/-- Why an asynchronous operation failed (12, R306 Table 8). -/
structure BatchFault where
  cause : Byte
  det   : Byte
  addr  : W64
  deriving DecidableEq, Repr

/-- An asynchronous operation as its batch knows it. -/
structure OpRec where
  id    : Nat
  pc    : W64
  fin   : Bool := false
  fault : Option BatchFault := none
  done  : BitVec 16 := 0#16
  fail  : BitVec 16 := 0#16
  deriving DecidableEq, Repr

/-- A closed batch (03, R94, R95; 12, R306). -/
structure Batch where
  num      : W32
  ops      : List OpRec
  complete : Bool := false
  reported : Bool := false
  deriving DecidableEq, Repr

/-- The batches of one class of one group: last closed number, operations of the open batch, closed batches by
ascending number (completed batches without a fault to report are dropped). -/
structure ClsState where
  last   : W32 := 0#32
  opened : List OpRec := []
  closed : List Batch := []
  deriving DecidableEq, Repr

/-- What a stop record says of a fault (15, R371 Table 3). -/
structure Stop where
  cause : Byte
  det   : Byte := 0#8
  pc    : W64
  rpc   : W64
  addr  : W64 := 0#64
  info  : W64 := 0#64
  lanes : Mask
  late    : Bool := false
  restart : Bool := true
  held    : Bool := false
  rolled  : Bool := false
  rwc   : W32
  ext   : List W64 := []
  nheld : Nat := 0
  deriving DecidableEq, Repr

/-- A first-touch handler run (01, R29): the faulters' mask, their addresses and kinds, the faulting word's slot, what the group's slots held,
the banked registers, the lanes that have finished with their statuses, the clock at entry, the depth of the spill stack
then, the entries that were being read back then. -/
structure FtRun where
  mask  : Mask
  addrs : Tbl W64
  kinds : Tbl (BitVec 2)
  slot  : Bool
  slotA : Option PcSlot
  slotB : Option PcSlot
  bankS : List W64
  bankP : List Mask
  done  : Tbl Byte
  start : Nat
  sd    : Nat
  refill : List (Bool × SpillEntry)
  deriving DecidableEq, Repr

/-- The barrier of an open arrival (14, R345). -/
inductive BarKind where
  | bar | bara | cbar | gbar
  deriving DecidableEq, Repr

/-- A resident group, or the walker's in slot 15 (07, R177). -/
structure Group where
  wg    : Nat
  gidx  : Nat
  age   : Nat
  n     : Nat
  v     : Tbl W32 := []
  s     : Tbl W64 := []
  p     : Tbl Mask := []
  slotA : Option PcSlot
  slotB : Option PcSlot := none
  lastB : Bool := true
  join  : List JoinEntry := []
  spill : List SpillEntry := []
  refill : List (Bool × SpillEntry) := []
  pend  : List RegRef := []
  live  : Mask
  origin : Tbl (BitVec 10) := []
  seq   : Tbl W32 := []
  regpc : W64
  regmask : Mask
  regAsk : Bool := false
  jd    : Nat := 0
  sd    : Nat := 0
  rrwc  : W32 := 0#32
  rv    : Bool := true
  rwc   : W32 := 0#32
  nissue : Nat := 0
  quietAt : Option Bool := none
  chk   : CheckState := {}
  tx    : Tbl TxLane := []
  txe   : Option TxRun := none
  cp    : ClsState := {}
  mx    : ClsState := {}
  gc    : ClsState := {}
  cl    : ClsState := {}
  collSeq : List (W32 × Byte × Nat) := []
  kids  : Tbl Nat := []
  gtime : W64 := 0#64
  gtcmp : W64 := 0#64
  subSeen : Tbl (BitVec 16) := []
  preq  : Bool := false
  arrival : Option BarKind := none
  matSeq  : W32 := 0#32
  matQ    : W32 := 0#32
  held  : Option Stop := none
  parkA : Option Stall := none
  parkB : Option Stall := none
  swPark : Bool := false
  eligible : Option Nat := none
  promoted : Bool := false
  ft    : Option FtRun := none
  stop  : Option Stop := none
  exitPc : W64 := 0#64
  lastPc : W64 := 0#64
  retiring : Bool := false
  forced : Bool := false
  deriving DecidableEq, Repr

/-- A queue entry (07, R191): its lane values and its tag word. -/
structure QEntry where
  vals : List W32
  tag  : W64
  deriving DecidableEq, Repr

/-- A queue of a workgroup (07, R191): the slot of the oldest entry, the entries held, those reserved by issued pops
and the rooms reserved by issued pushes; `left` is what slots that hold no entry still have of the last one. -/
structure QState where
  head    : Nat := 0
  entries : List QEntry := []
  rsv     : Nat := 0
  room    : Nat := 0
  left    : Tbl QEntry := []
  deriving DecidableEq, Repr

/-- A team's pending matrix instruction (13, R311): its address and the members that have arrived. -/
structure TeamArr where
  pc   : W64
  arr  : Mask
  deriving DecidableEq, Repr

/-- A placed workgroup (07, R173; 08, R211; 06, R152). -/
structure Workgroup where
  grid  : Nat
  wgidx : Nat
  core  : Nat
  ngrp  : Nat
  lsBase : Nat
  lsSize : Nat
  qSize : Nat
  frame : Nat
  qs    : Tbl QState := []
  exited : Mask := 0#32
  savedG : Mask := 0#32
  slots : Tbl Nat := []
  wgen  : W32 := 0#32
  warr  : Mask := 0#32
  wcon  : List Merge := []
  wmerge : Merge := {}
  garr  : Mask := 0#32
  ggen  : W32 := 0#32
  gcon  : List Merge := []
  gmerge : Merge := {}
  darr  : Mask := 0#32
  dgen  : W32 := 0#32
  dcon  : List Merge := []
  dmerge : Merge := {}
  gang  : Nat
  rank  : Nat
  resident : Bool := true
  gone  : Bool := false
  teams : Tbl TeamArr := []
  regroup : Tbl (Nat × Nat × Nat) := []
  answers : Tbl Nat := []
  deriving DecidableEq, Repr

/-- A gang bound to a cluster (06, R151): the workgroup of each rank, once placed, and whether it holds its cluster while it
waits to be restored. -/
structure Gang where
  grid    : Nat
  cluster : Nat
  size    : Nat
  wgs     : Tbl Nat := []
  holds   : Bool := false
  deriving DecidableEq, Repr

/-- A physically contiguous run of an extent or a reduction log (01, R32), with the parts of it that lie on pages of ATTR 1 (01,
R21), each by its virtual address and length. -/
structure Run where
  va  : Nat
  pa  : Nat
  len : Nat
  unc : List (Nat × Nat) := []
  deriving DecidableEq, Repr

/-- A launch's extent (01, R32). -/
structure Extent where
  base : Nat
  len  : Nat
  rw   : Bool
  runs : List Run
  deriving DecidableEq, Repr

/-- A launched grid (08, R208 to R215). `desc` holds descriptor words by their offset divided by 8. -/
structure Grid where
  part  : Nat
  spid  : Nat
  sgen  : Byte
  desc  : Tbl W64
  cls   : Nat
  depth : Nat
  epoch : BitVec 4
  hand  : Nat
  parent : Option (Nat × Nat × Nat × Nat) := none
  next  : Nat := 0
  total : Nat
  frames : List Nat := []
  extents : List Extent := []
  rlog  : List Run := []
  chunks : Tbl (List (Nat × Nat)) := []
  reds  : Option (List (Nat × W32)) := none
  packet : Option Nat := none
  done  : Nat := 0
  applied : Bool := false
  retired : Bool := false
  deadline : Option Nat := none
  number : Nat := 0
  waits : Bool := false
  deriving DecidableEq, Repr

/-- Context states (15, R377 Table 6). -/
inductive CtxState where
  | running | preempting | saved | halted | released
  deriving DecidableEq, Repr

/-- Recording settings (17, R394). -/
structure Recording where
  base  : Nat := 0
  size  : Nat := 0
  ul    : Nat := 0
  pl    : Nat := 0
  tl    : Nat := 0
  on    : Bool := false
  trace : Bool := false
  deriving DecidableEq, Repr

/-- A precise stop under way (17, R403 to R405): the target point, the logged events, where each group stood at the
recorded end, the events used, whether the target was reached, whether re-execution has parted. -/
structure Replay where
  grid   : Nat
  wgidx  : Nat
  gidx   : Nat
  target : W32
  free   : Bool
  upto   : Nat
  ends   : List (Nat × Nat × Nat × W32) := []
  used   : List Nat := []
  hit    : Bool := false
  void   : Bool := false
  deriving DecidableEq, Repr

/-- A context that a halt halts, and the engine whose fault reached the Headbox first (15, R370). -/
structure HaltCause where
  spid  : Nat
  eng   : Nat
  unit  : Nat
  cause : Byte
  det   : Byte
  addr  : W64 := 0#64
  info  : W64 := 0#64
  deriving DecidableEq, Repr

/-- A nested fault (15, R378): its context, the workgroup and section kind it touches (0: none), its cause. -/
structure Nested where
  spid  : Nat
  wg    : Nat
  kind  : Nat
  cause : Byte
  deriving DecidableEq, Repr

/-- A stop record of an engine that is no group, as the skid leaves it (15, R371): its context, ENG, UNIT, the place in the
order of its unit, FLAGS, extension. -/
structure EngStop where
  spid  : Nat
  eng   : Nat
  unit  : Nat
  flags : Nat
  ext   : List W64 := []
  deriving DecidableEq, Repr

/-- The halt of a partition (15, R368): the contexts that raised the line, and when; the cycles from then to the stop of
the engines, whether they have stopped, their records, the faults of the drain. -/
structure Halt where
  causes : List HaltCause
  since  : Nat
  skid   : Nat := 0
  stopped : Bool := false
  engs   : List EngStop := []
  nested : List Nested := []
  deriving DecidableEq, Repr

/-- A meter of a partition (08, R216 Table 7, R217). -/
structure Meter where
  period : Nat := 16
  budget : W64 := 0#64
  deriving DecidableEq, Repr

/-- A partition (08, R216; 18, R415). -/
structure Partition where
  clusters : List Nat
  walkpc : W64
  ftpc   : W64
  ranges : List (Nat × Nat)
  mq     : Nat
  l2mask : BitVec 12 := 0xFFF#12
  rdcmask : BitVec 12 := 0xFFF#12
  meters : Tbl Meter := []
  counts : Tbl (Nat × Nat) := []
  halt   : Option Halt := none
  deriving DecidableEq, Repr

/-- A queue's STATE (08, R202 Table 2). -/
inductive QSt where
  | free | active | halted | quiesced | torn
  deriving DecidableEq, Repr

/-- A queue control block but for RIDX, which memory alone holds (08, R202 Table 2); the clock at which an invalid header
was read, whether the Headbox's cache holds the entry (R201, R203). -/
structure Qcb where
  rd    : Nat := 0
  base  : Nat := 0
  lsz   : Nat := 0
  spid  : Nat := 0
  sgen  : Byte := 0#8
  part  : Nat := 0
  cls   : Nat := 0
  st    : QSt := .free
  mgmt  : Bool := false
  hb    : Bool := false
  hwq   : Nat := 0
  err   : Byte := 0#8
  det   : Byte := 0#8
  erridx : Nat := 0
  db    : Nat := 0
  done  : Nat := 0
  reread : Option Nat := none
  cached : Bool := false
  deriving DecidableEq, Repr

/-- How far a packet has come (08, R204, R206). -/
inductive PSt where
  | taken | parked | started | finished
  deriving DecidableEq, Repr

/-- A packet in a Headbox lane, parked or started; the safe queue's packets have `safe`; `since` is one more than the clock
of the last test of a condition, 0 where a test is due; `pos` counts the bytes that a COPY has moved. -/
structure Packet where
  queue : Nat
  safe  : Bool := false
  idx   : Nat
  typ   : Nat
  bar   : Bool
  words : List W64
  st    : PSt := .taken
  since : Nat := 0
  pos   : Nat := 0
  deriving DecidableEq, Repr

/-- Where an access goes (01, Table 1): physical memory, or a byte position of a core's local store with the workgroup
that owns it. -/
inductive Loc where
  | mem (pa : Nat)
  | ls (core pos owner : Nat)
  deriving DecidableEq, Repr

/-- One lane's access of a request: its generic address, and the places of its bytes, each of an equal share of the
access's size (a private access of more than 4 bytes lies in several places: 01, R18). A load's access of several places
is held as several, `part` by `part`; `len` is the bytes of each place. `err` is the cause found where it performed, `tx` marks a transactional read,
`unc` a page with ATTR 1. -/
structure LaneAcc where
  lane : Nat
  ga   : W64
  locs : List Loc
  data : W128 := 0#128
  alt  : W128 := 0#128
  got  : W128 := 0#128
  part : Nat := 0
  len  : Nat
  perf : Bool := false
  err  : Nat := 0
  tx   : Bool := false
  unc  : Bool := false
  deriving DecidableEq, Repr

/-- A packet about a group's transaction to a logical slice (05, R141): the prepare of its lanes' words there, a lane's commit or
abort. -/
inductive TxMsg where
  | prepare (sl : Nat)
  | commit (sl lane : Nat)
  | abort (sl lane : Nat)
  deriving DecidableEq, Repr

/-- A read-modify-write of an agent: one of ATOM's, or the binary32 sum of a reduction. -/
inductive Rmw where
  | atom (op : AOp)
  | sum
  deriving DecidableEq, Repr

/-- What a request asks. `tx`, `put` and `rmw` are packets of agents (05, R126): about the transaction of a group; a write, which
leaves the watermark of a group or none; a read-modify-write. `tag` is the operation that sent it, 0 where none waits for it. -/
inductive ReqKind where
  | load (dst : Reg) (sz : Sz)
  | store
  | atom (dst : Reg) (sz : Sz) (op : AOp)
  | red (sz : Sz) (op : ROp)
  | drop
  | result (ws : List RegW)
  | append (slot : Nat) (entry : List W64)
  | tx (gs : Nat) (m : TxMsg)
  | put (tag : Nat) (who : Option Nat)
  | rmw (tag : Nat) (op : Rmw)
  deriving DecidableEq, Repr

/-- Where a request stands: held by the core port until committed, on the mesh, accepted at its home, returned unperformed,
answered, performed and being acknowledged. -/
inductive RStage where
  | held | mesh | atHome | unperformed | answered | performed
  deriving DecidableEq, Repr

/-- How a packet fares on a die's mesh (02, R63 to R66): it goes, was dropped, backs off since a clock, has been accepted. -/
inductive Way where
  | going | nacked | there
  | backoff (since : Nat)
  deriving DecidableEq, Repr

/-- A packet's passage over a die's mesh: the router and the input port where it is latched, none at its source; how it fares; its
retransmissions (02, R66). -/
structure Trip where
  hop   : Option (Nat × Nat) := none
  way   : Way := .going
  nacks : Nat := 0
  deriving DecidableEq, Repr

/-- A copy of a serial-carrying request (05, R128): RTX, the ACK and INC it carries, the clock when it was sent; the die it
has reached (compute dies 0 to 3, link dies 4 and 5, 6 outside the module), the clock before which a link holds it back,
whether it was lost on a link; the links that keep copies of it, each with the die from which it went (21, R433); its passage over
that die's mesh. -/
structure Copy where
  id   : Nat
  rtx  : Bool
  ack  : BitVec 16
  inc  : Byte
  sent : Nat
  node : Nat
  until_ : Nat := 0
  lost : Bool := false
  kept : List (Nat × Nat) := []
  trip : Trip := {}
  deriving DecidableEq, Repr

/-- The answer of a result cache (05, R132). -/
inductive Reply where
  | value (got : List LaneAcc)
  | busy
  | unknown
  deriving DecidableEq, Repr

/-- A request in flight: a group's memory access, an atomic, a long result on its way (07, R193; 05, R127). A load is one
request; stores, atomics and appends are one request for each sector or local-store allocation. `counted` holds the lines whose read
counts a load has lowered (02, R50); `nr` is its place among the requests that its core has sent (02, R67). A packet of an agent
has its requester's unit as `core` and no group. `inc` is the INC of its copies, `sent` the clock of the last one, `back` the
incarnation that its reply carries (05, R128, R134, R135); `gone` marks one that was abandoned while copies were in flight (05,
R134). -/
structure Req where
  gs    : Nat
  wg    : Nat
  core  : Nat
  spid  : Nat
  part  : Nat := 0
  kind  : ReqKind
  accs  : List LaneAcc
  size  : Nat
  ord   : Ord
  sco   : Sco
  rct   : Nat := 0
  sup   : Bool := false
  scalar : Bool := false
  mode  : BitVec 2 := 1#2
  stage : RStage
  pend  : List RegRef := []
  pc    : W64
  mask  : Mask
  rwc   : W32
  nth   : Nat := 0
  nr    : Nat := 0
  b     : Bool := false
  head  : Bool := false
  verified : Option W64 := none
  wms   : List (Nat × W64) := []
  lwms  : List (Nat × Nat × W64) := []
  recs  : List RelRec := []
  recMiss : Bool := false
  pops  : List Nat := []
  verdict : Nat := 0
  counted : List Nat := []
  returns : Nat := 0
  since : Nat := 0
  serial : Option (BitVec 16) := none
  contended : Bool := false
  replied : Nat := 0
  rnode : Nat := 0
  parked : Bool := false
  first : Nat := 0
  busy  : Nat := 0
  trip  : Trip := {}
  cls   : Nat := 1
  slack : Nat := 0
  copies : List Copy := []
  reply : Option Reply := none
  inc   : Byte := 0#8
  sent  : Nat := 0
  back  : Byte := 0#8
  gone  : Bool := false
  deriving DecidableEq, Repr

/-- A requester's counters (05, R127, R129): next serial, acknowledged-through serial, serials answered above it, the
retire table of owners with the highest serial sent. -/
structure Requester where
  next : BitVec 16 := 0#16
  ack  : BitVec 16 := 0xFFFF#16
  answered : List (BitVec 16) := []
  retire : List (Nat × BitVec 16) := []
  retirePk : List (Nat × BitVec 16 × Nat) := []
  deriving DecidableEq, Repr

/-- A result-cache entry (05, R131): its owner (the logical slice), the cache that holds it (the physical slice; 02, R60),
requester, serial, whether it is a tombstone and since when, and the value kept. -/
structure RcEntry where
  owner : Nat
  place : Nat
  runit : Nat
  ser   : BitVec 16
  tomb  : Option Nat
  value : List LaneAcc
  deriving DecidableEq, Repr

/-- An L1 line (02, R47 to R50): its bytes as filled and the copies of its two sector watermarks. `past` marks one that strong
loads leave alone, since the core may have read strongly what it does not hold (03, R87). -/
structure L1Line where
  bytes : List Byte
  wm    : List W64
  count : Nat
  past  : Bool := false
  deriving DecidableEq, Repr

/-- An L2 line (02, R53, R54, R57): its directory bits, its read count, the way it stands in, and the valid and dirty bits of
its two sectors. -/
structure L2Line where
  dirs  : BitVec 4 := 0#4
  count : Nat := 0
  way   : Nat
  valid : BitVec 2 := 0#2
  dirty : BitVec 2 := 0#2
  deriving DecidableEq, Repr

/-- A line of a remote-data cache (02, R50, R56): its way, its read count, and, by the sector's place in the line, the copy of
the watermark and the bytes of each sector that it holds. -/
structure RdcLine where
  way   : Nat
  count : Nat := 0
  subs  : Tbl (W64 × List Byte) := []
  deriving DecidableEq, Repr

/-- A translation held by a TLB (01, R25). -/
structure TlbEnt where
  spid : Nat
  gen  : Byte
  va   : Nat
  size : Nat
  pte  : W64
  deriving DecidableEq, Repr

/-- A queued translation miss (01, R26), of groups' words and, with `eng`, of an engine's operation. -/
structure Miss where
  va     : Nat
  access : Nat
  sup    : Bool
  spid   : Nat
  gen    : Byte
  groups : List (Nat × Bool)
  eng    : Bool := false
  deriving DecidableEq, Repr

/-- A walker run (01, R27; 14, R358): the miss it serves, the last entry entered for the missing address, the page
entries it entered, whether a malformed entry was presented, the invalidations that reached it, whose
matching later entries are dropped (14, R359). -/
structure WalkRun where
  miss    : Miss
  entered : Option W64 := none
  bad     : Bool := false
  dropped : List (Nat × Option Nat) := []
  failed  : Bool := false
  start   : Nat
  deriving DecidableEq, Repr

/-- A lane block (07, R179 to R184, R196): its lost lanes and register banks, the physical bank of each logical one (R179); `busySince` is
when a group last came to it while none was there (16, R381); `issued` is the last cycle in which a word issued, and its group; `engWalks` holds how walks for engines' operations failed, by space, generation and page. -/
structure LaneBlock where
  lost  : List Nat := []
  lostBanks : List Nat := []
  bankMap : List Nat := List.range 16
  busySince : Option Nat := none
  issued : Option (Nat × Nat) := none
  hist  : Tbl W64 := []
  stall : Tbl W64 := []
  beatc : W64 := 0#64
  idle  : W64 := 0#64
  busy  : Nat := 0
  utlb  : List TlbEnt := []
  misses : List Miss := []
  walk  : Option WalkRun := none
  engWalks : List (Nat × Byte × Nat × Nat) := []
  deriving DecidableEq, Repr

/-- A subscription's states (06, R171 Table 6), codes 0 to 8. -/
inductive SubSt where
  | free | snap | active | drain | detaching | spilled | replay | broken | detached
  deriving DecidableEq, Repr

/-- A publication's states (06, R157 Table 2), codes 0 to 4. -/
inductive PubSt where
  | free | live | log | held | broken
  deriving DecidableEq, Repr

/-- A subscription-table entry (06, R157 Table 1), with the workgroups at its ends; `lost` marks a region that is undefined once its
context is used again (06, R169). -/
structure SubEnt where
  last  : BitVec 16 := 0#16
  logn  : Nat := 0
  poff  : Nat
  plead : Nat
  pcore : Nat
  pair  : Bool
  pidx  : Nat
  len   : Nat
  soff  : Nat
  slead : Nat
  st    : SubSt
  wg    : Nat
  pwg   : Nat
  handle : Nat
  acks  : Nat := 0
  msg   : Nat := 0
  spill : Nat := 0
  lost  : Bool := false
  deriving DecidableEq, Repr

/-- A publication-table entry (06, R157 Table 2), with the workgroups at its ends and the next snapshot segment to be
read. -/
structure PubEnt where
  lbase : Nat := 0
  logn  : Nat := 0
  poff  : Nat
  len   : Nat
  plead : Nat
  score : Nat
  shdl  : Nat
  st    : PubSt
  wg    : Nat
  swg   : Nat
  next  : Nat := 0
  remove : Bool := false
  deriving DecidableEq, Repr

/-- Whose write a Felt forwards (06, R163): a group's own, or one of an engine's operation in a batch of a group. -/
inductive FeltSrc where
  | own (gs : Nat)
  | batch (gs : Nat) (k : Cls) (n : W32)
  deriving DecidableEq, Repr

/-- A combining-buffer entry (06, R161): a segment of local store by its position, the byte mask, whose writes it holds, the groups
whose drains wait for it, by publication the bytes that a snapshot has carried (R159), when it was taken, whether it must leave. -/
structure FeltEnt where
  id   : Nat
  seg  : Nat
  mask : W64
  data : List Byte
  srcs : List FeltSrc
  born : Nat
  due  : Bool := false
  drains : List Nat := []
  sent : Tbl W64 := []
  deriving DecidableEq, Repr

/-- An update on its way to a subscriber (06, R161, R162), by its handle and workgroup, or an acknowledgement in the stream; `log` is
the request that appends it to a spill log (R165). -/
structure Upd where
  id    : Nat
  src   : Nat
  dst   : Nat
  handle : Nat
  swg   : Nat
  seg   : Nat
  mask  : W64
  data  : List Byte
  ser   : BitVec 16
  srcs  : List FeltSrc := []
  drains : List Nat := []
  log   : Option Nat := none
  snap  : Bool := false
  lastSnap : Bool := false
  unreadable : Bool := false
  ackDetach : Bool := false
  deriving DecidableEq, Repr

/-- One core's part of a quad operation (13, R327): its team's workgroup and issuer, the word's address, its tile, its
A and B descriptors, format words and scale addresses, and its .SP. -/
structure QuadPart where
  core : Nat
  wg   : Nat
  gs   : Nat
  pc   : W64
  t    : Nat
  da   : W64
  db   : W64
  fa   : W64
  fb   : W64
  sa   : W64
  sb   : W64
  sp   : Bool
  deriving DecidableEq, Repr

/-- The arrivals of a quad operation (13, R327): its quad, joint identifier, count and context, its parts so far, and
the clock at the first. -/
structure QuadArr where
  quad  : Nat
  qj    : BitVec 16
  count : W32
  spid  : Nat
  parts : List QuadPart
  since : Nat
  deriving DecidableEq, Repr

/-- What a queued matrix operation does (13). `da`, `db` are descriptors, `fa`, `fb` format words, `sa`, `sb` scale
addresses. A pair's operation updates tile `t` of both cores. -/
inductive MatKind where
  | mma (t : Nat) (da db fa fb sa sb : W64) (pair sp ck : Bool) (ckt : Nat)
  | quad (parts : List QuadPart)
  | zero (t : Nat)
  | load (t : Nat) (d : W64)
  | store (t : Nat) (d : W64)
  | epi (t : Nat) (d ctl bias clamp : W64)
  | chk (t k : Nat) (d : W64) (te : Nat) (i8 : Bool)
  deriving DecidableEq, Repr

/-- A queued matrix operation: its issuing workgroup and issuer, its word's address, the members in whose batches it is,
the cores in whose queues it is, leading core first, and the bytes of its output that are written so far. -/
structure MatOp where
  id   : Nat
  kind : MatKind
  wg   : Nat
  gs   : Nat
  pc   : W64
  mems : List Nat
  cores : List Nat
  out  : Option (List (Nat × List Byte)) := none
  deriving DecidableEq, Repr

/-- One destination of a copy (12, R304): a copy writes each chunk to every target that is not abandoned; `wait` holds
the chunks, by their offset from the destination, that a target which is not resident has still to receive (06, R153). -/
structure CopyTgt where
  ix   : Nat
  fault : Option BatchFault := none
  wait : List (Nat × List Byte) := []
  deriving DecidableEq, Repr

/-- A queued copy (12, R304 to R306). -/
structure CopyOp where
  id   : Nat
  cls  : Cls
  gs   : Nat
  wg   : Nat
  pc   : W64
  dst  : W64
  src  : W64
  len  : Nat
  rows : Nat
  sp   : Nat
  dp   : Nat
  row  : Nat := 0
  pos  : Nat := 0
  tgts : List CopyTgt
  ext  : Bool := false
  sup  : Bool := false
  again : Bool := false
  deriving DecidableEq, Repr

/-- A saved workgroup (15, R379): its groups by index; those saved by YIELD have lost their other V registers. `ls` is its
local store as it was, `tiles` and `zmaps` what it held in the array, `subs` and `pubs` its entries of the Felt's tables,
`copies` the copies that run again after a restore; `bad` marks the image's section kinds that are incomplete, `off` is
the image's offset in its area. -/
structure SavedWg where
  wg     : Nat
  groups : Tbl Group := []
  ls     : List Byte := []
  array  : Bool := false
  tiles  : Tbl W32 := []
  zmaps  : Tbl W128 := []
  subs   : Tbl SubEnt := []
  pubs   : Tbl PubEnt := []
  copies : List CopyOp := []
  bad    : Nat := 0
  off    : Nat := 0
  deriving DecidableEq, Repr

/-- Why a context is being saved: a pre-empt command; a checkpoint, by a packet or by the Headbox itself, with the number
and START of the interval it begins; a halt of another context; a resume that no longer fits, with its DET; none:
nothing saves it. -/
inductive Saving where
  | none
  | preempt (pk : Nat)
  | ckpt (pk : Option Nat) (number : W32) (start : Nat)
  | byHalt
  | refused (pk det : Nat)
  deriving DecidableEq, Repr

/-- The state that an interval began with (17, R395, R396): the saved workgroups, and the grids, workgroups and gangs of
the context. -/
structure Base where
  saved : List SavedWg
  grids : Tbl Grid
  wgs   : Tbl Workgroup
  gangs : Tbl Gang
  deriving DecidableEq, Repr

/-- A space identifier's context (01, R37, R40; 04, R117; 15, R372). -/
structure Space where
  part  : Nat := 0
  gen   : Byte := 0#8
  inUse : Bool := false
  torn  : Bool := false
  ptroot : W64 := 0#64
  area  : Nat := 0
  size  : Nat := 0
  spn   : Nat := 0
  mode  : BitVec 2 := 1#2
  log   : Nat := 0
  logSize : Nat := 0
  st    : CtxState := .running
  rcd   : Recording := {}
  rcdNext : Recording := {}
  valid : Bool := false
  nr    : Bool := false
  ovf   : Bool := false
  host  : Bool := false
  start : Nat := 0
  interval : W32 := 0#32
  gridNo : Nat := 0
  epochNext : Nat := 0
  ucnt  : Nat := 0
  pcnt  : Nat := 0
  tcnt  : Nat := 0
  tdrop : Nat := 0
  logged : List Nat := []
  seqk  : List (Nat × Nat × Nat) := []
  replay : Option Replay := none
  saved : List SavedWg := []
  saving : Saving := .none
  resumePk : Option Nat := none
  restart : Bool := true
  image : Nat := 0
  begun : Option Base := none
  deriving DecidableEq, Repr

/-- A core's own state (02, R43; 06, R157; 13, R309), with the times since which its local store and its array are in use
(16, R381). -/
structure Core where
  ls    : Tbl Byte := []
  lswm  : Tbl (BitVec 16) := []
  l1    : Tbl L1Line := []
  tlb   : List TlbEnt := []
  tiles : Tbl W32 := []
  zmaps : Tbl W128 := []
  holder : Option Nat := none
  lent  : Option Nat := none
  eng   : List MatOp := []
  cpq   : List CopyOp := []
  subs  : Tbl SubEnt := []
  pubs  : Tbl PubEnt := []
  felt  : List FeltEnt := []
  pred  : Tbl (BitVec 3) := []
  owned : List Nat := []
  bad   : List Nat := []
  badTiles : List Nat := []
  lostBanks : List Nat := []
  lostCols : List Nat := []
  busyLs : Option Nat := none
  busyArr : Option Nat := none
  deriving DecidableEq, Repr

/-- An evacuation under way or queued (02, R59 to R62): a logical slice from a physical slice to another, or a logical
channel; `ptr` is the progress pointer, `count` the lines moved, `why` the reason of its unit's retirement. -/
structure Evac where
  slice : Bool
  logical : Nat
  src   : Nat
  dst   : Nat
  why   : Reason
  ptr   : Nat := 0
  count : Nat := 0
  deriving DecidableEq, Repr

/-- A compute die's memory side (02, R51, R57, R59, R61): `moved` holds the channels of the lines that left a retired one,
`reserve` the lines in each channel's reserve; and its retirements that have not taken effect yet, in order of detection
(16, R383). -/
structure Die where
  slices : Tbl Nat := []
  lostSlices : List Nat := []
  lostChans : List Nat := []
  moved : Tbl Nat := []
  reserve : Tbl Nat := []
  evacs : List Evac := []
  pending : List (HwUnit × Reason) := []
  rdc   : Tbl RdcLine := []
  links : List Nat := []
  view  : Tbl Byte := []
  memLost : Bool := false
  deriving DecidableEq, Repr

/-- A link's or port's transmitter (16, R390, R391; 18, R433): the injector's settings and its count, per lane. -/
structure Injector where
  lane  : Nat
  act   : Nat
  rep   : Bool
  n     : Nat
  arg   : W64
  count : Nat := 0
  deriving DecidableEq, Repr

/-- A participant of a collective (14, R349): its rank, its group, workgroup, operation and word, its descriptor's address,
its source and destination; the bytes of its destination that are written; whether it has finished, or a failure of its
own has ended it. -/
structure CollPart where
  rank : Nat
  gs   : Nat
  wg   : Nat
  id   : Nat
  pc   : W64
  sup  : Bool
  desc : Nat
  src  : Nat
  dst  : Nat
  len  : Nat
  pos  : Nat := 0
  fin  : Bool := false
  failed : Bool := false
  deriving DecidableEq, Repr

/-- A collective of a communicator and attempt (14, R349, R350): what its first joiner's descriptor says, its
participants, the chunks combined (16, R392), the elements so far. -/
structure Coll where
  comm : W32
  att  : Byte
  nth  : Nat
  count : Nat
  op   : Nat
  fmt  : Nat
  fx   : Nat
  npart : Nat
  root : Nat
  joined : List CollPart := []
  parts : List (Nat × Nat) := []
  acc  : Tbl Int := []
  nf   : Bool := false
  clamp : Bool := false
  code : Nat := 0
  deriving DecidableEq, Repr

/-- An audit record (18, R420 Table 6). -/
structure AuditRec where
  seq  : Nat
  typ  : Nat
  len  : Nat
  flag : Bool
  prev : BitVec 384
  body : List Byte
  deriving DecidableEq, Repr

/-- The security core and the module's own registers (18, R408 to R421). -/
structure Security where
  stage : Byte := 0#8
  modnum : Byte := 0#8
  dieup : BitVec 4 := 0#4
  sqbase : W64 := 0#64
  sqdb  : Nat := 0
  sqrd  : Nat := 0
  sqerr : Byte := 0#8
  sqdet : Byte := 0#8
  sqhalt : Bool := false
  sqreread : Option Nat := none
  nrbase : W64 := 0#64
  nrwr  : Nat := 0
  sqridx : Nat := 0
  meas  : Tbl (BitVec 384) := []
  audit : List AuditRec := []
  pending : List AuditRec := []
  lostRec : Bool := false
  seq   : Nat := 0
  prevH : BitVec 384 := 0#384
  recSeq : Nat := 0
  domain : Tbl (List Nat) := [(0, [])]
  qtab  : Option (Nat × Nat) := none
  incarn : Byte := 0#8
  incAt : Nat := 0
  incLost : List Nat := []
  ports : List Nat := []
  fabLost : List Nat := []
  linkLost : List Nat := []
  throttle : Bool := false
  powered : Bool := false
  memStacks : List Nat := []
  inService : List Nat := []
  deriving DecidableEq, Repr

/-- A group slot's directory entry (04, R107, R108): its incarnation, when it last left each incarnation, when it last
advanced, where an advance is due, what the wait for it is charged to, and how many more are due; how many it has made since
the resident group was placed. -/
structure SlotDir where
  inc   : BitVec 4 := 0#4
  left  : Tbl Nat := []
  since : Nat := 0
  want  : Option Stall := none
  more  : Nat := 0
  span  : Nat := 0
  deriving DecidableEq, Repr

/-- The word being issued: its group's slot number and whether from slot B. -/
structure Issue where
  gs : Nat
  b  : Bool
  deriving DecidableEq, Repr

/-- Who moves: a lane block issues a word from a slot, another agent takes a step, cycles pass, the module takes its own next
step. -/
inductive Move where
  | issue (gs : Nat) (b : Bool)
  | event (e : Instr)
  | elapse (n : Nat)
  | own
  deriving DecidableEq, Repr

/-- A tentative word (16, R386): its number in its group, the group as it stood before it, the clock when its result
was produced, the requests it made, and the words that retire with it. [DEDUCED, log entry 113] -/
structure Tent where
  nth    : Nat
  before : Group
  born   : Nat
  reqs   : List Nat
  n      : Nat
  point  : Option (W64 × Mask × Nat × Nat) := none
  deriving DecidableEq, Repr

/-- The state of the module. `agenda`, `turn` and `free` are the model's own: the moves that come next, where the
round of the lane blocks stands, and how many free values have been drawn. -/
structure State where
  agenda : List Move := []
  turn   : Nat := 0
  free   : Nat := 0
  cur    : Option Issue := none
  clock  : Nat := 0
  fresh  : Nat := 0
  mem    : Memory := []
  wms    : Tbl W64 := []
  recs   : Tbl RelRec := []
  invs   : List (Nat × Nat) := []
  poison : List Nat := []
  strong : Tbl (Nat × Nat) := []
  l2     : Tbl L2Line := []
  locks  : Tbl (Nat × Nat) := []
  holds  : Tbl (Nat × Nat) := []
  owners : Tbl Nat := []
  groups : Tbl Group := []
  tents  : Tbl (List Tent) := []
  dir    : Tbl SlotDir := []
  wgs    : Tbl Workgroup := []
  gangs  : Tbl Gang := []
  grids  : Tbl Grid := []
  spaces : Tbl Space := []
  parts  : Tbl Partition := []
  queues : Tbl Qcb := []
  packets : Tbl Packet := []
  rr     : Tbl Nat := []
  lbs    : Tbl LaneBlock := []
  cores  : Tbl Core := []
  dies   : Tbl Die := []
  reqs   : Tbl Req := []
  rqers  : Tbl Requester := []
  rcache : List RcEntry := []
  upds   : List Upd := []
  colls  : Tbl Coll := []
  curAtt : Tbl Byte := []
  tokens : Tbl (W32 × Byte) := []
  injs   : Tbl (List Injector) := []
  quads  : List QuadArr := []
  reach  : List (Nat × Nat × Nat) := []
  checks : List HwUnit := []
  passes : Tbl Nat := []
  hostOut : List (List Byte) := []
  sec    : Security := {}
  deriving DecidableEq, Repr

/-- The model's own stop. -/
inductive Fault where
  /-- Raised by `exec` of an instruction that has a word, in a state in which no resident group's slot is issuing:
  the machine never issues a word without one. Safe: a step of the machine always sets the issuing slot. -/
  | noIssuingSlot
  deriving DecidableEq, Repr

/-- Why a step has no meaning. -/
inductive Refusal where
  /-- Raised by an arm of `exec` whose instruction has no meaning yet. Safe. -/
  | notModelled (mnemonic : String)
  deriving DecidableEq, Repr

/-- The module right after power-good and before its first start stage (18, R416): nothing resident, no partition, no
queue table, measurement registers zero (R418), generations zero (01, R40), the domain table of one module numbered 0
(18, R414), every counter zero. [DESIGN CHOICE, log entry 1] -/
def State.reset : State := {}

end Sys2Proof.Machine
end

