-- ==== Sys2Proof/Machine/Check.lean ====
section
/-! DEFINITION. The Watermark: what a recording write leaves, what a group knows, the ordered-access tests, release
records and merges, incarnations (spec/04_watermark.md R101 to R121). -/

namespace Sys2Proof.Machine

/-! ### Numbers of places (00; 04, R102) -/

/-- The core of a group's slot number. -/
def coreOf (gs : Nat) : Nat := gs / 64
/-- The key of its lane block. -/
def lbOf (gs : Nat) : Nat := gs / 16
/-- SLOT of Table 2: lane block and slot (04, R102). -/
def slotOf (gs : Nat) : Nat := gs % 64
/-- The compute die of a core. -/
def dieOf (core : Nat) : Nat := core / 192
/-- The cluster of a core, 48 a die. -/
def clusterOf (core : Nat) : Nat := core / 4

/-- The slot directory's entry. -/
def State.dirOf (s : State) (gs : Nat) : SlotDir := (Tbl.find s.dir gs).getD {}
/-- The incarnation of a slot. -/
def State.incOf (s : State) (gs : Nat) : BitVec 4 := (s.dirOf gs).inc
/-- The grid of a group. -/
def State.gridOf (s : State) (g : Group) : Option Grid := (Tbl.find s.wgs g.wg).bind fun w => Tbl.find s.grids w.grid
/-- The epoch tag of a group's grid (04, R107). -/
def State.epochOf (s : State) (g : Group) : BitVec 4 := ((s.gridOf g).map (·.epoch)).getD 0#4

/-- A number with no limit: the least of a list, where there is one. -/
def leastOf : List Nat → Option Nat
  | [] => none
  | a :: t => (match leastOf t with
    | none => some a
    | some b => some (min a b))

/-- The lead of a workgroup: the group in its lowest slot (04, R105). -/
def State.wgLead (s : State) (wid : Nat) : Nat :=
  (((Tbl.find s.wgs wid).map fun w => leastOf (w.slots.map (·.2))).bind id).getD 0

/-- The lead of a gang: the lead of its rank-0 workgroup (04, R105). -/
def State.gangLead (s : State) (gid : Nat) : Nat :=
  (((Tbl.find s.gangs gid).bind fun g => Tbl.find g.wgs 0).map s.wgLead).getD 0

/-- The gang of a workgroup and its size. -/
def State.gangOf (s : State) (wid : Nat) : Nat × Nat :=
  match Tbl.find s.wgs wid with
  | some w => (w.gang, ((Tbl.find s.gangs w.gang).map (·.size)).getD 1)
  | none => (0, 1)

/-- Two groups' workgroups are in one gang of two or more. -/
def State.sameGang (s : State) (a b : Nat) : Bool :=
  let ga := s.gangOf a
  let gb := s.gangOf b
  decide (ga.1 = gb.1) && decide (2 ≤ ga.2) && decide (2 ≤ gb.2)

/-! ### Fields -/

/-- The watermark of a recording write (04, R102 Table 2). [DEDUCED, log entry 7] -/
def mkWm (epoch : BitVec 4) (gs : Nat) (inc : BitVec 4) (c : CheckState) (kind qm : Nat) : W64 :=
  BitVec.ofNat 64 (fld 4 60 epoch.toNat + fld 10 50 (coreOf gs) + fld 6 44 (slotOf gs) + fld 4 40 inc.toNat +
    fld 12 28 c.rc.toNat + fld 6 22 c.pwg.toNat + fld 6 16 c.pgg.toNat + fld 6 10 c.pdg.toNat + fld 2 8 kind +
    fld 1 7 1 + fld 4 3 qm)

/-- An acquired-table entry (04, R105 Table 5). -/
def mkEntry (tk gs : Nat) (inc : BitVec 4) (val : Nat) : W64 :=
  BitVec.ofNat 64 (fld 2 62 tk + fld 10 52 (coreOf gs) + fld 6 46 (slotOf gs) + fld 4 42 inc.toNat + fld 12 30 val)

/-- The slot an entry or watermark names. -/
def entSlot (e : W64) : Nat := bits e 61 52 * 64 + bits e 51 46
def entInc (e : W64) : Nat := bits e 45 42
def entTk (e : W64) : Nat := bits e 63 62
def entVal (e : W64) : Nat := bits e 41 30
def wmSlot (w : W64) : Nat := bits w 59 50 * 64 + bits w 49 44

/-- `sdiff(x, n)` of R111. -/
def sdiff (x y : Nat) (n : Nat) : Int := signed n ((x : Int) - (y : Int))

/-- Two entries name the same writer or barrier. -/
def sameEnt (a b : W64) : Bool :=
  entTk a == entTk b && entSlot a == entSlot b && entInc a == entInc b

/-- The later of two values of one entry: clocks in 12 bits, generations in 6. -/
def laterVal (tk x y : Nat) : Nat :=
  let n := if tk = 1 then 12 else 6
  if 0 ≤ sdiff x y n then x else y

/-- One entry merged into a table, the oldest first; the flag tells that an entry was dropped (04, R110). -/
def mergeEntry (t : List W64) (e : W64) : List W64 × Bool :=
  if entTk e = 0 then (t, false)
  else
    match t.find? (sameEnt e) with
    | some o =>
      let v := laterVal (entTk e) (entVal e) (entVal o)
      (t.filter (fun x => !sameEnt e x) ++ [mkEntry (entTk e) (entSlot e) (BitVec.ofNat 4 (entInc e)) v], false)
    | none => if t.length < 8 then (t ++ [e], false) else (t.drop 1 ++ [e], true)

/-- Entries merged in order. -/
def mergeEntries (t : List W64) (l : List W64) : List W64 × Bool :=
  l.foldl (fun r e => let x := mergeEntry r.1 e; (x.1, r.2 || x.2)) (t, false)

/-- IC is cleared, and the grid generation at the time when it was kept (04, R110). -/
def CheckState.clearIc (c : CheckState) : CheckState := { c with ic := false, icAt := if c.ic then c.pdg else c.icAt }

def maxW (a b : W32) : W32 := if a.toNat < b.toNat then b else a

/-- An incarnation that a slot has had since its resident group was placed (04, R107). -/
def State.sameTenant (s : State) (gs : Nat) (inc : BitVec 4) : Bool := decide ((s.incOf gs - inc).toNat ≤ (s.dirOf gs).span)

/-- Merging a release record into the state of group `g` (04, R110). -/
def State.mergeRec (s : State) (g : Group) (r : RelRec) (c : CheckState) : CheckState :=
  let x := entSlot r.writer
  let inWg := (match Tbl.find s.groups x with
    | some w => decide (w.wg = g.wg) && s.sameTenant x (BitVec.ofNat 4 (entInc r.writer))
    | none => decide (s.wgLead g.wg = r.leadW) && s.sameTenant r.leadW r.incW)
  let gg := s.gangOf g.wg
  let inGang := r.gang && decide (2 ≤ gg.2) && decide (s.gangLead gg.1 = r.leadG) && s.sameTenant r.leadG r.incG
  let es := [r.writer] ++ r.table ++
    (if inWg then [] else [mkEntry 2 r.leadW r.incW (r.kwg.toNat % 64)]) ++
    (if inGang || !r.gang then [] else [mkEntry 3 r.leadG r.incG (r.kgg.toNat % 64)])
  let m := mergeEntries c.table es
  let c1 := { c with
    table := m.1
    kwg := if inWg then maxW c.kwg r.kwg else c.kwg
    kgg := if inGang then maxW c.kgg r.kgg else c.kgg
    kdg := if r.epoch = s.epochOf g then maxW c.kdg r.kdg else c.kdg }
  if r.ic && !m.2 then c1 else c1.clearIc

/-- The release record of a group's state (04, R109). [DEDUCED, log entry 7] -/
def State.mkRec (s : State) (gs : Nat) (g : Group) : RelRec :=
  let gg := s.gangOf g.wg
  let lw := s.wgLead g.wg
  let lg := s.gangLead gg.1
  { writer := mkEntry 1 gs (s.incOf gs) (g.chk.rc.toNat % 4096), epoch := s.epochOf g, leadW := lw, incW := s.incOf lw,
    leadG := if 2 ≤ gg.2 then lg else 0, incG := if 2 ≤ gg.2 then s.incOf lg else 0#4, gang := decide (2 ≤ gg.2),
    kwg := g.chk.kwg, kgg := g.chk.kgg, kdg := g.chk.kdg, ic := g.chk.ic, rc := g.chk.rc, table := g.chk.table }

/-- The words of a release record as images hold it (04, R109 Table 8). -/
def RelRec.words (r : RelRec) : List W64 :=
  [r.writer,
   BitVec.ofNat 64 (fld 4 60 r.epoch.toNat + fld 10 50 (coreOf r.leadW) + fld 6 44 (slotOf r.leadW) +
     fld 4 40 r.incW.toNat + (if r.gang then fld 10 30 (coreOf r.leadG) + fld 6 24 (slotOf r.leadG) +
     fld 4 20 r.incG.toNat else 0)),
   BitVec.ofNat 64 (fld 32 32 r.kwg.toNat + fld 32 0 r.kgg.toNat),
   BitVec.ofNat 64 (fld 32 32 r.kdg.toNat + fld 1 1 (b2n r.ic) + 1),
   BitVec.ofNat 64 (fld 32 0 r.rc.toNat)] ++ (r.table ++ List.replicate (8 - r.table.length) 0#64)

/-- The record that such words hold; none where V is 0. `gang` is told by a nonzero gang lead. -/
def RelRec.ofWords (l : List W64) : Option RelRec :=
  let w := fun i => l.getD i 0#64
  if bits (w 3) 0 0 = 0 then none
  else some
    { writer := w 0, epoch := BitVec.ofNat 4 (bits (w 1) 63 60),
      leadW := bits (w 1) 59 50 * 64 + bits (w 1) 49 44, incW := BitVec.ofNat 4 (bits (w 1) 43 40),
      leadG := bits (w 1) 39 30 * 64 + bits (w 1) 29 24, incG := BitVec.ofNat 4 (bits (w 1) 23 20),
      gang := decide (bits (w 1) 39 20 ≠ 0),
      kwg := BitVec.ofNat 32 (bits (w 2) 63 32), kgg := BitVec.ofNat 32 (bits (w 2) 31 0),
      kdg := BitVec.ofNat 32 (bits (w 3) 63 32), ic := bits (w 3) 1 1 == 1,
      rc := BitVec.ofNat 32 (bits (w 4) 31 0), table := ((l.drop 5).take 8).filter (fun e => entTk e != 0) }

/-! ### Clocks and generations (04, R106, R107) -/

/-- A slot's incarnation must advance, once more where an advance is due already (04, R107). -/
def State.wantAdvance (s : State) (gs : Nat) (why : Stall) : State :=
  let d := s.dirOf gs
  { s with dir := Tbl.put s.dir gs { d with want := some (d.want.getD why), more := d.more + b2n d.want.isSome } }

/-- The release clock rises by one; crossing a multiple of 1,024 advances the incarnation (04, R106, R107).
[DEDUCED, log entry 7] -/
def State.tickRc (s : State) (gs : Nat) : State :=
  match Tbl.find s.groups gs with
  | none => s
  | some g =>
    let rc := g.chk.rc + 1#32
    let old := fun (t : Tent) => { t with before := { t.before with chk := { t.before.chk with rc } } }
    let s1 := { s with groups := Tbl.put s.groups gs { g with chk := { g.chk with rc } }, tents := Tbl.upd s.tents gs fun l => l.map old }
    if rc.toNat % 1024 = 0 then s1.wantAdvance gs .switchPark else s1

/-- The barriers whose passed generations a group counts (04, R105). -/
inductive Gen where
  | wg | gang | grid
  deriving DecidableEq, Repr

/-- A passed generation rises by one at a departure, and the known one with it (04, R105, R106, R107). IC is set again
at the second grid generation after it was cleared (04, R110). -/
def State.passGen (s : State) (gs : Nat) (k : Gen) : State :=
  match Tbl.find s.groups gs with
  | none => s
  | some g =>
    let c := g.chk
    let r := (match k with
      | .wg => ({ c with pwg := c.pwg + 1#32, kwg := maxW c.kwg (c.pwg + 1#32) }, c.pwg + 1#32)
      | .gang => ({ c with pgg := c.pgg + 1#32, kgg := maxW c.kgg (c.pgg + 1#32) }, c.pgg + 1#32)
      | .grid =>
        let p := c.pdg + 1#32
        ({ c with pdg := p, kdg := maxW c.kdg p, ic := c.ic || decide (c.icAt.toNat + 2 ≤ p.toNat) }, p))
    let s1 := { s with groups := Tbl.put s.groups gs { g with chk := r.1 } }
    if r.2.toNat % 8 = 0 then s1.wantAdvance gs .barrier else s1

/-- The global sweep units of the module (04, R108): slices, remote-data cache banks, L1s. -/
def globalUnits : List Nat := List.range (256 + 64 + 768)
/-- The key of a sweep unit in `passes`. -/
def sweepKey : SweepUnit → Nat
  | .slice die ls => die * 64 + ls
  | .rdc die bank => 256 + die * 16 + bank
  | .l1 core => 320 + core
  | .localStore core => 1088 + core

/-- The last completed pass of a unit. -/
def State.passOf (s : State) (k : Nat) : Nat := Tbl.get 0 s.passes k

/-- A slot may advance: every global sweep has passed since it last left the value to be entered, and every core of
its cluster since its last advance (04, R108). [DEDUCED, log entry 52] -/
def State.mayAdvance (s : State) (gs : Nat) : Bool :=
  let d := s.dirOf gs
  let next := (d.inc + 1#4).toNat
  (match Tbl.find d.left next with
   | none => true
   | some t => globalUnits.all (fun u => decide (t < s.passOf u))) &&
  (decide (d.since = 0) ||
    (List.range 4).all (fun i => decide (d.since < s.passOf (1088 + 4 * clusterOf (coreOf gs) + i))))

/-- The advance of a slot's incarnation (04, R107). -/
def State.advance (s : State) (gs : Nat) : State :=
  let d := s.dirOf gs
  let t := s.fresh + 1
  { s with
    fresh := t
    dir := Tbl.put s.dir gs
      { inc := d.inc + 1#4, left := Tbl.put d.left d.inc.toNat t, since := t, want := if d.more = 0 then none else d.want
        more := d.more - 1, span := d.span + 1 } }

/-- A group takes its place in a slot, with an incarnation of its own (04, R107). -/
def State.enterSlot (s : State) (gs : Nat) : State :=
  let s1 := s.advance gs
  { s1 with dir := Tbl.upd s1.dir gs fun d => { d with want := none, more := 0, span := 0 } }

/-! ### The tests (04, R111, R112) -/

/-- The verdict on an access to a sector. -/
inductive Verdict where
  | pass | unverified | race
  deriving DecidableEq, Repr

/-- The stronger verdict (04, R113). -/
def Verdict.join : Verdict → Verdict → Verdict
  | .race, _ | _, .race => .race
  | .unverified, _ | _, .unverified => .unverified
  | _, _ => .pass

/-- The slot is resident with this incarnation. -/
def State.residentAt (s : State) (gs inc : Nat) : Option Group :=
  match Tbl.find s.groups gs with
  | some w => if (s.incOf gs).toNat = inc then some w else none
  | none => none

/-- R111 up to the acquired table, as the home applies it (04, R114): `some` is a decision. -/
def State.testHome (s : State) (gs : Nat) (g : Group) (wm : W64) (strong : Bool) (quarters : Nat) : Option Verdict :=
  if bits wm 7 7 = 0 then some .pass
  else if wmSlot wm = gs ∧ bits wm 43 40 = (s.incOf gs).toNat then some .pass
  else if bits wm 63 60 ≠ (s.epochOf g).toNat then some .pass
  else if bits wm 9 8 ≠ 0 ∧ strong then some .pass
  else if Nat.land (bits wm 6 3) quarters = 0 then some .unverified
  else
    match s.residentAt (wmSlot wm) (bits wm 43 40) with
    | none => some .unverified
    | some w =>
      if w.wg = g.wg ∧ 1 ≤ sdiff g.chk.kwg.toNat (bits wm 27 22) 6 then some .pass
      else if s.sameGang w.wg g.wg ∧ 1 ≤ sdiff g.chk.kgg.toNat (bits wm 21 16) 6 then some .pass
      else if 1 ≤ sdiff g.chk.kdg.toNat (bits wm 15 10) 6 then some .pass
      else none

/-- An entry of the acquired table shows the write ordered before (04, R111). -/
def State.entryPasses (s : State) (w : Group) (wm e : W64) : Bool :=
  match entTk e with
  | 1 => decide (entSlot e = wmSlot wm) && decide (entInc e = bits wm 43 40) &&
      decide (1 ≤ sdiff (entVal e) (bits wm 39 28) 12)
  | 2 => decide (entSlot e = s.wgLead w.wg) && decide (entInc e = (s.incOf (s.wgLead w.wg)).toNat) &&
      decide (1 ≤ sdiff (entVal e) (bits wm 27 22) 6)
  | 3 =>
    let l := s.gangLead (s.gangOf w.wg).1
    decide (entSlot e = l) && decide (entInc e = (s.incOf l).toNat) && decide (1 ≤ sdiff (entVal e) (bits wm 21 16) 6)
  | _ => false

/-- The ordered-access test (04, R111). -/
def State.testWm (s : State) (gs : Nat) (g : Group) (wm : W64) (strong : Bool) (quarters : Nat) : Verdict :=
  match s.testHome gs g wm strong quarters with
  | some v => v
  | none =>
    match s.residentAt (wmSlot wm) (bits wm 43 40) with
    | none => .unverified
    | some w =>
      if g.chk.table.any (s.entryPasses w wm) then .pass
      else if g.chk.ic then .race
      else .unverified

/-- No step of R111 that knows of an order shows the sector's last write before an access of a group: the two may be unordered
(03, R80). A writer that is gone counts as unordered. [DEDUCED, log entry 123] -/
def State.unordered (s : State) (gs : Nat) (g : Group) (wm : W64) : Bool :=
  bits wm 7 7 != 0 && !(wmSlot wm == gs && bits wm 43 40 == (s.incOf gs).toNat) && bits wm 63 60 == (s.epochOf g).toNat &&
  (match s.residentAt (wmSlot wm) (bits wm 43 40) with
   | none => true
   | some w =>
     !(w.wg == g.wg && decide (1 ≤ sdiff g.chk.kwg.toNat (bits wm 27 22) 6)) &&
     !(s.sameGang w.wg g.wg && decide (1 ≤ sdiff g.chk.kgg.toNat (bits wm 21 16) 6)) &&
     !(decide (1 ≤ sdiff g.chk.kdg.toNat (bits wm 15 10) 6)) && !(g.chk.table.any (s.entryPasses w wm)))

/-- An entry names a group, its workgroup or its gang (04, R112). -/
def State.namesAny (s : State) (ws : Nat) (w : Group) (e : W64) : Bool :=
  match entTk e with
  | 1 => decide (entSlot e = ws) && decide (entInc e = (s.incOf ws).toNat)
  | 2 => decide (entSlot e = s.wgLead w.wg) && decide (entInc e = (s.incOf (s.wgLead w.wg)).toNat)
  | 3 =>
    let l := s.gangLead (s.gangOf w.wg).1
    decide (entSlot e = l) && decide (entInc e = (s.incOf l).toNat)
  | _ => false

/-- The test of a weak local-store access to a segment of workgroup `owner` (04, R112). -/
def State.testLs (s : State) (gs : Nat) (g : Group) (owner : Nat) (lw : BitVec 16) : Verdict :=
  let x := lw.zeroExtend 64
  if bits x 15 15 = 0 then .pass
  else
    let ws := (clusterOf (coreOf gs) * 4 + bits x 13 12) * 64 + bits x 11 6
    if ws = gs ∧ bits x 5 5 = (s.incOf gs).toNat % 2 then .pass
    else
      match Tbl.find s.groups ws with
      | none => .unverified
      | some w =>
        if (s.incOf ws).toNat % 2 ≠ bits x 5 5 then .unverified
        else if bits x 14 14 = 0 then .unverified
        else
          let inGang := decide (2 ≤ (s.gangOf owner).2)
          if inGang ∧ s.sameGang w.wg g.wg ∧ 1 ≤ sdiff g.chk.kgg.toNat (bits x 4 0) 5 then .pass
          else if inGang ∧ w.wg = g.wg then .unverified
          else if ¬inGang ∧ 1 ≤ sdiff g.chk.kwg.toNat (bits x 4 0) 5 then .pass
          else if g.chk.table.any (s.namesAny ws w) then .unverified
          else if g.chk.ic then .race
          else .unverified

/-! ### Recording (04, R103, R104) -/

/-- The fields that a merge of quarter masks compares (04, R103): all but QM. -/
def wmHead (w : W64) : Nat := w.toNat / 2 ^ 7

/-- The new watermark of a sector: its quarters are joined to the old ones of an equal writer state (04, R103). -/
def recordWm (old new : W64) : W64 :=
  if bits old 7 7 = 1 ∧ wmHead old = wmHead new then old ||| new else new

/-- The local-store watermark of a recording write (04, R104 Table 3); `owner` is the segment's workgroup. -/
def State.recordLs (s : State) (gs : Nat) (g : Group) (owner : Nat) (old : BitVec 16) (whole : Bool) : BitVec 16 :=
  let gen := if 2 ≤ (s.gangOf owner).2 then g.chk.pgg.toNat else g.chk.pwg.toNat
  let body := fld 2 12 (coreOf gs % 4) + fld 6 6 (slotOf gs) + fld 1 5 ((s.incOf gs).toNat % 2) + fld 5 0 gen
  let o := old.toNat
  let keep := decide (o / 2 ^ 14 = 3) && decide (o % 2 ^ 14 = body)
  BitVec.ofNat 16 (2 ^ 15 + fld 1 14 (b2n (whole || keep)) + body)

/-- The segment's workgroup lies where the position does. -/
def State.setLsWm (s : State) (core seg : Nat) (x : BitVec 16) : State :=
  { s with cores := Tbl.upd s.cores core (fun c => { c with lswm := Tbl.set 0#16 c.lswm seg x }) }

/-- Reading a local-store watermark. -/
def State.lsWm (s : State) (core seg : Nat) : BitVec 16 :=
  ((Tbl.find s.cores core).map fun c => Tbl.get 0#16 c.lswm seg).getD 0#16

/-- A release record is returned or written: it is the most recently used (04, R109). -/
def State.useRec (s : State) (sector : Nat) : State :=
  { s with fresh := s.fresh + 1, recs := Tbl.upd s.recs sector fun r => { r with used := s.fresh + 1 } }

/-- A release record at a slice's store of 512 in sets of 8, the least recently used of a set replaced (04, R109); `setOf` gives a
sector's slice and set. -/
def State.putRec (s : State) (sector : Nat) (setOf : Nat → Nat) (r : RelRec) : State :=
  let t := s.fresh + 1
  let mine := s.recs.filter (fun e => setOf e.1 = setOf sector ∧ e.1 ≠ sector)
  let recs := if mine.length < 8 then s.recs
    else (match sortBy (fun e => e.2.used) mine with
      | e :: _ => Tbl.del s.recs e.1
      | [] => s.recs)
  { s with fresh := t, recs := Tbl.put recs sector { r with used := t } }

end Sys2Proof.Machine
end

