-- ==== Sys2Proof/Machine/Ops.lean ====
section
/-! DEFINITION. The named operations over registers and groups, taking an exception, and the frame in which every word
issues: the checks of 09 R237, the queue conditions of 07 R192, the result of a word, its retirement (17 R398). -/

namespace Sys2Proof.Machine

/-- The outcome of a step of this machine. -/
abbrev Out := Host.Outcome State Fault Refusal

/-! ### Free values -/

/-- A value the spec leaves undefined, and the counter that makes the next one another. [DESIGN CHOICE, log entry 4] -/
def State.draw (s : State) : W64 × State := (Config.freeWord s.free, { s with free := s.free + 1 })
/-- An unpredictable choice between two outcomes. [DESIGN CHOICE, log entry 4] -/
def State.choose (s : State) : Bool × State := (Config.freeBool s.free, { s with free := s.free + 1 })

/-! ### Places -/

def State.space (s : State) (spid : Nat) : Space := (Tbl.find s.spaces spid).getD {}
def State.updSpace (s : State) (spid : Nat) (f : Space → Space) : State := { s with spaces := Tbl.upd s.spaces spid f }
def State.updGroup (s : State) (gs : Nat) (f : Group → Group) : State := { s with groups := Tbl.upd s.groups gs f }
def State.updWg (s : State) (w : Nat) (f : Workgroup → Workgroup) : State := { s with wgs := Tbl.upd s.wgs w f }
def State.updGrid (s : State) (w : Nat) (f : Grid → Grid) : State := { s with grids := Tbl.upd s.grids w f }
def State.core (s : State) (c : Nat) : Core := (Tbl.find s.cores c).getD {}
def State.updCore (s : State) (c : Nat) (f : Core → Core) : State := { s with cores := Tbl.put s.cores c (f (s.core c)) }
def State.lb (s : State) (k : Nat) : LaneBlock := (Tbl.find s.lbs k).getD {}
def State.updLb (s : State) (k : Nat) (f : LaneBlock → LaneBlock) : State := { s with lbs := Tbl.put s.lbs k (f (s.lb k)) }
def State.die (s : State) (d : Nat) : Die := (Tbl.find s.dies d).getD {}
def State.updDie (s : State) (d : Nat) (f : Die → Die) : State := { s with dies := Tbl.put s.dies d (f (s.die d)) }
def State.updPart (s : State) (p : Nat) (f : Partition → Partition) : State := { s with parts := Tbl.upd s.parts p f }
def State.updReq (s : State) (r : Nat) (f : Req → Req) : State := { s with reqs := Tbl.upd s.reqs r f }

/-- A fresh key. -/
def State.newId (s : State) : Nat × State := (s.fresh + 1, { s with fresh := s.fresh + 1 })

/-- A descriptor word by its offset (08, R208 Table 4). -/
def Grid.word (g : Grid) (off : Nat) : W64 := Tbl.get 0#64 g.desc (off / 8)
/-- Fenced mode (08, Table 4 MODE). -/
def Grid.fenced (g : Grid) : Bool := bit (g.word 0x18) 28
/-- Registers per group N (07, R173). -/
def Grid.nreg (g : Grid) : Nat := 8 * bits (g.word 0x18) 63 58
/-- Queues of a workgroup, and their depth D (08, Table 4). -/
def Grid.nq (g : Grid) : Nat := bits (g.word 0x18) 47 44
def Grid.qdepth (g : Grid) : Nat := 2 ^ (bits (g.word 0x18) 43 41 + 1)
/-- Team size T (07, R175), and gang size G (06, R150). -/
def Grid.team (g : Grid) : Nat := bits (g.word 0x18) 40 37
def Grid.gangSize (g : Grid) : Nat := max 1 (bits (g.word 0x18) 36 32)
/-- Private bytes of a lane P (01, R18). -/
def Grid.priv (g : Grid) : Nat := 16 * bits (g.word 0x38) 12 0

/-- Space identifier and generation of a group (01, R37). -/
def State.spidOf (s : State) (g : Group) : Nat := ((s.gridOf g).map (·.spid)).getD 0
def State.genOf (s : State) (g : Group) : Byte := ((s.gridOf g).map (·.sgen)).getD 0#8
/-- The partition of a group. -/
def State.partOf (s : State) (g : Group) : Nat := ((s.gridOf g).map (·.part)).getD 0

/-- Words issued and not faulted: retired, and tentative (17, R398). [DEDUCED, log entry 112] -/
def State.rwcNow (s : State) (gs : Nat) (g : Group) : W32 :=
  g.rwc + BitVec.ofNat 32 ((((Tbl.find s.tents gs).getD []).map (·.n)).sum)

/-! ### Live lanes and the fold (07, R181) -/

/-- The live physical lanes of a lane block, ascending. -/
def LaneBlock.live (b : LaneBlock) : List Nat := (List.range 36).filter (fun i => !b.lost.contains i)
/-- The live width W. -/
def LaneBlock.width (b : LaneBlock) : Nat := b.live.length
/-- Beats of a word: ⌈32 / min(W, 32)⌉. -/
def LaneBlock.beats (b : LaneBlock) : Nat :=
  let w := min b.width 32
  if w = 0 then 0 else (32 + w - 1) / w
/-- A steering entry (07, R181 Table 2). -/
def LaneBlock.steer (b : LaneBlock) (L : Nat) : Nat :=
  let w := min b.width 32
  if w = 0 then 0 else (L / w) * 256 + b.live.getD (L % w) 0

/-- The live physical register banks of a lane block (07, R180). -/
def LaneBlock.banks (b : LaneBlock) : Nat := 18 - b.lostBanks.length
/-- A physical bank leaves the map: the logical bank it held goes to a spare, or there is one logical bank less (07, R180). -/
def LaneBlock.loseBank (b : LaneBlock) (i : Nat) : LaneBlock :=
  let spare := (List.range 18).find? (fun k => k != i && !b.lostBanks.contains k && !b.bankMap.contains k)
  { b with
    lostBanks := i :: b.lostBanks
    bankMap := match spare with
      | some k => b.bankMap.map fun x => if x = i then k else x
      | none => b.bankMap.filter (· != i) }
/-- The live local-store banks of a core; with fewer than 32 the core is absent (02, R46). -/
def Core.banks (c : Core) : Nat := 34 - c.lostBanks.length
/-- The live columns of a core's array (16, R382). -/
def Core.cols (c : Core) : Nat := 34 - c.lostCols.length

/-! ### Group state -/

def Group.slot (g : Group) (b : Bool) : Option PcSlot := if b then g.slotB else g.slotA
def Group.setSlot (g : Group) (b : Bool) (x : Option PcSlot) : Group :=
  if b then { g with slotB := x } else { g with slotA := x }
/-- The bits of a predicate; P7 reads all ones (09, R227). -/
def Group.pred (g : Group) (p : Pred) : Mask := if p.val = 7 then BitVec.allOnes 32 else Tbl.get 0#32 g.p p.val
/-- One lane of a V register. -/
def Group.vget (g : Group) (n L : Nat) : W32 := Tbl.get 0#32 g.v (n * 32 + L)
/-- An S register. -/
def Group.sget (g : Group) (n : Nat) : W64 := Tbl.get 0#64 g.s n
/-- The lanes of a mask that pass a guard (09, R227). -/
def Group.guard (g : Group) (h : Hdr) (m : Mask) : Mask :=
  m &&& (if h.gn then ~~~(g.pred h.g) else g.pred h.g)

/-- One register write. A write to P7 is discarded (09, R227). -/
def Group.write (g : Group) : RegW → Group
  | .v n L x => { g with v := Tbl.set 0#32 g.v (n * 32 + L) x }
  | .s n x => { g with s := Tbl.set 0#64 g.s n x }
  | .p n lanes val =>
    if n = 7 then g
    else { g with p := Tbl.set 0#32 g.p n ((Tbl.get 0#32 g.p n &&& ~~~lanes) ||| (val &&& lanes)) }
  | .push _ _ _ => g

/-- Register writes in order. -/
def Group.writes (g : Group) (l : List RegW) : Group := l.foldl Group.write g

/-! ### The word being issued -/

/-- What a word works on: the group and slot it issues from, the slot's mask, its active lanes, its sources with the
queue entries popped for them. -/
structure Word where
  gs   : Nat
  b    : Bool
  g    : Group
  slot : PcSlot
  act  : Mask
  ngrp : Nat
  srcs : List (Use × List W32)
  deriving DecidableEq, Repr

/-- Slot 15 of a lane block: the walker routine (01, R26). -/
def isWalker (gs : Nat) : Bool := gs % 16 == 15
/-- Supervisor code (01, R15). -/
def Word.sup (w : Word) : Bool := isWalker w.gs || w.g.ft.isSome

/-- A selector's value (09, R224 Table 6). [DEDUCED, log entry 109] -/
def Word.sel (w : Word) (x : Sel) (L : Nat) : Nat :=
  match x with
  | .lane => L
  | .group => w.g.gidx
  | .ngrp => w.ngrp
  | .tid => w.g.gidx * 32 + L
  | .active => w.slot.mask.toNat
  | .live => w.g.live.toNat
  | .onef => 0x3F800000
  | .all1 => 0xFFFFFFFF

/-- A register field's value in lane `L`, in its role (09, R223, R225). [DEDUCED, log entry 109] -/
def Word.reg (w : Word) (u : Use) (pop : List W32) (L : Nat) : Nat :=
  match u.reg, u.role with
  | .v n, .r32 => (w.g.vget n.val L).toNat
  | .v n, .r64 => (w.g.vget n.val L).toNat + 2 ^ 32 * (w.g.vget (n.val + 1) L).toNat
  | .v n, .r128 =>
    (w.g.vget n.val L).toNat + 2 ^ 32 * (w.g.vget (n.val + 1) L).toNat + 2 ^ 64 * (w.g.vget (n.val + 2) L).toNat +
      2 ^ 96 * (w.g.vget (n.val + 3) L).toNat
  | .s n, .r32 => (w.g.sget n.val).toNat % 2 ^ 32
  | .s n, .r64 => (w.g.sget n.val).toNat
  | .s n, .r128 => (w.g.sget n.val).toNat + 2 ^ 64 * (w.g.sget (n.val + 1)).toNat
  | .q _, _ => (pop.getD L 0#32).toNat
  | .sel x, _ => w.sel x L % 2 ^ 32
  | .z, _ => 0

/-- Source `k` of the word (A is 0, B is 1, …) in lane `L`. -/
def Word.src (w : Word) (k L : Nat) : Nat :=
  match w.srcs[k]? with
  | some (u, pop) => w.reg u pop L
  | none => 0

/-- The active lanes, ascending. -/
def Word.lanes (w : Word) : List Nat := laneList w.act

/-- The writes of a destination field: `f` gives each lane's value. A V register takes it in the active lanes, an S
register takes it once where some lane is active, a Q register takes an entry, Z takes nothing (09, R223, R225, R226;
07, R192). -/
def Word.put (w : Word) (u : Use) (f : Nat → Nat) : List RegW :=
  match u.reg, u.role with
  | .v n, .r32 => w.lanes.map fun L => .v n.val L (BitVec.ofNat 32 (f L))
  | .v n, .r64 => w.lanes.flatMap fun L =>
      [.v n.val L (BitVec.ofNat 32 (f L)), .v (n.val + 1) L (BitVec.ofNat 32 (f L / 2 ^ 32))]
  | .v n, .r128 => w.lanes.flatMap fun L => (List.range 4).map fun j =>
      .v (n.val + j) L (BitVec.ofNat 32 (f L / 2 ^ (32 * j)))
  | .s n, .r128 => if w.act = 0#32 then [] else
      [.s n.val (BitVec.ofNat 64 (f 0)), .s (n.val + 1) (BitVec.ofNat 64 (f 0 / 2 ^ 64))]
  | .s n, .r64 => if w.act = 0#32 then [] else [.s n.val (BitVec.ofNat 64 (f 0))]
  | .s n, .r32 => if w.act = 0#32 then [] else [.s n.val (BitVec.ofNat 64 (f 0 % 2 ^ 32))]
  | .q k, _ => [.push k.val w.act (lanes32.map fun L => if inMask w.act L then BitVec.ofNat 32 (f L) else 0#32)]
  | .sel _, _ => []
  | .z, _ => []

/-- A write of a predicate's active lanes (09, R227). -/
def Word.putP (w : Word) (p : Pred) (f : Nat → Bool) : List RegW := [.p p.val w.act (maskOf f)]

/-- The registers whose pending bits a field names (07, R193). -/
def useRefs (u : Use) : List RegRef := u.vregs.map .v ++ u.sregs.map .s

/-! ### Queues of a workgroup (07, R191, R192) -/

def Workgroup.queue (w : Workgroup) (q : Nat) : QState := (Tbl.find w.qs q).getD {}
def Workgroup.setQueue (w : Workgroup) (q : Nat) (x : QState) : Workgroup := { w with qs := Tbl.put w.qs q x }

/-- The tag word of a push by group `gs` in its present check state (07, R191). -/
def State.queueTag (s : State) (gs : Nat) (c : CheckState) (m : Mask) : W64 :=
  BitVec.ofNat 64 (fld 32 0 m.toNat + fld 12 32 c.rc.toNat + fld 6 44 (slotOf gs) + fld 4 50 (s.incOf gs).toNat +
    fld 1 54 (b2n (!c.table.isEmpty || !c.ic)))

/-- A push: the release clock rises, then the entry is stored (04, R106; 07, R191, R192). -/
def State.push (s : State) (gs q : Nat) (m : Mask) (vals : List W32) : State :=
  let s1 := s.tickRc gs
  match Tbl.find s1.groups gs with
  | none => s
  | some g =>
    s1.updWg g.wg fun w =>
      let x := w.queue q
      w.setQueue q { x with entries := x.entries ++ [⟨vals, s1.queueTag gs g.chk m⟩] }

/-- The edge of a pop: the pusher's clock is merged, or IC cleared where its tag says so (04, R110). -/
def mergePop (core : Nat) (tag : W64) (c : CheckState) : CheckState :=
  if bits tag 54 54 = 1 then c.clearIc
  else
    let m := mergeEntry c.table (mkEntry 1 (core * 64 + bits tag 49 44) (BitVec.ofNat 4 (bits tag 53 50)) (bits tag 43 32))
    let c1 := { c with table := m.1 }
    if m.2 then c1.clearIc else c1

/-- The queue numbers of a list of fields. -/
def queuesOf (l : List Use) : List Nat := l.filterMap fun u => match u.reg with
  | .q k => some k.val
  | _ => none

/-- How often a queue occurs. -/
def countOf (l : List Nat) (q : Nat) : Nat := (l.filter (· == q)).length

/-- The sources with the entries they pop: the oldest entries not reserved, in field order (07, R192). -/
def popSources (w : Option Workgroup) : List Use → List Nat → List (Use × List W32)
  | [], _ => []
  | u :: t, taken =>
    match u.reg with
    | .q k =>
      let e := (w.map fun w => let x := w.queue k.val; (x.entries[x.rsv + countOf taken k.val]?).map (·.vals))
      (u, (e.bind id).getD []) :: popSources w t (k.val :: taken)
    | _ => (u, []) :: popSources w t taken

/-! ### Taking an exception (15, R361 to R368) -/

/-- A cause found: its code and detail, the lanes that have it, the faulting address, the immediate of TRAP and BPT,
what its extension holds. -/
structure Cause where
  code  : Nat
  det   : Nat := 0
  lanes : Mask
  addr  : W64 := 0#64
  info  : W64 := 0#64
  ext   : List W64 := []
  deriving DecidableEq, Repr

/-- The causes whose kind is late (15, R361 Table 1). -/
def lateKind (c : Nat) : Bool := c == 0x0C || c == 0x10 || c == 0x12 || c == 0x13 || c == 0x24 || c == 0x28
/-- The causes after which no restart is possible (15, Table 1). -/
def noRestart (c : Nat) : Bool := c == 0x24 || c == 0x28 || c == 0x29
/-- TRAP, BPT and the replay stop restart at the next word; the timer, whose trap code is all ones, at its word. -/
def restartsNext (c : Cause) : Bool := (c.code == 0x30 && c.info != 0xFFFFFFFF#64) || c.code == 0x31 || c.code == 0x32

/-- The word a cause is raised for: its address, the work retired when it issued, its number among the
words its group has issued, its slot. -/
structure At where
  pc  : W64
  rwc : W32
  nth : Nat
  b   : Bool
  deriving DecidableEq, Repr

/-- The engines of a partition have stopped: a fault that is raised now is a nested fault (15, R369, R378). -/
def State.stopped (s : State) (part : Nat) : Bool :=
  ((Tbl.find s.parts part).bind fun p => p.halt.map (·.stopped)).getD false

/-- A nested fault is entered; it raises no second halt. -/
def State.nest (s : State) (spid wg kind cause : Nat) : State :=
  s.updPart (s.space spid).part fun p =>
    { p with halt := p.halt.map fun h => { h with nested := h.nested ++ [⟨spid, wg, kind, BitVec.ofNat 8 cause⟩] } }

/-- A context is one of those that a halt halts, or is being released. -/
def State.ctxHalted (s : State) (spid : Nat) : Bool :=
  (s.space spid).st == .released ||
    ((Tbl.find s.parts (s.space spid).part).bind fun p => p.halt.map fun h => h.causes.any (fun c => c.spid == spid)).getD false
/-- A workgroup's engines are stopped by the halt of its context (15, R368). -/
def State.wgHalted (s : State) (wid : Nat) : Bool :=
  (((Tbl.find s.wgs wid).bind fun w => Tbl.find s.grids w.grid).map fun g => s.ctxHalted g.spid).getD false

/-- The halt line of the context's partition is raised (15, R368, R370); the Headbox, for the context, is that of the die of
the partition's first cluster; a context that is being released halts no more (18,
R422). -/
def State.haltBy (s : State) (spid eng unit cause det : Nat) (addr info : W64 := 0#64) : State :=
  let part := (s.space spid).part
  let first := ((Tbl.find s.parts part).bind fun p => p.clusters.head?).getD 0
  let c : HaltCause := ⟨spid, eng, if eng = 7 then 768 + first / 48 else unit, BitVec.ofNat 8 cause, BitVec.ofNat 8 det, addr, info⟩
  if (s.space spid).st == .released then s
  else if s.stopped part then s.nest spid 0 0 cause
  else s.updPart part fun p =>
    match p.halt with
    | none => { p with halt := some { causes := [c], since := s.clock } }
    | some h =>
      if h.since != s.clock || h.causes.any (fun x => x.spid == spid) then p
      else { p with halt := some { h with causes := h.causes ++ [c] } }

/-- The group goes back to its restart point (15, R364). -/
def Group.rollBack (g : Group) : Group :=
  { g with
    slotA := some { pc := g.regpc, mask := g.regmask &&& g.live }
    slotB := none
    join := g.join.drop (g.join.length - g.jd)
    spill := g.spill.drop (g.spill.length - g.sd)
    refill := []
    rwc := g.rrwc
    parkA := none, parkB := none, swPark := false }

/-- A late-kind cause of fenced mode is held: the first is kept, the others are counted (15, R367). -/
def Group.hold (g : Group) (a : At) (c : Cause) : Group :=
  { g with held := some (match g.held with
      | some h => { h with nheld := min 65535 (h.nheld + 1) }
      | none =>
        { cause := BitVec.ofNat 8 c.code, det := BitVec.ofNat 8 c.det, pc := a.pc, rpc := 0#64, addr := c.addr, info := c.info,
          lanes := c.lanes, late := true, restart := false, held := true, rwc := a.rwc, ext := c.ext, nheld := 1 }) }

/-- Misses of a group whose slots its first-touch handler keeps are known under another number (01, R29). -/
def heldSlot : Nat := 2 ^ 16
/-- A change of an interrupted slot: where the handler keeps it, or where it stands again. -/
def Group.toldHeld (g : Group) (b : Bool) (f : PcSlot → PcSlot) : Group :=
  match g.ft with
  | some r => { g with ft := some (if b then { r with slotB := r.slotB.map f } else { r with slotA := r.slotA.map f }) }
  | none => (match g.slot b with
    | some p => g.setSlot b (some (f p))
    | none => g)

/-- The walker run of a lane block ends with a result for its miss: 0 resolved, 2 no entry, 3 malformed, 4 first
touch, 5 failed (01, R27). [DEDUCED, log entry 102] -/
def State.endWalk (s : State) (k res : Nat) : State :=
  match (s.lb k).walk with
  | none => s
  | some r =>
    let page := r.miss.va / 2 ^ 16
    let told := fun (p : PcSlot) => { p with missing := false, walked := if res = 0 then p.walked else p.walked ++ [(page, res)] }
    let s1 := r.miss.groups.foldl (fun s x =>
      if heldSlot ≤ x.1 then s.updGroup (x.1 - heldSlot) fun g => g.toldHeld x.2 told
      else s.updGroup x.1 fun g => match g.slot x.2 with
        | some p => g.setSlot x.2 (some (told p))
        | none => g) s
    let s2 := s1.updLb k fun b =>
      { b with walk := none, engWalks := if r.miss.eng && res != 0 then b.engWalks ++ [(r.miss.spid, r.miss.gen, page, res)] else b.engWalks }
    { s2 with
      groups := Tbl.del s2.groups (k * 16 + 15), tents := Tbl.del s2.tents (k * 16 + 15)
      reqs := s2.reqs.filter (fun e => e.2.gs != k * 16 + 15) }

/-- The first-touch handler of a group ends: the banked registers and the slots are restored (01, R29, R30). -/
def Group.endHandler (g : Group) (r : FtRun) : Group :=
  let ss := (List.range 8).foldl (fun t i => Tbl.set 0#64 t (56 + i) (r.bankS.getD i 0#64)) g.s
  let ps := (List.range 2).foldl (fun t i => Tbl.set 0#32 t (5 + i) (r.bankP.getD i 0#32)) g.p
  { g with s := ss, p := ps, slotA := r.slotA, slotB := r.slotB, refill := r.refill, ft := none }

/-- What a fault leaves in a group: held in fenced mode; otherwise the stop record, with the roll-back of a late fault
(15, R364, R367, R371). -/
def Group.take (g : Group) (fenced : Bool) (a : At) (c : Cause) : Group :=
  let late := lateKind c.code && decide (a.nth + 1 < g.nissue)
  let stop (rpc : W64) (restart rolled : Bool) : Stop :=
    { cause := BitVec.ofNat 8 c.code, det := BitVec.ofNat 8 c.det, pc := a.pc, rpc, addr := c.addr, info := c.info,
      lanes := c.lanes, late, restart, rolled, rwc := a.rwc, ext := c.ext }
  if lateKind c.code && fenced then g.hold a c
  else if g.stop.isSome then g
  else if late && g.rv then { g.rollBack with stop := some (stop g.regpc (!noRestart c.code) true) }
  else if late then { g with stop := some (stop a.pc false false) }
  else
    let next := if restartsNext c then a.pc + 8#64 else a.pc
    let g1 := (match g.slot a.b with
      | some p => g.setSlot a.b (some { p with pc := next, fetched := none, phase := .idle, missing := false, walked := [] })
      | none => if c.lanes = 0#32 then g else g.setSlot a.b (some { pc := next, mask := c.lanes }))
    { g1 with stop := some (stop next (!noRestart c.code) false) }

/-- The tentative words of a group when one of them faults: that word's requests are not sent and it does not count;
where the group rolled back, the others' requests go on (15, R364, R369). -/
def State.faultTents (s : State) (gs : Nat) (a : At) (rolled : Bool) : State :=
  let ts := (Tbl.find s.tents gs).getD []
  let dead := (ts.filter (fun t => t.nth == a.nth)).flatMap (·.reqs)
  let rest := ts.filter (fun t => t.nth != a.nth)
  let s1 := { s with reqs := s.reqs.filter (fun e => !dead.contains e.1) }
  if rolled then
    let s2 := (rest.flatMap (·.reqs)).foldl (fun s r => s.updReq r fun q =>
      if q.stage = .held then { q with stage := .mesh } else q) s1
    { s2 with tents := Tbl.del s2.tents gs }
  else { s1 with tents := Tbl.set [] s1.tents gs rest }

/-- Taking an exception (15, R361 to R368). In the walker routine it ends the routine; in a first-touch handler it ends
the handler with the fault 0x09, detail 0x05, of the faulting word (01, R27, R30). Otherwise the group takes it, and,
unless it is held, the halt line of its partition is raised. Once the engines have stopped it is a nested fault, which
makes the group's registers incomplete in the image (15, R369, R378). -/
def State.raise (s : State) (gs : Nat) (a : At) (c : Cause) : State :=
  if isWalker gs then s.endWalk (gs / 16) 5
  else
    match Tbl.find s.groups gs with
    | none => s
    | some g =>
      let fenced := ((s.gridOf g).map Grid.fenced).getD false
      let spid := ((s.gridOf g).map (·.spid)).getD 0
      if (s.space spid).st == .released then s
      else if s.stopped (s.space spid).part && !(lateKind c.code && fenced) then s.nest spid g.wg 1 c.code
      else
      match g.ft with
      | some r =>
        let g0 := g.endHandler r
        let first := (laneList r.mask).headD 0
        let c1 : Cause := { code := 0x09, det := 0x05, lanes := r.mask, addr := Tbl.get 0#64 r.addrs first }
        let a1 : At := ⟨((g0.slot r.slot).map (·.pc)).getD a.pc, a.rwc, a.nth, r.slot⟩
        let s1 := { s with groups := Tbl.put s.groups gs (g0.take fenced a1 c1) }
        s1.haltBy spid 0 (coreOf gs) 0x09 0x05
      | none =>
        let g1 := g.take fenced a c
        let s1 := { s with groups := Tbl.put s.groups gs g1 }.faultTents gs a ((g1.stop.map Stop.rolled).getD false)
        if lateKind c.code && fenced then s1 else s1.haltBy spid 0 (coreOf gs) c.code c.det

end Sys2Proof.Machine
end

