-- ==== Sys2Proof/Machine/Record.lean ====
section
/-! DEFINITION. Reading and writing device memory as bytes and words, and the debug area's logs: undo entries, replay
events, trace records, the report of a parting (17, R394 to R405). -/

namespace Sys2Proof.Machine

/-! ### Bytes and words of memory -/

/-- One byte of memory. [DESIGN CHOICE, log entry 3; DEDUCED, log entry 8] -/
def State.byte (s : State) (pa : Nat) : Byte := Tbl.get 0#8 s.mem pa
/-- `n` bytes from an address up. -/
def State.rdBytes (s : State) (pa n : Nat) : List Byte := (List.range n).map fun i => s.byte (pa + i)
/-- The little-endian number of `n` bytes. -/
def State.rd (s : State) (pa n : Nat) : Nat := ofBytes (s.rdBytes pa n)
def State.rd8 (s : State) (pa : Nat) : W64 := BitVec.ofNat 64 (s.rd pa 8)
/-- Bytes written from an address up. [DESIGN CHOICE, log entry 3] -/
def memPut (m : Memory) (pa : Nat) (l : List Byte) : Memory :=
  (l.foldl (fun (r : Memory × Nat) x => (Tbl.set 0#8 r.1 r.2 x, r.2 + 1)) (m, pa)).1
def State.wrBytes (s : State) (pa : Nat) (l : List Byte) : State := { s with mem := memPut s.mem pa l }
def wordBytes (l : List W64) : List Byte := l.flatMap fun x => toBytes 8 x.toNat

/-- What a table holds for the sectors outside some bytes. -/
def Tbl.outside {α : Type} (t : Tbl α) (pa n : Nat) : Tbl α := t.filter fun e => decide (e.1 < pa / 64) || decide ((pa + n - 1) / 64 < e.1)
/-- Bytes and words that the device writes to a log: they record no watermark and clear the valid bits of their sectors (04, R101). -/
def State.logBytes (s : State) (pa : Nat) (l : List Byte) : State :=
  { s.wrBytes pa l with
    wms := s.wms.outside pa l.length, recs := s.recs.outside pa l.length, strong := s.strong.outside pa l.length }
def State.wrWords (s : State) (pa : Nat) (l : List W64) : State := s.logBytes pa (wordBytes l)

/-- Device memory of this module (01, R19). -/
def State.ownMem (s : State) (pa : Nat) : Bool :=
  !pa.testBit 51 && decide (pa / 2 ^ 43 % 256 = s.sec.modnum.toNat)

/-! ### The debug header and logs -/

/-- The replay log and the trace buffer of an area (17, R395 Table 2). -/
def Recording.replayAt (r : Recording) : Nat := r.base + 2 ^ 16 + 2 ^ r.ul
def Recording.traceAt (r : Recording) : Nat := r.replayAt + 2 ^ r.pl
/-- The base image's place. -/
def Recording.baseAt (r : Recording) : Nat := r.traceAt + (if r.tl = 0 then 0 else 2 ^ r.tl)

/-- The debug header (17, R395 Table 3). -/
def State.putDbg (s : State) (spid : Nat) : State :=
  let p := s.space spid
  s.wrWords p.rcd.base
    [BitVec.ofNat 64 (fld 32 32 p.interval.toNat + fld 8 24 p.start + fld 1 3 (b2n p.host) + fld 1 2 (b2n p.ovf) +
       fld 1 1 (b2n p.nr) + b2n p.valid),
     BitVec.ofNat 64 p.ucnt, BitVec.ofNat 64 p.pcnt, BitVec.ofNat 64 p.tcnt, BitVec.ofNat 64 p.tdrop]

/-- The context records now: REC is in effect and no re-execution runs (17, R396, R403). -/
def Space.records (p : Space) : Bool := p.rcd.on && p.valid && p.replay.isNone

/-- An overflow of a log makes the interval not replayable (17, R397). -/
def State.overflow (s : State) (spid : Nat) : State :=
  (s.updSpace spid fun p => { p with ovf := true, nr := true }).putDbg spid

/-- The interval is not replayable (17, R397). -/
def State.notReplayable (s : State) (spid : Nat) : State :=
  if (s.space spid).records && !(s.space spid).nr then (s.updSpace spid fun p => { p with nr := true }).putDbg spid else s
/-- A copy or collective reads a place: memory of another module or the host's makes the interval not replayable. -/
def State.readsAt (s : State) (spid : Nat) : Loc → State
  | .mem pa => if s.ownMem pa then s else s.notReplayable spid
  | .ls _ _ _ => s

/-- The undo entry of a line before its first write in an interval (17, R399 Table 4). -/
def State.undo (s : State) (spid line : Nat) : State :=
  let p := s.space spid
  if !p.records || !s.ownMem (line * 128) || p.logged.contains line then s
  else if 2 ^ p.rcd.ul < 144 * (p.ucnt + 1) then s.overflow spid
  else
    let s1 := (s.wrWords (p.rcd.base + 2 ^ 16 + 144 * p.ucnt)
      [BitVec.ofNat 64 (line * 128), BitVec.ofNat 64 p.ucnt]).logBytes
        (p.rcd.base + 2 ^ 16 + 144 * p.ucnt + 16) (s.rdBytes (line * 128) 128)
    (s1.updSpace spid fun p => { p with ucnt := p.ucnt + 1, logged := line :: p.logged }).putDbg spid

/-- The name of a group's work: grid, workgroup and group numbers (17, R398). -/
def State.nameOf (s : State) (g : Group) : Nat × Nat × Nat :=
  (((s.gridOf g).map (·.number)).getD 0, ((Tbl.find s.wgs g.wg).map (·.wgidx)).getD 0, g.gidx)

/-- The four words of a replay event (17, R400 Table 5). -/
def eventWords (kind lane grid wgidx gidx seqk : Nat) (rwc : W32) (key value : W64) : List W64 :=
  [BitVec.ofNat 64 (fld 8 56 kind + fld 8 48 lane + fld 16 32 grid + rwc.toNat),
   BitVec.ofNat 64 (fld 32 32 wgidx + fld 5 27 gidx + fld 27 0 seqk), key, value]

/-- The order number of the next event of a kind and key. -/
def Space.seqOf (p : Space) (kind key : Nat) : Nat :=
  ((p.seqk.find? (fun x => x.1 == kind && x.2.1 == key)).map (·.2.2)).getD 0

/-- A replay event is appended (17, R400). -/
def State.logEvent (s : State) (spid kind lane : Nat) (name : Nat × Nat × Nat) (rwc : W32) (key : Nat) (value : W64) :
    State :=
  let p := s.space spid
  if !p.records then s
  else if 2 ^ p.rcd.pl < 32 * (p.pcnt + 1) then s.overflow spid
  else
    let k := p.seqOf kind key
    let s1 := s.wrWords (p.rcd.replayAt + 32 * p.pcnt)
      (eventWords kind lane name.1 name.2.1 name.2.2 k rwc (BitVec.ofNat 64 key) value)
    (s1.updSpace spid fun p => { p with
      pcnt := p.pcnt + 1
      seqk := (kind, key, k + 1) :: p.seqk.filter (fun x => !(x.1 == kind && x.2.1 == key)) }).putDbg spid

/-- An event of a group. -/
def State.logGroup (s : State) (g : Group) (kind lane : Nat) (rwc : W32) (key : Nat) (value : W64) : State :=
  s.logEvent (s.spidOf g) kind lane (s.nameOf g) rwc key value

/-- A trace record (17, R402 Table 6). -/
def State.traceMark (s : State) (gs : Nat) (g : Group) (pc : W64) (imm : W32) (act : Mask) : State :=
  let spid := s.spidOf g
  let p := s.space spid
  if !(p.rcd.trace && p.rcd.tl != 0) || p.replay.isSome then s
  else if 2 ^ p.rcd.tl < 32 * (p.tcnt + 1) then (s.updSpace spid fun p => { p with tdrop := p.tdrop + 1 }).putDbg spid
  else
    let n := s.nameOf g
    let s1 := s.wrWords (p.rcd.traceAt + 32 * p.tcnt)
      [BitVec.ofNat 64 (fld 32 32 p.interval.toNat + (s.rwcNow gs g).toNat),
       BitVec.ofNat 64 (fld 32 32 n.2.1 + fld 16 16 n.1 + fld 5 11 n.2.2), pc,
       BitVec.ofNat 64 (fld 32 32 imm.toNat + act.toNat)]
    (s1.updSpace spid fun p => { p with tcnt := p.tcnt + 1 }).putDbg spid

/-! ### Re-execution (17, R403 to R405) -/

/-- What re-execution says of an event that is about to be performed: nothing is re-executed; it takes the logged
outcome; its turn has not come; it differs from the record, whose next event of the group is given. -/
inductive Gate where
  | free
  | take (ix : Nat) (v : W64)
  | hold
  | part (ix : Nat)
  deriving DecidableEq, Repr

/-- The words of logged event `i`. -/
def State.event (s : State) (r : Recording) (i : Nat) : List W64 :=
  (List.range 4).map fun k => s.rd8 (r.replayAt + 32 * i + 8 * k)

/-- Bits of a word of a logged event. -/
def evBits (e : List W64) (k hi lo : Nat) : Nat := bits (e.getD k 0#64) hi lo

/-- The logged events, and those of a group that are not used yet. -/
def State.allEvents (s : State) (p : Space) (r : Replay) : List (Nat × List W64) :=
  (List.range r.upto).map fun i => (i, s.event p.rcd i)
def ownEvents (r : Replay) (name : Nat × Nat × Nat) (all : List (Nat × List W64)) : List (Nat × List W64) :=
  all.filter (fun e => !r.used.contains e.1 && evBits e.2 0 47 32 == name.1 && evBits e.2 1 63 32 == name.2.1 &&
    evBits e.2 1 31 27 == name.2.2)

/-- The gate of an event (17, R403 step 3, R404). -/
def State.gate (s : State) (spid kind lane : Nat) (name : Nat × Nat × Nat) (rwc : W32) (key : Nat) : Gate :=
  let p := s.space spid
  match p.replay with
  | none => .free
  | some r =>
    if r.void then .free
    else
      let all := s.allEvents p r
      let mine := ownEvents r name all
      match sortBy (fun e => evBits e.2 0 31 0) mine with
      | [] => .part r.upto
      | nxt :: _ =>
        (match mine.find? (fun e => evBits e.2 0 31 0 == rwc.toNat && evBits e.2 0 63 56 == kind &&
            evBits e.2 0 55 48 == lane && evBits e.2 2 63 0 == key) with
         | none => .part nxt.1
         | some e =>
           let done := (all.filter (fun x => r.used.contains x.1 && evBits x.2 0 63 56 == kind &&
             evBits x.2 2 63 0 == key)).length
           if evBits e.2 1 26 0 = done then .take e.1 (e.2.getD 3 0#64) else .hold)

/-- A re-execution that has not parted. -/
def Space.reruns (p : Space) : Bool := (p.replay.map fun r => !r.void).getD false

/-- The next logged event of a group at a word, of a kind and key, by its index and value. -/
def State.nextAt (s : State) (spid : Nat) (name : Nat × Nat × Nat) (rwc : W32) (kind key : Nat) : Option (Nat × W64) :=
  let p := s.space spid
  p.replay.bind fun r =>
    ((ownEvents r name (s.allEvents p r)).find? (fun e => evBits e.2 0 31 0 == rwc.toNat && evBits e.2 0 63 56 == kind &&
      evBits e.2 2 63 0 == key)).map fun e => (e.1, e.2.getD 3 0#64)

/-- A logged event has been performed. -/
def State.useEvent (s : State) (spid ix : Nat) : State :=
  s.updSpace spid fun p => { p with replay := p.replay.map fun r => { r with used := ix :: r.used } }

/-- Re-execution parts from the record: the report, then the halt with INFO 2, or free running (17, R405 Table 7). -/
def State.parting (s : State) (spid gs : Nat) (a : At) (ix : Nat) (found : List W64) : State :=
  let p := s.space spid
  let free := (p.replay.map (·.free)).getD false
  let expd := if ix < ((p.replay.map (·.upto)).getD 0) then s.event p.rcd ix else List.replicate 4 0#64
  let s1 := s.wrWords (p.rcd.base + 0x80)
    ([BitVec.ofNat 64 (fld 8 56 (if free then 2 else 1)), BitVec.ofNat 64 ix] ++ expd ++
      (found ++ List.replicate (4 - found.length) 0#64))
  let s2 := s1.updSpace spid fun p => { p with replay := p.replay.map fun r => { r with void := true } }
  if free then s2 else s2.raise gs a { code := 0x32, lanes := 0#32, info := 2#64 }

/-- An event that re-execution decides at the point where it is performed: `k` performs it with the logged outcome, if
there is one; `w` is what remains when its turn has not come. -/
def State.gated (s : State) (spid gs : Nat) (g : Group) (a : At) (kind lane key : Nat) (w : State)
    (k : Option W64 → State → State) : State :=
  match s.gate spid kind lane (s.nameOf g) a.rwc key with
  | .free => k none s
  | .take ix v => k (some v) (s.useEvent spid ix)
  | .hold => w
  | .part ix =>
    s.parting spid gs a ix (eventWords kind lane (s.nameOf g).1 (s.nameOf g).2.1 (s.nameOf g).2.2 0 a.rwc
      (BitVec.ofNat 64 key) 0#64)

end Sys2Proof.Machine
end

