-- ==== Sys2Proof/Machine/Issue.lean ====
section
/-! DEFINITION. How every word issues: the causes of Table 12 in order (09, R237), quiet points (15, R365), the
incarnation wait (04, R108), queue conditions (07, R192), then the word's own effect, and its retirement (17, R398; 16,
R386). -/

namespace Sys2Proof.Machine

/-- What a word's own effect comes to: it is performed and the slot goes on to the next word; it is performed and has
set the slots itself, with the number of words that retire with it; it has a cause; it waits and is not performed; it is
not performed because a first-touch handler has started. [DEDUCED, log entry 119] -/
inductive Eff where
  | done  (s : State)
  | moved (s : State) (n : Nat)
  | trap  (c : Cause) (s : State)
  | wait  (why : Stall) (s : State)
  | again (s : State)
  deriving DecidableEq, Repr

/-- What comes back for word `nth` of a group holds in the group and in what later tentative words found (16, R387). -/
def State.settle (s : State) (gs nth : Nat) (f : Group → Group) : State :=
  { s.updGroup gs f with
    tents := Tbl.upd s.tents gs fun l => l.map fun t => if nth < t.nth then { t with before := f t.before } else t }

/-- The requests of a group that are under way. -/
def State.reqsOf (s : State) (gs : Nat) : Tbl Req := s.reqs.filter (fun e => e.2.gs == gs)

/-- An earlier word of the group can still fault late: it has a request under way other than a result on its way
(15, R365). -/
def State.mayFaultLate (s : State) (gs : Nat) : Bool :=
  (s.reqsOf gs).any (fun e => match e.2.kind with
    | .result _ => false
    | _ => true)

/-- A request writes. -/
def Req.writes (q : Req) : Bool := match q.kind with
  | .load _ _ | .result _ | .tx _ (.prepare _) | .tx _ (.abort _ _) => false
  | _ => true
/-- A request reads and answers its group. -/
def Req.reads (q : Req) : Bool := match q.kind with
  | .load _ _ | .atom _ _ _ => true
  | _ => false
/-- Writes of other groups of a workgroup are under way: a group of it may have observed them through scope .WG, and its wider
releases order them too (03, R74, R86). -/
def State.matesWrite (s : State) (gs wg : Nat) : Bool :=
  s.reqs.any (fun e => e.2.wg == wg && e.2.gs != gs && e.2.writes && e.2.stage != .held)

/-- Writes that an operation of an engine must observe and follow are under way: it waits for them at its issue (03, R96).
[DEDUCED, log entry 148] -/
def State.opWaits (s : State) (gs wg : Nat) : Bool := s.mayFaultLate gs || s.matesWrite gs wg

/-- What a fence of a scope waits for (03, R92). With scope .GANG or wider it waits until every earlier write is acknowledged and
every earlier read has returned. With scope .WG it waits until the group's reads have returned and its writes have left the
core port, behind which the accesses of its workgroup to their sectors stay (02, R67). [DEDUCED, log entry 9] -/
def State.fenceWaits (s : State) (gs wg : Nat) (sco : Sco) : Bool :=
  if sco = .wg then s.reqs.any (fun e => e.2.gs == gs && (e.2.reads || e.2.writes && e.2.stage == .held))
  else s.opWaits gs wg

/-- A quiet point: one by its entry, or a word that pushes or pops a queue register (15, R365). -/
def infoQuiet (f : Info) : Bool := f.quiet || !(queuesOf (f.dst ++ f.src)).isEmpty

/-- The pending bits that a word's fields, predicates and guard name (07, R193, R194). -/
def infoRefs (i : Info) : List RegRef :=
  (i.dst ++ i.src).flatMap useRefs ++ ((i.h.g :: (i.ps ++ i.pd)).filter (fun p => p.val != 7)).map (fun p => .p p.val)

/-- The bank of a register: V registers by number mod 4, S registers the fifth (09, R233). -/
def bankOf : Reg → Option Nat
  | .v n => some (n.val % 4)
  | .s _ => some 4
  | _ => none

/-- R233 rules 1 and 2. -/
def pairOk (x y : Slot) : Bool :=
  (match bankOf x.d, bankOf y.d with
   | some a, some b => a != b
   | _, _ => true) &&
  (List.range 5).all (fun k => decide (((x.reads ++ y.reads).filter (fun r => bankOf r == some k)).length ≤ 2))

/-- A special register out of the code's reach (14, R355). -/
def restricted : Instr → Bool
  | .srd _ _ r | .swr _ _ r => r.restricted
  | _ => false

/-- The pairing rules hold. -/
def wordPairOk : Instr → Bool
  | .pairedWord _ x y => pairOk x y
  | _ => true

/-- The group issues its team's matrix instruction (13, R311). -/
def isIssuer (team gidx : Nat) : Bool := team < 2 || gidx % team == 0

/-- A word pushes to a queue register: a release of scope .WG (03, R85). -/
def pushes (f : Info) : Bool := f.dst.any (fun u => u.reg.isQ)

/-- A misuse that ranks with the illegal instructions: a LAUNCH by another group than its team's leader; a REGROUP that names its own
group, or beside another path or a stack (14, R344, R353; 15, R361). -/
def misused (i : Instr) (g : Group) (team : Nat) : Bool :=
  match i with
  | .launch _ _ _ => !isIssuer team g.gidx
  | .regroup _ _ _ _ gi =>
    gi.toNat == g.gidx || (g.slotA.isSome && g.slotB.isSome) || !g.join.isEmpty || !g.spill.isEmpty || !g.refill.isEmpty
  | _ => false

/-- The decode causes, in the order of Table 12 (09, R237; 07, R194): the first that applies, with the lanes. -/
def decodeCause (i : Instr) (f : Info) (g : Group) (sup : Bool) (team : Nat) (mask act : Mask) : Option (Nat × Mask) :=
  if !i.wellFormed || misused i g team then some (0x01, mask)
  else if (f.priv || restricted i) && !sup then some (0x02, mask)
  else if ((f.dst ++ f.src).flatMap Use.vregs).any (fun n => decide (g.n ≤ n)) then some (0x03, mask)
  else if !wordPairOk i then some (0x05, mask)
  else if (!f.team || isIssuer team g.gidx) && (infoRefs f).any (fun r => g.pend.contains r) then some (0x04, act)
  else none

/-- Words before which a due advance of the incarnation waits: writes and releases (04, R108). -/
def releases : Instr → Bool
  | .st _ _ _ | .sts _ _ _ | .red _ _ _ _ | .redo _ _ _ | .atom _ _ _ _ _ _ _ _ _ | .txe _ | .bar _ | .bara _ | .cbar _
  | .gbar _ | .qtry _ _ | .efence _ | .cpy _ _ _ _ _ | .cpys _ _ _ _ _ | .cpyx _ _ _ _ _ | .mstt _ _ _ | .mepi _ _ _ _ _
  | .mchk _ _ _ _ _ _ | .coll _ _ | .cabort _ _ | .cmnt _ _ .drop | .launch _ _ _ => true
  | .fence _ o _ => o == .rel || o == .ar || o == .sc
  | i => (i.info.map pushes).getD false

/-- Words that abort the transactions of their lanes (05, R139 Table 7); words that touch a queue do too. -/
def txRestricts : Instr → Bool
  | .atom _ _ _ _ _ _ _ _ _ | .red _ _ _ _ | .redo _ _ _ | .cpy _ _ _ _ _ | .cpys _ _ _ _ _ | .cpyx _ _ _ _ _
  | .batch _ _ _ | .waitb _ _ _ _ | .waitn _ _ _ | .subs _ _ _ _ _ _ | .unsub _ _ _ | .subfl _ | .subq _ _ _
  | .mma _ _ _ _ _ _ _ _ _ | .mzero _ _ | .mldt _ _ _ | .mstt _ _ _ | .mepi _ _ _ _ _ | .mchk _ _ _ _ _ _ | .mzmap _ _ _
  | .bar _ | .bara _ | .barw _ | .cbar _ | .gbar _ | .qcnt _ _ _ | .qtry _ _ | .coll _ _ | .cabort _ _ | .launch _ _ _
  | .lwait _ _ _ | .fence _ _ _ | .efence _ | .cmnt _ _ _ | .yield _ _ _ _ | .swr _ _ _ => true
  | _ => false

/-- A lane of a transaction. -/
def Group.txLane (g : Group) (L : Nat) : TxLane := (Tbl.find g.tx L).getD {}

/-- A lane's transaction aborts: its status is that of the first abort (05, R140, R143). -/
def TxLane.abort (t : TxLane) (cause ucode : Nat) (intra : Bool) : TxLane :=
  if t.depth = 0 || t.doomed then t
  else { t with doomed := true, words := []
                status := BitVec.ofNat 32 (fld 8 24 ucode + fld 3 21 t.depth + fld 1 8 (b2n intra) + fld 8 0 cause) }

/-- Some lanes abort. -/
def Group.txAbort (g : Group) (lanes : List Nat) (cause ucode : Nat) (intra : Bool) : Group :=
  if g.tx.isEmpty then g
  else { g with tx := lanes.foldl (fun t L => Tbl.upd t L fun x => x.abort cause ucode intra) g.tx }

/-- A restricted word aborts the transactions of its active lanes before it executes (05, R139). -/
def restrictTx (i : Instr) (f : Info) (g : Group) (act : Mask) : Group :=
  if txRestricts i || !(queuesOf (f.dst ++ f.src)).isEmpty then g.txAbort (laneList act) 3 0 false else g

/-- What the wait for an advance is charged to (04, R108). -/
def advanceStall (i : Instr) (why : Stall) : Stall :=
  match i with
  | .txe _ => .txCommit
  | _ => why

/-- A park of one slot (07, R196): the word is not performed and is issued again. [DEDUCED, log entry 119] -/
def State.park (s : State) (gs : Nat) (b : Bool) (why : Stall) : State :=
  s.updGroup gs fun g => if b then { g with parkB := some why } else { g with parkA := some why }

/-- The restart point that a quiet point leaves (15, R364, R365): the group's next word, slot A's where slot A holds a
path. [DEDUCED, log entry 113] -/
def Group.setPoint (g : Group) (after : W64) : Group :=
  { g with
    regpc := ((g.slotA.map (·.pc)).getD after)
    regmask := ((g.slotA.map (·.mask)).getD 0#32)
    jd := g.join.length, sd := g.spill.length, rrwc := g.rwc
    rv := g.slotB.isNone && g.spill.isEmpty && g.refill.isEmpty }

/-- A group whose quiet point has performed takes its restart point once nothing of it is under way (15, R365). -/
def State.settleQuiet (s : State) (gs : Nat) : State :=
  match Tbl.find s.groups gs with
  | none => s
  | some g =>
    match g.quietAt with
    | none => s
    | some b =>
      if s.mayFaultLate gs then s
      else s.updGroup gs fun g =>
        { g.setPoint (((g.slot b).map (·.pc)).getD g.regpc) with quietAt := none }

/-- Service mode: restart points are kept and quiet points wait (15, R365, R367). -/
def State.service (s : State) (g : Group) : Bool := ((s.gridOf g).map fun r => !r.fenced).getD false

/-- A group after its word: the slot goes on (07, R185), the switch marker parks the group (07, R193), marks of the issue are cleared. -/
def Group.after (g : Group) (w : Word) (f : Info) (advance : Bool) : Group :=
  let g1 := (match g.slot w.b with
    | some p =>
      g.setSlot w.b (some { p with
        pc := if advance then p.pc + 8#64 else p.pc, fetched := none, phase := .idle, missing := false, walked := [] })
    | none => g)
  { g1 with
    nissue := w.g.nissue + 1, lastB := w.b, lastPc := w.slot.pc, promoted := false, eligible := none
    swPark := g1.swPark || f.h.sw
    regAsk := false
    parkA := if w.b then g1.parkA else none, parkB := if w.b then none else g1.parkB }

/-- The retirement of a word (17, R398): the slot goes on, the lane block is busy for the word's beats (07, R184). A word of
R365 waits until every earlier word is committed and counts at once, in fenced mode too; every other word is tentative until
it is committed (16, R386, R389). `s0` is the state in which the word issued. [DEDUCED, log entry 112] -/
def State.retire (s s0 : State) (w : Word) (f : Info) (atOnce advance : Bool) (n : Nat) : State :=
  let k := lbOf w.gs
  let s1 := s.updLb k fun b => { b with busy := s.clock + b.beats }
  match Tbl.find s1.groups w.gs with
  | none => s1
  | some g =>
    let g2 := g.after w f advance
    if atOnce then
      let g3 := { g2 with rwc := g2.rwc + BitVec.ofNat 32 n, quietAt := if infoQuiet f && s.service w.g then some w.b else g2.quietAt }
      { s1 with groups := Tbl.put s1.groups w.gs g3 }.settleQuiet w.gs
    else
      let made := (s1.reqs.filter (fun e => decide (s0.fresh < e.1) && e.2.gs == w.gs)).map (·.1)
      let point := if g.regAsk then some (w.slot.pc, w.slot.mask, w.g.join.length, w.g.spill.length) else none
      { s1 with
        groups := Tbl.put s1.groups w.gs g2
        tents := Tbl.put s1.tents w.gs
          (((Tbl.find s1.tents w.gs).getD []) ++ [⟨w.g.nissue, w.g, s.clock, made, n, point⟩]) }

/-- The queues a word pops and pushes by its fields, with the room and entries they need (07, R192). -/
def queueStall (depth : Nat) (wg : Workgroup) (f : Info) : Option Stall :=
  let pushes := queuesOf f.dst
  let pops := queuesOf f.src
  if pushes.any (fun q => decide (depth < (wg.queue q).entries.length + (wg.queue q).room + countOf pushes q)) then
    some .queueFull
  else if pops.any (fun q => decide ((wg.queue q).entries.length < (wg.queue q).rsv + countOf pops q)) then
    some .queueEmpty
  else none

/-- Entries reserved for the pops of an issued word, and room for the pushes that wait for its result (07, R192). -/
def Workgroup.reserve (w : Workgroup) (pops pushes : List Nat) : Workgroup :=
  let w1 := pops.foldl (fun w q => let x := w.queue q; w.setQueue q { x with rsv := x.rsv + 1 }) w
  pushes.foldl (fun w q => let x := w.queue q; w.setQueue q { x with room := x.room + 1 }) w1

/-- One register write of a group, or a push. -/
def State.applyW (s : State) (gs : Nat) (x : RegW) : State :=
  match x with
  | .push q m vals => s.push gs q m vals
  | x => s.updGroup gs fun g => g.write x
/-- Register writes of a group, and pushes. -/
def State.applyWs (s : State) (gs : Nat) (l : List RegW) : State := l.foldl (fun s x => s.applyW gs x) s

/-- The registers a list of writes names (07, R193). -/
def refsOf (l : List RegW) : List RegRef :=
  l.foldl (fun t x =>
    let r := (match x with
      | .v n _ _ => some (RegRef.v n)
      | .s n _ => some (.s n)
      | .p n _ _ => if n = 7 then none else some (.p n)
      | .push _ _ _ => none)
    match r with
    | some r => if t.contains r then t else t ++ [r]
    | none => t) []

/-- A long result: it is on its way until LONG_RESULT_RETURN writes it; the pending bits of the destinations are set
(07, R193), also of the V and P fields of a word whose lanes are none; an S destination then has no effect (09, R226). -/
def State.sendResult (s : State) (w : Word) (f : Info) (ws : List RegW) (pops : List Nat) : State :=
  let id := s.newId
  let refs := f.dst.flatMap useRefs ++ (f.pd.filter (fun p => p.val != 7)).map (fun p => RegRef.p p.val)
  let pend := refs.filter (fun r => !w.g.pend.contains r && !(w.act == 0#32 && (match r with
    | .s _ => true
    | _ => false)))
  let r : Req := {
    gs := w.gs
    wg := w.g.wg
    core := coreOf w.gs
    spid := 0
    kind := .result ws
    accs := []
    size := 0
    ord := .weak
    sco := .none
    stage := .answered
    pend := pend
    pops := pops
    pc := w.slot.pc
    mask := w.act
    rwc := s.rwcNow w.gs w.g
    nth := w.g.nissue
    b := w.b }
  { id.2 with reqs := Tbl.put id.2.reqs id.1 r }.updGroup w.gs fun g => { g with pend := g.pend ++ pend }

/-- The result of a word of registers: written at once, or a long result (07, R193, R192). -/
def State.deliver (s : State) (w : Word) (f : Info) (ws : List RegW) : State :=
  let pops := queuesOf f.src
  if f.long || !pops.isEmpty then
    let pushes := ws.filterMap fun x => match x with
      | .push q _ _ => some q
      | _ => none
    (s.updWg w.g.wg fun x => x.reserve pops pushes).sendResult w f ws pops
  else s.applyWs w.gs ws

/-- The word in the issuing slot. -/
def mkWord (s : State) (gs : Nat) (b : Bool) (g : Group) (slot : PcSlot) (f : Info) : Word :=
  let wg := Tbl.find s.wgs g.wg
  { gs, b, g, slot, act := g.guard f.h slot.mask, ngrp := (wg.map (·.ngrp)).getD 0, srcs := popSources wg f.src [] }

/-- The key of a queue's events (17, R400 Table 5). -/
def State.queueKey (s : State) (g : Group) (q : Nat) : Nat := ((Tbl.find s.wgs g.wg).map (·.wgidx)).getD 0 * 8 + q

/-- Re-execution keeps the pops of a word waiting, or parts from the record at them (17, R403, R404). -/
def State.popGate (s : State) (gs : Nat) (g : Group) (pops : List Nat) : Gate :=
  (pops.map fun q => s.gate (s.spidOf g) 3 0xFF (s.nameOf g) (s.rwcNow gs g) (s.queueKey g q)).find? (fun x => match x with
    | .hold | .part _ => true
    | _ => false) |>.getD .free

/-- The pops of a word are logged, or take their logged turns (17, R400, R403). -/
def State.logPop (s : State) (g : Group) (rwc : W32) (q : Nat) : State :=
  match s.gate (s.spidOf g) 3 0xFF (s.nameOf g) rwc (s.queueKey g q) with
  | .take ix _ => s.useEvent (s.spidOf g) ix
  | _ => s.logGroup g 3 0xFF rwc (s.queueKey g q) 1#64
def State.logPops (s : State) (g : Group) (rwc : W32) (pops : List Nat) : State := pops.foldl (fun s q => s.logPop g rwc q) s

/-- The registers whose reads the replay log records (17, R400 Table 5 kind 5). -/
def sregLogged : SReg → Bool
  | .cycle | .gtime | .preq | .lwid | .steer _ | .hist _ | .stall _ | .beatc | .idle => true
  | _ => false

/-- A word whose outcome is logged or counted where it issues, or that orders what was committed: it issues once every
earlier word of its group is committed, and is committed at once (15, R365; 16, R389). [DEDUCED, log entry 94] -/
def State.settledWord (s : State) (spid : Nat) (i : Instr) (f : Info) : Bool :=
  infoQuiet f || (match i with
    | .mark _ _ | .fence _ _ _ | .efence _ => true
    | .srd _ _ r => sregLogged r && (s.space spid).records
    | _ => false)

/-- A word with its checks, its effect and its retirement. [DEDUCED, log entry 94] -/
def State.runWord (s : State) (gs : Nat) (b : Bool) (g : Group) (slot : PcSlot) (i : Instr) (f : Info)
    (k : Word → State → Eff) : State :=
  let w := mkWord s gs b g slot f
  let a : At := ⟨slot.pc, s.rwcNow gs g, g.nissue, b⟩
  let grid := s.gridOf g
  let service := s.service g
  let settled := s.settledWord (s.spidOf g) i f
  match decodeCause i f g w.sup ((grid.map Grid.team).getD 0) slot.mask w.act with
  | some (c, lanes) => s.raise gs a { code := c, lanes }
  | none =>
    if infoQuiet f && service && s.mayFaultLate gs || settled && !((Tbl.find s.tents gs).getD []).isEmpty ||
        pushes f && s.fenceWaits gs g.wg .wg then s.park gs b .switchPark
    else if (s.dirOf gs).want.isSome && releases i then
      s.park gs b (advanceStall i ((s.dirOf gs).want.getD .switchPark))
    else
      let nq := (grid.map Grid.nq).getD 0
      if (queuesOf (f.dst ++ f.src)).any (fun q => decide (nq ≤ q)) then s.raise gs a { code := 0x1C, lanes := w.act }
      else
        match (Tbl.find s.wgs g.wg).bind (fun x => queueStall ((grid.map Grid.qdepth).getD 0) x f) with
        | some why => s.park gs b why
        | none =>
          match s.popGate gs g (queuesOf f.src) with
          | .hold => s.park gs b .queueEmpty
          | .part ix => s.parting (s.spidOf g) gs a ix
              (eventWords 3 0xFF (s.nameOf g).1 (s.nameOf g).2.1 (s.nameOf g).2.2 0 a.rwc
                (BitVec.ofNat 64 (s.queueKey g ((queuesOf f.src).headD 0))) 0#64)
          | _ =>
          let g1 := restrictTx i f g w.act
          let logged := fun (s : State) => s.logPops g a.rwc (queuesOf f.src)
          match k { w with g := g1 } { s with groups := Tbl.put s.groups gs g1 } with
          | .trap c s1 =>
            if lateKind c.code && ((grid.map Grid.fenced).getD false) then (s1.raise gs a c).retire s1 w f false true 1
            else s1.raise gs a c
          | .wait why s1 => s1.park gs b why
          | .again s1 => s1
          | .done s1 => (logged s1).retire s w f settled true 1
          | .moved s1 n => (logged s1).retire s w f settled false n

/-- A word issues from the slot that the step has chosen. [DEDUCED, log entry 6] -/
def State.issue (s : State) (i : Instr) (k : Word → State → Eff) : Out :=
  match s.cur, i.info with
  | some c, some f =>
    (match Tbl.find s.groups c.gs with
     | none => .fault .noIssuingSlot
     | some g =>
       (match g.slot c.b with
        | none => .fault .noIssuingSlot
        | some slot => .next (s.runWord c.gs c.b g slot i f k)))
  | _, _ => .fault .noIssuingSlot

/-- A word that only computes on registers: `k` gives its register writes. [DEDUCED, log entry 6] -/
def alu (i : Instr) (k : Word → List RegW) (s : State) : Out :=
  s.issue i fun w s => match i.info with
    | some f => .done (s.deliver w f (k w))
    | none => .done s

end Sys2Proof.Machine
end

