-- ==== Sys2Proof/Machine/Operands.lean ====
section
/-! DEFINITION. Operand forms: sources and immediates read by type, results written by type (09, R225, R231; 10, R245). -/

namespace Sys2Proof.Machine

/-- The low `w` bits of a register value, read by an integer type (10, R245). -/
def tyVal (t : Ty) (x : Nat) : Int :=
  if t.isSigned then signed t.bits (x : Int) else ((x % 2 ^ t.bits : Nat) : Int)

/-- Source `k` of lane `L` as an integer of a type. -/
def Word.int (w : Word) (t : Ty) (k L : Nat) : Int := tyVal t (w.src k L)

/-- An RRI immediate, sign-extended to the operation's width and read as the type says (10, R245). -/
def immVal (t : Ty) (imm : BitVec 22) : Int := tyVal t ((imm.toInt % (2 ^ t.bits : Nat)).toNat)

/-- A result as it is written: modulo 2^w, and sign- or zero-extended to 32 bits below 32 (09, R225; 10, R245). -/
def tyRes (t : Ty) (x : Int) : Nat :=
  let m := (x % (2 ^ t.bits : Nat)).toNat
  if t.isSigned && decide (t.bits < 32) then ((signed t.bits x) % (2 ^ 32 : Nat)).toNat else m

/-- The least and the greatest value of an integer type (10, R247). -/
def tyMin (t : Ty) : Int := if t.isSigned then -(2 ^ (t.bits - 1) : Nat) else 0
def tyMax (t : Ty) : Int := if t.isSigned then (2 ^ (t.bits - 1) : Nat) - 1 else (2 ^ t.bits : Nat) - 1
/-- Clamping to the range of a type (10, R247 "Sat"). -/
def tySat (t : Ty) (x : Int) : Int := max (tyMin t) (min x (tyMax t))

/-- The writes of an integer result to a field in the type's role. -/
def Word.putTy (w : Word) (t : Ty) (d : Reg) (f : Nat → Int) : List RegW := w.put (uty t d) fun L => tyRes t (f L)

/-- The writes of a result of 32 bits, and of 64. -/
def Word.put32 (w : Word) (d : Reg) (f : Nat → Nat) : List RegW := w.put (u32 d) f
def Word.put64 (w : Word) (d : Reg) (f : Nat → Nat) : List RegW := w.put (u64 d) f

/-- An integer word of two register sources. -/
def int2 (i : Instr) (t : Ty) (d : Reg) (op : Int → Int → Int) : State → Out :=
  alu i fun w => w.putTy t d fun L => op (w.int t 0 L) (w.int t 1 L)

/-- An integer word of a register and an immediate (09, R231, R236). -/
def intI (i : Instr) (t : Ty) (d : Reg) (imm : BitVec 22) (op : Int → Int → Int) : State → Out :=
  alu i fun w => w.putTy t d fun L => op (w.int t 0 L) (immVal t imm)

/-- An integer word of one register source. -/
def int1 (i : Instr) (t : Ty) (d : Reg) (op : Int → Int) : State → Out :=
  alu i fun w => w.putTy t d fun L => op (w.int t 0 L)

end Sys2Proof.Machine
end

