-- ==== Sys2Proof/Machine/Flags.lean ====
section
/-! DEFINITION. Conditions. The device has no status flags (10, R246): a comparison's outcome is a value, or the bits of
a predicate. -/

namespace Sys2Proof.Machine

/-- An integer condition (10, R250 Table 3). -/
def cmpHolds : Cmp → Int → Int → Bool
  | .eq, x, y => decide (x = y)
  | .ne, x, y => decide (x ≠ y)
  | .lt, x, y => decide (x < y)
  | .le, x, y => decide (x ≤ y)
  | .gt, x, y => decide (y < x)
  | .ge, x, y => decide (y ≤ x)

/-- What a floating comparison finds: an order, or that a NaN is there (11, R282). -/
inductive FRel where
  | lt | eq | gt | unordered
  deriving DecidableEq, Repr

/-- A floating condition (11, R282 Table 6). -/
def fcmpHolds : FCmp → FRel → Bool
  | .eq, r => r == .eq
  | .ne, r => r != .eq
  | .lt, r => r == .lt
  | .le, r => r == .lt || r == .eq
  | .gt, r => r == .gt
  | .ge, r => r == .gt || r == .eq
  | .num, r => r != .unordered
  | .nan, r => r == .unordered

end Sys2Proof.Machine
end

