-- ==== Sys2Proof/Machine/Float.lean ====
section
/-! DEFINITION. Binary floating point: the formats, values, rounding, and the operations on them that instructions, the
matrix engine and reductions share (11, R269 to R275, R278 to R284). Every finite value is exact: a sign, a natural
significand and a power of two. -/

namespace Sys2Proof.Machine

/-- A binary floating-point format (11, R269 Table 1): widths of exponent and fraction, the bias, and whether it has
infinities; E4M3 alone has none, and one NaN of each sign. -/
structure Fmt where
  e    : Nat
  f    : Nat
  bias : Nat
  inf  : Bool := true
  deriving DecidableEq, Repr

/-- The format of a type. Types that are no format take that of binary32, which no well-formed word asks for. -/
def fmtOf : Ty → Fmt
  | .f64 => { e := 11, f := 52, bias := 1023 }
  | .f16 => { e := 5, f := 10, bias := 15 }
  | .bf16 => { e := 8, f := 7, bias := 127 }
  | .e5m2 => { e := 5, f := 2, bias := 15 }
  | .e4m3 => { e := 4, f := 3, bias := 7, inf := false }
  | _ => { e := 8, f := 23, bias := 127 }

/-- binary32, the accumulator's format. -/
def f32 : Fmt := fmtOf .f32

/-- A value: NaN, an infinity, or (−1)^neg × m × 2^e. -/
inductive FVal where
  | nan
  | inf (neg : Bool)
  | fin (neg : Bool) (m : Nat) (e : Int)
  deriving DecidableEq, Repr

/-- The sign bit's weight, the largest finite magnitude's encoding, the encodings of ±∞ and of the canonical NaN
(11, R269, R272). -/
def Fmt.top (t : Fmt) : Nat := 2 ^ (t.e + t.f)
def Fmt.maxFin (t : Fmt) : Nat := if t.inf then (2 ^ t.e - 1) * 2 ^ t.f - 1 else t.top - 2
def Fmt.sgn (t : Fmt) (neg : Bool) : Nat := if neg then t.top else 0
def Fmt.nanEnc (t : Fmt) : Nat := if t.inf then (2 ^ t.e - 1) * 2 ^ t.f + 2 ^ (t.f - 1) else t.top - 1
def Fmt.infEnc (t : Fmt) (neg : Bool) : Nat := if t.inf then t.sgn neg + t.maxFin + 1 else t.nanEnc

/-- The magnitude bits and the sign of an encoding. -/
def Fmt.mag (t : Fmt) (x : Nat) : Nat := x % t.top
def Fmt.neg (t : Fmt) (x : Nat) : Bool := x / t.top % 2 == 1

/-- The value of an encoding (11, R270). -/
def Fmt.val (t : Fmt) (x : Nat) : FVal :=
  let m := t.mag x
  if t.maxFin < m then (if t.inf && m == t.maxFin + 1 then .inf (t.neg x) else .nan)
  else
    let k := m / 2 ^ t.f
    if k = 0 then .fin (t.neg x) m (1 - t.bias - t.f)
    else .fin (t.neg x) (2 ^ t.f + m % 2 ^ t.f) ((k : Int) - t.bias - t.f)

/-- m / 2^s rounded to a natural number by the mode (11, R273). -/
def roundShift (rm : Rm) (neg : Bool) (m s : Nat) : Nat :=
  let q := m / 2 ^ s
  let r := m % 2 ^ s
  let up := (match rm with
    | .rne => decide (2 ^ s < 2 * r) || (decide (2 * r = 2 ^ s) && q % 2 == 1)
    | .rtz => false
    | .rup => r != 0 && !neg
    | .rdn => r != 0 && neg)
  if up then q + 1 else q

/-- The encoding of m × 2^e rounded once, as if exponents had no upper bound; subnormals are honoured (11, R273). -/
def Fmt.encMag (t : Fmt) (rm : Rm) (neg : Bool) (m : Nat) (e : Int) : Nat :=
  if m = 0 then 0
  else
    let qmin : Int := 1 - t.bias - t.f
    let q := max ((m.log2 : Int) + e - t.f) qmin
    let n := if q ≤ e then m * 2 ^ (e - q).toNat else roundShift rm neg m (q - e).toNat
    (q - qmin).toNat * 2 ^ t.f + n

/-- An arithmetic result (11, R273, R274). -/
def Fmt.round (t : Fmt) (rm : Rm) : FVal → Nat
  | .nan => t.nanEnc
  | .inf n => t.infEnc n
  | .fin neg m e =>
    let k := t.encMag rm neg m e
    if k ≤ t.maxFin then t.sgn neg + k
    else
      (match rm with
       | .rne => t.infEnc neg
       | .rtz => t.sgn neg + t.maxFin
       | .rup => if neg then t.sgn neg + t.maxFin else t.infEnc neg
       | .rdn => if neg then t.infEnc neg else t.sgn neg + t.maxFin)

/-- A conversion's result: it saturates (11, R275 Table 2). -/
def Fmt.conv (t : Fmt) (rm : Rm) : FVal → Nat
  | .nan => t.nanEnc
  | .inf n => t.infEnc n
  | .fin neg m e => t.sgn neg + min (t.encMag rm neg m e) t.maxFin

/-- A positive magnitude of which m × 2^e is the part computed: `more` tells that the exact value lies above it and
below (m + 1) × 2^e. -/
def partVal (neg : Bool) (m : Nat) (e : Int) (more : Bool) : FVal :=
  if more then .fin neg (2 * m + 1) (e - 1) else .fin neg m e

/-- The negation of a value. -/
def FVal.opp : FVal → FVal
  | .nan => .nan
  | .inf n => .inf (!n)
  | .fin n m e => .fin (!n) m e

/-- The exact product (11, R279). -/
def FVal.mul : FVal → FVal → FVal
  | .fin a m e, .fin b n k => .fin (a != b) (m * n) (e + k)
  | .inf a, .inf b => .inf (a != b)
  | .inf a, .fin b n _ => if n = 0 then .nan else .inf (a != b)
  | .fin a m _, .inf b => if m = 0 then .nan else .inf (a != b)
  | _, _ => .nan

/-- A term is NaN; is an infinity of this sign; is a zero of this sign. -/
def FVal.isNan (v : FVal) : Bool := v == .nan
def FVal.isInf (v : FVal) (neg : Bool) : Bool := v == .inf neg
def FVal.isZero (v : FVal) (neg : Bool) : Bool := match v with
  | .fin n m _ => n == neg && m == 0
  | _ => false

/-- The least exponent of the terms, not above `d`; a term as a multiple of 2^e. -/
def minExp (d : Int) (l : List FVal) : Int := l.foldl (fun a v => match v with
  | .fin _ _ e => min a e
  | _ => a) d
def FVal.scaled (e : Int) : FVal → Int
  | .fin n m k => (if n then -1 else 1) * ((m * 2 ^ (k - e).toNat : Nat) : Int)
  | _ => 0

/-- The exact sum of terms (11, R273, R279): opposite infinities give NaN; a zero takes the sign of its terms where
they are zeros of one sign, else +0, −0 under RDN. -/
def fsum (rm : Rm) (l : List FVal) : FVal :=
  if l.any FVal.isNan || (l.any (FVal.isInf · true) && l.any (FVal.isInf · false)) then .nan
  else if l.any (FVal.isInf · true) then .inf true
  else if l.any (FVal.isInf · false) then .inf false
  else
    let e := minExp 0 l
    let x := (l.map (FVal.scaled e)).sum
    if x = 0 then
      .fin (if l.all (FVal.isZero · true) then true else if l.all (FVal.isZero · false) then false else rm == .rdn) 0 0
    else .fin (decide (x < 0)) x.natAbs e

/-- The quotient (11, R279), in 256 bits beyond its integer part. -/
def FVal.div : FVal → FVal → FVal
  | .fin a m e, .fin b n k =>
    if n = 0 then (if m = 0 then .nan else .inf (a != b))
    else partVal (a != b) (m * 2 ^ 256 / n) (e - k - 256) (decide (m * 2 ^ 256 % n ≠ 0))
  | .inf a, .fin b _ _ => .inf (a != b)
  | .fin a _ _, .inf b => .fin (a != b) 0 0
  | _, _ => .nan

/-- Newton's iteration from above for the integer square root of `n`. -/
def isqrtGo (n : Nat) : Nat → Nat → Nat
  | 0, x => x
  | k + 1, x => let y := (x + n / x) / 2; if y < x then isqrtGo n k y else x
/-- The integer square root. -/
def isqrt (n : Nat) : Nat := if n = 0 then 0 else isqrtGo n (n.log2 + 2) (2 ^ (n.log2 / 2 + 1))

/-- A power of two is made even by moving one factor into the significand. -/
def evenExp (m : Nat) (e : Int) : Nat × Int := if e % 2 = 0 then (m, e) else (2 * m, e - 1)

/-- The square root (11, R278, R279). -/
def FVal.sqrt : FVal → FVal
  | .fin n m e =>
    if m = 0 then .fin n 0 0
    else if n then .nan
    else
      let p := evenExp m e
      let r := isqrt (p.1 * 2 ^ 256)
      partVal false r (p.2 / 2 - 128) (decide (r * r ≠ p.1 * 2 ^ 256))
  | .inf false => .inf false
  | _ => .nan

/-- The reciprocal square root (11, R278, R279). -/
def FVal.rsqrt : FVal → FVal
  | .fin n m e =>
    if m = 0 then .inf n
    else if n then .nan
    else
      let p := evenExp m e
      let r := isqrt (2 ^ 512 / p.1)
      partVal false r (-(p.2 / 2) - 256) (decide (r * r * p.1 ≠ 2 ^ 512))
  | .inf false => .fin false 0 0
  | _ => .nan

/-- The product of 2^(2^−j) over the set bits of a fraction of `k` bits, most significant first, in 256 bits after the
point; `r` is 2^(2^−j) for the next bit. [DEDUCED, log entry 115] -/
def exp2Go (fr : Nat) : Nat → Nat → Nat → Nat
  | 0, _, acc => acc
  | k + 1, r, acc => exp2Go fr k (isqrt (r * 2 ^ 256)) (if fr.testBit k then acc * r / 2 ^ 256 else acc)

/-- 2^x (11, R278, R279). 256 bits after the point decide the rounding of every value of the formats FEX2 has.
[DEDUCED, log entry 115] -/
def FVal.exp2 : FVal → FVal
  | .fin n m e =>
    if m = 0 then .fin false 1 0
    else if 13 ≤ (m.log2 : Int) + e then partVal false 1 (if n then -8192 else 8192) true
    else if 0 ≤ e then .fin false 1 ((if n then -1 else 1) * ((m * 2 ^ e.toNat : Nat) : Int))
    else
      let k := (-e).toNat
      let x : Int := (if n then -1 else 1) * (m : Int)
      let i := x / (2 ^ k : Nat)
      let fr := (x % (2 ^ k : Nat)).toNat
      if fr = 0 then .fin false 1 i
      else partVal false (exp2Go fr k (isqrt (2 * 2 ^ 512)) (2 ^ 256)) (i - 256) true
  | .inf false => .inf false
  | .inf true => .fin false 0 0
  | .nan => .nan

/-- Bits of log2 y after the point, y in [1, 2) with 400 bits after its point. [DEDUCED, log entry 115] -/
def log2Go : Nat → Nat → Nat → Nat
  | 0, _, acc => acc
  | k + 1, y, acc =>
    let z := y * y / 2 ^ 400
    if 2 ^ 401 ≤ z then log2Go k (z / 2) (2 * acc + 1) else log2Go k z (2 * acc)

/-- log2 x (11, R278, R279). 120 bits after the point decide the rounding of every value of the formats FLG2 has.
[DEDUCED, log entry 115] -/
def FVal.log2 : FVal → FVal
  | .fin n m e =>
    if m = 0 then .inf true
    else if n then .nan
    else
      let k : Int := m.log2 + e
      if m = 2 ^ m.log2 then .fin (decide (k < 0)) k.natAbs 0
      else
        let f := log2Go 120 (m * 2 ^ (400 - m.log2)) 0
        let t : Int := k * (2 ^ 120 : Nat) + f
        if 0 ≤ t then partVal false t.toNat (-120) true else partVal true ((-t).toNat - 1) (-120) true
  | .inf false => .inf false
  | _ => .nan

/-- Rounded to an integral value in the direction of the mode (11, R284). -/
def FVal.integral (rm : Rm) : FVal → FVal
  | .fin n m e => if 0 ≤ e then .fin n m e else .fin n (roundShift rm n m (-e).toNat) 0
  | v => v

/-- An integral value clamped to an integer type (11, R289). -/
def FVal.toInt (t : Ty) (rm : Rm) (v : FVal) : Int :=
  match v.integral rm with
  | .nan => 0
  | .inf n => if n then tyMin t else tyMax t
  | .fin n m e => tySat t ((if n then -1 else 1) * ((m * 2 ^ e.toNat : Nat) : Int))

/-- An integer as a value; zero is +0 (11, R289). -/
def intVal (x : Int) : FVal := .fin (decide (x < 0)) x.natAbs 0

/-- A key that orders encodings that are no NaN, −0 below +0 (11, R281), and one in which the zeros are equal. -/
def Fmt.key (t : Fmt) (x : Nat) : Int := if t.neg x then -(t.mag x : Int) - 1 else t.mag x
def Fmt.key0 (t : Fmt) (x : Nat) : Int := if t.neg x then -(t.mag x : Int) else t.mag x

/-- What a comparison of two encodings finds (11, R282). -/
def Fmt.rel (t : Fmt) (x y : Nat) : FRel :=
  if (t.val x).isNan || (t.val y).isNan then .unordered
  else if t.key0 x < t.key0 y then .lt
  else if t.key0 x = t.key0 y then .eq
  else .gt

/-- minimumNumber, maximumNumber, minimum, maximum (11, R281): `greater` picks the larger, `strict` lets a NaN win. -/
def Fmt.pickBy (t : Fmt) (greater strict : Bool) (x y : Nat) : Nat :=
  let nx := (t.val x).isNan
  let ny := (t.val y).isNan
  if nx && ny || strict && (nx || ny) then t.nanEnc
  else if nx then y
  else if ny then x
  else if (t.key x < t.key y) = greater then y
  else x

/-- An encoding with its modifiers: absolute value first, then negation (11, R276). -/
def Fmt.modify (t : Fmt) (neg abs : Bool) (x : Nat) : Nat :=
  let s := (t.neg x && !abs) != neg
  t.sgn s + t.mag x

/-- Addition, multiplication, fused multiplication and addition of encodings, rounded once. -/
def Fmt.add (t : Fmt) (rm : Rm) (x y : Nat) : Nat := t.round rm (fsum rm [t.val x, t.val y])
def Fmt.mulEnc (t : Fmt) (rm : Rm) (x y : Nat) : Nat := t.round rm ((t.val x).mul (t.val y))
def Fmt.fma (t : Fmt) (rm : Rm) (x y z : Nat) : Nat :=
  t.round rm (fsum rm [(t.val x).mul (t.val y), t.val z])

/-- FCLASS's mask (11, R283). -/
def Fmt.cls (t : Fmt) (x : Nat) : Nat :=
  let n := t.neg x
  let m := t.mag x
  let i := (match t.val x with
    | .nan => if (m / 2 ^ (t.f - 1)) % 2 = 1 then 9 else 8
    | .inf _ => if n then 0 else 7
    | .fin _ _ _ =>
      if m = 0 then (if n then 3 else 4)
      else if m < 2 ^ t.f then (if n then 2 else 5)
      else (if n then 1 else 6))
  2 ^ i

end Sys2Proof.Machine
end

