-- ==== Sys2Proof/Machine/Address.lean ====
section
/-! DEFINITION. Generic addresses and their translation (01, R14 to R31): windows, TLBs, permissions, misses of the
walker, the first-touch handler's start, and the selection of a fault among the lanes of a word (15, R362). -/

namespace Sys2Proof.Machine

/-- Access kinds as bits [1:0] of the walker's S2 code them (01, Table 6). -/
inductive Acc where
  | load | store | atomic | fetch
  deriving DecidableEq, Repr

/-- The code of an access kind. -/
def Acc.code : Acc → Nat
  | .load => 0
  | .store => 1
  | .atomic => 2
  | .fetch => 3

/-- What a lane's address comes to: its places, a cause with its detail, a page that the TLBs miss, a first-touch page,
a gang member that is not resident. -/
inductive Tr where
  | ok (locs : List Loc) (uncached : Bool)
  | bad (code det : Nat)
  | miss (va : Nat)
  | touch
  | member
  deriving DecidableEq, Repr

/-- Who asks for a translation: a group with the walker results known to its word, or an engine of it. -/
structure Ask where
  gs  : Nat
  g   : Group
  walked : List (Nat × Nat)
  sup : Bool
  acc : Acc
  deriving DecidableEq, Repr

/-- The start of the physical, the local-store and the private window, and of the reserved addresses after the
physical window (01, R14 Table 1). -/
def physWin : Nat := 0xE0000000000000
def localWin : Nat := 0xF0000000000000
def privWin : Nat := 0xF8000000000000

/-- A physical address exists (01, R19): host memory; device memory of a module of the domain.
[DEDUCED, log entry 8; DEDUCED, log entry 72] -/
def State.paExists (s : State) (pa : Nat) : Bool :=
  pa.testBit 51 || ((Tbl.find s.sec.domain (pa / 2 ^ 43 % 256)).isSome && decide (pa % 2 ^ 43 < 576 * 2 ^ 30))

/-- A TLB entry translates an address of a space (01, R25). -/
def TlbEnt.hits (e : TlbEnt) (spid : Nat) (gen : Byte) (va : Nat) : Bool :=
  e.spid == spid && e.gen == gen && decide (e.va ≤ va) && decide (va < e.va + e.size)

/-- The entry that translates an address for a lane block: its micro-TLB, then its core's TLB (01, R25). -/
def State.tlbFind (s : State) (gs spid : Nat) (gen : Byte) (va : Nat) : Option TlbEnt :=
  ((s.lb (lbOf gs)).utlb ++ (s.core (coreOf gs)).tlb).find? (fun e => e.hits spid gen va)

/-- The first permission that an access lacks (01, R24 Table 5). -/
def pteLacks (pte : W64) (acc : Acc) (sup : Bool) : Option Nat :=
  if bit pte 4 && !sup then some 3
  else
    match acc with
    | .store | .atomic => if bit pte 2 then none else some 1
    | .fetch => if bit pte 3 then none else some 2
    | .load => none

/-- The physical page of an entry (01, R21). -/
def ptePa (pte : W64) : Nat := bits pte 51 13 * 2 ^ 13

/-- A global virtual address (01, R24 to R30): what a walk reported for the word counts before what the TLBs hold (01, R27). In the
walker routine every translated access fails (01, R28). Of a page that both lacks the permission and lies at an address that does
not exist, the permission is reported. [DESIGN CHOICE, log entry 129] -/
def State.transGlobal (s : State) (q : Ask) (va : Nat) : Tr :=
  if isWalker q.gs then .bad 0x09 0x05
  else
    match q.walked.find? (fun x => x.1 == va / 2 ^ 16) with
    | some (_, 2) => .bad 0x09 0x03
    | some (_, 3) => .bad 0x09 0x04
    | some (_, 4) => if q.g.ft.isSome then .bad 0x09 0x05 else .touch
    | some _ => .bad 0x09 0x05
    | none =>
      match s.tlbFind q.gs (s.spidOf q.g) (s.genOf q.g) va with
      | some e =>
        (match pteLacks e.pte q.acc q.sup with
         | some d => .bad 0x0A d
         | none =>
           let pa := ptePa e.pte + (va - e.va)
           if s.paExists pa then .ok [.mem pa] (bits e.pte 7 6 == 1) else .bad 0x09 0x09)
      | none => .miss va

/-- The start of a group's frame (01, R18). -/
def State.frameBase (s : State) (g : Group) : Nat :=
  match s.gridOf g, Tbl.find s.wgs g.wg with
  | some r, some w => (r.word 0x30).toNat + (w.frame * w.ngrp + g.gidx) * (32 * r.priv + 4096)
  | _, _ => 0

/-- The workgroup and the group index whose spill area a global virtual address lies in (07, R189). -/
def State.spillOwner (s : State) (spid va : Nat) : Option (Nat × Nat) :=
  s.grids.findSome? fun r =>
    let base := (r.2.word 0x30).toNat
    let size := 32 * r.2.priv + 4096
    if r.2.spid ≠ spid ∨ r.2.priv = 0 ∨ va < base ∨ (va - base) % size < 32 * r.2.priv then none
    else
      let n := (va - base) / size
      (s.wgs.find? (fun w => w.2.grid == r.1 && !w.2.gone && decide (w.2.frame * w.2.ngrp ≤ n) && decide (n < (w.2.frame + 1) * w.2.ngrp))).map
        fun w => (w.1, n - w.2.frame * w.2.ngrp)

/-- A group's stacks are undefined: what its entries hold. -/
def Group.loseStacks (free : Nat) (g : Group) : Group :=
  let w := fun (k : Nat) => Config.freeWord (free + k)
  { g with
    spill := (List.range g.spill.length).map fun i => ⟨w (2 * i), (w (2 * i + 1)).setWidth 32⟩
    join := (List.range g.join.length).map fun i =>
      ⟨w (256 + 3 * i), (w (257 + 3 * i)).setWidth 32, (w (258 + 3 * i)).setWidth 32, ((g.join[i]?).map (·.joins)).getD 0⟩ }
/-- A program's store into a spill area leaves the group's stacks undefined (07, R189). -/
def State.spillHit (s : State) (spid va : Nat) : State :=
  match s.spillOwner spid va with
  | none => s
  | some (wid, k) =>
    let s1 := (match (Tbl.find s.wgs wid).bind fun w => Tbl.find w.slots k with
      | some gs => s.updGroup gs fun g => if g.wg = wid then g.loseStacks s.free else g
      | none => s)
    { s1 with
      free := s1.free + 1024
      spaces := s1.spaces.map fun x => (x.1, { x.2 with saved := x.2.saved.map fun v =>
        if v.wg = wid then { v with groups := Tbl.upd v.groups k (Group.loseStacks s.free) } else v }) }

/-- Several units of one access: the first that is no success decides. -/
def joinTr : List Tr → Tr
  | [] => .ok [] false
  | .ok l u :: t => (match joinTr t with
    | .ok l1 u1 => .ok (l ++ l1) (u || u1)
    | x => x)
  | x :: _ => x

/-- A private access of `n` bytes at offset `o` of lane `L`, in units of 4 bytes (01, R18). [DEDUCED, log entry 10] -/
def State.transPriv (s : State) (q : Ask) (o n L : Nat) : Tr :=
  if isWalker q.gs then .bad 0x09 0x05
  else if ((s.gridOf q.g).map Grid.priv).getD 0 < o + n then .bad 0x0A 0x06
  else
    let va := fun u => s.frameBase q.g + u * 128 + L * 4
    if n ≤ 4 then s.transGlobal q (va (o / 4) + o % 4)
    else joinTr ((List.range (n / 4)).map fun i => s.transGlobal q (va (o / 4 + i)))

/-- The workgroup of a member index of a gang: its rank is counted from the asker's (01, R16). -/
def State.memberWg (s : State) (w : Workgroup) (m : Nat) : Option Nat :=
  (Tbl.find s.gangs w.gang).bind fun g => Tbl.find g.wgs ((w.rank + m) % g.size)

/-- A workgroup's allocation can be reached: it is resident, or it has exited and its gang keeps the allocation (06,
R152, R153). -/
def Workgroup.reachable (w : Workgroup) : Bool := w.resident || w.gone

/-- A byte of local store named by member index and offset (01, R16; 06, R153). -/
def State.transLocal (s : State) (q : Ask) (m off n : Nat) : Tr :=
  if isWalker q.gs then .bad 0x09 0x05
  else
    match Tbl.find s.wgs q.g.wg with
    | none => .bad 0x0A 0x04
    | some w =>
      let size := (s.gangOf q.g.wg).2
      if size ≤ m then .bad 0x0A 0x04
      else if w.lsSize < off + n then .bad 0x0A 0x05
      else if m = 0 then .ok [.ls w.core (w.lsBase + off) q.g.wg] false
      else
        match s.memberWg w m with
        | none => .member
        | some id =>
          (match Tbl.find s.wgs id with
           | none => .member
           | some o => if o.reachable then .ok [.ls o.core (o.lsBase + off) id] false else .member)

/-- A generic address (01, R14 to R16, R18). -/
def State.trans (s : State) (q : Ask) (ga n L : Nat) : Tr :=
  if 2 ^ 56 ≤ ga then .bad 0x09 0x01
  else if ga < physWin then s.transGlobal q ga
  else if ga < localWin then
    (if !q.sup then .bad 0x0A 0x03
     else if s.paExists (ga - physWin) then .ok [.mem (ga - physWin)] true
     else .bad 0x09 0x09)
  else if ga < localWin + 2 ^ 24 then
    s.transLocal q ((ga - localWin) / 2 ^ 20) ((ga - localWin) % 2 ^ 20) n
  else if privWin ≤ ga ∧ ga < privWin + 2 ^ 32 then s.transPriv q (ga - privWin) n L
  else .bad 0x09 0x02

/-- A miss is queued at the lane block with its access code; misses to one 64 KiB page coalesce (01, R26). -/
def State.queueMiss (s : State) (q : Ask) (code : Nat) (b : Bool) (va : Nat) : State :=
  let spid := s.spidOf q.g
  let gen := s.genOf q.g
  let same : Miss → Bool := fun m => m.va / 2 ^ 16 == va / 2 ^ 16 && m.spid == spid && m.gen == gen
  let s1 := s.updLb (lbOf q.gs) fun l =>
    if l.misses.any same then
      { l with misses := l.misses.map fun m =>
          if same m && !m.groups.contains (q.gs, b) then { m with groups := m.groups ++ [(q.gs, b)] } else m }
    else { l with misses := l.misses ++ [{ va, access := code, sup := q.sup, spid, gen, groups := [(q.gs, b)] }] }
  s1.updGroup q.gs fun g =>
    match g.slot b with
    | some p => g.setSlot b (some { p with missing := true })
    | none => g

/-- Values that the spec leaves undefined, as many as asked. -/
def State.draws (s : State) : Nat → List W64 × State
  | 0 => ([], s)
  | n + 1 => let x := s.draw; let r := x.2.draws n; (x.1 :: r.1, r.2)

/-- The misses that a group's interrupted slots wait for are kept apart from those of its handler (01, R26, R29). -/
def State.keepMisses (s : State) (gs : Nat) : State :=
  let away := fun (m : Miss) => { m with groups := m.groups.map fun x => if x.1 = gs then (gs + heldSlot, x.2) else x }
  s.updLb (lbOf gs) fun b =>
    { b with misses := b.misses.map away, walk := b.walk.map fun r => { r with miss := away r.miss } }

/-- The first-touch handler of a group starts for some lanes of the word in slot `b`, each with its access code (01, R29). The
handler's own copies of the banked registers hold undefined values. [DESIGN CHOICE, log entry 11] -/
def State.startHandler (s : State) (gs : Nat) (b : Bool) (g : Group) (code : Nat → Nat) (lanes : List (Nat × W64)) : State :=
  let m := maskOf fun L => lanes.any (fun x => x.1 == L)
  let ftpc := ((Tbl.find s.parts (s.partOf g)).map (·.ftpc)).getD 0#64
  let r : FtRun :=
    { mask := m
      addrs := lanes.foldl (fun t x => Tbl.put t x.1 x.2) []
      kinds := lanes.foldl (fun t x => Tbl.put t x.1 (BitVec.ofNat 2 (code x.1))) []
      slot := b
      slotA := g.slotA.map fun p => if b then p else { p with walked := [] }
      slotB := g.slotB.map fun p => if b then { p with walked := [] } else p
      bankS := (List.range 8).map fun i => g.sget (56 + i)
      bankP := (List.range 2).map fun i => Tbl.get 0#32 g.p (5 + i)
      done := []
      start := s.clock, sd := g.spill.length, refill := g.refill }
  let x := (s.keepMisses gs).draws 10
  let ss := (List.range 8).foldl (fun t i => Tbl.set 0#64 t (56 + i) (x.1.getD i 0#64)) g.s
  let ps := (List.range 2).foldl (fun t i => Tbl.set 0#32 t (5 + i) ((x.1.getD (8 + i) 0#64).setWidth 32)) g.p
  { x.2 with groups := Tbl.put x.2.groups gs { g with
      s := ss, p := ps, ft := some r, slotA := some { pc := ftpc, mask := m }, slotB := none, refill := [] } }

/-- A word's request for translations. -/
def Word.ask (w : Word) (acc : Acc) : Ask := ⟨w.gs, w.g, w.slot.walked, w.sup, acc⟩

/-- A lane's address with what it comes to; misalignment comes first (03, R78; 01, R15). -/
structure LaneTr where
  lane : Nat
  ga   : W64
  tr   : Tr
  deriving DecidableEq, Repr

/-- The cause of a lane. -/
def Tr.cause : Tr → Option (Nat × Nat)
  | .bad c d => some (c, d)
  | _ => none

/-- The cause that a word reports among its lanes' (15, R362; 01, R42): the least code of 0x08 to 0x0B, the lanes that
have it, the detail and address of the lowest of them. [DEDUCED, log entry 41] -/
def pickCause (l : List LaneTr) : Option Cause :=
  match leastOf (l.filterMap fun x => x.tr.cause.map (·.1)) with
  | none => none
  | some c =>
    let mine := l.filter (fun x => (x.tr.cause.map (·.1)) == some c)
    some { code := c, det := ((mine.head?.bind fun x => x.tr.cause).map (·.2)).getD 0,
           lanes := maskOf (fun L => mine.any (fun x => x.lane == L)),
           addr := (mine.head?.map (·.ga)).getD 0#64 }

/-- A word that names no V register executes once for the group (12, R294). -/
def infoOnce (f : Info) : Bool :=
  (f.dst ++ f.src).all (fun u => match u.reg with
    | .v _ => false
    | _ => true)

/-- The lanes for which a word of memory performs: the active ones, or the lowest for all of them (12, R294). -/
def Word.perf (w : Word) (once : Bool) : List Nat := if once then w.lanes.take 1 else w.lanes

/-- Every lane of a word is translated before any performs: misaligned lanes, then missing pages one at a time, then
the cause, then the first-touch handler, then members that are not resident (01, R25, R26, R29; 06, R153). `code` gives a lane's access
code (01, Table 6). A lane's FTVA is the address that it gave: of the private window, the window's. [DESIGN CHOICE, log entry 128] -/
def State.withCodes (s : State) (w : Word) (once : Bool) (acc : Acc) (code : Nat → Nat) (l : List LaneTr) (k : List LaneTr → Eff) :
    Eff :=
  let whole := fun (c : Cause) => if once then { c with lanes := w.act } else c
  let early := l.filter (fun x => (x.tr.cause.map (·.1)) == some 0x08)
  match pickCause early with
  | some c => .trap (whole c) s
  | none =>
    match l.findSome? (fun x => match x.tr with
      | .miss va => some (x.lane, va)
      | _ => none) with
    | some (L, va) => .wait .walker (s.queueMiss (w.ask acc) (code L) w.b va)
    | none =>
      match pickCause l with
      | some c => .trap (whole c) s
      | none =>
        let touch := l.filter (fun x => x.tr == .touch)
        if !touch.isEmpty then
          .again (s.startHandler w.gs w.b w.g code
            (if once then w.lanes.map fun L => (L, (touch.head?.map (·.ga)).getD 0#64) else touch.map fun x => (x.lane, x.ga)))
        else if l.any (fun x => x.tr == .member) then .wait .gangMember s
        else k l

/-- The same with one access code. -/
def State.withLanes (s : State) (w : Word) (once : Bool) (acc : Acc) (l : List LaneTr) (k : List LaneTr → Eff) : Eff :=
  s.withCodes w once acc (fun _ => acc.code) l k

/-- An access at generic addresses, `n` bytes each, with each lane's access code. -/
def State.accessAs (s : State) (w : Word) (once : Bool) (acc : Acc) (code : Nat → Nat) (n : Nat) (l : List (Nat × W64))
    (k : List LaneTr → Eff) : Eff :=
  s.withCodes w once acc code (l.map fun x =>
    ⟨x.1, x.2, if x.2.toNat % n ≠ 0 then .bad 0x08 0 else s.trans (w.ask acc) x.2.toNat n x.1⟩) k
/-- The same with one access code. -/
def State.access (s : State) (w : Word) (once : Bool) (acc : Acc) (n : Nat) (l : List (Nat × W64))
    (k : List LaneTr → Eff) : Eff := s.accessAs w once acc (fun _ => acc.code) n l k

/-- The places of a translated lane. -/
def LaneTr.locs (x : LaneTr) : List Loc := match x.tr with
  | .ok l _ => l
  | _ => []
def LaneTr.uncached (x : LaneTr) : Bool := match x.tr with
  | .ok _ u => u
  | _ => false

/-- An entry enters a lane block's micro-TLB (32 entries) and its core's TLB (2,048), the oldest leaving (01, R25). -/
def State.fillTlb (s : State) (gs : Nat) (e : TlbEnt) : State :=
  let keep := fun (l : List TlbEnt) => l.filter (fun x => !(x.spid == e.spid && x.gen == e.gen &&
    decide (x.va < e.va + e.size) && decide (e.va < x.va + x.size)))
  (s.updLb (lbOf gs) fun b => { b with utlb := (e :: keep b.utlb).take 32 }).updCore (coreOf gs)
    fun c => { c with tlb := (e :: keep c.tlb).take 2048 }

/-- A translation leaves every TLB of a core (01, R35, R36; 14, R359): those that cover an address, or all of a space. -/
def State.dropTlb (s : State) (core spid : Nat) (va : Option Nat) : State :=
  let keep := fun (l : List TlbEnt) => l.filter (fun e => !(e.spid == spid && (match va with
    | some a => decide (e.va ≤ a) && decide (a < e.va + e.size)
    | none => true)))
  let s1 := (List.range 4).foldl (fun s i => s.updLb (core * 4 + i) fun b =>
    { b with
      utlb := keep b.utlb
      walk := b.walk.map fun r => { r with dropped := r.dropped ++ [(spid, va)] } }) s
  s1.updCore core fun c => { c with tlb := keep c.tlb }

/-- A page-table entry is malformed at a level (01, R22). -/
def pteMalformed (pte : W64) (lvl : Nat) : Bool :=
  bit pte 0 && (decide (bits pte 63 52 ≠ 0) || decide (2 ≤ bits pte 7 6) || (bit pte 1 && decide (lvl = 3)) ||
    (!bit pte 1 && decide (lvl = 0)) ||
    (bit pte 1 && decide (bits pte 51 13 * 2 ^ 13 % 2 ^ (16 + 10 * lvl) ≠ 0)) ||
    (bit pte 51 && decide (bits pte 7 6 ≠ 1)) || bit pte 5)

/-- The bytes that a leaf of a level maps (01, R20 Table 3). -/
def pageSize (lvl : Nat) : Nat := 2 ^ (16 + 10 * lvl)

end Sys2Proof.Machine
end

