-- ==== Sys2Proof/Machine/Meter.lean ====
section
/-! DEFINITION. Activity meters and budgets (08, R216 Table 7, R217). A meter without a budget is not counted: nothing reads
its count. -/

namespace Sys2Proof.Machine

/-- The key of a meter's instance. -/
def meterKey (meter inst : Nat) : Nat := meter * 2 ^ 12 + inst
/-- The settings of a meter of a partition. -/
def Partition.meter (p : Partition) (m : Nat) : Meter := (Tbl.find p.meters m).getD {}
/-- When an instance's period began, and its count. -/
def Partition.count (p : Partition) (m i clock : Nat) : Nat × Nat := (Tbl.find p.counts (meterKey m i)).getD (clock, 0)

/-- An instance counts. [DEDUCED, log entry 61] -/
def State.spend (s : State) (part m i n : Nat) : State :=
  match Tbl.find s.parts part with
  | none => s
  | some p =>
    if (p.meter m).budget = 0#64 then s
    else
      let c := p.count m i s.clock
      { s with parts := Tbl.put s.parts part { p with counts := Tbl.put p.counts (meterKey m i) (c.1, c.2 + n) } }

/-- An instance holds the partition's further work at its point. -/
def State.spent (s : State) (part m i : Nat) : Bool :=
  match Tbl.find s.parts part with
  | none => false
  | some p => (p.meter m).budget != 0#64 && decide ((p.meter m).budget.toNat ≤ (p.count m i s.clock).2)

/-- METER_PERIOD_START: the count of an instance returns to 0 once its period has passed. -/
def execMeterPeriodStart (part meter inst : Nat) (s : State) : Out :=
  .next (s.updPart part fun p =>
    match Tbl.find p.counts (meterKey meter inst) with
    | some c =>
      if c.1 + 2 ^ (p.meter meter).period ≤ s.clock then
        { p with counts := Tbl.put p.counts (meterKey meter inst) (c.1 + 2 ^ (p.meter meter).period, 0) }
      else p
    | none => p)

end Sys2Proof.Machine
end

