-- ==== Sys2Proof/Machine/Store.lean ====
section
/-! DEFINITION. Homes of addresses, the caches and what a write does at its home (02, R47 to R58), the watermark's
checks, records and race log (04, R103, R111 to R120). Each byte of memory has one home copy; the L1s and the
remote-data caches hold copies of their own. -/

namespace Sys2Proof.Machine

/-! ### Homes (02, R51) -/

/-- The bytes of device memory of a die: 144 GiB. -/
def dieBytes : Nat := 0x2400000000
/-- The home die of a device physical address. -/
def homeDie (pa : Nat) : Nat := pa % 2 ^ 43 / dieBytes
/-- The line number within the die. -/
def lineNo (pa : Nat) : Nat := pa % 2 ^ 43 % dieBytes / 128
/-- The home logical slice. -/
def homeLs (pa : Nat) : Nat :=
  let n := lineNo pa
  let p := fun k => n / 2 ^ (6 * k) % 64
  Nat.xor (Nat.xor (Nat.xor (p 0) (p 1)) (Nat.xor (p 2) (p 3))) (Nat.xor (p 4) (n / 2 ^ 30 % 2))
/-- The set of the line. -/
def homeSet (pa : Nat) : Nat := lineNo pa / 64 % 1024
/-- The home logical channel. -/
def homeLc (pa : Nat) : Nat :=
  let n := lineNo pa
  2 * homeLs pa + (b2n (n.testBit 6) + b2n (n.testBit 13) + b2n (n.testBit 20) + b2n (n.testBit 27)) % 2
/-- The number of a slice as an owner of results: module, die, logical slice (05, R126). -/
def ownerOf (pa : Nat) : Nat := (pa / 2 ^ 43 % 256 * 4 + homeDie pa) * 64 + homeLs pa
/-- The physical slice that serves a logical slice of a die (02, R51, R59). -/
def Die.slice (d : Die) (ls : Nat) : Nat := Tbl.get ls d.slices ls
/-- The physical slice for a set of a logical slice: during its evacuation the old one for the sets not yet done (02, R60). -/
def Die.sliceAt (d : Die) (ls set : Nat) : Nat :=
  match d.evacs.find? (fun e => e.slice && e.logical == ls) with
  | some e => if e.ptr ≤ set then e.src else e.dst
  | none => d.slice ls
/-- The slice that holds a sector's release record. -/
def recSlice (sector : Nat) : Nat := homeDie (sector * 64) * 64 + homeLs (sector * 64)
/-- The set of a slice's 64 that holds a sector's release record (04, R109). [DESIGN CHOICE, log entry 124] -/
def recSet (sector : Nat) : Nat := recSlice sector * 64 + (homeSet (sector * 64) * 2 + sector % 2) % 64

/-! ### L2 (02, R53, R54) -/

/-- The watermark, the record and the strong-write record of a sector go (04, R101, R109; 03, R81). -/
def State.clearSector (s : State) (sector : Nat) : State :=
  { s with wms := Tbl.del s.wms sector, recs := Tbl.del s.recs sector, strong := Tbl.del s.strong sector }

/-- A line leaves L2: its watermarks, release records and strong-write records are lost, and its remote copies are
invalidated (02, R57, R59; 03, R81; 04, R101, R109). -/
def State.dropLine (s : State) (line : Nat) : State :=
  let del := fun {α : Type} (t : Tbl α) => Tbl.del (Tbl.del t (2 * line)) (2 * line + 1)
  { s with
    wms := del s.wms, recs := del s.recs, strong := del s.strong, l2 := Tbl.del s.l2 line
    dies := s.dies.map fun e => (e.1, { e.2 with rdc := Tbl.del e.2.rdc line })
    invs := s.invs.filter (fun x => x.2 != line) }

/-- The ways a mask allows (02, R54). -/
def waysOf (m : BitVec 12) : List Nat := (List.range 12).filter (fun i => m.getLsbD i)

/-- A partition holds an address. -/
def Partition.holds (p : Partition) (pa : Nat) : Bool :=
  p.ranges.any (fun r => decide (r.1 ≤ pa % 2 ^ 43) && decide (pa % 2 ^ 43 < r.1 + r.2))

/-- Bytes cross a line's channel for a partition (08, Table 7 meter 0). -/
def State.dram (s : State) (part line n : Nat) : State :=
  s.spend part 0 (homeDie (line * 128) * 128 + homeLc (line * 128)) n

/-- A sector's bit in its line. -/
def secBit (sector : Nat) : BitVec 2 := 1#2 <<< (sector % 2)
/-- A sector is valid in L2. -/
def State.l2Has (s : State) (sector : Nat) : Bool :=
  ((Tbl.find s.l2 (sector / 2)).map fun e => e.valid.getLsbD (sector % 2)).getD false

/-- The lines of L2 that stand in the set of a line, in its physical slice (02, R51, R60). -/
def State.l2Mates (s : State) (line : Nat) : Tbl L2Line :=
  let pa := line * 128
  let d := s.die (homeDie pa)
  s.l2.filter (fun e => homeDie (e.1 * 128) == homeDie pa && homeSet (e.1 * 128) == homeSet pa &&
    d.sliceAt (homeLs (e.1 * 128)) (homeSet pa) == d.sliceAt (homeLs pa) (homeSet pa))

/-- A line is replaced: its dirty sectors are written back (02, R53, R57). -/
def State.l2Evict (s : State) (part : Nat) (v : Nat × L2Line) : State :=
  (s.dram part v.1 (64 * ((List.range 2).filter (fun i => v.2.dirty.getLsbD i)).length)).dropLine v.1

/-- A line stands in L2, without a valid sector where it was absent: it takes a free way of the partition's mask, or that of a
victim which stands in one (02, R53, R54). Only lines of this module are cached. -/
def State.l2Place (s : State) (part line : Nat) : State :=
  if (Tbl.find s.l2 line).isSome || !s.ownMem (line * 128) then s
  else
    let ways := waysOf (((Tbl.find s.parts part).map (·.l2mask)).getD 0xFFF#12)
    let mates := s.l2Mates line
    match ways.find? (fun w => !mates.any (fun e => e.2.way == w)) with
    | some w => { s with l2 := Tbl.put s.l2 line { way := w } }
    | none =>
      match sortBy (fun e => Config.freeKey s.free e.1) (mates.filter (fun e => ways.contains e.2.way)) with
      | [] => s
      | v :: _ =>
        let s1 := ({ s with free := s.free + 1 } : State).l2Evict part v
        { s1 with l2 := Tbl.put s1.l2 line { way := v.2.way } }

/-- A sector is valid in L2: filled from its channel where it was not, unless a store writes all of it; it starts with V clear
(02, R53; 04, R101). -/
def State.l2Sector (s : State) (part sector : Nat) (fill : Bool) : State :=
  let s1 := s.l2Place part (sector / 2)
  match Tbl.find s1.l2 (sector / 2) with
  | none => s1
  | some e =>
    if e.valid.getLsbD (sector % 2) then s1
    else
      let s2 := ({ s1 with l2 := Tbl.put s1.l2 (sector / 2) { e with valid := e.valid ||| secBit sector } } : State).clearSector sector
      if fill then s2.dram part (sector / 2) 64 else s2

/-! ### Writes at the home (02, R53, R57; 17, R399) -/

/-- The words of 4 bytes that a write covers whole lose an uncorrectable error (16, R386). -/
def coversWord (cells : List (Nat × Byte)) (w : Nat) : Bool :=
  (List.range 4).all (fun i => cells.any (fun c => c.1 == 4 * w + i))

/-- Some cells write every byte of a sector. -/
def coversSector (cells : List (Nat × Byte)) (sector : Nat) : Bool :=
  (List.range 64).all (fun i => cells.any (fun c => c.1 == 64 * sector + i))

/-- A write reaches a sector at its home: the undo entry before the first write of an interval, the sector filled where the write
does not cover it, or, on an uncached page, performed at the channel where it is absent; remote copies are invalidated, the
sector made dirty, the line's read count cancelled (02, R50, R53, R55, R57; 17, R399). -/
def State.touchSector (s : State) (spid part : Nat) (cached : Bool) (cells : List (Nat × Byte)) (sector : Nat) : State :=
  let line := sector / 2
  let s1 := s.undo spid line
  let s2 := if cached then s1.l2Sector part sector (!coversSector cells sector)
    else if s1.l2Has sector || !s1.ownMem (line * 128) then s1
    else s1.dram part line ((cells.filter (fun c => c.1 / 64 == sector)).length)
  match Tbl.find s2.l2 line with
  | none => s2
  | some e =>
    { s2 with
      invs := s2.invs ++ (((List.range 4).filter (fun d => e.dirs.getLsbD d)).map fun d => (d, line))
      l2 := Tbl.put s2.l2 line { e with dirs := 0#4, dirty := e.dirty ||| (secBit sector &&& e.valid), count := 0 } }

/-- Bytes are written at their homes, sector by sector. Re-execution discards writes to host memory and other modules (17,
R403). -/
def State.homeWrite (s : State) (spid part : Nat) (cached : Bool) (cells : List (Nat × Byte)) : State :=
  let cells := if (s.space spid).reruns then cells.filter (fun c => s.ownMem c.1) else cells
  let s1 := ((cells.map (fun c => c.1 / 64)).eraseDups).foldl (fun s n => s.touchSector spid part cached cells n) s
  { s1 with
    mem := cells.foldl (fun m c => Tbl.set 0#8 m c.1 c.2) s1.mem
    poison := s1.poison.filter (fun w => !coversWord cells w) }

/-- Bytes of memory become undefined (00, R8). -/
def State.blur (s : State) (pa n : Nat) : State :=
  { s with mem := memPut s.mem pa ((List.range n).map fun i => Config.freeByte (s.free + i)), free := s.free + n }

/-- Consecutive bytes as cells. -/
def cellsAt (pa : Nat) (l : List Byte) : List (Nat × Byte) := (List.range l.length).map fun i => (pa + i, l.getD i 0#8)

/-- A byte of the queue table that software must not write: at 0x10 and above of an entry that is not FREE (08, R202). -/
def State.barred (s : State) (pa : Nat) : Bool :=
  match s.sec.qtab with
  | none => false
  | some (base, qts) =>
    decide (base ≤ pa) && decide (pa < base + 64 * 2 ^ qts) && decide (0x10 ≤ (pa - base) % 64) &&
      ((Tbl.find s.queues ((pa - base) / 64)).map fun q => q.st != .free).getD false
/-- What software has written there against the rule is undefined (00, R9). -/
def State.spoil (s : State) (cells : List (Nat × Byte)) : State :=
  (cells.filter (fun c => s.barred c.1)).foldl (fun s c => s.blur c.1 1) s

/-- The remote-data caches' copies of a line are invalidated, and the invalidations confirmed (02, R57). -/
def State.dropCopies (s : State) (line : Nat) : State :=
  { s with
    dies := s.dies.map fun e => (e.1, { e.2 with rdc := Tbl.del e.2.rdc line })
    invs := s.invs.filter (fun x => x.2 != line) }

/-- A write of an agent that records no watermark: it clears the sectors' valid bits (04, R101); `unc` where it goes through a page
of ATTR 1. The step stands for the write and its acknowledgement, before which the remote copies are gone (02, R57). -/
def State.plainWrite (s : State) (spid part : Nat) (unc : Bool) (pa : Nat) (l : List Byte) : State :=
  let cells := cellsAt pa l
  let s1 := (cells.map (fun c => c.1 / 64)).eraseDups.foldl State.clearSector (s.homeWrite spid part (!unc) cells)
  (cells.map (fun c => c.1 / 128)).eraseDups.foldl State.dropCopies s1

/-- Some of the bytes hold an uncorrectable error (16, R386). -/
def State.poisoned (s : State) (pa n : Nat) : Bool :=
  !s.poison.isEmpty && (List.range n).any (fun i => s.poison.contains ((pa + i) / 4))

/-! ### L1 (02, R47 to R50) -/

/-- The L1 line of a core, where present. -/
def State.l1Line (s : State) (core line : Nat) : Option L1Line := Tbl.find (s.core core).l1 line
/-- A line leaves a core's L1. -/
def State.l1Drop (s : State) (core line : Nat) : State :=
  match s.l1Line core line with
  | none => s
  | some _ => s.updCore core fun c => { c with l1 := Tbl.del c.l1 line }
/-- Every L1 line of a core leaves (02, R48). -/
def State.l1Clear (s : State) (core : Nat) : State :=
  if (s.core core).l1.isEmpty then s else s.updCore core fun c => { c with l1 := [] }
/-- A line enters a core's L1, in a set of 8 ways; the set is the line number's low 7 bits (02, R43, R48).
[DESIGN CHOICE, log entry 121] -/
def State.l1Fill (s : State) (core line : Nat) (x : L1Line) : State :=
  let set := (s.core core).l1.filter (fun e => e.1 % 128 == line % 128 && e.1 != line)
  let s1 := if set.length < 8 then s
    else (match sortBy (fun e => Config.freeKey s.free e.1) set with
      | v :: _ => { s with free := s.free + 1 }.l1Drop core v.1
      | [] => s)
  s1.updCore core fun c => { c with l1 := Tbl.put c.l1 line x }
/-- A store updates a present copy in place with the watermarks of the sectors that it writes, and its read count is cancelled
(02, R47, R49, R50). -/
def State.l1Update (s : State) (core : Nat) (cells : List (Nat × Byte)) : State :=
  (cells.map (fun c => c.1 / 128)).eraseDups.foldl (fun s l =>
    match s.l1Line core l with
    | none => s
    | some x =>
      let bytes := cells.foldl (fun (b : List Byte) c => if c.1 / 128 = l then b.set (c.1 % 128) c.2 else b) x.bytes
      let wm := (List.range 2).map fun i =>
        if cells.any (fun c => c.1 / 64 = 2 * l + i) then Tbl.get 0#64 s.wms (2 * l + i) else x.wm.getD i 0#64
      s.updCore core fun c => { c with l1 := Tbl.put c.l1 l { x with bytes, wm, count := 0 } }) s

/-- A strong load of a core performs past its L1: the line that stays there serves no strong load any more (02, R47; 03, R87). -/
def State.l1Past (s : State) (core line : Nat) : State :=
  match s.l1Line core line with
  | none => s
  | some x => s.updCore core fun c => { c with l1 := Tbl.put c.l1 line { x with past := true } }

/-- A read count falls by one; at zero the copy is invalidated (02, R50). -/
def State.l1Count (s : State) (core line : Nat) : State :=
  match s.l1Line core line with
  | none => s
  | some x =>
    if x.count = 0 then s
    else if x.count = 1 then s.l1Drop core line
    else s.updCore core fun c => { c with l1 := Tbl.put c.l1 line { x with count := x.count - 1 } }
def State.l2Count (s : State) (line : Nat) : State :=
  match Tbl.find s.l2 line with
  | none => s
  | some x =>
    if x.count = 0 then s
    else if x.count = 1 then s.dropLine line
    else { s with l2 := Tbl.put s.l2 line { x with count := x.count - 1 } }

/-! ### Remote-data caches (02, R50, R54, R56, R57) -/

/-- A line of device memory of this module whose home is another die than a core's: loads of the core may be served by its die's
remote-data cache (02, R56). -/
def State.isRemote (s : State) (core line : Nat) : Bool :=
  s.ownMem (line * 128) && homeDie (line * 128) != dieOf core

/-- The remote-data cache's copy of a sector for a core: its watermark and bytes. -/
def State.rdcAt (s : State) (core sector : Nat) : Option (W64 × List Byte) :=
  if s.isRemote core (sector / 2) then
    (Tbl.find (s.die (dieOf core)).rdc (sector / 2)).bind fun e => Tbl.find e.subs (sector % 2)
  else none

/-- A way for a line in its bank of a die's remote-data cache, as in L2 (02, R54, R56); none where the mask allows no way.
The bank is the logical slice mod 16 and the set within it that of the line's home slice. [DESIGN CHOICE, log entry 122] -/
def State.rdcPlace (s : State) (d part line : Nat) : Option (RdcLine × State) :=
  match Tbl.find (s.die d).rdc line with
  | some e => some (e, s)
  | none =>
    let ways := waysOf (((Tbl.find s.parts part).map (·.rdcmask)).getD 0xFFF#12)
    let mates := (s.die d).rdc.filter (fun e => homeLs (e.1 * 128) % 16 == homeLs (line * 128) % 16 &&
      homeSet (e.1 * 128) == homeSet (line * 128))
    match ways.find? (fun w => !mates.any (fun e => e.2.way == w)) with
    | some w => some ({ way := w }, s)
    | none =>
      match sortBy (fun e => Config.freeKey s.free e.1) (mates.filter (fun e => ways.contains e.2.way)) with
      | [] => none
      | v :: _ =>
        some ({ way := v.2.way }, ({ s with free := s.free + 1 } : State).updDie d fun x => { x with rdc := Tbl.del x.rdc v.1 })

/-- A sector supplied to the remote-data cache of a core's die: the directory bit is set; a line that enters with it takes the
read count (02, R50, R56, R57). -/
def State.rdcFill (s : State) (core part sector count : Nat) : State :=
  let d := dieOf core
  let line := sector / 2
  match (Tbl.find s.l2 line).bind fun _ => s.rdcPlace d part line with
  | none => s
  | some (e, s1) =>
    let e1 := if e.subs.isEmpty then { e with count } else e
    let x : W64 × List Byte := (Tbl.get 0#64 s.wms sector, s.rdBytes (sector * 64) 64)
    let s2 := s1.updDie d fun y => { y with rdc := Tbl.put y.rdc line { e1 with subs := Tbl.put e1.subs (sector % 2) x } }
    { s2 with l2 := Tbl.upd s2.l2 line fun e => { e with dirs := e.dirs ||| (1#4 <<< d) } }

/-- A load instruction's read of a line counts in the remote-data cache's copy; at zero the copy is invalidated (02, R50). -/
def State.rdcCount (s : State) (d line : Nat) : State :=
  match Tbl.find (s.die d).rdc line with
  | none => s
  | some x =>
    if x.count = 0 then s
    else if x.count = 1 then s.updDie d fun y => { y with rdc := Tbl.del y.rdc line }
    else s.updDie d fun y => { y with rdc := Tbl.put y.rdc line { x with count := x.count - 1 } }

/-- A sector for a core's L1, as a weak load finds it: from the remote-data cache's copy, which is filled where there is none, or
from the home slice (02, R47, R53, R56, R58). -/
def State.supply (s : State) (core part sector count : Nat) : (W64 × List Byte) × State :=
  match s.rdcAt core sector with
  | some x => (x, s)
  | none =>
    let s1 := s.l2Sector part sector true
    ((Tbl.get 0#64 s1.wms sector, s1.rdBytes (sector * 64) 64),
     if s.isRemote core (sector / 2) then s1.rdcFill core part sector count else s1)

/-- A line is fetched as a weak load would fetch it (12, R297; 02, R47): to its home's caches, and with `near` into L1. What comes
while the invalidation of a remote-data cache copy is under way may be past (03, R87). -/
def State.fetchLine (s : State) (core part line : Nat) (near : Bool) (count : Nat) : State :=
  if near && (s.l1Line core line).isSome then s
  else
    let a := s.supply core part (2 * line) count
    let b := a.2.supply core part (2 * line + 1) count
    if !near then b.2
    else b.2.l1Fill core line { bytes := a.1.2 ++ b.1.2, wm := [a.1.1, b.1.1], count, past := s.invs.contains (dieOf core, line) }

/-! ### Coverage of a sector by an instruction (04, R103, R111) -/

/-- A set of the 64 bytes of a sector or segment, as a number: `n` bytes from offset `o`. -/
def cover (o n : Nat) : Nat := (2 ^ n - 1) * 2 ^ o
/-- Quarters touched, and covered whole. -/
def quartersTouched (c : Nat) : Nat := ((List.range 4).map fun q => if c / 2 ^ (16 * q) % 2 ^ 16 = 0 then 0 else 2 ^ q).sum
def quartersWhole (c : Nat) : Nat :=
  ((List.range 4).map fun q => if c / 2 ^ (16 * q) % 2 ^ 16 = 2 ^ 16 - 1 then 2 ^ q else 0).sum

/-! ### Checks, race records, the race log (04, R113, R117 to R120) -/

/-- The outcome for a sector: the strongest verdict and the lanes that race. -/
def joinVerdicts (l : List (Nat × Verdict)) : Verdict × Mask :=
  (l.foldl (fun v x => v.join x.2) .pass, maskOf fun L => l.any (fun x => x.1 == L && x.2 == .race))

/-- What a race record tells of the access (04, Table 7); `sect` is the sector's number, or 2^36 times the core plus the
local-store segment's number. -/
structure RaceAcc where
  acc  : Nat
  size : Nat
  pc   : W64
  rwc  : W32
  addr : W64
  ls   : Bool
  sect : Nat
  wm   : W64
  lanes : Mask
  deriving DecidableEq, Repr

/-- The workgroup number in records. -/
def State.wgidOf (s : State) (g : Group) : Nat := ((Tbl.find s.wgs g.wg).map (·.wgidx)).getD 0

/-- Word 0x08 of a race record, and of a stop record (04, Table 7). -/
def State.idWord (s : State) (gs : Nat) (g : Group) : W64 :=
  BitVec.ofNat 64 (fld 10 54 (coreOf gs) + fld 6 48 (slotOf gs) + fld 4 44 (s.incOf gs).toNat +
    fld 4 40 (s.epochOf g).toNat + fld 5 32 g.gidx + fld 32 0 (s.wgidOf g))
/-- Word 0x18 of a race record. -/
def State.rwcWord (s : State) (g : Group) (rwc : W32) : W64 :=
  BitVec.ofNat 64 (fld 32 32 rwc.toNat + (s.space (s.spidOf g)).interval.toNat)

/-- The 16 words of a race record (04, Table 7). -/
def State.raceWords (s : State) (gs : Nat) (g : Group) (r : RaceAcc) : List W64 :=
  let c := g.chk
  [BitVec.ofNat 64 (fld 8 56 0x10 + fld 4 48 r.acc + fld 8 40 r.size + fld 8 32 (s.spidOf g) + r.lanes.toNat),
   s.idWord gs g, r.pc, s.rwcWord g r.rwc, r.addr,
   BitVec.ofNat 64 (fld 1 63 (b2n r.ls) + fld 46 6 r.sect), r.wm,
   BitVec.ofNat 64 (fld 12 52 c.rc.toNat + fld 6 46 c.kwg.toNat + fld 6 40 c.kgg.toNat + fld 6 34 c.kdg.toNat +
     fld 1 33 (b2n c.ic))] ++ (c.table ++ List.replicate (8 - c.table.length) 0#64)

/-- A counter of the race log's header rises, saturating (04, R119). -/
def State.bumpLog (s : State) (log off : Nat) : State :=
  let x := (s.rd8 (log + off)).toNat
  s.wrWords (log + off) [BitVec.ofNat 64 (min (x + 1) (2 ^ 64 - 1))]

/-- A sector's check is counted in trap and report modes (04, R119). -/
def State.countCheck (s : State) (spid : Nat) (v : Verdict) : State :=
  let p := s.space spid
  if p.mode = 0#2 || p.log = 0 then s
  else
    let s1 := s.bumpLog p.log 0x10
    match v with
    | .pass => s1
    | .unverified => s1.bumpLog p.log 0x18
    | .race => s1.bumpLog p.log 0x20

/-- A record is appended to the race log, or counted as dropped (04, R119). [DEDUCED, log entry 70] -/
def State.appendRace (s : State) (spid : Nat) (rcd : List W64) : State :=
  let p := s.space spid
  if p.log = 0 then s
  else
    let w := (s.rd8 p.log).toNat
    if w < (p.logSize - 128) / 128 then
      (s.wrWords (p.log + 128 * (w + 1)) rcd).wrWords p.log [BitVec.ofNat 64 (w + 1)]
    else s.bumpLog p.log 0x08

end Sys2Proof.Machine
end

