-- ==== Sys2Proof/Machine/Serial.lean ====
section
/-! DEFINITION. Requester serials, acknowledged-through serials, retire tables, result caches and owner incarnations
(05, R126 to R136). -/

namespace Sys2Proof.Machine

/-- `le(s, a)`: serial `s` is at or below `a` (05, R129). -/
def serLe (x a : BitVec 16) : Bool := decide ((a - x).toNat < 2 ^ 15)

def State.rqer (s : State) (u : Nat) : Requester := (Tbl.find s.rqers u).getD {}
def State.updRqer (s : State) (u : Nat) (f : Requester → Requester) : State :=
  { s with rqers := Tbl.put s.rqers u (f (s.rqer u)) }

/-- A new operation of a requester must be held (05, R130). -/
def Requester.mustHold (r : Requester) (owner : Nat) : Bool :=
  decide (2 ^ 15 < (r.next - r.ack).toNat) ||
    (!(r.retire.any (fun x => x.1 == owner)) && decide (128 ≤ r.retire.length))

/-- The next serial of a requester, for an operation to an owner (05, R127, R129). -/
def Requester.take (r : Requester) (owner : Nat) : Requester :=
  { r with next := r.next + 1, retire := r.retire.filter (fun x => x.1 != owner) ++ [(owner, r.next)] }
def State.takeSerial (s : State) (u owner : Nat) : BitVec 16 × State :=
  ((s.rqer u).next, s.updRqer u fun r => r.take owner)

/-- The acknowledged-through serial advances over the serials answered (05, R129); fuel bounds the answered ones. -/
def advanceAck : Nat → BitVec 16 → List (BitVec 16) → BitVec 16 × List (BitVec 16)
  | 0, a, l => (a, l)
  | n + 1, a, l => if l.contains (a + 1) then advanceAck n (a + 1) (l.filter (· != a + 1)) else (a, l)

/-- A serial has its final reply: owners whose highest serial is passed leave the retire table and are to be told (05,
R129). -/
def Requester.answer (r : Requester) (ser : BitVec 16) : Requester :=
  let l := ser :: r.answered
  let p := advanceAck l.length r.ack l
  let gone := r.retire.filter (fun x => serLe x.2 p.1)
  { r with ack := p.1, answered := p.2, retire := r.retire.filter (fun x => !serLe x.2 p.1)
           retirePk := r.retirePk ++ gone.map fun x => (x.1, p.1, 0) }
def State.answerSerial (s : State) (u : Nat) (ser : BitVec 16) : State := s.updRqer u fun r => r.answer ser

/-- The Felts of cores as owners: above the logical slices. -/
def feltOwner (core : Nat) : Nat := 2 ^ 20 + core
/-- The result cache at which an operation of an owner is decided: that of the physical slice that serves the set (02, R60); of
another module's slice, its own. -/
def State.rcAt (s : State) (owner set : Nat) : Nat :=
  if owner / 256 = s.sec.modnum.toNat then
    owner / 64 * 64 + (s.die (owner / 64 % 4)).sliceAt (owner % 64) set + 2 ^ 30
  else owner
/-- The caches that serve an owner's sets: two while it is evacuated. -/
def State.rcAll (s : State) (owner : Nat) : List Nat := [s.rcAt owner 0, s.rcAt owner 1023].eraseDups

/-- Every live entry of a requester in some caches with a serial at or below `ack` becomes a tombstone (05, R132). -/
def State.retireAt (s : State) (places : List Nat) (u : Nat) (ack : BitVec 16) : State :=
  { s with rcache := s.rcache.map fun e =>
      if places.contains e.place && e.runit == u && e.tomb.isNone && serLe e.ser ack then { e with tomb := some s.clock } else e }

/-- The entry of a requester's serial in a cache. -/
def State.rcFind (s : State) (place u : Nat) (ser : BitVec 16) : Option RcEntry :=
  s.rcache.find? (fun e => e.place == place && e.runit == u && e.ser == ser)

/-- A slice's result cache of 2,048 entries is full (05, R131). -/
def State.rcFull (s : State) (place : Nat) : Bool :=
  decide (2048 ≤ (s.rcache.filter (fun e => e.place == place)).length)

/-- The owner incarnation of the module that owns (05, R135): this module's own, or the view of another's. -/
def State.ownerInc (s : State) (owner : Nat) : Byte :=
  let m := if owner < 2 ^ 20 then owner / 256 else s.sec.modnum.toNat
  if m = s.sec.modnum.toNat then s.sec.incarn else Tbl.get 0#8 (s.die 0).view m
/-- The incarnation of a module as a die sees it. -/
def State.viewInc (s : State) (die owner : Nat) : Byte :=
  Tbl.get 0#8 (s.die die).view (if owner < 2 ^ 20 then owner / 256 else s.sec.modnum.toNat)

/-- How an owner decides a copy of a serial-carrying operation (05, R132). -/
inductive Decision where
  | duplicate (got : List LaneAcc)
  | late
  | unknown
  | busy
  | perform
  deriving DecidableEq, Repr

/-- R132, after its first loop, for a line's set: the source slice of an evacuation answers for what it performed; an owner whose
cache was lost answers busy until the incarnation advances (05, R135). -/
def State.decide132 (s : State) (owner set u : Nat) (ser : BitVec 16) (c : Copy) : Decision :=
  let place := s.rcAt owner set
  match s.rcFind place u ser with
  | some e => (match e.tomb with
    | none => .duplicate e.value
    | some _ => .late)
  | none =>
    match (s.rcFind (s.rcAt owner 1023) u ser).bind fun e => if e.tomb.isNone then some e.value else none with
    | some v => .duplicate v
    | none =>
      if s.sec.incLost.contains owner then .busy
      else if c.inc ≠ s.ownerInc owner ∧ (c.rtx ∨ s.clock < s.sec.incAt + 2 ^ 14) then .unknown
      else if s.rcFull place then .busy
      else .perform

/-- The record of an operation that was performed. -/
def State.rcEnter (s : State) (owner set u : Nat) (ser : BitVec 16) (value : List LaneAcc) : State :=
  { s with rcache := s.rcache ++ [⟨owner, s.rcAt owner set, u, ser, none, value⟩] }

end Sys2Proof.Machine
end

