-- ==== Sys2Proof/Machine/Felt.lean ====
section
/-! DEFINITION. Local-store bytes and what the Felt keeps of them: publications, drains, broken regions (06, R157 to R167). -/

namespace Sys2Proof.Machine

/-! ### Local store -/

/-- A byte of a core's local store. -/
def State.lsByte (s : State) (core pos : Nat) : Byte := Tbl.get 0#8 (s.core core).ls pos
def State.lsBytes (s : State) (core pos n : Nat) : List Byte := (List.range n).map fun i => s.lsByte core (pos + i)
/-- An uncorrectable word among the bytes (16, R386). -/
def State.lsBad (s : State) (core pos n : Nat) : Bool :=
  !(s.core core).bad.isEmpty && (List.range n).any (fun i => (s.core core).bad.contains ((pos + i) / 4))
/-- A write covers part of an uncorrectable word (16, R386). -/
def State.lsBadPart (s : State) (core : Nat) (cells : List (Nat × Byte)) : Bool :=
  !(s.core core).bad.isEmpty &&
    cells.any (fun c => (s.core core).bad.contains (c.1 / 4) && !coversWord cells (c.1 / 4))

/-- Bytes are written to a core's local store; whole words lose an uncorrectable error (16, R386). -/
def State.lsPut (s : State) (core : Nat) (cells : List (Nat × Byte)) : State :=
  s.updCore core fun c =>
    { c with
      ls := cells.foldl (fun t x => Tbl.set 0#8 t x.1 x.2) c.ls
      bad := c.bad.filter (fun w => !coversWord cells w) }

/-! ### Publications (06, R157, R161) -/

/-- The segment of a core's local store where a publication's region begins. -/
def State.pubBase (s : State) (p : PubEnt) : Nat :=
  ((Tbl.find s.wgs p.wg).map (·.lsBase)).getD 0 / 64 + p.poff
/-- A publication entry's region covers a segment. -/
def State.pubCovers (s : State) (p : PubEnt) (seg : Nat) : Bool :=
  p.st != .free && decide (s.pubBase p ≤ seg) && decide (seg < s.pubBase p + p.len)
/-- Some publication covers the segment. -/
def State.published (s : State) (core seg : Nat) : Bool := (s.core core).pubs.any (fun e => s.pubCovers e.2 seg)

/-- The subscriber's core of a publication held at a core. -/
def State.subCore (s : State) (core : Nat) (p : PubEnt) : Nat :=
  ((Tbl.find s.wgs p.swg).map (·.core)).getD (core / 4 * 4 + p.score)

/-! ### Drains (06, R163) -/

/-- A write counts for a drain of a group: its own, and those of its batches that a completed wait has covered; with `all` every
write of its operations. -/
def FeltSrc.counts (gs : Nat) (all : Bool) : FeltSrc → Bool
  | .own g => g == gs
  | .batch g _ _ => all && g == gs

/-- The writes of the batches that a completed wait covers are from then on the group's own (06, R163). -/
def FeltSrc.cover (gs : Nat) (cls : Cls) (covers : W32 → Bool) (x : FeltSrc) : FeltSrc := match x with
  | .batch g k n => if g = gs ∧ k = cls ∧ covers n then .own gs else x
  | .own _ => x
def State.coverFelt (s : State) (gs : Nat) (cls : Cls) (covers : W32 → Bool) : State :=
  let src := fun (l : List FeltSrc) => (l.map (FeltSrc.cover gs cls covers)).eraseDups
  { s with
    cores := s.cores.map fun c => (c.1, { c.2 with felt := c.2.felt.map fun e => { e with srcs := src e.srcs } })
    upds := s.upds.map fun u => { u with srcs := src u.srcs } }

/-- A drain of a group waits for an entry or update. -/
def addDrain (gs : Nat) (l : List Nat) : List Nat := if l.contains gs then l else l ++ [gs]
/-- The entries up to the youngest that holds a write of the drain's set must leave, and the drain waits for them. -/
def feltDue (gs : Nat) (all : Bool) : List FeltEnt → List FeltEnt
  | [] => []
  | e :: t =>
    if (e :: t).any (fun x => x.srcs.any (FeltSrc.counts gs all)) then
      { e with due := true, drains := addDrain gs e.drains } :: feltDue gs all t
    else e :: t

/-- A drain for a group starts: at every Felt of its cluster that holds a write of its set; it waits too for the updates with such a
write that are on their way (06, R163). [DEDUCED, log entry 30] -/
def State.startDrain (s : State) (gs : Nat) (all : Bool) : State :=
  let base := clusterOf (coreOf gs) * 4
  let mine := fun (l : List FeltSrc) => l.any (FeltSrc.counts gs all)
  let s1 := (List.range 4).foldl (fun s i =>
    if (s.core (base + i)).felt.any (fun e => mine e.srcs) then s.updCore (base + i) fun c => { c with felt := feltDue gs all c.felt }
    else s) s
  { s1 with upds := s1.upds.map fun u => if mine u.srcs then { u with drains := addDrain gs u.drains } else u }

/-- A drain of the group still waits for an entry or an update. -/
def State.draining (s : State) (gs : Nat) : Bool :=
  let base := clusterOf (coreOf gs) * 4
  (List.range 4).any (fun i => (s.core (base + i)).felt.any (fun e => e.drains.contains gs)) ||
    s.upds.any (fun u => u.drains.contains gs)

/-! ### Subscriber regions (06, R167) -/

/-- The first segment of a subscription's region in its core's local store. -/
def State.subBase (s : State) (e : SubEnt) : Nat :=
  ((Tbl.find s.wgs e.wg).map (·.lsBase)).getD 0 / 64 + e.soff
/-- A subscription's region covers a byte position. -/
def State.subCovers (s : State) (e : SubEnt) (pos : Nat) : Bool :=
  e.st != .free && decide (s.subBase e ≤ pos / 64) && decide (pos / 64 < s.subBase e + e.len)
/-- The bytes touch the region of a broken subscription. [DEDUCED, log entry 108] -/
def State.broken (s : State) (core pos n : Nat) : Bool :=
  (s.core core).subs.any (fun e => e.2.st == .broken && decide (64 * s.subBase e.2 < pos + n) &&
    decide (pos < 64 * (s.subBase e.2 + e.2.len)))

end Sys2Proof.Machine
end

