-- ==== Sys2Proof/Machine/Tx.lean ====
section
/-! DEFINITION. A lane's transaction: its word set, its depth and status (05, R137 to R143); TXB, TXA and TXQ (12, R303).
TXE stands with the commit's steps in Machine/Commit.lean. -/

namespace Sys2Proof.Machine

/-- A lane is in a transaction that is not doomed. -/
def TxLane.open_ (t : TxLane) : Bool := decide (0 < t.depth) && !t.doomed

/-- The 8-byte words that an access of `n` bytes touches, and each with the generic address of its start. -/
def txWords (pa n : Nat) : List Nat := (List.range ((n + 7) / 8)).map fun i => pa / 8 * 8 + 8 * i
def txNamed (ga : W64) (pa n : Nat) : List (Nat × W64) := (txWords pa n).map fun w => (w, ga + BitVec.ofNat 64 w - BitVec.ofNat 64 pa)

/-- The words are taken into the set of eight; none where a ninth would be needed (05, R138). -/
def TxLane.hold (t : TxLane) (ws : List (Nat × W64)) : Option TxLane :=
  let fresh := ws.filter (fun w => !(t.words.any (fun x => x.pa == w.1)))
  if 8 < t.words.length + fresh.length then none
  else some { t with words := t.words ++ fresh.map fun w => ⟨w.1, w.2, [], 0#8, 0#64⟩ }

/-- Bytes of `data` at `pa` are buffered (05, R138). -/
def TxWord.buffer (w : TxWord) (pa n : Nat) (data : Nat) : TxWord :=
  (List.range 8).foldl (fun (w : TxWord) i =>
    if pa ≤ w.pa + i ∧ w.pa + i < pa + n then
      let b := data / 2 ^ (8 * (w.pa + i - pa)) % 256
      { w with
        wmask := w.wmask ||| (1#8 <<< i)
        wdata := BitVec.ofNat 64 (w.wdata.toNat - w.wdata.toNat / 2 ^ (8 * i) % 256 * 2 ^ (8 * i) + b * 2 ^ (8 * i)) }
    else w) w
def TxLane.write (t : TxLane) (pa n data : Nat) : TxLane := { t with words := t.words.map fun w => w.buffer pa n data }

/-- A byte as the lane sees it: its own buffered one, or the home's. -/
def TxLane.byte (t : TxLane) (pa : Nat) (home : Byte) : Byte :=
  match t.words.find? (fun w => w.pa == pa / 8 * 8) with
  | some w => if w.wmask.getLsbD (pa % 8) then BitVec.ofNat 8 (w.wdata.toNat / 2 ^ (8 * (pa % 8)) % 256) else home
  | none => home

/-- Some byte of an access to a word comes from its home: it is not buffered by the lane (05, R138). -/
def TxLane.readsHome (t : TxLane) (pa n word : Nat) : Bool :=
  t.words.any (fun w => w.pa == word &&
    (List.range 8).any (fun i => decide (pa ≤ word + i) && decide (word + i < pa + n) && !w.wmask.getLsbD i))

/-- A value read from a word's home is recorded (05, R138). -/
def TxLane.noteRead (t : TxLane) (pa : Nat) (v : W64) : TxLane :=
  { t with words := t.words.map fun w => if w.pa = pa && !w.rd.contains v then { w with rd := w.rd ++ [v] } else w }

/-- Lanes of a word, changed. -/
def Group.updTx (g : Group) (L : Nat) (f : TxLane → TxLane) : Group := { g with tx := Tbl.put g.tx L (f (g.txLane L)) }

/-- TXB: depth + 1; a lane at depth 0 begins, with status 0x07; a lane at depth 4 has the fault 0x11 (05, R137). -/
def execTxb (h : Hdr) (s : State) : Out :=
  s.issue (.txb h) fun w s =>
    let deep := w.lanes.filter (fun L => (w.g.txLane L).depth == 4)
    if !deep.isEmpty then .trap { code := 0x11, lanes := maskOf (deep.contains ·) } s
    else .done (s.updGroup w.gs fun g => w.lanes.foldl (fun g L => g.updTx L fun t =>
      if t.depth = 0 then { depth := 1, status := 7#32 } else { t with depth := t.depth + 1 }) g)

/-- TXA: the lane's transaction aborts with the explicit code and the user code (05, R137). -/
def execTxa (h : Hdr) (code : Byte) (s : State) : Out :=
  s.issue (.txa h code) fun w s => .done (s.updGroup w.gs fun g => g.txAbort w.lanes 4 code.toNat false)

/-- TXQ: the status words (05, R143). -/
def execTxq (h : Hdr) (d : Reg) (s : State) : Out :=
  s.issue (.txq h d) fun w s => match Instr.info (.txq h d) with
    | some f => .done (s.deliver w f (w.put (uv d) fun L => (w.g.txLane L).status.toNat))
    | none => .done s

end Sys2Proof.Machine
end

