-- ==== Sys2Proof/Machine/Memory.lean ====
section
/-! DEFINITION. Class 7: loads, stores, prefetch, line management and fences at their issue (12, R294 to R299; 03, R92,
R93). What happens at the homes stands in Machine/Home.lean. -/

namespace Sys2Proof.Machine

/-! ### Addresses -/

/-- A memory operand's address in a lane (09, R230). The base and the index are sources 0 and 1. -/
def Word.addr (w : Word) (m : MemOp) (L : Nat) : W64 :=
  let ix : Int := if m.idx.isS then (w.src 1 L : Int) else signed 32 (w.src 1 L)
  BitVec.ofInt 64 ((w.src 0 L : Int) + ix * (2 ^ m.xs.toNat : Nat) + m.off.toInt * (m.sz.bytes : Nat))

/-- The lanes that perform with their addresses. [DEDUCED, log entry 10] -/
def Word.addrs (w : Word) (once : Bool) (m : MemOp) : List (Nat × W64) :=
  (w.perf once).map fun L => (L, w.addr m L)

/-- The translation of a local-store address of LDS and STS (12, R296); the generic address that a stop record gives is
the window address (15, R371). -/
def State.localTr (s : State) (w : Word) (acc : Acc) (n : Nat) (x : Nat × W64) : LaneTr :=
  let a := x.2.toNat
  ⟨x.1, x.2 + BitVec.ofNat 64 localWin, if a % n ≠ 0 then .bad 0x08 0 else if 2 ^ 24 ≤ a then .bad 0x0A 0x05
    else s.transLocal (w.ask acc) (a / 2 ^ 20) (a % 2 ^ 20) n⟩

/-- A lane's accesses at its places; a load's places become one access each. -/
def splitAccs (n : Nat) (x : LaneTr) : List LaneAcc :=
  let l := x.locs
  let len := if l.isEmpty then n else n / l.length
  (List.range l.length).map fun i => { lane := x.lane, ga := x.ga, locs := l.drop i |>.take 1, part := i, len, unc := x.uncached }

/-! ### Requests -/

/-- An acquire: its order orders the later accesses of its group after it. In a transaction the order is kept for the check alone (12,
R295). -/
def Req.acquires (q : Req) : Bool := (q.ord == .acq || q.ord == .ar) && !(q.accs.all (·.tx))

/-- The slack tag of a packet of a core: its eligible groups, at most 15 (02, R63). -/
def State.slackOf (s : State) (core : Nat) : Nat :=
  min 15 (s.groups.filter (fun e => coreOf e.1 == core && e.2.eligible.isSome)).length

/-- The frame of a request of a word. -/
def State.reqOf (s : State) (w : Word) (kind : ReqKind) (accs : List LaneAcc) (size : Nat) (ord : Ord) (sco : Sco)
    (once : Bool) (stage : RStage) : Req :=
  { gs := w.gs
    wg := w.g.wg
    core := coreOf w.gs
    spid := s.spidOf w.g
    part := s.partOf w.g
    kind
    accs
    size
    ord
    sco
    sup := w.sup
    scalar := once
    mode := (s.space (s.spidOf w.g)).mode
    stage
    pc := w.slot.pc
    mask := w.act
    rwc := s.rwcNow w.gs w.g
    nth := w.g.nissue
    b := w.b
    since := s.clock
    first := s.clock
    slack := s.slackOf (coreOf w.gs)
    cls := ((s.gridOf w.g).map (·.cls)).getD 1 }

/-- A request under a fresh key. -/
def State.putReq (s : State) (q : Req) : State :=
  let id := s.newId
  { id.2 with reqs := Tbl.put id.2.reqs id.1 { q with nr := id.1 } }

/-- Pending bits of a group are set. -/
def State.pendOn (s : State) (gs : Nat) (l : List RegRef) : State :=
  s.updGroup gs fun g => { g with pend := g.pend ++ l.filter (fun r => !g.pend.contains r) }

/-- Where a place has its home: a sector of memory, or a workgroup's allocation in a core. -/
inductive Home where
  | sector (n : Nat)
  | bank (core owner : Nat)
  deriving DecidableEq, Repr
def Loc.home : Loc → Home
  | .mem pa => .sector (pa / 64)
  | .ls c _ o => .bank c o
/-- The home of an access: that of its first place. -/
def LaneAcc.home (a : LaneAcc) : Home := (a.locs.head?.map Loc.home).getD (.sector 0)
/-- The physical address of a place of memory. -/
def Loc.pa : Loc → Nat
  | .mem pa => pa
  | .ls _ p _ => p
def LaneAcc.pa (a : LaneAcc) : Nat := (a.locs.head?.map Loc.pa).getD 0
/-- The accesses of a list at each home, in the order in which the homes first occur. -/
def homesOf (l : List LaneAcc) : List Home := (l.map LaneAcc.home).eraseDups

/-- Writes by program order: a strong write heads a release sequence where its order is .REL or .AR, or where it is the
first after a release fence (03, R83; 04, R103). -/
def Word.heads (w : Word) (ord : Ord) : Bool :=
  ord == .rel || ord == .ar || (ord != .weak && w.g.chk.relFence)

/-- Requests for writes, one for each home; they are held until the word is committed unless it is a quiet point (16,
R386, R389). -/
def State.sendWrites (s : State) (w : Word) (kind : ReqKind) (accs : List LaneAcc) (size : Nat) (ord : Ord) (sco : Sco)
    (once : Bool) (held : Bool) (refs : List RegRef) : State :=
  let q := { s.reqOf w kind accs size ord sco once (if held then .held else .mesh) with
    head := w.heads ord, pend := refs }
  let s1 := (homesOf accs).foldl (fun s h => s.putReq { q with accs := accs.filter (fun a => a.home == h) }) s
  let s2 := s1.pendOn w.gs refs
  if ord = .weak || accs.isEmpty then s2 else s2.updGroup w.gs fun g => { g with chk := { g.chk with relFence := false } }

/-- The entries that a word other than a register word pops: reserved, and delivered with its result (07, R192). -/
def State.popResult (s : State) (w : Word) (f : Info) : State :=
  let pops := queuesOf f.src
  if pops.isEmpty then s
  else (s.updWg w.g.wg fun x => x.reserve pops []).sendResult w { f with dst := [], pd := [] } [] pops

/-- A word's requests are held while it is tentative. -/
def tentative (f : Info) : Bool := !infoQuiet f

/-! ### Transactions at issue (05, R138, R139) -/

/-- A lane's access is global memory of this module, cached: one that a transaction takes (05, R138). -/
def State.txPlace (s : State) (x : LaneTr) : Bool :=
  decide (x.ga.toNat < physWin) && !x.uncached && x.locs.all (fun l => match l with
    | .mem pa => s.ownMem pa
    | .ls _ _ _ => false)
/-- A lane's access is one that aborts a transaction: uncached, through the physical window, host memory or another
module's (05, R139 Table 7). -/
def State.txBad (s : State) (x : LaneTr) : Bool :=
  decide (x.ga.toNat < localWin) && !s.txPlace x

/-- The group after the aborts of a word's restricted lanes, and of lanes without room in their sets. -/
def State.txIssue (s : State) (g : Group) (n : Nat) (l : List LaneTr) : Group :=
  if g.tx.isEmpty then g
  else
    let g1 := g.txAbort ((l.filter s.txBad).map (·.lane)) 3 0 false
    l.foldl (fun g x =>
      let t := g.txLane x.lane
      if t.open_ && s.txPlace x then
        (match t.hold ((x.locs.map Loc.pa).flatMap fun pa => txNamed x.ga pa n) with
         | some t1 => g.updTx x.lane fun _ => t1
         | none => g.txAbort [x.lane] 2 0 false)
      else g) g1

/-! ### L1 at issue (02, R47 to R50) -/

/-- A load instruction reads a line: the read count of each copy that serves the core falls by one (02, R50). -/
def State.countRead (s : State) (core line : Nat) : State :=
  let s1 := s.l1Count core line
  if s.isRemote core line then s1.rdcCount (dieOf core) line else s1.l2Count line

/-- An access of a load may be served by L1: its order and scope, and its page (02, R47 Table 2). -/
def l1Allowed (ord : Ord) (sco : Sco) (uncached : Bool) (pa : Nat) : Bool :=
  (ord == .weak || sco == .wg) && !uncached && !pa.testBit 51

/-- The group has an acquire that has not performed (03, R89). -/
def State.acquiring (s : State) (gs : Nat) : Bool :=
  s.reqs.any (fun e => e.2.gs == gs && e.2.acquires && !e.2.accs.all (·.perf))

/-- The core has a write of a sector under way (02, R67). -/
def State.writing (s : State) (core gs : Nat) (h : Home) : Bool :=
  s.reqs.any (fun e => e.2.core == core && (e.2.stage != .held || e.2.gs == gs) && e.2.writes && e.2.accs.any (fun a => a.home == h))

/-- A strong load of the group to a home, that has not performed, stands before a strong load (03, R88). -/
def State.strongFirst (s : State) (gs : Nat) (h : Home) : Bool :=
  s.reqs.any (fun e => e.2.gs == gs && e.2.ord != .weak && e.2.accs.any (fun a => a.home == h && !a.perf))

/-- The bytes of a number of a value. -/
def bytesNum (l : List Byte) : W128 := BitVec.ofNat 128 (ofBytes l)

/-- A load's accesses that L1 serves at once; each line read counts once, in every copy that it has here (02, R50). A strong
load is not served past an earlier one of its group, nor from a line that may be older than what the group has read (03, R87, R88). -/
def State.l1Serve (s : State) (q : Req) : Req × State :=
  if s.acquiring q.gs then (q, s)
  else
    let hit := fun (a : LaneAcc) =>
      if a.perf || a.tx || !l1Allowed q.ord q.sco a.unc a.pa then none
      else
        match a.home with
        | .bank _ _ => none
        | h =>
          if s.writing q.core q.gs h || q.ord != .weak && s.strongFirst q.gs h then none
          else (s.l1Line q.core (a.pa / 128)).bind fun x =>
            let wm := x.wm.getD (a.pa / 64 % 2) 0#64
            if q.ord == .acq && bits wm 9 8 == 3 && bit wm 7 || q.ord != .weak && x.past then none else some (x, wm)
    let accs := q.accs.map fun a => match hit a with
      | some (x, _) => { a with perf := true, got := bytesNum ((x.bytes.drop (a.pa % 128)).take a.len) }
      | none => a
    let wms := (q.accs.filterMap fun a => (hit a).map fun x => (a.pa / 64, x.2)).eraseDups
    let lines := ((q.accs.filter (fun a => (hit a).isSome)).map fun a => a.pa / 128).eraseDups
    ({ q with accs, wms := q.wms ++ wms, counted := lines, stage := if accs.all (·.perf) then .answered else q.stage },
     lines.foldl (fun s l => s.countRead q.core l) s)

/-! ### LD, LDS, ST, STS -/

/-- A load after its addresses are known (12, R295). -/
def State.loadFrom (s : State) (w : Word) (f : Info) (once : Bool) (d : Reg) (m : MemOp) (l : List LaneTr) : Eff :=
  let n := m.sz.bytes
  let g1 := s.txIssue w.g n l
  let s1 := s.updGroup w.gs fun _ => g1
  let accs := l.flatMap fun x =>
    let t := g1.txLane x.lane
    (splitAccs n x).map fun a =>
      if s.txPlace x && decide (0 < t.depth) then (if t.doomed then { a with perf := true, locs := [] } else { a with tx := true }) else a
  let refs := f.dst.flatMap useRefs
  let q := { s1.reqOf w (.load d m.sz) accs n m.ord m.sco once
      (if accs.all (·.perf) then .answered else .mesh) with rct := m.rct.toNat, pend := refs }
  let r := s1.l1Serve q
  .done ((r.2.putReq r.1).pendOn w.gs refs)

/-- A store after its addresses are known; the data is source 2 (12, R295). -/
def State.storeTo (s : State) (w : Word) (f : Info) (once : Bool) (m : MemOp) (l : List LaneTr) : Eff :=
  let n := m.sz.bytes
  let g1 := s.txIssue w.g n l
  let tx := l.filter (fun x => s.txPlace x && decide (0 < (g1.txLane x.lane).depth))
  let g2 := tx.foldl (fun g x =>
    if (g.txLane x.lane).doomed then g
    else g.updTx x.lane fun t => t.write ((x.locs.map Loc.pa).headD 0) n (w.src 2 x.lane % 2 ^ (8 * n))) g1
  let s1 := s.updGroup w.gs fun _ => g2
  let accs := (l.filter (fun x => !tx.contains x)).flatMap fun x =>
    (splitAccs n x).map fun a =>
      { a with data := BitVec.ofNat 128 (w.src 2 x.lane / 2 ^ (8 * a.len * a.part) % 2 ^ (8 * a.len)) }
  let s2 := s1.sendWrites { w with g := g2 } .store accs n m.ord m.sco once (tentative f) []
  .done (s2.popResult w f)

/-- The access code of a lane: 2 where its access to global memory belongs to a transaction (01, Table 6; 05, R138). -/
def Word.code (w : Word) (acc : Acc) (l : List (Nat × W64)) (L : Nat) : Nat :=
  if decide (0 < (w.g.txLane L).depth) && l.any (fun x => x.1 == L && decide (x.2.toNat < physWin)) then 2 else acc.code

def execLd (h : Hdr) (d : Reg) (m : MemOp) (s : State) : Out :=
  s.issue (.ld h d m) fun w s => match Instr.info (.ld h d m) with
    | some f =>
      let once := infoOnce f
      s.accessAs w once .load (w.code .load (w.addrs once m)) m.sz.bytes (w.addrs once m) fun l => s.loadFrom w f once d m l
    | none => .done s

/-- LDS: a load from the gang's local stores (12, R296). [DEDUCED, log entry 107] -/
def execLds (h : Hdr) (d : Reg) (m : MemOp) (s : State) : Out :=
  s.issue (.lds h d m) fun w s => match Instr.info (.lds h d m) with
    | some f =>
      let once := infoOnce f
      s.withLanes w once .load ((w.addrs once m).map (s.localTr w .load m.sz.bytes)) fun l => s.loadFrom w f once d m l
    | none => .done s
def execSt (h : Hdr) (d : Reg) (m : MemOp) (s : State) : Out :=
  s.issue (.st h d m) fun w s => match Instr.info (.st h d m) with
    | some f =>
      let once := infoOnce f
      s.accessAs w once .store (w.code .store (w.addrs once m)) m.sz.bytes (w.addrs once m) fun l => s.storeTo w f once m l
    | none => .done s

/-- STS: a store to the gang's local stores (12, R296). [DEDUCED, log entry 107] -/
def execSts (h : Hdr) (d : Reg) (m : MemOp) (s : State) : Out :=
  s.issue (.sts h d m) fun w s => match Instr.info (.sts h d m) with
    | some f =>
      let once := infoOnce f
      s.withLanes w once .store ((w.addrs once m).map (s.localTr w .store m.sz.bytes)) fun l => s.storeTo w f once m l
    | none => .done s

/-! ### CMNT -/

/-- CMNT (12, R298): .INV and .INVA drop L1 copies; .DROP sends a discard of each sector of its lines, which count as a weak
store of 128 bytes. -/
def execCmnt (h : Hdr) (a : Reg) (op : CmntOp) (s : State) : Out :=
  s.issue (.cmnt h a op) fun w s => match Instr.info (.cmnt h a op) with
    | some f =>
      let once := infoOnce f
      let addrs := (w.perf once).map fun L => (L, BitVec.ofNat 64 (w.src 0 L))
      (match op with
       | .inva => .done (if w.act = 0#32 then s else s.l1Clear (coreOf w.gs))
       | .inv => s.access w once .load 1 addrs fun l =>
         .done ((l.flatMap (·.locs)).foldl (fun s x => match x with
           | .mem pa => s.l1Drop (coreOf w.gs) (pa / 128)
           | .ls _ _ _ => s) s)
       | .drop => s.access w once .store 128 addrs fun l =>
         let mine := l.filter (fun x => decide (x.ga.toNat < physWin) && s.txPlace x)
         let accs := mine.flatMap fun x => (x.locs.take 1).flatMap fun p => (List.range 2).map fun i =>
           { lane := x.lane, ga := x.ga + BitVec.ofNat 64 (64 * i), locs := [.mem (p.pa + 64 * i)], len := 64 }
         .done (s.sendWrites w .drop accs 128 .weak .none once (tentative f) []))
    | none => .done s

/-! ### FENCE and EFENCE -/

/-- A batch still has operations that run. -/
def ClsState.busy (c : ClsState) : Bool :=
  c.opened.any (fun o => !o.fin) || c.closed.any (fun b => !b.complete)
/-- The asynchronous operations of a group that have not finished. -/
def Group.opsBusy (g : Group) : Bool := g.cp.busy || g.mx.busy || g.gc.busy || g.cl.busy

/-- An acquire of scope .GANG or wider invalidates L1 (02, R48). -/
def State.acquireL1 (s : State) (core : Nat) (sco : Sco) : State :=
  if sco = .wg || sco = .none then s else s.l1Clear core

/-- An acquire fence merges the pending record (04, R110); one that found none where there should be one clears IC. -/
def State.mergePending (s : State) (gs : Nat) : State :=
  match Tbl.find s.groups gs with
  | none => s
  | some g =>
    let c := g.chk
    let c1 := if c.pendMiss then c.clearIc else c
    let c2 := (match c.pendRec with
      | some r => s.mergeRec g r c1
      | none => c1)
    s.updGroup gs fun g => { g with chk := { c2 with pendRec := none, pendMiss := false } }

/-- A release fence: the release clock rises and the next strong write heads a release sequence (04, R106; 03, R83). -/
def State.releaseFence (s : State) (gs : Nat) : State :=
  (s.tickRc gs).updGroup gs fun g => { g with chk := { g.chk with relFence := true } }

/-- What a fence of an order and scope does once nothing earlier of the group is under way (03, R92; 04, R110). -/
def State.fenceNow (s : State) (gs : Nat) (ord : Ord) (sco : Sco) : State :=
  let s1 := if ord = .rel || ord = .ar || ord = .sc then s.releaseFence gs else s
  let s2 := if ord = .acq || ord = .ar || ord = .sc then (s1.mergePending gs).acquireL1 (coreOf gs) sco else s1
  if ord = .sc && sco != .wg then s2.updGroup gs fun g => { g with chk := g.chk.clearIc } else s2

/-- Accesses of a group that have not performed, or whose writes are not acknowledged. [DEDUCED, log entry 9] -/
def State.unperformed (s : State) (gs : Nat) : Bool :=
  s.reqs.any (fun e => e.2.gs == gs && (match e.2.kind with
    | .result _ => false
    | .load _ _ => !e.2.accs.all (·.perf) || e.2.ord == .acq
    | _ => true))

/-- FENCE (12, R299): with no lane active it has no effect. [DEDUCED, log entry 9] -/
def execFence (h : Hdr) (ord : Ord) (sco : Sco) (s : State) : Out :=
  s.issue (.fence h ord sco) fun w s =>
    if w.act = 0#32 then .done s
    else if s.fenceWaits w.gs w.g.wg sco then .wait .batchWait s
    else .done (s.fenceNow w.gs ord sco)

/-- The oldest faulted batch not yet reported, of the classes of a group up to batch numbers (12, R306). -/
def ClsState.faulted (c : ClsState) (upto : W32 → Bool) : Option Batch :=
  c.closed.find? (fun b => upto b.num && b.complete && !b.reported && b.ops.any (fun o => o.fault.isSome))

/-- The code of a class (03, R94 Table 4). -/
def clsCode : Cls → Nat
  | .cp => 0
  | .mx => 1
  | .gc => 2
  | .cl => 3

def Group.cls (g : Group) : Cls → ClsState
  | .cp => g.cp
  | .mx => g.mx
  | .gc => g.gc
  | .cl => g.cl
def Group.setCls (g : Group) (k : Cls) (c : ClsState) : Group :=
  match k with
  | .cp => { g with cp := c }
  | .mx => { g with mx := c }
  | .gc => { g with gc := c }
  | .cl => { g with cl := c }

/-- The batch fault record (12, R306 Table 8) and the code it raises: a collective's own causes are raised as they are
(14, R351). -/
def batchRecord (k : Cls) (b : Batch) : Option (Nat × List W64 × W64) :=
  let ixs := (List.range b.ops.length).map fun i => (i, b.ops[i]?)
  (ixs.findSome? fun x => match x.2 with
    | some o => o.fault.map fun f => (x.1, o, f)
    | none => none).map fun (i, o, f) =>
      let code := if k = .cl && (f.cause = 0x22#8 || f.cause = 0x23#8) then f.cause.toNat else 0x18
      (code,
       [BitVec.ofNat 64 (fld 8 56 code + fld 8 48 f.cause.toNat + fld 8 40 f.det.toNat + fld 2 38 (clsCode k) +
          b.num.toNat),
        BitVec.ofNat 64 (fld 16 48 o.done.toNat + fld 16 32 o.fail.toNat + i), f.addr, o.pc] ++ List.replicate 12 0#64,
       f.addr)

/-- A batch becomes reported. -/
def ClsState.report (c : ClsState) (n : W32) : ClsState :=
  { c with closed := c.closed.map fun b => if b.num = n then { b with reported := true } else b }

/-- The first faulted batch that a wait over some classes covers, as a cause of the word (12, R306). [DESIGN CHOICE, log entry 146] -/
def State.batchFault (s : State) (w : Word) (ks : List Cls) (upto : W32 → Bool) : Option (Cause × State) :=
  ks.findSome? fun k =>
    match Tbl.find s.groups w.gs with
    | none => none
    | some g =>
      ((g.cls k).faulted upto).bind fun b =>
        (batchRecord k b).map fun r =>
          ({ code := r.1, lanes := w.slot.mask, addr := r.2.2, ext := r.2.1 },
           s.updGroup w.gs fun g => g.setCls k ((g.cls k).report b.num))

/-- The held faults of fenced mode, reported as one (15, R367); `rpc` is the word that reports. -/
def State.reportHeld (s : State) (gs : Nat) (rpc : W64) : Option State :=
  (Tbl.find s.groups gs).bind fun g => g.held.map fun h =>
    (s.updGroup gs fun g => { g with held := none, stop := some { h with rpc } }).haltBy (s.spidOf g) 0 (coreOf gs)
      h.cause.toNat h.det.toNat

/-- EFENCE (12, R299; 03, R93): it waits for every outstanding operation, orders as FENCE.SC.SYS, then reports held
faults and faulted batches. -/
def execEfence (h : Hdr) (s : State) : Out :=
  s.issue (.efence h) fun w s =>
    if w.act = 0#32 then .done s
    else
    let s0 := s.startDrain w.gs true
    if s.unperformed w.gs || s.fenceWaits w.gs w.g.wg .sys || w.g.opsBusy || s0.draining w.gs then .wait .batchWait s0
    else
      let s1 := s0.fenceNow w.gs .sc .sys
      match s1.reportHeld w.gs w.slot.pc with
      | some s2 => .again s2
      | none =>
        match s1.batchFault w [.cp, .mx, .gc, .cl] (fun _ => true) with
        | some r => .trap r.1 r.2
        | none => .done s1

end Sys2Proof.Machine
end

