-- ==== Sys2Proof/Machine/Owner.lean ====
section
/-! DEFINITION. Who performs an access: ownership of lines with its predictor and recalls (05, R122 to R125), the requesters of
serials and the owners that answer them (05, R126, R127). -/

namespace Sys2Proof.Machine

/-! ### Requests by kind -/

/-- An atomic or RED. -/
def Req.isAtomic (q : Req) : Bool := match q.kind with
  | .atom _ _ _ | .red _ _ => true
  | _ => false
/-- A read-modify-write, a group's or an agent's. -/
def Req.modifies (q : Req) : Bool := match q.kind with
  | .atom _ _ _ | .red _ _ | .rmw _ _ => true
  | _ => false
/-- A packet of an agent that is no group's word: it has no group. -/
def noGroup : Nat := 2 ^ 20
/-- The packets of the host belong to no space; its atomics wait for their answers. -/
def noSpace : Nat := 2 ^ 16
def hostTag : Nat := 2 ^ 44
/-- A packet about a transaction. -/
def Req.txMsg (q : Req) : Option (Nat × TxMsg) := match q.kind with
  | .tx gs m => some (gs, m)
  | _ => none

/-- The physical address of a request whose home is a sector. -/
def Req.memAt (q : Req) : Option Nat := match q.accs.head?.bind (fun a => a.locs.head?) with
  | some (.mem pa) => some pa
  | _ => none

/-- The lines of memory that a request names. -/
def Req.lines (q : Req) : List Nat := (q.accs.flatMap fun a => a.locs.filterMap fun x => match x with
  | .mem pa => some (pa / 128)
  | .ls _ _ _ => none).eraseDups

/-- The group for which a request works. -/
def Req.own (q : Req) : Nat := match q.kind with
  | .tx gs _ => gs
  | _ => q.gs
/-- The request as one of that group. -/
def Req.asOwn (q : Req) : Req := { q with gs := q.own }
/-- Two requests are of one word of a group. -/
def Req.sameWord (e q : Req) : Bool := e.own == q.own && e.nth == q.nth && e.own != noGroup
/-- The L2 set of a request's line. -/
def Req.lineSet (q : Req) : Nat := homeSet (q.memAt.getD 0)

/-! ### Requesters (05, R127) -/

/-- The Headbox of a die as a requester, and a host port. -/
def headboxUnit (die : Nat) : Nat := 768 + die
def portUnit (port : Nat) : Nat := 772 + port
/-- The die of a requester: a core's, a Headbox's, the link die of a host port. -/
def unitDie (u : Nat) : Nat := if u < 768 then dieOf u else u - 768

/-! ### Ownership (05, R122 to R124) -/

/-- The line of an atomic may be owned by the core for it (05, R122 Table 1, R123). -/
def predIx (pa : Nat) : Nat := Nat.xor (pa / 128 % 256) (pa / 128 / 256 % 256)
def State.canOwn (s : State) (q : Req) (pa : Nat) : Bool :=
  q.isAtomic && !(q.accs.any (·.unc)) && s.ownMem pa && (q.sco == .wg || q.sco == .gang || q.sco == .dev) &&
    (q.accs.head?.map fun a => decide (a.ga.toNat < physWin)).getD false &&
    !(((Tbl.find s.groups q.gs).bind s.gridOf).map fun r => bit (r.word 0x18) 26).getD false &&
    decide ((Tbl.get 0#3 (s.core q.core).pred (predIx pa)).toNat ≤ 3)

/-- The core owns the line. -/
def State.owns (s : State) (core line : Nat) : Bool := Tbl.find s.owners line == some core

/-- A predictor entry changes, saturating in 3 bits (05, R123 Table 2). -/
def State.predict (s : State) (core pa : Nat) (d : Int) : State :=
  s.updCore core fun c =>
    let x : Int := (Tbl.get 0#3 c.pred (predIx pa)).toNat
    { c with pred := Tbl.set 0#3 c.pred (predIx pa) (BitVec.ofNat 3 (max 0 (min 7 (x + d))).toNat) }

/-- Ownership of a line ends. -/
def State.disown (s : State) (core line : Nat) : State :=
  { s.updCore core fun c => { c with owned := c.owned.filter (· != line) } with owners := Tbl.del s.owners line }

/-- The owner still has atomics to perform on the line, which it performs before it honours a recall. -/
def State.ownerBusy (s : State) (core line : Nat) : Bool :=
  s.reqs.any (fun e => e.2.core == core && (e.2.stage == .mesh || e.2.stage == .atHome) &&
    (match e.2.memAt with
     | some pa => pa / 128 == line && s.canOwn e.2 pa
     | none => false))

/-- A line returns to its home slice, whoever owns it: another requester's recall counts in the owner's predictor (05, R122, R123). -/
def State.recallHome (s : State) (u line : Nat) : Option State :=
  match Tbl.find s.owners line with
  | none => some s
  | some c =>
    if s.ownerBusy c line then none
    else if c = u then some (s.disown c line) else some ((s.disown c line).predict c (line * 128) 2)

/-- An access of a requester to a line at its home first recalls another's ownership, which counts in the owner's predictor (05,
R123, R124); none while the owner is busy. -/
def State.recallFor (s : State) (u line : Nat) : Option State :=
  match Tbl.find s.owners line with
  | none => some s
  | some c =>
    if c = u then some s
    else if s.ownerBusy c line then none
    else some ((s.disown c line).predict c (line * 128) 2)
/-- The same for the lines of some bytes. -/
def State.recallAll (s : State) (u pa n : Nat) : Option State :=
  (List.range ((pa % 128 + n + 127) / 128)).foldl (fun o i => o.bind fun s => s.recallFor u (pa / 128 + i)) (some s)

/-! ### Owners of results (05, R126) -/

/-- A write of a requester to a home on another die or module carries a serial; its owner. None for host memory (05, R122). -/
def State.remoteOwner (s : State) (u pa : Nat) : Option Nat :=
  if pa.testBit 51 then none
  else if s.ownMem pa && homeDie pa == unitDie u then none else some (ownerOf pa)

/-- The owner to which a request carries a serial (05, R126): none for loads, local store, host memory, writes on the
requester's own die, and what executes at a core that owns the line or may own it (05, R122, R124). A read-modify-write of an agent
carries one as a chunk's reservation, and where its home is another die's. -/
def State.serialOwner (s : State) (q : Req) : Option Nat :=
  match q.kind, q.memAt with
  | .load _ _, _ | .result _, _ => none
  | _, none => none
  | k, some pa =>
    if q.serial.isSome then some (ownerOf pa)
    else if pa.testBit 51 then none
    else
      match k with
      | .atom _ _ _ | .red _ _ => if s.canOwn q pa then none else some (ownerOf pa)
      | .tx _ _ => some (ownerOf pa)
      | .rmw _ _ => if q.core < 768 then some (ownerOf pa) else s.remoteOwner q.core pa
      | .store | .drop => if s.owns q.core (pa / 128) then none else s.remoteOwner q.core pa
      | _ => s.remoteOwner q.core pa

/-! ### A copy at its owner (05, R128, R131, R132) -/

/-- The die where a request's owner is; 6 outside the module. -/
def State.targetNode (s : State) (q : Req) : Nat :=
  let pa := q.memAt.getD 0
  if s.ownMem pa then homeDie pa else 6
/-- A copy has reached its owner and may still be performed. -/
def State.arrived (s : State) (q : Req) (c : Copy) : Bool :=
  !c.lost && decide (c.until_ ≤ s.clock) && decide (s.clock < c.sent + 2 ^ 14) && c.node == s.targetNode q &&
    (decide (4 ≤ c.node) || c.trip.way == .there)
/-- The owner's decision on a copy, after the entries that its ACK retires. -/
def State.ownerDecides (s : State) (q : Req) (ser : BitVec 16) (c : Copy) : Decision × State :=
  let owner := ownerOf (q.memAt.getD 0)
  let s1 := s.retireAt (s.rcAll owner) q.core c.ack
  (s1.decide132 owner q.lineSet q.core ser c, s1)
/-- A reply is sent; it carries the owner's incarnation (05, R135). [DEDUCED, log entry 50] -/
def State.sendReply (s : State) (id : Nat) (x : Reply) : State :=
  s.updReq id fun q =>
    if q.reply.isSome then q
    else { q with reply := some x, replied := s.clock, rnode := s.targetNode q, back := s.ownerInc (ownerOf (q.memAt.getD 0)) }
/-- A copy has been dealt with; links may still keep theirs. [DEDUCED, log entry 48] -/
def State.copyGone (s : State) (id copy : Nat) : State :=
  s.updReq id fun q => { q with copies := q.copies.filter (fun c => c.id != copy) }
/-- An operation has been performed for a copy: its entry, its reply (05, R131). -/
def State.ownerKeeps (s : State) (id : Nat) (q : Req) (ser : BitVec 16) (copy : Nat) (value : List LaneAcc) : State :=
  ((s.rcEnter (ownerOf (q.memAt.getD 0)) q.lineSet q.core ser value).copyGone id copy).sendReply id (.value value)

/-! ### PREF (12, R297) -/

/-- PREF: lanes that miss the TLB, are misaligned, would fault or name a local store do nothing (12, R297). A page that
loads may not cache is left alone too; another core's line is recalled first (05, R124). -/
def execPref (h : Hdr) (near : Bool) (m : MemOp) (s : State) : Out :=
  s.issue (.pref h near m) fun w s => match Instr.info (.pref h near m) with
    | some f =>
      let lines := ((w.addrs (infoOnce f) m).filterMap fun x =>
        if x.2.toNat % m.sz.bytes ≠ 0 then none
        else
          match s.trans (w.ask .load) x.2.toNat m.sz.bytes x.1 with
          | .ok [.mem pa] false => if pa.testBit 51 then none else some (pa / 128)
          | _ => none).eraseDups
      .done (lines.foldl (fun s l => match s.recallFor (coreOf w.gs) l with
        | some s1 => s1.fetchLine (coreOf w.gs) (s.partOf w.g) l near 0
        | none => s) s)
    | none => .done s

end Sys2Proof.Machine
end

