-- ==== Sys2Proof/Machine/Forward.lean ====
section
/-! DEFINITION. Packets that agents send (05, R126 to R128), and what a Felt does with the writes it forwards: the combining buffer,
evictions, updates, appends to spill logs (06, R160 to R167). -/

namespace Sys2Proof.Machine

/-! ### Packets of agents (05, R126, R127) -/

/-- For whom an agent sends a packet: its unit, space, partition and class, the operation that waits for it, the group whose
watermark it leaves, whether it is supervisor code's, goes through a page of ATTR 1, is strong. -/
structure Sender where
  unit : Nat
  spid : Nat
  part : Nat
  cls  : Nat := 1
  tag  : Nat := 0
  who  : Option Nat := none
  sup  : Bool := false
  unc  : Bool := false
  strong : Bool := false
  deriving DecidableEq, Repr

/-- The frame of a packet. -/
def State.packetOf (s : State) (x : Sender) (kind : ReqKind) (accs : List LaneAcc) (size : Nat) : Req :=
  { gs := noGroup, wg := 0, core := x.unit, spid := x.spid, part := x.part, kind, accs, size
    ord := if x.strong then .rlx else .weak, sco := .none, sup := x.sup, stage := .mesh, pc := 0#64, mask := 0#32, rwc := 0#32
    since := s.clock, first := s.clock, cls := x.cls }

/-- The accesses of a write of some bytes: of 16 bytes each. -/
def putAccs (unc : Bool) (pa : Nat) (l : List Byte) : List LaneAcc :=
  (List.range ((l.length + 15) / 16)).map fun i =>
    let b := (l.drop (16 * i)).take 16
    { lane := 0, ga := 0#64, locs := [.mem (pa + 16 * i)], data := bytesNum b, len := b.length, unc }

/-- The packet of a write of at most a sector. -/
def State.putPacket (s : State) (x : Sender) (pa : Nat) (l : List Byte) : Req :=
  s.packetOf x (.put x.tag x.who) (putAccs x.unc pa l) l.length

/-- A further copy of a serial-carrying request, from its requester's die; INC is what the requester saw when it built the first
(05, R128). -/
def State.addCopy (s : State) (id : Nat) (q : Req) (rtx : Bool) : State :=
  let x := s.newId
  let d := unitDie q.core
  let inc := if rtx then q.inc else s.viewInc d (ownerOf (q.memAt.getD 0))
  x.2.updReq id fun q =>
    { q with copies := q.copies ++ [{ id := x.1, rtx, ack := (s.rqer q.core).ack, inc, sent := s.clock, node := d }], inc, sent := s.clock }

/-! ### Updates and spill logs (06, R161, R165, R167) -/

/-- A spill-log slot (06, R165 Table 5). -/
def spillSlot (ser : BitVec 16) (seg : Nat) (mask : W64) (data : List Byte) : List Byte :=
  wordBytes ([BitVec.ofNat 64 (2 ^ 63 + fld 16 10 ser.toNat + fld 10 0 seg), mask] ++ List.replicate 6 0#64) ++ data

/-- Who sends the appends of a core's Felt for a publication. -/
def logTag : Nat := 2 ^ 43
def Req.logs (q : Req) : Bool := match q.kind with
  | .put tag _ => decide (logTag ≤ tag) && decide (tag < hostTag)
  | _ => false
def State.logSender (s : State) (core : Nat) (p : PubEnt) : Sender :=
  let grid := (Tbl.find s.wgs p.wg).bind fun w => Tbl.find s.grids w.grid
  { unit := core, spid := (grid.map (·.spid)).getD noSpace, part := (grid.map (·.part)).getD 0, cls := (grid.map (·.cls)).getD 1
    tag := logTag + core }

/-- One update to a publication's subscriber: sent, or appended to the spill log, whose slot it takes at once, or discarded; none
where it must stay: the publication is held, or the requester (05, R130; 06, R161, R165, R167). -/
def State.sendUpd (s : State) (core pix : Nat) (p : PubEnt) (u : Upd) : Option State :=
  let dst := s.subCore core p
  let enter := fun (s : State) (ser : BitVec 16) (log : Option Nat) =>
    let y := s.newId
    { y.2 with upds := y.2.upds ++ [{ u with id := y.1, src := core, dst, handle := p.shdl, swg := p.swg, ser, log }] }
  match p.st with
  | .live =>
    if (s.rqer core).mustHold (feltOwner dst) then none
    else let x := s.takeSerial core (feltOwner dst); some (enter x.2 x.1 none)
  | .log =>
    let at_ := p.lbase + 128 * p.logn
    if 4096 ≤ p.logn then some (s.updCore core fun c => { c with pubs := Tbl.put c.pubs pix { p with st := .broken } })
    else if (s.rqer core).mustHold (ownerOf at_) then none
    else
      let x := s.takeSerial core (ownerOf at_)
      let q := { x.2.putPacket (s.logSender core p) at_ (spillSlot x.1 u.seg u.mask u.data) with serial := some x.1 }
      let id := x.2.fresh + 1
      let s1 := (x.2.putReq q).addCopy id q false
      some (enter (s1.updCore core fun c => { c with pubs := Tbl.put c.pubs pix { p with logn := p.logn + 1 } }) x.1 (some id))
  | .held => none
  | _ => some s

/-- An append has been acknowledged. -/
def State.logAcked (s : State) (rq : Nat) : State := { s with upds := s.upds.filter (fun u => u.log != some rq) }

/-! ### The combining buffer (06, R161) -/

/-- The update of an entry for a publication: without the bytes that a snapshot has carried (06, R159). -/
def FeltEnt.upd (e : FeltEnt) (pix seg : Nat) : Upd :=
  { id := 0, src := 0, dst := 0, handle := 0, swg := 0, seg, mask := e.mask &&& ~~~(Tbl.get 0#64 e.sent pix), data := e.data, ser := 0#16
    srcs := e.srcs, drains := e.drains }

/-- The oldest entry of a Felt leaves its buffer, with one update for each publication that covers it; none where one of them must
stay (06, R161). -/
def State.feltEvict (s : State) (core : Nat) : Option State :=
  match (s.core core).felt with
  | [] => some s
  | e :: t =>
    let mine := (s.core core).pubs.filter (fun p => s.pubCovers p.2 e.seg)
    mine.foldl (fun (o : Option State) p => o.bind fun s =>
      let u := e.upd p.1 (e.seg - s.pubBase p.2)
      if u.mask = 0#64 then some s else s.sendUpd core p.1 p.2 u) (some (s.updCore core fun c => { c with felt := t }))

/-- A write of one segment merges into the youngest entry, or takes a new one where the buffer of four has room; none
where it has not (06, R161). -/
def feltMerge (l : List FeltEnt) (id seg : Nat) (mask : W64) (data : List Byte) (srcs : List FeltSrc) (clock : Nat) : Option (List FeltEnt) :=
  let fresh : FeltEnt := { id, seg, mask, data, srcs, born := clock }
  match l.reverse with
  | y :: r =>
    if y.seg = seg then
      let d := (List.range 64).map fun i => if mask.getLsbD i then data.getD i 0#8 else y.data.getD i 0#8
      some (r.reverse ++ [{ y with
        mask := y.mask ||| mask, data := d, srcs := (y.srcs ++ srcs).eraseDups
        sent := (y.sent.map fun x => (x.1, x.2 &&& ~~~mask)).filter (fun x => x.2 != 0#64) }])
    else if l.length < 4 then some (l ++ [fresh]) else none
  | [] => some [fresh]

/-- The segments that some cells touch, ascending. -/
def segsOf (cells : List (Nat × Byte)) : List Nat := sortBy id ((cells.map (fun c => c.1 / 64)).eraseDups)

/-- The mask and data of the cells in a segment. -/
def segMask (cells : List (Nat × Byte)) (seg : Nat) : W64 :=
  cells.foldl (fun m c => if c.1 / 64 = seg then m ||| (1#64 <<< (c.1 % 64)) else m) 0#64
def segData (cells : List (Nat × Byte)) (seg : Nat) : List Byte :=
  cells.foldl (fun (d : List Byte) c => if c.1 / 64 = seg then d.set (c.1 % 64) c.2 else d) (List.replicate 64 0#8)

/-- The Felt takes a write of one segment; the oldest entry leaves first where all four are in use (06, R161). -/
def State.feltTake (s : State) (core : Nat) (srcs : List FeltSrc) (cells : List (Nat × Byte)) (seg : Nat) : Option State :=
  let take := fun (s : State) =>
    (feltMerge (s.core core).felt (s.fresh + 1) seg (segMask cells seg) (segData cells seg) srcs s.clock).map fun l =>
      { s.updCore core (fun c => { c with felt := l }) with fresh := s.fresh + 1 }
  (take s).orElse fun _ => (s.feltEvict core).bind take

/-- A write that performs in a core's local store, forwarded where its segments are published, segment by segment; none where the
Felt cannot take it yet (06, R160, R161). -/
def State.lsWrite (s : State) (core : Nat) (srcs : List FeltSrc) (cells : List (Nat × Byte)) : Option State :=
  ((segsOf cells).filter (s.published core)).foldl (fun (o : Option State) seg => o.bind fun s => s.feltTake core srcs cells seg)
    (some (s.lsPut core cells))

/-- The oldest entry must leave to make room. -/
def State.feltNeed (s : State) (core : Nat) : State :=
  s.updCore core fun c => { c with felt := match c.felt with
    | e :: t => { e with due := true } :: t
    | [] => [] }

end Sys2Proof.Machine
end

