-- ==== Sys2Proof/Machine/Home.lean ====
section
/-! DEFINITION. Requests at their homes: when one may perform, loads, stores, atomics and discards as they perform, the
checks made there, returns and late faults (02, R53 to R58, R67; 03, R81, R87 to R89; 04, R101 to R118; 05, R122, R142). -/

namespace Sys2Proof.Machine

/-! ### Late faults -/

/-- The point of a request's word. -/
def Req.at_ (q : Req) : At := ⟨q.pc, q.rwc, q.nth, q.b⟩
/-- The lanes of a fault: those named, or the word's mask where it executes once (12, R294). -/
def Req.faultLanes (q : Req) (l : List Nat) : Mask := if q.scalar then q.mask else maskOf (l.contains ·)

/-- Pending bits of a request's destinations clear, unless another request of the same word still holds them. -/
def State.clearPend (s : State) (id : Nat) (q : Req) : State :=
  if s.reqs.any (fun e => e.1 != id && e.2.gs == q.gs && e.2.nth == q.nth && !e.2.pend.isEmpty) then s
  else s.updGroup q.gs fun g => { g with pend := g.pend.filter (fun r => !q.pend.contains r) }

/-- A request ends; a serial whose final reply was not taken counts as answered. -/
def State.dropReq (s : State) (id : Nat) : State :=
  let s1 := { s with reqs := Tbl.del s.reqs id, holds := s.holds.filter (fun e => e.2.1 != id) }
  match (Tbl.find s.reqs id).bind fun q => if q.gone then none else q.serial.map fun n => (q, n) with
  | some (q, n) => s1.answerSerial q.core n
  | none => s1

/-- The undefined values of a faulting word's destinations in fenced mode (15, R367). -/
def undefWrites (refs : List RegRef) (lanes : Mask) (free : Nat) : List RegW :=
  (refs.foldl (fun (r : List RegW × Nat) x => match x with
    | .v n => (r.1 ++ (laneList lanes).map (fun L => .v n L ((Config.freeWord (r.2 + L)).setWidth 32)), r.2 + 32)
    | .s n => (r.1 ++ [.s n (Config.freeWord r.2)], r.2 + 1)
    | .p n => (r.1 ++ [.p n lanes ((Config.freeWord r.2).setWidth 32)], r.2 + 1)) ([], free)).1

/-- A late fault of a request: the word's requests that have not performed are dropped, its pending bits clear (an
entry that it popped stays popped), in fenced mode its destinations become undefined, and the exception is taken (15, R361, R364, R367; 04, R118).
[DEDUCED, log entry 42] -/
def State.lateFault (s : State) (id : Nat) (q : Req) (c : Cause) : State :=
  let mine := s.reqs.filter (fun e => e.2.gs == q.gs && e.2.nth == q.nth && e.2.pops.isEmpty && (e.1 == id || e.2.stage != .performed))
  let s1 := mine.foldl (fun s e => s.dropReq e.1) s
  let fenced := ((Tbl.find s.groups q.gs).bind fun g => (s.gridOf g).map Grid.fenced).getD false
  let s2 := if fenced then
      { s1.updGroup q.gs (fun g => g.writes (undefWrites q.pend q.mask s1.free)) with free := s1.free + 32 * q.pend.length }
    else s1
  (s2.clearPend id q).raise q.gs q.at_ c

/-! ### Order at the home (02, R67; 03, R88, R89) -/

/-- A release waits for an earlier request of its group or of its workgroup. One of scope .GANG or wider waits until every write
is acknowledged and every read has performed, and for the writes of its workgroup's other groups, which its group may have
observed. One of scope .WG waits for reads, and for writes that have not left the core port (03, R86, R89, R92). -/
def Req.releaseWaits (q e : Req) : Bool :=
  q.head && q.gs != noGroup && (if e.gs == q.gs then (if q.sco == .wg then e.stage == .held || !e.writes && !e.accs.all (·.perf)
      else e.writes || !e.accs.all (·.perf))
    else q.sco != .wg && e.wg == q.wg && e.writes && e.stage != .held)

/-- An ordered write or an atomic of the host waits until what its port sent before has performed (18, R410). -/
def Req.portWaits (q e : Req) : Bool :=
  q.head && decide (772 ≤ q.core) && e.core == q.core && !e.gone && !e.accs.all (·.perf)

/-- An earlier request keeps one from performing at a home (02, R67, R68; 03, R83, R88, R89). -/
def blocks (e q : Req) (h : Home) : Bool :=
  !e.sameWord q &&
  (match e.kind with
   | .result _ => false
   | _ =>
     (e.gs == q.gs && e.acquires && !e.accs.all (·.perf)) || q.releaseWaits e || q.portWaits e ||
     (e.core == q.core && e.writes && (e.stage != .held || e.gs == q.gs) && !(e.gs == noGroup && e.stage == .answered) && !e.gone &&
       e.accs.any (fun a => a.home == h)) ||
     (e.gs == q.gs && q.gs != noGroup && e.ord != .weak && q.ord != .weak && e.accs.any (fun a => a.home == h && !a.perf)) ||
     (match h with
      | .bank c _ => c != q.core && e.core == q.core && e.cls == q.cls && e.stage != .held &&
          e.accs.any (fun a => !a.perf && (match a.home with
            | .bank d _ => d == c
            | .sector _ => false))
      | .sector _ => false))

/-- A request stands before another: in its group's program order, or, of two groups of a core, sent before it (02, R67). -/
def before (i : Nat) (e : Req) (id : Nat) (q : Req) : Bool :=
  if e.gs == q.gs then decide (i < id) else decide (e.nr < q.nr)

/-- A request touches an aligned 8-byte word. -/
def Req.touches (q : Req) (word : Nat) : Bool :=
  q.accs.any (fun a => a.locs.any (fun x => match x with
    | .mem pa => decide (pa < word + 8) && decide (word < pa + a.len)
    | .ls _ _ _ => false))

/-- A read whose outcome is logged waits until its word is committed (16, R389; 17, R400 kinds 6 and 7). -/
def State.awaitsCommit (s : State) (q : Req) (h : Home) : Bool :=
  (s.space q.spid).records &&
    (match h with
     | .bank _ _ => true
     | .sector n => !s.ownMem (n * 64)) &&
    ((Tbl.find s.tents q.gs).getD []).any (fun t => t.nth == q.nth)

/-- A request may perform at a home: no earlier one keeps it, no reservation of a transaction or hold for another write
bars a write, and no other core owns the line (05, R124, R142; 04, R114). -/
def State.mayPerform (s : State) (id : Nat) (q : Req) (h : Home) : Bool :=
  !(s.reqs.any (fun e => before e.1 e.2 id q && blocks e.2 q h)) && !s.awaitsCommit q h &&
  (match h with
   | .bank _ _ => true
   | .sector n =>
     (match Tbl.find s.owners (n / 2) with
      | some c => c == q.core && !q.sup
      | none => true) &&
     (!q.writes || ((q.txMsg.isSome || !(s.locks.any (fun l => q.touches l.1))) && (match Tbl.find s.holds n with
       | some x => x.1 == id
       | none => true))))

/-! ### Checks of a sector (04, R111 to R114) -/

/-- A request's accesses to a sector of memory are checked: by a group, translated, homed on this module (04, Table 1). -/
def State.checked (s : State) (q : Req) (sector : Nat) : Bool := !q.sup && s.ownMem (sector * 64)

/-- The verdict on some lanes of a request to a sector whose watermark is given. [DEDUCED, log entry 7] -/
def State.sectorVerdict (s : State) (q : Req) (g : Group) (sector : Nat) (wm : W64) (strong : Bool) : Verdict × Mask :=
  joinVerdicts ((q.accs.filter (fun a => a.home == .sector sector)).map fun a =>
    (a.lane, s.testWm q.gs g wm (strong || a.tx) (quartersTouched (cover (a.pa % 64) a.len))))

/-- Every lane passes the steps of R111 that the home applies (04, R114). -/
def State.homePasses (s : State) (q : Req) (g : Group) (wm : W64) (strong : Bool) : Bool :=
  q.accs.all (fun a => s.testHome q.gs g wm strong (quartersTouched (cover (a.pa % 64) a.len)) == some .pass)

/-- ACC of a race record. -/
def Req.accCode (q : Req) (ls : Bool) : Nat := match q.kind with
  | .tx _ _ => 3
  | .load _ _ => if ls then 4 else if q.accs.any (·.tx) then 3 else 0
  | .atom _ _ _ | .red _ _ => 2
  | _ => if ls then 5 else 1

/-- The race record's facts for a sector or segment of a request. -/
def Req.race (q : Req) (ls : Bool) (sect : Nat) (wm : W64) (m : Mask) : RaceAcc :=
  { acc := q.accCode ls
    size := q.size
    pc := q.pc
    rwc := q.rwc
    addr := ((q.accs.find? (fun a => inMask m a.lane)).map (·.ga)).getD 0#64
    ls
    sect
    wm
    lanes := q.faultLanes (laneList m) }

/-- The segments of a request in a core's local store with their cover. -/
def bankSegs (l : List LaneAcc) : List (Nat × Nat) :=
  ((l.map fun a => a.pa / 64).eraseDups).map fun sg =>
    (sg, l.foldl (fun c a => if a.pa / 64 = sg then Nat.lor c (cover (a.pa % 64) a.len) else c) 0)

/-- A request's writes of local store are checked: weak stores by a group (04, R112). -/
def Req.lsChecked (q : Req) : Bool := q.ord == .weak && !q.modifies && !q.sup && q.mode != 0#2
/-- The verdicts on the segments of a request at a bank. -/
def State.bankVerdicts (s : State) (q : Req) (g : Group) (core owner : Nat) : List (Nat × Verdict) :=
  if q.lsChecked then (bankSegs q.accs).map fun x => (x.1, s.testLs q.gs g owner (s.lsWm core x.1)) else []
/-- The race record's facts for a segment. -/
def State.bankRace (s : State) (q : Req) (core sg : Nat) : RaceAcc :=
  q.race true (core * 2 ^ 36 + sg) ((s.lsWm core sg).setWidth 64) (maskOf fun L => q.accs.any (fun a => a.pa / 64 == sg && a.lane == L))

/-- A request's accesses are checked where they write (04, R114): stores, atomics, discards. -/
def Req.checks (q : Req) : Bool := match q.kind with
  | .store | .atom _ _ _ | .red _ _ | .drop => true
  | _ => false
/-- The sectors and segments at which a request that has not performed races now. -/
def State.racing (s : State) (q : Req) (g : Group) : List RaceAcc :=
  if !q.checks || q.mode == 0#2 then []
  else (homesOf q.accs).flatMap fun h => match h with
    | .sector n =>
      let wm := Tbl.get 0#64 s.wms n
      let v := s.sectorVerdict q g n wm (q.ord != .weak)
      if s.checked q n && v.1 == .race then [q.race false n wm v.2] else []
    | .bank c o => ((s.bankVerdicts q g c o).filter (fun x => x.2 == .race)).map fun x => s.bankRace q c x.1
/-- The other requests of the word of a request that have not performed. -/
def State.siblings (s : State) (id : Nat) (q : Req) : Tbl Req :=
  s.reqs.filter (fun e => e.1 != id && e.2.sameWord q && e.2.stage != .performed && e.2.stage != .answered)
/-- The races of those. -/
def State.siblingRaces (s : State) (id : Nat) (q : Req) (g : Group) : List RaceAcc :=
  (s.siblings id q).flatMap fun e => s.racing e.2 g
/-- The lowest racing lane of a sector or segment (04, R120). -/
def RaceAcc.lowest (r : RaceAcc) : Nat := (laneList r.lanes).headD 32

/-- The data-race fault of a request, with the races of its word's other requests: the mask has every racing lane, the record is
that of the sector with the lowest (04, R118). [DEDUCED, log entry 41] -/
def State.raceFault (s : State) (id : Nat) (q : Req) (g : Group) (l : List RaceAcc) : State :=
  match sortBy RaceAcc.lowest (l ++ s.siblingRaces id q g) with
  | [] => s
  | r :: t =>
    let s1 := (r :: t).foldl (fun s _ => s.countCheck q.spid .race) s
    s1.lateFault id q { code := 0x10, lanes := t.foldl (fun m x => m ||| x.lanes) r.lanes, addr := r.addr, ext := s.raceWords q.gs g r }

/-- In trap mode no part of a word performs while another part races (04, R118). [DEDUCED, log entry 134] -/
def State.raceBars (s : State) (id : Nat) (q : Req) (g : Group) : Bool :=
  q.mode == 1#2 && !(s.siblingRaces id q g).isEmpty
/-- In report mode the records of a word come in ascending order of the lowest racing lanes (04, R120). -/
def State.reportsFirst (s : State) (id : Nat) (q : Req) (g : Group) (lowest : Nat) : Bool :=
  (s.siblings id q).any (fun e => e.2.verdict != 2 && (s.racing e.2 g).any (fun r => decide (r.lowest < lowest)))

/-! ### Strong accesses of mixed size (03, R80, R81) -/

/-- An access of a request is strong: a REDO append, a transactional access and an agent's read-modify-write are (03, R77). -/
def Req.strongAcc (q : Req) (a : LaneAcc) : Bool := q.ord != .weak || a.tx || (match q.kind with
  | .append _ _ | .rmw _ _ => true
  | _ => false)

/-- The bytes of a strong access that the last strong write of its sector, of another address or size, covers too; none for memory
homed on other modules (03, R81). -/
def State.overlap (s : State) (q : Req) (a : LaneAcc) : Option (Nat × Nat) :=
  if !q.strongAcc a || !s.ownMem a.pa then none
  else
    let n := a.len * max 1 a.locs.length
    match Tbl.find s.strong (a.pa / 64) with
    | some (pa, k) =>
      let lo := max pa a.pa
      let hi := min (pa + k) (a.pa + n)
      if lo < hi && (pa != a.pa || k != n) then some (lo, hi - lo) else none
    | none => none

/-- The launch of a group asks for the mixed-size check. -/
def State.mixCheck (s : State) (g : Group) : Bool := ((s.gridOf g).map fun r => bit (r.word 0x18) 26).getD false

/-- The mixed-size check of a strong access at its home (03, R81). -/
def State.mixed (s : State) (q : Req) (g : Group) (a : LaneAcc) : Bool := s.mixCheck g && (s.overlap q a).isSome

/-- The bytes of accesses that a mixed-size overlap leaves undefined: those of a strong write that nothing shows ordered before
(03, R80). [DEDUCED, log entry 123] -/
def State.clashes (s : State) (q : Req) (l : List LaneAcc) : List (Nat × Nat) :=
  match Tbl.find s.groups q.gs with
  | none => []
  | some g => (l.filter (fun a => s.unordered q.gs g (Tbl.get 0#64 s.wms (a.pa / 64)))).filterMap (s.overlap q)

/-- Such bytes become undefined. -/
def State.blurAll (s : State) (l : List (Nat × Nat)) : State := l.foldl (fun s x => s.blur x.1 x.2) s

/-- The home slice keeps the address and size of a strong write to a line that it holds (03, R81). -/
def State.noteStrong (s : State) (q : Req) (sector : Nat) : State :=
  match q.accs.head? with
  | some a => if q.strongAcc a && s.l2Has sector then
      { s with strong := Tbl.put s.strong sector (a.pa, a.len * max 1 a.locs.length) } else s
  | none => s

/-! ### Loads -/

/-- A place of a subscriber region that is read: the read is logged where LAST has changed or a barrier was passed since
(17, R400, KIND 0x06). -/
def State.logSubRead (s : State) (q : Req) (core pos : Nat) : State :=
  match Tbl.find s.groups q.gs, (s.core core).subs.find? (fun e => s.subCovers e.2 pos) with
  | some g, some (_, e) =>
    if Tbl.find g.subSeen e.handle = some e.last then s
    else
      (s.logGroup g 6 0xFF q.rwc e.handle (e.last.setWidth 64)).updGroup q.gs fun g =>
        { g with subSeen := Tbl.put g.subSeen e.handle e.last }
  | _, _ => s

/-- The gate of a subscriber-region read in re-execution: the read is held for the LAST that was logged (17, R403). -/
def State.subGate (s : State) (q : Req) (core pos : Nat) : Gate :=
  if !(s.space q.spid).reruns then .free
  else
    match Tbl.find s.groups q.gs, (s.core core).subs.find? (fun e => s.subCovers e.2 pos) with
    | some g, some (_, e) =>
      (match s.nextAt q.spid (s.nameOf g) q.rwc 6 e.handle with
       | none => .free
       | some (ix, v) => if v.setWidth 16 = e.last then .take ix v
         else if serLe e.last (v.setWidth 16) then .hold else .part ix)
    | _, _ => .free

/-- A load's accesses at a local-store allocation perform (03, R89; 06, R167; 16, R386). -/
def State.loadBank (s : State) (id : Nat) (q : Req) (core owner : Nat) : State :=
  let mine := q.accs.filter (fun a => a.home == .bank core owner && !a.perf)
  let gates := mine.map fun a => s.subGate q core a.pa
  if gates.contains .hold then s
  else
  let s0 := gates.foldl (fun s x => match x with
    | .take ix _ => s.useEvent q.spid ix
    | .part ix => s.parting q.spid q.gs q.at_ ix (List.replicate 4 0#64)
    | _ => s) s
  let s1 := mine.foldl (fun s a => s.logSubRead q core a.pa) s0
  let accs := q.accs.map fun a =>
    if a.home == .bank core owner && !a.perf then
      { a with
        perf := true
        got := bytesNum (s.lsBytes core a.pa a.len)
        err := if s.broken core a.pa a.len then 0x12 else if s.lsBad core a.pa a.len then 0x28 else 0 }
    else a
  let lwms := (mine.map fun a => (core * 2 ^ 36 + a.pa / 64, owner, (s.lsWm core (a.pa / 64)).setWidth 64)).eraseDups
  let s2 := if q.acquires && accs.all (·.perf) then s1.acquireL1 q.core q.sco else s1
  s2.updReq id fun q => { q with accs, lwms := q.lwms ++ (if q.ord = .weak && !q.sup then lwms else []),
                                 stage := if accs.all (·.perf) then .answered else q.stage }

/-- An access of a load that the caches of its core may serve, as a weak one's (02, R47, R56). -/
def Req.near (q : Req) (a : LaneAcc) : Bool := !a.tx && l1Allowed q.ord q.sco a.unc a.pa

/-- The remote-data cache's copy that serves such accesses: not an acquire where it has KIND 3 (02, R47), nor a strong load while
its invalidation is under way (03, R87). -/
def State.copyAt (s : State) (q : Req) (sector : Nat) : Option (W64 × List Byte) :=
  (s.rdcAt q.core sector).bind fun x =>
    if q.acquires && bits x.1 9 8 == 3 && bit x.1 7 || q.ord != .weak && s.invs.contains (dieOf q.core, sector / 2) then none
    else some x

/-- A transactional read at its home: the lane's buffered bytes over the committed ones; words that it takes bytes of are recorded
(05, R138). -/
def txRead (s : State) (g : Group) (a : LaneAcc) : W128 × Group :=
  let t := g.txLane a.lane
  if !t.open_ then (0#128, g)
  else
    let bs := (List.range a.len).map fun i => t.byte (a.pa + i) (s.byte (a.pa + i))
    (bytesNum bs, g.updTx a.lane fun t => ((txWords a.pa a.len).filter (t.readsHome a.pa a.len)).foldl (fun t w => t.noteRead w (s.rd8 w)) t)

/-- Replay of reads of host and other modules' memory (17, R400, KIND 0x07). -/
def State.logForeign (s : State) (q : Req) (a : LaneAcc) : State :=
  if s.ownMem a.pa then s
  else match Tbl.find s.groups q.gs with
    | some g => (List.range ((a.len + 7) / 8)).foldl (fun s i =>
        match s.nextAt q.spid (s.nameOf g) q.rwc 7 (a.pa + 8 * i) with
        | some (ix, _) => s.useEvent q.spid ix
        | none => s.logGroup g 7 a.lane q.rwc (a.pa + 8 * i) (BitVec.ofNat 64 (s.rd (a.pa + 8 * i) (min 8 a.len)))) s
    | none => s

/-- The bytes a load reads at the home: in re-execution those of host and other modules' memory are the logged ones
(17, R403). -/
def State.homeBytes (s : State) (q : Req) (a : LaneAcc) : List Byte :=
  match s.ownMem a.pa || !(s.space q.spid).reruns, Tbl.find s.groups q.gs with
  | false, some g =>
    ((List.range ((a.len + 7) / 8)).flatMap fun i =>
      (match s.nextAt q.spid (s.nameOf g) q.rwc 7 (a.pa + 8 * i) with
       | some (_, v) => toBytes 8 v.toNat
       | none => s.rdBytes (a.pa + 8 * i) 8)).take a.len
  | _, _ => s.rdBytes a.pa a.len

/-- What a load's accesses leave at the home slice: their sector filled, or, on an uncached page where it is absent, bytes read at
the channel (02, R53, R55). -/
def State.readHome (s : State) (part sector : Nat) (l : List LaneAcc) : State :=
  if l.isEmpty || !s.ownMem (sector * 64) then s
  else if l.all (·.unc) && !s.l2Has sector then s.dram part (sector / 2) ((l.map (·.len)).sum)
  else s.l2Sector part sector true

/-- What a load leaves in the caches of its core for the accesses that they may serve: `copy` tells that the remote-data cache
served them. The line enters the remote-data cache and L1 unless its count of 1 ends with this read (02, R47, R50, R56). -/
def State.fillNear (s : State) (q : Req) (sector : Nat) (copy : Bool) : State :=
  let line := sector / 2
  let s1 := if copy || !s.isRemote q.core line || q.rct == 1 then s else s.rdcFill q.core q.part sector (q.rct - 1)
  if q.rct == 1 then s1 else s1.fetchLine q.core q.part line true (q.rct - 1)

/-- The read counts after a load's read of a line. `had` and `hadFar` tell that L2 and the remote-data cache held it before: then
the read counts there, once for each load; else a line of the core's own die takes the load's count (02, R50). -/
def State.countLoad (s : State) (q : Req) (line : Nat) (near copy had hadFar : Bool) : State :=
  let first := !q.counted.contains line
  let s1 := if near && hadFar && first && s.isRemote q.core line then s.rdcCount (dieOf q.core) line else s
  if copy then s1
  else if had then (if first then s1.l2Count line else s1)
  else if near && q.rct != 0 && !s.isRemote q.core line then
    (if q.rct == 1 then s1.dropLine line else { s1 with l2 := Tbl.upd s1.l2 line fun e => { e with count := q.rct - 1 } })
  else s1

/-- A load's accesses at a sector perform at its home, or at a remote-data cache's copy; the sector's watermark and, for
a strong read at the home, its release record come back, and the caches are filled (02, R47, R50, R53, R56; 04, R109). Each
access performs whole. [DESIGN CHOICE, log entry 125] -/
def State.loadSector (s : State) (id : Nat) (q : Req) (sector : Nat) : State :=
  let mine := q.accs.filter (fun a => a.home == .sector sector && !a.perf)
  let line := sector / 2
  let copy := s.copyAt q sector
  let served := fun (a : LaneAcc) => q.near a && copy.isSome
  let far := mine.filter (fun a => !served a)
  let s0 := s.blurAll (s.clashes q far)
  let done := mine.foldl (fun (r : List LaneAcc × Option Group) a =>
      if a.tx then
        (match r.2 with
         | some g => let x := txRead s0 g a; (r.1 ++ [{ a with got := x.1 }], some x.2)
         | none => (r.1 ++ [a], r.2))
      else
        let b := (match if q.near a then copy else none with
          | some x => (x.2.drop (a.pa % 64)).take a.len
          | none => s0.homeBytes q a)
        (r.1 ++ [{ a with got := bytesNum b, err := if s0.poisoned a.pa a.len then 0x28 else 0 }], r.2)) ([], Tbl.find s.groups q.gs)
  let accs := q.accs.map fun a =>
    if a.home == .sector sector && !a.perf then
      { ((done.1.find? (fun x => x.lane == a.lane && x.part == a.part)).getD a) with perf := true }
    else a
  let wm := Tbl.get 0#64 s.wms sector
  let wms := (match copy with
    | some x => if mine.any q.near then [(sector, x.1)] else []
    | none => []) ++ (if far.isEmpty then [] else [(sector, wm)])
  let s1 := if mine.any (·.tx) then s0.settle q.gs q.nth fun g => (mine.filter (·.tx)).foldl (fun g a => (txRead s0 g a).2) g else s0
  let s2 := mine.foldl (fun s a => s.logForeign q a) s1
  let near := mine.any q.near
  let had := (Tbl.find s2.l2 line).isSome
  let hadFar := (Tbl.find (s2.die (dieOf q.core)).rdc line).isSome
  let s3 := s2.readHome q.part sector far
  let s4 := if near then s3.fillNear q sector copy.isSome else s3
  let s5 := s4.countLoad q line near (near && copy.isSome) had hadFar
  let strong := far.any q.strongAcc
  let s6 := if strong && q.ord != .weak then s5.l1Past q.core line else s5
  let s7 := if q.acquires && mine.any (!·.tx) && accs.all (·.perf) then s6.acquireL1 q.core q.sco else s6
  let s8 := if strong && (Tbl.find s.recs sector).isSome then s7.useRec sector else s7
  s8.updReq id fun q =>
    { q with
      accs
      counted := line :: q.counted
      wms := q.wms ++ wms
      recs := q.recs ++ (match Tbl.find s.recs sector with
        | some r => if strong then [r] else []
        | none => [])
      recMiss := q.recMiss || (strong && bit wm 7 && bits wm 9 8 == 3 && (Tbl.find s.recs sector).isNone)
      stage := if accs.all (·.perf) then .answered else q.stage }

/-- A load arrives at a sector's home: a strong one of a launch with the mixed-size check may fault (03, R81). -/
def State.arriveLoad (s : State) (id : Nat) (q : Req) (sector : Nat) : State :=
  let mine := q.accs.filter (fun a => a.home == .sector sector && !a.perf && !(q.near a && (s.copyAt q sector).isSome))
  match Tbl.find s.groups q.gs with
  | none => s.loadSector id q sector
  | some g =>
    let bad := mine.filter (fun a => s.mixed q g a)
    if bad.isEmpty then s.loadSector id q sector
    else s.lateFault id q { code := 0x0C, lanes := q.faultLanes (bad.map (·.lane)), addr := (bad.head?.map (·.ga)).getD 0#64 }

/-! ### Writes of global memory -/

/-- The cells that the accesses of a list write, higher lanes over lower (03, R73). -/
def accCells (l : List LaneAcc) : List (Nat × Byte) :=
  l.flatMap fun a => (List.range a.locs.length).flatMap fun i =>
    cellsAt (((a.locs.drop i).head?.map Loc.pa).getD 0) (toBytes a.len (a.data.toNat / 2 ^ (8 * a.len * i)))

/-- The bytes of a sector that a request's accesses cover. -/
def coverOf (l : List LaneAcc) (sector : Nat) : Nat :=
  l.foldl (fun c a => a.locs.foldl (fun c x => match x with
    | .mem pa => if pa / 64 = sector then Nat.lor c (cover (pa % 64) a.len) else c
    | .ls _ _ _ => c) c) 0

/-- The watermark a write leaves (04, R101, R103): KIND by its order, whether it is atomic, and what the sector held. RC rises once
for each sector of a write of KIND 3. [DESIGN CHOICE, log entry 126] -/
def State.recordSector (s : State) (q : Req) (sector : Nat) (atomic : Bool) (covered : Nat) : State :=
  if !s.checked q sector || !s.l2Has sector then s.clearSector sector
  else
    match Tbl.find s.groups q.gs with
    | none => s.clearSector sector
    | some g =>
      let old := Tbl.get 0#64 s.wms sector
      let rcd := Tbl.find s.recs sector
      let keeps := atomic && ((bit old 7 && bits old 9 8 == 3) || rcd.isSome)
      let kind := if q.head || keeps then 3 else if atomic then 2 else if q.ord = .weak then 0 else 1
      let new := mkWm (s.epochOf g) q.gs (s.incOf q.gs) g.chk kind (quartersWhole covered)
      let s1 := { s with wms := Tbl.put s.wms sector (recordWm old new) }
      let s2 := if kind = 3 then s1.tickRc q.gs else s1
      if q.head then
        (match Tbl.find s2.groups q.gs with
         | some g => s2.putRec sector recSet (s2.mkRec q.gs g)
         | none => s2)
      else if atomic then s2
      else { s2 with recs := Tbl.del s2.recs sector }

/-- What a check at the home leads to: the write performs with a verdict, is returned unperformed, faults. -/
inductive Check where
  | go (v : Verdict)
  | back
  deriving DecidableEq, Repr

/-- R114 at the home for a request's sector. -/
def State.homeCheck (s : State) (q : Req) (g : Group) (sector : Nat) (strong : Bool) : Check :=
  let wm := Tbl.get 0#64 s.wms sector
  if !s.checked q sector || q.mode = 0#2 then .go .pass
  else
    match q.verified with
    | some v => if v = wm then .go (if q.verdict = 2 then .race else if q.verdict = 1 then .unverified else .pass) else .back
    | none => if s.homePasses q g wm strong then .go .pass else .back

/-- A write is returned unperformed with the watermark; after its third return the sector is held for it (04, R114). -/
def State.returnWrite (s : State) (id : Nat) (q : Req) (sector : Nat) : State :=
  let s1 := s.updReq id fun q =>
    { q with stage := .unperformed, wms := [(sector, Tbl.get 0#64 s.wms sector)], returns := q.returns + 1 }
  if 3 ≤ q.returns + 1 then { s1 with holds := Tbl.put s1.holds sector (id, s.clock) } else s1

/-- The sector of a request for writes. -/
def Req.sector (q : Req) : Nat := (q.accs.head?.map fun a => a.pa / 64).getD 0

/-- The old and new values of an atomic operation of `n` bytes (12, R300 Table 3). -/
def atomNew (op : AOp) (n : Nat) (old b c : Nat) : Nat :=
  let w := 8 * n
  match op with
  | .add => (old + b) % 2 ^ w
  | .and => Nat.land old b
  | .or => Nat.lor old b
  | .xor => Nat.xor old b
  | .min => if signed w b < signed w old then b else old
  | .max => if signed w old < signed w b then b else old
  | .exch => b
  | .cas => if old = b then c else old
/-- The new value of a RED (12, R301 Table 4). -/
def redNew (op : ROp) (n : Nat) (old b : Nat) : Nat :=
  let w := 8 * n
  match op with
  | .add => (old + b) % 2 ^ w
  | .and => Nat.land old b
  | .or => Nat.lor old b
  | .xor => Nat.xor old b
  | .smin => if signed w b < signed w old then b else old
  | .smax => if signed w old < signed w b then b else old
  | .umin => min old b
  | .umax => max old b
  | .fadd => f32.add .rne old b

/-- The value at an access's places. -/
def State.placeVal (s : State) (a : LaneAcc) : Nat :=
  ofBytes (a.locs.flatMap fun x => match x with
    | .mem pa => s.rdBytes pa a.len
    | .ls c p _ => s.lsBytes c p a.len)

/-- The new value that a request's operation gives an access. -/
def Req.newVal (q : Req) (a : LaneAcc) (old : Nat) : Nat := match q.kind with
  | .atom _ sz op => atomNew op sz.bytes old (a.data.toNat % 2 ^ (8 * sz.bytes)) (a.alt.toNat % 2 ^ (8 * sz.bytes))
  | .red sz op => redNew op sz.bytes old (a.data.toNat % 2 ^ (8 * sz.bytes))
  | _ => a.data.toNat

/-- The lanes of an atomic in the order in which they perform: unpredictable where several name one location (03, R73). -/
def State.laneOrder (s : State) (l : List LaneAcc) : List LaneAcc × State :=
  if (l.map LaneAcc.pa).eraseDups.length = l.length then (l, s)
  else (sortBy (fun a => Config.freeKey s.free a.lane) l, { s with free := s.free + 1 })

/-- The value that a lane of an atomic reads: in re-execution the logged one, for the low 64 bits (17, R403). -/
def State.atomTake (s : State) (q : Req) (a : LaneAcc) : Nat × State :=
  let old := s.placeVal a
  match Tbl.find s.groups q.gs with
  | none => (old, s)
  | some g =>
    match s.gate (s.spidOf g) 1 a.lane (s.nameOf g) q.rwc a.pa with
    | .take ix v =>
      ((match q.kind with
        | .atom _ _ _ => old - old % 2 ^ 64 + v.toNat % 2 ^ (8 * min 8 (a.len * a.locs.length))
        | _ => old), s.useEvent (s.spidOf g) ix)
    | .part ix =>
      (old, s.parting (s.spidOf g) q.gs q.at_ ix (eventWords 1 a.lane (s.nameOf g).1 (s.nameOf g).2.1 (s.nameOf g).2.2 0 q.rwc
        (BitVec.ofNat 64 a.pa) 0#64))
    | _ => (old, s)

/-- One lane of an atomic performs: the logged event, the old value taken (17, R400, KIND 0x01). `put` writes cells. -/
def State.atomLane (put : State → List (Nat × Byte) → State) (q : Req) (s : State) (a : LaneAcc) : State × LaneAcc :=
  let t := s.atomTake q a
  let old := t.1
  let s1 := put t.2 (accCells [{ a with data := BitVec.ofNat 128 (q.newVal a old) }])
  let s2 := (match Tbl.find s.groups q.gs with
    | some g => s1.logGroup g 1 a.lane q.rwc a.pa (match q.kind with
        | .red _ _ => 0#64
        | _ => BitVec.ofNat 64 (old % 2 ^ 64))
    | none => s1)
  (s2, { a with got := BitVec.ofNat 128 old, perf := true })

/-- The lanes of an atomic, one after another. -/
def State.atomLanes (put : State → List (Nat × Byte) → State) (s : State) (q : Req) : State × List LaneAcc :=
  let o := s.laneOrder q.accs
  o.1.foldl (fun (r : State × List LaneAcc) a => let x := r.1.atomLane put q a; (x.1, r.2 ++ [x.2])) (o.2, [])

/-- Every lane of an atomic may take its turn under re-execution (17, R403). -/
def State.atomTurn (s : State) (q : Req) : Bool :=
  match Tbl.find s.groups q.gs with
  | none => true
  | some g => q.accs.all (fun a => match s.gate (s.spidOf g) 1 a.lane (s.nameOf g) q.rwc a.pa with
    | .hold => false
    | _ => true)

/-- A request's write, or the lanes of its atomic, performs at a sector's home once the checks let it (04, R114). The
request then holds what the home answers. -/
def State.doWrite (s : State) (id : Nat) (q : Req) (v : Verdict) : State :=
  let sector := q.sector
  let cached := q.accs.any (fun a => !a.unc)
  let put := fun (s : State) (c : List (Nat × Byte)) => (s.homeWrite q.spid q.part cached c).spoil c
  let s0 := if s.checked q sector then s.countCheck q.spid v else s
  let odd := s.clashes q q.accs
  let covered := coverOf q.accs sector
  match q.kind with
  | .drop =>
    -- the sector's bytes become undefined, its line's copies and watermarks go (12, R298)
    let line := sector / 2
    let s1 := (s0.undo q.spid line).blur (sector * 64) 64
    let s2 := (s1.clearSector sector).dropCopies line
    let s3 := (match Tbl.find s2.l2 line with
      | some e =>
        let left := e.valid &&& ~~~(secBit sector)
        if left = 0#2 then { s2 with l2 := Tbl.del s2.l2 line }
        else { s2 with l2 := Tbl.put s2.l2 line { e with valid := left, dirty := e.dirty &&& left, dirs := 0#4 } }
      | none => s2)
    (s3.l1Drop q.core line).updReq id fun q => { q with stage := .performed, accs := q.accs.map fun a => { a with perf := true } }
  | .append _ e =>
    let s1 := (put s (cellsAt ((q.accs.head?.map LaneAcc.pa).getD 0) (wordBytes e))).clearSector sector
    ((s1.blurAll odd).noteStrong q sector).updReq id fun q => { q with stage := .performed, accs := q.accs.map fun a => { a with perf := true } }
  | .atom _ _ _ | .red _ _ =>
    let r := (s0.blurAll odd).atomLanes put q
    let s1 := r.1.recordSector q sector true covered
    let s2 := s1.l1Drop q.core (sector / 2)
    let s3 := (s2.blurAll odd).noteStrong q sector
    let s4 := if q.acquires then s3.acquireL1 q.core q.sco else s3
    let rcd := Tbl.find s.recs sector
    let wm := Tbl.get 0#64 s.wms sector
    s4.updReq id fun q =>
      { q with
        accs := r.2
        stage := (match q.kind with
          | .red _ _ => .performed
          | _ => .answered)
        recs := q.recs ++ rcd.toList
        recMiss := q.recMiss || (bit wm 7 && bits wm 9 8 == 3 && rcd.isNone) }
  | _ =>
    let cells := accCells q.accs
    let s1 := put s0 cells
    let s2 := s1.recordSector q sector false covered
    let s3 := s2.l1Update q.core cells
    ((s3.blurAll odd).noteStrong q sector).updReq id fun q => { q with stage := .performed, accs := q.accs.map fun a => { a with perf := true } }

/-- The spill areas that a request has written into (07, R189). -/
def State.spillHits (s : State) (q : Req) : State := q.accs.foldl (fun s a => s.spillHit q.spid a.ga.toNat) s

/-- A write, atomic or discard arrives at its sector's home (03, R81; 04, R114, R117). -/
def State.writeSector (s : State) (id : Nat) (q : Req) : State :=
  -- the write for which its sector was held has come (04, R114)
  let s := { s with holds := s.holds.filter (fun h => h.2.1 != id) }
  match Tbl.find s.groups q.gs with
  | none => s.dropReq id
  | some g =>
    let strong := q.ord != .weak
    let plain := (match q.kind with
      | .append _ _ => true
      | _ => false)
    let bad := q.accs.filter (fun a => s.mixed q g a)
    if !bad.isEmpty then
      s.lateFault id q { code := 0x0C, lanes := q.faultLanes (bad.map (·.lane)), addr := (bad.head?.map (·.ga)).getD 0#64 }
    else
      let hurt := q.accs.filter (fun a => match q.kind with
        | .atom _ _ _ | .red _ _ => s.poisoned a.pa a.len
        | .drop | .append _ _ => false
        | _ => s.poisoned a.pa a.len && decide (a.len < 4))
      if !hurt.isEmpty then
        s.lateFault id q { code := 0x28, lanes := q.faultLanes (hurt.map (·.lane)), addr := (hurt.head?.map (·.ga)).getD 0#64 }
      else
        match if plain then .go .pass else s.homeCheck q g q.sector strong with
        | .back => s.returnWrite id q q.sector
        | .go v => if s.raceBars id q g then s else (s.doWrite id q v).spillHits q

/-! ### Packets of agents at a home (05, R126) -/

/-- The new value of an agent's read-modify-write. -/
def Rmw.value (op : Rmw) (n old b c : Nat) : Nat := match op with
  | .atom op => atomNew op n old b c
  | .sum => f32.add .rne old b

/-- The recording contexts whose partition holds an address: their intervals note the host's write, which is undone with
theirs (17, R395, R396, R399). [DEDUCED, log entry 91] -/
def State.hostTouches (s : State) (pa : Nat) : State :=
  (s.spaces.filter (fun p => p.2.records && ((Tbl.find s.parts p.2.part).map fun q => q.holds pa).getD false)).foldl (fun s p =>
    let s1 := s.undo p.1 (pa / 128)
    if (s1.space p.1).host then s1 else (s1.updSpace p.1 fun p => { p with host := true }).putDbg p.1) s

/-- The partition that holds an address. -/
def State.partAt (s : State) (pa : Nat) : Nat := ((s.parts.find? (fun p => p.2.holds pa)).map (·.1)).getD 0

/-- A write or read-modify-write of an agent performs at its home: the group for which it works leaves its watermark, the other
agents clear the sector's (04, R101, R115). An uncorrectable word fails a read-modify-write (16, R386). -/
def State.agentSector (s : State) (id : Nat) (q : Req) : State :=
  let sector := q.sector
  let s := if 772 ≤ q.core then s.hostTouches (64 * sector) else s
  -- a spill log lies in a save area, which no interval undoes (17, R395)
  let spid := if q.logs then noSpace else q.spid
  let put := fun (s : State) (l : List LaneAcc) => (s.homeWrite spid q.part (q.accs.any (!·.unc)) (accCells l)).spoil (accCells l)
  match q.kind with
  | .rmw _ op =>
    let bad := q.accs.any (fun a => s.poisoned a.pa a.len)
    let done := q.accs.map fun a =>
      let old := s.placeVal a
      { a with got := BitVec.ofNat 128 old, data := BitVec.ofNat 128 (op.value a.len old a.data.toNat a.alt.toNat), perf := true
               err := if bad then 0x28 else 0 }
    let s1 := if bad then s else ((put s done).clearSector sector).noteStrong q sector
    s1.updReq id fun q => { q with accs := done, stage := .performed }
  | .put _ who =>
    let s1 := put s q.accs
    let s2 := (match who with
      | some gs => s1.recordSector { q with gs, kind := .store, ord := .weak } sector false (coverOf q.accs sector)
      | none => (((q.accs.map fun (a : LaneAcc) => a.pa / 64).eraseDups).foldl State.clearSector s1).noteStrong q sector)
    s2.updReq id fun q => { q with stage := .performed, accs := q.accs.map fun a => { a with perf := true } }
  | _ => s

/-! ### Writes of local store -/

/-- A write or atomic that nothing keeps performs at a bank, with its count of checks and its segments' watermarks; it
stays where the Felt has no room. A release there raises RC too, though it records no KIND. [DEDUCED, log entry 108; DESIGN CHOICE, log
entry 133] -/
def State.bankGo (s : State) (id : Nat) (q : Req) (core owner : Nat) (atomic : Bool) (segs : List (Nat × Nat)) (weak : Bool)
    (vs : List (Nat × Verdict)) : State :=
  let s0 := vs.foldl (fun s v => s.countCheck q.spid v.2) s
  let r := if atomic then s0.atomLanes (fun s c => s.lsPut core c) q else (s0, q.accs.map fun a => { a with perf := true })
  let cells := if atomic then
      q.accs.flatMap fun a => a.locs.flatMap fun x => cellsAt x.pa (r.1.lsBytes core x.pa a.len)
    else accCells q.accs
  match r.1.lsWrite core [.own q.gs] cells with
  | none => s.feltNeed core
  | some s1 =>
    let s2 := segs.foldl (fun s x =>
      match weak, Tbl.find s.groups q.gs with
      | true, some g => s.setLsWm core x.1 (s.recordLs q.gs g owner (s.lsWm core x.1) (x.2 == 2 ^ 64 - 1))
      | _, _ => s.setLsWm core x.1 0#16) s1
    let s3 := if q.head then s2.tickRc q.gs else s2
    let s4 := if atomic && q.acquires then s3.acquireL1 core q.sco else s3
    s4.updReq id fun q =>
      { q with accs := r.2, stage := match q.kind with
          | .atom _ _ _ => .answered
          | _ => .performed }

/-- A write or atomic performs at a local-store bank: the check of a weak store (04, R112, R114), a broken subscriber
region (06, R167), an uncorrectable word (16, R386), the write with what the Felt forwards (06, R160), the watermarks
(04, R101, R104). Where the Felt has no room the write waits. -/
def State.writeBank (s : State) (id : Nat) (q : Req) (core owner : Nat) : State :=
  match Tbl.find s.groups q.gs with
  | none => s.dropReq id
  | some g =>
    let atomic := (match q.kind with
      | .atom _ _ _ | .red _ _ => true
      | _ => false)
    let brk := q.accs.filter (fun a => s.broken core a.pa a.len)
    let hurt := q.accs.filter (fun a => if atomic then s.lsBad core a.pa a.len else s.lsBadPart core (accCells [a]))
    let segs := bankSegs q.accs
    let weak := q.ord == .weak && !atomic && !q.sup
    let vs := s.bankVerdicts q g core owner
    match sortBy RaceAcc.lowest ((vs.filter (fun x => x.2 == .race)).map fun x => s.bankRace q core x.1) with
    | r :: t =>
      if q.mode = 1#2 then s.raceFault id q g (r :: t)
      else if q.verified.isSome then s.bankGo id q core owner atomic segs weak vs
      else if s.reportsFirst id q g r.lowest then s
      else
        -- report mode: one record for each raced segment, then the write performs (04, R120)
        let s1 := (r :: t).foldl (fun s r => s.appendRace q.spid (s.raceWords q.gs g r)) s
        (s1.updReq id fun q => { q with verified := some 0#64, verdict := 2 }).bankGo id { q with verified := some 0#64 } core owner atomic
          segs weak vs
    | [] =>
      if s.raceBars id q g then s
      else if !brk.isEmpty then
        s.lateFault id q { code := 0x12, lanes := q.faultLanes (brk.map (·.lane)), addr := (brk.head?.map (·.ga)).getD 0#64 }
      else if !hurt.isEmpty then
        s.lateFault id q { code := 0x28, lanes := q.faultLanes (hurt.map (·.lane)), addr := (hurt.head?.map (·.ga)).getD 0#64 }
      else s.bankGo id q core owner atomic segs weak vs

end Sys2Proof.Machine
end

