-- ==== Sys2Proof/Machine/Engine.lean ====
section
/-! DEFINITION. What the asynchronous engines share: translation without parking the group (12, R305), reads and writes of
memory and local store with the issuing group's watermark (04, R115; 03, R96), bytes left undefined, the operations as
their batches know them (03, R94, R95). -/

namespace Sys2Proof.Machine

/-- For whom an engine works: the issuing group's slot, its space, generation, partition and class, supervisor code, the issuing
word, the operation. -/
structure Agent where
  gs   : Nat
  wg   : Nat
  spid : Nat
  gen  : Byte
  part : Nat
  cls  : Nat
  sup  : Bool
  pc   : W64
  tag  : Nat
  deriving DecidableEq, Repr

/-- The agent of a group's operation. -/
def State.agentOf (s : State) (gs wg : Nat) (sup : Bool) (pc : W64) (tag : Nat) : Agent :=
  let grid := (Tbl.find s.wgs wg).bind fun w => Tbl.find s.grids w.grid
  ⟨gs, wg, (grid.map (·.spid)).getD 0, (grid.map (·.sgen)).getD 0#8, (grid.map (·.part)).getD 0, (grid.map (·.cls)).getD 1, sup, pc, tag⟩

/-- What an engine's address comes to. -/
inductive EngTr where
  | ok (loc : Loc) (uncached : Bool)
  | bad (code det : Nat)
  | miss (va : Nat)
  | member
  deriving DecidableEq, Repr

/-- A global virtual address for an engine: a first-touch page fails with detail 0x03 (12, R305). -/
def State.engGlobal (s : State) (a : Agent) (acc : Acc) (va : Nat) : EngTr :=
  match (s.lb (lbOf a.gs)).engWalks.find? (fun x => x.1 == a.spid && x.2.1 == a.gen && x.2.2.1 == va / 2 ^ 16) with
  | some (_, _, _, 3) => .bad 0x09 0x04
  | some (_, _, _, 5) => .bad 0x09 0x05
  | some _ => .bad 0x09 0x03
  | none =>
    match s.tlbFind a.gs a.spid a.gen va with
    | some e =>
      (match pteLacks e.pte acc a.sup with
       | some d => .bad 0x0A d
       | none =>
         let pa := ptePa e.pte + (va - e.va)
         if s.paExists pa then .ok (.mem pa) (bits e.pte 7 6 == 1) else .bad 0x09 0x09)
    | none => .miss va

/-- A byte of the local store of a member of the agent's gang. -/
def State.engLocal (s : State) (a : Agent) (m off : Nat) : EngTr :=
  match Tbl.find s.wgs a.wg with
  | none => .bad 0x0A 0x04
  | some w =>
    let id := if m = 0 then some a.wg else s.memberWg w m
    match id.bind fun i => (Tbl.find s.wgs i).map fun o => (i, o) with
    | none => .member
    | some (i, o) => if m ≠ 0 ∧ !o.reachable then .member else .ok (.ls o.core (o.lsBase + off) i) false

/-- An address of a captured run lies on a page of ATTR 1 (01, R21). -/
def Run.uncached (r : Run) (va : Nat) : Bool := r.unc.any (fun x => decide (x.1 ≤ va) && decide (va < x.1 + x.2))

/-- An extent-space address, through the runs captured at launch (01, R33, R34). -/
def State.engExtent (s : State) (a : Agent) (ga : Nat) : EngTr :=
  let ext := (Tbl.find s.wgs a.wg).bind fun w => (Tbl.find s.grids w.grid).bind fun g => g.extents[ga / 2 ^ 60]?
  let off := ga % 2 ^ 48
  match ext.bind fun e => e.runs.find? (fun r => decide (r.va ≤ e.base + off) && decide (e.base + off < r.va + r.len)) with
  | none => .bad 0x0A 0x07
  | some r =>
    let va := ((ext.map (·.base)).getD 0) + off
    if s.paExists (r.pa + (va - r.va)) then .ok (.mem (r.pa + (va - r.va))) (r.uncached va) else .bad 0x09 0x09

/-- A generic address for an engine; with `ext`, extent-space addresses are taken. -/
def State.engTrans (s : State) (a : Agent) (acc : Acc) (ext : Bool) (ga : Nat) : EngTr :=
  if ext && ga / 2 ^ 48 % 2 ^ 12 == 0xE00 then s.engExtent a ga
  else if 2 ^ 56 ≤ ga then .bad 0x09 0x01
  else if ga < physWin then s.engGlobal a acc ga
  else if ga < localWin then
    (if !a.sup then .bad 0x0A 0x03
     else if s.paExists (ga - physWin) then .ok (.mem (ga - physWin)) true else .bad 0x09 0x09)
  else if ga < localWin + 2 ^ 24 then s.engLocal a ((ga - localWin) / 2 ^ 20) ((ga - localWin) % 2 ^ 20)
  else .bad 0x09 0x02

/-- A miss of an engine is queued at the issuing lane block, once (01, R26; 12, R305). -/
def State.engMiss (s : State) (a : Agent) (acc : Acc) (va : Nat) : State :=
  let same : Miss → Bool := fun m => m.va / 2 ^ 16 == va / 2 ^ 16 && m.spid == a.spid && m.gen == a.gen
  let b := s.lb (lbOf a.gs)
  if (b.walk.map fun r => same r.miss).getD false then
    s.updLb (lbOf a.gs) fun b => { b with walk := b.walk.map fun r => { r with miss := { r.miss with eng := true } } }
  else if b.misses.any same then
    s.updLb (lbOf a.gs) fun b => { b with misses := b.misses.map fun m => if same m then { m with eng := true } else m }
  else
    s.updLb (lbOf a.gs) fun b =>
      { b with misses := b.misses ++ [{ va, access := acc.code, sup := a.sup, spid := a.spid, gen := a.gen, groups := [], eng := true }] }

/-- What a failed walk left is used up. -/
def State.engUsed (s : State) (a : Agent) (va : Nat) : State :=
  s.updLb (lbOf a.gs) fun b => { b with engWalks := b.engWalks.filter (fun x => !(x.1 == a.spid && x.2.1 == a.gen && x.2.2.1 == va / 2 ^ 16)) }

/-! ### Reads and writes -/

/-- The outcome of an agent's access: done; not yet, with what it has sent meanwhile; failed with a cause. -/
inductive EngRes (α : Type) where
  | ok (x : α)
  | wait (s : State)
  | bad (code det : Nat)

/-- A sector that an engine may write now: no transaction or held write bars it. -/
def State.engFree (s : State) (pa n : Nat) : Bool :=
  !(s.locks.any (fun l => decide (l.1 < pa + n) && decide (pa < l.1 + 8))) &&
    !(s.holds.any (fun h => decide (64 * h.1 < pa + n) && decide (pa < 64 * h.1 + 64)))

/-- Another requester owns a line of some bytes. -/
def State.owned (s : State) (u pa n : Nat) : Bool :=
  s.owners.any (fun e => e.2 != u && decide (pa / 128 ≤ e.1) && decide (128 * e.1 < pa + n))
/-- Bytes that an agent is to read: another requester's ownership of their lines is recalled first (05, R124). -/
def State.agentReads {α : Type} (s : State) (u pa n : Nat) (k : State → EngRes α) : EngRes α :=
  if s.owned u pa n then .wait ((s.recallAll u pa n).getD s) else k s

/-- The bytes at a place, as an engine reads them. -/
def State.engRead (s : State) (u : Nat) (x : Loc) (n : Nat) : EngRes (List Byte) :=
  match x with
  | .mem pa => s.agentReads u pa n fun s => if s.poisoned pa n then .bad 0x28 0 else .ok (s.rdBytes pa n)
  | .ls c p _ => if s.broken c p n then .bad 0x12 0 else if s.lsBad c p n then .bad 0x28 0 else .ok (s.lsBytes c p n)

/-! ### Writes of agents (05, R124, R126) -/

/-- The operation that waits for a packet. -/
def Req.tag (q : Req) : Option Nat := match q.kind with
  | .put t _ | .rmw t _ => some t
  | _ => none
/-- The packet that an operation has sent to an address. -/
def State.sentTo (s : State) (u tag pa : Nat) : Option (Nat × Req) :=
  s.reqs.find? (fun e => e.2.core == u && e.2.tag == some tag && e.2.memAt == some pa && !e.2.gone)
/-- It is answered. -/
def Req.isAnswered (q : Req) : Bool := q.stage == .answered && q.serial.isNone

/-- A write of an agent at its home on the agent's own die, with its remote copies gone. -/
def State.agentPut (s : State) (x : Sender) (pa : Nat) (l : List Byte) : State :=
  let q := s.putPacket x pa l
  let s1 := (s.homeWrite x.spid x.part (!x.unc) (cellsAt pa l)).spoil (cellsAt pa l)
  let s2 := (match x.who with
    | some gs => s1.recordSector { q with gs, kind := .store } (pa / 64) false (cover (pa % 64) (min l.length (64 - pa % 64)))
    | none => (s1.clearSector (pa / 64)).noteStrong q (pa / 64))
  s2.dropCopies (pa / 128)

/-- Writes of an agent, each within a sector, all of them done or none yet: those to another die or module go as packets, the
others perform once they may and every packet is answered (05, R124, R126; 04, R114; 05, R142). -/
def State.agentAll (s : State) (x : Sender) (l : List (Nat × List Byte)) : EngRes State :=
  let far := l.filter (fun p => (s.remoteOwner x.unit p.1).isSome)
  let missing := far.filter (fun p => (s.sentTo x.unit x.tag p.1).isNone)
  if !missing.isEmpty then .wait (missing.foldl (fun s p => s.putReq (s.putPacket x p.1 p.2)) s)
  else if far.any (fun p => !(((s.sentTo x.unit x.tag p.1).map (·.2.isAnswered)).getD true)) then .wait s
  else
    let near := l.filter (fun p => (s.remoteOwner x.unit p.1).isNone)
    match near.foldl (fun (o : Option State) p => o.bind fun s =>
        if s.engFree p.1 p.2.length then s.recallAll x.unit p.1 p.2.length else none) (some s) with
    | none => .wait s
    | some s1 =>
      let s2 := far.foldl (fun s p => match s.sentTo x.unit x.tag p.1 with
        | some e => s.dropReq e.1
        | none => s) s1
      .ok (near.foldl (fun s p => s.agentPut x p.1 p.2) s2)

/-- A read-modify-write of an agent on `n` bytes: the old value (05, R82, R126). -/
def State.agentRmw (s : State) (x : Sender) (pa n : Nat) (op : Rmw) (b c : Nat) : EngRes (Nat × State) :=
  if (s.remoteOwner x.unit pa).isSome then
    match s.sentTo x.unit x.tag pa with
    | none => .wait (s.putReq (s.packetOf { x with strong := true } (.rmw x.tag op)
        [{ lane := 0, ga := 0#64, locs := [.mem pa], data := BitVec.ofNat 128 b, alt := BitVec.ofNat 128 c, len := n, unc := x.unc }] n))
    | some (id, q) =>
      if !q.isAnswered then .wait s
      else if q.accs.any (fun a => a.err != 0) then .bad 0x28 0
      else .ok (((q.accs.head?.map (·.got.toNat)).getD 0), s.dropReq id)
  else if !s.engFree pa n then .wait s
  else
    match s.recallAll x.unit pa n with
    | none => .wait s
    | some s1 =>
      if s1.poisoned pa n then .bad 0x28 0
      else
        let old := s1.rd pa n
        .ok (old, s1.agentPut { x with strong := true } pa (toBytes n (op.value n old b c)))

/-- Whose write an engine's operation makes: that of every group in whose batches it is (06, R163). -/
def Group.feltSrc (gs id : Nat) (g : Group) : Option FeltSrc :=
  [Cls.cp, .mx, .gc, .cl].findSome? fun k =>
    let c := g.cls k
    let has := fun (l : List OpRec) => l.any (fun o => o.id == id)
    if has c.opened then some (.batch gs k (c.last + 1#32)) else (c.closed.find? (fun b => has b.ops)).map fun b => .batch gs k b.num
def State.feltSrcs (s : State) (a : Agent) : List FeltSrc :=
  (((Tbl.find s.wgs a.wg).map (·.slots)).getD []).filterMap fun x => (Tbl.find s.groups x.2).bind (Group.feltSrc x.2 a.tag)

/-- Bytes written by an engine at a place, with the watermark of the issuing group, at most to the end of its sector of
memory; not yet where the write must wait (12, R305; 06, R160). -/
def State.engPut (s : State) (a : Agent) (x : Loc) (uncached : Bool) (l : List Byte) : EngRes State :=
  match x with
  | .mem pa =>
    s.agentAll { unit := coreOf a.gs, spid := a.spid, part := a.part, cls := a.cls, tag := a.tag, who := some a.gs, sup := a.sup, unc := uncached } [(pa, l)]
  | .ls c p o =>
    if s.broken c p l.length then .bad 0x12 0
    else if s.lsBadPart c (cellsAt p l) then .bad 0x28 0
    else
      match s.lsWrite c (s.feltSrcs a) (cellsAt p l) with
      | none => .wait s
      | some s1 =>
        (match Tbl.find s1.groups a.gs with
         | none => .ok s1
         | some g =>
           .ok ((segsOf (cellsAt p l)).foldl (fun s sg =>
             let whole := (List.range 64).all (fun i => decide (p ≤ sg * 64 + i) && decide (sg * 64 + i < p + l.length))
             s.setLsWm c sg (s.recordLs a.gs g o (s.lsWm c sg) whole)) s1))

/-- A Felt that has no room for an engine's write is asked to make room. -/
def State.engWait (s : State) (x : Loc) : State :=
  match x with
  | .ls c _ _ => if (s.core c).felt.isEmpty then s else s.feltNeed c
  | .mem _ => s

/-- A value's bytes in pieces that do not cross a sector. -/
def sectorPieces (pa : Nat) (l : List Byte) : List (Nat × List Byte) :=
  let first := 64 - pa % 64
  if l.length ≤ first then [(pa, l)]
  else (pa, l.take first) :: (List.range ((l.length - first + 63) / 64)).map fun i =>
    (pa + first + 64 * i, ((l.drop (first + 64 * i)).take 64))

/-! ### Walks without a walker routine (01, R20 to R23) -/

/-- What a walk finds: a leaf with its page's first virtual address, or a cause with its detail. -/
inductive Walk where
  | leaf (va size : Nat) (pte : W64)
  | bad  (code det : Nat)
  deriving DecidableEq, Repr

/-- The walk of one address from a table at a level. The root's entries from 896 on are never used: no page is there (01, R20).
[DESIGN CHOICE, log entry 127] -/
def State.walkFrom (s : State) (va : Nat) : Nat → Nat → Walk
  | table, lvl =>
    if physWin ≤ va then .bad 0x09 0x07
    else
    let at_ := table + 8 * (va / 2 ^ (16 + 10 * lvl) % 1024)
    if !s.paExists at_ then .bad 0x09 0x09
    else
      let pte := s.rd8 at_
      if !bit pte 0 then .bad 0x09 0x07
      else if pteMalformed pte lvl then .bad 0x09 0x04
      else if bit pte 1 then .leaf (va / pageSize lvl * pageSize lvl) (pageSize lvl) pte
      else
        match lvl with
        | 0 => .bad 0x09 0x04
        | l + 1 => s.walkFrom va (ptePa pte) l
termination_by structural _ lvl => lvl

/-! ### Undefined bytes -/

/-- Bytes of a place are left undefined (00, R8). -/
def State.smear (s : State) (x : Loc) (n : Nat) : State :=
  let bytes := (List.range n).map fun i => Config.freeByte (s.free + i)
  let s1 := { s with free := s.free + n }
  match x with
  | .mem pa => { s1 with mem := memPut s1.mem pa bytes }
  | .ls c p _ => s1.lsPut c (cellsAt p bytes)

/-- Bytes that an engine leaves undefined at an address, on a page that it may write whether or not the TLB holds it.
[DESIGN CHOICE, log entry 143] -/
def State.smearAt (s : State) (a : Agent) (ext : Bool) (ga n : Nat) : State :=
  let walked := fun (s : State) =>
    match s.walkFrom ga (s.space a.spid).ptroot.toNat 3 with
    | .leaf va _ pte =>
      let pa := ptePa pte + (ga - va)
      if (pteLacks pte .store a.sup).isNone && s.paExists pa then s.smear (.mem pa) n else s
    | .bad _ _ => s
  match s.engTrans a .store ext ga with
  | .ok x _ => s.smear x n
  | .miss _ => walked s
  | .bad 0x09 0x03 => walked s
  | _ => s

/-! ### Operations as their batches know them (03, R94, R95; 12, R306) -/

/-- Every operation record of a class, changed. -/
def ClsState.mapOps (c : ClsState) (f : OpRec → OpRec) : ClsState :=
  { c with opened := c.opened.map f, closed := c.closed.map fun b => { b with ops := b.ops.map f } }

/-- An operation joins the open batch of its class. -/
def Group.addOp (g : Group) (k : Cls) (o : OpRec) : Group := g.setCls k { g.cls k with opened := (g.cls k).opened ++ [o] }

/-- An operation of a group has finished. -/
def State.opDone (s : State) (gs : Nat) (k : Cls) (id : Nat) (f : OpRec → OpRec) : State :=
  s.updGroup gs fun g => g.setCls k ((g.cls k).mapOps fun o => if o.id = id then { f o with fin := true } else o)

end Sys2Proof.Machine
end

