-- ==== Sys2Proof/Machine/Atomic.lean ====
section
/-! DEFINITION. Class 8 but for the transactions: atomics, RED and REDO at their issue (12, R300 to R302; 05, R122 to
R125, R145 to R147). -/

namespace Sys2Proof.Machine

/-- A list cut into pieces of `n`; fuel is the list's length. -/
def chunksOf {α : Type} (n : Nat) : Nat → List α → List (List α)
  | 0, _ => []
  | _, [] => []
  | k + 1, l => l.take n :: chunksOf n k (l.drop n)

/-- Requests of an atomic or RED: for each home, packets of the lanes whose results fit in 64 bytes (05, R127). -/
def State.sendAtomics (s : State) (w : Word) (f : Info) (kind : ReqKind) (accs : List LaneAcc) (size : Nat) (ord : Ord)
    (sco : Sco) (once : Bool) : State :=
  let refs := f.dst.flatMap useRefs
  let q := { s.reqOf w kind accs size ord sco once (if tentative f then .held else .mesh) with
    head := w.heads ord, pend := refs }
  let s1 := (homesOf accs).foldl (fun s h =>
    let l := accs.filter (fun a => a.home == h)
    (chunksOf (64 / size) l.length l).foldl (fun s p => s.putReq { q with accs := p }) s) s
  let s2 := if accs.isEmpty then s1 else s1.pendOn w.gs refs
  s2.updGroup w.gs fun g => { g with chk := { g.chk with relFence := false } }

/-- The accesses of an atomic: each lane's places as one, its operand and the new value of CAS. -/
def atomAccs (n : Nat) (data alt : Nat → Nat) (l : List LaneTr) : List LaneAcc :=
  l.map fun x =>
    { lane := x.lane, ga := x.ga, locs := x.locs, len := n / max 1 x.locs.length
      data := BitVec.ofNat 128 (data x.lane), alt := BitVec.ofNat 128 (alt x.lane), unc := x.uncached }

/-- ATOM (12, R300). -/
def execAtom (h : Hdr) (d a b c : Reg) (op : AOp) (sz : Sz) (ord : Ord) (sco : Sco) (s : State) : Out :=
  s.issue (.atom h d a b c op sz ord sco) fun w s => match Instr.info (.atom h d a b c op sz ord sco) with
    | some f =>
      let once := infoOnce f
      let addrs := (w.perf once).map fun L => (L, BitVec.ofNat 64 (w.src 0 L))
      s.access w once .atomic sz.bytes addrs fun l =>
        .done ((s.sendAtomics w f (.atom d sz op) (atomAccs sz.bytes (w.src 1) (w.src 2) l) sz.bytes ord sco once).popResult w f)
    | none => .done s

/-- RED (12, R301). -/
def execRed (h : Hdr) (d : Reg) (m : MemOp) (op : ROp) (s : State) : Out :=
  s.issue (.red h d m op) fun w s => match Instr.info (.red h d m op) with
    | some f =>
      let once := infoOnce f
      let n := m.sz.bytes
      s.access w once .atomic n (w.addrs once m) fun l =>
        .done ((s.sendAtomics w f (.red m.sz op) (atomAccs n (w.src 2) (fun _ => 0) l) n m.ord m.sco once).popResult w f)
    | none => .done s

/-! ### REDO (05, R145 to R147; 12, R302) -/

/-- The entry slots that `k` appends take from the ranges that a core has reserved, and what is left of these (05, R147). -/
def redoSlots : Nat → List (Nat × Nat) → List Nat × List (Nat × Nat)
  | 0, l => ([], l)
  | _ + 1, [] => ([], [])
  | k + 1, (a, b) :: t =>
    let r := redoSlots k (if a + 1 < b then (a + 1, b) :: t else t)
    (a :: r.1, r.2)

/-- The words of a reduction-log entry (05, R146 Table 9). -/
def redoEntry (pa value seq origin wgidx : Nat) : List W64 :=
  [BitVec.ofNat 64 (2 ^ 63 + fld 52 0 pa), BitVec.ofNat 64 (fld 32 32 value + fld 24 8 seq + fld 5 3 origin),
   BitVec.ofNat 64 wgidx, BitVec.ofNat 64 (fld 5 59 (origin / 32))]

/-- A target in the local-store window is a translation fault (05, R145). -/
def redoTarget (x : LaneTr) : LaneTr :=
  if localWin ≤ x.ga.toNat ∧ x.ga.toNat < localWin + 2 ^ 24 ∧ x.tr ≠ .bad 0x08 0 then { x with tr := .bad 0x09 0x0A } else x

/-- The tag of a core's reservation for a grid's log. -/
def chunkTag (gid : Nat) : Nat := 2 ^ 40 + gid

/-- Entry slots for `k` appends of a core: where too few are left, a chunk of 64 is reserved by an atomic add on WIDX, which is a
packet with a serial (05, R126, R147). It is `none` where the chunk that came back extends beyond CAP. [DEDUCED, log entry 12] -/
def State.reserve (s : State) (w : Word) (gid : Nat) (grid : Grid) (hdr k : Nat) : EngRes (Option State) :=
  let core := coreOf w.gs
  let cap := ((grid.word 0x50).toNat - 64) / 32
  let mine := Tbl.get [] grid.chunks core
  if k ≤ (mine.map fun r => r.2 - r.1).sum then .ok (some s)
  else
    match s.sentTo core (chunkTag gid) hdr with
    | none => .wait (s.putReq (s.packetOf { unit := core, spid := grid.spid, part := grid.part, cls := grid.cls, sup := true, strong := true }
        (.rmw (chunkTag gid) (.atom .add)) [{ lane := 0, ga := 0#64, locs := [.mem hdr], data := 64#128, len := 8 }] 8))
    | some (id, q) =>
      if !q.isAnswered then .wait s
      else if q.accs.any (fun a => a.err != 0) then .bad ((q.accs.head?.map (·.err)).getD 0) 0
      else
        let i := (q.accs.head?.map (·.got.toNat)).getD 0
        let s1 := s.dropReq id
        .ok (if cap < i + 64 then none
          else some (s1.updGrid gid fun g => { g with chunks := Tbl.put g.chunks core (mine ++ [(i, i + 64)]) }))

/-- The appends of a REDO once its targets and the log's header are translated. -/
def State.redoAppend (s : State) (w : Word) (f : Info) (grid : Grid) (m : MemOp) (once : Bool) (hdr : Nat) (l : List LaneTr) :
    Eff :=
  let core := coreOf w.gs
  let gid := ((Tbl.find s.wgs w.g.wg).map (·.grid)).getD 0
  let whole : Mask := if once then w.act else maskOf fun L => l.any (fun x => x.lane == L)
  match s.reserve w gid grid hdr l.length with
  | .wait s1 => .wait .switchPark s1
  | .bad c d =>
    let sent := s.sentTo core (chunkTag gid) hdr
    .trap { code := c, det := d, lanes := whole, addr := if c = 0x24 then BitVec.ofNat 64 (hdr / 64 * 64) else grid.word 0x48
            info := ((sent.bind fun e => e.2.accs.head?).map fun a => if c = 0x24 then a.got.setWidth 64 else 0#64).getD 0#64 }
      (match sent with
       | some e => s.dropReq e.1
       | none => s)
  | .ok none => .trap { code := 0x13, lanes := whole }
      (match s.sentTo core (chunkTag gid) hdr with
       | some e => s.dropReq e.1
       | none => s)
  | .ok (some s1) =>
    let r := redoSlots l.length (Tbl.get [] (((Tbl.find s1.grids gid).map (·.chunks)).getD []) core)
    let log := (grid.word 0x48).toNat
    let ents := (l.zip r.1).map fun x =>
      let va := log + 64 + 32 * x.2
      (x.1, x.2, (⟨x.1.lane, BitVec.ofNat 64 va, s1.trans (w.ask .store) va 32 x.1.lane⟩ : LaneTr))
    s1.withLanes w once .store (ents.map (·.2.2)) fun _ =>
      let wgidx := s1.wgidOf w.g
      let s2 := s1.updGrid gid fun g => { g with chunks := Tbl.put g.chunks core r.2 }
      let s3 := ents.foldl (fun s x =>
        let L := x.1.lane
        let pa := (x.1.locs.head?.map Loc.pa).getD 0
        let seq := (Tbl.get 0#32 w.g.seq L).toNat
        let e := redoEntry pa (w.src 2 L % 2 ^ 32) seq (Tbl.get 0#10 w.g.origin L).toNat wgidx
        let q := { s.reqOf w (.append x.2.1 e) [{ lane := L, ga := x.1.ga, locs := x.2.2.locs, len := 32 }] 32 m.ord m.sco
            once (if tentative f then .held else .mesh) with head := w.heads m.ord }
        s.putReq q) s2
      let s4 := s3.updGroup w.gs fun g =>
        { g with
          seq := l.foldl (fun t x => Tbl.put t x.lane (Tbl.get 0#32 t x.lane + 1#32)) g.seq
          chk := { g.chk with relFence := false } }
      .done (s4.popResult w f)

/-- REDO (12, R302): the targets are translated as writes, then the log is needed. [DEDUCED, log entry 12] -/
def execRedo (h : Hdr) (d : Reg) (m : MemOp) (s : State) : Out :=
  s.issue (.redo h d m) fun w s => match Instr.info (.redo h d m) with
    | some f =>
      let once := infoOnce f
      let l := (w.addrs once m).map fun x =>
        redoTarget ⟨x.1, x.2, if x.2.toNat % 4 ≠ 0 then .bad 0x08 0 else s.trans (w.ask .store) x.2.toNat 4 x.1⟩
      s.withLanes w once .store l fun l =>
        match s.gridOf w.g with
        | none => .done s
        | some grid =>
          let log := grid.word 0x48
          let whole : Mask := if once then w.act else maskOf fun L => l.any (fun x => x.lane == L)
          let big := l.filter (fun x => decide (2 ^ 24 ≤ (Tbl.get 0#32 w.g.seq x.lane).toNat))
          if l.isEmpty then .done (s.popResult w f)
          else if log = 0#64 then .trap { code := 0x13, lanes := whole } s
          else if !big.isEmpty then
            .trap { code := 0x13, lanes := if once then w.act else maskOf fun L => big.any (fun x => x.lane == L) } s
          else
            s.withLanes w once .store [⟨(l.head?.map (·.lane)).getD 0, log, s.trans (w.ask .atomic) log.toNat 8 0⟩] fun hl =>
              s.redoAppend w f grid m once ((hl.head?.bind fun x => x.locs.head?.map Loc.pa).getD 0) l
    | none => .done s

end Sys2Proof.Machine
end

