-- ==== Sys2Proof/Machine/Control.lean ====
section
/-! DEFINITION. Class 5, control: the two program-counter slots, the join stack and the divergence spill stack, branches,
calls, merges, exits, REGION and YIELD (07, R185 to R189; 10, R258 to R268). -/

namespace Sys2Proof.Machine

/-! ### Stacks (07, R186 to R189) -/

/-- What a control word is about to do: the group as it leaves it, the stack entries it writes and reads in the spill area
by their offsets there, whether a stack overflows, the words that retire. -/
structure Plan where
  g : Group
  writes : List (Nat × List W64) := []
  reads  : List Nat := []
  past   : Bool := false
  n      : Nat := 1
  deriving DecidableEq, Repr

/-- A stack entry in memory (07, R189 Table 4). -/
def stackWords (pc : W64) (mask arr : Mask) : List W64 :=
  [BitVec.ofNat 64 (fld 56 0 pc.toNat), BitVec.ofNat 64 (fld 32 32 mask.toNat + arr.toNat)]

/-- A path goes onto the divergence spill stack: 128 entries from byte 0 of the spill area. -/
def Plan.pushSpill (p : Plan) (priv : Nat) (e : SpillEntry) : Plan :=
  let n := p.g.spill.length
  if priv = 0 ∨ 128 ≤ n then { p with past := true }
  else { p with g := { p.g with spill := e :: p.g.spill }, writes := p.writes ++ [(16 * n, stackWords e.pc e.mask 0#32)] }

/-- An entry goes onto the join stack; a fifth moves the lowest entry on chip to memory. -/
def Plan.pushJoin (p : Plan) (priv : Nat) (e : JoinEntry) : Plan :=
  let n := p.g.join.length
  let g := { p.g with join := e :: p.g.join }
  if n < 4 then { p with g }
  else if priv = 0 ∨ 128 ≤ n - 4 then { p with past := true }
  else
    match p.g.join[3]? with
    | some o => { p with g, writes := p.writes ++ [(2048 + 16 * (n - 4), stackWords o.rejoin o.mask o.arr)] }
    | none => { p with g }

/-- The top join entry leaves; an entry of memory comes back on chip. -/
def Plan.popJoin (p : Plan) : Plan :=
  let n := p.g.join.length
  { p with g := { p.g with join := p.g.join.drop 1 }
           reads := if 4 < n then p.reads ++ [2048 + 16 * (n - 5)] else p.reads }

/-- An emptied slot is given the top divergence entry, which is read from the spill area (07, R188); a first-touch handler
takes only entries of its own. -/
def Plan.popSpill (p : Plan) (b : Bool) : Plan :=
  match p.g.slot b, p.g.spill with
  | none, e :: t =>
    if p.g.refill.any (fun x => x.1 == b) || decide (p.g.spill.length ≤ (p.g.ft.map (·.sd)).getD 0) then p
    else { p with g := { p.g with spill := t, refill := p.g.refill ++ [(b, e)] }, reads := p.reads ++ [16 * t.length] }
  | _, _ => p

/-- The path that a slot holds, or will hold once its entry has been read. -/
def Group.path (g : Group) (b : Bool) : Option SpillEntry :=
  match g.slot b with
  | some p => some ⟨p.pc, p.mask⟩
  | none => (g.refill.find? (fun x => x.1 == b)).map (·.2)

/-- A path enters the slot that does not issue; what is there is pushed first (07, R186). -/
def Plan.enterOther (p : Plan) (priv : Nat) (b : Bool) (pc : W64) (mask : Mask) : Plan :=
  let p1 := (match p.g.path (!b) with
    | some e => p.pushSpill priv e
    | none => p)
  { p1 with g := { p1.g.setSlot (!b) (some { pc, mask }) with
      refill := p1.g.refill.filter (fun x => x.1 == b), parkA := if b then none else p1.g.parkA
      parkB := if b then p1.g.parkB else none } }

/-- A branch of some lanes of a slot to a target; the rest go on at `rest` (10, R259, R260). -/
def Plan.branch (p : Plan) (priv : Nat) (b : Bool) (slot : PcSlot) (act : Mask) (t rest : W64) : Plan :=
  let at_ := fun (g : Group) (pc : W64) (m : Mask) => g.setSlot b (some { slot with pc, mask := m })
  if act = slot.mask then { p with g := at_ p.g t slot.mask }
  else if act = 0#32 then { p with g := at_ p.g rest slot.mask }
  else { p with g := at_ p.g rest (slot.mask &&& ~~~act) }.enterOther priv b t act

/-- The accesses of a plan in the spill area, as the word's own (10, R267). -/
def State.stackTrs (s : State) (w : Word) (acc : Acc) (offs : List Nat) : List LaneTr :=
  let base := s.frameBase w.g + 32 * ((s.gridOf w.g).map Grid.priv).getD 0
  offs.map fun o => ⟨(laneList w.slot.mask).headD 0, BitVec.ofNat 64 (base + o), s.transGlobal (w.ask acc) (base + o)⟩

/-- A plan is carried out: a fault on a stack access, a cause of the word's own, a stack's overflow, or its effects. -/
def State.carry (s : State) (w : Word) (p : Plan) (own : Option Cause) : Eff :=
  let acts := if w.act = 0#32 then { w with act := w.slot.mask } else w
  let finish : Eff := (match own with
    | some c => .trap c s
    | none =>
      if p.past then .trap { code := 0x21, lanes := acts.act } s
      else .moved (s.updGroup w.gs fun _ => p.g) p.n)
  if p.writes.isEmpty && p.reads.isEmpty then finish
  else
    s.withLanes acts true .store (s.stackTrs w .store (p.writes.map (·.1))) fun l =>
      s.withLanes acts true .load (s.stackTrs w .load p.reads) fun _ =>
        match finish with
        | .moved s1 n =>
          let cells := l.zip (p.writes.map (·.2))
          .moved (cells.foldl (fun s x =>
            s.plainWrite (s.spidOf w.g) (s.partOf w.g) x.1.uncached ((x.1.locs.head?.map Loc.pa).getD 0) (wordBytes x.2)) s1) n
        | e => e

/-- The private bytes of a lane in the word's launch. -/
def State.privOf (s : State) (w : Word) : Nat := ((s.gridOf w.g).map Grid.priv).getD 0

/-! ### Branches -/

/-- The target of a Branch form (10, R258). -/
def branchTarget (pc : W64) (off : W32) : W64 := pc + 8#64 + 8#64 * off.signExtend 64

/-- BRA (10, R259). -/
def execBra (h : Hdr) (off : W32) (s : State) : Out :=
  s.issue (.bra h off) fun w s =>
    s.carry w (({ g := w.g } : Plan).branch (s.privOf w) w.b w.slot w.act (branchTarget w.slot.pc off) (w.slot.pc + 8#64)) none

/-- The common effect of BRX and RET (10, R260). -/
def State.branchRegs (s : State) (w : Word) : Eff :=
  let t := fun L => BitVec.ofNat 64 (w.src 0 L)
  let bad := w.lanes.filter (fun L => (t L).toNat % 8 != 0)
  let p : Plan := { g := w.g }
  match w.lanes with
  | [] => s.carry w (p.branch (s.privOf w) w.b w.slot 0#32 0#64 (w.slot.pc + 8#64)) none
  | L0 :: _ =>
    if !bad.isEmpty then .trap { code := 0x08, lanes := maskOf (bad.contains ·), addr := t (bad.headD 0) } s
    else
      let x := maskOf fun L => w.lanes.contains L && t L == t L0
      let rest := if w.act &&& ~~~x = 0#32 then w.slot.pc + 8#64 else w.slot.pc
      s.carry w (p.branch (s.privOf w) w.b w.slot x (t L0) rest) none

/-- BRX (10, R260). -/
def execBrx (h : Hdr) (a : Reg) (s : State) : Out := s.issue (.brx h a) fun w s => s.branchRegs w
/-- RET (10, R260). -/
def execRet (h : Hdr) (a : Reg) (s : State) : Out := s.issue (.ret h a) fun w s => s.branchRegs w

/-- CALL: the link, then the branch (10, R261). -/
def execCall (h : Hdr) (d : Reg) (off : W32) (s : State) : Out :=
  s.issue (.call h d off) fun w s =>
    let g := w.g.writes (w.put64 d fun _ => (w.slot.pc + 8#64).toNat)
    s.carry w (({ g } : Plan).branch (s.privOf w) w.b w.slot w.act (branchTarget w.slot.pc off) (w.slot.pc + 8#64)) none

/-! ### Joins -/

/-- MJOIN (10, R262). -/
def execMjoin (h : Hdr) (off : W32) (s : State) : Out :=
  s.issue (.mjoin h off) fun w s =>
    let p := ({ g := w.g } : Plan).pushJoin (s.privOf w)
      { rejoin := branchTarget w.slot.pc off, mask := w.slot.mask, arr := 0#32 }
    s.carry w { p with g := p.g.setSlot w.b (some { w.slot with pc := w.slot.pc + 8#64 }) } none

/-- JOIN: the slot's lanes arrive at the top entry; a complete arrival merges, and the JOIN words that led to it retire
then (10, R262; 07, R187; 17, R398). -/
def execJoin (h : Hdr) (s : State) : Out :=
  s.issue (.join h) fun w s =>
    let m := w.slot.mask
    match w.g.join with
    | [] => .trap { code := 0x01, lanes := m } s
    | e :: t =>
      if m &&& ~~~e.mask != 0#32 || m &&& e.arr != 0#32 then .trap { code := 0x01, lanes := m } s
      else if e.arr ||| m = e.mask then
        let p := ({ g := w.g } : Plan).popJoin
        s.carry w { p with g := p.g.setSlot w.b (some { pc := e.rejoin, mask := e.mask }), n := e.joins + 1 } none
      else
        let g := { w.g.setSlot w.b none with join := { e with arr := e.arr ||| m, joins := e.joins + 1 } :: t }
        s.carry w { ({ g } : Plan).popSpill w.b with n := 0 } none

/-! ### EXIT -/

/-- Lanes leave a group's paths and stacks (07, R188). -/
def Group.leave (g : Group) (m : Mask) : Group :=
  { g with
    live := g.live &&& ~~~m
    join := g.join.map fun e => { e with mask := e.mask &&& ~~~m, arr := e.arr &&& ~~~m }
    spill := g.spill.map fun e => { e with mask := e.mask &&& ~~~m }
    refill := g.refill.map fun e => (e.1, { e.2 with mask := e.2.mask &&& ~~~m }) }

/-- A path that a merge made is placed: in the slot that the EXIT emptied, else in a free slot, else on the spill stack. -/
def Plan.place (p : Plan) (priv : Nat) (b : Bool) (e : SpillEntry) : Plan :=
  if e.mask = 0#32 then p
  else if (p.g.path b).isNone then { p with g := p.g.setSlot b (some { pc := e.pc, mask := e.mask }) }
  else if (p.g.path (!b)).isNone then { p with g := p.g.setSlot (!b) (some { pc := e.pc, mask := e.mask }) }
  else p.pushSpill priv e

/-- The entries of memory that leave it when `k` of `n` join entries merge, the last pushed first (07, R189). -/
def refills (n k : Nat) : List Nat := (List.range ((n - 4) - (n - k - 4))).map fun i => 2048 + 16 * (n - 5 - i)

/-- EXIT of some lanes of a slot: the join entries that it completes merge, the emptied slot takes the top spill entry. -/
def Plan.exit (p : Plan) (priv : Nat) (b : Bool) (slot : PcSlot) (act : Mask) : Plan :=
  let m := slot.mask &&& ~~~act
  let g1 := p.g.leave act
  let g2 := g1.setSlot b (if m = 0#32 then none else some { slot with pc := slot.pc + 8#64, mask := m })
  let full := g2.join.filter (fun e => e.arr == e.mask)
  let p1 := { p with g := { g2 with join := g2.join.filter (fun e => e.arr != e.mask) }, n := 1 + (full.map JoinEntry.joins).sum
                     reads := p.reads ++ refills g2.join.length full.length }
  let p2 := full.foldl (fun p e => p.place priv b ⟨e.rejoin, e.mask⟩) p1
  (p2.popSpill b).popSpill (!b)

/-- EXIT (10, R263; 07, R188): a group with no live lane goes on to retire. -/
def execExit (h : Hdr) (s : State) : Out :=
  s.issue (.exit h) fun w s =>
    if w.act = 0#32 then .done s
    else
      let deep := w.lanes.filter (fun L => 0 < (w.g.txLane L).depth)
      let p := ({ g := w.g } : Plan).exit (s.privOf w) w.b w.slot w.act
      let g := if p.g.live = 0#32 then { p.g with retiring := true, exitPc := w.slot.pc, slotA := none, slotB := none, refill := [] } else p.g
      s.carry w { p with g }
        (if deep.isEmpty then none else some { code := 0x11, lanes := maskOf (deep.contains ·) })

/-! ### NOP, REGION, YIELD -/

/-- NOP (10, R264). -/
def execNop (h : Hdr) (s : State) : Out := s.issue (.nop h) fun _ s => .done s

/-- REGION (10, R265): in service mode it asks that the restart point be set at its own address once it is committed
(16, R389). [DEDUCED, log entry 113] -/
def execRegion (h : Hdr) (s : State) : Out :=
  s.issue (.region h) fun w s =>
    if s.service w.g && (w.g.path (!w.b)).isNone && !w.b && w.g.spill.isEmpty then
      .done (s.updGroup w.gs fun g => { g with regAsk := true })
    else .done s

/-- YIELD (10, R266): the status is logged (17, R400); with status 1 the group parks until it can be saved. -/
def execYield (h : Hdr) (d a b : Reg) (s : State) : Out :=
  s.issue (.yield h d a b) fun w s =>
    let a_ : At := ⟨w.slot.pc, s.rwcNow w.gs w.g, w.g.nissue, w.b⟩
    let status := if !w.g.preq then 0 else if (w.g.path (!w.b)).isSome then 2 else 1
    let write := fun (v : Nat) (s : State) => Eff.done (s.updGroup w.gs fun g => g.writes (w.put64 d fun _ => v))
    match s.gate (s.spidOf w.g) 5 0xFF (s.nameOf w.g) a_.rwc 0x100 with
    | .take ix v => write v.toNat (s.useEvent (s.spidOf w.g) ix)
    | .hold => .wait .switchPark s
    | .part ix => .again (s.parting (s.spidOf w.g) w.gs a_ ix (List.replicate 4 0#64))
    | .free =>
      let logged := s.logGroup w.g 5 0xFF a_.rwc 0x100 (BitVec.ofNat 64 status)
      if status ≠ 1 then write status logged
      else if (match w.slot.phase with
        | .saving _ _ => true
        | _ => false) then .wait .switchPark s
      else
        let range := (match a, b with
          | .v x, .v y => some (x.val, y.val)
          | _, _ => none)
        let dst := (match d with
          | .s n => some n.val
          | _ => none)
        .wait .switchPark (logged.updGroup w.gs fun g => g.setSlot w.b (some { w.slot with phase := .saving dst range }))

end Sys2Proof.Machine
end

