-- ==== Sys2Proof/Machine/Copy.lean ====
section
/-! DEFINITION. Class 9, copies and batches: CPY, CPYS, CPYX, BATCH, WAITB, WAITN at their issue, the copy engine's chunks,
the completion of batches (12, R304 to R307; 03, R94 to R96). -/

namespace Sys2Proof.Machine

/-! ### Checks at issue (12, R304, R305) -/

/-- The bytes from the first to the last of a copy's side. -/
def sideSpan (len rows pitch : Nat) : Nat := if len = 0 ∨ rows = 0 then 0 else (rows - 1) * pitch + len

/-- Local-store bounds of a side (12, R305). -/
def State.localSide (s : State) (w : Word) (m off span : Nat) : Option (Nat × Nat) :=
  if (s.gangOf w.g.wg).2 ≤ m then some (0x0A, 0x04)
  else if ((Tbl.find s.wgs w.g.wg).map (·.lsSize)).getD 0 < off + span then some (0x0A, 0x05)
  else none

/-- The bits and windows of a side of CPY and CPYS; the walker routine may name physical addresses alone (01, R28). -/
def State.copySide (s : State) (w : Word) (ga span : Nat) : Option (Nat × Nat) :=
  if 2 ^ 56 ≤ ga then some (0x09, 0x01)
  else if isWalker w.gs && !(decide (physWin ≤ ga) && decide (ga < localWin)) then some (0x09, 0x05)
  else if ga < physWin then none
  else if ga < localWin then (if w.sup then none else some (0x0A, 0x03))
  else if ga < localWin + 2 ^ 24 then s.localSide w ((ga - localWin) / 2 ^ 20) ((ga - localWin) % 2 ^ 20) span
  else if privWin ≤ ga ∧ ga < privWin + 2 ^ 32 then some (0x09, 0x0A)
  else some (0x09, 0x02)

/-- A side of CPYX: an extent-space address or one of a local-store window (01, R15, R33). -/
def State.extSide (s : State) (w : Word) (write : Bool) (ga span : Nat) : Option (Nat × Nat) :=
  if 2 ^ 56 ≤ ga then
    if ga / 2 ^ 48 % 2 ^ 12 ≠ 0xE00 then some (0x09, 0x02)
    else if isWalker w.gs then some (0x09, 0x05)
    else
      match (s.gridOf w.g).bind fun g => g.extents[ga / 2 ^ 60]? with
      | none => some (0x0A, 0x07)
      | some e =>
        if e.len < ga % 2 ^ 48 + span then some (0x0A, 0x07)
        else if write && !e.rw then some (0x0A, 0x08) else none
  else if physWin ≤ ga ∧ ga < localWin then (if w.sup then some (0x09, 0x0A) else some (0x0A, 0x03))
  else if isWalker w.gs then some (0x09, 0x05)
  else if localWin ≤ ga ∧ ga < localWin + 2 ^ 24 then
    s.localSide w ((ga - localWin) / 2 ^ 20) ((ga - localWin) % 2 ^ 20) span
  else some (0x09, 0x0A)

/-- The first cause of a copy's sides, each given with its address: the least code. [DEDUCED, log entry 15] -/
def sideCause (w : Word) (l : List (Nat × Option (Nat × Nat))) : Option Cause :=
  match leastOf (l.filterMap fun x => x.2.map (·.1)) with
  | none => none
  | some c => (l.find? (fun x => (x.2.map (·.1)) == some c)).map fun x =>
      { code := c, det := (x.2.map (·.2)).getD 0, lanes := w.act, addr := BitVec.ofNat 64 x.1 }

/-! ### Issue -/

/-- A copy enters its core's engine queue and the open batch of its class (12, R304, R307). -/
def State.enterCopy (s : State) (w : Word) (k : Cls) (ext : Bool) (dst src len rows sp dp : Nat) (ixs : List Nat) : Eff :=
  let core := coreOf w.gs
  let nothing := len = 0 ∨ rows = 0 ∨ ixs.isEmpty
  let id := s.newId
  if nothing then
    .done (id.2.updGroup w.gs fun g => g.addOp k { id := id.1, pc := w.slot.pc, fin := true, done := if ixs.isEmpty then 0#16 else 1#16 })
  else if s.opWaits w.gs w.g.wg then .wait .switchPark s
  else if 256 ≤ (s.core core).cpq.length then .wait .batchWait s
  else
    let op : CopyOp :=
      { id := id.1, cls := k, gs := w.gs, wg := w.g.wg, pc := w.slot.pc, dst := BitVec.ofNat 64 dst, src := BitVec.ofNat 64 src
        len, rows, sp, dp, tgts := ixs.map fun i => { ix := i }, ext, sup := w.sup }
    .done ((id.2.updCore core fun c => { c with cpq := c.cpq ++ [op] }).updGroup w.gs fun g =>
      g.addOp k { id := id.1, pc := w.slot.pc })

/-- CPY and CPYX: the operands of Table 6, the shape word of Table 7. [DEDUCED, log entry 15; DESIGN CHOICE, log
entry 145] -/
def State.copyWord (s : State) (w : Word) (ext : Bool) (c : Reg) : Eff :=
  let src := w.src 0 0
  let len := w.src 1 0 % 2 ^ 32
  let dst := w.src 3 0
  let shape := BitVec.ofNat 64 (w.src 2 0)
  let rows := if c = .z then 1 else bits shape 15 0
  let sp := if c = .z then 0 else bits shape 39 16
  let dp := if c = .z then 0 else bits shape 63 40
  if w.act = 0#32 then .done s
  else
    match [dst, src, len, sp, dp].find? (fun x => x % 16 != 0) with
    | some x => .trap { code := 0x08, lanes := w.act, addr := BitVec.ofNat 64 (if dst % 16 ≠ 0 then dst else if src % 16 ≠ 0 then src else x) } s
    | none =>
      let sd := sideSpan len rows dp
      let ss := sideSpan len rows sp
      let cause := if ext then
          (match sideCause w [(dst, s.extSide w true dst sd), (src, s.extSide w false src ss)] with
           | none => if dst < 2 ^ 56 ∧ src < 2 ^ 56 then
               some ({ code := 0x09, det := 0x0A, lanes := w.act, addr := BitVec.ofNat 64 dst } : Cause) else none
           | c => c)
        else sideCause w [(dst, s.copySide w dst sd), (src, s.copySide w src ss)]
      match cause with
      | some c => .trap c s
      | none => s.enterCopy w .cp ext dst src len rows sp dp [0]

/-- CPY (12, R304). -/
def execCpy (h : Hdr) (d a b c : Reg) (s : State) : Out := s.issue (.cpy h d a b c) fun w s => s.copyWord w false c
/-- CPYX (12, R304; 01, R33). -/
def execCpyx (h : Hdr) (d a b c : Reg) (s : State) : Out := s.issue (.cpyx h d a b c) fun w s => s.copyWord w true c

/-- CPYS (12, R304): a destination offset and a member mask. [DESIGN CHOICE, log entries 144 and 145] -/
def execCpys (h : Hdr) (d a b c : Reg) (s : State) : Out :=
  s.issue (.cpys h d a b c) fun w s =>
    let src := w.src 0 0
    let len := w.src 1 0 % 2 ^ 32
    let mask := w.src 2 0
    let dst := w.src 3 0
    if w.act = 0#32 then .done s
    else
      match [dst, src, len].find? (fun x => x % 16 != 0) with
      | some x => .trap { code := 0x08, lanes := w.act, addr := BitVec.ofNat 64 x } s
      | none =>
        let ms := (List.range 64).filter (fun i => mask.testBit i)
        let tgt := (match ms.find? (fun m => decide ((s.gangOf w.g.wg).2 ≤ m)) with
          | some _ => some (0x0A, 0x04)
          | none => if ms.isEmpty then none else if isWalker w.gs then some (0x09, 0x05) else s.localSide w 0 dst len)
        (match sideCause w [(dst, tgt), (src, s.copySide w src len)] with
         | some c => .trap c s
         | none => s.enterCopy w .gc false dst src len 1 0 0 ms)

/-! ### The copy engine (12, R305, R306) -/

/-- What became of a chunk at a target: delivered; not yet, but for its first `n` bytes; failed at an address. -/
inductive Put where
  | done (s : State)
  | later (n : Nat) (s : State)
  | fail (code det : Nat) (addr : Nat) (s : State)

/-- The destination address of a chunk for a target. -/
def CopyOp.dstAt (op : CopyOp) (ix off : Nat) : Nat :=
  if op.cls = .gc then localWin + ix * 2 ^ 20 + op.dst.toNat + off else op.dst.toNat + off

/-- Pieces of a chunk, none of which crosses a sector or segment, delivered one after another; `n` bytes went before. -/
def State.putPieces (s : State) (a : Agent) (ext : Bool) (ga n : Nat) : List (List Byte) → Put
  | [] => .done s
  | l :: t =>
    match s.engTrans a .store ext ga with
    | .member => .later n s
    | .miss va => .later n (s.engMiss a .store va)
    | .bad c d => .fail c d ga (s.engUsed a ga)
    | .ok x u =>
      match s.engPut a x u l with
      | .wait s1 => .later n (s1.engWait x)
      | .bad c d => .fail c d ga s
      | .ok s1 => (s1.spillHit a.spid ga).putPieces a ext (ga + l.length) (n + l.length) t

/-- Bytes in pieces that do not cross a multiple of 64 bytes. -/
def piecesAt (ga : Nat) (l : List Byte) : List (List Byte) := (sectorPieces ga l).map (·.2)

/-- Pieces of 16 bytes read from an address, with the state after. -/
def State.getPieces (s : State) (a : Agent) (ext : Bool) (ga : Nat) : Nat → EngRes (List Byte) × State
  | 0 => (.ok [], s)
  | n + 1 =>
    match s.engTrans a .load ext ga with
    | .member => (.wait s, s)
    | .miss va => let s1 := s.engMiss a .load va; (.wait s1, s1)
    | .bad c d => (.bad c d, s.engUsed a ga)
    | .ok x _ =>
      match s.engRead (coreOf a.gs) x 16 with
      | .wait s1 => (.wait s1, s1)
      | .bad c d => (.bad c d, s)
      | .ok l0 =>
        -- a program's reads of a spill area are undefined (07, R189)
        let hid := (s.spillOwner a.spid ga).isSome
        let l := if hid then (List.range 16).map fun i => Config.freeByte (s.free + i) else l0
        let s := if hid then { s with free := s.free + 16 } else s
        let r := (s.readsAt a.spid x).getPieces a ext (ga + 16) n
        (match r.1 with
         | .ok l1 => .ok (l ++ l1)
         | e => e, r.2)

/-- The source offset and the destination offset of a copy's next chunk, and its length. -/
def CopyOp.next (op : CopyOp) : Option (Nat × Nat × Nat) :=
  if op.rows ≤ op.row then none
  else some (op.row * op.sp + op.pos, op.row * op.dp + op.pos, min 128 (op.len - op.pos))

/-- The copy after a chunk has been read. -/
def CopyOp.step (op : CopyOp) : CopyOp :=
  if op.len ≤ op.pos + 128 then { op with row := op.row + 1, pos := 0 } else { op with pos := op.pos + 128 }

/-- The pieces of a chunk at an offset go to a target; what is left of it is kept. -/
def State.deliverChunk (s : State) (a : Agent) (op : CopyOp) (t : CopyTgt) (off : Nat) (l : List Byte) (rest : List (Nat × List Byte)) :
    CopyTgt × State :=
  match s.putPieces a op.ext (op.dstAt t.ix off) 0 (piecesAt (op.dstAt t.ix off) l) with
  | .done s1 => ({ t with wait := rest }, s1)
  | .later n s1 => ({ t with wait := (off + n, l.drop n) :: rest }, s1)
  | .fail c d ad s1 => ({ t with fault := some ⟨BitVec.ofNat 8 c, BitVec.ofNat 8 d, BitVec.ofNat 64 ad⟩, wait := [] }, s1)

/-- A chunk goes to one target, or is kept for it: behind those kept, and behind those kept for an earlier copy of the class and
group, whose writes come before (03, R96). -/
def State.toTarget (s : State) (a : Agent) (op : CopyOp) (held : List Nat) (off : Nat) (l : List Byte) (t : CopyTgt) : CopyTgt × State :=
  if t.fault.isSome then (t, s)
  else if !t.wait.isEmpty || held.contains t.ix then ({ t with wait := t.wait ++ [(off, l)] }, s)
  else s.deliverChunk a op t off l []

/-- The first chunk kept for a target is tried again. -/
def State.retryTarget (s : State) (a : Agent) (op : CopyOp) (held : List Nat) (t : CopyTgt) : CopyTgt × State :=
  match t.fault, t.wait with
  | none, (off, l) :: rest => if held.contains t.ix then (t, s) else s.deliverChunk a op t off l rest
  | _, _ => (t, s)

/-- The targets for which earlier copies of the class and group of a copy keep chunks. -/
def State.keptBefore (s : State) (core : Nat) (op : CopyOp) : List Nat :=
  (((s.core core).cpq.takeWhile (fun o => o.id != op.id)).filter (fun o => o.gs == op.gs && o.cls == op.cls)).flatMap fun o =>
    (o.tgts.filter (fun t => t.fault.isNone && !t.wait.isEmpty)).map (·.ix)

/-- Each target in turn. -/
def overTargets (f : State → CopyTgt → CopyTgt × State) (s : State) (l : List CopyTgt) : List CopyTgt × State :=
  l.foldl (fun (r : List CopyTgt × State) t => let x := f r.2 t; (r.1 ++ [x.1], x.2)) ([], s)

/-- The addresses of a copy's bytes at a target, in pieces of 16. -/
def CopyOp.pieces (op : CopyOp) (ix : Nat) : List Nat :=
  (List.range op.rows).flatMap fun r => (List.range (op.len / 16)).map fun i => op.dstAt ix (r * op.dp + 16 * i)

/-- Every byte of an abandoned target's destination is undefined (12, R306); bytes without a place are none. -/
def State.smearTarget (s : State) (a : Agent) (op : CopyOp) (ix : Nat) : State :=
  (op.pieces ix).foldl (fun s ga => s.smearAt a op.ext ga 16) s

/-- The destination bytes that a copy leaves undefined since they lie in its own source range or in two of its rows (12,
R305), in pieces of 16. -/
def CopyOp.overlaps (op : CopyOp) : List Nat :=
  let dst := op.tgts.flatMap fun t => op.pieces t.ix
  let src := (List.range op.rows).flatMap fun r => (List.range (op.len / 16)).map fun i => op.src.toNat + r * op.sp + 16 * i
  (dst.filter (fun d => src.contains d || decide (1 < (dst.filter (· == d)).length))).eraseDups

/-- A copy is over: what it leaves undefined, and its record in its batch. [DESIGN CHOICE, log entry 146] -/
def State.finishCopy (s : State) (a : Agent) (core : Nat) (op : CopyOp) : State :=
  let bad := op.tgts.filter (·.fault.isSome)
  let s1 := bad.foldl (fun s t => s.smearTarget a op t.ix) s
  let s2 := op.overlaps.foldl (fun s d => s.smearAt a op.ext d 16) s1
  let mask := fun (l : List CopyTgt) => l.foldl (fun (m : BitVec 16) t => m ||| (1#16 <<< t.ix)) 0#16
  let s3 := s2.updCore core fun c => { c with cpq := c.cpq.filter (fun o => o.id != op.id) }
  s3.opDone op.gs op.cls op.id fun o =>
    { o with
      fault := (bad.head?.bind (·.fault))
      done := mask (op.tgts.filter (·.fault.isNone))
      fail := mask bad }

/-- One step of a copy: kept chunks, then the next chunk of its source. -/
def State.copyStep (s : State) (core : Nat) (op : CopyOp) : State :=
  let a := s.agentOf op.gs op.wg op.sup op.pc op.id
  let held := s.keptBefore core op
  let r := overTargets (fun s t => s.retryTarget a op held t) s op.tgts
  let op1 := { op with tgts := r.1 }
  let put := fun (o : CopyOp) (s : State) => s.updCore core fun c => { c with cpq := c.cpq.map fun x => if x.id = o.id then o else x }
  let ended := fun (o : CopyOp) => o.tgts.all (fun t => t.fault.isSome || t.wait.isEmpty)
  match op1.next with
  | none => if ended op1 then r.2.finishCopy a core op1 else put op1 r.2
  | some (so, d, n) =>
    if op1.tgts.all (·.fault.isSome) then r.2.finishCopy a core op1
    else if r.2.spent a.part 6 core then put op1 r.2
    else
      match (r.2.spend a.part 6 core n).getPieces a op1.ext (op1.src.toNat + so) (n / 16) with
      | (.wait _, s1) => put op1 s1
      | (.bad c dt, s1) =>
        let f : BatchFault := ⟨BitVec.ofNat 8 c, BitVec.ofNat 8 dt, BitVec.ofNat 64 (op1.src.toNat + so)⟩
        s1.finishCopy a core { op1 with tgts := op1.tgts.map fun t => { t with fault := some (t.fault.getD f), wait := [] } }
      | (.ok l, s1) =>
        let x := overTargets (fun s t => s.toTarget a op1 held d l t) s1 op1.tgts
        let op2 := { op1.step with tgts := x.1 }
        if op2.next.isNone && ended op2 then x.2.finishCopy a core op2 else put op2 x.2

/-- COPY_CHUNK: the first copy of the queue that still reads, and the chunks kept for targets before it (12, R305).
[DEDUCED, log entry 13] -/
def execCopyChunk (core : Nat) (s : State) : Out :=
  .next (
    let q := (s.core core).cpq.filter (fun o => !s.wgHalted o.wg)
    let kept := q.takeWhile (fun o => o.next.isNone)
    let s1 := kept.foldl (fun s o => s.copyStep core o) s
    match q.find? (fun o => o.next.isSome) with
    | some o => s1.copyStep core o
    | none => s1)

/-! ### Batches (12, R307; 03, R94, R95) -/

/-- BATCH closes the open batch. -/
def ClsState.close (c : ClsState) : ClsState :=
  let n := c.last + 1#32
  { last := n, opened := [], closed := c.closed ++ [{ num := n, ops := c.opened }] }
/-- Closed batches that are not complete. -/
def ClsState.open_ (c : ClsState) : List Batch := c.closed.filter (fun b => !b.complete)

/-- A batch number is at or below another, modulo 2^32. -/
def batchLe (x n : W32) : Bool := decide ((n - x).toNat < 2 ^ 31)

def execBatch (h : Hdr) (d : Reg) (cls : Cls) (s : State) : Out :=
  s.issue (.batch h d cls) fun w s =>
    if w.act = 0#32 then .done s
    else
      let c := w.g.cls cls
      if 16 ≤ c.open_.length then .wait .batchWait s
      else
        let c1 := c.close
        .done (s.updGroup w.gs fun g => (g.setCls cls c1).writes (w.put64 d fun _ => c1.last.toNat))

/-- A wait over the batches of a class that `covers` names: it parks until they are complete, then it acquires and
reports a faulted batch; their writes are the group's own for a drain (12, R306, R307; 02, R48; 06, R163). -/
def State.waitBatches (s : State) (w : Word) (cls : Cls) (covers : W32 → Bool) : Eff :=
  if w.act = 0#32 then .done s
  else if ((w.g.cls cls).open_).any (fun b => covers b.num) then .wait .batchWait s
  else
    let s1 := (s.l1Clear (coreOf w.gs)).coverFelt w.gs cls covers
    match s1.batchFault w [cls] covers with
    | some r => .trap r.1 r.2
    | none => .done s1

def execWaitb (h : Hdr) (a : Reg) (imm : BitVec 22) (cls : Cls) (s : State) : Out :=
  s.issue (.waitb h a imm cls) fun w s =>
    let c := (w.g.cls cls).last
    let n := BitVec.ofNat 32 (w.src 0 0) + imm.signExtend 32
    s.waitBatches w cls (fun x => batchLe x (if 2 ^ 31 ≤ (c - n).toNat then c else n))

def execWaitn (h : Hdr) (imm : BitVec 22) (cls : Cls) (s : State) : Out :=
  s.issue (.waitn h imm cls) fun w s =>
    s.waitBatches w cls (fun x => batchLe x ((w.g.cls cls).last - imm.setWidth 32))

/-- The oldest incomplete batch of a class completes once its operations have finished; a batch without a fault needs no
more record (03, R95). -/
def ClsState.complete (c : ClsState) : ClsState :=
  match c.open_ with
  | [] => c
  | b :: _ =>
    if b.ops.all (·.fin) then
      let done := c.closed.map (fun x => if x.num = b.num then { x with complete := true } else x)
      { c with closed := done.filter (fun x => !x.complete || x.ops.any (·.fault.isSome)) }
    else c

/-- BATCH_COMPLETE (03, R95). -/
def execBatchComplete (gs : Nat) (cls : Cls) (s : State) : Out :=
  .next (s.updGroup gs fun g => g.setCls cls (g.cls cls).complete)

end Sys2Proof.Machine
end

