-- ==== Sys2Proof/Machine/Subs.lean ====
section
/-! DEFINITION. Subscriptions: SUBS, UNSUB, SUBFL and SUBQ (12, R308; 06, R156 to R159, R163, R170 to R172), and the Felts'
steps: snapshots, evictions, updates, detaching, attaching, removal (06, R159 to R171). -/

namespace Sys2Proof.Machine

/-! ### The entries of a subscription -/

/-- How far the messages of a subscription have come. -/
def msgDetach : Nat := 1
def msgAttach : Nat := 3
def msgReply : Nat := 4
def msgResume : Nat := 5
def msgRemove : Nat := 6
def msgDrain : Nat := 7

/-- The codes of a subscription's states (06, R171 Table 6). -/
def subCode : SubSt → Nat
  | .free => 0
  | .snap => 1
  | .active => 2
  | .drain => 3
  | .detaching => 4
  | .spilled => 5
  | .replay => 6
  | .broken => 7
  | .detached => 8

def State.updSub (s : State) (core h : Nat) (f : SubEnt → SubEnt) : State :=
  s.updCore core fun c => { c with subs := Tbl.upd c.subs h f }
def State.updPub (s : State) (core p : Nat) (f : PubEnt → PubEnt) : State :=
  s.updCore core fun c => { c with pubs := Tbl.upd c.pubs p f }

/-- The publisher's core of a subscription held at a core. -/
def State.pubCore (s : State) (core : Nat) (e : SubEnt) : Nat :=
  ((Tbl.find s.wgs e.pwg).map (·.core)).getD (core / 4 * 4 + e.pcore)
/-- The publication entry of a subscription. -/
def State.pubOf (s : State) (core h : Nat) (e : SubEnt) : Option (Nat × PubEnt) :=
  (s.core (s.pubCore core e)).pubs.find? (fun p => p.2.st != .free && p.2.swg == e.wg && p.2.shdl == h)

/-- Both entries of a subscription are freed (06, R170). -/
def State.freeSub (s : State) (core h : Nat) : State :=
  match Tbl.find (s.core core).subs h with
  | none => s
  | some e =>
    let s1 := (match s.pubOf core h e with
      | some (p, _) => s.updCore (s.pubCore core e) fun c => { c with pubs := Tbl.del c.pubs p }
      | none => s)
    let s2 := s1.updCore core fun c => { c with subs := Tbl.del c.subs h }
    { s2 with upds := s2.upds.filter (fun u => !(u.dst == core && u.handle == h && u.log.isNone)) }

/-- A subscription's region is left undefined (06, R167, R169). -/
def State.smearSub (s : State) (core : Nat) (e : SubEnt) : State := s.smear (.ls core (64 * s.subBase e) e.wg) (64 * e.len)
/-- A subscription breaks: its region's contents are undefined from then on (06, R167). -/
def State.breakSub (s : State) (core h : Nat) : State :=
  match Tbl.find (s.core core).subs h with
  | none => s
  | some e => (s.updSub core h fun e => { e with st := .broken, msg := 0 }).smearSub core e
/-- What breaks a subscription in SNAP or ACTIVE leaves the other states as they are (06, R171). -/
def State.maybeBreak (s : State) (core h : Nat) (e : SubEnt) : State :=
  if e.st == .snap || e.st == .active then s.breakSub core h else s

/-- The core that holds the subscription of a publication, where its workgroup is resident. -/
def State.subHome (s : State) (p : PubEnt) : Option Nat :=
  (Tbl.find s.wgs p.swg).bind fun w => if w.resident then some w.core else none
/-- A subscription is the one of a publication. -/
def SubEnt.of (e : SubEnt) (p : PubEnt) : Bool := e.st != .free && e.wg == p.swg && e.pwg == p.wg
/-- The subscription of a publication changes, on its core or saved. -/
def State.updSubOf (s : State) (p : PubEnt) (f : SubEnt → SubEnt) : State :=
  let g := fun (e : SubEnt) => if e.of p then f e else e
  match s.subHome p with
  | some core => s.updSub core p.shdl g
  | none =>
    { s with spaces := s.spaces.map fun x => (x.1, { x.2 with saved := x.2.saved.map fun v =>
        if v.wg = p.swg then { v with subs := Tbl.upd v.subs p.shdl g } else v }) }
/-- The subscription of a publication still exists. -/
def State.subExists (s : State) (p : PubEnt) : Bool :=
  let has := fun (t : Tbl SubEnt) => ((Tbl.find t p.shdl).map fun e => e.of p).getD false
  match s.subHome p with
  | some core => has (s.core core).subs
  | none => s.spaces.any (fun x => x.2.saved.any (fun v => v.wg == p.swg && has v.subs))

/-- The lowest free index of a table of 16. -/
def freeIx {α : Type} (t : Tbl α) : Option Nat := (List.range 16).find? (fun i => (Tbl.find t i).isNone)

/-! ### SUBS (06, R156, R158, R159) -/

/-- The publisher that a SUBS names: a member index, or the pair partner; none where there is no such workgroup yet. -/
def State.pairPartner (s : State) (wid : Nat) : Option Nat :=
  (Tbl.find s.wgs wid).bind fun w => (Tbl.find s.grids w.grid).bind fun g =>
    if bit (g.word 0x18) 31 then
      (s.wgs.find? (fun x => x.2.grid == w.grid && x.2.wgidx == Nat.xor w.wgidx 1 && x.2.reachable)).map (·.1)
    else none

/-- The regions obey R156: a length of 64 bytes to 64 KiB, offsets and length multiples of 64, both inside. -/
def regionsOk (size a b : Nat) : Bool :=
  let so := a % 2 ^ 20
  let po := a / 2 ^ 32 % 2 ^ 20
  let l := b % 2 ^ 17
  a / 2 ^ 20 % 2 ^ 12 == 0 && a / 2 ^ 52 == 0 && b / 2 ^ 17 == 0 && decide (64 ≤ l) && decide (l ≤ 2 ^ 16) && l % 64 == 0 &&
    so % 64 == 0 && po % 64 == 0 && decide (so + l ≤ size) && decide (po + l ≤ size)

/-- Another subscriber region of the workgroup overlaps. -/
def State.subOverlap (s : State) (core wid soff len : Nat) : Bool :=
  (s.core core).subs.any (fun e => e.2.wg == wid && e.2.st != .free && decide (e.2.soff < soff + len) &&
    decide (soff < e.2.soff + e.2.len))

/-- A subscription is accepted: both entries, with LAST before the publisher's next serial (06, R159). -/
def State.acceptSub (s : State) (w : Word) (core : Nat) (me pub : Workgroup) (pid h p : Nat) (pair : Bool) (pidx so po len : Nat) :
    State :=
  let ent : SubEnt :=
    { last := (s.rqer pub.core).next - 1, poff := po, plead := slotOf (s.wgLead pid), pcore := pub.core % 4, pair
      pidx := if pair then 0 else pidx, len, soff := so, slead := slotOf (s.wgLead w.g.wg), st := .snap, wg := w.g.wg
      pwg := pid, handle := h }
  let pent : PubEnt :=
    { poff := po, len, plead := slotOf (s.wgLead pid), score := me.core % 4, shdl := h, st := .live, wg := pid, swg := w.g.wg }
  (s.updCore core fun c => { c with subs := Tbl.put c.subs h ent }).updCore pub.core fun c =>
    { c with pubs := Tbl.put c.pubs p pent, felt := c.felt.map fun e => { e with sent := Tbl.del e.sent p } }

/-- SUBS (12, R308). [DEDUCED, log entry 14] -/
def execSubs (h : Hdr) (d a b c : Reg) (pair : Bool) (s : State) : Out :=
  s.issue (.subs h d a b c pair) fun w s =>
    let core := coreOf w.gs
    let say := fun (v : Nat) (s : State) => Eff.done (s.updGroup w.gs fun g => g.writes (w.put64 d fun _ => v))
    if w.act = 0#32 then .done s
    else
      match w.slot.phase, Tbl.find s.wgs w.g.wg with
      | .sub k, _ =>
        (match (Tbl.find (s.core core).subs k).map SubEnt.st with
         | some .snap => .wait .subFlush s
         | _ => say (256 * k) s)
      | _, none => .done s
      | _, some me =>
        let ra := w.src 0 0
        let rb := w.src 1 0
        let m := w.src 2 0 % 16
        let named := !pair && m != 0 && decide (m < (s.gangOf w.g.wg).2)
        let pid := if pair then s.pairPartner w.g.wg else if named then s.memberWg me m else none
        let pub := pid.bind fun i => (Tbl.find s.wgs i).map fun x => (i, x)
        if named && !((pub.map fun x => x.2.reachable).getD false) then .wait .gangMember s
        else if !regionsOk me.lsSize ra rb then say 5 s
        else
          match pub with
          | none => say 4 s
          | some (i, x) =>
            let so := ra % 2 ^ 20 / 64
            let len := rb % 2 ^ 17 / 64
            if x.core = core then say 3 s
            else if s.subOverlap core w.g.wg so len then say 6 s
            else
              match freeIx (s.core core).subs, freeIx (s.core x.core).pubs with
              | none, _ => say 1 s
              | _, none => say 2 s
              | some k, some p =>
                let s1 := s.acceptSub w core me x i k p pair m so (ra / 2 ^ 32 % 2 ^ 20 / 64) len
                .wait .subFlush (s1.updGroup w.gs fun g => g.setSlot w.b (some { w.slot with phase := .sub k }))

/-! ### UNSUB, SUBFL, SUBQ -/

/-- The subscription of a handle that the workgroup holds. -/
def State.heldSub (s : State) (w : Word) (k : Nat) : Option SubEnt :=
  (Tbl.find (s.core (coreOf w.gs)).subs k).bind fun e => if e.st != .free && e.wg == w.g.wg then some e else none

/-- UNSUB (06, R170). -/
def execUnsub (h : Hdr) (d a : Reg) (s : State) : Out :=
  s.issue (.unsub h d a) fun w s =>
    let core := coreOf w.gs
    let k := w.src 0 0 % 16
    let say := fun (v : Nat) (s : State) => Eff.done (s.updGroup w.gs fun g => g.writes (w.put64 d fun _ => v))
    let waits := fun (s : State) => s.updGroup w.gs fun g => g.setSlot w.b (some { w.slot with phase := .sub k })
    if w.act = 0#32 then .done s
    else
      match w.slot.phase, s.heldSub w k with
      | .sub _, none => say 0 s
      | _, none => say 1 s
      | _, some e =>
        (match e.st with
         | .broken | .detached => say 0 (s.freeSub core k)
         | .snap | .active => .wait .subFlush (waits (s.updSub core k fun e => { e with st := .drain, msg := msgRemove }))
         | _ => .wait .subFlush (waits s))

/-- SUBFL (06, R163): it parks until the drain of the group's writes is complete. -/
def execSubfl (h : Hdr) (s : State) : Out :=
  s.issue (.subfl h) fun w s =>
    if w.act = 0#32 then .done s
    else if s.unperformed w.gs then .wait .subFlush s
    else
      let s1 := if w.slot.phase == .idle then s.startDrain w.gs false else s
      if s1.draining w.gs then
        .wait .subFlush (s1.updGroup w.gs fun g => g.setSlot w.b (some { w.slot with phase := .drain [] }))
      else .done s1

/-- The word of SUBQ (06, R172 Table 7). -/
def subWord : Option SubEnt → Nat
  | some e => fld 16 16 e.last.toNat + fld 10 4 (e.logn / 8) + subCode e.st
  | none => 0

def execSubq (h : Hdr) (d a : Reg) (s : State) : Out :=
  s.issue (.subq h d a) fun w s =>
    .done (s.updGroup w.gs fun g => g.writes (w.put64 d fun _ => subWord (s.heldSub w (w.src 0 0 % 16))))

/-! ### The Felts' steps -/

/-- The bytes that a snapshot's segment carries leave a Felt's entries for that publication no more; who waits for those waits for the
segment (06, R159). -/
def FeltEnt.carried (pub seg : Nat) (e : FeltEnt) : FeltEnt := if e.seg = seg then { e with sent := Tbl.put e.sent pub e.mask } else e
/-- The update of a snapshot's segment. -/
def State.snapUpd (s : State) (core : Nat) (p : PubEnt) (seg : Nat) (bad : Bool) : Upd :=
  let mine := (s.core core).felt.filter (fun e => e.seg == seg)
  { id := 0, src := 0, dst := 0, handle := 0, swg := 0, seg := p.next, mask := BitVec.allOnes 64
    data := if bad then [] else s.lsBytes core (seg * 64) 64, ser := 0#16
    srcs := (mine.flatMap (·.srcs)).eraseDups, drains := (mine.flatMap (·.drains)).eraseDups
    snap := true, lastSnap := p.next + 1 == p.len || bad, unreadable := bad }

/-- SNAPSHOT_SEGMENT: the next segment is read and sent as a full-mask update; one that holds an uncorrectable word breaks
the publication (06, R159). -/
def execSnapshotSegment (core pub : Nat) (s : State) : Out :=
  .next (match Tbl.find (s.core core).pubs pub with
  | none => s
  | some p =>
    if s.wgHalted p.wg || (p.st != .live && p.st != .log) || p.remove || decide (p.len ≤ p.next) then s
    else
      let seg := s.pubBase p + p.next
      if s.lsBad core (seg * 64) 64 then
        (match if p.st == .live then s.sendUpd core pub p (s.snapUpd core p seg true) else some s with
         | none => s
         | some s1 => s1.updPub core pub fun p => { p with st := .broken, next := p.len })
      else
        (match s.sendUpd core pub p (s.snapUpd core p seg false) with
         | none => s
         | some s1 => s1.updCore core fun c =>
            { c with pubs := Tbl.upd c.pubs pub fun p => { p with next := p.next + 1 }, felt := c.felt.map (FeltEnt.carried pub seg) }))

/-- The publications of a core whose context a halt halts (15, R368). -/
def State.haltedPubs (s : State) (core : Nat) : Tbl PubEnt := (s.core core).pubs.filter (fun p => p.2.st != .free && s.wgHalted p.2.wg)

/-- A Felt's stop record with further handles: bits of subscriptions [15:0], of publications [31:16] (15, R371 Table 4). -/
def EngStop.name (handles : Nat) (x : EngStop) : EngStop :=
  { x with flags := 0x12, ext := [BitVec.ofNat 64 (Nat.lor ((x.ext.headD 0#64).toNat) handles)] }
/-- It is entered, or takes further handles. -/
def Halt.felt (h : Halt) (spid core handles : Nat) : Halt :=
  let mine : EngStop → Bool := fun e => e.eng == 3 && e.unit == core && e.spid == spid
  let old := (h.engs.find? mine).getD { spid, eng := 3, unit := core, flags := 0x12 }
  { h with engs := h.engs.filter (fun e => !mine e) ++ [old.name handles] }
def State.feltStop (s : State) (spid core handles : Nat) : State :=
  s.updPart (s.space spid).part fun p => { p with halt := p.halt.map fun h => h.felt spid core handles }

/-- At a halt a Felt discards its buffer: the subscriber regions of the updates are undefined from then on (06, R169). -/
def State.feltDiscard (s : State) (core : Nat) : State :=
  let pubs := s.haltedPubs core
  let dead := (s.core core).felt.filter (fun f => pubs.any (fun p => s.pubCovers p.2 f.seg))
  let hit := pubs.filter (fun p => dead.any (fun f => s.pubCovers p.2 f.seg))
  let s1 := s.updCore core fun c => { c with felt := c.felt.filter (fun f => !dead.any (fun d => d.id == f.id)) }
  hit.foldl (fun s p =>
    let dst := s.subCore core p.2
    let spid := (((Tbl.find s.wgs p.2.wg).bind fun w => Tbl.find s.grids w.grid).map (·.spid)).getD 0
    let s1 := ((s.feltStop spid core (2 ^ (16 + p.1))).feltStop spid dst (2 ^ p.2.shdl)).updSubOf p.2 fun e => { e with lost := true }
    match (s.subHome p.2).bind fun c => (Tbl.find (s.core c).subs p.2.shdl).map fun e => (c, e) with
    | some (c, e) => if e.of p.2 then s1.smearSub c e else s1
    | none => s1) s1

/-- FELT_EVICTION: the oldest entry leaves where room or a drain requires it (06, R161); one of a halted context is
discarded. -/
def execFeltEviction (core : Nat) (s : State) : Out :=
  .next (match (s.core core).felt with
  | e :: _ =>
    if !e.due then s
    else if (s.haltedPubs core).any (fun p => s.pubCovers p.2 e.seg) then s.feltDiscard core
    else (s.feltEvict core).getD s
  | [] => s)

/-- FELT_ENTRY_AGE_EXPIRY: the oldest entry is 256 cycles old (06, R161). -/
def execFeltEntryAgeExpiry (core : Nat) (s : State) : Out :=
  .next (match (s.core core).felt with
  | e :: _ =>
    if decide (e.born + 256 ≤ s.clock) && !(s.haltedPubs core).any (fun p => s.pubCovers p.2 e.seg) then (s.feltEvict core).getD s
    else s
  | [] => s)

/-- An update's bytes by their positions in the subscriber's local store. -/
def updCells (base seg : Nat) (mask : W64) (data : List Byte) : List (Nat × Byte) :=
  ((List.range 64).filter (fun i => mask.getLsbD i)).map fun i => ((base + seg) * 64 + i, data.getD i 0#8)

/-- A subscription takes an update under the serial rule: LAST, the bytes as one write, the segment's watermark cleared;
an update that cannot be written whole breaks it in SNAP and ACTIVE, and is left out in the other states (06, R162, R171; 04, R101; 16,
R386). -/
def State.takeUpd (s : State) (core h : Nat) (e : SubEnt) (seg : Nat) (mask : W64) (data : List Byte) (ser : BitVec 16) : State :=
  if serLe ser e.last then s
  else
    let cells := updCells (s.subBase e) seg mask data
    let s1 := s.updSub core h fun e => { e with last := ser }
    if s.lsBadPart core cells then s1.maybeBreak core h e
    else (s1.lsPut core cells).setLsWm core (s.subBase e + seg) 0#16

/-- FELT_UPDATE_APPLY: the first update of the stream between two cores (06, R159, R162, R171). [DEDUCED, log entry 13] -/
def execFeltUpdateApply (src dst : Nat) (s : State) : Out :=
  .next (match s.upds.find? (fun u => u.src == src && u.dst == dst && u.log.isNone) with
  | none => s
  | some u =>
    if u.ackDetach then s
    else
      let s0 := { s with upds := s.upds.filter (fun x => x.id != u.id) }.answerSerial src u.ser
      match Tbl.find (s.core dst).subs u.handle with
      | none => s0
      | some e =>
        let live := e.st == .snap || e.st == .active || e.st == .drain || e.st == .detaching
        if !live then s0
        else if u.unreadable then s0.maybeBreak dst u.handle e
        else
          (s0.takeUpd dst u.handle e u.seg u.mask u.data u.ser).updSub dst u.handle fun e =>
            if u.lastSnap && e.st == .snap then { e with st := .active } else e)

/-- A subscriber's save begins: its subscriptions in ACTIVE or SNAP detach (06, R164). -/
def State.detachSubs (s : State) (wid core : Nat) (spill : Nat → Nat) : State :=
  ((s.core core).subs.filter (fun e => e.2.wg == wid && (e.2.st == .snap || e.2.st == .active))).foldl
    (fun s e => s.updSub core e.1 fun x => { x with st := .detaching, msg := msgDetach, spill := spill e.1 }) s

/-- DETACH_MESSAGE: the publication logs from now on, and an acknowledgement goes out in the stream (06, R164). -/
def execDetachMessage (core sub : Nat) (s : State) : Out :=
  .next (match Tbl.find (s.core core).subs sub with
  | none => s
  | some e =>
    if e.st != .detaching || e.msg != msgDetach then s
    else
      let pc := s.pubCore core e
      let s1 := (match s.pubOf core sub e with
        | some (p, x) => if x.st == PubSt.broken then s else s.updPub pc p fun x => { x with st := .log, logn := 0, lbase := e.spill }
        | none => s)
      let id := s1.newId
      let ack : Upd := { id := id.1, src := pc, dst := core, handle := sub, swg := e.wg, seg := 0, mask := 0#64, data := [], ser := 0#16, ackDetach := true }
      { id.2 with upds := id.2.upds ++ [ack] }.updSub core sub fun e => { e with msg := 2 })

/-- DETACH_ACKNOWLEDGEMENT: every update sent before it has been applied (06, R164). -/
def execDetachAcknowledgement (core sub : Nat) (s : State) : Out :=
  .next (match Tbl.find (s.core core).subs sub with
  | none => s
  | some e =>
    match s.upds.find? (fun u => u.src == s.pubCore core e && u.dst == core && u.log.isNone) with
    | some u =>
      if u.ackDetach && u.handle == sub && e.st == .detaching then
        { s with upds := s.upds.filter (fun x => x.id != u.id) }.updSub core sub fun e => { e with st := .spilled, msg := 0 }
      else s
    | none => s)

/-- ATTACH_MESSAGE: the publication is held and, once every append is acknowledged, answers with LOGN, or broken (06, R166); a publisher
that is saved is waited for. -/
def execAttachMessage (core sub : Nat) (s : State) : Out :=
  .next (match Tbl.find (s.core core).subs sub with
  | none => s
  | some e =>
    if e.st != .replay || e.msg != msgAttach then s
    else if ((Tbl.find s.wgs e.pwg).map fun w => !w.resident && !w.gone).getD false then s
    else
      let appends := s.upds.any (fun u => u.log.isSome && u.swg == e.wg && u.handle == sub)
      match s.pubOf core sub e with
      | some (p, x) =>
        if x.st == .broken then s.updSub core sub fun e => { e with msg := msgReply, acks := 1 }
        else
          let s1 := s.updPub (s.pubCore core e) p fun x => { x with st := .held }
          if appends then s1
          else s1.updSub core sub fun e => { e with msg := msgReply, acks := 0, logn := x.logn, spill := x.lbase }
      | none => if appends then s else s.updSub core sub fun e => { e with msg := msgReply })

/-- The slots of a spill log, applied in order; a slot with V = 0 breaks the subscription (06, R165, R166). -/
def State.replaySlots (s : State) (core sub : Nat) : List Nat → State
  | [] => s
  | i :: t =>
    match Tbl.find (s.core core).subs sub with
    | none => s
    | some e =>
      let at_ := e.spill + 128 * i
      let w := s.rd8 at_
      if !bit w 63 || s.poisoned at_ 128 then s.breakSub core sub
      else (s.takeUpd core sub e (bits w 9 0) (s.rd8 (at_ + 8)) (s.rdBytes (at_ + 64) 64) (BitVec.ofNat 16 (bits w 25 10))).replaySlots
        core sub t

/-- The region of a subscription some of whose updates a halt discarded is undefined once it is used again (06, R169). -/
def State.loseSub (s : State) (core sub : Nat) : State :=
  match Tbl.find (s.core core).subs sub with
  | some e => if e.lost then (s.updSub core sub fun e => { e with lost := false }).smearSub core e else s
  | none => s

/-- ATTACH_REPLY: the spill log is replayed, or the subscription is broken (06, R166, R167). -/
def execAttachReply (core sub : Nat) (s : State) : Out :=
  .next (match Tbl.find (s.core core).subs sub with
  | none => s
  | some e =>
    if e.st != .replay || e.msg != msgReply then s
    else if e.acks = 1 then s.breakSub core sub
    else
      ((s.replaySlots core sub (List.range e.logn)).updSub core sub fun e =>
        if e.st == .replay then { e with msg := msgResume, logn := 0 } else e).loseSub core sub)

/-- RESUME_MESSAGE: the publication is live again and its held entries leave; the subscription is ACTIVE, or SNAP where its
snapshot is not complete, or DETACHED where the publisher is gone (06, R166, R171). -/
def execResumeMessage (core sub : Nat) (s : State) : Out :=
  .next (match Tbl.find (s.core core).subs sub with
  | none => s
  | some e =>
    if e.st != .replay || e.msg != msgResume then s
    else
      match s.pubOf core sub e with
      | some (p, x) =>
        let s1 := s.updPub (s.pubCore core e) p fun x => { x with st := .live, lbase := 0, logn := 0 }
        let s2 := s1.updCore (s.pubCore core e) fun c =>
          { c with felt := c.felt.map fun f => if s1.pubCovers x f.seg then { f with due := true } else f }
        s2.updSub core sub fun e => { e with st := if x.len ≤ x.next then .active else .snap, msg := 0 }
      | none => s.updSub core sub fun e => { e with st := .detached, msg := 0 })

/-- UNSUB_REMOVAL: the publisher Felt receives the removal and drains what it holds; then both entries are freed (06,
R170). -/
def execUnsubRemoval (core sub : Nat) (s : State) : Out :=
  .next (match Tbl.find (s.core core).subs sub with
  | none => s
  | some e =>
    if e.st != .drain then s
    else
      let pc := s.pubCore core e
      match s.pubOf core sub e with
      | none => if s.upds.any (fun u => u.dst == core && u.handle == sub && u.log.isNone) then s else s.freeSub core sub
      | some (p, x) =>
        if e.msg = msgRemove then
          let mine := (s.core pc).felt.reverse.dropWhile (fun f => !s.pubCovers x f.seg)
          let s1 := s.updPub pc p fun x => { x with remove := true, next := x.len }
          let mark := fun (f : FeltEnt) => if mine.any (fun m => m.id == f.id) then { f with due := true } else f
          (s1.updCore pc fun c => { c with felt := c.felt.map mark }).updSub core sub fun e => { e with msg := msgDrain }
        else if ((s.core pc).felt.any (fun f => f.due && s.pubCovers x f.seg)) ||
            (s.upds.any (fun u => u.dst == core && u.handle == sub && u.log.isNone)) then s
        else s.freeSub core sub)

/-! ### Ends of workgroups (06, R152, R170) -/

/-- A subscribing workgroup exits: its subscriptions are freed. -/
def State.freeSubs (s : State) (wid core : Nat) : State :=
  ((s.core core).subs.filter (fun e => e.2.wg == wid)).foldl (fun s e => s.freeSub core e.1) s

/-- A publishing workgroup's allocation is released: a subscription in SNAP or ACTIVE is DETACHED; one that is switched out, or about to
be, takes over what the publication says of its log, and is DETACHED once it has been restored and replayed (06, R170, R171). -/
def SubEnt.released (p : PubEnt) (e : SubEnt) : SubEnt := match e.st with
  | .snap | .active => { e with st := .detached }
  | .detaching | .spilled | .replay =>
    if p.st = .log then { e with logn := p.logn, spill := p.lbase } else if p.st = .broken then { e with acks := 1 } else e
  | _ => e
def State.releasePubs (s : State) (wid core : Nat) : State :=
  ((s.core core).pubs.filter (fun p => p.2.wg == wid && p.2.st != .free)).foldl (fun s p =>
    let ends := ((s.subHome p.2).bind fun c => (Tbl.find (s.core c).subs p.2.shdl).map fun e => e.st == .snap || e.st == .active).getD false
    let s1 := s.updCore core fun c => { c with pubs := Tbl.del c.pubs p.1 }
    let s2 := if ends then
        { s1 with upds := s1.upds.filter (fun u => !(u.src == core && u.handle == p.2.shdl && u.swg == p.2.swg && u.log.isNone)) } else s1
    s2.updSubOf p.2 (SubEnt.released p.2)) s

end Sys2Proof.Machine
end

