-- ==== Sys2Proof/Machine/Barrier.lean ====
section
/-! DEFINITION. Class 11, barriers and queue tests: BAR, BARA, BARW, CBAR, GBAR (14, R345 to R347; 04, R106, R110; 06,
R154, R163), QCNT and QTRY (14, R348). -/

namespace Sys2Proof.Machine

/-! ### What arriving members hand over (04, R110) -/

/-- The state that a member holds when it arrives. [DEDUCED, log entry 117] -/
def CheckState.merge (c : CheckState) : Merge := ⟨c.table, c.kwg, c.kgg, c.kdg, c.ic⟩

/-- An acquired-table entry names a writer, workgroup or gang inside some workgroups. -/
def State.insideOf (s : State) (wids : List Nat) (e : W64) : Bool :=
  match Tbl.find s.groups (entSlot e) with
  | none => false
  | some g =>
    decide ((s.incOf (entSlot e)).toNat = entInc e) &&
      (if entTk e = 3 then
        ((Tbl.find s.gangs (s.gangOf g.wg).1).map fun x => x.wgs.all (fun p => wids.contains p.2)).getD false
      else wids.contains g.wg)

/-- The members' states together: the union of their entries outside the membership, the largest generations.
[DEDUCED, log entry 117] -/
def State.mergeAll (s : State) (wids : List Nat) (l : List Merge) : Merge :=
  let es := (l.flatMap (·.table)).filter (fun e => !s.insideOf wids e)
  let t := mergeEntries [] es
  { table := t.1
    kwg := (l.map (·.kwg)).foldl maxW 0#32
    kgg := (l.map (·.kgg)).foldl maxW 0#32
    kdg := (l.map (·.kdg)).foldl maxW 0#32
    ic := l.all (·.ic) && !t.2 }

/-! ### Generations -/

/-- Every live group of a workgroup is in a mask of arrivals, and some group is. -/
def Workgroup.allIn (w : Workgroup) (m : Mask) : Bool :=
  m != 0#32 && decide (firstLanes w.ngrp &&& ~~~(m ||| w.exited) = 0#32)

/-- The workgroup barrier's generation completes (14, R346). -/
def State.wgCheck (s : State) (wid : Nat) : State :=
  match Tbl.find s.wgs wid with
  | none => s
  | some w =>
    if w.allIn w.warr then
      s.updWg wid fun w => { w with wgen := w.wgen + 1#32, warr := 0#32, wcon := [], wmerge := s.mergeAll [wid] w.wcon }
    else s

/-- The workgroups of a gang; none where a member has not been placed. -/
def State.gangWgs (s : State) (gang : Nat) : Option (List Nat) :=
  (Tbl.find s.gangs gang).bind fun g => if g.wgs.length < g.size then none else some (g.wgs.map (·.2))

/-- The gang barrier's generation completes (14, R347; 06, R154). -/
def State.gangCheck (s : State) (wid : Nat) : State :=
  match (Tbl.find s.wgs wid).bind fun w => s.gangWgs w.gang with
  | none => s
  | some ids =>
    let live := ids.filterMap fun i => (Tbl.find s.wgs i).bind fun w => if w.gone then none else some (i, w)
    if live.isEmpty || !(live.all (fun x => x.2.allIn x.2.garr)) then s
    else
      let all := s.mergeAll ids (live.flatMap fun x => x.2.gcon)
      live.foldl (fun s x => s.updWg x.1 fun w =>
        { w with ggen := w.ggen + 1#32, garr := 0#32, gcon := []
                 gmerge := { all with kwg := (w.gcon.map (·.kwg)).foldl maxW 0#32 } }) s

/-- The grid barrier's generation completes: every workgroup has been placed, and those that live have arrived. -/
def State.gridCheck (s : State) (wid : Nat) : State :=
  match (Tbl.find s.wgs wid).bind fun w => (Tbl.find s.grids w.grid).map fun g => (w.grid, g) with
  | none => s
  | some (gid, g) =>
    let mine := s.wgs.filter (fun x => x.2.grid == gid)
    let live := mine.filter (fun x => !x.2.gone)
    if g.next < g.total || live.isEmpty || !(live.all (fun x => x.2.allIn x.2.darr)) then s
    else
      let all := s.mergeAll (mine.map (·.1)) (live.flatMap fun x => x.2.dcon)
      live.foldl (fun s x => s.updWg x.1 fun w =>
        let mates := live.filter (fun y => y.2.gang == w.gang)
        { w with dgen := w.dgen + 1#32, darr := 0#32, dcon := []
                 dmerge := { all with
                   kwg := (w.dcon.map (·.kwg)).foldl maxW 0#32
                   kgg := ((mates.flatMap fun y => y.2.dcon).map (·.kgg)).foldl maxW 0#32 } }) s

/-- Every generation that an arrival or an exit in a workgroup completes. -/
def State.barCheck (s : State) (wid : Nat) : State := ((s.wgCheck wid).gangCheck wid).gridCheck wid

/-- The generation counter of a barrier. -/
def genOfBar : BarKind → Gen
  | .bar | .bara => .wg
  | .cbar => .gang
  | .gbar => .grid
/-- The scope of a barrier's edges (14, R346, R347). -/
def scopeOfBar : BarKind → Sco
  | .bar | .bara => .wg
  | .cbar => .gang
  | .gbar => .dev

/-- An arrival: the release clock rises, the group's state is handed over (04, R106, R110). -/
def State.arriveBar (s : State) (gs : Nat) (k : BarKind) : State :=
  let s1 := s.tickRc gs
  match Tbl.find s1.groups gs with
  | none => s
  | some g =>
    let bit := maskOf (· == g.gidx)
    let m := g.chk.merge
    let s2 := (s1.updGroup gs fun g => { g with arrival := some k }).updWg g.wg fun w =>
      match k with
      | .bar | .bara => { w with warr := w.warr ||| bit, wcon := w.wcon ++ [m] }
      | .cbar => { w with garr := w.garr ||| bit, gcon := w.gcon ++ [m] }
      | .gbar => { w with darr := w.darr ||| bit, dcon := w.dcon ++ [m] }
    s2.barCheck g.wg

/-- The generation of a group's open arrival has completed: its arrival is no longer waited for. -/
def State.barDone (s : State) (g : Group) (k : BarKind) : Bool :=
  ((Tbl.find s.wgs g.wg).map fun w =>
    !(inMask (match k with
      | .bar | .bara => w.warr
      | .cbar => w.garr
      | .gbar => w.darr) g.gidx)).getD true

/-- A departure: the members' states are merged, the passed generation rises, the acquire of the scope (04, R106, R110;
02, R48). Group outside a gang have no gang generations. [DEDUCED, log entry 29; DEDUCED, log entry 117] -/
def State.depart (s : State) (gs : Nat) (k : BarKind) : State :=
  match Tbl.find s.groups gs with
  | none => s
  | some g =>
    match Tbl.find s.wgs g.wg with
    | none => s
    | some w =>
      let m := (match k with
        | .bar | .bara => w.wmerge
        | .cbar => w.gmerge
        | .gbar => w.dmerge)
      let inGang := decide (2 ≤ (s.gangOf g.wg).2)
      let t := mergeEntries g.chk.table m.table
      let c := { g.chk with
        table := t.1, kwg := maxW g.chk.kwg m.kwg, kdg := maxW g.chk.kdg m.kdg
        kgg := if inGang then maxW g.chk.kgg m.kgg else g.chk.kgg }
      let c1 := if m.ic && !t.2 then c else c.clearIc
      let s1 := s.updGroup gs fun g => { g with chk := c1, arrival := none, subSeen := [] }
      let s2 := if k = .cbar ∧ !inGang then s1 else s1.passGen gs (genOfBar k)
      s2.acquireL1 (coreOf gs) (scopeOfBar k)

/-! ### The instructions (14, R345 to R347) -/

/-- What waits before an arrival: earlier accesses and, at a scope wider than the workgroup's, its other groups' writes (03, R85,
R86), then the drain (06, R163). [DEDUCED, log entry 30] -/
def State.beforeArrival (s : State) (w : Word) (sco : Sco) (k : State → Eff) : Eff :=
  match w.slot.phase with
  | .drain _ => if s.draining w.gs then .wait .subFlush s else k s
  | _ =>
    if s.unperformed w.gs || s.fenceWaits w.gs w.g.wg sco then .wait .barrier s
    else
      let s1 := s.startDrain w.gs false
      if s1.draining w.gs then
        .wait .subFlush (s1.updGroup w.gs fun g => g.setSlot w.b (some { w.slot with phase := .drain [] }))
      else k s1

/-- A barrier that parks until its generation completes. -/
def State.barrier (s : State) (w : Word) (k : BarKind) : Eff :=
  if (w.g.path (!w.b)).isSome then .trap { code := 0x01, lanes := w.slot.mask } s
  else if w.slot.phase = .arrived then
    (if s.barDone w.g k then .done (s.depart w.gs k) else .wait .barrier s)
  else if w.g.arrival.isSome then .trap { code := 0x01, lanes := w.slot.mask } s
  else
    s.beforeArrival w (scopeOfBar k) fun s =>
      let s1 := (s.arriveBar w.gs k).updGroup w.gs fun g => g.setSlot w.b (some { w.slot with phase := .arrived })
      match Tbl.find s1.groups w.gs with
      | some g => if s1.barDone g k then .done (s1.depart w.gs k) else .wait .barrier s1
      | none => .wait .barrier s1

def execBar (h : Hdr) (s : State) : Out := s.issue (.bar h) fun w s => s.barrier w .bar
def execCbar (h : Hdr) (s : State) : Out := s.issue (.cbar h) fun w s => s.barrier w .cbar

/-- BARA arrives and goes on. -/
def execBara (h : Hdr) (s : State) : Out :=
  s.issue (.bara h) fun w s =>
    if (w.g.path (!w.b)).isSome || w.g.arrival.isSome then .trap { code := 0x01, lanes := w.slot.mask } s
    else s.beforeArrival w .wg fun s => .done (s.arriveBar w.gs .bara)

/-- BARW departs once the generation of the group's BARA has completed. -/
def execBarw (h : Hdr) (s : State) : Out :=
  s.issue (.barw h) fun w s =>
    if (w.g.path (!w.b)).isSome || w.g.arrival != some .bara then .trap { code := 0x01, lanes := w.slot.mask } s
    else if s.barDone w.g .bara then .done (s.depart w.gs .bara)
    else .wait .barrier s

/-- GBAR: a grid launched without COSCHED raises 0x20 at issue (08, R214). -/
def execGbar (h : Hdr) (s : State) : Out :=
  s.issue (.gbar h) fun w s =>
    let cosched := ((s.gridOf w.g).map fun g => bit (g.word 0x18) 27).getD false
    if !cosched && (w.g.path (!w.b)).isNone && w.g.arrival.isNone then .trap { code := 0x20, lanes := w.slot.mask } s
    else s.barrier w .gbar

/-! ### Queue tests (14, R348) -/

/-- The launch's queue count and depth. -/
def State.queues_ (s : State) (g : Group) : Nat × Nat :=
  (((s.gridOf g).map Grid.nq).getD 0, ((s.gridOf g).map Grid.qdepth).getD 0)

def execQcnt (h : Hdr) (d : Reg) (q : Fin 8) (s : State) : Out :=
  s.issue (.qcnt h d q) fun w s =>
    let n := s.queues_ w.g
    if n.1 ≤ q.val then .trap { code := 0x1C, lanes := w.act } s
    else
      let x := ((Tbl.find s.wgs w.g.wg).map fun x => x.queue q.val).getD {}
      .done (s.updGroup w.gs fun g =>
        g.writes (w.put64 d fun _ => fld 9 0 (x.entries.length - x.rsv) + fld 9 16 (n.2 - x.entries.length - x.room)))

/-- QTRY takes the outcome that the record has, or what the queue allows; it is logged (17, R400 kind 3).
[DEDUCED, log entry 31] -/
def State.qtryEvent (s : State) (w : Word) (q : Nat) (can : Bool) (k : Bool → State → Eff) : Eff :=
  let a : At := ⟨w.slot.pc, s.rwcNow w.gs w.g, w.g.nissue, w.b⟩
  match s.gate (s.spidOf w.g) 3 0xFF (s.nameOf w.g) a.rwc (s.queueKey w.g q) with
  | .hold => .wait .queueEmpty s
  | .part ix => .again (s.parting (s.spidOf w.g) w.gs a ix
      (eventWords 3 0xFF (s.nameOf w.g).1 (s.nameOf w.g).2.1 (s.nameOf w.g).2.2 0 a.rwc
        (BitVec.ofNat 64 (s.queueKey w.g q)) (BitVec.ofNat 64 (b2n can))))
  | .take ix v =>
    if bit v 0 && !can then .wait .queueEmpty s else k (bit v 0) (s.useEvent (s.spidOf w.g) ix)
  | .free => k can (s.logGroup w.g 3 0xFF a.rwc (s.queueKey w.g q) (BitVec.ofNat 64 (b2n can)))

/-- A predicate's active lanes all get one value. -/
def State.setPred (s : State) (w : Word) (p : Pred) (v : Bool) : State :=
  s.updGroup w.gs fun g => g.writes (w.putP p fun _ => v)

/-- QTRY: the queue operation if it can be done at once, with a predicate that says so (14, R348). [DEDUCED, log entry 31] -/
def execQtry (h : Hdr) (op : QTry) (s : State) : Out :=
  s.issue (.qtry h op) fun w s =>
    let q := (match op with
      | .pop _ _ q => q.val
      | .push _ q _ => q.val)
    let n := s.queues_ w.g
    let x := ((Tbl.find s.wgs w.g.wg).map fun x => x.queue q).getD {}
    if n.1 ≤ q then .trap { code := 0x1C, lanes := w.act } s
    else
      match op with
      | .pop p d _ =>
        s.qtryEvent w q (decide (x.rsv < x.entries.length)) fun ok s =>
          let s1 := s.setPred w p ok
          if !ok then .done s1
          else
            let vals := ((x.entries[x.rsv]?).map (·.vals)).getD []
            let ws := w.put (uv d) fun L => (vals.getD L 0#32).toNat
            .done ((s1.updWg w.g.wg fun y => y.reserve [q] []).sendResult w { h, dst := [uv d] } ws [q])
      | .push p _ _ =>
        if s.fenceWaits w.gs w.g.wg .wg then .wait .switchPark s
        else s.qtryEvent w q (decide (x.entries.length + x.room < n.2)) fun ok s =>
          let s1 := s.setPred w p ok
          .done (if ok then
            s1.push w.gs q w.act (lanes32.map fun L => if inMask w.act L then BitVec.ofNat 32 (w.src 0 L) else 0#32)
          else s1)

end Sys2Proof.Machine
end

