-- ==== Sys2Proof/Machine/Bits.lean ====
section
/-! DEFINITION. Class 1, bit manipulation and width conversion (10, R252 to R256). -/

namespace Sys2Proof.Machine

/-- Bit `i` of a number. -/
def nbit (x i : Nat) : Bool := x.testBit i
/-- The number of `n` bits whose bit `i` is `f i`. -/
def ofBits (f : Nat → Bool) : Nat → Nat
  | 0 => 0
  | n + 1 => ofBits f n + (if f n then 2 ^ n else 0)

/-- The low bits of a source of a type. -/
def Word.low (w : Word) (t : Ty) (k L : Nat) : Nat := w.src k L % 2 ^ t.bits
/-- An RRI immediate as the bits of a type (10, R245). -/
def immBits (t : Ty) (imm : BitVec 22) : Nat := (imm.toInt % (2 ^ t.bits : Nat)).toNat
/-- An RRI immediate's low 8 bits: a shift count (10, R253). -/
def immCount (imm : BitVec 22) : Nat := imm.toNat % 256

/-- A bitwise word of two sources; of a source and an immediate; of one source. The result has the type's role. -/
def bits2 (i : Instr) (t : Ty) (d : Reg) (op : Nat → Nat → Nat) : State → Out :=
  alu i fun w => w.put (uty t d) fun L => op (w.low t 0 L) (w.low t 1 L)
def bitsI (i : Instr) (t : Ty) (d : Reg) (imm : BitVec 22) (op : Nat → Nat → Nat) : State → Out :=
  alu i fun w => w.put (uty t d) fun L => op (w.low t 0 L) (immBits t imm)
def bits1 (i : Instr) (t : Ty) (d : Reg) (op : Nat → Nat) : State → Out :=
  alu i fun w => w.put (uty t d) fun L => op (w.low t 0 L)
/-- A shift: the count is y[7:0] (10, R253). -/
def shiftR (i : Instr) (t : Ty) (d : Reg) (op : Nat → Nat → Nat) : State → Out :=
  alu i fun w => w.put (uty t d) fun L => op (w.low t 0 L) (w.src 1 L % 256)
def shiftI (i : Instr) (t : Ty) (d : Reg) (imm : BitVec 22) (op : Nat → Nat → Nat) : State → Out :=
  alu i fun w => w.put (uty t d) fun L => op (w.low t 0 L) (immCount imm)

/-- NOT in w bits. -/
def notOp (n x : Nat) : Nat := 2 ^ n - 1 - x
/-- x and not y (10, Table 4). -/
def andnOp (n x y : Nat) : Nat := Nat.land x (notOp n y)
/-- SHL, SHR, SAR, ROTL in `n` bits by count `c` (10, R253). -/
def shlOp (n x c : Nat) : Nat := x * 2 ^ c % 2 ^ n
def shrOp (x c : Nat) : Nat := x / 2 ^ c
def sarOp (n x c : Nat) : Nat := ((signed n x) / (2 ^ c : Nat) % (2 ^ n : Nat)).toNat
def rotlOp (n x c : Nat) : Nat :=
  let k := c % n
  (x * 2 ^ k + x / 2 ^ (n - k)) % 2 ^ n
/-- Ones, leading zeros, trailing zeros of `n` bits (10, Table 4). -/
def popcOp (n x : Nat) : Nat := ((List.range n).filter (nbit x)).length
def ctzOp (n x : Nat) : Nat := (((List.range n).find? (nbit x))).getD n
def clzOp (n x : Nat) : Nat := (((List.range n).find? (fun i => nbit x (n - 1 - i)))).getD n
def brevOp (n x : Nat) : Nat := ofBits (fun i => nbit x (n - 1 - i)) n
/-- FUNNEL over x and y by n = z[4:0] (10, R253). -/
def funnelOp (right : Bool) (x y z : Nat) : Nat :=
  let u := x * 2 ^ 32 + y
  if right then u / 2 ^ (z % 32) % 2 ^ 32 else u * 2 ^ (z % 32) % 2 ^ 64 / 2 ^ 32
/-- BFX (10, R254): `len` bits from `pos`; a bit at or above w reads 0, or the sign; the field is extended. -/
def bfxOp (t : Ty) (x y z : Nat) : Nat :=
  let n := t.bits
  let pos := y % 256
  let len := min (z % 256) n
  if len = 0 then 0
  else
    let b := fun i => if pos + i < n then nbit x (pos + i) else t.isSigned && nbit x (n - 1)
    ofBits (fun i => if i < len then b i else t.isSigned && b (len - 1)) n
/-- BFI (10, R254): the low bits of x into y. -/
def bfiOp (n x y z : Nat) : Nat :=
  let pos := z % 256
  let len := min (z / 256 % 256) n
  ofBits (fun i => if pos ≤ i ∧ i < pos + len then nbit x (i - pos) else nbit y i) n
/-- One result byte of BMRG (10, R255). -/
def bmrgByte (pool k : Nat) : Nat :=
  let p := pool / 2 ^ (8 * (k % 8)) % 256
  match k / 8 % 4 with
  | 0 => p
  | 1 => 0
  | 2 => if 128 ≤ p then 255 else 0
  | _ => brevOp 8 p
/-- BMRG: four result bytes from a pool of eight (10, R255). -/
def bmrgOp (x y z : Nat) : Nat :=
  let pool := x + 2 ^ 32 * y
  ((List.range 4).map fun i => bmrgByte pool (z / 2 ^ (8 * i) % 256) * 2 ^ (8 * i)).sum

def execAnd (h : Hdr) (d a b : Reg) (ty : Ty) : State → Out := bits2 (.and h d a b ty) ty d Nat.land
def execAndRri (h : Hdr) (d a : Reg) (imm : BitVec 22) (ty : Ty) : State → Out := bitsI (.andRri h d a imm ty) ty d imm Nat.land
def execOr (h : Hdr) (d a b : Reg) (ty : Ty) : State → Out := bits2 (.or h d a b ty) ty d Nat.lor
def execOrRri (h : Hdr) (d a : Reg) (imm : BitVec 22) (ty : Ty) : State → Out := bitsI (.orRri h d a imm ty) ty d imm Nat.lor
def execXor (h : Hdr) (d a b : Reg) (ty : Ty) : State → Out := bits2 (.xor h d a b ty) ty d Nat.xor
def execXorRri (h : Hdr) (d a : Reg) (imm : BitVec 22) (ty : Ty) : State → Out := bitsI (.xorRri h d a imm ty) ty d imm Nat.xor
def execNot (h : Hdr) (d a : Reg) (ty : Ty) : State → Out := bits1 (.not h d a ty) ty d (notOp ty.bits)
def execAndn (h : Hdr) (d a b : Reg) (ty : Ty) : State → Out := bits2 (.andn h d a b ty) ty d (andnOp ty.bits)
def execAndnRri (h : Hdr) (d a : Reg) (imm : BitVec 22) (ty : Ty) : State → Out :=
  bitsI (.andnRri h d a imm ty) ty d imm (andnOp ty.bits)
def execShl (h : Hdr) (d a b : Reg) (ty : Ty) : State → Out := shiftR (.shl h d a b ty) ty d (shlOp ty.bits)
def execShlRri (h : Hdr) (d a : Reg) (imm : BitVec 22) (ty : Ty) : State → Out :=
  shiftI (.shlRri h d a imm ty) ty d imm (shlOp ty.bits)
def execShr (h : Hdr) (d a b : Reg) (ty : Ty) : State → Out := shiftR (.shr h d a b ty) ty d shrOp
def execShrRri (h : Hdr) (d a : Reg) (imm : BitVec 22) (ty : Ty) : State → Out := shiftI (.shrRri h d a imm ty) ty d imm shrOp
def execSar (h : Hdr) (d a b : Reg) (ty : Ty) : State → Out := shiftR (.sar h d a b ty) ty d (sarOp ty.bits)
def execSarRri (h : Hdr) (d a : Reg) (imm : BitVec 22) (ty : Ty) : State → Out :=
  shiftI (.sarRri h d a imm ty) ty d imm (sarOp ty.bits)
def execRotl (h : Hdr) (d a b : Reg) (ty : Ty) : State → Out := shiftR (.rotl h d a b ty) ty d (rotlOp ty.bits)
def execRotlRri (h : Hdr) (d a : Reg) (imm : BitVec 22) (ty : Ty) : State → Out :=
  shiftI (.rotlRri h d a imm ty) ty d imm (rotlOp ty.bits)
def execFunnel (h : Hdr) (d a b c : Reg) (right : Bool) : State → Out :=
  alu (.funnel h d a b c right) fun w => w.put32 d fun L => funnelOp right (w.src 0 L) (w.src 1 L) (w.src 2 L)
def execPopc (h : Hdr) (d a : Reg) (ty : Ty) : State → Out :=
  alu (.popc h d a ty) fun w => w.put32 d fun L => popcOp ty.bits (w.low ty 0 L)
def execClz (h : Hdr) (d a : Reg) (ty : Ty) : State → Out :=
  alu (.clz h d a ty) fun w => w.put32 d fun L => clzOp ty.bits (w.low ty 0 L)
def execCtz (h : Hdr) (d a : Reg) (ty : Ty) : State → Out :=
  alu (.ctz h d a ty) fun w => w.put32 d fun L => ctzOp ty.bits (w.low ty 0 L)
def execBrev (h : Hdr) (d a : Reg) (ty : Ty) : State → Out := bits1 (.brev h d a ty) ty d (brevOp ty.bits)
def execBfx (h : Hdr) (d a b c : Reg) (ty : Ty) : State → Out :=
  alu (.bfx h d a b c ty) fun w => w.put (uty ty d) fun L => bfxOp ty (w.low ty 0 L) (w.src 1 L) (w.src 2 L)
def execBfi (h : Hdr) (d a b c : Reg) (ty : Ty) : State → Out :=
  alu (.bfi h d a b c ty) fun w => w.put (uty ty d) fun L => bfiOp ty.bits (w.low ty 0 L) (w.low ty 1 L) (w.src 2 L)
def execBmrg (h : Hdr) (d a b c : Reg) : State → Out :=
  alu (.bmrg h d a b c) fun w => w.put32 d fun L => bmrgOp (w.src 0 L) (w.src 1 L) (w.src 2 L)
/-- CNVI: reduced, or clamped with SAT (10, R256). -/
def execCnvi (h : Hdr) (d a : Reg) (ty sty : Ty) (sat : Bool) : State → Out :=
  alu (.cnvi h d a ty sty sat) fun w => w.putTy ty d fun L =>
    if sat then tySat ty (w.int sty 0 L) else w.int sty 0 L

end Sys2Proof.Machine
end

