-- ==== Sys2Proof/Machine/Collective.lean ====
section
/-! DEFINITION. Class 11, collectives: COLL and CABORT at their issue, the collective engine's packets, completion and abort
tokens (14, R349 to R352; 16, R392). -/

namespace Sys2Proof.Machine

/-! ### Descriptors (14, Table 4) -/

/-- The fields of a descriptor's eight words. -/
structure CollDesc where
  src  : Nat
  dst  : Nat
  count : Nat
  att  : Byte
  op   : Nat
  fmt  : Nat
  fx   : Nat
  comm : W32
  npart : Nat
  rank : Nat
  root : Nat
  bad  : Bool
  deriving DecidableEq, Repr

/-- Bytes of an element. -/
def collSize (fmt : Nat) : Nat := if fmt = 1 then 8 else 4

/-- A descriptor's fields, and whether they break R349. COUNT out of its range is taken as a field that breaks it.
[DEDUCED, log entry 32] -/
def parseColl (l : List W64) : CollDesc :=
  let w := fun i => l.getD i 0#64
  let count := bits (w 2) 63 32
  let op := bits (w 2) 23 20
  let fmt := bits (w 2) 19 16
  let fx := bits (w 2) 15 8
  let npart := bits (w 3) 31 16
  let rank := bits (w 3) 15 0
  let root := bits (w 4) 15 0
  { src := (w 0).toNat, dst := (w 1).toNat, count, att := BitVec.ofNat 8 (bits (w 2) 31 24), op, fmt, fx
    comm := BitVec.ofNat 32 (bits (w 3) 63 32), npart, rank, root
    bad := bits (w 2) 7 0 != 0 || bits (w 4) 63 16 != 0 || w 5 != 0#64 || w 7 != 0#64 || decide (3 < op) || decide (2 < fmt) ||
      npart == 0 || decide (npart ≤ rank) || decide (npart ≤ root) || (op != 3 && root != 0) ||
      (fx != 0 && !(op == 0 && fmt == 2)) || decide (63 < fx) || count == 0 || decide (2 ^ 24 < count) }

/-- An address in global memory as an access of a word; other windows have no place in a descriptor. -/
def State.collTr (s : State) (w : Word) (acc : Acc) (ga : Nat) : LaneTr :=
  ⟨w.lanes.headD 0, BitVec.ofNat 64 ga,
   if 2 ^ 56 ≤ ga then .bad 0x09 0x01
   else if physWin ≤ ga ∧ (localWin ≤ ga ∨ !w.sup) then
     (if localWin ≤ ga ∧ ga < localWin + 2 ^ 24 ∨ privWin ≤ ga ∧ ga < privWin + 2 ^ 32 then .bad 0x09 0x0A
      else if ga < localWin then .bad 0x0A 0x03 else .bad 0x09 0x02)
   else s.trans (w.ask acc) ga 1 0⟩

/-- The first address of each 64 KiB page that a range touches. -/
def rangePages (ga len : Nat) : List Nat :=
  if len = 0 then [] else
    (List.range ((ga + len - 1) / 2 ^ 16 - ga / 2 ^ 16 + 1)).map fun i => max ga ((ga / 2 ^ 16 + i) * 2 ^ 16)

/-- A descriptor is located, read and checked in the order of R349. -/
def State.withColl (s : State) (w : Word) (ranges : Bool) (k : CollDesc → Nat → Bool → Eff) : Eff :=
  let a := w.src 0 0
  if w.act = 0#32 then .done s
  else if a % 64 ≠ 0 then .trap { code := 0x08, lanes := w.act, addr := BitVec.ofNat 64 a } s
  else
    s.withLanes w true .store [s.collTr w .store a] fun l =>
      let pa := ((l.head?.bind fun x => x.locs.head?).map Loc.pa).getD 0
      let unc := (l.head?.map LaneTr.uncached).getD false
      if s.poisoned pa 64 then .trap { code := 0x28, lanes := w.act, addr := BitVec.ofNat 64 a } s
      else
        let d := parseColl ((List.range 8).map fun i => s.rd8 (pa + 8 * i))
        if !ranges then k d pa unc
        else if d.src % 16 ≠ 0 ∨ d.dst % 16 ≠ 0 then
          .trap { code := 0x08, lanes := w.act, addr := BitVec.ofNat 64 (if d.src % 16 ≠ 0 then d.src else d.dst) } s
        else
          let n := min d.count (2 ^ 24) * collSize d.fmt
          s.withLanes w true .load ((rangePages d.src n).map (s.collTr w .load)) fun _ =>
            s.withLanes w true .store ((rangePages d.dst n).map (s.collTr w .store)) fun _ => k d pa unc

/-! ### COLL (14, R349, R350) -/

/-- An ingress discards packets of this attempt (14, R352). -/
def State.collStale (s : State) (comm : W32) (att : Byte) : Bool :=
  match Tbl.find s.curAtt comm.toNat with
  | none => false
  | some cur => decide (1 ≤ (cur - att).toNat) && decide ((cur - att).toNat ≤ 127)

/-- What must agree among the joiners of a collective. -/
def Coll.agrees (c : Coll) (d : CollDesc) : Bool :=
  c.count == d.count && c.op == d.op && c.fmt == d.fmt && c.fx == d.fx && c.npart == d.npart && c.root == d.root

/-- The open collectives of a die's engine. -/
def State.collsOf (s : State) (die : Nat) : Tbl Coll :=
  s.colls.filter (fun c => c.2.joined.any (fun p => dieOf (coreOf p.gs) == die && !p.fin))

/-- A participant joins its collective. [DEDUCED, log entry 33] -/
def State.joinColl (s : State) (w : Word) (d : CollDesc) (n id : Nat) : State :=
  let p : CollPart :=
    { rank := d.rank, gs := w.gs, wg := w.g.wg, id, pc := w.slot.pc, sup := w.sup, desc := w.src 0 0, src := d.src, dst := d.dst
      len := d.count * collSize d.fmt }
  match s.colls.find? (fun c => c.2.comm == d.comm && c.2.att == d.att && c.2.nth == n) with
  | none =>
    let x := s.newId
    let c : Coll := { comm := d.comm, att := d.att, nth := n, count := d.count, op := d.op, fmt := d.fmt, fx := d.fx
                      npart := d.npart, root := d.root, joined := [p] }
    { x.2 with colls := Tbl.put x.2.colls x.1 c }
  | some (k, c) =>
    let bad := !c.agrees d || c.joined.any (fun q => q.rank == d.rank)
    { s with colls := Tbl.put s.colls k { c with joined := c.joined ++ [p], code := if bad && c.code == 0 then 0x22 else c.code } }

/-- The STATUS word of a descriptor (14, Table 4). -/
def collStatus (code : Nat) (nf clamp : Bool) : W64 := BitVec.ofNat 64 (fld 8 56 code + fld 1 1 (b2n nf) + b2n clamp)

/-- COLL (14, R349): it executes once and enters the open batch of class 3. [DEDUCED, log entry 32] -/
def execColl (h : Hdr) (a : Reg) (s : State) : Out :=
  s.issue (.coll h a) fun w s =>
    if w.act != 0#32 && s.opWaits w.gs w.g.wg then .wait .switchPark s
    else
      s.withColl w true fun d pa unc =>
        if d.bad then .trap { code := 0x22, lanes := w.act, addr := BitVec.ofNat 64 (w.src 0 0) } s
        else
          let x := (s.notReplayable (s.spidOf w.g)).newId
          if s.collStale d.comm d.att then
            let a := s.agentOf w.gs w.g.wg w.sup w.slot.pc (2 ^ 45 + w.gs)
            (match x.2.engPut a (.mem (pa + 0x30)) unc (wordBytes [collStatus 0x23 false false]) with
             | .ok s1 => .done (s1.updGroup w.gs fun g =>
                 g.addOp .cl { id := x.1, pc := w.slot.pc, fin := true, fault := some ⟨0x23#8, 0#8, 0#64⟩, fail := 1#16 })
             | .wait s1 => .wait .batchWait s1
             | .bad c _ => .trap { code := c, lanes := w.act, addr := BitVec.ofNat 64 (w.src 0 0) } s)
          else if 64 ≤ (s.collsOf (dieOf (coreOf w.gs))).length then .wait .batchWait s
          else
            let n := ((w.g.collSeq.find? (fun c => c.1 == d.comm && c.2.1 == d.att)).map (·.2.2)).getD 0
            .done ((x.2.joinColl w d n x.1).updGroup w.gs fun g =>
              { g.addOp .cl { id := x.1, pc := w.slot.pc } with
                collSeq := (d.comm, d.att, n + 1) :: g.collSeq.filter (fun c => !(c.1 == d.comm && c.2.1 == d.att)) })

/-! ### CABORT and abort tokens (14, R352) -/

/-- CABORT: the token is sent, ATT is raised by a weak store of the group, the group waits for the acknowledgements. -/
def execCabort (h : Hdr) (a : Reg) (s : State) : Out :=
  s.issue (.cabort h a) fun w s =>
    if w.slot.phase = .token then
      (if (Tbl.find s.tokens w.gs).isSome then .wait .batchWait s else .done s)
    else
      s.withColl w false fun d pa unc =>
        let ga := w.src 0 0 + 0x13
        let acc : LaneAcc := { lane := w.lanes.headD 0, ga := BitVec.ofNat 64 ga, locs := [.mem (pa + 0x13)], len := 1
                               data := (d.att + 1#8).setWidth 128, unc }
        let s1 := s.sendWrites w .store [acc] 1 .weak .none true false []
        .wait .batchWait ({ s1 with tokens := Tbl.put s1.tokens w.gs (d.comm, d.att) }.updGroup w.gs fun g =>
          g.setSlot w.b (some { w.slot with phase := .token }))

/-- Every unfinished collective of a communicator and attempt is aborted, and the next attempt is the current one. -/
def State.abortColls (s : State) (comm : W32) (att : Byte) : State :=
  { s with
    curAtt := Tbl.put s.curAtt comm.toNat (att + 1#8)
    colls := s.colls.map fun c => (c.1, if c.2.comm == comm && c.2.att == att && c.2.code == 0 then { c.2 with code := 0x23 } else c.2) }

/-- ABORT_TOKEN: a token of this module, or of another module of the domain, has reached every engine and switch. -/
def execAbortToken (comm : W32) (att : Byte) (s : State) : Out :=
  .next (
    if s.tokens.any (fun t => t.2 == (comm, att)) || decide (2 ≤ s.sec.domain.length) then
      let s1 := s.abortColls comm att
      { s1 with tokens := s1.tokens.filter (fun t => t.2 != (comm, att)) }
    else s)

/-! ### The collective engine (14, R350, R351; 16, R392) -/

/-- The elements of a chunk of 128 bytes, from their bytes. -/
def collElems (fmt : Nat) (l : List Byte) : List Nat :=
  let n := collSize fmt
  (List.range (l.length / n)).map fun i => ofBytes ((l.drop (n * i)).take n)

/-- A contribution to a fixed-point sum: its value, NF, CLAMP (14, R350). -/
def fixedOf (fx : Nat) (x : Nat) : Int × Bool × Bool :=
  let top : Int := 2 ^ 47 - 1
  match f32.val x with
  | .nan => (0, true, false)
  | .inf n => (if n then -top else top, true, true)
  | .fin n m e =>
    let k : Int := e + fx
    let r := if 0 ≤ k then m * 2 ^ k.toNat else roundShift .rne n m (-k).toNat
    if 2 ^ 47 - 1 < r then (if n then -top else top, false, true) else (if n then -(r : Int) else (r : Int), false, false)

/-- Two elements combined. -/
def collCombine (op fmt : Nat) (x y : Int) : Int :=
  if op = 0 then x + y
  else if op = 3 then y
  else if fmt = 2 then (f32.pickBy (op == 2) false x.toNat y.toNat : Nat)
  else if op = 1 then min x y else max x y

/-- A contribution's value. -/
def collIn (c : Coll) (x : Nat) : Int × Bool × Bool :=
  if c.op = 3 then ((x : Int), false, false)
  else if c.fmt = 2 then (if c.op = 0 then fixedOf c.fx x else (((x : Nat) : Int), false, false))
  else (signed (8 * collSize c.fmt) (x : Int), false, false)

/-- An element's bytes at the destination. -/
def collOut (c : Coll) (x : Int) : List Byte :=
  let n := collSize c.fmt
  if c.fmt = 2 && c.op == 0 then toBytes 4 (f32.round .rne (.fin (decide (x < 0)) x.natAbs (-(c.fx : Int))))
  else if c.fmt = 2 && c.op != 3 then
    toBytes 4 (if (f32.val x.toNat).isNan then f32.nanEnc else x.toNat)
  else toBytes n ((x % (2 ^ (8 * n) : Nat)).toNat)

/-- A chunk enters a collective once. -/
def Coll.take (c : Coll) (rank chunk : Nat) (xs : List Nat) : Coll :=
  let per := 128 / collSize c.fmt
  let r := (List.range xs.length).foldl (fun (r : Tbl Int × Bool × Bool) i =>
    let v := collIn c (xs.getD i 0)
    let k := chunk * per + i
    (Tbl.put r.1 k (match Tbl.find r.1 k with
      | some y => collCombine c.op c.fmt y v.1
      | none => v.1), r.2.1 || v.2.1, r.2.2 || v.2.2)) (c.acc, c.nf, c.clamp)
  { c with acc := r.1, nf := r.2.1, clamp := r.2.2, parts := (rank, chunk) :: c.parts }

/-- The chunks of a participant. -/
def Coll.chunks (c : Coll) : Nat := (c.count * collSize c.fmt + 127) / 128
/-- A rank's data enter the collective. -/
def Coll.needs (c : Coll) (rank : Nat) : Bool := c.op != 3 || rank == c.root

/-- A participant of a collective, changed. -/
def State.updColl (s : State) (k : Nat) (f : Coll → Coll) : State := { s with colls := Tbl.upd s.colls k f }
def Coll.updPart (c : Coll) (id : Nat) (f : CollPart → CollPart) : Coll :=
  { c with joined := c.joined.map fun p => if p.id = id then f p else p }

/-- A participant's operation fails (12, R306). [DEDUCED, log entry 32] -/
def State.failPart (s : State) (k : Nat) (p : CollPart) (code det addr : Nat) : State :=
  (s.updColl k fun c => c.updPart p.id fun p => { p with fin := true, failed := true }).opDone p.gs .cl p.id fun o =>
    { o with fault := some ⟨BitVec.ofNat 8 code, BitVec.ofNat 8 det, BitVec.ofNat 64 addr⟩, fail := 1#16 }

/-- COLLECTIVE_PACKET: a chunk of a participant's source is read and combined; one that has been combined is discarded. -/
def execCollectivePacket (coll rank chunk : Nat) (s : State) : Out :=
  .next (match Tbl.find s.colls coll with
  | none => s
  | some c =>
    match c.joined.find? (fun p => p.rank == rank && !p.fin) with
    | none => s
    | some p =>
      if c.code ≠ 0 || c.parts.contains (rank, chunk) || decide (c.chunks ≤ chunk) || !c.needs rank ||
          s.wgHalted p.wg then s
      else
        let a := s.agentOf p.gs p.wg p.sup p.pc p.id
        let n := min 128 (p.len - 128 * chunk)
        match s.getPieces a false (p.src + 128 * chunk) ((n + 15) / 16) with
        | (.wait _, s1) => s1
        | (.bad cd d, s1) => s1.failPart coll p cd d (p.src + 128 * chunk)
        | (.ok l, s1) => s1.updColl coll fun c => c.take rank chunk (collElems c.fmt (l.take n)))

/-- Every rank has joined, and every chunk that counts has been combined. [DEDUCED, log entry 33] -/
def Coll.ready (c : Coll) : Bool :=
  decide (c.npart ≤ ((c.joined.map (·.rank)).eraseDups).length) &&
    c.joined.all (fun p => !c.needs p.rank || (List.range c.chunks).all (fun i => c.parts.contains (p.rank, i)))

/-- The bytes of a participant's destination. -/
def Coll.result (c : Coll) : List Byte := c.acc.flatMap fun e => collOut c e.2

/-- An earlier collective of a participant's group still writes bytes of its destination: the later one's value is final, so it
waits (03, R96). -/
def State.collBehind (s : State) (p : CollPart) : Bool :=
  s.colls.any (fun c => c.2.joined.any (fun q => q.gs == p.gs && decide (q.id < p.id) && !q.fin &&
    decide (q.dst < p.dst + p.len) && decide (p.dst < q.dst + q.len)))

/-- Pieces of a destination, each at its offset, are written from where the participant has come to; `some true` tells
that all are written. Destination and STATUS get the issuing group's watermark, as engine writes do. [DESIGN CHOICE, log entry 132] -/
def State.collWrite (s : State) (k : Nat) (p : CollPart) (a : Agent) : List (Nat × List Byte) → State × Option Bool
  | [] => (s, some true)
  | (pos, l) :: t =>
    let n := p.pos - pos
    if l.length ≤ n then s.collWrite k p a t
    else
      match s.putPieces a false (p.dst + pos + n) 0 (piecesAt (p.dst + pos + n) (l.drop n)) with
      | .done s1 => (s1.updColl k fun c => c.updPart p.id fun q => { q with pos := pos + l.length }).collWrite k p a t
      | .later m s1 => (s1.updColl k fun c => c.updPart p.id fun q => { q with pos := pos + n + m }, none)
      | .fail c d ad s1 => (s1.failPart k p c d ad, some false)

/-- The pieces of a participant's destination. -/
def CollPart.pieces (p : CollPart) (all : List Byte) : List (Nat × List Byte) :=
  (List.range ((p.len + 63) / 64)).map fun i => (64 * i, (all.drop (64 * i)).take (min 64 (p.len - 64 * i)))

/-- STATUS is written, then the participant's operation is done (14, R351). -/
def State.collFinish (s : State) (k : Nat) (p : CollPart) (a : Agent) (c : Coll) : State :=
  match s.putPieces a false (p.desc + 0x30) 0 [wordBytes [collStatus c.code c.nf c.clamp]] with
  | .done s1 =>
    (s1.updColl k fun c => c.updPart p.id fun p => { p with fin := true }).opDone p.gs .cl p.id fun o =>
      if c.code = 0 then { o with done := 1#16 }
      else { o with fault := some ⟨BitVec.ofNat 8 c.code, 0#8, 0#64⟩, fail := 1#16 }
  | .later _ s1 => s1
  | .fail cd d ad s1 => s1.failPart k p cd d ad

/-- A destination is left undefined, as far as it has places. -/
def State.collSmear (s : State) (a : Agent) (p : CollPart) : State :=
  (List.range ((p.len + 15) / 16)).foldl (fun s i => s.smearAt a false (p.dst + 16 * i) (min 16 (p.len - 16 * i))) s

/-- One participant of a collective that is complete or ended. -/
def State.collPart (s : State) (k : Nat) (p : CollPart) : State :=
  match Tbl.find s.colls k with
  | none => s
  | some c =>
    if p.fin || (c.code == 0 && (s.wgHalted p.wg || s.collBehind p)) then s
    else
      let a := s.agentOf p.gs p.wg p.sup p.pc p.id
      if c.code ≠ 0 then (s.collSmear a p).collFinish k p a c
      else
        match s.collWrite k p a (p.pieces c.result) with
        | (s1, some true) => s1.collFinish k p a c
        | (s1, _) => s1

/-- COLLECTIVE_COMPLETE: every participant's destination and STATUS are written, its batch's operation completes (14,
R350); a collective that all its participants have left is gone. -/
def execCollectiveComplete (coll : Nat) (s : State) : Out :=
  .next (match Tbl.find s.colls coll with
  | none => s
  | some c =>
    if c.code = 0 && !c.ready then s
    else
      let s1 := c.joined.foldl (fun s p => s.collPart coll p) s
      match Tbl.find s1.colls coll with
      | none => s1
      | some c1 =>
        if c1.joined.all (·.fin) && (c1.code == 0x23 || decide (c1.npart ≤ c1.joined.length)) then
          { s1 with colls := Tbl.del s1.colls coll }
        else s1)

end Sys2Proof.Machine
end

