-- ==== Sys2Proof/Machine/Commit.lean ====
section
/-! DEFINITION. The outermost TXE and the steps of its commit: prepares, replies, timeouts, commit and abort messages (05,
R137, R141 to R144; 12, R303). A message is a packet with a serial, as every operation of R126 is. -/

namespace Sys2Proof.Machine

/-- The logical slice of a word, ascending over the dies of the module. -/
def txSlice (pa : Nat) : Nat := homeDie pa * 64 + homeLs pa
/-- The words of a lane at a slice. -/
def TxLane.at_ (t : TxLane) (sl : Nat) : List TxWord := t.words.filter (fun w => txSlice w.pa == sl)

/-- Lane `L` conflicts with a lower lane of the same TXE (05, R141 step 1). -/
def intraConflict (g : Group) (lanes : List Nat) (L : Nat) : Bool :=
  lanes.any fun K => decide (K < L) && (g.txLane K).words.any fun x =>
    (g.txLane L).words.any fun y => x.pa == y.pa && (x.wmask != 0#8 || y.wmask != 0#8)

/-- The slices of some lanes' words, ascending. -/
def txSlices (g : Group) (lanes : List Nat) : List Nat :=
  sortBy id ((lanes.flatMap fun L => (g.txLane L).words.map fun w => txSlice w.pa).eraseDups)

/-- The slot whose TXE is under way. -/
def txSlot (g : Group) : Bool := (g.slotB.map fun p => p.phase == .commit).getD false
/-- The point of that TXE. -/
def State.txAt (s : State) (gs : Nat) (g : Group) : At :=
  ⟨((g.slot (txSlot g)).map (·.pc)).getD g.regpc, s.rwcNow gs g, g.nissue, txSlot g⟩

/-! ### Packets (05, R126, R141) -/

/-- A message is a prepare; a commit. -/
def TxMsg.isPrepare : TxMsg → Bool
  | .prepare _ => true
  | _ => false
def TxMsg.isCommit : TxMsg → Bool
  | .commit _ _ => true
  | _ => false

/-- The access of a lane's word in a message: its written bytes, or the whole word where it was only read. -/
def TxWord.acc (x : TxWord) (L : Nat) : LaneAcc :=
  let l := (List.range 8).filter (fun i => x.wmask.getLsbD i)
  let lo := l.headD 0
  let n := if l.isEmpty then 8 else l.getLastD 0 + 1 - lo
  { lane := L, ga := x.ga + BitVec.ofNat 64 lo, locs := [.mem (x.pa + lo)], data := BitVec.ofNat 128 (x.wdata.toNat / 2 ^ (8 * lo) % 2 ^ (8 * n))
    len := n, tx := true }
/-- A lane's words at a slice as accesses: those written, or all of them where none is. -/
def TxLane.accs (t : TxLane) (sl L : Nat) : List LaneAcc :=
  let ws := t.at_ sl
  let w := ws.filter (fun x => x.wmask != 0#8)
  (if w.isEmpty then ws else w).map fun x => x.acc L
/-- The words that a lane holds reserved at a slice. -/
def State.heldWords (s : State) (gs L sl : Nat) : List Nat :=
  (s.locks.filter (fun l => txSlice l.1 == sl && l.2 == (gs, L))).map (·.1)

/-- A packet about a group's transaction, of its TXE's word. -/
def State.txSend (s : State) (gs : Nat) (m : TxMsg) (lanes : Mask) (accs : List LaneAcc) : State :=
  match Tbl.find s.groups gs with
  | none => s
  | some g =>
    let a := s.txAt gs g
    let q := s.packetOf { unit := coreOf gs, spid := s.spidOf g, part := s.partOf g, cls := ((s.gridOf g).map (·.cls)).getD 1, strong := true }
      (.tx gs m) accs 8
    s.putReq { q with
      wg := g.wg, pc := a.pc, rwc := a.rwc, nth := a.nth, b := a.b, mask := lanes, head := true, sco := .dev
      mode := (g.txe.map (·.mode)).getD 1#2, slack := s.slackOf (coreOf gs) }

/-- The packets of a group's TXE that are not done with. -/
def State.txMsgs (s : State) (gs : Nat) (f : TxMsg → Bool) : Tbl Req :=
  s.reqs.filter (fun e => match e.2.txMsg with
    | some (k, m) => k == gs && f m
    | none => false)

/-- A group's TXE under way. -/
def State.updTxe (s : State) (gs : Nat) (f : TxRun → TxRun) : State :=
  s.updGroup gs fun g => { g with txe := g.txe.map f }

/-- The prepare of the next slice goes out for the lanes that have words there (05, R141 step 2). -/
def State.sendPrepare (s : State) (gs sl : Nat) : State :=
  match (Tbl.find s.groups gs).bind fun g => g.txe.map fun r => (g, r) with
  | none => s
  | some (g, r) =>
    let lanes := (laneList r.lanes).filter (fun L => !((g.txLane L).at_ sl).isEmpty)
    s.txSend gs (.prepare sl) (maskOf (lanes.contains ·)) (lanes.flatMap fun L => ((g.txLane L).at_ sl).map fun x =>
      { lane := L, ga := x.ga, locs := [.mem x.pa], len := 8, tx := true })

/-- Abort messages for what some lanes hold reserved. -/
def State.sendAborts (s : State) (gs : Nat) (l : List (Nat × Nat)) : State :=
  l.foldl (fun s x =>
    let ws := s.heldWords gs x.2 x.1
    if ws.isEmpty then s
    else s.txSend gs (.abort x.1 x.2) (1#32 <<< x.2) (ws.map fun pa =>
      { lane := x.2, ga := BitVec.ofNat 64 pa, locs := [.mem pa], len := 8, tx := true })) s

/-- The decision: commit messages for the surviving lanes to all their slices, abort messages for what the others hold (05, R141
steps 4 and 5). -/
def State.decideTxe (s : State) (gs : Nat) (commit : Mask) : State :=
  match (Tbl.find s.groups gs).bind fun g => g.txe.map fun r => (g, r) with
  | none => s
  | some (g, r) =>
    let s1 := s.updTxe gs fun r => { r with lanes := commit, decided := true }
    let go := (laneList commit).flatMap fun L => (txSlices g [L]).map fun sl => (sl, L)
    let s2 := go.foldl (fun s x => s.txSend gs (.commit x.1 x.2) (1#32 <<< x.2) ((g.txLane x.2).accs x.1 x.2)) s1
    s2.sendAborts gs (r.prepared.flatMap fun p => ((laneList p.2).filter (fun L => !inMask commit L)).map fun L => (p.1, L))

/-- Nothing of a decided TXE is left to send or to be acknowledged. -/
def State.txOver (s : State) (gs : Nat) (r : TxRun) : Bool := r.decided && (s.txMsgs gs fun _ => true).isEmpty
/-- A TXE that a halt has undone is over once its messages are (05, R144). -/
def State.txSettle (s : State) (gs : Nat) : State :=
  match (Tbl.find s.groups gs).bind fun g => g.txe.map fun r => (g, r) with
  | none => s
  | some (g, r) =>
    if s.txOver gs r && !(((g.slot (txSlot g)).map fun p => p.phase == .commit).getD false) then
      s.updGroup gs fun g => { g with txe := none }
    else s

/-- A halt finds a TXE that has not been decided: its lanes are doomed, what it has reserved is released once the slice it waits for
has answered, the word is issued again (05, R144). -/
def State.txUndo (s : State) (gs : Nat) : State :=
  match Tbl.find s.groups gs with
  | none => s
  | some g =>
    let stop := fun (g : Group) => g.txAbort ((g.tx.filter (fun t => decide (0 < t.2.depth) && !t.2.doomed)).map (·.1)) 6 0 false
    match g.txe with
    | none => s.updGroup gs stop
    | some r =>
      if r.decided then s.updGroup gs fun g => g.txAbort (((g.tx.filter (fun t => decide (0 < t.2.depth) && !t.2.doomed)).map (·.1)).filter
        (fun L => !inMask r.lanes L)) 6 0 false
      else
        let idle := fun (p : PcSlot) => if p.phase = .commit then { p with phase := .idle } else p
        let s1 := s.updGroup gs fun g => { stop g with
          txe := some { r with lanes := 0#32 }, slotA := g.slotA.map idle, slotB := g.slotB.map idle }
        if (s1.txMsgs gs fun _ => true).isEmpty then (s1.decideTxe gs 0#32).txSettle gs else s1

/-! ### The decision and its outcome -/

/-- The decision is taken and logged; in re-execution it is the logged one (17, R400, R403). -/
def State.takeDecision (s : State) (gs : Nat) : State :=
  match Tbl.find s.groups gs with
  | none => s
  | some g =>
    match g.txe with
    | none => s
    | some r =>
      let a := s.txAt gs g
      if !(((g.slot (txSlot g)).map fun p => p.phase == .commit).getD false) then (s.decideTxe gs 0#32).txSettle gs
      else
      let go := fun (m : Mask) (s : State) =>
        let s1 := if m = 0#32 then s else
          let x := (s.tickRc gs).mergePending gs
          x.acquireL1 (coreOf gs) .dev
        s1.decideTxe gs m
      s.gated (s.spidOf g) gs g a 2 0xFF 0 s fun v s =>
        match v with
        | some v =>
          let m := v.setWidth 32
          if m &&& ~~~r.lanes = 0#32 then
            go m (s.updGroup gs fun g => g.txAbort (laneList (r.lanes &&& ~~~m)) 1 0 false)
          else s.parting (s.spidOf g) gs a 0 (List.replicate 4 0#64)
        | none => go r.lanes (s.logGroup g 2 0xFF a.rwc 0 (r.lanes.setWidth 64))

/-- A TXE begins (05, R141 steps 1 and 2). -/
def State.beginTxe (s : State) (w : Word) (lanes : List Nat) : State :=
  let hit := lanes.filter (intraConflict w.g lanes)
  let g1 := w.g.txAbort hit 1 0 true
  let live := lanes.filter (fun L => !hit.contains L)
  let r : TxRun :=
    { lanes := maskOf (live.contains ·), todo := txSlices g1 live, prepared := [], waiting := [], decided := false
      mode := (s.space (s.spidOf w.g)).mode }
  let s1 := s.updGroup w.gs fun _ => { g1.setSlot w.b (some { w.slot with phase := .commit }) with txe := some r }
  match r.todo with
  | [] => s1.takeDecision w.gs
  | sl :: _ => s1.sendPrepare w.gs sl

/-- The end of a TXE for its lanes: depth 2 or more falls by one; depth 1 becomes 0, with status 0 where the lane
committed (05, R137, R143). -/
def endTxLane (t : TxLane) : TxLane :=
  if 2 ≤ t.depth then { t with depth := t.depth - 1 }
  else { depth := 0, status := if t.doomed then t.status else 0#32 }

/-- TXE (05, R137, R140, R141): as a FENCE.AR of scope .DEV before and after the transaction's words (03, R85). -/
def execTxe (h : Hdr) (s : State) : Out :=
  s.issue (.txe h) fun w s =>
    let none_ := w.lanes.filter (fun L => (w.g.txLane L).depth == 0)
    let run := w.lanes.filter (fun L => (w.g.txLane L).depth == 1 && (w.g.txLane L).open_)
    let finish := fun (s : State) => s.updGroup w.gs fun g => w.lanes.foldl (fun g L => g.updTx L endTxLane) g
    match w.g.txe with
    | some r =>
      if s.txOver w.gs r then
        let s1 := finish (s.updGroup w.gs fun g => { g with txe := none })
        .done (if r.lanes = 0#32 then s1 else
          ((s1.mergePending w.gs).acquireL1 (coreOf w.gs) .dev).updGroup w.gs fun g =>
            { g with chk := { g.chk with relFence := true } })
      else .wait .txCommit s
    | none =>
      if !none_.isEmpty then .trap { code := 0x11, lanes := maskOf (none_.contains ·) } s
      else if run.isEmpty then .done (finish s)
      else if s.fenceWaits w.gs w.g.wg .dev then .wait .txCommit s
      else .wait .txCommit (s.beginTxe w run)

/-! ### At a slice (05, R141 step 3) -/

/-- A copy of a packet about a group's transaction that its slice is to perform. -/
def State.txArrived (s : State) (gs : Nat) (f : TxMsg → Bool) : Option (Nat × Req × Copy × BitVec 16) :=
  ((s.txMsgs gs f).filter (fun e => e.2.stage == .mesh || e.2.stage == .atHome)).findSome? fun e =>
    e.2.serial.bind fun n =>
      (e.2.copies.find? (fun c => s.arrived e.2 c && (s.ownerDecides e.2 n c).1 == .perform)).map fun c => (e.1, e.2, c, n)

/-- The lines of a packet return to their slice (05, R122, R124). -/
def State.recallLines (s : State) (q : Req) : Option State :=
  q.lines.foldl (fun o l => o.bind fun s => s.recallHome q.core l) (some s)

/-- Lanes of all groups that wait in a slice's prepare queue. -/
def State.txQueue (s : State) (sl : Nat) : Nat :=
  (s.groups.map fun e => (e.2.txe.map fun r => if r.todo.head? = some sl then r.waiting.length else 0).getD 0).sum

/-- A lane's part of a prepare is answered with a code: 0, or that of its abort (05, R126 Table 3). -/
def State.prepareCode (s : State) (gs id L code : Nat) : State :=
  (s.updReq id fun q => { q with accs := q.accs.map fun a => if a.lane = L then { a with perf := true, err := code } else a }).updTxe gs
    fun r => { r with waiting := r.waiting.filter (fun x => x.1 != L) }

/-- A lane is reserved and validated at a slice, or waits, or aborts (05, R141 step 3). -/
def State.prepareLane (s : State) (gs sl id L : Nat) : State :=
  match (Tbl.find s.groups gs).bind fun g => g.txe.map fun r => (g, r) with
  | none => s
  | some (g, r) =>
    let ws := (g.txLane L).at_ sl
    let taken := ws.any (fun x => match Tbl.find s.locks x.pa with
      | some o => o != (gs, L)
      | none => false)
    let full := decide (1024 < (s.locks.filter (fun l => txSlice l.1 == sl)).length + ws.length)
    if !inMask r.lanes L then s.prepareCode gs id L 6
    else if taken || full then
      if r.waiting.any (fun x => x.1 == L) then s
      else if 64 ≤ s.txQueue sl then s.prepareCode gs id L 5
      else s.updTxe gs fun r => { r with waiting := r.waiting ++ [(L, s.clock)] }
    else if ws.all (fun x => x.rd.all (· == s.rd8 x.pa)) then
      (({ s with locks := ws.foldl (fun (t : Tbl (Nat × Nat)) (x : TxWord) => Tbl.put t x.pa (gs, L)) s.locks } : State).prepareCode gs id L 0).updTxe
        gs fun r => { r with
          prepared := match r.prepared.find? (fun p => p.1 == sl) with
            | some p => r.prepared.filter (fun p => p.1 != sl) ++ [(sl, p.2 ||| (1#32 <<< L))]
            | none => r.prepared ++ [(sl, 1#32 <<< L)] }
    else s.prepareCode gs id L 1

/-- The reply to a prepare goes back once none of its lanes waits. -/
def State.prepareDone (s : State) (id : Nat) (ser : BitVec 16) (copy : Nat) : State :=
  match Tbl.find s.reqs id with
  | none => s
  | some q =>
    if q.accs.all (·.perf) then
      (s.updReq id fun q => { q with stage := .performed }).ownerKeeps id q ser copy q.accs
    else s

/-- TX_PREPARE: a copy of a prepare is performed at its slice; a lane that waits is tried again (05, R141). [DEDUCED, log entry 13] -/
def execTxPrepare (gs : Nat) (s : State) : Out :=
  .next (match s.txArrived gs TxMsg.isPrepare with
  | none => s
  | some (id, q, c, ser) =>
    match (s.ownerDecides q ser c).2.recallLines q with
    | none => s
    | some s1 =>
      let sl := txSlice (q.memAt.getD 0)
      let l := ((q.accs.filter (fun a => !a.perf)).map (·.lane)).eraseDups
      (l.foldl (fun s L => s.prepareLane gs sl id L) s1).prepareDone id ser c.id)

/-- TX_PREPARE_REPLY: the lanes that the slice turned away abort; the next slice's packet goes out, or the decision is taken (05,
R141). -/
def execTxPrepareReply (gs : Nat) (s : State) : Out :=
  .next (match (s.txMsgs gs TxMsg.isPrepare).find? (fun e => e.2.stage == .performed && e.2.serial.isNone) with
  | none => s
  | some (id, q) =>
    let out := (q.accs.filter (fun a => a.err != 0)).map fun a => (a.lane, a.err)
    let s1 := (s.dropReq id).updGroup gs fun g => out.foldl (fun g x => if ((g.txLane x.1).open_) then g.txAbort [x.1] x.2 0 false else g) g
    let s2 := s1.updTxe gs fun r => { r with lanes := r.lanes &&& maskOf fun L => !out.any (fun x => x.1 == L), waiting := [] }
    match (Tbl.find s2.groups gs).bind fun g => g.txe.map fun r => (g, r) with
    | none => s2
    | some (g, r) =>
      let todo := (r.todo.drop 1).filter (fun sl => (laneList r.lanes).any (fun L => !((g.txLane L).at_ sl).isEmpty))
      match todo with
      | [] => s2.takeDecision gs
      | sl :: _ => (s2.updTxe gs fun r => { r with todo }).sendPrepare gs sl)

/-- TX_PREPARE_TIMEOUT: a lane that has waited 4,096 cycles is turned away (05, R141). -/
def execTxPrepareTimeout (gs lane : Nat) (s : State) : Out :=
  .next (match (Tbl.find s.groups gs).bind (·.txe), s.txArrived gs TxMsg.isPrepare with
  | some r, some (id, _, c, ser) =>
    if r.waiting.any (fun x => x.1 == lane && decide (x.2 + 4096 ≤ s.clock)) then
      (s.prepareCode gs id lane 5).prepareDone id ser c.id
    else s
  | _, _ => s)

/-! ### Commit (05, R141 step 5; 04, R103, R114 to R120) -/

/-- The words that a lane holds reserved at a slice are released. -/
def State.releaseWords (s : State) (gs lane sl : Nat) : State :=
  { s with locks := s.locks.filter (fun l => !(txSlice l.1 == sl && l.2 == (gs, lane))) }

/-- What the committing lanes of a TXE write in a sector, as one request: its checks, its record and its watermark cover the
instruction's lanes (04, R103, R118 to R120). -/
def Req.txSector (q : Req) (g : Group) (r : TxRun) (n : Nat) : Req :=
  { q.asOwn with
    kind := .store
    accs := (laneList r.lanes).flatMap fun L => ((g.txLane L).words.filter (fun x => x.wmask != 0#8 && x.pa / 64 == n)).map fun x => x.acc L }

/-- The sectors that a commit message writes. -/
def Req.txSectors (q : Req) (g : Group) : List Nat :=
  ((q.accs.filter (fun a => (g.txLane a.lane).words.any (fun x => x.wmask != 0#8 && x.pa / 8 == a.pa / 8))).map fun a => a.pa / 64).eraseDups

/-- The races of a TXE's commit messages that have not performed. -/
def State.txRaces (s : State) (gs : Nat) (g : Group) (r : TxRun) : List RaceAcc :=
  let left := (s.txMsgs gs TxMsg.isCommit).filter (fun e => e.2.stage != .performed)
  if r.mode == 0#2 then []
  else
    (left.flatMap fun e => (e.2.txSectors g).map fun n => (n, e.2)).foldl (fun (l : List RaceAcc) x =>
      let q := x.2.txSector g r x.1
      let wm := Tbl.get 0#64 s.wms x.1
      let v := s.sectorVerdict q g x.1 wm true
      let rc := { q.race false x.1 wm v.2 with acc := 3 }
      if v.1 == .race && !(l.any (fun y => y.sect == x.1)) then l ++ [rc] else l) []

/-- A fault of a committing TXE: what has not been performed is aborted, and the word takes the cause (04, R118). A message that was
performed before stays performed. [DEDUCED, log entry 134] -/
def State.txFault (s : State) (gs : Nat) (g : Group) (r : TxRun) (c : Cause) : State :=
  let msgs := s.txMsgs gs TxMsg.isCommit
  let left := msgs.filter (fun e => e.2.stage != .performed)
  let kept := maskOf fun L => msgs.any (fun e => e.2.stage == .performed && inMask e.2.mask L)
  let s1 := (left.foldl (fun s e => s.dropReq e.1) s).updTxe gs fun x => { x with lanes := r.lanes &&& kept }
  let gone := left.filterMap fun e => match e.2.txMsg with
    | some (_, .commit sl L) => some (sl, L)
    | _ => none
  (((s1.sendAborts gs gone).updGroup gs fun g => g.txAbort ((laneList r.lanes).filter (fun L => !inMask kept L)) 1 0 false).raise gs
    (s.txAt gs g) c).txSettle gs

/-- R114 at the slice for a commit message: `some true` lets it perform, `some false` returns it. -/
def State.txCheck (s : State) (q : Req) (g : Group) (r : TxRun) : Bool :=
  let ns := q.txSectors g
  r.mode == 0#2 ||
    (if q.verified.isSome then q.wms.all (fun x => Tbl.get 0#64 s.wms x.1 == x.2)
     else ns.all (fun n => s.homePasses (q.txSector g r n) g (Tbl.get 0#64 s.wms n) true))

/-- A commit message is returned unperformed with the watermarks of its sectors; after the third return these are held for it. -/
def State.txReturn (s : State) (id : Nat) (q : Req) (g : Group) : State :=
  let ns := q.txSectors g
  let s1 := s.updReq id fun q =>
    { q with stage := .unperformed, wms := ns.map fun n => (n, Tbl.get 0#64 s.wms n), returns := q.returns + 1 }
  if 3 ≤ q.returns + 1 then { s1 with holds := ns.foldl (fun t n => Tbl.put t n (id, s.clock)) s1.holds } else s1

/-- The core completes the test of a returned commit message and resends it verified, or takes the race fault of the TXE; in report
mode it records each raced sector once (04, R114, R118 to R120). -/
def State.txReturned (s : State) (id gs : Nat) (g : Group) (r : TxRun) (q : Req) : State :=
  let races := sortBy RaceAcc.lowest (s.txRaces gs g r)
  let mine := (s.txRaces gs g r).filter (fun x => (q.txSectors g).contains x.sect)
  match races, q.mode == 1#2 && !mine.isEmpty with
  | x :: t, true =>
    (s.txFault gs g r { code := 0x10, lanes := t.foldl (fun m y => m ||| y.lanes) x.lanes, addr := x.addr, ext := s.raceWords gs g x })
  | _, _ =>
    let due := if mine.isEmpty then [] else races.filter (fun x => !r.seen.contains (2 * x.sect + 1))
    let s1 := due.foldl (fun s x => s.appendRace q.spid (s.raceWords gs g x)) s
    (s1.updTxe gs fun r => { r with seen := r.seen ++ due.map fun x => 2 * x.sect + 1 }).updReq id fun q =>
      { q with stage := .mesh, since := s.clock, verified := some 0#64 }

/-- One sector of a commit message is written: counted once for the instruction (04, R119), recorded as its lanes' write. -/
def State.txWrite (s : State) (gs : Nat) (g : Group) (r : TxRun) (q : Req) (n : Nat) : State :=
  let x := q.txSector g r n
  let first := !r.seen.contains (2 * n)
  let s0 := if first && r.mode != 0#2 then s.countCheck q.spid (s.sectorVerdict x g n (Tbl.get 0#64 s.wms n) true).1 else s
  let mine := x.accs.filter (fun a => inMask q.mask a.lane)
  let odd := s0.clashes x mine
  let cells := ((laneList q.mask).flatMap fun L => ((g.txLane L).words.filter (fun w => w.pa / 64 == n)).flatMap fun w =>
    ((List.range 8).filter (fun i => w.wmask.getLsbD i)).map fun i => (w.pa + i, BitVec.ofNat 8 (w.wdata.toNat / 2 ^ (8 * i) % 256)))
  let s1 := (((s0.homeWrite q.spid q.part true cells).spoil cells).recordSector { x with head := true } n false (coverOf x.accs n)).l1Drop q.core (n / 2)
  let s2 := (mine.foldl (fun s a => s.noteStrong { x with accs := [a] } n) (s1.blurAll odd)).spillHits { x with accs := mine }
  s2.updTxe gs fun r => { r with seen := if first then r.seen ++ [2 * n] else r.seen }

/-- A commit message performs at its slice: its lane's bytes, the watermarks, the release of the words. -/
def State.txCommitGo (s : State) (id gs sl lane : Nat) (g : Group) (q : Req) (ser : BitVec 16) (copy : Nat) : State :=
  let s1 := (q.txSectors g).foldl (fun s n => match (Tbl.find s.groups gs).bind (·.txe) with
    | some r => s.txWrite gs g r q n
    | none => s) s
  let done := q.accs.map fun a => { a with perf := true }
  (((s1.releaseWords gs lane sl).updReq id fun q => { q with stage := .performed, accs := done })).ownerKeeps id q ser copy done

/-- TX_COMMIT_MESSAGE (05, R141 step 5). -/
def execTxCommitMessage (gs lane slice : Nat) (s : State) : Out :=
  .next (match s.txArrived gs (· == .commit slice lane), (Tbl.find s.groups gs).bind fun g => g.txe.map fun r => (g, r) with
  | some (id, q, c, ser), some (g, r) =>
    if !((q.txSectors g).all fun n => s.mayPerform id q (.sector n)) then s
    else
      match (s.ownerDecides q ser c).2.recallLines q with
      | none => s
      | some s0 =>
        let s1 := { s0 with holds := s0.holds.filter (fun h => h.2.1 != id) }
        let bad := q.accs.filter (fun a => s1.mixed q.asOwn g a)
        if !bad.isEmpty then
          s1.txFault gs g r { code := 0x0C, lanes := maskOf (fun L => bad.any (fun a => a.lane == L)), addr := (bad.head?.map (·.ga)).getD 0#64 }
        else if !s1.txCheck q g r then (s1.txReturn id q g).copyGone id c.id
        else if r.mode == 1#2 && !(s1.txRaces gs g r).isEmpty then s
        else s1.txCommitGo id gs slice lane g q ser c.id
  | _, _ => s)

/-- TX_ABORT_MESSAGE (05, R141 step 5). -/
def execTxAbortMessage (gs lane slice : Nat) (s : State) : Out :=
  .next (match s.txArrived gs (· == .abort slice lane) with
  | none => s
  | some (id, q, c, ser) =>
    let done := q.accs.map fun a => { a with perf := true }
    ((((s.ownerDecides q ser c).2.releaseWords gs lane slice).updReq id fun q => { q with stage := .performed, accs := done })).ownerKeeps
      id q ser c.id done)

end Sys2Proof.Machine
end

