-- ==== Sys2Proof/Machine/CrossLane.lean ====
section
/-! DEFINITION. Class 6, cross-lane instructions (14, R338 to R344), with the fusion of two groups (07, R190). -/

namespace Sys2Proof.Machine

/-! ### LXCH (14, R339) -/

/-- The lanes of a segment. -/
def segSize : Seg → Nat
  | .seg32 => 32
  | .seg16 => 16
  | .seg8 => 8
  | .seg4 => 4
  | .seg2 => 2

/-- The lane that lane `L` takes its value from. -/
def lxchSrc (mode : LxMode) (n k L : Nat) : Nat :=
  let m := L % n
  match mode with
  | .from => L - m + k % n
  | .back => if k ≤ m then L - k else L
  | .fwd => if m + k < n then L + k else L
  | .flip => if k < n then Nat.xor L k else L

/-- A lane's value of source A, or 0 where the lane is not live. -/
def Word.laneVal (w : Word) (L : Nat) : Nat := if inMask w.g.live L then w.src 0 L else 0

def execLxch (h : Hdr) (d a b : Reg) (mode : LxMode) (seg : Seg) : State → Out :=
  alu (.lxch h d a b mode seg) fun w => w.put (uv d) fun L => w.laneVal (lxchSrc mode (segSize seg) (w.src 1 L % 256) L)
def execLxchRri (h : Hdr) (d a : Reg) (imm : BitVec 22) (mode : LxMode) (seg : Seg) : State → Out :=
  alu (.lxchRri h d a imm mode seg) fun w => w.put (uv d) fun L => w.laneVal (lxchSrc mode (segSize seg) (imm.toNat % 256) L)

/-! ### POLL, LRED, PEER, BCAST (14, R340 to R343) -/

/-- The active lanes whose predicate, inverted where asked, is set. -/
def Word.pollMask (w : Word) (a : Pred) (inv : Bool) : Mask := w.act &&& (if inv then ~~~(w.g.pred a) else w.g.pred a)

def execPoll (h : Hdr) (d : PollDst) (a : Pred) (inv : Bool) : State → Out :=
  alu (.poll h d a inv) fun w =>
    let q := w.pollMask a inv
    match d with
    | .some p => w.putP p fun _ => q != 0#32
    | .every p => w.putP p fun _ => q == w.act
    | .same p => w.putP p fun _ => q == w.act || q == 0#32
    | .mask r => w.put (uvs r) fun _ => q.toNat

/-- The combination of two lanes' values (14, Table 2). -/
def lredOp (op : LOp) (t : Ty) (x y : Nat) : Nat :=
  match op, t with
  | .add, .f32 => f32.add .rne x y
  | .add, _ => (x + y) % 2 ^ 32
  | .min, .f32 => f32.pickBy false false x y
  | .max, .f32 => f32.pickBy true false x y
  | .min, t => if tyVal t y < tyVal t x then y else x
  | .max, t => if tyVal t x < tyVal t y then y else x
  | .and, _ => Nat.land x y
  | .or, _ => Nat.lor x y
  | .xor, _ => Nat.xor x y

/-- One round of the reduction: lane `L` below `d` takes in lane `L + d`. -/
def lredRound (comb : Nat → Nat → Nat) (u : Nat → Option Nat) (d : Nat) : Nat → Option Nat := fun L =>
  if L < d then
    match u L, u (L + d) with
    | x, none => x
    | none, y => y
    | some x, some y => some (comb x y)
  else u L

/-- The reduction over logical lanes in its fixed order (14, R341). -/
def lred (comb : Nat → Nat → Nat) (u : Nat → Option Nat) : Option Nat :=
  (lredRound comb (lredRound comb (lredRound comb (lredRound comb (lredRound comb u 16) 8) 4) 2) 1) 0

def execLred (h : Hdr) (d a : Reg) (op : LOp) (ty : Ty) : State → Out :=
  alu (.lred h d a op ty) fun w =>
    match lred (lredOp op ty) (fun L => if inMask w.act L then some (w.src 0 L) else none) with
    | some x => w.put (uvs d) fun _ => x
    | none => []

def execPeer (h : Hdr) (d a : Reg) (ty : Ty) (whole : Bool) : State → Out :=
  alu (.peer h d a ty whole) fun w =>
    let eq := fun (x : Nat) => maskOf fun K => inMask w.act K && w.src 0 K == x
    w.put (uv d) fun L =>
      let m := eq (w.src 0 L)
      if whole then (if m = w.act then w.act.toNat else 0) else m.toNat

def execBcast (h : Hdr) (d a b : Reg) (first : Bool) : State → Out :=
  alu (.bcast h d a b first) fun w =>
    let src := if first then w.lanes.headD 0 else w.src 1 0 % 32
    w.put (uvs d) fun _ => w.laneVal src

/-! ### REGROUP (07, R190; 14, R344) -/

/-- Registers of the fused group: the survivor's lanes compacted, the donor's after them with the registers of the range;
the donor's other registers are undefined. -/
def fuseV (n : Nat) (s d : Group) (sl dl : List Nat) (range : Option (Nat × Nat)) (free : Nat) : Tbl W32 :=
  (List.range n).foldl (fun t r =>
    let t1 := (List.range sl.length).foldl (fun t i => Tbl.set 0#32 t (r * 32 + i) (s.vget r (sl.getD i 0))) t
    (List.range dl.length).foldl (fun t j =>
      let keep := (match range with
        | some (a, b) => decide (a ≤ r) && decide (r ≤ b)
        | none => false)
      Tbl.set 0#32 t (r * 32 + sl.length + j)
        (if keep then d.vget r (dl.getD j 0) else (Config.freeWord (free + r * 32 + j)).setWidth 32)) t1) []

/-- A lane-indexed table of the fused group. -/
def fuseTbl {α : Type} (s d : Tbl α) (sl dl : List Nat) : Tbl α :=
  let put := fun (t : Tbl α) (src : Tbl α) (l : List Nat) (at_ : Nat) =>
    (List.range l.length).foldl (fun t i => match Tbl.find src (l.getD i 0) with
      | some x => Tbl.put t (at_ + i) x
      | none => t) t
  put (put [] s sl 0) d dl sl.length

/-- The fused group, before its slot goes on (07, R190). [DESIGN CHOICE, log entry 16] -/
def State.fuse (s : State) (g d : Group) (dgs : Nat) (range : Option (Nat × Nat)) : Group :=
  let sl := laneList g.live
  let dl := laneList d.live
  let k := sl.length + dl.length
  let ps := (List.range 7).foldl (fun t p =>
    let m := maskOf fun i =>
      if i < sl.length then inMask (Tbl.get 0#32 g.p p) (sl.getD i 0)
      else decide (i < k) && inMask (Tbl.get 0#32 d.p p) (dl.getD (i - sl.length) 0)
    Tbl.set 0#32 t p m) []
  { g with
    v := fuseV g.n g d sl dl range s.free
    p := ps
    live := firstLanes k
    origin := fuseTbl g.origin d.origin sl dl
    seq := fuseTbl g.seq d.seq sl dl
    tx := fuseTbl g.tx d.tx sl dl
    chk := s.mergeRec g (s.mkRec dgs d) g.chk }

/-- A REGROUP that cannot be performed: a pending bit, a lane in a transaction (14, Table 3, 2 and 3; `misused` is 1). -/
def regroupBad (w : Word) : Option Cause :=
  let deep := (laneList w.g.live).filter (fun L => 0 < (w.g.txLane L).depth)
  if !w.g.pend.isEmpty then some { code := 0x04, lanes := w.slot.mask }
  else if !deep.isEmpty then some { code := 0x11, lanes := maskOf (deep.contains ·) }
  else none

/-- The waiting partner of a REGROUP leaves as the donor: its word retires and it has no live lane.
[DESIGN CHOICE, log entry 16] -/
def Group.donate (g : Group) : Group :=
  { g with
    live := 0#32, slotA := none, slotB := none, retiring := true, rwc := g.rwc + 1#32
    exitPc := ((g.slot g.slotA.isNone).map (·.pc)).getD 0#64 }

/-- REGROUP once the partner waits for this group (14, Table 3, 5 to 7). -/
def State.meet (s : State) (w : Word) (d : Reg) (pgs : Nat) (p : Group) (same : Bool) (range : Option (Nat × Nat)) : Eff :=
  let clear := s.updWg w.g.wg fun x => { x with regroup := Tbl.del x.regroup p.gidx }
  let say := fun (v : Nat) (s : State) => Eff.done (s.updGroup w.gs fun g => g.writes (w.put64 d fun _ => v))
  let slot := if p.slotB.isSome then true else false
  let both := (laneList w.g.live).length + (laneList p.live).length
  if !same then
    let pc := ((p.slot slot).map (·.pc)).getD 0#64
    .trap { code := 0x01, lanes := w.slot.mask }
      (clear.raise pgs ⟨pc, s.rwcNow pgs p, p.nissue, slot⟩ { code := 0x01, lanes := ((p.slot slot).map (·.mask)).getD 0#32 })
  else if 32 < both then say 1 (clear.updWg w.g.wg fun x => { x with answers := Tbl.put x.answers p.gidx 1 })
  else if w.g.gidx < p.gidx then
    let g := s.fuse w.g p pgs range
    let s1 := { clear.updGroup pgs Group.donate with free := s.free + 32 * w.g.n }
    let g1 := g.setSlot false (some { w.slot with mask := g.live })
    let g2 := if w.b then { g1.setSlot false (some { w.slot with pc := w.slot.pc + 8#64, mask := g.live }) with slotB := none }
      else g1
    say 0 (s1.updGroup w.gs fun _ => g2)
  else
    let g := s.fuse p w.g w.gs range
    let slotP := p.slot slot
    let g1 := { g with slotA := slotP.map fun x => { x with mask := g.live }, slotB := none }
    let s1 := { clear with free := s.free + 32 * p.n }.updGroup pgs fun _ => g1
    let s2 := s1.updWg w.g.wg fun x => { x with answers := Tbl.put x.answers p.gidx 0 }
    .moved (s2.updGroup w.gs fun g => { g.donate with rwc := g.rwc }) 1

/-- REGROUP (14, R344). -/
def execRegroup (h : Hdr) (d a b : Reg) (gi : BitVec 5) (s : State) : Out :=
  s.issue (.regroup h d a b gi) fun w s =>
    let say := fun (v : Nat) (s : State) => Eff.done (s.updGroup w.gs fun g => g.writes (w.put64 d fun _ => v))
    let range := (match a, b with
      | .v x, .v y => some (x.val, y.val)
      | _, _ => none)
    let key := (gi.toNat, (range.map (·.1)).getD 1000, (range.map (·.2)).getD 1000)
    match Tbl.find s.wgs w.g.wg with
    | none => .done s
    | some x =>
      match Tbl.find x.answers w.g.gidx with
      | some v => say v (s.updWg w.g.wg fun x => { x with answers := Tbl.del x.answers w.g.gidx })
      | none =>
        match regroupBad w with
        | some c => .trap c s
        | none =>
          let partner := if w.ngrp ≤ gi.toNat then none
            else (Tbl.find x.slots gi.toNat).bind fun pgs => (Tbl.find s.groups pgs).bind fun p =>
              if p.retiring || p.wg != w.g.wg then none else some (pgs, p)
          if inMask x.savedG gi.toNat && decide (gi.toNat < 32) then
            .wait .barrier (s.updWg w.g.wg fun x => { x with regroup := Tbl.put x.regroup w.g.gidx key })
          else
          match partner with
          | none => say 2 (s.updWg w.g.wg fun x => { x with regroup := Tbl.del x.regroup w.g.gidx })
          | some (pgs, p) =>
            match Tbl.find x.regroup gi.toNat with
            | some (whom, pa, pb) =>
              if whom = w.g.gidx then s.meet w d pgs p (pa == key.2.1 && pb == key.2.2) range
              else .wait .barrier (s.updWg w.g.wg fun x => { x with regroup := Tbl.put x.regroup w.g.gidx key })
            | none => .wait .barrier (s.updWg w.g.wg fun x => { x with regroup := Tbl.put x.regroup w.g.gidx key })

end Sys2Proof.Machine
end

