-- ==== Sys2Proof/Machine/Audit.lean ====
section
/-! DEFINITION. SHA-384, the measurement registers, the audit log, capacity notices (16, R383; 18, R418, R420, R421, R423). -/

namespace Sys2Proof.Machine

/-! ### SHA-384 (18, R417, R418, R420), as FIPS 180-4 has it -/

/-- The round constants. -/
def shaK0 : List W64 :=
  [0x428A2F98D728AE22#64, 0x7137449123EF65CD#64, 0xB5C0FBCFEC4D3B2F#64, 0xE9B5DBA58189DBBC#64,
   0x3956C25BF348B538#64, 0x59F111F1B605D019#64, 0x923F82A4AF194F9B#64, 0xAB1C5ED5DA6D8118#64,
   0xD807AA98A3030242#64, 0x12835B0145706FBE#64, 0x243185BE4EE4B28C#64, 0x550C7DC3D5FFB4E2#64,
   0x72BE5D74F27B896F#64, 0x80DEB1FE3B1696B1#64, 0x9BDC06A725C71235#64, 0xC19BF174CF692694#64]
def shaK1 : List W64 :=
  [0xE49B69C19EF14AD2#64, 0xEFBE4786384F25E3#64, 0x0FC19DC68B8CD5B5#64, 0x240CA1CC77AC9C65#64,
   0x2DE92C6F592B0275#64, 0x4A7484AA6EA6E483#64, 0x5CB0A9DCBD41FBD4#64, 0x76F988DA831153B5#64,
   0x983E5152EE66DFAB#64, 0xA831C66D2DB43210#64, 0xB00327C898FB213F#64, 0xBF597FC7BEEF0EE4#64,
   0xC6E00BF33DA88FC2#64, 0xD5A79147930AA725#64, 0x06CA6351E003826F#64, 0x142929670A0E6E70#64]
def shaK2 : List W64 :=
  [0x27B70A8546D22FFC#64, 0x2E1B21385C26C926#64, 0x4D2C6DFC5AC42AED#64, 0x53380D139D95B3DF#64,
   0x650A73548BAF63DE#64, 0x766A0ABB3C77B2A8#64, 0x81C2C92E47EDAEE6#64, 0x92722C851482353B#64,
   0xA2BFE8A14CF10364#64, 0xA81A664BBC423001#64, 0xC24B8B70D0F89791#64, 0xC76C51A30654BE30#64,
   0xD192E819D6EF5218#64, 0xD69906245565A910#64, 0xF40E35855771202A#64, 0x106AA07032BBD1B8#64]
def shaK3 : List W64 :=
  [0x19A4C116B8D2D0C8#64, 0x1E376C085141AB53#64, 0x2748774CDF8EEB99#64, 0x34B0BCB5E19B48A8#64,
   0x391C0CB3C5C95A63#64, 0x4ED8AA4AE3418ACB#64, 0x5B9CCA4F7763E373#64, 0x682E6FF3D6B2B8A3#64,
   0x748F82EE5DEFB2FC#64, 0x78A5636F43172F60#64, 0x84C87814A1F0AB72#64, 0x8CC702081A6439EC#64,
   0x90BEFFFA23631E28#64, 0xA4506CEBDE82BDE9#64, 0xBEF9A3F7B2C67915#64, 0xC67178F2E372532B#64]
def shaK4 : List W64 :=
  [0xCA273ECEEA26619C#64, 0xD186B8C721C0C207#64, 0xEADA7DD6CDE0EB1E#64, 0xF57D4F7FEE6ED178#64,
   0x06F067AA72176FBA#64, 0x0A637DC5A2C898A6#64, 0x113F9804BEF90DAE#64, 0x1B710B35131C471B#64,
   0x28DB77F523047D84#64, 0x32CAAB7B40C72493#64, 0x3C9EBE0A15C9BEBC#64, 0x431D67C49C100D4C#64,
   0x4CC5D4BECB3E42B6#64, 0x597F299CFC657E2A#64, 0x5FCB6FAB3AD6FAEC#64, 0x6C44198C4A475817#64]
def shaK : List W64 := shaK0 ++ shaK1 ++ shaK2 ++ shaK3 ++ shaK4
/-- The initial hash value. -/
def shaH : List W64 :=
  [0xCBBB9D5DC1059ED8#64, 0x629A292A367CD507#64, 0x9159015A3070DD17#64, 0x152FECD8F70E5939#64,
   0x67332667FFC00B31#64, 0x8EB44A8768581511#64, 0xDB0C2E0D64F98FA7#64, 0x47B5481DBEFA4FA4#64]

/-- The message schedule: the words of a block, then one word after another, the newest first. -/
def shaNext (l : List W64) : W64 :=
  let w := fun (i : Nat) => l.getD (i - 1) 0#64
  let s0 := (w 15).rotateRight 1 ^^^ (w 15).rotateRight 8 ^^^ (w 15) >>> 7
  let s1 := (w 2).rotateRight 19 ^^^ (w 2).rotateRight 61 ^^^ (w 2) >>> 6
  s1 + w 7 + s0 + w 16
def shaSched (l : List W64) : Nat → List W64
  | 0 => l
  | n + 1 => shaSched (shaNext l :: l) n

/-- One round on the working variables a to h. -/
def shaRound (v : List W64) (kw : W64) : List W64 :=
  let x := fun (i : Nat) => v.getD i 0#64
  let s1 := (x 4).rotateRight 14 ^^^ (x 4).rotateRight 18 ^^^ (x 4).rotateRight 41
  let ch := (x 4 &&& x 5) ^^^ (~~~(x 4) &&& x 6)
  let t1 := x 7 + s1 + ch + kw
  let s0 := (x 0).rotateRight 28 ^^^ (x 0).rotateRight 34 ^^^ (x 0).rotateRight 39
  let maj := (x 0 &&& x 1) ^^^ (x 0 &&& x 2) ^^^ (x 1 &&& x 2)
  [t1 + (s0 + maj), x 0, x 1, x 2, x 3 + t1, x 4, x 5, x 6]

/-- One block of 16 words. -/
def shaBlock (h : List W64) (b : List W64) : List W64 :=
  let w := (shaSched b.reverse 64).reverse
  (List.zipWith (· + ·) h ((List.zipWith (· + ·) shaK w).foldl shaRound h))

/-- Big-endian bytes of a number, and the number of big-endian bytes. -/
def toBytesBE (n x : Nat) : List Byte := (toBytes n x).reverse
def ofBytesBE (l : List Byte) : Nat := ofBytes l.reverse

/-- The padded message. -/
def shaPad (l : List Byte) : List Byte :=
  let z := (240 - (l.length + 1) % 128) % 128
  l ++ 0x80#8 :: List.replicate z 0#8 ++ toBytesBE 16 (8 * l.length)

/-- The blocks of a message, with fuel. -/
def shaBlocks (h : List W64) (l : List Byte) : Nat → List W64
  | 0 => h
  | n + 1 =>
    shaBlocks (shaBlock h ((List.range 16).map fun i => BitVec.ofNat 64 (ofBytesBE ((l.drop (8 * i)).take 8)))) (l.drop 128) n

/-- The SHA-384 digest, its first byte in the lowest bits. -/
def sha384 (l : List Byte) : BitVec 384 :=
  let m := shaPad l
  BitVec.ofNat 384 (ofBytes (((shaBlocks shaH m (m.length / 128)).take 6).flatMap fun x => toBytesBE 8 x.toNat))

/-- Its 48 bytes. -/
def digestBytes (d : BitVec 384) : List Byte := toBytes 48 d.toNat

/-- An extend of a measurement register (18, R418). -/
def State.extend (s : State) (m : Nat) (x : BitVec 384) : State :=
  let old := Tbl.get 0#384 s.sec.meas m
  { s with sec := { s.sec with meas := Tbl.set 0#384 s.sec.meas m (sha384 (digestBytes old ++ digestBytes x)) } }

/-! ### The audit log (18, R420, R421) -/

/-- The bytes of a record; the flag says that a record before it was lost. -/
def AuditRec.bytes (r : AuditRec) : List Byte :=
  toBytes 8 r.seq ++ toBytes 8 (fld 16 48 r.typ + fld 16 32 r.len + b2n r.flag) ++ digestBytes r.prev ++ r.body

/-- A record's body, padded to a multiple of 8 bytes. -/
def padTo8 (l : List Byte) : List Byte := l ++ List.replicate ((8 - l.length % 8) % 8) 0#8

/-- Some bytes, cut or filled to a length. -/
def fit (n : Nat) (l : List Byte) : List Byte := (l ++ List.replicate n 0#8).take n
/-- Both signatures over the digest of a message (18, R419, R421). -/
def signatures (l : List Byte) : List Byte :=
  fit 384 (Config.rsaSignature (sha384 l)) ++ fit 16224 (Config.slhSignature (sha384 l))

/-- The body of a checkpoint record: SEQ and H of the record before it, then both signatures (18, R421). -/
def State.checkBody (s : State) : List Byte :=
  let head := toBytes 8 (s.sec.seq - 1) ++ digestBytes s.sec.prevH
  head ++ signatures head

/-- The storage has no room for a record of some length (18, R420, R421). [DEDUCED, log entry 78] -/
def State.auditFull (s : State) (len : Nat) : Bool :=
  !s.sec.pending.isEmpty || decide (2 ^ 30 < (s.sec.audit.map (·.len)).sum + len)

/-- A record is appended; its hash is the next record's PREV. A checkpoint's body is made now. -/
def State.auditPut (s : State) (typ : Nat) (body : List Byte) : State :=
  let b := padTo8 (if typ = 5 then s.checkBody else body)
  let r : AuditRec := { seq := s.sec.seq, typ, len := 64 + b.length, flag := s.sec.lostRec, prev := s.sec.prevH, body := b }
  { s with sec := { s.sec with
      audit := s.sec.audit ++ [r], seq := s.sec.seq + 1, prevH := sha384 r.bytes, lostRec := false } }

/-- A record is appended, or kept in the reserve of 4,096, or lost. -/
def State.auditOne (s : State) (typ : Nat) (body : List Byte) : State :=
  if !s.auditFull (64 + (padTo8 (if typ = 5 then s.checkBody else body)).length) then s.auditPut typ body
  else if s.sec.pending.length < 4096 then
    { s with sec := { s.sec with pending := s.sec.pending ++ [{ seq := 0, typ, len := 0, flag := false, prev := 0#384, body }] } }
  else { s with sec := { s.sec with lostRec := true } }

/-- A record is appended, and a checkpoint after every 1,024 records. [DEDUCED, log entry 87] -/
def State.audit (s : State) (typ : Nat) (body : List Byte) : State :=
  let s1 := s.auditOne typ body
  if s1.sec.seq != s.sec.seq && s1.sec.seq % 1024 == 0 then s1.auditOne 5 [] else s1
def State.checkpoint (s : State) : State := s.audit 5 []

/-- The reserve's records are appended as far as there is room (18, R421). -/
def State.auditFlush (s : State) : State :=
  let l := s.sec.pending
  l.foldl (fun s r => s.audit r.typ r.body) { s with sec := { s.sec with pending := [] } }

/-! ### Capacity notices (18, R423) -/

/-- A unit is written to the notice ring, as an ordered write to host memory. [DEDUCED, log entry 87] -/
def State.notice (s : State) (rcd : List Byte) : State :=
  let base := s.sec.nrbase
  if base = 0#64 then s
  else
    let units := 2 ^ (bits base 4 0 - 6)
    let at_ := 2 ^ 51 + base.toNat / 2 ^ 12 * 2 ^ 12 % 2 ^ 51 + 64 * (s.sec.nrwr % units)
    let s1 := s.wrBytes at_ (rcd ++ List.replicate (64 - rcd.length) 0#8)
    { s1 with sec := { s1.sec with nrwr := s1.sec.nrwr + 1 } }

/-- A retirement record goes to the audit log and to the notice ring (16, R383 Table 2). [DEDUCED, log entry 96] -/
def State.retireRecord (s : State) (kind reason action die core lb index live spare parts : Nat) : State :=
  let r := w32 s (fld 8 24 kind + fld 8 16 reason + fld 8 8 action)
    (fld 8 56 die + fld 10 46 core + fld 2 44 lb + fld 12 32 index + fld 16 16 live + fld 16 0 spare) parts
  let s1 := (s.audit 2 r).notice r
  { s1 with sec := { s1.sec with recSeq := s1.sec.recSeq + 1 } }
where
  /-- The record's 32 bytes. -/
  w32 (s : State) (a b c : Nat) : List Byte :=
    wordBytes [BitVec.ofNat 64 (fld 32 32 s.sec.recSeq + a), BitVec.ofNat 64 b, BitVec.ofNat 64 c, 0#64]

end Sys2Proof.Machine
end

