-- ==== Sys2Proof/Machine/Matrix.lean ====
section
/-! DEFINITION. Class 10, the matrix engine: teams and their arrival, operand descriptors and format words, pair and quad
operations, the engine queue, promotion and summation, zero maps, checksums, the epilogue (13, R309 to R337). -/

namespace Sys2Proof.Machine

/-! ### Tiles (13, R310, R329) -/

/-- The words of a tile, and of its element in row `i` and column `j`. -/
def tileIx (t i j : Nat) : Nat := t * 2048 + i * 32 + j
def Core.tile (c : Core) (t i j : Nat) : W32 := Tbl.get 0#32 c.tiles (tileIx t i j)
/-- A word of some of a tile's elements holds an uncorrectable error (16, R386). -/
def Core.tileBad (c : Core) (ixs : List Nat) : Bool := !c.badTiles.isEmpty && ixs.any c.badTiles.contains
/-- The elements of a tile. -/
def tileAll (t : Nat) : List Nat := (List.range 2048).map fun i => t * 2048 + i

/-- What an operation writes into a tile: some elements, by their index in it, and the zero map. -/
structure TileUpd where
  core : Nat
  t    : Nat
  vals : List (Nat × W32)
  zmap : Option W128 := none
  deriving DecidableEq, Repr

/-- A tile's elements as a table that `vals`, by ascending index, overrides; `skip` counts the entries before it. -/
def mergeTile (old : Tbl W32) (base : Nat) : List (Nat × W32) → Tbl W32
  | [] => old
  | (i, x) :: t => mergeTile (Tbl.set 0#32 old (base + i) x) base t

/-- Tile elements are written; an uncorrectable error of a written word is gone. -/
def State.putTile (s : State) (u : TileUpd) : State :=
  s.updCore u.core fun c =>
    let lo := c.tiles.filter (fun e => decide (e.1 < u.t * 2048))
    let me := c.tiles.filter (fun e => decide (u.t * 2048 ≤ e.1) && decide (e.1 < (u.t + 1) * 2048))
    let hi := c.tiles.filter (fun e => decide ((u.t + 1) * 2048 ≤ e.1))
    { c with
      tiles := lo ++ mergeTile me (u.t * 2048) u.vals ++ hi
      zmaps := (match u.zmap with
        | some z => Tbl.set 0#128 c.zmaps u.t z
        | none => c.zmaps)
      badTiles := if c.badTiles.isEmpty then [] else c.badTiles.filter (fun i => !(u.vals.any (fun v => u.t * 2048 + v.1 == i))) }

/-- Tile elements are left undefined (13, R337). -/
def State.smearTile (s : State) (core : Nat) (ixs : List Nat) : State :=
  ixs.foldl (fun s i =>
    let x := s.draw
    x.2.updCore core fun c => { c with tiles := Tbl.set 0#32 c.tiles i (x.1.setWidth 32) }) s

/-! ### Descriptors and format words (13, R315 to R319) -/

/-- The layout selector, the pitch, and the generic address of a local-store operand (13, Table 1). -/
def descTr (d : W64) : Bool := bit d 41
def descPitch (d : W64) : Nat := bits d 39 24
def descBase (d : W64) : Nat := localWin + bits d 23 0
/-- The reserved bits of a descriptor, and the multiples of 16. -/
def descBad (d : W64) : Bool := bits d 63 42 != 0 || bit d 40 || bits d 19 0 % 16 != 0 || descPitch d % 16 != 0
/-- The number of lines and the bytes of a line of an operand of rows by columns (13, R316). -/
def descLines (d : W64) (rows cols e : Nat) : Nat × Nat := if descTr d then (cols, rows * e) else (rows, cols * e)

/-- The fields of a format word (13, Table 2). -/
def fmtEf (f : W64) : Nat := bits f 3 0
def fmtBl (f : W64) : Nat := if bits f 5 4 = 0 then 0 else 16 * 2 ^ bits f 5 4
def fmtSf (f : W64) : Nat := bits f 7 6
/-- The element size of a format. -/
def efSize (ef : Nat) : Nat := if ef = 0xA ∨ ef = 0xB then 2 else 1
def efKnown (ef : Nat) : Bool := decide (0xA ≤ ef) && decide (ef ≤ 0xE)
/-- INT8. -/
def isI8 (f : W64) : Bool := fmtEf f == 0xE
/-- The floating format of an element format. -/
def efFmt (ef : Nat) : Fmt :=
  fmtOf (if ef = 0xA then .f16 else if ef = 0xB then .bf16 else if ef = 0xC then .e4m3 else .e5m2)
/-- A format word breaks R318. -/
def fmtBad (f : W64) (qj : Bool) : Bool :=
  !efKnown (fmtEf f) || (fmtSf f == 0) != (bits f 5 4 == 0) || decide (2 ≤ fmtSf f) || (isI8 f && fmtSf f != 0) ||
    bits f 47 8 != 0 || (!qj && bits f 63 48 != 0)

/-- The scales of an A operand, and of a B operand of `n` columns (13, R319). -/
def aScales (bl : Nat) : Nat := 64 * (128 / bl)
def bScales (bl n : Nat) : Nat := ((n - 1) / bl + 1) * (128 / bl)

/-! ### Checks at arrival (13, R318, R335) -/

/-- The causes that an operand adds: 0x0A with its detail and address, a breach of R318. -/
structure Breach where
  perm : Option (Nat × Nat) := none
  desc : Bool := false
  deriving DecidableEq, Repr

/-- A range of the gang's local store (01, R16). -/
def State.localRange (s : State) (w : Word) (x span : Nat) : Option (Nat × Nat) :=
  (s.localSide w (x / 2 ^ 20 % 16) (x % 2 ^ 20) span).map fun c => (c.2, localWin + x % 2 ^ 24)

/-- An operand or a tile image. -/
def State.checkDesc (s : State) (w : Word) (d : W64) (rows cols e : Nat) : Breach :=
  let l := descLines d rows cols e
  { perm := s.localRange w (bits d 23 0) ((l.1 - 1) * descPitch d + l.2), desc := descBad d || decide (descPitch d < l.2) }

/-- A scale address with the number of its scales: outside its allocation is a breach of R318. [DEDUCED, log entry 25] -/
def State.checkScale (s : State) (w : Word) (f a : W64) (n : Nat) : Breach :=
  if fmtSf f ≠ 1 ∨ bits f 5 4 = 0 then {}
  else
    match s.localRange w (bits a 23 0) (4 * n) with
    | some (4, ad) => { perm := some (4, ad), desc := bits a 63 24 != 0 || bits a 1 0 != 0 }
    | some _ => { desc := true }
    | none => { desc := bits a 63 24 != 0 || bits a 1 0 != 0 }

/-- The cause of an arrival: bounds first, then the descriptor fault (13, R337). [DEDUCED, log entry 25] -/
def breachCause (l : List Breach) (unavailable : Bool) (lanes : Mask) : Option Cause :=
  match l.findSome? Breach.perm with
  | some (d, ad) => some { code := 0x0A, det := d, lanes, addr := BitVec.ofNat 64 ad }
  | none => if unavailable || l.any Breach.desc then some { code := 0x19, lanes } else none

/-- Every member that a list of addresses names can be reached (06, R153). -/
def State.membersHere (s : State) (w : Word) (l : List W64) : Bool :=
  let a := s.agentOf w.gs w.g.wg false w.slot.pc 0
  l.all fun x => match s.engLocal a (bits x 23 20) (bits x 19 0) with
    | .ok _ _ => true
    | _ => false

/-! ### Pairs and quads (13, R325 to R327) -/

/-- The follower of a leader's core: the partner workgroup on the odd core. [DEDUCED, log entry 28] -/
def State.follower (s : State) (w : Word) : Option (Nat × Workgroup) :=
  if coreOf w.gs % 2 = 1 then none
  else (s.pairPartner w.g.wg).bind fun id => (Tbl.find s.wgs id).bind fun p =>
    if p.core = coreOf w.gs + 1 then some (id, p) else none

/-- A cluster's quad, its quarter, and the cluster at a quarter of a quad (13, R326). -/
def quadOf (k : Nat) : Nat := k / 48 * 12 + k % 48 / 8 / 2 * 4 + k % 8 / 2
def quarterOf (k : Nat) : Nat := k % 48 % 8 % 2 + 2 * (k % 48 / 8 % 2)
def quadCluster (quad q : Nat) : Nat :=
  quad / 12 * 48 + (2 * (quad % 12 / 4) + q / 2) * 8 + 2 * (quad % 4) + q % 2
/-- The neighbour links inside a quad: a cluster's link to the right has twice its number on the die, its link down that
number plus one. [DEDUCED, log entry 27] -/
def quadLinks (quad : Nat) : List Nat :=
  let k := fun q => quadCluster quad q % 48
  [2 * k 0, 2 * k 0 + 1, 2 * k 1 + 1, 2 * k 2]
/-- A quad's clusters are all the partition's and its links are live. -/
def State.quadAvailable (s : State) (part quad : Nat) : Bool :=
  (List.range 4).all (fun q => ((Tbl.find s.parts part).map fun p => p.clusters.contains (quadCluster quad q)).getD false) &&
    (quadLinks quad).all (fun l => !(s.die (quad / 12)).links.contains l)

/-! ### Teams (13, R309, R311, R312) -/

/-- The members of a group's team, and the team's number. -/
def teamMembers (t gidx : Nat) : List Nat := if t < 2 then [gidx] else (List.range t).map fun i => gidx / t * t + i
def teamIx (t gidx : Nat) : Nat := if t < 2 then gidx else gidx / t
/-- The team size of a group's launch. -/
def State.teamSize (s : State) (g : Group) : Nat := ((s.gridOf g).map Grid.team).getD 0

/-- The slot of a group that waits at an arrival. -/
def Group.arrivedSlot (g : Group) : Option (Bool × PcSlot) :=
  match g.slotA, g.slotB with
  | some p, q => if p.phase = .arrived then some (false, p) else
      (match q with
       | some p => if p.phase = .arrived then some (true, p) else none
       | none => none)
  | none, some p => if p.phase = .arrived then some (true, p) else none
  | none, none => none

/-- A group's waiting word gets another phase. -/
def State.setPhase (s : State) (gs : Nat) (ph : Phase) : State :=
  s.updGroup gs fun g => match g.arrivedSlot with
    | some (b, p) => g.setSlot b (some { p with phase := ph })
    | none => g

/-- The group slots of some members of a workgroup. -/
def Workgroup.slotsOf (w : Workgroup) (l : List Nat) : List Nat := l.filterMap (Tbl.find w.slots)

/-- A team's arrival is over. -/
def State.clearTeam (s : State) (wid k : Nat) : State := s.updWg wid fun w => { w with teams := Tbl.del w.teams k }

/-- The team-mismatch fault in the waiting members of a team (13, R312). -/
def State.teamFault (s : State) (wid k : Nat) : State :=
  match (Tbl.find s.wgs wid).bind fun w => (Tbl.find w.teams k).map fun t => w.slotsOf (laneList t.arr) with
  | none => s
  | some l =>
    l.foldl (fun s gs =>
      match Tbl.find s.groups gs with
      | none => s
      | some g =>
        (match g.arrivedSlot with
         | some (b, p) => s.raise gs ⟨p.pc, s.rwcNow gs g, g.nissue, b⟩ { code := 0x1A, lanes := p.mask }
         | none => s)) (s.clearTeam wid k)

/-- A workgroup takes a free array: every tile reads +0 (13, R309). -/
def State.takeArray (s : State) (core wid : Nat) : State :=
  s.updCore core fun c => { c with holder := some wid, tiles := [], zmaps := [], badTiles := [] }

/-- What the operands of an arrival come to: a cause in the issuer, a wait, an operation with the cores in whose queues
it goes, a part of a quad operation. -/
inductive Prep where
  | bad  (c : Cause)
  | wait (why : Stall)
  | go   (k : MatKind) (cores : List Nat) (follow : Option Nat)
  | part (q : QuadPart) (qj : BitVec 16)
  deriving DecidableEq, Repr

/-- A team that starts an operation: its workgroup, its issuer, its members' slots, its number. -/
structure Team where
  wg   : Nat
  iss  : Nat
  mems : List Nat
  ix   : Nat
  core : Nat
  deriving DecidableEq, Repr

/-- Re-execution's word on the entry of an operation into the queues of some cores (17, R400 kind 8, R403). -/
def State.entryGate (s : State) (iss : Nat) (cores : List Nat) : Gate :=
  match Tbl.find s.groups iss with
  | none => .free
  | some g =>
    ((cores.map fun c => s.gate (s.spidOf g) 8 0xFF (s.nameOf g) (s.rwcNow iss g) c).find? (fun x => match x with
      | .hold | .part _ => true
      | _ => false)).getD .free

/-- The entry of an operation into a core's queue is logged, or takes its logged turn. -/
def State.logEntry (s : State) (iss core : Nat) : State :=
  match Tbl.find s.groups iss with
  | none => s
  | some g =>
    (match s.gate (s.spidOf g) 8 0xFF (s.nameOf g) (s.rwcNow iss g) core with
     | .take ix _ => s.useEvent (s.spidOf g) ix
     | _ => s.logGroup g 8 0xFF (s.rwcNow iss g) core (BitVec.ofNat 64 (g.matSeq.toNat + 1)))

/-- Operations that belong to no batch (13, R334). -/
def noBatch : MatKind → Bool
  | .zero _ => true
  | _ => false
def isQuad : MatKind → Bool
  | .quad _ => true
  | _ => false

/-- An operation starts: it enters the queues and the members' open batches, and their words are answered (13, R313,
R314). -/
def State.startMat (s : State) (k : MatKind) (pc : W64) (wg iss : Nat) (cores : List Nat) (teams : List Team) : State :=
  let id := s.newId
  let s0 := cores.foldl (fun s c =>
    s.logEntry (((teams.find? (fun t => t.core == c)).map (·.iss)).getD iss) c) id.2
  let mems := teams.flatMap (·.mems)
  let op : MatOp := { id := id.1, kind := k, wg, gs := iss, pc, mems := if noBatch k then [] else mems, cores }
  let s1 := cores.foldl (fun s c => s.updCore c fun x => { x with eng := x.eng ++ [op] }) s0
  let s2 := teams.foldl (fun s t => s.clearTeam t.wg t.ix) s1
  mems.foldl (fun s gs =>
    (s.updGroup gs fun g =>
      let g := { g with matSeq := g.matSeq + 1#32, matQ := if isQuad k then g.matQ + 1#32 else g.matQ }
      if noBatch k then g else g.addOp .mx { id := id.1, pc }).setPhase gs (.answered 0#64)) s2

/-- Room in the queues of some cores. -/
def State.engRoom (s : State) (cores : List Nat) : Bool := cores.all fun c => decide ((s.core c).eng.length < 64)

/-- The team of a quad part. -/
def State.teamOfPart (s : State) (q : QuadPart) : Team :=
  let t := ((Tbl.find s.groups q.gs).map s.teamSize).getD 0
  let gidx := ((Tbl.find s.groups q.gs).map (·.gidx)).getD 0
  { wg := q.wg, iss := q.gs, ix := teamIx t gidx, core := q.core
    mems := ((Tbl.find s.wgs q.wg).map fun w => w.slotsOf (teamMembers t gidx)).getD [] }

/-- The place in a quad operation of core `c` of quarter `q`. -/
def quadCore (quad q c : Nat) : Nat := quadCluster quad q * 4 + c

/-- A part arrives at its quad operation; with the sixteenth the operation starts (13, R327). -/
def State.arriveQuad (s : State) (q : QuadPart) (qj : BitVec 16) (count : W32) (spid : Nat) : State :=
  let quad := quadOf (clusterOf q.core)
  let same : QuadArr → Bool := fun a => a.quad == quad && a.qj == qj && a.count == count && a.spid == spid
  let arr := ((s.quads.find? same).getD ⟨quad, qj, count, spid, [], s.clock⟩)
  if arr.parts.any (fun p => p.core == q.core && p.gs != q.gs) then s
  else
    let arr1 := { arr with parts := arr.parts.filter (fun p => p.core != q.core) ++ [q] }
    let rest := s.quads.filter (fun a => !same a)
    let cores := (List.range 16).map fun i => quadCore quad (i / 4) (i % 4)
    let parts := cores.filterMap fun c => arr1.parts.find? (fun p => p.core == c)
    if parts.length = 16 ∧ s.engRoom cores ∧ parts.all (fun p => s.entryGate p.gs [p.core] != .hold) then
      { s with quads := rest }.startMat (.quad parts) q.pc q.wg q.gs cores (parts.map s.teamOfPart)
    else { s with quads := rest ++ [arr1] }

/-- A complete team's operands are read, and its operation starts where nothing bars it. -/
def State.startTeam (s : State) (w : Word) (f : Info) (k : Nat) (iss : Nat) (mems : List Nat)
    (prep : Word → State → Prep) : Eff :=
  match Tbl.find s.groups iss with
  | none => .wait .teamArrival s
  | some ig =>
    match ig.arrivedSlot with
    | none => .wait .teamArrival s
    | some (ib, ip) =>
      let iw := mkWord s iss ib ig ip f
      let at_ : At := ⟨ip.pc, s.rwcNow iss ig, ig.nissue, ib⟩
      let team : Team := ⟨w.g.wg, iss, mems, k, coreOf iss⟩
      match prep iw s with
      | .bad c =>
        let s1 := mems.foldl (fun s gs => s.setPhase gs .idle) (s.clearTeam w.g.wg k)
        if iss = w.gs then .trap c s1 else .again (s1.raise iss at_ c)
      | .wait why => .wait why s
      | .go kind cores follow =>
        if !s.engRoom cores then .wait .batchWait s
        else
          (match s.entryGate iss cores with
           | .hold => .wait .teamArrival s
           | .part ix => .again (s.parting (s.spidOf ig) iss at_ ix
               (eventWords 8 0xFF (s.nameOf ig).1 (s.nameOf ig).2.1 (s.nameOf ig).2.2 0 at_.rwc
                 (BitVec.ofNat 64 (coreOf iss)) (BitVec.ofNat 64 (ig.matSeq.toNat + 1))))
           | _ =>
             let s1 := (match follow with
               | some id =>
                 let c := coreOf iss + 1
                 let s1 := if (s.core c).holder = some id then s else s.takeArray c id
                 s1.updCore c fun x => { x with lent := some (coreOf iss) }
               | none => s)
             .done (s1.startMat kind ip.pc w.g.wg iss cores [team]))
      | .part q qj =>
        let s1 := s.arriveQuad q qj ig.matQ (s.spidOf ig)
        if ((Tbl.find s1.groups w.gs).bind Group.arrivedSlot).isSome then .wait .teamArrival s1 else .done s1

/-- A matrix instruction: the array is taken, the member arrives, a complete team starts (13, R309, R311 to R314); an
absent array raises 0x28 (16, R382). -/
def State.teamIssue (s : State) (w : Word) (f : Info) (prep : Word → State → Prep) : Eff :=
  let core := coreOf w.gs
  let t := s.teamSize w.g
  let k := teamIx t w.g.gidx
  match w.slot.phase with
  | .answered _ => .done s
  | ph =>
    if (w.g.path (!w.b)).isSome then .trap { code := 0x1A, lanes := w.slot.mask } s
    else if (s.core core).cols = 0 then .trap { code := 0x28, lanes := w.slot.mask } s
    else if ((s.core core).holder.map fun h => h != w.g.wg).getD false then .wait .teamArrival s
    else
      let s0 := if (s.core core).holder.isNone then s.takeArray core w.g.wg else s
      if (s0.core core).lent.isSome then .wait .arrayLent s0
      else if ph ≠ .arrived ∧ s0.opWaits w.gs w.g.wg then .wait .switchPark s0
      else
        let old := (Tbl.find s0.wgs w.g.wg).bind fun x => Tbl.find x.teams k
        match old.filter (fun a => a.pc != w.slot.pc) with
        | some _ => .trap { code := 0x1A, lanes := w.slot.mask } (s0.teamFault w.g.wg k)
        | none =>
          let arr : TeamArr := ⟨w.slot.pc, ((old.map (·.arr)).getD 0#32) ||| maskOf (· == w.g.gidx)⟩
          let s1 := (s0.updWg w.g.wg fun x => { x with teams := Tbl.put x.teams k arr }).updGroup w.gs fun g =>
            g.setSlot w.b (some { w.slot with phase := .arrived })
          let mems := (teamMembers t w.g.gidx)
          if mems.all (fun m => inMask arr.arr m) then
            match Tbl.find s1.wgs w.g.wg with
            | none => .wait .teamArrival s1
            | some wg =>
              let slots := wg.slotsOf mems
              s1.startTeam w f k (slots.headD w.gs) slots prep
          else .wait .teamArrival s1

/-- The frame of a team's instruction. -/
def matIssue (i : Instr) (prep : Word → State → Prep) (s : State) : Out :=
  s.issue i fun w s => match i.info with
    | some f => s.teamIssue w f prep
    | none => .done s

/-! ### The instructions (13, R323 to R336) -/

/-- A source of a word as a 64-bit value, and a later register of its even pair or quad. [DESIGN CHOICE, log entry 147] -/
def Word.s64 (w : Word) (k : Nat) : W64 := BitVec.ofNat 64 (w.src k 0)
def Word.sNext (w : Word) (c : Reg) (i : Nat) : W64 := match c with
  | .s n => w.g.sget (n.val + i)
  | _ => 0#64

/-- The operands of MMA: its checks, then what it does (13, R317, R318, R324 to R327). [DEDUCED, log entry 24] -/
def prepMma (t : Nat) (c : Reg) (form : MForm) (sp ck : Bool) (ckt : Nat) (w : Word) (s : State) : Prep :=
  let da := w.s64 0
  let db := w.s64 1
  let fa := w.sNext c 0
  let fb := w.sNext c 1
  let sa := w.sNext c 2
  let sb := w.sNext c 3
  let core := coreOf w.gs
  let n := if form = .pair then 64 else 32
  let quad := quadOf (clusterOf core)
  let part := s.partOf w.g
  let fol := if form = .pair then s.follower w else none
  let unavailable := (form == .pair && fol.isNone) || (form == .quad && !s.quadAvailable part quad)
  let bs := [s.checkDesc w da 64 128 (efSize (fmtEf fa)), s.checkDesc w db 128 n (efSize (fmtEf fb)),
    s.checkScale w fa sa (aScales (fmtBl fa)), s.checkScale w fb sb (bScales (fmtBl fb) n),
    { desc := fmtBad fa (form == .quad) || fmtBad fb false || isI8 fa != isI8 fb }]
  match breachCause bs unavailable w.slot.mask with
  | some c => .bad c
  | none =>
    let scales := (if fmtSf fa = 1 then [sa] else []) ++ (if fmtSf fb = 1 then [sb] else [])
    if !s.membersHere w ([da, db] ++ scales) then .wait .gangMember
    else
      match form with
      | .single => .go (.mma t da db fa fb sa sb false sp ck ckt) [core] none
      | .pair =>
        (match fol with
         | none => .bad { code := 0x19, lanes := w.slot.mask }
         | some (id, p) =>
           if ((s.core p.core).holder.map fun h => h != id).getD false then .wait .teamArrival
           else .go (.mma t da db fa fb sa sb true sp ck ckt) [core, p.core] (some id))
      | .quad =>
        .part ⟨core, w.g.wg, w.gs, w.slot.pc, t, da, db, fa, fb, sa, sb, sp⟩ (BitVec.ofNat 16 (bits fa 63 48))

def execMma (h : Hdr) (t : Tile) (a b c : Reg) (form : MForm) (sp ck : Bool) (ckt : Tile) : State → Out :=
  matIssue (.mma h t a b c form sp ck ckt) (prepMma t.val c form sp ck ckt.val)

/-- MZERO (13, R334). -/
def execMzero (h : Hdr) (t : Tile) : State → Out :=
  matIssue (.mzero h t) fun w _ => .go (.zero t.val) [coreOf w.gs] none

/-- A tile image's word: the checks of its descriptor, then its operation. -/
def prepImage (k : W64 → MatKind) (w : Word) (s : State) : Prep :=
  match breachCause [s.checkDesc w (w.s64 0) 64 32 4] false w.slot.mask with
  | some c => .bad c
  | none => if s.membersHere w [w.s64 0] then .go (k (w.s64 0)) [coreOf w.gs] none else .wait .gangMember

/-- MLDT (13, R334). -/
def execMldt (h : Hdr) (t : Tile) (a : Reg) : State → Out := matIssue (.mldt h t a) (prepImage (.load t.val))
/-- MSTT (13, R334). -/
def execMstt (h : Hdr) (t : Tile) (a : Reg) : State → Out := matIssue (.mstt h t a) (prepImage (.store t.val))

/-- The fields of MEPI's control word (13, R335). -/
def epiFmt (c : W64) : Nat := bits c 3 0
def epiAct (c : W64) : Nat := bits c 5 4
def epiSize (c : W64) : Nat := if epiFmt c = 8 then 4 else efSize (epiFmt c)
/-- The control word or the clamp bounds break R335. -/
def epiBad (c clamp : W64) : Bool :=
  let lo := bits clamp 31 0
  let hi := bits clamp 63 32
  (epiFmt c != 8 && !efKnown (epiFmt c)) || epiAct c == 3 || bits c 31 10 != 0 ||
    (epiAct c == 2 && (match f32.rel lo hi with
      | .gt | .unordered => true
      | _ => false))

/-- MEPI (13, R335). [DEDUCED, log entry 25] -/
def execMepi (h : Hdr) (t : Tile) (a b c : Reg) : State → Out :=
  matIssue (.mepi h t a b c) fun w s =>
    let d := w.s64 0
    let ctl := w.s64 1
    let bias := w.sNext c 0
    let clamp := w.sNext c 1
    let useBias := bit ctl 6
    let br : Breach := if useBias then
        { perm := s.localRange w (bits bias 23 0) 128, desc := bits bias 1 0 != 0 } else {}
    match breachCause [s.checkDesc w d 64 32 (epiSize ctl), br, { desc := epiBad ctl clamp }] false w.slot.mask with
    | some x => .bad x
    | none =>
      if s.membersHere w ([d] ++ (if useBias then [bias] else [])) then .go (.epi t.val d ctl bias clamp) [coreOf w.gs] none
      else .wait .gangMember

/-- MCHK (13, R332). -/
def execMchk (h : Hdr) (t k : Tile) (b : Reg) (te : BitVec 6) (i8 : Bool) : State → Out :=
  matIssue (.mchk h t k b te i8) fun w s =>
    let d := w.s64 0
    let br : Breach := { perm := s.localRange w (bits d 23 0) 32, desc := descBad d || descTr d || descPitch d != 0 }
    match breachCause [br] false w.slot.mask with
    | some x => .bad x
    | none => if s.membersHere w [d] then .go (.chk t.val k.val d te.toNat i8) [coreOf w.gs] none else .wait .gangMember

/-- MZMAP (13, R336). -/
def execMzmap (h : Hdr) (d : Reg) (t : Tile) (s : State) : Out :=
  s.issue (.mzmap h d t) fun w s =>
    let c := s.core (coreOf w.gs)
    let z := if c.holder = some w.g.wg then Tbl.get 0#128 c.zmaps t.val else 0#128
    if c.cols = 0 then .trap { code := 0x28, lanes := w.slot.mask } s
    else .done (s.updGroup w.gs fun g => g.writes (w.put ⟨d, .r128, .sOnly⟩ fun _ => z.toNat))

/-! ### Reading operands -/

/-- The outcome of a matrix operation's read: its value, not yet, or a failure with its cause and address. -/
inductive MRes (α : Type) where
  | ok (x : α)
  | wait
  | bad (code : Nat) (addr : Nat)

/-- Bytes of local store by their generic address. -/
def State.matRead (s : State) (a : Agent) (ga n : Nat) : MRes (Array Byte) :=
  match s.engLocal a (ga / 2 ^ 20 % 16) (ga % 2 ^ 20) with
  | .ok x _ =>
    (match s.engRead (coreOf a.gs) x n with
     | .ok l => .ok l.toArray
     | .wait _ => .wait
     | .bad c _ => .bad c ga)
  | _ => .wait

/-- Lines read one after another. -/
def State.matLines (s : State) (a : Agent) (ga pitch len : Nat) : Nat → MRes (List (Array Byte))
  | 0 => .ok []
  | n + 1 =>
    match s.matRead a ga len with
    | .ok l =>
      (match s.matLines a (ga + pitch) pitch len n with
       | .ok t => .ok (l :: t)
       | e => e)
    | .wait => .wait
    | .bad c x => .bad c x

/-- A little-endian number of an array's bytes. -/
def arrNum (l : Array Byte) (o n : Nat) : Nat := ofBytes ((List.range n).map fun i => l.getD (o + i) 0#8)

/-- An operand's elements by row and column (13, R316). -/
def State.operand (s : State) (a : Agent) (d : W64) (rows cols e : Nat) : MRes (Nat → Nat → Nat) :=
  let l := descLines d rows cols e
  match s.matLines a (descBase d) (descPitch d) l.2 l.1 with
  | .ok ls =>
    let arr := ls.toArray
    .ok fun r c => if descTr d then arrNum (arr.getD c #[]) (r * e) e else arrNum (arr.getD r #[]) (c * e) e
  | .wait => .wait
  | .bad c x => .bad c x

/-- An operand's scales, 1.0 where it carries none (13, R319). [DEDUCED, log entry 24] -/
def State.scales (s : State) (a : Agent) (f addr : W64) (n : Nat) : MRes (Nat → FVal) :=
  if fmtSf f = 0 then .ok fun _ => .fin false 1 0
  else
    match s.matRead a (descBase addr) (4 * n) with
    | .ok l => .ok fun i => f32.val (arrNum l (4 * i) 4)
    | .wait => .wait
    | .bad c x => .bad c x

/-! ### Promotion and summation (13, R319 to R322) -/

/-- The promotion length of two operands. -/
def promotion (fa fb : W64) : Nat :=
  let x := if fmtBl fa = 0 then 128 else fmtBl fa
  min x (if fmtBl fb = 0 then 128 else fmtBl fb)

/-- The update of an element by an exact value, with Table 3. -/
def promote (c : W32) (v : FVal) : W32 :=
  if (f32.val c.toNat).isNan then BitVec.ofNat 32 f32.nanEnc
  else
    match v with
    | .fin _ 0 _ => c
    | _ => BitVec.ofNat 32 (f32.round .rne (fsum .rne [f32.val c.toNat, v]))

/-- A product's operands: A's elements, 64 by 128, B's 128 by 32, the scales by row or column and K index. -/
structure Prod where
  a  : Nat → Nat → Nat
  b  : Nat → Nat → Nat
  sa : Nat → Nat → FVal
  sb : Nat → Nat → FVal
  fa : W64
  fb : W64

/-- The exact scaled value of a promotion block. -/
def Prod.value (p : Prod) (kb i j : Nat) : FVal :=
  let n := promotion p.fa p.fb
  let ks := (List.range n).map fun k => kb * n + k
  let ta := efFmt (fmtEf p.fa)
  let tb := efFmt (fmtEf p.fb)
  let sum := fsum .rne (ks.map fun k => (ta.val (p.a i k)).mul (tb.val (p.b k j)))
  (sum.mul (p.sa i (kb * n))).mul (p.sb j (kb * n))

/-- The exact sum of an INT8 product. -/
def Prod.int (p : Prod) (i j : Nat) : Int :=
  ((List.range 128).map fun k => signed 8 (p.a i k) * signed 8 (p.b k j)).sum

/-- The number of promotion blocks. -/
def Prod.blocks (p : Prod) : Nat := 128 / promotion p.fa p.fb
/-- The exact values of every block, row and column. -/
def Prod.values (p : Prod) : Array FVal :=
  ((List.range (p.blocks * 2048)).map fun x => p.value (x / 2048) (x / 32 % 64) (x % 32)).toArray

/-- I32 addition. -/
def addI32 (c : W32) (x : Int) : W32 := c + BitVec.ofInt 32 x

/-- The tile after the product is added (13, R320, R321). [DEDUCED, log entry 22] -/
def Prod.addTo (p : Prod) (vs : Array FVal) (c : Nat → W32) (x : Nat) : W32 :=
  if isI8 p.fa then addI32 (c x) (p.int (x / 32) (x % 32))
  else (List.range p.blocks).foldl (fun y kb => promote y (vs.getD (kb * 2048 + x) .nan)) (c x)

/-- The checksum tile's elements after the product (13, R331). [DEDUCED, log entry 22] -/
def Prod.sums (p : Prod) (vs : Array FVal) (k : Nat → W32) : List (Nat × W32) :=
  let row := fun i => (List.range 32).map fun j => i * 32 + j
  let col := fun j => (List.range 64).map fun i => i * 32 + j
  let upd := fun (y : W32) (xs : List Nat) =>
    if isI8 p.fa then addI32 y ((xs.map fun x => p.int (x / 32) (x % 32)).sum)
    else (List.range p.blocks).foldl (fun y kb => promote y (fsum .rne (xs.map fun x => vs.getD (kb * 2048 + x) .nan))) y
  (List.range 64).flatMap fun i =>
    [(i * 32, upd (k (i * 32)) (row i))] ++ (if i < 32 then [(i * 32 + 1, upd (k (i * 32 + 1)) (col i))] else [])

/-- The zero map of an A operand (13, R329). -/
def zeroMap (a : Nat → Nat → Nat) (f : W64) : W128 :=
  let zero := fun x => if isI8 f then x == 0 else (efFmt (fmtEf f)).mag x == 0
  BitVec.ofNat 128 (((List.range 128).map fun b =>
    if (List.range 64).all (fun i => zero (a (8 * (b / 16) + i / 8) (8 * (b % 16) + i % 8))) then 2 ^ b else 0).sum)

/-- A product added to a tile of a core, with its checksum tile (13, R320, R321, R329, R331). -/
def State.mmaTile (s : State) (p : Prod) (core t : Nat) (sp : Bool) (ckt : Option Nat) : List TileUpd :=
  let c := s.core core
  let vs := if isI8 p.fa then #[] else p.values
  let zmap := some (if sp then zeroMap p.a p.fa else 0#128)
  let main : TileUpd := { core, t, vals := (List.range 2048).map fun x => (x, p.addTo vs (fun i => c.tile t 0 i) x), zmap }
  match ckt with
  | some k => [main, { core, t := k, vals := p.sums vs (fun i => c.tile k 0 i), zmap }]
  | none => [main]

/-! ### What each operation computes -/

/-- A tile image as pieces of local store, each a line. -/
def imageOut (d : W64) (e : Nat) (f : Nat → Nat → Nat) : List (Nat × List Byte) :=
  if descTr d then
    (List.range 32).map fun c => (descBase d + c * descPitch d, (List.range 64).flatMap fun r => toBytes e (f r c))
  else
    (List.range 64).map fun r => (descBase d + r * descPitch d, (List.range 32).flatMap fun c => toBytes e (f r c))

/-- The epilogue of an element (13, R335). -/
def epilogue (ctl clamp : W64) (bias : Nat → Nat) (j x : Nat) : Nat :=
  let rm : Rm := (match bits ctl 9 8 with
    | 0 => .rne
    | 1 => .rtz
    | 2 => .rup
    | _ => .rdn)
  let v1 := if bit ctl 6 then f32.add .rne x (bias j) else x
  let v2 := if bit ctl 7 then f32.mulEnc .rne v1 (bits ctl 63 32) else v1
  let nan := (f32.val v2).isNan
  let v3 := if epiAct ctl = 1 then
      (if nan then v2 else if f32.rel v2 0 = .gt then v2 else 0)
    else if epiAct ctl = 2 && !nan then
      f32.pickBy false false (f32.pickBy true false v2 (bits clamp 31 0)) (bits clamp 63 32)
    else v2
  if epiFmt ctl = 8 then f32.conv rm (f32.val v3)
  else if epiFmt ctl = 0xE then (((f32.val v3).toInt .s8 rm) % 256).toNat
  else (efFmt (epiFmt ctl)).conv rm (f32.val v3)

/-- What MCHK finds: its report's words and, at status 1, the element it corrects (13, R332 Table 5). [DEDUCED, log entry 23] -/
def checkTile (c k : Nat → W32) (te : Nat) (i8 : Bool) : List W64 × Option (Nat × W32) :=
  let row := fun i => (List.range 32).map fun j => i * 32 + j
  let col := fun j => (List.range 64).map fun i => i * 32 + j
  let used := (List.range 2048).map c ++ (List.range 64).map (fun i => k (i * 32)) ++ (List.range 32).map (fun j => k (j * 32 + 1))
  let odd := !i8 && used.any (fun x => match f32.val x.toNat with
    | .fin _ _ _ => false
    | _ => true)
  if odd then
    ([BitVec.ofNat 64 (fld 8 16 0xFF + fld 8 8 0xFF + 4), 0#64, 0#64, 0#64], none)
  else
    let num := fun (x : W32) => if i8 then signed 32 x.toNat else (f32.val x.toNat).scaled (-149)
    let diff := fun (xs : List Nat) (y : W32) =>
      let d := (xs.map fun x => num (c x)).sum - num y
      if i8 then signed 32 d else d
    let fails := fun (xs : List Nat) (y : W32) =>
      let d := diff xs y
      if i8 then decide (d ≠ 0)
      else decide (((num y).natAbs + (xs.map fun x => (num (c x)).natAbs).sum) < d.natAbs * 2 ^ te)
    let rows := (List.range 64).filter fun i => fails (row i) (k (i * 32))
    let cols := (List.range 32).filter fun j => fails (col j) (k (j * 32 + 1))
    let status := if rows.isEmpty && cols.isEmpty then 0
      else if rows.length = 1 ∧ cols.length = 1 then 1
      else if rows.isEmpty || cols.isEmpty then 3
      else 2
    let res := fun (d : Int) => if i8 then f32.round .rne (intVal d) else f32.round .rne (.fin (decide (d < 0)) d.natAbs (-149))
    let i := rows.headD 0
    let j := cols.headD 0
    let fixed : W32 := (
      let others := (row i).filter (fun x => x != i * 32 + j)
      if i8 then BitVec.ofInt 32 (num (k (i * 32)) - (others.map fun x => num (c x)).sum)
      else BitVec.ofNat 32 (f32.round .rne
        (fsum .rne (f32.val (k (i * 32)).toNat :: others.map fun x => (f32.val (c x).toNat).opp))))
    ([BitVec.ofNat 64 (fld 8 32 cols.length + fld 8 24 rows.length + fld 8 16 (if cols.isEmpty then 0xFF else j) +
        fld 8 8 (if rows.isEmpty then 0xFF else i) + status),
      BitVec.ofNat 64 (fld 32 32 (if status = 1 then fixed.toNat else 0) +
        (if rows.isEmpty || cols.isEmpty then 0 else (c (i * 32 + j)).toNat)),
      BitVec.ofNat 64 (fld 32 32 (if cols.isEmpty then 0 else res (diff (col j) (k (j * 32 + 1)))) +
        (if rows.isEmpty then 0 else res (diff (row i) (k (i * 32))))),
      0#64],
     if status = 1 then some (i * 32 + j, fixed) else none)

/-- What an operation comes to: the tiles it writes, its output in local store. -/
structure MatEff where
  tiles : List TileUpd := []
  out   : List (Nat × List Byte) := []

/-- A product's operands are read; B's columns from `off` on go to this part. -/
def State.readProd (s : State) (a b : Agent) (da db fa fb sa sb : W64) (n off : Nat) : MRes Prod :=
  match s.operand a da 64 128 (efSize (fmtEf fa)), s.operand b db 128 n (efSize (fmtEf fb)),
      s.scales a fa sa (aScales (fmtBl fa)), s.scales b fb sb (bScales (fmtBl fb) n) with
  | .ok x, .ok y, .ok u, .ok v =>
    .ok { a := x, b := fun k j => y k (j + off), fa, fb
          sa := fun i k => u (i * (128 / fmtBl fa) + k / fmtBl fa)
          sb := fun j k => v ((j + off) / fmtBl fb * (128 / fmtBl fb) + k / fmtBl fb) }
  | .bad c x, _, _, _ => .bad c x
  | _, .bad c x, _, _ => .bad c x
  | _, _, .bad c x, _ => .bad c x
  | _, _, _, .bad c x => .bad c x
  | _, _, _, _ => .wait

/-- Several parts of an operation; the first failure decides. -/
def joinEffs : List (MRes (List TileUpd)) → MRes (List TileUpd)
  | [] => .ok []
  | .ok l :: t => (match joinEffs t with
    | .ok m => .ok (l ++ m)
    | e => e)
  | e :: _ => e

/-- One core's part of a quad operation for the B quarter of cluster quarter `p` and the half `h` of its columns (13,
R327). Parts whose kinds of format differ leave the tile undefined. [DEDUCED, log entry 26] -/
def State.quadTile (s : State) (parts : List QuadPart) (q : QuadPart) (p h : Nat) : MRes (List TileUpd) :=
  match parts[4 * p + 2 * (q.core % 4 / 2) + h]? with
  | none => .ok []
  | some o =>
    let t := q.t + 2 * p + h
    if isI8 q.fa ≠ isI8 o.fb then
      .ok [{ core := q.core, t, vals := (List.range 2048).map fun i => (i, (Config.freeWord (s.free + t * 2048 + i)).setWidth 32)
             zmap := some 0#128 }]
    else
      match s.readProd (s.agentOf q.gs q.wg false q.pc 0) (s.agentOf o.gs o.wg false o.pc 0) q.da o.db q.fa o.fb q.sa o.sb 32 0 with
      | .ok x => .ok (s.mmaTile x q.core t q.sp none)
      | .wait => .wait
      | .bad c ad => .bad c ad

/-- The tile elements that an operation reads, by core. -/
def MatOp.reads (op : MatOp) : List (Nat × List Nat) :=
  let c0 := op.cores.headD 0
  let ks := fun (k : Nat) => ((List.range 64).map fun i => tileIx k i 0) ++ (List.range 32).map fun j => tileIx k j 1
  match op.kind with
  | .mma t _ _ _ _ _ _ _ _ ck k => op.cores.map fun c => (c, tileAll t ++ (if ck then ks k else []))
  | .quad parts => parts.map fun q => (q.core, (List.range 8).flatMap fun i => tileAll (q.t + i))
  | .zero _ | .load _ _ => []
  | .store t _ | .epi t _ _ _ _ => [(c0, tileAll t)]
  | .chk t k _ _ _ => [(c0, tileAll t ++ ks k)]

/-- The tile elements that an operation may write, by core, and its ranges in local store. -/
def MatOp.targets (op : MatOp) : List (Nat × List Nat) × List (Nat × Nat) :=
  let c0 := op.cores.headD 0
  let lines := fun (d : W64) (e : Nat) =>
    let l := descLines d 64 32 e
    (List.range l.1).map fun i => (descBase d + i * descPitch d, l.2)
  match op.kind with
  | .zero t | .load t _ => ([(c0, tileAll t)], [])
  | .store _ d => ([], lines d 4)
  | .epi _ d ctl _ _ => ([], lines d (epiSize ctl))
  | .chk t _ d _ _ => ([(c0, tileAll t)], [(descBase d, 32)])
  | _ => (op.reads, [])

/-- What an operation computes (13, R320, R321, R327, R331 to R335). -/
def State.matCompute (s : State) (op : MatOp) : MRes MatEff :=
  let c0 := op.cores.headD 0
  let a := s.agentOf op.gs op.wg false op.pc op.id
  let tile := fun (t x : Nat) => (s.core c0).tile t 0 x
  match op.reads.find? (fun r => (s.core r.1).tileBad r.2) with
  | some _ => .bad 0x28 0
  | none =>
    match op.kind with
    | .zero t => .ok { tiles := [{ core := c0, t, vals := (List.range 2048).map fun x => (x, 0#32), zmap := some 0#128 }] }
    | .load t d =>
      (match s.operand a d 64 32 4 with
       | .ok f => .ok { tiles := [{ core := c0, t, zmap := some 0#128
                                    vals := (List.range 2048).map fun x => (x, BitVec.ofNat 32 (f (x / 32) (x % 32))) }] }
       | .wait => .wait
       | .bad c x => .bad c x)
    | .store t d => .ok { out := imageOut d 4 fun i j => (tile t (i * 32 + j)).toNat }
    | .epi t d ctl bias clamp =>
      (match (if bit ctl 6 then s.matRead a (descBase bias) 128 else .ok #[]) with
       | .ok l =>
         let f := fun i j => epilogue ctl clamp (fun j => arrNum l (4 * j) 4) j (tile t (i * 32 + j)).toNat
         .ok { out := imageOut d (epiSize ctl) f }
       | .wait => .wait
       | .bad c x => .bad c x)
    | .chk t k d te i8 =>
      let r := checkTile (tile t) (tile k) te i8
      .ok { tiles := (match r.2 with
              | some v => [{ core := c0, t, vals := [v] }]
              | none => [])
            out := [(descBase d, wordBytes r.1)] }
    | .mma t da db fa fb sa sb pair sp ck k =>
      let part := fun (core off : Nat) =>
        match s.readProd a a da db fa fb sa sb (if pair then 64 else 32) off with
        | .ok p => MRes.ok (s.mmaTile p core t sp (if ck then some k else none))
        | .wait => .wait
        | .bad c x => .bad c x
      (match joinEffs ((List.range op.cores.length).map fun i => part (op.cores.getD i 0) (32 * i)) with
       | .ok l => .ok { tiles := l }
       | .wait => .wait
       | .bad c x => .bad c x)
    | .quad parts =>
      (match joinEffs (parts.flatMap fun q => (List.range 8).map fun i => s.quadTile parts q (i / 2) (i % 2)) with
       | .ok l => .ok { tiles := l }
       | .wait => .wait
       | .bad c x => .bad c x)

/-- The bits of the cores of an operation in DONE and FAIL (13, R337). -/
def MatOp.bits (op : MatOp) : BitVec 16 := BitVec.ofNat 16 (2 ^ op.cores.length - 1)

/-- A core is the follower's of an operation on a pair. -/
def MatOp.borrows (op : MatOp) (c : Nat) : Bool := op.cores.length == 2 && c != op.cores.headD 0

/-- An operation leaves the queues; an array that no other operation has borrowed goes back (13, R325). -/
def State.leaveMat (s : State) (op : MatOp) : State :=
  op.cores.foldl (fun s c => s.updCore c fun x =>
    let eng := x.eng.filter (fun o => o.id != op.id)
    { x with eng, lent := if op.borrows c && !eng.any (fun o => o.borrows c) then none else x.lent }) s

/-- What an operation would have written is undefined (13, R337). [DEDUCED, log entry 21] -/
def State.smearMat (s : State) (op : MatOp) : State :=
  let a := s.agentOf op.gs op.wg false op.pc op.id
  let t := op.targets
  let s1 := t.1.foldl (fun s x => s.smearTile x.1 x.2) s
  t.2.foldl (fun s x => match s.engLocal a (x.1 / 2 ^ 20 % 16) (x.1 % 2 ^ 20) with
    | .ok loc _ => s.smear loc x.2
    | _ => s) s1

/-- An operation fails while it runs (13, R337; 12, R306). [DEDUCED, log entry 21] -/
def State.failMat (s : State) (op : MatOp) (code addr : Nat) : State :=
  op.mems.foldl (fun s gs => s.opDone gs .mx op.id fun o =>
    { o with fault := some ⟨BitVec.ofNat 8 code, 0#8, BitVec.ofNat 64 addr⟩, fail := op.bits }) ((s.smearMat op).leaveMat op)

/-- An operation completes. -/
def State.finishMat (s : State) (op : MatOp) : State :=
  op.mems.foldl (fun s gs => s.opDone gs .mx op.id fun o => { o with done := op.bits }) (s.leaveMat op)

/-- An operation's output is written until it is all written, a segment must wait, or a write fails. -/
def State.matOut (s : State) (a : Agent) (op : MatOp) : List (Nat × List Byte) → State
  | [] => s.finishMat op
  | (ga, l) :: t =>
    match s.putPieces a false ga 0 [l] with
    | .done s1 => s1.matOut a op t
    | .later _ s1 =>
      op.cores.foldl (fun s c => s.updCore c fun x =>
        { x with eng := x.eng.map fun o => if o.id = op.id then { o with out := some ((ga, l) :: t) } else o }) s1
    | .fail c _ ad s1 => s1.failMat op c ad

/-- MATRIX_OPERATION: the operation at the head of a core's queue, where it heads the queues of all its cores (13, R314). -/
def execMatrixOperation (core : Nat) (s : State) : Out :=
  .next (
    match (s.core core).eng with
    | [] => s
    | op :: _ =>
      if s.wgHalted op.wg || op.cores.any (fun c => ((s.core c).eng.head?.map (·.id)) != some op.id) then s
      else
        let a := s.agentOf op.gs op.wg false op.pc op.id
        match op.out with
        | some l => s.matOut a op l
        | none =>
          match s.matCompute op with
          | .wait => s
          | .bad c ad => s.failMat op c ad
          | .ok e => (e.tiles.foldl State.putTile s).matOut a op (e.out.flatMap fun x => sectorPieces x.1 x.2))

/-- QUAD_ARRIVAL_TIMEOUT: a quad operation whose sixteen arrivals are not complete after 2^24 cycles (13, R327). -/
def execQuadArrivalTimeout (quad : Nat) (qj : BitVec 16) (s : State) : Out :=
  .next (
    let late : QuadArr → Bool := fun a =>
      a.quad == quad && a.qj == qj && decide (a.parts.length < 16) && decide (a.since + 2 ^ 24 ≤ s.clock)
    (s.quads.filter late).foldl (fun s a => a.parts.foldl (fun s p =>
      s.teamFault p.wg ((s.teamOfPart p).ix)) s) { s with quads := s.quads.filter (fun a => !late a) })

end Sys2Proof.Machine
end

