-- ==== Sys2Proof/Machine/Placement.lean ====
section
/-! DEFINITION. The Deckle: what a workgroup needs, where it fits, how its groups take lane blocks, and its start (06, R150,
R151; 07, R173 to R178; 08, R209, R211 to R214). -/

namespace Sys2Proof.Machine

/-! ### Launch shapes -/

/-- The workgroup's lanes, its groups, its work items (07, R174). -/
def Grid.lanes (g : Grid) : Nat := bits (g.word 0x10) 27 17 * bits (g.word 0x10) 38 28 * bits (g.word 0x10) 49 39
def Grid.groups (g : Grid) : Nat := (g.lanes + 31) / 32
/-- The grid's extent in workgroups. -/
def Grid.gx (g : Grid) : Nat := bits (g.word 0x08) 30 0
def Grid.gy (g : Grid) : Nat := bits (g.word 0x08) 48 32
def Grid.gz (g : Grid) : Nat := bits (g.word 0x10) 16 0
/-- Local store of a workgroup, and its queue storage (02, R44; 07, R191; 08, R211). -/
def Grid.lsBytes (g : Grid) : Nat := 1024 * bits (g.word 0x18) 57 48
def Grid.qBytes (g : Grid) : Nat := g.nq * (128 * g.qdepth + 64 * ((g.qdepth + 7) / 8) + 64)
/-- The frames of a launch with private memory. -/
def Grid.nframes (g : Grid) : Nat := bits (g.word 0x38) 31 16
def Grid.pair (g : Grid) : Bool := bit (g.word 0x18) 31
def Grid.cosched (g : Grid) : Bool := bit (g.word 0x18) 27

/-- A number of bytes in whole KiB. -/
def kib (n : Nat) : Nat := (n + 1023) / 1024

/-! ### Occupancy -/

/-- A lane block as the Deckle sees it: free slots ascending, registers free, live width. -/
structure LbView where
  lb   : Nat
  free : List Nat
  regs : Nat
  width : Nat
  deriving DecidableEq, Repr

/-- A core as the Deckle sees it: free barrier slots, lane blocks, allocations of local store in KiB. -/
structure CoreView where
  core : Nat
  bars : Nat
  lbs  : List LbView
  used : List (Nat × Nat)
  deriving DecidableEq, Repr

/-- A unit flagged for an early check keeps work from its core, or from its lane block (16, R381). -/
def keepsCore (u : HwUnit) (core : Nat) : Bool := match u with
  | .lsBank c _ | .column c _ => c == core
  | _ => false
def keepsLb (u : HwUnit) (lb : Nat) : Bool := match u with
  | .lane k _ | .regBank k _ => k == lb
  | _ => false

/-- The live lane blocks of a core: none where too few local-store banks are live (02, R46), or the memory of the die is lost (16,
R382). -/
def State.liveLbs (s : State) (core : Nat) : List Nat :=
  if (s.core core).banks < 32 ∨ (s.die (dieOf core)).memLost then []
  else (List.range 4).filter (fun i => (s.lb (core * 4 + i)).width != 0)
/-- Those that take groups now: none that waits for an early check (16, R381). -/
def State.openLbs (s : State) (core : Nat) : List Nat :=
  if s.checks.any (keepsCore · core) then [] else (s.liveLbs core).filter (fun i => !s.checks.any (keepsLb · (core * 4 + i)))

/-- The registers per lane of a lane block (07, R179, R180). -/
def LaneBlock.capacity (b : LaneBlock) : Nat := 96 * min b.banks 16

/-- A core with nothing resident. -/
def State.emptyView (s : State) (core : Nat) : CoreView :=
  { core, bars := 32, used := []
    lbs := (s.liveLbs core).map fun i =>
      { lb := i, free := List.range 15, regs := (s.lb (core * 4 + i)).capacity, width := (s.lb (core * 4 + i)).width } }

/-- A workgroup's allocation, by start and length in KiB; after its exit its queue storage is free (06, R152). -/
def Workgroup.alloc (w : Workgroup) : Nat × Nat := (w.lsBase / 1024, kib (if w.resident then w.lsSize + w.qSize else w.lsSize))

/-- A core as it is; a slot whose incarnation may not advance yet takes no group (04, R108). -/
def State.viewOf (s : State) (core : Nat) : CoreView :=
  let mine := s.wgs.filter (fun w => w.2.core == core && (w.2.resident || w.2.gone))
  { core, bars := 32 - (mine.filter (·.2.resident)).length, used := mine.map (·.2.alloc)
    lbs := (s.openLbs core).map fun i =>
      let k := core * 4 + i
      let here := s.groups.filter (fun g => g.1 / 16 == k && g.1 % 16 != 15)
      { lb := i, free := (List.range 15).filter (fun j => (Tbl.find s.groups (k * 16 + j)).isNone && s.mayAdvance (k * 16 + j))
        regs := (s.lb k).capacity - (here.map (·.2.n)).sum, width := (s.lb k).width } }

/-- The weight of a core (08, R212). [DEDUCED, log entry 38] -/
def CoreView.weight (v : CoreView) : Nat := (v.lbs.map fun b => min b.width 32 * b.free.length).sum

/-- The lane blocks in the order in which groups take them: by descending live width, the lower number first. -/
def CoreView.order (v : CoreView) : List Nat := (sortBy (fun b => (64 - b.width) * 4 + b.lb) v.lbs).map (·.lb)

/-- The first lane block of a list with room for `n` registers. -/
def CoreView.roomIn (v : CoreView) (n : Nat) : List Nat → Option LbView
  | [] => none
  | i :: t =>
    match v.lbs.find? (fun b => b.lb == i && !b.free.isEmpty && decide (n ≤ b.regs)) with
    | some b => some b
    | none => v.roomIn n t

/-- Groups take lane blocks in turn: `at_` is the place in the order where the next begins. -/
def CoreView.assign (v : CoreView) (n : Nat) (order : List Nat) (at_ : Nat) : Nat → Option (List (Nat × Nat) × CoreView)
  | 0 => some ([], v)
  | k + 1 =>
    match v.roomIn n (order.drop at_ ++ order.take at_) with
    | none => none
    | some b =>
      let slot := b.free.headD 0
      let took := fun (x : LbView) => if x.lb = b.lb then { x with free := x.free.drop 1, regs := x.regs - n } else x
      let v1 := { v with lbs := v.lbs.map took }
      (v1.assign n order (((order.takeWhile (· != b.lb)).length + 1) % max 1 order.length) k).map fun r => ((b.lb, slot) :: r.1, r.2)

/-- The lowest 1 KiB position with `n` KiB free. -/
def CoreView.lsAt (v : CoreView) (n : Nat) : Option Nat :=
  (List.range (512 + 1 - n)).find? (fun p => decide (n ≤ 512) && v.used.all (fun u => decide (p + n ≤ u.1) || decide (u.1 + u.2 ≤ p)))

/-- A workgroup, or what is left of it in `n` groups, placed on a core: its position in local store in KiB, and its groups'
lane blocks and slots (08, R211). -/
def CoreView.placeK (v : CoreView) (g : Grid) (n : Nat) : Option ((Nat × List (Nat × Nat)) × CoreView) :=
  let need := kib (g.lsBytes + g.qBytes)
  if v.bars = 0 then none
  else
    match v.lsAt need, v.assign g.nreg v.order 0 n with
    | some p, some (l, v1) => some ((p, l), { v1 with bars := v.bars - 1, used := (p, need) :: v.used })
    | _, _ => none

def CoreView.place (v : CoreView) (g : Grid) : Option ((Nat × List (Nat × Nat)) × CoreView) := v.placeK g g.groups

/-- Cores by descending weight, the lowest number first. -/
def byWeight (vs : List CoreView) : List CoreView := sortBy (fun v => (3000 - v.weight) * 1024 + v.core) vs

/-- A place for a workgroup: the core, the position in local store, the groups' lane blocks and slots. -/
structure Place where
  core : Nat
  ls   : Nat
  slots : List (Nat × Nat)
  deriving DecidableEq, Repr

/-- The views with one core's replaced. -/
def putView (vs : List CoreView) (v : CoreView) : List CoreView := vs.map fun x => if x.core = v.core then v else x

/-- One workgroup on the core of highest weight that it fits. -/
def placeOne (vs : List CoreView) (g : Grid) : Option (Place × List CoreView) :=
  (byWeight vs).findSome? fun v => (v.place g).map fun r => (⟨v.core, r.1.1, r.1.2⟩, putView vs r.2)

/-- Two partners on an even core and the odd core above it, the pair of highest weight first (08, R213).
[DEDUCED, log entry 38] -/
def placePair (vs : List CoreView) (g : Grid) : Option (List Place × List CoreView) :=
  let pairs := (vs.filter (fun v => v.core % 2 == 0)).filterMap fun v => (vs.find? (fun u => u.core == v.core + 1)).map fun u => (v, u)
  (sortBy (fun (p : CoreView × CoreView) => (6000 - (p.1.weight + p.2.weight)) * 1024 + p.1.core) pairs).findSome? fun p =>
    (p.1.place g).bind fun a => (p.2.place g).map fun b =>
      ([⟨p.1.core, a.1.1, a.1.2⟩, ⟨p.2.core, b.1.1, b.1.2⟩], putView (putView vs a.2) b.2)

/-- The next workgroup, or pair of workgroups, of a launch. -/
def placeNext (vs : List CoreView) (g : Grid) : Option (List Place × List CoreView) :=
  if g.pair then placePair vs g else (placeOne vs g).map fun r => ([r.1], r.2)

/-- Several workgroups one after another, with fuel. -/
def placeMany (g : Grid) : Nat → Nat → List CoreView → Option (List Place × List CoreView)
  | 0, _, _ => none
  | _ + 1, 0, vs => some ([], vs)
  | f + 1, n, vs =>
    match placeNext vs g with
    | none => none
    | some (l, vs1) => (placeMany g f (n - l.length) vs1).map fun r => (l ++ r.1, r.2)

/-- The cores of a cluster, and those of a partition. -/
def clusterCores (k : Nat) : List Nat := (List.range 4).map fun i => k * 4 + i
/-- A cluster has a core that takes groups. -/
def State.clusterLive (s : State) (k : Nat) : Bool := (clusterCores k).any (fun c => !(s.liveLbs c).isEmpty)

/-- A gang on some cluster: its members placed in rank order (06, R150, R151). -/
def placeGang (views : Nat → List CoreView) (g : Grid) : List Nat → Option (Nat × List Place × List CoreView)
  | [] => none
  | k :: t =>
    match placeMany g 64 g.gangSize (views k) with
    | some (l, vs) => some (k, l, vs)
    | none => placeGang views g t

/-- All the workgroups of a grid: gang by gang, or one after another (08, R214). -/
def placeGrid (g : Grid) (clusters : List Nat) : Nat → Nat → List CoreView → Option (List Place)
  | 0, _, _ => none
  | _ + 1, 0, _ => some []
  | f + 1, n, vs =>
    if 2 ≤ g.gangSize then
      match placeGang (fun k => vs.filter (fun v => clusterOf v.core == k)) g clusters with
      | none => none
      | some (_, l, vs1) =>
        (placeGrid g clusters f (n - l.length) (vs1.foldl putView vs)).map fun r => l ++ r
    else
      match placeNext vs g with
      | none => none
      | some (l, vs1) => (placeGrid g clusters f (n - l.length) vs1).map fun r => l ++ r

/-- No grid has more workgroups resident than the barrier slots of the module. -/
def maxResident : Nat := 768 * 32

/-! ### Launch refusals (08, R210 Table 5) -/

/-- The refusal reasons that apply, 0x08 first, then the lowest. [DEDUCED, log entry 114] -/
def State.refusal (s : State) (g : Grid) : Option Nat :=
  match Tbl.find s.parts g.part with
  | none => some 0x08
  | some p =>
    let ks := p.clusters.filter s.clusterLive
    let empty := fun (k : Nat) => (clusterCores k).map s.emptyView
    let all := ks.flatMap empty
    let some_ := g.total != 0
    let checks : List (Nat × Bool) :=
      [(0x01, decide (2 ≤ g.gangSize) && g.total % g.gangSize != 0),
       (0x02, decide (2 ≤ g.gangSize) && (placeGang empty g ks).isNone),
       (0x03, decide (2 ≤ g.team) && g.groups % g.team != 0),
       (0x04, (placeOne all g).isNone),
       (0x05, g.cosched && some_ && (decide (maxResident < g.total) || (placeGrid g ks (maxResident + 1) g.total all).isNone)),
       (0x06, g.pair && (g.total % 2 == 1 || (decide (1 < g.gangSize) && g.gangSize % 2 == 1))),
       (0x07, g.priv != 0 && decide (physWinStart < (g.word 0x30).toNat + g.nframes * g.groups * (32 * g.priv + 4096)))]
    if ks.isEmpty then some 0x08 else (checks.find? (·.2)).map (·.1)
where
  /-- The first address beyond the global window (01, R14). -/
  physWinStart : Nat := 0xE0000000000000

/-! ### Starting a workgroup (07, R174, R178; 08, R209) -/

/-- A fresh group of a workgroup. -/
def newGroup (g : Grid) (wid wgidx gidx rank age : Nat) : Group :=
  let live := maskOf fun L => decide (gidx * 32 + L < g.lanes)
  let code := g.word 0x20
  let x := wgidx % max 1 g.gx
  let y := wgidx / max 1 g.gx % max 1 g.gy
  let z := wgidx / max 1 (g.gx * g.gy)
  let team := if 2 ≤ g.team then gidx / g.team else 0
  let s := [(0, g.word 0x28), (1, BitVec.ofNat 64 (fld 31 0 x + fld 16 32 y + fld 16 48 z)), (2, BitVec.ofNat 64 wgidx),
    (3, BitVec.ofNat 64 (fld 4 0 rank + fld 5 4 g.gangSize + fld 4 9 team + fld 4 16 g.depth + fld 4 20 g.epoch.toNat))]
  { wg := wid, gidx, age, n := g.nreg, live
    s := s.foldl (fun t e => Tbl.set 0#64 t e.1 e.2) []
    slotA := some { pc := code, mask := live }
    origin := (laneList live).foldl (fun t L => Tbl.put t L (BitVec.ofNat 10 (gidx * 32 + L))) []
    regpc := code, regmask := live, rv := !g.fenced }

/-- The value of a placement in the replay log (17, R400 Table 5 kind 4). -/
def Place.value (p : Place) : W64 :=
  let f := p.slots.headD (0, 0)
  BitVec.ofNat 64 (fld 10 32 p.core + fld 2 8 f.1 + fld 4 0 f.2)

/-- The group slots of a place. -/
def Place.gss (p : Place) : List Nat := p.slots.map fun x => p.core * 64 + x.1 * 16 + x.2

/-- The local-store watermarks of an allocation are cleared (04, R104). -/
def State.clearLswm (s : State) (core base size : Nat) : State :=
  s.updCore core fun c => { c with lswm := c.lswm.filter (fun e => !(decide (base ≤ e.1 * 64) && decide (e.1 * 64 < base + size))) }

/-- A gang's record, made with its first member: the gang of a grid that is not complete, else a new one on the cluster. -/
def State.gangFor (s : State) (gid : Nat) (g : Grid) (cluster : Nat) : Nat × State :=
  match s.gangs.find? (fun x => x.2.grid == gid && decide (x.2.wgs.length < x.2.size)) with
  | some (k, _) => (k, s)
  | none =>
    let x := s.newId
    (x.1, { x.2 with gangs := Tbl.put x.2.gangs x.1 { grid := gid, cluster, size := g.gangSize } })

/-- A hand-over or placement is logged, or its logged event is used up (17, R400 kind 4, R403). -/
def State.deckleEvent (s : State) (spid : Nat) (name : Nat × Nat × Nat) (key : Nat) (v : W64) : State :=
  match s.nextAt spid name 0#32 4 key with
  | some (ix, _) => s.useEvent spid ix
  | none => s.logEvent spid 4 0xFF name 0#32 key v

/-- A workgroup starts at a place; its launch's edge is an acquire of scope .SYS, which invalidates the core's L1 (03, R85; 02, R48;
09, R219). [DEDUCED, log entry 35] -/
def State.startWg (s : State) (gid : Nat) (p : Place) : State :=
  match Tbl.find s.grids gid with
  | none => s
  | some g =>
    let wgidx := g.next
    let rank := wgidx % g.gangSize
    let x := s.newId
    let k := x.2.gangFor gid g (clusterOf p.core)
    let base := 1024 * p.ls
    let frame := ((List.range (g.frames.length + 1)).find? (fun i => !g.frames.contains i)).getD 0
    let w : Workgroup :=
      { grid := gid, wgidx, core := p.core, ngrp := g.groups, lsBase := base, lsSize := g.lsBytes, qSize := g.qBytes, frame
        gang := k.1, rank
        slots := (List.range g.groups).foldl (fun t i => Tbl.put t i (p.gss.getD i 0)) [] }
    let s1 := { k.2 with
      wgs := Tbl.put k.2.wgs x.1 w
      gangs := Tbl.upd k.2.gangs k.1 fun q => { q with wgs := Tbl.put q.wgs rank x.1 } }
    let s2 := s1.updGrid gid fun g => { g with next := wgidx + 1, frames := if g.priv = 0 then g.frames else frame :: g.frames }
    let s3 := (List.range g.groups).foldl (fun s i =>
      let gs := p.gss.getD i 0
      let a := s.enterSlot gs
      { a with fresh := a.fresh + 1, groups := Tbl.put a.groups gs (newGroup g x.1 wgidx i rank (a.fresh + 1)) }) s2
    ((s3.clearLswm p.core base (1024 * kib g.lsBytes)).l1Clear p.core).deckleEvent g.spid (g.number, wgidx, 0) wgidx p.value

/-! ### WORKGROUP_PLACEMENT (08, R211 to R214; 06, R151) -/

/-- A grid has workgroups to place, and its context runs, in the generation of the launch (15, R373; 01, R38). -/
def State.placeable (s : State) (g : Grid) : Bool :=
  decide (g.next < g.total) && (s.space g.spid).st == .running && (s.space g.spid).gen == g.sgen && (s.space g.spid).saved.isEmpty &&
    ((Tbl.find s.parts g.part).map fun p => p.halt.isNone).getD false

/-- The gang of a grid that is bound and has members unplaced. -/
def State.openGang (s : State) (gid : Nat) : Option Gang :=
  (s.gangs.find? (fun x => x.2.grid == gid && decide (x.2.wgs.length < x.2.size))).map (·.2)

/-- A bound gang with members unplaced holds its cluster while it has a member there or its context runs with nothing saved; one that
waits to be restored holds it while its context runs (06, R151). -/
def State.gangHolds (s : State) (q : Gang) : Bool :=
  let runs := fun (f : Space → Bool) => ((Tbl.find s.grids q.grid).map fun g => (s.space g.spid).st == .running && f (s.space g.spid)).getD false
  q.holds && runs (fun _ => true) ||
    decide (q.wgs.length < q.size) &&
      (runs (fun p => p.saved.isEmpty) || q.wgs.any (fun w => ((Tbl.find s.wgs w.2).map (·.resident)).getD false))

/-- A free frame, where the launch has private memory. [DEDUCED, log entry 114] -/
def Grid.frameFree (g : Grid) (n : Nat) : Bool := g.priv == 0 || decide (g.frames.length + n ≤ g.nframes)

/-- A gang's members all fit a cluster that is empty: only there is it bound, so that it starts in full (06, R151).
[DEDUCED, log entry 38] -/
def State.gangFits (s : State) (g : Grid) (k : Nat) : Bool := (placeMany g 64 g.gangSize ((clusterCores k).map s.emptyView)).isSome

/-- The places of the next workgroups of a grid: a bound gang's on its cluster, a new gang's rank 0 on any cluster that no
other gang holds, a COSCHED grid's all at once. -/
def State.nextPlaces (s : State) (gid : Nat) (g : Grid) : Option (List Place) :=
  match Tbl.find s.parts g.part with
  | none => none
  | some p =>
    let waiting := s.grids.any (fun x => x.1 != gid && x.2.part == g.part && x.2.waits)
    let barred := s.gangs.filter (fun x => x.2.grid != gid && s.gangHolds x.2)
    let ks := p.clusters.filter (fun k => !(barred.any (fun x => x.2.cluster == k)))
    let views := fun (l : List Nat) => l.flatMap fun k => (clusterCores k).map s.viewOf
    if g.cosched then
      (if g.frameFree g.total && decide (g.total ≤ maxResident) then placeGrid g ks (maxResident + 1) g.total (views ks) else none)
    else if waiting then none
    else if !g.frameFree (if g.pair then 2 else 1) then none
    else
      match s.openGang gid with
      | some q => (placeNext (views [q.cluster]) g).map (·.1)
      | none => (placeNext (views (if 2 ≤ g.gangSize then ks.filter (s.gangFits g) else ks)) g).map (·.1)

/-- Grids that are served before another: lower class, then earlier hand-over. -/
def Grid.before (a b : Grid) : Bool := decide (a.cls < b.cls) || (a.cls == b.cls && decide (a.hand < b.hand))

end Sys2Proof.Machine
end

