-- ==== Sys2Proof/Machine/Launch.lean ====
section
/-! DEFINITION. Launches: the descriptor's checks, the Headbox's walks of page tables for extents and the reduction log, the
hand-over to the Deckle (01, R20 to R23, R32; 05, R146; 08, R208, R210), and LAUNCH and LWAIT (14, R353, R354). -/

namespace Sys2Proof.Machine

/-! ### Descriptors (08, R208 Table 4) -/

/-- A number within bounds. -/
def inRange (lo hi x : Nat) : Bool := decide (lo ≤ x) && decide (x ≤ hi)

/-- A reserved field of a launch descriptor is not zero. -/
def descReserved (g : Grid) : Bool :=
  let w := g.word
  bits (w 0x08) 63 49 != 0 || bit (w 0x08) 31 || bits (w 0x10) 63 50 != 0 || bits (w 0x18) 19 0 != 0 ||
  bits (w 0x38) 63 32 != 0 || bits (w 0x38) 15 13 != 0 || bits (w 0x58) 63 5 != 0 ||
  [0x60, 0x68, 0x70, 0x78].any (fun o => w o != 0#64) ||
  (List.range (min 16 (bits (w 0x58) 4 0))).any (fun e => bits (w (0x88 + 16 * e)) 62 48 != 0)

/-- A field of a launch descriptor is out of its range (08, R208; CSIG: R206). -/
def descRange (g : Grid) : Bool :=
  let w := g.word
  let psz := bits (w 0x38) 12 0
  let n := bits (w 0x58) 4 0
  decide (65536 < g.gy) || decide (65536 < g.gz) || !inRange 1 1024 (bits (w 0x10) 49 39) ||
  !inRange 1 1024 (bits (w 0x10) 38 28) || !inRange 1 1024 (bits (w 0x10) 27 17) || decide (1024 < g.lanes) ||
  !inRange 1 48 (bits (w 0x18) 63 58) || decide (512 < bits (w 0x18) 57 48) || decide (8 < g.nq) ||
  !(g.team == 0 || inRange 2 8 g.team) || decide (16 < bits (w 0x18) 36 32) || !inRange 10 32 (bits (w 0x18) 25 20) ||
  bits (w 0x20) 63 56 != 0 || bits (w 0x20) 2 0 != 0 || bits (w 0x28) 5 0 != 0 ||
  (psz != 0 && bits (w 0x30) 15 0 != 0) || (psz != 0 && g.nframes == 0) || decide (4096 < psz) || bits (w 0x40) 2 0 != 0 ||
  (w 0x48 != 0#64 && (bits (w 0x48) 5 0 != 0 || bits (w 0x50) 5 0 != 0 || decide ((w 0x50).toNat < 128))) ||
  decide (16 < n) || (List.range (min 16 n)).any (fun e => bits (w (0x88 + 16 * e)) 47 0 == 0)

/-! ### The Headbox's walks (01, R20 to R23, R32; 05, R146) -/

/-- A page that a captured range may use: no supervisor page, at a physical address that exists. -/
def State.pageCheck (s : State) : Walk → Walk
  | .leaf va size pte => if bit pte 4 then .bad 0x09 0x07 else if !s.paExists (ptePa pte) then .bad 0x09 0x09 else .leaf va size pte
  | w => w

/-- A run joined to the runs before it where they are contiguous. -/
def joinRun (l : List Run) (r : Run) : List Run :=
  match l.getLast? with
  | some p =>
    if p.va + p.len = r.va ∧ p.pa + p.len = r.pa then l.dropLast ++ [{ p with len := p.len + r.len, unc := p.unc ++ r.unc }]
    else l ++ [r]
  | none => [r]

/-- The runs of a range, and whether every page of it may be written; with fuel for its pages. -/
def State.capture (s : State) (root va last : Nat) : Nat → List Run → Bool → Except (Nat × Nat) (List Run × Bool)
  | 0, l, w => .ok (l, w)
  | f + 1, l, w =>
    if last ≤ va then .ok (l, w)
    else
      match s.pageCheck (s.walkFrom va root 3) with
      | .bad c d => .error (c, d)
      | .leaf pva size pte =>
        let n := min (pva + size) last - va
        let unc := if bits pte 7 6 = 1 then [(va, n)] else []
        s.capture root (va + n) last f (joinRun l { va, pa := ptePa pte + (va - pva), len := n, unc }) (w && bit pte 2)

/-- A range of a launch by its virtual base and length. -/
def State.captureRange (s : State) (spid base len : Nat) : Except (Nat × Nat) (List Run × Bool) :=
  s.capture (s.space spid).ptroot.toNat base (base + len) (len / 2 ^ 16 + 2) [] true

/-- The extents of a launch in order, at most 4,096 runs in all. -/
def State.captureExtents (s : State) (g : Grid) : List Nat → Except (Nat × Nat) (List Extent)
  | [] => .ok []
  | e :: t =>
    let base := (g.word (0x80 + 16 * e)).toNat
    let w := g.word (0x88 + 16 * e)
    match s.captureRange g.spid base (bits w 47 0) with
    | .error x => .error x
    | .ok (l, wr) =>
      (match s.captureExtents g t with
       | .error x => .error x
       | .ok r => .ok ({ base, len := bits w 47 0, rw := bit w 63 && wr, runs := l } :: r))

/-- The reduction log's runs (05, R146). -/
def State.captureLog (s : State) (g : Grid) : Except (Nat × Nat) (List Run) :=
  if g.word 0x48 = 0#64 then .ok []
  else
    match s.captureRange g.spid (g.word 0x48).toNat (g.word 0x50).toNat with
    | .error x => .error x
    | .ok (l, w) => if !w then .error (0x0A, 0x01) else if 4096 < l.length then .error (0x09, 0x08) else .ok l

/-- The captured run that holds an address. -/
def runAt (l : List Run) (va : Nat) : Option Run := l.find? (fun r => decide (r.va ≤ va) && decide (va < r.va + r.len))
/-- The physical address of an offset of captured runs. -/
def runPa (l : List Run) (va : Nat) : Option Nat := (runAt l va).map fun r => r.pa + (va - r.va)
/-- It lies on a page of ATTR 1. -/
def runUnc (l : List Run) (va : Nat) : Bool := ((runAt l va).map (·.uncached va)).getD false

/-! ### Carrying a launch out (08, R210) -/

/-- The epoch tag of a new grid: round-robin over the tags that no running grid of the context holds (08, R210). -/
def State.nextEpoch (s : State) (spid : Nat) : Nat :=
  let held := (s.grids.filter (fun x => x.2.spid == spid && !x.2.retired && x.2.total != 0)).map (·.2.epoch.toNat)
  let start := (s.space spid).epochNext
  ((List.range 16).map (fun i => (start + i) % 16)).find? (fun t => !held.contains t) |>.getD (start % 16)

/-- The outcome of a launch: refused for a reason; a walk's failure, a fault of the context; a grid under its key. -/
inductive Launched where
  | refused (det : Nat)
  | failed  (code det : Nat) (s : State)
  | ok      (gid : Nat) (s : State)
  deriving DecidableEq, Repr

/-- The hand-over of a grid to the Deckle, under an epoch tag of its own unless it has no workgroup (08, R210). -/
def State.handOver (s : State) (g : Grid) (l : List Run) (es : List Extent) : Launched :=
  let x := s.newId
  let tag := s.nextEpoch g.spid
  let sp := s.space g.spid
  let g1 := { g with
    epoch := if g.total = 0 then 0#4 else BitVec.ofNat 4 tag, hand := x.1, extents := es, rlog := l, number := sp.gridNo
    applied := l.isEmpty }
  let s2 := { x.2 with grids := Tbl.put x.2.grids x.1 g1 }.updSpace g.spid fun p =>
    { p with epochNext := if g.total = 0 then p.epochNext else (tag + 1) % 16, gridNo := (p.gridNo + 1) % 2 ^ 16 }
  .ok x.1 (s2.deckleEvent g.spid (g1.number, 0, 0) g1.number 0#64)

/-- CAP of a launch's reduction log is written through its captured runs (05, R146; 08, R210). -/
def State.putCap (s : State) (g : Grid) (l : List Run) : State :=
  let at_ := (g.word 0x48).toNat + 8
  match runPa l at_ with
  | some pa => s.plainWrite g.spid g.part (runUnc l at_) pa (toBytes 8 (((g.word 0x50).toNat - 64) / 32))
  | none => s

/-- Steps 1 to 5 of R210: the reduction log is walked and its CAP written before the extents are walked. A grid with a dimension
of 0 is handed over with no workgroup: it walks nothing and places nothing. [DEDUCED, log entry 57] -/
def State.carryLaunch (s : State) (g : Grid) : Launched :=
  match s.refusal g with
  | some d => .refused d
  | none =>
    if g.total = 0 then s.handOver g [] []
    else
      match s.captureLog g with
      | .error (c, d) => .failed c d (s.haltBy g.spid 7 0 c d)
      | .ok l =>
        let s1 := s.putCap g l
        match s1.captureExtents g (List.range (bits (g.word 0x58) 4 0)) with
        | .error (c, d) => .failed c d (s1.haltBy g.spid 7 0 c d)
        | .ok es =>
          if 4096 < (es.map fun e => e.runs.length).sum then .failed 0x09 0x08 (s1.haltBy g.spid 7 0 0x09 0x08)
          else s1.handOver g l es

/-- The grid of a descriptor, before its hand-over. -/
def mkGrid (part spid : Nat) (sgen : Byte) (depth : Nat) (desc : Tbl W64) (cls : Nat → Nat)
    (parent : Option (Nat × Nat × Nat × Nat)) (packet : Option Nat) : Grid :=
  let g : Grid := { part, spid, sgen, desc, cls := 0, depth, epoch := 0#4, hand := 0, parent, packet, total := 0 }
  { g with cls := cls (bits (g.word 0x18) 30 29), total := g.gx * g.gy * g.gz }

/-! ### LAUNCH and LWAIT (14, R353, R354) -/

/-- The lowest free handle of a group. [DEDUCED, log entry 34] -/
def freeHandle (g : Group) : Option Nat := (List.range 16).find? (fun h => (Tbl.find g.kids h).isNone)

/-- The words of a block in memory, each page translated. -/
def descWords (s : State) (ga : Nat) (l : List LaneTr) (n : Nat) : Tbl W64 :=
  (List.range n).map fun i =>
    let a := ga + 8 * i
    let pa := (l.findSome? fun x =>
      if x.ga.toNat / 2 ^ 16 = a / 2 ^ 16 then (x.locs.head?.map Loc.pa).map fun p => p + (a - x.ga.toNat) else none).getD 0
    (i, s.rd8 pa)

/-- LAUNCH once its block can be read (14, R353 Table 5). -/
def State.launchNow (s : State) (w : Word) (d : Reg) (p : Grid) (desc : Tbl W64) : Eff :=
  let say := fun (v : Nat) (s : State) => Eff.done (s.updGroup w.gs fun g => g.writes (w.put64 d fun _ => v))
  let gid := ((Tbl.find s.wgs w.g.wg).map (·.grid)).getD 0
  let handle := freeHandle w.g
  let child := mkGrid p.part p.spid p.sgen (p.depth + 1) desc (fun c => max c p.cls)
    (some (gid, s.wgidOf w.g, w.g.gidx, handle.getD 0)) none
  let mode := BitVec.ofNat 64 ((child.word 0x18).toNat - fld 1 28 (b2n child.fenced) + fld 1 28 (b2n p.fenced))
  let child1 := { child with desc := Tbl.put child.desc 3 mode }
  if descReserved child || descRange child then say 0x10 s
  else
    match s.refusal child1, handle with
    | some r, _ => say r s
    | none, none => say 0x11 s
    | none, some h =>
      (match s.carryLaunch child1 with
       | .refused r => say r s
       | .failed _ _ s1 => .wait .batchWait s1
       | .ok k s1 => say (fld 4 8 h) (s1.updGroup w.gs fun g => { g with kids := Tbl.put g.kids h k }))

/-- LAUNCH: a child grid under the lowest free handle (14, R353). [DEDUCED, log entry 34] -/
def execLaunch (h : Hdr) (d a : Reg) (s : State) : Out :=
  s.issue (.launch h d a) fun w s =>
    match s.gridOf w.g with
    | none => .done s
    | some p =>
      let ga := w.src 0 0
      if w.act = 0#32 then .done s
      else if p.depth + 1 = 11 then .trap { code := 0x21, lanes := w.act } s
      else if ga % 64 ≠ 0 then .trap { code := 0x08, lanes := w.act, addr := BitVec.ofNat 64 ga } s
      else if s.unperformed w.gs || s.matesWrite w.gs w.g.wg then .wait .batchWait s
      else
        let page := fun (n : Nat) => ((rangeFirst ga n).map fun x =>
          (⟨w.lanes.headD 0, BitVec.ofNat 64 x, s.trans (w.ask .load) x 1 0⟩ : LaneTr))
        s.withLanes w true .load (page 128) fun l =>
          let next := bits (Tbl.get 0#64 (descWords s ga l 16) 11) 4 0
          let n := 128 + 16 * min next 16
          s.withLanes w true .load (page n) fun l => s.launchNow w d p (descWords s ga l (n / 8))
where
  /-- The first address of each 64 KiB page that a block touches. -/
  rangeFirst (ga n : Nat) : List Nat :=
    (List.range ((ga + n - 1) / 2 ^ 16 - ga / 2 ^ 16 + 1)).map fun i => max ga ((ga / 2 ^ 16 + i) * 2 ^ 16)

/-- A child that has retired and is waited for leaves the grids. -/
def State.dropGrid (s : State) (k : Nat) : State := { s with grids := Tbl.del s.grids k }

/-- LWAIT (14, R354): its edge is an acquire of scope .DEV (08, R215). -/
def execLwait (h : Hdr) (d a : Reg) (s : State) : Out :=
  s.issue (.lwait h d a) fun w s =>
    let say := fun (v : Nat) (s : State) => Eff.done (s.updGroup w.gs fun g => g.writes (w.put64 d fun _ => v))
    let named := if a = .z then w.g.kids else w.g.kids.filter (fun k => k.1 == w.src 0 0 % 16)
    if w.act = 0#32 then .done s
    else if named.isEmpty && a != .z then say 1 s
    else if named.any (fun k => ((Tbl.find s.grids k.2).map fun g => !g.retired).getD false) then .wait .batchWait s
    else
      let s1 := named.foldl (fun s k => s.dropGrid k.2) s
      let s2 := s1.updGroup w.gs fun g => { g with kids := g.kids.filter (fun k => !named.contains k) }
      say 0 (s2.acquireL1 (coreOf w.gs) .dev)

end Sys2Proof.Machine
end

