-- ==== Sys2Proof/Machine/Signal.lean ====
section
/-! DEFINITION. The Headbox's own accesses: addresses of queues in their spaces, or physical on a management queue (08, R206;
18, R415), signals, completion signals. -/

namespace Sys2Proof.Machine

/-- For whom the Headbox of a die accesses memory: the queue's space, partition and class; whether its addresses are physical; the
operation. -/
structure HbFor where
  spid : Nat
  part : Nat
  phys : Bool
  die  : Nat
  cls  : Nat := 1
  tag  : Nat := 0
  deriving DecidableEq, Repr

/-- Where a Headbox address lies, or the detail code of its fault (01, R42): a page of a space is looked up in its
tables; a physical address lies in the partition's memory or in host memory. [DEDUCED, log entry 64] -/
def State.hbAddr (s : State) (q : HbFor) (write : Bool) (ga : Nat) : Except Nat Nat :=
  if q.phys then
    if ga < 2 ^ 52 && s.paExists ga &&
        (ga.testBit 51 || (s.ownMem ga && ((Tbl.find s.parts q.part).map fun p => p.holds ga).getD false)) then .ok ga
    else .error 9
  else if 2 ^ 56 ≤ ga then .error 1
  else if physWin ≤ ga ∧ ga < localWin then .error 3
  else if localWin ≤ ga ∧ ga < localWin + 2 ^ 24 ∨ privWin ≤ ga ∧ ga < privWin + 2 ^ 32 then .error 0x0A
  else if physWin ≤ ga then .error 2
  else
    match s.walkFrom ga (s.space q.spid).ptroot.toNat 3 with
    | .bad _ d => .error (if d = 7 then 3 else d)
    | .leaf va _ pte =>
      if bit pte 4 then .error 3
      else if write && !bit pte 2 then .error 1
      else if s.paExists (ptePa pte + (ga - va)) then .ok (ptePa pte + (ga - va))
      else .error 9

/-- An address of a queue lies on a page of ATTR 1 (01, R21). -/
def State.hbUnc (s : State) (q : HbFor) (ga : Nat) : Bool :=
  !q.phys && (match s.walkFrom ga (s.space q.spid).ptroot.toNat 3 with
    | .leaf _ _ pte => bits pte 7 6 == 1
    | .bad _ _ => false)

/-- The Headbox as it sends packets: it leaves no watermark (04, R101). -/
def HbFor.sender (q : HbFor) (unc : Bool) : Sender :=
  { unit := headboxUnit q.die, spid := q.spid, part := q.part, cls := q.cls, tag := q.tag, unc }

/-- Bytes written by the Headbox at an address of a queue, in pieces within sectors. An error's detail stands with code 7. -/
def State.hbPut (s : State) (q : HbFor) (ga : Nat) (l : List Byte) : EngRes State :=
  match s.hbAddr q true ga with
  | .error d => .bad 7 d
  | .ok pa => s.agentAll (q.sender (s.hbUnc q ga)) (sectorPieces pa l)

/-- Bytes read by the Headbox. -/
def State.hbGet {α : Type} (s : State) (q : HbFor) (ga n : Nat) (k : State → Nat → EngRes α) : EngRes α :=
  match s.hbAddr q false ga with
  | .error d => .bad 7 d
  | .ok pa => s.agentReads (headboxUnit q.die) pa n fun s => k s pa

/-- A read-modify-write of a signal (08, R206): order .REL, scope .SYS. -/
def State.sigUpdate (s : State) (q : HbFor) (ga : Nat) (op : AOp) (v : Nat) : EngRes State :=
  match s.hbAddr q true ga with
  | .error d => .bad 7 d
  | .ok pa => match s.agentRmw (q.sender (s.hbUnc q ga)) pa 8 (.atom op) (v % 2 ^ 64) 0 with
    | .ok (_, s1) => .ok s1
    | .wait s1 => .wait s1
    | .bad _ _ => .bad 7 0

/-- A signal's value, read with order .ACQ and scope .SYS. -/
def State.sigRead (s : State) (q : HbFor) (ga : Nat) : EngRes Nat := s.hbGet q ga 8 fun s pa => .ok (s.rd pa 8)

/-- The subtract of a completion signal; address 0 names none. -/
def State.csig (s : State) (q : HbFor) (ga : Nat) : EngRes State :=
  if ga = 0 then .ok s else s.sigUpdate q ga .add (2 ^ 64 - 1)

end Sys2Proof.Machine
end

