-- ==== Sys2Proof/Machine/System.lean ====
section
/-! DEFINITION. Class 12: special registers, TRAP, BPT, MARK (14, R355 to R357). -/

namespace Sys2Proof.Machine

/-! ### Special registers (14, R355 Table 6) -/

/-- A special register's number. -/
def sregNum : SReg → Nat
  | .cycle => 0x000
  | .gtime => 0x001
  | .gtcmp => 0x002
  | .preq => 0x003
  | .lwid => 0x004
  | .ctx => 0x005
  | .steer k => 0x008 + k.val
  | .interval => 0x010
  | .rwc => 0x011
  | .hist k => 0x020 + k.val
  | .stall k => 0x030 + k.val
  | .beatc => 0x03D
  | .idle => 0x03E
  | .ftva => 0x040
  | .ftkind => 0x041
  | .walkpc => 0x042
  | .ftpc => 0x043
  | .ptroot => 0x044

/-- The space that a word's code serves: the miss's in the walker routine, else the group's; with its generation. -/
def State.servedSpace (s : State) (gs : Nat) (g : Group) : Nat × Byte :=
  match (if isWalker gs then (s.lb (lbOf gs)).walk else none) with
  | some r => (r.miss.spid, r.miss.gen)
  | none => (s.spidOf g, s.genOf g)

/-- The partition whose code runs: the walker's is that of the space it serves. -/
def State.servedPart (s : State) (gs : Nat) (g : Group) : Option Partition :=
  Tbl.find s.parts (if isWalker gs then (s.space (s.servedSpace gs g).1).part else s.partOf g)

/-- A special register's value in a lane. [DEDUCED, log entry 36] -/
def State.sreg (s : State) (w : Word) (r : SReg) (L : Nat) : Nat :=
  let b := s.lb (lbOf w.gs)
  let sp := s.servedSpace w.gs w.g
  let part := s.servedPart w.gs w.g
  match r with
  | .cycle => s.clock % 2 ^ 64
  | .gtime => w.g.gtime.toNat
  | .gtcmp => w.g.gtcmp.toNat
  | .preq => b2n w.g.preq
  | .lwid => fld 6 0 b.width + fld 6 8 b.beats
  | .ctx =>
    b2n (((s.gridOf w.g).map Grid.fenced).getD false) + fld 2 8 (s.space sp.1).mode.toNat + fld 8 16 sp.1 + fld 8 24 sp.2.toNat
  | .steer k => ((List.range 4).map fun i => fld 16 (16 * i) (b.steer (4 * k.val + i))).sum
  | .interval => (s.space sp.1).interval.toNat
  | .rwc => (s.rwcNow w.gs w.g).toNat
  | .hist k => (Tbl.get 0#64 b.hist k.val).toNat
  | .stall k => (Tbl.get 0#64 b.stall k.val).toNat
  | .beatc => b.beatc.toNat
  | .idle => b.idle.toNat
  | .ftva => ((w.g.ft.map fun f => Tbl.get 0#64 f.addrs L).getD 0#64).toNat
  | .ftkind => ((w.g.ft.map fun f => Tbl.get 0#2 f.kinds L).getD 0#2).toNat
  | .walkpc => ((part.map (·.walkpc)).getD 0#64).toNat
  | .ftpc => ((part.map (·.ftpc)).getD 0#64).toNat
  | .ptroot => (s.space sp.1).ptroot.toNat

/-- SRD (14, R355): a counter is a long result; a logged read takes its logged value in re-execution. [DEDUCED, log entry 20] -/
def execSrd (h : Hdr) (d : Reg) (r : SReg) (s : State) : Out :=
  s.issue (.srd h d r) fun w s => match Instr.info (.srd h d r) with
    | some f =>
      let a : At := ⟨w.slot.pc, s.rwcNow w.gs w.g, w.g.nissue, w.b⟩
      let put := fun (v : Nat → Nat) (s : State) => Eff.done (s.deliver w f (w.put ⟨d, r.role, .vs⟩ v))
      if r.perLane && isWalker w.gs then .trap { code := 0x02, lanes := w.slot.mask } s
      else if !sregLogged r || isWalker w.gs then put (s.sreg w r) s
      else
        let v := s.sreg w r 0
        (match s.gate (s.spidOf w.g) 5 0xFF (s.nameOf w.g) a.rwc (sregNum r) with
         | .free => put (fun _ => v) (s.logGroup w.g 5 0xFF a.rwc (sregNum r) (BitVec.ofNat 64 v))
         | .take ix x => put (fun _ => x.toNat) (s.useEvent (s.spidOf w.g) ix)
         | .hold => .wait .switchPark s
         | .part ix => .again (s.parting (s.spidOf w.g) w.gs a ix
             (eventWords 5 0xFF (s.nameOf w.g).1 (s.nameOf w.g).2.1 (s.nameOf w.g).2.2 0 a.rwc
               (BitVec.ofNat 64 (sregNum r)) (BitVec.ofNat 64 v))))
    | none => .done s

/-- SWR (14, R355): GTCMP is the one writable register. -/
def execSwr (h : Hdr) (a : Reg) (r : SReg) (s : State) : Out :=
  s.issue (.swr h a r) fun w s =>
    if w.act = 0#32 then .done s
    else .done (s.updGroup w.gs fun g => { g with gtcmp := BitVec.ofNat 64 (w.src 0 0) })

/-! ### Traps and marks (14, R357) -/

def execTrap (h : Hdr) (imm : W32) (s : State) : Out :=
  s.issue (.trap h imm) fun w s =>
    if w.act = 0#32 then .done s else .trap { code := 0x30, lanes := w.act, info := imm.setWidth 64 } s

/-- BPT: traced like MARK before it raises 0x31 (17, R402). -/
def execBpt (h : Hdr) (imm : W32) (s : State) : Out :=
  s.issue (.bpt h imm) fun w s =>
    if w.act = 0#32 then .done s
    else .trap { code := 0x31, lanes := w.act, info := imm.setWidth 64 } (s.traceMark w.gs w.g w.slot.pc imm w.act)

/-- MARK: a trace record while the context traces (17, R402). -/
def execMark (h : Hdr) (imm : W32) (s : State) : Out :=
  s.issue (.mark h imm) fun w s =>
    if w.act = 0#32 then .done s else .done (s.traceMark w.gs w.g w.slot.pc imm w.act)

end Sys2Proof.Machine
end

