-- ==== Sys2Proof/Machine/Supervisor.lean ====
section
/-! DEFINITION. Class 13, supervisor and translation instructions: TLBW, TLBI, HRET (14, R358 to R360; 01, R27, R30, R35). -/

namespace Sys2Proof.Machine

/-- An entry covers an address at a level. -/
def pageCovers (ga lvl va : Nat) : Bool := ga / pageSize lvl == va / pageSize lvl

/-- An invalidation that reached the lane block after the run began matches a later entry (14, R359). -/
def WalkRun.drops (r : WalkRun) (spid ga lvl : Nat) : Bool :=
  r.dropped.any (fun d => d.1 == spid && (match d.2 with
    | some va => pageCovers ga lvl va
    | none => true))

/-- TLBW in the walker routine: what counts for the miss being served (01, R27; 14, R358). An entry that an invalidation drops counts too:
its groups re-execute and miss again. [DESIGN CHOICE, log entry 130] -/
def WalkRun.take (r : WalkRun) (ga lvl : Nat) (pte : W64) : WalkRun :=
  if !pageCovers ga lvl r.miss.va then r
  else if pteMalformed pte lvl then { r with bad := true }
  else { r with entered := some pte }

/-- The entry of a page at a level. -/
def tlbEntry (spid : Nat) (gen : Byte) (ga lvl : Nat) (pte : W64) : TlbEnt :=
  { spid, gen, va := ga / pageSize lvl * pageSize lvl, size := pageSize lvl, pte }

/-- TLBW (14, R358). A well-formed pointer entry, which software must not present, is cached as a page. [DEDUCED, log entry 18; DESIGN
CHOICE, log entry 131] -/
def execTlbw (h : Hdr) (a b : Reg) (lvl : Fin 3) (s : State) : Out :=
  s.issue (.tlbw h a b lvl) fun w s =>
    let ga := w.src 0 0 % 2 ^ 56
    let pte := BitVec.ofNat 64 (w.src 1 0)
    let sp := s.servedSpace w.gs w.g
    let bad := pteMalformed pte lvl.val
    let stale := (s.space sp.1).gen != sp.2
    if w.act = 0#32 then .done s
    else
      match (if isWalker w.gs then (s.lb (lbOf w.gs)).walk else none) with
      | some r =>
        let s1 := s.updLb (lbOf w.gs) fun x => { x with walk := some (r.take ga lvl.val pte) }
        .done (if bit pte 0 && !bad && !stale && !r.drops sp.1 ga lvl.val then s1.fillTlb w.gs (tlbEntry sp.1 sp.2 ga lvl.val pte)
          else s1)
      | none =>
        if bad then .trap { code := 0x09, det := 0x04, lanes := w.act, addr := BitVec.ofNat 64 ga } s
        else .done (if bit pte 0 && !stale then s.fillTlb w.gs (tlbEntry sp.1 sp.2 ga lvl.val pte) else s)

/-- Every core of a partition invalidates translations of a space (14, R359; 01, R36). [DEDUCED, log entry 17] -/
def State.invalidate (s : State) (part spid : Nat) (va : Option Nat) : State :=
  (((Tbl.find s.parts part).map (·.clusters)).getD []).foldl (fun s k =>
    (List.range 4).foldl (fun s i => s.dropTlb (k * 4 + i) spid va) s) s

/-- TLBI (14, R359): its effect on every core of the partition is one step. [DEDUCED, log entry 17] -/
def execTlbi (h : Hdr) (a b : Reg) (space : Bool) (s : State) : Out :=
  s.issue (.tlbi h a b space) fun w s =>
    if w.act = 0#32 then .done s
    else
      let part := if isWalker w.gs then (s.space (s.servedSpace w.gs w.g).1).part else s.partOf w.g
      .done (s.invalidate part (w.src 1 0 % 256) (if space then none else some (w.src 0 0 % 2 ^ 56)))

/-- How a walker run ends (01, R27 Table 7): 0 resolved, 2 no entry, 3 malformed, 4 first touch, 5 failed. -/
def walkResult (r : WalkRun) (status : Byte) : Nat :=
  if status ≠ 0#8 then 5
  else if r.bad then 3
  else
    match r.entered with
    | some pte => if bit pte 0 then 0 else if bit pte 5 then 4 else 2
    | none => 2

/-- The end of a first-touch handler whose lanes have all finished (01, R30; 14, R360; 15, R362). -/
def State.endTouch (s : State) (gs : Nat) (g : Group) (r : FtRun) : State :=
  let g0 := g.endHandler r
  let with_ := fun (f : Byte → Bool) => (laneList r.mask).filter (fun L => f (Tbl.get 0#8 r.done L))
  let other := with_ (fun x => x != 0#8 && x != 0x0B#8)
  let empty := with_ (· == 0x0B#8)
  let again := g0.setSlot r.slot ((g0.slot r.slot).map fun p => { p with walked := [], missing := false, phase := p.phase })
  let s1 := { s with groups := Tbl.put s.groups gs again }
  let at_ : At := ⟨((g0.slot r.slot).map (·.pc)).getD 0#64, s.rwcNow gs g0, g0.nissue, r.slot⟩
  match other, empty with
  | L :: _, _ => s1.raise gs at_ { code := 0x09, det := 0x05, lanes := maskOf (other.contains ·), addr := Tbl.get 0#64 r.addrs L }
  | [], L :: _ => s1.raise gs at_ { code := 0x0B, lanes := maskOf (empty.contains ·), addr := Tbl.get 0#64 r.addrs L }
  | [], [] => s1

/-- HRET (14, R360). [DEDUCED, log entry 37] -/
def execHret (h : Hdr) (status : Byte) (s : State) : Out :=
  s.issue (.hret h status) fun w s =>
    if w.act = 0#32 then .done s
    else if isWalker w.gs then
      match (s.lb (lbOf w.gs)).walk with
      | some r => .moved (s.endWalk (lbOf w.gs) (walkResult r status)) 1
      | none => .done s
    else
      match w.g.ft with
      | none => .done s
      | some r =>
        let r1 := { r with done := w.lanes.foldl (fun t L => Tbl.put t L status) r.done }
        let m := w.slot.mask &&& ~~~w.act
        let g := w.g.setSlot w.b (if m = 0#32 then none else some { w.slot with pc := w.slot.pc + 8#64, mask := m })
        let g1 := { g with ft := some r1 }
        if (laneList r.mask).all (fun L => (Tbl.find r1.done L).isSome) then .moved (s.endTouch w.gs g1 r1) 1
        else .moved (s.updGroup w.gs fun _ => g1) 1

end Sys2Proof.Machine
end

