-- ==== Sys2Proof/Machine/Retire.lean ====
section
/-! DEFINITION. How groups, workgroups, gangs and grids end (10, R263; 06, R152, R170; 08, R215; 13, R309, R312; 05, R148;
17, R403, R404). -/

namespace Sys2Proof.Machine

/-! ### Groups (10, R263) -/

/-- The classes with an open batch are closed as by BATCH. -/
def Group.closeBatches (g : Group) : Group :=
  [Cls.cp, .mx, .gc, .cl].foldl (fun g k => if (g.cls k).opened.isEmpty then g else g.setCls k (g.cls k).close) g

/-- Nothing of the group is outstanding: requests, tentative words, asynchronous operations, the drain of its stores, matrix
operations of its workgroup that belong to no batch. -/
def State.allDone (s : State) (gs : Nat) (g : Group) : Bool :=
  ((Tbl.find s.tents gs).getD []).isEmpty && (s.reqsOf gs).isEmpty && !g.opsBusy && !s.draining gs &&
    !((s.core (coreOf gs)).eng.any (fun o => o.gs == gs)) && g.txe.isNone

/-- The point of a group that retires: the word that left it with no live lane. -/
def State.exitAt (s : State) (gs : Nat) (g : Group) : At := ⟨g.exitPc, s.rwcNow gs g, g.nissue, false⟩

/-- The group is the target of a precise stop that has not been reached (17, R403). -/
def State.isTarget (s : State) (g : Group) : Bool :=
  ((s.space (s.spidOf g)).replay.map fun r => !r.hit && !r.void && (r.grid, r.wgidx, r.gidx) == s.nameOf g).getD false

/-- The stop of re-execution at a group (17, R403). [DEDUCED, log entry 81] -/
def State.stopHit (s : State) (gs : Nat) (a : At) (spid info : Nat) : State :=
  (s.updSpace spid fun p => { p with replay := p.replay.map fun r => { r with hit := true } }).raise gs a
    { code := 0x32, lanes := 0#32, info := BitVec.ofNat 64 info }

/-- The parent of a child grid can still wait for it. -/
def State.parentLives (s : State) (g : Grid) : Bool :=
  (g.parent.map fun p => s.groups.any (fun x => x.2.gidx == p.2.2.1 &&
    (Tbl.find s.wgs x.2.wg).any (fun w => w.grid == p.1 && w.wgidx == p.2.1))).getD false

/-- A group's place is free: its children that have retired leave with it, its workgroup counts its exit.
[DEDUCED, log entry 66] -/
def State.leaveSlot (s : State) (gs : Nat) (g : Group) : State :=
  let kids := g.kids.filter (fun k => ((Tbl.find s.grids k.2).map (·.retired)).getD false)
  let s1 := kids.foldl (fun s k => s.dropGrid k.2) s
  let s2 := { s1 with groups := Tbl.del s1.groups gs, tents := Tbl.del s1.tents gs }
  (s2.updWg g.wg fun w => { w with exited := w.exited ||| maskOf (· == g.gidx) }).barCheck g.wg

/-- The workgroups of a gang, all of which have exited, leave with their allocations (06, R152, R170). -/
def State.endGang (s : State) (gang : Nat) : State :=
  let mine := s.wgs.filter (fun w => w.2.gang == gang)
  let s1 := mine.foldl (fun s w => s.releasePubs w.1 w.2.core) s
  { s1 with wgs := s1.wgs.filter (fun w => w.2.gang != gang), gangs := Tbl.del s1.gangs gang }

/-- A workgroup all of whose groups have exited: its barrier slot, queues, frame and array are free, its subscriptions end;
its allocation stays until its gang has exited. [DEDUCED, log entry 66] -/
def State.endWg (s : State) (wid : Nat) : State :=
  match Tbl.find s.wgs wid with
  | none => s
  | some w =>
    if !w.resident || firstLanes w.ngrp &&& ~~~w.exited != 0#32 then s
    else
      let free := fun (o : Option Nat) => if o = some wid then none else o
      let s1 := s.cores.foldl (fun s c =>
        if c.2.holder == some wid || c.2.lent == some wid then
          s.updCore c.1 fun c => { c with holder := free c.holder, lent := free c.lent }
        else s) s
      let s2 := (s1.freeSubs wid w.core).updWg wid fun w =>
        { w with resident := false, gone := true, qs := [], teams := [], regroup := [], answers := [] }
      let s3 := s2.updGrid w.grid fun g => { g with frames := g.frames.erase w.frame, done := g.done + 1 }
      let s4 := s3.barCheck wid
      match Tbl.find s4.gangs w.gang with
      | none => s4
      | some q =>
        if q.wgs.length = q.size ∧ q.wgs.all (fun x => ((Tbl.find s4.wgs x.2).map (·.gone)).getD true) then s4.endGang w.gang
        else s4

/-- A group with nothing outstanding reports what it holds, then faulted batches, then where re-execution ends; else it
leaves. -/
def State.retireGroup (s : State) (gs : Nat) (g : Group) : State :=
  let a := s.exitAt gs g
  let spid := s.spidOf g
  let w : Word :=
    { gs, b := false, g, slot := { pc := g.exitPc, mask := 0#32 }, act := 0#32, ngrp := 0, srcs := [] }
  match s.reportHeld gs g.exitPc with
  | some s1 => s1
  | none =>
    match s.batchFault w [.cp, .mx, .gc, .cl] (fun _ => true) with
    | some r => r.2.raise gs a r.1
    | none =>
      if s.isTarget g then
        s.stopHit gs a spid (if ((s.space spid).replay.map (·.target)) = some a.rwc then 0 else 1)
      else
        match (if (s.space spid).reruns then
            ((s.space spid).replay.bind fun r => (ownEvents r (s.nameOf g) (s.allEvents (s.space spid) r)).head?) else none) with
        | some e => s.parting spid gs a e.1 (List.replicate 4 0#64)
        | none => (s.leaveSlot gs g).endWg g.wg

/-- GROUP_RETIREMENT: a group with no live lane (10, R263); members of its team that wait take the mismatch fault (13,
R312). -/
def execGroupRetirement (gs : Nat) (s : State) : Out :=
  .next (match Tbl.find s.groups gs with
  | none => s
  | some g =>
    if !g.retiring || isWalker gs || g.stop.isSome || g.forced || ((Tbl.find s.parts (s.partOf g)).map fun p => p.halt.isSome).getD false then s
    else
      let k := teamIx (s.teamSize g) g.gidx
      if (((Tbl.find s.wgs g.wg).bind fun w => Tbl.find w.teams k).map fun t => t.arr != 0#32).getD false then s.teamFault g.wg k
      else if s.allDone gs g.closeBatches then s.retireGroup gs g.closeBatches
      else (s.updGroup gs Group.closeBatches).startDrain gs true)

/-! ### Grids (08, R215; 05, R148) -/

/-- Every group of a grid has retired and every child of it has. -/
def State.gridOver (s : State) (gid : Nat) (g : Grid) : Bool :=
  decide (g.total ≤ g.next) && decide (g.total ≤ g.done) &&
    !(s.grids.any (fun x => !x.2.retired && (x.2.parent.map fun p => p.1 == gid).getD false))

/-- Writes of the grid's that have not performed. -/
def State.gridWrites (s : State) (gid : Nat) : Bool :=
  s.reqs.any (fun e => ((Tbl.find s.wgs e.2.wg).map fun w => w.grid == gid).getD false)

/-- An entry of a reduction log (05, R147 Table 9): its target, value and tag. -/
structure RedEntry where
  pa  : Nat
  val : Nat
  tag : Nat
  deriving DecidableEq, Repr

/-- The entry slots taken, within the log. -/
def State.redSlots (s : State) (g : Grid) : Nat :=
  let w := fun (off : Nat) => ((runPa g.rlog ((g.word 0x48).toNat + off)).map s.rd8).getD 0#64
  min (w 0).toNat (w 8).toNat
/-- The entries that are written, up to the slots taken. -/
def State.redEntries (s : State) (g : Grid) : List RedEntry :=
  let base := (g.word 0x48).toNat
  let w := fun (off : Nat) => ((runPa g.rlog (base + off)).map s.rd8).getD 0#64
  let n := s.redSlots g
  (List.range n).filterMap fun i =>
    let o := 64 + 32 * i
    let e := w o
    let v := w (o + 8)
    if bit e 63 then
      some ⟨bits e 51 0, bits v 63 32,
        (w (o + 16)).toNat * 2 ^ 40 + bits (w (o + 24)) 63 59 * 2 ^ 32 + bits v 31 8 * 2 ^ 8 + bits v 7 3⟩
    else none

/-- The entries by target, the targets in an unpredictable order, each target's in the order of their tags.
[DEDUCED, log entry 60] -/
def redOrder (free : Nat) (l : List RedEntry) : List RedEntry :=
  let targets := sortBy (Config.freeKey free) ((l.map (·.pa)).eraseDups)
  let sorted := sortBy (·.tag) l
  targets.flatMap fun t => sorted.filter (fun e => e.pa == t)

/-- A part of the log that is read holds an uncorrectable error: its header, and the slots taken. -/
def State.logPoisoned (s : State) (g : Grid) : Bool :=
  let bad := fun (off n : Nat) => ((runPa g.rlog ((g.word 0x48).toNat + off)).map fun pa => s.poisoned pa n).getD false
  bad 0 16 || (List.range (s.redSlots g)).any (fun i => bad (64 + 32 * i) 32)

/-- The Headbox as it applies a grid's log: in the class of its launch, on the die of its partition's first cluster. [DEDUCED, log
entry 136] -/
def State.redSender (s : State) (gid : Nat) (g : Grid) : Sender :=
  let die := ((((Tbl.find s.parts g.part).map (·.clusters)).getD []).headD 0) / 48
  { unit := headboxUnit die, spid := g.spid, part := g.part, cls := g.cls, tag := 2 ^ 42 + gid, strong := true }

/-- Reservations of entry slots of a grid that no group has taken. -/
def State.resvLeft (s : State) (gid : Nat) : Tbl Req := s.reqs.filter (fun e => e.2.tag == some (chunkTag gid))

/-- The log is read, and its lines are recalled first. -/
def State.readLog (s : State) (gid : Nat) (g : Grid) : State :=
  let s := (s.resvLeft gid).foldl (fun s e => s.dropReq e.1) s
  if s.logPoisoned g then s.haltBy g.spid 7 0 0x28 0
  else
    let u := (s.redSender gid g).unit
    let parts := (g.rlog.filter (fun r => decide (r.va < (g.word 0x48).toNat + 64 + 32 * s.redSlots g))).map fun r => (r.pa, r.len)
    match parts.find? (fun x => s.owned u x.1 x.2) with
    | some x => (s.recallAll u x.1 x.2).getD s
    | none =>
      ({ s with free := s.free + 1 } : State).updGrid gid fun g => { g with reds := some ((redOrder s.free (s.redEntries g)).map fun e => (e.pa, BitVec.ofNat 32 e.val)) }

/-- One entry is applied at its target's home as one strong read-modify-write; once none is left, APPLIED is written, with the number
of entries (05, R148, R149). -/
def State.applyNext (s : State) (gid : Nat) (g : Grid) : List (Nat × W32) → State
  | e :: t =>
    if !s.paExists e.1 then s.haltBy g.spid 7 0 0x09 0x09
    else
      match s.agentRmw (s.redSender gid g) e.1 4 .sum e.2.toNat 0 with
      | .bad c d => s.haltBy g.spid 7 0 c d
      | .wait s1 => s1
      | .ok (_, s1) => s1.updGrid gid fun g => { g with reds := some t }
  | [] =>
    let at_ := (g.word 0x48).toNat + 0x10
    match runPa g.rlog at_ with
    | none => s.updGrid gid fun g => { g with applied := true }
    | some pa =>
      match s.agentAll { s.redSender gid g with unc := runUnc g.rlog at_, strong := false } [(pa, toBytes 8 (s.redEntries g).length)] with
      | .ok s1 => s1.updGrid gid fun g => { g with applied := true, reds := none }
      | .wait s1 => s1
      | .bad c d => s.haltBy g.spid 7 0 c d

/-- REDUCTION_APPLICATION (05, R148): the log is read, then an entry is applied at each step. [DEDUCED, log entry 60] -/
def execReductionApplication (grid : Nat) (s : State) : Out :=
  .next (match Tbl.find s.grids grid with
  | none => s
  | some g =>
    if g.applied || g.retired || !s.gridOver grid g || s.gridWrites grid || (s.space g.spid).st != .running ||
        ((Tbl.find s.parts g.part).map fun p => p.halt.isSome).getD true || (s.resvLeft grid).any (fun e => !e.2.isAnswered) then s
    else
      match g.reds with
      | none => s.readLog grid g
      | some l => s.applyNext grid g l)

/-- GRID_RETIREMENT: the grid of a packet ends it; a child grid performs its CSIG subtract, and stays for its parent's
LWAIT while that parent lives. [DEDUCED, log entry 58] -/
def execGridRetirement (grid : Nat) (s : State) : Out :=
  .next (match Tbl.find s.grids grid with
  | none => s
  | some g =>
    if g.retired || !g.applied || !s.gridOver grid g || s.gridWrites grid || (s.space g.spid).st != .running ||
        !(s.space g.spid).saved.isEmpty then s
    else
      match g.packet with
      | some pk =>
        { s with packets := Tbl.upd s.packets pk fun p => { p with st := .finished } }.dropGrid grid
      | none =>
        let ended := fun (s : State) => if s.parentLives g then s.updGrid grid fun g => { g with retired := true } else s.dropGrid grid
        let x := s.redSender grid g
        match s.csig { spid := g.spid, part := g.part, phys := false, die := x.unit - 768, cls := g.cls, tag := 2 ^ 42 + grid }
            (g.word 0x40).toNat with
        | .ok s1 => ended s1
        | .wait s1 => s1
        | .bad _ _ => ended s)

end Sys2Proof.Machine
end

