-- ==== Sys2Proof/Machine/Interval.lean ====
section
/-! DEFINITION. Intervals of a context and their boundaries (17, R396 to R398). -/

namespace Sys2Proof.Machine

/-- The groups of a context. -/
def State.groupsOf (s : State) (spid : Nat) : Tbl Group := s.groups.filter (fun g => g.1 % 16 != 15 && s.spidOf g.2 == spid)
/-- The grids of a context in the order of their hand-over. -/
def State.gridsOf (s : State) (spid : Nat) : List (Nat × Grid) := sortBy (fun x => x.2.hand) (s.grids.filter (fun x => x.2.spid == spid))

/-- An interval begins with a number and a START code: the settings of the last set-recording command take effect, both
logs are emptied, the header is rewritten, every RWC is 0; the grids in being count as the first handed over. `lpkt` holds
the units of a LAUNCH packet. [DEDUCED, log entry 62; DEDUCED, log entry 63] -/
def State.beginInterval (s : State) (spid start : Nat) (number : W32) (lpkt : List W64) : State :=
  let p := s.space spid
  let same := decide (p.rcd.base = p.rcdNext.base ∧ p.rcd.traceAt = p.rcdNext.traceAt ∧ p.rcd.tl = p.rcdNext.tl)
  let on := p.rcdNext.on
  let s1 := s.updSpace spid fun p => { p with
    rcd := p.rcdNext, interval := number, start, valid := on, nr := false, ovf := false, host := false
    ucnt := 0, pcnt := 0, tcnt := if same then p.tcnt else 0, tdrop := if same then p.tdrop else 0, logged := [], seqk := []
    gridNo := if on then (s.gridsOf spid).length else 0 }
  if !on then s1
  else
    let names := (s.gridsOf spid).map (·.1)
    let grid := fun (x : Nat × Grid) =>
      (x.1, if names.contains x.1 then { x.2 with number := (names.takeWhile (· != x.1)).length } else x.2)
    let group := fun (x : Nat × Group) =>
      (x.1, if s1.spidOf x.2 == spid then { x.2 with rwc := 0#32, rrwc := 0#32, subSeen := [] } else x.2)
    let s2 := { s1 with grids := s1.grids.map grid, groups := s1.groups.map group }
    (s2.wrWords (p.rcdNext.base + 0x200) ((lpkt ++ List.replicate 48 0#64).take 48)).putDbg spid

end Sys2Proof.Machine
end

