-- ==== Sys2Proof/Machine/Headbox.lean ====
section
/-! DEFINITION. Queues and the Headbox: control blocks, doorbells, parsing, lanes, the packets but for MANAGE and CKPT, and
their completion (08, R197 to R207, R218). -/

namespace Sys2Proof.Machine

/-! ### Control blocks (08, R202, R203) -/

/-- STATE codes (08, R202 Table 2). -/
def QSt.code : QSt → Nat
  | .free => 0
  | .active => 1
  | .halted => 2
  | .quiesced => 3
  | .torn => 4

/-- Word 0x18 but for ERR and DET. -/
def Qcb.head (c : Qcb) : Nat :=
  fld 8 56 c.spid + fld 8 48 c.sgen.toNat + fld 6 42 c.part + fld 2 40 c.cls + fld 4 36 c.st.code + fld 1 35 (b2n c.mgmt) +
    fld 1 34 (b2n c.hb) + fld 14 20 c.hwq

/-- The address of a queue's control block. -/
def State.qcbAt (s : State) (n : Nat) : Nat := ((s.sec.qtab.map (·.1)).getD 0) + 64 * n

/-- A control block changes: RD and STATE are written through; with `all`, the other fields are written back too. -/
def State.putQcb (s : State) (n : Nat) (c : Qcb) (all : Bool) : State :=
  let a := s.qcbAt n
  let low := if all then fld 8 8 c.err.toNat + c.det.toNat else bits (s.rd8 (a + 0x18)) 15 0
  let w := fun (s : State) (o x : Nat) => s.plainWrite 0 0 false (a + o) (toBytes 8 x)
  let s1 := w (w (w { s with queues := Tbl.put s.queues n c } 8 c.rd) 0x10 (c.base + c.lsz)) 0x18 (c.head + low)
  if all then w (w (w s1 0x20 c.erridx) 0x28 c.db) 0x30 c.done else s1

/-- A queue's cached entry changes. -/
def State.updQcb (s : State) (n : Nat) (f : Qcb → Qcb) : State := { s with queues := Tbl.upd s.queues n f }

/-- The die of a queue's Headbox. -/
def Qcb.die (c : Qcb) : Nat := c.hwq / 4096

/-- The entry is brought into its set of 8; the entry that leaves is written back (08, R203). [DESIGN CHOICE, log entry 65] -/
def State.cacheQ (s : State) (n : Nat) : State :=
  match Tbl.find s.queues n with
  | none => s
  | some c =>
    if c.cached then s
    else
      let set := s.queues.filter (fun x => x.2.cached && x.2.die == c.die && x.1 % 64 == n % 64)
      let s1 := (if set.length < 8 then s
        else
          match sortBy (fun x => Config.freeKey s.free x.1) set with
          | v :: _ => { s with free := s.free + 1 }.putQcb v.1 { v.2 with cached := false } true
          | [] => s)
      s1.updQcb n fun c => { c with cached := true }

/-- A queue halts with an error (08, R218), which its cached entry holds (08, R203). -/
def State.haltQueue (s : State) (n err det idx : Nat) : State :=
  let s1 := s.cacheQ n
  match Tbl.find s1.queues n with
  | none => s
  | some c =>
    if c.st ≠ .active then s
    else s1.putQcb n { c with st := .halted, err := BitVec.ofNat 8 err, det := BitVec.ofNat 8 det, erridx := idx } false

/-- For whom a queue's packets access memory; `tag` is the operation. -/
def Qcb.hbFor (c : Qcb) (tag : Nat := 0) : HbFor := { spid := c.spid, part := c.part, phys := c.mgmt, die := c.die, cls := c.cls, tag }
/-- The tag under which a queue's units are zeroed. -/
def zeroTag (queue : Nat) : Nat := 2 ^ 41 + queue

/-! ### Doorbells (08, R200, R203) -/

/-- A doorbell write: DB rises; the header is read again, parked conditions are due for a test. -/
def State.ringDoorbell (s : State) (hwq : Nat) (value : W64) : State :=
  match s.queues.find? (fun q => q.2.hb && q.2.hwq == hwq && q.2.st == .active) with
  | none => s
  | some (n, _) =>
    if 2 ^ 63 ≤ value.toNat then s
    else
      let s1 := (s.cacheQ n).updQcb n fun c => { c with db := max c.db value.toNat, reread := none }
      { s1 with packets := s1.packets.map fun p =>
          (p.1, if p.2.queue == n && !p.2.safe && p.2.st == .parked then { p.2 with since := 0 } else p.2) }

/-- DOORBELL_WRITE. -/
def execDoorbellWrite (hwq : Nat) (value : W64) (s : State) : Out := .next (s.ringDoorbell hwq value)

/-- A header that was not valid may be read again 1,024 cycles later (08, R201). -/
def State.rereadDue (s : State) (queue : Nat) : State :=
  s.updQcb queue fun c => match c.reread with
  | some t => if t + 1024 ≤ s.clock then { c with reread := none } else c
  | none => c

/-! ### The check of a packet (08, R201, R206, R208) -/

/-- Bits of a packet's word, by its offset. -/
def pkWord (l : List W64) (off : Nat) : W64 := l.getD (off / 8) 0#64

/-- The grid of a LAUNCH packet's descriptor. -/
def pkGrid (l : List W64) : Grid :=
  mkGrid 0 0 0#8 0 ((List.range l.length).map fun i => (i, l.getD i 0#64)) id none none

/-- Commands that a partition's management queue carries. -/
def mgmtCmd (c : Nat) : Bool := (inRange 0x01 0x0D c) || (inRange 0x0F 0x12 c)

/-- Words of a packet's body that are reserved, as masks by offset. [DEDUCED, log entry 55] -/
def pkReserved (typ : Nat) : List (Nat × Nat) :=
  let all := 2 ^ 64 - 1
  match typ with
  | 0x01 | 0x09 => [8, 0x10, 0x18, 0x20, 0x28, 0x30].map fun o => (o, all)
  | 0x02 | 0x03 => (0x18, all - 3) :: [0x20, 0x28, 0x30].map fun o => (o, all)
  | 0x07 => (0x18, all - (2 ^ 40 - 1)) :: [0x20, 0x28, 0x30].map fun o => (o, all)
  | 0x08 => (8, all - (2 ^ 32 - 1)) :: [0x10, 0x18, 0x20, 0x28, 0x30].map fun o => (o, all)
  | 0x0F => [(8, all - 255)]
  | _ => []

/-- The signal addresses of a packet, CSIG among them. -/
def pkAddrs (typ : Nat) : List Nat :=
  match typ with
  | 0x02 | 0x03 => [8, 0x38]
  | 0x04 | 0x05 => [8, 0x10, 0x18, 0x20, 0x28, 0x30, 0x38]
  | 0x06 | 0x0F => []
  | _ => [0x38]

/-- A header's fields (08, R198 Table 1). -/
def hdrTag (h : W64) : Nat := bits h 63 48
def hdrType (h : W64) : Nat := bits h 47 40
def hdrLen (h : W64) : Nat := bits h 39 32

/-- What LEN and TYPE alone fail with: the checks that come before the body is read. [DEDUCED, log entry 55] -/
def headerErr (c : Qcb) (h : W64) : Option Nat :=
  let t := hdrType h
  if hdrLen h = 0 ∨ 2 ^ (c.lsz - 6) < hdrLen h then some 1
  else if !(inRange 1 9 t || t == 0x0F) then some 2
  else if t = 0x0F ∧ !c.mgmt then some 4
  else none

/-- What a packet's body fails with, reserved fields before ranges. [DEDUCED, log entry 55] -/
def bodyErr (l : List W64) : Option Nat :=
  let h := pkWord l 0
  let t := hdrType h
  let g := pkGrid l
  let n := hdrLen h
  if bits h 30 0 ≠ 0 || (pkReserved t).any (fun x => Nat.land (pkWord l x.1).toNat x.2 != 0) || (t == 6 && descReserved g) then
    some 3
  else if t = 6 then (if descRange g || decide (n < 2 + (bits (pkWord l 0x58) 4 0 + 3) / 4) then some 5 else none)
  else if (if t = 0x0F then decide (3 < n) else decide (1 < n)) then some 5
  else if t = 2 && bits (pkWord l 0x18) 1 0 == 3 then some 5
  else if (pkAddrs t).any (fun o => bits (pkWord l o) 2 0 != 0) then some 5
  else if t = 0x0F && !mgmtCmd (bits (pkWord l 8) 7 0) then some 5
  else none

/-! ### Lanes (08, R204) -/

/-- A packet of a queue waits in a lane or is parked. -/
def State.pending (s : State) (n : Nat) : Bool :=
  s.packets.any (fun p => !p.2.safe && p.2.queue == n && (p.2.st == .taken || p.2.st == .parked))

/-- A queue is ready. A space that is being torn down is no longer parsed (01, R38). -/
def State.queueReady (s : State) (n : Nat) (c : Qcb) : Bool :=
  c.st == .active && c.hb && decide (c.rd < c.db) && c.reread.isNone && !s.pending n && !(s.space c.spid).torn &&
    ((Tbl.find s.parts c.part).map fun p => p.halt.isNone).getD false && !s.spent c.part 5 c.die

/-- Lane cycles of the Headboxes count against their partitions (08, R216 Table 7, meter 5). -/
def State.laneCycles (s : State) : State :=
  (s.packets.filter (fun p => p.2.st == .taken && !p.2.safe)).foldl (fun s p => match Tbl.find s.queues p.2.queue with
    | some c => s.spend c.part 5 c.die 1
    | none => s) s

/-- The order in which ready queues of a die are taken: the lowest class, round-robin within it. -/
def State.queueKey_ (s : State) (n : Nat) (c : Qcb) : Nat :=
  c.cls * 2 ^ 20 + (n + 2 ^ 20 - Tbl.get 0 s.rr (c.die * 4 + c.cls)) % 2 ^ 20

/-- The queue goes before every other ready queue of its die, and a lane of the 32 is free. -/
def State.queueFirst (s : State) (n : Nat) (c : Qcb) : Bool :=
  decide ((s.packets.filter (fun p => p.2.st == .taken && !p.2.safe &&
    ((Tbl.find s.queues p.2.queue).map Qcb.die) == some c.die)).length < 32) &&
  s.queues.all (fun x => x.1 == n || x.2.die != c.die || !s.queueReady x.1 x.2 ||
    decide (s.queueKey_ n c < s.queueKey_ x.1 x.2))

/-- The virtual address of a unit of the ring (08, R197). -/
def Qcb.unit (c : Qcb) (i : Nat) : Nat := c.base + 64 * (i % 2 ^ (c.lsz - 6))

/-- The places of a packet's units, which the Headbox reads and zeroes. -/
def State.unitsAt (s : State) (c : Qcb) (n : Nat) : Except Nat (List Nat) :=
  (List.range n).foldl (fun r i =>
    match r, s.hbAddr c.hbFor true (c.unit (c.rd + i)) with
    | .error d, _ => .error d
    | .ok _, .error d => .error d
    | .ok l, .ok pa => .ok (l ++ [pa])) (.ok [])

/-- The header at RD is read; a valid packet is checked, copied into a lane, its units are zeroed, RD advances (08, R199,
R201). -/
def State.takePacket (s : State) (n : Nat) (c : Qcb) : State :=
  match s.hbGet c.hbFor (c.unit c.rd) 8 fun s pa => .ok (s.rd8 pa) with
  | .bad e d => s.haltQueue n e d c.rd
  | .wait s1 => s1
  | .ok h =>
    if hdrTag h ≠ c.rd % 2 ^ 16 ∨ hdrType h = 0 then s.updQcb n fun c => { c with reread := some s.clock }
    else
      match headerErr c h, s.unitsAt c (hdrLen h) with
      | some e, _ => s.haltQueue n e 0 c.rd
      | none, .error d => s.haltQueue n 7 d c.rd
      | none, .ok us =>
        let l := us.flatMap fun pa => (List.range 8).map fun i => s.rd8 (pa + 8 * i)
        match bodyErr l with
        | some e => s.haltQueue n e 0 c.rd
        | none =>
          match s.agentAll ((c.hbFor (zeroTag n)).sender (s.hbUnc c.hbFor (c.unit c.rd))) (us.map fun pa => (pa, toBytes 8 0)) with
          | .bad e d => s.haltQueue n e d c.rd
          | .wait s1 => s1
          | .ok s1 =>
            let x := s1.newId
            let s2 := x.2.putQcb n { c with rd := c.rd + hdrLen h } false
            { s2 with
              packets := Tbl.put s2.packets x.1 { queue := n, idx := c.rd, typ := hdrType h, bar := bit h 31, words := l } }

/-- A lane takes the next packet of a queue. -/
def State.laneTake (s : State) (queue : Nat) : State :=
  match Tbl.find s.queues queue with
  | none => s
  | some c =>
    if !s.queueReady queue c || !s.queueFirst queue c then s
    else
      let s0 := s.cacheQ queue
      let s1 := { s0 with rr := Tbl.put s0.rr (c.die * 4 + c.cls) (queue + 1) }
      match Tbl.find s1.queues queue with
      | some c => s1.takePacket queue c
      | none => s1

/-! ### Service (08, R205, R207) -/

/-- The place of a type in a round. -/
def roundIx (typ : Nat) : Nat := ([2, 3, 4, 5, 6, 7, 8, 9, 1, 0xF].takeWhile (· != typ)).length

/-- What serving a packet comes to: it has completed; it has started; its condition fails; it halts its queue; it waits where it
is for an access of its own. -/
inductive Served where
  | done  (s : State)
  | go    (s : State)
  | parks (s : State)
  | halts (err det : Nat) (s : State)
  | stay  (s : State)
  deriving DecidableEq, Repr

/-- An earlier packet of a packet's queue that has not completed. -/
def State.earlier (s : State) (p : Packet) (f : Packet → Bool) : Bool :=
  s.packets.any (fun x => x.2.safe == p.safe && x.2.queue == p.queue && decide (x.2.idx < p.idx) && f x.2)

/-- A packet's queue, partition and context let it start (08, R207; 15, R373; 01, R38; 15, R368); none does while its context
re-executes an interval (17, R403). -/
def State.ctxRuns (s : State) (c : Qcb) : Bool :=
  c.st == .active && ((Tbl.find s.parts c.part).map fun p => p.halt.isNone).getD false &&
    (c.mgmt || ((s.space c.spid).st == .running && !(s.space c.spid).torn && !(s.space c.spid).reruns))

/-- The lane's order: no packet of an earlier type that could be served waits in a lane of the same die (08, R205). -/
def State.roundTurn (s : State) (p : Packet) (die : Nat) : Bool :=
  !(s.packets.any (fun x => x.2.st == .taken && !x.2.safe && decide (roundIx x.2.typ < roundIx p.typ) &&
    ((Tbl.find s.queues x.2.queue).map fun c => c.die == die && s.ctxRuns c).getD false))

/-- A packet may start as far as its queue and context go. -/
def State.mayStart (s : State) (p : Packet) (c : Qcb) : Bool :=
  (p.st == .taken || (p.st == .parked && p.since == 0)) && s.ctxRuns c && s.roundTurn p c.die

/-- A recording context takes a depth-0 launch only once all its grids have retired (17, R396). -/
def State.launchWaits (s : State) (spid : Nat) : Bool :=
  let p := s.space spid
  (p.rcd.on || p.rcdNext.on) && !(s.gridsOf spid).isEmpty

/-- A packet waits for earlier ones: BAR, QUIESCE, a MANAGE packet behind another (08, R206, R207), a LAUNCH of a recording
context. [DEDUCED, log entry 56] -/
def State.mustWait (s : State) (p : Packet) (c : Qcb) : Bool :=
  (p.typ == 6 && s.launchWaits c.spid) ||
  ((p.bar || p.typ == 9) && s.earlier p (fun _ => true)) || (p.typ == 0x0F && s.earlier p (fun x => x.typ == 0x0F))

/-- A packet's record changes. -/
def State.updPk (s : State) (pk : Nat) (f : Packet → Packet) : State := { s with packets := Tbl.upd s.packets pk f }
/-- A packet leaves the Headbox without completing. -/
def State.dropPk (s : State) (pk : Nat) : State := { s with packets := Tbl.del s.packets pk }

/-- What serving leaves. -/
def Packet.served (p : Packet) (pk : Nat) : Served → State
  | .done s => s.updPk pk fun p => { p with st := .finished }
  | .go s => s.updPk pk fun p => { p with st := .started }
  | .parks s => s.updPk pk fun p => { p with st := .parked, since := s.clock + 1 }
  | .halts e d s => (s.dropPk pk).haltQueue p.queue e d p.idx
  | .stay s => s

/-- A packet of a type is served, if it may start. -/
def State.servePk (s : State) (pk typ : Nat) (k : Packet → Qcb → State → Served) : State :=
  match (Tbl.find s.packets pk).bind fun p => if p.safe then none else (Tbl.find s.queues p.queue).map fun c => (p, c) with
  | none => s
  | some (p, c) =>
    if p.typ ≠ typ || !s.mayStart p c then s
    else if s.mustWait p c then s.updPk pk fun p => { p with st := .parked, since := 0 }
    else p.served pk (k p c s)

/-- NOP_PACKET. -/
def execNopPacket (pk : Nat) (s : State) : Out := .next (s.servePk pk 1 fun _ _ s => .done s)

/-- SIGNAL: store, add, subtract. -/
def execSignal (pk : Nat) (s : State) : Out :=
  .next (s.servePk pk 2 fun p c s =>
    let v := (pkWord p.words 0x10).toNat
    let op := (match bits (pkWord p.words 0x18) 1 0 with
      | 0 => (AOp.exch, v)
      | 1 => (.add, v)
      | _ => (.add, 2 ^ 64 - v))
    match s.sigUpdate (c.hbFor pk) (pkWord p.words 8).toNat op.1 op.2 with
    | .ok s1 => .done s1
    | .wait s1 => .stay s1
    | .bad e d => .halts e d s)

/-- The condition of WAIT. -/
def waitHolds (cond x v : Nat) : Bool :=
  match cond with
  | 0 => x == v
  | 1 => x != v
  | 2 => decide (x < v)
  | _ => decide (v ≤ x)

/-- WAIT is served. -/
def State.serveWait (s : State) (pk : Nat) : State :=
  s.servePk pk 3 fun p c s =>
    match s.sigRead c.hbFor (pkWord p.words 8).toNat with
    | .bad e d => .halts e d s
    | .wait s1 => .stay s1
    | .ok x => if waitHolds (bits (pkWord p.words 0x18) 1 0) x (pkWord p.words 0x10).toNat then .done s else .parks s
def execWait (pk : Nat) (s : State) : Out := .next (s.serveWait pk)

/-- The signals that a BARRIER names, read one after another. -/
def State.signalsOf (s : State) (q : HbFor) : List Nat → EngRes (List Nat)
  | [] => .ok []
  | a :: t =>
    match s.sigRead q a with
    | .bad e d => .bad e d
    | .wait s1 => .wait s1
    | .ok x => (match s.signalsOf q t with
      | .ok l => .ok (x :: l)
      | r => r)

/-- A BARRIER is served. -/
def State.serveBarrier (s : State) (pk typ : Nat) (holds : List Nat → Bool) : State :=
  s.servePk pk typ fun p c s =>
    match s.signalsOf c.hbFor (([8, 0x10, 0x18, 0x20, 0x28, 0x30].map fun o => (pkWord p.words o).toNat).filter (· != 0)) with
    | .bad e d => .halts e d s
    | .wait s1 => .stay s1
    | .ok l => if holds l then .done s else .parks s
/-- Every named signal reads 0; some does, or none is named. -/
def allZero (l : List Nat) : Bool := l.all (· == 0)
def someZero (l : List Nat) : Bool := l.isEmpty || l.any (· == 0)
def execBarrierAnd (pk : Nat) (s : State) : Out := .next (s.serveBarrier pk 4 allZero)
def execBarrierOr (pk : Nat) (s : State) : Out := .next (s.serveBarrier pk 5 someZero)

/-- WAIT_RETEST: a parked condition is tested again after 2,048 cycles. -/
def execWaitRetest (pk : Nat) (s : State) : Out :=
  .next (match Tbl.find s.packets pk with
  | none => s
  | some p =>
    if p.st == .parked && p.since != 0 && decide (p.since + 2048 ≤ s.clock + 1) then
      let s1 := s.updPk pk fun p => { p with since := 0 }
      match p.typ with
      | 3 => s1.serveWait pk
      | 4 => s1.serveBarrier pk 4 allZero
      | 5 => s1.serveBarrier pk 5 someZero
      | _ => s1
    else s)

/-- LAUNCH_PACKET (08, R210): an interval of the context begins (17, R396). [DESIGN CHOICE, log entry 5; DEDUCED, log entry 57] -/
def execLaunchPacket (pk : Nat) (s : State) : Out :=
  .next (s.servePk pk 6 fun p c s =>
    let g := { pkGrid p.words with part := c.part, spid := c.spid, sgen := c.sgen, packet := some pk }
    match s.refusal g with
    | some d => .halts 6 d s
    | none =>
      let s1 := s.beginInterval c.spid 0 ((s.space c.spid).interval + 1#32) p.words
      match s1.carryLaunch g with
      | .refused d => .halts 6 d s
      | .failed _ _ s2 => .go s2
      | .ok _ s2 => .go s2)

/-! ### COPY (08, R206; 03, R96) -/

/-- The next bytes of a COPY packet: none of them crosses a line of either side. -/
def copyPiece (src dst left : Nat) : Nat := min left (min (128 - src % 128) (128 - dst % 128))

/-- An earlier COPY of the queue still writes bytes that this one writes: the later packet's value is final (03, R96). -/
def State.copyBehind (s : State) (p : Packet) : Bool :=
  let dst := fun (x : Packet) => (pkWord x.words 0x10).toNat
  let len := fun (x : Packet) => bits (pkWord x.words 0x18) 39 0
  s.earlier p fun x => x.typ == 7 && x.st == .started && decide (dst x < dst p + len p) && decide (dst p < dst x + len x)

/-- A piece of a COPY packet, in the queue's class, within the budget of copy-engine bytes (08, R206, R216 Table 7); an uncorrectable
error of its source halts the queue too. [DEDUCED, log entry 59] -/
def State.copyOnce (s : State) (pk : Nat) (p : Packet) (c : Qcb) : Served :=
  let src := (pkWord p.words 8).toNat + p.pos
  let dst := (pkWord p.words 0x10).toNat + p.pos
  let n := copyPiece src dst (bits (pkWord p.words 0x18) 39 0 - p.pos)
  let u := headboxUnit c.die
  if n = 0 then .done s
  else if s.spent c.part 6 u || s.copyBehind p then .stay s
  else
    match s.hbAddr c.hbFor true dst with
    | .error d => .halts 7 d s
    | .ok _ =>
      match s.hbGet c.hbFor src n fun s a => if s.poisoned a n then .bad 7 0 else .ok (s.readsAt c.spid (.mem a), s.rdBytes a n) with
      | .bad e d => .halts e d s
      | .wait s1 => .stay s1
      | .ok (s1, l) =>
        match s1.hbPut (c.hbFor pk) dst l with
        | .bad e d => .halts e d s
        | .wait s2 => .stay s2
        | .ok s2 => .go ((s2.spend c.part 6 u n).updPk pk fun p => { p with pos := p.pos + n })

/-- COPY: the packet starts, then moves a piece at each step until all are written. -/
def execCopy (pk : Nat) (s : State) : Out :=
  .next (match (Tbl.find s.packets pk).bind fun p => if p.safe then none else (Tbl.find s.queues p.queue).map fun c => (p, c) with
  | none => s
  | some (p, c) =>
    if p.typ ≠ 7 then s
    else if p.st ≠ .started then s.servePk pk 7 fun _ _ s => .go s
    else if ((Tbl.find s.parts c.part).map fun p => p.halt.isSome).getD true then s
    else p.served pk (s.copyOnce pk p c))

/-! ### QUIESCE, completion -/

/-- QUIESCE: every earlier packet of the queue has completed. [DEDUCED, log entry 56] -/
def execQuiesce (pk : Nat) (s : State) : Out := .next (s.servePk pk 9 fun _ _ s => .done s)

/-- The completion signal's address of a packet (08, R206): management packets have none. -/
def pkCsig (p : Packet) : Nat :=
  match p.typ with
  | 0x06 => (pkWord p.words 0x40).toNat
  | 0x0F => 0
  | _ => (pkWord p.words 0x38).toNat

/-- A packet of a queue in device memory completes: DONE rises, CSIG falls, QUIESCE quiesces. -/
def State.packetDone (s : State) (pk : Nat) : State :=
  match (Tbl.find s.packets pk).bind fun p => if p.safe then none else (Tbl.find s.queues p.queue).map fun c => (p, c) with
  | none => s
  | some (p, c) =>
    if p.st ≠ .finished then s
    else
      let ended := fun (s : State) => ((s.dropPk pk).cacheQ p.queue).updQcb p.queue fun c => { c with done := c.done + 1 }
      match s.csig (c.hbFor pk) (pkCsig p) with
      | .bad e d => (ended s).haltQueue p.queue e d p.idx
      | .wait s1 => s1
      | .ok s1 =>
        let s2 := ended s1
        if p.typ = 9 then
          (match Tbl.find s2.queues p.queue with
           | some c => if c.st = .active then s2.putQcb p.queue { c with st := .quiesced } false else s2
           | none => s2)
        else s2

end Sys2Proof.Machine
end

