-- ==== Sys2Proof/Machine/Manage.lean ====
section
/-! DEFINITION. The management commands that act at once: queues, spaces, race modes, way masks, budgets, translations (08,
R216 Table 6, R217, R218; 01, R36 to R40; 04, R117, R119; 15, R372). -/

namespace Sys2Proof.Machine

/-! ### The frame of a command -/

/-- The command of a MANAGE packet, and its operand at an offset. -/
def Packet.cmd (p : Packet) : Nat := bits (pkWord p.words 8) 7 0
def Packet.op (p : Packet) (off : Nat) : W64 := pkWord p.words off
/-- An operand that is a small number: its value, with every bit above the field zero. -/
def Packet.num (p : Packet) (off n : Nat) : Option Nat := if (p.op off).toNat < 2 ^ n then some (p.op off).toNat else none

/-- The packet of a command, with its queue, where it is one of a partition's management queue. -/
def State.manage (s : State) (pk cmd : Nat) (k : Packet → Qcb → State → Served) : State :=
  match Tbl.find s.packets pk with
  | none => s
  | some p => if p.typ = 0x0F ∧ p.cmd = cmd ∧ p.safe = false then s.servePk pk 0x0F k else s

/-- A command that has started goes on: what it comes to. -/
def State.goOn (s : State) (pk cmd : Nat) (k : Packet → Qcb → State → Served) : State :=
  match (Tbl.find s.packets pk).bind fun p => if p.safe then none else (Tbl.find s.queues p.queue).map fun c => (p, c) with
  | none => s
  | some (p, c) =>
    if p.typ ≠ 0x0F ∨ p.cmd ≠ cmd ∨ p.st ≠ .started then s else p.served pk (k p c s)

/-- A command of one step: it completes, or its operands are invalid (ERR 0x05). -/
def State.command (s : State) (pk cmd : Nat) (k : Packet → Qcb → State → Option State) : Out :=
  .next (s.manage pk cmd fun p c s => match k p c s with
  | some s1 => .done s1
  | none => .halts 5 0 s)

/-- Physical memory that a management operand may name: the partition's, or the host's (18, R415). [DEDUCED, log entry 69] -/
def State.mgmtMem (s : State) (c : Qcb) (pa n : Nat) : Bool :=
  match s.hbAddr c.hbFor true pa, s.hbAddr c.hbFor true (pa + n - 1) with
  | .ok _, .ok _ => true
  | _, _ => false

/-- The partition holds a space that is in use. -/
def State.holdsSpace (s : State) (part spid : Nat) : Bool :=
  decide (0 < spid) && decide (spid < 256) && (s.space spid).inUse && (s.space spid).part == part

/-- The partition owns a queue. -/
def State.ownQueue (s : State) (part n : Nat) : Option Qcb :=
  (Tbl.find s.queues n).bind fun c => if c.part = part ∧ c.st ≠ .free then some c else none

/-! ### Queues (08, R202, R203, R216, R218) -/

/-- A ring's BASE and LSZ are legal (08, R202). [DEDUCED, log entry 68] -/
def ringOk (x : W64) : Bool := inRange 12 26 (bits x 4 0) && bits x 11 5 == 0 && x.toNat / 2 ^ 12 * 2 ^ 12 % 2 ^ bits x 4 0 == 0

/-- CREATE_QUEUE. [DEDUCED, log entry 68] -/
def execCreateQueue (pk : Nat) (s : State) : Out :=
  s.command pk 0x01 fun p c s =>
    let x := p.op 0x20
    let q := (p.op 0x10).toNat
    let spid := bits x 63 56
    let free := ((Tbl.find s.queues q).map fun q => q.st == .free).getD true
    if (s.sec.qtab.map fun t => decide (q < 2 ^ t.2)).getD false && free && ringOk (p.op 0x18) && bits x 47 42 == 0 &&
        bits x 39 0 == 0 && s.holdsSpace c.part spid && !(s.space spid).torn && bits x 55 48 == (s.space spid).gen.toNat then
      let e : Qcb := { base := (p.op 0x18).toNat / 2 ^ 12 * 2 ^ 12, lsz := bits (p.op 0x18) 4 0, spid, sgen := (s.space spid).gen
                       part := c.part, cls := bits x 41 40, st := .active }
      some ((s.plainWrite 0 c.part false (s.qcbAt q) (toBytes 64 0)).putQcb q e true)
    else none

/-- The die of a hardware queue holds a cluster of a partition. -/
def State.hwqOk (s : State) (part hwq : Nat) : Bool :=
  decide (hwq < 16384) && ((Tbl.find s.parts part).map fun p => p.clusters.any (fun k => k / 48 == hwq / 4096)).getD false
/-- A hardware queue is bound. -/
def State.hwqBound (s : State) (hwq : Nat) : Bool := s.queues.any (fun q => q.2.hb && q.2.hwq == hwq)

/-- BIND_QUEUE. -/
def execBindQueue (pk : Nat) (s : State) : Out :=
  s.command pk 0x02 fun p c s =>
    let h := (p.op 0x18).toNat
    match s.ownQueue c.part (p.op 0x10).toNat with
    | some q =>
      if q.hb || s.hwqBound h || !s.hwqOk c.part h then none
      else some (s.putQcb (p.op 0x10).toNat { q with hb := true, hwq := h } true)
    | none => none

/-- UNBIND_QUEUE: the entry leaves the Headbox's cache. -/
def execUnbindQueue (pk : Nat) (s : State) : Out :=
  s.command pk 0x03 fun p c s =>
    match s.ownQueue c.part (p.op 0x10).toNat with
    | some q => some (s.putQcb (p.op 0x10).toNat { q with hb := false, hwq := 0, cached := false } true)
    | none => none

/-- Packets of a queue that have not started leave the Headbox. [DEDUCED, log entry 67] -/
def State.dropQueued (s : State) (n : Nat) : State :=
  { s with packets := s.packets.filter (fun p => p.2.safe || p.2.queue != n || p.2.st == .started || p.2.st == .finished) }

/-- RESET_QUEUE: in states other than HALTED and QUIESCED it is ignored (08, R218). [DEDUCED, log entry 67] -/
def execResetQueue (pk : Nat) (s : State) : Out :=
  s.command pk 0x04 fun p c s =>
    let n := (p.op 0x10).toNat
    let x := (p.op 0x18).toNat
    match s.ownQueue c.part n with
    | none => none
    | some q =>
      if x < (s.rd8 (s.qcbAt n)).toNat then none
      else if q.st ≠ .halted ∧ q.st ≠ .quiesced then some s
      else
        let e := { q with rd := x, db := x, err := 0#8, det := 0#8, erridx := 0, st := .active, reread := none }
        some (((s.dropQueued n).plainWrite 0 c.part false (s.qcbAt n) (toBytes 8 x)).putQcb n e true)

/-- FLUSH_CONTROL_BLOCKS. -/
def execFlushControlBlocks (pk : Nat) (s : State) : Out :=
  s.command pk 0x05 fun _ c s =>
    some ((s.queues.filter (fun q => q.2.part == c.part && q.2.cached)).foldl (fun s q => s.putQcb q.1 q.2 true) s)

/-! ### Spaces (01, R36 to R40; 15, R372) -/

/-- CREATE_SPACE. [DEDUCED, log entry 68; DEDUCED, log entry 69] -/
def execCreateSpace (pk : Nat) (s : State) : Out :=
  .next (s.manage pk 0x06 fun p c s =>
    let spid := (p.op 0x10).toNat
    let root := (p.op 0x18).toNat
    let area := (p.op 0x20).toNat
    let size := (p.op 0x28).toNat
    let spn := (p.op 0x30).toNat
    if !inRange 1 255 spid || (s.space spid).inUse || area == 0 || area % 65536 != 0 || size % 65536 != 0 || size == 0 ||
        decide (4096 < spn) || root % 8192 != 0 then .halts 5 0 s
    else if !s.mgmtMem c root 8192 || !s.mgmtMem c area size then .halts 7 9 s
    else
      let new : Space := { part := c.part, gen := (s.space spid).gen, inUse := true, ptroot := p.op 0x18, area, size, spn }
      .done { s with spaces := Tbl.put s.spaces spid new })

/-- A workgroup of a space is resident. -/
def State.residentIn (s : State) (spid : Nat) : Bool :=
  s.wgs.any (fun w => w.2.resident && ((Tbl.find s.grids w.2.grid).map fun g => g.spid == spid).getD false)

/-- A packet of a space that has begun still runs: a COPY, or a LAUNCH with workgroups to place while its context runs (01, R38). -/
def State.begunIn (s : State) (spid : Nat) : Bool :=
  s.packets.any (fun p => !p.2.safe && p.2.typ == 7 && p.2.st == .started &&
    ((Tbl.find s.queues p.2.queue).map fun c => c.spid == spid && !c.mgmt).getD false) ||
  (s.space spid).st == .running && s.grids.any (fun g => g.2.spid == spid && g.2.sgen == (s.space spid).gen && decide (g.2.next < g.2.total))

/-- Steps 2 to 4 of a teardown: the generation advances, with the module-wide invalidation when it wraps; the space's
queues close; the identifier of a context that has been released is no longer in use (01, R40). [DEDUCED, log entry 71] -/
def State.closeSpace (s : State) (spid : Nat) : State :=
  let wraps := (s.space spid).gen == 255#8
  let keep := fun (t : List TlbEnt) => t.filter (fun e => e.spid != spid)
  let core := fun (c : Nat × Core) => (c.1, if wraps then { c.2 with tlb := keep c.2.tlb } else c.2)
  let lb := fun (b : Nat × LaneBlock) =>
    (b.1, if wraps then { b.2 with utlb := keep b.2.utlb, misses := b.2.misses.filter (fun m => m.spid != spid) } else b.2)
  let close := fun (p : Space) => { p with gen := p.gen + 1#8, inUse := p.st != .released }
  let s1 := { s with cores := s.cores.map core, lbs := s.lbs.map lb }.updSpace spid close
  (s1.queues.filter (fun q => q.2.spid == spid && !q.2.mgmt && q.2.st != .free)).foldl (fun s q =>
    (s.dropQueued q.1).putQcb q.1 { q.2 with st := .torn } false) s1

/-- TEAR_DOWN_SPACE: the queues stop parsing; the rest waits until what has begun is over and no workgroup of the
space is resident. -/
def execTearDownSpace (pk : Nat) (s : State) : Out :=
  let rest := fun (p : Packet) (s : State) =>
    let spid := (p.op 0x10).toNat
    if s.residentIn spid || s.begunIn spid then Served.go s else .done (s.closeSpace spid)
  .next ((s.manage pk 0x07 fun p c s =>
    let spid := (p.op 0x10).toNat
    if !s.holdsSpace c.part spid || (s.space spid).torn then .halts 5 0 s
    else rest p (s.updSpace spid fun x => { x with torn := true })).goOn pk 0x07 fun p _ s => rest p s)

/-- SET_RACE_MODE: an address of 0 gives no log. [DEDUCED, log entry 69; DEDUCED, log entry 70] -/
def execSetRaceMode (pk : Nat) (s : State) : Out :=
  .next (s.manage pk 0x08 fun p c s =>
    let spid := (p.op 0x28).toNat
    let mode := (p.op 0x10).toNat
    let log := (p.op 0x18).toNat
    let size := (p.op 0x20).toNat
    let sized := (List.range 13).any (fun i => size == 2 ^ (12 + i))
    if !s.holdsSpace c.part spid || decide (2 < mode) || (log == 0 && mode == 2) ||
        (log != 0 && (log % 128 != 0 || !sized)) then .halts 5 0 s
    else if log != 0 && !s.mgmtMem c log size then .halts 7 9 s
    else .done (s.updSpace spid fun x => { x with mode := BitVec.ofNat 2 mode, log, logSize := if log = 0 then 0 else size }))

/-- SET_WAY_MASKS (02, R54): masks hold from now on; lines present stay. -/
def execSetWayMasks (pk : Nat) (s : State) : Out :=
  s.command pk 0x09 fun p c s =>
    let x := p.op 0x10
    if bits x 63 28 ≠ 0 ∨ bits x 15 12 ≠ 0 ∨ bits x 11 0 = 0 ∨ bits x 27 16 = 0 then none
    else some (s.updPart c.part fun p =>
      { p with l2mask := BitVec.ofNat 12 (bits x 11 0), rdcmask := BitVec.ofNat 12 (bits x 27 16) })

/-- SET_BUDGET: the meter's instances begin a period. [DEDUCED, log entry 61] -/
def execSetBudget (pk : Nat) (s : State) : Out :=
  s.command pk 0x0A fun p c s =>
    let m := (p.op 0x10).toNat
    let k := (p.op 0x18).toNat
    if 7 < m ∨ !inRange 10 24 k then none
    else some (s.updPart c.part fun x =>
      { x with meters := Tbl.put x.meters m { period := k, budget := p.op 0x20 }
               counts := x.counts.filter (fun e => e.1 / 2 ^ 12 != m) })

/-- INVALIDATE_TRANSLATIONS (01, R36). -/
def execInvalidateTranslations (pk : Nat) (s : State) : Out :=
  s.command pk 0x12 fun p c s =>
    let spid := (p.op 0x10).toNat
    if !s.holdsSpace c.part spid || decide (1 < (p.op 0x20).toNat) then none
    else some (s.invalidate c.part spid (if p.op 0x20 = 1#64 then none else some ((p.op 0x18).toNat % 2 ^ 56)))

end Sys2Proof.Machine
end

