-- ==== Sys2Proof/Machine/Image.lean ====
section
/-! DEFINITION. Context images: the sections of a workgroup, stop records, the header, their layout in an area, and what a
restore reads back (04, R109; 06, R157; 07, R191; 12, R306; 15, R371, R372, R378, R379; 21, R438). -/

namespace Sys2Proof.Machine

/-! ### Sections (15, R379) -/

/-- A value in bytes of a number of words. -/
def w64s (l : List Nat) : List Byte := l.flatMap (toBytes 8)
/-- A list of the first `n` of its entries, the rest filled. -/
def padTo {α : Type} (n : Nat) (x : α) (l : List α) : List α := (l ++ List.replicate n x).take n

/-- A join-stack entry (07, R189 Table 4). -/
def JoinEntry.words (e : JoinEntry) : List Nat := [e.rejoin.toNat % 2 ^ 56, fld 32 32 e.mask.toNat + e.arr.toNat]

/-- A slot's PC and mask, zero where it is empty. -/
def slotPc (p : Option PcSlot) : Nat := (p.map fun p => p.pc.toNat).getD 0
def slotMask (p : Option PcSlot) : Nat := (p.map fun p => p.mask.toNat).getD 0

/-- A group's register section (15, R379 Table 8). -/
def State.groupSection (s : State) (gs : Nat) (g : Group) : List Byte :=
  let frame := ((Tbl.find s.wgs g.wg).map (·.frame)).getD 0
  let kids := (g.kids.map fun k => 2 ^ k.1).sum
  let c := g.chk
  let head := w64s [(s.idWord gs g).toNat, slotPc g.slotA, slotPc g.slotB, fld 32 32 (slotMask g.slotB) + slotMask g.slotA,
    g.regpc.toNat, fld 1 48 (b2n g.rv) + fld 8 40 g.sd + fld 8 32 g.jd + g.regmask.toNat,
    fld 1 35 (b2n g.arrival.isSome) + fld 1 34 (b2n g.preq) + fld 1 33 (b2n g.slotB.isSome) + fld 1 32 (b2n g.slotA.isSome) +
      g.live.toNat,
    g.gtime.toNat, g.gtcmp.toNat, fld 32 32 g.rwc.toNat + g.rrwc.toNat, fld 32 32 g.mx.last.toNat + g.cp.last.toNat,
    fld 32 32 g.cl.last.toNat + g.gc.last.toNat, fld 16 48 kids + g.matSeq.toNat, g.matQ.toNat,
    fld 8 40 (g.spill.length + g.refill.length) + fld 8 32 g.join.length + fld 32 0 frame, 0]
  let origins := lanes32.flatMap fun L => toBytes 2 ((Tbl.get 0#10 g.origin L).toNat)
  let counters := [c.rc, c.pwg, c.pgg, c.pdg, c.kwg, c.kgg, c.kdg, BitVec.ofNat 32 (b2n c.ic)].flatMap fun x => toBytes 4 x.toNat
  let table := wordBytes (padTo 8 0#64 c.table)
  let pending := wordBytes (padTo 16 0#64 ((c.pendRec.map RelRec.words).getD []))
  let tx := lanes32.flatMap fun L => toBytes 4 (g.txLane L).status.toNat
  let depth := lanes32.flatMap fun L => toBytes 1 ((g.txLane L).depth + fld 1 7 (b2n (g.txLane L).doomed))
  let seq := lanes32.flatMap fun L => toBytes 4 (Tbl.get 0#32 g.seq L).toNat
  let joins := w64s (padTo 8 0 ((g.join.take 4).flatMap JoinEntry.words))
  let sregs := (List.range 64).flatMap fun n => toBytes 8 (g.sget n).toNat
  let preds := (List.range 7).flatMap fun n => toBytes 4 (Tbl.get 0#32 g.p n).toNat
  let vregs := (List.range g.n).flatMap fun n => lanes32.flatMap fun L => toBytes 4 (g.vget n L).toNat
  head ++ origins ++ List.replicate 64 0#8 ++ counters ++ table ++ List.replicate 32 0#8 ++ pending ++ tx ++ depth ++ seq ++
    joins ++ sregs ++ preds ++ List.replicate (0x800 - 0x57C) 0#8 ++ vregs

/-- The control block of a queue (07, R191). -/
def QState.control (q : QState) : List Byte := w64s [q.head, q.entries.length, 0, 0, 0, 0, 0, 0]
/-- The storage of a queue of depth `d` as it stands (07, R191): a slot that no entry has been written to reads as zero. -/
def QState.storage (q : QState) (d : Nat) : List Byte :=
  let at_ := fun (i : Nat) => (q.entries[(i + d - q.head % d) % d]?).orElse fun _ => Tbl.find q.left i
  ((List.range d).flatMap fun i =>
    lanes32.flatMap fun L => toBytes 4 (((at_ i).map fun e => (e.vals.getD L 0#32).toNat).getD 0)) ++
  padTo (64 * ((d + 7) / 8)) 0#8 ((List.range d).flatMap fun i => toBytes 8 (((at_ i).map fun e => e.tag.toNat).getD 0)) ++ q.control

/-- A subscription-table entry (06, R157 Table 1), and a publication-table entry (Table 2). -/
def SubEnt.bytes (e : SubEnt) : List Byte :=
  toBytes 16 (fld 16 112 e.last.toNat + fld 13 99 e.logn + fld 13 86 e.poff + fld 6 80 e.plead + fld 2 78 e.pcore +
    fld 1 77 (b2n e.pair) + fld 4 73 e.pidx + fld 10 63 (e.len - 1) + fld 13 50 e.soff + fld 6 44 e.slead + fld 4 40 (subCode e.st))
def pubCode : PubSt → Nat
  | .free => 0
  | .live => 1
  | .log => 2
  | .held => 3
  | .broken => 4
def PubEnt.bytes (e : PubEnt) : List Byte :=
  toBytes 16 (fld 36 92 (e.lbase / 2 ^ 16) + fld 13 79 e.logn + fld 13 66 e.poff + fld 10 56 (e.len - 1) + fld 6 50 e.plead +
    fld 2 48 e.score + fld 4 44 e.shdl + fld 4 40 (pubCode e.st))

/-- The barrier, queue and subscription section (15, R379; 21, R438 Table 4). -/
def State.barSection (s : State) (v : SavedWg) : List Byte :=
  match Tbl.find s.wgs v.wg with
  | none => []
  | some w =>
    let nq := ((Tbl.find s.grids w.grid).map Grid.nq).getD 0
    let mine := fun (gen : W32) (arr : Mask) => fld 32 32 gen.toNat + b2n (arr != 0#32 && w.allIn arr)
    w64s [fld 32 32 w.wgen.toNat + w.warr.toNat, mine w.ggen w.garr, mine w.dgen w.darr, 0, 0, 0, 0, 0] ++
      ((List.range nq).flatMap fun q => (w.queue q).control) ++
      ((List.range 16).flatMap fun i => ((Tbl.find v.subs i).map SubEnt.bytes).getD (List.replicate 16 0#8)) ++
      ((List.range 16).flatMap fun i => ((v.pubs[i]?).map fun p => p.2.bytes).getD (List.replicate 16 0#8))

/-- The local-store section: the allocation, the queue storage, the tiles and zero maps of the array's holder. -/
def State.lsSection (s : State) (v : SavedWg) : List Byte :=
  match Tbl.find s.wgs v.wg with
  | none => []
  | some w =>
    let g := Tbl.find s.grids w.grid
    let d := (g.map Grid.qdepth).getD 2
    v.ls ++ ((List.range ((g.map Grid.nq).getD 0)).flatMap fun q => (w.queue q).storage d) ++
      (if v.array then
        ((List.range (16 * 2048)).flatMap fun i => toBytes 4 (Tbl.get 0#32 v.tiles i).toNat) ++
          ((List.range 16).flatMap fun t => toBytes 16 (Tbl.get 0#128 v.zmaps t).toNat)
      else [])

/-- A batch entry of a closed operation (15, R379 item 5): drained, to be run again, or faulted. -/
def opEntry (k : Cls) (b : Batch) (ix : Nat) (o : OpRec) (again : Option CopyOp) : List Nat :=
  let bits_ := fun (l : List Nat) => (l.map fun i => 2 ^ i).sum
  match again, o.fault with
  | some c, _ => [fld 8 56 1 + fld 2 38 (clsCode k) + b.num.toNat, fld 16 32 (bits_ (c.tgts.map (·.ix))) + ix, 0, o.pc.toNat]
  | none, some f =>
    [fld 8 56 0x18 + fld 8 48 f.cause.toNat + fld 8 40 f.det.toNat + fld 2 38 (clsCode k) + b.num.toNat,
     fld 16 48 o.done.toNat + fld 16 32 o.fail.toNat + ix, f.addr.toNat, o.pc.toNat]
  | none, none => [fld 2 38 (clsCode k) + b.num.toNat, fld 16 48 o.done.toNat + ix, 0, o.pc.toNat]

/-- The operations of closed batches of a workgroup that are not known complete, each once. -/
def SavedWg.closedOps (v : SavedWg) : List (Cls × Batch × Nat × OpRec) :=
  let all := v.groups.flatMap fun g => [Cls.cp, .mx, .gc, .cl].flatMap fun k =>
    ((g.2.cls k).closed.filter (fun b => !b.reported)).flatMap fun b =>
      ((List.range b.ops.length).zip b.ops).map fun o => (k, b, o.1, o.2)
  all.foldl (fun l x => if l.any (fun y => y.2.2.2.id == x.2.2.2.id) then l else l ++ [x]) []
def SavedWg.batchSection (v : SavedWg) : List Byte :=
  w64s (v.closedOps.flatMap fun x => opEntry x.1 x.2.1 x.2.2.1 x.2.2.2 (v.copies.find? (fun c => c.id == x.2.2.2.id)))

/-- A section: its kind (0 is the workgroup header), its bytes, the nested cause that it arose with. -/
structure Section where
  kind  : Nat
  bytes : List Byte
  cause : Option Byte := none
  deriving DecidableEq, Repr

/-- The sections of a workgroup after its header; those of kinds already incomplete carry the cause of that. -/
def State.sections (s : State) (v : SavedWg) (dump : Bool) (nested : List Nested) : List Section :=
  let why := fun (k : Nat) => (nested.find? (fun n => n.wg == v.wg && n.kind == k)).map (·.cause)
  let gs := fun (i : Nat) => ((Tbl.find s.wgs v.wg).bind fun w => Tbl.find w.slots i).getD 0
  (v.groups.map fun g => ⟨1, s.groupSection (gs g.1) g.2, if g.1 = (v.groups.head?.map (·.1)).getD 0 then why 1 else none⟩) ++
    [⟨2, s.lsSection v, if v.bad.testBit 2 then some 0x28#8 else why 2⟩, ⟨3, s.barSection v, why 3⟩,
     ⟨4, if dump then v.batchSection else [], why 4⟩]

/-- The workgroup header (15, R379; 21, R438). -/
def State.wgHeader (s : State) (v : SavedWg) (flags : Nat) : List Byte :=
  match Tbl.find s.wgs v.wg with
  | none => List.replicate 64 0#8
  | some w =>
    let g := Tbl.find s.grids w.grid
    w64s [flags, w.wgidx, (g.map (·.number)).getD 0, (g.map fun g => (g.word 0x18).toNat).getD 0, v.groups.length, 0, 0, 0]

/-! ### Stop records (15, R371) -/

/-- A stop record with its extension; `key` gives its place (21, R438). -/
structure StopRec where
  key   : Nat
  cause : Nat
  det   : Nat
  eng   : Nat
  unit  : Nat
  skid  : Nat
  flags : Nat
  id    : W64 := 0#64
  pc    : W64 := 0#64
  rpc   : W64 := 0#64
  rwc   : W64 := 0#64
  addr  : W64 := 0#64
  lanes : Mask := 0#32
  nheld : Nat := 0
  info  : W64 := 0#64
  ext   : List W64 := []
  deriving DecidableEq, Repr

/-- The words of a record, with the index of its extension. -/
def StopRec.words (r : StopRec) (ix : Nat) : List Nat :=
  [fld 8 56 r.cause + fld 8 48 r.det + fld 4 44 r.eng + fld 12 32 r.unit + fld 8 16 r.skid + fld 8 8 r.flags, r.id.toNat,
   r.pc.toNat, r.rpc.toNat, r.rwc.toNat, r.addr.toNat, fld 32 32 r.lanes.toNat + fld 16 16 ix + fld 16 0 r.nheld, r.info.toNat]

/-- The record of a group: of its fault, or with nothing to record. -/
def State.groupStop (s : State) (gs : Nat) (g : Group) (skid : Nat) : StopRec :=
  let key := coreOf gs * 64 + slotOf gs
  match g.stop with
  | some x =>
    { key, cause := x.cause.toNat, det := x.det.toNat, eng := 0, unit := coreOf gs, skid, id := s.idWord gs g, pc := x.pc, rpc := x.rpc
      flags := b2n x.late + fld 1 1 (b2n x.restart) + fld 1 2 (b2n x.held) + fld 1 3 (b2n x.rolled)
      rwc := s.rwcWord g x.rwc, addr := x.addr, lanes := x.lanes, nheld := x.nheld, info := x.info, ext := x.ext }
  | none =>
    let pc := ((g.slotA.map (·.pc)).orElse fun _ => g.slotB.map (·.pc)).getD g.exitPc
    { key, cause := 0, det := 0, eng := 0, unit := coreOf gs, skid, flags := 2, id := s.idWord gs g, pc, rpc := pc
      rwc := s.rwcWord g g.rwc }

/-- The records by ENG, then UNIT, then lane block and slot; with them the indices of their extensions. -/
def withExt : List StopRec → Nat → List (StopRec × Nat)
  | [], _ => []
  | r :: t, n => if r.ext.isEmpty then (r, 0xFFFF) :: withExt t n else (r, n) :: withExt t (n + 1)
def orderStops (l : List StopRec) : List (StopRec × Nat) :=
  withExt (sortBy (fun r => (r.eng * 4096 + r.unit) * 2 ^ 20 + r.key) l) 0

/-! ### The image (15, R372, R378; 21, R438) -/

/-- A number rounded up to a multiple. -/
def roundUp (n m : Nat) : Nat := (n + m - 1) / m * m

/-- A section in its place: its number, its workgroup, its offset. -/
structure Placed where
  ix  : Nat
  wg  : Nat
  off : Nat
  sec : Section
  deriving DecidableEq, Repr

/-- The sections of the workgroups, each workgroup at a 64 KiB boundary, the sections of one without padding; a section
that goes beyond the limit is incomplete with cause 0x0A. -/
def placeSecs (limit : Nat) : List (Nat × List Section) → Nat → Nat → List Placed
  | [], _, _ => []
  | (wg, l) :: t, ix, at_ =>
    let r := l.foldl (fun (r : List Placed × Nat × Nat) x =>
      let fits := decide (r.2.2 + x.bytes.length ≤ limit)
      (r.1 ++ [⟨r.2.1, wg, r.2.2, if fits then x else { x with cause := some (x.cause.getD 0x0A#8) }⟩],
       r.2.1 + 1, r.2.2 + x.bytes.length)) ([], ix, roundUp at_ 65536)
    r.1 ++ placeSecs limit t r.2.1 r.2.2

/-- What an image is made of. -/
structure ImageReq where
  spid  : Nat
  dump  : Bool
  base  : Nat
  limit : Nat
  halting : Option HaltCause
  stops : List StopRec
  saved : List SavedWg
  nested : List Nested
  deriving DecidableEq, Repr

/-- The offset of the workgroup images, and the sections placed. -/
def ImageReq.wgOff (q : ImageReq) : Nat :=
  roundUp (roundUp (0x100 + 64 * q.stops.length) 128 + 128 * (q.stops.filter (fun r => !r.ext.isEmpty)).length) 65536
def State.layout (s : State) (q : ImageReq) : List Placed :=
  placeSecs q.limit (q.saved.map fun v => (v.wg, ⟨0, List.replicate 64 0#8, none⟩ :: s.sections v q.dump q.nested)) 0 q.wgOff

/-- The bytes that an image needs. -/
def State.imageSize (s : State) (q : ImageReq) : Nat :=
  (s.layout q).foldl (fun m x => max m (x.off + x.sec.bytes.length)) q.wgOff

/-- The Headbox writes bytes of an area; an address that does not exist takes nothing. -/
def State.areaWrite (s : State) (part pa : Nat) (l : List Byte) : State :=
  if l.isEmpty || !s.paExists pa || !s.paExists (pa + l.length - 1) then s else s.plainWrite 0 part false pa l

/-- Bit k of a workgroup's first word, for the kinds of its incomplete sections. -/
def badKinds (l : List Placed) (wg : Nat) : Nat :=
  ([1, 2, 3, 4].map fun k => if l.any (fun x => x.wg == wg && x.sec.kind == k && x.sec.cause.isSome) then 2 ^ k else 0).sum

/-- An image is written: its header, stop records, extensions, workgroup images. The workgroups remember where their
images lie and what is incomplete. -/
def State.writeImage (s : State) (q : ImageReq) : List SavedWg × State :=
  let p := s.space q.spid
  let l := s.layout q
  let stops := orderStops q.stops
  let exts := (stops.map (·.1)).filter (fun r => !r.ext.isEmpty)
  let causes := q.nested.filter (fun n => n.kind == 0) |>.map fun n => (0, n.cause)
  let found := causes ++ l.filterMap fun x => x.sec.cause.map fun c => (x.ix, c)
  let first := found.headD (0, 0#8)
  let secf := (if stops.isEmpty then 0 else 1) + ([1, 2, 3, 4].map fun k =>
    let mine := l.filter (fun x => x.sec.kind == k)
    (if mine.isEmpty then 0 else 2 ^ (2 * k)) + (if mine.any (fun x => x.sec.cause.isSome) then 2 ^ (2 * k + 1) else 0)).sum
  let h := q.halting
  let skid := (stops.map fun r => r.1.skid).foldl max 0
  let n := fun (f : HaltCause → Nat) => (h.map f).getD 0
  let head := w64s [fld 8 56 (n fun h => h.cause.toNat) + fld 8 48 (b2n q.dump) + fld 8 40 (n fun h => h.det.toNat) +
      fld 8 32 first.2.toNat + fld 8 24 (min 255 found.length) + fld 8 16 q.spid + fld 8 8 p.gen.toNat,
    fld 12 52 (n (·.unit)) + fld 4 48 (n (·.eng)) + fld 8 40 skid, fld 32 32 stops.length + exts.length,
    fld 32 32 q.saved.length + fld 32 0 first.1, q.wgOff, p.interval.toNat, secf]
  let w := fun (s : State) (off : Nat) (b : List Byte) => s.areaWrite p.part (q.base + off) b
  let s1 := w s 0 (padTo 256 0#8 head)
  let s2 := w s1 0x100 (w64s (stops.flatMap fun r => r.1.words r.2))
  let s3 := w s2 (roundUp (0x100 + 64 * stops.length) 128) (wordBytes (exts.flatMap fun r => padTo 16 0#64 r.ext))
  let heads := q.saved.map fun v => (v.wg, badKinds l v.wg)
  let s4 := l.foldl (fun s x =>
    let bytes := if x.sec.kind = 0 then
        ((q.saved.find? (fun v => v.wg == x.wg)).map fun v => s.wgHeader v (((heads.find? (fun h => h.1 == x.wg)).map (·.2)).getD 0)).getD []
      else x.sec.bytes
    if x.off + bytes.length ≤ q.limit then w s x.off bytes else s) s3
  (q.saved.map fun v => { v with
    bad := badKinds l v.wg, off := ((l.find? (fun x => x.wg == v.wg)).map (·.off)).getD 0 }, s4)

/-! ### Reading back (15, R375, R380) -/

/-- A group as its register section has it. -/
def State.readGroup (s : State) (at_ : Nat) (g : Group) : Group :=
  let w := fun (o : Nat) => s.rd8 (at_ + o)
  let n4 := fun (o : Nat) => BitVec.ofNat 32 (s.rd (at_ + o) 4)
  let slot := fun (pc : W64) (m : Nat) (valid : Bool) (old : Option PcSlot) =>
    if valid then some { old.getD { pc, mask := 0#32 } with pc, mask := BitVec.ofNat 32 m } else none
  let tx := lanes32.foldl (fun t L =>
    let d := s.rd (at_ + 0x280 + L) 1
    let x : TxLane := { depth := d % 128, doomed := d.testBit 7, status := n4 (0x200 + 4 * L), words := [] }
    if x = {} then Tbl.del t L else Tbl.put t L x) g.tx
  let top := (List.range (min 4 g.join.length)).map fun i =>
    let e := g.join.getD i ⟨0#64, 0#32, 0#32, 0⟩
    { e with rejoin := BitVec.ofNat 64 (bits (w (0x320 + 16 * i)) 55 0), mask := BitVec.ofNat 32 (bits (w (0x328 + 16 * i)) 63 32)
             arr := BitVec.ofNat 32 (bits (w (0x328 + 16 * i)) 31 0) }
  { g with
    slotA := slot (w 8) (bits (w 0x18) 31 0) (bit (w 0x30) 32) g.slotA
    slotB := slot (w 0x10) (bits (w 0x18) 63 32) (bit (w 0x30) 33) g.slotB
    regpc := w 0x20, rv := bit (w 0x28) 48, sd := bits (w 0x28) 47 40, jd := bits (w 0x28) 39 32
    regmask := BitVec.ofNat 32 (bits (w 0x28) 31 0), live := BitVec.ofNat 32 (bits (w 0x30) 31 0)
    gtime := w 0x38, gtcmp := w 0x40, rwc := BitVec.ofNat 32 (bits (w 0x48) 63 32), rrwc := BitVec.ofNat 32 (bits (w 0x48) 31 0)
    matSeq := BitVec.ofNat 32 (bits (w 0x60) 31 0), matQ := BitVec.ofNat 32 (bits (w 0x68) 31 0)
    origin := lanes32.foldl (fun t L => Tbl.set 0#10 t L (BitVec.ofNat 10 (s.rd (at_ + 0x80 + 2 * L) 2))) []
    chk := { g.chk with
      rc := n4 0x100, pwg := n4 0x104, pgg := n4 0x108, pdg := n4 0x10C, kwg := n4 0x110, kgg := n4 0x114, kdg := n4 0x118
      ic := s.rd (at_ + 0x11C) 4 % 2 == 1
      table := ((List.range 8).map fun i => w (0x120 + 8 * i)).filter (fun e => entTk e != 0)
      pendRec := RelRec.ofWords ((List.range 16).map fun i => w (0x180 + 8 * i)) }
    tx
    seq := lanes32.foldl (fun t L => Tbl.set 0#32 t L (n4 (0x2A0 + 4 * L))) []
    join := top ++ g.join.drop 4
    s := (List.range 64).foldl (fun t i => Tbl.set 0#64 t i (w (0x360 + 8 * i))) []
    p := (List.range 7).foldl (fun t i => Tbl.set 0#32 t i (n4 (0x560 + 4 * i))) []
    v := (List.range (32 * g.n)).foldl (fun t i => Tbl.set 0#32 t i (n4 (0x800 + 4 * i))) [] }

/-- A queue as its storage has it. -/
def State.readQueue (s : State) (at_ d : Nat) : QState :=
  let ctl := at_ + 128 * d + 64 * ((d + 7) / 8)
  let head := s.rd ctl 2 % max 1 d
  let n := min d (s.rd (ctl + 8) 2)
  let slot := fun (k : Nat) => (⟨lanes32.map fun L => BitVec.ofNat 32 (s.rd (at_ + 128 * k + 4 * L) 4), s.rd8 (at_ + 128 * d + 8 * k)⟩ : QEntry)
  { head
    entries := (List.range n).map fun i => slot ((head + i) % max 1 d)
    left := (List.range (d - n)).foldl (fun t i => let k := (head + n + i) % max 1 d; Tbl.put t k (slot k)) [] }

/-- A saved workgroup, with its record, as its image in an area has them. -/
def State.readWg (s : State) (area : Nat) (v : SavedWg) (w : Workgroup) : SavedWg × Workgroup :=
  let g := Tbl.find s.grids w.grid
  let nq := (g.map Grid.nq).getD 0
  let d := (g.map Grid.qdepth).getD 2
  let at_ := area + v.off + 64
  let r := v.groups.foldl (fun (r : Tbl Group × Nat) x =>
    (Tbl.put r.1 x.1 (s.readGroup r.2 x.2), r.2 + 2048 + 128 * x.2.n)) ([], at_)
  let ls := r.2
  let qb := 128 * d + 64 * ((d + 7) / 8) + 64
  let q := ls + v.ls.length
  let t := q + nq * qb
  let bar := t + (if v.array then 16 * 8192 + 256 else 0)
  ({ v with
     groups := r.1
     ls := s.rdBytes ls v.ls.length
     tiles := if v.array then (List.range (16 * 2048)).foldl (fun x i => Tbl.set 0#32 x i (BitVec.ofNat 32 (s.rd (t + 4 * i) 4))) [] else []
     zmaps := if v.array then (List.range 16).foldl (fun x i => Tbl.set 0#128 x i (BitVec.ofNat 128 (s.rd (t + 131072 + 16 * i) 16))) [] else [] },
   { w with
     qs := (List.range nq).foldl (fun x i => Tbl.put x i (s.readQueue (q + i * qb) d)) []
     wgen := BitVec.ofNat 32 (bits (s.rd8 bar) 63 32), warr := BitVec.ofNat 32 (bits (s.rd8 bar) 31 0)
     ggen := BitVec.ofNat 32 (bits (s.rd8 (bar + 8)) 63 32), dgen := BitVec.ofNat 32 (bits (s.rd8 (bar + 16)) 63 32) })

end Sys2Proof.Machine
end

