-- ==== Sys2Proof/Machine/Deliver.lean ====
section
/-! DEFINITION. Steps of the lane blocks: long results as they return (07, R192, R193; 04, R110, R113 to R120), commitment (16,
R386, R389), promotion (07, R195), the timer (14, R356), fetch (09, R219; 01, R28, R29), refills of the stacks (07, R189),
the walker and the limits of walker and handler runs (01, R26 to R30). -/

namespace Sys2Proof.Machine

/-! ### Results that return -/

/-- The value that a lane's parts make. -/
def Req.laneVal (q : Req) (L : Nat) : Nat :=
  ((q.accs.filter (fun a => a.lane == L)).map fun a => a.got.toNat % 2 ^ (8 * a.len * max 1 a.locs.length) * 2 ^ (8 * a.len * a.part)).sum

/-- A loaded value as its register takes it (12, R295 Table 1). -/
def szExtend (sz : Sz) (x : Nat) : Nat :=
  match sz with
  | .s8 => (signed 8 (x : Int) % (2 ^ 32 : Nat)).toNat
  | .s16 => (signed 16 (x : Int) % (2 ^ 32 : Nat)).toNat
  | sz => x % 2 ^ (8 * sz.bytes)

/-- The register writes of a request that has its data. -/
def Req.regWrites (q : Req) : List RegW :=
  let act := if q.scalar then q.mask else maskOf fun L => q.accs.any (fun a => a.lane == L)
  let first := (q.accs.head?.map (·.lane)).getD 0
  let put := fun (d : Reg) (sz : Sz) =>
    let g : Group := { wg := 0, gidx := 0, age := 0, n := 0, slotA := none, live := 0#32, regpc := 0#64, regmask := 0#32 }
    let w : Word := { gs := q.gs, b := q.b, g, slot := { pc := q.pc, mask := q.mask }, act, ngrp := 0, srcs := [] }
    w.put ⟨d, sz.role, .any⟩ fun L => szExtend sz (q.laneVal (if q.scalar then first else L))
  match q.kind with
  | .load d sz => put d sz
  | .atom d sz _ => put d sz
  | .result ws => ws
  | _ => []

/-- The verdicts on a load's sectors and segments, each with its race record's facts (04, R111 to R113).
[DEDUCED, log entry 40] -/
def State.loadVerdicts (s : State) (q : Req) (g : Group) : List (RaceAcc × Verdict) :=
  if q.sup || q.mode == 0#2 then []
  else
    let mem := (q.wms.eraseDups.filter (fun x => s.checked q x.1)).map fun x =>
      let v := s.sectorVerdict q g x.1 x.2 (q.ord != .weak)
      (q.race false x.1 x.2 v.2, v.1)
    let ls := q.lwms.map fun x =>
      let mine := q.accs.filter (fun a => match a.locs.head? with
        | some (.ls c p _) => c * 2 ^ 36 + p / 64 == x.1
        | _ => false)
      let v := s.testLs q.gs g x.2.1 (x.2.2.setWidth 16)
      (q.race true x.1 x.2.2 (if v = .race then maskOf fun L => mine.any (fun a => a.lane == L) else 0#32), v)
    mem ++ ls

/-- What a strong read brings to the group's check state: an acquire merges the records, and the record of the last one
is kept for a later fence (04, R105, R110). Where several records came back, one cannot stand for all. [DEDUCED, log entry 40] -/
def State.takeRecs (s : State) (q : Req) (g : Group) (c : CheckState) : CheckState :=
  if q.ord = .weak && !(q.accs.any (·.tx)) then c
  else
    let c1 := if q.acquires && q.accs.any (!·.tx) then q.recs.foldl (fun c r => s.mergeRec g r c) c else c
    let c2 := if q.acquires && q.accs.any (!·.tx) && q.recMiss then c1.clearIc else c1
    { c2 with pendRec := q.recs.getLast?, pendMiss := q.recMiss || decide (2 ≤ q.recs.length) }

/-- The cause that a load's bytes have: the least code, its lanes, the lowest lane's address. -/
def Req.dataCause (q : Req) : Option Cause :=
  (leastOf ((q.accs.filter (fun a => a.err != 0)).map (·.err))).map fun c =>
    let mine := q.accs.filter (fun a => a.err == c)
    { code := c, lanes := q.faultLanes (mine.map (·.lane)), addr := (mine.head?.map (·.ga)).getD 0#64 }

/-- The racing sectors in ascending order of their lowest racing lanes. [DEDUCED, log entry 41] -/
def racesOf (l : List (RaceAcc × Verdict)) : List RaceAcc :=
  sortBy (fun r => (laneList r.lanes).headD 32) ((l.filter (fun v => v.2 == .race)).map (·.1))

/-- The registers of a request are written and its pending bits clear (07, R193). -/
def State.writeBack (s : State) (id : Nat) (q : Req) (g : Group) : State :=
  let s1 := s.settle q.gs q.nth fun x => { x.writes q.regWrites with chk := s.takeRecs q g x.chk }
  let last := !(s.reqs.any (fun e => e.1 != id && e.2.gs == q.gs && e.2.nth == q.nth && !e.2.pend.isEmpty))
  let s2 := if last then s1.settle q.gs q.nth fun x => { x with pend := x.pend.filter (fun r => !q.pend.contains r) } else s1
  s2.dropReq id

/-- A load returns: its checks, then its registers (04, R113, R118, R120; 15, R362). -/
def State.returnLoad (s : State) (id : Nat) (q : Req) (g : Group) : State :=
  let vs := s.loadVerdicts q g
  let races := racesOf vs
  let s1 := vs.foldl (fun s v => s.countCheck q.spid v.2) s
  match races, q.mode == 1#2 with
  | r :: t, true =>
    let all := t.foldl (fun m x => m ||| x.lanes) r.lanes
    s1.lateFault id q { code := 0x10, lanes := all, addr := r.addr, ext := s.raceWords q.gs g r }
  | _, _ =>
    match q.dataCause with
    | some c => s1.lateFault id q c
    | none => (races.foldl (fun s r => s.appendRace q.spid (s.raceWords q.gs g r)) s1).writeBack id q g

/-- A popped entry leaves its queue, and the pop's edge is merged (07, R192; 04, R110). [DEDUCED, log entry 42] -/
def State.popDone (s : State) (q : Req) (k : Nat) : State :=
  match (Tbl.find s.wgs q.wg).map fun w => w.queue k with
  | none => s
  | some x =>
    let s1 := (match x.entries with
      | e :: _ => s.settle q.gs q.nth fun g => { g with chk := mergePop (coreOf q.gs) e.tag g.chk }
      | [] => s)
    let depth := match (Tbl.find s.groups q.gs).bind s.gridOf with
      | some g => g.qdepth
      | none => 1
    s1.updWg q.wg fun w => w.setQueue k
      { x with head := (x.head + 1) % depth, entries := x.entries.drop 1, rsv := x.rsv - 1
               left := match x.entries with
                 | e :: _ => Tbl.put x.left (x.head % depth) e
                 | [] => x.left }

/-- A long result of registers returns: the pops end, the registers are written, the pushes whose room was reserved are
made. -/
def State.returnResult (s : State) (id : Nat) (q : Req) (g : Group) : State :=
  let s1 := q.pops.foldl (fun s k => s.popDone q k) s
  let s2 := s1.writeBack id q g
  q.regWrites.foldl (fun s x => match x with
    | .push k m vals => (s.updWg q.wg fun w => let y := w.queue k; w.setQueue k { y with room := y.room - 1 }).push q.gs k m vals
    | _ => s) s2

/-- An earlier result takes an entry of a queue that this one pops: entries leave in the order of their reservation.
[DEDUCED, log entry 44] -/
def State.popsFirst (s : State) (id : Nat) (q : Req) : Bool :=
  s.reqs.any (fun e => decide (e.1 < id) && e.2.wg == q.wg && e.2.pops.any (q.pops.contains ·))

/-- Invalidations of a request's lines have not been confirmed (02, R57). -/
def State.invalidating (s : State) (q : Req) : Bool :=
  q.accs.any (fun a => match a.home with
    | .sector n => s.invs.any (fun x => x.2 == n / 2)
    | .bank _ _ => false)

/-- What a program reads in a spill area is undefined (07, R189). -/
def State.unspill (s : State) (q : Req) : Req × State :=
  if q.accs.any (fun a => (s.spillOwner q.spid a.ga.toNat).isSome) then
    ({ q with accs := q.accs.map fun a => if (s.spillOwner q.spid a.ga.toNat).isSome then
        { a with got := (Config.freeWord (s.free + 2 * a.lane)).setWidth 128 ||| ((Config.freeWord (s.free + 2 * a.lane + 1)).setWidth 128 <<< 64) }
        else a }, { s with free := s.free + 64 })
  else (q, s)

/-- LONG_RESULT_RETURN (07, R193): an atomic's result comes once its remote copies are gone (02, R57). [DEDUCED, log entry 44] -/
def execLongResultReturn (rq : Nat) (s : State) : Out :=
  .next (match Tbl.find s.reqs rq with
  | none => s
  | some q =>
    if q.stage ≠ .answered || q.serial.isSome then s
    else
      match Tbl.find s.groups q.gs with
      | none => s.dropReq rq
      | some g =>
        match q.kind with
        | .load _ _ => if q.accs.all (·.perf) then let x := s.unspill q; x.2.returnLoad rq x.1 g else s
        | .atom _ _ _ => if s.invalidating q then s else let x := s.unspill q; x.2.writeBack rq x.1 g
        | .result _ => if s.popsFirst rq q then s else s.returnResult rq q g
        | _ => s)

/-! ### Commitment, promotion -/

/-- The oldest tentative word of a group is committed: what the core port held for it goes out, it counts as retired, and
a REGION sets the restart point (15, R364; 16, R386, R389; 17, R398). [DEDUCED, log entry 112] -/
def State.commitOne (s : State) (gs : Nat) (t : Tent) (rest : List Tent) : State :=
  let s1 := { s with tents := if rest.isEmpty then Tbl.del s.tents gs else Tbl.put s.tents gs rest }
  let n := s1.newId
  let s2 := t.reqs.foldl (fun s r => s.updReq r fun q =>
    if q.stage = .held then { q with stage := .mesh, since := s.clock, first := s.clock, nr := n.1, slack := s.slackOf q.core } else q) n.2
  let f := fun (g : Group) => { g with rwc := g.rwc + BitVec.ofNat 32 t.n }
  let at_ := fun (g : Group) => (match t.point with
    | some (pc, m, jd, sd) =>
      if s.service g then { g with regpc := pc, regmask := m, jd, sd, rrwc := g.rwc, rv := true } else g
    | none => g)
  s2.settle gs t.nth fun g => f (at_ g)

/-- TENTATIVE_RESULT_COMMIT (16, R386): 48 cycles after the result was produced. -/
def execTentativeResultCommit (gs : Nat) (s : State) : Out :=
  .next (match (Tbl.find s.tents gs).getD [] with
  | [] => s
  | t :: rest => if t.born + 48 ≤ s.clock then (s.commitOne gs t rest).settleQuiet gs else s)

/-- GROUP_PROMOTION (07, R195). -/
def execGroupPromotion (gs : Nat) (s : State) : Out :=
  .next (s.updGroup gs fun g => match g.eligible with
  | some t => if t + 64 ≤ s.clock && !isWalker gs then { g with promoted := true } else g
  | none => g)

/-! ### The timer (14, R356) -/

/-- The slot that issues next of a group's two: the one that issued less recently, where both hold a path (07, R185). -/
def Group.nextSlot (g : Group) : Option Bool :=
  match g.slotA, g.slotB with
  | some _, some _ => some (!g.lastB)
  | some _, none => some false
  | none, some _ => some true
  | none, none => none

/-- The timer of a group is due; in re-execution it is due where its firing was logged (17, R400, R403). -/
def State.timerDue (s : State) (gs : Nat) (g : Group) : Bool :=
  let spid := s.spidOf g
  if isWalker gs || g.ft.isSome then false
  else if (s.space spid).reruns then (s.nextAt spid (s.nameOf g) (s.rwcNow gs g) 5 0x101).isSome
  else g.gtcmp != 0#64 && decide (g.gtcmp.toNat ≤ g.gtime.toNat)

/-- The timer fires at the word in a slot: before the word is decoded, and instead of it. [DEDUCED, log entry 54] -/
def State.timerFire (s : State) (gs : Nat) (b : Bool) (g : Group) (p : PcSlot) : State :=
  let a : At := ⟨p.pc, s.rwcNow gs g, g.nissue, b⟩
  let spid := s.spidOf g
  let s1 := (match s.nextAt spid (s.nameOf g) a.rwc 5 0x101 with
    | some (ix, _) => s.useEvent spid ix
    | none => s.logGroup g 5 0xFF a.rwc 0x101 g.gtime)
  (s1.updGroup gs fun g => { g with gtcmp := 0#64 }).raise gs a { code := 0x30, lanes := p.mask, info := 0xFFFFFFFF#64 }

/-- GTIME_TIMER: the next word of the group is about to issue (14, R356). -/
def execGtimeTimer (gs : Nat) (s : State) : Out :=
  .next (match Tbl.find s.groups gs with
  | none => s
  | some g =>
    match g.nextSlot.bind fun b => (g.slot b).map fun p => (b, p) with
    | none => s
    | some (b, p) => if g.stop.isSome || g.retiring || !s.timerDue gs g || !((Tbl.find s.tents gs).getD []).isEmpty then s
      else s.timerFire gs b g p)

/-! ### Fetch (09, R219) -/

/-- What the fetch of a slot's word comes to. -/
inductive Fetch where
  | word (w : W64) (s : State)
  | cause (c : Cause)
  | miss (va : Nat)
  | touch
  deriving DecidableEq, Repr

/-- The translation of a fetch. -/
def State.fetchTr (s : State) (q : Ask) (pc : Nat) : Tr :=
  if localWin ≤ pc ∧ pc < localWin + 2 ^ 24 ∨ privWin ≤ pc ∧ pc < privWin + 2 ^ 32 then .bad 0x09 0x0A
  else s.trans q pc 8 0

/-- A word of code, through L1 where the page may be cached (02, R47). -/
def State.fetchFrom (s : State) (core part pa : Nat) (uncached : Bool) : W64 × State :=
  if uncached || !s.ownMem pa then (s.rd8 pa, s)
  else
    match s.l1Line core (pa / 128) with
    | some l => (BitVec.ofNat 64 (ofBytes ((l.bytes.drop (pa % 128)).take 8)), s)
    | none => (s.rd8 pa, s.fetchLine core part (pa / 128) true 0)

/-- The word at a slot's PC. -/
def State.fetch (s : State) (gs : Nat) (g : Group) (p : PcSlot) : Fetch :=
  let q : Ask := ⟨gs, g, p.walked, isWalker gs || g.ft.isSome, .fetch⟩
  match p.fetched with
  | some w => .word w s
  | none =>
    match s.fetchTr q p.pc.toNat with
    | .bad c d => .cause { code := c, det := d, lanes := p.mask, addr := p.pc }
    | .miss va => .miss va
    | .touch | .member => .touch
    | .ok locs u =>
      let pa := (locs.head?.map Loc.pa).getD 0
      if s.poisoned pa 8 then .cause { code := 0x28, lanes := p.mask, addr := p.pc }
      else let x := s.fetchFrom (coreOf gs) (s.partOf g) pa u; .word x.1 x.2

/-- A fetch that brought no word: the fault at that word, the walker's miss, the first-touch handler. A cause that fenced
mode holds leaves the word out (15, R367). [DEDUCED, log entry 43] -/
def State.fetchFail (s : State) (gs : Nat) (b : Bool) (g : Group) (p : PcSlot) : Fetch → State
  | .word _ s => s
  | .cause c =>
    let s1 := s.raise gs ⟨p.pc, s.rwcNow gs g, g.nissue, b⟩ c
    if lateKind c.code && ((s.gridOf g).map Grid.fenced).getD false then
      s1.updGroup gs fun g => { g.setSlot b (some { p with pc := p.pc + 8#64 }) with nissue := g.nissue + 1 }
    else s1
  | .miss va => (s.queueMiss ⟨gs, g, p.walked, isWalker gs || g.ft.isSome, .fetch⟩ 3 b va).park gs b .walker
  | .touch => s.startHandler gs b g (fun _ => 3) ((laneList p.mask).map fun L => (L, p.pc))

/-- INSTRUCTION_FETCH: a slot's next word comes back ahead of its issue, or the fetch fails at that word. -/
def execInstructionFetch (gs : Nat) (slotB : Bool) (s : State) : Out :=
  .next (match (Tbl.find s.groups gs).bind fun g => (g.slot slotB).map fun p => (g, p) with
  | none => s
  | some (g, p) =>
    if g.stop.isSome || p.missing || p.fetched.isSome || g.retiring then s
    else
      match s.fetch gs g p with
      | .word w s1 => s1.updGroup gs fun g => g.setSlot slotB (some { p with fetched := some w })
      | x => s.fetchFail gs slotB g p x)

/-! ### Refills (07, R189) -/

/-- SPILL_AREA_REFILL: an entry read back gives its emptied slot a PC; where its lanes have all exited meanwhile, the next
entry is read. -/
def execSpillAreaRefill (gs : Nat) (s : State) : Out :=
  .next (s.updGroup gs fun g => match g.refill with
  | [] => g
  | (b, e) :: t =>
    let m := e.mask &&& g.live
    let g1 := { g with refill := t }
    if (g.slot b).isSome then g1
    else if m = 0#32 then (({ g := g1 } : Plan).popSpill b).g
    else g1.setSlot b (some { pc := e.pc, mask := m }))

/-! ### The walker and the handlers' limits (01, R26 to R30) -/

/-- The registers that a walker run finds: undefined but for S0 to S2 (01, Table 6).
[DESIGN CHOICE, log entry 11; DEDUCED, log entry 53] -/
def walkerGroup (m : Miss) (walkpc root : W64) (free : Nat) : Group :=
  let v := (List.range 256).map fun i => (i, (Config.freeWord (free + i)).setWidth 32)
  let p := (List.range 7).map fun i => (i, (Config.freeWord (free + 256 + i)).setWidth 32)
  let s := (List.range 61).map fun i => (i + 3, Config.freeWord (free + 263 + i))
  { wg := 0, gidx := 0, age := 0, n := 8, v
    s := [(0, BitVec.ofNat 64 (m.va % 2 ^ 56)), (1, root),
          (2, BitVec.ofNat 64 (fld 2 0 m.access + fld 1 2 (b2n m.sup) + fld 8 8 m.spid))] ++ s
    p, slotA := some { pc := walkpc, mask := BitVec.allOnes 32 }, live := BitVec.allOnes 32
    regpc := walkpc, regmask := BitVec.allOnes 32, rv := false }

/-- WALKER_START: the first queued miss is served in slot 15 (01, R26). [DEDUCED, log entry 53] -/
def execWalkerStart (lb : Nat) (s : State) : Out :=
  .next (match (s.lb lb).walk, (s.lb lb).misses with
  | none, m :: t =>
    if ((Tbl.find s.parts (s.space m.spid).part).map fun p => p.halt.isSome).getD false then s
    else
      let p := s.space m.spid
      let walkpc := ((Tbl.find s.parts p.part).map (·.walkpc)).getD 0#64
      let s1 := s.updLb lb fun b => { b with misses := t, walk := some { miss := m, start := s.clock } }
      { s1 with groups := Tbl.put s1.groups (lb * 16 + 15) (walkerGroup m walkpc p.ptroot s.free), free := s.free + 324 }
  | _, _ => s)

/-- WALKER_TIMEOUT (01, R28). -/
def execWalkerTimeout (lb : Nat) (s : State) : Out :=
  .next (match (s.lb lb).walk with
  | some r => if r.start + 2 ^ 20 ≤ s.clock then s.endWalk lb 5 else s
  | none => s)

/-- FIRST_TOUCH_TIMEOUT (01, R30). -/
def execFirstTouchTimeout (gs : Nat) (s : State) : Out :=
  .next (match (Tbl.find s.groups gs).bind fun g => g.ft.map fun r => (g, r) with
  | some (g, r) =>
    if r.start + 2 ^ 20 ≤ s.clock then
      s.raise gs ⟨((g.slot (g.nextSlot.getD false)).map (·.pc)).getD 0#64, s.rwcNow gs g, g.nissue, false⟩
        { code := 0x09, det := 0x05, lanes := r.mask }
    else s
  | none => s)

end Sys2Proof.Machine
end

