-- ==== Sys2Proof/Machine/Mesh.lean ====
section
/-! DEFINITION. The mesh and the homes as steps: packets, accesses, acknowledgements, returned writes, invalidations (02, R57,
R63 to R67; 03, R89; 04, R114), ownership of lines (05, R122 to R125), sweeps and incarnations (04, R107, R108). -/

namespace Sys2Proof.Machine

/-! ### Performing at a home (03, R89; 02, R53 to R58) -/

/-- The homes at which a request has accesses that have not performed. [DESIGN CHOICE, log entry 45] -/
def Req.homesLeft (q : Req) : List Home := homesOf (q.accs.filter (fun a => !a.perf))

/-- An atomic reached a line: requesters of the last 512 cycles are kept (05, R123). -/
def State.reached (s : State) (q : Req) : State :=
  match q.modifies, q.memAt with
  | true, some pa =>
    { s with reach := (pa / 128, q.core, s.clock) :: s.reach.filter (fun x => decide (s.clock < x.2.2 + 512)) }
  | _, _ => s
/-- Atomics of at least two requesters reached the line. -/
def State.isContended (s : State) (line : Nat) : Bool :=
  let l := s.reach.filter (fun x => x.1 == line && decide (s.clock ≤ x.2.2 + 512))
  decide (2 ≤ ((l.map (·.2.1)).eraseDups).length)

/-- A group's 8-byte store that names a doorbell of the module's window, through the host's bus (08, R200). [DEDUCED, log entry 135] -/
def State.rings (s : State) (q : Req) : State :=
  let page := 2 ^ 51 + Config.windowBus + 0x100000
  (q.accs.filter (fun a => a.pa.testBit 51 && a.len == 8 && decide (page ≤ a.pa) && decide (a.pa < page + 2 ^ 20) && (a.pa - page) % 64 == 0)).foldl
    (fun s a => s.ringDoorbell ((a.pa - page) / 64) (a.data.setWidth 64)) s

/-- A request that carries no serial performs at a home; one that may not yet is left as it is. -/
def State.performAt (s : State) (id : Nat) (q : Req) (h : Home) : State :=
  if !s.mayPerform id q h || (q.isAtomic && !s.atomTurn q) then s
  else
    match q.kind, h with
    | .load _ _, .bank c o => s.loadBank id q c o
    | .load _ _, .sector n => s.arriveLoad id q n
    | .put _ _, _ => s.agentSector id q
    | .rmw _ _, _ => (s.reached q).agentSector id q
    | .store, .sector _ =>
      let s1 := s.writeSector id q
      if ((Tbl.find s1.reqs id).map fun x => x.stage == .performed).getD false then s1.rings q else s1
    | _, .bank c o => s.writeBank id q c o
    | _, .sector _ => (s.reached q).writeSector id q

/-- HOME_SLICE_ACCESS: the first of the request's homes that can serves it; local-store banks and owned lines take the
request without the mesh. [DESIGN CHOICE, log entry 45] -/
def execHomeSliceAccess (rq : Nat) (s : State) : Out :=
  .next (match Tbl.find s.reqs rq with
  | none => s
  | some q =>
    if (s.serialOwner q).isSome then s
    else
      let near := fun (h : Home) => match h with
        | .bank _ _ => true
        | .sector n => (s.owns q.core (n / 2)) || q.stage == .atHome
      if q.stage ≠ .mesh ∧ q.stage ≠ .atHome then s
      else
        match q.homesLeft.find? (fun h => near h && s.mayPerform rq q h) with
        | none => s
        | some h =>
          match h with
          | .sector n => if q.isAtomic && (q.memAt.map (s.canOwn q)).getD false && !s.owns q.core (n / 2) then s
            else s.performAt rq q h
          | .bank _ _ => s.performAt rq q h)

/-- What the host is given. -/
def State.reply (s : State) (l : List Byte) : State := { s with hostOut := s.hostOut ++ [l] }

/-- A host's atomic gives it the old value, which an uncorrectable word leaves open (18, R411). -/
def State.hostAnswer (s : State) (rq : Nat) (q : Req) : State :=
  let a := q.accs.head?
  let s1 := if (a.map (·.err)).getD 0 = 0 then s.reply (toBytes 8 ((a.map (·.got.toNat)).getD 0))
    else { s.reply (toBytes 8 (Config.freeWord s.free).toNat) with free := s.free + 1 }
  s1.dropReq rq

/-- The operation that waits for a packet is gone. -/
def State.orphan (s : State) (q : Req) : Bool := match q.tag with
  | some tag => decide (q.core < 768) && decide (tag < 2 ^ 40) && !(s.core q.core).cpq.any (fun o => o.id == tag) &&
      !s.cores.any (fun c => c.2.eng.any (fun o => o.id == tag)) && !s.colls.any (fun c => c.2.joined.any (fun p => p.id == tag))
  | none => false

/-- WRITE_ACKNOWLEDGEMENT: the acknowledgement comes once every invalidation of the lines is confirmed (02, R57, R67). A packet for
which an operation waits is answered; the others are done with. -/
def execWriteAcknowledgement (rq : Nat) (s : State) : Out :=
  .next (match Tbl.find s.reqs rq with
  | none => s
  | some q =>
    if q.isAnswered && s.orphan q then s.dropReq rq
    else if q.stage ≠ .performed || q.serial.isSome || s.invs.any (fun x => q.lines.contains x.2) then s
    else
      match q.kind with
      | .tx _ (.prepare _) => s
      | .tx gs _ => (s.dropReq rq).txSettle gs
      | .put tag _ | .rmw tag _ => if tag = hostTag then s.hostAnswer rq q else if q.logs then (s.dropReq rq).logAcked rq else if tag = 0 then s.dropReq rq else s.updReq rq fun q => { q with stage := .answered }
      | _ => (s.dropReq rq).settleQuiet q.gs)

/-- A write goes to its home again. -/
def State.resend (s : State) (rq : Nat) (q : Req) : State := if q.serial.isSome then s.addCopy rq q true else s

/-- WRITE_RETURNED_UNPERFORMED: the core completes the test and resends the write verified (04, R114), or takes the race
fault; report mode records the race first (04, R118, R120). -/
def execWriteReturnedUnperformed (rq : Nat) (s : State) : Out :=
  .next (match (Tbl.find s.reqs rq).bind fun q => (Tbl.find s.groups q.own).map fun g => (q, g) with
  | none => s
  | some (q, g) =>
    match q.stage, q.txMsg, g.txe, q.wms with
    | .unperformed, some (gs, _), some r, _ => (s.txReturned rq gs g r q).resend rq q
    | .unperformed, none, _, (sector, wm) :: _ =>
      let v := s.sectorVerdict q g sector wm (q.ord != .weak)
      let r := q.race false sector wm v.2
      if v.1 = .race && q.mode = 1#2 then s.raceFault rq q g [r]
      else if v.1 = .race && q.verdict ≠ 2 && s.reportsFirst rq q g r.lowest then s
      else
        let s1 := if v.1 = .race && q.verdict ≠ 2 then s.appendRace q.spid (s.raceWords q.gs g r) else s
        (s1.resend rq q).updReq rq fun q =>
          { q with
            stage := .mesh, trip := {}, since := s.clock, verified := some wm, wms := []
            verdict := match v.1 with
              | .pass => 0
              | .unverified => 1
              | .race => 2 }
    | _, _, _, _ => s)

/-- SECTOR_HOLD_TIMEOUT (04, R114). -/
def execSectorHoldTimeout (sector : Nat) (s : State) : Out :=
  .next (match Tbl.find s.holds sector with
  | some (_, t) => if t + 1024 ≤ s.clock then { s with holds := Tbl.del s.holds sector } else s
  | none => s)

/-- REMOTE_INVALIDATION (02, R57). -/
def execRemoteInvalidation (die line : Nat) (s : State) : Out :=
  .next (
    if s.invs.contains (die, line) then
      let s1 := s.updDie die fun d => { d with rdc := Tbl.del d.rdc line }
      { s1 with invs := s1.invs.filter (· != (die, line)) }
    else s)

/-! ### Router stops (02, R52, R63): stop 8 y + x -/

/-- The stops of a physical slice, a cluster of a die, a remote-data cache bank, a port or the Headbox. -/
def sliceStop (p : Nat) : Nat := p
def clusterStop (k : Nat) : Nat := 8 + k
def edgeStop (n : Nat) : Nat := if n < 8 then n else 48 + n
def bankStop (b : Nat) : Nat := edgeStop (b % 16)
def portStop (die n : Nat) : Nat := edgeStop (Config.portStop die n % 16)
/-- The stop of a requester on its die. -/
def unitStop (u : Nat) : Nat := if u < 768 then clusterStop (u % 192 / 4) else portStop (unitDie u) u

/-- The next stop on the way from one to another, x first and then y, and the input port there: 1 north, 2 east, 3 south, 4 west.
Rows are numbered from the north. [DESIGN CHOICE, log entry 138] -/
def nextStop (a d : Nat) : Nat × Nat :=
  if a % 8 < d % 8 then (a + 1, 4) else if d % 8 < a % 8 then (a - 1, 2) else if a / 8 < d / 8 then (a + 8, 1) else (a - 8, 3)
/-- Where a segment of some stops towards a stop ends. -/
def segment (d : Nat) : Nat → Nat × Nat → Nat × Nat
  | 0, x => x
  | n + 1, x => if x.1 = d then x else segment d n (nextStop x.1 d)

/-- A packet's way over a die's mesh: from where to where. -/
structure Leg where
  die  : Nat
  from_ : Nat
  dest : Nat
  deriving DecidableEq, Repr

/-- The way of a request without a serial, on its requester's die: to its home slice, to the remote-data cache bank of a load of
another die's memory, else to a port. -/
def State.reqLeg (s : State) (q : Req) : Option Leg :=
  let d := unitDie q.core
  (q.accs.findSome? fun a => match a.home with
    | .sector n => if a.perf then none else some (n * 64)
    | .bank _ _ => none).bind fun pa =>
    if 4 ≤ d then none
    else some ⟨d, unitStop q.core,
      if s.ownMem pa && homeDie pa == d then sliceStop ((s.die d).sliceAt (homeLs pa) (homeSet pa))
      else if !q.writes && !pa.testBit 51 then bankStop (homeLs pa)
      else portStop d 0⟩
/-- The way of a copy over the mesh of the die that it has reached; none on a link's die. -/
def State.copyLeg (s : State) (q : Req) (c : Copy) : Option Leg :=
  let pa := q.memAt.getD 0
  if 4 ≤ c.node then none
  else some ⟨c.node, if c.node = unitDie q.core then unitStop q.core else portStop c.node 1,
    if c.node = s.targetNode q then sliceStop ((s.die c.node).sliceAt (homeLs pa) (homeSet pa)) else portStop c.node (s.targetNode q)⟩

/-! ### Packets on the mesh (02, R63 to R66) -/

/-- The router at which a packet stands, and its input port there: 0 is local. -/
def Trip.at_ (t : Trip) (l : Leg) : Nat × Nat := t.hop.getD (l.from_, 0)
/-- The wait count of a packet since its first injection (02, R63). -/
def State.waitCount (s : State) (first : Nat) : Nat := min 255 (s.clock - first)
/-- The order in which packets win a contest at an output, the least key first: class, slack, wait count, input port (02, R65). -/
def State.contestKey (s : State) (q : Req) (first port : Nat) : Nat :=
  let w := s.waitCount first
  q.cls * 2 ^ 15 + (if w = 255 then 0 else q.slack) * 2 ^ 11 + (255 - w) * 2 ^ 3 + port

/-- A packet waits at its core: its partition's budget of the class, or of its home's channel, is spent (08, R217). -/
def State.injectHeld (s : State) (q : Req) : Bool :=
  decide (q.core < 768) && (s.spent q.part (1 + q.cls) q.core ||
    (match q.memAt with
     | some pa => s.ownMem pa && s.spent q.part 0 (homeDie pa * 128 + homeLc pa)
     | none => false))

/-- A request waits at its core: for the ownership of its line, or for its serial (05, R124, R130). [DEDUCED, log entry 110] -/
def State.atSource (s : State) (q : Req) : Bool :=
  (s.serialOwner q).isSome || (q.memAt.map (s.canOwn q)).getD false

/-- The packets on the meshes: each with its way, its passage, its request and the clock of its first injection. -/
def State.flights (s : State) : List (Leg × Trip × Req × Nat) :=
  s.reqs.flatMap fun e =>
    (if e.2.stage == .mesh && !s.atSource e.2 then (s.reqLeg e.2).toList.map fun l => (l, e.2.trip, e.2, e.2.first) else []) ++
      e.2.copies.filterMap fun c => (s.copyLeg e.2 c).map fun l => (l, c.trip, e.2, c.sent)

/-- A packet wins the output that it needs against every other that stands at its router and needs it (02, R65). -/
def State.wins (s : State) (l : Leg) (t : Trip) (q : Req) (first : Nat) : Bool :=
  let a := t.at_ l
  a.1 == l.dest || s.flights.all fun x =>
    let b := x.2.1.at_ x.1
    x.1.die != l.die || x.2.1.way != .going || b.1 != a.1 || x.1.dest == b.1 || (nextStop b.1 x.1.dest).1 != (nextStop a.1 l.dest).1 ||
      decide (s.contestKey q first a.2 ≤ s.contestKey x.2.2.1 x.2.2.2 b.2)

/-- An input of a router has room for a packet of a class: it holds two (02, R63). -/
def State.inputRoom (s : State) (die : Nat) (x : Nat × Nat) (cls : Nat) : Bool :=
  decide ((s.flights.filter fun f => f.1.die == die && f.2.1.hop == some x && f.2.2.1.cls == cls).length < 2)

/-- A packet goes on a segment of up to eight routers (02, R64): it is accepted at its destination, latched at a router on the way, or
dropped where there is no room (02, R66). -/
def State.fly (s : State) (l : Leg) (t : Trip) (q : Req) (room : Bool) : Trip :=
  let e := segment l.dest 8 (t.at_ l)
  if !room then { t with hop := none, way := .nacked }
  else if e.1 = l.dest then { t with hop := none, way := .there }
  else if s.inputRoom l.die e q.cls then { t with hop := some e }
  else { t with hop := none, way := .nacked }

/-- A copy of a request, changed. -/
def State.updCopy (s : State) (rq copy : Nat) (f : Copy → Copy) : State :=
  s.updReq rq fun q => { q with copies := q.copies.map fun c => if c.id = copy then f c else c }

/-- MESH_PACKET_ARRIVAL: a packet of a request arrives at a router, where it is accepted or dropped with a negative acknowledgement;
`room` tells whether traffic that is no request leaves room there. [DEDUCED, log entry 139] -/
def execMeshPacketArrival (rq : Nat) (room : Bool) (s : State) : Out :=
  .next (match Tbl.find s.reqs rq with
  | none => s
  | some q =>
    if q.stage = .mesh && !s.atSource q then
      if s.injectHeld q || q.trip.way != .going then s
      else
        let s1 := if q.trip.hop.isNone then s.spend q.part (1 + q.cls) q.core 1 else s
        match s.reqLeg q with
        | none => s1.updReq rq fun q => { q with stage := .atHome }
        | some l =>
          if !s.wins l q.trip q q.first then s
          else
            let t := s.fly l q.trip q room
            s1.updReq rq fun q => if t.way = .there then { q with trip := t, stage := .atHome } else { q with trip := t }
    else
      match q.copies.findSome? fun c => if c.trip.way == .going then (s.copyLeg q c).map fun l => (c, l) else none with
      | none => s
      | some (c, l) =>
        if !s.wins l c.trip q c.sent then s
        else s.updCopy rq c.id fun x => { x with trip := s.fly l c.trip q room })

/-- NEGATIVE_ACKNOWLEDGEMENT reaches the source, which backs off. -/
def execNegativeAcknowledgement (rq : Nat) (s : State) : Out :=
  let f := fun (t : Trip) => if t.way = .nacked then { t with way := .backoff s.clock, nacks := t.nacks + 1 } else t
  .next (s.updReq rq fun q => { q with trip := f q.trip, copies := q.copies.map fun c => { c with trip := f c.trip } })

/-- MESH_RETRANSMIT after 4 × a cycles, a being the count of retransmissions up to 16. -/
def execMeshRetransmit (rq : Nat) (s : State) : Out :=
  let f := fun (t : Trip) => match t.way with
    | .backoff c => if c + 4 * min t.nacks 16 ≤ s.clock then { t with way := .going } else t
    | _ => t
  .next (s.updReq rq fun q => { q with trip := f q.trip, copies := q.copies.map fun c => { c with trip := f c.trip } })

/-! ### Ownership (05, R122 to R125) -/

/-- OWNERSHIP_REQUEST: any other owner is recalled, remote copies are invalidated, the line goes to the core, which gives
up its oldest where it holds 16 already. -/
def execOwnershipRequest (core line : Nat) (s : State) : Out :=
  .next (
    if !(s.ownerBusy core line) || s.owns core line then s
    else
      match Tbl.find s.owners line with
      | some c => if s.ownerBusy c line then s else (s.disown c line).predict c (line * 128) 2
      | none =>
        let old := (s.core core).owned
        let s1 := if 16 ≤ old.length then
            (match old with
             | o :: _ => if s.ownerBusy core o then s else (s.disown core o).predict core (o * 128) (-1)
             | [] => s)
          else s
        if 16 ≤ (s1.core core).owned.length then s1
        else
          let dirs := ((Tbl.find s1.l2 line).map (·.dirs)).getD 0#4
          let s2 := { s1 with
            invs := s1.invs ++ (((List.range 4).filter (fun d => dirs.getLsbD d)).map fun d => (d, line))
            l2 := Tbl.upd s1.l2 line fun e => { e with dirs := 0#4 }
            owners := Tbl.put s1.owners line core }
          s2.updCore core fun c => { c with owned := c.owned ++ [line] })

/-- Who calls an owned line home: another requester's access, an access of the owner's core that needs the home, a halt of the owner's
partition (05, R122, R124). -/
def State.recallers (s : State) (core line : Nat) : Bool × Bool :=
  let live := s.reqs.filter (fun e => (e.2.stage == .mesh || e.2.stage == .atHome) && e.2.lines.contains line)
  (live.any (fun e => e.2.core != core),
   live.any (fun e => e.2.core == core && ((s.serialOwner e.2).isSome || e.2.sup)) ||
     s.parts.any (fun p => p.2.halt.isSome && p.2.clusters.contains (clusterOf core)))

/-- OWNERSHIP_RECALL: the line with its watermarks and release record goes back to the home slice; only another requester's recall
counts in the predictor (05, R123 Table 2). -/
def execOwnershipRecall (core line : Nat) (s : State) : Out :=
  .next (
    let r := s.recallers core line
    if !s.owns core line || s.ownerBusy core line || !(r.1 || r.2) then s
    else if r.1 then (s.disown core line).predict core (line * 128) 2
    else s.disown core line)

/-! ### Sweeps and incarnations (04, R107, R108) -/

/-- A watermark's writer is resident with its incarnation. -/
def State.wmLive (s : State) (wm : W64) : Bool := (s.residentAt (wmSlot wm) (bits wm 43 40)).isSome
/-- A watermark after a sweep: V is cleared where the writer is gone. -/
def State.sweepWm (s : State) (wm : W64) : W64 := if bit wm 7 && !s.wmLive wm then wm &&& ~~~(1#64 <<< 7) else wm
/-- An entry is void where its incarnation is not the slot's current one. [DEDUCED, log entry 51] -/
def State.entLive (s : State) (e : W64) : Bool := entInc e == (s.incOf (entSlot e)).toNat
/-- A release record after a sweep. -/
def State.sweepRec (s : State) (r : RelRec) : RelRec :=
  let t := r.table.filter s.entLive
  let w := s.entLive r.writer
  { r with writer := if w then r.writer else 0#64, table := t, ic := r.ic && w && decide (t.length = r.table.length) }
/-- A local-store watermark after a sweep. -/
def State.sweepLs (s : State) (core : Nat) (lw : BitVec 16) : BitVec 16 :=
  let x := lw.setWidth 64
  let ws := (clusterOf core * 4 + bits x 13 12) * 64 + bits x 11 6
  if bits x 15 15 = 1 ∧ ((Tbl.find s.groups ws).isNone ∨ (s.incOf ws).toNat % 2 ≠ bits x 5 5) then lw &&& 0x7FFF#16 else lw

/-- Entries of a table changed, those that become the default left out. -/
def mapTbl {α : Type} [DecidableEq α] (d : α) (f : Nat → α → α) (t : Tbl α) : Tbl α :=
  (t.map fun e => (e.1, f e.1 e.2)).filter (fun e => decide (e.2 ≠ d))

/-- A pass of a sweep over a unit. [DEDUCED, log entry 51] -/
def State.sweepPass (s : State) (u : SweepUnit) : State :=
  match u with
  | .slice die ls =>
    let mine := fun (k : Nat) => recSlice k == die * 64 + ls
    { s with
      wms := mapTbl 0#64 (fun k x => if mine k then s.sweepWm x else x) s.wms
      recs := s.recs.map fun e => (e.1, if mine e.1 then s.sweepRec e.2 else e.2) }
  | .rdc die bank =>
    s.updDie die fun d =>
      { d with rdc := d.rdc.map fun e => (e.1, if homeLs (e.1 * 128) % 16 == bank then
          { e.2 with subs := e.2.subs.map fun x => (x.1, s.sweepWm x.2.1, x.2.2) } else e.2) }
  | .l1 core =>
    let s1 := s.updCore core fun c => { c with l1 := c.l1.map fun e => (e.1, { e.2 with wm := e.2.wm.map s.sweepWm }) }
    let clean := fun (g : Group) =>
      { g with chk := { g.chk with table := g.chk.table.filter s.entLive, pendRec := g.chk.pendRec.map s.sweepRec } }
    let old := fun (t : Tent) => { t with before := clean t.before }
    { s1 with
      groups := s1.groups.map fun e => (e.1, if coreOf e.1 == core then clean e.2 else e.2)
      tents := s1.tents.map fun e => (e.1, if coreOf e.1 == core then e.2.map old else e.2) }
  | .localStore core => s.updCore core fun c => { c with lswm := mapTbl 0#16 (fun _ x => s.sweepLs core x) c.lswm }

/-- WATERMARK_SWEEP: a pass completes. -/
def execWatermarkSweep (u : SweepUnit) (s : State) : Out :=
  .next (
    let s1 := s.sweepPass u
    { s1 with fresh := s1.fresh + 1, passes := Tbl.put s1.passes (sweepKey u) (s1.fresh + 1) })

/-- INCARNATION_ADVANCE: a due advance that the passes permit. -/
def execIncarnationAdvance (gs : Nat) (s : State) : Out :=
  .next (if (s.dirOf gs).want.isSome && s.mayAdvance gs then s.advance gs else s)

end Sys2Proof.Machine
end

