-- ==== Sys2Proof/Machine/Save.lean ====
section
/-! DEFINITION. Pre-emption, forced saves and halts: what stops, what is brought to rest, what is captured, the image that is
written (04, R121, R124; 05, R144; 06, R164, R168, R169; 10, R266; 13, R337; 15, R368 to R374, R377, R441). -/

namespace Sys2Proof.Machine

/-! ### The workgroups of a context -/

/-- The spaces of a partition whose contexts run or are being saved. -/
def State.liveSpaces (s : State) (part : Nat) : List Nat :=
  (s.spaces.filter (fun p => p.2.inUse && p.2.part == part && (p.2.st == .running || p.2.st == .preempting))).map (·.1)

/-- A workgroup's context. -/
def State.wgSpid (s : State) (w : Workgroup) : Nat := ((Tbl.find s.grids w.grid).map (·.spid)).getD 0

/-- The place of a workgroup in the order of images: hand-over, then index (15, R372). -/
def State.wgOrder (s : State) (w : Workgroup) : Nat := ((Tbl.find s.grids w.grid).map (·.hand)).getD 0 * 2 ^ 64 + w.wgidx

/-- The resident workgroups of a context in that order. -/
def State.residents (s : State) (spid : Nat) : Tbl Workgroup :=
  sortBy (fun w => s.wgOrder w.2) (s.wgs.filter (fun w => w.2.resident && s.wgSpid w.2 == spid))

/-- The cores of a partition. -/
def State.partCores (s : State) (part : Nat) : List Nat :=
  (((Tbl.find s.parts part).map (·.clusters)).getD []).flatMap clusterCores

/-! ### Bringing engines to rest -/

/-- Every open transaction of a group aborts with the pre-emption code, but for the lanes of a TXE under way (05, R144). -/
def Group.txStop (g : Group) : Group :=
  g.txAbort ((g.tx.filter (fun t => decide (0 < t.2.depth) && !t.2.doomed && !((g.txe.map fun r => inMask r.lanes t.1).getD false))).map (·.1))
    6 0 false

/-- The collectives of some groups that have not completed are aborted as by CABORT (14, R352). -/
def State.abortOf (s : State) (f : CollPart → Bool) : State :=
  (s.colls.filter (fun c => c.2.code == 0 && c.2.joined.any (fun p => !p.fin && f p))).foldl
    (fun s c => s.abortColls c.2.comm c.2.att) s

/-- The walker routines and queued misses of a partition are abandoned: their groups go back to the missing word (15, Table
2). First-touch handlers are abandoned with them. [DEDUCED, log entry 102] -/
def State.stopWalks (s : State) (spids : List Nat) : State :=
  let ours := fun (g : Group) => spids.contains (s.spidOf g)
  let lbs := s.lbs.filter (fun b => (b.2.walk.map fun r => spids.contains r.miss.spid).getD false)
  let s1 := lbs.foldl (fun s b => s.endWalk b.1 0) s
  let calm := fun (p : PcSlot) => { p with missing := false, walked := [] }
  let group := fun (x : Nat × Group) =>
    (x.1, if ours x.2 then
      let g := (x.2.ft.map fun r => x.2.endHandler r).getD x.2
      { g with slotA := g.slotA.map calm, slotB := g.slotB.map calm }
    else x.2)
  let lb := fun (b : Nat × LaneBlock) =>
    (b.1, { b.2 with misses := b.2.misses.filter (fun m => !spids.contains m.spid)
                     engWalks := b.2.engWalks.filter (fun e => !spids.contains e.1) })
  { s1 with groups := s1.groups.map group, lbs := s1.lbs.map lb }

/-- Every operation of some workgroups in the matrix engines is abandoned: those that have started leave their targets
undefined; the batches that hold them are faulted with the halt's cause (13, R337; 15, R375). -/
def State.abandonMat (s : State) (cause : Byte) (f : Nat → Bool) : State :=
  let ops := s.cores.foldl (fun (l : List MatOp) c =>
    l ++ c.2.eng.filter (fun o => f o.wg && !l.any (fun x => x.id == o.id))) []
  let s1 := ops.foldl (fun s o =>
    let s1 := (if o.out.isSome then s.smearMat o else s).leaveMat o
    o.mems.foldl (fun s gs => s.opDone gs .mx o.id fun r => { r with fault := some ⟨cause, 0#8, 0#64⟩, fail := o.bits }) s1) s
  { s1 with quads := s1.quads.filter (fun q => !q.parts.any (fun p => f p.wg)) }

/-! ### Capturing a workgroup (15, R374, R379) -/

/-- Where a slot stands when its group is saved: nothing is fetched ahead, no miss waits; a word that waits for its team, or
whose barrier or engine has not taken it, is issued again. -/
def PcSlot.saved (p : PcSlot) (atBarrier : Bool) : PcSlot :=
  { p with fetched := none, missing := false, walked := []
           phase := match p.phase with
             | .arrived => if atBarrier then .arrived else .idle
             | .saving _ _ => .idle
             | x => x }

/-- A group as it is saved. -/
def Group.saved (g : Group) : Group :=
  let slot := fun (p : PcSlot) => p.saved g.arrival.isSome
  { g with slotA := g.slotA.map slot, slotB := g.slotB.map slot, pend := [], parkA := none, parkB := none, swPark := false
           eligible := none, promoted := false, txe := none }

/-- The groups of a workgroup by index. -/
def State.wgGroups (s : State) (wid : Nat) (w : Workgroup) : Tbl Group :=
  w.slots.filterMap fun x => (Tbl.find s.groups x.2).bind fun g => if g.wg = wid then some (x.1, g) else none

/-- A workgroup leaves its core: what it holds is captured. -/
def State.capture_ (s : State) (wid : Nat) (w : Workgroup) : SavedWg × State :=
  let c := s.core w.core
  let s0 := w.slots.foldl (fun s x => s.settleQuiet x.2) s
  let groups := (s0.wgGroups wid w).map fun x => (x.1, x.2.saved)
  let array := c.holder == some wid || c.lent == some wid
  let badLs := s.lsBad w.core w.lsBase w.lsSize
  let tile := c.badTiles.foldl (fun t i => Tbl.del t i) c.tiles
  let v : SavedWg :=
    { wg := wid, groups
      ls := (List.range w.lsSize).map fun i => if c.bad.contains ((w.lsBase + i) / 4) then 0#8 else s.lsByte w.core (w.lsBase + i)
      array, tiles := if array then tile else [], zmaps := if array then c.zmaps else []
      subs := c.subs.filter (fun e => e.2.wg == wid), pubs := c.pubs.filter (fun e => e.2.wg == wid)
      copies := c.cpq.filter (fun o => o.wg == wid), bad := if badLs || (array && !c.badTiles.isEmpty) then 4 else 0 }
  let free := fun (o : Option Nat) => if o = some wid then none else o
  let s1 := c.owned.foldl (fun s l => s.disown w.core l) s0
  let s2 := s1.updCore w.core fun c =>
    { c with holder := free c.holder, lent := free c.lent, cpq := c.cpq.filter (fun o => o.wg != wid)
             subs := c.subs.filter (fun e => e.2.wg != wid), pubs := c.pubs.filter (fun e => e.2.wg != wid)
             bad := c.bad.filter (fun i => !(decide (w.lsBase ≤ 4 * i) && decide (4 * i < w.lsBase + w.lsSize)))
             badTiles := if array then [] else c.badTiles }
  let gone := w.slots.filter (fun x => groups.any (fun g => g.1 == x.1))
  let s3 := gone.foldl (fun s x => { s with groups := Tbl.del s.groups x.2, tents := Tbl.del s.tents x.2 }) s2
  let s4 := (s3.reqs.filter (fun e => v.copies.any (fun o => e.2.tag == some o.id))).foldl (fun s e => s.dropReq e.1) s3
  -- a part of a quad operation arrives again after the restore (13, R327)
  let quads := (s4.quads.map fun a => { a with parts := a.parts.filter (fun p => p.wg != wid) }).filter (fun a => !a.parts.isEmpty)
  (v, { s4 with quads }.updWg wid fun w => { w with resident := false, savedG := 0#32, teams := [] })

/-- It joins its context's saved workgroups. -/
def State.saveWg (s : State) (wid : Nat) : State :=
  match Tbl.find s.wgs wid with
  | none => s
  | some w =>
    let x := s.capture_ wid w
    let spid := s.wgSpid w
    let order := fun (v : SavedWg) => ((Tbl.find s.wgs v.wg).map s.wgOrder).getD 0
    x.2.updSpace spid fun p => { p with saved := sortBy order (p.saved ++ [x.1]) }

/-! ### Finishing a save (15, R372, R374, R377) -/

/-- The stop records of the saved groups of a context. [DEDUCED, log entry 111] -/
def State.savedStops (s : State) (spid skid : Nat) : List StopRec :=
  (s.space spid).saved.flatMap fun v =>
    let slots := ((Tbl.find s.wgs v.wg).map (·.slots)).getD []
    v.groups.map fun g => s.groupStop ((Tbl.find slots g.1).getD 0) g.2 skid

/-- The context area's bytes for images (15, R372). -/
def Space.limit (p : Space) : Nat := p.size - p.spn * 2 ^ 19

/-- The skid of a partition's halt. -/
def State.skidOf (s : State) (part : Nat) : Nat := ((Tbl.find s.parts part).bind fun p => p.halt.map (·.skid)).getD 0

/-- The stop record of the engine, other than a group, that halted a context. [DEDUCED, log entry 73] -/
def engineStop (skid : Nat) (c : HaltCause) : StopRec :=
  { key := 0, cause := c.cause.toNat, det := c.det.toNat, eng := c.eng, unit := c.unit, skid
    flags := if noRestart c.cause.toNat then 0 else 2, addr := c.addr, info := c.info }

/-- The stop record of an engine that only stopped. -/
def EngStop.record (skid : Nat) (e : EngStop) : StopRec :=
  { key := 0, cause := 0, det := 0, eng := e.eng, unit := e.unit, skid, flags := e.flags, ext := e.ext }

/-- The image of a context's saved workgroups, as a save or a dump. -/
def State.imageReq (s : State) (spid : Nat) (dump : Bool) : ImageReq :=
  let p := s.space spid
  let h := (Tbl.find s.parts p.part).bind (·.halt)
  let skid := s.skidOf p.part
  let engs := if dump then ((h.map (·.engs)).getD []).filter (fun e => e.spid == spid) else []
  let cause := if dump then (h.bind fun h => h.causes.find? (fun c => c.spid == spid)) else none
  let own := ((cause.filter (fun c => c.eng != 0)).map (engineStop skid)).toList
  let others := engs.filter (fun e => !(cause.any (fun c => c.eng == e.eng && c.unit == e.unit)))
  { spid, dump, base := p.area, limit := p.limit, halting := cause
    stops := s.savedStops spid skid ++ own ++ others.map (EngStop.record skid)
    saved := p.saved, nested := ((h.map (·.nested)).getD []).filter (fun n => n.spid == spid) }

/-- A packet has completed. -/
def State.finishPk (s : State) (pk : Nat) : State := s.updPk pk fun p => { p with st := .finished }

/-- The context is at rest: it has no resident workgroup. -/
def State.atRest (s : State) (spid : Nat) : Bool :=
  (s.space spid).st == .preempting && (s.residents spid).isEmpty

/-- What an interval begins with (17, R396, R403). -/
def State.beginBase (s : State) (spid : Nat) : State :=
  let grids := s.grids.filter (fun g => g.2.spid == spid)
  let wgs := s.wgs.filter (fun w => s.wgSpid w.2 == spid)
  let zero := fun (v : SavedWg) => { v with groups := v.groups.map fun g => (g.1, { g.2 with rwc := 0#32, rrwc := 0#32, subSeen := [] }) }
  s.updSpace spid fun p => { p with
    saved := p.saved.map zero
    begun := some { saved := p.saved.map zero, grids, wgs, gangs := s.gangs.filter (fun g => grids.any (fun x => x.1 == g.2.grid)) } }

/-- The base image is written (17, R395, R396); one that does not fit whole leaves the interval not replayable. -/
def State.writeBase (s : State) (spid : Nat) : State :=
  let p := s.space spid
  if !p.rcd.on then s
  else
    let at_ := p.rcd.baseAt
    let q := { s.imageReq spid false with base := at_, limit := p.rcd.base + p.rcd.size - at_ }
    let r := s.writeImage q
    let s1 := (r.2.updSpace spid fun p => { p with saved := r.1 }).beginBase spid
    if r.1.any (fun v => v.bad != 0) then s1.notReplayable spid else s1

/-- A save is complete: its image is written, the context is SAVED; a checkpoint begins its interval and the context goes on
(15, R373, R377; 17, R396). -/
def State.finishSave (s : State) (spid : Nat) : State :=
  if !s.atRest spid then s
  else
    let p := s.space spid
    let save := fun (s : State) =>
      let r := s.writeImage (s.imageReq spid false)
      r.2.updSpace spid fun p => { p with st := .saved, saving := .none, saved := r.1, image := p.area
                                          restart := r.1.all (fun v => v.bad == 0) }
    match p.saving with
    | .preempt pk => (save s).finishPk pk
    | .byHalt | .none => save s
    | .refused pk det =>
      (match Tbl.find s.packets pk with
       | some q => ((save s).dropPk pk).haltQueue q.queue 6 det q.idx
       | none => save s)
    | .ckpt _ number start =>
      let s1 := (s.updSpace spid fun p => { p with st := .running, saving := .none, image := 0 }).beginInterval spid start number []
      s1.writeBase spid

/-! ### Groups come to rest (10, R266; 15, R373, R374) -/

/-- A copy's next source bytes are those of a member that is not resident (06, R153). -/
def State.copyStalls (s : State) (o : CopyOp) : Bool := match o.next with
  | some (so, _, _) => s.engTrans (s.agentOf o.gs o.wg o.sup o.pc o.id) .load o.ext (o.src.toNat + so) == .member
  | none => false
/-- Copies of a group that only wait for members that are not resident, and those behind one that reads from such a member: they run
again after the restore (06, R153). -/
def State.stuckCopies (s : State) (gs : Nat) : List Nat :=
  let q := (s.core (coreOf gs)).cpq
  let waits := q.filter (fun o => o.next.isNone && o.tgts.any (fun t => t.fault.isNone && !t.wait.isEmpty))
  let behind := if ((q.find? (fun o => o.next.isSome)).map s.copyStalls).getD false then q.filter (fun o => o.next.isSome) else []
  ((waits ++ behind).filter (fun o => o.gs == gs)).map (·.id)

/-- The local-store addresses that a matrix operation names, with the group and workgroup that name them. -/
def MatOp.names (op : MatOp) : List (Nat × Nat × W64) := match op.kind with
  | .mma _ da db _ _ sa sb _ _ _ _ => [da, db, sa, sb].map fun x => (op.gs, op.wg, x)
  | .quad parts => parts.flatMap fun q => [q.da, q.db, q.sa, q.sb].map fun x => (q.gs, q.wg, x)
  | .load _ d | .store _ d | .chk _ _ d _ _ => [(op.gs, op.wg, d)]
  | .epi _ d _ bias _ => [(op.gs, op.wg, d), (op.gs, op.wg, bias)]
  | .zero _ => []
/-- A queued matrix operation names a workgroup's local store: the workgroup stays until the operation is over, so that a fetch of its
operands never stalls (06, R153). [DESIGN CHOICE, log entry 141] -/
def State.matNeeds (s : State) (wid core : Nat) : Bool :=
  (clusterCores (clusterOf core)).any fun c => (s.core c).eng.any fun op => op.names.any fun x =>
    match s.engLocal (s.agentOf x.1 x.2.1 false op.pc op.id) (bits x.2.2 23 20) (bits x.2.2 19 0) with
    | .ok (.ls _ _ id) _ => id == wid
    | _ => false

/-- Operations of a class still run, but for some. -/
def ClsState.busyBut (c : ClsState) (ids : List Nat) : Bool :=
  let runs := fun (o : OpRec) => !o.fin && !ids.contains o.id
  c.opened.any runs || c.closed.any (fun b => b.ops.any runs)

/-- A slot's word has been taken by its engine or agent and only has to retire. -/
def PcSlot.ends (p : PcSlot) : Bool := match p.phase with
  | .answered _ | .commit => true
  | _ => false

/-- Every outstanding operation of a group has completed. -/
def State.groupRest (s : State) (gs : Nat) (g : Group) : Bool :=
  let ids := s.stuckCopies gs
  let quiet := fun (o : Option PcSlot) => ((o.map fun p => !p.missing && !p.ends).getD true)
  ((Tbl.find s.tents gs).getD []).isEmpty && (s.reqsOf gs).isEmpty && !s.draining gs && g.txe.isNone && g.ft.isNone &&
    (Tbl.find s.tokens gs).isNone && quiet g.slotA && quiet g.slotB &&
    !(g.cp.busyBut ids || g.mx.busyBut ids || g.gc.busyBut ids || g.cl.busyBut ids) &&
    !((s.core (coreOf gs)).eng.any (fun o => o.gs == gs)) && !s.reqs.any (fun e => ids.any (fun i => e.2.tag == some i) && !e.2.isAnswered)

/-- The slot whose YIELD waits for the save. -/
def Group.yields (g : Group) : Option (Bool × PcSlot × Option Nat × Option (Nat × Nat)) :=
  let at_ := fun (b : Bool) (o : Option PcSlot) => o.bind fun p => match p.phase with
    | .saving d r => some (b, p, d, r)
    | _ => none
  (at_ false g.slotA).orElse fun _ => at_ true g.slotB

/-- V registers outside a range are undefined after the restore. -/
def loseRegs (free : Nat) (g : Group) (r : Option (Nat × Nat)) : Group :=
  let kept := fun (n : Nat) => match r with
    | some (a, b) => decide (a ≤ n) && decide (n ≤ b)
    | none => false
  { g with v := (List.range g.n).foldl (fun t n =>
      if kept n then t
      else lanes32.foldl (fun t L => Tbl.set 0#32 t (n * 32 + L) ((Config.freeWord (free + n * 32 + L)).setWidth 32)) t) g.v }

/-- A group is saved: a YIELD has performed with status 1 and counts. -/
def State.markSaved (s : State) (gs : Nat) (g : Group) : State :=
  let flag := fun (s : State) => s.updWg g.wg fun w => { w with savedG := w.savedG ||| maskOf (· == g.gidx) }
  match g.yields with
  | none => flag s
  | some (b, p, d, r) =>
    let g1 := loseRegs s.free g r
    let g2 := (d.map fun n => g1.write (.s n 1#64)).getD g1
    let g3 := { g2.setSlot b (some { p with pc := p.pc + 8#64, phase := .idle, fetched := none, missing := false, walked := [] }) with
      nissue := g.nissue + 1, lastB := b, rwc := g.rwc + 1#32 }
    let g4 := if s.service g then g3.setPoint (p.pc + 8#64) else g3
    flag { s with groups := Tbl.put s.groups gs g4, free := s.free + 32 * g.n }

/-- The lowest spill logs of a context that no subscription holds (15, R372). -/
def State.spillFree (s : State) (spid : Nat) : List Nat :=
  let p := s.space spid
  let logs := (List.range p.spn).map fun i => p.area + p.limit + i * 2 ^ 19
  let holds := fun (e : SubEnt) => e.spill != 0 && (e.st == .detaching || e.st == .spilled || e.st == .replay)
  let used := (s.cores.flatMap fun c => (c.2.subs.filter (fun e => holds e.2)).map (·.2.spill)) ++
    (p.saved.flatMap fun v => (v.subs.filter (fun e => holds e.2)).map (·.2.spill))
  logs.filter (fun a => !used.contains a)

/-- The Felts of a workgroup that is to be saved: its subscriptions detach, each with the lowest free log, or broken at once
where there is none; the buffer gives up what covers its publications (06, R164, R168; 15, R372). -/
def State.restFelts (s : State) (wid : Nat) (w : Workgroup) : State :=
  let spid := s.wgSpid w
  let subs := (s.core w.core).subs.filter (fun e => e.2.wg == wid && (e.2.st == .snap || e.2.st == .active))
  let logs := s.spillFree spid
  let pairs := subs.zip ((List.range subs.length).map fun i => logs[i]?)
  let s1 := pairs.foldl (fun s x =>
    let s1 := s.updSub w.core x.1.1 fun e => { e with st := .detaching, msg := msgDetach, spill := x.2.getD 0 }
    match x.2, s.pubOf w.core x.1.1 x.1.2 with
    | none, some (p, _) => s1.updPub (s1.pubCore w.core x.1.2) p fun y => { y with st := .broken }
    | _, _ => s1) s
  let s2 := ((s1.core w.core).subs.filter (fun e => e.2.wg == wid && e.2.st == .replay && e.2.msg == msgAttach)).foldl
    (fun s e => s.updSub w.core e.1 fun e => { e with st := .spilled, msg := 0 }) s1
  let mine := (s2.core w.core).pubs.filter (fun p => p.2.wg == wid)
  s2.updCore w.core fun c =>
    { c with felt := c.felt.map fun f => if mine.any (fun p => s2.pubCovers p.2 f.seg) then { f with due := true } else f }

/-- The Felts are at rest for a workgroup. -/
def State.feltsRest (s : State) (wid : Nat) (w : Workgroup) : Bool :=
  let c := s.core w.core
  let pubs := c.pubs.filter (fun p => p.2.wg == wid)
  (c.subs.filter (fun e => e.2.wg == wid)).all (fun e =>
    (e.2.st == .spilled || e.2.st == .broken || e.2.st == .detached) &&
      !s.upds.any (fun u => u.dst == w.core && u.handle == e.1 && u.log.isNone)) &&
    !c.felt.any (fun f => pubs.any (fun p => s.pubCovers p.2 f.seg)) &&
    pubs.all (fun p => p.2.st != .held && !s.upds.any (fun u => u.src == w.core && u.handle == p.2.shdl && u.swg == p.2.swg))

/-- A workgroup all of whose groups are saved: its Felts come to rest, then it leaves its core; the last one completes the
save. -/
def State.tryWg (s : State) (wid : Nat) : State :=
  match Tbl.find s.wgs wid with
  | none => s
  | some w =>
    if !w.resident || firstLanes w.ngrp &&& ~~~(w.exited ||| w.savedG) != 0#32 then s
    else if s.matNeeds wid w.core then s
    else if s.feltsRest wid w then (s.saveWg wid).finishSave (s.wgSpid w)
    else s.restFelts wid w

/-- GROUP_SAVE: a group that has executed YIELD with status 1, or whose save is forced, is saved once its outstanding
operations have completed and its collectives are aborted. -/
def execGroupSave (gs : Nat) (s : State) : Out :=
  .next (match Tbl.find s.groups gs with
  | none => s
  | some g =>
    if isWalker gs || (s.space (s.spidOf g)).st != .preempting then s
    else if ((Tbl.find s.wgs g.wg).map fun w => inMask w.savedG g.gidx).getD false then s.tryWg g.wg
    else if g.stop.isSome || (g.yields.isNone && !g.forced) || (g.retiring && !g.forced) then s
    else
      let s1 := s.abortOf (fun p => p.gs == gs)
      if s1.colls.any (fun c => c.2.joined.any (fun p => p.gs == gs && !p.fin)) then s1
      else if !s1.groupRest gs g then s1.startDrain gs true
      else (s1.markSaved gs g).tryWg g.wg)

/-! ### PRE_EMPT_CONTEXT and the countdown (15, R372, R373) -/

/-- The image that a save of a context would need. -/
def State.needed (s : State) (spid : Nat) : Nat :=
  let x := (s.residents spid).foldl (fun (r : List SavedWg) w => r ++ [(s.capture_ w.1 w.2).1]) []
  let stops := x.flatMap fun v => v.groups.map fun _ => ({ key := 0, cause := 0, det := 0, eng := 0, unit := 0, skid := 0, flags := 2 } : StopRec)
  s.imageSize { s.imageReq spid false with stops, saved := x }

/-- A save of a context begins: no packet of it starts, nothing of it is placed. `forced` groups stop at once. -/
def State.beginSave (s : State) (spid : Nat) (why : Saving) (forced : Bool) : State :=
  let group := fun (x : Nat × Group) =>
    (x.1, if s.spidOf x.2 == spid && x.1 % 16 != 15 then
      let g := x.2.txStop
      { g with preq := g.preq || !forced, forced := g.forced || forced }
    else x.2)
  let grid := fun (x : Nat × Grid) =>
    (x.1, if x.2.spid == spid then { x.2 with waits := false, deadline := some (s.clock + 2 ^ bits (x.2.word 0x18) 25 20) } else x.2)
  { s with groups := s.groups.map group, grids := s.grids.map grid }.updSpace spid fun p => { p with st := .preempting, saving := why }

/-- A checkpoint of the context is being taken. -/
def Space.checkpoints (p : Space) : Bool := match p.saving with
  | .ckpt _ _ _ => p.st == .preempting
  | _ => false

/-- PRE_EMPT_CONTEXT: a context that runs and whose save fits; a checkpoint or a restore under way is waited for.
[DEDUCED, log entry 76] -/
def execPreEmptContext (pk : Nat) (s : State) : Out :=
  .next ((s.manage pk 0x0B fun p c s =>
    let spid := (p.op 0x10).toNat
    let x := s.space spid
    if s.holdsSpace c.part spid && (x.checkpoints || (x.st == .running && !x.saved.isEmpty)) then .parks s
    else if !s.holdsSpace c.part spid || x.st != .running || decide (x.limit < s.needed spid) then .halts 5 0 s
    else .go (s.beginSave spid (.preempt pk) false)).goOn pk 0x0B fun p _ s =>
      let s1 := s.finishSave (p.op 0x10).toNat
      if (s1.space (p.op 0x10).toNat).st = .preempting then .go s1 else .done s1)

/-- PREEMPTION_DEADLINE: the groups of a grid that are not saved take a forced save. -/
def execPreemptionDeadline (grid : Nat) (s : State) : Out :=
  .next (match Tbl.find s.grids grid with
  | none => s
  | some g =>
    if (s.space g.spid).st != .preempting || !((g.deadline.map fun t => decide (t ≤ s.clock)).getD false) then s
    else
      let group := fun (x : Nat × Group) =>
        (x.1, if x.1 % 16 != 15 && ((Tbl.find s.wgs x.2.wg).map fun w => w.grid == grid).getD false then { x.2.txStop with forced := true }
          else x.2)
      { s with groups := s.groups.map group }.updGrid grid fun g => { g with deadline := none })

/-! ### The halt (15, R368 to R371) -/

/-- The records of engines, other than groups, that serve a context that halts, as they stand when they stop (15, R371).
[DEDUCED, log entry 73; DEDUCED, log entry 111] -/
def State.engStops (s : State) (part spid : Nat) : List EngStop :=
  let mine := fun (wg : Nat) => ((Tbl.find s.wgs wg).map fun w => s.wgSpid w == spid).getD false
  let per := (s.partCores part).flatMap fun n =>
    let c := s.core n
    let mats := c.eng.filter (fun o => mine o.wg)
    let batch := fun (o : MatOp) => (Tbl.find s.groups o.gs).bind fun g =>
      (g.mx.closed.find? (fun b => b.ops.any (fun r => r.id == o.id))).map fun b => b.num.toNat
    let tile := fun (o : MatOp) => ((o.targets.1.head?.bind fun t => t.2.head?).map fun i => i / 2048).getD 0
    (if c.cpq.any (fun o => mine o.wg) then [{ spid, eng := 1, unit := n, flags := 0x22 : EngStop }] else []) ++
    (if mats.isEmpty then [] else [{ spid, eng := 2, unit := n, flags := 0x22
                                     ext := (mats.take 8).flatMap fun o => [o.pc, BitVec.ofNat 64 (fld 32 32 ((batch o).getD 0) + fld 4 0 (tile o))] }]) ++
    (if c.subs.any (fun e => mine e.2.wg) || c.pubs.any (fun e => mine e.2.wg) then [{ spid, eng := 3, unit := n, flags := 2 }] else []) ++
    ((List.range 4).flatMap fun i =>
      if (((s.lb (n * 4 + i)).walk.map fun r => r.miss.spid == spid).getD false) then [{ spid, eng := 6, unit := n, flags := 2 }] else [])
  let dies := fun (f : Nat → Bool) => (List.range 4).filter f
  let lanes := dies fun d => s.packets.any (fun p => !p.2.safe && (p.2.st == .taken || p.2.st == .started) &&
    ((Tbl.find s.queues p.2.queue).map fun c => c.spid == spid && !c.mgmt && c.die == d).getD false)
  let colls := dies fun d => s.colls.any (fun c => c.2.joined.any (fun p => !p.fin && mine p.wg && dieOf (coreOf p.gs) == d))
  per ++ (lanes.map fun d => { spid, eng := 4, unit := 768 + d, flags := 2 }) ++
    (colls.map fun d => { spid, eng := 5, unit := 768 + d, flags := 2 })

/-- What a save comes from once its partition halts: a checkpoint is a save by the halt. [DEDUCED, log entry 76] -/
def Saving.halted : Saving → Saving
  | .none | .ckpt _ _ _ => .byHalt
  | x => x

/-- HALT_LINE: within the skid every engine of the partition stops (15, Table 2). The other contexts of the partition take
a forced save (R370). -/
def execHaltLine (part : Nat) (s : State) : Out :=
  .next (match (Tbl.find s.parts part).bind (·.halt) with
  | none => s
  | some h =>
    if h.stopped then s
    else
      let spids := s.liveSpaces part
      let mine := spids.filter (fun k => h.causes.any (fun c => c.spid == k))
      let hit := fun (wg : Nat) => ((Tbl.find s.wgs wg).map fun w => mine.contains (s.wgSpid w)).getD false
      let engs := mine.flatMap (s.engStops part)
      let s1 := s.updPart part fun p => { p with halt := some { h with skid := min 128 (s.clock - h.since), engs } }
      let s2 := s1.stopWalks spids
      let s3 := mine.foldl (fun s k =>
        let cause := ((h.causes.find? (fun c => c.spid == k)).map (·.cause)).getD 0#8
        s.abandonMat cause fun wg => ((Tbl.find s.wgs wg).map fun w => s.wgSpid w == k).getD false) s2
      let s4 := ((s.partCores part).foldl State.feltDiscard s3).abortOf (fun p => hit p.wg)
      let s5 := (s4.groups.filter (fun x => x.1 % 16 != 15 && hit x.2.wg)).foldl (fun s x => s.txUndo x.1) s4
      let s6 := (spids.filter (fun k => !mine.contains k)).foldl (fun s k =>
        s.beginSave k (s.space k).saving.halted true) s5
      s6.updPart part fun p => { p with halt := p.halt.map fun h => { h with stopped := true } })

/-- Nothing of a context is on its way: results, replies, commits, updates, collectives. -/
def State.drained (s : State) (spid : Nat) : Bool :=
  let mine := fun (wg : Nat) => ((Tbl.find s.wgs wg).map fun w => s.wgSpid w == spid).getD false
  let ends := fun (o : Option PcSlot) => (o.map PcSlot.ends).getD false
  !(s.groups.any (fun g => g.1 % 16 != 15 && mine g.2.wg &&
      (!((Tbl.find s.tents g.1).getD []).isEmpty || g.2.txe.isSome || (Tbl.find s.tokens g.1).isSome || ends g.2.slotA || ends g.2.slotB))) &&
    !s.reqs.any (fun e => mine e.2.wg || e.2.gs == noGroup && e.2.spid == spid && decide (e.2.core < 772) && !e.2.isAnswered) && !s.colls.any (fun c => c.2.joined.any (fun p => !p.fin && mine p.wg)) &&
    !s.upds.any (fun u => ((Tbl.find (s.core u.dst).subs u.handle).map fun e => mine e.wg).getD false)

/-- The dump of a context: its workgroups are captured, its records and image written, the context is HALTED (15, R371,
R377, R378, R380). -/
def State.dump (s : State) (spid : Nat) : State :=
  let s0 := (s.partCores (s.space spid).part).foldl State.feltDiscard s
  let s1 := (s0.residents spid).foldl (fun s w => s.saveWg w.1) s0
  let q := s1.imageReq spid true
  let r := s1.writeImage q
  let restart := q.stops.all (fun x => x.flags / 2 % 2 == 1) && r.1.all (fun v => v.bad == 0)
  let s2 := r.2.updSpace spid fun p => { p with st := .halted, saved := r.1, image := p.area, restart, saving := .none }
  match (s.space spid).saving with
  | .preempt pk | .refused pk _ => s2.finishPk pk
  | _ => s2

/-- HALT_DRAIN_COMPLETE: once the core ports' drain has ended, and the other contexts are saved, the halted contexts write
their records and dumps; the halt is over. -/
def execHaltDrainComplete (part : Nat) (s : State) : Out :=
  .next (match (Tbl.find s.parts part).bind (·.halt) with
  | none => s
  | some h =>
    if !h.stopped then s
    else
      let spids := s.liveSpaces part
      let mine := spids.filter (fun k => h.causes.any (fun c => c.spid == k))
      let s1 := (spids.filter (fun k => !mine.contains k)).foldl (fun s k => s.finishSave k) s
      if (s1.liveSpaces part).any (fun k => !mine.contains k) || !(mine.all s1.drained) then s1
      else (mine.foldl State.dump s1).updPart part fun p => { p with halt := none })

end Sys2Proof.Machine
end

