-- ==== Sys2Proof/Machine/Resume.lean ====
section
/-! DEFINITION. Resuming a context, restoring its workgroups, the Deckle's placements, checkpoints (04, R120, R121; 06, R155,
R166, R168; 08, R211 to R214; 15, R375, R376, R377, R380; 17, R396, R403; 21, R436). -/

namespace Sys2Proof.Machine

/-! ### Where a saved workgroup fits -/

/-- The Felt's tables and the array of a core have room for a saved workgroup beside others that are restored with it. -/
def tablesFit (c : Core) (others : List SavedWg) (v : SavedWg) : Bool :=
  !v.subs.any (fun e => (Tbl.find c.subs e.1).isSome || others.any (fun o => (Tbl.find o.subs e.1).isSome)) &&
    decide (c.pubs.length + (others.map (·.pubs.length)).sum + v.pubs.length ≤ 16) &&
    (!v.array || (c.holder.isNone && c.lent.isNone && !others.any (·.array)))

/-- A saved workgroup with the place it takes. -/
abbrev Put_ := SavedWg × Place

/-- It fits a core, as far as that core's tables go. -/
def fitsCore (cores : Nat → Core) (done : List Put_) (c : Nat) (v : SavedWg) : Bool :=
  tablesFit (cores c) ((done.filter (fun x => x.2.core == c)).map (·.1)) v

/-- One saved workgroup on the core of highest weight that it fits. -/
def placeSaved (cores : Nat → Core) (g : Grid) (done : List Put_) (vs : List CoreView) (v : SavedWg) :
    Option (List Put_ × List CoreView) :=
  ((byWeight vs).filter (fun c => fitsCore cores done c.core v)).findSome? fun c =>
    (c.placeK g v.groups.length).map fun r => (done ++ [(v, ⟨c.core, r.1.1, r.1.2⟩)], putView vs r.2)

/-- Two partners on the pair of cores of highest weight that they fit (08, R213). -/
def placePartners (cores : Nat → Core) (g : Grid) (done : List Put_) (vs : List CoreView) (v u : SavedWg) :
    Option (List Put_ × List CoreView) :=
  let pairs := (vs.filter (fun c => c.core % 2 == 0 && fitsCore cores done c.core v)).filterMap fun c =>
    (vs.find? (fun d => d.core == c.core + 1 && fitsCore cores done d.core u)).map fun d => (c, d)
  (sortBy (fun (p : CoreView × CoreView) => (6000 - (p.1.weight + p.2.weight)) * 1024 + p.1.core) pairs).findSome? fun p =>
    (p.1.placeK g v.groups.length).bind fun a => (p.2.placeK g u.groups.length).map fun b =>
      (done ++ [(v, ⟨p.1.core, a.1.1, a.1.2⟩), (u, ⟨p.2.core, b.1.1, b.1.2⟩)], putView (putView vs a.2) b.2)

/-- Workgroups restored together, in order; `mate` says which two are partners. -/
def placeAll (cores : Nat → Core) (g : Grid) (mate : SavedWg → SavedWg → Bool) (done : List Put_) (vs : List CoreView) :
    List SavedWg → Option (List Put_ × List CoreView)
  | [] => some (done, vs)
  | [v] => placeSaved cores g done vs v
  | v :: u :: t =>
    if mate v u then (placePartners cores g done vs v u).bind fun r => placeAll cores g mate r.1 r.2 t
    else (placeSaved cores g done vs v).bind fun r => placeAll cores g mate r.1 r.2 (u :: t)

/-- Clusters in the order of their best cores. -/
def clustersOf (vs : List CoreView) : List Nat := ((byWeight vs).map fun v => clusterOf v.core).eraseDups

/-- A gang's workgroups on the first cluster of a list that takes them all. -/
def placeOn (cores : Nat → Core) (g : Grid) (mate : SavedWg → SavedWg → Bool) (done : List Put_) (vs : List CoreView)
    (l : List SavedWg) (ks : List Nat) : Option (List Put_ × List CoreView) :=
  ks.findSome? fun k =>
    (placeAll cores g mate done (vs.filter (fun v => clusterOf v.core == k)) l).map fun r => (r.1, r.2.foldl putView vs)

/-- Units restored one after another: gangs on one cluster each, single workgroups and pairs anywhere. -/
def placeUnits (cores : Nat → Core) (g : Grid) (mate : SavedWg → SavedWg → Bool) (done : List Put_) (vs : List CoreView) :
    List (List SavedWg) → Option (List Put_ × List CoreView)
  | [] => some (done, vs)
  | l :: t =>
    (if 2 ≤ g.gangSize then placeOn cores g mate done vs l (clustersOf vs) else placeAll cores g mate done vs l).bind fun r =>
      placeUnits cores g mate r.1 r.2 t

/-! ### The units of a grid that are restored together (06, R155; 08, R213, R214) -/

/-- The saved workgroups of a grid, in linear order. -/
def State.savedOf (s : State) (gid : Nat) (g : Grid) : List SavedWg :=
  (s.space g.spid).saved.filter (fun v => ((Tbl.find s.wgs v.wg).map fun w => w.grid == gid).getD false)

/-- What decides which are restored together: the gang, the pair, or the workgroup itself. -/
def State.unitKey (s : State) (g : Grid) (v : SavedWg) : Nat :=
  match Tbl.find s.wgs v.wg with
  | some w => if 2 ≤ g.gangSize then w.gang else if g.pair then w.wgidx / 2 else w.wgidx
  | none => 0
def State.mates (s : State) (g : Grid) (v u : SavedWg) : Bool :=
  match Tbl.find s.wgs v.wg, Tbl.find s.wgs u.wg with
  | some a, some b => g.pair && a.wgidx % 2 == 0 && b.wgidx == a.wgidx + 1
  | _, _ => false

/-- The saved workgroups in the units that are placed together: a gang, a pair or a single one (15, R375).
[DEDUCED, log entry 77] -/
def State.unitsOf (s : State) (g : Grid) (l : List SavedWg) : List (List SavedWg) :=
  ((l.map (s.unitKey g)).eraseDups).map fun k => l.filter (fun v => s.unitKey g v == k)

/-- The units of the next restore of a grid: all of a COSCHED grid's, else the first. -/
def State.nextUnits (s : State) (gid : Nat) (g : Grid) : List (List SavedWg) :=
  let l := s.unitsOf g (s.savedOf gid g)
  if g.cosched then l else l.take 1

/-! ### The tests before a resume (15, R376) -/

/-- The tests on the saved workgroups of a context; the DET of the first that fails. -/
def State.resumeTest (s : State) (part spid : Nat) : Option Nat :=
  let ks := (((Tbl.find s.parts part).map (·.clusters)).getD []).filter s.clusterLive
  let empty := fun (k : Nat) => (clusterCores k).map s.emptyView
  let all := ks.flatMap empty
  let none_ : Nat → Core := fun _ => {}
  let grids := s.grids.filter (fun x => x.2.spid == spid && !(s.savedOf x.1 x.2).isEmpty)
  let one := grids.all fun x => (s.savedOf x.1 x.2).all (fun v => (placeSaved none_ x.2 [] all v).isSome)
  let gang := grids.all fun x => decide (x.2.gangSize < 2) ||
    (s.unitsOf x.2 (s.savedOf x.1 x.2)).all (fun l => (placeOn none_ x.2 (s.mates x.2) [] all l ks).isSome)
  let cosched := grids.all fun x => !x.2.cosched ||
    (placeUnits none_ x.2 (s.mates x.2) [] all (s.unitsOf x.2 (s.savedOf x.1 x.2))).isSome
  if !one then some 4 else if !gang then some 2 else if !cosched then some 5 else none

/-! ### Restoring a workgroup (15, R375; 04, R121; 06, R166, R168) -/

/-- A slot when its group is restored. -/
def PcSlot.restored (p : PcSlot) : PcSlot := { p with fetched := none, missing := false, walked := [] }

/-- A group when it is restored: PREQ is clear, it is stopped and parked no more. -/
def Group.restored (g : Group) (age : Nat) : Group :=
  { g with age, slotA := g.slotA.map PcSlot.restored, slotB := g.slotB.map PcSlot.restored, preq := false, forced := false
           stop := none, parkA := none, parkB := none, swPark := false, eligible := none, pend := [] }

/-- A copy that is run again whole. -/
def CopyOp.rerun (o : CopyOp) (gs : Nat) : CopyOp :=
  { o with gs, row := 0, pos := 0, again := true, tgts := o.tgts.map fun t => { t with wait := [] } }

/-- A subscription when its workgroup is restored. -/
def SubEnt.restored (e : SubEnt) : SubEnt := if e.st = .spilled then { e with st := .replay, msg := msgAttach } else e

/-- The publication entries take the lowest free indices. -/
def putPubs (t : Tbl PubEnt) (l : List PubEnt) : Tbl PubEnt :=
  l.foldl (fun t p => match freeIx t with
    | some i => Tbl.put t i p
    | none => t) t

/-- What a workgroup held of a core is written back: local store with its watermarks cleared, the array, the Felt's entries but for
publications whose subscription has ended (06, R170), the copies. [DEDUCED, log entry 118] -/
def State.restoreCore (s : State) (v : SavedWg) (c base : Nat) (newGs : Nat → Nat) : State :=
  let s1 := s.lsPut c ((List.range v.ls.length).zip v.ls |>.map fun x => (base + x.1, x.2))
  let s2 := s1.clearLswm c base (1024 * kib v.ls.length)
  let s3 := s2.updCore c fun k =>
    { k with
      subs := v.subs.foldl (fun t e => Tbl.put t e.1 e.2.restored) k.subs
      pubs := putPubs k.pubs ((v.pubs.map (·.2)).filter s.subExists)
      cpq := k.cpq ++ v.copies.map fun o => o.rerun (newGs o.gs)
      holder := if v.array then some v.wg else k.holder
      tiles := if v.array then v.tiles else k.tiles
      zmaps := if v.array then v.zmaps else k.zmaps
      badTiles := if v.array then [] else k.badTiles }
  (v.subs.filter (fun e => e.2.st != .spilled)).foldl (fun s e => s.loseSub c e.1) s3

/-- A saved workgroup takes its place: its groups take new slots and new identities; the core's L1 is invalidated, since it may lack
what the groups have seen.
[DEDUCED, log entry 74; DEDUCED, log entry 118] -/
def State.restoreWg (s : State) (spid : Nat) (x : Put_) : State :=
  match Tbl.find s.wgs x.1.wg with
  | none => s
  | some w =>
    let v := x.1
    let base := 1024 * x.2.ls
    let slots := ((v.groups.map (·.1)).zip x.2.gss).foldl (fun t p => Tbl.put t p.1 p.2) []
    let newGs := fun (old : Nat) => (((w.slots.find? (fun p => p.2 == old)).bind fun p => Tbl.find slots p.1)).getD old
    let s1 := s.updWg v.wg fun w => { w with core := x.2.core, lsBase := base, resident := true, savedG := 0#32, slots, teams := [] }
    let s2 := (v.groups.zip x.2.gss).foldl (fun s p =>
      let a := s.enterSlot p.2
      { a with fresh := a.fresh + 1, groups := Tbl.put a.groups p.2 (p.1.2.restored (a.fresh + 1)) }) s1
    let s3 := (s2.restoreCore v x.2.core base newGs).l1Clear x.2.core
    let s4 := { s3 with gangs := Tbl.upd s3.gangs w.gang fun q => { q with cluster := clusterOf x.2.core, holds := false } }
    (s4.updSpace spid fun p => { p with saved := p.saved.filter (fun y => y.wg != v.wg) }).deckleEvent spid (((Tbl.find s4.grids w.grid).map (·.number)).getD 0, w.wgidx, 0) w.wgidx x.2.value

/-- The Felts exchange core positions: PCORE, SCORE and the leads are rewritten where either end has moved (06, R166). -/
def State.fixFelts (s : State) (wids : List Nat) : State :=
  let core := fun (wid old : Nat) => ((Tbl.find s.wgs wid).map fun w => w.core % 4).getD old
  let lead := fun (wid old : Nat) => if (Tbl.find s.wgs wid).isSome then slotOf (s.wgLead wid) else old
  let sub := fun (e : SubEnt) => if wids.contains e.wg || wids.contains e.pwg then
    { e with pcore := core e.pwg e.pcore, plead := lead e.pwg e.plead, slead := lead e.wg e.slead } else e
  let pub := fun (p : PubEnt) => if wids.contains p.wg || wids.contains p.swg then
    { p with score := core p.swg p.score, plead := lead p.wg p.plead } else p
  { s with cores := s.cores.map fun c =>
      (c.1, { c.2 with subs := c.2.subs.map fun e => (e.1, sub e.2), pubs := c.2.pubs.map fun p => (p.1, pub p.2) }) }

/-! ### Where the Deckle restores (06, R151, R155; 08, R214; 17, R403) -/

/-- Clusters that no other gang holds. -/
def State.openClusters (s : State) (gid : Nat) (g : Grid) : List Nat :=
  let barred := s.gangs.filter (fun x => x.2.grid != gid && s.gangHolds x.2)
  (((Tbl.find s.parts g.part).map (·.clusters)).getD []).filter (fun k => !(barred.any (fun x => x.2.cluster == k)))
def State.viewsOf (s : State) (ks : List Nat) : List CoreView := ks.flatMap fun k => (clusterCores k).map s.viewOf

/-- The cluster on which a gang waits to be restored. -/
def State.heldCluster (s : State) (l : List SavedWg) : Option Nat :=
  ((l.head?.bind fun v => Tbl.find s.wgs v.wg).bind fun w => Tbl.find s.gangs w.gang).bind fun q => if q.holds then some q.cluster else none

/-- The places of the next restore of a grid, if it fits. [DEDUCED, log entry 77] -/
def State.restorePlaces (s : State) (gid : Nat) (g : Grid) : Option (List Put_) :=
  let units := s.nextUnits gid g
  let ks := match s.heldCluster (units.headD []) with
    | some k => if g.cosched then s.openClusters gid g else [k]
    | none => s.openClusters gid g
  if s.grids.any (fun x => x.1 != gid && x.2.part == g.part && x.2.waits && (s.space x.2.spid).st == .running) && !g.waits then none
  else (placeUnits s.core g (s.mates g) [] (s.viewsOf ks) units).map (·.1)

/-- Re-execution restores each workgroup where the record has it, if those cores can take them (17, R403).
[DEDUCED, log entry 77] -/
def State.loggedPuts (s : State) (g : Grid) : List SavedWg → List Put_ → List CoreView → Option (List Put_)
  | [], done, _ => some done
  | v :: t, done, vs =>
    let w := ((Tbl.find s.wgs v.wg).map (·.wgidx)).getD 0
    (s.nextAt g.spid (g.number, w, 0) 0#32 4 w).bind fun e =>
      (vs.find? (fun c => c.core == bits e.2 41 32 && fitsCore s.core done c.core v)).bind fun c =>
        (c.placeK g v.groups.length).bind fun r => s.loggedPuts g t (done ++ [(v, ⟨c.core, r.1.1, r.1.2⟩)]) (putView vs r.2)

/-- The next units of a grid are restored; those of a COSCHED grid or a gang that do not fit hold what they wait for. -/
def State.restoreNext (s : State) (gid : Nat) (g : Grid) : State :=
  let units := s.nextUnits gid g
  match s.restorePlaces gid g with
  | some l =>
    let l1 := (s.loggedPuts g units.flatten [] (s.viewsOf (s.openClusters gid g))).getD l
    let s1 := (l1.foldl (fun s x => s.restoreWg g.spid x) s).fixFelts (l1.map fun x => x.1.wg)
    s1.updGrid gid fun g => { g with waits := false }
  | none =>
    if g.cosched then s.updGrid gid fun g => { g with waits := true }
    else if 2 ≤ g.gangSize ∧ s.heldCluster (units.headD []) = none then
      let ks := s.openClusters gid g
      let vs := (ks.filter s.clusterLive).flatMap fun k => (clusterCores k).map s.emptyView
      match placeOn (fun _ => {}) g (s.mates g) [] vs (units.headD []) ks, (units.headD []).head?.bind fun v => Tbl.find s.wgs v.wg with
      | some (x :: _, _), some w =>
        { s with gangs := Tbl.upd s.gangs w.gang fun q => { q with cluster := clusterOf x.2.core, holds := true } }
      | _, _ => s
    else s

/-! ### WORKGROUP_PLACEMENT (08, R211 to R214; 06, R151; 15, R375) -/

/-- Re-execution places workgroups where the record has them, if those cores can take them (17, R403). -/
def State.loggedGo (s : State) (g : Grid) (k : Nat) (vs : List CoreView) : Nat → Option (List Place)
  | 0 => some []
  | n + 1 =>
    (s.nextAt g.spid (g.number, k, 0) 0#32 4 k).bind fun e =>
      (vs.find? (fun c => c.core == bits e.2 41 32)).bind fun c => (c.place g).bind fun r =>
        (s.loggedGo g (k + 1) (putView vs r.2) n).map fun l => ⟨c.core, r.1.1, r.1.2⟩ :: l

/-- A grid has saved workgroups to restore: its context runs again. -/
def State.restorable (s : State) (gid : Nat) (g : Grid) : Bool :=
  (s.space g.spid).st == .running && !(s.savedOf gid g).isEmpty &&
    ((Tbl.find s.parts g.part).map fun p => p.halt.isNone).getD false

/-- WORKGROUP_PLACEMENT: the next workgroups of a grid, saved ones first, unless an earlier grid has one that fits; a
COSCHED grid that does not fit begins to wait. [DEDUCED, log entry 39] -/
def execWorkgroupPlacement (grid : Nat) (s : State) : Out :=
  .next (match Tbl.find s.grids grid with
  | none => s
  | some g =>
    let wants := fun (x : Nat × Grid) => if s.restorable x.1 x.2 then (s.restorePlaces x.1 x.2).isSome
      else s.placeable x.2 && (s.nextPlaces x.1 x.2).isSome
    let first := s.grids.any (fun x => x.1 != grid && x.2.part == g.part &&
      (x.2.waits && g.cosched && s.placeable x.2 && decide (x.2.hand < g.hand) || x.2.before g && wants x))
    if first then s
    else if s.restorable grid g then s.restoreNext grid g
    else if !s.placeable g then s
    else
      match s.nextPlaces grid g with
      | none => if g.cosched then s.updGrid grid fun g => { g with waits := true } else s
      | some l =>
        let l1 := (s.loggedGo g g.next (s.viewsOf (s.openClusters grid g)) l.length).getD l
        ((l1.foldl (fun s p => s.startWg grid p) s).updGrid grid fun g => { g with waits := false }))

/-! ### RESUME_CONTEXT (15, R375 to R377, R380; 21, R436) -/

/-- The race records in the extensions of an image's stop records are appended to the race log, in their order. -/
def State.appendHeld (s : State) (spid : Nat) : State :=
  let a := (s.space spid).image
  let n := bits (s.rd8 (a + 0x10)) 63 32
  (List.range n).foldl (fun s i =>
    let r := a + 0x100 + 64 * i
    let ix := bits (s.rd8 (r + 0x30)) 31 16
    if bits (s.rd8 r) 63 56 = 0x10 ∧ ix ≠ 0xFFFF then
      s.appendRace spid ((List.range 16).map fun k => s.rd8 (a + roundUp (0x100 + 64 * n) 128 + 128 * ix + 8 * k))
    else s) s

/-- The saved workgroups as the image in memory has them now. -/
def State.overlay (s : State) (spid area : Nat) : State :=
  (s.space spid).saved.foldl (fun s v =>
    match Tbl.find s.wgs v.wg with
    | none => s
    | some w =>
      let r := s.readWg area v w
      { s with wgs := Tbl.put s.wgs v.wg r.2 }.updSpace spid fun p =>
        { p with saved := p.saved.map fun (y : SavedWg) => if y.wg = v.wg then r.1 else y }) s

/-- The bytes of a context's image. -/
def State.imageBytes (s : State) (spid : Nat) : Nat :=
  let p := s.space spid
  p.saved.foldl (fun m v =>
    max m (v.off + 64 + ((s.sections v (p.st == .halted) []).map (·.bytes.length)).sum)) (s.rd8 (p.image + 0x20)).toNat

/-- A resumed context's interval begins: the context image is copied to the base image (17, R396). -/
def State.resumeInterval (s : State) (spid : Nat) : State :=
  let p := s.space spid
  if p.reruns || (!p.rcd.on && !p.rcdNext.on) then s
  else
    let n := s.imageBytes spid
    let data := s.rdBytes p.image n
    let s1 := (s.updSpace spid fun p => { p with replay := none }).beginInterval spid 3 (p.interval + 1#32) []
    if !p.rcdNext.on then s1
    else
      let q := s1.space spid
      let at_ := q.rcd.baseAt
      if q.rcd.base + q.rcd.size < at_ + n then (s1.beginBase spid).notReplayable spid
      else (s1.areaWrite p.part at_ data).beginBase spid

/-- A context runs again: its image is read, its mode set, its interval begun; the Deckle restores its workgroups. -/
def State.resumeNow (s : State) (spid pk : Nat) (report : Bool) : State :=
  let s1 := s.overlay spid (s.space spid).image
  let s2 := if report then s1.appendHeld spid else s1
  let s3 := s2.resumeInterval spid
  let grid := fun (x : Nat × Grid) => (x.1, if x.2.spid == spid then { x.2 with deadline := none, waits := false } else x.2)
  { s3 with grids := s3.grids.map grid }.updSpace spid fun p =>
    { p with st := .running, saving := .none, resumePk := some pk, mode := if report then 2#2 else p.mode }

/-- RESUME_CONTEXT: a context that is SAVED, or HALTED with every stop record's RESTART set, whose workgroups would fit;
it completes when every workgroup is placed. [DEDUCED, log entry 75] -/
def execResumeContext (pk : Nat) (s : State) : Out :=
  .next ((s.manage pk 0x0C fun p c s =>
    let spid := (p.op 0x10).toNat
    let x := s.space spid
    let report := bit (p.op 0x18) 0
    if !s.holdsSpace c.part spid || !(x.st == .saved || x.st == .halted) || !x.restart || (report && x.log == 0) ||
        decide (1 < (p.op 0x18).toNat) then .halts 5 0 s
    else
      match s.resumeTest c.part spid with
      | some d => .halts 6 d s
      | none => .go (s.resumeNow spid pk report)).goOn pk 0x0C fun p _ s =>
        let spid := (p.op 0x10).toNat
        let x := s.space spid
        let ends := x.resumePk = some pk && (if x.st == .running then x.saved.isEmpty else x.st != .preempting)
        if ends then .done (s.updSpace spid fun p => { p with resumePk := none }) else .go s)

/-- The tests are repeated when a unit of a partition retires: a resume whose context no longer fits is undone (15, R376). -/
def State.recheckResumes (s : State) (part : Nat) : State :=
  (s.spaces.filter (fun p => p.2.part == part && p.2.st == .running && p.2.resumePk.isSome && !p.2.saved.isEmpty)).foldl (fun s p =>
    match p.2.resumePk, s.resumeTest part p.1 with
    | some pk, some d => (s.beginSave p.1 (.refused pk d) true).finishSave p.1
    | _, _ => s) s

/-! ### CKPT and AUTOMATIC_CHECKPOINT (17, R396) -/

/-- A collective of the context is open. -/
def State.collOpen (s : State) (spid : Nat) : Bool :=
  s.colls.any (fun c => c.2.joined.any (fun p => !p.fin && ((Tbl.find s.wgs p.wg).map fun w => s.wgSpid w == spid).getD false))

/-- A checkpoint can be taken now. -/
def State.mayCkpt (s : State) (spid : Nat) : Bool :=
  let p := s.space spid
  p.st == .running && p.saved.isEmpty && !s.collOpen spid && ((Tbl.find s.parts p.part).map fun p => p.halt.isNone).getD false

/-- CKPT: outside recording only the interval number changes. -/
def execCkpt (pk : Nat) (s : State) : Out :=
  .next (match (Tbl.find s.packets pk).bind fun p => if p.safe then none else (Tbl.find s.queues p.queue).map fun c => (p, c) with
  | none => s
  | some (p, c) =>
    let n := (pkWord p.words 8).setWidth 32
    if p.typ ≠ 8 then s
    else if p.st = .started then
      let s1 := s.finishSave c.spid
      let x := s1.space c.spid
      if x.st == .running && x.saving == .none && x.saved.isEmpty then s1.finishPk pk else s1
    else if !s.mayCkpt c.spid then s
    else s.servePk pk 8 fun _ _ s =>
      if (s.space c.spid).rcdNext.on then .go (s.beginSave c.spid (.ckpt (some pk) n 1) true)
      else .done (s.beginInterval c.spid 1 n []))

/-- What makes the Headbox take a checkpoint: a log three-quarters full, a great RWC or SEQK. -/
def State.ckptDue (s : State) (spid : Nat) : Bool :=
  let p := s.space spid
  p.records && (decide (3 * 2 ^ p.rcd.ul ≤ 4 * (144 * p.ucnt)) || decide (3 * 2 ^ p.rcd.pl ≤ 4 * (32 * p.pcnt)) ||
    s.groups.any (fun g => s.spidOf g.2 == spid && decide (2 ^ 31 ≤ g.2.rwc.toNat)) || p.seqk.any (fun x => decide (2 ^ 26 ≤ x.2.2)))

/-- AUTOMATIC_CHECKPOINT. -/
def execAutomaticCheckpoint (spid : Nat) (s : State) : Out :=
  .next (
    if (s.space spid).checkpoints then s.finishSave spid
    else if s.ckptDue spid && s.mayCkpt spid then
      s.beginSave spid (.ckpt none ((s.space spid).interval + 1#32) 2) true
    else s)

end Sys2Proof.Machine
end

