-- ==== Sys2Proof/Machine/Release.lean ====
section
/-! DEFINITION. Releasing a context (18, R422; 01, R40, R41; 07, R196). -/

namespace Sys2Proof.Machine

/-- Bytes of memory become zero, errors in them with them. -/
def State.zeroMem (s : State) (pa n : Nat) : State :=
  let out := fun (a : Nat) => !(decide (pa ≤ a) && decide (a < pa + n))
  { s with mem := s.mem.filter (fun c => out c.1), poison := s.poison.filter (fun w => out (4 * w)) }

/-! ### Step 1, the stop -/

/-- The context stops as at a halt (15, R368); nothing is recorded. -/
def State.releaseStop (s : State) (spid : Nat) : State :=
  let mine := fun (wg : Nat) => ((Tbl.find s.wgs wg).map fun w => s.wgSpid w == spid).getD false
  let s1 := s.updSpace spid fun p => { p with st := .released, saving := .none, resumePk := none, replay := none }
  let s2 := ((s1.stopWalks [spid]).abandonMat 0#8 mine).abortOf (fun p => mine p.wg)
  let s3 := (s.partCores (s.space spid).part).foldl State.feltDiscard s2
  (s3.groups.filter (fun x => x.1 % 16 != 15 && mine x.2.wg)).foldl (fun s x => s.txUndo x.1) s3

/-! ### Step 2, the scrub -/

/-- A workgroup's local store, tiles and Felt entries. -/
def State.scrubWg (s : State) (wid : Nat) (w : Workgroup) : State :=
  let size := 1024 * kib (w.lsSize + w.qSize)
  let out := fun (p : Nat) => !(decide (w.lsBase ≤ p) && decide (p < w.lsBase + size))
  let free := fun (o : Option Nat) => if o = some wid then none else o
  let core := fun (c : Core) =>
    let held := c.holder == some wid || c.lent == some wid
    { c with
      holder := free c.holder, lent := free c.lent
      tiles := if held then [] else c.tiles
      zmaps := if held then [] else c.zmaps
      badTiles := if held then [] else c.badTiles
      cpq := c.cpq.filter (fun o => o.wg != wid), eng := c.eng.filter (fun o => o.wg != wid)
      subs := c.subs.filter (fun e => e.2.wg != wid && e.2.pwg != wid)
      pubs := c.pubs.filter (fun e => e.2.wg != wid && e.2.swg != wid) }
  let s1 := { s with cores := s.cores.map fun c => (c.1, core c.2) }
  if !w.resident && !w.gone then s1
  else s1.updCore w.core fun c =>
    { c with ls := c.ls.filter (fun e => out e.1), lswm := c.lswm.filter (fun e => out (64 * e.1)), bad := c.bad.filter (fun i => out (4 * i)) }

/-- The lines of a partition's memory leave the caches with their watermarks and release records; L1 lines leave its cores. -/
def State.scrubCaches (s : State) (part : Nat) : State :=
  match Tbl.find s.parts part with
  | none => s
  | some p =>
    let keepSector := fun (k : Nat) => !(s.ownMem (64 * k) && p.holds (64 * k))
    let keepLine := fun (k : Nat) => !(s.ownMem (128 * k) && p.holds (128 * k))
    let cores := s.partCores part
    let s1 := (cores.flatMap fun c => (s.core c).owned.map fun l => (c, l)).foldl (fun s x => s.disown x.1 x.2) s
    { s1 with
      wms := s1.wms.filter (fun e => keepSector e.1), recs := s1.recs.filter (fun e => keepSector e.1)
      strong := s1.strong.filter (fun e => keepSector e.1), l2 := s1.l2.filter (fun e => keepLine e.1)
      invs := s1.invs.filter (fun e => keepLine e.2)
      cores := s1.cores.map fun c => (c.1, if cores.contains c.1 then { c.2 with l1 := [] } else c.2)
      dies := s1.dies.map fun d => (d.1, { d.2 with
        rdc := d.2.rdc.filter (fun e => keepLine e.1) }) }

/-- Translations and queued misses of a space, and the counters of its partition's lane blocks (07, R196).
[DEDUCED, log entry 79] -/
def State.scrubLbs (s : State) (part spid : Nat) : State :=
  let cores := s.partCores part
  let zero : LaneBlock → LaneBlock := fun b => { b with hist := [], stall := [], beatc := 0#64, idle := 0#64 }
  let lb := fun (x : Nat × LaneBlock) =>
    let b := { x.2 with utlb := x.2.utlb.filter (fun e => e.spid != spid), misses := x.2.misses.filter (fun m => m.spid != spid)
                        engWalks := x.2.engWalks.filter (fun e => e.1 != spid) }
    (x.1, if cores.contains (x.1 / 4) then zero b else b)
  { s with
    lbs := s.lbs.map lb
    cores := s.cores.map fun c => (c.1, { c.2 with tlb := c.2.tlb.filter (fun e => e.spid != spid) }) }

/-- The space's queue table entries become FREE, its packets leave the Headbox. -/
def State.scrubQueues (s : State) (spid : Nat) : State :=
  (s.queues.filter (fun q => q.2.spid == spid && !q.2.mgmt && q.2.st != .free)).foldl (fun s q =>
    let s1 := { s with packets := s.packets.filter (fun p => p.2.safe || p.2.queue != q.1) }
    (s1.zeroMem (s.qcbAt q.1) 64).putQcb q.1 {} true) s

/-- The reduction logs of the grids that had not completed. -/
def State.scrubLogs (s : State) (spid : Nat) : State :=
  (s.grids.filter (fun g => g.2.spid == spid && !g.2.retired)).foldl (fun s g =>
    g.2.rlog.foldl (fun s r => s.zeroMem r.pa r.len) s) s

/-- The scrub of a context. -/
def State.scrub (s : State) (spid : Nat) : State :=
  let x := s.space spid
  let wgs := s.wgs.filter (fun w => s.wgSpid w.2 == spid)
  let grids := s.grids.filter (fun g => g.2.spid == spid)
  let mine := fun (wg : Nat) => wgs.any (fun w => w.1 == wg)
  let s1 := (wgs.foldl (fun s w => s.scrubWg w.1 w.2) s).scrubLogs spid
  let gone := s1.groups.filter (fun g => g.1 % 16 != 15 && mine g.2.wg)
  let s2 := { s1 with
    groups := s1.groups.filter (fun g => g.1 % 16 == 15 || !mine g.2.wg)
    tents := s1.tents.filter (fun t => !gone.any (fun g => g.1 == t.1))
    reqs := s1.reqs.filter (fun e => !mine e.2.wg)
    upds := s1.upds.filter (fun u => ((Tbl.find (s.core u.dst).subs u.handle).map fun (e : SubEnt) => !mine e.wg).getD true)
    wgs := s1.wgs.filter (fun w => !mine w.1)
    gangs := s1.gangs.filter (fun q => !grids.any (fun g => g.1 == q.2.grid))
    grids := s1.grids.filter (fun g => g.2.spid != spid) }
  let s3 := ((s2.scrubCaches x.part).scrubLbs x.part spid).scrubQueues spid
  let s4 := ((s3.zeroMem x.area x.size).zeroMem x.rcd.base x.rcd.size).zeroMem x.rcdNext.base x.rcdNext.size
  let s5 := if x.log = 0 then s4 else s4.zeroMem x.log x.logSize
  { s5 with spaces := Tbl.put s5.spaces spid { part := x.part, gen := x.gen, inUse := !(x.torn), torn := x.torn, st := .released } }

/-! ### The command -/

/-- RELEASE_CONTEXT: stop, scrub, record, complete; refused while the audit storage is full (18, R421). The body of the
record is the partition and the space identifier. [DEDUCED, log entry 78] -/
def execReleaseContext (pk : Nat) (s : State) : Out :=
  .next ((s.manage pk 0x0D fun p c s =>
    let spid := (p.op 0x10).toNat
    if !s.holdsSpace c.part spid || (s.space spid).st == .released || s.auditFull 80 then .halts 5 0 s
    else .go (s.releaseStop spid)).goOn pk 0x0D fun p c s =>
      let spid := (p.op 0x10).toNat
      if s.drained spid then .done ((s.scrub spid).audit 4 (toBytes 8 c.part ++ toBytes 8 spid)) else .go s)

end Sys2Proof.Machine
end

