-- ==== Sys2Proof/Machine/Debug.lean ====
section
/-! DEFINITION. The debug commands: set recording, stop at point, sample counters (17, R394, R403, R407). -/

namespace Sys2Proof.Machine

/-- The settings that a set-recording command carries, if they are legal. [DEDUCED, log entry 80] -/
def recordingOf (p : Packet) : Option Recording :=
  let w := p.op 0x28
  let base := (p.op 0x18).toNat
  let size := (p.op 0x20).toNat
  let ul := bits w 7 0
  let pl := bits w 15 8
  let tl := bits w 23 16
  let need := 2 ^ 16 + 2 ^ ul + 2 ^ pl + (if tl = 0 then 0 else 2 ^ tl)
  if inRange 16 36 ul && inRange 16 36 pl && (tl == 0 || inRange 16 36 tl) && base % 65536 == 0 && decide (need ≤ size) &&
      bits w 31 24 == 0 && bits w 63 34 == 0 then
    some { base, size, ul, pl, tl, on := bit w 32, trace := bit w 33 }
  else none

/-- SET_RECORDING: it takes effect at the context's next interval boundary. -/
def execSetRecording (pk : Nat) (s : State) : Out :=
  .next (s.manage pk 0x0F fun p c s =>
    let spid := (p.op 0x10).toNat
    match recordingOf p with
    | none => .halts 5 0 s
    | some r =>
      if !s.holdsSpace c.part spid then .halts 5 0 s
      else if !s.mgmtMem c r.base r.size then .halts 7 9 s
      else .done (s.updSpace spid fun x => { x with rcdNext := r }))

/-! ### STOP_AT_POINT (17, R403) -/

/-- Step 1: the undo entries in descending order. -/
def State.applyUndo (s : State) (spid : Nat) : State :=
  let p := s.space spid
  (List.range p.ucnt).reverse.foldl (fun s i =>
    let e := p.rcd.base + 2 ^ 16 + 144 * i
    s.plainWrite 0 p.part false (bits (s.rd8 e) 51 7 * 128) (s.rdBytes (e + 16) 128)) s

/-- Where the groups of a saved context stand: the recorded end. [DEDUCED, log entry 63] -/
def State.endsOf (s : State) (spid : Nat) : List (Nat × Nat × Nat × W32) :=
  (s.space spid).saved.flatMap fun v => v.groups.map fun g =>
    let n := s.nameOf g.2
    (n.1, n.2.1, n.2.2, g.2.rwc)

/-- The context's grids, workgroups and gangs leave. -/
def State.dropContext (s : State) (spid : Nat) : State :=
  let grids := s.grids.filter (fun g => g.2.spid == spid)
  { s with
    wgs := s.wgs.filter (fun w => s.wgSpid w.2 != spid)
    gangs := s.gangs.filter (fun q => !grids.any (fun g => g.1 == q.2.grid))
    grids := s.grids.filter (fun g => g.2.spid != spid) }.updSpace spid fun p => { p with saved := [] }

/-- Tables joined: the entries of the second are entered in the first. -/
def joinTbl {α : Type} (t u : Tbl α) : Tbl α := u.foldl (fun t e => Tbl.put t e.1 e.2) t

/-- Step 2 for an interval that began with an image: what the base image holds is restored; every RWC is 0. -/
def State.restoreBase (s : State) (spid : Nat) (b : Base) : State :=
  let s1 := s.dropContext spid
  let s2 := { s1 with grids := joinTbl s1.grids b.grids, wgs := joinTbl s1.wgs b.wgs, gangs := joinTbl s1.gangs b.gangs }
  let s3 := (s2.updSpace spid fun p => { p with saved := b.saved, gridNo := b.grids.length }).overlay spid (s.space spid).rcd.baseAt
  let zero := fun (v : SavedWg) => { v with groups := v.groups.map fun g => (g.1, { g.2 with rwc := 0#32, rrwc := 0#32, subSeen := [] }) }
  s3.updSpace spid fun p => { p with saved := p.saved.map zero }

/-- Step 2 for an interval that began with a launch: LPKT is launched again with no CSIG effect. The packet that began
it, while it is still there, loses its completion signal. -/
def State.relaunch (s : State) (spid : Nat) : State :=
  let p := s.space spid
  let l := (List.range 48).map fun i => s.rd8 (p.rcd.base + 0x200 + 8 * i)
  let old := s.grids.filter (fun g => g.2.spid == spid && g.2.depth == 0)
  let pk := (old.head?.bind fun g => g.2.packet)
  let s1 := (s.dropContext spid).updSpace spid fun p => { p with gridNo := 0 }
  let s2 := (pk.map fun k => s1.updPk k fun q => { q with words := q.words.set 8 0#64 }).getD s1
  let g := { pkGrid (l.set 8 0#64) with part := p.part, spid, sgen := p.gen, packet := pk }
  match s2.carryLaunch g with
  | .refused _ => s2
  | .failed _ _ s3 => s3
  | .ok _ s3 => s3

/-- STOP_AT_POINT: a SAVED or HALTED context whose interval is recorded and replayable runs again from the interval's
beginning; the command completes when the context has stopped again, or runs free after a parting. -/
def execStopAtPoint (pk : Nat) (s : State) : Out :=
  .next ((s.manage pk 0x10 fun p c s =>
    let spid := (p.op 0x10).toNat
    let x := s.space spid
    let w := p.op 0x18
    if !s.holdsSpace c.part spid || !(x.st == .saved || x.st == .halted) || !x.valid || x.nr || bits w 31 21 != 0 ||
        bits w 63 33 != 0 || decide (2 ^ 32 ≤ (p.op 0x20).toNat) || decide (2 ^ 32 ≤ (p.op 0x28).toNat) then .halts 5 0 s
    else
      let r : Replay :=
        { grid := bits w 15 0, wgidx := (p.op 0x20).toNat, gidx := bits w 20 16, target := (p.op 0x28).setWidth 32
          free := bit w 32, upto := x.pcnt, ends := (x.replay.map (·.ends)).getD (s.endsOf spid) }
      let s1 := s.applyUndo spid
      let run := fun (p : Space) => { p with st := .running, saving := .none, resumePk := none, restart := true, replay := some r }
      let s2 := s1.updSpace spid run
      .go (if x.start = 0 then s2.relaunch spid
        else (x.begun.map (s2.restoreBase spid)).getD s2)).goOn pk 0x10 fun p _ s =>
    let x := s.space (p.op 0x10).toNat
    let free := (x.replay.map (·.void)).getD true
    if x.st == .saved || x.st == .halted || x.st == .released || (x.st == .running && free) then .done s else .go s)

/-! ### SAMPLE_COUNTERS (17, R407; 07, R196) -/

/-- The record of a lane block. -/
def State.counterRecord (s : State) (k : Nat) : List W64 :=
  let b := s.lb k
  BitVec.ofNat 64 (fld 10 54 (k / 4) + fld 2 52 (k % 4)) :: ((List.range 16).map fun i => Tbl.get 0#64 b.hist i) ++
    ((List.range 13).map fun i => Tbl.get 0#64 b.stall i) ++ [b.beatc, b.idle]

/-- SAMPLE_COUNTERS: a record of every lane block of the partition's clusters. [DEDUCED, log entry 82] -/
def execSampleCounters (pk : Nat) (s : State) : Out :=
  .next (s.manage pk 0x11 fun p c s =>
    let a := (p.op 0x10).toNat
    let ks := (s.partCores c.part).flatMap fun n => (List.range 4).map fun i => 4 * n + i
    let own := fun (pa : Nat) => s.ownMem pa && s.paExists pa && ((Tbl.find s.parts c.part).map fun q => q.holds pa).getD false
    if a % 256 ≠ 0 then .halts 5 0 s
    else if !own a || !own (a + 256 * ks.length - 1) then .halts 7 9 s
    else .done (s.plainWrite 0 c.part false a (wordBytes (ks.flatMap s.counterRecord))))

end Sys2Proof.Machine
end

