-- ==== Sys2Proof/Machine/Floating.lean ====
section
/-! DEFINITION. Class 3, floating-point instructions (11, R278 to R284). -/

namespace Sys2Proof.Machine

/-- The encodings of sources A, B and C of lane `L` in a format, after their modifiers (11, R276). -/
def Word.fa (w : Word) (t : Ty) (m : FMods) (L : Nat) : Nat := (fmtOf t).modify m.na m.aa (w.src 0 L % 2 ^ t.bits)
def Word.fb (w : Word) (t : Ty) (m : FMods) (L : Nat) : Nat := (fmtOf t).modify m.nb m.ab (w.src 1 L % 2 ^ t.bits)
def Word.fc (w : Word) (t : Ty) (m : FMods) (L : Nat) : Nat := (fmtOf t).modify m.nc m.ac (w.src 2 L % 2 ^ t.bits)

/-- A floating word of two sources, and of one; each gives an encoding of the format. -/
def float2 (i : Instr) (t : Ty) (m : FMods) (d : Reg) (op : Nat → Nat → Nat) : State → Out :=
  alu i fun w => w.put (uty t d) fun L => op (w.fa t m L) (w.fb t m L)
def float1 (i : Instr) (t : Ty) (m : FMods) (d : Reg) (op : Nat → Nat) : State → Out :=
  alu i fun w => w.put (uty t d) fun L => op (w.fa t m L)

def execFadd (h : Hdr) (d a b : Reg) (m : FMods) (ty : Ty) (rm : Rm) : State → Out :=
  float2 (.fadd h d a b m ty rm) ty m d ((fmtOf ty).add rm)
/-- FSUB is FADD with B negated (11, R280). -/
def execFsub (h : Hdr) (d a b : Reg) (m : FMods) (ty : Ty) (rm : Rm) : State → Out :=
  float2 (.fsub h d a b m ty rm) ty m d fun x y => (fmtOf ty).add rm x ((fmtOf ty).modify true false y)
def execFmul (h : Hdr) (d a b : Reg) (m : FMods) (ty : Ty) (rm : Rm) : State → Out :=
  float2 (.fmul h d a b m ty rm) ty m d ((fmtOf ty).mulEnc rm)
def execFfma (h : Hdr) (d a b c : Reg) (m : FMods) (ty : Ty) (rm : Rm) : State → Out :=
  alu (.ffma h d a b c m ty rm) fun w => w.put (uty ty d) fun L =>
    (fmtOf ty).fma rm (w.fa ty m L) (w.fb ty m L) (w.fc ty m L)
def execFmin (h : Hdr) (d a b : Reg) (m : FMods) (ty : Ty) : State → Out :=
  float2 (.fmin h d a b m ty) ty m d ((fmtOf ty).pickBy false false)
def execFmax (h : Hdr) (d a b : Reg) (m : FMods) (ty : Ty) : State → Out :=
  float2 (.fmax h d a b m ty) ty m d ((fmtOf ty).pickBy true false)
def execFminx (h : Hdr) (d a b : Reg) (m : FMods) (ty : Ty) : State → Out :=
  float2 (.fminx h d a b m ty) ty m d ((fmtOf ty).pickBy false true)
def execFmaxx (h : Hdr) (d a b : Reg) (m : FMods) (ty : Ty) : State → Out :=
  float2 (.fmaxx h d a b m ty) ty m d ((fmtOf ty).pickBy true true)
def execFdiv (h : Hdr) (d a b : Reg) (m : FMods) (ty : Ty) (rm : Rm) : State → Out :=
  float2 (.fdiv h d a b m ty rm) ty m d fun x y =>
    (fmtOf ty).round rm (((fmtOf ty).val x).div ((fmtOf ty).val y))
def execFsqrt (h : Hdr) (d a : Reg) (m : FMods) (ty : Ty) (rm : Rm) : State → Out :=
  float1 (.fsqrt h d a m ty rm) ty m d fun x => (fmtOf ty).round rm ((fmtOf ty).val x).sqrt
def execFrcp (h : Hdr) (d a : Reg) (m : FMods) (ty : Ty) (rm : Rm) : State → Out :=
  float1 (.frcp h d a m ty rm) ty m d fun x => (fmtOf ty).round rm (FVal.div (.fin false 1 0) ((fmtOf ty).val x))
def execFrsq (h : Hdr) (d a : Reg) (m : FMods) (ty : Ty) (rm : Rm) : State → Out :=
  float1 (.frsq h d a m ty rm) ty m d fun x => (fmtOf ty).round rm ((fmtOf ty).val x).rsqrt
def execFex2 (h : Hdr) (d a : Reg) (m : FMods) (ty : Ty) (rm : Rm) : State → Out :=
  float1 (.fex2 h d a m ty rm) ty m d fun x => (fmtOf ty).round rm ((fmtOf ty).val x).exp2
def execFlg2 (h : Hdr) (d a : Reg) (m : FMods) (ty : Ty) (rm : Rm) : State → Out :=
  float1 (.flg2 h d a m ty rm) ty m d fun x => (fmtOf ty).round rm ((fmtOf ty).val x).log2
def execFcmpp (h : Hdr) (d : Pred) (a b : Reg) (m : FMods) (cc : FCmp) (ty : Ty) : State → Out :=
  alu (.fcmpp h d a b m cc ty) fun w => w.putP d fun L => fcmpHolds cc ((fmtOf ty).rel (w.fa ty m L) (w.fb ty m L))
def execFclass (h : Hdr) (d a : Reg) (ty : Ty) : State → Out :=
  alu (.fclass h d a ty) fun w => w.put32 d fun L => (fmtOf ty).cls (w.src 0 L % 2 ^ ty.bits)
def execFrnd (h : Hdr) (d a : Reg) (m : FMods) (ty : Ty) (rm : Rm) : State → Out :=
  float1 (.frnd h d a m ty rm) ty m d fun x => (fmtOf ty).round rm (((fmtOf ty).val x).integral rm)

end Sys2Proof.Machine
end

