-- ==== Sys2Proof/Machine/Safe.lean ====
section
/-! DEFINITION. The security core: the safe queue, the safe-function commands, partitions, the domain table, attestation, the
audit log's commands, injectors (16, R390; 18, R409, R414, R415, R418 to R421, R440). The safe queue is named by the
number 2 ^ 20, which no queue of the table has. -/

namespace Sys2Proof.Machine

/-! ### The safe queue (18, R409) -/

/-- The number that names the safe queue in the events that name a queue. -/
def safeQueue : Nat := 2 ^ 20

/-- A host bus address as a physical address. [DEDUCED, log entry 72] -/
def hostPa (a : Nat) : Nat := 2 ^ 51 + a % 2 ^ 51

/-- The module is powered and its safe function serves commands (18, R416, R417). -/
def State.serving (s : State) : Bool := s.sec.powered && decide (2 ≤ s.sec.stage.toNat)

/-- The size of the safe ring in units, and the place of a unit. -/
def Security.lsz (x : Security) : Nat := bits x.sqbase 4 0
def Security.unit (x : Security) (i : Nat) : Nat :=
  hostPa (x.sqbase.toNat / 2 ^ 12 * 2 ^ 12 + 64 * (i % 2 ^ (x.lsz - 6)))

/-- Commands that the safe queue carries (18, R415 Table 3). -/
def safeCmd (c : Nat) : Bool := c == 0x0E || inRange 0x20 0x27 c

/-- The safe queue halts with an error. -/
def State.haltSafe (s : State) (err det : Nat) : State :=
  { s with sec := { s.sec with sqhalt := true, sqerr := BitVec.ofNat 8 err, sqdet := BitVec.ofNat 8 det } }

/-- What a packet of the safe queue fails with: a type that is not MANAGE is not permitted there. [DEDUCED, log entry 83] -/
def safeErr (u : Nat) (h : W64) (l : List W64) : Option Nat :=
  if hdrLen h = 0 ∨ u < hdrLen h then some 1
  else if hdrType h ≠ 0x0F then some 2
  else if bits h 30 0 ≠ 0 ∨ 255 < (pkWord l 8).toNat then some 3
  else if 3 < hdrLen h ∨ !safeCmd (bits (pkWord l 8) 7 0) then some 5
  else none

/-- The safe queue may be parsed: one packet is served at a time. [DEDUCED, log entry 83] -/
def State.safeReady (s : State) : Bool :=
  s.serving && !s.sec.sqhalt && inRange 12 26 s.sec.lsz && decide (s.sec.sqrd < s.sec.sqdb) && s.sec.sqreread.isNone &&
    !s.packets.any (fun p => p.2.safe)

/-- The security core takes the next packet of the safe queue (08, R197 to R201). -/
def State.takeSafe (s : State) : State :=
  if !s.safeReady then s
  else
    let x := s.sec
    let h := s.rd8 (x.unit x.sqrd)
    if hdrTag h ≠ x.sqrd % 2 ^ 16 ∨ hdrType h = 0 then { s with sec := { x with sqreread := some s.clock } }
    else
      let us := (List.range (min (hdrLen h) (2 ^ (x.lsz - 6)))).map fun i => x.unit (x.sqrd + i)
      let l := us.flatMap fun pa => (List.range 8).map fun i => s.rd8 (pa + 8 * i)
      match safeErr (2 ^ (x.lsz - 6)) h l with
      | some e => s.haltSafe e 0
      | none =>
        let s1 := us.foldl (fun s pa => s.plainWrite 0 0 false pa (toBytes 8 0)) s
        let k := s1.newId
        { k.2 with
          packets := Tbl.put k.2.packets k.1
            { queue := safeQueue, safe := true, idx := x.sqrd, typ := 0x0F, bar := bit h 31, words := l }
          sec := { k.2.sec with sqrd := x.sqrd + hdrLen h } }

/-- HEADBOX_LANE_TAKE: a Headbox lane takes a packet of a queue, or the security core one of the safe queue. -/
def execHeadboxLaneTake (queue : Nat) (s : State) : Out :=
  .next (if queue = safeQueue then s.takeSafe else s.laneTake queue)

/-- HEADER_REREAD_TIMEOUT. -/
def execHeaderRereadTimeout (queue : Nat) (s : State) : Out :=
  .next (if queue = safeQueue then
      (match s.sec.sqreread with
       | some t => if t + 1024 ≤ s.clock then { s with sec := { s.sec with sqreread := none } } else s
       | none => s)
    else s.rereadDue queue)

/-- PACKET_COMPLETION: a safe-function command has no signal. -/
def execPacketCompletion (pk : Nat) (s : State) : Out :=
  .next (match Tbl.find s.packets pk with
  | none => s
  | some p => if p.safe then (if p.st = .finished then s.dropPk pk else s) else s.packetDone pk)

/-- A command of the safe function: it completes, or halts the safe queue with ERR 0x05. In stage 0xF1 only attest and read
audit log are served. [DEDUCED, log entry 83] -/
def State.safely (s : State) (pk cmd : Nat) (k : Packet → State → Option State) : Out :=
  .next (match Tbl.find s.packets pk with
  | none => s
  | some p =>
    if !p.safe || p.cmd != cmd || p.st != .taken then s
    else
      match (if s.sec.stage = 0xF1#8 ∧ cmd ≠ 0x23 ∧ cmd ≠ 0x24 then none else k p s) with
      | some s1 => s1.finishPk pk
      | none => (s.dropPk pk).haltSafe 5 0)

/-! ### Partitions (18, R415) -/

/-- Two ranges of physical offsets overlap. -/
def overlaps (a b : Nat × Nat) : Bool := decide (a.1 < b.1 + b.2) && decide (b.1 < a.1 + a.2)
/-- No two of a list of ranges overlap. -/
def disjoint : List (Nat × Nat) → Bool
  | [] => true
  | r :: t => !t.any (overlaps r) && disjoint t

/-- The memory-range list of a create-partition command, by module-local offsets. -/
def State.rangeList (s : State) (pa n : Nat) : Option (List (Nat × Nat)) :=
  if n = 0 ∨ 64 < n ∨ !s.paExists pa ∨ !s.paExists (pa + 16 * n - 1) then none
  else
    let l := (List.range n).map fun i => ((s.rd8 (pa + 16 * i)).toNat, (s.rd8 (pa + 16 * i + 8)).toNat)
    if l.all (fun r => r.1 % 65536 == 0 && r.2 % 65536 == 0 && r.2 != 0 && decide (r.1 < 2 ^ 51) && s.ownMem r.1 &&
        decide (r.1 % 2 ^ 43 + r.2 ≤ 576 * 2 ^ 30)) then some (l.map fun r => (r.1 % 2 ^ 43, r.2))
    else none

/-- The queue table's place, as an offset and a length. -/
def State.qtabRange (s : State) : Option (Nat × Nat) := s.sec.qtab.map fun t => (t.1 % 2 ^ 43, 64 * 2 ^ t.2)

/-- The clusters of three mask words. -/
def maskClusters (a b c : W64) : List Nat :=
  (List.range 192).filter (fun k => bit (if k < 64 then a else if k < 128 then b else c) (k % 64))

/-- A place of a management ring: the partition's memory or the host's. -/
def State.ringPlace (s : State) (ranges : List (Nat × Nat)) (base lsz : Nat) : Bool :=
  let n := 2 ^ lsz
  (decide (2 ^ 51 ≤ base) && decide (base + n ≤ 2 ^ 52)) ||
    (s.ownMem base && ranges.any (fun r => decide (r.1 ≤ base % 2 ^ 43) && decide (base % 2 ^ 43 + n ≤ r.1 + r.2)))

/-- CREATE_PARTITION. -/
def execCreatePartition (pk : Nat) (s : State) : Out :=
  s.safely pk 0x20 fun p s =>
    let n := (p.op 0x10).toNat
    let ks := maskClusters (p.op 0x18) (p.op 0x20) (p.op 0x28)
    let q := (p.op 0x50).toNat
    let hwq := (p.op 0x60).toNat
    let lsz := bits (p.op 0x58) 4 0
    let base := (p.op 0x58).toNat / 2 ^ 12 * 2 ^ 12
    match s.rangeList (p.op 0x40).toNat (p.op 0x48).toNat, s.qtabRange with
    | some rs, some qt =>
      let others := s.parts.flatMap fun x => x.2.ranges
      let bad := decide (s.sec.stage.toNat < 4) || s.auditFull 80 || decide (63 < n) || (Tbl.find s.parts n).isSome ||
        ks.any (fun k => !s.sec.inService.contains k || s.parts.any (fun x => x.2.clusters.contains k)) || !disjoint rs ||
        rs.any (fun r => others.any (overlaps r) || overlaps r qt) || decide (2 ^ ((s.sec.qtab.map (·.2)).getD 0) ≤ q) ||
        ((Tbl.find s.queues q).map fun c => c.st != .free).getD false || decide (16384 ≤ hwq) || s.hwqBound hwq ||
        !ks.any (fun k => k / 48 == hwq / 4096) || !ringOk (p.op 0x58) || !s.ringPlace rs base lsz
      if bad then none
      else
        let part : Partition := { clusters := ks, walkpc := p.op 0x30, ftpc := p.op 0x38, ranges := rs, mq := q }
        let c : Qcb := { base, lsz, part := n, st := .active, mgmt := true, hb := true, hwq }
        let s1 := ({ s with parts := Tbl.put s.parts n part }.plainWrite 0 n false (s.qcbAt q) (toBytes 64 0)).putQcb q c true
        some (s1.audit 3 (toBytes 8 n ++ toBytes 8 1))
    | _, _ => none

/-- DELETE_PARTITION: its memory is zeroed, its queues are FREE, its clusters return to the pool. -/
def execDeletePartition (pk : Nat) (s : State) : Out :=
  s.safely pk 0x21 fun p s =>
    let n := (p.op 0x10).toNat
    match Tbl.find s.parts n with
    | none => none
    | some x =>
      if s.auditFull 80 || s.spaces.any (fun e => e.2.part == n && e.2.inUse && e.2.st != .released) then none
      else
        let s1 := s.scrubCaches n
        let s2 := x.ranges.foldl (fun s r => s.zeroMem (s.sec.modnum.toNat * 2 ^ 43 + r.1) r.2) s1
        let s3 := (s2.queues.filter (fun q => q.2.part == n && q.2.st != .free)).foldl (fun s q =>
          ({ s with packets := s.packets.filter (fun k => k.2.safe || k.2.queue != q.1) }.zeroMem (s.qcbAt q.1) 64).putQcb q.1 {} true) s2
        some ({ s3 with parts := Tbl.del s3.parts n }.audit 3 (toBytes 8 n ++ toBytes 8 0))

/-- SET_QUEUE_TABLE (18, R440): once per power-good, at stage 4 or later, before the first partition. [DEDUCED, log entry 84] -/
def execSetQueueTable (pk : Nat) (s : State) : Out :=
  s.safely pk 0x27 fun p s =>
    let base := (p.op 0x10).toNat
    let qts := (p.op 0x18).toNat
    let n := 64 * 2 ^ qts
    if decide (s.sec.stage.toNat < 4) || s.sec.qtab.isSome || !s.parts.isEmpty || !inRange 10 20 qts || base % 65536 != 0 ||
        decide (2 ^ 51 ≤ base) || !s.ownMem base || decide (576 * 2 ^ 30 < base % 2 ^ 43 + n) ||
        !(s.sec.dieup.getLsbD (homeDie base)) || !(s.sec.dieup.getLsbD (homeDie (base + n - 1))) then none
    else some { s.zeroMem base n with sec := { s.sec with qtab := some (base, qts) } }

/-! ### The domain (18, R414) -/

/-- The module's own memory takes another module number: its bytes, and nothing of them stays in a cache.
[DEDUCED, log entry 86] -/
def State.renumber (s : State) (old new : Nat) : State :=
  if old = new then s
  else
    let key := fun (pa : Nat) =>
      if 2 ^ 51 ≤ pa then pa
      else if pa / 2 ^ 43 = old then new * 2 ^ 43 + pa % 2 ^ 43
      else if pa / 2 ^ 43 = new then old * 2 ^ 43 + pa % 2 ^ 43 else pa
    let place := fun (t : Nat × Nat) => (key t.1, t.2)
    { s with
      mem := s.mem.foldl (fun m c => Tbl.set 0#8 m (key c.1) c.2) [], poison := s.poison.map fun w => key (4 * w) / 4
      wms := [], recs := [], strong := [], l2 := [], invs := [], owners := []
      cores := s.cores.map fun c => (c.1, { c.2 with l1 := [], owned := [] })
      dies := s.dies.map fun d => (d.1, { d.2 with rdc := [] })
      sec := { s.sec with qtab := s.sec.qtab.map place } }

/-- The domain table: an entry of 16 bytes for each member, its number and the mask of the ports that lead to it.
[DEDUCED, log entry 85] -/
def State.domainAt (s : State) (pa n : Nat) : Tbl (List Nat) :=
  (List.range n).foldl (fun t i =>
    let m := s.rd8 (pa + 16 * i + 8)
    Tbl.put t ((s.rd8 (pa + 16 * i)).toNat % 256) ((List.range 32).filter (fun p => bit m p))) []

/-- SET_DOMAIN. -/
def execSetDomain (pk : Nat) (s : State) : Out :=
  s.safely pk 0x22 fun p s =>
    let m := (p.op 0x10).toNat
    let pa := (p.op 0x18).toNat
    let n := (p.op 0x20).toNat
    let numbers := (List.range n).map fun i => (s.rd8 (pa + 16 * i)).toNat
    if 255 < m ∨ 256 < n ∨ n = 0 ∨ !s.paExists pa ∨ !s.paExists (pa + 16 * n - 1) ∨ !numbers.contains m ∨
        numbers.any (fun x => decide (255 < x)) then none
    else
      let t := s.domainAt pa n
      let s1 := s.renumber s.sec.modnum.toNat m
      some { s1 with sec := { s1.sec with domain := t, modnum := BitVec.ofNat 8 m } }

/-! ### Measurements, attestation, the audit log (18, R418 to R421) -/

/-- The 48 bytes of a digest among a command's operands. -/
def Packet.digest (p : Packet) : BitVec 384 :=
  BitVec.ofNat 384 (ofBytes ((List.range 6).flatMap fun i => toBytes 8 (p.op (0x18 + 8 * i)).toNat))

/-- EXTEND_MEASUREMENT. -/
def execExtendMeasurement (pk : Nat) (s : State) : Out :=
  s.safely pk 0x26 fun p s =>
    let m := (p.op 0x10).toNat
    if m = 6 ∨ m = 7 then some (s.extend m p.digest) else none

/-- The word of STAGE, MODNUM and DIEUP (18, R409). -/
def Security.stageWord (x : Security) : W64 :=
  BitVec.ofNat 64 (fld 8 56 x.stage.toNat + fld 8 48 x.modnum.toNat + fld 4 44 x.dieup.toNat)

/-- The attestation report (18, R419 Table 5). [DEDUCED, log entry 88] -/
def State.report (s : State) (nonce : BitVec 384) : List Byte :=
  let head := digestBytes nonce ++ toBytes 8 Config.ident.toNat ++ toBytes 8 s.sec.stageWord.toNat ++
    ((List.range 8).flatMap fun i => digestBytes (Tbl.get 0#384 s.sec.meas i)) ++ toBytes 8 (s.sec.seq - 1) ++
    digestBytes s.sec.prevH ++ toBytes 8 0
  head ++ signatures head ++ fit 8192 Config.certificates

/-- ATTEST: a checkpoint record is appended, then the report is written. [DEDUCED, log entry 88] -/
def execAttest (pk : Nat) (s : State) : Out :=
  s.safely pk 0x23 fun p s =>
    let a := (p.op 0x10).toNat
    if a % 64 ≠ 0 ∨ 2 ^ 51 ≤ a then none
    else
      let s1 := s.checkpoint
      some (s1.plainWrite 0 0 false (hostPa a) (s1.report p.digest))

/-- READ_AUDIT_LOG: the records named, one after another. -/
def execReadAuditLog (pk : Nat) (s : State) : Out :=
  s.safely pk 0x24 fun p s =>
    let first := (p.op 0x10).toNat
    let n := (p.op 0x18).toNat
    let l := s.sec.audit.filter (fun r => decide (first ≤ r.seq) && decide (r.seq < first + n))
    if l.length ≠ n ∨ 2 ^ 51 ≤ (p.op 0x20).toNat then none
    else some (s.plainWrite 0 0 false (hostPa (p.op 0x20).toNat) (l.flatMap AuditRec.bytes))

/-- RECLAIM_AUDIT_LOG: the records below a checkpoint are freed; the reserve is appended, then the reclaim's own record. -/
def execReclaimAuditLog (pk : Nat) (s : State) : Out :=
  s.safely pk 0x25 fun p s =>
    let n := (p.op 0x10).toNat
    if !s.sec.audit.any (fun r => r.seq == n && r.typ == 5) then none
    else
      let s1 := { s with sec := { s.sec with audit := s.sec.audit.filter (fun r => decide (n ≤ r.seq)) } }
      some (s1.auditFlush.audit 7 (toBytes 8 n))

/-! ### Injectors (16, R390) -/

/-- The settings of a set-injector command, if they are legal: the key of its link or port among the injectors.
[DEDUCED, log entry 93] -/
def injectorOf (p : Packet) : Option (Nat × Injector) :=
  let w := p.op 0x10
  let kind := bits w 63 56
  let link := bits w 55 48
  let lane := bits w 47 40
  let act := bits w 39 38
  let n := (p.op 0x18).toNat
  let arg := p.op 0x20
  let argOk := match act with
    | 1 => arg != 0#64
    | 3 => inRange 1 65535 arg.toNat
    | _ => arg == 0#64
  if decide (kind ≤ 1) && decide (link < (if kind = 0 then 12 else 32)) && (decide (lane ≤ 15) || lane == 0xFF) &&
      bits w 36 0 == 0 && inRange 1 (2 ^ 48 - 1) n && argOk then
    some (if kind = 0 then link else 12 + link, { lane, act, rep := bit w 37, n, arg })
  else none

/-- SET_INJECTOR: the settings of an armed injector are replaced, its count restarts. [DEDUCED, log entry 93] -/
def execSetInjector (pk : Nat) (s : State) : Out :=
  s.safely pk 0x0E fun p s => (injectorOf p).map fun x =>
    { s with injs := if x.2.act = 0 then Tbl.del s.injs x.1 else Tbl.put s.injs x.1 [x.2] }

end Sys2Proof.Machine
end

