-- ==== Sys2Proof/Machine/HostLink.lean ====
section
/-! DEFINITION. What arrives from outside: the registers and doorbells of the host window, host accesses through the aperture,
port failures, start-up, firmware entries, power and cooling (18, R408 to R412, R416, R417, R420, R424). An offset below 2 ^ 60 of a host
access lies in the aperture, an offset of 2 ^ 60 + o in the window at o. -/

namespace Sys2Proof.Machine

/-! ### Window registers (18, R409) -/

/-- Fields of a ring's register: the address and LSZ. -/
def ringReg (x : W64) : W64 := BitVec.ofNat 64 (x.toNat / 2 ^ 12 * 2 ^ 12 + bits x 4 0)

/-- A write of SQBASE; with LSZ 0 the safe queue is reset. -/
def State.putSqbase (s : State) (value : W64) : State :=
  if !s.sec.powered then s
  else if bits value 4 0 = 0 then
    { s with
      packets := s.packets.filter (fun p => !p.2.safe)
      sec := { s.sec with
        sqbase := ringReg value, sqrd := s.sec.sqdb, sqridx := s.sec.sqdb, sqerr := 0#8, sqdet := 0#8, sqhalt := false, sqreread := none } }
  else { s with sec := { s.sec with sqbase := ringReg value } }
/-- SQBASE_WRITE. -/
def execSqbaseWrite (value : W64) (s : State) : Out := .next (s.putSqbase value)

/-- A write of SQDB: as a doorbell write (08, R200, R203). -/
def State.putSqdb (s : State) (value : W64) : State :=
  if !s.sec.powered || s.sec.sqhalt || decide (2 ^ 63 ≤ value.toNat) then s
  else { s with sec := { s.sec with sqdb := max s.sec.sqdb value.toNat, sqreread := none } }
/-- SAFE_QUEUE_DOORBELL. -/
def execSafeQueueDoorbell (value : W64) (s : State) : Out := .next (s.putSqdb value)

/-- An atomic add on SQRIDX gives the old value. -/
def State.addSqridx (s : State) (n : W64) : State :=
  if !s.sec.powered then s
  else { s.reply (toBytes 8 s.sec.sqridx) with sec := { s.sec with sqridx := (s.sec.sqridx + n.toNat) % 2 ^ 64 } }
/-- SQRIDX_ATOMIC_ADD. -/
def execSqridxAtomicAdd (n : W64) (s : State) : Out := .next (s.addSqridx n)

/-- A write of a register of the window: NRBASE; every other offset takes nothing here. -/
def State.putReg (s : State) (off : Nat) (value : W64) : State :=
  if s.sec.powered && off == 0x30 then { s with sec := { s.sec with nrbase := ringReg value } } else s
/-- REGISTER_WRITE. -/
def execRegisterWrite (off : Nat) (value : W64) (s : State) : Out := .next (s.putReg off value)

/-- A register of the window as it reads. -/
def Security.reg (x : Security) (off : Nat) : W64 :=
  match off with
  | 0x00 => Config.ident
  | 0x08 => x.stageWord
  | 0x10 => x.sqbase
  | 0x20 => BitVec.ofNat 64 x.sqrd
  | 0x28 => BitVec.ofNat 64 (fld 8 8 x.sqerr.toNat + x.sqdet.toNat)
  | 0x30 => x.nrbase
  | 0x38 => BitVec.ofNat 64 x.nrwr
  | 0x40 => BitVec.ofNat 64 x.sqridx
  | _ => 0#64
def State.windowByte (s : State) (o : Nat) : Byte := BitVec.ofNat 8 ((s.sec.reg (o / 8 * 8)).toNat / 2 ^ (8 * (o % 8)))

/-- An 8-byte write of the window: a register or a doorbell (08, R200; 18, R408). -/
def State.putWindow (s : State) (o : Nat) (x : W64) : State :=
  if o = 0x10 then s.putSqbase x
  else if o = 0x18 then s.putSqdb x
  else if 0x100000 ≤ o ∧ o < 0x200000 ∧ o % 64 = 0 then s.ringDoorbell ((o - 0x100000) / 64) x
  else s.putReg o x

/-! ### The aperture (18, R410, R411) -/

/-- The physical address of an aperture offset. -/
def State.aperture (s : State) (o : Nat) : Nat := s.sec.modnum.toNat * 2 ^ 43 + o
/-- Bytes of the aperture. [DEDUCED, log entry 90] -/
def apertureEnd : Nat := 576 * 2 ^ 30
/-- The window's offsets begin here. [DEDUCED, log entry 90] -/
def windowAt : Nat := 2 ^ 60

/-- A port carries traffic: its own, or that of the other after its failure (18, R412); the requester unit of its serials. -/
def State.portOf (s : State) (port : Nat) : Option Nat :=
  if !s.sec.powered || decide (1 < port) then none
  else if !s.sec.ports.contains port then some port
  else if !s.sec.ports.contains (1 - port) then some (1 - port) else none

/-- The host's packets on a port: no space, the partition whose memory it is, ATTR 1 (02, R55). [DEDUCED, log entry 91] -/
def State.hostSender (s : State) (port pa : Nat) (strong : Bool) : Sender :=
  { unit := portUnit port, spid := noSpace, part := s.partAt pa, sup := true, unc := true, strong }
/-- Writes and atomics of a port have not performed. -/
def State.portBusy (s : State) (port : Nat) : Bool :=
  s.reqs.any (fun e => e.2.core == portUnit port && !e.2.gone && !e.2.accs.all (·.perf))

/-- HOST_WRITE: a packet for each sector, which performs once, ordered or relaxed (18, R410, R411; 03, R99); beyond the aperture it is
ignored. An ordered write of the window comes when the port's earlier writes have performed. [DEDUCED, log entry 90] -/
def execHostWrite (port : Nat) (ordered : Bool) (off : Nat) (bytes : List Byte) (s : State) : Out :=
  .next (match s.portOf port with
  | none => s
  | some p =>
    if bytes.isEmpty then s
    else if windowAt ≤ off then
      (if ordered && s.portBusy p then s
      else if bytes.length = 8 ∧ off % 8 = 0 then s.putWindow (off - windowAt) (BitVec.ofNat 64 (ofBytes bytes)) else s)
    else if apertureEnd ≤ off then s
    else
      (sectorPieces (s.aperture off) (bytes.take (apertureEnd - off))).foldl (fun s x =>
        s.putReq { s.putPacket (s.hostSender p x.1 ordered) x.1 x.2 with head := ordered }) s)

/-- A byte as the host reads it: beyond the aperture zero, of an uncorrectable word any. -/
def State.hostByte (s : State) (off i : Nat) : Byte :=
  let o := off + i
  if windowAt ≤ off then s.windowByte (o - windowAt)
  else if apertureEnd ≤ o then 0#8
  else if s.poisoned (s.aperture o) 1 then Config.freeByte (s.free + i) else s.byte (s.aperture o)

/-- HOST_READ: owned lines return to their homes first (05, R124). [DEDUCED, log entry 90] -/
def execHostRead (port off len : Nat) (s : State) : Out :=
  .next (match s.portOf port with
  | none => s
  | some p =>
    let n := if windowAt ≤ off then 0 else min len (apertureEnd - off)
    if s.owned (portUnit p) (s.aperture off) n then (s.recallAll (portUnit p) (s.aperture off) n).getD s
    else
      let l := (List.range len).map (s.hostByte off)
      { s with free := s.free + len }.reply l)

/-- A host atomic as one of ATOM's operations, with its operands. -/
def HostAtom.atomOp (op : HostAtom) : AOp × W64 × W64 :=
  match op with
  | .add x => (.add, x, 0#64)
  | .exch x => (.exch, x, 0#64)
  | .cas e n => (.cas, e, n)

/-- HOST_ATOMIC: one read-modify-write at the home, of order .AR, whose answer gives the host the old value; SQRIDX takes an add alone.
[DEDUCED, log entry 90] -/
def execHostAtomic (port off : Nat) (op : HostAtom) (s : State) : Out :=
  .next (match s.portOf port with
  | none => s
  | some p =>
    if windowAt ≤ off then
      (match op with
       | .add n => if off = windowAt + 0x40 && !s.portBusy p then s.addSqridx n else s
       | _ => s)
    else if off % 8 ≠ 0 ∨ apertureEnd ≤ off then s
    else
      let pa := s.aperture off
      let x := HostAtom.atomOp op
      s.putReq { s.packetOf (s.hostSender p pa true) (.rmw hostTag (.atom x.1))
        [{ lane := 0, ga := 0#64, locs := [.mem pa], data := x.2.1.setWidth 128, alt := x.2.2.setWidth 128, len := 8, unc := true }] 8 with head := true })

/-- PORT_FAILURE: the port's traffic moves to the other. -/
def execPortFailure (port : Nat) (s : State) : Out :=
  .next (if s.sec.ports.contains port || decide (1 < port) then s else { s with sec := { s.sec with ports := port :: s.sec.ports } })

/-! ### Power and start-up (18, R416, R417, R424) -/

/-- The module without power: the audit log stays, and what is not the module's: host memory and other modules'.
[DEDUCED, log entry 92] -/
def State.unpowered (s : State) : State :=
  { State.reset with
    agenda := s.agenda, turn := s.turn, free := s.free, clock := s.clock, fresh := s.fresh, hostOut := s.hostOut
    mem := s.mem.filter (fun c => !s.ownMem c.1)
    sec := { audit := s.sec.audit, pending := s.sec.pending, lostRec := s.sec.lostRec, seq := s.sec.seq, prevH := s.sec.prevH } }

/-- POWER_GOOD: the boot ROM runs, stage 1. [DESIGN CHOICE, log entry 5] -/
def execPowerGood (s : State) : Out :=
  .next (if s.sec.powered then s
    else let s1 := s.unpowered
         { s1 with sec := { s1.sec with powered := true, stage := 1#8 } })

/-- POWER_LOSS. [DEDUCED, log entry 92] -/
def execPowerLoss (s : State) : Out := .next s.unpowered

/-- A firmware image is verified, measured where both its signatures verify, and recorded: its number, the result and its
digest. [DEDUCED, log entry 89] -/
def State.verify (s : State) (image reg : Nat) (ok : Bool) (d : BitVec 384) : State :=
  ((if ok then s.extend reg d else s)).audit 1 (toBytes 8 image ++ toBytes 8 (b2n ok) ++ digestBytes d)

/-- A cluster or a stack joins service and sends a capacity notice, whose bytes are left open.
[DEDUCED, log entry 87; DEDUCED, log entry 89] -/
def State.joinUnit (s : State) (u : Nat) : State :=
  let s1 := { s with
    free := s.free + 1
    sec := { s.sec with
      inService := if u < 192 then (u :: s.sec.inService).eraseDups else s.sec.inService
      memStacks := if 192 ≤ u then ((u - 192) :: s.sec.memStacks).eraseDups else s.sec.memStacks } }
  s1.notice ((List.range 4).flatMap fun i => toBytes 8 (Config.freeKey s.free i % 2 ^ 64))

/-- The dies that are up: Headbox firmware that verified, a cluster and a stack in service. -/
def State.setDieup (s : State) (ok : Nat → Bool) : State :=
  let up := fun (d : Nat) => ok d && s.sec.inService.any (fun k => k / 48 == d) && s.sec.memStacks.any (fun k => k / 4 == d)
  { s with sec := { s.sec with dieup := BitVec.ofNat 4 (((List.range 4).map fun d => b2n (up d) * 2 ^ d).sum) } }

/-- START_STAGE: the next stage. `verified` and `digests` are the outcomes and digests of the images verified, `units` the
clusters (0 to 191) that pass self-check and the stacks (192 + 4 × die + stack) that train. Once stage 5 is reached,
further units join. [DESIGN CHOICE, log entry 5; DEDUCED, log entry 89] -/
def execStartStage (verified : List Bool) (units : List Nat) (digests : List (BitVec 384)) (s : State) : Out :=
  .next (
    let stage := fun (s : State) (n : Byte) => { s with sec := { s.sec with stage := n } }
    let ok := fun (i : Nat) => verified.getD i false
    let d := fun (i : Nat) => digests.getD i 0#384
    if !s.sec.powered then s
    else
      match s.sec.stage.toNat with
      | 1 =>
        let s1 := s.verify 0 0 (ok 0) (d 0)
        if ok 0 then stage (s1.extend 1 (d 1)) 2#8 else stage s1 0xF1#8
      | 2 => stage s 3#8
      | 3 =>
        let s1 := (List.range 4).foldl (fun s i => s.verify (1 + i) (2 + i) (ok i) (d i)) s
        let s2 := (units.filter (fun u => decide (u < 208) && ok (if u < 192 then u / 48 else (u - 192) / 4))).foldl State.joinUnit s1
        stage (s2.setDieup ok) 4#8
      | 4 | 5 =>
        let live := fun (u : Nat) => s.sec.dieup.getLsbD (if u < 192 then u / 48 else (u - 192) / 4)
        stage ((units.filter (fun u => decide (u < 208) && live u)).foldl State.joinUnit s) 5#8
      | _ => s)

/-- FIRMWARE_ENTRY_APPEND: a body of up to 256 bytes and nothing else. -/
def execFirmwareEntryAppend (body : List Byte) (s : State) : Out :=
  .next (if !s.sec.powered || decide (256 < body.length) then s else s.audit 6 body)

/-- THERMAL_THROTTLE: issue is delayed while it lasts. -/
def execThermalThrottle (on : Bool) (s : State) : Out := .next { s with sec := { s.sec with throttle := on } }

/-- OVERTEMPERATURE_SHUTDOWN: every partition halts, a TYPE 6 record is written, power is removed. [DEDUCED, log entry 92] -/
def execOvertemperatureShutdown (s : State) : Out :=
  .next (if !s.sec.powered then s else (s.audit 6 []).unpowered)

end Sys2Proof.Machine
end

