-- ==== Sys2Proof/Machine/Integer.lean ====
section
/-! DEFINITION. Class 0, integer instructions (10, R247 to R251). -/

namespace Sys2Proof.Machine

/-- IDIV: rounded toward zero; all ones for a zero divisor; the overflow wraps (10, R248). -/
def idivOp (x y : Int) : Int := if y = 0 then -1 else x.tdiv y
/-- IREM: x − q × y; x for a zero divisor (10, R248). -/
def iremOp (x y : Int) : Int := if y = 0 then x else x.tmod y
/-- The high half of the exact product (10, R249). -/
def imulhOp (t : Ty) (x y : Int) : Int := (x * y) / (2 ^ t.bits : Nat)

def execIadd (h : Hdr) (d a b : Reg) (ty : Ty) : State → Out := int2 (.iadd h d a b ty) ty d (· + ·)
def execIaddRri (h : Hdr) (d a : Reg) (imm : BitVec 22) (ty : Ty) : State → Out :=
  intI (.iaddRri h d a imm ty) ty d imm (· + ·)
def execIsub (h : Hdr) (d a b : Reg) (ty : Ty) : State → Out := int2 (.isub h d a b ty) ty d (· - ·)
def execIsubRri (h : Hdr) (d a : Reg) (imm : BitVec 22) (ty : Ty) : State → Out :=
  intI (.isubRri h d a imm ty) ty d imm (· - ·)
def execIadds (h : Hdr) (d a b : Reg) (ty : Ty) : State → Out :=
  int2 (.iadds h d a b ty) ty d fun x y => tySat ty (x + y)
def execIaddsRri (h : Hdr) (d a : Reg) (imm : BitVec 22) (ty : Ty) : State → Out :=
  intI (.iaddsRri h d a imm ty) ty d imm fun x y => tySat ty (x + y)
def execIsubs (h : Hdr) (d a b : Reg) (ty : Ty) : State → Out :=
  int2 (.isubs h d a b ty) ty d fun x y => tySat ty (x - y)
def execIsubsRri (h : Hdr) (d a : Reg) (imm : BitVec 22) (ty : Ty) : State → Out :=
  intI (.isubsRri h d a imm ty) ty d imm fun x y => tySat ty (x - y)
def execImul (h : Hdr) (d a b : Reg) (ty : Ty) : State → Out := int2 (.imul h d a b ty) ty d (· * ·)
def execImulRri (h : Hdr) (d a : Reg) (imm : BitVec 22) (ty : Ty) : State → Out :=
  intI (.imulRri h d a imm ty) ty d imm (· * ·)
def execImulh (h : Hdr) (d a b : Reg) (ty : Ty) : State → Out := int2 (.imulh h d a b ty) ty d (imulhOp ty)
def execImad (h : Hdr) (d a b c : Reg) (ty : Ty) : State → Out :=
  alu (.imad h d a b c ty) fun w => w.putTy ty d fun L => w.int ty 0 L * w.int ty 1 L + w.int ty 2 L
/-- IMADW: the accumulator and the result are 64 bits wide (10, R247, R249). -/
def execImadw (h : Hdr) (d a b c : Reg) (ty : Ty) : State → Out :=
  alu (.imadw h d a b c ty) fun w => w.put64 d fun L =>
    ((w.int ty 0 L * w.int ty 1 L + (w.src 2 L : Int)) % (2 ^ 64 : Nat)).toNat
def execIdiv (h : Hdr) (d a b : Reg) (ty : Ty) : State → Out := int2 (.idiv h d a b ty) ty d idivOp
def execIrem (h : Hdr) (d a b : Reg) (ty : Ty) : State → Out := int2 (.irem h d a b ty) ty d iremOp
def execImin (h : Hdr) (d a b : Reg) (ty : Ty) : State → Out := int2 (.imin h d a b ty) ty d min
def execIminRri (h : Hdr) (d a : Reg) (imm : BitVec 22) (ty : Ty) : State → Out :=
  intI (.iminRri h d a imm ty) ty d imm min
def execImax (h : Hdr) (d a b : Reg) (ty : Ty) : State → Out := int2 (.imax h d a b ty) ty d max
def execImaxRri (h : Hdr) (d a : Reg) (imm : BitVec 22) (ty : Ty) : State → Out :=
  intI (.imaxRri h d a imm ty) ty d imm max
def execIabs (h : Hdr) (d a : Reg) (ty : Ty) : State → Out := int1 (.iabs h d a ty) ty d fun x => (x.natAbs : Int)
def execIneg (h : Hdr) (d a : Reg) (ty : Ty) : State → Out := int1 (.ineg h d a ty) ty d fun x => -x
/-- LEA: A + y × 2^SH modulo 2^64 (10, R247). -/
def execLea (h : Hdr) (d a b : Reg) (sh : BitVec 3) (ty : Ty) : State → Out :=
  alu (.lea h d a b sh ty) fun w => w.put64 d fun L =>
    (((w.src 0 L : Int) + w.int ty 1 L * (2 ^ sh.toNat : Nat)) % (2 ^ 64 : Nat)).toNat
def execMov (h : Hdr) (d a : Reg) (ty : Ty) : State → Out := int1 (.mov h d a ty) ty d id
def execIcmp (h : Hdr) (d a b : Reg) (cc : Cmp) (ty : Ty) : State → Out :=
  alu (.icmp h d a b cc ty) fun w => w.put32 d fun L => b2n (cmpHolds cc (w.int ty 0 L) (w.int ty 1 L))
def execIcmpRri (h : Hdr) (d a : Reg) (imm : BitVec 22) (cc : Cmp) (ty : Ty) : State → Out :=
  alu (.icmpRri h d a imm cc ty) fun w => w.put32 d fun L => b2n (cmpHolds cc (w.int ty 0 L) (immVal ty imm))
def execIcmpp (h : Hdr) (d : Pred) (a b : Reg) (cc : Cmp) (ty : Ty) : State → Out :=
  alu (.icmpp h d a b cc ty) fun w => w.putP d fun L => cmpHolds cc (w.int ty 0 L) (w.int ty 1 L)
def execIcmppRri (h : Hdr) (d : Pred) (a : Reg) (imm : BitVec 22) (cc : Cmp) (ty : Ty) : State → Out :=
  alu (.icmppRri h d a imm cc ty) fun w => w.putP d fun L => cmpHolds cc (w.int ty 0 L) (immVal ty imm)
/-- PICK: x where the predicate holds, else y (10, R247, R250). -/
def execPick (h : Hdr) (d a b : Reg) (c : Pred) (ty : Ty) : State → Out :=
  alu (.pick h d a b c ty) fun w => w.putTy ty d fun L =>
    if inMask (w.g.pred c) L then w.int ty 0 L else w.int ty 1 L
/-- MOVI: the immediate, sign- or zero-extended for the 64-bit types (10, R251). -/
def execMovi (h : Hdr) (d : Reg) (imm : W32) (ty : Ty) : State → Out :=
  alu (.movi h d imm ty) fun w => w.putTy ty d fun _ => if ty.isSigned then imm.toInt else imm.toNat
/-- MOVIH: bits 63:32, keeping bits 31:0 (10, R251). -/
def execMovih (h : Hdr) (d : Reg) (imm : W32) : State → Out :=
  alu (.movih h d imm) fun w => w.put64 d fun L => w.src 0 L % 2 ^ 32 + 2 ^ 32 * imm.toNat

end Sys2Proof.Machine
end

