-- ==== Sys2Proof/Machine/Packed.lean ====
section
/-! DEFINITION. Class 4, packed, dot-product and conversion instructions and the counter-based generator (11, R285 to
R293). -/

namespace Sys2Proof.Machine

/-- Element `k` of `n` bits of a packed register (11, R271). -/
def elem (n x k : Nat) : Nat := x / 2 ^ (n * k) % 2 ^ n
/-- Element `k` of 16 bits of a source in a format, with a negation (11, R285). -/
def Word.pk (w : Word) (t : Ty) (src : Nat) (neg : Bool) (L k : Nat) : Nat :=
  (fmtOf t).modify neg false (elem 16 (w.src src L) k)
/-- Two elements of 16 bits. -/
def pack2 (f : Nat → Nat) : Nat := f 0 + 2 ^ 16 * f 1

def execPkadd (h : Hdr) (d a b : Reg) (m : FMods) (ty : Ty) (rm : Rm) : State → Out :=
  alu (.pkadd h d a b m ty rm) fun w => w.put32 d fun L => pack2 fun k =>
    (fmtOf ty).add rm (w.pk ty 0 m.na L k) (w.pk ty 1 m.nb L k)
def execPkmul (h : Hdr) (d a b : Reg) (m : FMods) (ty : Ty) (rm : Rm) : State → Out :=
  alu (.pkmul h d a b m ty rm) fun w => w.put32 d fun L => pack2 fun k =>
    (fmtOf ty).mulEnc rm (w.pk ty 0 m.na L k) (w.pk ty 1 m.nb L k)
def execPkfma (h : Hdr) (d a b c : Reg) (m : FMods) (ty : Ty) (rm : Rm) : State → Out :=
  alu (.pkfma h d a b c m ty rm) fun w => w.put32 d fun L => pack2 fun k =>
    (fmtOf ty).fma rm (w.pk ty 0 m.na L k) (w.pk ty 1 m.nb L k) (w.pk ty 2 m.nc L k)

/-- A byte as a signed or an unsigned number (11, R286). -/
def byteVal (s : Bool) (x : Nat) : Int := if s then signed 8 x else ((x % 256 : Nat) : Int)
/-- BDOT4 (11, R286). -/
def bdot4Op (sa sb sat : Bool) (x y z : Nat) : Int :=
  let v := signed 32 z + ((List.range 4).map fun k => byteVal sa (elem 8 x k) * byteVal sb (elem 8 y k)).sum
  if sat then tySat .s32 v else v
def execBdot4 (h : Hdr) (d a b c : Reg) (sa sb sat : Bool) : State → Out :=
  alu (.bdot4 h d a b c sa sb sat) fun w => w.putTy .s32 d fun L => bdot4Op sa sb sat (w.src 0 L) (w.src 1 L) (w.src 2 L)

/-- PKDOT: one rounding of z + x0 y0 + x1 y1 to binary32 (11, R287). -/
def execPkdot (h : Hdr) (d a b c : Reg) (m : FMods) (ty : Ty) (rm : Rm) : State → Out :=
  alu (.pkdot h d a b c m ty rm) fun w => w.put32 d fun L =>
    let p := fun k => ((fmtOf ty).val (w.pk ty 0 m.na L k)).mul ((fmtOf ty).val (w.pk ty 1 m.nb L k))
    f32.round rm (fsum rm [f32.val (f32.modify m.nc false (w.src 2 L)), p 0, p 1])

def execFcvt (h : Hdr) (d a : Reg) (ty sty : Ty) (rm : Rm) : State → Out :=
  alu (.fcvt h d a ty sty rm) fun w => w.put (uty ty d) fun L =>
    (fmtOf ty).conv rm ((fmtOf sty).val (w.src 0 L % 2 ^ sty.bits))
def execFtoi (h : Hdr) (d a : Reg) (ty sty : Ty) (rm : Rm) : State → Out :=
  alu (.ftoi h d a ty sty rm) fun w => w.putTy ty d fun L => ((fmtOf sty).val (w.src 0 L % 2 ^ sty.bits)).toInt ty rm
def execItof (h : Hdr) (d a : Reg) (ty sty : Ty) (rm : Rm) : State → Out :=
  alu (.itof h d a ty sty rm) fun w => w.put (uty ty d) fun L => (fmtOf ty).conv rm (intVal (w.int sty 0 L))

/-- FPACK (11, R290): two 16-bit elements, or two bytes of D in the half that HI names. -/
def execFpack (h : Hdr) (d a b : Reg) (ty : Ty) (rm : Rm) (hi : Bool) : State → Out :=
  alu (.fpack h d a b ty rm hi) fun w => w.put32 d fun L =>
    let x := (fmtOf ty).conv rm (f32.val (w.src 0 L))
    let y := (fmtOf ty).conv rm (f32.val (w.src 1 L))
    if ty.bits = 8 then
      let old := w.src 2 L
      if hi then old % 2 ^ 16 + 2 ^ 16 * (x + 2 ^ 8 * y) else old / 2 ^ 16 * 2 ^ 16 + (x + 2 ^ 8 * y)
    else x + 2 ^ 16 * y
/-- FUNPK: element IDX to binary32 (11, R291). -/
def execFunpk (h : Hdr) (d a : Reg) (ty : Ty) (ix : BitVec 2) : State → Out :=
  alu (.funpk h d a ty ix) fun w => w.put32 d fun L =>
    f32.conv .rne ((fmtOf ty).val (elem ty.bits (w.src 0 L) ix.toNat))

/-- RNGK's round constants C and RA (11, R292 Table 9). -/
def rngC : List W32 := [0x5A3C96E1#32, 0x1F7B2D84#32, 0xC6A053F9#32, 0x3E91B7C2#32, 0x8D24E06B#32, 0x72F51A3D#32,
  0xB40EC958#32, 0x29D7648F#32, 0xE16B3F20#32, 0x47C8A5D6#32]
def rngR : List Nat := [7, 19, 11, 27, 5, 23, 13, 17, 3, 29]
/-- The generator (11, R292). -/
def rngk (key ctr : W64) : W32 :=
  let k0 := key.extractLsb' 0 32
  let k1 := key.extractLsb' 32 32
  let k := [k0, k1, k0 ^^^ k1 ^^^ 0x6D2B79F5#32]
  let r := (List.range 10).foldl (fun (p : W32 × W32) i =>
    let a := p.1 + p.2 + k.getD (i % 3) 0#32 + rngC.getD i 0#32
    (a, p.2.rotateLeft (rngR.getD i 0) ^^^ a)) (ctr.extractLsb' 0 32, ctr.extractLsb' 32 32)
  r.1 + r.2.rotateLeft 16
def execRngk (h : Hdr) (d a b : Reg) : State → Out :=
  alu (.rngk h d a b) fun w => w.put32 d fun L =>
    (rngk (BitVec.ofNat 64 (w.src 0 L)) (BitVec.ofNat 64 (w.src 1 L))).toNat

end Sys2Proof.Machine
end

