-- ==== Sys2Proof/Machine/Paired.lean ====
section
/-! DEFINITION. The paired word: two restricted instructions that read before either writes (09, R232 to R234). -/

namespace Sys2Proof.Machine

/-- K as a signed number. -/
def slotK (x : Slot) : Int := x.k.toInt

/-- A restricted instruction's result in 32 bits from its destination's old value and its operand (09, Table 10). -/
def slotOp (x : Slot) (d a : Nat) : Nat :=
  let s := fun (v : Nat) => signed 32 (v : Int)
  let t := fun (v : Int) => (v % (2 ^ 32 : Nat)).toNat
  let k := x.k.toNat
  match x.op with
  | .mov => a
  | .iadd => t (d + a)
  | .isub => t ((d : Int) - a)
  | .and => Nat.land d a
  | .or => Nat.lor d a
  | .xor => Nat.xor d a
  | .imin => if s a < s d then a else d
  | .imax => if s d < s a then a else d
  | .fadd => f32.add .rne d a
  | .fmul => f32.mulEnc .rne d a
  | .fmin => f32.pickBy false false d a
  | .fmax => f32.pickBy true false d a
  | .iaddK => t (a + slotK x)
  | .shl => a * 2 ^ k % 2 ^ 32
  | .shr => a / 2 ^ k
  | .sar => t (s a / (2 ^ k : Nat))
  | .rotl => a * 2 ^ (k % 32) % 2 ^ 32 + a / 2 ^ (32 - k % 32)
  | .movk => t (slotK x)
  | .andK => Nat.land a k

/-- The writes of one slot, from the registers as the word found them. -/
def Word.slotWs (w : Word) (x : Slot) : List RegW :=
  w.put32 x.d fun L => slotOp x (w.reg (u32 x.d) [] L) (w.reg (u32 x.a) [] L)

/-- The paired word (09, R234). -/
def execPairedWord (sw : Bool) (s0 s1 : Slot) : State → Out :=
  alu (.pairedWord sw s0 s1) fun w => w.slotWs s0 ++ w.slotWs s1

end Sys2Proof.Machine
end

