-- ==== Sys2Proof/Machine/Predicate.lean ====
section
/-! DEFINITION. Class 2, predicate instructions (10, R257). -/

namespace Sys2Proof.Machine

/-- The bit of a predicate in a lane. -/
def Word.pbit (w : Word) (p : Pred) (L : Nat) : Bool := inMask (w.g.pred p) L

def execPand (h : Hdr) (d a b : Pred) : State → Out :=
  alu (.pand h d a b) fun w => w.putP d fun L => w.pbit a L && w.pbit b L
def execPor (h : Hdr) (d a b : Pred) : State → Out :=
  alu (.por h d a b) fun w => w.putP d fun L => w.pbit a L || w.pbit b L
def execPxor (h : Hdr) (d a b : Pred) : State → Out :=
  alu (.pxor h d a b) fun w => w.putP d fun L => w.pbit a L != w.pbit b L
def execPnot (h : Hdr) (d a : Pred) : State → Out := alu (.pnot h d a) fun w => w.putP d fun L => !w.pbit a L
/-- PMOV: a predicate, its whole mask as a value, a value's being nonzero, a value's bits (10, Table 7). -/
def execPmov (h : Hdr) (m : PMov) : State → Out :=
  alu (.pmov h m) fun w => match m with
    | .pp d a => w.putP d fun L => w.pbit a L
    | .rd d a => w.put (uvs d) fun _ => (w.g.pred a).toNat
    | .nz d _ => w.putP d fun L => w.src 0 L != 0
    | .bits d _ => w.putP d fun L => (w.src 0 L).testBit L
def execPset (h : Hdr) (d : Pred) (imm : W32) : State → Out := alu (.pset h d imm) fun w => w.putP d fun L => inMask imm L

end Sys2Proof.Machine
end

