-- ==== Sys2Proof/Machine/Remote.lean ====
section
/-! DEFINITION. Serial-carrying requests on their way: holding and sending, die-to-die links and fabric ports with their
injectors, the decision at the owner, replies, retire packets, limits of age (05, R126 to R136; 16, R390, R391; 18, R413; 21,
R433, R434). -/

namespace Sys2Proof.Machine

/-- What was abandoned is done with once no copy of it is in flight (05, R134). -/
def State.reap (s : State) (id : Nat) : State :=
  match Tbl.find s.reqs id with
  | some q => if q.gone && q.copies.isEmpty then { s with reqs := Tbl.del s.reqs id } else s
  | none => s

/-! ### Links (18, R413) -/

/-- The ends of a link: links 0 to 11 between dies, fabric port p as 12 + p. -/
def linkEnds (l : Nat) : Nat × Nat :=
  if l < 8 then (l / 2, 4 + l % 2) else if l < 12 then (l - 8, (l - 7) % 4) else (4 + (l - 12) / 16, 6)
/-- The end at which a link's injector sits (16, R390; 21, R433). -/
def injectorEnd (l : Nat) : Nat := if l < 8 then l / 2 else if l < 12 then (l - 7) % 4 else 4 + (l - 12) / 16
/-- The link is in service. -/
def State.linkLive (s : State) (l : Nat) : Bool :=
  decide (l < 44) && (if l < 12 then !s.sec.linkLost.contains l else !s.sec.fabLost.contains (l - 12))
/-- The other end of a link. -/
def otherEnd (l n : Nat) : Option Nat :=
  let e := linkEnds l
  if e.1 = n then some e.2 else if e.2 = n then some e.1 else none
/-- The dies within some hops of a die. [DEDUCED, log entry 50] -/
def State.within (s : State) : Nat → Nat → List Nat
  | 0, n => [n]
  | k + 1, n =>
    let l := s.within k n
    (l ++ (l.flatMap fun x => (List.range 44).filterMap fun i => if s.linkLive i then otherEnd i x else none)).eraseDups
/-- A link brings a packet nearer to its target. [DEDUCED, log entry 50] -/
def State.nearer (s : State) (l n t : Nat) : Option Nat :=
  (otherEnd l n).bind fun e =>
    if s.linkLive l && (List.range 6).any (fun k => (s.within k e).contains t && !(s.within k n).contains t) then some e else none

/-- The injectors of a link after some flits on a lane, and what they do to the packet: nothing (0), corrupt (1), drop (2),
delay (3) with its cycles (16, R391). -/
def injectAll (lane n : Nat) : List Injector → List Injector × Nat × Nat
  | [] => ([], 0, 0)
  | x :: t =>
    let r := injectAll lane n t
    if x.act = 0 || !(x.lane == 0xFF || x.lane == lane) then (x :: r.1, r.2)
    else if x.count + n < x.n then ({ x with count := x.count + n } :: r.1, r.2)
    else
      let y := if x.rep then [{ x with count := x.count + n - x.n }] else []
      (y ++ r.1, x.act, if x.act = 3 then x.arg.toNat else 0)
/-- Flits leave on a link from a die; what the injector there does. -/
def State.inject (s : State) (l n lane flits : Nat) : State × Nat × Nat :=
  if n ≠ injectorEnd l then (s, 0, 0)
  else
    let r := injectAll lane flits ((Tbl.find s.injs l).getD [])
    ({ s with injs := if (Tbl.find s.injs l).isSome then Tbl.put s.injs l r.1 else s.injs }, r.2)

/-- The flits of a request's packet: a header, and a data flit where it carries data. [DEDUCED, log entry 46] -/
def Req.flits (q : Req) : Nat := if q.writes then 2 else 1

/-- A copy passes a link, which keeps a copy of its own, and stands before the next die's mesh. [DEDUCED, log entry 47] -/
def State.passLink (s : State) (id : Nat) (q : Req) (c : Copy) (l lane e : Nat) : State :=
  let r := (if 12 ≤ l then s.spend q.part 7 (l - 12) (64 * q.flits) else s).inject l c.node lane q.flits
  r.1.updReq id fun q =>
    { q with copies := q.copies.map fun x => if x.id = c.id then
        { x with node := e, trip := {}, kept := (l, c.node) :: x.kept, lost := r.2.1 == 1 || r.2.1 == 2, until_ := s.clock + r.2.2 } else x }

/-- A copy may pass a link now. -/
def State.canPass (s : State) (q : Req) (l : Nat) (c : Copy) : Option Nat :=
  if c.lost || decide (s.clock < c.until_) || decide (c.sent + 2 ^ 14 ≤ s.clock) || (decide (c.node < 4) && c.trip.way != .there) ||
    (decide (12 ≤ l) && s.spent q.part 7 (l - 12)) then none
  else s.nearer l c.node (s.targetNode q)

/-- LINK_FLIT_TRANSMIT: a copy of a request passes the link, or its reply on the way back, or another packet whose loss the
link itself makes good. -/
def execLinkFlitTransmit (link lane rq : Nat) (s : State) : Out :=
  .next (match Tbl.find s.reqs rq with
  | none => s
  | some q =>
    match q.copies.findSome? (fun c => (s.canPass q link c).map fun e => (c, e)) with
    | some (c, e) => s.passLink rq q c link lane e
    | none =>
      if q.reply.isSome then
        (match s.nearer link q.rnode (unitDie q.core) with
         | some e =>
           let r := s.inject link q.rnode lane 2
           if r.2.1 = 1 || r.2.1 = 2 then r.1 else r.1.updReq rq fun q => { q with rnode := e }
         | none => s)
      else if q.serial.isNone && (q.stage == .mesh) && (s.nearer link (unitDie q.core) (s.targetNode q)).isSome then
        (s.inject link (unitDie q.core) lane q.flits).1
      else s)

/-- LINK_ACKNOWLEDGEMENT: the flit passes the reverse direction and frees the link's kept copy, unless the injector there
takes it. [DEDUCED, log entry 47] -/
def execLinkAcknowledgement (link rq : Nat) (s : State) : Out :=
  .next (match (Tbl.find s.reqs rq).bind fun q =>
      q.copies.findSome? fun c => if c.lost then none else (c.kept.find? (fun k => k.1 == link)).map fun k => (c, k) with
  | none => s
  | some (c, k) =>
    match otherEnd link k.2 with
    | none => s
    | some e =>
      let r := s.inject link e 0 1
      if r.2.1 = 1 || r.2.1 = 2 then r.1
      else r.1.updReq rq fun q => { q with copies := q.copies.map fun x => if x.id = c.id then { x with kept := x.kept.filter (· != k) } else x })

/-- LINK_TIMEOUT_RETRANSMIT: the link sends its kept copy again, with RTX = 1, or drops it where its age is over.
[DESIGN CHOICE, log entry 49] -/
def execLinkTimeoutRetransmit (link rq : Nat) (s : State) : Out :=
  .next (match (Tbl.find s.reqs rq).bind fun q =>
      (q.copies.findSome? fun c => (c.kept.find? (fun k => k.1 == link)).map fun k => (c, k)).map fun x => (q, x.1, x.2) with
  | none => s
  | some (q, c, k) =>
    let s1 := s.updReq rq fun q =>
      { q with copies := (q.copies.map fun x => if x.id = c.id then { x with kept := x.kept.filter (· != k) } else x).filter (fun x =>
          !(x.lost && x.kept.isEmpty)) }
    if c.sent + 2 ^ 14 ≤ s.clock || !s.linkLive link then s1.reap rq
    else
      match otherEnd link k.2 with
      | none => s1
      | some e =>
        let x := s1.newId
        let r := x.2.inject link k.2 0 q.flits
        let d : Copy := { c with
          id := x.1, rtx := true, node := e, trip := {}, kept := [k], lost := r.2.1 == 1 || r.2.1 == 2, until_ := s.clock + r.2.2 }
        r.1.updReq rq fun q => { q with copies := q.copies ++ [d] })

/-! ### Sending (05, R127, R130) -/

/-- The requests of a requester that wait for a serial, oldest first. -/
def State.unsent (s : State) (u : Nat) : List (Nat × Req) :=
  s.reqs.filter (fun e => e.2.core == u && (e.2.stage == .mesh || e.2.stage == .atHome) && e.2.serial.isNone && (s.serialOwner e.2).isSome)

/-- A request of a group is held by its requester (05, R130). [DEDUCED, log entry 110] -/
def State.heldBack (s : State) (gs : Nat) : Bool :=
  (s.unsent (coreOf gs)).any (fun e => e.2.own == gs &&
    ((s.serialOwner e.2).map fun o => (s.rqer (coreOf gs)).mustHold o).getD false)

/-- REQUESTER_HOLD_RELEASE: the oldest operation without a serial gets the next one and its first copy is sent, once the
window and the retire table have room. -/
def execRequesterHoldRelease (runit : Nat) (s : State) : Out :=
  .next (match s.unsent runit with
  | [] => s
  | (id, q) :: _ =>
    let owner := (s.serialOwner q).getD 0
    if (s.rqer runit).mustHold owner || s.injectHeld q then s
    else
      let x := (if runit < 768 then s.spend q.part (1 + q.cls) runit 1 else s).takeSerial runit owner
      let s1 := x.2.updReq id fun q => { q with serial := some x.1, first := s.clock }
      -- the request's ACK tells this owner, so a retire packet to it is no longer due (05, R129)
      (s1.updRqer runit fun r => { r with retirePk := r.retirePk.filter (fun p => !(p.1 == owner && p.2.2 == 0)) }).addCopy
        id { q with serial := some x.1 } false)

/-! ### The owner (05, R131 to R135) -/

/-- A copy is performed: the checks and the effect at the sector's home, then the entry and the reply; a write returned
unperformed leaves neither. -/
def State.performCopy (s : State) (id : Nat) (q : Req) (ser : BitVec 16) (copy : Nat) : State :=
  let s0 := s.reached q
  let s1 := if q.tag.isSome then s0.agentSector id q else if q.gone then s0.doWrite id q .pass else s0.writeSector id q
  match Tbl.find s1.reqs id with
  | none => s1
  | some r =>
    if r.stage = .unperformed then s1.copyGone id copy
    else if r.stage = .performed ∨ r.stage = .answered then
      ((s1.updReq id fun x => { x with contended := s1.isContended (q.sector / 2) }).ownerKeeps id q ser copy r.accs).reap id
    else s1

/-- RESULT_CACHE_REQUEST: a copy arrives at its owner and is decided; where it must wait for its line it stays, and a packet about a
transaction is performed by the steps of the commit. [DEDUCED, log entry 48] -/
def execResultCacheRequest (rq copy : Nat) (s : State) : Out :=
  .next (match (Tbl.find s.reqs rq).bind fun q => (q.copies.find? (fun c => c.id == copy)).bind fun c => q.serial.map fun n => (q, c, n) with
  | none => s
  | some (q, c, ser) =>
    if !s.arrived q c then s
    else
      let d := s.ownerDecides q ser c
      let s1 := d.2
      match d.1 with
      | .duplicate v => ((s1.sendReply rq (.value v)).copyGone rq copy).reap rq
      | .late => (s1.copyGone rq copy).reap rq
      | .unknown => ((s1.sendReply rq .unknown).copyGone rq copy).reap rq
      | .busy => ((s1.sendReply rq .busy).copyGone rq copy).reap rq
      | .perform =>
        if q.txMsg.isSome || (q.stage ≠ .mesh ∧ q.stage ≠ .atHome) || (Tbl.find s.owners (q.sector / 2)).isSome ||
            !q.homesLeft.all (s1.mayPerform rq q) || (q.isAtomic && !s1.atomTurn q) then s1
        else s1.performCopy rq q ser copy)

/-! ### Replies (05, R129, R133 to R136; 21, R434) -/

/-- The cause of an operation whose outcome is unknown: the sector and the serial (05, R136; 15, R371). -/
def Req.unknownCause (q : Req) (ser : BitVec 16) : Cause :=
  { code := 0x24, lanes := q.faultLanes (q.accs.map (·.lane)), addr := BitVec.ofNat 64 (q.sector * 64), info := ser.setWidth 64 }

/-- The engine for which an agent sent a packet, as a stop record numbers it (15, R371). -/
def State.agentEng (s : State) (q : Req) : Nat :=
  let tag := q.tag.getD 0
  if 768 ≤ q.core then 7
  else if 2 ^ 45 ≤ tag then 5
  else if 2 ^ 43 ≤ tag then 3
  else if (s.core q.core).cpq.any (fun o => o.id == tag) then 1
  else if (s.core q.core).eng.any (fun o => o.id == tag) then 2 else 5

/-- The outcome of a packet about a transaction is unknown: the TXE takes the fault. What a commit or abort message was to release is
released. [DESIGN CHOICE, log entry 140] -/
def State.txUnknown (s : State) (id gs : Nat) (m : TxMsg) (c : Cause) : State :=
  match Tbl.find s.groups gs with
  | none => s.dropReq id
  | some g =>
    let a := s.txAt gs g
    let s1 := s.dropReq id
    let s2 := (match m with
      | .prepare _ => s1.txUndo gs
      | .commit sl L | .abort sl L => s1.releaseWords gs L sl)
    (s2.raise gs a c).txSettle gs

/-- The outcome of an operation is unknown: its group's word takes 0x24; a reservation of a log's chunk hands it to the words that wait
for it; an engine's operation raises it for its context, and the engine takes its packet as answered; the host is told nothing (05,
R136; 15, R371). [DESIGN CHOICE, log entry 140] -/
def State.unknownOutcome (s : State) (id : Nat) (q : Req) (ser : BitVec 16) : State :=
  let c := q.unknownCause ser
  let done := fun (s : State) (err : Nat) => (s.answerSerial q.core ser).updReq id fun q =>
    { q with
      stage := .answered, serial := none, reply := none, copies := []
      accs := q.accs.map fun a => { a with err, got := if err = 0 then a.got else ser.setWidth 128 } }
  match q.txMsg, q.kind with
  | some (gs, m), _ => s.txUnknown id gs m c
  | none, .rmw _ _ => if 772 ≤ q.core then s.dropReq id else if q.core < 768 then done s 0x24 else
      done (s.haltBy q.spid 7 q.core 0x24 0 c.addr c.info) 0
  | none, .put tag _ =>
    if 772 ≤ q.core then s.dropReq id
    else
      let s1 := s.haltBy q.spid (s.agentEng q) q.core 0x24 0 c.addr c.info
      if q.logs then (s1.dropReq id).logAcked id else if tag = 0 then s1.dropReq id else done s1 0
  | none, _ => s.lateFault id q c

/-- The die's view takes the value that a reply carries (05, R135). -/
def State.viewReply (s : State) (q : Req) : State :=
  let o := ownerOf (q.memAt.getD 0)
  s.updDie (unitDie q.core) fun d => { d with view := Tbl.set 0#8 d.view (o / 256) q.back }

/-- REQUEST_REPLY: a reply reaches the requester. -/
def execRequestReply (rq : Nat) (s : State) : Out :=
  .next (match (Tbl.find s.reqs rq).bind fun q => q.reply.bind fun r => q.serial.map fun n => (q, r, n) with
  | none => s
  | some (q, r, ser) =>
    if q.gone || q.rnode ≠ unitDie q.core || decide (q.replied + 2 ^ 14 ≤ s.clock) then s
    else
      let s1 := s.viewReply q
      match r with
      | .busy => s1.updReq rq fun q => { q with reply := none, busy := q.busy + 1, parked := true, since := s.clock }
      | .unknown => s1.unknownOutcome rq q ser
      | .value v =>
        let s2 := (s1.answerSerial q.core ser).updReq rq fun q => { q with serial := none, reply := none, copies := [], accs := v }
        if q.isAtomic then s2.predict q.core (q.memAt.getD 0) (if q.contended then 1 else -1) else s2)

/-- BUSY_RETRY after 64 × min(k, 16) cycles (05, R133). -/
def execBusyRetry (rq : Nat) (s : State) : Out :=
  .next (match Tbl.find s.reqs rq with
  | some q =>
    if q.parked && decide (q.since + 64 * min q.busy 16 ≤ s.clock) then
      (s.addCopy rq q true).updReq rq fun q => { q with parked := false }
    else s
  | none => s)

/-- REQUEST_RESEND 2^15 cycles after the last copy (05, R134). -/
def execRequestResend (rq : Nat) (s : State) : Out :=
  .next (match Tbl.find s.reqs rq with
  | some q =>
    if q.serial.isSome && !q.parked && !q.gone && q.stage != .unperformed && decide (q.sent + 2 ^ 15 ≤ s.clock) then s.addCopy rq q true else s
  | none => s)

/-- Copies of an abandoned request stay in flight and may still be performed (05, R134). Those about a transaction go with their TXE's
word. [DESIGN CHOICE, log entry 140] -/
def State.leaveCopies (s : State) (q : Req) : State :=
  if q.copies.isEmpty || q.txMsg.isSome then s
  else
    let x := s.newId
    { x.2 with reqs := Tbl.put x.2.reqs x.1 { q with
      gs := noGroup, stage := .mesh, ord := if q.ord = .weak then .weak else .rlx, head := false, pend := [], pops := [], sup := true, mode := 0#2
      reply := none, parked := false, gone := true } }

/-- REQUEST_ABANDON 2^23 cycles after the first copy (05, R134). -/
def execRequestAbandon (rq : Nat) (s : State) : Out :=
  .next (match (Tbl.find s.reqs rq).bind fun q => q.serial.map fun n => (q, n) with
  | some (q, ser) => if q.gone || decide (s.clock < q.first + 2 ^ 23) then s else (s.leaveCopies q).unknownOutcome rq q ser
  | none => s)

/-- AGE_EXPIRY: a copy whose age has reached 2^14, or, with copy 0, the reply (05, R128). -/
def execAgeExpiry (rq copy : Nat) (s : State) : Out :=
  .next ((s.updReq rq fun q =>
    if copy = 0 then (if q.reply.isSome && decide (q.replied + 2 ^ 14 ≤ s.clock) then { q with reply := none } else q)
    else { q with copies := q.copies.filter (fun c => !(c.id == copy && decide (c.sent + 2 ^ 14 ≤ s.clock))) }).reap rq)

/-! ### Retire packets, tombstones, incarnations -/

/-- RETIRE_PACKET_SEND (05, R129). -/
def execRetirePacketSend (runit owner : Nat) (s : State) : Out :=
  .next (if (s.rqer runit).retirePk.any (fun p => p.1 == owner && p.2.2 == 0) then
    s.updRqer runit fun r =>
      { r with retirePk := r.retirePk.map fun p => if p.1 = owner ∧ p.2.2 = 0 then (p.1, p.2.1, s.clock + 1) else p }
  else s)

/-- RETIRE_PACKET arrives, unless its age is over (05, R128, R132). -/
def execRetirePacket (runit owner : Nat) (s : State) : Out :=
  .next (match (s.rqer runit).retirePk.find? (fun p => p.1 == owner && p.2.2 != 0) with
  | none => s
  | some p =>
    let s1 := if s.clock + 1 < p.2.2 + 2 ^ 14 then s.retireAt (s.rcAll owner) runit p.2.1 else s
    s1.updRqer runit fun r => { r with retirePk := r.retirePk.filter (· != p) })

/-- TOMBSTONE_EXPIRY (05, R132). -/
def execTombstoneExpiry (owner runit : Nat) (ser : BitVec 16) (s : State) : Out :=
  .next { s with rcache := s.rcache.filter (fun e =>
    !(e.owner == owner && e.runit == runit && e.ser == ser &&
      (e.tomb.map fun t => decide (t + 2 ^ 15 ≤ s.clock)).getD false)) }

/-- OWNER_INCARNATION_ADVANCE: due since a result cache was lost, and at most once in 2^17 cycles (05, R135). -/
def execOwnerIncarnationAdvance (s : State) : Out :=
  .next (
    if s.sec.incLost.isEmpty || (s.sec.incAt != 0 && decide (s.clock < s.sec.incAt + 2 ^ 17)) then s
    else { s with sec := { s.sec with incarn := s.sec.incarn + 1#8, incAt := s.clock, incLost := [] } })

/-- INCARNATION_ANNOUNCE: a die's view takes an announced value; this module announces its own (05, R135). -/
def execIncarnationAnnounce (die modul : Nat) (inc : Byte) (s : State) : Out :=
  .next (
    if (modul = s.sec.modnum.toNat ∧ inc ≠ s.sec.incarn) ∨ (modul ≠ s.sec.modnum.toNat ∧ (Tbl.find s.sec.domain modul).isNone) then s
    else s.updDie die fun d => { d with view := Tbl.set 0#8 d.view modul inc })

end Sys2Proof.Machine
end

