-- ==== Sys2Proof/Machine/Shrink.lean ====
section
/-! DEFINITION. Self-check and retirement of units, evacuations, strike recovery, ports and links that retire (02, R46, R59 to
R62; 07, R180, R182; 15, R441; 16, R381 to R389, R393). -/

namespace Sys2Proof.Machine

/-! ### Contexts that lose something (15, R441; 16, R388) -/

/-- The groups of a lane block, the walker's apart, and of a core. -/
def State.lbGroups (s : State) (lb : Nat) : List Nat := (s.groups.map (·.1)).filter (fun gs => gs / 16 == lb && !isWalker gs)
def State.coreGroups (s : State) (core : Nat) : List Nat := (s.groups.map (·.1)).filter (fun gs => coreOf gs == core && !isWalker gs)
/-- The contexts of some groups. -/
def State.ctxsOf (s : State) (gss : List Nat) : List Nat := (gss.filterMap fun gs => (Tbl.find s.groups gs).map s.spidOf).eraseDups
/-- The contexts with memory on a die: those of the partitions with a range there. -/
def State.ctxsAt (s : State) (die : Nat) : List Nat :=
  (s.spaces.filter (fun p => p.2.inUse && ((Tbl.find s.parts p.2.part).map fun q =>
    q.ranges.any (fun r => decide (homeDie r.1 ≤ die) && decide (die ≤ homeDie (r.1 + r.2 - 1)))).getD false)).map (·.1)
/-- The contexts of the partitions with a cluster on a die. [DEDUCED, log entry 97; DEDUCED, log entry 100] -/
def State.ctxsOn (s : State) (die : Nat) : List Nat :=
  (s.spaces.filter (fun p => p.2.inUse && ((Tbl.find s.parts p.2.part).map fun q => q.clusters.any (fun k => k / 48 == die)).getD false)).map (·.1)
/-- PARTS of a record (16, Table 2). -/
def State.partsOf (s : State) (spids : List Nat) : Nat := (((spids.map fun i => (s.space i).part).eraseDups).map fun p => 2 ^ p).sum

/-- The stop record of a group that a lost unit held. -/
def State.lostStop (s : State) (gs : Nat) : State :=
  match Tbl.find s.groups gs with
  | none => s
  | some g =>
    if g.stop.isSome || s.stopped (s.partOf g) then s
    else
      let g0 := (match g.ft with
        | some r => g.endHandler r
        | none => g)
      let pc := ((g0.nextSlot.bind fun b => g0.slot b).map (·.pc)).getD g0.exitPc
      s.updGroup gs fun _ => { g0 with stop := some { cause := 0x28#8, pc, rpc := pc, lanes := g0.live, restart := false, rwc := s.rwcNow gs g } }

/-- A lost unit faults the contexts of the groups it held, each from its lowest group. -/
def State.loseUnit (s : State) (gss : List Nat) : State :=
  let l := sortBy id gss
  (s.ctxsOf l).foldl (fun s1 spid =>
    match l.find? (fun gs => ((Tbl.find s.groups gs).map s.spidOf) == some spid) with
    | some gs => s1.haltBy spid 0 (coreOf gs) 0x28 0
    | none => s1) (l.foldl State.lostStop s)

/-- A cause of contexts themselves. -/
def State.loseCtxs (s : State) (spids : List Nat) (code : Nat) : State := spids.foldl (fun s i => s.haltBy i 7 0 code 0) s

/-! ### After a retirement: waiting launches and resumes are tested again (08, R214; 15, R376) -/

/-- A COSCHED grid that waits and could no longer be resident: its launch is refused; a child grid, whose LAUNCH has gone on, retires
with no workgroup. [DEDUCED, log entry 104] -/
def State.retestGrid (s : State) (k : Nat) (g : Grid) : State :=
  if !g.cosched || g.next != 0 || g.total == 0 || s.refusal g != some 5 then s
  else
    match g.packet with
    | none => s.updGrid k fun g => { g with total := 0, applied := true, waits := false }
    | some pk =>
      match Tbl.find s.packets pk with
      | some p => ((s.dropGrid k).dropPk pk).haltQueue p.queue 6 5 p.idx
      | none => s

/-- Every partition with a cluster among some cores' is tested. [DEDUCED, log entry 104] -/
def State.retest (s : State) (core : Nat) : State :=
  let ps := (s.parts.filter (fun p => p.2.clusters.contains (clusterOf core))).map (·.1)
  let s1 := (s.grids.filter (fun g => ps.contains g.2.part)).foldl (fun s g => s.retestGrid g.1 g.2) s
  ps.foldl State.recheckResumes s1

/-! ### Retirements that take effect at once: columns, slices, channels, neighbour links -/

/-- REASON of a record (16, Table 2). -/
def reasonCode : Reason → Nat
  | .entry => 0 | .idle => 1 | .errors => 2 | .strike => 3 | .early => 4

/-- A matrix column (16, R382). -/
def State.retireColumn (s : State) (core i why : Nat) : State :=
  let s1 := s.updCore core fun c => { c with lostCols := i :: c.lostCols }
  let n := (s1.core core).cols
  let held := if n = 0 then s.coreGroups core |>.filter (fun gs => ((Tbl.find s.groups gs).map fun g => (s.core core).holder == some g.wg).getD false) else []
  (s1.loseUnit held).retireRecord 4 why (if !held.isEmpty then 7 else if n = 0 then 4 else 0) (dieOf core) core 0 i n (n - 32)
    (s.partsOf (s.ctxsOf held))

/-- The live physical slice of a die that serves the fewest logical slices, the lowest on a tie. -/
def Die.target (d : Die) : Option Nat :=
  (sortBy (fun p => ((List.range 64).filter (fun ls => d.slice ls == p)).length * 64 + p)
    ((List.range 64).filter (fun p => !d.lostSlices.contains p))).head?
/-- The entries that name a slice are rewritten one after another. -/
def Die.rehash (d : Die) (q : Nat) (why : Reason) : List Nat → Die
  | [] => d
  | ls :: t =>
    if d.slice ls ≠ q then d.rehash q why t
    else
      match d.target with
      | none => d
      | some x => Die.rehash { d with slices := Tbl.set ls d.slices ls x, evacs := d.evacs ++ [⟨true, ls, q, x, why, 0, 0⟩] } q why t

/-- An L2 slice (02, R59; 16, R382). [DEDUCED, log entry 96; DEDUCED, log entry 97] -/
def State.retireSlice (s : State) (die q : Nat) (why : Reason) : State :=
  let s1 := s.updDie die fun d => { d with lostSlices := q :: d.lostSlices }
  let n := 64 - (s1.die die).lostSlices.length
  if n = 0 then
    let l := s.ctxsAt die
    ((s1.updDie die fun d => { d with memLost := true }).loseCtxs l 0x28).retireRecord 5 (reasonCode why) (if l.isEmpty then 4 else 7)
      die 0 0 q 0 0 (s.partsOf l)
  else
    let s2 := (s1.updDie die fun d => d.rehash q why (List.range 64)).retireRecord 5 (reasonCode why) 2 die 0 0 q n (n - 1) 0
    if (s2.die die).evacs.isEmpty then s2.retireRecord 5 (reasonCode why) 3 die 0 0 q n (n - 1) 0 else s2

/-- A memory channel: the reserves hold three retired channels of a die; a further one stays in service (02, R61).
[DEDUCED, log entry 96] -/
def State.retireChannel (s : State) (die c : Nat) (why : Reason) : State :=
  let k := (s.die die).lostChans.length
  if 3 ≤ k then s.retireRecord 6 (reasonCode why) 5 die 0 0 c (128 - k) 0 0
  else
    (s.updDie die fun d => { d with lostChans := c :: d.lostChans, evacs := d.evacs ++ [⟨false, c, c, c, why, 0, 0⟩] }).retireRecord 6
      (reasonCode why) 2 die 0 0 c (127 - k) (2 - k) 0

/-- The neighbour links of a die: 42 across and 40 down. [DEDUCED, log entry 27] -/
def neighbourLink (i : Nat) : Bool := decide (i < 96) && (if i % 2 = 0 then decide (i / 2 % 8 < 7) else decide (i / 2 < 40))
/-- A neighbour link: the quads that need it are unavailable (02, R69). -/
def State.retireLink (s : State) (die i why : Nat) : State :=
  (s.updDie die fun d => { d with links := i :: d.links }).retireRecord 7 why 4 die 0 0 i (81 - (s.die die).links.length) 0 0

/-! ### Self-check (16, R381, R383) -/

/-- The die of a unit, and whether there is such a unit in service. -/
def hwDie : HwUnit → Nat
  | .lane k _ | .regBank k _ => dieOf (k / 4)
  | .lsBank c _ | .column c _ => dieOf c
  | .slice d _ | .channel d _ | .neighbour d _ => d
def State.unitLive (s : State) : HwUnit → Bool
  | .lane k i => decide (k < 3072) && decide (i < 36) && !(s.lb k).lost.contains i
  | .regBank k i => decide (k < 3072) && decide (i < 18) && !(s.lb k).lostBanks.contains i
  | .lsBank c i => decide (c < 768) && decide (i < 34) && !(s.core c).lostBanks.contains i
  | .column c i => decide (c < 768) && decide (i < 34) && !(s.core c).lostCols.contains i
  | .slice d i => decide (d < 4) && decide (i < 64) && !(s.die d).lostSlices.contains i
  | .channel d i => decide (d < 4) && decide (i < 128) && !(s.die d).lostChans.contains i
  | .neighbour d i => decide (d < 4) && neighbourLink i && !(s.die d).links.contains i

/-- A quad operation that uses a link is under way. -/
def State.quadUses (s : State) (die i : Nat) : Bool :=
  let uses := fun (q : Nat) => q / 12 == die && (quadLinks q).contains i
  s.quads.any (fun a => uses a.quad) || s.cores.any (fun c => c.2.eng.any (fun o => match o.kind with
    | .quad ps => ps.any (fun p => uses (quadOf (clusterOf p.core)))
    | _ => false))

/-- The unit has an idle window (16, Table 1). [DEDUCED, log entry 103] -/
def State.idleWindow (s : State) : HwUnit → Bool
  | .lane k _ | .regBank k _ => (s.lbGroups k).isEmpty
  | .lsBank c _ => !(s.wgs.any (fun w => w.2.core == c && (w.2.resident || w.2.gone)))
  | .column c _ => (s.core c).holder.isNone && (s.core c).lent.isNone
  | .slice _ _ | .channel _ _ => true
  | .neighbour d i => !s.quadUses d i

/-- Retirements of a die that are at the head of their order and need no boundary take effect. -/
def State.drainRetired (s : State) (die : Nat) : Nat → State
  | 0 => s
  | n + 1 =>
    match (s.die die).pending with
    | [] => s
    | (u, why) :: _ =>
      let next := fun (s : State) => (s.updDie die fun d => { d with pending := d.pending.drop 1 }).drainRetired die n
      match u with
      | .column c i => next (s.retireColumn c i (reasonCode why))
      | .neighbour d i => next (s.retireLink d i (reasonCode why))
      | .slice d i => if (s.die d).evacs.isEmpty then next (s.retireSlice d i why) else s
      | .channel d i => if (s.die d).evacs.isEmpty then next (s.retireChannel d i why) else s
      | _ => s

/-- The retirements of a die that can take effect now, in the order of detection (16, R383). [DEDUCED, log entry 95] -/
def State.settleRetired (s : State) (die : Nat) : State := s.drainRetired die ((s.die die).pending.length + 1)

/-- SELF_CHECK: a unit is checked in its idle window, and retires where it fails. [DEDUCED, log entry 103] -/
def execSelfCheck (u : HwUnit) (why : Reason) (pass : Bool) (s : State) : Out :=
  .next (if !s.sec.powered || !s.unitLive u || !s.idleWindow u then s
    else
      let s1 := { s with checks := s.checks.filter (· != u) }
      let die := hwDie u
      if pass || (s.die die).pending.any (fun p => p.1 == u) then s1
      else (s1.updDie die fun d => { d with pending := d.pending ++ [(u, why)] }).settleRetired die)

/-- A unit of a lane block or core has had no idle window for 2^34 cycles; for the memory side the flag changes only timing.
[DEDUCED, log entry 103] -/
def State.flagDue (s : State) (u : HwUnit) : Bool :=
  let long := fun (x : Option Nat) => (x.map fun t => decide (t + 2 ^ 34 ≤ s.clock)).getD false
  match u with
  | .lane k _ | .regBank k _ => long (s.lb k).busySince
  | .lsBank c _ => long (s.core c).busyLs
  | .column c _ => long (s.core c).busyArr
  | _ => true

/-- EARLY_CHECK_FLAG. -/
def execEarlyCheckFlag (u : HwUnit) (s : State) : Out :=
  .next (if !s.sec.powered || !s.unitLive u || s.checks.contains u || !s.flagDue u then s else { s with checks := u :: s.checks })

/-! ### Retirements at a boundary -/

/-- The unit that a die retires next. [DEDUCED, log entry 95] -/
def State.retiring (s : State) (die : Nat) : Option (HwUnit × Reason) := (s.die die).pending.head?
def State.retired (s : State) (die : Nat) : State := (s.updDie die fun d => { d with pending := d.pending.drop 1 }).settleRetired die

/-- STEERING_REWRITE: between words of the lane block (07, R181, R182). -/
def execSteeringRewrite (lb : Nat) (s : State) : Out :=
  let die := dieOf (lb / 4)
  .next (match s.retiring die with
  | some (.lane k i, why) =>
    if k ≠ lb || decide (s.clock < (s.lb lb).busy) then s
    else
      let s1 := s.updLb lb fun b => { b with lost := insertBy id i b.lost }
      let n := (s1.lb lb).width
      let gone := if n = 0 then s.lbGroups lb else []
      let s2 := if n = 0 then ((s1.endWalk lb 5).updLb lb fun b => { b with misses := [] }).loseUnit gone else s1
      ((s2.retireRecord 1 (reasonCode why) (if !gone.isEmpty then 7 else if n = 0 then 4 else 0) die (lb / 4) (lb % 4) i n (n - 32)
        (s.partsOf (s.ctxsOf gone))).retired die).retest (lb / 4)
  | _ => s)

/-- REGISTER_BANK_MIGRATION: between words of the lane block, to a spare, or, with none left, within a smaller capacity (07,
R180). -/
def execRegisterBankMigration (lb : Nat) (s : State) : Out :=
  let die := dieOf (lb / 4)
  .next (match s.retiring die with
  | some (.regBank k i, why) =>
    if k ≠ lb || decide (s.clock < (s.lb lb).busy) then s
    else
      let s1 := s.updLb lb fun b => b.loseBank i
      let n := (s1.lb lb).banks
      let here := s.lbGroups lb
      let need := (here.map fun gs => ((Tbl.find s.groups gs).map (·.n)).getD 0).sum
      let gone := if (s1.lb lb).capacity < need then here else []
      ((s1.loseUnit gone).retireRecord 2 (reasonCode why) (if !gone.isEmpty then 7 else if 16 ≤ n then 1 else 0) die (lb / 4) (lb % 4) i
        n (n - 16) (s.partsOf (s.ctxsOf gone)) |>.retired die).retest (lb / 4)
  | _ => s)

/-- LOCAL_STORE_BANK_MIGRATION: between instructions, to a spare, or, with none left, the core is lost (02, R46). -/
def execLocalStoreBankMigration (core : Nat) (s : State) : Out :=
  let die := dieOf core
  .next (match s.retiring die with
  | some (.lsBank c i, why) =>
    if c ≠ core then s
    else
      let s1 := s.updCore core fun k => { k with lostBanks := i :: k.lostBanks }
      let n := (s1.core core).banks
      let gone := if n < 32 then s.coreGroups core else []
      ((s1.loseUnit gone).retireRecord 3 (reasonCode why) (if 32 ≤ n then 1 else if gone.isEmpty then 4 else 7) die core 0 i n (n - 32)
        (s.partsOf (s.ctxsOf gone)) |>.retired die).retest core
  | _ => s)

/-! ### Evacuations (02, R59 to R62) -/

/-- The first evacuation of a die changes, or ends. -/
def State.updEvac (s : State) (die : Nat) (f : Evac → Evac) : State :=
  s.updDie die fun d => { d with evacs := d.evacs.take 1 |>.map f |>.append (d.evacs.drop 1) }
/-- Its end; the record where nothing of its unit is left to move (16, R383). -/
def State.endEvac (s : State) (die : Nat) (e : Evac) : State :=
  let s1 := s.updDie die fun d => { d with evacs := d.evacs.drop 1 }
  let d := s1.die die
  if d.evacs.any (fun x => x.slice == e.slice && x.src == e.src) then s1
  else
    let n := if e.slice then 64 - d.lostSlices.length else 128 - d.lostChans.length
    (s1.retireRecord (if e.slice then 5 else 6) (reasonCode e.why) 3 die 0 0 e.src n (if e.slice then n - 1 else 3 - d.lostChans.length) 0).settleRetired die

/-- The result cache of a physical slice. -/
def State.rcPlaceOf (s : State) (die p : Nat) : Nat := (s.sec.modnum.toNat * 4 + die) * 64 + p + 2 ^ 30
/-- The logical slices that a physical slice serves, in part while it is evacuated. -/
def Die.servedBy (d : Die) (p : Nat) : List Nat :=
  (List.range 64).filter (fun ls => d.slice ls == p || d.evacs.any (fun e => e.slice && e.logical == ls && e.src == p))

/-- SLICE_EVACUATION_SET: one set of the logical slice leaves the old slice; after the last the old slice's results of it are
discarded (05, R135). -/
def execSliceEvacuationSet (die : Nat) (s : State) : Out :=
  .next (match (s.die die).evacs.head? with
  | none => s
  | some e =>
    if !e.slice then s
    else if 1024 ≤ e.ptr then
      let owner := (s.sec.modnum.toNat * 4 + die) * 64 + e.logical
      ({ s with
        rcache := s.rcache.filter (fun x => x.owner != owner || x.place != s.rcPlaceOf die e.src)
        sec := { s.sec with incLost := (owner :: s.sec.incLost).eraseDups } } : State).endEvac die e
    else
      let mine := s.l2.filter (fun x => homeDie (x.1 * 128) == die && homeLs (x.1 * 128) == e.logical && homeSet (x.1 * 128) == e.ptr)
      (mine.foldl (fun s x => s.dropLine x.1) s).updEvac die fun e => { e with ptr := e.ptr + 1 })

/-- The lines of a die, and those of a channel's reserve of 36 MiB. -/
def dieLines : Nat := dieBytes / 128
def reserveLines : Nat := 36 * 2 ^ 20 / 128
/-- The channel that holds a line of a die, by its number there. -/
def Die.chanOf (d : Die) (die n : Nat) : Nat := Tbl.get (homeLc (die * dieBytes + n * 128)) d.moved n

/-- CHANNEL_EVACUATION_LINE: the next line of the retiring channel moves into a reserve. [DEDUCED, log entry 98] -/
def execChannelEvacuationLine (die : Nat) (s : State) : Out :=
  .next (match (s.die die).evacs.head? with
  | none => s
  | some e =>
    if e.slice then s
    else
      let d := s.die die
      match ((List.range 256).map (· + e.ptr)).find? (fun n => decide (n < dieLines) && d.chanOf die n == e.src) with
      | none => if dieLines ≤ e.ptr + 256 then s.endEvac die e else s.updEvac die fun e => { e with ptr := e.ptr + 256 }
      | some n =>
        let open_ := (List.range 128).filter (fun c => !d.lostChans.contains c && decide (Tbl.get 0 d.reserve c < reserveLines))
        match open_[e.count % max 1 open_.length]? with
        | none => s.endEvac die e
        | some c =>
          (s.updDie die fun d =>
            { d with moved := Tbl.put d.moved n c, reserve := Tbl.put d.reserve c (Tbl.get 0 d.reserve c + 1) }).updEvac die fun e =>
            { e with ptr := n + 1, count := e.count + 1 })

/-! ### Strikes (16, R386 to R389) -/

/-- The group as it stood before its oldest discarded word, which issued from slot `b` after `now` words, with what that word and
later ones do not decide. -/
def Group.asBefore (g : Group) (t : Tent) (b : Bool) (now : W32) : Group :=
  let x := t.before
  let pc := ((x.slot b).map (·.pc)).getD x.regpc
  { x with
    gtime := g.gtime, gtcmp := g.gtcmp, preq := g.preq, forced := g.forced, retiring := false
    cp := g.cp, mx := g.mx, gc := g.gc, cl := g.cl, collSeq := g.collSeq, subSeen := g.subSeen
    chk := { x.chk with rc := g.chk.rc }
    held := match g.held with
      | some h => if h.rwc.toNat < now.toNat then some h else x.held
      | none => none
    stop := g.stop.map fun p => { p with pc, rpc := pc, rwc := now } }

/-- A group discards the words whose results are tentative, from the oldest that `f` picks on. -/
def State.discard (s : State) (gs : Nat) (f : Tent → Bool) : State :=
  let ts := (Tbl.find s.tents gs).getD []
  match ts.find? (fun t => decide (s.clock < t.born + 48) && f t), Tbl.find s.groups gs with
  | some t, some g =>
    let keep := ts.filter (fun x => decide (x.nth < t.nth))
    let after := ts.filter (fun x => decide (t.nth < x.nth))
    let b := ((after.head?.map fun x => x.before.lastB)).getD g.lastB
    let dead := (s.reqsOf gs).filter (fun e => decide (t.nth ≤ e.2.nth))
    let s1 := dead.foldl (fun s e => s.dropReq e.1) s
    let now := g.rwc + BitVec.ofNat 32 ((keep.map (·.n)).sum)
    { s1 with
      groups := Tbl.put s1.groups gs (g.asBefore t b now)
      tents := Tbl.set [] s1.tents gs keep }
  | _, _ => s

/-- A strike's record: recovered, or not (16, R388). [DEDUCED, log entry 101] -/
def State.strikeRecord (s : State) (ok : Bool) (die core zone parts : Nat) : State :=
  s.retireRecord (if ok then 8 else 9) 3 (if ok then 6 else 7) die core 0 zone 0 0 parts

/-- An unrecoverable strike: 0x29 in the contexts whose state the zone held. -/
def State.unrecovered (s : State) (spids : List Nat) (die core zone : Nat) : State :=
  (s.loseCtxs spids 0x29).strikeRecord false die core zone (s.partsOf spids)

/-- A strike in a core's port or Felt: what is held there is discarded and re-issued. -/
def State.strikePort (s : State) (core age zone : Nat) : State :=
  let l := s.coreGroups core
  if 48 ≤ age then s.unrecovered (s.ctxsOf l) (dieOf core) core zone
  else (l.foldl (fun s gs => s.discard gs (fun t => !t.reqs.isEmpty)) s).strikeRecord true (dieOf core) core zone 0

/-- STRIKE_REPORT: `age` is the report's age bound. [DEDUCED, log entry 99; DEDUCED, log entry 100] -/
def execStrikeReport (z : Zone) (age : Nat) (s : State) : Out :=
  .next (if !s.sec.powered then s
  else
    match z with
    | .laneBlock lb =>
      if 3072 ≤ lb then s
      else if 48 ≤ age then s.unrecovered (s.ctxsOf (s.lbGroups lb)) (dieOf (lb / 4)) (lb / 4) (lb % 4)
      else (((s.groups.map (·.1)).filter (fun gs => gs / 16 == lb)).foldl (fun s gs => s.discard gs (fun _ => true)) s).strikeRecord true
        (dieOf (lb / 4)) (lb / 4) (lb % 4) 0
    | .corePort core => if 768 ≤ core then s else s.strikePort core age 4
    | .felt core => if 768 ≤ core then s else s.strikePort core age 7
    | .localStore core off ok =>
      if 768 ≤ core ∨ 2 ^ 19 ≤ off then s
      else
        (if ok then s else s.updCore core fun c => { c with bad := (off / 4 :: c.bad).eraseDups }).strikeRecord ok (dieOf core) core 5 0
    | .tileWord core i ok =>
      if 768 ≤ core ∨ 16 * 2048 ≤ i then s
      else (if ok then s else s.updCore core fun c => { c with badTiles := (i :: c.badTiles).eraseDups }).strikeRecord ok (dieOf core) core 5 0
    | .matrix core =>
      if 768 ≤ core then s
      else if 48 ≤ age then
        s.unrecovered (s.ctxsOf ((s.coreGroups core).filter (fun gs => ((Tbl.find s.groups gs).map fun g =>
          (s.core core).holder == some g.wg).getD false))) (dieOf core) core 6
      else s.strikeRecord true (dieOf core) core 6 0
    | .l1 core =>
      if 768 ≤ core then s
      else if 48 ≤ age then (s.l1Clear core).unrecovered (s.ctxsOf (s.coreGroups core)) (dieOf core) core 8
      else (s.l1Clear core).strikeRecord true (dieOf core) core 8 0
    | .sliceData pa ok =>
      if !s.ownMem pa || decide (3 < homeDie pa) then s
      else (if ok then s else { s with poison := (pa / 4 :: s.poison).eraseDups }).strikeRecord ok (homeDie pa) 0 9 0
    | .sliceDir die ls =>
      if 3 < die ∨ 63 < ls then s
      else
        -- the physical slice's whole result cache is lost (05, R135)
        let owners := ((s.die die).servedBy ls).map fun l => (s.sec.modnum.toNat * 4 + die) * 64 + l
        ({ s with
          rcache := s.rcache.filter (fun x => x.place != s.rcPlaceOf die ls)
          sec := { s.sec with incLost := (owners ++ s.sec.incLost).eraseDups } } : State).unrecovered (s.ctxsAt die) die 0 9
    | .headbox die => if 3 < die then s else s.unrecovered (s.ctxsOn die) die 0 10)

/-! ### Ports and links (16, R393; 18, R413) -/

/-- FABRIC_PORT_RETIREMENT: a StelyFabric port, or a die-to-die link; traffic takes the paths that remain. -/
def execFabricPortRetirement (link : Bool) (i : Nat) (s : State) : Out :=
  .next (if !s.sec.powered then s
    else if link then
      (if 12 ≤ i then s else { s with sec := { s.sec with linkLost := (i :: s.sec.linkLost).eraseDups } })
    else if 32 ≤ i then s else { s with sec := { s.sec with fabLost := (i :: s.sec.fabLost).eraseDups } })

end Sys2Proof.Machine
end

