-- ==== Sys2Proof/Machine/Dispatch.lean ====
section
/-! DEFINITION. The one dispatch from instructions to their meanings. -/

namespace Sys2Proof.Machine

def exec (i : Instr) (s : State) : Host.Outcome State Fault Refusal :=
  match i with
  | .iadd h d a b ty => Sys2Proof.Machine.execIadd h d a b ty s
  | .iaddRri h d a imm ty => Sys2Proof.Machine.execIaddRri h d a imm ty s
  | .isub h d a b ty => Sys2Proof.Machine.execIsub h d a b ty s
  | .isubRri h d a imm ty => Sys2Proof.Machine.execIsubRri h d a imm ty s
  | .iadds h d a b ty => Sys2Proof.Machine.execIadds h d a b ty s
  | .iaddsRri h d a imm ty => Sys2Proof.Machine.execIaddsRri h d a imm ty s
  | .isubs h d a b ty => Sys2Proof.Machine.execIsubs h d a b ty s
  | .isubsRri h d a imm ty => Sys2Proof.Machine.execIsubsRri h d a imm ty s
  | .imul h d a b ty => Sys2Proof.Machine.execImul h d a b ty s
  | .imulRri h d a imm ty => Sys2Proof.Machine.execImulRri h d a imm ty s
  | .imulh h d a b ty => Sys2Proof.Machine.execImulh h d a b ty s
  | .imad h d a b c ty => Sys2Proof.Machine.execImad h d a b c ty s
  | .imadw h d a b c ty => Sys2Proof.Machine.execImadw h d a b c ty s
  | .idiv h d a b ty => Sys2Proof.Machine.execIdiv h d a b ty s
  | .irem h d a b ty => Sys2Proof.Machine.execIrem h d a b ty s
  | .imin h d a b ty => Sys2Proof.Machine.execImin h d a b ty s
  | .iminRri h d a imm ty => Sys2Proof.Machine.execIminRri h d a imm ty s
  | .imax h d a b ty => Sys2Proof.Machine.execImax h d a b ty s
  | .imaxRri h d a imm ty => Sys2Proof.Machine.execImaxRri h d a imm ty s
  | .iabs h d a ty => Sys2Proof.Machine.execIabs h d a ty s
  | .ineg h d a ty => Sys2Proof.Machine.execIneg h d a ty s
  | .lea h d a b sh ty => Sys2Proof.Machine.execLea h d a b sh ty s
  | .mov h d a ty => Sys2Proof.Machine.execMov h d a ty s
  | .icmp h d a b cc ty => Sys2Proof.Machine.execIcmp h d a b cc ty s
  | .icmpRri h d a imm cc ty => Sys2Proof.Machine.execIcmpRri h d a imm cc ty s
  | .icmpp h d a b cc ty => Sys2Proof.Machine.execIcmpp h d a b cc ty s
  | .icmppRri h d a imm cc ty => Sys2Proof.Machine.execIcmppRri h d a imm cc ty s
  | .pick h d a b c ty => Sys2Proof.Machine.execPick h d a b c ty s
  | .movi h d imm ty => Sys2Proof.Machine.execMovi h d imm ty s
  | .movih h d imm => Sys2Proof.Machine.execMovih h d imm s
  | .and h d a b ty => Sys2Proof.Machine.execAnd h d a b ty s
  | .andRri h d a imm ty => Sys2Proof.Machine.execAndRri h d a imm ty s
  | .or h d a b ty => Sys2Proof.Machine.execOr h d a b ty s
  | .orRri h d a imm ty => Sys2Proof.Machine.execOrRri h d a imm ty s
  | .xor h d a b ty => Sys2Proof.Machine.execXor h d a b ty s
  | .xorRri h d a imm ty => Sys2Proof.Machine.execXorRri h d a imm ty s
  | .not h d a ty => Sys2Proof.Machine.execNot h d a ty s
  | .andn h d a b ty => Sys2Proof.Machine.execAndn h d a b ty s
  | .andnRri h d a imm ty => Sys2Proof.Machine.execAndnRri h d a imm ty s
  | .shl h d a b ty => Sys2Proof.Machine.execShl h d a b ty s
  | .shlRri h d a imm ty => Sys2Proof.Machine.execShlRri h d a imm ty s
  | .shr h d a b ty => Sys2Proof.Machine.execShr h d a b ty s
  | .shrRri h d a imm ty => Sys2Proof.Machine.execShrRri h d a imm ty s
  | .sar h d a b ty => Sys2Proof.Machine.execSar h d a b ty s
  | .sarRri h d a imm ty => Sys2Proof.Machine.execSarRri h d a imm ty s
  | .rotl h d a b ty => Sys2Proof.Machine.execRotl h d a b ty s
  | .rotlRri h d a imm ty => Sys2Proof.Machine.execRotlRri h d a imm ty s
  | .funnel h d a b c right => Sys2Proof.Machine.execFunnel h d a b c right s
  | .popc h d a ty => Sys2Proof.Machine.execPopc h d a ty s
  | .clz h d a ty => Sys2Proof.Machine.execClz h d a ty s
  | .ctz h d a ty => Sys2Proof.Machine.execCtz h d a ty s
  | .brev h d a ty => Sys2Proof.Machine.execBrev h d a ty s
  | .bfx h d a b c ty => Sys2Proof.Machine.execBfx h d a b c ty s
  | .bfi h d a b c ty => Sys2Proof.Machine.execBfi h d a b c ty s
  | .bmrg h d a b c => Sys2Proof.Machine.execBmrg h d a b c s
  | .cnvi h d a ty st sat => Sys2Proof.Machine.execCnvi h d a ty st sat s
  | .pand h d a b => Sys2Proof.Machine.execPand h d a b s
  | .por h d a b => Sys2Proof.Machine.execPor h d a b s
  | .pxor h d a b => Sys2Proof.Machine.execPxor h d a b s
  | .pnot h d a => Sys2Proof.Machine.execPnot h d a s
  | .pmov h m => Sys2Proof.Machine.execPmov h m s
  | .pset h d imm => Sys2Proof.Machine.execPset h d imm s
  | .fadd h d a b m ty rm => Sys2Proof.Machine.execFadd h d a b m ty rm s
  | .fsub h d a b m ty rm => Sys2Proof.Machine.execFsub h d a b m ty rm s
  | .fmul h d a b m ty rm => Sys2Proof.Machine.execFmul h d a b m ty rm s
  | .ffma h d a b c m ty rm => Sys2Proof.Machine.execFfma h d a b c m ty rm s
  | .fmin h d a b m ty => Sys2Proof.Machine.execFmin h d a b m ty s
  | .fmax h d a b m ty => Sys2Proof.Machine.execFmax h d a b m ty s
  | .fminx h d a b m ty => Sys2Proof.Machine.execFminx h d a b m ty s
  | .fmaxx h d a b m ty => Sys2Proof.Machine.execFmaxx h d a b m ty s
  | .fdiv h d a b m ty rm => Sys2Proof.Machine.execFdiv h d a b m ty rm s
  | .fsqrt h d a m ty rm => Sys2Proof.Machine.execFsqrt h d a m ty rm s
  | .frcp h d a m ty rm => Sys2Proof.Machine.execFrcp h d a m ty rm s
  | .frsq h d a m ty rm => Sys2Proof.Machine.execFrsq h d a m ty rm s
  | .fex2 h d a m ty rm => Sys2Proof.Machine.execFex2 h d a m ty rm s
  | .flg2 h d a m ty rm => Sys2Proof.Machine.execFlg2 h d a m ty rm s
  | .fcmpp h d a b m cc ty => Sys2Proof.Machine.execFcmpp h d a b m cc ty s
  | .fclass h d a ty => Sys2Proof.Machine.execFclass h d a ty s
  | .frnd h d a m ty rm => Sys2Proof.Machine.execFrnd h d a m ty rm s
  | .pkadd h d a b m ty rm => Sys2Proof.Machine.execPkadd h d a b m ty rm s
  | .pkmul h d a b m ty rm => Sys2Proof.Machine.execPkmul h d a b m ty rm s
  | .pkfma h d a b c m ty rm => Sys2Proof.Machine.execPkfma h d a b c m ty rm s
  | .bdot4 h d a b c sa sb sat => Sys2Proof.Machine.execBdot4 h d a b c sa sb sat s
  | .pkdot h d a b c m ty rm => Sys2Proof.Machine.execPkdot h d a b c m ty rm s
  | .fcvt h d a ty st rm => Sys2Proof.Machine.execFcvt h d a ty st rm s
  | .ftoi h d a ty st rm => Sys2Proof.Machine.execFtoi h d a ty st rm s
  | .itof h d a ty st rm => Sys2Proof.Machine.execItof h d a ty st rm s
  | .fpack h d a b ty rm hi => Sys2Proof.Machine.execFpack h d a b ty rm hi s
  | .funpk h d a ty ix => Sys2Proof.Machine.execFunpk h d a ty ix s
  | .rngk h d a b => Sys2Proof.Machine.execRngk h d a b s
  | .bra h off => Sys2Proof.Machine.execBra h off s
  | .brx h a => Sys2Proof.Machine.execBrx h a s
  | .call h d off => Sys2Proof.Machine.execCall h d off s
  | .ret h a => Sys2Proof.Machine.execRet h a s
  | .mjoin h off => Sys2Proof.Machine.execMjoin h off s
  | .join h => Sys2Proof.Machine.execJoin h s
  | .exit h => Sys2Proof.Machine.execExit h s
  | .nop h => Sys2Proof.Machine.execNop h s
  | .region h => Sys2Proof.Machine.execRegion h s
  | .yield h d a b => Sys2Proof.Machine.execYield h d a b s
  | .lxch h d a b mode seg => Sys2Proof.Machine.execLxch h d a b mode seg s
  | .lxchRri h d a imm mode seg => Sys2Proof.Machine.execLxchRri h d a imm mode seg s
  | .poll h d a inv => Sys2Proof.Machine.execPoll h d a inv s
  | .lred h d a op ty => Sys2Proof.Machine.execLred h d a op ty s
  | .peer h d a ty whole => Sys2Proof.Machine.execPeer h d a ty whole s
  | .bcast h d a b first => Sys2Proof.Machine.execBcast h d a b first s
  | .regroup h d a b g => Sys2Proof.Machine.execRegroup h d a b g s
  | .ld h d m => Sys2Proof.Machine.execLd h d m s
  | .st h d m => Sys2Proof.Machine.execSt h d m s
  | .lds h d m => Sys2Proof.Machine.execLds h d m s
  | .sts h d m => Sys2Proof.Machine.execSts h d m s
  | .pref h near m => Sys2Proof.Machine.execPref h near m s
  | .cmnt h a op => Sys2Proof.Machine.execCmnt h a op s
  | .fence h ord sco => Sys2Proof.Machine.execFence h ord sco s
  | .efence h => Sys2Proof.Machine.execEfence h s
  | .atom h d a b c op sz ord sco => Sys2Proof.Machine.execAtom h d a b c op sz ord sco s
  | .red h d m op => Sys2Proof.Machine.execRed h d m op s
  | .redo h d m => Sys2Proof.Machine.execRedo h d m s
  | .txb h => Sys2Proof.Machine.execTxb h s
  | .txe h => Sys2Proof.Machine.execTxe h s
  | .txa h code => Sys2Proof.Machine.execTxa h code s
  | .txq h d => Sys2Proof.Machine.execTxq h d s
  | .cpy h d a b c => Sys2Proof.Machine.execCpy h d a b c s
  | .cpys h d a b c => Sys2Proof.Machine.execCpys h d a b c s
  | .cpyx h d a b c => Sys2Proof.Machine.execCpyx h d a b c s
  | .batch h d cls => Sys2Proof.Machine.execBatch h d cls s
  | .waitb h a imm cls => Sys2Proof.Machine.execWaitb h a imm cls s
  | .waitn h imm cls => Sys2Proof.Machine.execWaitn h imm cls s
  | .subs h d a b c pair => Sys2Proof.Machine.execSubs h d a b c pair s
  | .unsub h d a => Sys2Proof.Machine.execUnsub h d a s
  | .subfl h => Sys2Proof.Machine.execSubfl h s
  | .subq h d a => Sys2Proof.Machine.execSubq h d a s
  | .mma h t a b c form sp ck ckt => Sys2Proof.Machine.execMma h t a b c form sp ck ckt s
  | .mzero h t => Sys2Proof.Machine.execMzero h t s
  | .mldt h t a => Sys2Proof.Machine.execMldt h t a s
  | .mstt h t a => Sys2Proof.Machine.execMstt h t a s
  | .mepi h t a b c => Sys2Proof.Machine.execMepi h t a b c s
  | .mchk h t k b te i8 => Sys2Proof.Machine.execMchk h t k b te i8 s
  | .mzmap h d t => Sys2Proof.Machine.execMzmap h d t s
  | .bar h => Sys2Proof.Machine.execBar h s
  | .bara h => Sys2Proof.Machine.execBara h s
  | .barw h => Sys2Proof.Machine.execBarw h s
  | .cbar h => Sys2Proof.Machine.execCbar h s
  | .gbar h => Sys2Proof.Machine.execGbar h s
  | .qcnt h d q => Sys2Proof.Machine.execQcnt h d q s
  | .qtry h op => Sys2Proof.Machine.execQtry h op s
  | .coll h a => Sys2Proof.Machine.execColl h a s
  | .cabort h a => Sys2Proof.Machine.execCabort h a s
  | .launch h d a => Sys2Proof.Machine.execLaunch h d a s
  | .lwait h d a => Sys2Proof.Machine.execLwait h d a s
  | .srd h d r => Sys2Proof.Machine.execSrd h d r s
  | .swr h a r => Sys2Proof.Machine.execSwr h a r s
  | .trap h imm => Sys2Proof.Machine.execTrap h imm s
  | .bpt h imm => Sys2Proof.Machine.execBpt h imm s
  | .mark h imm => Sys2Proof.Machine.execMark h imm s
  | .tlbw h a b lvl => Sys2Proof.Machine.execTlbw h a b lvl s
  | .tlbi h a b space => Sys2Proof.Machine.execTlbi h a b space s
  | .hret h status => Sys2Proof.Machine.execHret h status s
  | .pairedWord sw s0 s1 => Sys2Proof.Machine.execPairedWord sw s0 s1 s
  | .longResultReturn rq => Sys2Proof.Machine.execLongResultReturn rq s
  | .groupPromotion gs => Sys2Proof.Machine.execGroupPromotion gs s
  | .groupRetirement gs => Sys2Proof.Machine.execGroupRetirement gs s
  | .gtimeTimer gs => Sys2Proof.Machine.execGtimeTimer gs s
  | .walkerStart lb => Sys2Proof.Machine.execWalkerStart lb s
  | .walkerTimeout lb => Sys2Proof.Machine.execWalkerTimeout lb s
  | .firstTouchTimeout gs => Sys2Proof.Machine.execFirstTouchTimeout gs s
  | .homeSliceAccess rq => Sys2Proof.Machine.execHomeSliceAccess rq s
  | .remoteInvalidation die line => Sys2Proof.Machine.execRemoteInvalidation die line s
  | .writeAcknowledgement rq => Sys2Proof.Machine.execWriteAcknowledgement rq s
  | .writeReturnedUnperformed rq => Sys2Proof.Machine.execWriteReturnedUnperformed rq s
  | .sectorHoldTimeout sector => Sys2Proof.Machine.execSectorHoldTimeout sector s
  | .meshPacketArrival rq room => Sys2Proof.Machine.execMeshPacketArrival rq room s
  | .negativeAcknowledgement rq => Sys2Proof.Machine.execNegativeAcknowledgement rq s
  | .meshRetransmit rq => Sys2Proof.Machine.execMeshRetransmit rq s
  | .watermarkSweep u => Sys2Proof.Machine.execWatermarkSweep u s
  | .incarnationAdvance gs => Sys2Proof.Machine.execIncarnationAdvance gs s
  | .ownershipRequest core line => Sys2Proof.Machine.execOwnershipRequest core line s
  | .ownershipRecall core line => Sys2Proof.Machine.execOwnershipRecall core line s
  | .resultCacheRequest rq copy => Sys2Proof.Machine.execResultCacheRequest rq copy s
  | .requestReply rq => Sys2Proof.Machine.execRequestReply rq s
  | .retirePacket runit owner => Sys2Proof.Machine.execRetirePacket runit owner s
  | .retirePacketSend runit owner => Sys2Proof.Machine.execRetirePacketSend runit owner s
  | .busyRetry rq => Sys2Proof.Machine.execBusyRetry rq s
  | .requestResend rq => Sys2Proof.Machine.execRequestResend rq s
  | .requestAbandon rq => Sys2Proof.Machine.execRequestAbandon rq s
  | .ageExpiry rq copy => Sys2Proof.Machine.execAgeExpiry rq copy s
  | .tombstoneExpiry owner runit ser => Sys2Proof.Machine.execTombstoneExpiry owner runit ser s
  | .ownerIncarnationAdvance => Sys2Proof.Machine.execOwnerIncarnationAdvance s
  | .incarnationAnnounce die modul inc => Sys2Proof.Machine.execIncarnationAnnounce die modul inc s
  | .requesterHoldRelease runit => Sys2Proof.Machine.execRequesterHoldRelease runit s
  | .txPrepare gs => Sys2Proof.Machine.execTxPrepare gs s
  | .txPrepareReply gs => Sys2Proof.Machine.execTxPrepareReply gs s
  | .txPrepareTimeout gs lane => Sys2Proof.Machine.execTxPrepareTimeout gs lane s
  | .txCommitMessage gs lane slice => Sys2Proof.Machine.execTxCommitMessage gs lane slice s
  | .txAbortMessage gs lane slice => Sys2Proof.Machine.execTxAbortMessage gs lane slice s
  | .reductionApplication grid => Sys2Proof.Machine.execReductionApplication grid s
  | .gridRetirement grid => Sys2Proof.Machine.execGridRetirement grid s
  | .workgroupPlacement grid => Sys2Proof.Machine.execWorkgroupPlacement grid s
  | .snapshotSegment core pub => Sys2Proof.Machine.execSnapshotSegment core pub s
  | .feltEviction core => Sys2Proof.Machine.execFeltEviction core s
  | .feltEntryAgeExpiry core => Sys2Proof.Machine.execFeltEntryAgeExpiry core s
  | .feltUpdateApply src dst => Sys2Proof.Machine.execFeltUpdateApply src dst s
  | .detachMessage core sub => Sys2Proof.Machine.execDetachMessage core sub s
  | .detachAcknowledgement core sub => Sys2Proof.Machine.execDetachAcknowledgement core sub s
  | .attachMessage core sub => Sys2Proof.Machine.execAttachMessage core sub s
  | .attachReply core sub => Sys2Proof.Machine.execAttachReply core sub s
  | .resumeMessage core sub => Sys2Proof.Machine.execResumeMessage core sub s
  | .unsubRemoval core sub => Sys2Proof.Machine.execUnsubRemoval core sub s
  | .matrixOperation core => Sys2Proof.Machine.execMatrixOperation core s
  | .quadArrivalTimeout quad qj => Sys2Proof.Machine.execQuadArrivalTimeout quad qj s
  | .copyChunk core => Sys2Proof.Machine.execCopyChunk core s
  | .batchComplete gs cls => Sys2Proof.Machine.execBatchComplete gs cls s
  | .collectivePacket coll rank chunk => Sys2Proof.Machine.execCollectivePacket coll rank chunk s
  | .collectiveComplete coll => Sys2Proof.Machine.execCollectiveComplete coll s
  | .abortToken comm att => Sys2Proof.Machine.execAbortToken comm att s
  | .doorbellWrite hwq value => Sys2Proof.Machine.execDoorbellWrite hwq value s
  | .headboxLaneTake queue => Sys2Proof.Machine.execHeadboxLaneTake queue s
  | .headerRereadTimeout queue => Sys2Proof.Machine.execHeaderRereadTimeout queue s
  | .nopPacket pk => Sys2Proof.Machine.execNopPacket pk s
  | .signal pk => Sys2Proof.Machine.execSignal pk s
  | .wait pk => Sys2Proof.Machine.execWait pk s
  | .barrierAnd pk => Sys2Proof.Machine.execBarrierAnd pk s
  | .barrierOr pk => Sys2Proof.Machine.execBarrierOr pk s
  | .waitRetest pk => Sys2Proof.Machine.execWaitRetest pk s
  | .launchPacket pk => Sys2Proof.Machine.execLaunchPacket pk s
  | .copy pk => Sys2Proof.Machine.execCopy pk s
  | .ckpt pk => Sys2Proof.Machine.execCkpt pk s
  | .quiesce pk => Sys2Proof.Machine.execQuiesce pk s
  | .packetCompletion pk => Sys2Proof.Machine.execPacketCompletion pk s
  | .createQueue pk => Sys2Proof.Machine.execCreateQueue pk s
  | .bindQueue pk => Sys2Proof.Machine.execBindQueue pk s
  | .unbindQueue pk => Sys2Proof.Machine.execUnbindQueue pk s
  | .resetQueue pk => Sys2Proof.Machine.execResetQueue pk s
  | .flushControlBlocks pk => Sys2Proof.Machine.execFlushControlBlocks pk s
  | .createSpace pk => Sys2Proof.Machine.execCreateSpace pk s
  | .tearDownSpace pk => Sys2Proof.Machine.execTearDownSpace pk s
  | .setRaceMode pk => Sys2Proof.Machine.execSetRaceMode pk s
  | .setWayMasks pk => Sys2Proof.Machine.execSetWayMasks pk s
  | .setBudget pk => Sys2Proof.Machine.execSetBudget pk s
  | .meterPeriodStart part meter inst => Sys2Proof.Machine.execMeterPeriodStart part meter inst s
  | .preEmptContext pk => Sys2Proof.Machine.execPreEmptContext pk s
  | .preemptionDeadline grid => Sys2Proof.Machine.execPreemptionDeadline grid s
  | .groupSave gs => Sys2Proof.Machine.execGroupSave gs s
  | .resumeContext pk => Sys2Proof.Machine.execResumeContext pk s
  | .releaseContext pk => Sys2Proof.Machine.execReleaseContext pk s
  | .invalidateTranslations pk => Sys2Proof.Machine.execInvalidateTranslations pk s
  | .setInjector pk => Sys2Proof.Machine.execSetInjector pk s
  | .linkFlitTransmit link lane rq => Sys2Proof.Machine.execLinkFlitTransmit link lane rq s
  | .linkAcknowledgement link rq => Sys2Proof.Machine.execLinkAcknowledgement link rq s
  | .linkTimeoutRetransmit link rq => Sys2Proof.Machine.execLinkTimeoutRetransmit link rq s
  | .setRecording pk => Sys2Proof.Machine.execSetRecording pk s
  | .stopAtPoint pk => Sys2Proof.Machine.execStopAtPoint pk s
  | .sampleCounters pk => Sys2Proof.Machine.execSampleCounters pk s
  | .automaticCheckpoint spid => Sys2Proof.Machine.execAutomaticCheckpoint spid s
  | .createPartition pk => Sys2Proof.Machine.execCreatePartition pk s
  | .deletePartition pk => Sys2Proof.Machine.execDeletePartition pk s
  | .setDomain pk => Sys2Proof.Machine.execSetDomain pk s
  | .attest pk => Sys2Proof.Machine.execAttest pk s
  | .readAuditLog pk => Sys2Proof.Machine.execReadAuditLog pk s
  | .reclaimAuditLog pk => Sys2Proof.Machine.execReclaimAuditLog pk s
  | .extendMeasurement pk => Sys2Proof.Machine.execExtendMeasurement pk s
  | .setQueueTable pk => Sys2Proof.Machine.execSetQueueTable pk s
  | .sqbaseWrite value => Sys2Proof.Machine.execSqbaseWrite value s
  | .safeQueueDoorbell value => Sys2Proof.Machine.execSafeQueueDoorbell value s
  | .sqridxAtomicAdd n => Sys2Proof.Machine.execSqridxAtomicAdd n s
  | .registerWrite off value => Sys2Proof.Machine.execRegisterWrite off value s
  | .hostWrite port ordered off bytes => Sys2Proof.Machine.execHostWrite port ordered off bytes s
  | .hostRead port off len => Sys2Proof.Machine.execHostRead port off len s
  | .hostAtomic port off op => Sys2Proof.Machine.execHostAtomic port off op s
  | .portFailure port => Sys2Proof.Machine.execPortFailure port s
  | .powerGood => Sys2Proof.Machine.execPowerGood s
  | .startStage verified units digests => Sys2Proof.Machine.execStartStage verified units digests s
  | .firmwareEntryAppend body => Sys2Proof.Machine.execFirmwareEntryAppend body s
  | .selfCheck u why pass => Sys2Proof.Machine.execSelfCheck u why pass s
  | .localStoreBankMigration core => Sys2Proof.Machine.execLocalStoreBankMigration core s
  | .registerBankMigration lb => Sys2Proof.Machine.execRegisterBankMigration lb s
  | .steeringRewrite lb => Sys2Proof.Machine.execSteeringRewrite lb s
  | .sliceEvacuationSet die => Sys2Proof.Machine.execSliceEvacuationSet die s
  | .channelEvacuationLine die => Sys2Proof.Machine.execChannelEvacuationLine die s
  | .strikeReport z age => Sys2Proof.Machine.execStrikeReport z age s
  | .thermalThrottle on => Sys2Proof.Machine.execThermalThrottle on s
  | .overtemperatureShutdown => Sys2Proof.Machine.execOvertemperatureShutdown s
  | .haltLine part => Sys2Proof.Machine.execHaltLine part s
  | .haltDrainComplete part => Sys2Proof.Machine.execHaltDrainComplete part s
  | .earlyCheckFlag u => Sys2Proof.Machine.execEarlyCheckFlag u s
  | .tentativeResultCommit gs => Sys2Proof.Machine.execTentativeResultCommit gs s
  | .instructionFetch gs slotB => Sys2Proof.Machine.execInstructionFetch gs slotB s
  | .spillAreaRefill gs => Sys2Proof.Machine.execSpillAreaRefill gs s
  | .fabricPortRetirement link ix => Sys2Proof.Machine.execFabricPortRetirement link ix s
  | .powerLoss => Sys2Proof.Machine.execPowerLoss s

end Sys2Proof.Machine
end

