-- ==== Sys2Proof/Machine/Schedule.lean ====
section
/-! DEFINITION. The order of the module's moves: what keeps a slot's word from issuing, the lane-block scheduler, a cycle's
counters (07, R184, R185, R193, R195, R196), the replay's checks between words (17, R403, R404), and the round of the module's own
steps. Which step of another agent comes next is no matter of the spec: every candidate has its turn once in a round, and
a round ends with a cycle. -/

namespace Sys2Proof.Machine

/-! ### What keeps a slot from issuing -/

/-- A word that has been answered, or is committing, is completed also while its group stops (15, R369). -/
def PcSlot.completes (p : PcSlot) : Bool := match p.phase with
  | .answered _ | .commit => true
  | _ => false

/-- The group's workgroup is being saved and the group has been. -/
def State.isSaved (s : State) (g : Group) : Bool := ((Tbl.find s.wgs g.wg).map fun w => inMask w.savedG g.gidx).getD false

/-- The context, the partition and the group's own state let it issue (15, R368, R370, R373; 10, R263). -/
def State.groupRuns (s : State) (gs : Nat) (g : Group) (p : PcSlot) : Bool :=
  if isWalker gs then (s.lb (lbOf gs)).walk.isSome
  else
    let x := s.space (s.spidOf g)
    g.stop.isNone && !g.retiring && !s.isSaved g &&
      (p.completes ||
        (((Tbl.find s.parts (s.partOf g)).map fun q => q.halt.isNone).getD false && (!g.forced || g.ft.isSome) &&
          (x.st == .running || x.st == .preempting)))

/-- A subscription of the workgroup replays before its groups resume (15, R375); copies that run again come first. -/
def State.replaysFirst (s : State) (gs : Nat) (g : Group) : Bool :=
  (s.core (coreOf gs)).subs.any (fun e => e.2.wg == g.wg && (e.2.st == .spilled || e.2.st == .replay)) ||
    (s.core (coreOf gs)).cpq.any (fun o => o.again && o.gs == gs)

/-- The recorded end of a group that is re-executed (17, R403). -/
def State.endOf (s : State) (r : Replay) (g : Group) : Option W32 :=
  (r.ends.find? (fun e => (e.1, e.2.1, e.2.2.1) == s.nameOf g)).map (·.2.2.2)

/-- Whether a re-executed group has reached its recorded end (17, R403). [DEDUCED, log entry 81] -/
def State.atEnd (s : State) (gs : Nat) (g : Group) : Bool :=
  ((s.space (s.spidOf g)).replay.bind fun r => if r.void then none else (s.endOf r g).map fun x => decide (x.toNat ≤ (s.rwcNow gs g).toNat)).getD false

/-- Another word of the group keeps a slot from issuing: a transaction commits in the other slot. -/
def Group.commitsIn (g : Group) (b : Bool) : Bool := ((g.slot b).map fun p => p.phase == .commit).getD false

/-- The slot's word may not be taken up at all. -/
def State.blocked (s : State) (gs : Nat) (b : Bool) (g : Group) (p : PcSlot) : Bool :=
  p.missing || !s.groupRuns gs g p || g.commitsIn (!b) ||
    (!isWalker gs && (s.replaysFirst gs g || s.atEnd gs g))

/-- A write of the group waits for room in the Felt (06, R161). -/
def State.feltStuck (s : State) (gs : Nat) : Bool :=
  (s.reqsOf gs).any (fun e => e.2.writes && e.2.stage != .held && e.2.homesLeft.any (fun h => match h with
    | .bank c _ => (s.core c).felt.any (·.due)
    | .sector _ => false))

/-- The group's partition is throttled: the budget of its Headbox, or of its class's injections at the core, is spent (07, R195; 08,
R217). -/
def State.throttled (s : State) (gs : Nat) (g : Group) : Bool :=
  !isWalker gs && (s.spent (s.partOf g) 5 (dieOf (coreOf gs)) ||
    s.spent (s.partOf g) (1 + ((s.gridOf g).map (·.cls)).getD 1) (coreOf gs))

/-- What parks a slot before its word: a switch marker, a quiet point that has not settled, a requester hold, a budget, the
power and thermal delay, which leaves out every second cycle (18, R424). -/
def State.parks (s : State) (gs : Nat) (g : Group) : Option Stall :=
  if g.swPark && !g.pend.isEmpty then some .switchPark
  else if g.quietAt.isSome then some .switchPark
  else if s.heldBack gs then some .switchPark
  else if s.feltStuck gs then some .subFlush
  else if s.throttled gs g || (s.reqsOf gs).any (fun e => e.2.stage == .mesh && s.injectHeld e.2) then some .budget
  else if s.sec.throttle && s.clock % 2 == 1 then some .budget
  else none

/-! ### Before the word is decoded: the timer and the replay -/

/-- Re-execution at a word boundary: the target is reached; an event of the group that lies behind it was not produced
(17, R403, R404). -/
def State.replayAt (s : State) (gs : Nat) (b : Bool) (g : Group) (p : PcSlot) : Option State :=
  let spid := s.spidOf g
  match (s.space spid).replay with
  | none => none
  | some r =>
    if r.void || isWalker gs then none
    else
      let now := s.rwcNow gs g
      let a : At := ⟨p.pc, now, g.nissue, b⟩
      if s.isTarget g && r.target == now then
        if !((Tbl.find s.tents gs).getD []).isEmpty then some s
        else
          let last := if now = 0#32 then p.pc else g.lastPc
          some ((s.stopHit gs { a with pc := p.pc - 8#64 } spid 0).updGroup gs fun g =>
            { g with stop := g.stop.map fun x => { x with pc := last } })
      else
        match (ownEvents r (s.nameOf g) (s.allEvents (s.space spid) r)).find? (fun e => decide (evBits e.2 0 31 0 < now.toNat)) with
        | some e => some (s.parting spid gs a e.1 (List.replicate 4 0#64))
        | none => none

/-- The timer fires once what issued before is committed (14, R356). [DEDUCED, log entry 54] -/
def State.timerAt (s : State) (gs : Nat) (b : Bool) (g : Group) (p : PcSlot) : Option State :=
  if !s.timerDue gs g then none
  else if !((Tbl.find s.tents gs).getD []).isEmpty then some s
  else some (s.timerFire gs b g p)

/-! ### A slot's word -/

/-- A decoded word is executed by the group's slot. -/
def State.runInstr (s : State) (gs : Nat) (b : Bool) (i : Instr) : Out :=
  match exec i { s with cur := some ⟨gs, b⟩ } with
  | .next t => .next { t with cur := none }
  | x => x

/-- The word at a slot's PC is fetched, decoded and executed; bits that are no instruction raise 0x01 (09, R237).
[DEDUCED, log entry 43] -/
def State.fetchAndRun (s : State) (gs : Nat) (b : Bool) (g : Group) (p : PcSlot) : Out :=
  match s.fetch gs g p with
  | .word w s1 =>
    (match decode w with
     | some i => s1.runInstr gs b i
     | none => .next (s1.raise gs ⟨p.pc, s1.rwcNow gs g, g.nissue, b⟩ { code := 0x01, lanes := p.mask }))
  | x => .next (s.fetchFail gs b g p x)

/-- A slot takes up its next word: nothing happens where it may not, it parks where it must wait. -/
def State.issueSlot (s0 : State) (gs : Nat) (b : Bool) : Out :=
  let s := s0.settleQuiet gs
  match (Tbl.find s.groups gs).bind fun g => (g.slot b).map fun p => (g, p) with
  | none => .next s0
  | some (g, p) =>
    if s.blocked gs b g p then .next s0
    else
      match s.parks gs g with
      | some why => .next (s.park gs b why)
      | none =>
        match (s.replayAt gs b g p).orElse fun _ => s.timerAt gs b g p with
        | some s1 => .next s1
        | none =>
          let g1 := { g with swPark := false }
          { s with groups := Tbl.put s.groups gs g1 }.fetchAndRun gs b g1 p

/-- A slot has issued its word, or the part of it that waits for others: an arrival, a drain, a commit (07, R195). -/
def State.took (s : State) (gs : Nat) (b : Bool) (s1 : State) : Bool :=
  match Tbl.find s.groups gs, Tbl.find s1.groups gs with
  | some g, some g1 =>
    let idle := fun (g : Group) => ((g.slot b).map fun p => p.phase == .idle).getD true
    g1.nissue != g.nissue || g1.stop != g.stop || g1.held != g.held || idle g && !idle g1
  | _, _ => true

/-- A lane block issues from a slot in a cycle in which its lanes are free (07, R184). [DESIGN CHOICE, log entry 2] -/
def State.issueMove (s : State) (gs : Nat) (b : Bool) : Out :=
  if s.clock < (s.lb (lbOf gs)).busy then .next s
  else
    match s.issueSlot gs b with
    | .next s1 => if s.took gs b s1 then .next (s1.updLb (lbOf gs) fun b => { b with issued := some (s.clock, gs) }) else .next s1
    | y => y

/-! ### The scheduler (07, R185, R195) -/

/-- The slots of a group in the order in which they may issue. -/
def Group.slotOrder (g : Group) : List Bool := match g.nextSlot with
  | some b => [b, !b]
  | none => []

/-- A slot is ready: its word would issue now, were the lanes free. [DEDUCED, log entry 105] -/
def State.ready (s : State) (gs : Nat) (b : Bool) : Bool :=
  match s.issueSlot gs b with
  | .next s1 => s.took gs b s1
  | _ => true

/-- The groups of a lane block in the order of issue: slot 15, the promoted ones, the others; the oldest first. -/
def State.lbOrder (s : State) (k : Nat) : List (Nat × Group) :=
  sortBy (fun x => (if isWalker x.1 then 0 else if x.2.promoted then 2 ^ 64 else 2 ^ 65) + x.2.age)
    (s.groups.filter (fun x => lbOf x.1 == k))

/-- The first slot of some that issues; a slot that only parks leaves the cycle to the others. -/
def State.firstOf (s : State) : List (Nat × Bool) → Out
  | [] => .next s
  | x :: t =>
    match s.issueSlot x.1 x.2 with
    | .next s1 => if s.took x.1 x.2 s1 then .next (s1.updLb (lbOf x.1) fun b => { b with issued := some (s.clock, x.1) }) else s1.firstOf t
    | y => y

/-- The lane block's scheduler. [DEDUCED, log entry 105] -/
def State.issueLb (s : State) (k : Nat) : Out :=
  if s.clock < (s.lb k).busy then .next s
  else s.firstOf ((s.lbOrder k).flatMap fun x => x.2.slotOrder.map fun b => (x.1, b))

/-! ### A cycle (07, R196) -/

/-- A counter that saturates. -/
def sat64 (x : W64) : W64 := if x = BitVec.allOnes 64 then x else x + 1#64

/-- The code of a stall (07, Table 6). -/
def stallCode : Stall → Nat
  | .switchPark => 0 | .batchWait => 1 | .barrier => 2 | .queueFull => 3 | .queueEmpty => 4 | .teamArrival => 5 | .arrayLent => 6
  | .walker => 7 | .txCommit => 8 | .fetch => 9 | .subFlush => 10 | .gangMember => 11 | .budget => 12

/-- What a group's stall is charged to: one that retires waits as for its batches (10, R263). -/
def Group.charge (g : Group) : Nat :=
  if g.retiring then 1
  else
    match g.nextSlot with
    | some b => ((if b then g.parkB else g.parkA).map stallCode).getD (if ((g.slot b).map (·.missing)).getD false then 7 else 9)
    | none => 9
/-- The same, with the park that its word would take now. -/
def State.chargeOf (s : State) (gs : Nat) (g : Group) : Nat :=
  match g.nextSlot with
  | none => g.charge
  | some b =>
    match s.issueSlot gs b with
    | .next s1 => ((Tbl.find s1.groups gs).map Group.charge).getD 9
    | _ => g.charge

/-- The groups of a lane block that are eligible in the cycle, the walker's apart: those that are ready, and the one that issued. -/
def State.eligibleIn (s : State) (k : Nat) : List Nat :=
  let mine : List (Nat × Group) := s.groups.filter (fun x => lbOf x.1 == k && !isWalker x.1)
  (mine.filter (fun x => (s.lb k).issued == some (s.clock, x.1) || x.2.slotOrder.any (s.ready x.1))).map (·.1)

/-- One cycle's accounting of a lane block with `e` eligible groups, and the code that its oldest group is charged. -/
def LaneBlock.count (b : LaneBlock) (clock e : Nat) (oldest : Option Nat) : LaneBlock :=
  let b1 := { b with hist := Tbl.set 0#64 b.hist e (sat64 (Tbl.get 0#64 b.hist e))
                     busySince := oldest.bind fun _ => some (b.busySince.getD clock) }
  if clock < b.busy && (b.issued.map (·.1)) != some clock then { b1 with beatc := sat64 b.beatc }
  else if e ≠ 0 then b1
  else
    match oldest with
    | none => { b1 with idle := sat64 b.idle }
    | some c => { b1 with stall := Tbl.set 0#64 b.stall c (sat64 (Tbl.get 0#64 b.stall c)) }

/-- The lane blocks of the clusters in service, and those that hold a group. -/
def State.allLbs (s : State) : List Nat :=
  ((s.sec.inService.flatMap fun k => (List.range 16).map fun i => k * 16 + i) ++ s.groups.map (fun (x : Nat × Group) => lbOf x.1)).eraseDups

/-- The counters of a lane block, and the marks of its groups, for the cycle that ends in `s0`. [DEDUCED, log entry 105] -/
def State.tickLb (s0 s : State) (k : Nat) : State :=
  let el := s0.eligibleIn k
  let mine := sortBy (fun (x : Nat × Group) => x.2.age) (s0.groups.filter (fun x => lbOf x.1 == k && !isWalker x.1))
  let waits := fun (gs : Nat) => el.contains gs && (s0.lb k).issued != some (s0.clock, gs)
  let mark := fun (x : Nat × Group) =>
    (x.1, if lbOf x.1 == k && !isWalker x.1 then
      { x.2 with eligible := if waits x.1 then some (x.2.eligible.getD s0.clock) else none }
    else x.2)
  ({ s with groups := s.groups.map mark } : State).updLb k fun b => b.count s0.clock el.length (mine.head?.map fun x => s0.chargeOf x.1 x.2)

/-- A core's local store and array in use (16, R381). -/
def State.tickCore (s : State) (c : Nat) (k : Core) : Core :=
  { k with
    busyLs := if s.wgs.any (fun w => w.2.core == c && (w.2.resident || w.2.gone)) then some (k.busyLs.getD s.clock) else none
    busyArr := if k.holder.isSome || k.lent.isSome then some (k.busyArr.getD s.clock) else none }

/-- A cycle ends: the clock, each resident group's GTIME (14, R356), the counters, the Headboxes' lanes. -/
def State.tick (s : State) : State :=
  let age := fun (x : Nat × Group) =>
    (x.1, if isWalker x.1 || s.isSaved x.2 then x.2 else { x.2 with gtime := x.2.gtime + 1#64 })
  let s1 := { s with clock := s.clock + 1, groups := s.groups.map age }
  let s2 := s.allLbs.foldl (fun t k => s.tickLb t k) s1
  ({ s2 with cores := s2.cores.map fun e => (e.1, s2.tickCore e.1 e.2) } : State).laneCycles

/-- Several cycles. [DESIGN CHOICE, log entry 2] -/
def State.elapse (s : State) : Nat → State
  | 0 => s
  | n + 1 => s.tick.elapse n

/-! ### The module's own steps -/

/-- A re-execution has reached the recorded end (17, R403). -/
def State.replayEnds (s : State) (spid : Nat) (r : Replay) : Bool :=
  let mine := s.groupsOf spid
  mine.all (fun g => s.atEnd g.1 g.2) && decide (r.upto ≤ r.used.length) &&
    r.ends.all (fun e => mine.any (fun g => s.nameOf g.2 == (e.1, e.2.1, e.2.2.1)))

/-- The recorded end of an interval that is re-executed: the context halts where its target was not reached; else it runs freely,
and a new interval begins where it records. So it does after a parting in free run. [DEDUCED, log entry 81] -/
def State.endReplay (s : State) (spid : Nat) : State :=
  let p := s.space spid
  match p.replay with
  | none => s
  | some r =>
    if p.st ≠ .running || ((Tbl.find s.parts p.part).map fun q => q.halt.isSome).getD true then s
    else if r.void then
      (if !r.free || !s.mayCkpt spid then s
      else (s.updSpace spid fun p => { p with replay := none }).beginSave spid (.ckpt none (p.interval + 1#32) 2) true)
    else if !s.replayEnds spid r || !s.mayCkpt spid then s
    else if !r.hit then
      (match (s.groupsOf spid).find? (fun g => (r.grid, r.wgidx, r.gidx) == s.nameOf g.2) |>.orElse fun _ => (s.groupsOf spid).head? with
       | some g =>
         let pc := ((g.2.nextSlot.bind fun b => g.2.slot b).map (·.pc)).getD g.2.exitPc
         s.stopHit g.1 ⟨pc - 8#64, s.rwcNow g.1 g.2, g.2.nissue, g.2.nextSlot.getD false⟩ spid 1
       | none => (s.updSpace spid fun p => { p with replay := none }).haltBy spid 7 0 0x32 0)
    else (s.updSpace spid fun p => { p with replay := none }).beginSave spid (.ckpt none (p.interval + 1#32) 2) true

/-- A candidate for the next step: a step of the opcode table by its meaning, a lane block's scheduler, the end of a
re-execution. -/
abbrev Cand := State → Out

/-- The steps of a request. -/
def reqCands (s : State) (x : Nat × Req) : List Cand :=
  [execLongResultReturn x.1, execHomeSliceAccess x.1, execWriteAcknowledgement x.1, execWriteReturnedUnperformed x.1, execMeshPacketArrival x.1 true,
    execNegativeAcknowledgement x.1, execMeshRetransmit x.1, execRequesterHoldRelease x.2.core, execBusyRetry x.1, execRequestReply x.1, execRequestResend x.1, execRequestAbandon x.1] ++
  (if x.2.copies.isEmpty && x.2.reply.isNone then [] else (List.range 44).map fun l => execLinkFlitTransmit l 0 x.1) ++
  (x.2.copies.flatMap fun c =>
    [execResultCacheRequest x.1 c.id, execAgeExpiry x.1 c.id] ++
      c.kept.map fun k => if c.lost then execLinkTimeoutRetransmit k.1 x.1 else execLinkAcknowledgement k.1 x.1) ++
  (match x.2.memAt with
   | some pa => if s.canOwn x.2 pa then [execOwnershipRequest x.2.core (pa / 128)] else []
   | none => [])

/-- The steps of a group. -/
def groupCands (s : State) (x : Nat × Group) : List Cand :=
  [execTentativeResultCommit x.1, execGroupPromotion x.1, execSpillAreaRefill x.1, execFirstTouchTimeout x.1, execIncarnationAdvance x.1,
    execGroupRetirement x.1, execGroupSave x.1, execBatchComplete x.1 .cp, execBatchComplete x.1 .mx, execBatchComplete x.1 .gc, execBatchComplete x.1 .cl] ++
  (match x.2.txe with
   | none => []
   | some r =>
     [execTxPrepare x.1, execTxPrepareReply x.1] ++ r.waiting.map (fun w => execTxPrepareTimeout x.1 w.1) ++
       (s.txMsgs x.1 fun _ => true).filterMap fun e => match e.2.txMsg with
         | some (_, .commit sl L) => some (execTxCommitMessage x.1 L sl)
         | some (_, .abort sl L) => some (execTxAbortMessage x.1 L sl)
         | _ => none)

/-- The steps of a lane block: walks, and the flags of units that were in use too long. -/
def lbCands (s : State) (x : Nat × LaneBlock) : List Cand :=
  [execWalkerStart x.1, execWalkerTimeout x.1] ++
  (if ((x.2.busySince.map fun t => decide (t + 2 ^ 34 ≤ s.clock)).getD false) then
    ((List.range 36).map fun i => execEarlyCheckFlag (.lane x.1 i)) ++ (List.range 18).map fun i => execEarlyCheckFlag (.regBank x.1 i)
  else [])

/-- The steps of a core's engines, and its flags. -/
def coreCands (s : State) (x : Nat × Core) : List Cand :=
  [execFeltEntryAgeExpiry x.1, execFeltEviction x.1, execMatrixOperation x.1, execCopyChunk x.1] ++
  (x.2.subs.flatMap fun e => [execDetachMessage x.1 e.1, execDetachAcknowledgement x.1 e.1, execAttachMessage x.1 e.1, execAttachReply x.1 e.1,
    execResumeMessage x.1 e.1, execUnsubRemoval x.1 e.1]) ++
  (x.2.pubs.map fun e => execSnapshotSegment x.1 e.1) ++
  (if ((x.2.busyLs.map fun t => decide (t + 2 ^ 34 ≤ s.clock)).getD false) then (List.range 34).map fun i => execEarlyCheckFlag (.lsBank x.1 i) else []) ++
  (if ((x.2.busyArr.map fun t => decide (t + 2 ^ 34 ≤ s.clock)).getD false) then (List.range 34).map fun i => execEarlyCheckFlag (.column x.1 i) else [])

/-- The next chunk of each rank of a collective. -/
def collCands (x : Nat × Coll) : List Cand :=
  (x.2.joined.filterMap fun p => ((List.range x.2.chunks).find? (fun i => !x.2.parts.contains (p.rank, i))).map fun i =>
    execCollectivePacket x.1 p.rank i) ++ [execCollectiveComplete x.1]

/-- The steps of a packet, by its type (08, R204 Table 3). -/
def packetCands (x : Nat × Packet) : List Cand :=
  let pk := x.1
  (match x.2.typ with
   | 1 => [execNopPacket pk]
   | 2 => [execSignal pk]
   | 3 => [execWait pk]
   | 4 => [execBarrierAnd pk]
   | 5 => [execBarrierOr pk]
   | 6 => [execLaunchPacket pk]
   | 7 => [execCopy pk]
   | 8 => [execCkpt pk]
   | 9 => [execQuiesce pk]
   | _ =>
     [execCreateQueue pk, execBindQueue pk, execUnbindQueue pk, execResetQueue pk, execFlushControlBlocks pk, execCreateSpace pk, execTearDownSpace pk,
       execSetRaceMode pk, execSetWayMasks pk, execSetBudget pk, execPreEmptContext pk, execResumeContext pk, execReleaseContext pk,
       execInvalidateTranslations pk, execSetInjector pk, execSetRecording pk, execStopAtPoint pk, execSampleCounters pk, execCreatePartition pk,
       execDeletePartition pk, execSetDomain pk, execAttest pk, execReadAuditLog pk, execReclaimAuditLog pk, execExtendMeasurement pk, execSetQueueTable pk]) ++
    [execWaitRetest pk, execPacketCompletion pk]

/-- The steps of a die: the retirement that is due, an evacuation, the module's announcements. -/
def dieCands (s : State) (d : Nat) : List Cand :=
  (match (s.die d).pending.head? with
   | some (.lane k _, _) => [execSteeringRewrite k]
   | some (.regBank k _, _) => [execRegisterBankMigration k]
   | some (.lsBank c _, _) => [execLocalStoreBankMigration c]
   | _ => []) ++ [execSliceEvacuationSet d, execChannelEvacuationLine d, execIncarnationAnnounce d s.sec.modnum.toNat s.sec.incarn]

/-- The sweeps: a pass of every unit begins and ends once in 1,024 cycles (04, R108). -/
def sweepCands (s : State) : List Cand :=
  if s.clock % 1024 ≠ 0 || !s.sec.powered then []
  else
    (((List.range 4).flatMap fun d => ((List.range 64).map fun i => SweepUnit.slice d i) ++ (List.range 16).map fun b => SweepUnit.rdc d b) ++
      (List.range 768).flatMap fun c => [SweepUnit.l1 c, SweepUnit.localStore c]).map execWatermarkSweep

/-- Every step that the module might take now, in the order of the round. [DESIGN CHOICE, log entry 2; DEDUCED, log entry 106] -/
def State.cands (s : State) : List Cand :=
  ((s.groups.flatMap (groupCands s)) ++ (s.reqs.flatMap (reqCands s)) ++
    (s.invs.map fun x => execRemoteInvalidation x.1 x.2) ++ (s.holds.map fun x => execSectorHoldTimeout x.1) ++
    (s.owners.map fun x => execOwnershipRecall x.2 x.1) ++ (s.lbs.flatMap (lbCands s)) ++ (s.cores.flatMap (coreCands s)) ++
    (s.upds.map fun u => execFeltUpdateApply u.src u.dst) ++ (s.quads.map fun a => execQuadArrivalTimeout a.quad a.qj) ++
    (s.rqers.flatMap fun x => x.2.retirePk.flatMap fun p => [execRetirePacketSend x.1 p.1, execRetirePacket x.1 p.1]) ++
    (s.rcache.filterMap fun e => e.tomb.map fun _ => execTombstoneExpiry e.owner e.runit e.ser) ++ [execOwnerIncarnationAdvance] ++
    (s.colls.flatMap collCands) ++ (s.tokens.map fun t => execAbortToken t.2.1 t.2.2) ++
    ((List.range 4).flatMap (dieCands s)) ++
    (s.grids.flatMap fun g => [execWorkgroupPlacement g.1, execPreemptionDeadline g.1, execReductionApplication g.1, execGridRetirement g.1]) ++
    (s.parts.flatMap fun p => [execHaltLine p.1, execHaltDrainComplete p.1] ++
      p.2.counts.map fun c => execMeterPeriodStart p.1 (c.1 / 2 ^ 12) (c.1 % 2 ^ 12)) ++
    (s.packets.flatMap packetCands) ++
    ((s.queues.map (·.1) ++ [safeQueue]).flatMap fun q => [execHeadboxLaneTake q, execHeaderRereadTimeout q]) ++
    (s.spaces.map fun p => execAutomaticCheckpoint p.1) ++ sweepCands s) ++
  (s.spaces.map fun p => (fun s => .next (s.endReplay p.1))) ++ ((s.groups.map fun x => lbOf x.1).eraseDups.map fun k => (·.issueLb k))

/-- The first candidate from the round's place on that does something; at the round's end a cycle passes. -/
def State.tryFrom (s : State) : List Cand → Nat → Out
  | [], _ => .next { s.tick with turn := 0 }
  | c :: t, n =>
    match c s with
    | .next s1 => if s1 = s then s.tryFrom t (n + 1) else .next { s1 with turn := n + 1 }
    | x => x

/-- The module's own next step. [DESIGN CHOICE, log entry 2; DEDUCED, log entry 105; DEDUCED, log entry 106] -/
def State.ownMove (s : State) : Out := s.tryFrom (s.cands.drop s.turn) s.turn

/-- A move of the agenda. [DESIGN CHOICE, log entry 2] -/
def State.move (s : State) : Move → Out
  | .issue gs b => s.issueMove gs b
  | .event e => exec e s
  | .elapse n => .next (s.elapse n)
  | .own => s.ownMove

end Sys2Proof.Machine
end

