-- ==== Sys2Proof/Machine/Step.lean ====
section
/-! DEFINITION. One step of the module, and the placing of a word where the next step takes it up. -/

namespace Sys2Proof.Machine

/-- A step: the next move of the agenda, or, where it is empty, the module's own. [DESIGN CHOICE, log entry 2] -/
def step (s : State) : Host.Outcome State Fault Refusal :=
  match s.agenda with
  | [] => s.ownMove
  | m :: t => ({ s with agenda := t } : State).move m

/-- Where the placed word stands: its address, and the page's entry, readable, writable and executable. -/
def placedPc : Nat := 0x100000
def placedPte : W64 := BitVec.ofNat 64 (0x100000 + 0x0F)

/-- The launch of which the placed word is the kernel: one workgroup of one group of 32 lanes with 256 registers.
[DESIGN CHOICE, log entry 5] -/
def placedGrid : Grid :=
  { part := 0, spid := 1, sgen := 0#8
    desc := [(1, BitVec.ofNat 64 (1 + 2 ^ 32)), (2, BitVec.ofNat 64 (1 + 32 * 2 ^ 17 + 2 ^ 28 + 2 ^ 39)),
      (3, BitVec.ofNat 64 (32 * 2 ^ 58)), (4, BitVec.ofNat 64 placedPc)]
    cls := 0, depth := 0, epoch := 0#4, hand := 0, next := 1, total := 1 }

/-- A state in which the very next step issues a word of `nbits` bits: a partition of cluster 0, a space, a launch whose only
group stands at that word in slot 0 of lane block 0, the translation of its page, the word's bytes in memory, and the
issue as the next move. [DESIGN CHOICE, log entry 5] -/
def State.withFetchWord (s : State) (nbits w : Nat) : State :=
  let pa := s.sec.modnum.toNat * 2 ^ 43 + placedPc
  let e : TlbEnt := { spid := 1, gen := 0#8, va := placedPc, size := 2 ^ 16, pte := BitVec.ofNat 64 (s.sec.modnum.toNat * 2 ^ 43) ||| placedPte }
  let s1 := { s with
    agenda := [.issue 0 false]
    parts := Tbl.put s.parts 0 { clusters := [0], walkpc := 0#64, ftpc := 0#64, ranges := [(0, 2 ^ 24)], mq := 0 }
    spaces := Tbl.put s.spaces 1 { part := 0, inUse := true }
    grids := Tbl.put s.grids 1 placedGrid
    gangs := Tbl.put s.gangs 1 { grid := 1, cluster := 0, size := 1, wgs := [(0, 1)] }
    wgs := Tbl.put s.wgs 1
      { grid := 1, wgidx := 0, core := 0, ngrp := 1, lsBase := 0, lsSize := 0, qSize := 0, frame := 0, gang := 1, rank := 0, slots := [(0, 0)] }
    groups := Tbl.put s.groups 0 (newGroup placedGrid 1 0 0 0 1)
    tents := Tbl.del s.tents 0 }
  ((s1.updCore 0 fun c => { c with tlb := e :: c.tlb }).updLb 0 fun b => { b with busy := 0 }).wrBytes pa
    (toBytes 8 (w % 2 ^ nbits % 2 ^ 64))

end Sys2Proof.Machine
end

