-- ==== Sys2Proof/Safety.lean ====
section
/-! DEFINITION. The terms in which claims about the machine are stated: when a word performs, what it has done when it
has, what a destination field holds, what stays as it was. -/

namespace Sys2Proof.Machine

/-! ### When a word performs -/

/-- Slot `w.b` of group `w.gs` takes up the word `i`, whose fields are `f`, and nothing keeps the word from performing:
it is well formed; its mode may execute it; its registers are allocated and none of them is pending, but for a team
member that only waits for its team's issuer; the pairing rules hold (09, R237 Table 12); a quiet point has no earlier word
that may fault late (15, R365), a settled word no tentative one before it, a push none of the group's accesses that it releases
still on its way (03, R85); no advance of the slot's incarnation is due
before a release (04, R108); its queues exist and have the entries and the room it needs (07, R192); its context is not
being re-executed (17, R403). -/
structure Goes (s : State) (i : Instr) (f : Info) (w : Word) : Prop where
  cur     : s.cur = some ⟨w.gs, w.b⟩
  group   : Tbl.find s.groups w.gs = some w.g
  slot    : w.g.slot w.b = some w.slot
  info    : i.info = some f
  word    : w = mkWord s w.gs w.b w.g w.slot f
  formed  : i.wellFormed = true
  used    : misused i w.g (((s.gridOf w.g).map Grid.team).getD 0) = false
  mode    : f.priv = true ∨ restricted i = true → w.sup = true
  inN     : ∀ u ∈ f.dst ++ f.src, ∀ n ∈ u.vregs, n < w.g.n
  pairs   : wordPairOk i = true
  free    : f.team = false ∨ isIssuer (((s.gridOf w.g).map Grid.team).getD 0) w.g.gidx = true →
    ∀ r ∈ infoRefs f, r ∉ w.g.pend
  quiet   : infoQuiet f = true → s.service w.g = true → s.mayFaultLate w.gs = false
  settled : s.settledWord (s.spidOf w.g) i f = true → (Tbl.find s.tents w.gs).getD [] = []
  push    : pushes f = true → s.fenceWaits w.gs w.g.wg .wg = false
  advance : (s.dirOf w.gs).want = none ∨ releases i = false
  queues  : ∀ q ∈ queuesOf (f.dst ++ f.src), q < ((s.gridOf w.g).map Grid.nq).getD 0
  room    : ∀ x, Tbl.find s.wgs w.g.wg = some x → queueStall (((s.gridOf w.g).map Grid.qdepth).getD 0) x f = none
  plays   : (s.space (s.spidOf w.g)).replay = none

/-! ### What a word has done -/

/-- The word was issued and counts as one more word, its slot goes on to `next`, and no cause was raised (17, R398). -/
structure Issued (s t : State) (w : Word) (next : Option W64) : Prop where
  counts : ∃ g, Tbl.find t.groups w.gs = some g ∧ g.nissue = w.g.nissue + 1 ∧ g.stop = w.g.stop ∧ g.held = w.g.held ∧
    t.rwcNow w.gs g = s.rwcNow w.gs w.g + 1#32 ∧ ∀ x, next = some x → (g.slot w.b).map (·.pc) = some x
  halts  : t.parts = s.parts

/-- What the homes keep of sectors: watermarks, release records, strong writes. -/
def State.marks (s : State) : Tbl W64 × Tbl RelRec × Tbl (Nat × Nat) := (s.wms, s.recs, s.strong)

/-- Every part of the machine is as it was but for the groups, their workgroups' queues, the requests, the lane blocks
and, where a context records, its debug area (17, R400), with the watermarks of the area's sectors (04, R101). -/
structure Elsewhere (s t : State) (w : Word) : Prop where
  groups : ∀ k, k ≠ w.gs → Tbl.find t.groups k = Tbl.find s.groups k
  wgs    : ∀ k, k ≠ w.g.wg → Tbl.find t.wgs k = Tbl.find s.wgs k
  mem    : (s.space (s.spidOf w.g)).records = false → t.mem = s.mem ∧ t.spaces = s.spaces ∧ t.marks = s.marks
  rest   : t = { s with
    groups := t.groups, wgs := t.wgs, reqs := t.reqs, lbs := t.lbs, tents := t.tents, dir := t.dir, fresh := t.fresh
    mem := t.mem, spaces := t.spaces, wms := t.wms, recs := t.recs, strong := t.strong }

/-- A group's state apart from its registers and what the issue of a word changes: its place, its stacks, its check
state but for the release clock, its transactions' registers, batches, timers, barriers, stop record. -/
structure SameGroup (g h : Group) : Prop where
  wg     : h.wg = g.wg
  gidx   : h.gidx = g.gidx
  n      : h.n = g.n
  join   : h.join = g.join
  spill  : h.spill = g.spill
  live   : h.live = g.live
  table  : h.chk.table = g.chk.table
  ic     : h.chk.ic = g.chk.ic
  known  : h.chk.kwg = g.chk.kwg ∧ h.chk.kgg = g.chk.kgg ∧ h.chk.kdg = g.chk.kdg
  passed : h.chk.pwg = g.chk.pwg ∧ h.chk.pgg = g.chk.pgg ∧ h.chk.pdg = g.chk.pdg
  cls    : h.cp = g.cp ∧ h.mx = g.mx ∧ h.gc = g.gc ∧ h.cl = g.cl
  time   : h.gtime = g.gtime ∧ h.gtcmp = g.gtcmp
  other  : h.arrival = g.arrival ∧ h.kids = g.kids ∧ h.preq = g.preq ∧ h.ft = g.ft
  stop   : h.stop = g.stop ∧ h.held = g.held

/-- The registers of a group. -/
def Group.regs (g : Group) : Tbl W32 × Tbl W64 × Tbl Mask := (g.v, g.s, g.p)

/-- The registers and predicates whose pending bits a long result sets: its destinations, an S register only where some lane is
active (07, R193; 09, R226). -/
def longRefs (f : Info) (act : Mask) : List RegRef :=
  (f.dst.filter (fun u => !(act == 0#32 && u.reg.isS))).flatMap useRefs ++
    (f.pd.filter (fun p => p.val != 7)).map (fun p => RegRef.p p.val)

/-- The word `i` has performed, with the register writes `ws`: they have been made, or, for a long result, they are on
their way and the pending bits of the destinations are set (07, R192, R193). An entry pushed stands behind the others of its queue, with
the active mask and the release clock, raised by one, in its tag (04, R106; 07, R191). -/
structure Performed (s t : State) (i : Instr) (f : Info) (w : Word) (ws : List RegW) : Prop where
  next   : exec i s = .next t
  issued : Issued s t w (some (w.slot.pc + 8#64))
  same   : ∀ g, Tbl.find t.groups w.gs = some g → SameGroup w.g g
  else_  : Elsewhere s t w
  now    : f.long = false → queuesOf f.src = [] → ∀ g, Tbl.find t.groups w.gs = some g →
    g.regs = (w.g.writes ws).regs ∧ g.pend = w.g.pend
  later  : f.long = true ∨ queuesOf f.src ≠ [] → ∃ r g,
    Tbl.find t.reqs (s.fresh + 1) = some r ∧ r.gs = w.gs ∧ r.nth = w.g.nissue ∧ r.kind = .result ws ∧ r.stage = .answered ∧
    r.pops = queuesOf f.src ∧ Tbl.find t.groups w.gs = some g ∧ g.regs = w.g.regs ∧ ∀ x ∈ longRefs f w.act, x ∈ g.pend
  pushed : f.long = false → queuesOf f.src = [] → ∀ q m vals, ws = [.push q m vals] → ∃ x y g,
    Tbl.find s.wgs w.g.wg = some x ∧ Tbl.find t.wgs w.g.wg = some y ∧ Tbl.find t.groups w.gs = some g ∧
    g.chk.rc = w.g.chk.rc + 1#32 ∧ (y.queue q).entries = (x.queue q).entries ++ [⟨vals, s.queueTag w.gs g.chk m⟩]

/-! ### What a destination holds -/

/-- The value of a destination field after the writes `ws`: a V register holds it in each active lane, an S register once
where some lane is active, a queue takes it as an entry, Z takes nothing (09, R223, R225, R226; 07, R192). -/
def Word.gives (w : Word) (u : Use) (ws : List RegW) (val : Nat → Nat) : Prop :=
  match u.reg, u.role with
  | .v n, .r32 => ∀ L, L < 32 → inMask w.act L = true → (w.g.writes ws).vget n.val L = BitVec.ofNat 32 (val L)
  | .v n, .r64 => ∀ L, L < 32 → inMask w.act L = true →
    (w.g.writes ws).vget n.val L = BitVec.ofNat 32 (val L) ∧
    (w.g.writes ws).vget (n.val + 1) L = BitVec.ofNat 32 (val L / 2 ^ 32)
  | .v n, .r128 => ∀ L, L < 32 → inMask w.act L = true → ∀ j, j < 4 →
    (w.g.writes ws).vget (n.val + j) L = BitVec.ofNat 32 (val L / 2 ^ (32 * j))
  | .s n, .r32 => w.act ≠ 0#32 → (w.g.writes ws).sget n.val = BitVec.ofNat 64 (val 0 % 2 ^ 32)
  | .s n, .r64 => w.act ≠ 0#32 → (w.g.writes ws).sget n.val = BitVec.ofNat 64 (val 0)
  | .s n, .r128 => w.act ≠ 0#32 → (w.g.writes ws).sget n.val = BitVec.ofNat 64 (val 0) ∧
    (w.g.writes ws).sget (n.val + 1) = BitVec.ofNat 64 (val 0 / 2 ^ 64)
  | .q k, _ => ∃ vals, ws = [.push k.val w.act vals] ∧ ∀ L, L < 32 → inMask w.act L = true → vals.getD L 0#32 = BitVec.ofNat 32 (val L)
  | .sel _, _ => False
  | .z, _ => ws = []

/-- The bits of a predicate destination after the writes `ws`, in the active lanes; a write of P7 is discarded (09, R227). -/
def Word.givesP (w : Word) (p : Pred) (ws : List RegW) (val : Nat → Bool) : Prop :=
  ∀ L, L < 32 → inMask w.act L = true → inMask ((w.g.writes ws).pred p) L = if p.val = 7 then true else val L

/-- The writes `ws` leave every register as it was but for the word's destinations: V registers and predicates only in
active lanes, nothing where no lane is active (09, R227). -/
structure Word.Keeps (w : Word) (f : Info) (ws : List RegW) : Prop where
  v : ∀ n L, L < 32 → (n ∉ f.dst.flatMap Use.vregs ∨ inMask w.act L = false) → (w.g.writes ws).vget n L = w.g.vget n L
  s : ∀ n, (n ∉ f.dst.flatMap Use.sregs ∨ w.act = 0#32) → (w.g.writes ws).sget n = w.g.sget n
  p : ∀ p L, L < 32 → (p ∉ f.pd ∨ inMask w.act L = false) → inMask ((w.g.writes ws).pred p) L = inMask (w.g.pred p) L

/-- Wherever nothing keeps the word `i` from performing, it completes; its destination field `u` then holds `val`, every
other register what it held. -/
def Computes (i : Instr) (u : Use) (val : Word → Nat → Nat) : Prop :=
  ∀ s f w, Goes s i f w → ∃ t ws, Performed s t i f w ws ∧ w.Keeps f ws ∧ w.gives u ws (val w)

/-- The same of a word whose destination is a predicate. -/
def Decides (i : Instr) (p : Pred) (val : Word → Nat → Bool) : Prop :=
  ∀ s f w, Goes s i f w → ∃ t ws, Performed s t i f w ws ∧ w.Keeps f ws ∧ w.givesP p ws (val w)

/-! ### Values of operands -/

/-- Source `k` of lane `L` as bits of an operand type's width. -/
def Word.opnd (w : Word) (t : Ty) (k L : Nat) : BitVec t.bits := BitVec.ofNat t.bits (w.src k L)
/-- An RRI immediate, sign-extended to the operation's width (09, R231; 10, R245). -/
def immOf (t : Ty) (imm : BitVec 22) : BitVec t.bits := imm.signExtend t.bits
/-- The low 32 bits of source `k`, and all 64. -/
def Word.opnd32 (w : Word) (k L : Nat) : W32 := BitVec.ofNat 32 (w.src k L)
def Word.opnd64 (w : Word) (k L : Nat) : W64 := BitVec.ofNat 64 (w.src k L)
/-- A value read as its type says, signed or unsigned. -/
def tyInt (t : Ty) (x : BitVec t.bits) : Int := if t.isSigned then x.toInt else (x.toNat : Int)
/-- A result as the destination holds it: of a type narrower than 32 bits sign- or zero-extended to 32 (10, R245). -/
def widened (t : Ty) (x : BitVec t.bits) : Nat :=
  if t.isSigned = true ∧ t.bits < 32 then (x.signExtend 32).toNat else x.toNat

/-- A comparison of two values of an integer type (10, R250 Table 3). -/
def compared {n : Nat} (cc : Cmp) (sgn : Bool) (x y : BitVec n) : Bool :=
  let lt := fun (p q : BitVec n) => if sgn then p.slt q else p.ult q
  match cc with
  | .eq => x == y
  | .ne => x != y
  | .lt => lt x y
  | .le => !(lt y x)
  | .gt => lt y x
  | .ge => !(lt x y)

/-- A field of `len` bits from bit `pos` of a value, extended to its width: bits past the top are zeros, or copies of the
sign (10, R254). -/
def bitField {n : Nat} (sgn : Bool) (x : BitVec n) (pos len : Nat) : BitVec n :=
  if len = 0 then 0#n
  else
    let k := n - min len n
    if sgn then (x.sshiftRight pos <<< k).sshiftRight k else (x >>> pos <<< k) >>> k

/-- The low `len` bits of `x` inserted in `y` at bit `pos` (10, R254). -/
def fieldInto {n : Nat} (x y : BitVec n) (pos len : Nat) : BitVec n :=
  let m := (BitVec.allOnes n >>> (n - min len n)) <<< pos
  (y &&& ~~~m) ||| ((x <<< pos) &&& m)

/-- A byte of BMRG: byte `sel` mod 8 of the pool, 0, its sign repeated, or its bits reversed (10, R255). -/
def mergedByte (pool : W64) (sel : Byte) : Byte :=
  let p := pool.extractLsb' (8 * (sel.toNat % 8)) 8
  if sel.extractLsb' 3 2 = 0#2 then p
  else if sel.extractLsb' 3 2 = 1#2 then 0#8
  else if sel.extractLsb' 3 2 = 2#2 then (if p.msb then 0xFF#8 else 0#8)
  else p.reverse

/-- A register as one slot of a paired word reads it: 32 bits, as the word found it (09, R232, R234). -/
def Word.slotReg (w : Word) (r : Reg) (L : Nat) : W32 := BitVec.ofNat 32 (w.reg (u32 r) [] L)

/-- What a slot of a paired word gives from its destination's value, its source and its constant (09, R232 Table 10). -/
def pairValue (op : Pop) (k : BitVec 6) (d a : W32) : W32 :=
  match op with
  | .mov => a
  | .iadd => d + a
  | .isub => d - a
  | .and => d &&& a
  | .or => d ||| a
  | .xor => d ^^^ a
  | .imin => if a.slt d then a else d
  | .imax => if d.slt a then a else d
  | .fadd => BitVec.ofNat 32 (f32.round .rne (fsum .rne [f32.val d.toNat, f32.val a.toNat]))
  | .fmul => BitVec.ofNat 32 (f32.round .rne ((f32.val d.toNat).mul (f32.val a.toNat)))
  | .fmin => BitVec.ofNat 32 (f32.pickBy false false d.toNat a.toNat)
  | .fmax => BitVec.ofNat 32 (f32.pickBy true false d.toNat a.toNat)
  | .iaddK => a + k.signExtend 32
  | .shl => a <<< k.toNat
  | .shr => a >>> k.toNat
  | .sar => a.sshiftRight k.toNat
  | .rotl => a.rotateLeft k.toNat
  | .movk => k.signExtend 32
  | .andK => a &&& k.setWidth 32

/-! ### What a word of classes 5 to 13 has done -/

/-- The path in a slot: its address and mask (07, R185). -/
def Group.at (g : Group) (b : Bool) : Option (W64 × Mask) := (g.slot b).map fun p => (p.pc, p.mask)

/-- A group after a word as it was after the word's own effect, but for what issue keeps account of: which slot issued, how many
words, parks and marks of the last issue, the count of retired work, the restart point of a quiet point (07, R185, R195, R196;
15, R365; 17, R398). -/
def Group.Accounted (g h : Group) : Prop :=
  h = { g with
    slotA := h.slotA, slotB := h.slotB, lastB := h.lastB, lastPc := h.lastPc, nissue := h.nissue, promoted := h.promoted
    eligible := h.eligible, swPark := h.swPark, regAsk := h.regAsk, parkA := h.parkA, parkB := h.parkB, rwc := h.rwc
    quietAt := h.quietAt, regpc := h.regpc, regmask := h.regmask, jd := h.jd, sd := h.sd, rrwc := h.rrwc, rv := h.rv }

/-- The state in which a word's own effect starts: a restricted word has aborted its lanes' transactions (05, R139). -/
def State.entered (s : State) (i : Instr) (f : Info) (w : Word) : State :=
  { s with groups := Tbl.put s.groups w.gs (restrictTx i f w.g w.act) }
/-- The word as its own effect finds it. -/
def Word.entered (w : Word) (i : Instr) (f : Info) : Word := { w with g := restrictTx i f w.g w.act }

/-- What the fields of a word popped is logged where its context records (17, R400). -/
def State.popped (u s : State) (f : Info) (w : Word) : State := u.logPops w.g (s.rwcNow w.gs w.g) (queuesOf f.src)
/-- The issuing slot goes on to the next word (07, R185). -/
def State.onward (s : State) (w : Word) : State :=
  s.updGroup w.gs fun g => g.setSlot w.b ((g.slot w.b).map fun p => { p with pc := p.pc + 8#64 })

/-- The word has performed and `u` is the state that its own effect leaves: the machine is as in `u` but that the word has
counted as issued and, for `n` words, as work, and its lane block is busy for its beats (07, R184; 17, R398). -/
structure Runs (s t u : State) (i : Instr) (w : Word) (n : Nat) : Prop where
  next   : exec i s = .next t
  group  : ∀ g, Tbl.find u.groups w.gs = some g → ∃ h, Tbl.find t.groups w.gs = some h ∧ g.Accounted h ∧
    h.nissue = w.g.nissue + 1 ∧ t.rwcNow w.gs h = u.rwcNow w.gs g + BitVec.ofNat 32 n ∧ ∀ b, h.at b = g.at b
  others : ∀ k, k ≠ w.gs → Tbl.find t.groups k = Tbl.find u.groups k
  rest   : t = { u.updLb (lbOf w.gs) (fun b => { b with busy := u.clock + b.beats }) with groups := t.groups, tents := t.tents }

/-- Wherever nothing keeps the word `i` from performing and `c` holds of the state and the word, it performs; its own effect is
`e`, and the slot goes on. -/
def Performs (i : Instr) (c : State → Word → Prop) (e : Word → State → State) : Prop :=
  ∀ s f w, Goes s i f w → c (s.entered i f w) (w.entered i f) →
    ∃ t, Runs s t (((e (w.entered i f) (s.entered i f w)).popped s f w).onward w) i w 1

/-- The same of a word that sets the slots itself and counts as `n` words. -/
def Steers (i : Instr) (c : State → Word → Prop) (n : Word → Nat) (e : Word → State → State) : Prop :=
  ∀ s f w, Goes s i f w → c (s.entered i f w) (w.entered i f) →
    ∃ t, Runs s t ((e (w.entered i f) (s.entered i f w)).popped s f w) i w (n (w.entered i f))

/-- The word waits: it is not performed, its slot parks for the reason, and it issues again (07, R196). -/
def Parks (i : Instr) (c : State → Word → Prop) (why : Stall) (e : Word → State → State) : Prop :=
  ∀ s f w, Goes s i f w → c (s.entered i f w) (w.entered i f) →
    exec i s = .next ((e (w.entered i f) (s.entered i f w)).park w.gs w.b why)

/-- The word takes an exception of its own (15, R361 to R368). -/
def Traps (i : Instr) (c : State → Word → Prop) (x : Word → Cause) (e : Word → State → State) : Prop :=
  ∀ s f w, Goes s i f w → c (s.entered i f w) (w.entered i f) →
    exec i s = .next ((e (w.entered i f) (s.entered i f w)).raise w.gs ⟨w.slot.pc, s.rwcNow w.gs w.g, w.g.nissue, w.b⟩
      (x (w.entered i f)))

/-- The word's group becomes `g`. -/
def Word.now (w : Word) (s : State) (g : Group) : State := s.updGroup w.gs fun _ => g
/-- Where the slot goes, all its lanes with it. -/
def Word.goto (w : Word) (g : Group) (pc : W64) : Group := g.setSlot w.b (some { w.slot with pc })
/-- Lanes `m` of the slot go on in the other one at `pc`, the others at `rest` (07, R186; 10, R259). -/
def Word.fork (w : Word) (g : Group) (m : Mask) (pc rest : W64) : Group :=
  { (g.setSlot w.b (some { w.slot with pc := rest, mask := w.slot.mask &&& ~~~m })).setSlot (!w.b) (some { pc, mask := m }) with
    refill := g.refill.filter (fun x => x.1 == w.b), parkA := if w.b then none else g.parkA, parkB := if w.b then g.parkB else none }
/-- A lane's target of BRX and RET, that of the lowest active lane, and the lanes that have it (10, R260). -/
def Word.target (w : Word) (L : Nat) : W64 := BitVec.ofNat 64 (w.src 0 L)
def Word.first (w : Word) : W64 := w.target (w.lanes.headD 0)
def Word.same (w : Word) : Mask := maskOf fun L => inMask w.act L && w.target L == w.first
/-- The physical place of an entry of the group's stacks, `o` bytes into its spill area, where it may be written, or read, and whether
its page is uncached (07, R189; 10, R267). -/
def State.stackAt (s : State) (w : Word) (acc : Acc) (o pa : Nat) (unc : Bool) : Prop :=
  s.transGlobal (w.ask acc) (s.frameBase w.g + 32 * s.privOf w + o) = .ok [.mem pa] unc
/-- A destination of 64 bits takes one value. -/
def Word.gets (w : Word) (g : Group) (d : Reg) (x : W64) : Group := g.writes (w.put64 d fun _ => x.toNat)
/-- Some lane is active, or none. -/
def Word.some (w : Word) : Prop := w.act ≠ 0#32
def Word.none (w : Word) : Prop := w.act = 0#32
/-- No other path of the group is in a slot or on its way to one. -/
def Word.alone (w : Word) : Prop := w.g.path (!w.b) = Option.none

/-! ### Words that access memory -/

/-- The fields of an instruction. -/
def fieldsOf (i : Instr) : Info := i.info.getD { h := ⟨false, 7, false⟩ }
/-- It performs once for the group (12, R294). -/
def onceOf (i : Instr) : Bool := infoOnce (fieldsOf i)
/-- A memory operand's address in a lane: base, scaled index, displacement in units of the access (09, R230). -/
def Word.ea (w : Word) (m : MemOp) (L : Nat) : W64 :=
  w.opnd64 0 L + ((if m.idx.isS then w.opnd64 1 L else (w.opnd32 1 L).signExtend 64) <<< m.xs.toNat) +
    m.off.signExtend 64 * BitVec.ofNat 64 m.sz.bytes
/-- The lanes for which a word performs, with their addresses; of the words whose base alone is the address. -/
def Word.eas (w : Word) (i : Instr) (m : MemOp) : List (Nat × W64) := (w.perf (onceOf i)).map fun L => (L, w.ea m L)
def Word.bases (w : Word) (i : Instr) : List (Nat × W64) := (w.perf (onceOf i)).map fun L => (L, w.opnd64 0 L)
/-- Every lane's address is aligned and translates. -/
def State.reaches (s : State) (w : Word) (acc : Acc) (n : Nat) (l : List (Nat × W64)) : Prop :=
  ∀ x ∈ l, x.2.toNat % n = 0 ∧ ∃ p u, s.trans (w.ask acc) x.2.toNat n x.1 = .ok p u
/-- What the addresses come to. -/
def State.places (s : State) (w : Word) (acc : Acc) (n : Nat) (l : List (Nat × W64)) : List LaneTr :=
  l.map fun x => ⟨x.1, x.2, s.trans (w.ask acc) x.2.toNat n x.1⟩
/-- The same of LDS and STS, whose addresses are offsets in the gang's local stores (12, R296). [DEDUCED, log entry 107] -/
def State.localPlaces (s : State) (w : Word) (acc : Acc) (n : Nat) (l : List (Nat × W64)) : List LaneTr :=
  l.map (s.localTr w acc n)
def allOk (l : List LaneTr) : Prop := ∀ x ∈ l, ∃ p u, x.tr = .ok p u

/-- The state after a load has been asked for: L1 serves what it holds, the request of the rest is under way, the pending bits of
the destination are set (02, R47; 07, R193; 12, R295). -/
def State.asked (s : State) (w : Word) (i : Instr) (d : Reg) (m : MemOp) (l : List LaneTr) : State :=
  let accs := l.flatMap (splitAccs m.sz.bytes)
  let refs := (fieldsOf i).dst.flatMap useRefs
  let q := { s.reqOf w (.load d m.sz) accs m.sz.bytes m.ord m.sco (onceOf i) (if accs = [] then .answered else .mesh) with
    rct := m.rct.toNat, pend := refs }
  let r := s.l1Serve q
  (r.2.putReq r.1).pendOn w.gs refs

/-- The accesses of a store: each lane's data, cut where an access has several places (12, R295; 01, R18). -/
def Word.storing (w : Word) (n : Nat) (l : List LaneTr) : List LaneAcc :=
  l.flatMap fun x => (splitAccs n x).map fun a =>
    { a with data := BitVec.ofNat 128 (w.src 2 x.lane / 2 ^ (8 * a.len * a.part) % 2 ^ (8 * a.len)) }

/-- Nothing of the machine's memory or partitions, and of the groups only the word's, has changed; that one keeps its registers,
its stacks and its place. -/
structure Unwritten (s u : State) (w : Word) : Prop where
  mem    : u.mem = s.mem
  parts  : u.parts = s.parts
  others : ∀ k, k ≠ w.gs → Tbl.find u.groups k = Tbl.find s.groups k
  group  : ∃ g, Tbl.find u.groups w.gs = some g ∧ SameGroup w.g g ∧ g.regs = w.g.regs

/-- The transactions of some lanes, each changed alike. -/
def Group.each (g : Group) (l : List Nat) (f : TxLane → TxLane) : Group := l.foldl (fun g L => g.updTx L f) g

/-- The word's 64-bit destination takes a number; the slot's own note of how far the word has come. -/
def Word.says (w : Word) (d : Reg) (v : Nat) (s : State) : State := s.updGroup w.gs fun g => g.writes (w.put64 d fun _ => v)
def Word.notes (w : Word) (ph : Phase) (s : State) : State := s.updGroup w.gs fun g => g.setSlot w.b (Option.some { w.slot with phase := ph })

/-! ### Words that start operations of engines -/

/-- A copy: its destination, source, length, rows and pitches (12, R304). -/
structure Copying where
  dst  : Nat
  src  : Nat
  len  : Nat
  rows : Nat := 1
  sp   : Nat := 0
  dp   : Nat := 0

/-- The copy of CPY and CPYX: the operands, and the shape word where there is one (12, R304 Table 6, Table 7). -/
def Word.copying (w : Word) (c : Reg) : Copying :=
  let sh := w.opnd64 2 0
  if c = .z then { dst := w.src 3 0, src := w.src 0 0, len := (w.opnd32 1 0).toNat }
  else { dst := w.src 3 0, src := w.src 0 0, len := (w.opnd32 1 0).toNat, rows := bits sh 15 0, sp := bits sh 39 16, dp := bits sh 63 40 }

/-- Everything of it is a multiple of 16, and there is something to copy. -/
def Copying.even (c : Copying) : Prop := c.dst % 16 = 0 ∧ c.src % 16 = 0 ∧ c.len % 16 = 0 ∧ c.sp % 16 = 0 ∧ c.dp % 16 = 0
def Copying.some (c : Copying) : Prop := c.len ≠ 0 ∧ c.rows ≠ 0

/-- A copy is queued at its core and stands in the open batch of its class; one of nothing has finished at once (12, R304, R307). -/
def State.copyStarted (s : State) (w : Word) (k : Cls) (ext : Bool) (c : Copying) (ixs : List Nat) : State :=
  let op : CopyOp :=
    { id := s.newId.1, cls := k, gs := w.gs, wg := w.g.wg, pc := w.slot.pc, dst := BitVec.ofNat 64 c.dst, src := BitVec.ofNat 64 c.src
      len := c.len, rows := c.rows, sp := c.sp, dp := c.dp, tgts := ixs.map fun i => { ix := i }, ext, sup := w.sup }
  (s.newId.2.updCore (coreOf w.gs) fun x => { x with cpq := x.cpq ++ [op] }).updGroup w.gs fun g =>
    g.setCls k { g.cls k with opened := (g.cls k).opened ++ [{ id := s.newId.1, pc := w.slot.pc }] }

/-- A group that is a team of its own stands at a matrix instruction: its workgroup holds the array, which is not lent, nothing earlier
may fault late, the team has not arrived (13, R309, R311 to R313). -/
structure State.TeamAlone (s : State) (w : Word) : Prop where
  team  : s.teamSize w.g < 2
  phase : w.slot.phase = .idle
  alone : w.alone
  array : (s.core (coreOf w.gs)).cols ≠ 0 ∧ (s.core (coreOf w.gs)).holder = Option.some w.g.wg ∧ (s.core (coreOf w.gs)).lent = none
  late  : s.opWaits w.gs w.g.wg = false
  here  : w.g.gidx < 32 ∧ ∃ x, Tbl.find s.wgs w.g.wg = Option.some x ∧ Tbl.find x.teams w.g.gidx = none ∧ Tbl.find x.slots w.g.gidx = Option.some w.gs

/-- It has arrived: the state, and the word as its operands are read then. -/
def State.teamed (s : State) (w : Word) : State :=
  w.notes .arrived (s.updWg w.g.wg fun x => { x with teams := Tbl.put x.teams w.g.gidx ⟨w.slot.pc, maskOf (· == w.g.gidx)⟩ })
def Word.teamed (w : Word) (i : Instr) (s : State) : Word :=
  mkWord (s.teamed w) w.gs w.b (w.g.setSlot w.b (Option.some { w.slot with phase := .arrived })) { w.slot with phase := .arrived } (fieldsOf i)

/-- The operation that it starts on its core. -/
def State.matStarted (s : State) (w : Word) (kind : MatKind) : State :=
  (s.teamed w).startMat kind w.slot.pc w.g.wg w.gs [coreOf w.gs] [⟨w.g.wg, w.gs, [w.gs], w.g.gidx, coreOf w.gs⟩]

end Sys2Proof.Machine
end

