-- ==== Sys2Proof/Certificates/Slice0/Obligations.lean ====
section
/-! DEFINITION. The statements for the provers. Each says, for the instructions it names, where they complete and what they
then leave; a value that the spec leaves open is a free value, for which a statement holds whatever it is. -/

open Sys2Proof Sys2Proof.Machine

/-- IADD, ISUB, IMUL, IMAD, with the RRI forms: the exact result reduced modulo 2^w, in the destination's role (10, R247, R249); IABS and INEG of the
least value give it back (R249). IADDS and ISUBS, with the RRI forms: the exact result clamped to the range of the type (10, R247). -/
def Obligations.IntegerSums : Prop :=
   (∀ (h : Hdr) (d a b c : Reg) (imm : BitVec 22) (ty : Ty),
      Computes (.iadd h d a b ty) (uty ty d) (fun w L => widened ty (w.opnd ty 0 L + w.opnd ty 1 L)) ∧
      Computes (.iaddRri h d a imm ty) (uty ty d) (fun w L => widened ty (w.opnd ty 0 L + immOf ty imm)) ∧
      Computes (.isub h d a b ty) (uty ty d) (fun w L => widened ty (w.opnd ty 0 L - w.opnd ty 1 L)) ∧
      Computes (.isubRri h d a imm ty) (uty ty d) (fun w L => widened ty (w.opnd ty 0 L - immOf ty imm)) ∧
      Computes (.imul h d a b ty) (uty ty d) (fun w L => widened ty (w.opnd ty 0 L * w.opnd ty 1 L)) ∧
      Computes (.imulRri h d a imm ty) (uty ty d) (fun w L => widened ty (w.opnd ty 0 L * immOf ty imm)) ∧
      Computes (.imad h d a b c ty) (uty ty d) (fun w L => widened ty (w.opnd ty 0 L * w.opnd ty 1 L + w.opnd ty 2 L)) ∧
      Computes (.iabs h d a ty) (uty ty d) (fun w L => widened ty (w.opnd ty 0 L).abs) ∧
      Computes (.ineg h d a ty) (uty ty d) (fun w L => widened ty (-(w.opnd ty 0 L)))) ∧
   (∀ (h : Hdr) (d a b : Reg) (imm : BitVec 22) (ty : Ty),
      let lo : Int := if ty.isSigned then -2 ^ (ty.bits - 1) else 0
      let hi : Int := if ty.isSigned then 2 ^ (ty.bits - 1) - 1 else 2 ^ ty.bits - 1
      let sat := fun (x : Int) => widened ty (BitVec.ofInt ty.bits (if x < lo then lo else if hi < x then hi else x))
      Computes (.iadds h d a b ty) (uty ty d) (fun w L => sat (tyInt ty (w.opnd ty 0 L) + tyInt ty (w.opnd ty 1 L))) ∧
      Computes (.iaddsRri h d a imm ty) (uty ty d) (fun w L => sat (tyInt ty (w.opnd ty 0 L) + tyInt ty (immOf ty imm))) ∧
      Computes (.isubs h d a b ty) (uty ty d) (fun w L => sat (tyInt ty (w.opnd ty 0 L) - tyInt ty (w.opnd ty 1 L))) ∧
      Computes (.isubsRri h d a imm ty) (uty ty d) (fun w L => sat (tyInt ty (w.opnd ty 0 L) - tyInt ty (immOf ty imm))))

/-- IDIV and IREM: a zero divisor gives all ones and x, the one signed overflow wraps (10, R248); IMULH the high half of the exact product, IMADW a
64-bit accumulation (10, R249). -/
def Obligations.IntegerDivision : Prop :=
  ∀ (h : Hdr) (d a b c : Reg) (ty : Ty),
    Computes (.idiv h d a b ty) (uty ty d) (fun w L =>
      let x := w.opnd ty 0 L
      let y := w.opnd ty 1 L
      widened ty (if y = 0 then BitVec.allOnes _ else if ty.isSigned then x.sdiv y else x.udiv y)) ∧
    Computes (.irem h d a b ty) (uty ty d) (fun w L =>
      let x := w.opnd ty 0 L
      let y := w.opnd ty 1 L
      widened ty (if y = 0 then x else if ty.isSigned then x.srem y else x.umod y)) ∧
    Computes (.imulh h d a b ty) (uty ty d) (fun w L =>
      let x := w.opnd ty 0 L
      let y := w.opnd ty 1 L
      ((if ty.isSigned then x.signExtend (2 * ty.bits) * y.signExtend (2 * ty.bits)
        else x.setWidth (2 * ty.bits) * y.setWidth (2 * ty.bits)).extractLsb' ty.bits ty.bits).toNat) ∧
    Computes (.imadw h d a b c ty) (u64 d) (fun w L =>
      let x := w.opnd32 0 L
      let y := w.opnd32 1 L
      ((if ty.isSigned then x.signExtend 64 * y.signExtend 64 else x.setWidth 64 * y.setWidth 64) + w.opnd64 2 L).toNat)

/-- IMIN, IMAX, ICMP and ICMPP, with the RRI forms: signed order for .S types, unsigned for .L (10, R247, R250). -/
def Obligations.IntegerOrder : Prop :=
  ∀ (h : Hdr) (d a b : Reg) (p : Pred) (imm : BitVec 22) (cc : Cmp) (ty : Ty),
    Computes (.imin h d a b ty) (uty ty d) (fun w L =>
      widened ty (if compared .lt ty.isSigned (w.opnd ty 0 L) (w.opnd ty 1 L) then w.opnd ty 0 L else w.opnd ty 1 L)) ∧
    Computes (.iminRri h d a imm ty) (uty ty d) (fun w L =>
      widened ty (if compared .lt ty.isSigned (w.opnd ty 0 L) (immOf ty imm) then w.opnd ty 0 L else immOf ty imm)) ∧
    Computes (.imax h d a b ty) (uty ty d) (fun w L =>
      widened ty (if compared .gt ty.isSigned (w.opnd ty 0 L) (w.opnd ty 1 L) then w.opnd ty 0 L else w.opnd ty 1 L)) ∧
    Computes (.imaxRri h d a imm ty) (uty ty d) (fun w L =>
      widened ty (if compared .gt ty.isSigned (w.opnd ty 0 L) (immOf ty imm) then w.opnd ty 0 L else immOf ty imm)) ∧
    Computes (.icmp h d a b cc ty) (u32 d) (fun w L =>
      if compared cc ty.isSigned (w.opnd ty 0 L) (w.opnd ty 1 L) then 1 else 0) ∧
    Computes (.icmpRri h d a imm cc ty) (u32 d) (fun w L =>
      if compared cc ty.isSigned (w.opnd ty 0 L) (immOf ty imm) then 1 else 0) ∧
    Decides (.icmpp h p a b cc ty) p (fun w L => compared cc ty.isSigned (w.opnd ty 0 L) (w.opnd ty 1 L)) ∧
    Decides (.icmppRri h p a imm cc ty) p (fun w L => compared cc ty.isSigned (w.opnd ty 0 L) (immOf ty imm))

/-- MOV, PICK, MOVI, MOVIH, LEA and CNVI (10, R247, R250, R251, R256). -/
def Obligations.IntegerMoves : Prop :=
  ∀ (h : Hdr) (d a b : Reg) (p : Pred) (imm : W32) (sh : BitVec 3) (ty st : Ty) (sat : Bool),
    Computes (.mov h d a ty) (uty ty d) (fun w L => (w.opnd ty 0 L).toNat) ∧
    Computes (.pick h d a b p ty) (uty ty d) (fun w L =>
      (if inMask (w.g.pred p) L then w.opnd ty 0 L else w.opnd ty 1 L).toNat) ∧
    Computes (.movi h d imm ty) (uty ty d) (fun _ _ => (if ty.isSigned then imm.signExtend ty.bits else imm.setWidth ty.bits).toNat) ∧
    Computes (.movih h d imm) (u64 d) (fun w L => (imm ++ w.opnd32 0 L).toNat) ∧
    Computes (.lea h d a b sh ty) (u64 d) (fun w L =>
      let y := w.opnd32 1 L
      (w.opnd64 0 L + ((if ty.isSigned then y.signExtend 64 else y.setWidth 64) <<< sh.toNat)).toNat) ∧
    Computes (.cnvi h d a ty st sat) (uty ty d) (fun w L =>
      let x := tyInt st (w.opnd st 0 L)
      let lo : Int := if ty.isSigned then -2 ^ (ty.bits - 1) else 0
      let hi : Int := if ty.isSigned then 2 ^ (ty.bits - 1) - 1 else 2 ^ ty.bits - 1
      widened ty (BitVec.ofInt ty.bits (if sat then (if x < lo then lo else if hi < x then hi else x) else x)))

/-- AND, OR, XOR, NOT and ANDN, with the RRI forms (10, R252). POPC, CLZ, CTZ and BREV (10, R252). -/
def Obligations.LogicAndCounts : Prop :=
   (∀ (h : Hdr) (d a b : Reg) (imm : BitVec 22) (ty : Ty),
      Computes (.and h d a b ty) (uty ty d) (fun w L => (w.opnd ty 0 L &&& w.opnd ty 1 L).toNat) ∧
      Computes (.andRri h d a imm ty) (uty ty d) (fun w L => (w.opnd ty 0 L &&& immOf ty imm).toNat) ∧
      Computes (.or h d a b ty) (uty ty d) (fun w L => (w.opnd ty 0 L ||| w.opnd ty 1 L).toNat) ∧
      Computes (.orRri h d a imm ty) (uty ty d) (fun w L => (w.opnd ty 0 L ||| immOf ty imm).toNat) ∧
      Computes (.xor h d a b ty) (uty ty d) (fun w L => (w.opnd ty 0 L ^^^ w.opnd ty 1 L).toNat) ∧
      Computes (.xorRri h d a imm ty) (uty ty d) (fun w L => (w.opnd ty 0 L ^^^ immOf ty imm).toNat) ∧
      Computes (.not h d a ty) (uty ty d) (fun w L => (~~~(w.opnd ty 0 L)).toNat) ∧
      Computes (.andn h d a b ty) (uty ty d) (fun w L => (w.opnd ty 0 L &&& ~~~(w.opnd ty 1 L)).toNat) ∧
      Computes (.andnRri h d a imm ty) (uty ty d) (fun w L => (w.opnd ty 0 L &&& ~~~(immOf ty imm)).toNat)) ∧
   (∀ (h : Hdr) (d a : Reg) (ty : Ty),
      Computes (.popc h d a ty) (u32 d) (fun w L => (w.opnd ty 0 L).cpop.toNat) ∧
      Computes (.clz h d a ty) (u32 d) (fun w L => (w.opnd ty 0 L).clz.toNat) ∧
      Computes (.ctz h d a ty) (u32 d) (fun w L => (w.opnd ty 0 L).ctz.toNat) ∧
      Computes (.brev h d a ty) (uty ty d) (fun w L => (w.opnd ty 0 L).reverse.toNat))

/-- SHL, SHR, SAR and ROTL by a count of 8 bits, with the RRI forms, and FUNNEL by one of 5 (10, R253). -/
def Obligations.Shifts : Prop :=
  ∀ (h : Hdr) (d a b c : Reg) (imm : BitVec 22) (ty : Ty) (right : Bool),
    let n := fun (w : Word) L => (w.opnd32 1 L).toNat % 256
    let k := (imm.setWidth 8).toNat
    Computes (.shl h d a b ty) (uty ty d) (fun w L => (w.opnd ty 0 L <<< n w L).toNat) ∧
    Computes (.shlRri h d a imm ty) (uty ty d) (fun w L => (w.opnd ty 0 L <<< k).toNat) ∧
    Computes (.shr h d a b ty) (uty ty d) (fun w L => (w.opnd ty 0 L >>> n w L).toNat) ∧
    Computes (.shrRri h d a imm ty) (uty ty d) (fun w L => (w.opnd ty 0 L >>> k).toNat) ∧
    Computes (.sar h d a b ty) (uty ty d) (fun w L => ((w.opnd ty 0 L).sshiftRight (n w L)).toNat) ∧
    Computes (.sarRri h d a imm ty) (uty ty d) (fun w L => ((w.opnd ty 0 L).sshiftRight k).toNat) ∧
    Computes (.rotl h d a b ty) (uty ty d) (fun w L => ((w.opnd ty 0 L).rotateLeft (n w L)).toNat) ∧
    Computes (.rotlRri h d a imm ty) (uty ty d) (fun w L => ((w.opnd ty 0 L).rotateLeft k).toNat) ∧
    Computes (.funnel h d a b c right) (u32 d) (fun w L =>
      let u := w.opnd32 0 L ++ w.opnd32 1 L
      let z := (w.opnd32 2 L).toNat % 32
      if right then ((u >>> z).extractLsb' 0 32).toNat else ((u <<< z).extractLsb' 32 32).toNat)

/-- BFX, BFI and BMRG (10, R254, R255). -/
def Obligations.BitFields : Prop :=
  ∀ (h : Hdr) (d a b c : Reg) (ty : Ty),
    Computes (.bfx h d a b c ty) (uty ty d) (fun w L =>
      (bitField ty.isSigned (w.opnd ty 0 L) ((w.opnd32 1 L).toNat % 256) ((w.opnd32 2 L).toNat % 256)).toNat) ∧
    Computes (.bfi h d a b c ty) (uty ty d) (fun w L =>
      let z := w.opnd32 2 L
      (fieldInto (w.opnd ty 0 L) (w.opnd ty 1 L) (z.extractLsb' 0 8).toNat (z.extractLsb' 8 8).toNat).toNat) ∧
    Computes (.bmrg h d a b c) (u32 d) (fun w L =>
      let pool := w.opnd32 1 L ++ w.opnd32 0 L
      let k := fun i => mergedByte pool ((w.opnd32 2 L).extractLsb' (8 * i) 8)
      (k 3 ++ k 2 ++ k 1 ++ k 0).toNat)

/-- PAND, POR, PXOR, PNOT, PSET and the four uses of PMOV (10, R257). -/
def Obligations.Predicates : Prop :=
  ∀ (h : Hdr) (p x y : Pred) (d a : Reg) (imm : W32),
    let bit := fun (w : Word) (q : Pred) L => inMask (w.g.pred q) L
    Decides (.pand h p x y) p (fun w L => bit w x L && bit w y L) ∧
    Decides (.por h p x y) p (fun w L => bit w x L || bit w y L) ∧
    Decides (.pxor h p x y) p (fun w L => bit w x L ^^ bit w y L) ∧
    Decides (.pnot h p x) p (fun w L => !(bit w x L)) ∧
    Decides (.pset h p imm) p (fun _ L => imm.getLsbD L) ∧
    Decides (.pmov h (.pp p x)) p (fun w L => bit w x L) ∧
    Computes (.pmov h (.rd d x)) (uvs d) (fun w _ => (w.g.pred x).toNat) ∧
    Decides (.pmov h (.nz p a)) p (fun w L => decide (w.opnd32 0 L ≠ 0#32)) ∧
    Decides (.pmov h (.bits p a)) p (fun w L => (w.opnd32 0 L).getLsbD L)

/-- FADD, FSUB, FMUL and FFMA: the exact value of the modified sources, rounded once to the format; FSUB negates B (11, R276, R279, R280). -/
def Obligations.FloatSums : Prop :=
  ∀ (h : Hdr) (d a b c : Reg) (m : FMods) (ty : Ty) (rm : Rm),
    let fmt := fmtOf ty
    let x := fun (w : Word) L => fmt.val (w.fa ty m L)
    let y := fun (w : Word) L => fmt.val (w.fb ty m L)
    let z := fun (w : Word) L => fmt.val (w.fc ty m L)
    Computes (.fadd h d a b m ty rm) (uty ty d) (fun w L => fmt.round rm (fsum rm [x w L, y w L])) ∧
    Computes (.fsub h d a b m ty rm) (uty ty d) (fun w L => fmt.round rm (fsum rm [x w L, (y w L).opp])) ∧
    Computes (.fmul h d a b m ty rm) (uty ty d) (fun w L => fmt.round rm ((x w L).mul (y w L))) ∧
    Computes (.ffma h d a b c m ty rm) (uty ty d) (fun w L => fmt.round rm (fsum rm [(x w L).mul (y w L), z w L]))

/-- FDIV, FSQRT, FRCP, FRSQ, FEX2, FLG2 and FRND: the function of the exact values, rounded once (11, R278, R279, R284). -/
def Obligations.FloatFunctions : Prop :=
  ∀ (h : Hdr) (d a b : Reg) (m : FMods) (ty : Ty) (rm : Rm),
    let fmt := fmtOf ty
    let x := fun (w : Word) L => fmt.val (w.fa ty m L)
    let y := fun (w : Word) L => fmt.val (w.fb ty m L)
    Computes (.fdiv h d a b m ty rm) (uty ty d) (fun w L => fmt.round rm ((x w L).div (y w L))) ∧
    Computes (.fsqrt h d a m ty rm) (uty ty d) (fun w L => fmt.round rm (x w L).sqrt) ∧
    Computes (.frcp h d a m ty rm) (uty ty d) (fun w L => fmt.round rm (FVal.div (.fin false 1 0) (x w L))) ∧
    Computes (.frsq h d a m ty rm) (uty ty d) (fun w L => fmt.round rm (x w L).rsqrt) ∧
    Computes (.fex2 h d a m ty rm) (uty ty d) (fun w L => fmt.round rm (x w L).exp2) ∧
    Computes (.flg2 h d a m ty rm) (uty ty d) (fun w L => fmt.round rm (x w L).log2) ∧
    Computes (.frnd h d a m ty rm) (uty ty d) (fun w L => fmt.round rm ((x w L).integral rm))

/-- FMIN, FMAX, FMINX, FMAXX, FCMPP and FCLASS: order of the modified encodings, −0 below +0; a NaN is passed over by FMIN and FMAX and wins in FMINX
and FMAXX (11, R281 to R283). -/
def Obligations.FloatOrder : Prop :=
  ∀ (h : Hdr) (p : Pred) (d a b : Reg) (m : FMods) (cc : FCmp) (ty : Ty),
    let fmt := fmtOf ty
    let x := fun (w : Word) L => w.fa ty m L
    let y := fun (w : Word) L => w.fb ty m L
    let nan := fun (v : Nat) => fmt.val v = .nan
    Computes (.fmin h d a b m ty) (uty ty d) (fun w L =>
      if nan (x w L) then (if nan (y w L) then fmt.nanEnc else y w L)
      else if nan (y w L) then x w L
      else if fmt.key (x w L) < fmt.key (y w L) then x w L else y w L) ∧
    Computes (.fmax h d a b m ty) (uty ty d) (fun w L =>
      if nan (x w L) then (if nan (y w L) then fmt.nanEnc else y w L)
      else if nan (y w L) then x w L
      else if fmt.key (x w L) < fmt.key (y w L) then y w L else x w L) ∧
    Computes (.fminx h d a b m ty) (uty ty d) (fun w L =>
      if nan (x w L) ∨ nan (y w L) then fmt.nanEnc
      else if fmt.key (x w L) < fmt.key (y w L) then x w L else y w L) ∧
    Computes (.fmaxx h d a b m ty) (uty ty d) (fun w L =>
      if nan (x w L) ∨ nan (y w L) then fmt.nanEnc
      else if fmt.key (x w L) < fmt.key (y w L) then y w L else x w L) ∧
    Decides (.fcmpp h p a b m cc ty) p (fun w L =>
      let un := decide (nan (x w L) ∨ nan (y w L))
      let lt := decide (fmt.key0 (x w L) < fmt.key0 (y w L))
      let eq := decide (fmt.key0 (x w L) = fmt.key0 (y w L))
      match cc with
      | .eq => !un && eq
      | .ne => un || !eq
      | .lt => !un && lt
      | .le => !un && (lt || eq)
      | .gt => !un && !lt && !eq
      | .ge => !un && !lt
      | .num => !un
      | .nan => un) ∧
    Computes (.fclass h d a ty) (u32 d) (fun w L => fmt.cls (w.src 0 L % 2 ^ ty.bits))

/-- PKADD, PKMUL, PKFMA and PKDOT: two elements of 16 bits, each rounded once; PKDOT's sum is rounded once to binary32 (11, R285, R287). BDOT4: four
products of bytes and a 32-bit accumulator, clamped with .SAT (11, R286). FCVT, ITOF, FTOI, FPACK and FUNPK: conversions saturate (11, R275, R288 to
R291); RNGK (11, R292). -/
def Obligations.PackedAndConversions : Prop :=
   (∀ (h : Hdr) (d a b c : Reg) (m : FMods) (ty : Ty) (rm : Rm) (sa sb sat : Bool),
      let fmt := fmtOf ty
      let half := fun (x : W32) (neg : Bool) k => fmt.val (fmt.modify neg false (x.extractLsb' (16 * k) 16).toNat)
      let x := fun (w : Word) L => half (w.opnd32 0 L) m.na
      let y := fun (w : Word) L => half (w.opnd32 1 L) m.nb
      let z := fun (w : Word) L => half (w.opnd32 2 L) m.nc
      let both := fun (f : Nat → Nat) => f 0 + 2 ^ 16 * f 1
      let byte := fun (s : Bool) (x : W32) k =>
        let e := x.extractLsb' (8 * k) 8
        if s then e.toInt else (e.toNat : Int)
      Computes (.pkadd h d a b m ty rm) (u32 d) (fun w L => both fun k => fmt.round rm (fsum rm [x w L k, y w L k])) ∧
      Computes (.pkmul h d a b m ty rm) (u32 d) (fun w L => both fun k => fmt.round rm ((x w L k).mul (y w L k))) ∧
      Computes (.pkfma h d a b c m ty rm) (u32 d) (fun w L => both fun k =>
        fmt.round rm (fsum rm [(x w L k).mul (y w L k), z w L k])) ∧
      Computes (.pkdot h d a b c m ty rm) (u32 d) (fun w L => f32.round rm
        (fsum rm [f32.val (f32.modify m.nc false (w.src 2 L)), (x w L 0).mul (y w L 0), (x w L 1).mul (y w L 1)])) ∧
      Computes (.bdot4 h d a b c sa sb sat) (u32 d) (fun w L =>
        let p := fun k => byte sa (w.opnd32 0 L) k * byte sb (w.opnd32 1 L) k
        let v := (w.opnd32 2 L).toInt + (p 0 + p 1 + p 2 + p 3)
        (BitVec.ofInt 32 (if sat then (if v < -2 ^ 31 then -2 ^ 31 else if 2 ^ 31 - 1 < v then 2 ^ 31 - 1 else v) else v)).toNat)) ∧
   (∀ (h : Hdr) (d a b : Reg) (ty sty : Ty) (rm : Rm) (hi : Bool) (ix : BitVec 2),
      Computes (.fcvt h d a ty sty rm) (uty ty d) (fun w L => (fmtOf ty).conv rm ((fmtOf sty).val (w.opnd sty 0 L).toNat)) ∧
      Computes (.itof h d a ty sty rm) (uty ty d) (fun w L =>
        let x := tyInt sty (w.opnd sty 0 L)
        (fmtOf ty).conv rm (.fin (decide (x < 0)) x.natAbs 0)) ∧
      Computes (.ftoi h d a ty sty rm) (uty ty d) (fun w L =>
        let lo : Int := if ty.isSigned then -2 ^ (ty.bits - 1) else 0
        let hi : Int := if ty.isSigned then 2 ^ (ty.bits - 1) - 1 else 2 ^ ty.bits - 1
        let v : Int := match ((fmtOf sty).val (w.opnd sty 0 L).toNat).integral rm with
          | .nan => 0
          | .inf n => if n then lo else hi
          | .fin n m e =>
            let x : Int := (if n then -1 else 1) * (m * 2 ^ e.toNat)
            if x < lo then lo else if hi < x then hi else x
        widened ty (BitVec.ofInt ty.bits v)) ∧
      Computes (.fpack h d a b ty rm hi) (u32 d) (fun w L =>
        let x := (fmtOf ty).conv rm (f32.val (w.src 0 L))
        let y := (fmtOf ty).conv rm (f32.val (w.src 1 L))
        let old := w.opnd32 2 L
        if ty.bits = 16 then (BitVec.ofNat 16 y ++ BitVec.ofNat 16 x).toNat
        else if hi then (BitVec.ofNat 8 y ++ BitVec.ofNat 8 x ++ old.extractLsb' 0 16).toNat
        else (old.extractLsb' 16 16 ++ BitVec.ofNat 8 y ++ BitVec.ofNat 8 x).toNat) ∧
      Computes (.funpk h d a ty ix) (u32 d) (fun w L =>
        f32.conv .rne ((fmtOf ty).val ((w.opnd32 0 L).extractLsb' (ty.bits * ix.toNat) ty.bits).toNat)) ∧
      Computes (.rngk h d a b) (u32 d) (fun w L => (rngk (w.opnd64 0 L) (w.opnd64 1 L)).toNat))

/-- Rounding. A result is NaN only as the canonical NaN of its format, and a value that is no NaN becomes one only in E4M3, which has no infinity;
every encoding that is no NaN is its own rounded value in every mode, in arithmetic and conversions; a magnitude beyond the largest finite one
overflows by mode, in a conversion to the largest finite one (11, R269, R270, R272 to R275). -/
def Obligations.Rounding : Prop :=
  [Ty.f64, .f32, .f16, .bf16, .e5m2, .e4m3].map (fun ty => (fmtOf ty).nanEnc) =
    [0x7FF8000000000000, 0x7FC00000, 0x7E00, 0x7FC0, 0x7E, 0x7F] ∧
  ∀ ty ∈ [Ty.f64, .f32, .f16, .bf16, .e5m2, .e4m3], ∀ (rm : Rm) (v : FVal),
    let t := fmtOf ty
    (t.val (t.round rm v) = .nan → t.round rm v = t.nanEnc ∧ (ty ≠ .e4m3 → v = .nan)) ∧
    (t.val (t.conv rm v) = .nan → t.conv rm v = t.nanEnc) ∧
    (∀ x, x < 2 * t.top → t.val x ≠ .nan → t.round rm (t.val x) = x ∧ t.conv rm (t.val x) = x) ∧
    ∀ neg m e, v = .fin neg m e → t.maxFin < t.encMag rm neg m e →
      t.conv rm v = t.sgn neg + t.maxFin ∧
      t.round rm v = if rm = .rne ∨ rm = .rup ∧ neg = false ∨ rm = .rdn ∧ neg = true then t.infEnc neg else t.sgn neg + t.maxFin

/-- LXCH and its RRI form: each lane takes the value of the lane that mode, segment and operand name, 0 from a lane that is not live (14, R338, R339). -/
def Obligations.LaneExchange : Prop :=
  ∀ (h : Hdr) (d a b : Reg) (imm : BitVec 22) (mode : LxMode) (seg : Seg),
    let size := match seg with
      | .seg32 => 32
      | .seg16 => 16
      | .seg8 => 8
      | .seg4 => 4
      | .seg2 => 2
    let lane := fun (k L : Nat) =>
      let base := L / size * size
      match mode with
      | .from => base + k % size
      | .back => if L < base + k then L else L - k
      | .fwd => if L + k < base + size then L + k else L
      | .flip => if k < size then Nat.xor L k else L
    let value := fun (w : Word) K => if inMask w.g.live K then w.src 0 K else 0
    Computes (.lxch h d a b mode seg) (uv d) (fun w L => value w (lane (w.src 1 L % 256) L)) ∧
    Computes (.lxchRri h d a imm mode seg) (uv d) (fun w L => value w (lane (imm.toNat % 256) L))

/-- POLL: whether some, every, or all or none of the active lanes have the predicate, or the mask of those that have it (14, R340). LRED combines the
active lanes' values in its fixed order; PEER gives the lanes that hold a lane's value; BCAST one lane's value (14, R341 to R343). -/
def Obligations.PollsAndReductions : Prop :=
   (∀ (h : Hdr) (p a : Pred) (r : Reg) (inv : Bool),
      let has := fun (w : Word) L => inMask w.act L && (inMask (w.g.pred a) L != inv)
      Decides (.poll h (.some p) a inv) p (fun w _ => lanes32.any (has w)) ∧
      Decides (.poll h (.every p) a inv) p (fun w _ => lanes32.all (fun L => !(inMask w.act L) || has w L)) ∧
      Decides (.poll h (.same p) a inv) p (fun w _ =>
        lanes32.all (fun L => !(inMask w.act L) || has w L) || !(lanes32.any (has w))) ∧
      Computes (.poll h (.mask r) a inv) (uvs r) (fun w _ => (maskOf (has w)).toNat)) ∧
   (∀ (h : Hdr) (d a b : Reg) (op : LOp) (ty : Ty) (whole first : Bool),
      Computes (.lred h d a op ty) (uvs d) (fun w _ =>
        let both := fun (x y : Option Nat) => match x, y with
          | some x, some y => some (lredOp op ty x y)
          | some x, none => some x
          | none, y => y
        let leaf := fun L => if inMask w.act L then some (w.src 0 L) else none
        let r16 := fun L => both (leaf L) (leaf (L + 16))
        let r8 := fun L => both (r16 L) (r16 (L + 8))
        let r4 := fun L => both (r8 L) (r8 (L + 4))
        let r2 := fun L => both (r4 L) (r4 (L + 2))
        (both (r2 0) (r2 1)).getD 0) ∧
      Computes (.peer h d a ty whole) (uv d) (fun w L =>
        let same := maskOf fun K => inMask w.act K && w.src 0 K == w.src 0 L
        if whole = false then same.toNat else if same = w.act then w.act.toNat else 0) ∧
      Computes (.bcast h d a b first) (uvs d) (fun w _ =>
        let K := if first then (laneList w.act).headD 0 else w.src 1 0 % 32
        if inMask w.g.live K then w.src 0 K else 0))

/-- A paired word: both slots read before either writes; each destination holds what its slot gives, every other register what it held (09, R232,
R234). -/
def Obligations.PairedWord : Prop :=
  ∀ (sw : Bool) (x y : Slot) (s : State) (f : Info) (w : Word), Goes s (.pairedWord sw x y) f w →
    ∃ t ws, Performed s t (.pairedWord sw x y) f w ws ∧ w.Keeps f ws ∧ ∀ z ∈ [x, y],
      let r := fun L => pairValue z.op z.k (w.slotReg z.d L) (w.slotReg z.a L)
      match z.d with
      | .v n => ∀ L, L < 32 → inMask w.act L = true → (w.g.writes ws).vget n.val L = r L
      | .s n => w.act ≠ 0#32 → (w.g.writes ws).sget n.val = (r 0).setWidth 64
      | _ => True

/-- BRA, CALL, BRX and RET: all lanes go, none does, or the lanes of one target go on in the other slot, whose path, where it has one, is pushed on
the divergence spill stack first (07, R186, R189; 10, R258 to R261, R267). -/
def Obligations.Branches : Prop :=
  ∀ (h : Hdr) (d a : Reg) (off : W32) (pa : Nat) (unc : Bool),
    let t := fun (w : Word) => w.slot.pc + 8#64 + 8#64 * off.signExtend 64
    let next := fun (w : Word) => w.slot.pc + 8#64
    let one := fun (_ : Word) => 1
    let split := fun (w : Word) => w.some ∧ w.act ≠ w.slot.mask
    let aligned := fun (w : Word) => ∀ L, L < 32 → inMask w.act L = true → (w.target L).toNat % 8 = 0
    let stay := fun (w : Word) => if w.act &&& ~~~w.same = 0#32 then next w else w.slot.pc
    Steers (.bra h off) (fun _ w => w.act = w.slot.mask) one (fun w s => w.now s (w.goto w.g (t w))) ∧
    Steers (.bra h off) (fun _ w => w.none ∧ w.slot.mask ≠ 0#32) one (fun w s => w.now s (w.goto w.g (next w))) ∧
    Steers (.bra h off) (fun _ w => split w ∧ w.alone) one (fun w s => w.now s (w.fork w.g w.act (t w) (next w))) ∧
    (∀ e, Steers (.bra h off)
      (fun s w => split w ∧ w.g.path (!w.b) = some e ∧ s.privOf w ≠ 0 ∧ w.g.spill.length < 128 ∧
        s.stackAt w .store (16 * w.g.spill.length) pa unc) one
      (fun w s => (w.now s (w.fork { w.g with spill := e :: w.g.spill } w.act (t w) (next w))).plainWrite (s.spidOf w.g)
        (s.partOf w.g) unc pa (wordBytes (stackWords e.pc e.mask 0#32)))) ∧
    Traps (.bra h off) (fun s w => split w ∧ (∃ e, w.g.path (!w.b) = some e) ∧ (s.privOf w = 0 ∨ 128 ≤ w.g.spill.length))
      (fun w => { code := 0x21, lanes := w.act }) (fun _ s => s) ∧
    Steers (.call h d off) (fun _ w => w.act = w.slot.mask) one
      (fun w s => w.now s (w.goto (w.gets w.g d (next w)) (t w))) ∧
    Steers (.call h d off) (fun _ w => w.none ∧ w.slot.mask ≠ 0#32) one
      (fun w s => w.now s (w.goto (w.gets w.g d (next w)) (next w))) ∧
    Steers (.call h d off) (fun _ w => split w ∧ w.alone) one
      (fun w s => w.now s (w.fork (w.gets w.g d (next w)) w.act (t w) (next w))) ∧
    ∀ i, i = .brx h a ∨ i = .ret h a →
      Steers i (fun _ w => w.none ∧ w.slot.mask ≠ 0#32) one (fun w s => w.now s (w.goto w.g (next w))) ∧
      Steers i (fun _ w => w.some ∧ aligned w ∧ w.same = w.slot.mask) one (fun w s => w.now s (w.goto w.g w.first)) ∧
      Steers i (fun _ w => w.some ∧ aligned w ∧ w.same ≠ w.slot.mask ∧ w.alone) one
        (fun w s => w.now s (w.fork w.g w.same w.first (stay w))) ∧
      Traps i (fun _ w => ¬ aligned w)
        (fun w =>
          let bad := fun L => inMask w.act L && (w.target L).toNat % 8 != 0
          { code := 0x08, lanes := maskOf bad, addr := w.target ((lanes32.filter bad).headD 0) }) (fun _ s => s)

/-- MJOIN pushes an entry for its slot's lanes, JOIN makes them arrive and, as the last of them, merges, EXIT takes lanes out of the group (07, R187,
R188; 10, R262, R263; 17, R398). -/
def Obligations.Merges : Prop :=
  ∀ (h : Hdr) (off : W32) (pa : Nat) (unc : Bool),
    let t := fun (w : Word) => w.slot.pc + 8#64 + 8#64 * off.signExtend 64
    let entry := fun (w : Word) => ({ rejoin := t w, mask := w.slot.mask, arr := 0#32 } : JoinEntry)
    let next := fun (w : Word) (g : Group) => w.goto g (w.slot.pc + 8#64)
    let one := fun (_ : Word) => 1
    let fits := fun (w : Word) (e : JoinEntry) => w.slot.mask &&& ~~~e.mask = 0#32 ∧ w.slot.mask &&& e.arr = 0#32
    let rest := fun (w : Word) => w.slot.mask &&& ~~~w.act
    Steers (.mjoin h off) (fun _ w => w.g.join.length < 4) one
      (fun w s => w.now s (next w { w.g with join := entry w :: w.g.join })) ∧
    (∀ o, Steers (.mjoin h off)
      (fun s w => w.g.join[3]? = some o ∧ w.g.join.length < 132 ∧ s.privOf w ≠ 0 ∧
        s.stackAt w .store (2048 + 16 * (w.g.join.length - 4)) pa unc) one
      (fun w s => (w.now s (next w { w.g with join := entry w :: w.g.join })).plainWrite (s.spidOf w.g) (s.partOf w.g) unc pa
        (wordBytes (stackWords o.rejoin o.mask o.arr)))) ∧
    (∀ e l, Steers (.join h)
      (fun _ w => w.g.join = e :: l ∧ fits w e ∧ e.arr ||| w.slot.mask ≠ e.mask ∧ w.g.spill = []) (fun _ => 0)
      (fun w s => w.now s { w.g.setSlot w.b none with join := { e with arr := e.arr ||| w.slot.mask, joins := e.joins + 1 } :: l })) ∧
    (∀ e l, Steers (.join h)
      (fun _ w => w.g.join = e :: l ∧ fits w e ∧ e.arr ||| w.slot.mask = e.mask ∧ l.length < 4) (fun _ => e.joins + 1)
      (fun w s => w.now s ({ w.g with join := l }.setSlot w.b (some { pc := e.rejoin, mask := e.mask })))) ∧
    Traps (.join h) (fun _ w => ∀ e, w.g.join.head? = some e → ¬ fits w e) (fun w => { code := 0x01, lanes := w.slot.mask })
      (fun _ s => s) ∧
    Performs (.exit h) (fun _ w => w.none) (fun _ s => s) ∧
    Steers (.exit h)
      (fun _ w => w.some ∧ (∀ L, L < 32 → inMask w.act L = true → (w.g.txLane L).depth = 0) ∧ rest w ≠ 0#32 ∧
        w.g.join = [] ∧ w.g.spill = [] ∧ w.g.live &&& ~~~w.act ≠ 0#32 ∧ w.g.refill = []) one
      (fun w s => w.now s ({ w.g with live := w.g.live &&& ~~~w.act }.setSlot w.b
        (some { w.slot with pc := w.slot.pc + 8#64, mask := rest w }))) ∧
    Steers (.exit h)
      (fun _ w => w.some ∧ (∀ L, L < 32 → inMask w.act L = true → (w.g.txLane L).depth = 0) ∧ w.g.live &&& ~~~w.act = 0#32 ∧
        w.g.join = [] ∧ w.g.spill = [] ∧ rest w = 0#32) one
      (fun w s => w.now s { w.g with
        live := 0#32, retiring := true, exitPc := w.slot.pc, slotA := none, slotB := none, refill := [] }) ∧
    Steers (.exit h)
      (fun _ w => w.some ∧ (∀ L, L < 32 → inMask w.act L = true → (w.g.txLane L).depth = 0) ∧ rest w = 0#32 ∧
        w.g.join = [] ∧ w.g.spill = [] ∧ w.g.live &&& ~~~w.act ≠ 0#32 ∧ w.g.refill = []) one
      (fun w s => w.now s ({ w.g with live := w.g.live &&& ~~~w.act }.setSlot w.b none)) ∧
    (∀ e, Steers (.exit h)
      (fun _ w => w.some ∧ (∀ L, L < 32 → inMask w.act L = true → (w.g.txLane L).depth = 0) ∧ rest w = 0#32 ∧
        w.g.join = [e] ∧ w.g.spill = [] ∧ w.g.live &&& ~~~w.act ≠ 0#32 ∧ w.g.refill = [] ∧
        e.arr &&& ~~~w.act = e.mask &&& ~~~w.act ∧ e.mask &&& ~~~w.act ≠ 0#32) (fun _ => 1 + e.joins)
      (fun w s => w.now s ({ w.g with live := w.g.live &&& ~~~w.act, join := [] }.setSlot w.b
        (some { pc := e.rejoin, mask := e.mask &&& ~~~w.act })))) ∧
    (∀ e, Steers (.exit h)
      (fun s w => w.some ∧ (∀ L, L < 32 → inMask w.act L = true → (w.g.txLane L).depth = 0) ∧ rest w = 0#32 ∧
        w.g.join = [] ∧ w.g.spill = [e] ∧ w.g.live &&& ~~~w.act ≠ 0#32 ∧ w.g.refill = [] ∧ w.g.ft = none ∧ ¬ w.alone ∧
        s.stackAt w .load 0 pa unc) one
      (fun w s => w.now s { w.g.setSlot w.b none with
        live := w.g.live &&& ~~~w.act, spill := [], refill := [(w.b, { e with mask := e.mask &&& ~~~w.act })] })) ∧
    Traps (.exit h) (fun _ w => w.g.join = [] ∧ w.g.spill = [] ∧ ∃ L, L < 32 ∧ inMask w.act L = true ∧ 0 < (w.g.txLane L).depth)
      (fun w => { code := 0x11, lanes := maskOf fun L => inMask w.act L && decide (0 < (w.g.txLane L).depth) }) (fun _ s => s)

/-- NOP does nothing; REGION asks for the restart point at its own address, which its tentative word holds until it is committed, and only where a
group of service mode stands in slot A alone (10, R264, R265; 15, R364; 16, R389); YIELD gives 0 where no pre-emption is asked for and 2 where the
group's paths forbid one; otherwise it parks for the save (10, R266; 17, R400). -/
def Obligations.Pauses : Prop :=
  ∀ (h : Hdr) (d a b : Reg),
    let log := fun (w : Word) (s : State) v => s.logGroup w.g 5 0xFF (s.rwcNow w.gs w.g) 0x100 v
    let range := match a, b with
      | .v x, .v y => some (x.val, y.val)
      | _, _ => none
    let number := match d with
      | .s n => some n.val
      | _ => none
    Performs (.nop h) (fun _ _ => True) (fun _ s => s) ∧
    Performs (.region h) (fun s w => ¬ (s.service w.g = true ∧ w.alone ∧ w.b = false ∧ w.g.spill = [])) (fun _ s => s) ∧
    (∀ s f w, Goes s (.region h) f w → s.service w.g = true → w.alone → w.b = false → w.g.spill = [] → ∃ t l x,
      exec (.region h) s = .next t ∧ Tbl.find t.tents w.gs = some (l ++ [x]) ∧
      x.point = some (w.slot.pc, w.slot.mask, w.g.join.length, 0)) ∧
    Performs (.yield h d a b) (fun _ w => w.g.preq = false)
      (fun w s => (log w s 0#64).updGroup w.gs fun g => w.gets g d 0#64) ∧
    Performs (.yield h d a b) (fun _ w => w.g.preq = true ∧ ¬ w.alone)
      (fun w s => (log w s 2#64).updGroup w.gs fun g => w.gets g d 2#64) ∧
    Parks (.yield h d a b) (fun _ w => w.g.preq = true ∧ w.alone ∧ w.slot.phase = .idle) .switchPark
      (fun w s => (log w s 1#64).updGroup w.gs fun g => g.setSlot w.b (some { w.slot with phase := .saving number range }))

/-- LD and LDS of lanes outside transactions whose addresses are aligned and translate: one request for the lanes' accesses goes out, L1 serving what
it holds; nothing is written (12, R294 to R296; 09, R230). -/
def Obligations.Loads : Prop :=
  ∀ (h : Hdr) (d : Reg) (m : MemOp),
    let n := m.sz.bytes
    let g := fun (i : Instr) (w : Word) (s : State) => s.places w .load n (w.eas i m)
    let k := fun (i : Instr) (w : Word) (s : State) => s.localPlaces w .load n (w.eas i m)
    Performs (.ld h d m) (fun s w => w.g.tx = [] ∧ s.reaches w .load n (w.eas (.ld h d m) m))
      (fun w s => s.asked w (.ld h d m) d m (g (.ld h d m) w s)) ∧
    Performs (.lds h d m) (fun s w => w.g.tx = [] ∧ allOk (k (.lds h d m) w s))
      (fun w s => s.asked w (.lds h d m) d m (k (.lds h d m) w s)) ∧
    ∀ s w i l, Tbl.find s.groups w.gs = some w.g → Unwritten s (s.asked w i d m l) w

/-- ST and STS of lanes outside transactions: for each home a request with its lanes' addresses and data; no byte is stored before the home performs
it (12, R295, R296; 02, R57; 16, R386). -/
def Obligations.Stores : Prop :=
  ∀ (h : Hdr) (d : Reg) (m : MemOp),
    let n := m.sz.bytes
    let sent := fun (i : Instr) (w : Word) (s : State) (l : List LaneTr) =>
      (s.sendWrites w .store (w.storing n l) n m.ord m.sco (onceOf i) (!infoQuiet (fieldsOf i)) []).popResult w (fieldsOf i)
    Performs (.st h d m) (fun s w => w.g.tx = [] ∧ s.reaches w .store n (w.eas (.st h d m) m))
      (fun w s => sent (.st h d m) w s (s.places w .store n (w.eas (.st h d m) m))) ∧
    Performs (.sts h d m) (fun s w => w.g.tx = [] ∧ allOk (s.localPlaces w .store n (w.eas (.sts h d m) m)))
      (fun w s => sent (.sts h d m) w s (s.localPlaces w .store n (w.eas (.sts h d m) m))) ∧
    ∀ s w i l, Tbl.find s.groups w.gs = some w.g → (Tbl.find s.wgs w.g.wg).isSome → Unwritten s (sent i w s l) w

/-- ATOM, RED and REDO: the requests of the lanes' operations go to their homes, REDO's as entries of the launch's reduction log at the core's next
slots; no lane's word is changed yet (12, R300 to R302; 05, R127, R146, R147). -/
def Obligations.Atomics : Prop :=
  ∀ (h : Hdr) (d a b c : Reg) (m : MemOp) (op : AOp) (ro : ROp) (sz : Sz) (ord : Ord) (sco : Sco),
    let at_ := Instr.atom h d a b c op sz ord sco
    let re := Instr.red h d m ro
    let rd := Instr.redo h d m
    let log := fun (s : State) (w : Word) => (((s.gridOf w.g).map fun g => g.word 0x48).getD 0#64)
    Performs at_ (fun s w => s.reaches w .atomic sz.bytes (w.bases at_))
      (fun w s =>
        let l := s.places w .atomic sz.bytes (w.bases at_)
        (s.sendAtomics w (fieldsOf at_) (.atom d sz op) (atomAccs sz.bytes (w.src 1) (w.src 2) l) sz.bytes ord sco (onceOf at_)).popResult w (fieldsOf at_)) ∧
    Performs re (fun s w => s.reaches w .atomic m.sz.bytes (w.eas re m))
      (fun w s =>
        let l := s.places w .atomic m.sz.bytes (w.eas re m)
        (s.sendAtomics w (fieldsOf re) (.red m.sz ro) (atomAccs m.sz.bytes (w.src 2) (fun _ => 0) l) m.sz.bytes m.ord m.sco (onceOf re)).popResult w (fieldsOf re)) ∧
    (∀ grid hdr u, Performs rd
      (fun s w =>
        let l := s.places w .store 4 (w.eas rd m)
        let mine := Tbl.get [] grid.chunks (coreOf w.gs)
        let entry := fun k => (log s w).toNat + 64 + 32 * k
        s.gridOf w.g = some grid ∧ s.reaches w .store 4 (w.eas rd m) ∧ l ≠ [] ∧
        (∀ x ∈ l, x.ga.toNat < localWin ∧ (Tbl.get 0#32 w.g.seq x.lane).toNat < 2 ^ 24) ∧ log s w ≠ 0#64 ∧
        s.trans (w.ask .atomic) (log s w).toNat 8 0 = .ok [.mem hdr] u ∧ l.length ≤ (mine.map fun r => r.2 - r.1).sum ∧
        ∀ k ∈ (redoSlots l.length mine).1, ∀ L, ∃ p v, s.trans (w.ask .store) (entry k) 32 L = .ok p v)
      (fun w s =>
        let l := s.places w .store 4 (w.eas rd m)
        let core := coreOf w.gs
        let slots := redoSlots l.length (Tbl.get [] grid.chunks core)
        let s1 := s.updGrid (((Tbl.find s.wgs w.g.wg).map (·.grid)).getD 0) fun g =>
          { g with chunks := Tbl.put g.chunks core slots.2 }
        let s2 := (l.zip slots.1).foldl (fun t x =>
          let L := x.1.lane
          let va := (log s w).toNat + 64 + 32 * x.2
          let e := redoEntry ((x.1.locs.head?.map Loc.pa).getD 0) (w.src 2 L % 2 ^ 32) (Tbl.get 0#32 w.g.seq L).toNat
            (Tbl.get 0#10 w.g.origin L).toNat (s.wgidOf w.g)
          t.putReq { t.reqOf w (.append x.2 e)
            [{ lane := L, ga := x.1.ga, locs := (⟨L, 0#64, s.trans (w.ask .store) va 32 L⟩ : LaneTr).locs, len := 32 }] 32 m.ord m.sco (onceOf rd)
            (if infoQuiet (fieldsOf rd) then .mesh else .held) with head := w.heads m.ord }) s1
        (s2.updGroup w.gs fun g => { g with
          seq := l.foldl (fun t x => Tbl.put t x.lane (Tbl.get 0#32 t x.lane + 1#32)) g.seq
          chk := { g.chk with relFence := false } }).popResult w (fieldsOf rd))) ∧
    Traps rd (fun s w => s.reaches w .store 4 (w.eas rd m) ∧ w.eas rd m ≠ [] ∧ (∀ x ∈ w.eas rd m, x.2.toNat < localWin) ∧
        s.service w.g = true ∧ log s w = 0#64)
      (fun w => { code := 0x13, lanes := if (onceOf rd) then w.act else maskOf fun L => (w.eas rd m).any (fun x => x.1 == L) })
      (fun _ s => s)

/-- PREF fetches the lines of its lanes' addresses that are aligned, translate and may be cached, as a weak load would, another core's line once it is
recalled, and never takes an exception; CMNT drops the core's copies of its lanes' lines, or all of them, or sends a discard of both sectors of each
of its lines; memory keeps its bytes (12, R297, R298; 02, R47, R48; 05, R124). -/
def Obligations.LineMaintenance : Prop :=
  ∀ (h : Hdr) (near : Bool) (m : MemOp) (a : Reg),
    let pf := Instr.pref h near m
    let at_ := fun (op : CmntOp) (w : Word) => w.bases (.cmnt h a op)
    Performs pf (fun _ _ => True) (fun w s =>
      (((w.eas pf m).filterMap fun x =>
        if x.2.toNat % m.sz.bytes ≠ 0 then none
        else match s.trans (w.ask .load) x.2.toNat m.sz.bytes x.1 with
          | .ok [.mem pa] false => if pa.testBit 51 then none else some (pa / 128)
          | _ => none).eraseDups).foldl (fun s l => match s.recallFor (coreOf w.gs) l with
            | some s1 => s1.fetchLine (coreOf w.gs) (s.partOf w.g) l near 0
            | none => s) s) ∧
    Performs (.cmnt h a .inva) (fun _ w => w.some) (fun w s => s.l1Clear (coreOf w.gs)) ∧
    Performs (.cmnt h a .inva) (fun _ w => w.none) (fun _ s => s) ∧
    Performs (.cmnt h a .inv) (fun s w => s.reaches w .load 1 (at_ .inv w)) (fun w s =>
      ((s.places w .load 1 (at_ .inv w)).flatMap (·.locs)).foldl (fun s x => match x with
        | .mem pa => s.l1Drop (coreOf w.gs) (pa / 128)
        | .ls _ _ _ => s) s) ∧
    Performs (.cmnt h a .drop) (fun s w => s.reaches w .store 128 (at_ .drop w)) (fun w s =>
      let mine := (s.places w .store 128 (at_ .drop w)).filter (fun x => decide (x.ga.toNat < physWin) && s.txPlace x)
      s.sendWrites w .drop
        (mine.flatMap fun x => (x.locs.take 1).flatMap fun p => (List.range 2).map fun i =>
          { lane := x.lane, ga := x.ga + BitVec.ofNat 64 (64 * i), locs := [.mem (p.pa + 64 * i)], len := 64 }) 128 .weak .none
        (onceOf (.cmnt h a .drop)) (!infoQuiet (fieldsOf (.cmnt h a .drop))) []) ∧
    (∀ s c p l b n, (State.fetchLine s c p l b n).mem = s.mem ∧ (s.fetchLine c p l b n).groups = s.groups) ∧
    (∀ s c l, Tbl.find ((State.l1Drop s c l).core c).l1 l = none ∧ ((s.l1Clear c).core c).l1 = [] ∧
      (s.l1Drop c l).mem = s.mem ∧ (s.l1Clear c).mem = s.mem)

/-- FENCE with no active lane has no effect; it waits while an earlier access of the group is under way; then a release raises the release clock and
its next strong write heads a release sequence, an acquire takes over what its loads returned and, of a scope past .WG, empties L1, and .SC past .WG
clears IC (12, R299; 03, R83, R92; 04, R106, R110, R112; 02, R48). EFENCE waits, a drain of the core's port under way, for all that the group has
outstanding; then it orders as FENCE.SC.SYS and reports: a fault held in fenced mode, else the first faulted batch, else it is done (12, R299, R306;
03, R93; 15, R367). -/
def Obligations.Fences : Prop :=
   (∀ (h : Hdr) (ord : Ord) (sco : Sco),
      let rel := ord = .rel ∨ ord = .ar ∨ ord = .sc
      let acq := ord = .acq ∨ ord = .ar ∨ ord = .sc
      Performs (.fence h ord sco) (fun _ w => w.none) (fun _ s => s) ∧
      Parks (.fence h ord sco) (fun s w => w.some ∧ s.fenceWaits w.gs w.g.wg sco = true) .batchWait (fun _ s => s) ∧
      Performs (.fence h ord sco) (fun s w => w.some ∧ s.fenceWaits w.gs w.g.wg sco = false) (fun w s => s.fenceNow w.gs ord sco) ∧
      (∀ (s : State) gs wg, s.fenceWaits gs wg sco = true ↔ ∃ e ∈ s.reqs,
        if sco = .wg then e.2.gs = gs ∧ (e.2.reads = true ∨ e.2.writes = true ∧ e.2.stage = .held)
        else e.2.gs = gs ∧ (∀ ws, e.2.kind ≠ .result ws) ∨ e.2.wg = wg ∧ e.2.gs ≠ gs ∧ e.2.writes = true ∧ e.2.stage ≠ .held) ∧
      ∀ (s : State) gs g, Tbl.find s.groups gs = some g →
        (s.fenceNow gs ord sco).mem = s.mem ∧
        (acq → sco ≠ .wg → sco ≠ .none → ((s.fenceNow gs ord sco).core (coreOf gs)).l1 = []) ∧
        (∀ k, k ≠ gs → Tbl.find (s.fenceNow gs ord sco).groups k = Tbl.find s.groups k) ∧
        ∃ g', Tbl.find (s.fenceNow gs ord sco).groups gs = some g' ∧ g'.regs = g.regs ∧ g'.pend = g.pend ∧
          g'.chk.rc = (if rel then g.chk.rc + 1#32 else g.chk.rc) ∧ (rel → g'.chk.relFence = true) ∧
          (acq → g'.chk.pendRec = none ∧ g'.chk.pendMiss = false) ∧ (ord = .sc → sco ≠ .wg → g'.chk.ic = false)) ∧
   (∀ (h : Hdr),
      let due := fun (s : State) (w : Word) => s.unperformed w.gs = true ∨ s.fenceWaits w.gs w.g.wg .sys = true ∨ w.g.opsBusy = true ∨
        (s.startDrain w.gs true).draining w.gs = true
      let ready := fun (s : State) (w : Word) => w.some ∧ ¬ due s w
      let now := fun (s : State) (w : Word) => (s.startDrain w.gs true).fenceNow w.gs .sc .sys
      Performs (.efence h) (fun _ w => w.none) (fun _ s => s) ∧
      Parks (.efence h) (fun s w => w.some ∧ due s w) .batchWait (fun w s => s.startDrain w.gs true) ∧
      Performs (.efence h) (fun s w => ready s w ∧ w.g.held = none ∧ ∀ k x, ((w.g.cls k).faulted fun _ => true) ≠ some x)
        (fun w s => now s w) ∧
      ∀ k b r, Traps (.efence h)
        (fun s w => ready s w ∧ w.g.held = none ∧ ((w.g.cls k).faulted fun _ => true) = some b ∧ batchRecord k b = some r ∧ s.service w.g = true ∧
          ∀ j, clsCode j < clsCode k → ((w.g.cls j).faulted fun _ => true) = none)
        (fun w => { code := r.1, lanes := w.slot.mask, addr := r.2.2, ext := r.2.1 })
        (fun w s => (now s w).updGroup w.gs fun g => g.setCls k ((g.cls k).report b.num)))

/-- TXB begins a transaction of each active lane, or nests one more level; a lane at depth 4 is an exception. TXA aborts its lanes' open transactions
with cause 4 and the user code. TXQ gives the lanes' status words (05, R137, R140, R143; 12, R303). TXE: at depth 2 or more it ends one level; a lane
outside a transaction is an exception; else the lanes' commit begins and TXE waits; once it is decided and every message has gone it ends, and where a
lane has committed it acquires and releases (05, R137, R140 to R144; 12, R303). -/
def Obligations.Transactions : Prop :=
   (∀ (h : Hdr) (d : Reg) (code : Byte),
      let begun : TxLane → TxLane := fun t => if t.depth = 0 then { depth := 1, status := 7#32 } else { t with depth := t.depth + 1 }
      let ended : TxLane → TxLane := fun t => if t.depth = 0 ∨ t.doomed = true then t
        else { t with doomed := true, words := [], status := BitVec.ofNat 32 (code.toNat * 2 ^ 24 + t.depth % 8 * 2 ^ 21 + 4) }
      let tq := Instr.txq h d
      Performs (.txb h) (fun _ w => ∀ L ∈ w.lanes, (w.g.txLane L).depth ≠ 4) (fun w s => w.now s (w.g.each w.lanes begun)) ∧
      Traps (.txb h) (fun _ w => ∃ L ∈ w.lanes, (w.g.txLane L).depth = 4)
        (fun w => { code := 0x11, lanes := maskOf fun L => inMask w.act L && (w.g.txLane L).depth == 4 }) (fun _ s => s) ∧
      Performs (.txa h code) (fun _ w => w.g.tx = []) (fun _ s => s) ∧
      Performs (.txa h code) (fun _ w => w.g.tx ≠ []) (fun w s => w.now s { w.g with
        tx := w.lanes.foldl (fun t L => Tbl.upd t L ended) w.g.tx }) ∧
      Performs tq (fun _ _ => True) (fun w s => s.deliver w (fieldsOf tq) (w.put (uv d) fun L => (w.g.txLane L).status.toNat)) ∧
      ∀ (g : Group) f l L, l.Nodup → (g.each l f).txLane L = if L ∈ l then f (g.txLane L) else g.txLane L) ∧
   (∀ (h : Hdr) (r : TxRun),
      let run := fun (w : Word) => w.lanes.filter (fun L => (w.g.txLane L).depth == 1 && !(w.g.txLane L).doomed)
      let inside := fun (w : Word) => ∀ L ∈ w.lanes, (w.g.txLane L).depth ≠ 0
      let ended := fun (s : State) (w : Word) => r.decided = true ∧ ∀ e ∈ s.reqs, ∀ m, e.2.kind ≠ .tx w.gs m
      Performs (.txe h) (fun _ w => w.g.txe = none ∧ inside w ∧ run w = []) (fun w s => w.now s (w.g.each w.lanes endTxLane)) ∧
      Traps (.txe h) (fun _ w => w.g.txe = none ∧ ¬ inside w)
        (fun w => { code := 0x11, lanes := maskOf fun L => inMask w.act L && (w.g.txLane L).depth == 0 }) (fun _ s => s) ∧
      Parks (.txe h) (fun s w => w.g.txe = none ∧ inside w ∧ run w ≠ [] ∧ s.fenceWaits w.gs w.g.wg .dev = true) .txCommit (fun _ s => s) ∧
      Parks (.txe h) (fun s w => w.g.txe = none ∧ inside w ∧ run w ≠ [] ∧ s.fenceWaits w.gs w.g.wg .dev = false) .txCommit
        (fun w s => s.beginTxe w (run w)) ∧
      Parks (.txe h) (fun s w => w.g.txe = some r ∧ ¬ ended s w) .txCommit (fun _ s => s) ∧
      Performs (.txe h) (fun s w => w.g.txe = some r ∧ ended s w ∧ r.lanes = 0#32)
        (fun w s => w.now s ({ w.g with txe := none }.each w.lanes endTxLane)) ∧
      Performs (.txe h) (fun s w => w.g.txe = some r ∧ ended s w ∧ r.lanes ≠ 0#32)
        (fun w s => (((w.now s ({ w.g with txe := none }.each w.lanes endTxLane)).mergePending w.gs).acquireL1 (coreOf w.gs) .dev).updGroup w.gs
          fun g => { g with chk := { g.chk with relFence := true } }))

/-- CPY, CPYX and CPYS: a copy whose numbers are multiples of 16 and whose sides lie where they may, with room in the engine's queue and
no earlier write of the workgroup under way, is queued and
enters the open batch of its class; a number that is no multiple of 16, or a side that lies where it may not, is an exception at issue (12, R304,
R305, R307; 01, R33). BATCH closes the open batch of a class under the next number, which it returns, and waits while 16 closed ones are not complete;
WAITB and WAITN wait for the closed batches they name, then empty L1, count those batches' writes that the Felt still holds as the group's own, and
report the first of them that has faulted (12, R306, R307; 03, R94, R96; 02, R48; 06, R163). -/
def Obligations.CopiesAndBatches : Prop :=
   (∀ (h : Hdr) (d a b c : Reg) (x : Nat × Nat),
      let fit := fun (s : State) (w : Word) => s.opWaits w.gs w.g.wg = false ∧ (s.core (coreOf w.gs)).cpq.length < 256
      let ds := fun (c : Copying) => sideSpan c.len c.rows c.dp
      let ss := fun (c : Copying) => sideSpan c.len c.rows c.sp
      let sent := fun (w : Word) => ({ dst := w.src 3 0, src := w.src 0 0, len := (w.opnd32 1 0).toNat } : Copying)
      let tgts := fun (w : Word) => (List.range 64).filter (fun i => (w.src 2 0).testBit i)
      Performs (.cpy h d a b c) (fun s w => w.some ∧ (w.copying c).even ∧ (w.copying c).some ∧ fit s w ∧
          s.copySide w (w.copying c).dst (ds (w.copying c)) = none ∧ s.copySide w (w.copying c).src (ss (w.copying c)) = none)
        (fun w s => s.copyStarted w .cp false (w.copying c) [0]) ∧
      Performs (.cpyx h d a b c) (fun s w => w.some ∧ (w.copying c).even ∧ (w.copying c).some ∧ fit s w ∧
          (2 ^ 56 ≤ (w.copying c).dst ∨ 2 ^ 56 ≤ (w.copying c).src) ∧
          s.extSide w true (w.copying c).dst (ds (w.copying c)) = none ∧ s.extSide w false (w.copying c).src (ss (w.copying c)) = none)
        (fun w s => s.copyStarted w .cp true (w.copying c) [0]) ∧
      Performs (.cpys h d a b c) (fun s w => w.some ∧ (sent w).even ∧ (sent w).some ∧ fit s w ∧ tgts w ≠ [] ∧ isWalker w.gs = false ∧
          (∀ m ∈ tgts w, m < (s.gangOf w.g.wg).2) ∧ s.localSide w 0 (sent w).dst (sent w).len = none ∧ s.copySide w (sent w).src (sent w).len = none)
        (fun w s => s.copyStarted w .gc false (sent w) (tgts w)) ∧
      Traps (.cpy h d a b c) (fun _ w => w.some ∧ (w.copying c).dst % 16 ≠ 0)
        (fun w => { code := 0x08, lanes := w.act, addr := BitVec.ofNat 64 (w.copying c).dst }) (fun _ s => s) ∧
      Traps (.cpy h d a b c) (fun s w => w.some ∧ (w.copying c).even ∧ s.service w.g = true ∧
          s.copySide w (w.copying c).dst (ds (w.copying c)) = some x ∧ s.copySide w (w.copying c).src (ss (w.copying c)) = none)
        (fun w => { code := x.1, det := x.2, lanes := w.act, addr := BitVec.ofNat 64 (w.copying c).dst }) (fun _ s => s)) ∧
   (∀ (h : Hdr) (d a : Reg) (imm : BitVec 22) (cls : Cls) (x : Batch) (r : Nat × List W64 × W64),
      let upTo := fun (w : Word) => w.opnd32 0 0 + imm.signExtend 32
      let namedB := fun (w : Word) (n : W32) => batchLe n (if 2 ^ 31 ≤ ((w.g.cls cls).last - upTo w).toNat then (w.g.cls cls).last else upTo w)
      let namedN := fun (w : Word) (n : W32) => batchLe n ((w.g.cls cls).last - imm.setWidth 32)
      let waits := fun (w : Word) (named : W32 → Bool) => ∃ b ∈ (w.g.cls cls).closed, b.complete = false ∧ named b.num = true
      Performs (.batch h d cls) (fun _ w => w.some ∧ ((w.g.cls cls).closed.filter fun b => !b.complete).length < 16)
        (fun w s => w.says d ((w.g.cls cls).last + 1#32).toNat (w.now s (w.g.setCls cls
          { last := (w.g.cls cls).last + 1#32, opened := []
            closed := (w.g.cls cls).closed ++ [{ num := (w.g.cls cls).last + 1#32, ops := (w.g.cls cls).opened }] }))) ∧
      Parks (.batch h d cls) (fun _ w => w.some ∧ 16 ≤ ((w.g.cls cls).closed.filter fun b => !b.complete).length) .batchWait (fun _ s => s) ∧
      Performs (.waitb h a imm cls) (fun _ w => w.some ∧ ¬ waits w (namedB w) ∧ (w.g.cls cls).faulted (namedB w) = none)
        (fun w s => (s.l1Clear (coreOf w.gs)).coverFelt w.gs cls (namedB w)) ∧
      Parks (.waitb h a imm cls) (fun _ w => w.some ∧ waits w (namedB w)) .batchWait (fun _ s => s) ∧
      Performs (.waitn h imm cls) (fun _ w => w.some ∧ ¬ waits w (namedN w) ∧ (w.g.cls cls).faulted (namedN w) = none)
        (fun w s => (s.l1Clear (coreOf w.gs)).coverFelt w.gs cls (namedN w)) ∧
      Parks (.waitn h imm cls) (fun _ w => w.some ∧ waits w (namedN w)) .batchWait (fun _ s => s) ∧
      Traps (.waitn h imm cls) (fun s w => w.some ∧ s.service w.g = true ∧ ¬ waits w (namedN w) ∧
          (w.g.cls cls).faulted (namedN w) = some x ∧ batchRecord cls x = some r)
        (fun w => { code := r.1, lanes := w.slot.mask, addr := r.2.2, ext := r.2.1 })
        (fun w s => ((s.l1Clear (coreOf w.gs)).coverFelt w.gs cls (namedN w)).updGroup w.gs fun g => g.setCls cls ((g.cls cls).report x.num)))

/-- SUBS of good regions takes the lowest free entries of both tables and waits for its snapshot, after which it returns its handle, or says why there
is none; UNSUB removes a subscription it holds and waits for the end of that; SUBFL waits for the drain of the core's port; SUBQ returns the state of
a handle (12, R308; 06, R156 to R159, R163, R170, R172). -/
def Obligations.Subscriptions : Prop :=
  ∀ (h : Hdr) (d a b c : Reg) (pair : Bool) (k p i : Nat) (e : SubEnt) (me x : Workgroup),
    let sb := Instr.subs h d a b c pair
    let subs := fun (s : State) (w : Word) => (s.core (coreOf w.gs)).subs
    let named := fun (s : State) (w : Word) => pair = false ∧ w.src 2 0 % 16 ≠ 0 ∧ w.src 2 0 % 16 < (s.gangOf w.g.wg).2
    let pub := fun (s : State) (w : Word) => if pair then s.pairPartner w.g.wg else s.memberWg me (w.src 2 0 % 16)
    let so := fun (w : Word) => w.src 0 0 % 2 ^ 20 / 64
    let po := fun (w : Word) => w.src 0 0 / 2 ^ 32 % 2 ^ 20 / 64
    let len := fun (w : Word) => w.src 1 0 % 2 ^ 17 / 64
    let free := fun (t : Nat → Prop) (n : Nat) => n < 16 ∧ t n ∧ ∀ m, m < n → ¬ t m
    let fresh := fun (s : State) (w : Word) => w.some ∧ w.slot.phase = .idle ∧ Tbl.find s.wgs w.g.wg = some me
    Parks sb (fun s w => fresh s w ∧ (pair = true ∨ named s w) ∧ pub s w = some i ∧ Tbl.find s.wgs i = some x ∧ x.reachable = true ∧
        regionsOk me.lsSize (w.src 0 0) (w.src 1 0) = true ∧ x.core ≠ coreOf w.gs ∧ s.subOverlap (coreOf w.gs) w.g.wg (so w) (len w) = false ∧
        free (fun n => Tbl.find (subs s w) n = none) k ∧ free (fun n => Tbl.find (s.core x.core).pubs n = none) p) .subFlush
      (fun w s => w.notes (.sub k) (s.acceptSub w (coreOf w.gs) me x i k p pair (w.src 2 0 % 16) (so w) (po w) (len w))) ∧
    Performs sb (fun s w => w.some ∧ w.slot.phase = .sub k ∧ (Tbl.find (subs s w) k).map SubEnt.st ≠ some .snap) (fun w s => w.says d (256 * k) s) ∧
    Parks sb (fun s w => w.some ∧ w.slot.phase = .sub k ∧ (Tbl.find (subs s w) k).map SubEnt.st = some .snap) .subFlush (fun _ s => s) ∧
    Performs sb (fun s w => fresh s w ∧ pair = true ∧ regionsOk me.lsSize (w.src 0 0) (w.src 1 0) = false) (fun w s => w.says d 5 s) ∧
    Performs (.unsub h d a) (fun s w => w.some ∧ w.slot.phase = .idle ∧ s.heldSub w (w.src 0 0 % 16) = none) (fun w s => w.says d 1 s) ∧
    Performs (.unsub h d a) (fun s w => w.some ∧ w.slot.phase = .sub k ∧ s.heldSub w (w.src 0 0 % 16) = none) (fun w s => w.says d 0 s) ∧
    Parks (.unsub h d a) (fun s w => w.some ∧ s.heldSub w (w.src 0 0 % 16) = some e ∧ (e.st = .snap ∨ e.st = .active)) .subFlush
      (fun w s => w.notes (.sub (w.src 0 0 % 16)) (s.updSub (coreOf w.gs) (w.src 0 0 % 16) fun e => { e with st := .drain, msg := msgRemove })) ∧
    Performs (.subfl h) (fun _ w => w.none) (fun _ s => s) ∧
    Performs (.subfl h) (fun s w => w.some ∧ w.slot.phase ≠ .idle ∧ s.unperformed w.gs = false ∧ s.draining w.gs = false) (fun _ s => s) ∧
    Parks (.subfl h) (fun s w => w.some ∧ w.slot.phase = .idle ∧ s.unperformed w.gs = false ∧ (s.startDrain w.gs false).draining w.gs = true) .subFlush
      (fun w s => w.notes (.drain []) (s.startDrain w.gs false)) ∧
    Performs (.subq h d a) (fun s w => s.heldSub w (w.src 0 0 % 16) = none) (fun w s => w.says d 0 s) ∧
    Performs (.subq h d a) (fun s w => s.heldSub w (w.src 0 0 % 16) = some e)
      (fun w s => w.says d (e.last.toNat * 2 ^ 16 + e.logn / 8 % 2 ^ 10 * 2 ^ 4 + subCode e.st) s)

/-- The matrix instructions of a group that is a team of its own, with good operands and room in its core's queue, start their operation: the queue's
last is the new one. A member whose team's operation has started goes on. With another path, or without an array, they are an exception; a descriptor,
a format or a control word that breaks its rule is one too (13, R309, R311 to R314, R317, R323 to R335; 16, R382). MZMAP returns the zero map of a
tile that its workgroup's array keeps, 0 where another workgroup holds the array; without an array it is an exception (13, R336; 16, R382). -/
def Obligations.MatrixWords : Prop :=
   (∀ (h : Hdr) (t k : Tile) (a b c : Reg) (form : MForm) (sp ck : Bool) (te : BitVec 6) (i8 : Bool),
      let mma := Instr.mma h t a b c .single sp ck k
      let starts := fun (i : Instr) (good : State → Word → Prop) (kind : Word → MatKind) =>
        Performs i (fun s w => s.TeamAlone w ∧ ((s.teamed w).core (coreOf w.gs)).eng.length < 64 ∧ good (s.teamed w) (w.teamed i s))
          (fun w s => s.matStarted w (kind (w.teamed i s)))
      let image := fun (n : Nat) (s : State) (w : Word) =>
        breachCause [s.checkDesc w (w.s64 0) 64 32 n] false w.slot.mask = none ∧ s.membersHere w [w.s64 0] = true
      starts (.mzero h t) (fun _ _ => True) (fun _ => .zero t.val) ∧
      starts (.mldt h t a) (image 4) (fun w => .load t.val (w.s64 0)) ∧
      starts (.mstt h t a) (image 4) (fun w => .store t.val (w.s64 0)) ∧
      starts mma (fun s w =>
          let fa := w.sNext c 0
          let fb := w.sNext c 1
          breachCause [s.checkDesc w (w.s64 0) 64 128 (efSize (fmtEf fa)), s.checkDesc w (w.s64 1) 128 32 (efSize (fmtEf fb)),
            s.checkScale w fa (w.sNext c 2) (aScales (fmtBl fa)), s.checkScale w fb (w.sNext c 3) (bScales (fmtBl fb) 32),
            { desc := fmtBad fa false || fmtBad fb false || isI8 fa != isI8 fb }] false w.slot.mask = none ∧
          s.membersHere w ([w.s64 0, w.s64 1] ++ ((if fmtSf fa = 1 then [w.sNext c 2] else []) ++ (if fmtSf fb = 1 then [w.sNext c 3] else []))) = true)
        (fun w => .mma t.val (w.s64 0) (w.s64 1) (w.sNext c 0) (w.sNext c 1) (w.sNext c 2) (w.sNext c 3) false sp ck k.val) ∧
      starts (.mepi h t a b c) (fun s w =>
          let bias := w.sNext c 0
          breachCause [s.checkDesc w (w.s64 0) 64 32 (epiSize (w.s64 1)),
            if bit (w.s64 1) 6 then { perm := s.localRange w (bits bias 23 0) 128, desc := bits bias 1 0 != 0 } else {},
            { desc := epiBad (w.s64 1) (w.sNext c 1) }] false w.slot.mask = none ∧
          s.membersHere w ([w.s64 0] ++ (if bit (w.s64 1) 6 then [bias] else [])) = true)
        (fun w => .epi t.val (w.s64 0) (w.s64 1) (w.sNext c 0) (w.sNext c 1)) ∧
      starts (.mchk h t k b te i8) (fun s w =>
          breachCause [{ perm := s.localRange w (bits (w.s64 0) 23 0) 32, desc := descBad (w.s64 0) || descTr (w.s64 0) || descPitch (w.s64 0) != 0 }]
            false w.slot.mask = none ∧ s.membersHere w [w.s64 0] = true)
        (fun w => .chk t.val k.val (w.s64 0) te.toNat i8) ∧
      (∀ i ∈ [Instr.mma h t a b c form sp ck k, .mzero h t, .mldt h t a, .mstt h t a, .mepi h t a b c, .mchk h t k b te i8],
        Performs i (fun _ w => ∃ x, w.slot.phase = .answered x) (fun _ s => s) ∧
        Traps i (fun _ w => w.slot.phase = .idle ∧ ¬ w.alone) (fun w => { code := 0x1A, lanes := w.slot.mask }) (fun _ s => s) ∧
        Traps i (fun s w => w.slot.phase = .idle ∧ w.alone ∧ s.service w.g = true ∧ (s.core (coreOf w.gs)).cols = 0)
          (fun w => { code := 0x28, lanes := w.slot.mask }) (fun _ s => s)) ∧
      ∀ (s : State) (w : Word) kind, Tbl.find s.groups w.gs = some w.g → ∃ op, ((s.matStarted w kind).core (coreOf w.gs)).eng = ((s.core (coreOf w.gs)).eng ++ [op]) ∧
        op.kind = kind ∧ op.gs = w.gs ∧ op.wg = w.g.wg ∧ op.pc = w.slot.pc ∧ op.cores = [coreOf w.gs]) ∧
   (∀ (h : Hdr) (d : Reg) (t : Tile),
      Performs (.mzmap h d t) (fun s w => (s.core (coreOf w.gs)).cols ≠ 0)
        (fun w s => w.now s (w.g.writes (w.put ⟨d, .r128, .sOnly⟩ fun _ =>
          if (s.core (coreOf w.gs)).holder = some w.g.wg then (Tbl.get 0#128 (s.core (coreOf w.gs)).zmaps t.val).toNat else 0))) ∧
      Traps (.mzmap h d t) (fun s w => s.service w.g = true ∧ (s.core (coreOf w.gs)).cols = 0) (fun w => { code := 0x28, lanes := w.slot.mask }) (fun _ s => s))

/-- BAR, CBAR and GBAR arrive once the group's earlier accesses have performed, those that the barrier's scope orders too, and its core's port is drained, park until their generation completes
and then depart; BARA arrives and goes on, BARW departs; a departure counts one more passed generation of its barrier. With another path, or with an
arrival open where there should be none, or none where there should be one, they are an exception, and so is GBAR in a grid that is not co-scheduled
(14, R345 to R347; 04, R105, R106; 06, R163; 08, R214). -/
def Obligations.Barriers : Prop :=
  ∀ (h : Hdr),
    let cosched := fun (s : State) (w : Word) => ((s.gridOf w.g).map fun g => bit (g.word 0x18) 27) = some true
    let came := fun (k : BarKind) (w : Word) (s : State) => (s.startDrain w.gs false).arriveBar w.gs k
    let past := fun (k : BarKind) (w : Word) (s : State) => ∃ g, Tbl.find s.groups w.gs = some g ∧ s.barDone g k = true
    let before := fun (w : Word) => w.alone ∧ w.slot.phase = .idle ∧ w.g.arrival = none
    let early := fun (k : BarKind) (s : State) (w : Word) => s.unperformed w.gs = true ∨ s.fenceWaits w.gs w.g.wg (scopeOfBar k) = true
    let calm := fun (k : BarKind) (s : State) (w : Word) => ¬ early k s w ∧ (s.startDrain w.gs false).draining w.gs = false
    (∀ i k, (i, k) ∈ [(Instr.bar h, BarKind.bar), (.cbar h, .cbar), (.gbar h, .gbar)] →
      let ok := fun (s : State) (w : Word) => k = .gbar → cosched s w
      Performs i (fun s w => ok s w ∧ w.alone ∧ w.slot.phase = .arrived ∧ s.barDone w.g k = true) (fun w s => s.depart w.gs k) ∧
      Parks i (fun s w => ok s w ∧ w.alone ∧ w.slot.phase = .arrived ∧ s.barDone w.g k = false) .barrier (fun _ s => s) ∧
      Performs i (fun s w => ok s w ∧ before w ∧ calm k s w ∧ past k w (w.notes .arrived (came k w s)))
        (fun w s => (w.notes .arrived (came k w s)).depart w.gs k) ∧
      Parks i (fun s w => ok s w ∧ before w ∧ calm k s w ∧ ¬ past k w (w.notes .arrived (came k w s))) .barrier
        (fun w s => w.notes .arrived (came k w s)) ∧
      Parks i (fun s w => ok s w ∧ before w ∧ early k s w) .barrier (fun _ s => s) ∧
      Traps i (fun _ w => ¬ w.alone ∨ w.slot.phase ≠ .arrived ∧ w.g.arrival ≠ none)
        (fun w => { code := 0x01, lanes := w.slot.mask }) (fun _ s => s)) ∧
    Performs (.bara h) (fun s w => before w ∧ calm .bara s w) (fun w s => came .bara w s) ∧
    Traps (.bara h) (fun _ w => ¬ w.alone ∨ w.g.arrival ≠ none) (fun w => { code := 0x01, lanes := w.slot.mask }) (fun _ s => s) ∧
    Performs (.barw h) (fun s w => w.alone ∧ w.g.arrival = some .bara ∧ s.barDone w.g .bara = true) (fun w s => s.depart w.gs .bara) ∧
    Parks (.barw h) (fun s w => w.alone ∧ w.g.arrival = some .bara ∧ s.barDone w.g .bara = false) .barrier (fun _ s => s) ∧
    Traps (.barw h) (fun _ w => ¬ w.alone ∨ w.g.arrival ≠ some .bara) (fun w => { code := 0x01, lanes := w.slot.mask }) (fun _ s => s) ∧
    Traps (.gbar h) (fun s w => ¬ cosched s w ∧ w.alone ∧ w.g.arrival = none) (fun w => { code := 0x20, lanes := w.slot.mask }) (fun _ s => s) ∧
    ∀ (s : State) gs k g x, Tbl.find s.groups gs = some g → Tbl.find s.wgs g.wg = some x → ∃ g', Tbl.find (s.depart gs k).groups gs = some g' ∧
      g'.regs = g.regs ∧ g'.arrival = none ∧ (s.depart gs k).mem = s.mem ∧
      g'.chk.pwg = (if k = .bar ∨ k = .bara then g.chk.pwg + 1#32 else g.chk.pwg) ∧
      g'.chk.pgg = (if k = .cbar ∧ 2 ≤ (s.gangOf g.wg).2 then g.chk.pgg + 1#32 else g.chk.pgg) ∧
      g'.chk.pdg = (if k = .gbar then g.chk.pdg + 1#32 else g.chk.pdg)

/-- QCNT returns a queue's entries and its room; QTRY pops or pushes where the queue allows it and says so in its predicate, a push once the accesses
that it releases have been made; a queue that the launch
does not have is an exception (14, R348; 07, R192; 17, R400; 03, R85). -/
def Obligations.QueueTests : Prop :=
  ∀ (h : Hdr) (d : Reg) (q : Fin 8) (p : Pred) (x : Workgroup) (e : QEntry),
    let has := fun (s : State) (w : Word) => q.val < (s.queues_ w.g).1 ∧ Tbl.find s.wgs w.g.wg = some x
    let logged := fun (w : Word) (s : State) (b : Bool) => s.logGroup w.g 3 0xFF (s.rwcNow w.gs w.g) (s.queueKey w.g q) (BitVec.ofNat 64 (b2n b))
    let tp := Instr.qtry h (.pop p d q)
    let tq := Instr.qtry h (.push p q d)
    Performs (.qcnt h d q) has (fun w s =>
      w.says d (((x.queue q).entries.length - (x.queue q).rsv) % 2 ^ 9 +
        ((s.queues_ w.g).2 - (x.queue q).entries.length - (x.queue q).room) % 2 ^ 9 * 2 ^ 16) s) ∧
    Performs tp (fun s w => has s w ∧ (x.queue q).entries.length ≤ (x.queue q).rsv) (fun w s => (logged w s false).setPred w p false) ∧
    Performs tp (fun s w => has s w ∧ (x.queue q).entries[(x.queue q).rsv]? = some e)
      (fun w s => ((((logged w s true).setPred w p true).updWg w.g.wg fun y => y.reserve [q.val] []).sendResult w { h, dst := [uv d] }
        (w.put (uv d) fun L => (e.vals.getD L 0#32).toNat) [q.val])) ∧
    Performs tq (fun s w => has s w ∧ s.fenceWaits w.gs w.g.wg .wg = false ∧ (s.queues_ w.g).2 ≤ (x.queue q).entries.length + (x.queue q).room)
      (fun w s => (logged w s false).setPred w p false) ∧
    Parks tq (fun s w => has s w ∧ s.fenceWaits w.gs w.g.wg .wg = true) .switchPark (fun _ s => s) ∧
    Performs tq (fun s w => has s w ∧ s.fenceWaits w.gs w.g.wg .wg = false ∧ (x.queue q).entries.length + (x.queue q).room < (s.queues_ w.g).2)
      (fun w s => ((logged w s true).setPred w p true).push w.gs q w.act (lanes32.map fun L => if inMask w.act L then w.opnd32 0 L else 0#32)) ∧
    ∀ i ∈ [Instr.qcnt h d q, tp, tq], Traps i (fun s w => (s.queues_ w.g).1 ≤ q.val) (fun w => { code := 0x1C, lanes := w.act }) (fun _ s => s)

/-- REGROUP with no such group to meet says 2; with one that does not wait for it yet it waits; with one that does, of the same range, the two fuse
and it says 0, or says 1 where they have more than 32 live lanes; an answer that is there is taken. A pending bit or a lane in a transaction is an exception (14, R344 Table 3; 07,
R190). -/
def Obligations.Regroups : Prop :=
  ∀ (h : Hdr) (d a b : Reg) (gi : BitVec 5) (x : Workgroup) (v pgs : Nat) (p : Group) (c : Cause),
    let rg := Instr.regroup h d a b gi
    let range := match a, b with
      | .v x, .v y => some (x.val, y.val)
      | _, _ => none
    let key := (gi.toNat, (range.map (·.1)).getD 1000, (range.map (·.2)).getD 1000)
    let asks := fun (s : State) (w : Word) => s.updWg w.g.wg fun x => { x with regroup := Tbl.put x.regroup w.g.gidx key }
    let clear := fun (s : State) (w : Word) => s.updWg w.g.wg fun x => { x with regroup := Tbl.del x.regroup p.gidx }
    let first := fun (s : State) (w : Word) => Tbl.find s.wgs w.g.wg = some x ∧ Tbl.find x.answers w.g.gidx = none ∧ regroupBad w = none ∧
      inMask x.savedG gi.toNat = false
    let finds := fun (s : State) (w : Word) => first s w ∧ gi.toNat < w.ngrp ∧ Tbl.find x.slots gi.toNat = some pgs ∧ Tbl.find s.groups pgs = some p ∧
      p.retiring = false ∧ p.wg = w.g.wg
    let meets := fun (s : State) (w : Word) => finds s w ∧ Tbl.find x.regroup gi.toNat = some (w.g.gidx, key.2)
    let both := fun (w : Word) => (laneList w.g.live).length + (laneList p.live).length
    let fused := fun (s : State) (w : Word) => s.fuse w.g p pgs range
    Performs rg (fun s w => Tbl.find s.wgs w.g.wg = some x ∧ Tbl.find x.answers w.g.gidx = some v)
      (fun w s => w.says d v (s.updWg w.g.wg fun x => { x with answers := Tbl.del x.answers w.g.gidx })) ∧
    Performs rg (fun s w => first s w ∧ (w.ngrp ≤ gi.toNat ∨ Tbl.find x.slots gi.toNat = none))
      (fun w s => w.says d 2 (s.updWg w.g.wg fun x => { x with regroup := Tbl.del x.regroup w.g.gidx })) ∧
    Parks rg (fun s w => finds s w ∧ ∀ y, Tbl.find x.regroup gi.toNat = some y → y.1 ≠ w.g.gidx) .barrier (fun w s => asks s w) ∧
    Performs rg (fun s w => meets s w ∧ 32 < both w)
      (fun w s => w.says d 1 ((clear s w).updWg w.g.wg fun x => { x with answers := Tbl.put x.answers p.gidx 1 })) ∧
    Performs rg (fun s w => meets s w ∧ both w ≤ 32 ∧ w.g.gidx < p.gidx ∧ w.b = false)
      (fun w s => w.says d 0 (w.now { (clear s w).updGroup pgs Group.donate with free := s.free + 32 * w.g.n }
        ((fused s w).setSlot false (some { w.slot with mask := (fused s w).live })))) ∧
    Traps rg (fun s w => Tbl.find s.wgs w.g.wg = some x ∧ Tbl.find x.answers w.g.gidx = none ∧ regroupBad w = some c)
      (fun _ => c) (fun _ s => s)

/-- COLL whose descriptor can be read, keeps its rules and lies where it may is entered, when no earlier write of
its workgroup is under way, once in the open batch of its class, its participant joining
the collective; a descriptor that breaks a rule, an address that is not aligned or bytes with an uncorrectable error are an exception. CABORT sends
its token and raises ATT, waits for the acknowledgement and ends (14, R349, R352; 16, R386). -/
def Obligations.Collectives : Prop :=
  ∀ (h : Hdr) (a : Reg) (pa : Nat) (u : Bool),
    let desc := fun (s : State) => parseColl ((List.range 8).map fun i => s.rd8 (pa + 8 * i))
    let spot := fun (s : State) (w : Word) => w.some ∧ w.src 0 0 % 64 = 0 ∧ (s.collTr w .store (w.src 0 0)).tr = .ok [.mem pa] u
    let found := fun (s : State) (w : Word) => spot s w ∧ s.poisoned pa 64 = false
    let len := fun (s : State) => min (desc s).count (2 ^ 24) * collSize (desc s).fmt
    let lies := fun (s : State) (w : Word) => (desc s).src % 16 = 0 ∧ (desc s).dst % 16 = 0 ∧
      allOk ((rangePages (desc s).src (len s)).map (s.collTr w .load)) ∧ allOk ((rangePages (desc s).dst (len s)).map (s.collTr w .store))
    let nth := fun (s : State) (w : Word) => ((w.g.collSeq.find? (fun c => c.1 == (desc s).comm && c.2.1 == (desc s).att)).map (·.2.2)).getD 0
    let noted := fun (s : State) (w : Word) => (s.notReplayable (s.spidOf w.g)).newId
    Performs (.coll h a) (fun s w => s.opWaits w.gs w.g.wg = false ∧ found s w ∧ lies s w ∧ (desc s).bad = false ∧
        s.collStale (desc s).comm (desc s).att = false ∧ (s.collsOf (dieOf (coreOf w.gs))).length < 64)
      (fun w s => ((noted s w).2.joinColl w (desc s) (nth s w) (noted s w).1).updGroup w.gs fun g =>
        { g.addOp .cl { id := (noted s w).1, pc := w.slot.pc } with
          collSeq := ((desc s).comm, (desc s).att, nth s w + 1) :: g.collSeq.filter (fun c => !(c.1 == (desc s).comm && c.2.1 == (desc s).att)) }) ∧
    Traps (.coll h a) (fun s w => s.opWaits w.gs w.g.wg = false ∧ found s w ∧ lies s w ∧ (desc s).bad = true)
      (fun w => { code := 0x22, lanes := w.act, addr := w.opnd64 0 0 }) (fun _ s => s) ∧
    Traps (.coll h a) (fun s w => s.opWaits w.gs w.g.wg = false ∧ w.some ∧ w.src 0 0 % 64 ≠ 0)
      (fun w => { code := 0x08, lanes := w.act, addr := w.opnd64 0 0 }) (fun _ s => s) ∧
    Traps (.coll h a) (fun s w => s.opWaits w.gs w.g.wg = false ∧ spot s w ∧ s.poisoned pa 64 = true ∧ s.service w.g = true)
      (fun w => { code := 0x28, lanes := w.act, addr := w.opnd64 0 0 }) (fun _ s => s) ∧
    Performs (.cabort h a) (fun s w => w.slot.phase = .token ∧ Tbl.find s.tokens w.gs = none) (fun _ s => s) ∧
    Parks (.cabort h a) (fun s w => w.slot.phase = .token ∧ Tbl.find s.tokens w.gs ≠ none) .batchWait (fun _ s => s) ∧
    Parks (.cabort h a) (fun s w => w.slot.phase = .idle ∧ found s w) .batchWait (fun w s =>
      let t := s.sendWrites w .store [{ lane := w.lanes.headD 0, ga := BitVec.ofNat 64 (w.src 0 0 + 0x13), locs := [.mem (pa + 0x13)], len := 1, data := ((desc s).att + 1#8).setWidth 128, unc := u }] 1 .weak .none true
        false []
      w.notes .token { t with tokens := Tbl.put t.tokens w.gs ((desc s).comm, (desc s).att) })

/-- LAUNCH of a block that can be read returns a handle and hands the child over, or says why not; at depth 10 there is none, the block is aligned to 64 bytes; it waits for what its release orders, its workgroup's writes among that (03, R85). LWAIT waits for the children it names, then acquires (14, R353, R354; 08, R208 to R210, R215). -/
def Obligations.ChildGrids : Prop :=
  ∀ (h : Hdr) (d a : Reg) (p : Grid) (gid r k : Nat) (t : State),
    let la := Instr.launch h d a
    let block := fun (s : State) (w : Word) (n : Nat) => (execLaunch.rangeFirst (w.src 0 0) n).map fun x =>
      (⟨w.lanes.headD 0, BitVec.ofNat 64 x, s.trans (w.ask .load) x 1 0⟩ : LaneTr)
    let size := fun (s : State) (w : Word) => 128 + 16 * min (bits (Tbl.get 0#64 (descWords s (w.src 0 0) (block s w 128) 16) 11) 4 0) 16
    let desc := fun (s : State) (w : Word) => descWords s (w.src 0 0) (block s w (size s w)) (size s w / 8)
    let child := fun (s : State) (w : Word) => mkGrid p.part p.spid p.sgen (p.depth + 1) (desc s w) (fun c => max c p.cls)
      (some ((((Tbl.find s.wgs w.g.wg).map (·.grid)).getD 0), s.wgidOf w.g, w.g.gidx, (freeHandle w.g).getD 0)) none
    let moded := fun (g : Grid) => { g with desc := Tbl.put g.desc 3 (BitVec.ofNat 64 ((g.word 0x18).toNat - fld 1 28 (b2n g.fenced) + fld 1 28 (b2n p.fenced))) }
    let may := fun (s : State) (w : Word) => s.gridOf w.g = some p ∧ w.some ∧ p.depth + 1 ≠ 11
    let reads := fun (s : State) (w : Word) => may s w ∧ w.src 0 0 % 64 = 0 ∧ s.unperformed w.gs = false ∧ s.matesWrite w.gs w.g.wg = false ∧ allOk (block s w 128) ∧ allOk (block s w (size s w))
    let good := fun (s : State) (w : Word) => reads s w ∧ descReserved (child s w) = false ∧ descRange (child s w) = false
    Performs la (fun s w => reads s w ∧ (descReserved (child s w) = true ∨ descRange (child s w) = true)) (fun w s => w.says d 0x10 s) ∧
    Performs la (fun s w => good s w ∧ s.refusal (moded (child s w)) = some r) (fun w s => w.says d r s) ∧
    Performs la (fun s w => good s w ∧ s.refusal (moded (child s w)) = none ∧ freeHandle w.g = none) (fun w s => w.says d 0x11 s) ∧
    Performs la (fun s w => good s w ∧ s.refusal (moded (child s w)) = none ∧ freeHandle w.g = some k ∧
        s.carryLaunch (moded (child s w)) = .ok gid t)
      (fun w _ => w.says d (k % 16 * 2 ^ 8) (t.updGroup w.gs fun g => { g with kids := Tbl.put g.kids k gid })) ∧
    Parks la (fun s w => may s w ∧ w.src 0 0 % 64 = 0 ∧ (s.unperformed w.gs = true ∨ s.matesWrite w.gs w.g.wg = true)) .batchWait (fun _ s => s) ∧
    Traps la (fun s w => s.gridOf w.g = some p ∧ w.some ∧ p.depth = 10)
      (fun w => { code := 0x21, lanes := w.act }) (fun _ s => s) ∧
    Traps la (fun s w => may s w ∧ w.src 0 0 % 64 ≠ 0) (fun w => { code := 0x08, lanes := w.act, addr := w.opnd64 0 0 }) (fun _ s => s) ∧
    ∀ (named : Word → Tbl Nat), (named = if a = .z then fun w => w.g.kids else fun w => w.g.kids.filter (fun k => k.1 == w.src 0 0 % 16)) →
      Performs (.lwait h d a) (fun s w => w.some ∧ (a = .z ∨ named w ≠ []) ∧ ∀ k ∈ named w, ∀ g, Tbl.find s.grids k.2 = some g → g.retired = true)
        (fun w s => w.says d 0 (((((named w).foldl (fun s k => s.dropGrid k.2) s).updGroup w.gs fun g =>
          { g with kids := g.kids.filter (fun k => !(named w).contains k) }).acquireL1 (coreOf w.gs) .dev))) ∧
      Performs (.lwait h d a) (fun _ w => w.some ∧ a ≠ .z ∧ named w = []) (fun w s => w.says d 1 s) ∧
      Parks (.lwait h d a) (fun s w => w.some ∧ ∃ k ∈ named w, ∃ g, Tbl.find s.grids k.2 = some g ∧ g.retired = false) .batchWait (fun _ s => s)

/-- SRD gives a special register's value, a counter once and in the record where its context records; a per-lane register is not for the walker
routine. SWR writes GTCMP and nothing else (14, R355; 17, R400 Table 5). -/
def Obligations.SpecialRegisters : Prop :=
  ∀ (h : Hdr) (d a : Reg) (r : SReg),
    let sr := Instr.srd h d r
    let put := fun (w : Word) (v : Nat → Nat) => w.put ⟨d, r.role, .vs⟩ v
    Performs sr (fun _ w => (r.perLane = true → isWalker w.gs = false) ∧ (sregLogged r = false ∨ isWalker w.gs = true))
      (fun w s => s.deliver w (fieldsOf sr) (put w (s.sreg w r))) ∧
    Performs sr (fun _ w => isWalker w.gs = false ∧ sregLogged r = true)
      (fun w s => (s.logGroup w.g 5 0xFF (s.rwcNow w.gs w.g) (sregNum r) (BitVec.ofNat 64 (s.sreg w r 0))).deliver w (fieldsOf sr)
        (put w fun _ => s.sreg w r 0)) ∧
    Traps sr (fun _ w => r.perLane = true ∧ isWalker w.gs = true) (fun w => { code := 0x02, lanes := w.slot.mask }) (fun _ s => s) ∧
    Performs (.swr h a r) (fun _ w => w.some) (fun w s => w.now s { w.g with gtcmp := w.opnd64 0 0 }) ∧
    Performs (.swr h a r) (fun _ w => w.none) (fun _ s => s)

/-- TRAP and BPT with an active lane take an exception whose INFO is their operand, 0x30 and 0x31; BPT and MARK leave a trace record where their
context traces; with no active lane none of them has an effect (14, R357; 17, R402). -/
def Obligations.TrapsAndMarks : Prop :=
  ∀ (h : Hdr) (imm : W32),
    Traps (.trap h imm) (fun _ w => w.some) (fun w => { code := 0x30, lanes := w.act, info := imm.setWidth 64 }) (fun _ s => s) ∧
    Traps (.bpt h imm) (fun _ w => w.some) (fun w => { code := 0x31, lanes := w.act, info := imm.setWidth 64 })
      (fun w s => s.traceMark w.gs w.g w.slot.pc imm w.act) ∧
    Performs (.mark h imm) (fun _ w => w.some) (fun w s => s.traceMark w.gs w.g w.slot.pc imm w.act) ∧
    ∀ i ∈ [Instr.trap h imm, .bpt h imm, .mark h imm], Performs i (fun _ w => w.none) (fun _ s => s)

/-- TLBW enters a translation of the space that its code serves, in the TLBs of its lane block and core, where the page is there and the space's
generation is the current one; in the walker routine it counts for the miss that is served, elsewhere a malformed entry is an exception. TLBI drops
translations on every core of the partition. HRET ends the walker routine with its result, and a first-touch handler for its active lanes (14, R358 to
R360; 01, R22, R27, R30, R35). -/
def Obligations.SupervisorWords : Prop :=
  ∀ (h : Hdr) (a b : Reg) (lvl : Fin 3) (space : Bool) (status : Byte) (r : WalkRun) (f : FtRun),
    let ga := fun (w : Word) => w.src 0 0 % 2 ^ 56
    let pte := fun (w : Word) => w.opnd64 1 0
    let current := fun (s : State) (w : Word) => (s.space (s.servedSpace w.gs w.g).1).gen = (s.servedSpace w.gs w.g).2
    let enters := fun (t s : State) (w : Word) => t.fillTlb w.gs (tlbEntry (s.servedSpace w.gs w.g).1 (s.servedSpace w.gs w.g).2 (ga w) lvl.val (pte w))
    let walks := fun (s : State) (w : Word) => w.some ∧ isWalker w.gs = true ∧ (s.lb (lbOf w.gs)).walk = some r
    let drops := fun (s : State) (w : Word) => r.drops (s.servedSpace w.gs w.g).1 (ga w) lvl.val
    let counts := fun (s : State) (w : Word) => s.updLb (lbOf w.gs) fun x => { x with walk := some (r.take (ga w) lvl.val (pte w)) }
    let fits := fun (s : State) (w : Word) => bit (pte w) 0 = true ∧ pteMalformed (pte w) lvl.val = false ∧ current s w
    Performs (.tlbw h a b lvl) (fun s w => walks s w ∧ fits s w ∧ drops s w = false) (fun w s => enters (counts s w) s w) ∧
    Performs (.tlbw h a b lvl) (fun s w => walks s w ∧ (¬ fits s w ∨ drops s w = true)) (fun w s => counts s w) ∧
    Performs (.tlbw h a b lvl) (fun s w => w.some ∧ isWalker w.gs = false ∧ fits s w) (fun w s => enters s s w) ∧
    Traps (.tlbw h a b lvl) (fun _ w => w.some ∧ isWalker w.gs = false ∧ pteMalformed (pte w) lvl.val = true)
      (fun w => { code := 0x09, det := 0x04, lanes := w.act, addr := BitVec.ofNat 64 (ga w) }) (fun _ s => s) ∧
    Performs (.tlbi h a b space) (fun _ w => w.some) (fun w s =>
      s.invalidate (if isWalker w.gs then (s.space (s.servedSpace w.gs w.g).1).part else s.partOf w.g) (w.src 1 0 % 256)
        (if space then none else some (ga w))) ∧
    Steers (.hret h status) walks (fun _ => 1) (fun w s => s.endWalk (lbOf w.gs)
      (if status ≠ 0#8 then 5 else if r.bad then 3 else match r.entered with
        | some x => if bit x 0 then 0 else if bit x 5 then 4 else 2
        | none => 2)) ∧
    (∀ done, (done = fun (w : Word) => { f with done := w.lanes.foldl (fun t L => Tbl.put t L status) f.done }) →
      ∀ left, (left = fun (w : Word) => w.g.setSlot w.b (if w.slot.mask &&& ~~~w.act = 0#32 then none
        else some { w.slot with pc := w.slot.pc + 8#64, mask := w.slot.mask &&& ~~~w.act })) →
      Steers (.hret h status) (fun _ w => w.some ∧ isWalker w.gs = false ∧ w.g.ft = some f ∧ ∀ L ∈ laneList f.mask, Tbl.find (done w).done L ≠ none)
        (fun _ => 1) (fun w s => s.endTouch w.gs { left w with ft := some (done w) } (done w)) ∧
      Steers (.hret h status) (fun _ w => w.some ∧ isWalker w.gs = false ∧ w.g.ft = some f ∧ ∃ L ∈ laneList f.mask, Tbl.find (done w).done L = none)
        (fun _ => 1) (fun w s => w.now s { left w with ft := some (done w) })) ∧
    ∀ (s : State) c spid va, ∀ e ∈ ((s.dropTlb c spid va).core c).tlb, e.spid = spid → ∃ x, va = some x ∧ ¬ (e.va ≤ x ∧ x < e.va + e.size)

/-- The decode causes of a word in the order of Table 12, each where none before it applies: no instruction, a LAUNCH that its team's
leader alone may issue, a REGROUP that names its own group or finds another path or a stack (0x01), not for the mode (0x02), a
register that is not allocated (0x03), a pair against the rules (0x05), a register whose pending bit is set (0x04); the first two and those of fields
are for the slot's lanes, the last for the lanes that the guard passes (09, R237; 07, R194). -/
def Obligations.DecodeCauses : Prop :=
  ∀ (i : Instr) (f : Info) (s : State) (gs : Nat) (b : Bool) (g : Group) (p : PcSlot),
    i.info = some f → s.cur = some ⟨gs, b⟩ → Tbl.find s.groups gs = some g → g.slot b = some p →
    let w := mkWord s gs b g p f
    let takes := fun (code : Nat) (lanes : Mask) =>
      exec i s = .next (s.raise gs ⟨p.pc, s.rwcNow gs g, g.nissue, b⟩ { code, lanes })
    let mode := f.priv = false ∧ restricted i = false ∨ w.sup = true
    let inN := ∀ u ∈ f.dst ++ f.src, ∀ n ∈ u.vregs, n < g.n
    let legal := i.wellFormed = true ∧ misused i g (((s.gridOf g).map Grid.team).getD 0) = false
    (¬ legal → takes 0x01 p.mask) ∧
    (legal → ¬ mode → takes 0x02 p.mask) ∧
    (legal → mode → ¬ inN → takes 0x03 p.mask) ∧
    (legal → mode → inN → wordPairOk i = false → takes 0x05 p.mask) ∧
    (legal → mode → inN → wordPairOk i = true →
      (f.team = false ∨ isIssuer (((s.gridOf g).map Grid.team).getD 0) g.gidx = true) →
      (∃ r ∈ infoRefs f, r ∈ g.pend) → takes 0x04 (g.guard f.h p.mask))

/-- Taking an exception. The faulting word's PC, cause, detail, lanes, address and count go into the group's stop record, the slot stands at the word
that restarts it, the halt line of the partition is raised; nothing else of the group, no other group and no memory changes. A late cause with later
words issued takes the group back to its restart point where that is valid, and else allows no restart; in fenced mode it is held and halts nothing.
In a first-touch handler any cause is the fault 0x09 of the word that started it; in the walker routine it ends the walk (15, R361 to R368, R371; 01,
R27, R30). -/
def Obligations.ExceptionsTaken : Prop :=
  ∀ (s : State) (gs : Nat) (a : At) (c : Cause),
    let t := s.raise gs a c
    (isWalker gs = true → t = s.endWalk (gs / 16) 5) ∧
    ∀ (g : Group) (r : Grid) (q : Partition), isWalker gs = false → Tbl.find s.groups gs = some g → s.gridOf g = some r →
      (s.space r.spid).st ≠ .released → Tbl.find s.parts (s.space r.spid).part = some q → q.halt = none →
      let next := if restartsNext c then a.pc + 8#64 else a.pc
      let others := (∀ k, k ≠ gs → Tbl.find t.groups k = Tbl.find s.groups k) ∧ t.mem = s.mem ∧ t.spaces = s.spaces ∧ t.wgs = s.wgs
      let raised := fun (code det : Nat) => (∀ k, k ≠ (s.space r.spid).part → Tbl.find t.parts k = Tbl.find s.parts k) ∧
        Tbl.find t.parts (s.space r.spid).part = some { q with
          halt := some { causes := [{ spid := r.spid, eng := 0, unit := coreOf gs, cause := BitVec.ofNat 8 code, det := BitVec.ofNat 8 det }], since := s.clock } }
      let record := fun (x : Stop) => x.cause = BitVec.ofNat 8 c.code ∧ x.det = BitVec.ofNat 8 c.det ∧ x.pc = a.pc ∧ x.addr = c.addr ∧
        x.info = c.info ∧ x.lanes = c.lanes ∧ x.rwc = a.rwc ∧ x.ext = c.ext ∧ x.held = false
      (∀ p, g.ft = none → g.stop = none → g.slot a.b = some p → (lateKind c.code = false ∨ r.fenced = false ∧ g.nissue ≤ a.nth + 1) →
        (∃ h x, Tbl.find t.groups gs = some h ∧ h.stop = some x ∧ record x ∧ x.rpc = next ∧ x.late = false ∧ x.rolled = false ∧
          x.restart = !noRestart c.code ∧ h.at a.b = some (next, p.mask) ∧ h.at (!a.b) = g.at (!a.b) ∧
          h = { g with slotA := h.slotA, slotB := h.slotB, stop := h.stop }) ∧ others ∧ raised c.code c.det) ∧
      (g.ft = none → g.stop = none → lateKind c.code = true → r.fenced = false → a.nth + 1 < g.nissue → g.rv = true →
        (∃ h x, Tbl.find t.groups gs = some h ∧ h.stop = some x ∧ record x ∧ x.rpc = g.regpc ∧ x.late = true ∧ x.rolled = true ∧
          x.restart = !noRestart c.code ∧ h.at false = some (g.regpc, g.regmask &&& g.live) ∧ h.at true = none ∧
          h.join = g.join.drop (g.join.length - g.jd) ∧ h.spill = g.spill.drop (g.spill.length - g.sd) ∧ h.rwc = g.rrwc ∧
          h.regs = g.regs) ∧ others ∧ raised c.code c.det) ∧
      (g.ft = none → g.stop = none → lateKind c.code = true → r.fenced = false → a.nth + 1 < g.nissue → g.rv = false →
        (∃ x, Tbl.find t.groups gs = some { g with stop := some x } ∧ record x ∧ x.rpc = a.pc ∧ x.late = true ∧ x.rolled = false ∧
          x.restart = false) ∧ others ∧ raised c.code c.det) ∧
      (g.ft = none → lateKind c.code = true → r.fenced = true →
        (∃ x, Tbl.find t.groups gs = some { g with held := some x } ∧
          (g.held = none → x.cause = BitVec.ofNat 8 c.code ∧ x.pc = a.pc ∧ x.lanes = c.lanes ∧ x.addr = c.addr ∧ x.held = true ∧
            x.restart = false ∧ x.nheld = 1) ∧
          ∀ y, g.held = some y → x = { y with nheld := min 65535 (y.nheld + 1) }) ∧ others ∧ t.parts = s.parts) ∧
      ∀ m, g.ft = some m → (g.endHandler m).stop = none → ∀ p, (g.endHandler m).slot m.slot = some p →
        (∃ h x, Tbl.find t.groups gs = some h ∧ h.stop = some x ∧ x.cause = 0x09#8 ∧ x.det = 0x05#8 ∧ x.lanes = m.mask ∧ x.pc = p.pc ∧
          x.rpc = p.pc ∧ x.restart = true ∧ x.addr = Tbl.get 0#64 m.addrs ((laneList m.mask).headD 0) ∧ h.ft = none ∧
          h.at m.slot = some (p.pc, p.mask)) ∧ others ∧ raised 0x09 0x05

/-- A step that issues a word: the bytes at the slot's PC, already fetched or read now, as L1 or memory holds them, decode to an instruction, and the
step is what `exec` says of it, from the slot that issues; bits that are no instruction raise 0x01. Before that, a quiet point that has settled is
taken, and the switch marker's park ends; nothing blocks the slot, parks it, ends its re-execution or fires its timer; the lane block notes that it
has issued in the cycle where the slot took up the word (07, R184, R185, R195; 09, R219, R237; 02, R47). -/
def Obligations.StepsOfWords : Prop :=
  ∀ (s : State) (gs : Nat) (b : Bool) (rest : List Move) (g0 : Group) (p : PcSlot), s.agenda = .issue gs b :: rest →
    (s.lb (lbOf gs)).busy ≤ s.clock →
    let v := ({ s with agenda := rest } : State).settleQuiet gs
    Tbl.find v.groups gs = some g0 → g0.slot b = some p → v.blocked gs b g0 p = false → v.parks gs g0 = none →
    v.replayAt gs b g0 p = none → v.timerAt gs b g0 p = none →
    let g := { g0 with swPark := false }
    let u : State := { v with groups := Tbl.put v.groups gs g }
    let q : Ask := ⟨gs, g, p.walked, isWalker gs || g.ft.isSome, .fetch⟩
    let counted := fun (t : State) => if ({ s with agenda := rest } : State).took gs b t then
        t.updLb (lbOf gs) fun k => { k with issued := some (s.clock, gs) } else t
    let runs := fun (w : W64) (x : State) =>
      (∀ i, decode w = some i → ∃ t, exec i { x with cur := some ⟨gs, b⟩ } = .next t ∧ step s = .next (counted { t with cur := none })) ∧
      (decode w = none → step s = .next (counted (x.raise gs ⟨p.pc, x.rwcNow gs g, g.nissue, b⟩ { code := 0x01, lanes := p.mask })))
    (∀ w, p.fetched = some w → runs w u) ∧
    (∀ pa un, p.fetched = none → u.fetchTr q p.pc.toNat = .ok [.mem pa] un → u.poisoned pa 8 = false →
      (un = true ∨ u.ownMem pa = false → runs (u.rd8 pa) u) ∧
      (un = false → u.ownMem pa = true →
        (∀ l, u.l1Line (coreOf gs) (pa / 128) = some l → runs (BitVec.ofNat 64 (ofBytes ((l.bytes.drop (pa % 128)).take 8))) u) ∧
        (u.l1Line (coreOf gs) (pa / 128) = none → runs (u.rd8 pa) (u.fetchLine (coreOf gs) (u.partOf g) (pa / 128) true 0))))

/-- A step of another agent is what `exec` says of it; cycles that pass move the clock and each resident group's GTIME and change no register and no
memory (07, R184; 14, R356). The order of the steps is the model's own `agenda` and round (log entry 2). -/
def Obligations.StepsOfAgents : Prop :=
  ∀ (s : State) (rest : List Move),
    (∀ e, s.agenda = .event e :: rest → step s = exec e { s with agenda := rest }) ∧
    (s.agenda = .own :: rest → step s = ({ s with agenda := rest } : State).ownMove) ∧
    (s.agenda = [] → step s = s.ownMove) ∧
    (∀ n, s.agenda = .elapse n :: rest → ∃ t, step s = .next t ∧ t.clock = s.clock + n ∧ t.mem = s.mem ∧ t.reqs = s.reqs ∧
      (∀ k, (Tbl.find t.parts k).map (·.halt) = (Tbl.find s.parts k).map (·.halt)) ∧
      ∀ gs g, Tbl.find s.groups gs = some g → ∃ h, Tbl.find t.groups gs = some h ∧ h.regs = g.regs ∧ SameGroup { g with gtime := h.gtime } h ∧
        (isWalker gs = false → s.isSaved g = false → h.gtime = g.gtime + BitVec.ofNat 64 n))

/-- Words that the spec writes out decode to the instructions they stand for, and the word of zeros to none (09, R234, R237; 10, R250, R259, R264; 11,
R280, R288, R292; 12, R299, R300, R304; 13, R323, R331; 14, R338, R340, R345, R355, R357). -/
def Obligations.DecodeWords : Prop :=
  let h : Hdr := ⟨false, 7, false⟩
  let m : MemOp := { base := .s 4, idx := .v 0, off := 0#6, xs := 2#2, rct := 0#4, sco := .none, ord := .weak, sz := .w32 }
  decode 0x001E020140C00000#64 = some (.iadd h (.v 4) (.v 5) (.v 6) .s32) ∧
  decode 0x421504023FFFFD00#64 = some (.iaddRri ⟨true, 2, true⟩ (.v 8) (.v 8) 0x3FFFFD#22 .s32) ∧
  decode 0x032E0100C0006420#64 = some (.icmppRri h 2 (.v 3) 100#22 .lt .s32) ∧
  decode 0x0C4E0502C180D008#64 = some (.ffma h (.v 10) (.v 11) (.v 12) (.v 13) {} .f32 .rne) ∧
  decode 0x106E02014000021C#64 = some (.fcvt h (.v 4) (.v 5) .e4m3 .f32 .rtz) ∧
  decode 0x10BE036200400001#64 = some (.rngk h (.v 6) (.s 8) (.v 2)) ∧
  decode 0x1412007FFFFFFD80#64 = some (.bra ⟨false, 1, false⟩ 0xFFFFFFFB#32) ∧
  decode 0x148E000000000000#64 = some (.nop h) ∧
  decode 0x1A1E010040001003#64 = some (.lxchRri h (.v 2) (.v 1) 16#22 .flip .seg32) ∧
  decode 0x182E0280C0000003#64 = some (.poll h (.mask (.v 5)) 3 false) ∧
  decode 0x5C1E00E100004004#64 = some (.ld ⟨true, 7, false⟩ (.v 1) m) ∧
  decode 0x1C7E0000000000E0#64 = some (.fence h .ar .dev) ∧
  decode 0x1C8E000000000000#64 = some (.efence h) ∧
  decode 0x201E05610180EEE5#64 = some (.atom h (.v 10) (.s 4) (.v 12) (.v 14) .cas .d64 .ar .dev) ∧
  decode 0x241EC36130FFF000#64 = some (.cpy h (.s 6) (.s 4) (.s 7) .z) ∧
  decode 0x281E01E23138C004#64 = some (.mma h 3 (.s 8) (.s 9) (.s 12) .single true false 0) ∧
  decode 0x286E018130A00014#64 = some (.mchk h 3 4 (.s 5) 20#6 false) ∧
  decode 0x2C1E000000000000#64 = some (.bar h) ∧
  decode 0x301EC50000000000#64 = some (.srd h (.s 10) .cycle) ∧
  decode 0x303E000000091A00#64 = some (.trap h 0x1234#32) ∧
  (∃ x y, decode 0x810100A011048183#64 = some (.pairedWord false x y)) ∧
  decode 0#64 = none ∧ decode 0x3FFE000000000000#64 = none

/-- Every well-formed instruction is what its word decodes to, with every operand, modifier, guard and marker as it was; what a word decodes to is
well formed (09, R219 to R237). -/
def Obligations.RoundTrip : Prop :=
  (∀ i : Instr, i.wellFormed = true → decode (encode i) = some i) ∧ ∀ w i, decode w = some i → i.wellFormed = true

/-- Nothing stops the machine: from every state, also one that no run reaches, the next step leaves a state; no word that issues and no step of an
agent ends in a fault or a refusal of the model, provided that the agenda gives a word only as an issue and never as a step of an agent (15, R361:
what goes wrong in a word is an exception of its group). -/
def Obligations.EveryStepGoesOn : Prop :=
  ∀ s : State, (∀ i, Move.event i ∈ s.agenda → i.info = none) → ∃ t, step s = .next t

/-- Memory keeps its canonical form, in which equal memories are equal data, over every step of the machine (the form is the model's own, log entry 3;
01, R19). -/
def Obligations.MemoryForm : Prop :=
  ∀ s t : State, Memory.wf s.mem = true → step s = .next t → Memory.wf t.mem = true

/-- After reset nothing is resident, no partition, space or queue exists, stage and measurements are zero, and memory has its canonical form and lists
nothing (18, R408, R416, R418; 01, R40). That a byte never written reads as zero is the model's choice (log entry 3). -/
def Obligations.ResetState : Prop :=
  State.reset.groups = [] ∧ State.reset.wgs = [] ∧ State.reset.grids = [] ∧ State.reset.reqs = [] ∧ State.reset.parts = [] ∧
  State.reset.spaces = [] ∧ State.reset.queues = [] ∧ State.reset.packets = [] ∧ State.reset.sec.stage = 0#8 ∧
  State.reset.sec.meas = [] ∧ State.reset.sec.audit = [] ∧ State.reset.sec.powered = false ∧
  (∀ n, (State.reset.space n).gen = 0#8) ∧ Memory.wf State.reset.mem = true ∧ ∀ pa, State.reset.byte pa = 0#8

/-- Steps of a lane block's groups. A long result writes the registers that its word or the loaded bytes give and clears their pending bits; a
tentative word is committed 48 cycles after its result, counts, and what the core port held for it goes out; a group that could have issued for 64
cycles is promoted; the timer fires at the next word once GTIME has reached GTCMP, and clears GTCMP; a word is fetched ahead, or its page's walk is
queued; an entry of the spill area fills its slot; a first-touch handler ends after 2^20 cycles; the oldest batch completes with its operations; a
group with nothing outstanding leaves its slot; one that is saved is captured; a due advance that the passes permit takes the slot's next incarnation
(07, R189, R193, R195; 16, R386; 14, R356; 09, R219; 01, R26, R30; 03, R95; 10, R263, R266; 04, R107, R108). The walker. A queued miss is served in
slot 15 of its lane block, with the missing address, the root and the access in S0 to S2 and every lane live; after 2^20 cycles the walk has failed,
the slots that waited for it go on and the routine's group is gone (01, R26 to R28). -/
def Obligations.GroupSteps : Prop :=
   (∀ (s : State) (gs : Nat) (g : Group), Tbl.find s.groups gs = some g →
      let does := fun (e : Instr) (t : State) => exec e s = .next t
      let alone := fun (h : Group) => { s with groups := Tbl.put s.groups gs h }
      (∀ rq q, Tbl.find s.reqs rq = some q → q.gs = gs → q.stage = .answered → q.serial = none → q.ord = .weak → q.pops = [] →
        ((∃ ws, q.kind = .result ws ∧ ∀ k m v, RegW.push k m v ∉ ws) ∨
          (∃ d sz, q.kind = .load d sz) ∧ q.accs.all (·.perf) = true ∧ (q.sup = true ∨ q.mode = 0#2) ∧ ∀ a ∈ q.accs, a.err = 0) →
        (∀ e ∈ s.reqs, e.1 ≠ rq → e.2.gs = gs → e.2.nth = q.nth → e.2.pend = []) →
        (∀ a ∈ q.accs, s.spillOwner q.spid a.ga.toNat = none) →
        ∃ t h, does (.longResultReturn rq) t ∧ Tbl.find t.groups gs = some h ∧ h.regs = (g.writes q.regWrites).regs ∧
          h.pend = g.pend.filter (fun r => !q.pend.contains r) ∧ Tbl.find t.reqs rq = none ∧ t.mem = s.mem ∧
          ∀ k, k ≠ gs → Tbl.find t.groups k = Tbl.find s.groups k) ∧
      (∀ w l, Tbl.find s.tents gs = some (w :: l) →
        (s.clock < w.born + 48 → does (.tentativeResultCommit gs) s) ∧
        (w.born + 48 ≤ s.clock → g.quietAt = none → w.point = none →
          ∃ t, does (.tentativeResultCommit gs) t ∧ Tbl.find t.groups gs = some { g with rwc := g.rwc + BitVec.ofNat 32 w.n } ∧
            ((Tbl.find t.tents gs).getD []).length = l.length ∧ t.mem = s.mem ∧
            (∀ id q, id ∈ w.reqs → Tbl.find s.reqs id = some q → q.stage = .held →
              Tbl.find t.reqs id = some { q with
                stage := .mesh, since := s.clock, first := s.clock, nr := s.fresh + 1, slack := s.slackOf q.core }) ∧
            ∀ id, id ∉ w.reqs → Tbl.find t.reqs id = Tbl.find s.reqs id)) ∧
      (∀ c, g.eligible = some c → c + 64 ≤ s.clock → isWalker gs = false → does (.groupPromotion gs) (alone { g with promoted := true })) ∧
      (∀ b p, g.nextSlot = some b → g.slot b = some p → isWalker gs = false → g.ft = none → g.stop = none → g.retiring = false →
        (s.space (s.spidOf g)).replay = none → (s.space (s.spidOf g)).records = false → Tbl.find s.tents gs = none →
        g.gtcmp ≠ 0#64 → g.gtcmp.toNat ≤ g.gtime.toNat →
        does (.gtimeTimer gs) ((alone { g with gtcmp := 0#64 }).raise gs ⟨p.pc, s.rwcNow gs g, g.nissue, b⟩
          { code := 0x30, lanes := p.mask, info := 0xFFFFFFFF#64 })) ∧
      (∀ b p, g.slot b = some p → g.stop = none → g.retiring = false → p.missing = false → p.fetched = none →
        (∀ w u, s.fetch gs g p = .word w u →
          does (.instructionFetch gs b) (u.updGroup gs fun g => g.setSlot b (some { p with fetched := some w }))) ∧
        (∀ va, s.fetch gs g p = .miss va →
          does (.instructionFetch gs b) ((s.queueMiss ⟨gs, g, p.walked, isWalker gs || g.ft.isSome, .fetch⟩ 3 b va).park gs b .walker))) ∧
      (∀ b e l, g.refill = (b, e) :: l → g.slot b = none → e.mask &&& g.live ≠ 0#32 →
        does (.spillAreaRefill gs) (alone ({ g with refill := l }.setSlot b (some { pc := e.pc, mask := e.mask &&& g.live })))) ∧
      (∀ r, g.ft = some r →
        (r.start + 2 ^ 20 ≤ s.clock → does (.firstTouchTimeout gs)
          (s.raise gs ⟨((g.slot (g.nextSlot.getD false)).map (·.pc)).getD 0#64, s.rwcNow gs g, g.nissue, false⟩
            { code := 0x09, det := 0x05, lanes := r.mask })) ∧
        (s.clock < r.start + 2 ^ 20 → does (.firstTouchTimeout gs) s)) ∧
      (∀ k b l, (g.cls k).open_ = b :: l → b.ops.all (·.fin) = true → ∃ c, does (.batchComplete gs k) (alone (g.setCls k c)) ∧
        c.last = (g.cls k).last ∧ c.opened = (g.cls k).opened ∧ (∀ x ∈ c.closed, x.num = b.num → x.complete = true) ∧
        (∀ x ∈ (g.cls k).closed, x.num ≠ b.num → x.complete = false → x ∈ c.closed) ∧
        (b.ops.any (·.fault.isSome) = true → { b with complete := true } ∈ c.closed)) ∧
      (g.retiring = true → isWalker gs = false → g.stop = none → g.forced = false →
        (∀ q, Tbl.find s.parts (s.partOf g) = some q → q.halt = none) →
        (∀ w, Tbl.find s.wgs g.wg = some w → Tbl.find w.teams (teamIx (s.teamSize g) g.gidx) = none) →
        (s.allDone gs g.closeBatches = false → does (.groupRetirement gs) ((s.updGroup gs Group.closeBatches).startDrain gs true)) ∧
        (s.allDone gs g.closeBatches = true → s.reportHeld gs g.exitPc = none → (s.space (s.spidOf g)).replay = none →
          s.batchFault { gs, b := false, g := g.closeBatches, slot := { pc := g.exitPc, mask := 0#32 }, act := 0#32, ngrp := 0, srcs := [] }
            [.cp, .mx, .gc, .cl] (fun _ => true) = none →
          does (.groupRetirement gs) ((s.leaveSlot gs g.closeBatches).endWg g.wg))) ∧
      (isWalker gs = false → (s.space (s.spidOf g)).st = .preempting → (∀ w, Tbl.find s.wgs g.wg = some w → inMask w.savedG g.gidx = false) →
        g.stop = none → g.forced = true → s.colls = [] → s.groupRest gs g = true → does (.groupSave gs) ((s.markSaved gs g).tryWg g.wg)) ∧
      ((s.dirOf gs).want.isSome = true → s.mayAdvance gs = true → does (.incarnationAdvance gs) { s with
        fresh := s.fresh + 1
        dir := Tbl.put s.dir gs { inc := (s.dirOf gs).inc + 1#4, left := Tbl.put (s.dirOf gs).left (s.dirOf gs).inc.toNat (s.fresh + 1)
                                  since := s.fresh + 1, want := if (s.dirOf gs).more = 0 then none else (s.dirOf gs).want
                                  more := (s.dirOf gs).more - 1, span := (s.dirOf gs).span + 1 } }) ∧
      ((s.dirOf gs).want = none ∨ s.mayAdvance gs = false → does (.incarnationAdvance gs) s)) ∧
   (∀ (s : State) (lb : Nat),
      (∀ m l, (s.lb lb).walk = none → (s.lb lb).misses = m :: l →
        (∀ q, Tbl.find s.parts (s.space m.spid).part = some q → q.halt = none) →
        ∃ t g, exec (.walkerStart lb) s = .next t ∧ Tbl.find t.groups (lb * 16 + 15) = some g ∧
          g.sget 0 = BitVec.ofNat 64 (m.va % 2 ^ 56) ∧ g.sget 1 = (s.space m.spid).ptroot ∧
          g.sget 2 = BitVec.ofNat 64 (fld 2 0 m.access + fld 1 2 (b2n m.sup) + fld 8 8 m.spid) ∧ g.n = 8 ∧ g.live = BitVec.allOnes 32 ∧
          g.at true = none ∧ (∀ q, Tbl.find s.parts (s.space m.spid).part = some q → g.at false = some (q.walkpc, BitVec.allOnes 32)) ∧
          (t.lb lb).misses = l ∧ (t.lb lb).walk.map (·.miss) = some m ∧ t.mem = s.mem ∧
          ∀ k, k ≠ lb * 16 + 15 → Tbl.find t.groups k = Tbl.find s.groups k) ∧
      (∀ r, (s.lb lb).walk = some r →
        (s.clock < r.start + 2 ^ 20 → exec (.walkerTimeout lb) s = .next s) ∧
        (r.start + 2 ^ 20 ≤ s.clock → ∃ t, exec (.walkerTimeout lb) s = .next t ∧ (t.lb lb).walk = none ∧
          Tbl.find t.groups (lb * 16 + 15) = none ∧ t.mem = s.mem ∧
          ∀ k g, k ≠ lb * 16 + 15 → k < heldSlot → r.miss.groups.Nodup → Tbl.find s.groups k = some g → ∃ h, Tbl.find t.groups k = some h ∧
            ∀ b p, (k, b) ∈ r.miss.groups → (k + heldSlot, b) ∉ r.miss.groups → g.slot b = some p →
              h.slot b = some { p with missing := false, walked := p.walked ++ [(r.miss.va / 2 ^ 16, 5)] })))

/-- Accesses at their homes, in a context that neither records nor is re-executed. A load reads the bytes that its places hold, with the error of
those that are bad; a store writes its bytes and no others, also in a local store, and is then acknowledged, and one to host memory
rings the doorbell that it names; an atomic on a line that its core owns
takes the old value and leaves the new one; a write that the home cannot pass goes back unperformed, at its third return the sector is held for it for
1,024 cycles, and it comes again with the watermark it was given; a confirmed invalidation drops the copies of the line; a pass of a sweep clears V of
the watermarks whose writer is gone (02, R53, R57, R67; 03, R73, R89; 04, R108, R114; 05, R122; 08, R200; 12, R295, R300, R301; 16, R386). -/
def Obligations.HomeSteps : Prop :=
  ∀ (s : State) (rq n : Nat) (q : Req) (l : List Home), Tbl.find s.reqs rq = some q →
    let does := fun (e : Instr) (t : State) => exec e s = .next t
    let here := fun (h : Home) (a : LaneAcc) => a.home = h ∧ a.perf = false
    let byteAfter := fun (old : Nat → Byte) (cells : List (Nat × Byte)) (pa : Nat) => ((cells.reverse.find? (fun c => c.1 == pa)).map (·.2)).getD (old pa)
    let single := ∀ a ∈ q.accs, ∀ b ∈ q.accs, a.lane = b.lane → a.part = b.part → a = b
    let quiet := (s.space q.spid).records = false ∧ (s.space q.spid).replay = none ∧ (s.space q.spid).log = 0
    let arrived := fun (h : Home) => q.homesLeft = h :: l ∧ s.mayPerform rq q h = true
    let alone := fun (g : Group) => (∀ a ∈ q.accs, s.overlap q a = none) ∧ (∀ c ∈ accCells q.accs, s.barred c.1 = false) ∧ s.raceBars rq q g = false
    (∀ d sz, q.kind = .load d sz → quiet → single → (∀ a ∈ q.accs, a.tx = false) → q.stage = .atHome → arrived (.sector n) →
      s.copyAt q n = none → (∀ a ∈ q.accs, s.overlap q a = none ∧ (a.home = .sector n → s.ownMem a.pa = true)) →
      ∃ (t : State) (p : Req), does (.homeSliceAccess rq) t ∧ Tbl.find t.reqs rq = some p ∧ t.mem = s.mem ∧
        p.accs.length = q.accs.length ∧ p.wms = q.wms ++ [(n, Tbl.get 0#64 s.wms n)] ∧
        (∀ (i : Nat) (a : LaneAcc), q.accs[i]? = some a → (here (.sector n) a → p.accs[i]? = some { a with
            got := bytesNum (s.rdBytes a.pa a.len), err := if s.poisoned a.pa a.len then 0x28 else 0, perf := true }) ∧
          (¬ here (.sector n) a → p.accs[i]? = some a)) ∧
        (p.accs.all (·.perf) = true → p.stage = .answered) ∧ (p.accs.all (·.perf) = false → p.stage = .atHome)) ∧
    (∀ d sz c o, q.kind = .load d sz → quiet → q.stage = .mesh ∨ q.stage = .atHome → arrived (.bank c o) → (s.core c).subs = [] →
      ∃ (t : State) (p : Req), does (.homeSliceAccess rq) t ∧ Tbl.find t.reqs rq = some p ∧ t.mem = s.mem ∧ (q.acquires = false → t.cores = s.cores) ∧
        ∀ (i : Nat) (a : LaneAcc), q.accs[i]? = some a → (here (.bank c o) a → p.accs[i]? = some { a with
            got := bytesNum (s.lsBytes c a.pa a.len), err := if s.lsBad c a.pa a.len then 0x28 else 0, perf := true }) ∧
          (¬ here (.bank c o) a → p.accs[i]? = some a)) ∧
    (∀ g, q.kind = .store → quiet → s.serialOwner q = none → q.stage = .atHome → arrived (.sector n) → Tbl.find s.groups q.gs = some g →
      (∀ a ∈ q.accs, s.mixed q g a = false ∧ (s.poisoned a.pa a.len = true → 4 ≤ a.len)) →
      (∀ v, alone g → s.homeCheck q g q.sector (q.ord != .weak) = .go v →
        ∃ (t : State) (p : Req), does (.homeSliceAccess rq) (t.rings q) ∧ (∀ pa, t.byte pa = byteAfter s.byte (accCells q.accs) pa) ∧
          Tbl.find t.reqs rq = some p ∧ p.stage = .performed ∧ (∀ a ∈ p.accs, a.perf = true) ∧
          ((∀ a ∈ q.accs, a.pa.testBit 51 = false) → t.rings q = t)) ∧
      (s.homeCheck q g q.sector (q.ord != .weak) = .back →
        ∃ t, does (.homeSliceAccess rq) t ∧ t.mem = s.mem ∧ Tbl.find t.reqs rq = some { q with
            stage := .unperformed, wms := [(q.sector, Tbl.get 0#64 s.wms q.sector)], returns := q.returns + 1 } ∧
          (3 ≤ q.returns + 1 → Tbl.find t.holds q.sector = some (rq, s.clock)))) ∧
    (∀ g c o, q.kind = .store → quiet → s.serialOwner q = none → q.stage = .mesh ∨ q.stage = .atHome → arrived (.bank c o) →
      Tbl.find s.groups q.gs = some g → q.sup = true ∨ q.mode = 0#2 → q.head = false →
      (∀ a ∈ q.accs, s.broken c a.pa a.len = false) → (s.core c).bad = [] → (s.core c).pubs = [] → s.raceBars rq q g = false →
      ∃ (t : State) (p : Req), does (.homeSliceAccess rq) t ∧ t.mem = s.mem ∧ (∀ x, t.lsByte c x = byteAfter (s.lsByte c) (accCells q.accs) x) ∧
        Tbl.find t.reqs rq = some p ∧ p.stage = .performed ∧ ∀ a ∈ p.accs, a.perf = true) ∧
    (∀ g d sz op a pa, q.kind = .atom d sz op → quiet → (s.space (s.spidOf g)).replay = none → (s.space (s.spidOf g)).records = false →
      s.canOwn q pa = true → q.serial = none → s.owns q.core (n / 2) = true →
      q.accs = [a] → a.locs = [.mem pa] → q.stage = .mesh ∨ q.stage = .atHome → arrived (.sector n) → Tbl.find s.groups q.gs = some g →
      s.poisoned pa a.len = false → s.homeCheck q g (pa / 64) (q.ord != .weak) = .go .pass → s.overlap q a = none →
      (∀ i, i < a.len → s.barred (pa + i) = false) → s.raceBars rq q g = false →
      let old := s.rd pa a.len
      ∃ (t : State) (p : Req), does (.homeSliceAccess rq) t ∧ (∀ x, t.byte x = byteAfter s.byte (cellsAt pa (toBytes a.len
          (atomNew op sz.bytes old (a.data.toNat % 2 ^ (8 * sz.bytes)) (a.alt.toNat % 2 ^ (8 * sz.bytes)) % 2 ^ 128))) x) ∧
        Tbl.find t.reqs rq = some p ∧ p.stage = .answered ∧ p.accs = [{ a with got := BitVec.ofNat 128 old, perf := true }]) ∧
    (q.stage = .performed → q.serial = none → q.gs = n → q.txMsg = none → q.tag = none → (∀ x ∈ s.invs, x.2 ∉ q.lines) →
      (∀ g, Tbl.find s.groups n = some g → g.quietAt = none) →
      does (.writeAcknowledgement rq) { s with reqs := Tbl.del s.reqs rq, holds := s.holds.filter (fun e => e.2.1 != rq) }) ∧
    (q.stage = .performed → (∃ x ∈ s.invs, x.2 ∈ q.lines) → does (.writeAcknowledgement rq) s) ∧
    (∀ g wm r, q.stage = .unperformed → q.txMsg = none → q.wms = (n, wm) :: r → q.serial = none → Tbl.find s.groups q.gs = some g →
      (s.sectorVerdict q g n wm (q.ord != .weak)).1 ≠ .race →
      ∃ (t : State) (p : Req), does (.writeReturnedUnperformed rq) t ∧ t.mem = s.mem ∧ Tbl.find t.reqs rq = some p ∧ p.stage = .mesh ∧ p.verified = some wm ∧ p.wms = []) ∧
    (∀ g wm r, q.stage = .unperformed → q.txMsg = none → q.wms = (n, wm) :: r → q.mode = 1#2 → Tbl.find s.groups q.gs = some g →
      (s.sectorVerdict q g n wm (q.ord != .weak)).1 = .race →
      let m := (s.sectorVerdict q g n wm (q.ord != .weak)).2
      does (.writeReturnedUnperformed rq) (s.raceFault rq q g [q.race false n wm m])) ∧
    (∀ g r x, Tbl.find s.groups q.gs = some g → s.siblings rq q = [] →
      s.raceFault rq q g [r] = ((s.countCheck q.spid .race).lateFault rq q { code := 0x10, lanes := r.lanes, addr := r.addr, ext := s.raceWords q.gs g r }) ∧
      s.raceFault rq q g [] = s ∧ (r.lowest < x.lowest → s.raceFault rq q g [x, r] = (((s.countCheck q.spid .race).countCheck q.spid .race).lateFault rq q
        { code := 0x10, lanes := r.lanes ||| x.lanes, addr := r.addr, ext := s.raceWords q.gs g r }))) ∧
    (∀ i c, Tbl.find s.holds n = some (i, c) →
      (c + 1024 ≤ s.clock → does (.sectorHoldTimeout n) { s with holds := Tbl.del s.holds n }) ∧
      (s.clock < c + 1024 → does (.sectorHoldTimeout n) s)) ∧
    (∀ die line, (die, line) ∈ s.invs → ∃ t, does (.remoteInvalidation die line) t ∧ (die, line) ∉ t.invs ∧ t.mem = s.mem ∧
      Tbl.find (t.die die).rdc line = none) ∧
    (∀ die ls, ∃ t, does (.watermarkSweep (.slice die ls)) t ∧ t.mem = s.mem ∧ Tbl.find t.passes (sweepKey (.slice die ls)) = some (s.fresh + 1) ∧
      ∀ k x, Tbl.wf s.wms = true → Tbl.find s.wms k = some x → x ≠ 0#64 →
        (recSlice k ≠ die * 64 + ls ∨ bit x 7 = false ∨ s.wmLive x = true → Tbl.get 0#64 t.wms k = x) ∧
        (recSlice k = die * 64 + ls → bit x 7 = true → s.wmLive x = false → Tbl.get 0#64 t.wms k = x &&& ~~~(1#64 <<< 7)))

/-- Packets on the mesh, lines' owners, and links. A packet that its source may send and that wins its router's output goes on a segment of up to eight
routers: it is accepted at its home, latched at a router on the way where that input has room for its class, or dropped and answered negatively; its
source then waits 4 cycles for each of its retransmissions, of which at most 16 count, and sends it again. A contest goes by class, slack, wait count
and input port. A line is given to a core whose atomics wait for it, once an owner with no atomic of its own waiting has lost it to the recall; an
owner gives a line back for another requester, which moves the predictor by 2 towards the home, and for a need of its own core, which does not. A copy
of a request that a link brings nearer to its owner passes it, and the link keeps one of its own until it is acknowledged; a port that leaves service
takes what it kept with it (02, R63 to R66; 05, R122 to R124; 18, R413, R414; 16, R391). -/
def Obligations.MeshSteps : Prop :=
  ∀ (s : State),
    let does := fun (e : Instr) (t : State) => exec e s = .next t
    let same := fun (rq : Nat) (t : State) => t.mem = s.mem ∧ ∀ k, k ≠ rq → Tbl.find t.reqs k = Tbl.find s.reqs k
    (∀ rq q l room, Tbl.find s.reqs rq = some q → q.stage = .mesh → s.atSource q = false → s.injectHeld q = false → q.trip.way = .going →
      s.reqLeg q = some l → s.wins l q.trip q q.first = true →
      let e := segment l.dest 8 (q.trip.at_ l)
      let goes := fun (p : Req) => ∃ t, does (.meshPacketArrival rq room) t ∧ Tbl.find t.reqs rq = some p ∧ same rq t
      (room = true → e.1 = l.dest → goes { q with stage := .atHome, trip := { q.trip with hop := none, way := .there } }) ∧
      (room = true → e.1 ≠ l.dest → s.inputRoom l.die e q.cls = true → goes { q with trip := { q.trip with hop := some e } }) ∧
      (room = false ∨ e.1 ≠ l.dest ∧ s.inputRoom l.die e q.cls = false → goes { q with trip := { q.trip with hop := none, way := .nacked } })) ∧
    (∀ rq q room, Tbl.find s.reqs rq = some q → q.stage = .mesh → s.atSource q = false →
      (s.injectHeld q = true ∨ q.trip.way ≠ .going ∨ ∃ l, s.reqLeg q = some l ∧ s.wins l q.trip q q.first = false) → does (.meshPacketArrival rq room) s) ∧
    (∀ rq q room, Tbl.find s.reqs rq = some q → (q.stage ≠ .mesh ∨ s.atSource q = true) → q.copies = [] → does (.meshPacketArrival rq room) s) ∧
    (∀ (q : Req) first port first' port', let w := min 255 (s.clock - first)
      let w' := min 255 (s.clock - first')
      q.slack < 16 → port < 5 → port' < 5 → w < 255 → w' < 255 →
      (w' < w → s.contestKey q first port < s.contestKey q first' port') ∧ (w' = w → port < port' → s.contestKey q first port < s.contestKey q first' port')) ∧
    (∀ rq q, Tbl.find s.reqs rq = some q → ∃ t, does (.negativeAcknowledgement rq) t ∧ same rq t ∧
      ∃ p, Tbl.find t.reqs rq = some p ∧ p.stage = q.stage ∧ p.copies.length = q.copies.length ∧
        (q.trip.way = .nacked → p.trip = { q.trip with way := .backoff s.clock, nacks := q.trip.nacks + 1 }) ∧ (q.trip.way ≠ .nacked → p.trip = q.trip)) ∧
    (∀ rq q c, Tbl.find s.reqs rq = some q → q.trip.way = .backoff c → ∃ t, does (.meshRetransmit rq) t ∧ same rq t ∧
      ∃ p, Tbl.find t.reqs rq = some p ∧ p.stage = q.stage ∧
        p.trip = if c + 4 * min q.trip.nacks 16 ≤ s.clock then { q.trip with way := .going } else q.trip) ∧
    (∀ core line, s.ownerBusy core line = true → Tbl.find s.owners line = none → (s.core core).owned.length < 16 →
      ∃ t, does (.ownershipRequest core line) t ∧ t.owns core line = true ∧ (t.core core).owned = (s.core core).owned ++ [line] ∧ t.mem = s.mem ∧
        (∀ e d, Tbl.find s.l2 line = some e → d < 4 → e.dirs.getLsbD d = true → (d, line) ∈ t.invs) ∧ ∀ k, k ≠ line → Tbl.find t.owners k = Tbl.find s.owners k) ∧
    (∀ core other line, s.ownerBusy core line = true → Tbl.find s.owners line = some other → other ≠ core → s.ownerBusy other line = false →
      ∃ t, does (.ownershipRequest core line) t ∧ Tbl.find t.owners line = none ∧ line ∉ (t.core other).owned ∧ t.mem = s.mem ∧
        let x := Tbl.get 0#3 (s.core other).pred (predIx (line * 128))
        Tbl.get 0#3 (t.core other).pred (predIx (line * 128)) = if 5 ≤ x.toNat then 7#3 else x + 2#3) ∧
    (∀ core line, (s.ownerBusy core line = false ∨ s.owns core line = true) → does (.ownershipRequest core line) s) ∧
    (∀ core line, s.owns core line = true → s.ownerBusy core line = false → (s.recallers core line).1 = true →
      ∃ t, does (.ownershipRecall core line) t ∧ Tbl.find t.owners line = none ∧ line ∉ (t.core core).owned ∧ t.mem = s.mem ∧ t.wms = s.wms ∧
        t.recs = s.recs) ∧
    (∀ core line, s.owns core line = true → s.ownerBusy core line = false → (s.recallers core line).1 = false → (s.recallers core line).2 = true →
      does (.ownershipRecall core line) (s.disown core line)) ∧
    (∀ core line, (s.owns core line = false ∨ s.ownerBusy core line = true ∨ s.recallers core line = (false, false)) → does (.ownershipRecall core line) s) ∧
    (∀ link lane rq q c e, Tbl.find s.reqs rq = some q → q.copies = [c] → s.canPass q link c = some e → link < 12 → Tbl.find s.injs link = none →
      ∃ t, does (.linkFlitTransmit link lane rq) t ∧ t.mem = s.mem ∧ (Tbl.find t.reqs rq).map (·.copies) =
        some [{ c with node := e, trip := {}, kept := (link, c.node) :: c.kept, lost := false, until_ := s.clock }]) ∧
    (∀ link rq q c n e, Tbl.find s.reqs rq = some q → q.copies = [c] → c.lost = false → c.kept = [(link, n)] → otherEnd link n = some e →
      Tbl.find s.injs link = none → ∃ t, does (.linkAcknowledgement link rq) t ∧ t.mem = s.mem ∧
        (Tbl.find t.reqs rq).map (·.copies) = some [{ c with kept := [] }]) ∧
    (∀ link rq q c n e, Tbl.find s.reqs rq = some q → q.copies = [c] → c.lost = true → c.kept = [(link, n)] → otherEnd link n = some e →
      Tbl.find s.injs link = none → s.linkLive link = true → s.clock < c.sent + 2 ^ 14 →
      ∃ t d, does (.linkTimeoutRetransmit link rq) t ∧ t.mem = s.mem ∧ (Tbl.find t.reqs rq).map (·.copies) = some [d] ∧ d.rtx = true ∧ d.node = e ∧
        d.kept = [(link, n)] ∧ d.sent = c.sent ∧ d.ack = c.ack ∧ d.inc = c.inc ∧ d.lost = false) ∧
    (∀ link rq q c n, Tbl.find s.reqs rq = some q → q.gone = false → q.copies = [c] → c.lost = true → c.kept = [(link, n)] → c.sent + 2 ^ 14 ≤ s.clock →
      ∃ t, does (.linkTimeoutRetransmit link rq) t ∧ t.mem = s.mem ∧ (Tbl.find t.reqs rq).map (·.copies) = some []) ∧
    (∀ (link : Bool) (ix : Nat), s.sec.powered = true → ix < (if link then 12 else 32) →
      ∃ t, does (.fabricPortRetirement link ix) t ∧ t.mem = s.mem ∧ t.reqs = s.reqs ∧ t.linkLive (if link then ix else 12 + ix) = false ∧
        ∀ l, l ≠ (if link then ix else 12 + ix) → t.linkLive l = s.linkLive l)

/-- Operations that carry serials. A copy that reaches its owner retires the requester's entries up to its ACK; then a live entry answers with its
value, a tombstone drops the copy, a missing entry answers that the outcome is unknown where the copy was resent and names another incarnation of the
owner, or busy where the cache is full, and otherwise the operation is performed, entered and answered. The final reply frees the serial; busy parks
the copy for 64 cycles times the count of such replies, at most 16; 2^15 cycles after the last copy the request is sent again and 2^23 after the first
it is given up; copies and replies leave at the age of 2^14, tombstones after 2^15 cycles; an owner's incarnation advances once in 2^17 cycles at
most; a held operation goes out with the next serial once the window and the table have room (05, R127 to R136). -/
def Obligations.ResultSteps : Prop :=
  ∀ (s : State) (rq : Nat) (q : Req) (ser : BitVec 16), Tbl.find s.reqs rq = some q →
    let does := fun (e : Instr) (t : State) => exec e s = .next t
    let owner := ownerOf (q.memAt.getD 0)
    let place := s.rcAt owner q.lineSet
    let is := fun (t : State) (p : Req) => Tbl.find t.reqs rq = some p ∧ ∀ k, k ≠ rq → Tbl.find t.reqs k = Tbl.find s.reqs k
    (∀ c, q.serial = some ser → q.copies = [c] → s.arrived q c = true → q.reply = none → q.gone = false →
      let u := s.retireAt (s.rcAll owner) q.core c.ack
      let missing := u.rcFind place q.core ser = none ∧ ∀ e, u.rcFind (s.rcAt owner 1023) q.core ser = some e → e.tomb ≠ none
      let stale := c.inc ≠ s.ownerInc owner ∧ (c.rtx = true ∨ s.clock < s.sec.incAt + 2 ^ 14)
      let answers := fun (r : Reply) => ∃ t, does (.resultCacheRequest rq c.id) t ∧ t.mem = s.mem ∧
        is t { q with copies := [], reply := some r, replied := s.clock, rnode := s.targetNode q, back := s.ownerInc owner }
      (∀ x, x ∈ u.rcache ↔ ∃ e ∈ s.rcache, x = if e.place ∈ s.rcAll owner ∧ e.runit = q.core ∧ e.tomb = none ∧ (c.ack - e.ser).toNat < 2 ^ 15 then
        { e with tomb := some s.clock } else e) ∧
      (∀ e, u.rcFind place q.core ser = some e → e.tomb = none → answers (.value e.value)) ∧
      (∀ e, u.rcFind place q.core ser = none → u.rcFind (s.rcAt owner 1023) q.core ser = some e → e.tomb = none → answers (.value e.value)) ∧
      (∀ e, u.rcFind place q.core ser = some e → e.tomb ≠ none → ∃ t, does (.resultCacheRequest rq c.id) t ∧ t.mem = s.mem ∧ is t { q with copies := [] }) ∧
      (missing → s.sec.incLost.contains owner = false → stale → answers .unknown) ∧
      (missing → (s.sec.incLost.contains owner = true ∨ ¬ stale ∧ s.rcFull place = true) → answers .busy) ∧
      (∀ g v, missing → s.sec.incLost.contains owner = false → ¬ stale → s.rcFull place = false →
        q.stage = .mesh ∨ q.stage = .atHome → Tbl.find s.owners (q.sector / 2) = none → (∀ h ∈ q.homesLeft, s.mayPerform rq q h = true) → q.kind = .store →
        Tbl.find s.groups q.gs = some g → (s.space q.spid).records = false → (s.space q.spid).replay = none → (s.space q.spid).log = 0 →
        (∀ a ∈ q.accs, s.overlap q a = none ∧ (s.poisoned a.pa a.len = true → 4 ≤ a.len)) → (∀ e ∈ accCells q.accs, s.barred e.1 = false) →
        s.raceBars rq q g = false → s.homeCheck q g q.sector (q.ord != .weak) = .go v →
        ∃ (t : State) (p : Req), does (.resultCacheRequest rq c.id) t ∧
          (∀ pa, t.byte pa = (((accCells q.accs).reverse.find? (fun e => e.1 == pa)).map (·.2)).getD (s.byte pa)) ∧
          Tbl.find t.reqs rq = some p ∧ p.stage = .performed ∧ p.copies = [] ∧ p.reply = some (.value p.accs) ∧
          ⟨owner, place, q.core, ser, none, p.accs⟩ ∈ t.rcache)) ∧
    (∀ r, q.serial = some ser → q.reply = some r → (q.gone = true ∨ q.rnode ≠ unitDie q.core ∨ q.replied + 2 ^ 14 ≤ s.clock) → does (.requestReply rq) s) ∧
    (∀ r, q.serial = some ser → q.reply = some r → q.gone = false → q.rnode = unitDie q.core → s.clock < q.replied + 2 ^ 14 →
      (∀ v, r = .value v → q.isAtomic = false → ∃ t, does (.requestReply rq) t ∧ t.mem = s.mem ∧
        is t { q with serial := none, reply := none, copies := [], accs := v } ∧ t.rqer q.core = (s.rqer q.core).answer ser) ∧
      (r = .busy → ∃ t, does (.requestReply rq) t ∧ t.mem = s.mem ∧
        is t { q with reply := none, busy := q.busy + 1, parked := true, since := s.clock }) ∧
      (r = .unknown → q.txMsg = none → q.tag = none → does (.requestReply rq) ((s.viewReply q).lateFault rq q
        { code := 0x24, lanes := q.faultLanes (q.accs.map (·.lane)), addr := BitVec.ofNat 64 (q.sector * 64), info := ser.setWidth 64 })) ∧
      (∀ tag who, r = .unknown → q.kind = .put tag who → q.core < 768 → tag ≠ 0 → tag < 2 ^ 43 →
        let x := (s.viewReply q).haltBy q.spid ((s.viewReply q).agentEng q) q.core 0x24 0 (BitVec.ofNat 64 (q.sector * 64)) (ser.setWidth 64)
        does (.requestReply rq) ((x.answerSerial q.core ser).updReq rq fun q => { q with
          stage := .answered, serial := none, reply := none, copies := [], accs := q.accs.map fun a => { a with err := 0 } }))) ∧
    (q.parked = true → ∃ t d, does (.busyRetry rq) t ∧ t.mem = s.mem ∧
      is t (if q.since + 64 * min q.busy 16 ≤ s.clock then { q with parked := false, copies := q.copies ++ [d], sent := s.clock } else q) ∧
        d.rtx = true ∧ d.sent = s.clock ∧ d.ack = (s.rqer q.core).ack ∧ d.inc = q.inc ∧ d.lost = false) ∧
    (q.serial = some ser → q.parked = false → q.gone = false → q.stage ≠ .unperformed → ∃ t d, does (.requestResend rq) t ∧ t.mem = s.mem ∧
      is t (if q.sent + 2 ^ 15 ≤ s.clock then { q with copies := q.copies ++ [d], sent := s.clock } else q) ∧
        d.rtx = true ∧ d.sent = s.clock ∧ d.ack = (s.rqer q.core).ack ∧ d.inc = q.inc ∧ d.lost = false) ∧
    (q.serial = some ser → q.gone = false →
      (s.clock < q.first + 2 ^ 23 → does (.requestAbandon rq) s) ∧
      (q.first + 2 ^ 23 ≤ s.clock → q.txMsg = none → q.tag = none →
        let c : Cause := { code := 0x24, lanes := q.faultLanes (q.accs.map (·.lane)), addr := BitVec.ofNat 64 (q.sector * 64), info := ser.setWidth 64 }
        (q.copies = [] → does (.requestAbandon rq) (s.lateFault rq q c)) ∧
        (q.copies ≠ [] → ∃ u : State, does (.requestAbandon rq) (u.lateFault rq q c) ∧ u.mem = s.mem ∧ u.groups = s.groups ∧
          ∃ p : Req, Tbl.find u.reqs (s.fresh + 1) = some p ∧ p.gone = true ∧ p.copies = q.copies ∧ p.kind = q.kind ∧ p.accs = q.accs ∧ p.serial = q.serial ∧
            p.gs = noGroup))) ∧
    (∀ n, n ≠ 0 → q.gone = false → ∃ t, does (.ageExpiry rq n) t ∧ t.mem = s.mem ∧
      is t { q with copies := q.copies.filter (fun c => !(c.id == n && decide (c.sent + 2 ^ 14 ≤ s.clock))) }) ∧
    (∀ r, q.reply = some r → q.gone = false → ∃ t, does (.ageExpiry rq 0) t ∧ t.mem = s.mem ∧ is t (if q.replied + 2 ^ 14 ≤ s.clock then { q with reply := none } else q)) ∧
    (∀ u o ack, (s.rqer u).retirePk = [(o, ack, 0)] → ∃ t, does (.retirePacketSend u o) t ∧ t.reqs = s.reqs ∧ (t.rqer u).retirePk = [(o, ack, s.clock + 1)]) ∧
    (∀ u o ack n, (s.rqer u).retirePk = [(o, ack, n + 1)] → ∃ t, does (.retirePacket u o) t ∧ t.reqs = s.reqs ∧ t.mem = s.mem ∧ (t.rqer u).retirePk = [] ∧
      t.rcache = if s.clock < n + 2 ^ 14 then (s.retireAt (s.rcAll o) u ack).rcache else s.rcache) ∧
    (∀ o u n, ∃ t, does (.tombstoneExpiry o u n) t ∧ t.reqs = s.reqs ∧ t.mem = s.mem ∧ ∀ e, e ∈ t.rcache ↔ e ∈ s.rcache ∧
      ¬ (e.owner = o ∧ e.runit = u ∧ e.ser = n ∧ ∃ c, e.tomb = some c ∧ c + 2 ^ 15 ≤ s.clock)) ∧
    (s.sec.incLost ≠ [] → s.sec.incAt = 0 ∨ s.sec.incAt + 2 ^ 17 ≤ s.clock →
      does .ownerIncarnationAdvance { s with sec := { s.sec with incarn := s.sec.incarn + 1#8, incAt := s.clock, incLost := [] } }) ∧
    (s.sec.incLost = [] ∨ s.sec.incAt ≠ 0 ∧ s.clock < s.sec.incAt + 2 ^ 17 → does .ownerIncarnationAdvance s) ∧
    (∀ die m inc, (m = s.sec.modnum.toNat ∧ inc = s.sec.incarn ∨ m ≠ s.sec.modnum.toNat ∧ (Tbl.find s.sec.domain m).isSome = true) →
      ∃ t, does (.incarnationAnnounce die m inc) t ∧ t.reqs = s.reqs ∧ t.mem = s.mem ∧ Tbl.get 0#8 (t.die die).view m = inc ∧
        ∀ k, k ≠ m → Tbl.get 0#8 (t.die die).view k = Tbl.get 0#8 (s.die die).view k) ∧
    (∀ u l o, s.unsent u = (rq, q) :: l → s.serialOwner q = some o → s.injectHeld q = false →
      ((s.rqer u).mustHold o = true → does (.requesterHoldRelease u) s) ∧
      ((s.rqer u).mustHold o = false → q.core = u → (s.rqer u).retirePk = [] → ∃ t d, does (.requesterHoldRelease u) t ∧ t.mem = s.mem ∧
        is t { q with
            serial := some (s.rqer u).next, first := s.clock, copies := q.copies ++ [d], inc := s.viewInc (unitDie u) owner, sent := s.clock } ∧
        t.rqer u = (s.rqer u).take o ∧ d.rtx = false ∧ d.sent = s.clock ∧ d.ack = (s.rqer u).ack ∧ d.inc = s.viewInc (unitDie u) owner))

/-- A commit, in a context that neither records nor is re-executed. A prepare packet that its slice performs reserves a lane's words there once none is
held by another lane and the reads still hold their values; a lane whose read has changed is answered with the abort's code; one whose word is held
waits, and is answered so after 4,096 cycles, or at once where 64 lanes wait. The reply aborts the lanes that were turned away and sends the packet of
the next slice, or decides: the surviving lanes' commit messages go out and the fence's acquire half is performed. A commit message writes the
lane's bytes at the slice and releases its words there; an abort message releases them; each is answered as an operation with a serial (05, R126, R141;
12, R303). -/
def Obligations.CommitSteps : Prop :=
  ∀ (s : State) (gs : Nat) (g : Group) (r : TxRun), Tbl.find s.groups gs = some g → g.txe = some r →
    let does := fun (e : Instr) (t : State) => exec e s = .next t
    let others := fun (t : State) => t.mem = s.mem ∧ ∀ k, k ≠ gs → Tbl.find t.groups k = Tbl.find s.groups k
    let has := fun (t : State) (x : TxRun) => ∃ h, Tbl.find t.groups gs = some h ∧ h.txe = some x
    let answered := fun (t : State) (id : Nat) (q : Req) (c : Copy) (code : Nat) => ∃ p : Req, Tbl.find t.reqs id = some p ∧ p.stage = .performed ∧
      p.accs = q.accs.map (fun a => { a with perf := true, err := code }) ∧ p.reply = some (.value p.accs) ∧ p.copies = q.copies.filter (fun x => x.id != c.id)
    let byteAfter := fun (old : Nat → Byte) (cells : List (Nat × Byte)) (pa : Nat) => ((cells.reverse.find? (fun c => c.1 == pa)).map (·.2)).getD (old pa)
    (s.txArrived gs TxMsg.isPrepare = none → does (.txPrepare gs) s) ∧
    (∀ id q c ser L, s.txArrived gs TxMsg.isPrepare = some (id, q, c, ser) → Tbl.find s.reqs id = some q → (∀ l ∈ q.lines, Tbl.find s.owners l = none) → q.reply = none → q.accs ≠ [] →
      (∀ a ∈ q.accs, a.lane = L ∧ a.perf = false ∧ a.err = 0) → inMask r.lanes L = true → r.waiting.all (fun x => x.1 != L) = true →
      let sl := txSlice (q.memAt.getD 0)
      let ws := (g.txLane L).at_ sl
      let fits := (s.locks.filter (fun l => txSlice l.1 == sl)).length + ws.length ≤ 1024 ∧
        ∀ x ∈ ws, Tbl.find s.locks x.pa = none ∨ Tbl.find s.locks x.pa = some (gs, L)
      (fits → (∀ x ∈ ws, ∀ v ∈ x.rd, v = s.rd8 x.pa) → r.prepared.find? (fun p => p.1 == sl) = none →
        ∃ t, does (.txPrepare gs) t ∧ others t ∧ (∀ x ∈ ws, Tbl.find t.locks x.pa = some (gs, L)) ∧ answered t id q c 0 ∧
          has t { r with prepared := r.prepared ++ [(sl, 1#32 <<< L)] }) ∧
      (fits → (∃ x ∈ ws, ∃ v ∈ x.rd, v ≠ s.rd8 x.pa) → ∃ t, does (.txPrepare gs) t ∧ others t ∧ t.locks = s.locks ∧ answered t id q c 1 ∧ has t r) ∧
      (¬ fits → s.txQueue sl < 64 → ∃ t, does (.txPrepare gs) t ∧ others t ∧ t.locks = s.locks ∧ t.reqs = s.reqs ∧
        has t { r with waiting := r.waiting ++ [(L, s.clock)] }) ∧
      (¬ fits → 64 ≤ s.txQueue sl → ∃ t, does (.txPrepare gs) t ∧ others t ∧ t.locks = s.locks ∧ answered t id q c 5 ∧ has t r)) ∧
    (∀ id q c ser L b, s.txArrived gs TxMsg.isPrepare = some (id, q, c, ser) → Tbl.find s.reqs id = some q → r.waiting = [(L, b)] → q.reply = none →
      (s.clock < b + 4096 → does (.txPrepareTimeout gs L) s) ∧
      (b + 4096 ≤ s.clock → (∀ a ∈ q.accs, a.lane = L ∧ a.perf = false) → ∃ t, does (.txPrepareTimeout gs L) t ∧ others t ∧ answered t id q c 5 ∧
        has t { r with waiting := [] })) ∧
    (let back := (s.txMsgs gs TxMsg.isPrepare).find? (fun e => e.2.stage == .performed && e.2.serial.isNone)
     let left := fun (m : Mask) => (r.todo.drop 1).filter (fun sl => (laneList m).any (fun L => !((g.txLane L).at_ sl).isEmpty))
     (back = none → does (.txPrepareReply gs) s) ∧
     (∀ id q sl l, back = some (id, q) → (∀ a ∈ q.accs, a.err = 0) → left r.lanes = sl :: l →
        ∃ t, does (.txPrepareReply gs) t ∧ others t ∧ has t { r with todo := sl :: l, waiting := [] } ∧
          ∃ p : Req, Tbl.find t.reqs (s.fresh + 1) = some p ∧ p.txMsg = some (gs, .prepare sl) ∧ p.core = coreOf gs ∧
            ∀ a, (∃ b ∈ p.accs, a = (b.lane, b.locs)) ↔ ∃ L, inMask r.lanes L = true ∧ L < 32 ∧ ∃ x ∈ (g.txLane L).at_ sl, a = (L, [.mem x.pa])) ∧
     (∀ id q sl l L code, back = some (id, q) → q.accs ≠ [] → (∀ a ∈ q.accs, a.lane = L ∧ a.err = code) → code ≠ 0 → L < 32 → (g.txLane L).open_ = true →
        left (r.lanes &&& ~~~(1#32 <<< L)) = sl :: l → ∃ t h, does (.txPrepareReply gs) t ∧ others t ∧ Tbl.find t.groups gs = some h ∧
          h.txe = some { r with lanes := r.lanes &&& ~~~(1#32 <<< L), todo := sl :: l, waiting := [] } ∧ (h.txLane L).doomed = true) ∧
     (∀ id q p, back = some (id, q) → (∀ a ∈ q.accs, a.err = 0) → left r.lanes = [] → g.slot (txSlot g) = some p → p.phase = .commit →
        (s.space (s.spidOf g)).records = false → (s.space (s.spidOf g)).replay = none → r.lanes ≠ 0#32 →
        ∃ t, does (.txPrepareReply gs) t ∧ others t ∧ (t.core (coreOf gs)).l1 = [] ∧ has t { r with waiting := [], decided := true } ∧
          ∀ L sl, inMask r.lanes L = true → L < 32 → sl ∈ txSlices g [L] → ∃ k q, Tbl.find t.reqs k = some q ∧ q.txMsg = some (gs, .commit sl L))) ∧
    (∀ L sl id q c ser, s.txArrived gs (· == .abort sl L) = some (id, q, c, ser) → Tbl.find s.reqs id = some q → q.reply = none →
      ∃ t, does (.txAbortMessage gs L sl) t ∧ others t ∧ (∀ e, e ∈ t.locks ↔ e ∈ s.locks ∧ ¬ (txSlice e.1 = sl ∧ e.2 = (gs, L))) ∧ has t r ∧
        ∃ p : Req, Tbl.find t.reqs id = some p ∧ p.stage = .performed ∧ p.reply = some (.value p.accs)) ∧
    (∀ L sl, s.txArrived gs (· == .abort sl L) = none → does (.txAbortMessage gs L sl) s) ∧
    (∀ L sl id q c ser n, s.txArrived gs (· == .commit sl L) = some (id, q, c, ser) → Tbl.find s.reqs id = some q → q.reply = none → q.txSectors g = [n] → q.mask = 1#32 <<< L → L < 32 →
      (∀ l ∈ q.lines, Tbl.find s.owners l = none) → s.mayPerform id q (.sector n) = true → (∀ a ∈ q.accs, s.overlap q.asOwn a = none) →
      (s.space q.spid).records = false → (s.space q.spid).replay = none → r.mode = 0#2 →
      let x := q.txSector g r n
      let cells := (((g.txLane L).words.filter (fun w => w.pa / 64 == n)).flatMap fun w =>
        ((List.range 8).filter (fun i => w.wmask.getLsbD i)).map fun i => (w.pa + i, w.wdata.extractLsb' (8 * i) 8))
      (∀ a ∈ x.accs, s.overlap x a = none) → (∀ e ∈ cells, s.barred e.1 = false) →
      ∃ t, does (.txCommitMessage gs L sl) t ∧ (∀ pa, t.byte pa = byteAfter s.byte cells pa) ∧
        (∀ e, e ∈ t.locks ↔ e ∈ s.locks ∧ ¬ (txSlice e.1 = sl ∧ e.2 = (gs, L))) ∧
        (∃ seen, has t { r with seen := seen }) ∧ ∃ p : Req, Tbl.find t.reqs id = some p ∧ p.stage = .performed ∧ p.reply = some (.value p.accs))

/-- The Felts. A live publication sends its next segment as an update of the whole segment, under its core's next serial; the oldest entry leaves
where it is due or 256 cycles old, with one update for the publication that covers it, of the bytes that no snapshot has carried, or with an append to
its spill log of 4,096 slots; a subscription that takes an update has it as LAST, with the bytes of the mask written at once and the segment's
watermark cleared, drops one that it has had, and breaks where the segment could not be read; detaching sets the publication to log and ends once the
acknowledgement has come through the stream; attaching holds the publication and, once its appends are acknowledged, takes its count of logged
updates, an empty log is replayed at once, and resuming makes both live again; a removal drains what the publisher holds and frees both entries (06,
R159, R161, R162, R164 to R167, R170, R171; 04, R101; 05, R130). -/
def Obligations.FeltSteps : Prop :=
  ∀ (s : State),
    let does := fun (e : Instr) (t : State) => exec e s = .next t
    let entry := fun (t : State) (core k : Nat) => Tbl.find (t.core core).subs k
    (∀ core ix p, Tbl.find (s.core core).pubs ix = some p → p.st = .live → p.remove = false → p.next < p.len → s.wgHalted p.wg = false → (s.core core).bad = [] →
      ((s.rqer core).mustHold (feltOwner (s.subCore core p)) = true → does (.snapshotSegment core ix) s) ∧
      ((s.rqer core).mustHold (feltOwner (s.subCore core p)) = false → ∃ t u, does (.snapshotSegment core ix) t ∧ t.mem = s.mem ∧ t.upds = s.upds ++ [u] ∧ u.src = core ∧ u.dst = s.subCore core p ∧ u.handle = p.shdl ∧ u.seg = p.next ∧
        u.mask = BitVec.allOnes 64 ∧ u.data = s.lsBytes core ((s.pubBase p + p.next) * 64) 64 ∧ u.ser = (s.rqer core).next ∧ u.snap = true ∧
        (u.lastSnap = true ↔ p.next + 1 = p.len) ∧ Tbl.find (t.core core).pubs ix = some { p with next := p.next + 1 })) ∧
    (∀ core e l ix p, (s.core core).felt = e :: l → s.haltedPubs core = [] → (s.core core).pubs.filter (fun x => s.pubCovers x.2 e.seg) = [(ix, p)] →
      e.mask &&& ~~~(Tbl.get 0#64 e.sent ix) ≠ 0#64 → core < 768 →
      let mine := fun (u : Upd) => u.src = core ∧ u.dst = s.subCore core p ∧ u.handle = p.shdl ∧ u.seg = e.seg - s.pubBase p ∧
        u.mask = e.mask &&& ~~~(Tbl.get 0#64 e.sent ix) ∧ u.data = e.data ∧ u.ser = (s.rqer core).next ∧ u.snap = false ∧ u.srcs = e.srcs ∧ u.drains = e.drains
      let leaves := fun (i : Instr) => ∃ t u, does i t ∧ t.mem = s.mem ∧ (t.core core).felt = l ∧ t.upds = s.upds ++ [u] ∧ mine u ∧ u.log = none
      let logs := fun (i : Instr) => ∃ (t : State) (u : Upd) (k : Nat) (q : Req), does i t ∧ t.mem = s.mem ∧ (t.core core).felt = l ∧ t.upds = s.upds ++ [u] ∧ mine u ∧
        u.log = some k ∧ Tbl.find t.reqs k = some q ∧ q.logs = true ∧ q.serial = some u.ser ∧ q.core = core ∧ q.stage = .mesh ∧
        q.accs = putAccs false (p.lbase + 128 * p.logn) (spillSlot u.ser u.seg u.mask u.data) ∧
        Tbl.find (t.core core).pubs ix = some { p with logn := p.logn + 1 }
      let full := fun (i : Instr) => ∃ t, does i t ∧ t.mem = s.mem ∧ (t.core core).felt = l ∧ t.upds = s.upds ∧
        Tbl.find (t.core core).pubs ix = some { p with st := .broken }
      let evicts := fun (i : Instr) =>
        (p.st = .live → (s.rqer core).mustHold (feltOwner (s.subCore core p)) = false → leaves i) ∧
        (p.st = .live → (s.rqer core).mustHold (feltOwner (s.subCore core p)) = true → does i s) ∧
        (p.st = .log → p.logn < 4096 → (s.rqer core).mustHold (ownerOf (p.lbase + 128 * p.logn)) = false → logs i) ∧
        (p.st = .log → p.logn < 4096 → (s.rqer core).mustHold (ownerOf (p.lbase + 128 * p.logn)) = true → does i s) ∧
        (p.st = .log → 4096 ≤ p.logn → full i) ∧ (p.st = .held → does i s)
      (e.due = true → evicts (.feltEviction core)) ∧ (e.due = false → does (.feltEviction core) s) ∧
      (e.born + 256 ≤ s.clock → evicts (.feltEntryAgeExpiry core)) ∧ (s.clock < e.born + 256 → does (.feltEntryAgeExpiry core) s)) ∧
    (∀ src dst u e, s.upds.find? (fun x => x.src == src && x.dst == dst && x.log.isNone) = some u → u.ackDetach = false →
      entry s dst u.handle = some e → e.st = .active → (s.core dst).bad = [] →
      (u.unreadable = true → ∃ t, does (.feltUpdateApply src dst) t ∧ t.mem = s.mem ∧ entry t dst u.handle = some { e with st := .broken, msg := 0 }) ∧
      (u.unreadable = false → (u.ser - e.last).toNat < 2 ^ 15 → u.ser ≠ e.last → ∃ t, does (.feltUpdateApply src dst) t ∧ t.mem = s.mem ∧ t.upds = s.upds.filter (fun x => x.id != u.id) ∧
        entry t dst u.handle = some { e with last := u.ser } ∧ t.lsWm dst (s.subBase e + u.seg) = 0#16 ∧
        (∀ i, i < 64 → t.lsByte dst ((s.subBase e + u.seg) * 64 + i) = if u.mask.getLsbD i then u.data.getD i 0#8 else
          s.lsByte dst ((s.subBase e + u.seg) * 64 + i)) ∧
        ∀ x, (x < (s.subBase e + u.seg) * 64 ∨ (s.subBase e + u.seg) * 64 + 64 ≤ x) → t.lsByte dst x = s.lsByte dst x) ∧
      (u.unreadable = false → serLe u.ser e.last = true → ∃ t, does (.feltUpdateApply src dst) t ∧ t.mem = s.mem ∧ t.upds = s.upds.filter (fun x => x.id != u.id) ∧
        entry t dst u.handle = some e ∧ ∀ x, t.lsByte dst x = s.lsByte dst x)) ∧
    (∀ core k e ix p, entry s core k = some e → e.st = .detaching → s.pubCore core e ≠ core → s.pubOf core k e = some (ix, p) →
      Tbl.find (s.core (s.pubCore core e)).pubs ix = some p → p.st = .live → e.msg = msgDetach →
        ∃ t u, does (.detachMessage core k) t ∧ t.mem = s.mem ∧ entry t core k = some { e with msg := 2 } ∧ t.upds = s.upds ++ [u] ∧ u.ackDetach = true ∧
          u.dst = core ∧ u.handle = k ∧ Tbl.find (t.core (s.pubCore core e)).pubs ix = some { p with st := .log, logn := 0, lbase := e.spill }) ∧
    (∀ core k e u, entry s core k = some e → e.st = .detaching → s.upds.find? (fun u => u.src == s.pubCore core e && u.dst == core && u.log.isNone) = some u →
      (u.ackDetach = true → u.handle = k → ∃ t, does (.detachAcknowledgement core k) t ∧ t.mem = s.mem ∧ entry t core k = some { e with st := .spilled, msg := 0 } ∧
        t.upds = s.upds.filter (fun x => x.id != u.id)) ∧
      (u.ackDetach = false → does (.detachAcknowledgement core k) s)) ∧
    (∀ core k e ix p, entry s core k = some e → e.st = .replay → e.msg = msgAttach → s.pubCore core e ≠ core → s.pubOf core k e = some (ix, p) →
      (∀ w, Tbl.find s.wgs e.pwg = some w → w.resident = true ∨ w.gone = true) → Tbl.find (s.core (s.pubCore core e)).pubs ix = some p →
      let appends := s.upds.any (fun u => u.log.isSome && u.swg == e.wg && u.handle == k)
      (p.st ≠ .broken → appends = true → ∃ t, does (.attachMessage core k) t ∧ t.mem = s.mem ∧ entry t core k = some e ∧
        Tbl.find (t.core (s.pubCore core e)).pubs ix = some { p with st := .held }) ∧
      (p.st ≠ .broken → appends = false → ∃ t, does (.attachMessage core k) t ∧ t.mem = s.mem ∧ entry t core k = some { e with msg := msgReply, acks := 0, logn := p.logn, spill := p.lbase } ∧
        Tbl.find (t.core (s.pubCore core e)).pubs ix = some { p with st := .held }) ∧
      (p.st = .broken → ∃ t, does (.attachMessage core k) t ∧ t.mem = s.mem ∧ entry t core k = some { e with msg := msgReply, acks := 1 })) ∧
    (∀ core k e, entry s core k = some e → e.st = .replay → e.msg = msgReply →
      (e.acks = 1 → ∃ t, does (.attachReply core k) t ∧ t.mem = s.mem ∧ entry t core k = some { e with st := .broken, msg := 0 }) ∧
      (e.acks ≠ 1 → e.logn = 0 → e.lost = false → ∃ t, does (.attachReply core k) t ∧ t.mem = s.mem ∧ entry t core k = some { e with msg := msgResume })) ∧
    (∀ core k e ix p, entry s core k = some e → e.st = .replay → e.msg = msgResume → s.pubCore core e ≠ core → s.pubOf core k e = some (ix, p) →
      Tbl.find (s.core (s.pubCore core e)).pubs ix = some p → ∃ t, does (.resumeMessage core k) t ∧ t.mem = s.mem ∧
        entry t core k = some { e with st := if p.len ≤ p.next then .active else .snap, msg := 0 } ∧
        Tbl.find (t.core (s.pubCore core e)).pubs ix = some { p with st := .live, lbase := 0, logn := 0 }) ∧
    (∀ core k e, entry s core k = some e → e.st = .replay → e.msg = msgResume → s.pubOf core k e = none →
      ∃ t, does (.resumeMessage core k) t ∧ t.mem = s.mem ∧ entry t core k = some { e with st := .detached, msg := 0 }) ∧
    (∀ core k e ix p, entry s core k = some e → e.st = .drain → s.pubCore core e ≠ core → s.pubOf core k e = some (ix, p) →
      Tbl.find (s.core (s.pubCore core e)).pubs ix = some p →
      (e.msg = msgRemove → ∃ t, does (.unsubRemoval core k) t ∧ t.mem = s.mem ∧ entry t core k = some { e with msg := msgDrain } ∧
        Tbl.find (t.core (s.pubCore core e)).pubs ix = some { p with remove := true, next := p.len }) ∧
      (e.msg ≠ msgRemove → (s.core (s.pubCore core e)).felt.any (fun f => f.due && s.pubCovers p f.seg) = false → s.upds.any (fun u => u.dst == core && u.handle == k && u.log.isNone) = false →
        ∃ t, does (.unsubRemoval core k) t ∧ t.mem = s.mem ∧ entry t core k = none ∧ Tbl.find (t.core (s.pubCore core e)).pubs ix = none))

/-- The engines. The operation at the head of a matrix queue runs where it heads the queues of all its cores: its tiles are written and its bytes
sent, or its failure is recorded; arrivals at a quad that are 2^24 cycles old leave, and each team takes the fault; a copy reads its next chunk and
writes it to each target that has not failed, and is over with its last; a chunk of a collective counts once; a collective that all its ranks have
joined and all whose chunks are combined, or that has ended, is finished for every participant and then gone; an abort token ends every unfinished
collective of its communicator and attempt, and the next attempt is the current one (12, R304 to R306; 13, R314, R327; 14, R350 to R352). -/
def Obligations.EngineSteps : Prop :=
  ∀ (s : State),
    let does := fun (e : Instr) (t : State) => exec e s = .next t
    (∀ core, ((s.core core).eng = [] ∨ ∃ op l, (s.core core).eng = op :: l ∧
      (s.wgHalted op.wg = true ∨ ∃ c ∈ op.cores, ((s.core c).eng.head?.map (·.id)) ≠ some op.id)) → does (.matrixOperation core) s) ∧
    (∀ core op l, (s.core core).eng = op :: l → s.wgHalted op.wg = false → (∀ c ∈ op.cores, ((s.core c).eng.head?.map (·.id)) = some op.id) →
      let a := s.agentOf op.gs op.wg false op.pc op.id
      (∀ w, op.out = some w → does (.matrixOperation core) (s.matOut a op w)) ∧
      (op.out = none →
        (∀ e, s.matCompute op = .ok e → does (.matrixOperation core) ((e.tiles.foldl State.putTile s).matOut a op (e.out.flatMap fun x => sectorPieces x.1 x.2))) ∧
        (∀ c ad, s.matCompute op = .bad c ad → does (.matrixOperation core) (s.failMat op c ad)))) ∧
    (∀ quad qj, (∀ a ∈ s.quads, a.quad = quad → a.qj = qj → s.clock < a.since + 2 ^ 24) → does (.quadArrivalTimeout quad qj) s) ∧
    (∀ a p, s.quads = [a] → a.parts = [p] → a.since + 2 ^ 24 ≤ s.clock →
      does (.quadArrivalTimeout a.quad a.qj) ({ s with quads := [] }.teamFault p.wg (({ s with quads := [] } : State).teamOfPart p).ix)) ∧
    (∀ core op x so d n l s1 s2, (s.core core).cpq = [op] → s.wgHalted op.wg = false → op.tgts = [x] → x.fault = none → x.wait = [] → op.next = some (so, d, n) →
      let a := s.agentOf op.gs op.wg op.sup op.pc op.id
      s.spent a.part 6 core = false → (s.spend a.part 6 core n).getPieces a op.ext (op.src.toNat + so) (n / 16) = (.ok l, s1) →
      s1.putPieces a op.ext (op.dstAt x.ix d) 0 (piecesAt (op.dstAt x.ix d) l) = .done s2 →
      does (.copyChunk core) (if op.step.next = none then s2.finishCopy a core op.step else
        s2.updCore core fun c => { c with cpq := c.cpq.map fun y => if y.id = op.id then op.step else y })) ∧
    (∀ core, (s.core core).cpq = [] → does (.copyChunk core) s) ∧
    (∀ k c p chunk, Tbl.find s.colls k = some c → c.joined = [p] → p.fin = false → c.code = 0 → chunk < c.chunks → c.needs p.rank = true → s.wgHalted p.wg = false →
      (c.parts.contains (p.rank, chunk) = true → does (.collectivePacket k p.rank chunk) s) ∧
      (∀ l s1, c.parts.contains (p.rank, chunk) = false →
        s.getPieces (s.agentOf p.gs p.wg p.sup p.pc p.id) false (p.src + 128 * chunk) ((min 128 (p.len - 128 * chunk) + 15) / 16) = (.ok l, s1) → s1.colls = s.colls →
        ∃ t, does (.collectivePacket k p.rank chunk) t ∧ t.mem = s1.mem ∧
          Tbl.find t.colls k = some (c.take p.rank chunk (collElems c.fmt (l.take (min 128 (p.len - 128 * chunk))))))) ∧
    (∀ k c, Tbl.find s.colls k = some c →
      (c.code = 0 → c.ready = false → does (.collectiveComplete k) s) ∧
      (c.code ≠ 0 ∨ c.ready = true → c.joined.all (·.fin) = true → c.code = 0x23 ∨ c.npart ≤ c.joined.length →
        does (.collectiveComplete k) { s with colls := Tbl.del s.colls k }) ∧
      (∀ p c1, c.code ≠ 0 ∨ c.ready = true → c.joined = [p] → Tbl.find (s.collPart k p).colls k = some c1 → c1.joined.all (·.fin) = true → c1.npart ≤ c1.joined.length →
        does (.collectiveComplete k) { s.collPart k p with colls := Tbl.del (s.collPart k p).colls k })) ∧
    (∀ comm att, (s.tokens.any (fun t => t.2 == (comm, att)) = true ∨ 2 ≤ s.sec.domain.length) → ∃ t, does (.abortToken comm att) t ∧ t.mem = s.mem ∧
      Tbl.find t.curAtt comm.toNat = some (att + 1#8) ∧ (∀ e ∈ t.tokens, e.2 ≠ (comm, att)) ∧
      ∀ k c, Tbl.find s.colls k = some c → Tbl.find t.colls k = some (if c.comm = comm ∧ c.att = att ∧ c.code = 0 then { c with code := 0x23 } else c)) ∧
    (∀ comm att, s.tokens.any (fun t => t.2 == (comm, att)) = false → s.sec.domain.length < 2 → does (.abortToken comm att) s)

/-- The life of a grid. A grid's next workgroups are started at the places the placement finds, when no other grid of the partition asks; each becomes
a workgroup of the grid, at its place, with the grid's next index, and the grid's number of placed ones grows. A grid that needs all its workgroups at
once and finds no place waits; nothing is placed for a grid that may not be. A grid that is over has its log read, then an entry applied at each step
as a sum at its target, then APPLIED written, or its context halted where the log is spoilt, and is then retired: its packet is complete. A preemption's deadline forces the groups of the grid; a checkpoint
begins where the record is nearly full and is finished once all is saved; a meter's period that has run out begins again with nothing counted; a halt
line stops its partition's units, and the halt is over once what ran in it has been drained and saved (05, R148, R149; 07, R174; 08, R209, R211 to
R215, R217; 15, R368 to R375; 17, R396). -/
def Obligations.GridSteps : Prop :=
  ∀ (s : State) (grid : Nat),
    let does := fun (e : Instr) (t : State) => exec e s = .next t
    (Tbl.find s.grids grid = none → does (.workgroupPlacement grid) s ∧ does (.reductionApplication grid) s ∧ does (.gridRetirement grid) s ∧
      does (.preemptionDeadline grid) s) ∧
    (∀ g, Tbl.find s.grids grid = some g → (∀ x ∈ s.grids, x.1 ≠ grid → x.2.part ≠ g.part) → s.restorable grid g = false →
      (s.placeable g = false → does (.workgroupPlacement grid) s) ∧
      (s.placeable g = true → s.nextPlaces grid g = none →
        does (.workgroupPlacement grid) (if g.cosched then s.updGrid grid fun g => { g with waits := true } else s)) ∧
      (∀ l, s.placeable g = true → s.nextPlaces grid g = some l → (s.space g.spid).replay = none →
        does (.workgroupPlacement grid) ((l.foldl (fun u p => u.startWg grid p) s).updGrid grid fun g => { g with waits := false })) ∧
      (∀ p, s.placeable g = true → s.nextPlaces grid g = some [p] → (s.space g.spid).replay = none → (s.space g.spid).records = false →
        ∃ (t : State) (w : Workgroup), does (.workgroupPlacement grid) t ∧ Tbl.find t.wgs (s.fresh + 1) = some w ∧
          w.grid = grid ∧ w.wgidx = g.next ∧ w.core = p.core ∧ w.ngrp = g.groups ∧ w.lsBase = 1024 * p.ls ∧ w.rank = g.next % g.gangSize ∧ t.mem = s.mem ∧
          ∃ g1, Tbl.find t.grids grid = some g1 ∧ g1.next = g.next + 1 ∧ g1.waits = false)) ∧
    (∀ g, Tbl.find s.grids grid = some g →
      (s.gridOver grid g = false → does (.reductionApplication grid) s ∧ does (.gridRetirement grid) s) ∧
      (∀ q, g.applied = false → g.retired = false → s.gridOver grid g = true → s.gridWrites grid = false → (s.space g.spid).st = .running →
        Tbl.find s.parts g.part = some q → q.halt = none → s.resvLeft grid = [] →
        (g.reds = none → s.logPoisoned g = true → does (.reductionApplication grid) (s.haltBy g.spid 7 0 0x28 0)) ∧
        (g.reds = none → s.logPoisoned g = false → s.owners = [] →
          does (.reductionApplication grid) ({ s with free := s.free + 1 }.updGrid grid fun g => { g with
            reds := some ((redOrder s.free (s.redEntries g)).map fun (e : RedEntry) => (e.pa, BitVec.ofNat 32 e.val)) })) ∧
        (∀ e l, g.reds = some (e :: l) →
          let sum := s.agentRmw (s.redSender grid g) e.1 4 .sum e.2.toNat 0
          (s.paExists e.1 = false → does (.reductionApplication grid) (s.haltBy g.spid 7 0 0x09 0x09)) ∧
          (s.paExists e.1 = true → (∀ c d, sum = .bad c d → does (.reductionApplication grid) (s.haltBy g.spid 7 0 c d)) ∧
            (∀ s1, sum = .wait s1 → does (.reductionApplication grid) s1) ∧
            (∀ old s1, sum = .ok (old, s1) → does (.reductionApplication grid) (s1.updGrid grid fun g => { g with reds := some l }))) ∧
          (s.paExists e.1 = true → s.remoteOwner (s.redSender grid g).unit e.1 = none → s.engFree e.1 4 = true → s.owners = [] → s.poisoned e.1 4 = false →
            e.1 % 64 ≤ 60 → (s.space g.spid).records = false → (s.space g.spid).replay = none → (∀ i, i < 4 → s.barred (e.1 + i) = false) →
            ∃ t, does (.reductionApplication grid) t ∧ Tbl.find t.grids grid = some { g with reds := some l } ∧
              (∀ i, i < 4 → t.byte (e.1 + i) = (toBytes 4 (f32.add .rne (s.rd e.1 4) e.2.toNat)).getD i 0#8) ∧
              ∀ a, (a < e.1 ∨ e.1 + 4 ≤ a) → t.byte a = s.byte a)) ∧
        (g.reds = some [] →
          let at_ := (g.word 0x48).toNat + 0x10
          (runPa g.rlog at_ = none → does (.reductionApplication grid) (s.updGrid grid fun g => { g with applied := true })) ∧
          (∀ pa s1, runPa g.rlog at_ = some pa →
            s.agentAll { s.redSender grid g with unc := runUnc g.rlog at_, strong := false } [(pa, toBytes 8 (s.redEntries g).length)] = .ok s1 →
            does (.reductionApplication grid) (s1.updGrid grid fun g => { g with applied := true, reds := none })))) ∧
      (g.retired = false → g.applied = true → s.gridOver grid g = true → s.gridWrites grid = false → (s.space g.spid).st = .running →
        (s.space g.spid).saved = [] →
        let sub := s.csig { spid := g.spid, part := g.part, phys := false, die := (s.redSender grid g).unit - 768, cls := g.cls, tag := 2 ^ 42 + grid }
          (g.word 0x40).toNat
        (∀ pk, g.packet = some pk → does (.gridRetirement grid)
          { s with packets := Tbl.upd s.packets pk fun p => { p with st := .finished }, grids := Tbl.del s.grids grid }) ∧
        (∀ s1, g.packet = none → sub = .ok s1 →
          does (.gridRetirement grid) (if s1.parentLives g then s1.updGrid grid fun g => { g with retired := true }
            else { s1 with grids := Tbl.del s1.grids grid })) ∧
        (∀ s1, g.packet = none → sub = .wait s1 → does (.gridRetirement grid) s1)) ∧
      ((s.space g.spid).st ≠ .preempting ∨ g.deadline = none → does (.preemptionDeadline grid) s) ∧
      (∀ d, (s.space g.spid).st = .preempting → g.deadline = some d → s.clock < d → does (.preemptionDeadline grid) s) ∧
      (∀ d, (s.space g.spid).st = .preempting → g.deadline = some d → d ≤ s.clock →
        ∃ t, does (.preemptionDeadline grid) t ∧ t.mem = s.mem ∧ t.wgs = s.wgs ∧ Tbl.find t.grids grid = some { g with deadline := none } ∧
          ∀ gs u w, Tbl.find s.groups gs = some u → gs % 16 ≠ 15 → Tbl.find s.wgs u.wg = some w → w.grid = grid →
            Tbl.find t.groups gs = some { u.txStop with forced := true })) ∧
    (∀ spid, ((s.space spid).checkpoints = true → does (.automaticCheckpoint spid) (s.finishSave spid)) ∧
      ((s.space spid).checkpoints = false → s.ckptDue spid = true → s.mayCkpt spid = true →
        does (.automaticCheckpoint spid) (s.beginSave spid (.ckpt none ((s.space spid).interval + 1#32) 2) true)) ∧
      ((s.space spid).checkpoints = false → s.ckptDue spid = false → does (.automaticCheckpoint spid) s)) ∧
    (∀ part q meter inst since n, Tbl.find s.parts part = some q → Tbl.find q.counts (meterKey meter inst) = some (since, n) →
      (since + 2 ^ (q.meter meter).period ≤ s.clock → ∃ t, does (.meterPeriodStart part meter inst) t ∧ t.mem = s.mem ∧
        ∃ q1, Tbl.find t.parts part = some q1 ∧ q1.halt = q.halt ∧ q1.meters = q.meters ∧
          Tbl.find q1.counts (meterKey meter inst) = some (since + 2 ^ (q.meter meter).period, 0)) ∧
      (s.clock < since + 2 ^ (q.meter meter).period → ∃ t, does (.meterPeriodStart part meter inst) t ∧ Tbl.find t.parts part = some q)) ∧
    (∀ part q, Tbl.find s.parts part = some q →
      (q.halt = none → does (.haltLine part) s ∧ does (.haltDrainComplete part) s) ∧
      (∀ h, q.halt = some h → (h.stopped = true → does (.haltLine part) s) ∧ (h.stopped = false → does (.haltDrainComplete part) s) ∧
        (h.stopped = true → (∀ k ∈ s.liveSpaces part, ∃ c ∈ h.causes, c.spid = k) → (∀ k ∈ s.liveSpaces part, s.drained k = true) →
          does (.haltDrainComplete part) (((s.liveSpaces part).foldl State.dump s).updPart part fun p => { p with halt := none })) ∧
        (h.stopped = false → (∀ c ∈ s.cores, c.2.eng = []) → (∀ c ∈ s.partCores part, (s.core c).pubs = []) → s.colls = [] →
          ∃ t q1, does (.haltLine part) t ∧ t.mem = s.mem ∧ t.wgs = s.wgs ∧ Tbl.find t.parts part = some q1 ∧
            q1.halt = some { h with
              skid := min 128 (s.clock - h.since), stopped := true
              engs := ((s.liveSpaces part).filter fun k => h.causes.any fun c => c.spid == k).flatMap (s.engStops part) } ∧
            ∀ k ∈ s.liveSpaces part, (∀ c ∈ h.causes, c.spid ≠ k) → (t.space k).st = .preempting)))

/-- Queues and their packets. A doorbell raises DB and never lowers it; a lane takes the packet at RD when the queue is ready and first: a header that
is not valid is read again 1,024 cycles later, an ill-formed packet halts its queue, a good one is copied into a lane, its units are zeroed and RD
advances. A packet that may start is served: NOP and QUIESCE are complete, SIGNAL updates its signal, a WAIT or BARRIER whose condition fails parks
until a retest, LAUNCH starts its grid or halts the queue, CKPT begins a checkpoint, COPY moves its bytes a piece at a time; one that must wait is
parked. A finished packet counts in DONE, lowers its completion signal and leaves (08, R199 to R207). -/
def Obligations.QueueSteps : Prop :=
  ∀ (s : State),
    let does := fun (e : Instr) (t : State) => exec e s = .next t
    let finished := fun (u : State) (pk : Nat) => u.updPk pk fun p => { p with st := .finished }
    let started := fun (u : State) (pk : Nat) => u.updPk pk fun p => { p with st := .started }
    let parked := fun (u : State) (pk : Nat) => u.updPk pk fun p => { p with st := .parked, since := s.clock + 1 }
    (∀ hwq v, (2 ^ 63 ≤ v.toNat ∨ ∀ q ∈ s.queues, q.2.hb = false ∨ q.2.hwq ≠ hwq ∨ q.2.st ≠ .active) → does (.doorbellWrite hwq v) s) ∧
    (∀ hwq v n c, v.toNat < 2 ^ 63 → s.queues.find? (fun q => q.2.hb && q.2.hwq == hwq && q.2.st == .active) = some (n, c) →
      Tbl.find s.queues n = some c → c.cached = true → ∃ t, does (.doorbellWrite hwq v) t ∧ t.mem = s.mem ∧
        Tbl.find t.queues n = some { c with db := max c.db v.toNat, reread := none } ∧
        ∀ pk p, Tbl.find s.packets pk = some p → Tbl.find t.packets pk =
          some (if p.queue = n ∧ p.safe = false ∧ p.st = .parked then { p with since := 0 } else p)) ∧
    (∀ n c, n ≠ safeQueue → Tbl.find s.queues n = some c →
      (s.queueReady n c = false ∨ s.queueFirst n c = false → does (.headboxLaneTake n) s) ∧
      (s.queueReady n c = true → s.queueFirst n c = true → c.cached = true →
        let r := { s with rr := Tbl.put s.rr (c.die * 4 + c.cls) (n + 1) }
        (∀ d, s.hbAddr c.hbFor false (c.unit c.rd) = .error d → does (.headboxLaneTake n) (r.haltQueue n 7 d c.rd)) ∧
        (∀ pa, s.hbAddr c.hbFor false (c.unit c.rd) = .ok pa → s.owned (headboxUnit c.die) pa 8 = true →
          does (.headboxLaneTake n) ((r.recallAll (headboxUnit c.die) pa 8).getD r)) ∧
        (∀ pa, s.hbAddr c.hbFor false (c.unit c.rd) = .ok pa → s.owned (headboxUnit c.die) pa 8 = false →
          (hdrTag (s.rd8 pa) ≠ c.rd % 2 ^ 16 ∨ hdrType (s.rd8 pa) = 0 →
            does (.headboxLaneTake n) (r.updQcb n fun c => { c with reread := some s.clock })) ∧
          (∀ e, hdrTag (s.rd8 pa) = c.rd % 2 ^ 16 → hdrType (s.rd8 pa) ≠ 0 → headerErr c (s.rd8 pa) = some e →
            does (.headboxLaneTake n) (r.haltQueue n e 0 c.rd)) ∧
          (∀ us, hdrTag (s.rd8 pa) = c.rd % 2 ^ 16 → hdrType (s.rd8 pa) ≠ 0 → headerErr c (s.rd8 pa) = none →
            s.unitsAt c (hdrLen (s.rd8 pa)) = .ok us →
            let l := us.flatMap fun pa => (List.range 8).map fun i => s.rd8 (pa + 8 * i)
            let zeroed := r.agentAll ((c.hbFor (zeroTag n)).sender (s.hbUnc c.hbFor (c.unit c.rd))) (us.map fun pa => (pa, toBytes 8 0))
            (∀ e, bodyErr l = some e → does (.headboxLaneTake n) (r.haltQueue n e 0 c.rd)) ∧
            (∀ s1, bodyErr l = none → zeroed = .wait s1 → does (.headboxLaneTake n) s1) ∧
            (∀ s1, bodyErr l = none → zeroed = .ok s1 → ∃ t pk, does (.headboxLaneTake n) t ∧
              Tbl.find t.packets pk = some { queue := n, idx := c.rd, typ := hdrType (s.rd8 pa), bar := bit (s.rd8 pa) 31, words := l } ∧
              Tbl.find t.queues n = some { c with rd := c.rd + hdrLen (s.rd8 pa) })))) ∧
      (∀ err det idx, c.st = .active → (∀ x ∈ s.queues, x.1 = n → x.2 = c) → Tbl.find (s.haltQueue n err det idx).queues n =
        some { c with st := .halted, err := BitVec.ofNat 8 err, det := BitVec.ofNat 8 det, erridx := idx, cached := true }) ∧
      (∀ since, c.reread = some since → since + 1024 ≤ s.clock → does (.headerRereadTimeout n) (s.updQcb n fun c => { c with reread := none })) ∧
      (c.reread = none → does (.headerRereadTimeout n) (s.updQcb n id))) ∧
    (∀ pk p c, Tbl.find s.packets pk = some p → p.safe = false → Tbl.find s.queues p.queue = some c →
      (s.mayStart p c = false → p.st ≠ .finished → does (.packetCompletion pk) s ∧ (p.typ = 1 → does (.nopPacket pk) s) ∧ (p.typ = 2 → does (.signal pk) s) ∧
        (p.typ = 3 → does (.wait pk) s) ∧ (p.typ = 9 → does (.quiesce pk) s)) ∧
      (s.mayStart p c = true → s.mustWait p c = true →
        let t := s.updPk pk fun p => { p with st := .parked, since := 0 }
        (p.typ = 1 → does (.nopPacket pk) t) ∧ (p.typ = 2 → does (.signal pk) t) ∧ (p.typ = 3 → does (.wait pk) t) ∧ (p.typ = 4 → does (.barrierAnd pk) t) ∧
          (p.typ = 5 → does (.barrierOr pk) t) ∧ (p.typ = 6 → does (.launchPacket pk) t) ∧ (p.typ = 9 → does (.quiesce pk) t)) ∧
      (s.mayStart p c = true → s.mustWait p c = false →
        let arg := fun (o : Nat) => (pkWord p.words o).toNat
        let named := ([8, 0x10, 0x18, 0x20, 0x28, 0x30].map arg).filter (· != 0)
        let stops := fun (e d : Nat) => (s.dropPk pk).haltQueue p.queue e d p.idx
        (p.typ = 1 → does (.nopPacket pk) (finished s pk)) ∧ (p.typ = 9 → does (.quiesce pk) (finished s pk)) ∧
        (p.typ = 2 →
          let op := bits (pkWord p.words 0x18) 1 0
          let o : AOp × Nat := if op = 0 then (.exch, arg 0x10) else if op = 1 then (.add, arg 0x10) else (.add, 2 ^ 64 - arg 0x10)
          let r := s.sigUpdate (c.hbFor pk) (arg 8) o.1 o.2
          (∀ s1, r = .ok s1 → does (.signal pk) (finished s1 pk)) ∧ (∀ s1, r = .wait s1 → does (.signal pk) s1) ∧
          (∀ e d, r = .bad e d → does (.signal pk) (stops e d))) ∧
        (p.typ = 3 → (∀ x, s.sigRead c.hbFor (arg 8) = .ok x →
            does (.wait pk) (if waitHolds (bits (pkWord p.words 0x18) 1 0) x (arg 0x10) then finished s pk else parked s pk)) ∧
          (∀ s1, s.sigRead c.hbFor (arg 8) = .wait s1 → does (.wait pk) s1) ∧
          (∀ e d, s.sigRead c.hbFor (arg 8) = .bad e d → does (.wait pk) (stops e d))) ∧
        (p.typ = 4 → (∀ l, s.signalsOf c.hbFor named = .ok l → does (.barrierAnd pk) (if ∀ x ∈ l, x = 0 then finished s pk else parked s pk)) ∧
          (∀ s1, s.signalsOf c.hbFor named = .wait s1 → does (.barrierAnd pk) s1) ∧
          (∀ e d, s.signalsOf c.hbFor named = .bad e d → does (.barrierAnd pk) (stops e d))) ∧
        (p.typ = 5 → (∀ l, s.signalsOf c.hbFor named = .ok l → does (.barrierOr pk) (if l = [] ∨ ∃ x ∈ l, x = 0 then finished s pk else parked s pk)) ∧
          (∀ s1, s.signalsOf c.hbFor named = .wait s1 → does (.barrierOr pk) s1) ∧
          (∀ e d, s.signalsOf c.hbFor named = .bad e d → does (.barrierOr pk) (stops e d))) ∧
        (p.typ = 6 →
          let g := { pkGrid p.words with part := c.part, spid := c.spid, sgen := c.sgen, packet := some pk }
          let s1 := s.beginInterval c.spid 0 ((s.space c.spid).interval + 1#32) p.words
          (∀ d, s.refusal g = some d → does (.launchPacket pk) ((s.dropPk pk).haltQueue p.queue 6 d p.idx)) ∧
          (∀ a s2, s.refusal g = none → s1.carryLaunch g = .ok a s2 → does (.launchPacket pk) (started s2 pk))) ∧
        (p.typ = 7 → p.st ≠ .started → does (.copy pk) (started s pk)) ∧
        (p.typ = 8 → p.st ≠ .started → s.mayCkpt c.spid = true →
          let n := (pkWord p.words 8).setWidth 32
          does (.ckpt pk) (if (s.space c.spid).rcdNext.on then started (s.beginSave c.spid (.ckpt (some pk) n 1) true) pk
            else finished (s.beginInterval c.spid 1 n []) pk))) ∧
      (∀ q, p.typ = 7 → p.st = .started → Tbl.find s.parts c.part = some q → q.halt = none →
        let src := (pkWord p.words 8).toNat + p.pos
        let dst := (pkWord p.words 0x10).toNat + p.pos
        let left := bits (pkWord p.words 0x18) 39 0 - p.pos
        let n := copyPiece src dst left
        let u := headboxUnit c.die
        (left = 0 → does (.copy pk) (finished s pk)) ∧
        (0 < left → s.spent c.part 6 u = true ∨ s.copyBehind p = true → does (.copy pk) s) ∧
        (0 < left → s.spent c.part 6 u = false → s.copyBehind p = false →
          (∀ d, s.hbAddr c.hbFor true dst = .error d → does (.copy pk) ((s.dropPk pk).haltQueue p.queue 7 d p.idx)) ∧
          (∀ a b, s.hbAddr c.hbFor true dst = .ok b → s.hbAddr c.hbFor false src = .ok a → s.owned u a n = false →
            let put := (s.readsAt c.spid (.mem a)).hbPut (c.hbFor pk) dst (s.rdBytes a n)
            (s.poisoned a n = true → does (.copy pk) ((s.dropPk pk).haltQueue p.queue 7 0 p.idx)) ∧
            (∀ t, s.poisoned a n = false → put = .ok t → does (.copy pk) (started ((t.spend c.part 6 u n).updPk pk fun p => { p with pos := p.pos + n }) pk)) ∧
            (∀ t, s.poisoned a n = false → put = .wait t → does (.copy pk) t)))) ∧
      (p.typ = 8 → p.st = .started → ((s.finishSave c.spid).space c.spid).st = .running → ((s.finishSave c.spid).space c.spid).saving = .none →
        ((s.finishSave c.spid).space c.spid).saved = [] → does (.ckpt pk) (finished (s.finishSave c.spid) pk)) ∧
      (p.st = .finished → c.cached = true →
        let ended := fun (u : State) => ((u.dropPk pk).cacheQ p.queue).updQcb p.queue fun c => { c with done := c.done + 1 }
        let sub := s.csig (c.hbFor pk) (pkCsig p)
        (∀ s1, p.typ ≠ 9 → sub = .ok s1 → does (.packetCompletion pk) (ended s1)) ∧
        (∀ s1, sub = .wait s1 → does (.packetCompletion pk) s1) ∧
        (∀ e d, sub = .bad e d → does (.packetCompletion pk) ((ended s).haltQueue p.queue e d p.idx)) ∧
        (∀ s1 c2, p.typ = 9 → sub = .ok s1 → Tbl.find (ended s1).queues p.queue = some c2 → c2.st = .active →
          does (.packetCompletion pk) ((ended s1).putQcb p.queue { c2 with st := .quiesced } false))) ∧
      (p.st = .parked → p.since ≠ 0 → (s.clock + 1 < p.since + 2048 → does (.waitRetest pk) s) ∧
        (p.since + 2048 ≤ s.clock + 1 →
          let s1 := s.updPk pk fun p => { p with since := 0 }
          (p.typ = 3 → does (.waitRetest pk) (s1.serveWait pk)) ∧ (p.typ = 4 → does (.waitRetest pk) (s1.serveBarrier pk 4 allZero)) ∧
            (p.typ = 5 → does (.waitRetest pk) (s1.serveBarrier pk 5 someZero)))))

/-- Management commands. A command that starts, at its turn, has its effect and is complete; one whose operands are invalid halts its queue with ERR
5, one whose memory the partition does not hold with ERR 7: queues are created, bound, unbound, reset and written back; spaces are created and torn
down; race mode, way masks, budgets and recording are set; translations are invalidated; counters are sampled. A pre-emption saves the context, a
resume runs it again, a release scrubs it, a stop at a point re-executes its interval; each of these goes on until what it began has ended (01, R36 to
R40; 08, R216 to R218; 15, R372 to R376; 17, R394, R403, R407). -/
def Obligations.ManagementPackets : Prop :=
  ∀ (s : State) (pk : Nat) (p : Packet) (c : Qcb), Tbl.find s.packets pk = some p → p.safe = false → Tbl.find s.queues p.queue = some c → p.typ = 0x0F →
    let does := fun (e : Instr) (t : State) => exec e s = .next t
    let finished := fun (u : State) => u.updPk pk fun p => { p with st := .finished }
    let started := fun (u : State) => u.updPk pk fun p => { p with st := .started }
    let stops := fun (err det : Nat) => (s.dropPk pk).haltQueue p.queue err det p.idx
    let n := (p.op 0x10).toNat
    (s.mayStart p c = true → s.mustWait p c = false →
      (p.cmd = 0x01 →
        let x := p.op 0x20
        let spid := bits x 63 56
        (∀ t, s.sec.qtab = some t → n < 2 ^ t.2 → (∀ q, Tbl.find s.queues n = some q → q.st = .free) → ringOk (p.op 0x18) = true → bits x 47 42 = 0 → bits x 39 0 = 0 →
          s.holdsSpace c.part spid = true → (s.space spid).torn = false → bits x 55 48 = (s.space spid).gen.toNat →
          ∃ u, does (.createQueue pk) (finished u) ∧ Tbl.find u.queues n = some (
            { base := (p.op 0x18).toNat / 2 ^ 12 * 2 ^ 12, lsz := bits (p.op 0x18) 4 0, spid, sgen := (s.space spid).gen, part := c.part, cls := bits x 41 40, st := .active } : Qcb)) ∧
        (s.holdsSpace c.part spid = false ∨ ringOk (p.op 0x18) = false → does (.createQueue pk) (stops 5 0))) ∧
      (p.cmd = 0x02 →
        let h := (p.op 0x18).toNat
        (∀ q, s.ownQueue c.part n = some q → q.hb = false → s.hwqBound h = false → s.hwqOk c.part h = true →
          does (.bindQueue pk) (finished (s.putQcb n { q with hb := true, hwq := h } true))) ∧
        (s.ownQueue c.part n = none ∨ s.hwqBound h = true ∨ s.hwqOk c.part h = false → does (.bindQueue pk) (stops 5 0))) ∧
      (p.cmd = 0x03 →
        (∀ q, s.ownQueue c.part n = some q → does (.unbindQueue pk) (finished (s.putQcb n { q with hb := false, hwq := 0, cached := false } true))) ∧
        (s.ownQueue c.part n = none → does (.unbindQueue pk) (stops 5 0))) ∧
      (p.cmd = 0x04 →
        let x := (p.op 0x18).toNat
        (∀ q, s.ownQueue c.part n = some q → (s.rd8 (s.qcbAt n)).toNat ≤ x → q.st = .halted ∨ q.st = .quiesced →
          does (.resetQueue pk) (finished (((s.dropQueued n).plainWrite 0 c.part false (s.qcbAt n) (toBytes 8 x)).putQcb n
            { q with rd := x, db := x, err := 0#8, det := 0#8, erridx := 0, st := .active, reread := none } true))) ∧
        (∀ q, s.ownQueue c.part n = some q → x < (s.rd8 (s.qcbAt n)).toNat → does (.resetQueue pk) (stops 5 0)) ∧
        (s.ownQueue c.part n = none → does (.resetQueue pk) (stops 5 0))) ∧
      (p.cmd = 0x05 → does (.flushControlBlocks pk) (finished
        ((s.queues.filter (fun q => q.2.part == c.part && q.2.cached)).foldl (fun u q => u.putQcb q.1 q.2 true) s))) ∧
      (p.cmd = 0x06 →
        let root := (p.op 0x18).toNat
        let area := (p.op 0x20).toNat
        let size := (p.op 0x28).toNat
        let spn := (p.op 0x30).toNat
        (1 ≤ n → n ≤ 255 → (s.space n).inUse = false → area ≠ 0 → area % 65536 = 0 → size % 65536 = 0 → size ≠ 0 → spn ≤ 4096 → root % 8192 = 0 →
          s.mgmtMem c root 8192 = true → s.mgmtMem c area size = true →
          does (.createSpace pk) (finished { s with spaces := Tbl.put s.spaces n { part := c.part, gen := (s.space n).gen, inUse := true, ptroot := p.op 0x18, area, size, spn } })) ∧
        ((s.space n).inUse = true ∨ root % 8192 ≠ 0 ∨ 4096 < spn → does (.createSpace pk) (stops 5 0))) ∧
      (p.cmd = 0x07 →
        (s.holdsSpace c.part n = true → (s.space n).torn = false →
          let s1 := s.updSpace n fun x => { x with torn := true }
          ((s.residentIn n || s.begunIn n) = false → ∃ t, does (.tearDownSpace pk) t ∧ t.mem = (s1.closeSpace n).mem ∧ t.spaces = (s1.closeSpace n).spaces) ∧
          ((s.residentIn n || s.begunIn n) = true → ∃ t, does (.tearDownSpace pk) t ∧ t.spaces = s1.spaces ∧ t.queues = s.queues ∧ t.mem = s.mem ∧
            Tbl.find t.packets pk = some { p with st := .started })) ∧
        (s.holdsSpace c.part n = false → does (.tearDownSpace pk) (stops 5 0))) ∧
      (p.cmd = 0x08 →
        let spid := (p.op 0x28).toNat
        let log := (p.op 0x18).toNat
        let size := (p.op 0x20).toNat
        (s.holdsSpace c.part spid = true → n ≤ 2 →
          (log = 0 → n ≠ 2 → does (.setRaceMode pk) (finished (s.updSpace spid fun x => { x with mode := BitVec.ofNat 2 n, log := 0, logSize := 0 }))) ∧
          (∀ i, log ≠ 0 → log % 128 = 0 → i < 13 → size = 2 ^ (12 + i) → s.mgmtMem c log size = true →
            does (.setRaceMode pk) (finished (s.updSpace spid fun x => { x with mode := BitVec.ofNat 2 n, log, logSize := size })))) ∧
        (s.holdsSpace c.part spid = false → does (.setRaceMode pk) (stops 5 0))) ∧
      (p.cmd = 0x09 →
        let x := p.op 0x10
        (bits x 63 28 = 0 → bits x 15 12 = 0 → bits x 11 0 ≠ 0 → bits x 27 16 ≠ 0 → does (.setWayMasks pk) (finished (s.updPart c.part fun p =>
          { p with l2mask := BitVec.ofNat 12 (bits x 11 0), rdcmask := BitVec.ofNat 12 (bits x 27 16) }))) ∧
        (bits x 11 0 = 0 ∨ bits x 27 16 = 0 → does (.setWayMasks pk) (stops 5 0))) ∧
      (p.cmd = 0x0A →
        let k := (p.op 0x18).toNat
        (n ≤ 7 → 10 ≤ k → k ≤ 24 → does (.setBudget pk) (finished (s.updPart c.part fun x =>
          { x with meters := Tbl.put x.meters n { period := k, budget := p.op 0x20 }, counts := x.counts.filter (fun e => e.1 / 2 ^ 12 != n) }))) ∧
        (7 < n ∨ k < 10 ∨ 24 < k → does (.setBudget pk) (stops 5 0))) ∧
      (p.cmd = 0x0B → (s.space n).checkpoints = false → (s.space n).saved = [] →
        (s.holdsSpace c.part n = true → (s.space n).st = .running → s.needed n ≤ (s.space n).limit →
          let t := (started (s.beginSave n (.preempt pk) false)).finishSave n
          does (.preEmptContext pk) (if (t.space n).st = .preempting then started t else finished t)) ∧
        (s.holdsSpace c.part n = false ∨ (s.space n).st ≠ .running ∨ (s.space n).limit < s.needed n → does (.preEmptContext pk) (stops 5 0))) ∧
      (p.cmd = 0x0C → ∀ r, r < 2 → (p.op 0x18).toNat = r → s.holdsSpace c.part n = true → (s.space n).st = .saved ∨ (s.space n).st = .halted →
        (s.space n).restart = true → r = 0 ∨ (s.space n).log ≠ 0 →
        (∀ d, s.resumeTest c.part n = some d → does (.resumeContext pk) (stops 6 d)) ∧
        (s.resumeTest c.part n = none → (s.resumeNow n pk (decide (r = 1))).packets = s.packets → (s.resumeNow n pk (decide (r = 1))).queues = s.queues →
          ((s.resumeNow n pk (decide (r = 1))).space n).saved ≠ [] → ((s.resumeNow n pk (decide (r = 1))).space n).st = .running →
          does (.resumeContext pk) (started (started (s.resumeNow n pk (decide (r = 1))))))) ∧
      (p.cmd = 0x0D →
        (s.holdsSpace c.part n = false ∨ (s.space n).st = .released ∨ s.auditFull 80 = true → does (.releaseContext pk) (stops 5 0)) ∧
        (s.holdsSpace c.part n = true → (s.space n).st ≠ .released → s.auditFull 80 = false → (s.releaseStop n).packets = s.packets → (s.releaseStop n).queues = s.queues →
          (started (s.releaseStop n)).drained n = false → does (.releaseContext pk) (started (started (s.releaseStop n))))) ∧
      (p.cmd = 0x0F →
        (∀ r, recordingOf p = some r → s.holdsSpace c.part n = true →
          does (.setRecording pk) (if s.mgmtMem c r.base r.size then finished (s.updSpace n fun x => { x with rcdNext := r }) else stops 7 9)) ∧
        (recordingOf p = none ∨ s.holdsSpace c.part n = false → does (.setRecording pk) (stops 5 0))) ∧
      (p.cmd = 0x10 →
        (s.holdsSpace c.part n = false ∨ ((s.space n).st ≠ .saved ∧ (s.space n).st ≠ .halted) ∨ (s.space n).valid = false ∨ (s.space n).nr = true →
          does (.stopAtPoint pk) (stops 5 0)) ∧
        (s.holdsSpace c.part n = true → (s.space n).st = .saved ∨ (s.space n).st = .halted → (s.space n).valid = true → (s.space n).nr = false →
          bits (p.op 0x18) 31 21 = 0 → bits (p.op 0x18) 63 33 = 0 → (p.op 0x20).toNat < 2 ^ 32 → (p.op 0x28).toNat < 2 ^ 32 →
          let r : Replay := { grid := bits (p.op 0x18) 15 0, wgidx := (p.op 0x20).toNat, gidx := bits (p.op 0x18) 20 16, target := (p.op 0x28).setWidth 32, free := bit (p.op 0x18) 32, upto := (s.space n).pcnt, ends := ((s.space n).replay.map (·.ends)).getD (s.endsOf n) }
          let s2 := (s.applyUndo n).updSpace n fun p => { p with st := .running, saving := .none, resumePk := none, restart := true, replay := some r }
          let u := if (s.space n).start = 0 then s2.relaunch n else ((s.space n).begun.map (s2.restoreBase n)).getD s2
          ∀ r', Tbl.find u.packets pk = some p → Tbl.find u.queues p.queue = some c → (u.space n).st = .running → (u.space n).replay = some r' → r'.void = false →
            does (.stopAtPoint pk) (started (started u)))) ∧
      (p.cmd = 0x11 →
        let ks := (s.partCores c.part).flatMap fun n => (List.range 4).map fun i => 4 * n + i
        let own := fun (pa : Nat) => s.ownMem pa = true ∧ s.paExists pa = true ∧ ∃ q, Tbl.find s.parts c.part = some q ∧ q.holds pa = true
        (n % 256 ≠ 0 → does (.sampleCounters pk) (stops 5 0)) ∧
        (n % 256 = 0 → own n → own (n + 256 * ks.length - 1) →
          does (.sampleCounters pk) (finished (s.plainWrite 0 c.part false n (wordBytes (ks.flatMap s.counterRecord))))) ∧
        (n % 256 = 0 → ¬ own n → does (.sampleCounters pk) (stops 7 9))) ∧
      (p.cmd = 0x12 →
        (s.holdsSpace c.part n = true → (p.op 0x20).toNat ≤ 1 →
          does (.invalidateTranslations pk) (finished (s.invalidate c.part n (if p.op 0x20 = 1#64 then none else some ((p.op 0x18).toNat % 2 ^ 56))))) ∧
        (s.holdsSpace c.part n = false ∨ 1 < (p.op 0x20).toNat → does (.invalidateTranslations pk) (stops 5 0)))) ∧
    (p.st = .started →
      (p.cmd = 0x07 → does (.tearDownSpace pk) (if s.residentIn n || s.begunIn n then started s else finished (s.closeSpace n))) ∧
      (p.cmd = 0x0B → does (.preEmptContext pk)
        (if ((s.finishSave n).space n).st = .preempting then started (s.finishSave n) else finished (s.finishSave n))) ∧
      (p.cmd = 0x0C → (s.space n).resumePk = some pk → (s.space n).st = .running →
        does (.resumeContext pk) (if (s.space n).saved = [] then finished (s.updSpace n fun p => { p with resumePk := none }) else started s)) ∧
      (p.cmd = 0x0D → does (.releaseContext pk)
        (if s.drained n then finished ((s.scrub n).audit 4 (toBytes 8 c.part ++ toBytes 8 n)) else started s)) ∧
      (p.cmd = 0x10 → ((s.space n).st = .saved ∨ (s.space n).st = .halted → does (.stopAtPoint pk) (finished s)) ∧
        (∀ r, (s.space n).st = .running → (s.space n).replay = some r → r.void = false → does (.stopAtPoint pk) (started s))))

/-- The safe function. A packet of the safe queue that is taken is carried out and is complete, or halts the safe queue with ERR 5; in stage 0xF1 only
attest and read audit log are carried out. A partition takes clusters in service, ranges and queues that no other has, and gets its management queue;
deleting it zeroes its memory and frees its queues; the queue table is set once; a domain renumbers the module; a measurement is extended; attest
appends a checkpoint and writes the report; the audit log is read, and reclaimed up to a checkpoint; an injector is set or removed. The safe queue's
registers: SQBASE with LSZ 0 resets the queue, SQDB never falls, SQRIDX answers its old value, NRBASE is written (16, R390; 18, R409, R414, R415, R418
to R421, R440). -/
def Obligations.SafePackets : Prop :=
  ∀ (s : State),
    let does := fun (e : Instr) (t : State) => exec e s = .next t
    (∀ pk p, Tbl.find s.packets pk = some p → p.safe = true →
      let finished := fun (u : State) => u.updPk pk fun p => { p with st := .finished }
      let fails := (s.dropPk pk).haltSafe 5 0
      let n := (p.op 0x10).toNat
      (p.st = .finished → does (.packetCompletion pk) (s.dropPk pk)) ∧
      (p.st = .taken → s.sec.stage = 0xF1#8 →
        (p.cmd = 0x20 → does (.createPartition pk) fails) ∧ (p.cmd = 0x21 → does (.deletePartition pk) fails) ∧ (p.cmd = 0x22 → does (.setDomain pk) fails) ∧
        (p.cmd = 0x25 → does (.reclaimAuditLog pk) fails) ∧ (p.cmd = 0x26 → does (.extendMeasurement pk) fails) ∧ (p.cmd = 0x27 → does (.setQueueTable pk) fails) ∧
        (p.cmd = 0x0E → does (.setInjector pk) fails)) ∧
      (p.st = .taken → p.cmd = 0x23 →
        (n % 64 = 0 → n < 2 ^ 51 → does (.attest pk) (finished (s.checkpoint.plainWrite 0 0 false (hostPa n) (s.checkpoint.report p.digest)))) ∧
        (n % 64 ≠ 0 ∨ 2 ^ 51 ≤ n → does (.attest pk) fails)) ∧
      (p.st = .taken → p.cmd = 0x24 →
        let k := (p.op 0x18).toNat
        let l := s.sec.audit.filter (fun r => decide (n ≤ r.seq) && decide (r.seq < n + k))
        (l.length = k → (p.op 0x20).toNat < 2 ^ 51 → does (.readAuditLog pk) (finished (s.plainWrite 0 0 false (hostPa (p.op 0x20).toNat) (l.flatMap AuditRec.bytes)))) ∧
        (l.length ≠ k → does (.readAuditLog pk) fails)) ∧
      (p.st = .taken → s.sec.stage ≠ 0xF1#8 →
        (p.cmd = 0x20 →
          let ks := maskClusters (p.op 0x18) (p.op 0x20) (p.op 0x28)
          let q := (p.op 0x50).toNat
          let hwq := (p.op 0x60).toNat
          let lsz := bits (p.op 0x58) 4 0
          let base := (p.op 0x58).toNat / 2 ^ 12 * 2 ^ 12
          (∀ rs qt t, s.rangeList (p.op 0x40).toNat (p.op 0x48).toNat = some rs → s.qtabRange = some qt → s.sec.qtab = some t → 4 ≤ s.sec.stage.toNat → s.auditFull 80 = false →
            n ≤ 63 → Tbl.find s.parts n = none → (∀ k ∈ ks, k ∈ s.sec.inService ∧ ∀ x ∈ s.parts, k ∉ x.2.clusters) → disjoint rs = true →
            (∀ r ∈ rs, overlaps r qt = false ∧ ∀ x ∈ s.parts, ∀ o ∈ x.2.ranges, overlaps r o = false) → q < 2 ^ t.2 →
            (∀ c, Tbl.find s.queues q = some c → c.st = .free) → hwq < 16384 → s.hwqBound hwq = false → (∃ k ∈ ks, k / 48 = hwq / 4096) → ringOk (p.op 0x58) = true →
            s.ringPlace rs base lsz = true →
            let part : Partition := { clusters := ks, walkpc := p.op 0x30, ftpc := p.op 0x38, ranges := rs, mq := q }
            does (.createPartition pk) (finished ((({ s with parts := Tbl.put s.parts n part }.plainWrite 0 n false (s.qcbAt q) (toBytes 64 0)).putQcb q
              { base, lsz, part := n, st := .active, mgmt := true, hb := true, hwq } true).audit 3 (toBytes 8 n ++ toBytes 8 1)))) ∧
          ((Tbl.find s.parts n).isSome = true ∨ 63 < n ∨ s.qtabRange = none → does (.createPartition pk) fails)) ∧
        (p.cmd = 0x21 →
          (∀ x, Tbl.find s.parts n = some x → s.auditFull 80 = false → (∀ e ∈ s.spaces, e.2.part = n → e.2.inUse = true → e.2.st = .released) →
            let s2 := x.ranges.foldl (fun u r => u.zeroMem (u.sec.modnum.toNat * 2 ^ 43 + r.1) r.2) (s.scrubCaches n)
            let s3 := (s2.queues.filter (fun q => q.2.part == n && q.2.st != .free)).foldl (fun u q =>
              ({ u with packets := u.packets.filter (fun k => k.2.safe || k.2.queue != q.1) }.zeroMem (u.qcbAt q.1) 64).putQcb q.1 {} true) s2
            does (.deletePartition pk) (finished ({ s3 with parts := Tbl.del s3.parts n }.audit 3 (toBytes 8 n ++ toBytes 8 0)))) ∧
          (Tbl.find s.parts n = none ∨ (∃ e ∈ s.spaces, e.2.part = n ∧ e.2.inUse = true ∧ e.2.st ≠ .released) → does (.deletePartition pk) fails)) ∧
        (p.cmd = 0x22 →
          let pa := (p.op 0x18).toNat
          let k := (p.op 0x20).toNat
          let numbers := (List.range k).map fun i => (s.rd8 (pa + 16 * i)).toNat
          (n ≤ 255 → 1 ≤ k → k ≤ 256 → s.paExists pa = true → s.paExists (pa + 16 * k - 1) = true → n ∈ numbers → (∀ x ∈ numbers, x ≤ 255) →
            let s1 := s.renumber s.sec.modnum.toNat n
            does (.setDomain pk) (finished { s1 with sec := { s1.sec with domain := s.domainAt pa k, modnum := BitVec.ofNat 8 n } })) ∧
          (n ∉ numbers → does (.setDomain pk) fails)) ∧
        (p.cmd = 0x25 →
          ((∃ r ∈ s.sec.audit, r.seq = n ∧ r.typ = 5) → does (.reclaimAuditLog pk) (finished
            (({ s with sec := { s.sec with audit := s.sec.audit.filter (fun r => decide (n ≤ r.seq)) } } : State).auditFlush.audit 7 (toBytes 8 n)))) ∧
          ((∀ r ∈ s.sec.audit, r.seq = n → r.typ ≠ 5) → does (.reclaimAuditLog pk) fails)) ∧
        (p.cmd = 0x26 → (n = 6 ∨ n = 7 → does (.extendMeasurement pk) (finished { s with sec := { s.sec with
            meas := Tbl.set 0#384 s.sec.meas n (sha384 (digestBytes (Tbl.get 0#384 s.sec.meas n) ++ digestBytes p.digest)) } })) ∧
          (n ≠ 6 → n ≠ 7 → does (.extendMeasurement pk) fails)) ∧
        (p.cmd = 0x27 →
          let k := (p.op 0x18).toNat
          (4 ≤ s.sec.stage.toNat → s.sec.qtab = none → s.parts = [] → 10 ≤ k → k ≤ 20 → n % 65536 = 0 → n < 2 ^ 51 → s.ownMem n = true → n % 2 ^ 43 + 64 * 2 ^ k ≤ 576 * 2 ^ 30 →
            s.sec.dieup.getLsbD (homeDie n) = true → s.sec.dieup.getLsbD (homeDie (n + 64 * 2 ^ k - 1)) = true →
            does (.setQueueTable pk) (finished { s.zeroMem n (64 * 2 ^ k) with sec := { s.sec with qtab := some (n, k) } })) ∧
          (s.sec.qtab.isSome = true ∨ s.parts ≠ [] → does (.setQueueTable pk) fails)) ∧
        (p.cmd = 0x0E →
          (∀ x, injectorOf p = some x → does (.setInjector pk) (finished { s with injs := if x.2.act = 0 then Tbl.del s.injs x.1 else Tbl.put s.injs x.1 [x.2] })) ∧
          (injectorOf p = none → does (.setInjector pk) fails)))) ∧
    (s.safeReady = false → does (.headboxLaneTake safeQueue) s) ∧
    (s.sec.sqreread = none → does (.headerRereadTimeout safeQueue) s) ∧
    (∀ v, s.sec.powered = true →
      (bits v 4 0 ≠ 0 → does (.sqbaseWrite v) { s with sec := { s.sec with sqbase := ringReg v } }) ∧
      (bits v 4 0 = 0 → does (.sqbaseWrite v) { s with packets := s.packets.filter (fun p => !p.2.safe), sec := { s.sec with sqbase := ringReg v, sqrd := s.sec.sqdb, sqridx := s.sec.sqdb, sqerr := 0#8, sqdet := 0#8, sqhalt := false, sqreread := none } }) ∧
      (s.sec.sqhalt = false → v.toNat < 2 ^ 63 → does (.safeQueueDoorbell v) { s with sec := { s.sec with sqdb := max s.sec.sqdb v.toNat, sqreread := none } }) ∧
      (s.sec.sqhalt = true ∨ 2 ^ 63 ≤ v.toNat → does (.safeQueueDoorbell v) s) ∧
      does (.sqridxAtomicAdd v) { s with hostOut := s.hostOut ++ [toBytes 8 s.sec.sqridx], sec := { s.sec with sqridx := (s.sec.sqridx + v.toNat) % 2 ^ 64 } } ∧
      does (.registerWrite 0x30 v) { s with sec := { s.sec with nrbase := ringReg v } } ∧
      (∀ off, off ≠ 0x30 → does (.registerWrite off v) s)) ∧
    (∀ v off, s.sec.powered = false → does (.sqbaseWrite v) s ∧ does (.safeQueueDoorbell v) s ∧ does (.sqridxAtomicAdd v) s ∧ does (.registerWrite off v) s)

/-- The host and the power. A host access reaches the module through a port that carries traffic, its own or the other's; an aperture read gives the
bytes in memory, once the lines return to their homes, and zeros beyond the end, a window read the registers; a write of one sector goes as a packet
that stores its bytes at the home and nothing else, a window write to the register or doorbell; an atomic goes as a packet that stores the new value
at the home and answers the old. A port that fails stays failed. Power-good begins stage 1 with nothing but the audit log kept; each start-up stage
verifies, measures and records its images and the next one follows, or 0xF1; a firmware entry is a TYPE 6 record; without power the module forgets all
but the audit log (18, R408 to R412, R416, R417, R420, R424; 05, R124, R126). -/
def Obligations.HostSteps : Prop :=
  ∀ (s : State),
    let does := fun (e : Instr) (t : State) => exec e s = .next t
    (∀ port off ord l n op, s.portOf port = none → does (.hostWrite port ord off l) s ∧ does (.hostRead port off n) s ∧ does (.hostAtomic port off op) s) ∧
    (∀ port off len q, s.portOf port = some q →
      let at_ := s.sec.modnum.toNat * 2 ^ 43 + off
      let n := min len (576 * 2 ^ 30 - off)
      (off < 2 ^ 60 → s.owned (772 + q) at_ n = true → does (.hostRead port off len) ((s.recallAll (772 + q) at_ n).getD s)) ∧
      (2 ^ 60 ≤ off ∨ s.owned (772 + q) at_ n = false → ∃ t l, does (.hostRead port off len) t ∧ t.hostOut = s.hostOut ++ [l] ∧ t.mem = s.mem ∧ l.length = len ∧
        ∀ i, i < len →
          (off + i < 576 * 2 ^ 30 → s.poisoned (s.sec.modnum.toNat * 2 ^ 43 + (off + i)) 1 = false → l.getD i 0#8 = s.byte (s.sec.modnum.toNat * 2 ^ 43 + (off + i))) ∧
          (576 * 2 ^ 30 ≤ off + i → off < 2 ^ 60 → l.getD i 0#8 = 0#8) ∧ (2 ^ 60 ≤ off → l.getD i 0#8 = s.windowByte (off + i - 2 ^ 60)))) ∧
    (∀ port ord off l q, s.portOf port = some q →
      let pa := s.sec.modnum.toNat * 2 ^ 43 + off
      (l = [] → does (.hostWrite port ord off l) s) ∧
      (576 * 2 ^ 30 ≤ off → off < 2 ^ 60 → does (.hostWrite port ord off l) s) ∧
      (∀ o, off = 2 ^ 60 + o → off % 8 = 0 → l.length = 8 →
        (ord = false ∨ s.portBusy q = false → does (.hostWrite port ord off l) (s.putWindow o (BitVec.ofNat 64 (ofBytes l)))) ∧
        (ord = true → s.portBusy q = true → does (.hostWrite port ord off l) s)) ∧
      (l ≠ [] → off + l.length ≤ 576 * 2 ^ 30 → pa % 64 + l.length ≤ 64 →
        ∃ (t : State) (p : Req), does (.hostWrite port ord off l) t ∧ t.mem = s.mem ∧ t.groups = s.groups ∧ Tbl.find t.reqs (s.fresh + 1) = some p ∧
          p.kind = .put 0 none ∧ p.core = 772 + q ∧ p.head = ord ∧ p.stage = .mesh ∧ p.serial = none ∧ p.accs = putAccs true pa l)) ∧
    (∀ port off op q, s.portOf port = some q → off % 8 = 0 → off < 576 * 2 ^ 30 →
      let pa := s.sec.modnum.toNat * 2 ^ 43 + off
      ∃ (t : State) (p : Req), does (.hostAtomic port off op) t ∧ t.mem = s.mem ∧ t.groups = s.groups ∧ Tbl.find t.reqs (s.fresh + 1) = some p ∧
        p.kind = .rmw hostTag (.atom (HostAtom.atomOp op).1) ∧ p.core = 772 + q ∧ p.head = true ∧ p.stage = .mesh ∧ p.serial = none ∧
        p.accs.map (fun a => (a.locs, a.len, a.data, a.alt)) =
          [([.mem pa], 8, (HostAtom.atomOp op).2.1.setWidth 128, (HostAtom.atomOp op).2.2.setWidth 128)]) ∧
    (∀ rq q ser c, Tbl.find s.reqs rq = some q → q.serial = some ser → q.copies = [c] → s.arrived q c = true → (s.ownerDecides q ser c).1 = .perform → q.reply = none →
      q.gone = false → 772 ≤ q.core → q.stage = .mesh → Tbl.find s.owners (q.sector / 2) = none → (∀ h ∈ q.homesLeft, s.mayPerform rq q h = true) →
      (∀ x ∈ s.spaces, x.2.records = false) → (s.space q.spid).records = false → (s.space q.spid).replay = none → q.logs = false →
      let byteAfter := fun (cells : List (Nat × Byte)) (pa : Nat) => ((cells.reverse.find? (fun c => c.1 == pa)).map (·.2)).getD (s.byte pa)
      (∀ who, q.kind = .put 0 who → (∀ e ∈ accCells q.accs, s.barred e.1 = false) → who = none →
        ∃ (t : State) (p : Req), does (.resultCacheRequest rq c.id) t ∧ (∀ pa, t.byte pa = byteAfter (accCells q.accs) pa) ∧ Tbl.find t.reqs rq = some p ∧
          p.stage = .performed ∧ p.reply = some (.value p.accs)) ∧
      (∀ op a pa, q.kind = .rmw hostTag (.atom op) → q.accs = [a] → a.locs = [.mem pa] → a.len = 8 → s.poisoned pa 8 = false →
        (∀ i, i < 8 → s.barred (pa + i) = false) →
        ∃ (t : State) (p : Req), does (.resultCacheRequest rq c.id) t ∧ Tbl.find t.reqs rq = some p ∧ p.stage = .performed ∧ p.reply = some (.value p.accs) ∧
          (∀ x, t.byte x = byteAfter (cellsAt pa (toBytes 8 (atomNew op 8 (s.rd pa 8) a.data.toNat a.alt.toNat % 2 ^ 128))) x) ∧
          p.accs.map (fun b => (b.got, b.err)) = [(BitVec.ofNat 128 (s.rd pa 8), 0)])) ∧
    (∀ rq q a op, Tbl.find s.reqs rq = some q → q.kind = .rmw hostTag op → q.accs = [a] → q.stage = .performed → q.serial = none → (∀ x ∈ s.invs, x.2 ∉ q.lines) →
      (a.err = 0 → ∃ t, does (.writeAcknowledgement rq) t ∧ t.hostOut = s.hostOut ++ [toBytes 8 a.got.toNat] ∧ t.mem = s.mem ∧ Tbl.find t.reqs rq = none) ∧
      (a.err ≠ 0 → ∃ t l, does (.writeAcknowledgement rq) t ∧ t.hostOut = s.hostOut ++ [l] ∧ l.length = 8 ∧ t.mem = s.mem ∧ Tbl.find t.reqs rq = none)) ∧
    (∀ port, (port ≤ 1 → port ∉ s.sec.ports → does (.portFailure port) { s with sec := { s.sec with ports := port :: s.sec.ports } }) ∧
      (port ∈ s.sec.ports → does (.portFailure port) s)) ∧
    (s.sec.powered = true → does .powerGood s) ∧
    (s.sec.powered = false → ∃ t, does .powerGood t ∧ t.sec.powered = true ∧ t.sec.stage = 1#8 ∧ t.sec.audit = s.sec.audit ∧ t.sec.meas = [] ∧ t.groups = [] ∧ t.parts = [] ∧
      t.mem = s.mem.filter (fun c => !s.ownMem c.1)) ∧
    (∃ t, does .powerLoss t ∧ t.sec.powered = false ∧ t.sec.audit = s.sec.audit ∧ t.groups = [] ∧ t.parts = [] ∧ t.mem = s.mem.filter (fun c => !s.ownMem c.1)) ∧
    (s.sec.powered = true → ∃ t, does .overtemperatureShutdown t ∧ t.sec.powered = false ∧ t.sec.audit = (s.audit 6 []).sec.audit ∧ t.groups = [] ∧ t.parts = []) ∧
    (s.sec.powered = false → does .overtemperatureShutdown s ∧ (∀ v u d, does (.startStage v u d) s) ∧ ∀ l, does (.firmwareEntryAppend l) s) ∧
    (∀ l, s.sec.powered = true → (l.length ≤ 256 → does (.firmwareEntryAppend l) (s.audit 6 l)) ∧ (256 < l.length → does (.firmwareEntryAppend l) s)) ∧
    (∀ on, does (.thermalThrottle on) { s with sec := { s.sec with throttle := on } }) ∧
    (∀ v u d, s.sec.powered = true →
      let at_ := fun (n : Byte) (x : State) => ({ x with sec := { x.sec with stage := n } } : State)
      let img := d.getD 0 0#384
      let rec1 := fun (ok : Nat) => toBytes 8 0 ++ toBytes 8 ok ++ digestBytes img
      (s.sec.stage = 1#8 → v.getD 0 false = true → does (.startStage v u d) (at_ 2#8 (((s.extend 0 img).audit 1 (rec1 1)).extend 1 (d.getD 1 0#384)))) ∧
      (s.sec.stage = 1#8 → v.getD 0 false = false → does (.startStage v u d) (at_ 0xF1#8 (s.audit 1 (rec1 0)))) ∧
      (s.sec.stage = 2#8 → does (.startStage v u d) (at_ 3#8 s)) ∧
      (s.sec.stage = 3#8 → ∃ t, does (.startStage v u d) t ∧ t.sec.stage = 4#8) ∧
      (s.sec.stage = 4#8 ∨ s.sec.stage = 5#8 → does (.startStage v u d) (at_ 5#8 ((u.filter (fun x => decide (x < 208) &&
        s.sec.dieup.getLsbD (if x < 192 then x / 48 else (x - 192) / 4))).foldl State.joinUnit s))) ∧
      (s.sec.stage = 0xF1#8 → does (.startStage v u d) s))

/-- Repair. A unit in service is checked in an idle window; one that passes is no longer flagged, one that fails joins its die's order of retirements.
A lane, a register bank or a local-store bank at the head of that order retires between words, with its record, and what waits is tested again; an
evacuation drops one set of a slice or moves one line of a channel into a reserve at each step and ends. A strike young enough is recovered by
discarding the words whose results are tentative, or by clearing what was struck; a struck word of memory, local store or a tile that cannot be
corrected is uncorrectable; an older strike is a cause in the contexts whose state the zone held (02, R46, R59 to R62; 07, R180 to R182; 16, R381 to
R389). -/
def Obligations.RepairSteps : Prop :=
  ∀ (s : State),
    let does := fun (e : Instr) (t : State) => exec e s = .next t
    (∀ u why pass, (s.sec.powered = false ∨ s.unitLive u = false ∨ s.idleWindow u = false → does (.selfCheck u why pass) s) ∧
      (s.sec.powered = true → s.unitLive u = true → s.idleWindow u = true →
        (pass = true → does (.selfCheck u why pass) { s with checks := s.checks.filter (· != u) }) ∧
        (pass = false → (s.die (hwDie u)).pending = [] → (∃ k i, u = .lane k i ∨ u = .regBank k i ∨ u = .lsBank k i) →
          ∃ t, does (.selfCheck u why pass) t ∧ t.mem = s.mem ∧ (t.die (hwDie u)).pending = [(u, why)]))) ∧
    (∀ u, (s.sec.powered = true → s.unitLive u = true → u ∉ s.checks → s.flagDue u = true → does (.earlyCheckFlag u) { s with checks := u :: s.checks }) ∧
      (s.flagDue u = false → does (.earlyCheckFlag u) s)) ∧
    (∀ lb, (s.die (dieOf (lb / 4))).pending = [] → does (.steeringRewrite lb) s ∧ does (.registerBankMigration lb) s) ∧
    (∀ lb i why, s.retiring (dieOf (lb / 4)) = some (.lane lb i, why) → (s.lb lb).busy ≤ s.clock →
      let s1 := s.updLb lb fun b => { b with lost := insertBy id i b.lost }
      let n := (s1.lb lb).width
      n ≠ 0 → does (.steeringRewrite lb)
        (((s1.retireRecord 1 (reasonCode why) 0 (dieOf (lb / 4)) (lb / 4) (lb % 4) i n (n - 32) 0).retired (dieOf (lb / 4))).retest (lb / 4))) ∧
    (∀ lb i why, s.retiring (dieOf (lb / 4)) = some (.regBank lb i, why) → (s.lb lb).busy ≤ s.clock →
      let s1 := s.updLb lb fun b => b.loseBank i
      let n := (s1.lb lb).banks
      ((s.lbGroups lb).map fun gs => ((Tbl.find s.groups gs).map (·.n)).getD 0).sum ≤ (s1.lb lb).capacity → does (.registerBankMigration lb)
        (((s1.retireRecord 2 (reasonCode why) (if 16 ≤ n then 1 else 0) (dieOf (lb / 4)) (lb / 4) (lb % 4) i n (n - 16) 0).retired (dieOf (lb / 4))).retest (lb / 4))) ∧
    (∀ core i why, s.retiring (dieOf core) = some (.lsBank core i, why) →
      let s1 := s.updCore core fun k => { k with lostBanks := i :: k.lostBanks }
      let n := (s1.core core).banks
      32 ≤ n → does (.localStoreBankMigration core) (((s1.retireRecord 3 (reasonCode why) 1 (dieOf core) core 0 i n (n - 32) 0).retired (dieOf core)).retest core)) ∧
    (∀ core, (s.die (dieOf core)).pending = [] → does (.localStoreBankMigration core) s) ∧
    (∀ die, (s.die die).evacs = [] → does (.sliceEvacuationSet die) s ∧ does (.channelEvacuationLine die) s) ∧
    (∀ die e l, (s.die die).evacs = e :: l →
      (e.slice = true → does (.channelEvacuationLine die) s) ∧ (e.slice = false → does (.sliceEvacuationSet die) s) ∧
      (e.slice = true → e.ptr < 1024 → does (.sliceEvacuationSet die)
        (((s.l2.filter (fun x => homeDie (x.1 * 128) == die && homeLs (x.1 * 128) == e.logical && homeSet (x.1 * 128) == e.ptr)).foldl (fun u x => u.dropLine x.1) s).updEvac die
          fun e => { e with ptr := e.ptr + 1 })) ∧
      (e.slice = true → 1024 ≤ e.ptr →
        let owner := (s.sec.modnum.toNat * 4 + die) * 64 + e.logical
        does (.sliceEvacuationSet die) (({ s with rcache := s.rcache.filter (fun x => x.owner != owner || x.place != s.rcPlaceOf die e.src), sec := { s.sec with incLost := (owner :: s.sec.incLost).eraseDups } } : State).endEvac die e)) ∧
      (e.slice = false →
        let d := s.die die
        let here := (List.range 256).map (· + e.ptr)
        let next := here.find? (fun n => decide (n < dieLines) && d.chanOf die n == e.src)
        let room := (List.range 128).filter (fun c => !d.lostChans.contains c && decide (Tbl.get 0 d.reserve c < reserveLines))
        (next = none → e.ptr + 256 < dieLines → does (.channelEvacuationLine die) (s.updEvac die fun e => { e with ptr := e.ptr + 256 })) ∧
        (next = none → dieLines ≤ e.ptr + 256 → does (.channelEvacuationLine die) (s.endEvac die e)) ∧
        (∀ n c, next = some n → room[e.count % max 1 room.length]? = some c → does (.channelEvacuationLine die)
          ((s.updDie die fun d => { d with moved := Tbl.put d.moved n c, reserve := Tbl.put d.reserve c (Tbl.get 0 d.reserve c + 1) }).updEvac die
            fun e => { e with ptr := n + 1, count := e.count + 1 })))) ∧
    (∀ z age, s.sec.powered = false → does (.strikeReport z age) s) ∧
    (∀ age, s.sec.powered = true →
      (∀ lb, lb < 3072 →
        (age < 48 → does (.strikeReport (.laneBlock lb) age) ((((s.groups.map (·.1)).filter (fun gs => gs / 16 == lb)).foldl (fun u gs => u.discard gs (fun _ => true)) s).strikeRecord
          true (dieOf (lb / 4)) (lb / 4) (lb % 4) 0)) ∧
        (48 ≤ age → does (.strikeReport (.laneBlock lb) age) (s.unrecovered (s.ctxsOf (s.lbGroups lb)) (dieOf (lb / 4)) (lb / 4) (lb % 4)))) ∧
      (∀ core, core < 768 →
        (age < 48 → does (.strikeReport (.corePort core) age) (((s.coreGroups core).foldl (fun u gs => u.discard gs (fun t => !t.reqs.isEmpty)) s).strikeRecord true (dieOf core) core 4 0) ∧
          does (.strikeReport (.felt core) age) (((s.coreGroups core).foldl (fun u gs => u.discard gs (fun t => !t.reqs.isEmpty)) s).strikeRecord true (dieOf core) core 7 0) ∧
          does (.strikeReport (.matrix core) age) (s.strikeRecord true (dieOf core) core 6 0) ∧ does (.strikeReport (.l1 core) age) ((s.l1Clear core).strikeRecord true (dieOf core) core 8 0)) ∧
        (48 ≤ age → does (.strikeReport (.corePort core) age) (s.unrecovered (s.ctxsOf (s.coreGroups core)) (dieOf core) core 4)) ∧
        (∀ off, off < 2 ^ 19 → does (.strikeReport (.localStore core off true) age) (s.strikeRecord true (dieOf core) core 5 0) ∧
          does (.strikeReport (.localStore core off false) age) ((s.updCore core fun c => { c with bad := (off / 4 :: c.bad).eraseDups }).strikeRecord false (dieOf core) core 5 0)) ∧
        (∀ i, i < 32768 → does (.strikeReport (.tileWord core i false) age)
          ((s.updCore core fun c => { c with badTiles := (i :: c.badTiles).eraseDups }).strikeRecord false (dieOf core) core 5 0))) ∧
      (∀ pa, s.ownMem pa = true → homeDie pa ≤ 3 → does (.strikeReport (.sliceData pa true) age) (s.strikeRecord true (homeDie pa) 0 9 0) ∧
        does (.strikeReport (.sliceData pa false) age) (({ s with poison := (pa / 4 :: s.poison).eraseDups } : State).strikeRecord false (homeDie pa) 0 9 0)) ∧
      (∀ die ls, die ≤ 3 → ls ≤ 63 →
        let owners := ((s.die die).servedBy ls).map fun l => (s.sec.modnum.toNat * 4 + die) * 64 + l
        does (.strikeReport (.sliceDir die ls) age) (({ s with
            rcache := s.rcache.filter (fun x => x.place != s.rcPlaceOf die ls)
            sec := { s.sec with incLost := (owners ++ s.sec.incLost).eraseDups } } : State).unrecovered (s.ctxsAt die) die 0 9)) ∧
      (∀ die, die ≤ 3 → does (.strikeReport (.headbox die) age) (s.unrecovered (s.ctxsOn die) die 0 10)))
end

