-- ==== Sys2Proof/Laws/Tbl.lean ====
section
/-! SUPPORT. Tables: what is read after a write, and that writes keep the keys rising and the canonical form. -/

namespace Sys2Proof.Laws

open Sys2Proof.Machine

variable {α : Type}

@[simp] theorem find_put_self (t : Tbl α) (i : Nat) (a : α) : Tbl.find (Tbl.put t i a) i = some a := by
  induction t with
  | nil => simp [Tbl.put, Tbl.find]
  | cons e t ih =>
    obtain ⟨k, b⟩ := e
    simp only [Tbl.put]
    split
    · simp [Tbl.find]
    · split
      · simp [Tbl.find]
      · simp [Tbl.find, *]

theorem find_put_other (t : Tbl α) {i j : Nat} (a : α) (h : j ≠ i) : Tbl.find (Tbl.put t i a) j = Tbl.find t j := by
  induction t with
  | nil => simp [Tbl.put, Tbl.find]; omega
  | cons e t ih =>
    obtain ⟨k, b⟩ := e
    simp only [Tbl.put]
    split
    · subst_vars; simp [Tbl.find, Ne.symm h]
    · split
      · simp [Tbl.find, Ne.symm h]
      · simp [Tbl.find, ih]

theorem find_put (t : Tbl α) (i j : Nat) (a : α) : Tbl.find (Tbl.put t i a) j = if j = i then some a else Tbl.find t j := by
  split
  · subst_vars; exact find_put_self t _ a
  · exact find_put_other t a ‹_›

@[simp] theorem find_del_self (t : Tbl α) (i : Nat) : Tbl.find (Tbl.del t i) i = none := by
  induction t with
  | nil => rfl
  | cons e t ih =>
    obtain ⟨k, b⟩ := e
    simp only [Tbl.del]
    split
    · exact ih
    · simp [Tbl.find, *]

theorem find_del_other (t : Tbl α) {i j : Nat} (h : j ≠ i) : Tbl.find (Tbl.del t i) j = Tbl.find t j := by
  induction t with
  | nil => rfl
  | cons e t ih =>
    obtain ⟨k, b⟩ := e
    simp only [Tbl.del]
    split
    · subst_vars; simp [Tbl.find, ih, Ne.symm h]
    · simp [Tbl.find, ih]

theorem find_del (t : Tbl α) (i j : Nat) : Tbl.find (Tbl.del t i) j = if j = i then none else Tbl.find t j := by
  split
  · subst_vars; exact find_del_self t _
  · exact find_del_other t ‹_›

/-- A read after a write: the value written at its key, what was there before at every other. -/
theorem get_set [DecidableEq α] (d : α) (t : Tbl α) (i j : Nat) (a : α) :
    Tbl.get d (Tbl.set d t i a) j = if j = i then a else Tbl.get d t j := by
  unfold Tbl.get Tbl.set
  split
  · rw [find_del]; split <;> simp_all
  · rw [find_put]; split <;> simp

@[simp] theorem get_set_self [DecidableEq α] (d : α) (t : Tbl α) (i : Nat) (a : α) : Tbl.get d (Tbl.set d t i a) i = a := by
  simp [get_set]

theorem find_upd (t : Tbl α) (i j : Nat) (f : α → α) :
    Tbl.find (Tbl.upd t i f) j = if j = i then (Tbl.find t i).map f else Tbl.find t j := by
  unfold Tbl.upd
  split
  · rename_i a h
    rw [find_put]; split <;> simp_all
  · split <;> simp_all

theorem find_upd_other (t : Tbl α) {i j : Nat} (f : α → α) (h : j ≠ i) : Tbl.find (Tbl.upd t i f) j = Tbl.find t j := by
  rw [find_upd]; simp [h]

@[simp] theorem find_upd_self (t : Tbl α) (i : Nat) (f : α → α) : Tbl.find (Tbl.upd t i f) i = (Tbl.find t i).map f := by
  simp [find_upd]

/-- Every key of a table lies above `k`. -/
def Above (k : Nat) (t : Tbl α) : Prop := ∀ e ∈ t, k < e.1

theorem wf_cons (k : Nat) (a : α) (t : Tbl α) : Tbl.wf ((k, a) :: t) = true ↔ Above k t ∧ Tbl.wf t = true := by
  simp [Tbl.wf, Above]

theorem above_put {k i : Nat} {t : Tbl α} (a : α) (h : Above k t) (hi : k < i) : Above k (Tbl.put t i a) := by
  induction t with
  | nil => simpa [Tbl.put, Above] using hi
  | cons e t ih =>
    obtain ⟨j, b⟩ := e
    have hj : k < j := h (j, b) (by simp)
    have ht : Above k t := fun e he => h e (by simp [he])
    simp only [Tbl.put]
    split
    · intro e he; simp only [List.mem_cons] at he; rcases he with rfl | he
      · exact hi
      · exact ht e he
    · split
      · intro e he; simp only [List.mem_cons] at he; rcases he with rfl | rfl | he
        · exact hi
        · exact hj
        · exact ht e he
      · intro e he; simp only [List.mem_cons] at he; rcases he with rfl | he
        · exact hj
        · exact ih ht e he

theorem above_del {k i : Nat} {t : Tbl α} (h : Above k t) : Above k (Tbl.del t i) := by
  induction t with
  | nil => exact h
  | cons e t ih =>
    obtain ⟨j, b⟩ := e
    have ht : Above k t := fun e he => h e (by simp [he])
    simp only [Tbl.del]
    split
    · exact ih ht
    · intro e he; simp only [List.mem_cons] at he; rcases he with rfl | he
      · exact h _ (by simp)
      · exact ih ht e he

/-- Writing keeps the keys rising. -/
theorem wf_put (t : Tbl α) (i : Nat) (a : α) (h : Tbl.wf t = true) : Tbl.wf (Tbl.put t i a) = true := by
  induction t with
  | nil => rfl
  | cons e t ih =>
    obtain ⟨k, b⟩ := e
    obtain ⟨h1, h2⟩ := (wf_cons k b t).1 h
    simp only [Tbl.put]
    split
    · subst_vars; exact (wf_cons _ _ _).2 ⟨h1, h2⟩
    · split
      · refine (wf_cons _ _ _).2 ⟨?_, h⟩
        intro e he; simp only [List.mem_cons] at he; rcases he with rfl | he
        · assumption
        · have := h1 e he; omega
      · exact (wf_cons _ _ _).2 ⟨above_put a h1 (by omega), ih h2⟩

theorem wf_del (t : Tbl α) (i : Nat) (h : Tbl.wf t = true) : Tbl.wf (Tbl.del t i) = true := by
  induction t with
  | nil => rfl
  | cons e t ih =>
    obtain ⟨k, b⟩ := e
    obtain ⟨h1, h2⟩ := (wf_cons k b t).1 h
    simp only [Tbl.del]
    split
    · exact ih h2
    · exact (wf_cons _ _ _).2 ⟨above_del h1, ih h2⟩

theorem mem_put {t : Tbl α} {i : Nat} {a : α} {e : Nat × α} (h : e ∈ Tbl.put t i a) : e = (i, a) ∨ e ∈ t := by
  induction t with
  | nil => simpa [Tbl.put] using h
  | cons x t ih =>
    obtain ⟨k, b⟩ := x
    simp only [Tbl.put] at h
    split at h
    · simp only [List.mem_cons] at h ⊢; grind
    · split at h
      · simp only [List.mem_cons] at h ⊢; grind
      · simp only [List.mem_cons] at h ⊢; rcases h with h | h
        · grind
        · rcases ih h with h | h <;> grind

theorem mem_del {t : Tbl α} {i : Nat} {e : Nat × α} (h : e ∈ Tbl.del t i) : e ∈ t := by
  induction t with
  | nil => exact h
  | cons x t ih =>
    obtain ⟨k, b⟩ := x
    simp only [Tbl.del] at h
    split at h
    · simp [ih h]
    · simp only [List.mem_cons] at h ⊢; rcases h with h | h
      · grind
      · exact Or.inr (ih h)

/-- Writing a value, the default one too, keeps the canonical form. -/
theorem canon_set [DecidableEq α] (d : α) (t : Tbl α) (i : Nat) (a : α) (h : Tbl.canon d t = true) :
    Tbl.canon d (Tbl.set d t i a) = true := by
  simp only [Tbl.canon, Bool.and_eq_true, List.all_eq_true, decide_eq_true_eq] at h ⊢
  unfold Tbl.set
  split
  · exact ⟨wf_del t i h.1, fun e he => h.2 e (mem_del he)⟩
  · refine ⟨wf_put t i a h.1, fun e he => ?_⟩
    rcases mem_put he with rfl | he
    · assumption
    · exact h.2 e he

theorem wf_filter (t : Tbl α) (p : Nat × α → Bool) (h : Tbl.wf t = true) : Tbl.wf (t.filter p) = true := by
  induction t with
  | nil => rfl
  | cons e t ih =>
    obtain ⟨k, b⟩ := e
    obtain ⟨h1, h2⟩ := (wf_cons k b t).1 h
    simp only [List.filter]
    split
    · exact (wf_cons _ _ _).2 ⟨fun e he => h1 e (List.mem_filter.1 he).1, ih h2⟩
    · exact ih h2

/-- Dropping entries keeps the canonical form. -/
theorem canon_filter [DecidableEq α] (d : α) (t : Tbl α) (p : Nat × α → Bool) (h : Tbl.canon d t = true) :
    Tbl.canon d (t.filter p) = true := by
  simp only [Tbl.canon, Bool.and_eq_true, List.all_eq_true, decide_eq_true_eq] at h ⊢
  exact ⟨wf_filter t p h.1, fun e he => h.2 e (List.mem_filter.1 he).1⟩

end Sys2Proof.Laws
end

