-- ==== Sys2Proof/Laws/State.lean ====
section
/-! SUPPORT. One lemma for each field of the state under each update of a record in one of its tables: what the update leaves
alone, and what the updated table holds. -/

namespace Sys2Proof.Laws

open Sys2Proof.Machine

@[simp] theorem updGroup_agenda (s : State) (gs : Nat) (f : Group → Group) : (s.updGroup gs f).agenda = s.agenda := rfl
@[simp] theorem updGroup_turn (s : State) (gs : Nat) (f : Group → Group) : (s.updGroup gs f).turn = s.turn := rfl
@[simp] theorem updGroup_free (s : State) (gs : Nat) (f : Group → Group) : (s.updGroup gs f).free = s.free := rfl
@[simp] theorem updGroup_cur (s : State) (gs : Nat) (f : Group → Group) : (s.updGroup gs f).cur = s.cur := rfl
@[simp] theorem updGroup_clock (s : State) (gs : Nat) (f : Group → Group) : (s.updGroup gs f).clock = s.clock := rfl
@[simp] theorem updGroup_fresh (s : State) (gs : Nat) (f : Group → Group) : (s.updGroup gs f).fresh = s.fresh := rfl
@[simp] theorem updGroup_mem (s : State) (gs : Nat) (f : Group → Group) : (s.updGroup gs f).mem = s.mem := rfl
@[simp] theorem updGroup_wms (s : State) (gs : Nat) (f : Group → Group) : (s.updGroup gs f).wms = s.wms := rfl
@[simp] theorem updGroup_recs (s : State) (gs : Nat) (f : Group → Group) : (s.updGroup gs f).recs = s.recs := rfl
@[simp] theorem updGroup_invs (s : State) (gs : Nat) (f : Group → Group) : (s.updGroup gs f).invs = s.invs := rfl
@[simp] theorem updGroup_poison (s : State) (gs : Nat) (f : Group → Group) : (s.updGroup gs f).poison = s.poison := rfl
@[simp] theorem updGroup_strong (s : State) (gs : Nat) (f : Group → Group) : (s.updGroup gs f).strong = s.strong := rfl
@[simp] theorem updGroup_l2 (s : State) (gs : Nat) (f : Group → Group) : (s.updGroup gs f).l2 = s.l2 := rfl
@[simp] theorem updGroup_locks (s : State) (gs : Nat) (f : Group → Group) : (s.updGroup gs f).locks = s.locks := rfl
@[simp] theorem updGroup_holds (s : State) (gs : Nat) (f : Group → Group) : (s.updGroup gs f).holds = s.holds := rfl
@[simp] theorem updGroup_owners (s : State) (gs : Nat) (f : Group → Group) : (s.updGroup gs f).owners = s.owners := rfl
@[simp] theorem updGroup_tents (s : State) (gs : Nat) (f : Group → Group) : (s.updGroup gs f).tents = s.tents := rfl
@[simp] theorem updGroup_dir (s : State) (gs : Nat) (f : Group → Group) : (s.updGroup gs f).dir = s.dir := rfl
@[simp] theorem updGroup_wgs (s : State) (gs : Nat) (f : Group → Group) : (s.updGroup gs f).wgs = s.wgs := rfl
@[simp] theorem updGroup_gangs (s : State) (gs : Nat) (f : Group → Group) : (s.updGroup gs f).gangs = s.gangs := rfl
@[simp] theorem updGroup_grids (s : State) (gs : Nat) (f : Group → Group) : (s.updGroup gs f).grids = s.grids := rfl
@[simp] theorem updGroup_spaces (s : State) (gs : Nat) (f : Group → Group) : (s.updGroup gs f).spaces = s.spaces := rfl
@[simp] theorem updGroup_parts (s : State) (gs : Nat) (f : Group → Group) : (s.updGroup gs f).parts = s.parts := rfl
@[simp] theorem updGroup_queues (s : State) (gs : Nat) (f : Group → Group) : (s.updGroup gs f).queues = s.queues := rfl
@[simp] theorem updGroup_packets (s : State) (gs : Nat) (f : Group → Group) : (s.updGroup gs f).packets = s.packets := rfl
@[simp] theorem updGroup_rr (s : State) (gs : Nat) (f : Group → Group) : (s.updGroup gs f).rr = s.rr := rfl
@[simp] theorem updGroup_lbs (s : State) (gs : Nat) (f : Group → Group) : (s.updGroup gs f).lbs = s.lbs := rfl
@[simp] theorem updGroup_cores (s : State) (gs : Nat) (f : Group → Group) : (s.updGroup gs f).cores = s.cores := rfl
@[simp] theorem updGroup_dies (s : State) (gs : Nat) (f : Group → Group) : (s.updGroup gs f).dies = s.dies := rfl
@[simp] theorem updGroup_reqs (s : State) (gs : Nat) (f : Group → Group) : (s.updGroup gs f).reqs = s.reqs := rfl
@[simp] theorem updGroup_rqers (s : State) (gs : Nat) (f : Group → Group) : (s.updGroup gs f).rqers = s.rqers := rfl
@[simp] theorem updGroup_rcache (s : State) (gs : Nat) (f : Group → Group) : (s.updGroup gs f).rcache = s.rcache := rfl
@[simp] theorem updGroup_upds (s : State) (gs : Nat) (f : Group → Group) : (s.updGroup gs f).upds = s.upds := rfl
@[simp] theorem updGroup_colls (s : State) (gs : Nat) (f : Group → Group) : (s.updGroup gs f).colls = s.colls := rfl
@[simp] theorem updGroup_curAtt (s : State) (gs : Nat) (f : Group → Group) : (s.updGroup gs f).curAtt = s.curAtt := rfl
@[simp] theorem updGroup_tokens (s : State) (gs : Nat) (f : Group → Group) : (s.updGroup gs f).tokens = s.tokens := rfl
@[simp] theorem updGroup_injs (s : State) (gs : Nat) (f : Group → Group) : (s.updGroup gs f).injs = s.injs := rfl
@[simp] theorem updGroup_quads (s : State) (gs : Nat) (f : Group → Group) : (s.updGroup gs f).quads = s.quads := rfl
@[simp] theorem updGroup_reach (s : State) (gs : Nat) (f : Group → Group) : (s.updGroup gs f).reach = s.reach := rfl
@[simp] theorem updGroup_checks (s : State) (gs : Nat) (f : Group → Group) : (s.updGroup gs f).checks = s.checks := rfl
@[simp] theorem updGroup_passes (s : State) (gs : Nat) (f : Group → Group) : (s.updGroup gs f).passes = s.passes := rfl
@[simp] theorem updGroup_hostOut (s : State) (gs : Nat) (f : Group → Group) : (s.updGroup gs f).hostOut = s.hostOut := rfl
@[simp] theorem updGroup_sec (s : State) (gs : Nat) (f : Group → Group) : (s.updGroup gs f).sec = s.sec := rfl

@[simp] theorem updWg_agenda (s : State) (w : Nat) (f : Workgroup → Workgroup) : (s.updWg w f).agenda = s.agenda := rfl
@[simp] theorem updWg_turn (s : State) (w : Nat) (f : Workgroup → Workgroup) : (s.updWg w f).turn = s.turn := rfl
@[simp] theorem updWg_free (s : State) (w : Nat) (f : Workgroup → Workgroup) : (s.updWg w f).free = s.free := rfl
@[simp] theorem updWg_cur (s : State) (w : Nat) (f : Workgroup → Workgroup) : (s.updWg w f).cur = s.cur := rfl
@[simp] theorem updWg_clock (s : State) (w : Nat) (f : Workgroup → Workgroup) : (s.updWg w f).clock = s.clock := rfl
@[simp] theorem updWg_fresh (s : State) (w : Nat) (f : Workgroup → Workgroup) : (s.updWg w f).fresh = s.fresh := rfl
@[simp] theorem updWg_mem (s : State) (w : Nat) (f : Workgroup → Workgroup) : (s.updWg w f).mem = s.mem := rfl
@[simp] theorem updWg_wms (s : State) (w : Nat) (f : Workgroup → Workgroup) : (s.updWg w f).wms = s.wms := rfl
@[simp] theorem updWg_recs (s : State) (w : Nat) (f : Workgroup → Workgroup) : (s.updWg w f).recs = s.recs := rfl
@[simp] theorem updWg_invs (s : State) (w : Nat) (f : Workgroup → Workgroup) : (s.updWg w f).invs = s.invs := rfl
@[simp] theorem updWg_poison (s : State) (w : Nat) (f : Workgroup → Workgroup) : (s.updWg w f).poison = s.poison := rfl
@[simp] theorem updWg_strong (s : State) (w : Nat) (f : Workgroup → Workgroup) : (s.updWg w f).strong = s.strong := rfl
@[simp] theorem updWg_l2 (s : State) (w : Nat) (f : Workgroup → Workgroup) : (s.updWg w f).l2 = s.l2 := rfl
@[simp] theorem updWg_locks (s : State) (w : Nat) (f : Workgroup → Workgroup) : (s.updWg w f).locks = s.locks := rfl
@[simp] theorem updWg_holds (s : State) (w : Nat) (f : Workgroup → Workgroup) : (s.updWg w f).holds = s.holds := rfl
@[simp] theorem updWg_owners (s : State) (w : Nat) (f : Workgroup → Workgroup) : (s.updWg w f).owners = s.owners := rfl
@[simp] theorem updWg_groups (s : State) (w : Nat) (f : Workgroup → Workgroup) : (s.updWg w f).groups = s.groups := rfl
@[simp] theorem updWg_tents (s : State) (w : Nat) (f : Workgroup → Workgroup) : (s.updWg w f).tents = s.tents := rfl
@[simp] theorem updWg_dir (s : State) (w : Nat) (f : Workgroup → Workgroup) : (s.updWg w f).dir = s.dir := rfl
@[simp] theorem updWg_gangs (s : State) (w : Nat) (f : Workgroup → Workgroup) : (s.updWg w f).gangs = s.gangs := rfl
@[simp] theorem updWg_grids (s : State) (w : Nat) (f : Workgroup → Workgroup) : (s.updWg w f).grids = s.grids := rfl
@[simp] theorem updWg_spaces (s : State) (w : Nat) (f : Workgroup → Workgroup) : (s.updWg w f).spaces = s.spaces := rfl
@[simp] theorem updWg_parts (s : State) (w : Nat) (f : Workgroup → Workgroup) : (s.updWg w f).parts = s.parts := rfl
@[simp] theorem updWg_queues (s : State) (w : Nat) (f : Workgroup → Workgroup) : (s.updWg w f).queues = s.queues := rfl
@[simp] theorem updWg_packets (s : State) (w : Nat) (f : Workgroup → Workgroup) : (s.updWg w f).packets = s.packets := rfl
@[simp] theorem updWg_rr (s : State) (w : Nat) (f : Workgroup → Workgroup) : (s.updWg w f).rr = s.rr := rfl
@[simp] theorem updWg_lbs (s : State) (w : Nat) (f : Workgroup → Workgroup) : (s.updWg w f).lbs = s.lbs := rfl
@[simp] theorem updWg_cores (s : State) (w : Nat) (f : Workgroup → Workgroup) : (s.updWg w f).cores = s.cores := rfl
@[simp] theorem updWg_dies (s : State) (w : Nat) (f : Workgroup → Workgroup) : (s.updWg w f).dies = s.dies := rfl
@[simp] theorem updWg_reqs (s : State) (w : Nat) (f : Workgroup → Workgroup) : (s.updWg w f).reqs = s.reqs := rfl
@[simp] theorem updWg_rqers (s : State) (w : Nat) (f : Workgroup → Workgroup) : (s.updWg w f).rqers = s.rqers := rfl
@[simp] theorem updWg_rcache (s : State) (w : Nat) (f : Workgroup → Workgroup) : (s.updWg w f).rcache = s.rcache := rfl
@[simp] theorem updWg_upds (s : State) (w : Nat) (f : Workgroup → Workgroup) : (s.updWg w f).upds = s.upds := rfl
@[simp] theorem updWg_colls (s : State) (w : Nat) (f : Workgroup → Workgroup) : (s.updWg w f).colls = s.colls := rfl
@[simp] theorem updWg_curAtt (s : State) (w : Nat) (f : Workgroup → Workgroup) : (s.updWg w f).curAtt = s.curAtt := rfl
@[simp] theorem updWg_tokens (s : State) (w : Nat) (f : Workgroup → Workgroup) : (s.updWg w f).tokens = s.tokens := rfl
@[simp] theorem updWg_injs (s : State) (w : Nat) (f : Workgroup → Workgroup) : (s.updWg w f).injs = s.injs := rfl
@[simp] theorem updWg_quads (s : State) (w : Nat) (f : Workgroup → Workgroup) : (s.updWg w f).quads = s.quads := rfl
@[simp] theorem updWg_reach (s : State) (w : Nat) (f : Workgroup → Workgroup) : (s.updWg w f).reach = s.reach := rfl
@[simp] theorem updWg_checks (s : State) (w : Nat) (f : Workgroup → Workgroup) : (s.updWg w f).checks = s.checks := rfl
@[simp] theorem updWg_passes (s : State) (w : Nat) (f : Workgroup → Workgroup) : (s.updWg w f).passes = s.passes := rfl
@[simp] theorem updWg_hostOut (s : State) (w : Nat) (f : Workgroup → Workgroup) : (s.updWg w f).hostOut = s.hostOut := rfl
@[simp] theorem updWg_sec (s : State) (w : Nat) (f : Workgroup → Workgroup) : (s.updWg w f).sec = s.sec := rfl

@[simp] theorem updGrid_agenda (s : State) (k : Nat) (f : Grid → Grid) : (s.updGrid k f).agenda = s.agenda := rfl
@[simp] theorem updGrid_turn (s : State) (k : Nat) (f : Grid → Grid) : (s.updGrid k f).turn = s.turn := rfl
@[simp] theorem updGrid_free (s : State) (k : Nat) (f : Grid → Grid) : (s.updGrid k f).free = s.free := rfl
@[simp] theorem updGrid_cur (s : State) (k : Nat) (f : Grid → Grid) : (s.updGrid k f).cur = s.cur := rfl
@[simp] theorem updGrid_clock (s : State) (k : Nat) (f : Grid → Grid) : (s.updGrid k f).clock = s.clock := rfl
@[simp] theorem updGrid_fresh (s : State) (k : Nat) (f : Grid → Grid) : (s.updGrid k f).fresh = s.fresh := rfl
@[simp] theorem updGrid_mem (s : State) (k : Nat) (f : Grid → Grid) : (s.updGrid k f).mem = s.mem := rfl
@[simp] theorem updGrid_wms (s : State) (k : Nat) (f : Grid → Grid) : (s.updGrid k f).wms = s.wms := rfl
@[simp] theorem updGrid_recs (s : State) (k : Nat) (f : Grid → Grid) : (s.updGrid k f).recs = s.recs := rfl
@[simp] theorem updGrid_invs (s : State) (k : Nat) (f : Grid → Grid) : (s.updGrid k f).invs = s.invs := rfl
@[simp] theorem updGrid_poison (s : State) (k : Nat) (f : Grid → Grid) : (s.updGrid k f).poison = s.poison := rfl
@[simp] theorem updGrid_strong (s : State) (k : Nat) (f : Grid → Grid) : (s.updGrid k f).strong = s.strong := rfl
@[simp] theorem updGrid_l2 (s : State) (k : Nat) (f : Grid → Grid) : (s.updGrid k f).l2 = s.l2 := rfl
@[simp] theorem updGrid_locks (s : State) (k : Nat) (f : Grid → Grid) : (s.updGrid k f).locks = s.locks := rfl
@[simp] theorem updGrid_holds (s : State) (k : Nat) (f : Grid → Grid) : (s.updGrid k f).holds = s.holds := rfl
@[simp] theorem updGrid_owners (s : State) (k : Nat) (f : Grid → Grid) : (s.updGrid k f).owners = s.owners := rfl
@[simp] theorem updGrid_groups (s : State) (k : Nat) (f : Grid → Grid) : (s.updGrid k f).groups = s.groups := rfl
@[simp] theorem updGrid_tents (s : State) (k : Nat) (f : Grid → Grid) : (s.updGrid k f).tents = s.tents := rfl
@[simp] theorem updGrid_dir (s : State) (k : Nat) (f : Grid → Grid) : (s.updGrid k f).dir = s.dir := rfl
@[simp] theorem updGrid_wgs (s : State) (k : Nat) (f : Grid → Grid) : (s.updGrid k f).wgs = s.wgs := rfl
@[simp] theorem updGrid_gangs (s : State) (k : Nat) (f : Grid → Grid) : (s.updGrid k f).gangs = s.gangs := rfl
@[simp] theorem updGrid_spaces (s : State) (k : Nat) (f : Grid → Grid) : (s.updGrid k f).spaces = s.spaces := rfl
@[simp] theorem updGrid_parts (s : State) (k : Nat) (f : Grid → Grid) : (s.updGrid k f).parts = s.parts := rfl
@[simp] theorem updGrid_queues (s : State) (k : Nat) (f : Grid → Grid) : (s.updGrid k f).queues = s.queues := rfl
@[simp] theorem updGrid_packets (s : State) (k : Nat) (f : Grid → Grid) : (s.updGrid k f).packets = s.packets := rfl
@[simp] theorem updGrid_rr (s : State) (k : Nat) (f : Grid → Grid) : (s.updGrid k f).rr = s.rr := rfl
@[simp] theorem updGrid_lbs (s : State) (k : Nat) (f : Grid → Grid) : (s.updGrid k f).lbs = s.lbs := rfl
@[simp] theorem updGrid_cores (s : State) (k : Nat) (f : Grid → Grid) : (s.updGrid k f).cores = s.cores := rfl
@[simp] theorem updGrid_dies (s : State) (k : Nat) (f : Grid → Grid) : (s.updGrid k f).dies = s.dies := rfl
@[simp] theorem updGrid_reqs (s : State) (k : Nat) (f : Grid → Grid) : (s.updGrid k f).reqs = s.reqs := rfl
@[simp] theorem updGrid_rqers (s : State) (k : Nat) (f : Grid → Grid) : (s.updGrid k f).rqers = s.rqers := rfl
@[simp] theorem updGrid_rcache (s : State) (k : Nat) (f : Grid → Grid) : (s.updGrid k f).rcache = s.rcache := rfl
@[simp] theorem updGrid_upds (s : State) (k : Nat) (f : Grid → Grid) : (s.updGrid k f).upds = s.upds := rfl
@[simp] theorem updGrid_colls (s : State) (k : Nat) (f : Grid → Grid) : (s.updGrid k f).colls = s.colls := rfl
@[simp] theorem updGrid_curAtt (s : State) (k : Nat) (f : Grid → Grid) : (s.updGrid k f).curAtt = s.curAtt := rfl
@[simp] theorem updGrid_tokens (s : State) (k : Nat) (f : Grid → Grid) : (s.updGrid k f).tokens = s.tokens := rfl
@[simp] theorem updGrid_injs (s : State) (k : Nat) (f : Grid → Grid) : (s.updGrid k f).injs = s.injs := rfl
@[simp] theorem updGrid_quads (s : State) (k : Nat) (f : Grid → Grid) : (s.updGrid k f).quads = s.quads := rfl
@[simp] theorem updGrid_reach (s : State) (k : Nat) (f : Grid → Grid) : (s.updGrid k f).reach = s.reach := rfl
@[simp] theorem updGrid_checks (s : State) (k : Nat) (f : Grid → Grid) : (s.updGrid k f).checks = s.checks := rfl
@[simp] theorem updGrid_passes (s : State) (k : Nat) (f : Grid → Grid) : (s.updGrid k f).passes = s.passes := rfl
@[simp] theorem updGrid_hostOut (s : State) (k : Nat) (f : Grid → Grid) : (s.updGrid k f).hostOut = s.hostOut := rfl
@[simp] theorem updGrid_sec (s : State) (k : Nat) (f : Grid → Grid) : (s.updGrid k f).sec = s.sec := rfl

@[simp] theorem updSpace_agenda (s : State) (k : Nat) (f : Space → Space) : (s.updSpace k f).agenda = s.agenda := rfl
@[simp] theorem updSpace_turn (s : State) (k : Nat) (f : Space → Space) : (s.updSpace k f).turn = s.turn := rfl
@[simp] theorem updSpace_free (s : State) (k : Nat) (f : Space → Space) : (s.updSpace k f).free = s.free := rfl
@[simp] theorem updSpace_cur (s : State) (k : Nat) (f : Space → Space) : (s.updSpace k f).cur = s.cur := rfl
@[simp] theorem updSpace_clock (s : State) (k : Nat) (f : Space → Space) : (s.updSpace k f).clock = s.clock := rfl
@[simp] theorem updSpace_fresh (s : State) (k : Nat) (f : Space → Space) : (s.updSpace k f).fresh = s.fresh := rfl
@[simp] theorem updSpace_mem (s : State) (k : Nat) (f : Space → Space) : (s.updSpace k f).mem = s.mem := rfl
@[simp] theorem updSpace_wms (s : State) (k : Nat) (f : Space → Space) : (s.updSpace k f).wms = s.wms := rfl
@[simp] theorem updSpace_recs (s : State) (k : Nat) (f : Space → Space) : (s.updSpace k f).recs = s.recs := rfl
@[simp] theorem updSpace_invs (s : State) (k : Nat) (f : Space → Space) : (s.updSpace k f).invs = s.invs := rfl
@[simp] theorem updSpace_poison (s : State) (k : Nat) (f : Space → Space) : (s.updSpace k f).poison = s.poison := rfl
@[simp] theorem updSpace_strong (s : State) (k : Nat) (f : Space → Space) : (s.updSpace k f).strong = s.strong := rfl
@[simp] theorem updSpace_l2 (s : State) (k : Nat) (f : Space → Space) : (s.updSpace k f).l2 = s.l2 := rfl
@[simp] theorem updSpace_locks (s : State) (k : Nat) (f : Space → Space) : (s.updSpace k f).locks = s.locks := rfl
@[simp] theorem updSpace_holds (s : State) (k : Nat) (f : Space → Space) : (s.updSpace k f).holds = s.holds := rfl
@[simp] theorem updSpace_owners (s : State) (k : Nat) (f : Space → Space) : (s.updSpace k f).owners = s.owners := rfl
@[simp] theorem updSpace_groups (s : State) (k : Nat) (f : Space → Space) : (s.updSpace k f).groups = s.groups := rfl
@[simp] theorem updSpace_tents (s : State) (k : Nat) (f : Space → Space) : (s.updSpace k f).tents = s.tents := rfl
@[simp] theorem updSpace_dir (s : State) (k : Nat) (f : Space → Space) : (s.updSpace k f).dir = s.dir := rfl
@[simp] theorem updSpace_wgs (s : State) (k : Nat) (f : Space → Space) : (s.updSpace k f).wgs = s.wgs := rfl
@[simp] theorem updSpace_gangs (s : State) (k : Nat) (f : Space → Space) : (s.updSpace k f).gangs = s.gangs := rfl
@[simp] theorem updSpace_grids (s : State) (k : Nat) (f : Space → Space) : (s.updSpace k f).grids = s.grids := rfl
@[simp] theorem updSpace_parts (s : State) (k : Nat) (f : Space → Space) : (s.updSpace k f).parts = s.parts := rfl
@[simp] theorem updSpace_queues (s : State) (k : Nat) (f : Space → Space) : (s.updSpace k f).queues = s.queues := rfl
@[simp] theorem updSpace_packets (s : State) (k : Nat) (f : Space → Space) : (s.updSpace k f).packets = s.packets := rfl
@[simp] theorem updSpace_rr (s : State) (k : Nat) (f : Space → Space) : (s.updSpace k f).rr = s.rr := rfl
@[simp] theorem updSpace_lbs (s : State) (k : Nat) (f : Space → Space) : (s.updSpace k f).lbs = s.lbs := rfl
@[simp] theorem updSpace_cores (s : State) (k : Nat) (f : Space → Space) : (s.updSpace k f).cores = s.cores := rfl
@[simp] theorem updSpace_dies (s : State) (k : Nat) (f : Space → Space) : (s.updSpace k f).dies = s.dies := rfl
@[simp] theorem updSpace_reqs (s : State) (k : Nat) (f : Space → Space) : (s.updSpace k f).reqs = s.reqs := rfl
@[simp] theorem updSpace_rqers (s : State) (k : Nat) (f : Space → Space) : (s.updSpace k f).rqers = s.rqers := rfl
@[simp] theorem updSpace_rcache (s : State) (k : Nat) (f : Space → Space) : (s.updSpace k f).rcache = s.rcache := rfl
@[simp] theorem updSpace_upds (s : State) (k : Nat) (f : Space → Space) : (s.updSpace k f).upds = s.upds := rfl
@[simp] theorem updSpace_colls (s : State) (k : Nat) (f : Space → Space) : (s.updSpace k f).colls = s.colls := rfl
@[simp] theorem updSpace_curAtt (s : State) (k : Nat) (f : Space → Space) : (s.updSpace k f).curAtt = s.curAtt := rfl
@[simp] theorem updSpace_tokens (s : State) (k : Nat) (f : Space → Space) : (s.updSpace k f).tokens = s.tokens := rfl
@[simp] theorem updSpace_injs (s : State) (k : Nat) (f : Space → Space) : (s.updSpace k f).injs = s.injs := rfl
@[simp] theorem updSpace_quads (s : State) (k : Nat) (f : Space → Space) : (s.updSpace k f).quads = s.quads := rfl
@[simp] theorem updSpace_reach (s : State) (k : Nat) (f : Space → Space) : (s.updSpace k f).reach = s.reach := rfl
@[simp] theorem updSpace_checks (s : State) (k : Nat) (f : Space → Space) : (s.updSpace k f).checks = s.checks := rfl
@[simp] theorem updSpace_passes (s : State) (k : Nat) (f : Space → Space) : (s.updSpace k f).passes = s.passes := rfl
@[simp] theorem updSpace_hostOut (s : State) (k : Nat) (f : Space → Space) : (s.updSpace k f).hostOut = s.hostOut := rfl
@[simp] theorem updSpace_sec (s : State) (k : Nat) (f : Space → Space) : (s.updSpace k f).sec = s.sec := rfl

@[simp] theorem updCore_agenda (s : State) (c : Nat) (f : Core → Core) : (s.updCore c f).agenda = s.agenda := rfl
@[simp] theorem updCore_turn (s : State) (c : Nat) (f : Core → Core) : (s.updCore c f).turn = s.turn := rfl
@[simp] theorem updCore_free (s : State) (c : Nat) (f : Core → Core) : (s.updCore c f).free = s.free := rfl
@[simp] theorem updCore_cur (s : State) (c : Nat) (f : Core → Core) : (s.updCore c f).cur = s.cur := rfl
@[simp] theorem updCore_clock (s : State) (c : Nat) (f : Core → Core) : (s.updCore c f).clock = s.clock := rfl
@[simp] theorem updCore_fresh (s : State) (c : Nat) (f : Core → Core) : (s.updCore c f).fresh = s.fresh := rfl
@[simp] theorem updCore_mem (s : State) (c : Nat) (f : Core → Core) : (s.updCore c f).mem = s.mem := rfl
@[simp] theorem updCore_wms (s : State) (c : Nat) (f : Core → Core) : (s.updCore c f).wms = s.wms := rfl
@[simp] theorem updCore_recs (s : State) (c : Nat) (f : Core → Core) : (s.updCore c f).recs = s.recs := rfl
@[simp] theorem updCore_invs (s : State) (c : Nat) (f : Core → Core) : (s.updCore c f).invs = s.invs := rfl
@[simp] theorem updCore_poison (s : State) (c : Nat) (f : Core → Core) : (s.updCore c f).poison = s.poison := rfl
@[simp] theorem updCore_strong (s : State) (c : Nat) (f : Core → Core) : (s.updCore c f).strong = s.strong := rfl
@[simp] theorem updCore_l2 (s : State) (c : Nat) (f : Core → Core) : (s.updCore c f).l2 = s.l2 := rfl
@[simp] theorem updCore_locks (s : State) (c : Nat) (f : Core → Core) : (s.updCore c f).locks = s.locks := rfl
@[simp] theorem updCore_holds (s : State) (c : Nat) (f : Core → Core) : (s.updCore c f).holds = s.holds := rfl
@[simp] theorem updCore_owners (s : State) (c : Nat) (f : Core → Core) : (s.updCore c f).owners = s.owners := rfl
@[simp] theorem updCore_groups (s : State) (c : Nat) (f : Core → Core) : (s.updCore c f).groups = s.groups := rfl
@[simp] theorem updCore_tents (s : State) (c : Nat) (f : Core → Core) : (s.updCore c f).tents = s.tents := rfl
@[simp] theorem updCore_dir (s : State) (c : Nat) (f : Core → Core) : (s.updCore c f).dir = s.dir := rfl
@[simp] theorem updCore_wgs (s : State) (c : Nat) (f : Core → Core) : (s.updCore c f).wgs = s.wgs := rfl
@[simp] theorem updCore_gangs (s : State) (c : Nat) (f : Core → Core) : (s.updCore c f).gangs = s.gangs := rfl
@[simp] theorem updCore_grids (s : State) (c : Nat) (f : Core → Core) : (s.updCore c f).grids = s.grids := rfl
@[simp] theorem updCore_spaces (s : State) (c : Nat) (f : Core → Core) : (s.updCore c f).spaces = s.spaces := rfl
@[simp] theorem updCore_parts (s : State) (c : Nat) (f : Core → Core) : (s.updCore c f).parts = s.parts := rfl
@[simp] theorem updCore_queues (s : State) (c : Nat) (f : Core → Core) : (s.updCore c f).queues = s.queues := rfl
@[simp] theorem updCore_packets (s : State) (c : Nat) (f : Core → Core) : (s.updCore c f).packets = s.packets := rfl
@[simp] theorem updCore_rr (s : State) (c : Nat) (f : Core → Core) : (s.updCore c f).rr = s.rr := rfl
@[simp] theorem updCore_lbs (s : State) (c : Nat) (f : Core → Core) : (s.updCore c f).lbs = s.lbs := rfl
@[simp] theorem updCore_dies (s : State) (c : Nat) (f : Core → Core) : (s.updCore c f).dies = s.dies := rfl
@[simp] theorem updCore_reqs (s : State) (c : Nat) (f : Core → Core) : (s.updCore c f).reqs = s.reqs := rfl
@[simp] theorem updCore_rqers (s : State) (c : Nat) (f : Core → Core) : (s.updCore c f).rqers = s.rqers := rfl
@[simp] theorem updCore_rcache (s : State) (c : Nat) (f : Core → Core) : (s.updCore c f).rcache = s.rcache := rfl
@[simp] theorem updCore_upds (s : State) (c : Nat) (f : Core → Core) : (s.updCore c f).upds = s.upds := rfl
@[simp] theorem updCore_colls (s : State) (c : Nat) (f : Core → Core) : (s.updCore c f).colls = s.colls := rfl
@[simp] theorem updCore_curAtt (s : State) (c : Nat) (f : Core → Core) : (s.updCore c f).curAtt = s.curAtt := rfl
@[simp] theorem updCore_tokens (s : State) (c : Nat) (f : Core → Core) : (s.updCore c f).tokens = s.tokens := rfl
@[simp] theorem updCore_injs (s : State) (c : Nat) (f : Core → Core) : (s.updCore c f).injs = s.injs := rfl
@[simp] theorem updCore_quads (s : State) (c : Nat) (f : Core → Core) : (s.updCore c f).quads = s.quads := rfl
@[simp] theorem updCore_reach (s : State) (c : Nat) (f : Core → Core) : (s.updCore c f).reach = s.reach := rfl
@[simp] theorem updCore_checks (s : State) (c : Nat) (f : Core → Core) : (s.updCore c f).checks = s.checks := rfl
@[simp] theorem updCore_passes (s : State) (c : Nat) (f : Core → Core) : (s.updCore c f).passes = s.passes := rfl
@[simp] theorem updCore_hostOut (s : State) (c : Nat) (f : Core → Core) : (s.updCore c f).hostOut = s.hostOut := rfl
@[simp] theorem updCore_sec (s : State) (c : Nat) (f : Core → Core) : (s.updCore c f).sec = s.sec := rfl

@[simp] theorem updLb_agenda (s : State) (k : Nat) (f : LaneBlock → LaneBlock) : (s.updLb k f).agenda = s.agenda := rfl
@[simp] theorem updLb_turn (s : State) (k : Nat) (f : LaneBlock → LaneBlock) : (s.updLb k f).turn = s.turn := rfl
@[simp] theorem updLb_free (s : State) (k : Nat) (f : LaneBlock → LaneBlock) : (s.updLb k f).free = s.free := rfl
@[simp] theorem updLb_cur (s : State) (k : Nat) (f : LaneBlock → LaneBlock) : (s.updLb k f).cur = s.cur := rfl
@[simp] theorem updLb_clock (s : State) (k : Nat) (f : LaneBlock → LaneBlock) : (s.updLb k f).clock = s.clock := rfl
@[simp] theorem updLb_fresh (s : State) (k : Nat) (f : LaneBlock → LaneBlock) : (s.updLb k f).fresh = s.fresh := rfl
@[simp] theorem updLb_mem (s : State) (k : Nat) (f : LaneBlock → LaneBlock) : (s.updLb k f).mem = s.mem := rfl
@[simp] theorem updLb_wms (s : State) (k : Nat) (f : LaneBlock → LaneBlock) : (s.updLb k f).wms = s.wms := rfl
@[simp] theorem updLb_recs (s : State) (k : Nat) (f : LaneBlock → LaneBlock) : (s.updLb k f).recs = s.recs := rfl
@[simp] theorem updLb_invs (s : State) (k : Nat) (f : LaneBlock → LaneBlock) : (s.updLb k f).invs = s.invs := rfl
@[simp] theorem updLb_poison (s : State) (k : Nat) (f : LaneBlock → LaneBlock) : (s.updLb k f).poison = s.poison := rfl
@[simp] theorem updLb_strong (s : State) (k : Nat) (f : LaneBlock → LaneBlock) : (s.updLb k f).strong = s.strong := rfl
@[simp] theorem updLb_l2 (s : State) (k : Nat) (f : LaneBlock → LaneBlock) : (s.updLb k f).l2 = s.l2 := rfl
@[simp] theorem updLb_locks (s : State) (k : Nat) (f : LaneBlock → LaneBlock) : (s.updLb k f).locks = s.locks := rfl
@[simp] theorem updLb_holds (s : State) (k : Nat) (f : LaneBlock → LaneBlock) : (s.updLb k f).holds = s.holds := rfl
@[simp] theorem updLb_owners (s : State) (k : Nat) (f : LaneBlock → LaneBlock) : (s.updLb k f).owners = s.owners := rfl
@[simp] theorem updLb_groups (s : State) (k : Nat) (f : LaneBlock → LaneBlock) : (s.updLb k f).groups = s.groups := rfl
@[simp] theorem updLb_tents (s : State) (k : Nat) (f : LaneBlock → LaneBlock) : (s.updLb k f).tents = s.tents := rfl
@[simp] theorem updLb_dir (s : State) (k : Nat) (f : LaneBlock → LaneBlock) : (s.updLb k f).dir = s.dir := rfl
@[simp] theorem updLb_wgs (s : State) (k : Nat) (f : LaneBlock → LaneBlock) : (s.updLb k f).wgs = s.wgs := rfl
@[simp] theorem updLb_gangs (s : State) (k : Nat) (f : LaneBlock → LaneBlock) : (s.updLb k f).gangs = s.gangs := rfl
@[simp] theorem updLb_grids (s : State) (k : Nat) (f : LaneBlock → LaneBlock) : (s.updLb k f).grids = s.grids := rfl
@[simp] theorem updLb_spaces (s : State) (k : Nat) (f : LaneBlock → LaneBlock) : (s.updLb k f).spaces = s.spaces := rfl
@[simp] theorem updLb_parts (s : State) (k : Nat) (f : LaneBlock → LaneBlock) : (s.updLb k f).parts = s.parts := rfl
@[simp] theorem updLb_queues (s : State) (k : Nat) (f : LaneBlock → LaneBlock) : (s.updLb k f).queues = s.queues := rfl
@[simp] theorem updLb_packets (s : State) (k : Nat) (f : LaneBlock → LaneBlock) : (s.updLb k f).packets = s.packets := rfl
@[simp] theorem updLb_rr (s : State) (k : Nat) (f : LaneBlock → LaneBlock) : (s.updLb k f).rr = s.rr := rfl
@[simp] theorem updLb_cores (s : State) (k : Nat) (f : LaneBlock → LaneBlock) : (s.updLb k f).cores = s.cores := rfl
@[simp] theorem updLb_dies (s : State) (k : Nat) (f : LaneBlock → LaneBlock) : (s.updLb k f).dies = s.dies := rfl
@[simp] theorem updLb_reqs (s : State) (k : Nat) (f : LaneBlock → LaneBlock) : (s.updLb k f).reqs = s.reqs := rfl
@[simp] theorem updLb_rqers (s : State) (k : Nat) (f : LaneBlock → LaneBlock) : (s.updLb k f).rqers = s.rqers := rfl
@[simp] theorem updLb_rcache (s : State) (k : Nat) (f : LaneBlock → LaneBlock) : (s.updLb k f).rcache = s.rcache := rfl
@[simp] theorem updLb_upds (s : State) (k : Nat) (f : LaneBlock → LaneBlock) : (s.updLb k f).upds = s.upds := rfl
@[simp] theorem updLb_colls (s : State) (k : Nat) (f : LaneBlock → LaneBlock) : (s.updLb k f).colls = s.colls := rfl
@[simp] theorem updLb_curAtt (s : State) (k : Nat) (f : LaneBlock → LaneBlock) : (s.updLb k f).curAtt = s.curAtt := rfl
@[simp] theorem updLb_tokens (s : State) (k : Nat) (f : LaneBlock → LaneBlock) : (s.updLb k f).tokens = s.tokens := rfl
@[simp] theorem updLb_injs (s : State) (k : Nat) (f : LaneBlock → LaneBlock) : (s.updLb k f).injs = s.injs := rfl
@[simp] theorem updLb_quads (s : State) (k : Nat) (f : LaneBlock → LaneBlock) : (s.updLb k f).quads = s.quads := rfl
@[simp] theorem updLb_reach (s : State) (k : Nat) (f : LaneBlock → LaneBlock) : (s.updLb k f).reach = s.reach := rfl
@[simp] theorem updLb_checks (s : State) (k : Nat) (f : LaneBlock → LaneBlock) : (s.updLb k f).checks = s.checks := rfl
@[simp] theorem updLb_passes (s : State) (k : Nat) (f : LaneBlock → LaneBlock) : (s.updLb k f).passes = s.passes := rfl
@[simp] theorem updLb_hostOut (s : State) (k : Nat) (f : LaneBlock → LaneBlock) : (s.updLb k f).hostOut = s.hostOut := rfl
@[simp] theorem updLb_sec (s : State) (k : Nat) (f : LaneBlock → LaneBlock) : (s.updLb k f).sec = s.sec := rfl

@[simp] theorem updDie_agenda (s : State) (d : Nat) (f : Die → Die) : (s.updDie d f).agenda = s.agenda := rfl
@[simp] theorem updDie_turn (s : State) (d : Nat) (f : Die → Die) : (s.updDie d f).turn = s.turn := rfl
@[simp] theorem updDie_free (s : State) (d : Nat) (f : Die → Die) : (s.updDie d f).free = s.free := rfl
@[simp] theorem updDie_cur (s : State) (d : Nat) (f : Die → Die) : (s.updDie d f).cur = s.cur := rfl
@[simp] theorem updDie_clock (s : State) (d : Nat) (f : Die → Die) : (s.updDie d f).clock = s.clock := rfl
@[simp] theorem updDie_fresh (s : State) (d : Nat) (f : Die → Die) : (s.updDie d f).fresh = s.fresh := rfl
@[simp] theorem updDie_mem (s : State) (d : Nat) (f : Die → Die) : (s.updDie d f).mem = s.mem := rfl
@[simp] theorem updDie_wms (s : State) (d : Nat) (f : Die → Die) : (s.updDie d f).wms = s.wms := rfl
@[simp] theorem updDie_recs (s : State) (d : Nat) (f : Die → Die) : (s.updDie d f).recs = s.recs := rfl
@[simp] theorem updDie_invs (s : State) (d : Nat) (f : Die → Die) : (s.updDie d f).invs = s.invs := rfl
@[simp] theorem updDie_poison (s : State) (d : Nat) (f : Die → Die) : (s.updDie d f).poison = s.poison := rfl
@[simp] theorem updDie_strong (s : State) (d : Nat) (f : Die → Die) : (s.updDie d f).strong = s.strong := rfl
@[simp] theorem updDie_l2 (s : State) (d : Nat) (f : Die → Die) : (s.updDie d f).l2 = s.l2 := rfl
@[simp] theorem updDie_locks (s : State) (d : Nat) (f : Die → Die) : (s.updDie d f).locks = s.locks := rfl
@[simp] theorem updDie_holds (s : State) (d : Nat) (f : Die → Die) : (s.updDie d f).holds = s.holds := rfl
@[simp] theorem updDie_owners (s : State) (d : Nat) (f : Die → Die) : (s.updDie d f).owners = s.owners := rfl
@[simp] theorem updDie_groups (s : State) (d : Nat) (f : Die → Die) : (s.updDie d f).groups = s.groups := rfl
@[simp] theorem updDie_tents (s : State) (d : Nat) (f : Die → Die) : (s.updDie d f).tents = s.tents := rfl
@[simp] theorem updDie_dir (s : State) (d : Nat) (f : Die → Die) : (s.updDie d f).dir = s.dir := rfl
@[simp] theorem updDie_wgs (s : State) (d : Nat) (f : Die → Die) : (s.updDie d f).wgs = s.wgs := rfl
@[simp] theorem updDie_gangs (s : State) (d : Nat) (f : Die → Die) : (s.updDie d f).gangs = s.gangs := rfl
@[simp] theorem updDie_grids (s : State) (d : Nat) (f : Die → Die) : (s.updDie d f).grids = s.grids := rfl
@[simp] theorem updDie_spaces (s : State) (d : Nat) (f : Die → Die) : (s.updDie d f).spaces = s.spaces := rfl
@[simp] theorem updDie_parts (s : State) (d : Nat) (f : Die → Die) : (s.updDie d f).parts = s.parts := rfl
@[simp] theorem updDie_queues (s : State) (d : Nat) (f : Die → Die) : (s.updDie d f).queues = s.queues := rfl
@[simp] theorem updDie_packets (s : State) (d : Nat) (f : Die → Die) : (s.updDie d f).packets = s.packets := rfl
@[simp] theorem updDie_rr (s : State) (d : Nat) (f : Die → Die) : (s.updDie d f).rr = s.rr := rfl
@[simp] theorem updDie_lbs (s : State) (d : Nat) (f : Die → Die) : (s.updDie d f).lbs = s.lbs := rfl
@[simp] theorem updDie_cores (s : State) (d : Nat) (f : Die → Die) : (s.updDie d f).cores = s.cores := rfl
@[simp] theorem updDie_reqs (s : State) (d : Nat) (f : Die → Die) : (s.updDie d f).reqs = s.reqs := rfl
@[simp] theorem updDie_rqers (s : State) (d : Nat) (f : Die → Die) : (s.updDie d f).rqers = s.rqers := rfl
@[simp] theorem updDie_rcache (s : State) (d : Nat) (f : Die → Die) : (s.updDie d f).rcache = s.rcache := rfl
@[simp] theorem updDie_upds (s : State) (d : Nat) (f : Die → Die) : (s.updDie d f).upds = s.upds := rfl
@[simp] theorem updDie_colls (s : State) (d : Nat) (f : Die → Die) : (s.updDie d f).colls = s.colls := rfl
@[simp] theorem updDie_curAtt (s : State) (d : Nat) (f : Die → Die) : (s.updDie d f).curAtt = s.curAtt := rfl
@[simp] theorem updDie_tokens (s : State) (d : Nat) (f : Die → Die) : (s.updDie d f).tokens = s.tokens := rfl
@[simp] theorem updDie_injs (s : State) (d : Nat) (f : Die → Die) : (s.updDie d f).injs = s.injs := rfl
@[simp] theorem updDie_quads (s : State) (d : Nat) (f : Die → Die) : (s.updDie d f).quads = s.quads := rfl
@[simp] theorem updDie_reach (s : State) (d : Nat) (f : Die → Die) : (s.updDie d f).reach = s.reach := rfl
@[simp] theorem updDie_checks (s : State) (d : Nat) (f : Die → Die) : (s.updDie d f).checks = s.checks := rfl
@[simp] theorem updDie_passes (s : State) (d : Nat) (f : Die → Die) : (s.updDie d f).passes = s.passes := rfl
@[simp] theorem updDie_hostOut (s : State) (d : Nat) (f : Die → Die) : (s.updDie d f).hostOut = s.hostOut := rfl
@[simp] theorem updDie_sec (s : State) (d : Nat) (f : Die → Die) : (s.updDie d f).sec = s.sec := rfl

@[simp] theorem updPart_agenda (s : State) (p : Nat) (f : Partition → Partition) : (s.updPart p f).agenda = s.agenda := rfl
@[simp] theorem updPart_turn (s : State) (p : Nat) (f : Partition → Partition) : (s.updPart p f).turn = s.turn := rfl
@[simp] theorem updPart_free (s : State) (p : Nat) (f : Partition → Partition) : (s.updPart p f).free = s.free := rfl
@[simp] theorem updPart_cur (s : State) (p : Nat) (f : Partition → Partition) : (s.updPart p f).cur = s.cur := rfl
@[simp] theorem updPart_clock (s : State) (p : Nat) (f : Partition → Partition) : (s.updPart p f).clock = s.clock := rfl
@[simp] theorem updPart_fresh (s : State) (p : Nat) (f : Partition → Partition) : (s.updPart p f).fresh = s.fresh := rfl
@[simp] theorem updPart_mem (s : State) (p : Nat) (f : Partition → Partition) : (s.updPart p f).mem = s.mem := rfl
@[simp] theorem updPart_wms (s : State) (p : Nat) (f : Partition → Partition) : (s.updPart p f).wms = s.wms := rfl
@[simp] theorem updPart_recs (s : State) (p : Nat) (f : Partition → Partition) : (s.updPart p f).recs = s.recs := rfl
@[simp] theorem updPart_invs (s : State) (p : Nat) (f : Partition → Partition) : (s.updPart p f).invs = s.invs := rfl
@[simp] theorem updPart_poison (s : State) (p : Nat) (f : Partition → Partition) : (s.updPart p f).poison = s.poison := rfl
@[simp] theorem updPart_strong (s : State) (p : Nat) (f : Partition → Partition) : (s.updPart p f).strong = s.strong := rfl
@[simp] theorem updPart_l2 (s : State) (p : Nat) (f : Partition → Partition) : (s.updPart p f).l2 = s.l2 := rfl
@[simp] theorem updPart_locks (s : State) (p : Nat) (f : Partition → Partition) : (s.updPart p f).locks = s.locks := rfl
@[simp] theorem updPart_holds (s : State) (p : Nat) (f : Partition → Partition) : (s.updPart p f).holds = s.holds := rfl
@[simp] theorem updPart_owners (s : State) (p : Nat) (f : Partition → Partition) : (s.updPart p f).owners = s.owners := rfl
@[simp] theorem updPart_groups (s : State) (p : Nat) (f : Partition → Partition) : (s.updPart p f).groups = s.groups := rfl
@[simp] theorem updPart_tents (s : State) (p : Nat) (f : Partition → Partition) : (s.updPart p f).tents = s.tents := rfl
@[simp] theorem updPart_dir (s : State) (p : Nat) (f : Partition → Partition) : (s.updPart p f).dir = s.dir := rfl
@[simp] theorem updPart_wgs (s : State) (p : Nat) (f : Partition → Partition) : (s.updPart p f).wgs = s.wgs := rfl
@[simp] theorem updPart_gangs (s : State) (p : Nat) (f : Partition → Partition) : (s.updPart p f).gangs = s.gangs := rfl
@[simp] theorem updPart_grids (s : State) (p : Nat) (f : Partition → Partition) : (s.updPart p f).grids = s.grids := rfl
@[simp] theorem updPart_spaces (s : State) (p : Nat) (f : Partition → Partition) : (s.updPart p f).spaces = s.spaces := rfl
@[simp] theorem updPart_queues (s : State) (p : Nat) (f : Partition → Partition) : (s.updPart p f).queues = s.queues := rfl
@[simp] theorem updPart_packets (s : State) (p : Nat) (f : Partition → Partition) : (s.updPart p f).packets = s.packets := rfl
@[simp] theorem updPart_rr (s : State) (p : Nat) (f : Partition → Partition) : (s.updPart p f).rr = s.rr := rfl
@[simp] theorem updPart_lbs (s : State) (p : Nat) (f : Partition → Partition) : (s.updPart p f).lbs = s.lbs := rfl
@[simp] theorem updPart_cores (s : State) (p : Nat) (f : Partition → Partition) : (s.updPart p f).cores = s.cores := rfl
@[simp] theorem updPart_dies (s : State) (p : Nat) (f : Partition → Partition) : (s.updPart p f).dies = s.dies := rfl
@[simp] theorem updPart_reqs (s : State) (p : Nat) (f : Partition → Partition) : (s.updPart p f).reqs = s.reqs := rfl
@[simp] theorem updPart_rqers (s : State) (p : Nat) (f : Partition → Partition) : (s.updPart p f).rqers = s.rqers := rfl
@[simp] theorem updPart_rcache (s : State) (p : Nat) (f : Partition → Partition) : (s.updPart p f).rcache = s.rcache := rfl
@[simp] theorem updPart_upds (s : State) (p : Nat) (f : Partition → Partition) : (s.updPart p f).upds = s.upds := rfl
@[simp] theorem updPart_colls (s : State) (p : Nat) (f : Partition → Partition) : (s.updPart p f).colls = s.colls := rfl
@[simp] theorem updPart_curAtt (s : State) (p : Nat) (f : Partition → Partition) : (s.updPart p f).curAtt = s.curAtt := rfl
@[simp] theorem updPart_tokens (s : State) (p : Nat) (f : Partition → Partition) : (s.updPart p f).tokens = s.tokens := rfl
@[simp] theorem updPart_injs (s : State) (p : Nat) (f : Partition → Partition) : (s.updPart p f).injs = s.injs := rfl
@[simp] theorem updPart_quads (s : State) (p : Nat) (f : Partition → Partition) : (s.updPart p f).quads = s.quads := rfl
@[simp] theorem updPart_reach (s : State) (p : Nat) (f : Partition → Partition) : (s.updPart p f).reach = s.reach := rfl
@[simp] theorem updPart_checks (s : State) (p : Nat) (f : Partition → Partition) : (s.updPart p f).checks = s.checks := rfl
@[simp] theorem updPart_passes (s : State) (p : Nat) (f : Partition → Partition) : (s.updPart p f).passes = s.passes := rfl
@[simp] theorem updPart_hostOut (s : State) (p : Nat) (f : Partition → Partition) : (s.updPart p f).hostOut = s.hostOut := rfl
@[simp] theorem updPart_sec (s : State) (p : Nat) (f : Partition → Partition) : (s.updPart p f).sec = s.sec := rfl

@[simp] theorem updReq_agenda (s : State) (r : Nat) (f : Req → Req) : (s.updReq r f).agenda = s.agenda := rfl
@[simp] theorem updReq_turn (s : State) (r : Nat) (f : Req → Req) : (s.updReq r f).turn = s.turn := rfl
@[simp] theorem updReq_free (s : State) (r : Nat) (f : Req → Req) : (s.updReq r f).free = s.free := rfl
@[simp] theorem updReq_cur (s : State) (r : Nat) (f : Req → Req) : (s.updReq r f).cur = s.cur := rfl
@[simp] theorem updReq_clock (s : State) (r : Nat) (f : Req → Req) : (s.updReq r f).clock = s.clock := rfl
@[simp] theorem updReq_fresh (s : State) (r : Nat) (f : Req → Req) : (s.updReq r f).fresh = s.fresh := rfl
@[simp] theorem updReq_mem (s : State) (r : Nat) (f : Req → Req) : (s.updReq r f).mem = s.mem := rfl
@[simp] theorem updReq_wms (s : State) (r : Nat) (f : Req → Req) : (s.updReq r f).wms = s.wms := rfl
@[simp] theorem updReq_recs (s : State) (r : Nat) (f : Req → Req) : (s.updReq r f).recs = s.recs := rfl
@[simp] theorem updReq_invs (s : State) (r : Nat) (f : Req → Req) : (s.updReq r f).invs = s.invs := rfl
@[simp] theorem updReq_poison (s : State) (r : Nat) (f : Req → Req) : (s.updReq r f).poison = s.poison := rfl
@[simp] theorem updReq_strong (s : State) (r : Nat) (f : Req → Req) : (s.updReq r f).strong = s.strong := rfl
@[simp] theorem updReq_l2 (s : State) (r : Nat) (f : Req → Req) : (s.updReq r f).l2 = s.l2 := rfl
@[simp] theorem updReq_locks (s : State) (r : Nat) (f : Req → Req) : (s.updReq r f).locks = s.locks := rfl
@[simp] theorem updReq_holds (s : State) (r : Nat) (f : Req → Req) : (s.updReq r f).holds = s.holds := rfl
@[simp] theorem updReq_owners (s : State) (r : Nat) (f : Req → Req) : (s.updReq r f).owners = s.owners := rfl
@[simp] theorem updReq_groups (s : State) (r : Nat) (f : Req → Req) : (s.updReq r f).groups = s.groups := rfl
@[simp] theorem updReq_tents (s : State) (r : Nat) (f : Req → Req) : (s.updReq r f).tents = s.tents := rfl
@[simp] theorem updReq_dir (s : State) (r : Nat) (f : Req → Req) : (s.updReq r f).dir = s.dir := rfl
@[simp] theorem updReq_wgs (s : State) (r : Nat) (f : Req → Req) : (s.updReq r f).wgs = s.wgs := rfl
@[simp] theorem updReq_gangs (s : State) (r : Nat) (f : Req → Req) : (s.updReq r f).gangs = s.gangs := rfl
@[simp] theorem updReq_grids (s : State) (r : Nat) (f : Req → Req) : (s.updReq r f).grids = s.grids := rfl
@[simp] theorem updReq_spaces (s : State) (r : Nat) (f : Req → Req) : (s.updReq r f).spaces = s.spaces := rfl
@[simp] theorem updReq_parts (s : State) (r : Nat) (f : Req → Req) : (s.updReq r f).parts = s.parts := rfl
@[simp] theorem updReq_queues (s : State) (r : Nat) (f : Req → Req) : (s.updReq r f).queues = s.queues := rfl
@[simp] theorem updReq_packets (s : State) (r : Nat) (f : Req → Req) : (s.updReq r f).packets = s.packets := rfl
@[simp] theorem updReq_rr (s : State) (r : Nat) (f : Req → Req) : (s.updReq r f).rr = s.rr := rfl
@[simp] theorem updReq_lbs (s : State) (r : Nat) (f : Req → Req) : (s.updReq r f).lbs = s.lbs := rfl
@[simp] theorem updReq_cores (s : State) (r : Nat) (f : Req → Req) : (s.updReq r f).cores = s.cores := rfl
@[simp] theorem updReq_dies (s : State) (r : Nat) (f : Req → Req) : (s.updReq r f).dies = s.dies := rfl
@[simp] theorem updReq_rqers (s : State) (r : Nat) (f : Req → Req) : (s.updReq r f).rqers = s.rqers := rfl
@[simp] theorem updReq_rcache (s : State) (r : Nat) (f : Req → Req) : (s.updReq r f).rcache = s.rcache := rfl
@[simp] theorem updReq_upds (s : State) (r : Nat) (f : Req → Req) : (s.updReq r f).upds = s.upds := rfl
@[simp] theorem updReq_colls (s : State) (r : Nat) (f : Req → Req) : (s.updReq r f).colls = s.colls := rfl
@[simp] theorem updReq_curAtt (s : State) (r : Nat) (f : Req → Req) : (s.updReq r f).curAtt = s.curAtt := rfl
@[simp] theorem updReq_tokens (s : State) (r : Nat) (f : Req → Req) : (s.updReq r f).tokens = s.tokens := rfl
@[simp] theorem updReq_injs (s : State) (r : Nat) (f : Req → Req) : (s.updReq r f).injs = s.injs := rfl
@[simp] theorem updReq_quads (s : State) (r : Nat) (f : Req → Req) : (s.updReq r f).quads = s.quads := rfl
@[simp] theorem updReq_reach (s : State) (r : Nat) (f : Req → Req) : (s.updReq r f).reach = s.reach := rfl
@[simp] theorem updReq_checks (s : State) (r : Nat) (f : Req → Req) : (s.updReq r f).checks = s.checks := rfl
@[simp] theorem updReq_passes (s : State) (r : Nat) (f : Req → Req) : (s.updReq r f).passes = s.passes := rfl
@[simp] theorem updReq_hostOut (s : State) (r : Nat) (f : Req → Req) : (s.updReq r f).hostOut = s.hostOut := rfl
@[simp] theorem updReq_sec (s : State) (r : Nat) (f : Req → Req) : (s.updReq r f).sec = s.sec := rfl

/-! ### The updated tables -/

@[simp] theorem updGroup_find (s : State) (gs k : Nat) (f : Group → Group) :
    Tbl.find (s.updGroup gs f).groups k = if k = gs then (Tbl.find s.groups gs).map f else Tbl.find s.groups k := find_upd _ _ _ _
@[simp] theorem updWg_find (s : State) (w k : Nat) (f : Workgroup → Workgroup) :
    Tbl.find (s.updWg w f).wgs k = if k = w then (Tbl.find s.wgs w).map f else Tbl.find s.wgs k := find_upd _ _ _ _
@[simp] theorem updGrid_find (s : State) (w k : Nat) (f : Grid → Grid) :
    Tbl.find (s.updGrid w f).grids k = if k = w then (Tbl.find s.grids w).map f else Tbl.find s.grids k := find_upd _ _ _ _
@[simp] theorem updSpace_find (s : State) (w k : Nat) (f : Space → Space) :
    Tbl.find (s.updSpace w f).spaces k = if k = w then (Tbl.find s.spaces w).map f else Tbl.find s.spaces k := find_upd _ _ _ _
@[simp] theorem updPart_find (s : State) (w k : Nat) (f : Partition → Partition) :
    Tbl.find (s.updPart w f).parts k = if k = w then (Tbl.find s.parts w).map f else Tbl.find s.parts k := find_upd _ _ _ _
@[simp] theorem updReq_find (s : State) (w k : Nat) (f : Req → Req) :
    Tbl.find (s.updReq w f).reqs k = if k = w then (Tbl.find s.reqs w).map f else Tbl.find s.reqs k := find_upd _ _ _ _
@[simp] theorem updCore_core (s : State) (c k : Nat) (f : Core → Core) :
    (s.updCore c f).core k = if k = c then f (s.core c) else s.core k := by
  simp only [State.updCore, State.core, find_put]; split <;> rfl
@[simp] theorem updLb_lb (s : State) (c k : Nat) (f : LaneBlock → LaneBlock) :
    (s.updLb c f).lb k = if k = c then f (s.lb c) else s.lb k := by
  simp only [State.updLb, State.lb, find_put]; split <;> rfl
@[simp] theorem updDie_die (s : State) (c k : Nat) (f : Die → Die) :
    (s.updDie c f).die k = if k = c then f (s.die c) else s.die k := by
  simp only [State.updDie, State.die, find_put]; split <;> rfl

end Sys2Proof.Laws
end

