-- ==== Sys2Proof/Laws/Issue.lean ====
section
/-! SUPPORT. What the shared frame of every word does: the checks of a word that nothing keeps from performing, the retirement,
the delivery of register writes, the logging of pops. -/

namespace Sys2Proof.Laws

open Sys2Proof.Machine

/-- The word as its own effect sees it: lanes of transactions may have been aborted, nothing else of the group differs. -/
theorem restrictTx_tx (i : Instr) (f : Info) (g : Group) (m : Mask) : ∃ x, restrictTx i f g m = { g with tx := x } := by
  unfold restrictTx Group.txAbort
  split
  · split
    · exact ⟨g.tx, rfl⟩
    · exact ⟨_, rfl⟩
  · exact ⟨g.tx, rfl⟩

theorem decodeCause_none {s : State} {i : Instr} {f : Info} {w : Word} (h : Goes s i f w) :
    decodeCause i f w.g w.sup (((s.gridOf w.g).map Grid.team).getD 0) w.slot.mask w.act = none := by
  have h1 : (!i.wellFormed || misused i w.g (((s.gridOf w.g).map Grid.team).getD 0)) = false := by simp [h.formed, h.used]
  have h2 : ((f.priv || restricted i) && !w.sup) = false := by
    cases hs : w.sup
    · have := h.mode
      rw [hs] at this
      simp only [Bool.not_false, Bool.and_true]
      cases hp : f.priv <;> cases hr : restricted i <;> simp_all
    · simp
  have h3 : (((f.dst ++ f.src).flatMap Use.vregs).any (fun n => decide (w.g.n ≤ n))) = false := by
    rw [List.any_eq_false]
    intro n hn
    obtain ⟨u, hu, hm⟩ := List.mem_flatMap.mp hn
    have := h.inN u hu n hm
    simp only [decide_eq_true_eq]
    omega
  have h4 : (!wordPairOk i) = false := by simp [h.pairs]
  have h5 : ((!f.team || isIssuer (((s.gridOf w.g).map Grid.team).getD 0) w.g.gidx) && (infoRefs f).any (fun r => w.g.pend.contains r)) = false := by
    cases ht : (!f.team || isIssuer (((s.gridOf w.g).map Grid.team).getD 0) w.g.gidx)
    · simp
    · have hf := h.free (by cases hh : f.team <;> simp_all)
      simp only [Bool.true_and]
      rw [List.any_eq_false]
      intro r hr
      simpa using hf r hr
  unfold decodeCause
  simp only [h1, h2, h3, h4, h5]
  rfl

theorem gate_free {s : State} {spid kind lane : Nat} {name : Nat × Nat × Nat} {rwc : W32} {key : Nat}
    (h : (s.space spid).replay = none) : s.gate spid kind lane name rwc key = .free := by
  unfold State.gate; simp [h]

theorem popGate_free {s : State} {gs : Nat} {g : Group} (h : (s.space (s.spidOf g)).replay = none) (l : List Nat) :
    s.popGate gs g l = .free := by
  unfold State.popGate
  have : (l.map fun q => s.gate (s.spidOf g) 3 0xFF (s.nameOf g) (s.rwcNow gs g) (s.queueKey g q)) = l.map fun _ => Gate.free :=
    List.map_congr_left fun q _ => gate_free h
  rw [this]
  clear this
  induction l with
  | nil => rfl
  | cons a t ih => simp only [List.map_cons, List.find?_cons]; exact ih

/-- A word that nothing keeps from performing: its own effect, then its retirement. -/
theorem issue_goes {s : State} {i : Instr} {f : Info} {w : Word} (h : Goes s i f w) (k : Word → State → Eff) :
    s.issue i k = .next
      (match k { w with g := restrictTx i f w.g w.act } { s with groups := Tbl.put s.groups w.gs (restrictTx i f w.g w.act) } with
       | .trap c s1 =>
         if lateKind c.code && (((s.gridOf w.g).map Grid.fenced).getD false) then
           (s1.raise w.gs ⟨w.slot.pc, s.rwcNow w.gs w.g, w.g.nissue, w.b⟩ c).retire s1 w f false true 1
         else s1.raise w.gs ⟨w.slot.pc, s.rwcNow w.gs w.g, w.g.nissue, w.b⟩ c
       | .wait why s1 => s1.park w.gs w.b why
       | .again s1 => s1
       | .done s1 => (s1.logPops w.g (s.rwcNow w.gs w.g) (queuesOf f.src)).retire s w f (s.settledWord (s.spidOf w.g) i f) true 1
       | .moved s1 n =>
         (s1.logPops w.g (s.rwcNow w.gs w.g) (queuesOf f.src)).retire s w f (s.settledWord (s.spidOf w.g) i f) false n) := by
  have hd := decodeCause_none h
  have hq : (infoQuiet f && s.service w.g && s.mayFaultLate w.gs ||
      s.settledWord (s.spidOf w.g) i f && !((Tbl.find s.tents w.gs).getD []).isEmpty) = false := by
    have a := h.quiet
    have b := h.settled
    cases ha : infoQuiet f <;> cases hb : s.service w.g <;> cases hc : s.settledWord (s.spidOf w.g) i f <;> simp_all
  have hpush : (pushes f && s.fenceWaits w.gs w.g.wg .wg) = false := by
    cases hp : pushes f
    · rfl
    · exact h.push hp
  have ha : ((s.dirOf w.gs).want.isSome && releases i) = false := by
    rcases h.advance with a | a <;> simp [a]
  have hr : ((queuesOf (f.dst ++ f.src)).any (fun q => decide (((s.gridOf w.g).map Grid.nq).getD 0 ≤ q))) = false := by
    rw [List.any_eq_false]
    intro q hq
    have := h.queues q hq
    simp only [decide_eq_true_eq]
    omega
  have hs : ((Tbl.find s.wgs w.g.wg).bind fun x => queueStall (((s.gridOf w.g).map Grid.qdepth).getD 0) x f) = none := by
    cases hx : Tbl.find s.wgs w.g.wg with
    | none => rfl
    | some x => exact h.room x hx
  have hw : mkWord s w.gs w.b w.g w.slot f = w := h.word.symm
  have h0 : s.issue i k = .next (s.runWord w.gs w.b w.g w.slot i f k) := by
    unfold State.issue
    simp only [h.cur, h.info, h.group, h.slot]
  rw [h0]
  unfold State.runWord
  simp only [hw, hd, hq, hpush, Bool.or_self, ha, hr, hs, popGate_free h.plays, Bool.false_eq_true, if_false]
  first
  | done
  | cases k { w with g := restrictTx i f w.g w.act } { s with groups := Tbl.put s.groups w.gs (restrictTx i f w.g w.act) } <;> rfl

/-- The parts of the machine that a word of registers, its retirement and the logging of its pops may change. -/
def Within (s t : State) : Prop :=
  ∃ gr wg rq lb te di fr me sp wm rc st, t = { s with
    groups := gr, wgs := wg, reqs := rq, lbs := lb, tents := te, dir := di, fresh := fr, mem := me, spaces := sp
    wms := wm, recs := rc, strong := st }

theorem Within.refl (s : State) : Within s s := ⟨_, _, _, _, _, _, _, _, _, _, _, _, rfl⟩

theorem Within.trans {a b c : State} (h : Within a b) (k : Within b c) : Within a c := by
  obtain ⟨_, _, _, _, _, _, _, _, _, _, _, _, rfl⟩ := h
  obtain ⟨_, _, _, _, _, _, _, _, _, _, _, _, rfl⟩ := k
  exact ⟨_, _, _, _, _, _, _, _, _, _, _, _, rfl⟩

theorem Within.rest {s t : State} (h : Within s t) : t = { s with
    groups := t.groups, wgs := t.wgs, reqs := t.reqs, lbs := t.lbs, tents := t.tents, dir := t.dir, fresh := t.fresh
    mem := t.mem, spaces := t.spaces, wms := t.wms, recs := t.recs, strong := t.strong } := by
  obtain ⟨_, _, _, _, _, _, _, _, _, _, _, _, rfl⟩ := h
  rfl

/-- What a word's retirement may change of its group (17, R398). -/
abbrev Retires (g h : Group) : Prop := g.Accounted h

theorem Retires.refl (g : Group) : Retires g g := rfl

theorem Retires.trans {a b c : Group} (h : Retires a b) (k : Retires b c) : Retires a c := by
  unfold Retires Group.Accounted at *
  rw [k, h]

theorem Retires.same {g h : Group} (r : Retires g h) : SameGroup g h ∧ h.regs = g.regs ∧ h.pend = g.pend ∧ h.chk = g.chk ∧ h.tx = g.tx := by
  unfold Retires Group.Accounted at r
  rw [r]
  exact ⟨⟨rfl, rfl, rfl, rfl, rfl, rfl, rfl, rfl, ⟨rfl, rfl, rfl⟩, ⟨rfl, rfl, rfl⟩, ⟨rfl, rfl, rfl, rfl⟩, ⟨rfl, rfl⟩, ⟨rfl, rfl, rfl, rfl⟩,
    ⟨rfl, rfl⟩⟩, rfl, rfl, rfl, rfl⟩

/-- A quiet point that settles changes the group's restart point alone. -/
theorem settleQuiet_spec (s : State) (gs : Nat) :
    (∃ gr, s.settleQuiet gs = { s with groups := gr }) ∧
    (∀ k, k ≠ gs → Tbl.find (s.settleQuiet gs).groups k = Tbl.find s.groups k) ∧
    (∀ g, Tbl.find s.groups gs = some g → ∃ h, Tbl.find (s.settleQuiet gs).groups gs = some h ∧ Retires g h ∧
      h.nissue = g.nissue ∧ h.rwc = g.rwc ∧ h.slotA = g.slotA ∧ h.slotB = g.slotB) := by
  unfold State.settleQuiet
  cases hg : Tbl.find s.groups gs with
  | none => exact ⟨⟨_, rfl⟩, fun _ _ => rfl, fun g h => nomatch h⟩
  | some g =>
    simp only
    cases hq : g.quietAt with
    | none => exact ⟨⟨_, rfl⟩, fun _ _ => rfl, fun g' h => ⟨g', by simpa [hg] using h, .refl _, rfl, rfl, rfl, rfl⟩⟩
    | some b =>
      simp only
      split
      · exact ⟨⟨_, rfl⟩, fun _ _ => rfl, fun g' h => ⟨g', by simpa [hg] using h, .refl _, rfl, rfl, rfl, rfl⟩⟩
      · refine ⟨⟨_, rfl⟩, fun k hk => find_upd_other _ _ hk, fun g' h => ?_⟩
        refine ⟨_, (find_upd_self _ _ _).trans (by rw [hg]; rfl), ?_⟩
        injection h with h
        subst h
        exact ⟨rfl, rfl, rfl, rfl, rfl⟩

theorem slot_setSlot (g : Group) (b : Bool) (x : Option PcSlot) : (g.setSlot b x).slot b = x := by
  cases b <;> rfl

theorem after_spec (g : Group) (w : Word) (f : Info) (adv : Bool) :
    Retires g (g.after w f adv) ∧ (g.after w f adv).nissue = w.g.nissue + 1 ∧ (g.after w f adv).rwc = g.rwc ∧
    (∀ p, g.slot w.b = some p → ((g.after w f adv).slot w.b).map (·.pc) = some (if adv then p.pc + 8#64 else p.pc)) ∧
    (g.after w f adv).slot (!w.b) = g.slot (!w.b) := by
  cases hb : w.b <;> cases hp : g.slot w.b <;> simp_all [Group.after, Group.slot, Group.setSlot, Retires, Group.Accounted]

/-- Where the slots stand after a word. -/
theorem after_at (g : Group) (w : Word) (f : Info) (adv : Bool) (b : Bool) :
    (g.after w f adv).at b = if b = w.b ∧ adv = true then (g.at b).map (fun x => (x.1 + 8#64, x.2)) else g.at b := by
  cases b <;> cases hb : w.b <;> cases hp : g.slot w.b <;> cases adv <;>
    simp_all [Group.after, Group.slot, Group.setSlot, Group.at]

theorem rwcNow_of {s t : State} {gs : Nat} {g h : Group} {n : Nat} (x : BitVec 32)
    (hr : h.rwc = g.rwc + x)
    (ht : (((Tbl.find t.tents gs).getD []).map (·.n)).sum = (((Tbl.find s.tents gs).getD []).map (·.n)).sum + n) :
    t.rwcNow gs h = s.rwcNow gs g + x + BitVec.ofNat 32 n := by
  unfold State.rwcNow
  rw [hr, ht, BitVec.ofNat_add]
  generalize BitVec.ofNat 32 _ = a
  generalize BitVec.ofNat 32 _ = b
  grind

/-- The retirement of a word: it counts, its slot goes on where it is told to, nothing else of the group changes. -/
theorem retire_spec (s s0 : State) (w : Word) (f : Info) (atOnce advance : Bool) (n : Nat) (g : Group)
    (hg : Tbl.find s.groups w.gs = some g) :
    (∃ gr te lb, s.retire s0 w f atOnce advance n = { s with groups := gr, tents := te, lbs := lb }) ∧
    (∀ k, k ≠ w.gs → Tbl.find (s.retire s0 w f atOnce advance n).groups k = Tbl.find s.groups k) ∧
    ∃ h, Tbl.find (s.retire s0 w f atOnce advance n).groups w.gs = some h ∧ Retires g h ∧ h.nissue = w.g.nissue + 1 ∧
      (s.retire s0 w f atOnce advance n).rwcNow w.gs h = s.rwcNow w.gs g + BitVec.ofNat 32 n ∧
      (∀ p, g.slot w.b = some p → (h.slot w.b).map (·.pc) = some (if advance then p.pc + 8#64 else p.pc)) ∧
      h.slot (!w.b) = g.slot (!w.b) ∧
      ∀ b, h.at b = if b = w.b ∧ advance = true then (g.at b).map (fun x => (x.1 + 8#64, x.2)) else g.at b := by
  obtain ⟨hr, hn, hw, hp, ho⟩ := after_spec g w f advance
  have hat := after_at g w f advance
  unfold State.retire
  simp only [show (s.updLb (lbOf w.gs) fun b => { b with busy := s.clock + b.beats }).groups = s.groups from rfl, hg]
  cases atOnce with
  | true =>
    simp only [if_true]
    generalize hg3 : ({ g.after w f advance with rwc := _, quietAt := _ } : Group) = g3
    generalize hs1 : ({ s.updLb (lbOf w.gs) (fun b => { b with busy := s.clock + b.beats }) with
      groups := Tbl.put s.groups w.gs g3 } : State) = s1
    have h1 : Tbl.find s1.groups w.gs = some g3 := by rw [← hs1]; exact find_put_self _ _ _
    obtain ⟨⟨gr, ha⟩, hb, hc⟩ := settleQuiet_spec s1 w.gs
    obtain ⟨h, hf, hR, hN, hW, hA, hB⟩ := hc g3 h1
    have hr3 : Retires g g3 := by rw [← hg3]; unfold Retires Group.Accounted at hr ⊢; rw [hr]
    refine ⟨?_, ?_, h, hf, hr3.trans hR, ?_, ?_, ?_, ?_, ?_⟩
    · rw [ha, ← hs1]; exact ⟨_, _, _, rfl⟩
    · intro k hk
      rw [hb k hk, ← hs1]
      exact find_put_other _ _ hk
    · rw [hN, ← hg3]; exact hn
    · have := rwcNow_of (s := s) (t := s1.settleQuiet w.gs) (gs := w.gs) (g := g) (h := h) (n := 0) (BitVec.ofNat 32 n)
        (by rw [hW, ← hg3]; simp [hw]) (by rw [ha, ← hs1]; rfl)
      simpa using this
    · intro p hp'
      have : h.slot w.b = g3.slot w.b := by unfold Group.slot; rw [hA, hB]
      rw [this, ← hg3]
      exact hp p hp'
    · have : h.slot (!w.b) = g3.slot (!w.b) := by unfold Group.slot; rw [hA, hB]
      rw [this, ← hg3]
      exact ho
    · intro b
      have : h.at b = g3.at b := by unfold Group.at Group.slot; rw [hA, hB]
      rw [this, ← hg3]
      exact hat b
  | false =>
    simp only [Bool.false_eq_true, if_false]
    refine ⟨⟨_, _, _, rfl⟩, fun k hk => find_put_other _ _ hk, _, find_put_self _ _ _, hr, hn, ?_, hp, ho, hat⟩
    have := rwcNow_of (s := s) (gs := w.gs) (g := g) (h := g.after w f advance) (n := n) 0#32 (by simp [hw])
      (t := { s.updLb (lbOf w.gs) (fun b => { b with busy := s.clock + b.beats }) with
        groups := Tbl.put s.groups w.gs (g.after w f advance)
        tents := Tbl.put s.tents w.gs (((Tbl.find s.tents w.gs).getD []) ++ [⟨w.g.nissue, w.g, s.clock,
          (s.reqs.filter (fun e => decide (s0.fresh < e.1) && e.2.gs == w.gs)).map (·.1), n,
          if g.regAsk then some (w.slot.pc, w.slot.mask, w.g.join.length, w.g.spill.length) else none⟩]) })
      (by simp)
    simpa using this

end Sys2Proof.Laws
end

