-- ==== Sys2Proof/Laws/Deliver.lean ====
section
/-! SUPPORT. The delivery of a word's register writes: at once, as a long result, as entries of queues; what the logging of
pops may change. -/

namespace Sys2Proof.Laws

open Sys2Proof.Machine

/-! ### Register writes -/

theorem write_regs (g : Group) (x : RegW) : ∃ v s p, g.write x = { g with v := v, s := s, p := p } := by
  unfold Group.write
  split
  · exact ⟨_, _, _, rfl⟩
  · exact ⟨_, _, _, rfl⟩
  · split <;> exact ⟨_, _, _, rfl⟩
  · exact ⟨_, _, _, rfl⟩

theorem writes_regs (l : List RegW) (g : Group) : ∃ v s p, g.writes l = { g with v := v, s := s, p := p } := by
  unfold Group.writes
  induction l generalizing g with
  | nil => exact ⟨_, _, _, rfl⟩
  | cons x t ih =>
    obtain ⟨v, s, p, h⟩ := write_regs g x
    rw [List.foldl_cons, h]
    exact ih { g with v := v, s := s, p := p }

/-- The registers after writes depend on the registers before them alone. -/
theorem writes_congr (l : List RegW) (g h : Group) (e : g.regs = h.regs) : (g.writes l).regs = (h.writes l).regs := by
  unfold Group.writes
  induction l generalizing g h with
  | nil => exact e
  | cons x t ih =>
    rw [List.foldl_cons, List.foldl_cons]
    refine ih _ _ ?_
    simp only [Group.regs, Prod.mk.injEq] at e
    obtain ⟨a, b, c⟩ := e
    unfold Group.write
    cases x <;> simp [Group.regs, a, b, c]
    split <;> simp [a, b, c]

/-- No write of the list is a push. -/
def NoPush (l : List RegW) : Prop := ∀ x ∈ l, ∀ q m vals, x ≠ .push q m vals

/-- Writes of registers. -/
theorem applyWs_spec (l : List RegW) (hl : NoPush l) (s : State) (gs : Nat) (g : Group) (hg : Tbl.find s.groups gs = some g) :
    (∃ gr, s.applyWs gs l = { s with groups := gr }) ∧
    (∀ k, k ≠ gs → Tbl.find (s.applyWs gs l).groups k = Tbl.find s.groups k) ∧
    Tbl.find (s.applyWs gs l).groups gs = some (g.writes l) := by
  unfold State.applyWs Group.writes
  induction l generalizing s g with
  | nil => exact ⟨⟨_, rfl⟩, fun _ _ => rfl, hg⟩
  | cons x t ih =>
    simp only [List.foldl_cons]
    have hx : s.applyW gs x = s.updGroup gs fun g => g.write x := by
      cases x with
      | push q m vals => exact absurd rfl (hl _ (by simp) q m vals)
      | _ => rfl
    rw [hx]
    have h1 : Tbl.find (s.updGroup gs fun g => g.write x).groups gs = some (g.write x) := by
      simp [State.updGroup, find_upd_self, hg]
    obtain ⟨⟨gr, a⟩, b, c⟩ := ih (fun y hy => hl y (by simp [hy])) (s.updGroup gs fun g => g.write x) (g.write x) h1
    refine ⟨⟨gr, ?_⟩, ?_, c⟩
    · rw [a]; rfl
    · intro k hk
      rw [b k hk]
      exact find_upd_other _ _ hk

/-! ### Pushes -/

theorem incOf_congr {s t : State} {gs : Nat} (h : (t.dirOf gs).inc = (s.dirOf gs).inc) : t.incOf gs = s.incOf gs := h

theorem wantAdvance_dir (s : State) (gs : Nat) (why : Stall) (k : Nat) : ((s.wantAdvance gs why).dirOf k).inc = (s.dirOf k).inc := by
  unfold State.wantAdvance State.dirOf
  simp only [find_put]
  split
  · subst_vars; rfl
  · rfl

theorem tickRc_spec (s : State) (gs : Nat) (g : Group) (hg : Tbl.find s.groups gs = some g) :
    (∃ gr te di, s.tickRc gs = { s with groups := gr, tents := te, dir := di }) ∧
    (∀ k, k ≠ gs → Tbl.find (s.tickRc gs).groups k = Tbl.find s.groups k) ∧
    Tbl.find (s.tickRc gs).groups gs = some { g with chk := { g.chk with rc := g.chk.rc + 1#32 } } ∧
    (∀ k, (s.tickRc gs).incOf k = s.incOf k) ∧
    (((Tbl.find (s.tickRc gs).tents gs).getD []).map (·.n)).sum = (((Tbl.find s.tents gs).getD []).map (·.n)).sum := by
  have hs : ∀ f : Tent → Tent, (∀ t, (f t).n = t.n) →
      (((Tbl.find (Tbl.upd s.tents gs fun l => l.map f) gs).getD []).map (·.n)).sum = (((Tbl.find s.tents gs).getD []).map (·.n)).sum := by
    intro f hf
    rw [find_upd_self]
    cases Tbl.find s.tents gs with
    | none => rfl
    | some l =>
      simp only [Option.map_some, Option.getD_some, List.map_map]
      congr 1
      exact List.map_congr_left fun t _ => hf t
  unfold State.tickRc
  simp only [hg]
  split
  · refine ⟨⟨_, _, _, rfl⟩, fun k hk => find_put_other _ _ hk, find_put_self _ _ _, fun k => ?_, hs _ fun _ => rfl⟩
    exact incOf_congr (wantAdvance_dir _ _ _ _)
  · exact ⟨⟨_, _, _, rfl⟩, fun k hk => find_put_other _ _ hk, find_put_self _ _ _, fun k => rfl, hs _ fun _ => rfl⟩

theorem queue_setQueue (x : Workgroup) (q : Nat) (y : QState) : (x.setQueue q y).queue q = y := by
  simp [Workgroup.setQueue, Workgroup.queue]

/-- A push: the release clock rises and the entry stands behind the others. -/
theorem push_spec (s : State) (gs q : Nat) (m : Mask) (vals : List W32) (g : Group) (x : Workgroup)
    (hg : Tbl.find s.groups gs = some g) (hx : Tbl.find s.wgs g.wg = some x) :
    (∃ gr te di wg, s.push gs q m vals = { s with groups := gr, tents := te, dir := di, wgs := wg }) ∧
    (∀ k, k ≠ gs → Tbl.find (s.push gs q m vals).groups k = Tbl.find s.groups k) ∧
    (∀ k, k ≠ g.wg → Tbl.find (s.push gs q m vals).wgs k = Tbl.find s.wgs k) ∧
    Tbl.find (s.push gs q m vals).groups gs = some { g with chk := { g.chk with rc := g.chk.rc + 1#32 } } ∧
    (((Tbl.find (s.push gs q m vals).tents gs).getD []).map (·.n)).sum = (((Tbl.find s.tents gs).getD []).map (·.n)).sum ∧
    ∃ y, Tbl.find (s.push gs q m vals).wgs g.wg = some y ∧ y.grid = x.grid ∧
      (y.queue q).entries = (x.queue q).entries ++ [⟨vals, s.queueTag gs { g.chk with rc := g.chk.rc + 1#32 } m⟩] := by
  obtain ⟨⟨gr, te, di, h1⟩, h2, h3, h4, h5⟩ := tickRc_spec s gs g hg
  have ht : (s.tickRc gs).queueTag gs { g.chk with rc := g.chk.rc + 1#32 } m =
      s.queueTag gs { g.chk with rc := g.chk.rc + 1#32 } m := by
    unfold State.queueTag; rw [h4]
  have hw : (s.tickRc gs).wgs = s.wgs := by rw [h1]
  have hp : s.push gs q m vals = (s.tickRc gs).updWg g.wg fun w =>
      w.setQueue q { w.queue q with entries := (w.queue q).entries ++ [⟨vals, s.queueTag gs { g.chk with rc := g.chk.rc + 1#32 } m⟩] } := by
    unfold State.push
    simp only [h3, ht]
  rw [hp]
  refine ⟨?_, h2, ?_, h3, h5, ?_⟩
  · rw [h1]; exact ⟨_, _, _, _, rfl⟩
  · intro k hk
    show Tbl.find (Tbl.upd (s.tickRc gs).wgs g.wg _) k = _
    rw [find_upd_other _ _ hk, hw]
  · refine ⟨x.setQueue q { x.queue q with entries := (x.queue q).entries ++
      [⟨vals, s.queueTag gs { g.chk with rc := g.chk.rc + 1#32 } m⟩] }, (find_upd_self _ _ _).trans (by rw [hw, hx]; rfl), rfl, ?_⟩
    rw [queue_setQueue]

/-! ### Long results -/

theorem reserve_grid (l m : List Nat) (x : Workgroup) : (x.reserve l m).grid = x.grid := by
  have h1 : ∀ (l : List Nat) (x : Workgroup), (l.foldl (fun w q => let x := w.queue q; w.setQueue q { x with rsv := x.rsv + 1 }) x).grid = x.grid := by
    intro l
    induction l with
    | nil => intro x; rfl
    | cons a t ih => intro x; rw [List.foldl_cons, ih]; rfl
  have h2 : ∀ (l : List Nat) (x : Workgroup), (l.foldl (fun w q => let x := w.queue q; w.setQueue q { x with room := x.room + 1 }) x).grid = x.grid := by
    intro l
    induction l with
    | nil => intro x; rfl
    | cons a t ih => intro x; rw [List.foldl_cons, ih]; rfl
  unfold Workgroup.reserve
  rw [h2, h1]

/-- Only an S destination names S registers. -/
theorem isS_of_ref {u : Use} {n : Nat} (h : RegRef.s n ∈ useRefs u) : u.reg.isS = true := by
  unfold useRefs at h
  rcases List.mem_append.mp h with h | h
  · obtain ⟨_, _, e⟩ := List.mem_map.mp h
    cases e
  · obtain ⟨m, hm, _⟩ := List.mem_map.mp h
    unfold Use.sregs at hm
    unfold Reg.isS
    cases hr : u.reg <;> rw [hr] at hm <;> simp_all

/-- The pending bits that a long result sets, but for those set before. -/
def pendOf (w : Word) (f : Info) : List RegRef :=
  (f.dst.flatMap useRefs ++ (f.pd.filter (fun p => p.val != 7)).map (fun p => RegRef.p p.val)).filter
    (fun r => !w.g.pend.contains r && !(w.act == 0#32 && (match r with
      | .s _ => true
      | _ => false)))
theorem mem_pendOf {w : Word} {f : Info} {r : RegRef} (h : r ∈ longRefs f w.act) (hp : r ∉ w.g.pend) : r ∈ pendOf w f := by
  refine List.mem_filter.mpr ⟨?_, ?_⟩
  · rcases List.mem_append.mp h with h | h
    · obtain ⟨u, hu, hr⟩ := List.mem_flatMap.mp h
      exact List.mem_append.mpr (.inl (List.mem_flatMap.mpr ⟨u, (List.mem_filter.mp hu).1, hr⟩))
    · exact List.mem_append.mpr (.inr h)
  · rw [Bool.and_eq_true]
    refine ⟨by simpa using hp, ?_⟩
    cases r with
    | s n =>
      rcases List.mem_append.mp h with h | h
      · obtain ⟨u, hu, hr⟩ := List.mem_flatMap.mp h
        have := (List.mem_filter.mp hu).2
        rw [isS_of_ref hr, Bool.and_true] at this
        simpa using this
      · obtain ⟨_, _, e⟩ := List.mem_map.mp h
        cases e
    | v n => simp
    | p n => simp

/-- A long result is a request on its way, which carries the writes. -/
theorem sendResult_spec (s : State) (w : Word) (f : Info) (ws : List RegW) (pops : List Nat) (g : Group)
    (hg : Tbl.find s.groups w.gs = some g) :
    (∃ gr rq, s.sendResult w f ws pops = { s with groups := gr, reqs := rq, fresh := s.fresh + 1 }) ∧
    (∀ k, k ≠ w.gs → Tbl.find (s.sendResult w f ws pops).groups k = Tbl.find s.groups k) ∧
    (∃ h, Tbl.find (s.sendResult w f ws pops).groups w.gs = some h ∧
      h = { g with pend := g.pend ++ pendOf w f }) ∧
    ∃ r, Tbl.find (s.sendResult w f ws pops).reqs (s.fresh + 1) = some r ∧ r.gs = w.gs ∧ r.nth = w.g.nissue ∧
      r.kind = .result ws ∧ r.stage = .answered ∧ r.pops = pops := by
  refine ⟨⟨_, _, rfl⟩, fun k hk => find_upd_other _ _ hk, ⟨_, (find_upd_self _ _ _).trans (by rw [show State.groups { (s.newId).2 with reqs := _ } = s.groups from rfl, hg]; rfl), rfl⟩, ?_⟩
  exact ⟨_, find_put_self _ _ _, rfl, rfl, rfl, rfl, rfl⟩

/-! ### Logging of pops -/

/-- Of the machine only memory, contexts and what the homes keep of sectors may differ. -/
def Logs (s t : State) : Prop :=
  t = { s with mem := t.mem, spaces := t.spaces, wms := t.wms, recs := t.recs, strong := t.strong }
theorem Logs.refl (s : State) : Logs s s := rfl
theorem Logs.trans {a b c : State} (h : Logs a b) (k : Logs b c) : Logs a c := by
  unfold Logs at *
  rw [k, h]
theorem logs_words (s : State) (a : Nat) (l : List W64) : Logs s (s.wrWords a l) := rfl
theorem logs_space (s : State) (a : Nat) (f : Space → Space) : Logs s (s.updSpace a f) := rfl
theorem logs_dbg (s : State) (n : Nat) : Logs s (s.putDbg n) := logs_words ..

theorem logEvent_only (s : State) (spid kind lane : Nat) (name : Nat × Nat × Nat) (rwc : W32) (key : Nat) (v : W64) :
    ∃ me sp wm rc st, s.logEvent spid kind lane name rwc key v =
      { s with mem := me, spaces := sp, wms := wm, recs := rc, strong := st } := by
  suffices h : Logs s (s.logEvent spid kind lane name rwc key v) from ⟨_, _, _, _, _, h⟩
  unfold State.logEvent State.overflow
  dsimp only
  split
  · exact .refl s
  · split
    · exact (logs_space ..).trans (logs_dbg ..)
    · exact (logs_words ..).trans ((logs_space ..).trans (logs_dbg ..))

theorem logEvent_off (s : State) (spid kind lane : Nat) (name : Nat × Nat × Nat) (rwc : W32) (key : Nat) (v : W64)
    (h : (s.space spid).records = false) : s.logEvent spid kind lane name rwc key v = s := by
  unfold State.logEvent; simp [h]

theorem replay_updSpace (s : State) (a b : Nat) (f : Space → Space) (hf : ∀ p, (f p).replay = p.replay)
    (h : (s.space b).replay = none) : ((s.updSpace a f).space b).replay = none := by
  unfold State.updSpace State.space at *
  simp only [find_upd]
  split
  · rename_i e
    rw [e] at h
    cases hb : Tbl.find s.spaces a
    · rfl
    · rw [hb] at h; exact (hf _).trans h
  · exact h

theorem space_putDbg (s : State) (a b : Nat) : (s.putDbg a).space b = s.space b := rfl
theorem space_wrWords (s : State) (a b : Nat) (l : List W64) : (s.wrWords a l).space b = s.space b := rfl

theorem logEvent_replay (s : State) (a b kind lane : Nat) (name : Nat × Nat × Nat) (rwc : W32) (key : Nat) (v : W64)
    (h : (s.space b).replay = none) : ((s.logEvent a kind lane name rwc key v).space b).replay = none := by
  unfold State.logEvent
  dsimp only
  split
  · exact h
  · split
    · unfold State.overflow
      rw [space_putDbg]
      exact replay_updSpace s a b _ (fun _ => rfl) h
    · rw [space_putDbg]
      refine replay_updSpace _ a b _ (fun _ => rfl) ?_
      rw [space_wrWords]
      exact h

/-- Where nothing is re-executed, the logging of pops changes the debug area's log and its counts, and nothing where the context
does not record. -/
theorem logPops_spec (g : Group) (rwc : W32) (l : List Nat) (s : State) (h : (s.space (s.spidOf g)).replay = none) :
    (∃ me sp wm rc st, s.logPops g rwc l = { s with mem := me, spaces := sp, wms := wm, recs := rc, strong := st }) ∧
    ((s.space (s.spidOf g)).records = false → s.logPops g rwc l = s) ∧ (l = [] → s.logPops g rwc l = s) := by
  unfold State.logPops
  induction l generalizing s with
  | nil => exact ⟨⟨_, _, _, _, _, rfl⟩, fun _ => rfl, fun _ => rfl⟩
  | cons q t ih =>
    simp only [List.foldl_cons]
    have hq : s.logPop g rwc q = s.logGroup g 3 0xFF rwc (s.queueKey g q) 1#64 := by
      unfold State.logPop; rw [gate_free h]
    rw [hq]
    obtain ⟨me, sp, wm, rc, st, e⟩ := logEvent_only s (s.spidOf g) 3 0xFF (s.nameOf g) rwc (s.queueKey g q) 1#64
    have e' : s.logGroup g 3 0xFF rwc (s.queueKey g q) 1#64 = { s with mem := me, spaces := sp, wms := wm, recs := rc, strong := st } := e
    have hr : ((s.logGroup g 3 0xFF rwc (s.queueKey g q) 1#64).space ((s.logGroup g 3 0xFF rwc (s.queueKey g q) 1#64).spidOf g)).replay = none := by
      have : (s.logGroup g 3 0xFF rwc (s.queueKey g q) 1#64).spidOf g = s.spidOf g := by rw [e']; rfl
      rw [this]
      exact logEvent_replay _ _ _ _ _ _ _ _ _ h
    obtain ⟨⟨me2, sp2, wm2, rc2, st2, a⟩, b, _⟩ := ih _ hr
    refine ⟨⟨me2, sp2, wm2, rc2, st2, ?_⟩, fun hr => ?_, nofun⟩
    · rw [a, e']
    · have e2 : s.logGroup g 3 0xFF rwc (s.queueKey g q) 1#64 = s := logEvent_off _ _ _ _ _ _ _ _ hr
      rw [e2] at b ⊢
      exact b hr

end Sys2Proof.Laws
end

