-- ==== Sys2Proof/Laws/Alu.lean ====
section
/-! SUPPORT. A word that only computes on registers performs as `Performed` says, whatever its writes are. -/

namespace Sys2Proof.Laws

open Sys2Proof.Machine

theorem sameGroup_refl (g : Group) : SameGroup g g :=
  ⟨rfl, rfl, rfl, rfl, rfl, rfl, rfl, rfl, ⟨rfl, rfl, rfl⟩, ⟨rfl, rfl, rfl⟩, ⟨rfl, rfl, rfl, rfl⟩, ⟨rfl, rfl⟩, ⟨rfl, rfl, rfl, rfl⟩, ⟨rfl, rfl⟩⟩

theorem sameGroup_trans {a b c : Group} (h : SameGroup a b) (k : SameGroup b c) : SameGroup a c :=
  ⟨k.wg.trans h.wg, k.gidx.trans h.gidx, k.n.trans h.n, k.join.trans h.join, k.spill.trans h.spill, k.live.trans h.live,
   k.table.trans h.table, k.ic.trans h.ic,
   ⟨k.known.1.trans h.known.1, k.known.2.1.trans h.known.2.1, k.known.2.2.trans h.known.2.2⟩,
   ⟨k.passed.1.trans h.passed.1, k.passed.2.1.trans h.passed.2.1, k.passed.2.2.trans h.passed.2.2⟩,
   ⟨k.cls.1.trans h.cls.1, k.cls.2.1.trans h.cls.2.1, k.cls.2.2.1.trans h.cls.2.2.1, k.cls.2.2.2.trans h.cls.2.2.2⟩,
   ⟨k.time.1.trans h.time.1, k.time.2.trans h.time.2⟩,
   ⟨k.other.1.trans h.other.1, k.other.2.1.trans h.other.2.1, k.other.2.2.1.trans h.other.2.2.1, k.other.2.2.2.trans h.other.2.2.2⟩,
   ⟨k.stop.1.trans h.stop.1, k.stop.2.trans h.stop.2⟩⟩

theorem writes_same (g : Group) (l : List RegW) : SameGroup g (g.writes l) ∧ (g.writes l).pend = g.pend ∧
    (g.writes l).rwc = g.rwc ∧ (g.writes l).nissue = g.nissue ∧ (g.writes l).slotA = g.slotA ∧ (g.writes l).slotB = g.slotB ∧
    (g.writes l).chk = g.chk := by
  obtain ⟨v, s, p, h⟩ := writes_regs l g
  rw [h]
  exact ⟨⟨rfl, rfl, rfl, rfl, rfl, rfl, rfl, rfl, ⟨rfl, rfl, rfl⟩, ⟨rfl, rfl, rfl⟩, ⟨rfl, rfl, rfl, rfl⟩, ⟨rfl, rfl⟩, ⟨rfl, rfl, rfl, rfl⟩,
    ⟨rfl, rfl⟩⟩, rfl, rfl, rfl, rfl, rfl, rfl⟩

/-- What the delivery of a word's writes leaves. -/
structure Delivered (s t : State) (w : Word) (f : Info) (ws : List RegW) (g h : Group) : Prop where
  within : Within s t
  mem    : t.mem = s.mem ∧ t.spaces = s.spaces ∧ t.marks = s.marks
  groups : ∀ k, k ≠ w.gs → Tbl.find t.groups k = Tbl.find s.groups k
  wgs    : ∀ k, k ≠ w.g.wg → Tbl.find t.wgs k = Tbl.find s.wgs k
  grid   : ∀ x, Tbl.find s.wgs w.g.wg = some x → ∃ y, Tbl.find t.wgs w.g.wg = some y ∧ y.grid = x.grid
  none   : Tbl.find s.wgs w.g.wg = none → Tbl.find t.wgs w.g.wg = none
  group  : Tbl.find t.groups w.gs = some h
  same   : SameGroup g h
  slots  : h.slotA = g.slotA ∧ h.slotB = g.slotB
  counts : t.rwcNow w.gs h = s.rwcNow w.gs g
  now    : f.long = false → queuesOf f.src = [] → h.regs = (g.writes ws).regs ∧ h.pend = g.pend
  later  : f.long = true ∨ queuesOf f.src ≠ [] → ∃ r, Tbl.find t.reqs (s.fresh + 1) = some r ∧ r.gs = w.gs ∧
    r.nth = w.g.nissue ∧ r.kind = .result ws ∧ r.stage = .answered ∧ r.pops = queuesOf f.src ∧ h.regs = g.regs ∧
    h.pend = g.pend ++ pendOf w f
  pushed : f.long = false → queuesOf f.src = [] → ∀ q m vals, ws = [.push q m vals] → ∃ x y,
    Tbl.find s.wgs w.g.wg = some x ∧ Tbl.find t.wgs w.g.wg = some y ∧ h.chk.rc = g.chk.rc + 1#32 ∧
    (y.queue q).entries = (x.queue q).entries ++ [⟨vals, s.queueTag w.gs { g.chk with rc := g.chk.rc + 1#32 } m⟩]

theorem deliver_spec (s : State) (w : Word) (f : Info) (ws : List RegW) (g : Group)
    (hg : Tbl.find s.groups w.gs = some g) (hw : g.wg = w.g.wg)
    (hp : NoPush ws ∨ (∃ x, Tbl.find s.wgs w.g.wg = some x) ∧ ∃ q m vals, ws = [.push q m vals]) : ∃ h, Delivered s (s.deliver w f ws) w f ws g h := by
  unfold State.deliver
  dsimp only
  split
  · rename_i hl
    have hl' : f.long = true ∨ queuesOf f.src ≠ [] := by
      rcases Bool.or_eq_true _ _ |>.mp hl with a | a
      · exact .inl a
      · right; intro e; simp [e] at a
    generalize hps : (ws.filterMap _ : List Nat) = pushes
    generalize hs1 : (s.updWg w.g.wg fun x => x.reserve (queuesOf f.src) pushes) = s1
    have hg1 : Tbl.find s1.groups w.gs = some g := by rw [← hs1]; exact hg
    obtain ⟨⟨gr, rq, a⟩, b, ⟨h, hc, hd⟩, r, e⟩ := sendResult_spec s1 w f ws (queuesOf f.src) g hg1
    refine ⟨h, ?_, ?_, ?_, ?_, ?_, ?_, hc, ?_, ?_, ?_, ?_, ?_, ?_⟩
    · rw [a, ← hs1]; exact ⟨_, _, _, _, _, _, _, _, _, _, _, _, rfl⟩
    · rw [a, ← hs1]; exact ⟨rfl, rfl, rfl⟩
    · intro k hk; rw [b k hk, ← hs1]; rfl
    · intro k hk; rw [a, ← hs1]; exact find_upd_other _ _ hk
    · intro y hy
      refine ⟨_, ?_, reserve_grid (queuesOf f.src) pushes y⟩
      rw [a, ← hs1]
      exact (find_upd_self _ _ _).trans (by rw [hy]; rfl)
    · intro hy
      rw [a, ← hs1]
      exact (find_upd_self _ _ _).trans (by rw [hy]; rfl)
    · rw [hd]; exact ⟨rfl, rfl, rfl, rfl, rfl, rfl, rfl, rfl, ⟨rfl, rfl, rfl⟩, ⟨rfl, rfl, rfl⟩, ⟨rfl, rfl, rfl, rfl⟩, ⟨rfl, rfl⟩, ⟨rfl, rfl, rfl, rfl⟩,
        ⟨rfl, rfl⟩⟩
    · rw [hd]; exact ⟨rfl, rfl⟩
    · rw [a, ← hs1, hd]; rfl
    · intro h1 h2; rw [h1, h2] at hl'; simp at hl'
    · intro _
      refine ⟨r, ?_, e.2.1, e.2.2.1, e.2.2.2.1, e.2.2.2.2.1, e.2.2.2.2.2, by rw [hd]; rfl, by rw [hd]⟩
      have := e.1
      rw [← hs1] at this
      rw [← hs1]
      exact this
    · intro h1 h2; rw [h1, h2] at hl'; simp at hl'
  · rename_i hl
    have hl' : f.long = false ∧ queuesOf f.src = [] := by
      simp only [Bool.or_eq_true, Bool.not_eq_true', not_or] at hl
      refine ⟨by simpa using hl.1, ?_⟩
      have := hl.2
      cases hq : queuesOf f.src <;> simp_all
    rcases hp with hp | ⟨⟨x, hx⟩, q, m, vals, hp⟩
    · obtain ⟨⟨gr, a⟩, b, c⟩ := applyWs_spec ws hp s w.gs g hg
      obtain ⟨w1, w2, w3, w4, w5, w6, w7⟩ := writes_same g ws
      refine ⟨_, ?_, ?_, b, ?_, ?_, ?_, c, w1, ⟨w5, w6⟩, ?_, fun _ _ => ⟨rfl, w2⟩, ?_, ?_⟩
      · rw [a]; exact ⟨_, _, _, _, _, _, _, _, _, _, _, _, rfl⟩
      · rw [a]; exact ⟨rfl, rfl, rfl⟩
      · intro k hk; rw [a]
      · intro y hy; rw [a]; exact ⟨y, hy, rfl⟩
      · intro hy; rw [a]; exact hy
      · rw [a]; unfold State.rwcNow; rw [w3]
      · intro h; rw [hl'.1, hl'.2] at h; simp at h
      · intro _ _ q m vals hv; rw [hv] at hp; exact absurd rfl (hp _ (by simp) q m vals)
    · subst hp
      have hx' : Tbl.find s.wgs g.wg = some x := by rw [hw]; exact hx
      have ha : s.applyWs w.gs [.push q m vals] = s.push w.gs q m vals := rfl
      rw [ha]
      obtain ⟨⟨gr, te, di, wg, a⟩, b, c, d, e, y, hy, hyg, hye⟩ := push_spec s w.gs q m vals g x hg hx'
      refine ⟨_, ?_, ?_, b, by rw [← hw]; exact c, ?_, fun hn => (by rw [hx] at hn; cases hn), d, ?_, ⟨rfl, rfl⟩, ?_, fun _ _ => ⟨rfl, rfl⟩, ?_, ?_⟩
      · rw [a]; exact ⟨_, _, _, _, _, _, _, _, _, _, _, _, rfl⟩
      · rw [a]; exact ⟨rfl, rfl, rfl⟩
      · intro z hz
        rw [hx] at hz
        injection hz with hz
        rw [← hw, ← hz]
        exact ⟨y, hy, hyg⟩
      · exact ⟨rfl, rfl, rfl, rfl, rfl, rfl, rfl, rfl, ⟨rfl, rfl, rfl⟩, ⟨rfl, rfl, rfl⟩, ⟨rfl, rfl, rfl, rfl⟩, ⟨rfl, rfl⟩, ⟨rfl, rfl, rfl, rfl⟩, ⟨rfl, rfl⟩⟩
      · unfold State.rwcNow; rw [e]
      · intro h; rw [hl'.1, hl'.2] at h; simp at h
      · intro _ _ q' m' vals' hv
        injection hv with hv _
        injection hv with h1 h2 h3
        subst h1 h2 h3
        exact ⟨x, y, hx, by rw [← hw]; exact hy, rfl, hye⟩

theorem spidOf_congr {s t : State} {g : Group} (hgr : t.grids = s.grids)
    (h : ∀ x, Tbl.find s.wgs g.wg = some x → ∃ y, Tbl.find t.wgs g.wg = some y ∧ y.grid = x.grid)
    (hn : Tbl.find s.wgs g.wg = none → Tbl.find t.wgs g.wg = none) : t.spidOf g = s.spidOf g := by
  unfold State.spidOf State.gridOf
  cases hx : Tbl.find s.wgs g.wg with
  | none => rw [hn hx]; rfl
  | some x =>
    obtain ⟨y, hy, e⟩ := h x hx
    rw [hy, hgr]
    simp [e]

theorem queueTag_congr {s t : State} (h : t.dir = s.dir) (gs : Nat) (c : CheckState) (m : Mask) : t.queueTag gs c m = s.queueTag gs c m := by
  unfold State.queueTag State.incOf State.dirOf
  rw [h]

theorem queueTag_rc (s : State) (gs : Nat) (c d : CheckState) (m : Mask) (h1 : d.rc = c.rc) (h2 : d.table = c.table) (h3 : d.ic = c.ic) :
    s.queueTag gs d m = s.queueTag gs c m := by
  unfold State.queueTag
  rw [h1, h2, h3]

/-- Every word of registers performs where nothing keeps it from it. -/
theorem alu_performed {s : State} {i : Instr} {f : Info} {w : Word} (h : Goes s i f w) (k : Word → List RegW)
    (hk : ∀ x, k { w with g := { w.g with tx := x } } = k w) (he : exec i s = alu i k s)
    (hp : NoPush (k w) ∨ ∃ q m vals, k w = [.push q m vals] ∧ q ∈ queuesOf (f.dst ++ f.src)) : ∃ t, Performed s t i f w (k w) := by
  obtain ⟨x, hx⟩ := restrictTx_tx i f w.g w.act
  generalize hs1 : ({ s with groups := Tbl.put s.groups w.gs { w.g with tx := x } } : State) = s1
  have hg1 : Tbl.find s1.groups w.gs = some { w.g with tx := x } := by rw [← hs1]; exact find_put_self _ _ _
  have hp1 : NoPush (k w) ∨ (∃ x, Tbl.find s1.wgs w.g.wg = some x) ∧ ∃ q m vals, k w = [.push q m vals] := by
    rcases hp with hp | ⟨q, m, vals, hp, hq⟩
    · exact .inl hp
    · refine .inr ⟨?_, q, m, vals, hp⟩
      have := h.queues q hq
      rw [← hs1]
      cases hx : Tbl.find s.wgs w.g.wg with
      | none =>
        unfold State.gridOf at this
        rw [hx] at this
        exact absurd this (Nat.not_lt_zero _)
      | some x => exact ⟨x, rfl⟩
  generalize hw1 : ({ w with g := { w.g with tx := x } } : Word) = w1
  have hkw : k w1 = k w := by rw [← hw1]; exact hk x
  obtain ⟨g2, D⟩ := deliver_spec s1 w1 f (k w) { w.g with tx := x } (by rw [← hw1]; exact hg1) (by rw [← hw1])
    (by rw [← hw1]; exact hp1)
  have gs1 : w1.gs = w.gs := by rw [← hw1]
  have wg1 : w1.g.wg = w.g.wg := by rw [← hw1]
  have nis : w1.g.nissue = w.g.nissue := by rw [← hw1]
  have pd1 : w1.g.pend = w.g.pend := by rw [← hw1]
  generalize hs2 : s1.deliver w1 f (k w) = s2 at D
  have hsp : s2.spidOf w.g = s.spidOf w.g := by
    refine spidOf_congr ?_ ?_ fun hn => ?_
    · obtain ⟨_, _, _, _, _, _, _, _, _, _, _, _, e⟩ := D.within
      rw [e, ← hs1]
    · intro y hy
      have := D.grid y (by rw [wg1, ← hs1]; exact hy)
      rw [wg1] at this
      exact this
    · have := D.none (by rw [wg1, ← hs1]; exact hn)
      rw [wg1] at this
      exact this
  have hspace : ∀ n, s2.space n = s.space n := by
    intro n
    unfold State.space
    rw [D.mem.2.1, ← hs1]
  have hrep : (s2.space (s2.spidOf w.g)).replay = none := by rw [hsp, hspace]; exact h.plays
  obtain ⟨⟨me, sp, wm, rc, st, L1⟩, L2, L3⟩ := logPops_spec w.g (s.rwcNow w.gs w.g) (queuesOf f.src) s2 hrep
  generalize hs3 : s2.logPops w.g (s.rwcNow w.gs w.g) (queuesOf f.src) = s3 at L1 L2 L3
  have hg3 : Tbl.find s3.groups w.gs = some g2 := by rw [L1, ← gs1]; exact D.group
  obtain ⟨⟨gr, te, lb, R1⟩, R2, g4, R3, R4, R5, R6, R7, R8, _⟩ :=
    retire_spec s3 s w f (s.settledWord (s.spidOf w.g) i f) true 1 g2 hg3
  generalize hs4 : s3.retire s w f (s.settledWord (s.spidOf w.g) i f) true 1 = s4 at R1 R2 R3 R6
  have hex : exec i s = .next s4 := by
    rw [he]
    unfold alu
    rw [issue_goes h]
    simp only [hx, h.info]
    rw [hs1, hw1, hkw, hs2, hs3, hs4]
  obtain ⟨Q1, Q2, Q3, Q4, Q5⟩ := R4.same
  have hsl : g2.slot w.b = some w.slot := by
    have := h.slot
    unfold Group.slot at this ⊢
    rw [D.slots.1, D.slots.2]
    exact this
  have h01 : SameGroup w.g { w.g with tx := x } :=
    ⟨rfl, rfl, rfl, rfl, rfl, rfl, rfl, rfl, ⟨rfl, rfl, rfl⟩, ⟨rfl, rfl, rfl⟩, ⟨rfl, rfl, rfl, rfl⟩, ⟨rfl, rfl⟩, ⟨rfl, rfl, rfl, rfl⟩,
      ⟨rfl, rfl⟩⟩
  have tot : SameGroup w.g g4 := sameGroup_trans h01 (sameGroup_trans D.same Q1)
  have hwithin : Within s s4 := by
    have a : Within s s1 := by rw [← hs1]; exact ⟨_, _, _, _, _, _, _, _, _, _, _, _, rfl⟩
    have b : Within s2 s3 := by rw [L1]; exact ⟨_, _, _, _, _, _, _, _, _, _, _, _, rfl⟩
    have c : Within s3 s4 := by rw [R1]; exact ⟨_, _, _, _, _, _, _, _, _, _, _, _, rfl⟩
    exact a.trans (D.within.trans (b.trans c))
  refine ⟨s4, ⟨hex, ⟨⟨g4, R3, R5, tot.stop.1, tot.stop.2, ?_, ?_⟩, ?_⟩, ?_, ⟨?_, ?_, ?_, hwithin.rest⟩, ?_, ?_, ?_⟩⟩
  · rw [R6]
    have a : s3.rwcNow w.gs g2 = s2.rwcNow w.gs g2 := by rw [L1]; rfl
    have b := D.counts
    rw [gs1] at b
    rw [a, b, ← hs1]
    rfl
  · intro y hy
    injection hy with hy
    rw [← hy]
    exact R7 _ hsl
  · obtain ⟨_, _, _, _, _, _, _, _, _, _, _, _, e⟩ := hwithin
    rw [e]
  · intro g hg
    rw [R3] at hg
    injection hg with hg
    rw [← hg]
    exact tot
  · intro j hj
    rw [R2 j hj, L1]
    have := D.groups j (by rw [gs1]; exact hj)
    refine this.trans ?_
    rw [← hs1]
    exact find_put_other _ _ hj
  · intro j hj
    rw [R1, L1]
    have := D.wgs j (by rw [wg1]; exact hj)
    refine this.trans ?_
    rw [← hs1]
  · intro hr
    have e : s3 = s2 := L2 (by rw [hsp, hspace]; exact hr)
    rw [R1, e]
    refine ⟨D.mem.1.trans ?_, D.mem.2.1.trans ?_, D.mem.2.2.trans ?_⟩ <;> rw [← hs1]; rfl
  · intro a b g hg
    rw [R3] at hg
    injection hg with hg
    obtain ⟨c, d⟩ := D.now a b
    rw [← hg, Q2, Q3, c, d]
    exact ⟨writes_congr _ _ _ rfl, rfl⟩
  · intro a
    obtain ⟨r, b⟩ := D.later a
    refine ⟨r, g4, ?_, b.2.1.trans gs1, b.2.2.1.trans nis, b.2.2.2.1, b.2.2.2.2.1, b.2.2.2.2.2.1, R3, ?_, ?_⟩
    · rw [R1, L1]
      have := b.1
      rw [← hs1] at this
      exact this
    · rw [Q2, b.2.2.2.2.2.2.1]; rfl
    · intro y hy
      rw [Q3, b.2.2.2.2.2.2.2]
      have hnot : y ∉ w.g.pend ∨ y ∈ w.g.pend := (Decidable.em _).symm
      rcases hnot with hn | hn
      · exact List.mem_append_right _ (mem_pendOf (by rw [← hw1]; exact hy) (by rw [pd1]; exact hn))
      · exact List.mem_append_left _ hn
  · intro a b q m vals hv
    obtain ⟨y, z, c, d, e, e2⟩ := D.pushed a b q m vals hv
    refine ⟨y, z, g4, ?_, ?_, R3, ?_, ?_⟩
    · rw [wg1, ← hs1] at c; exact c
    · rw [R1, L1]; rw [wg1] at d; exact d
    · rw [Q4, e]
    · rw [e2, Q4]
      have t1 : s1.dir = s.dir := by rw [← hs1]
      rw [gs1, queueTag_congr t1]
      rw [queueTag_rc s w.gs { w.g.chk with rc := w.g.chk.rc + 1#32 } g2.chk m e D.same.table D.same.ic]

end Sys2Proof.Laws
end

