-- ==== Sys2Proof/Laws/Writes.lean ====
section
/-! SUPPORT. What the writes of a destination field leave in the registers (09, R223 to R227). -/

namespace Sys2Proof.Laws

open Sys2Proof.Machine

/-! ### Masks -/

theorem fold_mask (f : Nat → Bool) (l : List Nat) (m : Mask) (K : Nat) (hK : K < 32) :
    (l.foldl (fun m L => if f L then m ||| (1#32 <<< L) else m) m).getLsbD K = (m.getLsbD K || (decide (K ∈ l) && f K)) := by
  induction l generalizing m with
  | nil => simp
  | cons a t ih =>
    rw [List.foldl_cons, ih]
    by_cases e : K = a
    · subst e
      cases hf : f K
      · simp
      · simp only [if_true, BitVec.getLsbD_or]
        have : (1#32 <<< K).getLsbD K = true := by simp [hK]
        simp [this]
    · have h2 : decide (K ∈ a :: t) = decide (K ∈ t) := by simp [e]
      rw [h2]
      cases hf : f a
      · simp
      · simp only [if_true, BitVec.getLsbD_or]
        have : (1#32 <<< a).getLsbD K = false := by
          rw [BitVec.getLsbD_shiftLeft]
          by_cases h : K < a
          · simp [h]
          · have : (1#32).getLsbD (K - a) = false := by
              have hne : K - a ≠ 0 := by omega
              simp [BitVec.getLsbD_one, hne]
            simp [this]
        simp [this]

/-- A mask built lane by lane holds each lane's value. -/
theorem inMask_maskOf (f : Nat → Bool) {L : Nat} (h : L < 32) : inMask (maskOf f) L = f L := by
  unfold inMask maskOf
  rw [fold_mask f lanes32 0#32 L h]
  have : L ∈ lanes32 := List.mem_range.mpr h
  simp [this]

theorem mem_laneList {m : Mask} {L : Nat} : L ∈ laneList m ↔ L < 32 ∧ inMask m L = true := by
  simp [laneList, lanes32]

/-! ### One write -/

theorem vget_write (g : Group) (n L m K : Nat) (x : W32) (hL : L < 32) (hK : K < 32) :
    (g.write (.v n L x)).vget m K = if m = n ∧ K = L then x else g.vget m K := by
  simp only [Group.write, Group.vget, get_set]
  by_cases h : m = n ∧ K = L
  · rw [h.1, h.2]; simp
  · have : m * 32 + K ≠ n * 32 + L := by
      intro e
      apply h
      omega
    simp [this, h]

theorem sget_write (g : Group) (n m : Nat) (x : W64) : (g.write (.s n x)).sget m = if m = n then x else g.sget m := by
  simp only [Group.write, Group.sget, get_set]

/-! ### Lists of writes -/

/-- Writes that name no S register leave the S registers. -/
theorem writes_s (l : List RegW) (h : ∀ x ∈ l, ∀ n v, x ≠ .s n v) (g : Group) : (g.writes l).s = g.s := by
  unfold Group.writes
  induction l generalizing g with
  | nil => rfl
  | cons a t ih =>
    rw [List.foldl_cons, ih (fun x hx => h x (by simp [hx]))]
    cases a with
    | s n v => exact absurd rfl (h _ (by simp) n v)
    | p n a b => simp only [Group.write]; split <;> rfl
    | _ => rfl

theorem writes_v (l : List RegW) (h : ∀ x ∈ l, ∀ n L v, x ≠ .v n L v) (g : Group) : (g.writes l).v = g.v := by
  unfold Group.writes
  induction l generalizing g with
  | nil => rfl
  | cons a t ih =>
    rw [List.foldl_cons, ih (fun x hx => h x (by simp [hx]))]
    cases a with
    | v n L x => exact absurd rfl (h _ (by simp) n L x)
    | p n a b => simp only [Group.write]; split <;> rfl
    | _ => rfl

theorem writes_p (l : List RegW) (h : ∀ x ∈ l, ∀ n a b, x ≠ .p n a b) (g : Group) : (g.writes l).p = g.p := by
  unfold Group.writes
  induction l generalizing g with
  | nil => rfl
  | cons a t ih =>
    rw [List.foldl_cons, ih (fun x hx => h x (by simp [hx]))]
    cases a with
    | p n x y => exact absurd rfl (h _ (by simp) n x y)
    | _ => rfl

/-- The V writes of some registers in some lanes. -/
def vWrites (ls js : List Nat) (n : Nat) (f : Nat → Nat → W32) : List RegW := ls.flatMap fun L => js.map fun j => .v (n + j) L (f j L)

theorem vget_lane (js : List Nat) (n L m K : Nat) (f : Nat → W32) (hL : L < 32) (hK : K < 32) (g : Group) :
    ((js.map fun j => RegW.v (n + j) L (f j)).foldl Group.write g).vget m K =
      if K = L ∧ n ≤ m ∧ m - n ∈ js then f (m - n) else g.vget m K := by
  induction js generalizing g with
  | nil => simp
  | cons a t ih =>
    rw [List.map_cons, List.foldl_cons, ih, vget_write _ _ _ _ _ _ hL hK]
    by_cases hk : K = L
    · by_cases hn : n ≤ m
      · by_cases ht : m - n ∈ t
        · simp [hk, hn, ht]
        · by_cases ha : m - n = a
          · have : m = n + a := by omega
            simp [hk, this]
          · have : m ≠ n + a := by omega
            simp [hk, hn, ht, ha, this]
      · have : m ≠ n + a := by omega
        simp [hk, hn, this]
    · simp [hk]

theorem vget_vWrites (ls js : List Nat) (n m K : Nat) (f : Nat → Nat → W32) (hl : ∀ L ∈ ls, L < 32) (hK : K < 32) (g : Group) :
    (g.writes (vWrites ls js n f)).vget m K = if K ∈ ls ∧ n ≤ m ∧ m - n ∈ js then f (m - n) K else g.vget m K := by
  unfold Group.writes vWrites
  induction ls generalizing g with
  | nil => simp
  | cons a t ih =>
    rw [List.flatMap_cons, List.foldl_append, ih (fun L hL => hl L (by simp [hL])), vget_lane _ _ _ _ _ _ (hl a (by simp)) hK]
    by_cases ha : K = a
    · by_cases ht : K ∈ t <;> by_cases hm : n ≤ m ∧ m - n ∈ js <;> simp_all
    · by_cases ht : K ∈ t <;> by_cases hm : n ≤ m ∧ m - n ∈ js <;> simp_all

/-- The writes of a V destination. -/
theorem put_v (w : Word) (n : Fin 384) (role : Role) (kind : Kind) (val : Nat → Nat) :
    w.put ⟨.v n, role, kind⟩ val = (match role with
      | .r32 => vWrites w.lanes [0] n.val fun _ L => BitVec.ofNat 32 (val L)
      | .r64 => vWrites w.lanes [0, 1] n.val fun j L => BitVec.ofNat 32 (val L / 2 ^ (32 * j))
      | .r128 => vWrites w.lanes (List.range 4) n.val fun j L => BitVec.ofNat 32 (val L / 2 ^ (32 * j))) := by
  cases role
  · simp only [Word.put, vWrites]
    induction w.lanes with
    | nil => rfl
    | cons a t ih => rw [List.map_cons, List.flatMap_cons, ih]; rfl
  · simp [Word.put, vWrites]
  · simp [Word.put, vWrites]

theorem lanes_lt (w : Word) : ∀ L ∈ w.lanes, L < 32 := fun _ h => (mem_laneList.mp h).1

theorem mem_lanes {w : Word} {L : Nat} (h : L < 32) : L ∈ w.lanes ↔ inMask w.act L = true := by
  unfold Word.lanes
  rw [mem_laneList]
  simp [h]

theorem vWrites_only (ls js : List Nat) (n : Nat) (f : Nat → Nat → W32) : ∀ x ∈ vWrites ls js n f, ∃ m L v, x = .v m L v := by
  intro x hx
  unfold vWrites at hx
  simp only [List.mem_flatMap, List.mem_map] at hx
  obtain ⟨L, _, j, _, rfl⟩ := hx
  exact ⟨_, _, _, rfl⟩

/-- The kinds of writes of a destination field. -/
theorem put_kinds (w : Word) (u : Use) (val : Nat → Nat) : ∀ x ∈ w.put u val,
    (∃ m L v, x = .v m L v ∧ ∃ n, u.reg = .v n) ∨ (∃ m v, x = .s m v ∧ ∃ n, u.reg = .s n) ∨ (∃ q m vs, x = .push q m vs ∧ ∃ k, u.reg = .q k) := by
  intro x hx
  obtain ⟨reg, role, kind⟩ := u
  cases reg with
  | v n =>
    left
    rw [put_v] at hx
    cases role <;> (obtain ⟨m, L, v, e⟩ := vWrites_only _ _ _ _ x hx; exact ⟨m, L, v, e, n, rfl⟩)
  | s n =>
    right; left
    cases role <;> simp only [Word.put] at hx <;> split at hx <;> simp at hx
    · exact ⟨_, _, hx, n, rfl⟩
    · exact ⟨_, _, hx, n, rfl⟩
    · rcases hx with h | h
      · exact ⟨_, _, h, n, rfl⟩
      · exact ⟨_, _, h, n, rfl⟩
  | q k =>
    right; right
    cases role <;> simp [Word.put] at hx <;> exact ⟨_, _, _, hx, k, rfl⟩
  | sel y => cases role <;> simp [Word.put] at hx
  | z => cases role <;> simp [Word.put] at hx

/-- A destination field holds what is written to it. -/
theorem put_gives (w : Word) (u : Use) (val : Nat → Nat) (hs : ∀ x, u.reg ≠ .sel x) : w.gives u (w.put u val) val := by
  obtain ⟨reg, role, kind⟩ := u
  cases reg with
  | v n =>
    cases role
    · intro L hL ha
      rw [put_v, vget_vWrites _ _ _ _ _ _ (lanes_lt w) hL]
      simp [(mem_lanes hL).mpr ha]
    · intro L hL ha
      rw [put_v, vget_vWrites _ _ _ _ _ _ (lanes_lt w) hL, vget_vWrites _ _ _ _ _ _ (lanes_lt w) hL]
      simp [(mem_lanes hL).mpr ha]
    · intro L hL ha j hj
      rw [put_v, vget_vWrites _ _ _ _ _ _ (lanes_lt w) hL]
      have : j ∈ List.range 4 := List.mem_range.mpr hj
      simp [(mem_lanes hL).mpr ha, hj]
  | s n =>
    cases role <;> intro ha <;> simp only [Word.put, ha, if_false] <;> simp [Group.writes, sget_write]
  | q k =>
    refine ⟨_, rfl, fun L hL ha => ?_⟩
    have : L < lanes32.length := by simpa [lanes32] using hL
    simp [List.getD, lanes32, hL, ha]
  | sel y => exact absurd rfl (hs y)
  | z => rfl

theorem put_push (w : Word) (u : Use) (val : Nat → Nat) :
    (∀ x ∈ w.put u val, ∀ q m vals, x ≠ .push q m vals) ∨ ∃ q m vals, w.put u val = [.push q m vals] := by
  obtain ⟨reg, role, kind⟩ := u
  cases reg with
  | q k => right; cases role <;> exact ⟨_, _, _, rfl⟩
  | _ =>
    left
    intro x hx q m vals e
    rcases put_kinds w _ val x hx with ⟨_, _, _, h, _⟩ | ⟨_, _, h, _⟩ | ⟨_, _, _, _, _, h⟩
    · rw [h] at e; cases e
    · rw [h] at e; cases e
    · cases h

/-- A push of a word's own field is of a queue that the word names. -/
theorem put_pushes (w : Word) {u : Use} (val : Nat → Nat) {l m : List Use} (h : u ∈ l) :
    (∀ x ∈ w.put u val, ∀ q m vals, x ≠ .push q m vals) ∨
      ∃ q n vals, w.put u val = [.push q n vals] ∧ q ∈ queuesOf (l ++ m) := by
  by_cases hq : ∃ k, u.reg = .q k
  · obtain ⟨k, hk⟩ := hq
    right
    have hm : k.val ∈ queuesOf (l ++ m) :=
      List.mem_filterMap.mpr ⟨u, List.mem_append_left _ h, by rw [hk]⟩
    obtain ⟨reg, role, kind⟩ := u
    obtain rfl : reg = .q k := hk
    cases role <;> exact ⟨_, _, _, rfl, hm⟩
  · left
    intro x hx q n vals e
    rcases put_kinds w u val x hx with ⟨_, _, _, h1, _⟩ | ⟨_, _, h1, _⟩ | ⟨_, _, _, _, h1⟩
    · rw [h1] at e; cases e
    · rw [h1] at e; cases e
    · exact hq h1

theorem act_zero {w : Word} (h : w.act = 0#32) : w.lanes = [] := by
  unfold Word.lanes laneList inMask
  rw [h]
  rfl

/-- The writes of one destination field leave every other register. -/
theorem put_keeps (w : Word) (u : Use) (val : Nat → Nat) (f : Info) (h : u ∈ f.dst) : w.Keeps f (w.put u val) := by
  have hv : ∀ n ∈ u.vregs, n ∈ f.dst.flatMap Use.vregs := fun n hn => List.mem_flatMap.mpr ⟨u, h, hn⟩
  have hs : ∀ n ∈ u.sregs, n ∈ f.dst.flatMap Use.sregs := fun n hn => List.mem_flatMap.mpr ⟨u, h, hn⟩
  have noV : (∀ n, u.reg ≠ .v n) → (w.g.writes (w.put u val)).v = w.g.v := fun hn =>
    writes_v _ (fun x hx n L v e => by
      rcases put_kinds w u val x hx with ⟨_, _, _, _, m, h⟩ | ⟨_, _, h, _⟩ | ⟨_, _, _, h, _⟩
      · exact hn m h
      · rw [h] at e; cases e
      · rw [h] at e; cases e) _
  have noS : (∀ n, u.reg ≠ .s n) → (w.g.writes (w.put u val)).s = w.g.s := fun hn =>
    writes_s _ (fun x hx n v e => by
      rcases put_kinds w u val x hx with ⟨_, _, _, h, _⟩ | ⟨_, _, _, m, h⟩ | ⟨_, _, _, h, _⟩
      · rw [h] at e; cases e
      · exact hn m h
      · rw [h] at e; cases e) _
  have noP : (w.g.writes (w.put u val)).p = w.g.p :=
    writes_p _ (fun x hx n a b e => by
      rcases put_kinds w u val x hx with ⟨_, _, _, h, _⟩ | ⟨_, _, h, _⟩ | ⟨_, _, _, h, _⟩ <;> (rw [h] at e; cases e)) _
  refine ⟨?_, ?_, ?_⟩
  · intro n L hL hn
    obtain ⟨reg, role, kind⟩ := u
    cases reg with
    | v m =>
      rw [put_v]
      have key : ∀ (js : List Nat) (F : Nat → Nat → W32), (∀ j ∈ js, m.val + j ∈ Use.vregs ⟨.v m, role, kind⟩) →
          (w.g.writes (vWrites w.lanes js m.val F)).vget n L = w.g.vget n L := by
        intro js F hj
        rw [vget_vWrites _ _ _ _ _ _ (lanes_lt w) hL]
        rw [if_neg]
        rintro ⟨h1, h2, h3⟩
        rcases hn with hn | hn
        · apply hn
          have := hv _ (hj _ h3)
          rwa [show m.val + (n - m.val) = n by omega] at this
        · rw [(mem_lanes hL).mp h1] at hn
          cases hn
      cases role
      · exact key _ _ (by simp [Use.vregs])
      · exact key _ _ (by simp [Use.vregs])
      · exact key _ _ (by simp [Use.vregs]; omega)
    | _ => unfold Group.vget; rw [noV (by intro n e; cases e)]
  · intro n hn
    obtain ⟨reg, role, kind⟩ := u
    cases reg with
    | s m =>
      rcases hn with hn | hn
      · have hne : n ≠ m.val := fun e => hn (by rw [e]; exact hs _ (by cases role <;> simp [Use.sregs]))
        cases role <;> simp only [Word.put] <;> split <;> simp [Group.writes, sget_write, hne]
        have : n ≠ m.val + 1 := fun e => hn (by rw [e]; exact hs _ (by simp [Use.sregs]))
        simp [this]
      · cases role <;> simp only [Word.put, hn, if_true] <;> rfl
    | _ => unfold Group.sget; rw [noS (by intro n e; cases e)]
  · intro p L _ _
    unfold Group.pred
    rw [noP]

theorem inMask_pred7 (g : Group) {L : Nat} (h : L < 32) : inMask (g.pred 7) L = true := by
  unfold inMask Group.pred
  rw [if_pos (by rfl), BitVec.getLsbD_allOnes, decide_eq_true h]

theorem writes_putP (w : Word) (p : Pred) (f : Nat → Bool) :
    w.g.writes (w.putP p f) = w.g.write (.p p.val w.act (maskOf f)) := rfl

/-- A predicate destination holds what is written to it. -/
theorem putP_gives (w : Word) (p : Pred) (f : Nat → Bool) : w.givesP p (w.putP p f) f := by
  intro L hL ha
  rw [writes_putP]
  by_cases h7 : p.val = 7
  · have : p = 7 := Fin.ext h7
    subst this
    rw [if_pos h7]
    exact inMask_pred7 _ hL
  · rw [if_neg h7]
    unfold Group.write Group.pred
    simp only [h7, if_false, get_set_self]
    have := inMask_maskOf f hL
    unfold inMask at *
    simp [ha, this]

theorem putP_keeps (w : Word) (p : Pred) (f : Nat → Bool) (i : Info) (h : p ∈ i.pd) : w.Keeps i (w.putP p f) := by
  refine ⟨?_, ?_, ?_⟩
  · intro n L _ _
    unfold Group.vget
    rw [writes_v]
    simp [Word.putP]
  · intro n _
    unfold Group.sget
    rw [writes_s]
    simp [Word.putP]
  · intro q L hL hn
    rw [writes_putP]
    unfold Group.write
    by_cases h7 : p.val = 7
    · simp [h7]
    · simp only [h7, if_false]
      unfold Group.pred
      split
      · rfl
      · simp only [get_set]
        split
        · rename_i e
          have e' : q = p := Fin.ext e
          rcases hn with hn | hn
          · exact absurd (e' ▸ h) hn
          · unfold inMask at *
            have hn' : w.act[L]'hL = false := by rw [← BitVec.getLsbD_eq_getElem]; exact hn
            simp [hn', e, hL]
        · rfl

theorem putP_nopush (w : Word) (p : Pred) (f : Nat → Bool) : ∀ x ∈ w.putP p f, ∀ q m vals, x ≠ .push q m vals := by
  simp [Word.putP]

end Sys2Proof.Laws
end

