-- ==== Sys2Proof/Laws/Compute.lean ====
section
/-! SUPPORT. Words of one destination complete and give it their value. -/

namespace Sys2Proof.Laws

open Sys2Proof.Machine

/-- The fields of a well-formed word are legal. -/
theorem formed_fields {i : Instr} {f : Info} (h : i.wellFormed = true) (hf : i.info = some f) : f.fieldsOk = true := by
  unfold Instr.wellFormed at h
  rw [hf] at h
  simp only [Bool.and_eq_true] at h
  exact h.1.1.1.2

/-- No destination of a well-formed word is a selector. -/
theorem dst_not_sel {i : Instr} {f : Info} (h : i.wellFormed = true) (hf : i.info = some f) {u : Use} (hu : u ∈ f.dst) (x : Sel) :
    u.reg ≠ .sel x := by
  intro e
  have := formed_fields h hf
  simp only [Info.fieldsOk, Bool.and_eq_true, List.all_eq_true] at this
  have := this.1 u hu
  simp [Use.ok, e] at this

theorem popSources_uses (x : Option Workgroup) (l : List Use) (taken : List Nat) : (popSources x l taken).map (·.1) = l := by
  induction l generalizing taken with
  | nil => rfl
  | cons u t ih =>
    unfold popSources
    split <;> simp [ih]

/-- A field of a 32-bit role holds less than 2^32. -/
theorem reg_lt32 (w : Word) (u : Use) (pop : List W32) (L : Nat) (h : u.role = .r32) : w.reg u pop L < 2 ^ 32 := by
  obtain ⟨r, role, k⟩ := u
  obtain rfl : role = .r32 := h
  cases r with
  | v n => exact BitVec.isLt _
  | s n => exact Nat.mod_lt _ (by decide)
  | q k => exact BitVec.isLt _
  | sel x => exact Nat.mod_lt _ (by decide)
  | z => show 0 < _; decide

/-- So does a source of a 32-bit role. -/
theorem src_lt32 {s : State} {i : Instr} {f : Info} {w : Word} (h : Goes s i f w) (k L : Nat)
    (hr : ∀ u, f.src[k]? = some u → u.role = .r32) : w.src k L < 2 ^ 32 := by
  have e : w.srcs.map (·.1) = f.src := by rw [h.word]; exact popSources_uses _ _ _
  unfold Word.src
  split
  · rename_i u pop hk
    exact reg_lt32 w u pop L (hr u (by rw [← e, List.getElem?_map, hk]; rfl))
  · decide

/-- A word that writes one field completes with it. -/
theorem computes {i : Instr} {f0 : Info} (hf : i.info = some f0) {u : Use} (hu : u ∈ f0.dst) {val val' : Word → Nat → Nat}
    (he : ∀ s, exec i s = alu i (fun w => w.put u (val' w)) s)
    (ht : ∀ w x, val' { w with g := { w.g with tx := x } } = val' w)
    (hv : ∀ s w, Goes s i f0 w → ∀ L, L < 32 → val' w L = val w L) : Computes i u val := by
  intro s f w h
  obtain rfl : f = f0 := by have := h.info; rw [hf] at this; injection this with this; exact this.symm
  obtain ⟨t, p⟩ := alu_performed h (fun w => w.put u (val' w)) (fun x => by
    show Word.put { w with g := { w.g with tx := x } } u _ = _
    rw [ht w x]
    rfl) (he s) (put_pushes w (val' w) hu)
  refine ⟨t, _, p, put_keeps w u _ f hu, ?_⟩
  have hg := put_gives w u (val' w) (fun x => dst_not_sel h.formed h.info hu x)
  unfold Word.gives at hg ⊢
  revert hg
  have h0 := hv s w h
  split
  · intro hg L hL ha; rw [hg L hL ha, h0 L hL]
  · intro hg L hL ha; rw [(hg L hL ha).1, (hg L hL ha).2, h0 L hL]; exact ⟨rfl, rfl⟩
  · intro hg L hL ha j hj; rw [hg L hL ha j hj, h0 L hL]
  · intro hg ha; rw [hg ha, h0 0 (by decide)]
  · intro hg ha; rw [hg ha, h0 0 (by decide)]
  · intro hg ha; rw [(hg ha).1, (hg ha).2, h0 0 (by decide)]; exact ⟨rfl, rfl⟩
  · rintro ⟨v, e, hg⟩; exact ⟨v, e, fun L hL ha => by rw [hg L hL ha, h0 L hL]⟩
  · exact id
  · exact id

theorem decides {i : Instr} {f0 : Info} (hf : i.info = some f0) {p : Pred} (hu : p ∈ f0.pd) {val val' : Word → Nat → Bool}
    (he : ∀ s, exec i s = alu i (fun w => w.putP p (val' w)) s)
    (ht : ∀ w x, val' { w with g := { w.g with tx := x } } = val' w)
    (hv : ∀ s w, Goes s i f0 w → ∀ L, L < 32 → val' w L = val w L) : Decides i p val := by
  intro s f w h
  obtain rfl : f = f0 := by have := h.info; rw [hf] at this; injection this with this; exact this.symm
  obtain ⟨t, q⟩ := alu_performed h (fun w => w.putP p (val' w)) (fun x => by
    show Word.putP { w with g := { w.g with tx := x } } p _ = _
    rw [ht w x]
    rfl) (he s) (.inl (putP_nopush w p _))
  refine ⟨t, _, q, putP_keeps w p _ f hu, ?_⟩
  have hg := putP_gives w p (val' w)
  intro L hL ha
  rw [hg L hL ha]
  split
  · rfl
  · exact hv s w h L hL

end Sys2Proof.Laws
end

