-- ==== Sys2Proof/Laws/Values.lean ====
section
/-! SUPPORT. Integer operands and results as bit vectors (10, R245). -/

namespace Sys2Proof.Laws

open Sys2Proof.Machine

theorem signed_eq (n : Nat) (x : Int) : signed n x = (BitVec.ofInt n x).toInt := by
  rw [BitVec.toInt_ofInt]
  unfold signed
  rcases n with _ | n
  · simp [Int.bmod]
  · rw [Int.bmod_def]
    have h2 : (2 : Nat) ^ (n + 1) = 2 * 2 ^ n := by rw [Nat.pow_succ]; omega
    simp only [h2, Nat.add_sub_cancel]
    split <;> split <;> omega

theorem tyVal_eq (t : Ty) (x : Nat) : tyVal t x = tyInt t (BitVec.ofNat t.bits x) := by
  unfold tyVal tyInt
  split
  · rw [signed_eq]
    congr 1
  · simp

theorem immVal_eq (t : Ty) (imm : BitVec 22) : immVal t imm = tyInt t (immOf t imm) := by
  unfold immVal
  rw [tyVal_eq]
  congr 1
  unfold immOf
  rw [BitVec.signExtend]
  apply BitVec.eq_of_toNat_eq
  simp
  have h1 : 0 < 2 ^ t.bits := Nat.pow_pos (by decide)
  have h2 : (0 : Int) < ((2 ^ t.bits : Nat) : Int) := by omega
  have h3 := Int.emod_lt_of_pos imm.toInt h2
  have h4 := Int.emod_nonneg imm.toInt (b := ((2 ^ t.bits : Nat) : Int)) (by omega)
  have e : ((2 ^ t.bits : Nat) : Int) = (2 : Int) ^ t.bits := by simp
  refine Nat.mod_eq_of_lt ?_
  rw [← e]
  omega

theorem ofInt_tyInt (t : Ty) (x : BitVec t.bits) : BitVec.ofInt t.bits (tyInt t x) = x := by
  unfold tyInt
  split
  · exact BitVec.ofInt_toInt
  · simp

theorem int_eq (w : Word) (t : Ty) (k L : Nat) : w.int t k L = tyInt t (w.opnd t k L) := tyVal_eq t _

theorem ofInt_int (w : Word) (t : Ty) (k L : Nat) : BitVec.ofInt t.bits (w.int t k L) = w.opnd t k L := by
  rw [int_eq, ofInt_tyInt]

theorem ofInt_imm (t : Ty) (imm : BitVec 22) : BitVec.ofInt t.bits (immVal t imm) = immOf t imm := by
  rw [immVal_eq, ofInt_tyInt]

theorem tyRes_eq (t : Ty) (x : Int) : tyRes t x = widened t (BitVec.ofInt t.bits x) := by
  unfold tyRes widened
  simp only [Bool.and_eq_true, decide_eq_true_eq]
  split
  · rw [signed_eq]
    unfold BitVec.signExtend
    simp
  · simp

end Sys2Proof.Laws
end

