-- ==== Sys2Proof/Laws/Bits.lean ====
section
/-! SUPPORT. The integer, bit and byte operations as operations of bit vectors (10, R247 to R256). -/

namespace Sys2Proof.Laws

open Sys2Proof.Machine

theorem ofInt_sub (n : Nat) (x y : Int) : BitVec.ofInt n (x - y) = BitVec.ofInt n x - BitVec.ofInt n y := by
  rw [Int.sub_eq_add_neg, BitVec.ofInt_add, BitVec.ofInt_neg, BitVec.sub_eq_add_neg]

theorem ofInt_abs {n : Nat} (x : BitVec n) : BitVec.ofInt n (x.toInt.natAbs : Int) = x.abs := by
  unfold BitVec.abs
  rw [BitVec.msb_eq_toInt]
  by_cases h : x.toInt < 0
  · rw [if_pos (by simpa using h), show ((x.toInt.natAbs : Nat) : Int) = -x.toInt by omega, BitVec.ofInt_neg, BitVec.ofInt_toInt]
    rfl
  · rw [if_neg (by simpa using h), show ((x.toInt.natAbs : Nat) : Int) = x.toInt by omega, BitVec.ofInt_toInt]

theorem info_ok {s : State} {i : Instr} {f : Info} {w : Word} (h : Goes s i f w) : f.ok = true := by
  have h1 := h.formed
  unfold Instr.wellFormed at h1
  rw [h.info] at h1
  simp only [Bool.and_eq_true] at h1
  exact h1.1.1.1.1.1

theorem clamp_eq (lo hi x : Int) (h : lo ≤ hi) : max lo (min x hi) = if x < lo then lo else if hi < x then hi else x := by
  split
  · omega
  · split <;> omega

theorem bits_pos (t : Ty) : 1 ≤ t.bits := by cases t <;> decide

theorem tySat_eq (t : Ty) (x : Int) : tySat t x =
    (if x < (if t.isSigned then -2 ^ (t.bits - 1) else 0) then (if t.isSigned then -2 ^ (t.bits - 1) else 0)
     else if (if t.isSigned then 2 ^ (t.bits - 1) - 1 else 2 ^ t.bits - 1) < x then (if t.isSigned then 2 ^ (t.bits - 1) - 1 else 2 ^ t.bits - 1) else x) := by
  unfold tySat tyMin tyMax
  have p1 : (0:Int) < 2 ^ (t.bits - 1) := Int.pow_pos (by decide)
  have p2 : (0:Int) < 2 ^ t.bits := Int.pow_pos (by decide)
  rw [clamp_eq]
  · simp
  · split <;> simp <;> omega

theorem ofInt_m1 (n : Nat) : BitVec.ofInt n (-1) = BitVec.allOnes n := by
  rw [BitVec.ofInt_neg, ← BitVec.neg_one_eq_allOnes]
  congr 1

theorem tyInt_zero (t : Ty) (y : BitVec t.bits) : tyInt t y = 0 ↔ y = 0 := by
  unfold tyInt
  split
  · constructor
    · intro h
      exact BitVec.eq_of_toInt_eq (by simpa using h)
    · rintro rfl; simp
  · constructor
    · intro h
      exact BitVec.eq_of_toNat_eq (by simpa using h)
    · rintro rfl; simp

theorem idiv_eq (t : Ty) (x y : BitVec t.bits) : BitVec.ofInt t.bits (idivOp (tyInt t x) (tyInt t y)) =
    (if y = 0 then BitVec.allOnes _ else if t.isSigned then x.sdiv y else x.udiv y) := by
  unfold idivOp
  by_cases hy : y = 0
  · rw [if_pos ((tyInt_zero t y).mpr hy), if_pos hy, ofInt_m1]
  · rw [if_neg (fun h => hy ((tyInt_zero t y).mp h)), if_neg hy]
    unfold tyInt
    split
    · apply BitVec.eq_of_toInt_eq
      rw [BitVec.toInt_ofInt, BitVec.toInt_sdiv]
    · apply BitVec.eq_of_toNat_eq
      rw [BitVec.toNat_ofInt, Int.tdiv_eq_ediv_of_nonneg (by omega)]
      simp
      have := x.isLt
      have h2 : x.toNat / y.toNat < 2 ^ t.bits := Nat.lt_of_le_of_lt (Nat.div_le_self ..) this
      have : ((x.toNat : Int) / (y.toNat : Int)) = ((x.toNat / y.toNat : Nat) : Int) := by simp
      rw [this]
      have e : ((2 ^ t.bits : Nat) : Int) = (2 : Int) ^ t.bits := by simp
      rw [← e, ← Int.natCast_emod, Int.toNat_natCast, Nat.mod_eq_of_lt h2]

theorem irem_eq (t : Ty) (x y : BitVec t.bits) : BitVec.ofInt t.bits (iremOp (tyInt t x) (tyInt t y)) =
    (if y = 0 then x else if t.isSigned then x.srem y else x.umod y) := by
  unfold iremOp
  by_cases hy : y = 0
  · rw [if_pos ((tyInt_zero t y).mpr hy), if_pos hy, ofInt_tyInt]
  · rw [if_neg (fun h => hy ((tyInt_zero t y).mp h)), if_neg hy]
    unfold tyInt
    split
    · apply BitVec.eq_of_toInt_eq
      rw [← BitVec.toInt_srem, BitVec.ofInt_toInt]
    · apply BitVec.eq_of_toNat_eq
      rw [BitVec.toNat_ofInt, Int.tmod_eq_emod_of_nonneg (by omega), ← Int.natCast_emod, ← Int.natCast_emod, Int.toNat_natCast]
      simp
      exact Nat.mod_eq_of_lt (Nat.lt_of_le_of_lt (Nat.mod_le ..) x.isLt)

theorem emod_div (z : Int) (n : Nat) : z % ((2 ^ (2 * n) : Nat) : Int) / ((2 ^ n : Nat) : Int) % ((2 ^ n : Nat) : Int) = z / ((2 ^ n : Nat) : Int) % ((2 ^ n : Nat) : Int) := by
  have h : ((2 ^ (2 * n) : Nat) : Int) = ((2 ^ n : Nat) : Int) * ((2 ^ n : Nat) : Int) := by rw [Nat.two_mul, Nat.pow_add]; simp
  have hp : 0 < ((2 ^ n : Nat) : Int) := by have := Nat.pow_pos (n := n) (show 0 < 2 by decide); omega
  rw [h]
  generalize ((2 ^ n : Nat) : Int) = k at *
  have := Int.mul_ediv_add_emod z (k * k)
  have e : z % (k * k) = z + k * (-(k * (z / (k * k)))) := by
    rw [Int.mul_neg, ← Int.mul_assoc]
    omega
  rw [e, Int.add_mul_ediv_left _ _ (by omega), ← Int.mul_neg, Int.add_mul_emod_self_left]

theorem tyInt_lt (t : Ty) (x y : BitVec t.bits) : decide (tyInt t x < tyInt t y) = (if t.isSigned then x.slt y else x.ult y) := by
  unfold tyInt
  split
  · rw [BitVec.slt_eq_decide]
  · simp [BitVec.ult_eq_decide]

theorem tyInt_inj (t : Ty) {x y : BitVec t.bits} : tyInt t x = tyInt t y ↔ x = y :=
  ⟨fun h => by rw [← ofInt_tyInt t x, h, ofInt_tyInt], fun h => by rw [h]⟩

theorem cmp_eq (t : Ty) (cc : Cmp) (x y : BitVec t.bits) : cmpHolds cc (tyInt t x) (tyInt t y) = compared cc t.isSigned x y := by
  have h1 := tyInt_lt t x y
  have h2 := tyInt_lt t y x
  cases cc
  · by_cases h : x = y <;> simp [cmpHolds, compared, tyInt_inj, h]
  · by_cases h : x = y <;> simp [cmpHolds, compared, tyInt_inj, h, bne]
  · exact h1
  · show decide (tyInt t x ≤ tyInt t y) = !(if t.isSigned = true then y.slt x else y.ult x)
    rw [← h2, ← decide_not]; congr 1; simp
  · exact h2
  · show decide (tyInt t y ≤ tyInt t x) = !(if t.isSigned = true then x.slt y else x.ult y)
    rw [← h1, ← decide_not]; congr 1; simp

theorem lt_compared (t : Ty) (x y : BitVec t.bits) : compared .lt t.isSigned x y = true ↔ tyInt t x < tyInt t y := by
  rw [← cmp_eq]; simp [cmpHolds]
theorem gt_compared (t : Ty) (x y : BitVec t.bits) : compared .gt t.isSigned x y = true ↔ tyInt t y < tyInt t x := by
  rw [← cmp_eq]; simp [cmpHolds]

theorem ofInt_min (t : Ty) (x y : BitVec t.bits) : BitVec.ofInt t.bits (min (tyInt t x) (tyInt t y)) = if compared .lt t.isSigned x y then x else y := by
  have := lt_compared t x y
  split
  · rename_i h; rw [show min (tyInt t x) (tyInt t y) = tyInt t x by have := this.mp h; omega, ofInt_tyInt]
  · rename_i h; rw [show min (tyInt t x) (tyInt t y) = tyInt t y by have h4 : ¬ _ := fun k => h (this.mpr k); omega, ofInt_tyInt]
theorem ofInt_max (t : Ty) (x y : BitVec t.bits) : BitVec.ofInt t.bits (max (tyInt t x) (tyInt t y)) = if compared .gt t.isSigned x y then x else y := by
  have := gt_compared t x y
  split
  · rename_i h; rw [show max (tyInt t x) (tyInt t y) = tyInt t x by have := this.mp h; omega, ofInt_tyInt]
  · rename_i h; rw [show max (tyInt t x) (tyInt t y) = tyInt t y by have h4 : ¬ _ := fun k => h (this.mpr k); omega, ofInt_tyInt]

theorem word_widened {t : Ty} (h : t.isWord = true) (x : BitVec t.bits) : widened t x = x.toNat := by
  have h32 : ¬ t.bits < 32 := by cases t <;> first | (exact absurd h (by decide)) | decide
  simp [widened, h32]

theorem low_eq (w : Word) (t : Ty) (k L : Nat) : w.low t k L = (w.opnd t k L).toNat := by
  simp [Word.low, Word.opnd]

theorem immBits_eq (t : Ty) (imm : BitVec 22) : immBits t imm = (immOf t imm).toNat := by
  unfold immBits immOf BitVec.signExtend
  rw [BitVec.toNat_ofInt]

theorem notOp_eq {n : Nat} (x : BitVec n) : notOp n x.toNat = (~~~x).toNat := by
  unfold notOp; rw [BitVec.toNat_not]

theorem count_eq (w : Word) (L : Nat) : w.src 1 L % 256 = (w.opnd32 1 L).toNat % 256 := by
  simp only [Word.opnd32, BitVec.toNat_ofNat]; omega
theorem immCount_eq (imm : BitVec 22) : immCount imm = (imm.setWidth 8).toNat := by
  simp [immCount]
theorem shl_eq {n : Nat} (x : BitVec n) (c : Nat) : shlOp n x.toNat c = (x <<< c).toNat := by
  unfold shlOp; rw [BitVec.toNat_shiftLeft, Nat.shiftLeft_eq]
theorem shr_eq {n : Nat} (x : BitVec n) (c : Nat) : shrOp x.toNat c = (x >>> c).toNat := by
  unfold shrOp; rw [BitVec.toNat_ushiftRight, Nat.shiftRight_eq_div_pow]
theorem sar_eq {n : Nat} (x : BitVec n) (c : Nat) : sarOp n x.toNat c = (x.sshiftRight c).toNat := by
  unfold sarOp BitVec.sshiftRight
  rw [BitVec.toNat_ofInt, signed_eq, BitVec.ofInt_natCast, BitVec.ofNat_toNat, BitVec.setWidth_eq, Int.shiftRight_eq_div_pow]
theorem rotl_eq {n : Nat} (x : BitVec n) (hn : 0 < n) (c : Nat) : rotlOp n x.toNat c = (x.rotateLeft c).toNat := by
  have hc := Nat.mod_lt c hn
  unfold rotlOp
  rw [← BitVec.rotateLeft_mod_eq_rotateLeft]
  generalize c % n = k at *
  rw [BitVec.rotateLeft_def]
  rw [Nat.mod_eq_of_lt hc]
  rw [BitVec.toNat_or, BitVec.toNat_shiftLeft, BitVec.toNat_ushiftRight, Nat.shiftLeft_eq, Nat.shiftRight_eq_div_pow]
  have hx := x.isLt
  have h1 : x.toNat / 2 ^ (n - k) < 2 ^ k := by
    rw [Nat.div_lt_iff_lt_mul (Nat.pow_pos (by decide)), ← Nat.pow_add, show k + (n - k) = n by omega]; exact hx
  have h2 : x.toNat * 2 ^ k % 2 ^ n = 2 ^ k * (x.toNat % 2 ^ (n - k)) := by
    rw [Nat.mul_comm, show (2:Nat) ^ n = 2 ^ k * 2 ^ (n - k) by rw [← Nat.pow_add]; congr 1; omega, Nat.mul_mod_mul_left]
  rw [h2, ← Nat.two_pow_add_eq_or_of_lt h1, Nat.add_mod, h2]
  have h3 : x.toNat % 2 ^ (n - k) < 2 ^ (n - k) := Nat.mod_lt _ (Nat.pow_pos (by decide))
  have h4 : 2 ^ k * (x.toNat % 2 ^ (n - k)) + x.toNat / 2 ^ (n - k) < 2 ^ n := by
    rw [show (2:Nat) ^ n = 2 ^ k * 2 ^ (n - k) by rw [← Nat.pow_add]; congr 1; omega]
    calc _ < 2 ^ k * (x.toNat % 2 ^ (n - k)) + 2 ^ k := by omega
      _ = 2 ^ k * (x.toNat % 2 ^ (n - k) + 1) := by rw [Nat.mul_add, Nat.mul_one]
      _ ≤ _ := Nat.mul_le_mul_left _ h3
  have h5 : 2 ^ k ≤ 2 ^ n := Nat.pow_le_pow_right (by decide) (by omega)
  rw [Nat.mod_eq_of_lt (a := x.toNat / 2 ^ (n - k)) (by omega), Nat.mod_eq_of_lt h4]

theorem ofBits_lt (f : Nat → Bool) (n : Nat) : ofBits f n < 2 ^ n := by
  induction n with
  | zero => show 0 < 1; decide
  | succ n ih => unfold ofBits; rw [Nat.pow_succ]; split <;> omega

theorem ofBits_testBit (f : Nat → Bool) (n i : Nat) : (ofBits f n).testBit i = (decide (i < n) && f i) := by
  induction n with
  | zero => simp [ofBits]
  | succ n ih =>
    unfold ofBits
    have hl := ofBits_lt f n
    cases hf : f n
    · simp only [Bool.false_eq_true, if_false, Nat.add_zero, ih]
      by_cases h : i = n
      · subst h; simp [hf]
      · have : (i < n + 1) ↔ (i < n) := by omega
        simp [this]
    · simp only [if_true]
      have e : ofBits f n + 2 ^ n = 2 ^ n * 1 ||| ofBits f n := by rw [← Nat.two_pow_add_eq_or_of_lt hl]; omega
      rw [e, Nat.mul_one, Nat.testBit_or, Nat.testBit_two_pow, ih]
      by_cases h : i = n
      · subst h; simp [hf]
      · have h2 : (i < n + 1) ↔ (i < n) := by omega
        have h3 : ¬ n = i := fun e => h e.symm
        simp [h2, h3]

theorem find_range (p : Nat → Bool) (n k : Nat) (hk : k < n) (h1 : p k = true) (h2 : ∀ j, j < k → p j = false) :
    (List.range n).find? p = some k := by
  rw [List.find?_range_eq_some]
  exact ⟨h1, by simpa using hk, fun j hj => by simp [h2 j hj]⟩

theorem find_none (p : Nat → Bool) (n : Nat) (h2 : ∀ j, j < n → p j = false) : (List.range n).find? p = none := by
  rw [List.find?_eq_none]
  intro x hx
  simp [h2 x (by simpa using hx)]

theorem clz_eq {n : Nat} (x : BitVec n) : clzOp n x.toNat = x.clz.toNat := by
  unfold clzOp nbit
  by_cases h : x = 0#n
  · have : x.clz = n := BitVec.clz_eq_iff_eq_zero.mpr h
    rw [this, find_none]
    · simp
    · intro j _; subst h; simp
  · have hn : 0 < n := by
      rcases n with _ | n
      · exact absurd (BitVec.eq_of_toNat_eq (by have := x.isLt; simp at this ⊢; omega)) h
      · omega
    have hlt : x.clz < n := (BitVec.clz_lt_iff_ne_zero).mpr h
    have hl : x.clz.toNat < n := by
      have := BitVec.lt_def.mp hlt
      simpa [Nat.mod_eq_of_lt (Nat.lt_two_pow_self (n := n))] using this
    rw [find_range _ n x.clz.toNat hl]
    · rfl
    · have := BitVec.getLsbD_true_clz_of_ne_zero hn h
      exact this
    · intro j hj
      have := BitVec.toNat_lt_two_pow_sub_clz (x := x)
      exact Nat.testBit_lt_two_pow (Nat.lt_of_lt_of_le this (Nat.pow_le_pow_right (by decide) (by omega)))

theorem ctz_eq {n : Nat} (x : BitVec n) : ctzOp n x.toNat = x.ctz.toNat := by
  unfold ctzOp nbit
  by_cases h : x = 0#n
  · have : x.ctz = n := by unfold BitVec.ctz; rw [BitVec.clz_eq_iff_eq_zero, BitVec.reverse_eq_zero_iff]; exact h
    rw [this, find_none]
    · simp
    · intro j _; subst h; simp
  · have hn : 0 < n := by
      rcases n with _ | n
      · exact absurd (BitVec.eq_of_toNat_eq (by have := x.isLt; simp at this ⊢; omega)) h
      · omega
    have hlt : x.ctz < n := (BitVec.ctz_lt_iff_ne_zero).mpr h
    have hl : x.ctz.toNat < n := by
      have := BitVec.lt_def.mp hlt
      simpa [Nat.mod_eq_of_lt (Nat.lt_two_pow_self (n := n))] using this
    rw [find_range _ n x.ctz.toNat hl]
    · rfl
    · exact BitVec.getLsbD_true_ctz_of_ne_zero h
    · intro j hj
      exact BitVec.getLsbD_false_of_lt_ctz hj

theorem brev_eq {n : Nat} (x : BitVec n) : brevOp n x.toNat = x.reverse.toNat := by
  unfold brevOp
  apply Nat.eq_of_testBit_eq
  intro i
  rw [ofBits_testBit]
  show _ = x.reverse.getLsbD i
  rw [BitVec.getLsbD_reverse, BitVec.getMsbD]
  rfl

theorem popc_eq {n : Nat} (x : BitVec n) : popcOp n x.toNat = x.cpop.toNat := by
  rw [BitVec.toNat_cpop]
  unfold popcOp nbit
  have : ∀ k acc, x.cpopNatRec k acc = ((List.range k).filter fun i => x.toNat.testBit i).length + acc := by
    intro k
    induction k with
    | zero => intro acc; simp
    | succ k ih =>
      intro acc
      rw [BitVec.cpopNatRec_succ, ih, List.range_succ, List.filter_append, List.length_append]
      have : x.getLsbD k = x.toNat.testBit k := rfl
      cases h : x.toNat.testBit k <;> simp [this, h]
      omega
  rw [this, Nat.add_zero]

theorem bfx_eq (t : Ty) (x : BitVec t.bits) (y z : Nat) : bfxOp t x.toNat y z = (bitField t.isSigned x (y % 256) (z % 256)).toNat := by
  unfold bfxOp bitField
  have hn := bits_pos t
  generalize t.bits = n at *
  generalize y % 256 = pos
  generalize z % 256 = len
  simp only
  by_cases h0 : len = 0
  · simp [h0]
  · have h1 : ¬ min len n = 0 := by omega
    rw [if_neg h1, if_neg h0]
    apply Nat.eq_of_testBit_eq
    intro i
    rw [ofBits_testBit]
    have hmsb : x.msb = x.toNat.testBit (n - 1) := by rw [BitVec.msb_eq_getLsbD_last]; rfl
    have hL : ∀ j, x.getLsbD j = x.toNat.testBit j := fun _ => rfl
    unfold nbit
    by_cases hs : t.isSigned = true
    · rw [if_pos hs]
      show _ = BitVec.getLsbD _ i
      rw [BitVec.getLsbD_sshiftRight]
      by_cases hi : i < n
      · by_cases hl : i < min len n
        · have : n - min len n + i < n := by omega
          have h2 : ¬ n ≤ i := by omega
          simp only [hi, decide_true, Bool.true_and, hl, if_true, this, h2, decide_false, Bool.not_false]
          rw [BitVec.getLsbD_shiftLeft, BitVec.getLsbD_sshiftRight]
          have h3 : n - min len n + i - (n - min len n) = i := by omega
          have h4 : ¬ n - min len n + i < n - min len n := by omega
          simp only [h3, h2, this, h4, hs, decide_true, decide_false, Bool.not_false, Bool.true_and, hL, hmsb]
        · have : ¬ n - min len n + i < n := by omega
          have h2 : ¬ n ≤ i := by omega
          simp only [hi, decide_true, Bool.true_and, hl, if_false, this, h2, decide_false, Bool.not_false]
          rw [BitVec.msb_eq_getLsbD_last, BitVec.getLsbD_shiftLeft, BitVec.getLsbD_sshiftRight]
          have h3 : n - 1 - (n - min len n) = min len n - 1 := by omega
          have h4 : n - 1 < n := by omega
          have h5 : ¬ n - 1 < n - min len n := by omega
          have h6 : ¬ n ≤ min len n - 1 := by omega
          simp only [h3, h4, h5, h6, hs, decide_true, decide_false, Bool.not_false, Bool.true_and, hL, hmsb]
      · have : n ≤ i := by omega
        simp [hi, this]
    · rw [if_neg hs]
      show _ = BitVec.getLsbD _ i
      rw [BitVec.getLsbD_ushiftRight, BitVec.getLsbD_shiftLeft, BitVec.getLsbD_ushiftRight]
      simp only [Bool.not_eq_true] at hs
      have h4 : ¬ n - min len n + i < n - min len n := by omega
      have h3 : n - min len n + i - (n - min len n) = i := by omega
      by_cases hl : i < min len n
      · have hi : i < n := by omega
        have : n - min len n + i < n := by omega
        simp only [hi, hl, this, h3, h4, hs, decide_true, decide_false, Bool.true_and, if_true, Bool.not_false, Bool.false_and, hL]
        by_cases hp : pos + i < n
        · simp [hp]
        · have : x.toNat.testBit (pos + i) = false := Nat.testBit_lt_two_pow (Nat.lt_of_lt_of_le x.isLt (Nat.pow_le_pow_right (by decide) (by omega)))
          simp [hp, this]
      · have : ¬ n - min len n + i < n := by omega
        simp [hl, this, hs]

theorem bfi_eq {n : Nat} (x y : BitVec n) (z : W32) :
    bfiOp n x.toNat y.toNat z.toNat = (fieldInto x y (z.extractLsb' 0 8).toNat (z.extractLsb' 8 8).toNat).toNat := by
  unfold bfiOp fieldInto
  have hp : (z.extractLsb' 0 8).toNat = z.toNat % 256 := by simp
  have hq : (z.extractLsb' 8 8).toNat = z.toNat / 256 % 256 := by simp [Nat.shiftRight_eq_div_pow]
  rw [hp, hq]
  generalize z.toNat % 256 = pos
  generalize z.toNat / 256 % 256 = len
  apply Nat.eq_of_testBit_eq
  intro i
  simp only
  rw [ofBits_testBit]
  show _ = BitVec.getLsbD _ i
  have hm : ((BitVec.allOnes n >>> (n - min len n)) <<< pos).getLsbD i = (decide (i < n) && decide (pos ≤ i) && decide (i < pos + min len n)) := by
    rw [BitVec.getLsbD_shiftLeft, BitVec.getLsbD_ushiftRight, BitVec.getLsbD_allOnes]
    by_cases h1 : i < n <;> by_cases h2 : i < pos
    · simp [h1, h2] <;> omega
    · have : pos ≤ i := by omega
      have e : (n - min len n + (i - pos) < n) ↔ i < pos + min len n := by omega
      simp [h1, h2, this, e]
    · simp [h1]
    · simp [h1]
  simp only [BitVec.getLsbD_or, BitVec.getLsbD_and, BitVec.getLsbD_not, hm]
  unfold nbit
  have hx : ∀ j, x.getLsbD j = x.toNat.testBit j := fun _ => rfl
  have hy : ∀ j, y.getLsbD j = y.toNat.testBit j := fun _ => rfl
  rw [BitVec.getLsbD_shiftLeft, hx, hy]
  by_cases h1 : i < n
  · by_cases h2 : pos ≤ i
    · by_cases h3 : i < pos + min len n
      · have : ¬ i < pos := by omega
        simp [h1, h2, h3, this]
      · simp [h1, h2, h3]
    · have : i < pos := by omega
      simp [h1, h2]
  · have : y.toNat.testBit i = false := Nat.testBit_lt_two_pow (Nat.lt_of_lt_of_le y.isLt (Nat.pow_le_pow_right (by decide) (by omega)))
    simp [h1]

theorem bmrgByte_eq (pool : W64) (k : Byte) : bmrgByte pool.toNat k.toNat = (mergedByte pool k).toNat := by
  unfold bmrgByte mergedByte
  have hp : (pool.extractLsb' (8 * (k.toNat % 8)) 8).toNat = pool.toNat / 2 ^ (8 * (k.toNat % 8)) % 256 := by
    rw [BitVec.extractLsb'_toNat, Nat.shiftRight_eq_div_pow]
  rw [← hp]
  generalize pool.extractLsb' (8 * (k.toNat % 8)) 8 = p
  have hk : k.toNat / 8 % 4 = (k.extractLsb' 3 2).toNat := by simp [Nat.shiftRight_eq_div_pow]
  rw [hk]
  generalize k.extractLsb' 3 2 = c
  simp only
  have hb : brevOp 8 p.toNat = p.reverse.toNat := brev_eq p
  rw [hb]
  have hm : p.msb = decide (128 ≤ p.toNat) := by rw [BitVec.msb_eq_decide]
  rw [hm]
  have : c = 0#2 ∨ c = 1#2 ∨ c = 2#2 ∨ c = 3#2 := by revert c; decide
  rcases this with rfl | rfl | rfl | rfl
  · simp
  · simp
  · by_cases h : 128 ≤ p.toNat <;> simp [h]
  · simp

theorem pool_eq (x y : W32) : x.toNat + 2 ^ 32 * y.toNat = (y ++ x).toNat := by
  rw [BitVec.toNat_append, ← Nat.shiftLeft_add_eq_or_of_lt (BitVec.isLt _), Nat.shiftLeft_eq]
  rw [Nat.add_comm, Nat.mul_comm]

theorem cat4 (b0 b1 b2 b3 : Byte) : (b3 ++ b2 ++ b1 ++ b0).toNat = b0.toNat * 2 ^ (8 * 0) + (b1.toNat * 2 ^ (8 * 1) + (b2.toNat * 2 ^ (8 * 2) + (b3.toNat * 2 ^ (8 * 3) + 0))) := by
  simp only [BitVec.toNat_append]
  rw [← Nat.shiftLeft_add_eq_or_of_lt (BitVec.isLt b2), ← Nat.shiftLeft_add_eq_or_of_lt (BitVec.isLt b1), ← Nat.shiftLeft_add_eq_or_of_lt (BitVec.isLt b0)]
  simp only [Nat.shiftLeft_eq]
  omega

theorem sum4 (f : Nat → Nat) : ((List.range 4).map f).sum = f 0 + (f 1 + (f 2 + (f 3 + 0))) := rfl

theorem bmrg_eq (a b c : Nat) (x y z : W32) (ha : a = x.toNat) (hb : b = y.toNat) (hc : c = z.toNat) : bmrgOp a b c =
    (mergedByte (y ++ x) (z.extractLsb' (8 * 3) 8) ++ mergedByte (y ++ x) (z.extractLsb' (8 * 2) 8) ++
      mergedByte (y ++ x) (z.extractLsb' (8 * 1) 8) ++ mergedByte (y ++ x) (z.extractLsb' (8 * 0) 8)).toNat := by
  subst ha hb hc
  unfold bmrgOp
  have hk : ∀ i, bmrgByte (x.toNat + 2 ^ 32 * y.toNat) (z.toNat / 2 ^ (8 * i) % 256) = (mergedByte (y ++ x) (z.extractLsb' (8 * i) 8)).toNat := fun i => by
    rw [pool_eq, ← bmrgByte_eq, BitVec.extractLsb'_toNat, Nat.shiftRight_eq_div_pow]
  rw [cat4, sum4, hk, hk, hk, hk]

theorem uses_role {u : Use} {l : List Use} (h : ∀ u ∈ l, u.role = .r32) {k : Nat} (hu : l[k]? = some u) : u.role = .r32 :=
  h u (List.mem_of_getElem? hu)

end Sys2Proof.Laws
end

