-- ==== Sys2Proof/Laws/Floats.lean ====
section
/-! SUPPORT. Encodings of the floating formats: modifiers, packed elements, the range of a conversion (11, R270 to R291). -/

namespace Sys2Proof.Laws

open Sys2Proof.Machine

theorem mod_role (ty : Ty) (w : Word) (k L : Nat) : w.src k L % 2 ^ ty.bits = (w.opnd ty k L).toNat := by
  simp [Word.opnd, BitVec.toNat_ofNat]

theorem fmt_pos (t : Fmt) : 0 < t.top := Nat.two_pow_pos _

theorem modify_mag (t : Fmt) (n a : Bool) (x : Nat) : t.mag (t.modify n a x) = t.mag x := by
  unfold Fmt.modify Fmt.mag Fmt.sgn
  have := fmt_pos t
  simp only
  split <;> simp

theorem modify_neg (t : Fmt) (n a : Bool) (x : Nat) : t.neg (t.modify n a x) = ((t.neg x && !a) != n) := by
  have h0 := fmt_pos t
  have hm : t.mag x < t.top := Nat.mod_lt _ h0
  unfold Fmt.modify
  generalize ((t.neg x && !a) != n) = b
  simp only
  generalize t.mag x = m at hm
  cases b
  · simp [Fmt.neg, Fmt.sgn, Nat.div_eq_of_lt hm]
  · simp only [Fmt.neg, Fmt.sgn, if_true]
    rw [Nat.add_div_left _ h0, Nat.div_eq_of_lt hm]
    rfl

theorem val_opp (t : Fmt) (x : Nat) : t.val (t.modify true false x) = (t.val x).opp := by
  unfold Fmt.val
  simp only [modify_mag, modify_neg]
  have hn : ((t.neg x && !false) != true) = !(t.neg x) := by cases t.neg x <;> rfl
  rw [hn]
  by_cases h1 : t.maxFin < t.mag x
  · simp only [h1, if_true]
    by_cases h2 : (t.inf && t.mag x == t.maxFin + 1) = true
    · simp [h2, FVal.opp]
    · simp [h2, FVal.opp]
  · simp only [h1, if_false]
    by_cases h2 : t.mag x / 2 ^ t.f = 0
    · simp [h2, FVal.opp]
    · simp [h2, FVal.opp]

theorem isNan_iff (v : FVal) : v.isNan = decide (v = .nan) := by
  cases v <;> rfl

theorem elem_extract (n : Nat) (x : W32) (k : Nat) : elem n x.toNat k = (x.extractLsb' (n * k) n).toNat := by
  simp [elem, BitVec.extractLsb'_toNat, Nat.shiftRight_eq_div_pow]

theorem src_opnd32 {s : State} {i : Instr} {f : Info} {w : Word} (h : Goes s i f w) (k L : Nat)
    (hr : ∀ u, f.src[k]? = some u → u.role = .r32) : w.src k L = (w.opnd32 k L).toNat := by
  exact (Nat.mod_eq_of_lt (src_lt32 h k L hr)).symm

theorem byteVal_eq (s : Bool) (x : W32) (k : Nat) :
    byteVal s (elem 8 x.toNat k) = (let e := x.extractLsb' (8 * k) 8; if s then e.toInt else (e.toNat : Int)) := by
  rw [elem_extract]
  unfold byteVal
  cases s
  · simp
  · simp only [if_true]
    rw [signed_eq, BitVec.ofInt_natCast, BitVec.ofNat_toNat, BitVec.setWidth_eq]

theorem f32_bits : (fmtOf .f32) = f32 := rfl

theorem roles3 {h : Hdr} {d : Reg} {l : List Reg} {ok : Bool} (k : Nat) (u : Use) :
    (pkAlu h d l ok).src[k]? = some u → u.role = .r32 := by
  simp only [pkAlu, List.getElem?_map]
  intro hh
  cases hk : l[k]? with
  | none => simp [hk] at hh
  | some r => simp only [hk, Option.map_some] at hh; injection hh with hh; rw [← hh]; rfl

theorem conv_lt (t : Fmt) (rm : Rm) (v : FVal) (hmax : t.maxFin + 1 < t.top) (hn : t.nanEnc < 2 * t.top) :
    t.conv rm v < 2 * t.top := by
  cases v with
  | nan => exact hn
  | inf n =>
    unfold Fmt.conv Fmt.infEnc Fmt.sgn
    simp only
    split
    · split <;> omega
    · exact hn
  | fin n m e =>
    unfold Fmt.conv Fmt.sgn
    simp only
    have := Nat.min_le_right (t.encMag rm n m e) t.maxFin
    split <;> omega

theorem conv_bits (ty : Ty) (rm : Rm) (v : FVal) (h : ty.isAnyFloat = true) : (fmtOf ty).conv rm v < 2 ^ ty.bits := by
  have := conv_lt (fmtOf ty) rm v (by cases ty <;> decide) (by cases ty <;> decide)
  have e : 2 * (fmtOf ty).top = 2 ^ ty.bits := by cases ty <;> first | rfl | exact absurd h (by decide)
  omega

theorem bits16 {t : Ty} (h : t.isAnyFloat = true) (h8 : ¬ t.bits = 8) (h32 : ¬ t.bits = 32) (h64 : ¬ t.bits = 64) : t.bits = 16 := by
  cases t <;> first | rfl | exact absurd h (by decide) | exact absurd rfl h8 | exact absurd rfl h32 | exact absurd rfl h64

end Sys2Proof.Laws
end

