-- ==== Sys2Proof/Laws/Lanes.lean ====
section
/-! SUPPORT. Words across lanes and paired words: masks of lanes, the order of a reduction, the two slots of a paired word (09,
R232; 14, R338 to R343). -/

namespace Sys2Proof.Laws

open Sys2Proof.Machine

/-- A word that writes one field, where its meaning says so only of words that perform. -/
theorem computesK {i : Instr} {f0 : Info} (hf : i.info = some f0) {u : Use} (hu : u ∈ f0.dst) {val : Word → Nat → Nat}
    (k : Word → List RegW) (he : ∀ s, exec i s = alu i k s) (ht : ∀ w x, k { w with g := { w.g with tx := x } } = k w)
    (hv : ∀ s w, Goes s i f0 w → ∃ v, k w = w.put u v ∧ ∀ L, L < 32 → v L = val w L) : Computes i u val := by
  intro s f w h
  obtain rfl : f = f0 := by have := h.info; rw [hf] at this; injection this with this; exact this.symm
  obtain ⟨v, e, h0⟩ := hv s w h
  obtain ⟨t, p⟩ := alu_performed h k (ht w) (he s) (by rw [e]; exact put_pushes w v hu)
  refine ⟨t, _, p, by rw [e]; exact put_keeps w u v f hu, ?_⟩
  rw [e]
  have hg := put_gives w u v (fun x => dst_not_sel h.formed h.info hu x)
  unfold Word.gives at hg ⊢
  revert hg
  split
  · intro hg L hL ha; rw [hg L hL ha, h0 L hL]
  · intro hg L hL ha; rw [(hg L hL ha).1, (hg L hL ha).2, h0 L hL]; exact ⟨rfl, rfl⟩
  · intro hg L hL ha j hj; rw [hg L hL ha j hj, h0 L hL]
  · intro hg ha; rw [hg ha, h0 0 (by decide)]
  · intro hg ha; rw [hg ha, h0 0 (by decide)]
  · intro hg ha; rw [(hg ha).1, (hg ha).2, h0 0 (by decide)]; exact ⟨rfl, rfl⟩
  · rintro ⟨v, e, hg⟩; exact ⟨v, e, fun L hL ha => by rw [hg L hL ha, h0 L hL]⟩
  · exact id
  · exact id

theorem decidesK {i : Instr} {f0 : Info} (hf : i.info = some f0) {p : Pred} (hu : p ∈ f0.pd) {val : Word → Nat → Bool}
    (k : Word → List RegW) (he : ∀ s, exec i s = alu i k s) (ht : ∀ w x, k { w with g := { w.g with tx := x } } = k w)
    (hv : ∀ s w, Goes s i f0 w → ∃ v, k w = w.putP p v ∧ ∀ L, L < 32 → v L = val w L) : Decides i p val := by
  intro s f w h
  obtain rfl : f = f0 := by have := h.info; rw [hf] at this; injection this with this; exact this.symm
  obtain ⟨v, e, h0⟩ := hv s w h
  obtain ⟨t, q⟩ := alu_performed h k (ht w) (he s) (by rw [e]; exact .inl (putP_nopush w p _))
  refine ⟨t, _, q, by rw [e]; exact putP_keeps w p _ f hu, ?_⟩
  rw [e]
  have hg := putP_gives w p v
  intro L hL ha
  rw [hg L hL ha]
  split
  · rfl
  · exact h0 L hL

theorem lxch_eq (mode : LxMode) (seg : Seg) (k L : Nat) : lxchSrc mode (segSize seg) k L =
    (let size := match seg with
      | .seg32 => 32
      | .seg16 => 16
      | .seg8 => 8
      | .seg4 => 4
      | .seg2 => 2
    let base := L / size * size
    match mode with
      | .from => base + k % size
      | .back => if L < base + k then L else L - k
      | .fwd => if L + k < base + size then L + k else L
      | .flip => if k < size then Nat.xor L k else L) := by
  cases seg <;> cases mode <;> simp only [lxchSrc, segSize] <;> first | omega | grind

theorem maskOf_inMask (m : Mask) : maskOf (inMask m) = m := by
  apply BitVec.eq_of_getLsbD_eq
  intro i hi
  exact inMask_maskOf (inMask m) hi

theorem mask_ext {a b : Mask} (h : ∀ L, L < 32 → inMask a L = inMask b L) : a = b :=
  BitVec.eq_of_getLsbD_eq fun i hi => h i hi

theorem inMask_poll (w : Word) (a : Pred) (inv : Bool) {L : Nat} (h : L < 32) :
    inMask (w.pollMask a inv) L = (inMask w.act L && (inMask (w.g.pred a) L != inv)) := by
  unfold Word.pollMask inMask
  rw [BitVec.getLsbD_and]
  cases inv <;> simp [h]

theorem poll_mask (w : Word) (a : Pred) (inv : Bool) :
    w.pollMask a inv = maskOf fun L => inMask w.act L && (inMask (w.g.pred a) L != inv) :=
  mask_ext fun L hL => by rw [inMask_poll w a inv hL, inMask_maskOf _ hL]

theorem any_mask (f : Nat → Bool) : lanes32.any f = (maskOf f != 0#32) := by
  rw [Bool.eq_iff_iff, List.any_eq_true, bne_iff_ne]
  constructor
  · rintro ⟨L, hL, hf⟩ e
    have := inMask_maskOf f (List.mem_range.mp hL)
    rw [e, hf] at this
    simp [inMask] at this
  · intro hn
    refine Classical.byContradiction fun hc => hn (mask_ext fun L hL => ?_)
    rw [inMask_maskOf f hL]
    cases hf : f L
    · simp [inMask]
    · exact absurd ⟨L, List.mem_range.mpr hL, hf⟩ hc

theorem all_mask (m : Mask) (f : Nat → Bool) :
    lanes32.all (fun L => !(inMask m L) || (inMask m L && f L)) = (maskOf (fun L => inMask m L && f L) == m) := by
  rw [Bool.eq_iff_iff, List.all_eq_true, beq_iff_eq]
  constructor
  · intro h
    apply mask_ext
    intro L hL
    rw [inMask_maskOf _ hL]
    have := h L (List.mem_range.mpr hL)
    cases h1 : inMask m L <;> simp_all
  · intro h L hL
    have := inMask_maskOf (fun L => inMask m L && f L) (List.mem_range.mp hL)
    rw [h] at this
    cases h1 : inMask m L
    · rfl
    · rw [h1] at this; simpa using this.symm

theorem lredRound_lt (c : Nat → Nat → Nat) (u : Nat → Option Nat) {d L : Nat} (h : L < d) : lredRound c u d L =
    (match u L, u (L + d) with
      | some x, some y => some (c x y)
      | some x, none => some x
      | none, y => y) := by
  unfold lredRound
  rw [if_pos h]
  cases u L <;> cases u (L + d) <;> rfl

theorem lred_eq (c : Nat → Nat → Nat) (leaf : Nat → Option Nat) : lred c leaf =
    (let both := fun (x y : Option Nat) => match x, y with
        | some x, some y => some (c x y)
        | some x, none => some x
        | none, y => y
      let r16 := fun L => both (leaf L) (leaf (L + 16))
      let r8 := fun L => both (r16 L) (r16 (L + 8))
      let r4 := fun L => both (r8 L) (r8 (L + 4))
      let r2 := fun L => both (r4 L) (r4 (L + 2))
      both (r2 0) (r2 1)) := by
  have h := @lredRound_lt c
  simp [lred, h]

theorem round_none {c : Nat → Nat → Nat} {u : Nat → Option Nat} {d : Nat} (h : ∀ L, L < d → lredRound c u d L = none) :
    ∀ L, L < 2 * d → u L = none := by
  have key : ∀ L, L < d → u L = none ∧ u (L + d) = none := by
    intro L hL
    have := h L hL
    rw [lredRound_lt c u hL] at this
    cases h1 : u L <;> cases h2 : u (L + d) <;> simp_all
  intro L hL
  by_cases hd : L < d
  · exact (key L hd).1
  · have := (key (L - d) (by omega)).2
    rwa [show L - d + d = L by omega] at this

theorem lanes_none {act : Mask} (src : Nat → Nat) (c : Nat → Nat → Nat)
    (h : lred c (fun L => if inMask act L then some (src L) else none) = none) : act = 0#32 := by
  have h1 : ∀ L, L < 1 → lredRound c (lredRound c (lredRound c (lredRound c (lredRound c
      (fun L => if inMask act L then some (src L) else none) 16) 8) 4) 2) 1 L = none := fun L hL => by
    obtain rfl : L = 0 := by omega
    exact h
  have := round_none (round_none (round_none (round_none (round_none h1))))
  apply mask_ext
  intro L hL
  have h2 := this L hL
  cases hc : inMask act L
  · simp [inMask]
  · simp [hc] at h2

theorem round_lt (rm : Rm) (v : FVal) : f32.round rm v < 2 ^ 32 := by
  have h1 : f32.nanEnc < 2 ^ 32 := by decide
  have h2 : ∀ n, f32.infEnc n < 2 ^ 32 := by decide
  have h3 : ∀ n, f32.sgn n + f32.maxFin < 2 ^ 32 := by decide
  cases v with
  | nan => exact h1
  | inf n => exact h2 n
  | fin n m e =>
    unfold Fmt.round
    simp only
    have := h3 n
    have := h2 n
    split
    · omega
    · cases rm <;> simp only <;> (try split) <;> omega

theorem pick_lt (a b : Bool) (x y : Nat) (hx : x < 2 ^ 32) (hy : y < 2 ^ 32) : f32.pickBy a b x y < 2 ^ 32 := by
  have h1 : f32.nanEnc < 2 ^ 32 := by decide
  unfold Fmt.pickBy
  simp only
  split
  · exact h1
  · split
    · exact hy
    · split
      · exact hx
      · split <;> assumption

theorem slotOp_eq (z : Slot) (x y : W32) (hs : z.op = .shl ∨ z.op = .shr ∨ z.op = .sar ∨ z.op = .rotl → z.k.toNat < 32) :
    BitVec.ofNat 32 (slotOp z x.toNat y.toNat) = pairValue z.op z.k x y := by
  obtain ⟨op, d, a, k⟩ := z
  have e0 : ∀ v : Int, BitVec.ofNat 32 (v % ((2 ^ 32 : Nat) : Int)).toNat = BitVec.ofInt 32 v := by
    intro v
    apply BitVec.eq_of_toNat_eq
    simp
    omega
  have sg : ∀ v : W32, signed 32 (v.toNat : Int) = v.toInt := by
    intro v
    rw [signed_eq, BitVec.ofInt_natCast, BitVec.ofNat_toNat, BitVec.setWidth_eq]
  have k0 : BitVec.ofInt 32 k.toInt = k.signExtend 32 := rfl
  cases op <;> simp only [slotOp, pairValue, slotK, e0, sg]
  · simp
  · rw [BitVec.ofInt_add]; simp
  · rw [ofInt_sub]; simp
  · simp
  · simp
  · simp
  · by_cases hh : y.toInt < x.toInt
    · rw [if_pos hh, if_pos (BitVec.slt_iff_toInt_lt.mpr hh)]; simp
    · rw [if_neg hh, if_neg (fun e => hh (BitVec.slt_iff_toInt_lt.mp e))]; simp
  · by_cases hh : x.toInt < y.toInt
    · rw [if_pos hh, if_pos (BitVec.slt_iff_toInt_lt.mpr hh)]; simp
    · rw [if_neg hh, if_neg (fun e => hh (BitVec.slt_iff_toInt_lt.mp e))]; simp
  · rfl
  · rfl
  · rw [BitVec.ofInt_add, k0]; simp
  · apply BitVec.eq_of_toNat_eq; simp [Nat.shiftLeft_eq]
  · apply BitVec.eq_of_toNat_eq; simp [Nat.shiftRight_eq_div_pow]
    exact Nat.lt_of_le_of_lt (Nat.div_le_self _ _) y.isLt
  · unfold BitVec.sshiftRight
    rw [Int.shiftRight_eq_div_pow]
  · apply BitVec.eq_of_toNat_eq
    rw [← rotl_eq y (by decide) k.toNat, BitVec.toNat_ofNat]
    unfold rotlOp
    simp only [Nat.mod_add_mod]
  · exact k0
  · apply BitVec.eq_of_toNat_eq
    have : k.toNat < 64 := k.isLt
    rw [BitVec.toNat_and, BitVec.toNat_setWidth, BitVec.toNat_ofNat, Nat.mod_eq_of_lt (a := k.toNat) (by omega)]
    exact Nat.mod_eq_of_lt (Nat.lt_of_le_of_lt Nat.and_le_left y.isLt)

/-- Writes of a V or S register's field leave another register. -/
theorem put_other_v (w : Word) (u : Use) (val : Nat → Nat) (g : Group) (n L : Nat) (hL : L < 32) (hn : n ∉ u.vregs) :
    (g.writes (w.put u val)).vget n L = g.vget n L := by
  have h0 := put_keeps { w with g := g } u val { h := bareHdr false, dst := [u] } (.head _)
  exact h0.v n L hL (.inl (by simpa using hn))

theorem put_other_s (w : Word) (u : Use) (val : Nat → Nat) (g : Group) (n : Nat) (hn : n ∉ u.sregs) :
    (g.writes (w.put u val)).sget n = g.sget n := by
  have h0 := put_keeps { w with g := g } u val { h := bareHdr false, dst := [u] } (.head _)
  exact h0.s n (.inl (by simpa using hn))

theorem put_pred (w : Word) (u : Use) (val : Nat → Nat) (g : Group) : (g.writes (w.put u val)).p = g.p :=
  writes_p _ (fun x hx n a b e => by
    rcases put_kinds w u val x hx with ⟨_, _, _, h, _⟩ | ⟨_, _, h, _⟩ | ⟨_, _, _, h, _⟩ <;> rw [h] at e <;> cases e) g

theorem writes_append (g : Group) (a b : List RegW) : g.writes (a ++ b) = (g.writes a).writes b := List.foldl_append

/-- A slot's destination holds what the slot gives. -/
def slotHolds (w : Word) (g : Group) (z : Slot) : Prop :=
  match z.d with
  | .v n => ∀ L, L < 32 → inMask w.act L = true → (g.writes (w.slotWs z)).vget n.val L = pairValue z.op z.k (w.slotReg z.d L) (w.slotReg z.a L)
  | .s n => w.act ≠ 0#32 → (g.writes (w.slotWs z)).sget n.val = (pairValue z.op z.k (w.slotReg z.d 0) (w.slotReg z.a 0)).setWidth 64
  | _ => True

theorem slot_last (w : Word) (g : Group) (z : Slot) (ns : ∀ e, z.d ≠ .sel e)
    (hv : ∀ L, BitVec.ofNat 32 (slotOp z (w.reg (u32 z.d) [] L) (w.reg (u32 z.a) [] L)) =
      pairValue z.op z.k (w.slotReg z.d L) (w.slotReg z.a L)) : slotHolds w g z := by
  obtain ⟨op, d, a, k⟩ := z
  have hg := put_gives { w with g := g } (u32 d) (fun L => slotOp ⟨op, d, a, k⟩ (w.reg (u32 d) [] L) (w.reg (u32 a) [] L)) ns
  cases d with
  | v n => exact fun L hL ha => (hg L hL ha).trans (hv L)
  | s n =>
    intro ha
    refine (hg ha).trans ?_
    rw [← hv 0]
    apply BitVec.eq_of_toNat_eq
    simp
  | q _ => trivial
  | sel _ => trivial
  | z => trivial

end Sys2Proof.Laws
end

