-- ==== Sys2Proof/Laws/Runs.lean ====
section
/-! SUPPORT. Words whose own effect is known perform, wait or take an exception. -/

namespace Sys2Proof.Laws

open Sys2Proof.Machine

theorem runs_retire {s u : State} {i : Instr} {f : Info} {w : Word} {atOnce adv : Bool} {n : Nat}
    (hx : exec i s = .next (u.retire s w f atOnce adv n)) :
    Runs s (u.retire s w f atOnce adv n) (if adv then u.onward w else u) i w n := by
  cases hg : Tbl.find u.groups w.gs with
  | none =>
    have e : u.retire s w f atOnce adv n = u.updLb (lbOf w.gs) (fun b => { b with busy := u.clock + b.beats }) := by
      unfold State.retire
      simp only [show (u.updLb (lbOf w.gs) fun b => { b with busy := u.clock + b.beats }).groups = u.groups from rfl, hg]
    have h0 : ∀ v : State, (v = if adv then u.onward w else u) → Tbl.find v.groups w.gs = none := by
      rintro v rfl
      split
      · unfold State.onward State.updGroup; rw [show (_ : State).groups = Tbl.upd u.groups w.gs _ from rfl, find_upd_self, hg]; rfl
      · exact hg
    refine ⟨hx, fun g h => ?_, fun k hk => ?_, ?_⟩
    · rw [h0 _ rfl] at h; cases h
    · rw [e]
      split
      · exact (find_upd_other _ _ hk).symm
      · rfl
    · rw [e]
      split <;> rfl
  | some g0 =>
    obtain ⟨⟨gr, te, lb, hr⟩, ho, h, hf, hR, hn, hw, _, _, hat⟩ := retire_spec u s w f atOnce adv n g0 hg
    have hlb : (u.retire s w f atOnce adv n).lbs = (u.updLb (lbOf w.gs) (fun b => { b with busy := u.clock + b.beats })).lbs := by
      unfold State.retire
      simp only [show (u.updLb (lbOf w.gs) fun b => { b with busy := u.clock + b.beats }).groups = u.groups from rfl, hg]
      cases atOnce with
      | true =>
        simp only [if_true]
        rw [(settleQuiet_spec _ _).1.choose_spec]
      | false => simp
    refine ⟨hx, fun g hg' => ?_, fun k hk => ?_, ?_⟩
    · refine ⟨h, hf, ?_⟩
      cases adv with
      | false =>
        simp only [Bool.false_eq_true, if_false] at hg'
        rw [hg] at hg'
        injection hg' with hg'
        subst hg'
        refine ⟨hR, hn, hw, fun b => ?_⟩
        rw [hat b]; simp
      | true =>
        simp only [if_true] at hg'
        unfold State.onward State.updGroup at hg'
        rw [show (_ : State).groups = Tbl.upd u.groups w.gs _ from rfl, find_upd_self, hg] at hg'
        injection hg' with hg'
        subst hg'
        refine ⟨?_, hn, ?_, fun b => ?_⟩
        · unfold Retires Group.Accounted at hR
          unfold Group.Accounted
          rw [hR]
          cases w.b <;> rfl
        · rw [hw]
          unfold State.rwcNow
          cases w.b <;> rfl
        · rw [hat b]
          cases b <;> cases hb : w.b <;> simp [Group.at, Group.slot, Group.setSlot, Function.comp_def]
    · rw [ho k hk]
      split
      · exact (find_upd_other _ _ hk).symm
      · rfl
    · have : ∀ v : State, (v = if adv then u.onward w else u) → ∃ gr, v = { u with groups := gr } := by
        rintro v rfl
        split
        · exact ⟨_, rfl⟩
        · exact ⟨_, rfl⟩
      obtain ⟨g1, hv⟩ := this _ rfl
      rw [hv]
      generalize u.retire s w f atOnce adv n = t at hr hlb
      rw [hr] at hlb ⊢
      simp only at hlb
      rw [hlb]
      rfl

/-- What a word's own effect may count on. -/
structure Found (s : State) (w : Word) : Prop where
  group  : Tbl.find s.groups w.gs = some w.g
  slot   : w.g.slot w.b = some w.slot
  plays  : (s.space (s.spidOf w.g)).replay = none
  stable : Tbl.put s.groups w.gs w.g = s.groups

theorem put_put {α : Type} (t : Tbl α) (i : Nat) (a b : α) : Tbl.put (Tbl.put t i a) i b = Tbl.put t i b := by
  induction t with
  | nil => simp [Tbl.put]
  | cons e t ih =>
    obtain ⟨k, c⟩ := e
    by_cases h1 : k = i
    · simp [Tbl.put, h1]
    · by_cases h2 : i < k
      · simp [Tbl.put, h1, h2]
      · simp [Tbl.put, h1, h2, ih]

theorem found {s : State} {i : Instr} {f : Info} {w : Word} (h : Goes s i f w) : Found (s.entered i f w) (w.entered i f) := by
  obtain ⟨x, hx⟩ := restrictTx_tx i f w.g w.act
  unfold State.entered Word.entered
  rw [hx]
  exact ⟨find_put_self _ _ _, h.slot, h.plays, put_put _ _ _ _⟩

/-- Giving the word's group the value it has changes nothing. -/
theorem Found.same {s : State} {w : Word} (h : Found s w) : (s.updGroup w.gs fun _ => w.g) = s := by
  unfold State.updGroup Tbl.upd
  rw [h.group]
  simp only [h.stable]

/-- A word whose own effect is done performs. -/
theorem performs_of {i : Instr} {c : State → Word → Prop} {e : Word → State → State} (k : Word → State → Eff)
    (he : ∀ s, exec i s = s.issue i k) (hk : ∀ s w, Found s w → c s w → k w s = .done (e w s)) : Performs i c e := by
  intro s f w h hc
  have hx := (he s).trans (issue_goes h k)
  rw [show k { w with g := restrictTx i f w.g w.act } { s with groups := Tbl.put s.groups w.gs (restrictTx i f w.g w.act) } = _
    from hk _ _ (found h) hc] at hx
  exact ⟨_, runs_retire hx⟩

theorem steers_of {i : Instr} {c : State → Word → Prop} {n : Word → Nat} {e : Word → State → State} (k : Word → State → Eff)
    (he : ∀ s, exec i s = s.issue i k) (hk : ∀ s w, Found s w → c s w → k w s = .moved (e w s) (n w)) : Steers i c n e := by
  intro s f w h hc
  have hx := (he s).trans (issue_goes h k)
  rw [show k { w with g := restrictTx i f w.g w.act } { s with groups := Tbl.put s.groups w.gs (restrictTx i f w.g w.act) } = _
    from hk _ _ (found h) hc] at hx
  exact ⟨_, runs_retire hx⟩

theorem parks_of {i : Instr} {c : State → Word → Prop} {why : Stall} {e : Word → State → State} (k : Word → State → Eff)
    (he : ∀ s, exec i s = s.issue i k) (hk : ∀ s w, Found s w → c s w → k w s = .wait why (e w s)) : Parks i c why e := by
  intro s f w h hc
  have hx := (he s).trans (issue_goes h k)
  rw [show k { w with g := restrictTx i f w.g w.act } { s with groups := Tbl.put s.groups w.gs (restrictTx i f w.g w.act) } = _
    from hk _ _ (found h) hc] at hx
  exact hx

/-- A cause of a late kind is taken so in service mode; in fenced mode it is held (15, R367). -/
theorem traps_of {i : Instr} {c : State → Word → Prop} {x : Word → Cause} {e : Word → State → State} (k : Word → State → Eff)
    (he : ∀ s, exec i s = s.issue i k) (hk : ∀ s w, Found s w → c s w → k w s = .trap (x w) (e w s))
    (hl : ∀ s w, c s w → lateKind (x w).code = false ∨ s.service w.g = true) : Traps i c x e := by
  intro s f w h hc
  have hx := (he s).trans (issue_goes h k)
  rw [show k { w with g := restrictTx i f w.g w.act } { s with groups := Tbl.put s.groups w.gs (restrictTx i f w.g w.act) } = _
    from hk _ _ (found h) hc] at hx
  have hf : (lateKind (x (w.entered i f)).code && (((s.gridOf w.g).map Grid.fenced).getD false)) = false := by
    rcases hl _ _ hc with h1 | h1
    · rw [h1]; rfl
    · have h2 : s.service w.g = true := by
        obtain ⟨y, hy⟩ := restrictTx_tx i f w.g w.act
        unfold State.entered Word.entered at h1
        rw [hy] at h1
        exact h1
      unfold State.service at h2
      cases hg : s.gridOf w.g with
      | none => simp
      | some r =>
        rw [hg] at h2
        simp only [Option.map_some, Option.getD_some, Bool.not_eq_true'] at h2
        simp [h2]
  exact hx.trans (congrArg _ (if_neg fun hc' => Bool.noConfusion (hf.symm.trans hc')))

/-! ### Translated lanes -/

theorem leastOf_nil : leastOf [] = none := rfl

theorem causes_nil {l : List LaneTr} (h : ∀ x ∈ l, ∃ p u, x.tr = .ok p u) : pickCause l = none := by
  have : l.filterMap (fun x => x.tr.cause.map (·.1)) = [] := by
    rw [List.filterMap_eq_nil_iff]
    intro x hx
    obtain ⟨p, u, e⟩ := h x hx
    simp [e, Tr.cause]
  unfold pickCause
  rw [this]
  rfl

/-- Lanes that all translate perform. -/
theorem withCodes_ok {s : State} {w : Word} {once : Bool} {acc : Acc} {code : Nat → Nat} {l : List LaneTr} {k : List LaneTr → Eff}
    (h : ∀ x ∈ l, ∃ p u, x.tr = .ok p u) : s.withCodes w once acc code l k = k l := by
  have h0 : pickCause (l.filter (fun x => (x.tr.cause.map (·.1)) == some 0x08)) = none :=
    causes_nil fun x hx => h x (List.mem_filter.mp hx).1
  have h2 : l.filter (fun x => x.tr == .touch) = [] := by
    rw [List.filter_eq_nil_iff]
    intro x hx
    obtain ⟨p, u, e⟩ := h x hx
    rw [e]
    exact fun hc => nomatch (of_decide_eq_true hc : (Tr.ok p u) = .touch)
  have h3 : l.any (fun x => x.tr == .member) = false := by
    rw [List.any_eq_false]
    intro x hx
    obtain ⟨p, u, e⟩ := h x hx
    rw [e]
    exact fun hc => nomatch (of_decide_eq_true hc : (Tr.ok p u) = .member)
  unfold State.withCodes
  simp only [h0]
  split
  · rename_i va hv
    obtain ⟨x, hx, he⟩ := List.exists_of_findSome?_eq_some hv
    obtain ⟨p, u, e⟩ := h x hx
    rw [e] at he
    cases he
  · simp only [causes_nil h, h2, h3]
    rfl

theorem withLanes_ok {s : State} {w : Word} {once : Bool} {acc : Acc} {l : List LaneTr} {k : List LaneTr → Eff}
    (h : ∀ x ∈ l, ∃ p u, x.tr = .ok p u) : s.withLanes w once acc l k = k l := withCodes_ok h

/-- Aligned addresses that all translate perform. -/
theorem accessAs_ok {s : State} {w : Word} {once : Bool} {acc : Acc} {code : Nat → Nat} {n : Nat} {l : List (Nat × W64)} {k : List LaneTr → Eff}
    (h : ∀ x ∈ l, x.2.toNat % n = 0 ∧ ∃ p u, s.trans (w.ask acc) x.2.toNat n x.1 = .ok p u) :
    s.accessAs w once acc code n l k = k (l.map fun x => ⟨x.1, x.2, s.trans (w.ask acc) x.2.toNat n x.1⟩) := by
  unfold State.accessAs
  have e : (l.map fun x => (⟨x.1, x.2, if x.2.toNat % n ≠ 0 then .bad 0x08 0 else s.trans (w.ask acc) x.2.toNat n x.1⟩ : LaneTr)) =
      l.map fun x => ⟨x.1, x.2, s.trans (w.ask acc) x.2.toNat n x.1⟩ :=
    List.map_congr_left fun x hx => by rw [if_neg (by simp [(h x hx).1])]
  rw [e]
  apply withCodes_ok
  intro x hx
  obtain ⟨y, hy, rfl⟩ := List.mem_map.mp hx
  exact (h y hy).2
theorem access_ok {s : State} {w : Word} {once : Bool} {acc : Acc} {n : Nat} {l : List (Nat × W64)} {k : List LaneTr → Eff}
    (h : ∀ x ∈ l, x.2.toNat % n = 0 ∧ ∃ p u, s.trans (w.ask acc) x.2.toNat n x.1 = .ok p u) :
    s.access w once acc n l k = k (l.map fun x => ⟨x.1, x.2, s.trans (w.ask acc) x.2.toNat n x.1⟩) := accessAs_ok h

end Sys2Proof.Laws
end

