-- ==== Sys2Proof/Laws/Paths.lean ====
section
/-! SUPPORT. Control words: the plans of branches, joins and exits, with their stack accesses (07, R185 to R189; 10, R258 to R265). -/

namespace Sys2Proof.Laws

open Sys2Proof.Machine

theorem carry_plain {s : State} {w : Word} {p : Plan} (h1 : p.writes = []) (h2 : p.reads = []) (h3 : p.past = false) :
    s.carry w p none = .moved (s.updGroup w.gs fun _ => p.g) p.n := by
  simp [State.carry, h1, h2, h3]

theorem carry_own {s : State} {w : Word} {p : Plan} {c : Cause} (h1 : p.writes = []) (h2 : p.reads = []) :
    s.carry w p (some c) = .trap c s := by
  simp [State.carry, h1, h2]

theorem carry_past {s : State} {w : Word} {p : Plan} (h1 : p.writes = []) (h2 : p.reads = []) (h3 : p.past = true) (ha : w.act ≠ 0#32) :
    s.carry w p none = .trap { code := 0x21, lanes := w.act } s := by
  simp [State.carry, h1, h2, h3, ha]

/-- One entry written to a group's stacks. -/
theorem carry_write {s : State} {w : Word} {p : Plan} {o pa : Nat} {unc : Bool} {x : List W64} (h1 : p.writes = [(o, x)]) (h2 : p.reads = [])
    (h3 : p.past = false) (hs : s.stackAt w .store o pa unc) :
    s.carry w p none = .moved ((s.updGroup w.gs fun _ => p.g).plainWrite (s.spidOf w.g) (s.partOf w.g) unc pa (wordBytes x)) p.n := by
  have hu : s.transGlobal (w.ask _) (s.frameBase w.g + 32 * s.privOf w + o) = .ok [.mem pa] unc := hs
  have e : s.stackTrs w .store [o] = [⟨(laneList w.slot.mask).headD 0, BitVec.ofNat 64 (s.frameBase w.g + 32 * s.privOf w + o), .ok [.mem pa] unc⟩] := by
    unfold State.stackTrs
    simp only [List.map_cons, List.map_nil]
    unfold State.privOf at hu
    rw [hu]
    rfl
  unfold State.carry
  simp only [h1, h2, h3, List.isEmpty_cons, Bool.false_and, Bool.false_eq_true, if_false, List.map_cons, List.map_nil, e]
  rw [withLanes_ok (by intro x hx; rw [List.mem_singleton] at hx; subst hx; exact ⟨_, _, rfl⟩)]
  rw [withLanes_ok (by simp [State.stackTrs])]
  rfl

/-- One entry read from them. -/
theorem carry_read {s : State} {w : Word} {p : Plan} {o pa : Nat} {unc : Bool} (h1 : p.writes = []) (h2 : p.reads = [o])
    (h3 : p.past = false) (hs : s.stackAt w .load o pa unc) : s.carry w p none = .moved (s.updGroup w.gs fun _ => p.g) p.n := by
  have hu : s.transGlobal (w.ask _) (s.frameBase w.g + 32 * s.privOf w + o) = .ok [.mem pa] unc := hs
  have e : s.stackTrs w .load [o] = [⟨(laneList w.slot.mask).headD 0, BitVec.ofNat 64 (s.frameBase w.g + 32 * s.privOf w + o), .ok [.mem pa] unc⟩] := by
    unfold State.stackTrs
    simp only [List.map_cons, List.map_nil]
    unfold State.privOf at hu
    rw [hu]
    rfl
  unfold State.carry
  simp only [h1, h2, h3, List.isEmpty_cons, Bool.and_false, Bool.false_eq_true, if_false, List.map_nil, e]
  rw [withLanes_ok (by simp [State.stackTrs])]
  rw [withLanes_ok (by intro x hx; rw [List.mem_singleton] at hx; subst hx; exact ⟨_, _, rfl⟩)]
  rfl

theorem slot_other (g : Group) (b : Bool) (x : Option PcSlot) : (g.setSlot b x).slot (!b) = g.slot (!b) := by cases b <;> rfl
theorem refill_setSlot (g : Group) (b : Bool) (x : Option PcSlot) : (g.setSlot b x).refill = g.refill := by cases b <;> rfl
theorem path_setSlot (g : Group) (b : Bool) (x : Option PcSlot) : (g.setSlot b x).path (!b) = g.path (!b) := by
  unfold Group.path; rw [slot_other, refill_setSlot]

/-- The plan of a branch of some lanes whose other slot is free. -/
theorem branch_fork {g : Group} {priv : Nat} {w : Word} {act : Mask} {t rest : W64} (h1 : act ≠ w.slot.mask) (h2 : act ≠ 0#32)
    (h3 : g.path (!w.b) = none) : ({ g } : Plan).branch priv w.b w.slot act t rest =
      { g := w.fork g act t rest } := by
  unfold Plan.branch
  simp only [h1, h2, if_false]
  unfold Plan.enterOther
  simp only [path_setSlot, h3]
  unfold Word.fork
  cases w.b <;> rfl

theorem branch_push {g : Group} {priv : Nat} {w : Word} {act : Mask} {t rest : W64} {e : SpillEntry} (h1 : act ≠ w.slot.mask)
    (h2 : act ≠ 0#32) (h3 : g.path (!w.b) = some e) (h4 : priv ≠ 0) (h5 : g.spill.length < 128) :
    ({ g } : Plan).branch priv w.b w.slot act t rest =
      { g := w.fork { g with spill := e :: g.spill } act t rest, writes := [(16 * g.spill.length, stackWords e.pc e.mask 0#32)] } := by
  unfold Plan.branch
  simp only [h1, h2, if_false]
  unfold Plan.enterOther
  simp only [path_setSlot, h3]
  unfold Plan.pushSpill
  have h6 : (g.setSlot w.b (some { w.slot with pc := rest, mask := w.slot.mask &&& ~~~act })).spill = g.spill := by cases w.b <;> rfl
  simp only [h6, h4, show ¬ 128 ≤ g.spill.length by omega, or_false, if_false]
  unfold Word.fork
  cases w.b <;> rfl

theorem branch_past {g : Group} {priv : Nat} {w : Word} {act : Mask} {t rest : W64} {e : SpillEntry} (h1 : act ≠ w.slot.mask)
    (h2 : act ≠ 0#32) (h3 : g.path (!w.b) = some e) (h4 : priv = 0 ∨ 128 ≤ g.spill.length) :
    (({ g } : Plan).branch priv w.b w.slot act t rest).writes = [] ∧ (({ g } : Plan).branch priv w.b w.slot act t rest).reads = [] ∧
      (({ g } : Plan).branch priv w.b w.slot act t rest).past = true := by
  unfold Plan.branch
  simp only [h1, h2, if_false]
  unfold Plan.enterOther
  simp only [path_setSlot, h3]
  unfold Plan.pushSpill
  have h6 : (g.setSlot w.b (some { w.slot with pc := rest, mask := w.slot.mask &&& ~~~act })).spill = g.spill := by cases w.b <;> rfl
  simp only [h6, h4, if_true]
  exact ⟨trivial, trivial, trivial⟩

theorem branch_all {g : Group} {priv : Nat} {w : Word} {act : Mask} {t rest : W64} (h : act = w.slot.mask) :
    ({ g } : Plan).branch priv w.b w.slot act t rest = { g := w.goto g t } := by
  unfold Plan.branch
  simp only [h, if_true]
  rfl

theorem branch_none {g : Group} {priv : Nat} {w : Word} {t rest : W64} (h : w.slot.mask ≠ 0#32) :
    ({ g } : Plan).branch priv w.b w.slot 0#32 t rest = { g := w.goto g rest } := by
  unfold Plan.branch
  simp only [h.symm, if_false, if_true]
  rfl

theorem lanes_cons {w : Word} (h : w.act ≠ 0#32) : ∃ L l, w.lanes = L :: l := by
  cases hl : w.lanes with
  | cons L l => exact ⟨L, l, rfl⟩
  | nil =>
    refine absurd (mask_ext fun L hL => ?_) h
    cases ha : inMask w.act L
    · simp [inMask]
    · have := (mem_lanes (w := w) hL).mpr ha
      rw [hl] at this
      cases this

theorem contains_lanes (w : Word) {L : Nat} (h : L < 32) : w.lanes.contains L = inMask w.act L := by
  rw [Bool.eq_iff_iff, List.contains_iff_mem, mem_lanes h]

theorem maskOf_congr {f g : Nat → Bool} (h : ∀ L, L < 32 → f L = g L) : maskOf f = maskOf g :=
  mask_ext fun L hL => by rw [inMask_maskOf f hL, inMask_maskOf g hL, h L hL]

/-- BRX and RET with lanes whose targets are aligned. -/
theorem branchRegs_aligned {s : State} {w : Word} (ha : w.act ≠ 0#32) (h : ∀ L, L < 32 → inMask w.act L = true → (w.target L).toNat % 8 = 0) :
    s.branchRegs w = s.carry w (({ g := w.g } : Plan).branch (s.privOf w) w.b w.slot w.same w.first
      (if w.act &&& ~~~w.same = 0#32 then w.slot.pc + 8#64 else w.slot.pc)) none := by
  obtain ⟨L0, l, hl⟩ := lanes_cons ha
  have hd : w.lanes.headD 0 = L0 := by rw [hl]; rfl
  have hb : w.lanes.filter (fun L => (BitVec.ofNat 64 (w.src 0 L)).toNat % 8 != 0) = [] := by
    rw [List.filter_eq_nil_iff]
    intro L hL
    have := h L (lanes_lt w L hL) ((mem_lanes (lanes_lt w L hL)).mp hL)
    unfold Word.target at this
    simp only [this]
    decide
  have hs : (maskOf fun L => w.lanes.contains L && (BitVec.ofNat 64 (w.src 0 L) == BitVec.ofNat 64 (w.src 0 L0))) = w.same := by
    unfold Word.same Word.first Word.target
    apply maskOf_congr
    intro L hL
    rw [contains_lanes w hL, hd]
  unfold State.branchRegs
  simp only [hb]
  split
  · rename_i h0; rw [hl] at h0; cases h0
  · rename_i K k h0
    obtain rfl : L0 = K := by rw [hl] at h0; injection h0
    simp only [hs, List.isEmpty_nil, Bool.not_true, Bool.false_eq_true, if_false]
    unfold Word.first Word.target
    rw [hd]

theorem writes_path (g : Group) (l : List RegW) (b : Bool) : (g.writes l).path b = g.path b := by
  obtain ⟨v, s, p, e⟩ := writes_regs l g
  rw [e]
  cases b <;> rfl

theorem same_some {w : Word} (h : w.act ≠ 0#32) : w.same ≠ 0#32 := by
  obtain ⟨L0, l, hl⟩ := lanes_cons h
  have hd : w.lanes.headD 0 = L0 := by rw [hl]; rfl
  have hm : L0 ∈ w.lanes := by rw [hl]; exact .head _
  have h32 := lanes_lt w L0 hm
  intro e
  have := inMask_maskOf (fun L => inMask w.act L && w.target L == w.first) h32
  unfold Word.same at e
  rw [e, (mem_lanes h32).mp hm] at this
  unfold Word.first at this
  rw [hd] at this
  simp [inMask] at this

theorem branchRegs_none {s : State} {w : Word} (ha : w.act = 0#32) :
    s.branchRegs w = s.carry w (({ g := w.g } : Plan).branch (s.privOf w) w.b w.slot 0#32 0#64 (w.slot.pc + 8#64)) none := by
  unfold State.branchRegs
  simp only [act_zero ha]

theorem branchRegs_bad {s : State} {w : Word} (h : ¬ ∀ L, L < 32 → inMask w.act L = true → (w.target L).toNat % 8 = 0) :
    s.branchRegs w = .trap { code := 0x08, lanes := maskOf fun L => inMask w.act L && (w.target L).toNat % 8 != 0
                             addr := w.target ((lanes32.filter fun L => inMask w.act L && (w.target L).toNat % 8 != 0).headD 0) } s := by
  have e : w.lanes.filter (fun L => (BitVec.ofNat 64 (w.src 0 L)).toNat % 8 != 0) =
      lanes32.filter (fun L => inMask w.act L && (w.target L).toNat % 8 != 0) := by
    unfold Word.lanes laneList Word.target
    rw [List.filter_filter]
    congr 1
    funext L
    exact Bool.and_comm _ _
  have hne : w.lanes.filter (fun L => (BitVec.ofNat 64 (w.src 0 L)).toNat % 8 != 0) ≠ [] := by
    intro hn
    apply h
    intro L hL ha
    rw [List.filter_eq_nil_iff] at hn
    have := hn L ((mem_lanes hL).mpr ha)
    unfold Word.target
    simpa using this
  have hl : ∃ L l, w.lanes = L :: l := by
    cases hc : w.lanes with
    | nil => rw [hc] at hne; exact absurd rfl hne
    | cons L l => exact ⟨L, l, rfl⟩
  obtain ⟨L, l, hl⟩ := hl
  have hm : maskOf (fun K => (w.lanes.filter (fun L => (BitVec.ofNat 64 (w.src 0 L)).toNat % 8 != 0)).contains K) =
      maskOf fun L => inMask w.act L && (w.target L).toNat % 8 != 0 := by
    apply maskOf_congr
    intro K hK
    rw [Bool.eq_iff_iff, List.contains_iff_mem, e, List.mem_filter]
    simp [lanes32, hK]
  unfold State.branchRegs
  rw [← hm]
  generalize hB : w.lanes.filter (fun L => (BitVec.ofNat 64 (w.src 0 L)).toNat % 8 != 0) = B at hne e
  rw [← e]
  simp only [hl]
  rw [← hl]
  simp only [hB]
  cases B with
  | nil => exact absurd rfl hne
  | cons _ _ => rfl

theorem setSlot_join (g : Group) (b : Bool) (x : Option PcSlot) : (g.setSlot b x).join = g.join := by cases b <;> rfl
theorem setSlot_spill (g : Group) (b : Bool) (x : Option PcSlot) : (g.setSlot b x).spill = g.spill := by cases b <;> rfl
theorem setSlot_ft (g : Group) (b : Bool) (x : Option PcSlot) : (g.setSlot b x).ft = g.ft := by cases b <;> rfl
theorem setSlot_live (g : Group) (b : Bool) (x : Option PcSlot) : (g.setSlot b x).live = g.live := by cases b <;> rfl
theorem slot_set (g : Group) (b : Bool) (x : Option PcSlot) : (g.setSlot b x).slot b = x := by cases b <;> rfl

theorem deep_nil {w : Word} (h : ∀ L, L < 32 → inMask w.act L = true → (w.g.txLane L).depth = 0) :
    w.lanes.filter (fun L => decide (0 < (w.g.txLane L).depth)) = [] := by
  rw [List.filter_eq_nil_iff]
  intro L hL
  have := h L (lanes_lt w L hL) ((mem_lanes (lanes_lt w L hL)).mp hL)
  simp [this]

theorem refills_near {n k : Nat} (h : n ≤ 4) : refills n k = [] := by
  unfold refills
  rw [show (n - 4) - (n - k - 4) = 0 by omega]
  rfl

theorem popSpill_nil {p : Plan} {b : Bool} (h : p.g.spill = []) : p.popSpill b = p := by
  unfold Plan.popSpill
  rw [h]
  cases p.g.slot b <;> rfl

theorem popSpill_some {p : Plan} {b : Bool} {x : PcSlot} (h : p.g.slot b = some x) : p.popSpill b = p := by
  unfold Plan.popSpill
  rw [h]

theorem pushJoin_far {p : Plan} {priv : Nat} {e o : JoinEntry} (h1 : p.g.join[3]? = some o) (h2 : p.g.join.length < 132) (h3 : priv ≠ 0) :
    p.pushJoin priv e = { p with g := { p.g with join := e :: p.g.join }, writes := p.writes ++ [(2048 + 16 * (p.g.join.length - 4), stackWords o.rejoin o.mask o.arr)] } := by
  have h5 : ¬ p.g.join.length < 4 := by
    intro hh
    rw [List.getElem?_eq_none (by omega)] at h1
    cases h1
  unfold Plan.pushJoin
  simp only [h5, h3, h1, show ¬ 128 ≤ p.g.join.length - 4 by omega, or_false, if_false]

/-- EXIT where the group has no stack entries. -/
theorem exit_plain {w : Word} {priv : Nat} (h4 : w.g.join = []) (h5 : w.g.spill = []) :
    ({ g := w.g } : Plan).exit priv w.b w.slot w.act =
      { g := { w.g with
          live := w.g.live &&& ~~~w.act, refill := w.g.refill.map fun (e : Bool × SpillEntry) => (e.1, { e.2 with mask := e.2.mask &&& ~~~w.act }) }.setSlot w.b
          (if w.slot.mask &&& ~~~w.act = 0#32 then none else some { w.slot with pc := w.slot.pc + 8#64, mask := w.slot.mask &&& ~~~w.act }) } := by
  have key : ∀ P : Plan, P.g.spill = [] → (P.popSpill w.b).popSpill (!w.b) = P := fun P h => by
    rw [popSpill_nil h, popSpill_nil h]
  have hj : ∀ x, ((w.g.leave w.act).setSlot w.b x).join = [] := fun x => by rw [setSlot_join]; simp [Group.leave, h4]
  unfold Plan.exit
  simp only [hj, List.filter_nil, List.foldl_nil, List.map_nil, List.sum_nil, List.length_nil, refills_near (show 0 ≤ 4 by omega), List.append_nil]
  rw [key _ (by simp only [setSlot_spill]; simp [Group.leave, h5])]
  cases w.b <;> simp [Group.leave, Group.setSlot, h4, h5]

/-- EXIT that completes the group's one join entry. -/
theorem exit_merge {w : Word} {priv : Nat} {e : JoinEntry} (h3 : w.slot.mask &&& ~~~w.act = 0#32) (h4 : w.g.join = [e]) (h5 : w.g.spill = [])
    (h7 : w.g.refill = []) (h8 : e.arr &&& ~~~w.act = e.mask &&& ~~~w.act) (h9 : e.mask &&& ~~~w.act ≠ 0#32) :
    ({ g := w.g } : Plan).exit priv w.b w.slot w.act =
      { g := { w.g with live := w.g.live &&& ~~~w.act, join := [] }.setSlot w.b (some { pc := e.rejoin, mask := e.mask &&& ~~~w.act })
        n := 1 + e.joins } := by
  have key : ∀ P : Plan, P.g.spill = [] → (P.popSpill w.b).popSpill (!w.b) = P := fun P h => by
    rw [popSpill_nil h, popSpill_nil h]
  have hj : ∀ x, ((w.g.leave w.act).setSlot w.b x).join = [{ e with mask := e.mask &&& ~~~w.act, arr := e.arr &&& ~~~w.act }] := fun x => by
    rw [setSlot_join]; simp [Group.leave, h4]
  have hpl : ∀ P : Plan, P.g.path w.b = none → P.place priv w.b ⟨e.rejoin, e.mask &&& ~~~w.act⟩ =
      { P with g := P.g.setSlot w.b (some { pc := e.rejoin, mask := e.mask &&& ~~~w.act }) } := by
    intro P hP
    unfold Plan.place
    simp only [h9, if_false, hP, Option.isNone_none, if_true]
  unfold Plan.exit
  simp only [hj, h8, List.filter_cons, List.filter_nil, beq_self_eq_true, bne_self_eq_false, if_true, Bool.false_eq_true, if_false,
    List.foldl_cons, List.foldl_nil, List.map_cons, List.map_nil, List.sum_cons, List.sum_nil, List.length_cons, List.length_nil, refills_near (show 0 + 1 ≤ 4 by omega), List.append_nil]
  rw [hpl _ (by cases w.b <;> simp [Group.path, Group.slot, Group.setSlot, Group.leave, h7, h3])]
  rw [key _ (by simp only [setSlot_spill]; simp [Group.leave, h5])]
  cases w.b <;> simp [Group.leave, Group.setSlot, h5, h7, h3]

/-- EXIT that empties its slot and takes the one spilled path. -/
theorem exit_refill {w : Word} {priv : Nat} {e : SpillEntry} {x : PcSlot} (h3 : w.slot.mask &&& ~~~w.act = 0#32) (h4 : w.g.join = [])
    (h5 : w.g.spill = [e]) (h7 : w.g.refill = []) (h8 : w.g.ft = none) (hx : w.g.slot (!w.b) = some x) :
    ({ g := w.g } : Plan).exit priv w.b w.slot w.act =
      { g := { w.g.setSlot w.b none with live := w.g.live &&& ~~~w.act, spill := [], refill := [(w.b, { e with mask := e.mask &&& ~~~w.act })] }
        reads := [0] } := by
  have hj : ∀ x, ((w.g.leave w.act).setSlot w.b x).join = [] := fun x => by rw [setSlot_join]; simp [Group.leave, h4]
  have hpop : ∀ (P : Plan) (d : SpillEntry), P.g.slot w.b = none → P.g.spill = [d] → P.g.refill = [] → P.g.ft = none →
      P.popSpill w.b = { P with g := { P.g with spill := [], refill := [(w.b, d)] }, reads := P.reads ++ [0] } := by
    intro P d a1 a2 a3 a4
    unfold Plan.popSpill
    rw [a1, a2]
    simp [a3, a4]
  unfold Plan.exit
  simp only [hj, h3, if_true, List.filter_nil, List.foldl_nil, List.map_nil, List.sum_nil, List.length_nil, refills_near (show 0 ≤ 4 by omega), List.append_nil]
  rw [hpop _ { e with mask := e.mask &&& ~~~w.act } (by cases w.b <;> rfl) (by simp only [setSlot_spill]; simp [Group.leave, h5])
    (by simp only [refill_setSlot]; simp [Group.leave, h7]) (by simp only [setSlot_ft]; exact h8)]
  rw [popSpill_some (x := x) (by revert hx; cases w.b <;> exact id)]
  cases w.b <;> simp [Group.leave, Group.setSlot, h4]

theorem deep_some {w : Word} (h : ∃ L, L < 32 ∧ inMask w.act L = true ∧ 0 < (w.g.txLane L).depth) :
    (w.lanes.filter (fun L => decide (0 < (w.g.txLane L).depth))).isEmpty = false ∧
    maskOf (fun L => (w.lanes.filter (fun L => decide (0 < (w.g.txLane L).depth))).contains L) =
      maskOf fun L => inMask w.act L && decide (0 < (w.g.txLane L).depth) := by
  refine ⟨?_, maskOf_congr fun K hK => ?_⟩
  · obtain ⟨L, hL, ha, hd⟩ := h
    cases hn : w.lanes.filter (fun L => decide (0 < (w.g.txLane L).depth)) with
    | nil =>
      rw [List.filter_eq_nil_iff] at hn
      exact absurd (by simpa using hd) (hn L ((mem_lanes hL).mpr ha))
    | cons _ _ => rfl
  · rw [Bool.eq_iff_iff, List.contains_iff_mem, List.mem_filter, mem_lanes hK, Bool.and_eq_true]

/-- A REGION's point stands with its tentative word. -/
theorem retire_point (s s0 : State) (w : Word) (f : Info) {g : Group} (hg : Tbl.find s.groups w.gs = some g) (hr : g.regAsk = true) :
    ∃ l x, Tbl.find (s.retire s0 w f false true 1).tents w.gs = some (l ++ [x]) ∧
      x.point = some (w.slot.pc, w.slot.mask, w.g.join.length, w.g.spill.length) := by
  unfold State.retire
  simp only [show (s.updLb (lbOf w.gs) fun b => { b with busy := s.clock + b.beats }).groups = s.groups from rfl, hg,
    Bool.false_eq_true, if_false]
  exact ⟨_, _, find_put_self _ _ _, by simp only [hr, if_true]⟩

end Sys2Proof.Laws
end

