-- ==== Sys2Proof/Laws/Requests.lean ====
section
/-! SUPPORT. Words that ask for memory: their lanes, their requests, what they leave alone. -/

namespace Sys2Proof.Laws

open Sys2Proof.Machine

/-- The address of an operand (09, R230). -/
theorem addr_eq (w : Word) (m : MemOp) (L : Nat) : w.addr m L = w.ea m L := by
  unfold Word.addr Word.ea Word.opnd64 Word.opnd32
  have h1 : ∀ x : Int, ∀ k : Nat, BitVec.ofInt 64 (x * ((2 ^ k : Nat) : Int)) = BitVec.ofInt 64 x <<< k := by
    intro x k
    rw [BitVec.ofInt_mul, BitVec.ofInt_natCast]
    rw [BitVec.shiftLeft_eq_mul_twoPow]
    congr 1
    apply BitVec.eq_of_toNat_eq
    simp [BitVec.toNat_twoPow]
  simp only [BitVec.ofInt_add, h1, BitVec.ofInt_mul, BitVec.ofInt_natCast]
  congr 1
  congr 2
  split
  · simp
  · rw [signed_eq]
    show (BitVec.ofNat 32 _).signExtend 64 = _
    simp

theorem addrs_eq (w : Word) (i : Instr) (m : MemOp) : w.addrs (onceOf i) m = w.eas i m := by
  unfold Word.addrs Word.eas
  simp only [addr_eq]

theorem info_fields {i : Instr} {f : Info} (h : i.info = some f) : fieldsOf i = f := by
  unfold fieldsOf
  rw [h]
  rfl

theorem txIssue_nil {s : State} {g : Group} {n : Nat} {l : List LaneTr} (h : g.tx = []) : s.txIssue g n l = g := by
  unfold State.txIssue
  rw [h]
  rfl

theorem txLane_nil {g : Group} (h : g.tx = []) (L : Nat) : g.txLane L = {} := by
  unfold Group.txLane
  rw [h]
  rfl

theorem split_unperformed {n : Nat} {x : LaneTr} {a : LaneAcc} (h : a ∈ splitAccs n x) : a.perf = false := by
  unfold splitAccs at h
  obtain ⟨i, _, rfl⟩ := List.mem_map.mp h
  rfl

theorem accs_perf {n : Nat} {l : List LaneTr} : (l.flatMap (splitAccs n)).all (·.perf) = decide (l.flatMap (splitAccs n) = []) := by
  cases h : l.flatMap (splitAccs n) with
  | nil => rfl
  | cons a t =>
    have : a ∈ l.flatMap (splitAccs n) := by rw [h]; exact .head _
    obtain ⟨x, _, hx⟩ := List.mem_flatMap.mp this
    simp [split_unperformed hx]

/-- A load of lanes outside transactions. -/
theorem loadFrom_plain {s : State} {w : Word} {i : Instr} {f : Info} {d : Reg} {m : MemOp} {l : List LaneTr} (hf : Found s w) (h : w.g.tx = [])
    (hi : i.info = some f) : s.loadFrom w f (onceOf i) d m l = .done (s.asked w i d m l) := by
  unfold State.loadFrom State.asked
  simp only [txIssue_nil h, hf.same, txLane_nil h, Nat.lt_irrefl, decide_false, Bool.and_false, Bool.false_eq_true, if_false, List.map_id', accs_perf,
    decide_eq_true_eq, info_fields hi]

/-- A store of lanes outside transactions. -/
theorem storeTo_plain {s : State} {w : Word} {i : Instr} {f : Info} {m : MemOp} {l : List LaneTr} (hf : Found s w) (h : w.g.tx = [])
    (hi : i.info = some f) : s.storeTo w f (onceOf i) m l =
      .done ((s.sendWrites w .store (w.storing m.sz.bytes l) m.sz.bytes m.ord m.sco (onceOf i) (!infoQuiet (fieldsOf i)) []).popResult w (fieldsOf i)) := by
  unfold State.storeTo Word.storing tentative
  have e : ∀ (p : LaneTr → Bool), l.filter (fun x => p x && decide (0 < (w.g.txLane x.lane).depth)) = [] := by
    intro p
    rw [List.filter_eq_nil_iff]
    intro x _
    rw [txLane_nil h]
    simp
  have e2 : l.filter (fun _ => true) = l := List.filter_eq_self.mpr fun _ _ => rfl
  simp only [txIssue_nil h, e, List.foldl_nil, hf.same, List.contains_nil, Bool.not_false, e2, info_fields hi]

theorem perfect {s : State} {w : Word} {i : Instr} {m : MemOp} {acc : Acc} {n : Nat} {k : List LaneTr → Eff} (h : s.reaches w acc n (w.eas i m)) :
    s.access w (onceOf i) acc n (w.addrs (onceOf i) m) k = k (s.places w acc n (w.eas i m)) := by
  rw [addrs_eq]
  exact access_ok h

/-- Memory, partitions, groups and workgroups are as they were. -/
def Kept (s u : State) : Prop := u.mem = s.mem ∧ u.parts = s.parts ∧ u.groups = s.groups ∧ u.wgs = s.wgs

theorem Kept.refl (s : State) : Kept s s := ⟨rfl, rfl, rfl, rfl⟩
theorem Kept.trans {a b c : State} (h : Kept a b) (k : Kept b c) : Kept a c :=
  ⟨k.1.trans h.1, k.2.1.trans h.2.1, k.2.2.1.trans h.2.2.1, k.2.2.2.trans h.2.2.2⟩

theorem kept_fold {α : Type} (f : State → α → State) (h : ∀ s x, Kept s (f s x)) (l : List α) (s : State) : Kept s (l.foldl f s) := by
  induction l generalizing s with
  | nil => exact .refl s
  | cons a t ih => exact (h s a).trans (ih (f s a))

theorem kept_l1Drop (s : State) (c l : Nat) : Kept s (s.l1Drop c l) := by
  unfold State.l1Drop; split <;> exact ⟨rfl, rfl, rfl, rfl⟩
theorem kept_l1Count (s : State) (c l : Nat) : Kept s (s.l1Count c l) := by
  unfold State.l1Count
  split
  · exact .refl s
  · split
    · exact .refl s
    · split
      · exact kept_l1Drop s c l
      · exact ⟨rfl, rfl, rfl, rfl⟩
theorem kept_l2Count (s : State) (l : Nat) : Kept s (s.l2Count l) := by
  unfold State.l2Count
  split
  · exact .refl s
  · split
    · exact .refl s
    · split <;> exact ⟨rfl, rfl, rfl, rfl⟩
theorem kept_rdcCount (s : State) (d l : Nat) : Kept s (s.rdcCount d l) := by
  unfold State.rdcCount
  split
  · exact .refl s
  · split
    · exact .refl s
    · split <;> exact ⟨rfl, rfl, rfl, rfl⟩
theorem kept_countRead (s : State) (c l : Nat) : Kept s (s.countRead c l) := by
  unfold State.countRead
  dsimp only
  split
  · exact (kept_l1Count s c l).trans (kept_rdcCount _ _ l)
  · exact (kept_l1Count s c l).trans (kept_l2Count _ l)
theorem kept_putReq (s : State) (q : Req) : Kept s (s.putReq q) := ⟨rfl, rfl, rfl, rfl⟩

theorem kept_l1Serve (s : State) (q : Req) : Kept s (s.l1Serve q).2 := by
  unfold State.l1Serve
  split
  · exact .refl s
  · exact kept_fold _ (fun s l => kept_countRead s q.core l) _ _

theorem unwritten_of {s u : State} {w : Word} (h : Kept s u) (f : Group → Group) (hg : Tbl.find s.groups w.gs = some w.g)
    (hf : SameGroup w.g (f w.g) ∧ (f w.g).regs = w.g.regs) : Unwritten s (u.updGroup w.gs f) w := by
  refine ⟨h.1, h.2.1, fun k hk => ?_, f w.g, ?_, hf⟩
  · rw [← h.2.2.1]; exact find_upd_other _ _ hk
  · show Tbl.find (Tbl.upd u.groups w.gs f) w.gs = _
    rw [find_upd_self, h.2.2.1, hg]; rfl

theorem same_self (g : Group) : SameGroup g g :=
  ⟨rfl, rfl, rfl, rfl, rfl, rfl, rfl, rfl, ⟨rfl, rfl, rfl⟩, ⟨rfl, rfl, rfl⟩, ⟨rfl, rfl, rfl, rfl⟩, ⟨rfl, rfl⟩, ⟨rfl, rfl, rfl, rfl⟩, ⟨rfl, rfl⟩⟩

theorem unwritten_refl {s : State} {w : Word} (hg : Tbl.find s.groups w.gs = some w.g) : Unwritten s s w :=
  ⟨rfl, rfl, fun _ _ => rfl, w.g, hg, same_self _, rfl⟩

theorem same_trans {a b c : Group} (h : SameGroup a b) (k : SameGroup b c) : SameGroup a c := by
  obtain ⟨a1, a2, a3, a4, a5, a6, a7, a8, a9, a10, a11, a12, a13, a14⟩ := h
  obtain ⟨b1, b2, b3, b4, b5, b6, b7, b8, b9, b10, b11, b12, b13, b14⟩ := k
  refine ⟨b1.trans a1, b2.trans a2, b3.trans a3, b4.trans a4, b5.trans a5, b6.trans a6, b7.trans a7, b8.trans a8, ?_, ?_, ?_, ?_, ?_, ?_⟩
  · exact ⟨b9.1.trans a9.1, b9.2.1.trans a9.2.1, b9.2.2.trans a9.2.2⟩
  · exact ⟨b10.1.trans a10.1, b10.2.1.trans a10.2.1, b10.2.2.trans a10.2.2⟩
  · exact ⟨b11.1.trans a11.1, b11.2.1.trans a11.2.1, b11.2.2.1.trans a11.2.2.1, b11.2.2.2.trans a11.2.2.2⟩
  · exact ⟨b12.1.trans a12.1, b12.2.trans a12.2⟩
  · exact ⟨b13.1.trans a13.1, b13.2.1.trans a13.2.1, b13.2.2.1.trans a13.2.2.1, b13.2.2.2.trans a13.2.2.2⟩
  · exact ⟨b14.1.trans a14.1, b14.2.trans a14.2⟩

/-- What keeps memory and gives the word's group another value that keeps its registers. -/
theorem unwritten_step {s u v : State} {w : Word} (h : Unwritten s u w) (hm : v.mem = u.mem) (hp : v.parts = u.parts)
    (ho : ∀ k, k ≠ w.gs → Tbl.find v.groups k = Tbl.find u.groups k)
    (hg : ∀ g, Tbl.find u.groups w.gs = some g → ∃ g', Tbl.find v.groups w.gs = some g' ∧ SameGroup g g' ∧ g'.regs = g.regs) : Unwritten s v w := by
  obtain ⟨g, h1, h2, h3⟩ := h.group
  obtain ⟨g', k1, k2, k3⟩ := hg g h1
  exact ⟨hm.trans h.mem, hp.trans h.parts, fun k hk => (ho k hk).trans (h.others k hk), g', k1, same_trans h2 k2, k3.trans h3⟩

theorem unwritten_upd {s u : State} {w : Word} (h : Unwritten s u w) (f : Group → Group)
    (hf : ∀ g, SameGroup g (f g) ∧ (f g).regs = g.regs) : Unwritten s (u.updGroup w.gs f) w :=
  unwritten_step h rfl rfl (fun _ hk => find_upd_other _ _ hk) fun g hg => ⟨f g, by
    show Tbl.find (Tbl.upd u.groups w.gs f) w.gs = _
    rw [find_upd_self, hg]; rfl, hf g⟩

theorem unwritten_kept {s u v : State} {w : Word} (h : Unwritten s u w) (k : Kept u v) : Unwritten s v w :=
  unwritten_step h k.1 k.2.1 (fun _ _ => by rw [k.2.2.1]) fun g hg => ⟨g, by rw [k.2.2.1]; exact hg, same_self _, rfl⟩

theorem unwritten_wg {s u : State} {w : Word} (h : Unwritten s u w) (i : Nat) (f : Workgroup → Workgroup) : Unwritten s (u.updWg i f) w :=
  unwritten_step h rfl rfl (fun _ _ => rfl) fun g hg => ⟨g, hg, same_self _, rfl⟩

theorem unwritten_pend {s u : State} {w : Word} (h : Unwritten s u w) (refs : List RegRef) : Unwritten s (u.pendOn w.gs refs) w := by
  unfold State.pendOn
  exact unwritten_upd h _ fun g => ⟨⟨rfl, rfl, rfl, rfl, rfl, rfl, rfl, rfl, ⟨rfl, rfl, rfl⟩, ⟨rfl, rfl, rfl⟩, ⟨rfl, rfl, rfl, rfl⟩, ⟨rfl, rfl⟩, ⟨rfl, rfl, rfl, rfl⟩, ⟨rfl, rfl⟩⟩, rfl⟩

theorem unwritten_sends {s : State} {w : Word} (hg : Tbl.find s.groups w.gs = some w.g) (kind : ReqKind) (accs : List LaneAcc) (n : Nat)
    (ord : Ord) (sco : Sco) (once held : Bool) (refs : List RegRef) :
    Unwritten s (s.sendWrites w kind accs n ord sco once held refs) w := by
  unfold State.sendWrites
  simp only
  have h1 : ∀ q : Home → Req, Unwritten s ((homesOf accs).foldl (fun s h => s.putReq (q h)) s) w :=
    fun q => unwritten_kept (unwritten_refl hg) (kept_fold (fun (s : State) h => s.putReq (q h)) (fun s x => kept_putReq s _) (homesOf accs) s)
  split
  · refine unwritten_pend ?_ refs
    exact h1 fun _ => _
  · refine unwritten_upd ?_ _ fun g => ⟨⟨rfl, rfl, rfl, rfl, rfl, rfl, rfl, rfl, ⟨rfl, rfl, rfl⟩, ⟨rfl, rfl, rfl⟩, ⟨rfl, rfl, rfl, rfl⟩, ⟨rfl, rfl⟩, ⟨rfl, rfl, rfl, rfl⟩, ⟨rfl, rfl⟩⟩, rfl⟩
    refine unwritten_pend ?_ refs
    exact h1 fun _ => _

theorem unwritten_pops {s u : State} {w : Word} {f : Info} (h : Unwritten s u w) : Unwritten s (u.popResult w f) w := by
  unfold State.popResult
  simp only
  split
  · exact h
  · unfold State.sendResult
    refine unwritten_upd ?_ _ fun g => ⟨⟨rfl, rfl, rfl, rfl, rfl, rfl, rfl, rfl, ⟨rfl, rfl, rfl⟩, ⟨rfl, rfl, rfl⟩, ⟨rfl, rfl, rfl, rfl⟩, ⟨rfl, rfl⟩, ⟨rfl, rfl, rfl, rfl⟩, ⟨rfl, rfl⟩⟩, rfl⟩
    exact unwritten_kept (unwritten_wg h _ _) ⟨rfl, rfl, rfl, rfl⟩

theorem places_ok {s : State} {w : Word} {acc : Acc} {n : Nat} {l : List (Nat × W64)} (h : s.reaches w acc n l) :
    ∀ x ∈ s.places w acc n l, ∃ p u, x.tr = .ok p u := by
  intro x hx
  obtain ⟨y, hy, rfl⟩ := List.mem_map.mp hx
  exact (h y hy).2

theorem redo_targets {s : State} {w : Word} {i : Instr} {m : MemOp} (h : s.reaches w .store 4 (w.eas i m))
    (hl : ∀ x ∈ s.places w .store 4 (w.eas i m), x.ga.toNat < localWin) :
    ((w.addrs (onceOf i) m).map fun x =>
      redoTarget ⟨x.1, x.2, if x.2.toNat % 4 ≠ 0 then .bad 0x08 0 else s.trans (w.ask .store) x.2.toNat 4 x.1⟩) =
      s.places w .store 4 (w.eas i m) := by
  rw [addrs_eq]
  refine List.map_congr_left fun x hx => ?_
  have h1 := hl _ (List.mem_map_of_mem hx)
  have h2 : redoTarget ⟨x.1, x.2, s.trans (w.ask .store) x.2.toNat 4 x.1⟩ = ⟨x.1, x.2, s.trans (w.ask .store) x.2.toNat 4 x.1⟩ := by
    unfold redoTarget
    exact if_neg fun hc => absurd hc.1 (by simpa using h1)
  rw [if_neg (by simp [(h x hx).1]), h2]

theorem redo_small {g : Group} {l : List LaneTr} (h : ∀ x ∈ l, (Tbl.get 0#32 g.seq x.lane).toNat < 2 ^ 24) :
    l.filter (fun x => decide (2 ^ 24 ≤ (Tbl.get 0#32 g.seq x.lane).toNat)) = [] := by
  rw [List.filter_eq_nil_iff]
  intro x hx
  have := h x hx
  simp only [decide_eq_true_eq]
  omega

end Sys2Proof.Laws
end

