-- ==== Sys2Proof/Laws/Fences.lean ====
section
/-! SUPPORT. What fences, transactions' ends and line maintenance leave. -/

namespace Sys2Proof.Laws

open Sys2Proof.Machine

theorem upd_found {s : State} {w : Word} (h : Found s w) (f : Group → Group) : s.updGroup w.gs f = w.now s (f w.g) := by
  unfold Word.now State.updGroup Tbl.upd
  rw [h.group]

theorem l1Clear_l1 (s : State) (c : Nat) : ((s.l1Clear c).core c).l1 = [] := by
  unfold State.l1Clear
  split
  · exact List.isEmpty_iff.mp ‹_›
  · simp only [State.updCore, State.core, find_put_self, Option.getD_some]

/-- Memory and groups are as they were. -/
def SameMG (s u : State) : Prop := u.mem = s.mem ∧ u.groups = s.groups
theorem SameMG.refl (s : State) : SameMG s s := ⟨rfl, rfl⟩
theorem SameMG.trans {a b c : State} (h : SameMG a b) (k : SameMG b c) : SameMG a c := ⟨k.1.trans h.1, k.2.trans h.2⟩
theorem same_spend (s : State) (p m i n : Nat) : SameMG s (s.spend p m i n) := by
  unfold State.spend
  split
  · exact .refl s
  · split <;> exact ⟨rfl, rfl⟩
theorem same_dropLine (s : State) (l : Nat) : SameMG s (s.dropLine l) := ⟨rfl, rfl⟩
theorem same_l2 {s u : State} (h : SameMG s u) (x : Tbl L2Line) : SameMG s { u with l2 := x } := h
theorem same_free {s u : State} (h : SameMG s u) (n : Nat) : SameMG s { u with free := n } := h
theorem same_clearSector (s : State) (n : Nat) : SameMG s (s.clearSector n) := ⟨rfl, rfl⟩
theorem same_l2Evict (s : State) (p : Nat) (v : Nat × L2Line) : SameMG s (s.l2Evict p v) :=
  (same_spend ..).trans (same_dropLine ..)
theorem same_l2Place (s : State) (p l : Nat) : SameMG s (s.l2Place p l) := by
  unfold State.l2Place
  dsimp only
  split
  · exact .refl s
  · split
    · exact ⟨rfl, rfl⟩
    · split
      · exact .refl s
      · exact same_l2 (.trans (same_free (.refl s) _) (same_l2Evict ..)) _
theorem same_l2Sector (s : State) (p n : Nat) (b : Bool) : SameMG s (s.l2Sector p n b) := by
  unfold State.l2Sector
  dsimp only
  split
  · exact same_l2Place s p _
  · split
    · exact same_l2Place s p _
    · have h := (same_l2 (same_l2Place s p (n / 2)) (Tbl.put (s.l2Place p (n / 2)).l2 (n / 2) { ‹L2Line› with valid := (‹L2Line›).valid ||| secBit n })).trans
        (same_clearSector _ n)
      split
      · exact h.trans (same_spend ..)
      · exact h
theorem same_rdcPlace {s : State} {d p l : Nat} {x : RdcLine × State} (h : s.rdcPlace d p l = some x) : SameMG s x.2 := by
  unfold State.rdcPlace at h
  dsimp only at h
  split at h
  · cases h; exact .refl s
  · split at h
    · cases h; exact .refl s
    · split at h
      · cases h
      · cases h; exact ⟨rfl, rfl⟩
theorem same_rdcFill (s : State) (c p n k : Nat) : SameMG s (s.rdcFill c p n k) := by
  unfold State.rdcFill
  dsimp only
  split
  · exact .refl s
  · rename_i h
    obtain ⟨_, _, h⟩ := Option.bind_eq_some_iff.mp h
    exact .trans (same_rdcPlace h) ⟨rfl, rfl⟩
theorem same_supply (s : State) (c p n k : Nat) : SameMG s (s.supply c p n k).2 := by
  unfold State.supply
  split
  · exact .refl s
  · dsimp only
    split
    · exact (same_l2Sector ..).trans (same_rdcFill ..)
    · exact same_l2Sector ..
theorem same_l1Drop (s : State) (c l : Nat) : SameMG s (s.l1Drop c l) := by
  unfold State.l1Drop; split <;> exact ⟨rfl, rfl⟩
theorem same_l1Fill (s : State) (c l : Nat) (x : L1Line) : SameMG s (s.l1Fill c l x) := by
  unfold State.l1Fill
  simp only
  refine .trans ?_ ⟨rfl, rfl⟩
  split
  · exact .refl s
  · split
    · exact .trans ⟨rfl, rfl⟩ (same_l1Drop _ c _)
    · exact .refl s
theorem same_fetch (s : State) (c p l : Nat) (b : Bool) (n : Nat) : SameMG s (s.fetchLine c p l b n) := by
  unfold State.fetchLine
  split
  · exact .refl s
  · dsimp only
    have h := (same_supply s c p (2 * l) n).trans (same_supply _ c p (2 * l + 1) n)
    split
    · exact h
    · exact h.trans (same_l1Fill ..)

theorem mergeRec_keeps (s : State) (g : Group) (r : RelRec) (c : CheckState) :
    (s.mergeRec g r c).rc = c.rc ∧ (s.mergeRec g r c).relFence = c.relFence := by
  have key : ∀ (p : Prop) [Decidable p] (x y : CheckState), (x.rc = c.rc ∧ x.relFence = c.relFence) → (y.rc = c.rc ∧ y.relFence = c.relFence) →
      (if p then x else y).rc = c.rc ∧ (if p then x else y).relFence = c.relFence := by
    intro p _ x y hx hy
    split
    · exact hx
    · exact hy
  exact key _ _ _ ⟨rfl, rfl⟩ ⟨rfl, rfl⟩

/-- An acquire fence's merge. -/
theorem mergePending_spec (s : State) (gs : Nat) (g : Group) (hg : Tbl.find s.groups gs = some g) :
    (∃ gr, s.mergePending gs = { s with groups := gr }) ∧
    (∀ k, k ≠ gs → Tbl.find (s.mergePending gs).groups k = Tbl.find s.groups k) ∧
    ∃ c, Tbl.find (s.mergePending gs).groups gs = some { g with chk := c } ∧ c.rc = g.chk.rc ∧ c.relFence = g.chk.relFence ∧
      c.pendRec = none ∧ c.pendMiss = false := by
  have key : ∀ c2 : CheckState, c2.rc = g.chk.rc → c2.relFence = g.chk.relFence → ∀ u,
      u = s.updGroup gs (fun g => { g with chk := { c2 with pendRec := none, pendMiss := false } }) →
      (∃ gr, u = { s with groups := gr }) ∧ (∀ k, k ≠ gs → Tbl.find u.groups k = Tbl.find s.groups k) ∧
      ∃ c, Tbl.find u.groups gs = some { g with chk := c } ∧ c.rc = g.chk.rc ∧ c.relFence = g.chk.relFence ∧
        c.pendRec = none ∧ c.pendMiss = false := by
    rintro c2 h1 h2 u rfl
    refine ⟨⟨_, rfl⟩, fun k hk => find_upd_other _ _ hk, { c2 with pendRec := none, pendMiss := false }, ?_, h1, h2, rfl, rfl⟩
    simp only [State.updGroup, find_upd_self, hg, Option.map_some]
  unfold State.mergePending
  simp only [hg]
  refine key _ ?_ ?_ _ rfl
  · split
    · rw [(mergeRec_keeps ..).1]; split <;> rfl
    · split <;> rfl
  · split
    · rw [(mergeRec_keeps ..).2]; split <;> rfl
    · split <;> rfl

theorem acquireL1_spec (s : State) (c : Nat) (sco : Sco) : SameMG s (s.acquireL1 c sco) ∧
    (sco ≠ .wg → sco ≠ .none → ((s.acquireL1 c sco).core c).l1 = []) := by
  unfold State.acquireL1
  split
  · exact ⟨.refl s, fun h k => by simp_all⟩
  · refine ⟨?_, fun _ _ => l1Clear_l1 s c⟩
    unfold State.l1Clear
    split <;> exact ⟨rfl, rfl⟩

/-- What a fence does, piece by piece. -/
theorem fenceNow_spec (s : State) (gs : Nat) (ord : Ord) (sco : Sco) (g : Group) (hg : Tbl.find s.groups gs = some g) :
    (s.fenceNow gs ord sco).mem = s.mem ∧
    ((ord = .acq ∨ ord = .ar ∨ ord = .sc) → sco ≠ .wg → sco ≠ .none → ((s.fenceNow gs ord sco).core (coreOf gs)).l1 = []) ∧
    (∀ k, k ≠ gs → Tbl.find (s.fenceNow gs ord sco).groups k = Tbl.find s.groups k) ∧
    ∃ c, Tbl.find (s.fenceNow gs ord sco).groups gs = some { g with chk := c } ∧
      c.rc = (if ord = .rel ∨ ord = .ar ∨ ord = .sc then g.chk.rc + 1#32 else g.chk.rc) ∧
      ((ord = .rel ∨ ord = .ar ∨ ord = .sc) → c.relFence = true) ∧
      ((ord = .acq ∨ ord = .ar ∨ ord = .sc) → c.pendRec = none ∧ c.pendMiss = false) ∧ (ord = .sc → sco ≠ .wg → c.ic = false) := by
  -- the release
  have h1 : ∀ p : Prop, [Decidable p] → ∃ s1, (if p then s.releaseFence gs else s) = s1 ∧ s1.mem = s.mem ∧
      (∀ k, k ≠ gs → Tbl.find s1.groups k = Tbl.find s.groups k) ∧ ∃ c, Tbl.find s1.groups gs = some { g with chk := c } ∧
      c.rc = (if p then g.chk.rc + 1#32 else g.chk.rc) ∧ (p → c.relFence = true) := by
    intro p _
    by_cases hp : p
    · obtain ⟨⟨gr, te, di, e⟩, k1, k2, _, _⟩ := tickRc_spec s gs g hg
      refine ⟨_, rfl, ?_, ?_, ?_⟩
      · rw [if_pos hp]; unfold State.releaseFence; rw [e]; rfl
      · intro k hk; rw [if_pos hp]; exact (find_upd_other _ _ hk).trans (k1 k hk)
      · rw [if_pos hp]
        refine ⟨{ g.chk with rc := g.chk.rc + 1#32, relFence := true }, ?_, ?_, fun _ => rfl⟩
        · unfold State.releaseFence State.updGroup
          rw [find_upd_self, k2]; rfl
        · rw [if_pos hp]
    · exact ⟨s, if_neg hp, rfl, fun _ _ => rfl, g.chk, hg, by rw [if_neg hp], fun h => absurd h hp⟩
  obtain ⟨s1, e1, m1, o1, c1, f1, r1, l1⟩ := h1 (ord = .rel ∨ ord = .ar ∨ ord = .sc)
  -- the acquire
  have h2 : ∀ p : Prop, [Decidable p] → ∃ s2, (if p then (s1.mergePending gs).acquireL1 (coreOf gs) sco else s1) = s2 ∧ s2.mem = s1.mem ∧
      (p → sco ≠ .wg → sco ≠ .none → (s2.core (coreOf gs)).l1 = []) ∧
      (∀ k, k ≠ gs → Tbl.find s2.groups k = Tbl.find s1.groups k) ∧ ∃ c, Tbl.find s2.groups gs = some { g with chk := c } ∧
      c.rc = c1.rc ∧ c.relFence = c1.relFence ∧ (p → c.pendRec = none ∧ c.pendMiss = false) := by
    intro p _
    by_cases hp : p
    · obtain ⟨⟨gr, e⟩, k1, c, k2, k3, k4, k5, k6⟩ := mergePending_spec s1 gs _ f1
      obtain ⟨⟨a1, a2⟩, a3⟩ := acquireL1_spec (s1.mergePending gs) (coreOf gs) sco
      refine ⟨_, rfl, ?_, ?_, ?_, c, ?_, k3, k4, fun _ => ⟨k5, k6⟩⟩
      · rw [if_pos hp, a1, e]
      · intro _; rw [if_pos hp]; exact a3
      · intro k hk; rw [if_pos hp, a2]; exact k1 k hk
      · rw [if_pos hp, a2]; exact k2
    · exact ⟨s1, if_neg hp, rfl, fun h => absurd h hp, fun _ _ => rfl, c1, f1, rfl, rfl, fun h => absurd h hp⟩
  obtain ⟨s2, e2, m2, t2, o2, c2, f2, r2, l2, p2⟩ := h2 (ord = .acq ∨ ord = .ar ∨ ord = .sc)
  have e : s.fenceNow gs ord sco = if ord = .sc ∧ sco ≠ .wg then s2.updGroup gs fun g => { g with chk := g.chk.clearIc } else s2 := by
    unfold State.fenceNow
    simp only [Bool.or_eq_true, or_assoc, e1, e2, Bool.and_eq_true, bne_iff_ne, decide_eq_true_eq]
  rw [e]
  by_cases hp : ord = .sc ∧ sco ≠ .wg
  · rw [if_pos hp]
    refine ⟨m2.trans m1, t2, fun k hk => (find_upd_other _ _ hk).trans ((o2 k hk).trans (o1 k hk)), c2.clearIc, ?_, r2.trans r1,
      fun h => l2.trans (l1 h), fun h => p2 h, fun _ _ => rfl⟩
    unfold State.updGroup; rw [find_upd_self, f2]; rfl
  · rw [if_neg hp]
    exact ⟨m2.trans m1, t2, fun k hk => (o2 k hk).trans (o1 k hk), c2, f2, r2.trans r1, fun h => l2.trans (l1 h), p2, fun a b => absurd ⟨a, b⟩ hp⟩

theorem filter_lanes (w : Word) (f : Nat → Bool) {L : Nat} (h : L < 32) : (w.lanes.filter f).contains L = (inMask w.act L && f L) := by
  rw [← contains_lanes w h, Bool.eq_iff_iff]
  simp

theorem abort_eq (t : TxLane) (code : Byte) : TxLane.abort t 4 code.toNat false = if t.depth = 0 ∨ t.doomed = true then t
      else { t with doomed := true, words := [], status := BitVec.ofNat 32 (code.toNat * 2 ^ 24 + t.depth % 8 * 2 ^ 21 + 4) } := by
  unfold TxLane.abort
  have e : (t.depth = 0 || t.doomed) = decide (t.depth = 0 ∨ t.doomed = true) := by simp
  simp only [e, decide_eq_true_eq]
  have h : fld 8 24 code.toNat + fld 3 21 t.depth + fld 1 8 (b2n false) + fld 8 0 4 = code.toNat * 2 ^ 24 + t.depth % 8 * 2 ^ 21 + 4 := by
    have := code.isLt
    have h0 : b2n false = 0 := rfl
    unfold fld
    rw [h0]
    omega
  rw [h]

theorem txLane_upd (g : Group) (L K : Nat) (f : TxLane → TxLane) : (g.updTx L f).txLane K = if K = L then f (g.txLane L) else g.txLane K := by
  unfold Group.updTx Group.txLane
  simp only [find_put]
  split <;> rfl

theorem each_lane (g : Group) (f : TxLane → TxLane) (l : List Nat) (L : Nat) (hl : l.Nodup) :
    (g.each l f).txLane L = if L ∈ l then f (g.txLane L) else g.txLane L := by
  unfold Group.each
  induction l generalizing g with
  | nil => simp
  | cons a t ih =>
    obtain ⟨ha, ht⟩ := List.nodup_cons.mp hl
    rw [List.foldl_cons, ih _ ht, txLane_upd]
    by_cases h : L = a
    · subst h; simp [ha]
    · simp [h]

theorem tx_finish {s : State} {w : Word} (h : Found s w) (x : Option TxRun) :
    ((s.updGroup w.gs fun g => { g with txe := x }).updGroup w.gs fun g => w.lanes.foldl (fun g L => g.updTx L endTxLane) g) =
      w.now s ({ w.g with txe := x }.each w.lanes endTxLane) := by
  unfold Word.now State.updGroup Tbl.upd
  simp only [h.group, find_put_self, put_put]
  rfl

end Sys2Proof.Laws
end

