-- ==== Sys2Proof/Laws/Steps.lean ====
section
/-! SUPPORT. What every word shares before its own effect, the taking of an exception, and the passing of cycles. -/

namespace Sys2Proof.Laws

open Sys2Proof.Machine

theorem exec_issues (i : Instr) {f : Info} (h : i.info = some f) : ∃ k, ∀ s, exec i s = s.issue i k := by
  cases i <;> first
    | exact ⟨_, fun s => rfl⟩
    | (exfalso; revert h; exact fun h => nomatch h)

theorem decode_cause_raises {i : Instr} {f : Info} {s : State} {gs : Nat} {b : Bool} {g : Group} {p : PcSlot} (hi : i.info = some f)
    (hc : s.cur = some ⟨gs, b⟩) (hg : Tbl.find s.groups gs = some g) (hp : g.slot b = some p) {c : Nat} {l : Mask}
    (hd : decodeCause i f g (mkWord s gs b g p f).sup (((s.gridOf g).map Grid.team).getD 0) p.mask (g.guard f.h p.mask) = some (c, l)) :
    exec i s = .next (s.raise gs ⟨p.pc, s.rwcNow gs g, g.nissue, b⟩ { code := c, lanes := l }) := by
  obtain ⟨k, hk⟩ := exec_issues i hi
  rw [hk s]
  unfold State.issue
  simp only [hc, hi, hg, hp]
  unfold State.runWord
  have : (mkWord s gs b g p f).act = g.guard f.h p.mask := rfl
  simp only [this, hd]

theorem faultTents_frame (s : State) (gs : Nat) (a : At) (r : Bool) :
    ∃ te rq, s.faultTents gs a r = { s with tents := te, reqs := rq } := by
  have F : ∀ (l : List Nat) (s : State), ∃ rq, l.foldl (fun s r => s.updReq r fun q => if q.stage = .held then { q with stage := .mesh } else q) s
      = { s with reqs := rq } := by
    intro l
    induction l with
    | nil => exact fun s => ⟨s.reqs, rfl⟩
    | cons x t ih =>
      intro s
      obtain ⟨rq, h⟩ := ih (s.updReq x fun q => if q.stage = .held then { q with stage := .mesh } else q)
      exact ⟨rq, by rw [List.foldl_cons, h]; rfl⟩
  unfold State.faultTents
  cases r with
  | false => exact ⟨_, _, rfl⟩
  | true =>
    simp only [if_true]
    obtain ⟨rq, h⟩ := F ((((Tbl.find s.tents gs).getD []).filter (fun t => t.nth != a.nth)).flatMap (·.reqs))
      { s with reqs := s.reqs.filter (fun e => !((((Tbl.find s.tents gs).getD []).filter (fun t => t.nth == a.nth)).flatMap (·.reqs)).contains e.1) }
    rw [h]
    exact ⟨_, _, rfl⟩

/-- The halt line goes up in a partition in which none was up. -/
theorem haltBy_raises {s : State} {spid unit cause det : Nat} {q : Partition} (hs : (s.space spid).st ≠ .released)
    (hq : Tbl.find s.parts (s.space spid).part = some q) (hh : q.halt = none) :
    s.haltBy spid 0 unit cause det = { s with parts := Tbl.put s.parts (s.space spid).part { q with
      halt := some { causes := [⟨spid, 0, unit, BitVec.ofNat 8 cause, BitVec.ofNat 8 det, 0#64, 0#64⟩], since := s.clock } } } := by
  have h1 : ((s.space spid).st == .released) = false := by simpa using hs
  have h2 : s.stopped (s.space spid).part = false := by unfold State.stopped; rw [hq]; simp [hh]
  unfold State.haltBy
  rw [if_neg (ne_true_of_eq_false h1)]
  simp only [h2, Bool.false_eq_true, if_false]
  unfold State.updPart Tbl.upd
  rw [hq]
  simp [hh]

theorem raise_open {s : State} {gs : Nat} {a : At} {c : Cause} {g : Group} {r : Grid} {q : Partition} (hw : isWalker gs = false)
    (hg : Tbl.find s.groups gs = some g) (hr : s.gridOf g = some r) (hs : (s.space r.spid).st ≠ .released)
    (hq : Tbl.find s.parts (s.space r.spid).part = some q) (hh : q.halt = none) (hf : g.ft = none) :
    ∃ te rq, s.raise gs a c = (let s1 := { s with groups := Tbl.put s.groups gs (g.take r.fenced a c), tents := te, reqs := rq }
      if lateKind c.code && r.fenced then s1
      else { s1 with parts := Tbl.put s.parts (s.space r.spid).part { q with
        halt := some { causes := [⟨r.spid, 0, coreOf gs, BitVec.ofNat 8 c.code, BitVec.ofNat 8 c.det, 0#64, 0#64⟩], since := s.clock } } }) := by
  have h1 : ((s.space r.spid).st == .released) = false := by simpa using hs
  have h2 : s.stopped (s.space r.spid).part = false := by unfold State.stopped; rw [hq]; simp [hh]
  obtain ⟨te, rq, ht⟩ := faultTents_frame { s with groups := Tbl.put s.groups gs (g.take r.fenced a c) } gs a (((g.take r.fenced a c).stop.map Stop.rolled).getD false)
  refine ⟨te, rq, ?_⟩
  unfold State.raise
  simp only [hw, hg, hr, hf, h1, h2, Option.map_some, Option.getD_some, Bool.false_eq_true, if_false, Bool.false_and]
  rw [ht]
  split
  · rfl
  · exact haltBy_raises (s := { s with groups := _, tents := te, reqs := rq }) hs hq hh

theorem exec_of_slot {i : Instr} {f : Info} (hi : i.info = some f) {s : State} {gs : Nat} {b : Bool} {g : Group} {p : PcSlot}
    (hc : s.cur = some ⟨gs, b⟩) (hg : Tbl.find s.groups gs = some g) (hp : g.slot b = some p) : ∃ t, exec i s = .next t := by
  obtain ⟨k, hk⟩ := exec_issues i hi
  refine ⟨s.runWord gs b g p i f k, ?_⟩
  rw [hk s]
  unfold State.issue
  simp only [hc, hi, hg, hp]

theorem exec_of_event {i : Instr} (hi : i.info = none) (s : State) : ∃ t, exec i s = .next t := by
  cases i <;> first
    | exact ⟨_, rfl⟩
    | (exfalso; revert hi; exact fun h => nomatch h)

theorem find_map_key {α : Type} (t : Tbl α) (f : Nat → α → α) (k : Nat) :
    Tbl.find (t.map fun e => (e.1, f e.1 e.2)) k = (Tbl.find t k).map (f k) := by
  induction t with
  | nil => rfl
  | cons e t ih =>
    obtain ⟨j, a⟩ := e
    simp only [List.map_cons, Tbl.find]
    by_cases h : j = k
    · subst h; simp
    · simpa [h] using ih

/-- The rest of a group over a cycle. -/
def Ticked (s t : State) : Prop :=
  t.clock = s.clock ∧ t.mem = s.mem ∧ t.parts = s.parts ∧ t.reqs = s.reqs ∧ t.wgs = s.wgs ∧
    ∀ gs, Tbl.find t.groups gs = (Tbl.find s.groups gs).map fun g => { g with eligible := ((Tbl.find t.groups gs).map (·.eligible)).getD none }

theorem ticked_lb (s0 s : State) (k : Nat) : Ticked s (s0.tickLb s k) := by
  refine ⟨rfl, rfl, rfl, rfl, rfl, fun gs => ?_⟩
  have h : Tbl.find (s0.tickLb s k).groups gs = (Tbl.find s.groups gs).map fun g => if lbOf gs == k && !isWalker gs then
      { g with eligible := if (s0.eligibleIn k).contains gs && (s0.lb k).issued != some (s0.clock, gs) then some (g.eligible.getD s0.clock) else none } else g :=
    find_map_key s.groups (fun i g => if lbOf i == k && !isWalker i then
      { g with eligible := if (s0.eligibleIn k).contains i && (s0.lb k).issued != some (s0.clock, i) then some (g.eligible.getD s0.clock) else none } else g) gs
  rw [h]
  cases Tbl.find s.groups gs with
  | none => rfl
  | some g =>
    simp only [Option.map_some, Option.getD_some]
    split <;> rfl

theorem Ticked.trans {a b c : State} (h : Ticked a b) (k : Ticked b c) : Ticked a c := by
  obtain ⟨h1, h2, h3, h4, h5, h6⟩ := h
  obtain ⟨k1, k2, k3, k4, k5, k6⟩ := k
  refine ⟨k1.trans h1, k2.trans h2, k3.trans h3, k4.trans h4, k5.trans h5, fun gs => ?_⟩
  rw [k6 gs, h6 gs]
  cases Tbl.find a.groups gs <;> simp

/-- The halt line of every partition stands as it did. -/
def SameHalt (s t : State) : Prop := ∀ k, (Tbl.find t.parts k).map (·.halt) = (Tbl.find s.parts k).map (·.halt)

theorem halt_spend (s : State) (p m i n : Nat) : SameHalt s (s.spend p m i n) := by
  intro k
  unfold State.spend
  split
  · rfl
  · rename_i q hq
    dsimp only
    split
    · rfl
    · dsimp only
      rw [find_put]
      split
      · rename_i h; subst h; rw [hq]; rfl
      · rfl

/-- Nothing but partitions' counts differs. -/
structure LaneCycled (s t : State) : Prop where
  rest : ∃ p, t = { s with parts := p }
  halt : SameHalt s t

theorem laneCycles_spec (s : State) : LaneCycled s s.laneCycles := by
  have F : ∀ (l : List (Nat × Packet)) (t : State), LaneCycled s t → LaneCycled s (l.foldl (fun s p => match Tbl.find s.queues p.2.queue with
      | some c => s.spend c.part 5 c.die 1
      | none => s) t) := by
    intro l
    induction l with
    | nil => exact fun t h => h
    | cons a l ih =>
      intro t h
      rw [List.foldl_cons]
      refine ih _ ?_
      split
      · rename_i c _
        obtain ⟨⟨p, e⟩, h2⟩ := h
        refine ⟨?_, fun k => (halt_spend t c.part 5 c.die 1 k).trans (h2 k)⟩
        rw [e]
        unfold State.spend
        split
        · exact ⟨p, rfl⟩
        · dsimp only; split
          · exact ⟨p, rfl⟩
          · exact ⟨_, rfl⟩
      · exact h
  exact F _ s ⟨⟨s.parts, rfl⟩, fun _ => rfl⟩

theorem tick_spec (s : State) : s.tick.clock = s.clock + 1 ∧ s.tick.mem = s.mem ∧ SameHalt s s.tick ∧ s.tick.reqs = s.reqs ∧
    s.tick.wgs = s.wgs ∧ ∀ gs, ∃ e, Tbl.find s.tick.groups gs = (Tbl.find s.groups gs).map fun g =>
      { g with gtime := if isWalker gs || s.isSaved g then g.gtime else g.gtime + 1#64, eligible := e } := by
  have F : ∀ (l : List Nat) (x : State), Ticked x (l.foldl (fun t k => s.tickLb t k) x) := by
    intro l
    induction l with
    | nil => exact fun x => ⟨rfl, rfl, rfl, rfl, rfl, fun gs => by simp only [List.foldl_nil]; cases Tbl.find x.groups gs <;> rfl⟩
    | cons a t ih => exact fun x => (ticked_lb s x a).trans (ih _)
  unfold State.tick
  dsimp only
  generalize hx : ({ s with clock := s.clock + 1, groups := s.groups.map fun (x : Nat × Group) =>
    (x.1, if isWalker x.1 || s.isSaved x.2 then x.2 else { x.2 with gtime := x.2.gtime + 1#64 }) } : State) = x
  obtain ⟨h1, h2, h3, h4, h5, h6⟩ := F s.allLbs x
  generalize s.allLbs.foldl (fun t k => s.tickLb t k) x = y at h1 h2 h3 h4 h5 h6 ⊢
  obtain ⟨⟨p, hp⟩, hh⟩ := laneCycles_spec { y with cores := y.cores.map fun e => (e.1, y.tickCore e.1 e.2) }
  have e : x.clock = s.clock + 1 ∧ x.mem = s.mem ∧ x.parts = s.parts ∧ x.reqs = s.reqs ∧ x.wgs = s.wgs := by
    rw [← hx]; exact ⟨rfl, rfl, rfl, rfl, rfl⟩
  refine ⟨?_, ?_, fun k => (hh k).trans ?_, ?_, ?_, fun gs => ⟨((Tbl.find y.groups gs).map (·.eligible)).getD none, ?_⟩⟩
  · rw [hp]; exact h1.trans e.1
  · rw [hp]; exact h2.trans e.2.1
  · show (Tbl.find y.parts k).map _ = _
    rw [h3, e.2.2.1]
  · rw [hp]; exact h4.trans e.2.2.2.1
  · rw [hp]; exact h5.trans e.2.2.2.2
  rw [hp]
  refine (h6 gs).trans ?_
  have hg : Tbl.find x.groups gs = (Tbl.find s.groups gs).map fun g => if isWalker gs || s.isSaved g then g else { g with gtime := g.gtime + 1#64 } := by
    rw [← hx]
    exact find_map_key s.groups (fun i g => if isWalker i || s.isSaved g then g else { g with gtime := g.gtime + 1#64 }) gs
  rw [hg]
  cases Tbl.find s.groups gs with
  | none => rfl
  | some g =>
    simp only [Option.map_some]
    cases (isWalker gs || s.isSaved g) <;> rfl

theorem elapse_spec (n : Nat) : ∀ s : State, (s.elapse n).clock = s.clock + n ∧ (s.elapse n).mem = s.mem ∧ SameHalt s (s.elapse n) ∧
    (s.elapse n).reqs = s.reqs ∧ ∀ gs g, Tbl.find s.groups gs = some g → ∃ e : Option Nat, Tbl.find (s.elapse n).groups gs =
      some { g with gtime := if isWalker gs || s.isSaved g then g.gtime else g.gtime + BitVec.ofNat 64 n, eligible := e } := by
  induction n with
  | zero =>
    refine fun s => ⟨rfl, rfl, fun _ => rfl, rfl, fun gs g h => ⟨g.eligible, ?_⟩⟩
    show Tbl.find s.groups gs = _
    rw [h]
    cases (isWalker gs || s.isSaved g) <;> simp
  | succ n ih =>
    intro s
    obtain ⟨a1, a2, a3, a4, a5, a6⟩ := tick_spec s
    obtain ⟨b1, b2, b3, b4, b5⟩ := ih s.tick
    refine ⟨by show (s.tick.elapse n).clock = _; rw [b1, a1]; omega, b2.trans a2, fun k => (b3 k).trans (a3 k), b4.trans a4, fun gs g h => ?_⟩
    obtain ⟨e, he⟩ := a6 gs
    rw [h, Option.map_some] at he
    obtain ⟨e2, h2⟩ := b5 gs _ he
    refine ⟨e2, ?_⟩
    show Tbl.find (s.tick.elapse n).groups gs = _
    rw [h2]
    have hs : s.tick.isSaved { g with gtime := if isWalker gs || s.isSaved g then g.gtime else g.gtime + 1#64, eligible := e } = s.isSaved g := by
      unfold State.isSaved; rw [a5]
    rw [hs]
    have Q : ∀ x y : W64, x = y → some { g with gtime := x, eligible := e2 } = some { g with gtime := y, eligible := e2 } := by
      rintro _ _ rfl; rfl
    refine Q _ _ ?_
    cases (isWalker gs || s.isSaved g) with
    | true => rfl
    | false =>
      show g.gtime + 1#64 + BitVec.ofNat 64 n = g.gtime + BitVec.ofNat 64 (n + 1)
      rw [BitVec.add_assoc, BitVec.ofNat_add, BitVec.add_comm (BitVec.ofNat 64 n)]

end Sys2Proof.Laws
end

