-- ==== Sys2Proof/Laws/Slots.lean ====
section
/-! SUPPORT. Requests that return, commitment, and the end of a walk: what the steps of a lane block do to a group. -/

namespace Sys2Proof.Laws

open Sys2Proof.Machine

theorem updGroup_found {s : State} {gs : Nat} {g : Group} (h : Tbl.find s.groups gs = some g) (f : Group → Group) :
    s.updGroup gs f = { s with groups := Tbl.put s.groups gs (f g) } := by
  unfold State.updGroup Tbl.upd
  rw [h]

theorem settle_found {s : State} {gs : Nat} {g : Group} (h : Tbl.find s.groups gs = some g) (n : Nat) (f : Group → Group) :
    Tbl.find (s.settle gs n f).groups gs = some (f g) := by
  unfold State.settle
  show Tbl.find (s.updGroup gs f).groups gs = _
  rw [updGroup_found h]; exact find_put_self _ _ _

theorem settle_other (s : State) (gs n : Nat) (f : Group → Group) {k : Nat} (h : k ≠ gs) :
    Tbl.find (s.settle gs n f).groups k = Tbl.find s.groups k := by
  unfold State.settle State.updGroup
  exact find_upd_other _ _ h

theorem dropReq_plain {s : State} {id : Nat} {q : Req} (h : Tbl.find s.reqs id = some q) (hs : q.serial = none) :
    s.dropReq id = { s with reqs := Tbl.del s.reqs id, holds := s.holds.filter (fun e => e.2.1 != id) } := by
  unfold State.dropReq
  rw [h]
  simp [hs]

theorem takeRecs_weak {s : State} {q : Req} {g : Group} {c : CheckState} (h : q.ord = .weak) (ht : ∀ a ∈ q.accs, a.tx = false) :
    s.takeRecs q g c = c := by
  have : q.accs.any (·.tx) = false := by rw [List.any_eq_false]; intro a ha; simp [ht a ha]
  unfold State.takeRecs; rw [if_pos (by simp [h, this])]

theorem writeBack_spec {s : State} {id : Nat} {q : Req} {g0 g : Group} (hg : Tbl.find s.groups q.gs = some g) (hq : Tbl.find s.reqs id = some q)
    (hs : q.serial = none) (hl : ∀ e ∈ s.reqs, e.1 ≠ id → e.2.gs = q.gs → e.2.nth = q.nth → e.2.pend = []) :
    ∃ h, Tbl.find (s.writeBack id q g0).groups q.gs = some h ∧ h.regs = (g.writes q.regWrites).regs ∧
      h.pend = g.pend.filter (fun r => !q.pend.contains r) ∧ Tbl.find (s.writeBack id q g0).reqs id = none ∧ (s.writeBack id q g0).mem = s.mem ∧
      ∀ k, k ≠ q.gs → Tbl.find (s.writeBack id q g0).groups k = Tbl.find s.groups k := by
  have hlast : (!(s.reqs.any (fun e => e.1 != id && e.2.gs == q.gs && e.2.nth == q.nth && !e.2.pend.isEmpty))) = true := by
    rw [Bool.not_eq_true', List.any_eq_false]
    intro e he
    by_cases h1 : e.1 = id
    · simp [h1]
    · by_cases h2 : e.2.gs = q.gs
      · by_cases h3 : e.2.nth = q.nth
        · simp [hl e he h1 h2 h3]
        · simp [h3]
      · simp [h2]
  obtain ⟨v, x, p, hw⟩ := writes_regs q.regWrites g
  unfold State.writeBack
  simp only [hlast, if_true]
  generalize hu : s.settle q.gs q.nth (fun x => { x.writes q.regWrites with chk := s.takeRecs q g0 x.chk }) = u
  have u1 : Tbl.find u.groups q.gs = some { g.writes q.regWrites with chk := s.takeRecs q g0 g.chk } := by rw [← hu]; exact settle_found hg _ _
  have u2 : u.reqs = s.reqs ∧ u.mem = s.mem := by rw [← hu]; exact ⟨rfl, rfl⟩
  have u3 : ∀ k, k ≠ q.gs → Tbl.find u.groups k = Tbl.find s.groups k := fun k hk => by rw [← hu]; exact settle_other _ _ _ _ hk
  generalize hv : u.settle q.gs q.nth (fun x => { x with pend := x.pend.filter (fun r => !q.pend.contains r) }) = y
  have v1 := settle_found u1 q.nth (fun x => { x with pend := x.pend.filter (fun r => !q.pend.contains r) })
  rw [hv] at v1
  have v2 : y.reqs = s.reqs ∧ y.mem = s.mem := by rw [← hv]; exact u2
  have v3 : ∀ k, k ≠ q.gs → Tbl.find y.groups k = Tbl.find s.groups k := fun k hk => by rw [← hv]; exact (settle_other _ _ _ _ hk).trans (u3 k hk)
  rw [dropReq_plain (q := q) (by rw [v2.1]; exact hq) hs]
  exact ⟨_, v1, rfl, by rw [hw], find_del_self _ _, v2.2, v3⟩

theorem loadVerdicts_off {s : State} {q : Req} {g : Group} (h : q.sup = true ∨ q.mode = 0#2) : s.loadVerdicts q g = [] := by
  unfold State.loadVerdicts
  rw [if_pos (by rcases h with h | h <;> simp [h])]

theorem dataCause_none {q : Req} (h : ∀ a ∈ q.accs, a.err = 0) : q.dataCause = none := by
  have : q.accs.filter (fun a => a.err != 0) = [] := by
    rw [List.filter_eq_nil_iff]
    intro a ha
    simp [h a ha]
  unfold Req.dataCause
  rw [this]
  rfl

theorem pushes_none {ws : List RegW} (h : ∀ k m v, RegW.push k m v ∉ ws) (f : State → Nat → Mask → List W32 → State) (s : State) :
    ws.foldl (fun s x => match x with | .push k m vals => f s k m vals | _ => s) s = s := by
  induction ws with
  | nil => rfl
  | cons x t ih =>
    rw [List.foldl_cons]
    have ih := ih fun k m v hm => h k m v (.tail _ hm)
    cases x with
    | push k m v => exact absurd (.head _) (h k m v)
    | _ => exact ih

/-- Requests changed one after another, each alike, by a change that is the same done twice. -/
theorem updReqs_find (f : Req → Req) (hf : ∀ q, f (f q) = f q) (l : List Nat) (s : State) (id : Nat) :
    Tbl.find (l.foldl (fun s r => s.updReq r f) s).reqs id = if id ∈ l then (Tbl.find s.reqs id).map f else Tbl.find s.reqs id := by
  induction l generalizing s with
  | nil => simp
  | cons r t ih =>
    rw [List.foldl_cons, ih]
    unfold State.updReq
    by_cases h : id = r
    · subst h
      simp only [find_upd_self, List.mem_cons, true_or, if_true, Option.map_map]
      split
      · congr 1; funext q; exact hf q
      · rfl
    · simp only [find_upd_other _ _ h, List.mem_cons, h, false_or]

theorem updReqs_rest (f : Req → Req) (l : List Nat) (s : State) : ∃ rq, l.foldl (fun s r => s.updReq r f) s = { s with reqs := rq } := by
  induction l generalizing s with
  | nil => exact ⟨s.reqs, rfl⟩
  | cons r t ih =>
    obtain ⟨rq, h⟩ := ih (s.updReq r f)
    exact ⟨rq, by rw [List.foldl_cons, h]; rfl⟩

theorem sent_clock (l : List Nat) (s : State) :
    l.foldl (fun s r => s.updReq r fun q => if q.stage = .held then { q with stage := .mesh, since := s.clock, first := s.clock } else q) s =
      l.foldl (fun x r => x.updReq r fun q => if q.stage = .held then { q with stage := .mesh, since := s.clock, first := s.clock } else q) s := by
  have F : ∀ (l : List Nat) (x : State), x.clock = s.clock →
      l.foldl (fun s r => s.updReq r fun q => if q.stage = .held then { q with stage := .mesh, since := s.clock, first := s.clock } else q) x =
        l.foldl (fun x r => x.updReq r fun q => if q.stage = .held then { q with stage := .mesh, since := s.clock, first := s.clock } else q) x := by
    intro l
    induction l with
    | nil => exact fun x _ => rfl
    | cons a t ih =>
      intro x hx
      rw [List.foldl_cons, List.foldl_cons, hx]
      exact ih _ hx
  exact F l s rfl

/-- What the end of a walk tells a slot that waited. -/
def toldSlot (page res : Nat) (p : PcSlot) : PcSlot :=
  { p with missing := false, walked := if res = 0 then p.walked else p.walked ++ [(page, res)] }
/-- It tells one waiter: a slot of a group, or one that a first-touch handler holds. -/
def tellAt (page res : Nat) (s : State) (x : Nat × Bool) : State :=
  if heldSlot ≤ x.1 then s.updGroup (x.1 - heldSlot) fun g => g.toldHeld x.2 (toldSlot page res)
  else s.updGroup x.1 fun g => match g.slot x.2 with
    | some p => g.setSlot x.2 (some (toldSlot page res p))
    | none => g

theorem slot_setAt (g : Group) (b c : Bool) (x : Option PcSlot) : (g.setSlot b x).slot c = if c = b then x else g.slot c := by
  cases b <;> cases c <;> rfl

theorem held_other {g : Group} {b c : Bool} {f : PcSlot → PcSlot} (h : c ≠ b) : (g.toldHeld b f).slot c = g.slot c := by
  unfold Group.toldHeld
  split
  · cases c <;> rfl
  · split
    · rw [slot_setAt, if_neg h]
    · rfl

/-- One waiter is told: its slot changes, no other does. -/
theorem tell_find (page res : Nat) (x : Nat × Bool) (s : State) (k : Nat) (g : Group) (hk : k < heldSlot) (hg : Tbl.find s.groups k = some g) :
    ∃ h, Tbl.find (tellAt page res s x).groups k = some h ∧
      (∀ b p, x = (k, b) → g.slot b = some p → h.slot b = some (toldSlot page res p)) ∧
      ∀ b, x ≠ (k, b) → x ≠ (k + heldSlot, b) → h.slot b = g.slot b := by
  obtain ⟨i, c⟩ := x
  unfold tellAt
  dsimp only
  split
  · rename_i hi
    have ne : ∀ b, ¬ ((i, c) : Nat × Bool) = (k, b) := fun b hx => by
      have h0 : i = k := congrArg Prod.fst hx
      rw [h0] at hi
      exact Nat.not_le_of_lt hk hi
    by_cases e : i - heldSlot = k
    · rw [e]
      refine ⟨_, by rw [updGroup_found hg]; exact find_put_self _ _ _, fun b p hx _ => absurd hx (ne b), fun b _ hx => held_other ?_⟩
      rintro rfl
      exact hx (by rw [← e, Nat.sub_add_cancel hi])
    · exact ⟨g, (find_upd_other _ _ fun h => e h.symm).trans hg, fun b p hx _ => absurd hx (ne b), fun _ _ _ => rfl⟩
  · by_cases e : k = i
    · subst e
      refine ⟨_, by rw [updGroup_found hg]; exact find_put_self _ _ _, fun b p hx hp => ?_, fun b hx _ => ?_⟩
      · have := congrArg Prod.snd hx; dsimp only at this; subst this
        rw [hp]; dsimp only; rw [slot_setAt, if_pos rfl]
      · split
        · rw [slot_setAt, if_neg fun h => hx (by rw [h])]
        · rfl
    · exact ⟨g, (find_upd_other _ _ e).trans hg, fun b p hx _ => absurd (congrArg Prod.fst hx).symm e, fun _ _ _ => rfl⟩

theorem tell_fold (page res : Nat) (l : List (Nat × Bool)) (hl : l.Nodup) (s : State) (k : Nat) (g : Group) (hk : k < heldSlot)
    (hg : Tbl.find s.groups k = some g) :
    ∃ h, Tbl.find (l.foldl (tellAt page res) s).groups k = some h ∧
      (∀ b p, (k, b) ∈ l → (k + heldSlot, b) ∉ l → g.slot b = some p → h.slot b = some (toldSlot page res p)) ∧
      ∀ b, (k, b) ∉ l → (k + heldSlot, b) ∉ l → h.slot b = g.slot b := by
  induction l generalizing s g with
  | nil => exact ⟨g, hg, fun b p hm => absurd hm List.not_mem_nil, fun _ _ _ => rfl⟩
  | cons x t ih =>
    obtain ⟨hx, ht⟩ := List.nodup_cons.mp hl
    obtain ⟨g1, a1, a2, a3⟩ := tell_find page res x s k g hk hg
    obtain ⟨h, h1, h2, h3⟩ := ih ht _ g1 a1
    rw [List.foldl_cons]
    refine ⟨h, h1, fun b p hm hn hp => ?_, fun b hm hn => ?_⟩
    · have hn' : x ≠ (k + heldSlot, b) := fun e => hn (e ▸ .head _)
      by_cases e : x = (k, b)
      · rw [h3 b (e ▸ hx) fun h => hn (.tail _ h)]; exact a2 b p e hp
      · refine h2 b p ((List.mem_cons.mp hm).resolve_left fun h => e h.symm) (fun h => hn (.tail _ h)) ?_
        rw [a3 b e hn', hp]
    · rw [h3 b (fun h => hm (.tail _ h)) fun h => hn (.tail _ h)]
      exact a3 b (fun e => hm (e ▸ .head _)) fun e => hn (e ▸ .head _)

theorem tell_rest (page res : Nat) (l : List (Nat × Bool)) (s : State) : ∃ gr, l.foldl (tellAt page res) s = { s with groups := gr } := by
  induction l generalizing s with
  | nil => exact ⟨s.groups, rfl⟩
  | cons x t ih =>
    obtain ⟨gr, h⟩ := ih (tellAt page res s x)
    rw [List.foldl_cons, h]
    unfold tellAt
    split <;> exact ⟨gr, rfl⟩

theorem lb_updLb (s : State) (k : Nat) (f : LaneBlock → LaneBlock) : (s.updLb k f).lb k = f (s.lb k) := by
  unfold State.updLb State.lb
  simp

theorem endWalk_eq {s : State} {k res : Nat} {r : WalkRun} (h : (s.lb k).walk = some r) : ∃ gr,
    s.endWalk k res = (let s2 := ({ s with groups := gr } : State).updLb k fun b =>
      { b with walk := none, engWalks := if r.miss.eng && res != 0 then b.engWalks ++ [(r.miss.spid, r.miss.gen, r.miss.va / 2 ^ 16, res)] else b.engWalks }
      { s2 with groups := Tbl.del s2.groups (k * 16 + 15), tents := Tbl.del s2.tents (k * 16 + 15)
                reqs := s2.reqs.filter (fun e => e.2.gs != k * 16 + 15) }) ∧
    r.miss.groups.foldl (tellAt (r.miss.va / 2 ^ 16) res) s = { s with groups := gr } := by
  obtain ⟨gr, hg⟩ := tell_rest (r.miss.va / 2 ^ 16) res r.miss.groups s
  refine ⟨gr, ?_, hg⟩
  unfold State.endWalk
  rw [h]
  dsimp only
  rw [← hg]
  rfl

end Sys2Proof.Laws
end

