-- ==== Sys2Proof/Laws/Starts.lean ====
section
/-! SUPPORT. Words that start operations of engines. -/

namespace Sys2Proof.Laws

open Sys2Proof.Machine

theorem even_none {c : Copying} (h : c.even) : [c.dst, c.src, c.len, c.sp, c.dp].find? (fun x => x % 16 != 0) = none := by
  obtain ⟨h1, h2, h3, h4, h5⟩ := h
  simp [h1, h2, h3, h4, h5]

theorem copyWord_eq (s : State) (w : Word) (ext : Bool) (c : Reg) (ha : w.some) (he : (w.copying c).even) : s.copyWord w ext c =
    (match (if ext then
          (match sideCause w [((w.copying c).dst, s.extSide w true (w.copying c).dst (sideSpan (w.copying c).len (w.copying c).rows (w.copying c).dp)),
             ((w.copying c).src, s.extSide w false (w.copying c).src (sideSpan (w.copying c).len (w.copying c).rows (w.copying c).sp))] with
           | none => if (w.copying c).dst < 2 ^ 56 ∧ (w.copying c).src < 2 ^ 56 then
               some ({ code := 0x09, det := 0x0A, lanes := w.act, addr := BitVec.ofNat 64 (w.copying c).dst } : Cause) else none
           | x => x)
        else sideCause w [((w.copying c).dst, s.copySide w (w.copying c).dst (sideSpan (w.copying c).len (w.copying c).rows (w.copying c).dp)),
          ((w.copying c).src, s.copySide w (w.copying c).src (sideSpan (w.copying c).len (w.copying c).rows (w.copying c).sp))]) with
      | some x => .trap x s
      | none => s.enterCopy w .cp ext (w.copying c).dst (w.copying c).src (w.copying c).len (w.copying c).rows (w.copying c).sp (w.copying c).dp [0]) := by
  have e := even_none he
  unfold State.copyWord
  by_cases hc : c = .z
  · subst hc
    simp only [if_true]
    rw [if_neg ha]
    simp only [Word.copying, if_true, Word.opnd32, BitVec.toNat_ofNat] at e ⊢
    rw [e]
    all_goals rfl
  · simp only [if_neg hc]
    rw [if_neg ha]
    simp only [Word.copying, if_neg hc, Word.opnd32, BitVec.toNat_ofNat] at e ⊢
    unfold Word.opnd64 at e ⊢
    rw [e]
    all_goals rfl

theorem sides_none (w : Word) (x y : Nat) : sideCause w [(x, none), (y, none)] = none := rfl

theorem enterCopy_ok {s : State} {w : Word} {k : Cls} {ext : Bool} {c : Copying} {ixs : List Nat} (h : c.some) (hx : ixs ≠ [])
    (h1 : s.opWaits w.gs w.g.wg = false) (h2 : (s.core (coreOf w.gs)).cpq.length < 256) :
    s.enterCopy w k ext c.dst c.src c.len c.rows c.sp c.dp ixs = .done (s.copyStarted w k ext c ixs) := by
  unfold State.enterCopy
  have hi : ixs.isEmpty = false := by cases ixs with | nil => exact absurd rfl hx | cons => rfl
  simp only
  rw [if_neg (by simp [h.1, h.2, hi]), if_neg (by simp [h1]), if_neg (by omega)]
  rfl

theorem says_eq {s : State} {w : Word} {d : Reg} {v : Nat} : (s.updGroup w.gs fun g => g.writes (w.put64 d fun _ => v)) = w.says d v s := rfl

theorem freeIx_some {α : Type} {t : Tbl α} {k : Nat} (h : k < 16 ∧ Tbl.find t k = none ∧ ∀ m, m < k → ¬ Tbl.find t m = none) : freeIx t = some k := by
  obtain ⟨h1, h2, h3⟩ := h
  unfold freeIx
  rw [List.find?_range_eq_some]
  refine ⟨by simp [h2], by simpa using h1, fun j hj => ?_⟩
  have := h3 j hj
  cases e : Tbl.find t j with
  | none => exact absurd e this
  | some x => rfl

end Sys2Proof.Laws
end

