-- ==== Sys2Proof/Laws/Teams.lean ====
section
/-! SUPPORT. Matrix words, barriers and queue tests. -/

namespace Sys2Proof.Laws

open Sys2Proof.Machine

theorem arrived_slot {g : Group} {b : Bool} {p : PcSlot} (h : g.slot b = some p) (ha : g.path (!b) = none) :
    (g.setSlot b (some { p with phase := .arrived })).arrivedSlot = some (b, { p with phase := .arrived }) := by
  have ho : g.slot (!b) = none := by
    unfold Group.path at ha
    split at ha
    · cases ha
    · assumption
  cases b with
  | false => unfold Group.arrivedSlot; simp [Group.setSlot]
  | true =>
    have : g.slotA = none := ho
    unfold Group.arrivedSlot; simp [Group.setSlot, this]

/-- A matrix word of a team of its own starts what its operands say. -/
theorem team_start {s : State} {w : Word} {i : Instr} {prep : Word → State → Prep} {kind : MatKind} (hf : Found s w) (hr : s.TeamAlone w)
    (hm : ((s.teamed w).core (coreOf w.gs)).eng.length < 64) (hp : prep (w.teamed i s) (s.teamed w) = .go kind [coreOf w.gs] none) :
    s.teamIssue w (fieldsOf i) prep = .done (s.matStarted w kind) := by
  obtain ⟨h1, h2, h3, ⟨h4, h5, h6⟩, h7, h8, x, h9, h10, h11⟩ := hr
  unfold State.teamIssue
  rw [h2]
  have hk : teamIx (s.teamSize w.g) w.g.gidx = w.g.gidx := if_pos h1
  have hm' : teamMembers (s.teamSize w.g) w.g.gidx = [w.g.gidx] := if_pos h1
  unfold Word.alone at h3
  simp only [h3, Option.isSome_none, Bool.false_eq_true, if_false, if_neg h4, h5, Option.map_some, Option.getD_some, bne_self_eq_false,
    Option.isNone_some, h6, h7, hk, hm', h9, Option.bind_some, h10, Option.map_none, Option.getD_none, Option.filter_none, and_false,
    BitVec.zero_or, List.all_cons, List.all_nil, Bool.and_true, inMask_maskOf _ h8, beq_self_eq_true, if_true]
  have hs : (s.updWg w.g.wg fun x => { x with teams := Tbl.put x.teams w.g.gidx ⟨w.slot.pc, maskOf (· == w.g.gidx)⟩ }).updGroup w.gs (fun g =>
      g.setSlot w.b (some { w.slot with phase := .arrived })) = s.teamed w := rfl
  rw [hs]
  have hw : Tbl.find (s.teamed w).wgs w.g.wg = some { x with teams := Tbl.put x.teams w.g.gidx ⟨w.slot.pc, maskOf (· == w.g.gidx)⟩ } := by
    show Tbl.find (Tbl.upd s.wgs w.g.wg _) w.g.wg = _
    rw [find_upd_self, h9]; rfl
  have hg : Tbl.find (s.teamed w).groups w.gs = some (w.g.setSlot w.b (some { w.slot with phase := .arrived })) := by
    show Tbl.find (Tbl.upd s.groups w.gs _) w.gs = _
    rw [find_upd_self, hf.group]; rfl
  rw [hw]
  simp only [Workgroup.slotsOf, List.filterMap_cons, List.filterMap_nil, h11, List.headD_cons]
  unfold State.startTeam
  rw [hg]
  simp only [arrived_slot hf.slot h3]
  rw [show mkWord (s.teamed w) w.gs w.b (w.g.setSlot w.b (some { w.slot with phase := .arrived })) { w.slot with phase := .arrived } (fieldsOf i) = w.teamed i s from rfl, hp]
  have hroom : (s.teamed w).engRoom [coreOf w.gs] = true := by simp [State.engRoom, hm]
  have hgate : (s.teamed w).entryGate w.gs [coreOf w.gs] = .free := by
    unfold State.entryGate
    rw [hg]
    have : ((s.teamed w).space ((s.teamed w).spidOf (w.g.setSlot w.b (some { w.slot with phase := .arrived })))).replay = none := by
      have e : (s.teamed w).spidOf (w.g.setSlot w.b (some { w.slot with phase := .arrived })) = s.spidOf w.g := by
        unfold State.spidOf State.gridOf
        have : (w.g.setSlot w.b (some { w.slot with phase := .arrived })).wg = w.g.wg := by cases w.b <;> rfl
        rw [this, hw, h9]
        rfl
      rw [e]; exact hf.plays
    simp only [List.map_cons, List.map_nil, gate_free this]
    rfl
  simp only [hroom, Bool.not_true, Bool.false_eq_true, if_false, hgate]
  rfl

theorem team_performs {i : Instr} {prep : Word → State → Prep} (he : ∀ s, exec i s = matIssue i prep s) (hi : i.info = some (fieldsOf i))
    {c : State → Word → Prop} (K : State → Word → MatKind)
    (hp : ∀ s w, c s w → s.TeamAlone w ∧ ((s.teamed w).core (coreOf w.gs)).eng.length < 64 ∧
      prep (w.teamed i s) (s.teamed w) = .go (K s w) [coreOf w.gs] none) : Performs i c (fun w s => s.matStarted w (K s w)) := by
  refine performs_of (fun w s => match i.info with
    | some f => s.teamIssue w f prep
    | none => .done s) (fun s => he s) fun s w hf hc => ?_
  rw [hi]
  obtain ⟨h1, h2, h3⟩ := hp s w hc
  exact team_start hf h1 h2 h3

theorem team_answered {i : Instr} {prep : Word → State → Prep} (he : ∀ s, exec i s = matIssue i prep s) (hi : i.info = some (fieldsOf i)) :
    Performs i (fun _ w => ∃ x, w.slot.phase = .answered x) (fun _ s => s) ∧
    Traps i (fun _ w => w.slot.phase = .idle ∧ ¬ w.alone) (fun w => { code := 0x1A, lanes := w.slot.mask }) (fun _ s => s) ∧
    Traps i (fun s w => w.slot.phase = .idle ∧ w.alone ∧ s.service w.g = true ∧ (s.core (coreOf w.gs)).cols = 0)
      (fun w => { code := 0x28, lanes := w.slot.mask }) (fun _ s => s) := by
  refine ⟨?_, ?_, ?_⟩
  · refine performs_of (fun w s => match i.info with
      | some f => s.teamIssue w f prep
      | none => .done s) (fun s => he s) fun s w hf ⟨x, hx⟩ => ?_
    rw [hi]
    simp only [State.teamIssue, hx]
  · refine traps_of (fun w s => match i.info with
      | some f => s.teamIssue w f prep
      | none => .done s) (fun s => he s) (fun s w hf hc => ?_) fun _ _ _ => .inl rfl
    rw [hi]
    have : (w.g.path (!w.b)).isSome = true := by
      cases e : w.g.path (!w.b) with
      | none => exact absurd e hc.2
      | some x => rfl
    simp only [State.teamIssue, hc.1, this, if_true]
  · refine traps_of (fun w s => match i.info with
      | some f => s.teamIssue w f prep
      | none => .done s) (fun s => he s) (fun s w hf hc => ?_) fun _ _ hc => .inr hc.2.2.1
    rw [hi]
    have : (w.g.path (!w.b)).isSome = false := by rw [hc.2.1]; rfl
    simp only [State.teamIssue, hc.1, this, Bool.false_eq_true, if_false, hc.2.2.2, if_true]

theorem logEntry_cores (s : State) (i c : Nat) : (s.logEntry i c).cores = s.cores := by
  unfold State.logEntry
  split
  · rfl
  · split
    · rfl
    · obtain ⟨me, sp, wm, rc, st, e⟩ := logEvent_only s (s.spidOf ‹Group›) 8 0xFF (s.nameOf ‹Group›) (s.rwcNow i ‹Group›) c (BitVec.ofNat 64 (‹Group›.matSeq.toNat + 1))
      unfold State.logGroup
      rw [e]

theorem matStarted_eng (s : State) (w : Word) (kind : MatKind) :
    ∃ op, ((s.matStarted w kind).core (coreOf w.gs)).eng = ((s.core (coreOf w.gs)).eng ++ [op]) ∧
      op.kind = kind ∧ op.gs = w.gs ∧ op.wg = w.g.wg ∧ op.pc = w.slot.pc ∧ op.cores = [coreOf w.gs] := by
  refine ⟨{ id := (s.teamed w).newId.1, kind := kind, wg := w.g.wg, gs := w.gs, pc := w.slot.pc, mems := (if noBatch kind then [] else [w.gs]), cores := [coreOf w.gs] }, ?_, rfl, rfl, rfl, rfl, rfl⟩
  unfold State.matStarted State.startMat
  simp only [List.foldl_cons, List.foldl_nil, List.flatMap_cons, List.flatMap_nil, List.append_nil]
  have key : ∀ (u : State) (f : Core → Core), u.cores = s.cores → ((u.updCore (coreOf w.gs) f).core (coreOf w.gs)) = f (s.core (coreOf w.gs)) := by
    intro u f hu
    unfold State.updCore State.core
    simp only [find_put_self, Option.getD_some, hu]
  have h1 := key ((s.teamed w).newId.2.logEntry w.gs (coreOf w.gs)) (fun x => { x with eng := x.eng ++ [{ id := (s.teamed w).newId.1, kind := kind, wg := w.g.wg, gs := w.gs, pc := w.slot.pc, mems := (if noBatch kind then [] else [w.gs]), cores := [coreOf w.gs] }] }) (logEntry_cores _ _ _)
  have h2 : ((List.find? (fun t : Team => t.core == coreOf w.gs) [⟨w.g.wg, w.gs, [w.gs], w.g.gidx, coreOf w.gs⟩]).map (·.iss)).getD w.gs = w.gs := by simp
  have c1 : ∀ (u : State) gs f c, (u.updGroup gs f).core c = u.core c := fun _ _ _ _ => rfl
  have c2 : ∀ (u : State) gs ph c, (u.setPhase gs ph).core c = u.core c := fun _ _ _ _ => rfl
  have c3 : ∀ (u : State) a b c, (u.clearTeam a b).core c = u.core c := fun _ _ _ _ => rfl
  rw [h2, c2, c1, c3, h1]

theorem gate_group {s : State} {w : Word} (hf : Found s w) (kind lane : Nat) (rwc : W32) (key : Nat) :
    s.gate (s.spidOf w.g) kind lane (s.nameOf w.g) rwc key = .free := gate_free hf.plays

theorem qtry_free {s : State} {w : Word} (hf : Found s w) (q : Nat) (can : Bool) (k : Bool → State → Eff) :
    s.qtryEvent w q can k = k can (s.logGroup w.g 3 0xFF (s.rwcNow w.gs w.g) (s.queueKey w.g q) (BitVec.ofNat 64 (b2n can))) := by
  unfold State.qtryEvent
  simp only [gate_group hf]

theorem barrier_depart {s : State} {w : Word} {k : BarKind} (h1 : w.alone) (h2 : w.slot.phase = .arrived) (h3 : s.barDone w.g k = true) :
    s.barrier w k = .done (s.depart w.gs k) := by
  unfold Word.alone at h1
  simp [State.barrier, h1, h2, h3]
theorem barrier_wait {s : State} {w : Word} {k : BarKind} (h1 : w.alone) (h2 : w.slot.phase = .arrived) (h3 : s.barDone w.g k = false) :
    s.barrier w k = .wait .barrier s := by
  unfold Word.alone at h1
  simp [State.barrier, h1, h2, h3]
theorem barrier_comes {s : State} {w : Word} {k : BarKind} (h1 : w.alone) (h2 : w.slot.phase = .idle) (h3 : w.g.arrival = none)
    (h4 : ¬ (s.unperformed w.gs = true ∨ s.fenceWaits w.gs w.g.wg (scopeOfBar k) = true)) (h5 : (s.startDrain w.gs false).draining w.gs = false) :
    s.barrier w k = (match Tbl.find (w.notes .arrived ((s.startDrain w.gs false).arriveBar w.gs k)).groups w.gs with
      | some g => if (w.notes .arrived ((s.startDrain w.gs false).arriveBar w.gs k)).barDone g k then
          .done ((w.notes .arrived ((s.startDrain w.gs false).arriveBar w.gs k)).depart w.gs k)
        else .wait .barrier (w.notes .arrived ((s.startDrain w.gs false).arriveBar w.gs k))
      | none => .wait .barrier (w.notes .arrived ((s.startDrain w.gs false).arriveBar w.gs k))) := by
  unfold Word.alone at h1
  unfold State.barrier State.beforeArrival
  rw [h1, h2, h3]
  rw [← Bool.or_eq_true, Bool.not_eq_true] at h4
  simp only [Option.isSome_none, Bool.false_eq_true, if_false, h4, h5]
  have e : ∀ u : State, u.updGroup w.gs (fun g => g.setSlot w.b (some { w.slot with phase := .arrived })) = w.notes .arrived u := fun _ => rfl
  simp only [e]
  rw [if_neg (by simp)]
  all_goals cases Tbl.find (w.notes .arrived ((s.startDrain w.gs false).arriveBar w.gs k)).groups w.gs <;> rfl
theorem barrier_early {s : State} {w : Word} {k : BarKind} (h1 : w.alone) (h2 : w.slot.phase = .idle) (h3 : w.g.arrival = none)
    (h4 : s.unperformed w.gs = true ∨ s.fenceWaits w.gs w.g.wg (scopeOfBar k) = true) : s.barrier w k = .wait .barrier s := by
  unfold Word.alone at h1
  unfold State.barrier State.beforeArrival
  rw [h1, h2, h3]
  rw [← Bool.or_eq_true] at h4
  simp only [Option.isSome_none, Bool.false_eq_true, if_false, h4]
  rw [if_neg (by simp)]
  rfl
theorem barrier_bad {s : State} {w : Word} {k : BarKind} (h : ¬ w.alone ∨ w.slot.phase ≠ .arrived ∧ w.g.arrival ≠ none) :
    s.barrier w k = .trap { code := 0x01, lanes := w.slot.mask } s := by
  unfold State.barrier
  by_cases h1 : w.alone
  · obtain ⟨h2, h3⟩ := h.resolve_left (not_not_intro h1)
    unfold Word.alone at h1
    have h4 : w.g.arrival.isSome = true := by cases e : w.g.arrival with | none => exact absurd e h3 | some x => rfl
    simp [h1, h2, h4]
  · unfold Word.alone at h1
    have h4 : (w.g.path (!w.b)).isSome = true := by cases e : w.g.path (!w.b) with | none => exact absurd e h1 | some x => rfl
    simp [h4]

/-- The clauses of a barrier that parks. -/
theorem barrier_all {i : Instr} {k : BarKind} (ok : State → Word → Prop) (f : Word → State → Eff) (he : ∀ s, exec i s = s.issue i f)
    (hk : ∀ s w, ok s w → f w s = s.barrier w k) :
      let came := fun (w : Word) (s : State) => (s.startDrain w.gs false).arriveBar w.gs k
      let past := fun (w : Word) (s : State) => ∃ g, Tbl.find s.groups w.gs = some g ∧ s.barDone g k = true
      let before := fun (w : Word) => w.alone ∧ w.slot.phase = .idle ∧ w.g.arrival = none
      let early := fun (s : State) (w : Word) => s.unperformed w.gs = true ∨ s.fenceWaits w.gs w.g.wg (scopeOfBar k) = true
      let calm := fun (s : State) (w : Word) => ¬ early s w ∧ (s.startDrain w.gs false).draining w.gs = false
      Performs i (fun s w => ok s w ∧ w.alone ∧ w.slot.phase = .arrived ∧ s.barDone w.g k = true) (fun w s => s.depart w.gs k) ∧
      Parks i (fun s w => ok s w ∧ w.alone ∧ w.slot.phase = .arrived ∧ s.barDone w.g k = false) .barrier (fun _ s => s) ∧
      Performs i (fun s w => ok s w ∧ before w ∧ calm s w ∧ past w (w.notes .arrived (came w s)))
        (fun w s => (w.notes .arrived (came w s)).depart w.gs k) ∧
      Parks i (fun s w => ok s w ∧ before w ∧ calm s w ∧ ¬ past w (w.notes .arrived (came w s))) .barrier
        (fun w s => w.notes .arrived (came w s)) ∧
      Parks i (fun s w => ok s w ∧ before w ∧ early s w) .barrier (fun _ s => s) ∧
      Traps i (fun s w => ok s w ∧ (¬ w.alone ∨ w.slot.phase ≠ .arrived ∧ w.g.arrival ≠ none))
        (fun w => { code := 0x01, lanes := w.slot.mask }) (fun _ s => s) := by
  refine ⟨?_, ?_, ?_, ?_, ?_, ?_⟩
  · exact performs_of f he fun s w hf hc => (hk s w hc.1).trans (barrier_depart hc.2.1 hc.2.2.1 hc.2.2.2)
  · exact parks_of f he fun s w hf hc => (hk s w hc.1).trans (barrier_wait hc.2.1 hc.2.2.1 hc.2.2.2)
  · refine performs_of f he fun s w hf hc => (hk s w hc.1).trans ?_
    obtain ⟨_, ⟨h1, h2, h3⟩, ⟨h4, h5⟩, g, h6, h7⟩ := hc
    rw [barrier_comes h1 h2 h3 h4 h5]
    simp only [h6, h7, if_true]
  · refine parks_of f he fun s w hf hc => (hk s w hc.1).trans ?_
    obtain ⟨_, ⟨h1, h2, h3⟩, ⟨h4, h5⟩, h6⟩ := hc
    rw [barrier_comes h1 h2 h3 h4 h5]
    cases e : Tbl.find (w.notes .arrived ((s.startDrain w.gs false).arriveBar w.gs k)).groups w.gs with
    | none => rfl
    | some g =>
      simp only
      refine if_neg fun hd => h6 ⟨g, e, hd⟩
  · refine parks_of f he fun s w hf hc => (hk s w hc.1).trans ?_
    obtain ⟨_, ⟨h1, h2, h3⟩, h4⟩ := hc
    exact barrier_early h1 h2 h3 h4
  · exact traps_of f he (fun s w hf hc => (hk s w hc.1).trans (barrier_bad hc.2)) fun s w _ => .inl rfl

theorem depart_spec (s : State) (gs : Nat) (k : BarKind) (g : Group) (x : Workgroup) (hg : Tbl.find s.groups gs = some g)
    (hx : Tbl.find s.wgs g.wg = some x) : ∃ g', Tbl.find (s.depart gs k).groups gs = some g' ∧
      g'.regs = g.regs ∧ g'.arrival = none ∧ (s.depart gs k).mem = s.mem ∧
      g'.chk.pwg = (if k = .bar ∨ k = .bara then g.chk.pwg + 1#32 else g.chk.pwg) ∧
      g'.chk.pgg = (if k = .cbar ∧ 2 ≤ (s.gangOf g.wg).2 then g.chk.pgg + 1#32 else g.chk.pgg) ∧
      g'.chk.pdg = (if k = .gbar then g.chk.pdg + 1#32 else g.chk.pdg) := by
  have key : ∀ c : CheckState, c.pwg = g.chk.pwg → c.pgg = g.chk.pgg → c.pdg = g.chk.pdg → ∀ u,
      u = (let s1 := s.updGroup gs fun g => { g with chk := c, arrival := none, subSeen := [] }
        let s2 := if k = .cbar ∧ !decide (2 ≤ (s.gangOf g.wg).2) then s1 else s1.passGen gs (genOfBar k)
        s2.acquireL1 (coreOf gs) (scopeOfBar k)) →
      ∃ g', Tbl.find u.groups gs = some g' ∧ g'.regs = g.regs ∧ g'.arrival = none ∧ u.mem = s.mem ∧
      g'.chk.pwg = (if k = .bar ∨ k = .bara then g.chk.pwg + 1#32 else g.chk.pwg) ∧
      g'.chk.pgg = (if k = .cbar ∧ 2 ≤ (s.gangOf g.wg).2 then g.chk.pgg + 1#32 else g.chk.pgg) ∧
      g'.chk.pdg = (if k = .gbar then g.chk.pdg + 1#32 else g.chk.pdg) := by
    rintro c h1 h2 h3 u rfl
    obtain ⟨⟨a1, a2⟩, -⟩ := acquireL1_spec (if k = .cbar ∧ !decide (2 ≤ (s.gangOf g.wg).2) then (s.updGroup gs fun g => { g with chk := c, arrival := none, subSeen := [] })
      else (s.updGroup gs fun g => { g with chk := c, arrival := none, subSeen := [] }).passGen gs (genOfBar k)) (coreOf gs) (scopeOfBar k)
    simp only [a1, a2]
    have hs1 : Tbl.find (s.updGroup gs fun g => { g with chk := c, arrival := none, subSeen := [] }).groups gs =
        some { g with chk := c, arrival := none, subSeen := [] } := by
      unfold State.updGroup; rw [find_upd_self, hg]; rfl
    by_cases hb : k = .cbar ∧ !decide (2 ≤ (s.gangOf g.wg).2)
    · simp only [if_pos hb]
      refine ⟨_, hs1, rfl, rfl, rfl, ?_, ?_, ?_⟩
      · rw [if_neg (by rw [hb.1]; simp)]; exact h1
      · rw [if_neg (by have := hb.2; simp at this; omega)]; exact h2
      · rw [if_neg (by rw [hb.1]; simp)]; exact h3
    · simp only [if_neg hb]
      have hp : ∀ (d : CheckState) (n : W32), ∃ g', Tbl.find (if n.toNat % 8 = 0 then State.wantAdvance { s.updGroup gs (fun g => { g with chk := c, arrival := none, subSeen := [] }) with
            groups := Tbl.put (s.updGroup gs fun g => { g with chk := c, arrival := none, subSeen := [] }).groups gs { g with chk := d, arrival := none, subSeen := [] } } gs .barrier
          else { s.updGroup gs (fun g => { g with chk := c, arrival := none, subSeen := [] }) with
            groups := Tbl.put (s.updGroup gs fun g => { g with chk := c, arrival := none, subSeen := [] }).groups gs { g with chk := d, arrival := none, subSeen := [] } }).groups gs = some g' ∧
          g'.regs = g.regs ∧ g'.arrival = none ∧ g'.chk = d := by
        intro d n
        split <;> exact ⟨_, find_put_self _ _ _, rfl, rfl, rfl⟩
      unfold State.passGen
      rw [hs1]
      simp only
      have hm : ∀ (n : W32) (v : State), (if n.toNat % 8 = 0 then v.wantAdvance gs .barrier else v).mem = v.mem := by
        intro n v; split <;> rfl
      cases k <;> simp only [genOfBar]
      · obtain ⟨g', e1, e2, e3, e4⟩ := hp { c with pwg := c.pwg + 1#32, kwg := maxW c.kwg (c.pwg + 1#32) } (c.pwg + 1#32)
        refine ⟨g', e1, e2, e3, (hm _ _), ?_⟩
        rw [e4]; simp [h1, h2, h3]
      · obtain ⟨g', e1, e2, e3, e4⟩ := hp { c with pwg := c.pwg + 1#32, kwg := maxW c.kwg (c.pwg + 1#32) } (c.pwg + 1#32)
        refine ⟨g', e1, e2, e3, (hm _ _), ?_⟩
        rw [e4]; simp [h1, h2, h3]
      · obtain ⟨g', e1, e2, e3, e4⟩ := hp { c with pgg := c.pgg + 1#32, kgg := maxW c.kgg (c.pgg + 1#32) } (c.pgg + 1#32)
        refine ⟨g', e1, e2, e3, (hm _ _), ?_⟩
        have h5 : 2 ≤ (s.gangOf g.wg).2 := by have := hb; simp at this; omega
        rw [e4]; simp [h1, h2, h3, h5]
      · obtain ⟨g', e1, e2, e3, e4⟩ := hp { c with pdg := c.pdg + 1#32, kdg := maxW c.kdg (c.pdg + 1#32), ic := c.ic || decide (c.icAt.toNat + 2 ≤ (c.pdg + 1#32).toNat) } (c.pdg + 1#32)
        refine ⟨g', e1, e2, e3, (hm _ _), ?_⟩
        rw [e4]; simp [h1, h2, h3]
  unfold State.depart
  rw [hg]
  simp only [hx]
  refine key _ ?_ ?_ ?_ _ rfl
  all_goals (cases k <;> simp only [] <;> split <;> rfl)

end Sys2Proof.Laws
end

