-- ==== Sys2Proof/Laws/Words.lean ====
section
/-! SUPPORT. Words of classes 6, 11 and 13: collectives, child grids, special registers, regrouping. -/

namespace Sys2Proof.Laws

open Sys2Proof.Machine

theorem withColl_ok {s : State} {w : Word} {ranges : Bool} {k : CollDesc → Nat → Bool → Eff} {pa : Nat} {u : Bool} (ha : w.some) (h : w.src 0 0 % 64 = 0)
    (ht : (s.collTr w .store (w.src 0 0)).tr = .ok [.mem pa] u) (hp : s.poisoned pa 64 = false)
    (hr : ranges = true → (parseColl ((List.range 8).map fun i => s.rd8 (pa + 8 * i))).src % 16 = 0 ∧
      (parseColl ((List.range 8).map fun i => s.rd8 (pa + 8 * i))).dst % 16 = 0 ∧
      allOk ((rangePages (parseColl ((List.range 8).map fun i => s.rd8 (pa + 8 * i))).src
        (min (parseColl ((List.range 8).map fun i => s.rd8 (pa + 8 * i))).count (2 ^ 24) * collSize (parseColl ((List.range 8).map fun i => s.rd8 (pa + 8 * i))).fmt)).map (s.collTr w .load)) ∧
      allOk ((rangePages (parseColl ((List.range 8).map fun i => s.rd8 (pa + 8 * i))).dst
        (min (parseColl ((List.range 8).map fun i => s.rd8 (pa + 8 * i))).count (2 ^ 24) * collSize (parseColl ((List.range 8).map fun i => s.rd8 (pa + 8 * i))).fmt)).map (s.collTr w .store))) :
    s.withColl w ranges k = k (parseColl ((List.range 8).map fun i => s.rd8 (pa + 8 * i))) pa u := by
  unfold State.withColl
  simp only
  rw [if_neg ha, if_neg (by simp [h])]
  refine (withLanes_ok (l := [_]) ?_).trans ?_
  · intro x hx
    rw [List.mem_singleton.mp hx]
    exact ⟨_, _, ht⟩
  · have e : (([s.collTr w .store (w.src 0 0)].head?.bind fun x => x.locs.head?).map Loc.pa).getD 0 = pa := by
      simp [LaneTr.locs, ht, Loc.pa]
    have e2 : ([s.collTr w .store (w.src 0 0)].head?.map LaneTr.uncached).getD false = u := by simp [LaneTr.uncached, ht]
    rw [e, e2]
    simp only [hp, Bool.false_eq_true, if_false]
    cases ranges with
    | false => rfl
    | true =>
      obtain ⟨h1, h2, h3, h4⟩ := hr rfl
      simp only [Bool.not_true, Bool.false_eq_true, if_false]
      rw [if_neg (by simp [h1, h2])]
      refine (withLanes_ok h3).trans (withLanes_ok h4)

theorem or_ff {a b : Bool} (h : a = false) (k : b = false) : ¬ ((a || b) = true) := by rw [h, k]; decide
theorem or_tt {a b : Bool} (h : a = true ∨ b = true) : (a || b) = true := by rwa [Bool.or_eq_true]

theorem dropTlb_gone (s : State) (c spid : Nat) (va : Option Nat) (e : TlbEnt) (he : e ∈ ((s.dropTlb c spid va).core c).tlb) (hs : e.spid = spid) :
    ∃ x, va = some x ∧ ¬ (e.va ≤ x ∧ x < e.va + e.size) := by
  unfold State.dropTlb at he
  simp only [State.updCore, State.core, find_put_self, Option.getD_some, List.mem_filter] at he
  have h := he.2
  cases va with
  | none => simp [hs] at h
  | some x =>
    refine ⟨x, rfl, fun ⟨h1, h2⟩ => ?_⟩
    simp [hs, h1, h2] at h

theorem regroupBad_early {w : Word} {c : Cause} (h : regroupBad w = some c) : lateKind c.code = false := by
  unfold regroupBad at h
  simp only at h
  by_cases h2 : (!w.g.pend.isEmpty) = true
  · rw [if_pos h2] at h; cases h; rfl
  · rw [if_neg h2] at h
    by_cases h3 : (!((laneList w.g.live).filter (fun L => 0 < (w.g.txLane L).depth)).isEmpty) = true
    · rw [if_pos h3] at h; cases h; rfl
    · rw [if_neg h3] at h; cases h

end Sys2Proof.Laws
end

