-- ==== Sys2Proof/Laws/Homes.lean ====
section
/-! SUPPORT. What loads, stores and atomics do at their homes, with the caches' part of it. -/

namespace Sys2Proof.Laws

open Sys2Proof.Machine

/-- Caches and records move: memory, requests, workgroups, grids and contexts are as they were. -/
structure Caches (s u : State) : Prop where
  mem    : u.mem = s.mem
  reqs   : u.reqs = s.reqs
  spaces : u.spaces = s.spaces
  sec    : u.sec = s.sec
  wgs    : u.wgs = s.wgs
  grids  : u.grids = s.grids
  queues : u.queues = s.queues
  locks  : u.locks = s.locks

theorem Caches.refl (s : State) : Caches s s := ⟨rfl, rfl, rfl, rfl, rfl, rfl, rfl, rfl⟩
theorem Caches.trans {a b c : State} (h : Caches a b) (k : Caches b c) : Caches a c :=
  ⟨k.mem.trans h.mem, k.reqs.trans h.reqs, k.spaces.trans h.spaces, k.sec.trans h.sec, k.wgs.trans h.wgs, k.grids.trans h.grids, k.queues.trans h.queues, k.locks.trans h.locks⟩
theorem Caches.ite {s x y : State} (p : Prop) [Decidable p] (hx : Caches s x) (hy : Caches s y) : Caches s (if p then x else y) := by
  split
  · exact hx
  · exact hy
theorem Caches.foldl {α : Type} (f : State → α → State) (h : ∀ s x, Caches s (f s x)) (l : List α) (s : State) : Caches s (l.foldl f s) := by
  induction l generalizing s with
  | nil => exact .refl s
  | cons a t ih => exact (h s a).trans (ih (f s a))

theorem caches_spend (s : State) (p m i n : Nat) : Caches s (s.spend p m i n) := by
  unfold State.spend
  split
  · exact .refl s
  · split <;> exact ⟨rfl, rfl, rfl, rfl, rfl, rfl, rfl, rfl⟩
theorem caches_dram (s : State) (p l n : Nat) : Caches s (s.dram p l n) := caches_spend ..
theorem caches_dropLine (s : State) (l : Nat) : Caches s (s.dropLine l) := ⟨rfl, rfl, rfl, rfl, rfl, rfl, rfl, rfl⟩
theorem caches_clear (s : State) (n : Nat) : Caches s (s.clearSector n) := ⟨rfl, rfl, rfl, rfl, rfl, rfl, rfl, rfl⟩
theorem caches_l2Place (s : State) (p l : Nat) : Caches s (s.l2Place p l) := by
  unfold State.l2Place
  dsimp only
  split
  · exact .refl s
  · split
    · exact ⟨rfl, rfl, rfl, rfl, rfl, rfl, rfl, rfl⟩
    · split
      · exact .refl s
      · rename_i v _ _
        exact ((show Caches s { s with free := s.free + 1 } from ⟨rfl, rfl, rfl, rfl, rfl, rfl, rfl, rfl⟩).trans
          ((caches_spend _ p 0 _ _).trans (caches_dropLine _ v.1))).trans ⟨rfl, rfl, rfl, rfl, rfl, rfl, rfl, rfl⟩
theorem caches_l2Sector (s : State) (p n : Nat) (b : Bool) : Caches s (s.l2Sector p n b) := by
  unfold State.l2Sector
  dsimp only
  split
  · exact caches_l2Place ..
  · refine .ite _ (caches_l2Place ..) ?_
    have h : ∀ x : Tbl L2Line, Caches s (({ s.l2Place p (n / 2) with l2 := x } : State).clearSector n) := fun x =>
      (caches_l2Place s p (n / 2)).trans ⟨rfl, rfl, rfl, rfl, rfl, rfl, rfl, rfl⟩
    exact .ite _ ((h _).trans (caches_dram ..)) (h _)
theorem caches_l1Drop (s : State) (c l : Nat) : Caches s (s.l1Drop c l) := by
  unfold State.l1Drop; split <;> exact ⟨rfl, rfl, rfl, rfl, rfl, rfl, rfl, rfl⟩
theorem caches_l1Fill (s : State) (c l : Nat) (x : L1Line) : Caches s (s.l1Fill c l x) := by
  unfold State.l1Fill
  dsimp only
  have up : ∀ u, Caches s u → Caches s (u.updCore c fun k => { k with l1 := Tbl.put k.l1 l x }) := fun u hu => hu.trans ⟨rfl, rfl, rfl, rfl, rfl, rfl, rfl, rfl⟩
  refine up _ (.ite _ (.refl s) ?_)
  split
  · rename_i v _ _
    exact Caches.trans (b := { s with free := s.free + 1 }) ⟨rfl, rfl, rfl, rfl, rfl, rfl, rfl, rfl⟩ (caches_l1Drop _ c v.1)
  · exact .refl s
theorem caches_rdcPlace {s : State} {d p l : Nat} {x : RdcLine × State} (h : s.rdcPlace d p l = some x) : Caches s x.2 := by
  unfold State.rdcPlace at h
  dsimp only at h
  split at h
  · cases h; exact .refl s
  · split at h
    · cases h; exact .refl s
    · split at h
      · cases h
      · cases h; exact ⟨rfl, rfl, rfl, rfl, rfl, rfl, rfl, rfl⟩
theorem caches_rdcFill (s : State) (c p n k : Nat) : Caches s (s.rdcFill c p n k) := by
  unfold State.rdcFill
  dsimp only
  split
  · exact .refl s
  · rename_i h
    obtain ⟨_, _, h⟩ := Option.bind_eq_some_iff.mp h
    exact .trans (caches_rdcPlace h) ⟨rfl, rfl, rfl, rfl, rfl, rfl, rfl, rfl⟩
theorem caches_supply (s : State) (c p n k : Nat) : Caches s (s.supply c p n k).2 := by
  unfold State.supply
  split
  · exact .refl s
  · exact .ite _ ((caches_l2Sector ..).trans (caches_rdcFill ..)) (caches_l2Sector ..)
theorem caches_fetch (s : State) (c p l : Nat) (b : Bool) (n : Nat) : Caches s (s.fetchLine c p l b n) := by
  unfold State.fetchLine
  have h := (caches_supply s c p (2 * l) n).trans (caches_supply _ c p (2 * l + 1) n)
  exact .ite _ (.refl s) (.ite _ h (h.trans (caches_l1Fill ..)))
theorem caches_acquire (s : State) (c : Nat) (sco : Sco) : Caches s (s.acquireL1 c sco) := by
  unfold State.acquireL1 State.l1Clear
  exact .ite _ (.refl s) (.ite _ (.refl s) ⟨rfl, rfl, rfl, rfl, rfl, rfl, rfl, rfl⟩)
theorem caches_l2Count (s : State) (l : Nat) : Caches s (s.l2Count l) := by
  unfold State.l2Count
  split
  · exact .refl s
  · exact .ite _ (.refl s) (.ite _ (caches_dropLine ..) ⟨rfl, rfl, rfl, rfl, rfl, rfl, rfl, rfl⟩)
theorem caches_rdcCount (s : State) (d n : Nat) : Caches s (s.rdcCount d n) := by
  unfold State.rdcCount
  split
  · exact .refl s
  · exact .ite _ (.refl s) (.ite _ ⟨rfl, rfl, rfl, rfl, rfl, rfl, rfl, rfl⟩ ⟨rfl, rfl, rfl, rfl, rfl, rfl, rfl, rfl⟩)
theorem caches_l1Past (s : State) (c l : Nat) : Caches s (s.l1Past c l) := by
  unfold State.l1Past
  split
  · exact .refl s
  · exact ⟨rfl, rfl, rfl, rfl, rfl, rfl, rfl, rfl⟩
theorem caches_useRec (s : State) (n : Nat) : Caches s (s.useRec n) := ⟨rfl, rfl, rfl, rfl, rfl, rfl, rfl, rfl⟩
theorem caches_noteStrong (s : State) (q : Req) (n : Nat) : Caches s (s.noteStrong q n) := by
  unfold State.noteStrong
  split
  · exact .ite _ ⟨rfl, rfl, rfl, rfl, rfl, rfl, rfl, rfl⟩ (.refl s)
  · exact .refl s
theorem caches_readHome (s : State) (p n : Nat) (l : List LaneAcc) : Caches s (s.readHome p n l) := by
  unfold State.readHome
  exact .ite _ (.refl s) (.ite _ (caches_dram ..) (caches_l2Sector ..))
theorem caches_fillNear (s : State) (q : Req) (n : Nat) (b : Bool) : Caches s (s.fillNear q n b) := by
  unfold State.fillNear
  have h : Caches s (if (b || !s.isRemote q.core (n / 2) || q.rct == 1) = true then s else s.rdcFill q.core q.part n (q.rct - 1)) :=
    .ite _ (.refl s) (caches_rdcFill ..)
  exact .ite _ h (h.trans (caches_fetch ..))
theorem caches_countLoad (s : State) (q : Req) (l : Nat) (a b c d : Bool) : Caches s (s.countLoad q l a b c d) := by
  unfold State.countLoad
  have h : ∀ p : Bool, Caches s (if p = true then s.rdcCount (dieOf q.core) l else s) := fun p => .ite _ (caches_rdcCount ..) (.refl s)
  exact .ite _ (h _) (.ite _ (.ite _ ((h _).trans (caches_l2Count ..)) (h _))
    (.ite _ (.ite _ ((h _).trans (caches_dropLine ..)) ((h _).trans ⟨rfl, rfl, rfl, rfl, rfl, rfl, rfl, rfl⟩)) (h _)))
theorem caches_tickRc (s : State) (gs : Nat) : Caches s (s.tickRc gs) := by
  unfold State.tickRc
  split
  · exact .refl s
  · dsimp only
    exact .ite _ ⟨rfl, rfl, rfl, rfl, rfl, rfl, rfl, rfl⟩ ⟨rfl, rfl, rfl, rfl, rfl, rfl, rfl, rfl⟩
theorem caches_putRec (s : State) (n : Nat) (f : Nat → Nat) (r : RelRec) : Caches s (s.putRec n f r) := ⟨rfl, rfl, rfl, rfl, rfl, rfl, rfl, rfl⟩
theorem caches_record (s : State) (q : Req) (n : Nat) (a : Bool) (c : Nat) : Caches s (s.recordSector q n a c) := by
  unfold State.recordSector
  refine .ite _ (caches_clear ..) ?_
  split
  · exact caches_clear ..
  · dsimp only
    have h : ∀ (p : Prop) [Decidable p] (x : Tbl W64), Caches s (if p then State.tickRc { s with wms := x } q.gs else { s with wms := x }) :=
      fun p _ x => .ite _ (Caches.trans (b := { s with wms := x }) ⟨rfl, rfl, rfl, rfl, rfl, rfl, rfl, rfl⟩ (caches_tickRc ..)) ⟨rfl, rfl, rfl, rfl, rfl, rfl, rfl, rfl⟩
    refine .ite _ ?_ (.ite _ (h _ _) ((h _ _).trans ⟨rfl, rfl, rfl, rfl, rfl, rfl, rfl, rfl⟩))
    split
    · exact (h _ _).trans (caches_putRec ..)
    · exact h _ _
theorem caches_l1Update (s : State) (c : Nat) (l : List (Nat × Byte)) : Caches s (s.l1Update c l) := by
  unfold State.l1Update
  refine Caches.foldl _ (fun s x => ?_) _ s
  split
  · exact .refl s
  · exact ⟨rfl, rfl, rfl, rfl, rfl, rfl, rfl, rfl⟩
/-- A write into a spill area changes stacks only. -/
theorem spillHits_spec (s : State) (q : Req) : (s.spillHits q).mem = s.mem ∧ (s.spillHits q).reqs = s.reqs := by
  have h : ∀ (s : State) (spid va : Nat), (s.spillHit spid va).mem = s.mem ∧ (s.spillHit spid va).reqs = s.reqs := by
    intro s spid va
    unfold State.spillHit
    split
    · exact ⟨rfl, rfl⟩
    · dsimp only
      split <;> exact ⟨rfl, rfl⟩
  unfold State.spillHits
  induction q.accs generalizing s with
  | nil => exact ⟨rfl, rfl⟩
  | cons a t ih => exact ⟨(ih _).1.trans (h ..).1, (ih _).2.trans (h ..).2⟩
theorem space_congr {s t : State} (h : t.spaces = s.spaces) (n : Nat) : t.space n = s.space n := by unfold State.space; rw [h]
theorem undo_off {s : State} {spid : Nat} (h : (s.space spid).records = false) (l : Nat) : s.undo spid l = s := by
  unfold State.undo
  simp [h]
/-- A write's part at a sector's home, where nothing is recorded. -/
theorem caches_touch {s : State} {spid : Nat} (h : (s.space spid).records = false) (part : Nat) (b : Bool) (cells : List (Nat × Byte)) (n : Nat) :
    Caches s (s.touchSector spid part b cells n) ∧ (s.touchSector spid part b cells n).groups = s.groups := by
  unfold State.touchSector
  dsimp only
  rw [undo_off h]
  have k : Caches s (if b = true then s.l2Sector part n (!coversSector cells n)
      else if (s.l2Has n || !s.ownMem (n / 2 * 128)) = true then s
      else s.dram part (n / 2) ((cells.filter (fun c => c.1 / 64 == n)).length)) ∧
    (if b = true then s.l2Sector part n (!coversSector cells n)
      else if (s.l2Has n || !s.ownMem (n / 2 * 128)) = true then s
      else s.dram part (n / 2) ((cells.filter (fun c => c.1 / 64 == n)).length)).groups = s.groups := by
    split
    · exact ⟨caches_l2Sector .., (same_l2Sector ..).2⟩
    · split
      · exact ⟨.refl s, rfl⟩
      · exact ⟨caches_dram .., (same_spend ..).2⟩
  generalize (if b = true then s.l2Sector part n (!coversSector cells n)
      else if (s.l2Has n || !s.ownMem (n / 2 * 128)) = true then s
      else s.dram part (n / 2) ((cells.filter (fun c => c.1 / 64 == n)).length)) = u at k ⊢
  split
  · exact k
  · exact ⟨k.1.trans ⟨rfl, rfl, rfl, rfl, rfl, rfl, rfl, rfl⟩, k.2⟩
/-- What a write at a home leaves, in a context that neither records nor is re-executed. -/
structure Wrote (s u : State) (cells : List (Nat × Byte)) : Prop where
  mem    : u.mem = cells.foldl (fun m c => Tbl.set 0#8 m c.1 c.2) s.mem
  reqs   : u.reqs = s.reqs
  spaces : u.spaces = s.spaces
  sec    : u.sec = s.sec
  wgs    : u.wgs = s.wgs
  grids  : u.grids = s.grids
  queues : u.queues = s.queues
  groups : u.groups = s.groups
  locks  : u.locks = s.locks
theorem homeWrite_spec {s : State} {spid : Nat} (h : (s.space spid).records = false) (hr : (s.space spid).replay = none) (part : Nat) (b : Bool)
    (cells : List (Nat × Byte)) : Wrote s (s.homeWrite spid part b cells) cells := by
  have hre : (s.space spid).reruns = false := by unfold Space.reruns; rw [hr]; rfl
  have key : ∀ (l : List Nat) (u : State), u.spaces = s.spaces → Caches u (l.foldl (fun s n => s.touchSector spid part b cells n) u) ∧
      (l.foldl (fun s n => s.touchSector spid part b cells n) u).groups = u.groups := by
    intro l
    induction l with
    | nil => exact fun u _ => ⟨.refl u, rfl⟩
    | cons n l ih =>
      intro u hu
      obtain ⟨k1, k2⟩ := caches_touch (by rw [space_congr hu]; exact h) part b cells n
      obtain ⟨k3, k4⟩ := ih _ (k1.spaces.trans hu)
      exact ⟨k1.trans k3, k4.trans k2⟩
  obtain ⟨k, k2⟩ := key ((cells.map (fun c => c.1 / 64)).eraseDups) s rfl
  unfold State.homeWrite
  simp only [hre, Bool.false_eq_true, if_false]
  exact ⟨congrArg (cells.foldl (fun m c => Tbl.set 0#8 m c.1 c.2)) k.mem, k.reqs, k.spaces, k.sec, k.wgs, k.grids, k.queues, k2, k.locks⟩
/-- Nothing of the queue table is spoiled where nothing of it is written. -/
theorem spoil_none {s : State} {cells : List (Nat × Byte)} (h : ∀ c ∈ cells, s.barred c.1 = false) : s.spoil cells = s := by
  unfold State.spoil
  rw [List.filter_eq_nil_iff.mpr (fun c hc => by simp [h c hc])]
  rfl
theorem blurAll_nil (s : State) : s.blurAll [] = s := rfl
theorem clashes_none {s : State} {q : Req} {l : List LaneAcc} (h : ∀ a ∈ l, s.overlap q a = none) : s.clashes q l = [] := by
  unfold State.clashes
  split
  · rfl
  · rw [List.filterMap_eq_nil_iff]
    exact fun a ha => h a (List.mem_filter.mp ha).1
theorem get_cells (cells : List (Nat × Byte)) : ∀ (m : Memory) (pa : Nat),
    Tbl.get 0#8 (cells.foldl (fun m c => Tbl.set 0#8 m c.1 c.2) m) pa =
      ((cells.reverse.find? (fun c => c.1 == pa)).map (·.2)).getD (Tbl.get 0#8 m pa) := by
  induction cells with
  | nil => intro m pa; rfl
  | cons c t ih =>
    intro m pa
    rw [List.foldl_cons, ih, List.reverse_cons, List.find?_append]
    cases hf : t.reverse.find? (fun c => c.1 == pa) with
    | some x => simp
    | none =>
      rw [get_set]
      by_cases hc : c.1 = pa
      · subst hc; simp
      · have : ¬ pa = c.1 := fun e => hc e.symm
        simp [hc, this]
theorem arriveLoad_plain {s : State} {rq n : Nat} {q : Req} (h : ∀ a ∈ q.accs, s.overlap q a = none) : s.arriveLoad rq q n = s.loadSector rq q n := by
  unfold State.arriveLoad
  split
  · rfl
  · rename_i g _
    have e : ∀ l : List LaneAcc, (∀ a ∈ l, a ∈ q.accs) → l.filter (fun a => s.mixed q g a) = [] := fun l hl => by
      rw [List.filter_eq_nil_iff]; intro a ha; unfold State.mixed; simp [h a (hl a ha)]
    dsimp only
    rw [e _ fun a ha => (List.mem_filter.mp ha).1]
    rfl
theorem access_load {s : State} {rq : Nat} {q : Req} {h : Home} {l : List Home} {d : Reg} {sz : Sz} (hq : Tbl.find s.reqs rq = some q)
    (hk : q.kind = .load d sz) (hst : q.stage = .mesh ∨ q.stage = .atHome) (hh : q.homesLeft = h :: l) (hm : s.mayPerform rq q h = true)
    (hs : ∀ n, h = .sector n → q.stage = .atHome) (ho' : ∀ a ∈ q.accs, s.overlap q a = none) :
    exec (.homeSliceAccess rq) s = .next (match h with | .bank c o => s.loadBank rq q c o | .sector n => s.loadSector rq q n) := by
  have ha : q.isAtomic = false := by unfold Req.isAtomic; rw [hk]
  have ho : s.serialOwner q = none := by unfold State.serialOwner; rw [hk]
  have hn : ¬ (q.stage ≠ .mesh ∧ q.stage ≠ .atHome) := by rcases hst with e | e <;> simp [e]
  show execHomeSliceAccess rq s = _
  unfold execHomeSliceAccess
  simp only [hq, ho, Option.isSome_none, Bool.false_eq_true, if_false, if_neg hn, hh]
  cases h with
  | bank c o =>
    rw [List.find?_cons_of_pos (by simp [hm])]
    simp only [State.performAt, hm, ha, hk, Bool.not_true, Bool.false_and, Bool.or_self, Bool.false_eq_true, if_false]
  | sector n =>
    rw [List.find?_cons_of_pos (by simp [hm, hs n rfl])]
    simp only [State.performAt, hm, ha, hk, Bool.not_true, Bool.false_and, Bool.or_self, Bool.false_eq_true, if_false]
    rw [arriveLoad_plain ho']

theorem logForeign_own {s : State} {q : Req} {a : LaneAcc} (h : s.ownMem a.pa = true) : s.logForeign q a = s := by
  unfold State.logForeign; rw [if_pos h]

theorem foldl_same {α β : Type} (f : β → α → β) (l : List α) (b : β) (h : ∀ a ∈ l, f b a = b) : l.foldl f b = b := by
  induction l with
  | nil => rfl
  | cons x t ih => rw [List.foldl_cons, h x (List.mem_cons_self ..)]; exact ih fun a ha => h a (List.mem_cons_of_mem _ ha)

theorem foldl_app {α β γ : Type} (f : α → β) (F : List β × γ → α → List β × γ) (r : List β × γ) (l : List α)
    (h : ∀ r, ∀ a ∈ l, F r a = (r.1 ++ [f a], r.2)) : l.foldl F r = (r.1 ++ l.map f, r.2) := by
  induction l generalizing r with
  | nil => simp
  | cons x t ih => rw [List.foldl_cons, h r x (List.mem_cons_self ..), ih _ fun r a ha => h r a (List.mem_cons_of_mem _ ha)]; simp

theorem find_single {α : Type} (l : List α) (p : α → Bool) (a : α) (ha : a ∈ l) (hp : p a = true) (hu : ∀ b ∈ l, p b = true → b = a) : l.find? p = some a := by
  cases hf : l.find? p with
  | none => exact absurd hp (by simpa using List.find?_eq_none.mp hf a ha)
  | some b => rw [hu b (List.mem_of_find?_eq_some hf) (List.find?_some hf)]

theorem loadSector_spec {s : State} {rq n : Nat} {q : Req} (hq : Tbl.find s.reqs rq = some q)
    (hu : ∀ a ∈ q.accs, ∀ b ∈ q.accs, a.lane = b.lane → a.part = b.part → a = b) (htx : ∀ a ∈ q.accs, a.tx = false) (hr : s.copyAt q n = none)
    (hov : ∀ a ∈ q.accs, s.overlap q a = none) (hown : ∀ a ∈ q.accs, a.home = .sector n → s.ownMem a.pa = true) (hmine : ∃ a ∈ q.accs, a.home = .sector n ∧ a.perf = false) :
    ∃ p, Tbl.find (s.loadSector rq q n).reqs rq = some p ∧ (s.loadSector rq q n).mem = s.mem ∧
      p.accs = q.accs.map (fun a => if a.home = .sector n ∧ a.perf = false then { a with
        got := bytesNum (s.rdBytes a.pa a.len), err := if s.poisoned a.pa a.len then 0x28 else 0, perf := true } else a) ∧
      p.wms = q.wms ++ [(n, Tbl.get 0#64 s.wms n)] ∧ p.stage = if p.accs.all (·.perf) then .answered else q.stage := by
  have hm1 : ∀ a ∈ q.accs.filter (fun a => a.home == .sector n && !a.perf), a ∈ q.accs ∧ a.home = .sector n ∧ a.perf = false := by
    intro a ha
    have := List.mem_filter.mp ha
    simpa using this
  have hne : q.accs.filter (fun a => a.home == .sector n && !a.perf) ≠ [] := by
    obtain ⟨a, ha, h1, h2⟩ := hmine
    exact List.ne_nil_of_mem (List.mem_filter.mpr ⟨ha, by simp [h1, h2]⟩)
  unfold State.loadSector
  simp only [hr, Option.isSome_none, Bool.and_false, Bool.not_false]
  generalize hM : q.accs.filter (fun a => a.home == .sector n && !a.perf) = M at hm1 hne ⊢
  have hall : M.filter (fun _ => true) = M := List.filter_eq_self.mpr fun _ _ => rfl
  have hMtx : M.any (·.tx) = false := by
    rw [List.any_eq_false]; intro a ha; simp [htx a (hm1 a ha).1]
  simp only [hall, clashes_none fun a ha => hov a (hm1 a ha).1, blurAll_nil]
  rw [foldl_app (fun a => ({ a with got := bytesNum (s.rdBytes a.pa a.len), err := if s.poisoned a.pa a.len then 0x28 else 0 } : LaneAcc)) _ _ M
    (by
      intro r a haM
      have ha := hm1 a haM
      have hb : s.homeBytes q a = s.rdBytes a.pa a.len := by unfold State.homeBytes; simp [hown a ha.1 ha.2.1]
      simp [htx a ha.1, hb])]
  simp only [hMtx, Bool.false_eq_true, if_false, List.nil_append]
  have hE : M.isEmpty = false := by cases M with | nil => exact absurd rfl hne | cons => rfl
  simp only [hE, Bool.false_eq_true, if_false]
  rw [foldl_same (fun s a => s.logForeign q a) M s fun a ha => logForeign_own (hown a (hm1 a ha).1 (hm1 a ha).2.1)]
  have hacc : (q.accs.map fun a => if (a.home == .sector n && !a.perf) = true then
      { (((M.map (fun a => { a with got := bytesNum (s.rdBytes a.pa a.len), err := if s.poisoned a.pa a.len then 0x28 else 0 })).find? (fun x =>
        x.lane == a.lane && x.part == a.part)).getD a) with perf := true } else a) =
      q.accs.map (fun a => if a.home = .sector n ∧ a.perf = false then { a with
        got := bytesNum (s.rdBytes a.pa a.len), err := if s.poisoned a.pa a.len then 0x28 else 0, perf := true } else a) := by
    apply List.map_congr_left
    intro a ha
    by_cases hc : a.home = .sector n ∧ a.perf = false
    · have haM : a ∈ M := by rw [← hM]; exact List.mem_filter.mpr ⟨ha, by simp [hc.1, hc.2]⟩
      rw [if_pos (by simp [hc.1, hc.2]), if_pos hc, find_single (a := { a with got := bytesNum (s.rdBytes a.pa a.len), err := if s.poisoned a.pa a.len then 0x28 else 0 })]
      · rfl
      · exact List.mem_map.mpr ⟨a, haM, rfl⟩
      · simp
      · intro b hb hp
        obtain ⟨c, hcM, rfl⟩ := List.mem_map.mp hb
        simp only [Bool.and_eq_true, beq_iff_eq] at hp
        rw [hu c (hm1 c hcM).1 a ha hp.1 hp.2]
    · rw [if_neg (by simpa using hc), if_neg hc]
  rw [hacc]
  generalize q.accs.map (fun a => if a.home = .sector n ∧ a.perf = false then ({ a with
        got := bytesNum (s.rdBytes a.pa a.len), err := if s.poisoned a.pa a.len then 0x28 else 0, perf := true } : LaneAcc) else a) = A
  have fin : ∀ (F : Req → Req) (u : State), Caches s u → (F q).accs = A → (F q).wms = q.wms ++ [(n, Tbl.get 0#64 s.wms n)] →
      (F q).stage = (if A.all (·.perf) then .answered else q.stage) →
      ∃ p, Tbl.find (u.updReq rq F).reqs rq = some p ∧ (u.updReq rq F).mem = s.mem ∧ p.accs = A ∧ p.wms = q.wms ++ [(n, Tbl.get 0#64 s.wms n)] ∧
        p.stage = if p.accs.all (·.perf) then .answered else q.stage := by
    intro F u hu h1 h2 h3
    refine ⟨F q, ?_, hu.mem, h1, h2, by rw [h1]; exact h3⟩
    unfold State.updReq
    simp only [find_upd_self, hu.reqs, hq, Option.map_some]
  refine fin _ _ ?_ rfl rfl rfl
  have a1 := caches_readHome s q.part n M
  have a2 := fun (p : Prop) [Decidable p] => Caches.ite p (a1.trans (caches_fillNear _ q n false)) a1
  have a3 := fun (p : Prop) [Decidable p] (a c d e : Bool) => (a2 p).trans (caches_countLoad _ q (n / 2) a c d e)
  have a4 := fun (p r : Prop) [Decidable p] [Decidable r] (a c d e : Bool) => Caches.ite p ((a3 r a c d e).trans (caches_l1Past _ q.core (n / 2))) (a3 r a c d e)
  have a5 := fun (p r u : Prop) [Decidable p] [Decidable r] [Decidable u] (a c d e : Bool) =>
    Caches.ite p ((a4 r u a c d e).trans (caches_acquire _ q.core q.sco)) (a4 r u a c d e)
  exact .ite _ ((a5 ..).trans (caches_useRec ..)) (a5 ..)
theorem loadBank_spec {s : State} {rq c o : Nat} {q : Req} (hq : Tbl.find s.reqs rq = some q) (hr : (s.space q.spid).replay = none)
    (hs : (s.core c).subs = []) :
    ∃ p, Tbl.find (s.loadBank rq q c o).reqs rq = some p ∧ (s.loadBank rq q c o).mem = s.mem ∧ (q.acquires = false → (s.loadBank rq q c o).cores = s.cores) ∧
      p.accs = q.accs.map (fun a => if a.home = .bank c o ∧ a.perf = false then { a with
        got := bytesNum (s.lsBytes c a.pa a.len), err := if s.lsBad c a.pa a.len then 0x28 else 0, perf := true } else a) ∧
      p.stage = if p.accs.all (·.perf) then .answered else q.stage := by
  have hre : (s.space q.spid).reruns = false := by unfold Space.reruns; rw [hr]; rfl
  have h1 : ∀ x, s.subGate q c x = .free := by intro x; unfold State.subGate; simp [hre]
  have h2 : ∀ x, s.logSubRead q c x = s := by
    intro x; unfold State.logSubRead
    rw [hs]
    cases Tbl.find s.groups q.gs <;> rfl
  have h3 : ∀ x n, s.broken c x n = false := by intro x n; unfold State.broken; rw [hs]; rfl
  have hg : ∀ M : List LaneAcc, M.map (fun a => s.subGate q c a.pa) = M.map fun _ => Gate.free := fun M => List.map_congr_left fun a _ => h1 a.pa
  have hno : ∀ M : List LaneAcc, (M.map fun _ => Gate.free).contains .hold = false := by
    intro M; induction M with
    | nil => rfl
    | cons a t ih => simp
  unfold State.loadBank
  simp only [hg, hno, Bool.false_eq_true, if_false]
  rw [foldl_same _ _ s fun a ha => by obtain ⟨_, _, rfl⟩ := List.mem_map.mp ha; rfl, foldl_same _ _ s fun a _ => h2 a.pa]
  simp only [h3, Bool.false_eq_true, if_false]
  have fin : ∀ (u : State), Caches s u → (q.acquires = false → u.cores = s.cores) → ∀ F : Req → Req,
      Tbl.find (u.updReq rq F).reqs rq = some (F q) ∧ (u.updReq rq F).mem = s.mem ∧ (q.acquires = false → (u.updReq rq F).cores = s.cores) := by
    intro u hu hc F
    refine ⟨?_, hu.mem, hc⟩
    unfold State.updReq
    simp only [find_upd_self, hu.reqs, hq, Option.map_some]
  have cor : ∀ b : Bool, q.acquires = false → (if (q.acquires && b) = true then s.acquireL1 q.core q.sco else s).cores = s.cores := fun b h => by
    rw [h]; rfl
  obtain ⟨f1, f2, f3⟩ := fin _ (.ite _ (caches_acquire s q.core q.sco) (.refl s)) (cor _) _
  exact ⟨_, f1, f2, f3, List.map_congr_left fun a _ => by simp only [Bool.and_eq_true, beq_iff_eq, Bool.not_eq_true'], rfl⟩

theorem reached_plain {s : State} {q : Req} (h : q.modifies = false) : s.reached q = s := by
  unfold State.reached; rw [h]

theorem countCheck_off {s : State} {spid : Nat} (h : (s.space spid).log = 0) (v : Verdict) : s.countCheck spid v = s := by
  unfold State.countCheck; simp [h]

/-- A write that stands at its home, or at the owned copy, performs there. -/
theorem access_write {s : State} {rq : Nat} {q : Req} {h : Home} {l : List Home} (hq : Tbl.find s.reqs rq = some q)
    (ho : s.serialOwner q = none) (hst : q.stage = .mesh ∨ q.stage = .atHome) (hh : q.homesLeft = h :: l) (hm : s.mayPerform rq q h = true)
    (hs : ∀ n, h = .sector n → q.stage = .atHome ∨ s.owns q.core (n / 2) = true)
    (hc : ∀ n, h = .sector n → (q.isAtomic && (q.memAt.map (s.canOwn q)).getD false && !s.owns q.core (n / 2)) = false) :
    exec (.homeSliceAccess rq) s = .next (s.performAt rq q h) := by
  have hn : ¬ (q.stage ≠ .mesh ∧ q.stage ≠ .atHome) := by rcases hst with e | e <;> simp [e]
  show execHomeSliceAccess rq s = _
  unfold execHomeSliceAccess
  simp only [hq, ho, Option.isSome_none, Bool.false_eq_true, if_false, if_neg hn, hh]
  cases h with
  | bank c o => rw [List.find?_cons_of_pos (by simp [hm])]
  | sector n =>
    rw [List.find?_cons_of_pos (by rcases hs n rfl with e | e <;> simp [hm, e])]
    simp only [hc n rfl, Bool.false_eq_true, if_false]

theorem performAt_store {s : State} {rq n : Nat} {q : Req} (hk : q.kind = .store) (hm : s.mayPerform rq q (.sector n) = true) :
    s.performAt rq q (.sector n) = (if ((Tbl.find (s.writeSector rq q).reqs rq).map fun x => x.stage == .performed).getD false then
      (s.writeSector rq q).rings q else s.writeSector rq q) := by
  have ha : q.isAtomic = false := by unfold Req.isAtomic; rw [hk]
  unfold State.performAt
  simp only [hm, ha, hk, Bool.not_true, Bool.false_and, Bool.or_self, Bool.false_eq_true, if_false]

theorem performAt_bank {s : State} {rq c o : Nat} {q : Req} (hk : q.kind = .store) (hm : s.mayPerform rq q (.bank c o) = true) :
    s.performAt rq q (.bank c o) = s.writeBank rq q c o := by
  have ha : q.isAtomic = false := by unfold Req.isAtomic; rw [hk]
  unfold State.performAt
  simp only [hm, ha, hk, Bool.not_true, Bool.false_and, Bool.or_self, Bool.false_eq_true, if_false]

theorem performAt_atom {s : State} {rq n : Nat} {q : Req} {d : Reg} {sz : Sz} {op : AOp} (hk : q.kind = .atom d sz op)
    (hm : s.mayPerform rq q (.sector n) = true) (ht : s.atomTurn q = true) : s.performAt rq q (.sector n) = (s.reached q).writeSector rq q := by
  have ha : q.isAtomic = true := by unfold Req.isAtomic; rw [hk]
  unfold State.performAt
  simp only [hm, ha, hk, ht, Bool.not_true, Bool.and_false, Bool.or_self, Bool.false_eq_true, if_false]

/-- A store that names no doorbell rings none. -/
theorem rings_none {s : State} {q : Req} (h : ∀ a ∈ q.accs, a.pa.testBit 51 = false) : s.rings q = s := by
  unfold State.rings
  dsimp only
  rw [List.filter_eq_nil_iff.mpr fun a ha => by simp only [h a ha, Bool.false_and, Bool.false_eq_true, not_false_eq_true]]
  exact List.foldl_nil

theorem doWrite_store {s : State} {rq : Nat} {q : Req} (hq : Tbl.find s.reqs rq = some q) (hk : q.kind = .store) (h : (s.space q.spid).records = false)
    (hr : (s.space q.spid).replay = none) (hl : (s.space q.spid).log = 0) (ho : ∀ a ∈ q.accs, s.overlap q a = none)
    (hb : ∀ c ∈ accCells q.accs, s.barred c.1 = false) (v : Verdict) :
    (∀ pa, (s.doWrite rq q v).byte pa = (((accCells q.accs).reverse.find? (fun c => c.1 == pa)).map (·.2)).getD (s.byte pa)) ∧
      Tbl.find (s.doWrite rq q v).reqs rq = some { q with stage := .performed, accs := q.accs.map fun a => { a with perf := true } } := by
  generalize hP : ({ q with stage := .performed, accs := q.accs.map fun a => { a with perf := true } } : Req) = P
  have e := homeWrite_spec h hr q.part (q.accs.any (!·.unc)) (accCells q.accs)
  unfold State.doWrite
  simp only [hk, countCheck_off hl, clashes_none ho, blurAll_nil, ite_self]
  generalize s.homeWrite q.spid q.part (q.accs.any (!·.unc)) (accCells q.accs) = s1 at e ⊢
  rw [spoil_none (s := s1) fun c hc => by unfold State.barred; rw [e.sec, e.queues]; exact hb c hc]
  have c := ((caches_record s1 q q.sector false (coverOf q.accs q.sector)).trans (caches_l1Update _ q.core (accCells q.accs))).trans
    (caches_noteStrong _ q q.sector)
  generalize (((s1.recordSector q q.sector false (coverOf q.accs q.sector)).l1Update q.core (accCells q.accs)).noteStrong q q.sector) = s3 at c ⊢
  refine ⟨fun pa => ?_, ?_⟩
  · show Tbl.get 0#8 s3.mem pa = _
    rw [c.mem, e.mem]; exact get_cells _ _ _
  · unfold State.updReq
    simp only [find_upd_self, c.reqs, e.reqs, hq, Option.map_some]
    exact congrArg _ hP

/-- A write whose checks pass performs or is returned. -/
theorem writeSector_go {s : State} {rq : Nat} {q : Req} {g : Group} (hg : Tbl.find s.groups q.gs = some g) (hk : q.kind = .store)
    (hh : s.holds.filter (fun h => h.2.1 != rq) = s.holds)
    (ha : ∀ a ∈ q.accs, s.mixed q g a = false ∧ (s.poisoned a.pa a.len = true → 4 ≤ a.len)) :
    s.writeSector rq q = match s.homeCheck q g q.sector (q.ord != .weak) with
      | .back => s.returnWrite rq q q.sector
      | .go v => if s.raceBars rq q g then s else (s.doWrite rq q v).spillHits q := by
  have h1 : q.accs.filter (fun a => s.mixed q g a) = [] := by
    rw [List.filter_eq_nil_iff]; intro a h; simp [(ha a h).1]
  have h2 : q.accs.filter (fun a => s.poisoned a.pa a.len && decide (a.len < 4)) = [] := by
    rw [List.filter_eq_nil_iff]; intro a h
    cases hp : s.poisoned a.pa a.len with
    | false => simp
    | true => have := (ha a h).2 hp; simp; omega
  unfold State.writeSector
  rw [hh]
  show (match Tbl.find s.groups q.gs with | none => _ | some g => _) = _
  rw [hg]
  simp only [hk]
  rw [h1, h2]
  rfl
/-- Local store, memory and requests are as they were. -/
def Banks (s u : State) : Prop := u.mem = s.mem ∧ u.reqs = s.reqs ∧ ∀ c x, u.lsByte c x = s.lsByte c x
theorem Banks.refl (s : State) : Banks s s := ⟨rfl, rfl, fun _ _ => rfl⟩
theorem Banks.trans {a b c : State} (h : Banks a b) (k : Banks b c) : Banks a c :=
  ⟨k.1.trans h.1, k.2.1.trans h.2.1, fun x y => (k.2.2 x y).trans (h.2.2 x y)⟩
theorem banks_setLsWm (s : State) (c n : Nat) (x : BitVec 16) : Banks s (s.setLsWm c n x) := by
  refine ⟨rfl, rfl, fun k y => ?_⟩
  unfold State.setLsWm State.lsByte State.core
  simp only [find_upd]
  split
  · next h => subst h; cases Tbl.find s.cores k <;> rfl
  · rfl
theorem byte_lsPut (s : State) (c : Nat) (cells : List (Nat × Byte)) (x : Nat) :
    (s.lsPut c cells).lsByte c x = ((cells.reverse.find? (fun e => e.1 == x)).map (·.2)).getD (s.lsByte c x) := by
  unfold State.lsPut State.lsByte State.updCore State.core
  simp only [find_put_self, Option.getD_some]
  exact get_cells _ _ _
theorem published_none {s : State} {c : Nat} (h : (s.core c).pubs = []) (n : Nat) : s.published c n = false := by
  unfold State.published; rw [h]; rfl
theorem bankGo_store {s : State} {rq c o : Nat} {q : Req} {weak : Bool} (hq : Tbl.find s.reqs rq = some q) (hk : q.kind = .store)
    (hp : (s.core c).pubs = []) (hh : q.head = false) (segs : List (Nat × Nat)) :
    (s.bankGo rq q c o false segs weak []).mem = s.mem ∧
    (∀ x, (s.bankGo rq q c o false segs weak []).lsByte c x = (((accCells q.accs).reverse.find? (fun e => e.1 == x)).map (·.2)).getD (s.lsByte c x)) ∧
    ∃ p, Tbl.find (s.bankGo rq q c o false segs weak []).reqs rq = some p ∧ p.stage = .performed ∧ ∀ a ∈ p.accs, a.perf = true := by
  have hw : s.lsWrite c [.own q.gs] (accCells q.accs) = some (s.lsPut c (accCells q.accs)) := by
    unfold State.lsWrite
    have : (segsOf (accCells q.accs)).filter (s.published c) = [] := by
      rw [List.filter_eq_nil_iff]; intro a _; simp [published_none hp]
    rw [this]; rfl
  unfold State.bankGo
  simp only [List.foldl_nil, Bool.false_eq_true, if_false, hw, hh, Bool.false_and]
  have hb : ∀ (F : State → Nat × Nat → State), (∀ u x, Banks u (F u x)) → ∀ (l : List (Nat × Nat)) u, Banks u (l.foldl F u) := by
    intro F hF l
    induction l with
    | nil => exact fun u => .refl u
    | cons a t ih => exact fun u => (hF u a).trans (ih _)
  have fin : ∀ (u : State), Banks (s.lsPut c (accCells q.accs)) u → ∀ F : Req → Req, (F q).stage = .performed → (∀ a ∈ (F q).accs, a.perf = true) →
      (u.updReq rq F).mem = s.mem ∧ (∀ x, (u.updReq rq F).lsByte c x = (((accCells q.accs).reverse.find? (fun e => e.1 == x)).map (·.2)).getD (s.lsByte c x)) ∧
      ∃ p, Tbl.find (u.updReq rq F).reqs rq = some p ∧ p.stage = .performed ∧ ∀ a ∈ p.accs, a.perf = true := by
    intro u hu F h1 h2
    refine ⟨hu.1, fun x => (hu.2.2 c x).trans (byte_lsPut ..), F q, ?_, h1, h2⟩
    unfold State.updReq
    simp only [find_upd_self, hu.2.1]
    show (Tbl.find s.reqs rq).map F = _
    rw [hq]; rfl
  refine fin _ (hb _ ?_ _ _) _ ?_ ?_
  · intro u x
    split <;> exact banks_setLsWm ..
  · simp only [hk]
  · intro a ha
    obtain ⟨b, _, rfl⟩ := List.mem_map.mp ha
    rfl
theorem writeBank_store {s : State} {rq c o : Nat} {q : Req} {g : Group} (hg : Tbl.find s.groups q.gs = some g) (hk : q.kind = .store)
    (hm : q.sup = true ∨ q.mode = 0#2) (hb : ∀ a ∈ q.accs, s.broken c a.pa a.len = false) (hd : (s.core c).bad = []) (hr : s.raceBars rq q g = false) :
    ∃ segs weak, s.writeBank rq q c o = s.bankGo rq q c o false segs weak [] := by
  have h1 : q.accs.filter (fun a => s.broken c a.pa a.len) = [] := by
    rw [List.filter_eq_nil_iff]; intro a h; simp [hb a h]
  have h2 : q.accs.filter (fun a => s.lsBadPart c (accCells [a])) = [] := by
    rw [List.filter_eq_nil_iff]; intro a _; unfold State.lsBadPart; rw [hd]; simp
  have h3 : s.bankVerdicts q g c o = [] := by
    unfold State.bankVerdicts Req.lsChecked
    rcases hm with h | h <;> simp [h]
  unfold State.writeBank
  simp only [hg, hk, Bool.false_eq_true, if_false, h1, h2, h3, hr, List.isEmpty_nil, Bool.not_true, List.filter_nil, List.map_nil]
  exact ⟨_, _, rfl⟩
theorem spidOf_same {s u : State} (h : u.wgs = s.wgs) (k : u.grids = s.grids) (g : Group) : u.spidOf g = s.spidOf g := by
  unfold State.spidOf State.gridOf; rw [h, k]
theorem atomTurn_free {s : State} {q : Req} {g : Group} (hg : Tbl.find s.groups q.gs = some g) (hr : (s.space (s.spidOf g)).replay = none) :
    s.atomTurn q = true := by
  unfold State.atomTurn
  simp only [hg]
  rw [List.all_eq_true]
  intro a _
  rw [gate_free hr]
theorem atomLanes_one {s : State} {put : State → List (Nat × Byte) → State} {q : Req} {g : Group} {a : LaneAcc}
    (hg : Tbl.find s.groups q.gs = some g) (hr : (s.space (s.spidOf g)).replay = none) (hrec : (s.space (s.spidOf g)).records = false)
    (hp : ∀ c, c = accCells [{ a with data := BitVec.ofNat 128 (q.newVal a (s.placeVal a)) }] → (put s c).spaces = s.spaces ∧ (put s c).spidOf g = s.spidOf g) (ha : q.accs = [a]) :
    s.atomLanes put q = (put s (accCells [{ a with data := BitVec.ofNat 128 (q.newVal a (s.placeVal a)) }]),
      [{ a with got := BitVec.ofNat 128 (s.placeVal a), perf := true }]) := by
  have ho : s.laneOrder q.accs = (q.accs, s) := by
    unfold State.laneOrder
    rw [ha, if_pos (by simp [List.eraseDups_cons])]
  have ht : s.atomTake q a = (s.placeVal a, s) := by
    unfold State.atomTake
    simp only [hg, gate_free hr]
  unfold State.atomLanes
  rw [ho, ha]
  simp only [List.foldl_cons, List.foldl_nil, List.nil_append]
  unfold State.atomLane
  simp only [ht]
  generalize hc : accCells [{ a with data := BitVec.ofNat 128 (q.newVal a (s.placeVal a)) }] = C
  obtain ⟨p2, p3⟩ := hp C hc.symm
  have hl : ∀ k l r n v, (put s C).logGroup g k l r n v = put s C := by
    intro k l r n v
    unfold State.logGroup
    rw [p3, logEvent_off]
    rw [space_congr p2]; exact hrec
  simp only [hg, hl]
theorem doWrite_atom {s : State} {rq : Nat} {q : Req} {g : Group} {a : LaneAcc} {d : Reg} {sz : Sz} {op : AOp} {pa : Nat} (hq : Tbl.find s.reqs rq = some q)
    (hk : q.kind = .atom d sz op) (h : (s.space q.spid).records = false) (hr : (s.space q.spid).replay = none) (hl : (s.space q.spid).log = 0)
    (hg : Tbl.find s.groups q.gs = some g) (hgr : (s.space (s.spidOf g)).replay = none) (hgc : (s.space (s.spidOf g)).records = false)
    (ha : q.accs = [a]) (hp : a.locs = [.mem pa]) (ho : ∀ a ∈ q.accs, s.overlap q a = none)
    (hb : ∀ e ∈ cellsAt pa (toBytes a.len (q.newVal a (s.rd pa a.len) % 2 ^ 128)), s.barred e.1 = false) (v : Verdict) :
    (∀ x, (s.doWrite rq q v).byte x = (((cellsAt pa (toBytes a.len (q.newVal a (s.rd pa a.len) % 2 ^ 128))).reverse.find? (fun c => c.1 == x)).map (·.2)).getD (s.byte x)) ∧
      ∃ p, Tbl.find (s.doWrite rq q v).reqs rq = some p ∧ p.stage = .answered ∧ p.accs = [{ a with got := BitVec.ofNat 128 (s.rd pa a.len), perf := true }] := by
  have hold : s.placeVal a = s.rd pa a.len := by unfold State.placeVal State.rd; rw [hp]; simp
  have hc : ∀ n, accCells [{ a with data := BitVec.ofNat 128 n }] = cellsAt pa (toBytes a.len (n % 2 ^ 128)) := by
    intro n
    unfold accCells
    simp [hp, Loc.pa, List.range_succ]
  have put : ∀ c, (∀ e ∈ c, s.barred e.1 = false) → (s.homeWrite q.spid q.part (q.accs.any (!·.unc)) c).spoil c = s.homeWrite q.spid q.part (q.accs.any (!·.unc)) c := by
    intro c hc
    have e := homeWrite_spec h hr q.part (q.accs.any (!·.unc)) c
    exact spoil_none fun x hx => by unfold State.barred; rw [e.sec, e.queues]; exact hc x hx
  unfold State.doWrite
  simp only [hk, countCheck_off hl, clashes_none ho, blurAll_nil, ite_self]
  rw [atomLanes_one hg hgr hgc (fun c hcc => by
    rw [hold, hc] at hcc
    have e := homeWrite_spec h hr q.part (q.accs.any (!·.unc)) c
    rw [put c (by rw [hcc]; exact hb)]
    exact ⟨e.spaces, spidOf_same e.wgs e.grids g⟩) ha, hold, hc]
  have e := homeWrite_spec h hr q.part (q.accs.any (!·.unc)) (cellsAt pa (toBytes a.len (q.newVal a (s.rd pa a.len) % 2 ^ 128)))
  rw [put _ hb]
  generalize cellsAt pa (toBytes a.len (q.newVal a (s.rd pa a.len) % 2 ^ 128)) = C at e ⊢
  dsimp only
  generalize s.homeWrite q.spid q.part (q.accs.any (!·.unc)) C = s1 at e ⊢
  have c := ((caches_record s1 q q.sector true (coverOf q.accs q.sector)).trans (caches_l1Drop _ q.core (q.sector / 2))).trans
    (caches_noteStrong _ q q.sector)
  have c2 := Caches.ite (q.acquires = true) (c.trans (caches_acquire _ q.core q.sco)) c
  have fin : ∀ (u : State), Caches s1 u → ∀ F : Req → Req, (F q).stage = .answered → (F q).accs = [{ a with got := BitVec.ofNat 128 (s.rd pa a.len), perf := true }] →
      (∀ x, (u.updReq rq F).byte x = ((C.reverse.find? (fun c => c.1 == x)).map (·.2)).getD (s.byte x)) ∧
      ∃ p, Tbl.find (u.updReq rq F).reqs rq = some p ∧ p.stage = .answered ∧ p.accs = [{ a with got := BitVec.ofNat 128 (s.rd pa a.len), perf := true }] := by
    intro u hu F h1 h2
    refine ⟨fun x => ?_, F q, ?_, h1, h2⟩
    · show Tbl.get 0#8 u.mem x = _
      rw [hu.mem, e.mem]; exact get_cells _ _ _
    · unfold State.updReq
      simp only [find_upd_self, hu.reqs, e.reqs, hq, Option.map_some]
  refine fin _ c2 _ ?_ ?_
  · simp only [hk]
  · rfl
theorem ownMem_reached (s : State) (q : Req) : (s.reached q).mem = s.mem ∧ (s.reached q).reqs = s.reqs ∧ (s.reached q).groups = s.groups ∧
    (s.reached q).spaces = s.spaces ∧ (s.reached q).wgs = s.wgs ∧ (s.reached q).grids = s.grids ∧ (s.reached q).strong = s.strong ∧
    (s.reached q).poison = s.poison ∧ ∃ r, s.reached q = { s with reach := r } := by
  unfold State.reached
  split <;> exact ⟨rfl, rfl, rfl, rfl, rfl, rfl, rfl, rfl, _, rfl⟩

theorem writeSector_atom {s : State} {rq pa : Nat} {q : Req} {g : Group} {a : LaneAcc} {d : Reg} {sz : Sz} {op : AOp} (hg : Tbl.find s.groups q.gs = some g)
    (hk : q.kind = .atom d sz op) (ha : q.accs = [a]) (hl : a.locs = [.mem pa]) (hm : s.mixed q g a = false) (hp : s.poisoned pa a.len = false)
    (hc : s.homeCheck q g (pa / 64) (q.ord != .weak) = .go .pass)
    (hh : s.holds.filter (fun h => h.2.1 != rq) = s.holds) (hb : s.raceBars rq q g = false) :
    s.writeSector rq q = (s.doWrite rq q .pass).spillHits q := by
  have hpa : a.pa = pa := by unfold LaneAcc.pa; rw [hl]; rfl
  have hs : q.sector = pa / 64 := by unfold Req.sector; rw [ha]; simp [hpa]
  have h1 : q.accs.filter (fun a => s.mixed q g a) = [] := by rw [ha]; simp [hm]
  have h2 : q.accs.filter (fun a => s.poisoned a.pa a.len) = [] := by rw [ha]; simp [hpa, hp]
  unfold State.writeSector
  rw [hh]
  show (match Tbl.find s.groups q.gs with | none => _ | some g => _) = _
  rw [hg]
  simp only [hk]
  rw [h1, h2]
  simp only [List.isEmpty_nil, Bool.not_true, Bool.false_eq_true, if_false, hs, hc, hb]

theorem get_mapTbl {α : Type} [DecidableEq α] (d : α) (f : Nat → α → α) (t : Tbl α) (h : Tbl.wf t = true) {k : Nat} {x : α} (hx : Tbl.find t k = some x) :
    Tbl.get d (mapTbl d f t) k = f k x := by
  have aux : ∀ (u : Tbl α), Above k u → Tbl.find (mapTbl d f u) k = none := by
    intro u
    induction u with
    | nil => intro _; rfl
    | cons e u ih =>
      intro hu
      have hk : e.1 ≠ k := by have := hu e (List.mem_cons_self ..); omega
      have := ih fun y hy => hu y (List.mem_cons_of_mem _ hy)
      unfold mapTbl at this ⊢
      rw [List.map_cons, List.filter_cons]
      split
      · unfold Tbl.find; rw [if_neg hk]; exact this
      · exact this
  induction t with
  | nil => exact absurd hx (by simp [Tbl.find])
  | cons e u ih =>
    obtain ⟨j, y⟩ := e
    have hw := (wf_cons j y u).mp h
    unfold Tbl.find at hx
    by_cases hj : j = k
    · rw [if_pos hj] at hx
      have hy := Option.some.inj hx; subst hy; subst hj
      have hn := aux u hw.1
      unfold Tbl.get
      unfold mapTbl at hn ⊢
      rw [List.map_cons, List.filter_cons]
      split
      · unfold Tbl.find; rw [if_pos rfl]; rfl
      · next hd => rw [hn]; simpa using Eq.symm (by simpa using hd)
    · rw [if_neg hj] at hx
      have := ih hw.2 hx
      unfold Tbl.get at this ⊢
      unfold mapTbl at this ⊢
      rw [List.map_cons, List.filter_cons]
      split
      · rw [Tbl.find, if_neg hj]; exact this
      · exact this

end Sys2Proof.Laws
end

