-- ==== Sys2Proof/Laws/Packets.lean ====
section
/-! SUPPORT. Requests found in place, injectors that are not set. -/

namespace Sys2Proof.Laws

open Sys2Proof.Machine

theorem upd_req {s : State} {rq : Nat} {q : Req} (h : Tbl.find s.reqs rq = some q) (f : Req → Req) :
    s.updReq rq f = { s with reqs := Tbl.put s.reqs rq (f q) } := by
  unfold State.updReq Tbl.upd; rw [h]

theorem inject_none {s : State} {l n lane k : Nat} (h : Tbl.find s.injs l = none) : s.inject l n lane k = (s, 0, 0) := by
  unfold State.inject
  split
  · rfl
  · simp [h, injectAll]

end Sys2Proof.Laws
end

