-- ==== Sys2Proof/Laws/Results.lean ====
section
/-! SUPPORT. Copies at their owners and the replies to them. -/

namespace Sys2Proof.Laws

open Sys2Proof.Machine

theorem retire_full (s : State) (l : List Nat) (u o' : Nat) (a : BitVec 16) : (s.retireAt l u a).rcFull o' = s.rcFull o' := by
  unfold State.rcFull State.retireAt
  congr 2
  simp only [List.filter_map, List.length_map]
  congr 1
  apply List.filter_congr
  intro e _
  simp only [Function.comp]
  split <;> rfl

theorem addCopy_spec {s : State} {rq : Nat} {q : Req} (hq : Tbl.find s.reqs rq = some q) (rtx : Bool) : ∃ d : Copy,
    s.addCopy rq q rtx = { s with fresh := s.fresh + 1, reqs := Tbl.put s.reqs rq { q with copies := q.copies ++ [d], inc := d.inc, sent := s.clock } } ∧
      d.inc = (if rtx then q.inc else s.viewInc (unitDie q.core) (ownerOf (q.memAt.getD 0))) ∧ d.rtx = rtx ∧ d.sent = s.clock ∧
      d.ack = (s.rqer q.core).ack ∧ d.lost = false := by
  unfold State.addCopy State.newId
  simp only
  rw [upd_req (q := q) (by exact hq)]
  exact ⟨⟨_, _, _, _, _, _, _, _, _, _⟩, rfl, rfl, rfl, rfl, rfl, rfl⟩

theorem spend_rqers (s : State) (p m i n : Nat) : (s.spend p m i n).rqers = s.rqers := by
  unfold State.spend
  split
  · rfl
  · split <;> rfl
theorem spend_clock (s : State) (p m i n : Nat) : (s.spend p m i n).clock = s.clock := by
  unfold State.spend
  split
  · rfl
  · split <;> rfl

/-- What the owner's decision does with the one copy of a request that has reached it. -/
theorem rc_request {s : State} {rq : Nat} {q : Req} {ser : BitVec 16} {c : Copy} (hq : Tbl.find s.reqs rq = some q) (hs : q.serial = some ser)
    (hc : q.copies = [c]) (ha : s.arrived q c = true) :
    exec (.resultCacheRequest rq c.id) s = .next (
      let s1 := s.retireAt (s.rcAll (ownerOf (q.memAt.getD 0))) q.core c.ack
      match s1.decide132 (ownerOf (q.memAt.getD 0)) q.lineSet q.core ser c with
      | .duplicate v => ((s1.sendReply rq (.value v)).copyGone rq c.id).reap rq
      | .late => (s1.copyGone rq c.id).reap rq
      | .unknown => ((s1.sendReply rq .unknown).copyGone rq c.id).reap rq
      | .busy => ((s1.sendReply rq .busy).copyGone rq c.id).reap rq
      | .perform =>
        if q.txMsg.isSome || (q.stage ≠ .mesh ∧ q.stage ≠ .atHome) || (Tbl.find s.owners (q.sector / 2)).isSome ||
            !q.homesLeft.all (s1.mayPerform rq q) || (q.isAtomic && !s1.atomTurn q) then s1
        else s1.performCopy rq q ser c.id) := by
  show execResultCacheRequest rq c.id s = _
  unfold execResultCacheRequest
  simp only [hq, Option.bind_some, hc, List.find?_cons, beq_self_eq_true, hs, Option.map_some, ha, Bool.not_true, Bool.false_eq_true, if_false]
  rfl

theorem reap_live {s : State} {rq : Nat} {q : Req} (hq : Tbl.find s.reqs rq = some q) (hg : q.gone = false) : s.reap rq = s := by
  unfold State.reap
  rw [hq]
  simp [hg]

theorem reply_gone {s : State} {rq n : Nat} {q : Req} {c : Copy} (hq : Tbl.find s.reqs rq = some q) (hc : q.copies = [c]) (hn : c.id = n) (hr : q.reply = none)
    (hg : q.gone = false) (r : Reply) :
    ∃ u, ((s.sendReply rq r).copyGone rq n).reap rq = u ∧ u.mem = s.mem ∧
      Tbl.find u.reqs rq = some { q with copies := [], reply := some r, replied := s.clock, rnode := s.targetNode q, back := s.ownerInc (ownerOf (q.memAt.getD 0)) } ∧
      ∀ k, k ≠ rq → Tbl.find u.reqs k = Tbl.find s.reqs k := by
  have h1 : s.sendReply rq r = { s with reqs := Tbl.put s.reqs rq { q with reply := some r, replied := s.clock, rnode := s.targetNode q, back := s.ownerInc (ownerOf (q.memAt.getD 0)) } } := by
    unfold State.sendReply
    rw [upd_req hq]
    simp only [hr, Option.isSome_none, Bool.false_eq_true, if_false]
  have h2 : Tbl.find ((s.sendReply rq r).copyGone rq n).reqs rq =
      some { q with copies := [], reply := some r, replied := s.clock, rnode := s.targetNode q, back := s.ownerInc (ownerOf (q.memAt.getD 0)) } := by
    rw [h1]
    unfold State.copyGone
    rw [upd_req (find_put_self _ _ _)]
    simp [hc, hn]
  refine ⟨_, reap_live h2 hg, ?_, h2, fun k hk => ?_⟩
  · rw [h1]; rfl
  · rw [h1]
    unfold State.copyGone
    rw [upd_req (find_put_self _ _ _)]
    exact (find_put_other _ _ hk).trans (find_put_other _ _ hk)

theorem rcEnter_clock (s : State) (o e n : Nat) (x : BitVec 16) (l : List LaneAcc) : (s.rcEnter o e n x l).clock = s.clock := rfl
theorem rcEnter_sec (s : State) (o e n : Nat) (x : BitVec 16) (l : List LaneAcc) : (s.rcEnter o e n x l).sec = s.sec := rfl

/-- A store's copy is performed, entered and answered. -/
theorem performCopy_store {s : State} {rq : Nat} {q : Req} {ser : BitVec 16} {c : Copy} {g : Group} {v : Verdict} (hq : Tbl.find s.reqs rq = some q) (hc : q.copies = [c])
    (hr : q.reply = none) (hgn : q.gone = false) (hk : q.kind = .store) (hg : Tbl.find s.groups q.gs = some g) (hrec : (s.space q.spid).records = false)
    (hre : (s.space q.spid).replay = none) (hlog : (s.space q.spid).log = 0) (hh : s.holds.filter (fun h => h.2.1 != rq) = s.holds)
    (hacc : ∀ a ∈ q.accs, s.overlap q a = none ∧ (s.poisoned a.pa a.len = true → 4 ≤ a.len)) (hb : ∀ e ∈ accCells q.accs, s.barred e.1 = false)
    (hrb : s.raceBars rq q g = false) (hgo : s.homeCheck q g q.sector (q.ord != .weak) = .go v) :
    ∃ (p : Req), (∀ pa, (s.performCopy rq q ser c.id).byte pa = (((accCells q.accs).reverse.find? (fun e => e.1 == pa)).map (·.2)).getD (s.byte pa)) ∧
      Tbl.find (s.performCopy rq q ser c.id).reqs rq = some p ∧ p.stage = .performed ∧ p.copies = [] ∧ p.reply = some (.value p.accs) := by
  have hm : q.modifies = false := by unfold Req.modifies; rw [hk]
  have ht : q.tag = none := by unfold Req.tag; rw [hk]
  have hw : s.writeSector rq q = (s.doWrite rq q v).spillHits q := by
    rw [writeSector_go hg hk hh fun a ha => ⟨by unfold State.mixed; simp [(hacc a ha).1], (hacc a ha).2⟩, hgo]
    simp only [hrb, Bool.false_eq_true, if_false]
  obtain ⟨h1, h2⟩ := doWrite_store hq hk hrec hre hlog (fun a ha => (hacc a ha).1) hb v
  obtain ⟨h3, h4⟩ := spillHits_spec (s.doWrite rq q v) q
  unfold State.performCopy
  simp only [reached_plain hm, ht, Option.isSome_none, Bool.false_eq_true, if_false, hgn, hw]
  generalize (s.doWrite rq q v).spillHits q = y at h3 h4
  rw [h4, h2]
  simp only [reduceCtorEq, if_false, true_or, if_true]
  generalize hP : ({ q with stage := .performed, accs := q.accs.map fun a => { a with perf := true } } : Req) = P at h2 ⊢
  have hPf : P.stage = .performed ∧ P.copies = [c] ∧ P.reply = none ∧ P.gone = false := by rw [← hP]; exact ⟨rfl, hc, hr, hgn⟩
  have e1 : y.updReq rq (fun x => { x with contended := y.isContended (q.sector / 2) }) =
      { y with reqs := Tbl.put y.reqs rq { P with contended := y.isContended (q.sector / 2) } } := upd_req (by rw [h4]; exact h2) _
  rw [e1]
  generalize hz : ({ y with reqs := Tbl.put y.reqs rq { P with contended := y.isContended (q.sector / 2) } } : State).rcEnter (ownerOf (q.memAt.getD 0)) q.lineSet q.core ser
    (q.accs.map fun a => { a with perf := true }) = z
  have z1 : z.mem = y.mem ∧ Tbl.find z.reqs rq = some { P with contended := y.isContended (q.sector / 2) } := by
    rw [← hz]; exact ⟨rfl, find_put_self _ _ _⟩
  have e2 : z.copyGone rq c.id = { z with reqs := Tbl.put z.reqs rq { P with contended := y.isContended (q.sector / 2), copies := [] } } := by
    unfold State.copyGone
    rw [upd_req z1.2]
    simp [hPf.2.1]
  have e3 : ∀ x, ∃ p : Req, ((z.copyGone rq c.id).sendReply rq (.value x)).reqs = Tbl.put (z.copyGone rq c.id).reqs rq p ∧ p.stage = .performed ∧
      p.copies = [] ∧ p.reply = some (.value x) ∧ p.accs = P.accs ∧ p.gone = false := by
    intro x
    unfold State.sendReply
    rw [upd_req (rq := rq) (q := { P with contended := y.isContended (q.sector / 2), copies := [] }) (by rw [e2]; exact find_put_self _ _ _)]
    simp only [hPf.2.2.1, Option.isSome_none, Bool.false_eq_true, if_false]
    exact ⟨_, rfl, hPf.1, rfl, rfl, rfl, hPf.2.2.2⟩
  obtain ⟨p, p1, p2, p3, p4, p5, p6⟩ := e3 (q.accs.map fun a => { a with perf := true })
  have hok : ({ y with reqs := Tbl.put y.reqs rq { P with contended := y.isContended (q.sector / 2) } } : State).ownerKeeps rq q ser c.id
      (q.accs.map fun a => { a with perf := true }) = (z.copyGone rq c.id).sendReply rq (.value (q.accs.map fun a => { a with perf := true })) := by
    unfold State.ownerKeeps
    rw [hz]
  have hPa : P.accs = q.accs.map fun a => { a with perf := true } := by rw [← hP]
  rw [hok, reap_live (q := p) (by rw [p1]; exact find_put_self _ _ _) p6]
  refine ⟨p, fun pa => ?_, by rw [p1]; exact find_put_self _ _ _, p2, p3, by rw [p4, p5, hPa]⟩
  rw [← h1 pa]
  show Tbl.get 0#8 z.mem pa = _
  rw [z1.1, h3]; rfl

theorem reply_arrives {s : State} {rq : Nat} {q : Req} {ser : BitVec 16} {r : Reply} (hq : Tbl.find s.reqs rq = some q) (hs : q.serial = some ser)
    (hr : q.reply = some r) (hgn : q.gone = false) (htx : q.txMsg = none) (hnode : q.rnode = unitDie q.core) (hage : s.clock < q.replied + 2 ^ 14) :
    (∀ v, r = .value v → q.isAtomic = false → ∃ t, exec (.requestReply rq) s = .next t ∧ t.mem = s.mem ∧
      (Tbl.find t.reqs rq = some { q with serial := none, reply := none, copies := [], accs := v } ∧ ∀ k, k ≠ rq → Tbl.find t.reqs k = Tbl.find s.reqs k) ∧
      t.rqer q.core = (s.rqer q.core).answer ser) ∧
    (r = .busy → ∃ t, exec (.requestReply rq) s = .next t ∧ t.mem = s.mem ∧
      (Tbl.find t.reqs rq = some { q with reply := none, busy := q.busy + 1, parked := true, since := s.clock } ∧
        ∀ k, k ≠ rq → Tbl.find t.reqs k = Tbl.find s.reqs k)) ∧
    (r = .unknown → q.tag = none → exec (.requestReply rq) s = .next ((s.viewReply q).lateFault rq q
      { code := 0x24, lanes := q.faultLanes (q.accs.map (·.lane)), addr := BitVec.ofNat 64 (q.sector * 64), info := ser.setWidth 64 })) := by
  have hx : exec (.requestReply rq) s = .next (match r with
    | .busy => (s.viewReply q).updReq rq fun q => { q with reply := none, busy := q.busy + 1, parked := true, since := s.clock }
    | .unknown => (s.viewReply q).unknownOutcome rq q ser
    | .value v => if q.isAtomic then (((s.viewReply q).answerSerial q.core ser).updReq rq fun q => { q with serial := none, reply := none, copies := [], accs := v }).predict q.core (q.memAt.getD 0) (if q.contended then 1 else -1)
      else ((s.viewReply q).answerSerial q.core ser).updReq rq fun q => { q with serial := none, reply := none, copies := [], accs := v }) := by
    show execRequestReply rq s = _
    unfold execRequestReply
    simp only [hq, Option.bind_some, hr, hs, Option.map_some]
    rw [if_neg (by generalize 2 ^ 14 = x at hage ⊢; simp [hgn, hnode, hage])]
    cases r <;> rfl
  have hv : (s.viewReply q).reqs = s.reqs := rfl
  refine ⟨?_, ?_, ?_⟩
  · intro v hv2 hat
    subst hv2
    simp only [hat, Bool.false_eq_true, if_false] at hx
    rw [upd_req (q := q) (by exact hq)] at hx
    refine ⟨_, hx, rfl, ⟨find_put_self _ _ _, fun k hk => find_put_other _ _ hk⟩, ?_⟩
    unfold State.answerSerial State.updRqer State.rqer
    simp only [find_put_self, Option.getD_some]
    rfl
  · intro hb
    subst hb
    simp only at hx
    rw [upd_req (q := q) (by exact hq)] at hx
    exact ⟨_, hx, rfl, find_put_self _ _ _, fun k hk => find_put_other _ _ hk⟩
  · intro hb htag
    subst hb
    refine hx.trans (congrArg _ ?_)
    simp only
    unfold State.unknownOutcome
    rw [htx]
    unfold Req.tag at htag
    cases hk : q.kind <;> rw [hk] at htag <;> first | rfl | cases htag

end Sys2Proof.Laws
end

