-- ==== Sys2Proof/Laws/Commits.lean ====
section
/-! SUPPORT. The steps of a commit. -/

namespace Sys2Proof.Laws

open Sys2Proof.Machine

theorem tickRc_txe (s : State) (gs k : Nat) (g : Group) (hg : Tbl.find s.groups k = some g) :
    ∃ h, Tbl.find (s.tickRc gs).groups k = some h ∧ h.txe = g.txe := by
  by_cases hk : k = gs
  · subst hk
    exact ⟨_, (tickRc_spec s k g hg).2.2.1, rfl⟩
  · cases h : Tbl.find s.groups gs with
    | none => refine ⟨g, ?_, rfl⟩; unfold State.tickRc; rw [h]; exact hg
    | some x => exact ⟨g, ((tickRc_spec s gs x h).2.1 k hk).trans hg, rfl⟩

/-- A group is where it was with its commit as it was. -/
def Commits (s u : State) : Prop := ∀ k g, Tbl.find s.groups k = some g → ∃ h, Tbl.find u.groups k = some h ∧ h.txe = g.txe
theorem Commits.same {s u : State} (h : u.groups = s.groups) : Commits s u := fun _ g hg => ⟨g, by rw [h]; exact hg, rfl⟩
theorem Commits.trans {a b c : State} (h : Commits a b) (k : Commits b c) : Commits a c := fun n g hg =>
  let ⟨x, hx, e⟩ := h n g hg
  let ⟨y, hy, f⟩ := k n x hx
  ⟨y, hy, f.trans e⟩
theorem commits_tick (s : State) (gs : Nat) : Commits s (s.tickRc gs) := fun k g hg => tickRc_txe s gs k g hg
theorem commits_record (s : State) (q : Req) (n : Nat) (a : Bool) (c : Nat) : Commits s (s.recordSector q n a c) := by
  have fin : ∀ (b : Bool) (x y z : State), Commits s x → Commits s y → Commits s z → Commits s (if q.head = true then x else if b = true then y else z) := by
    intro b x y z hx hy hz
    split
    · exact hx
    · split
      · exact hy
      · exact hz
  have last : ∀ x : State, Commits s x → Commits s { x with recs := Tbl.del x.recs n } := fun x hx => hx
  have mid : ∀ (p : Prop) [Decidable p] (x : State), Commits s x → Commits s (if p then x.tickRc q.gs else x) := by
    intro p _ x hx
    split
    · exact hx.trans (commits_tick _ _)
    · exact hx
  have put : ∀ (x : State) (f : Nat → Nat) (r : RelRec), Commits s x → Commits s (x.putRec n f r) := fun x f r hx => hx
  unfold State.recordSector
  simp only
  split
  · exact .same rfl
  · split
    · exact .same rfl
    · apply fin
      · split
        · exact put _ _ _ (mid _ _ (.same rfl))
        · exact mid _ _ (.same rfl)
      · exact mid _ _ (.same rfl)
      · exact last _ (mid _ _ (.same rfl))
theorem commits_l1Update (s : State) (c : Nat) (l : List (Nat × Byte)) : Commits s (s.l1Update c l) := by
  unfold State.l1Update
  generalize (l.map (fun c => c.1 / 128)).eraseDups = k
  induction k generalizing s with
  | nil => exact .same rfl
  | cons x k ih =>
    refine .trans ?_ (ih _)
    simp only
    split
    · exact .same rfl
    · exact .same rfl

theorem commits_l1Drop (s : State) (c l : Nat) : Commits s (s.l1Drop c l) := by
  unfold State.l1Drop
  split <;> exact .same rfl
theorem commits_noteStrong (s : State) (q : Req) (n : Nat) : Commits s (s.noteStrong q n) := by
  unfold State.noteStrong
  split
  · split <;> exact .same rfl
  · exact .same rfl

/-- The bytes of a masked word. -/
theorem masked_cells (pa : Nat) (m : Byte) (d : W64) (old : Nat → Byte) (a : Nat) :
    (((((List.range 8).filter (fun i => m.getLsbD i)).map fun i => (pa + i, BitVec.ofNat 8 (d.toNat / 2 ^ (8 * i) % 256))).reverse.find? (fun c => c.1 == a)).map (·.2)).getD (old a) =
      if pa ≤ a ∧ a < pa + 8 ∧ m.getLsbD (a - pa) = true then d.extractLsb' (8 * (a - pa)) 8 else old a := by
  by_cases h : pa ≤ a ∧ a < pa + 8 ∧ m.getLsbD (a - pa) = true
  · rw [if_pos h, find_single (a := (pa + (a - pa), BitVec.ofNat 8 (d.toNat / 2 ^ (8 * (a - pa)) % 256)))]
    · simp only [Option.map_some, Option.getD_some]
      apply BitVec.eq_of_toNat_eq
      simp [BitVec.extractLsb', Nat.shiftRight_eq_div_pow]
    · rw [List.mem_reverse]
      exact List.mem_map.mpr ⟨a - pa, List.mem_filter.mpr ⟨List.mem_range.mpr (by omega), h.2.2⟩, rfl⟩
    · simp; omega
    · intro b hb hp
      rw [List.mem_reverse] at hb
      obtain ⟨i, _, rfl⟩ := List.mem_map.mp hb
      have : pa + i = a := by simpa using hp
      have hi : a - pa = i := by omega
      rw [hi]
  · rw [if_neg h]
    have : ((((List.range 8).filter (fun i => m.getLsbD i)).map fun i => (pa + i, BitVec.ofNat 8 (d.toNat / 2 ^ (8 * i) % 256))).reverse.find? (fun c => c.1 == a)) = none := by
      rw [List.find?_eq_none]
      intro b hb hp
      rw [List.mem_reverse] at hb
      obtain ⟨i, hi, rfl⟩ := List.mem_map.mp hb
      obtain ⟨h1, h2⟩ := List.mem_filter.mp hi
      have e : pa + i = a := by simpa using hp
      have hi : a - pa = i := by omega
      exact h ⟨by omega, by have := List.mem_range.mp h1; omega, by rw [hi]; exact h2⟩
    rw [this]; rfl

theorem updTxe_has {s : State} {gs : Nat} {g : Group} {r : TxRun} (hg : Tbl.find s.groups gs = some g) (ht : g.txe = some r) (f : TxRun → TxRun) :
    Tbl.find (s.updTxe gs f).groups gs = some { g with txe := some (f r) } := by
  unfold State.updTxe
  rw [updGroup_found hg]
  simp [ht]

theorem txAbort_tx (g : Group) (l : List Nat) (c u : Nat) (i : Bool) : ∃ x, g.txAbort l c u i = { g with tx := x } := by
  unfold Group.txAbort
  split
  · exact ⟨_, rfl⟩
  · exact ⟨_, rfl⟩

theorem updTxe_other (s : State) (gs : Nat) (f : TxRun → TxRun) {k : Nat} (h : k ≠ gs) : Tbl.find (s.updTxe gs f).groups k = Tbl.find s.groups k := find_upd_other _ _ h
theorem updGroup_other (s : State) (gs : Nat) (f : Group → Group) {k : Nat} (h : k ≠ gs) : Tbl.find (s.updGroup gs f).groups k = Tbl.find s.groups k := find_upd_other _ _ h

theorem find_filter_pos {α : Type} (l : List α) (p : α → Bool) (e : α) : e ∈ l.filter (fun x => !p x) ↔ e ∈ l ∧ ¬ (p e = true) := by
  rw [List.mem_filter]; simp

theorem put_fold (l : List TxWord) (o : Nat × Nat) : ∀ (t : Tbl (Nat × Nat)) (n : Nat), (∃ x ∈ l, x.pa = n) ∨ Tbl.find t n = some o →
    Tbl.find (l.foldl (fun (t : Tbl (Nat × Nat)) (x : TxWord) => Tbl.put t x.pa o) t) n = some o := by
  induction l with
  | nil => intro t n h; rcases h with ⟨x, hx, _⟩ | h; exact absurd hx (by simp); exact h
  | cons y l ih =>
    intro t n h
    rw [List.foldl_cons]
    by_cases hn : n = y.pa
    · exact ih _ _ (.inr (by rw [hn]; exact find_put_self _ _ _))
    · refine ih _ _ ?_
      rcases h with ⟨x, hx, hp⟩ | h
      · rcases List.mem_cons.mp hx with rfl | hx
        · exact absurd hp.symm hn
        · exact .inl ⟨x, hx, hp⟩
      · exact .inr (by rw [find_put_other _ _ hn]; exact h)

/-- What the owner's answer for a performed copy leaves: the request is answered, the copy gone; only requests and result caches move. -/
theorem keeps_spec {u : State} {id : Nat} {P : Req} (hq : Tbl.find u.reqs id = some P) (hr : P.reply = none) (q : Req) (ser : BitVec 16) (copy : Nat)
    (v : List LaneAcc) : ((u.ownerKeeps id q ser copy v).mem = u.mem ∧ (u.ownerKeeps id q ser copy v).groups = u.groups ∧ (u.ownerKeeps id q ser copy v).locks = u.locks) ∧
      ∃ p : Req, Tbl.find (u.ownerKeeps id q ser copy v).reqs id = some p ∧ p.stage = P.stage ∧ p.accs = P.accs ∧ p.reply = some (.value v) ∧
        p.copies = P.copies.filter (fun x => x.id != copy) := by
  unfold State.ownerKeeps
  generalize hz : u.rcEnter (ownerOf (q.memAt.getD 0)) q.lineSet q.core ser v = z
  have z1 : Tbl.find z.reqs id = some P := by rw [← hz]; exact hq
  have e2 : z.copyGone id copy = { z with reqs := Tbl.put z.reqs id { P with copies := P.copies.filter (fun c => c.id != copy) } } := by
    unfold State.copyGone
    rw [upd_req z1]
  have z3 : Tbl.find (z.copyGone id copy).reqs id = some { P with copies := P.copies.filter (fun c => c.id != copy) } := by rw [e2]; exact find_put_self _ _ _
  have e3 := upd_req z3 fun q => if q.reply.isSome then q else
    { q with reply := some (Reply.value v), replied := (z.copyGone id copy).clock, rnode := (z.copyGone id copy).targetNode q, back := (z.copyGone id copy).ownerInc (ownerOf (q.memAt.getD 0)) }
  simp only [hr, Option.isSome_none, Bool.false_eq_true, if_false] at e3
  have e4 : (z.copyGone id copy).sendReply id (.value v) = _ := e3
  rw [e4]
  refine ⟨?_, _, find_put_self _ _ _, rfl, rfl, rfl, rfl⟩
  rw [e2, ← hz]
  exact ⟨rfl, rfl, rfl⟩

/-- Nothing is recalled where nothing is owned. -/
theorem recallLines_free {s : State} {q : Req} (h : ∀ l ∈ q.lines, Tbl.find s.owners l = none) : s.recallLines q = some s := by
  unfold State.recallLines
  suffices ∀ l : List Nat, (∀ x ∈ l, Tbl.find s.owners x = none) →
      l.foldl (fun (o : Option State) x => o.bind fun s => s.recallHome q.core x) (some s) = some s from this _ h
  intro l
  induction l with
  | nil => exact fun _ => rfl
  | cons x l ih =>
    intro h
    rw [List.foldl_cons, Option.bind_some]
    have e : s.recallHome q.core x = some s := by unfold State.recallHome; rw [h x (List.mem_cons_self ..)]
    rw [e]
    exact ih fun y hy => h y (List.mem_cons_of_mem _ hy)

theorem decides_frame (s : State) (q : Req) (ser : BitVec 16) (c : Copy) : ∃ b, (s.ownerDecides q ser c).2 = { s with rcache := b } := ⟨_, rfl⟩

/-- TX_ABORT_MESSAGE performed. -/
theorem abort_message {s : State} {gs L sl id : Nat} {g : Group} {r : TxRun} {q : Req} {c : Copy} {ser : BitVec 16} (hg : Tbl.find s.groups gs = some g) (ht : g.txe = some r)
    (ha : s.txArrived gs (· == .abort sl L) = some (id, q, c, ser)) (hq : Tbl.find s.reqs id = some q) (hr : q.reply = none) :
    ∃ t, exec (.txAbortMessage gs L sl) s = .next t ∧ (t.mem = s.mem ∧ ∀ k, k ≠ gs → Tbl.find t.groups k = Tbl.find s.groups k) ∧
      (∀ e, e ∈ t.locks ↔ e ∈ s.locks ∧ ¬ (txSlice e.1 = sl ∧ e.2 = (gs, L))) ∧ (∃ h, Tbl.find t.groups gs = some h ∧ h.txe = some r) ∧
        ∃ p : Req, Tbl.find t.reqs id = some p ∧ p.stage = .performed ∧ p.reply = some (.value p.accs) := by
  have hx : exec (.txAbortMessage gs L sl) s = .next (((((s.ownerDecides q ser c).2.releaseWords gs L sl).updReq id fun q =>
      { q with stage := .performed, accs := q.accs.map fun a => { a with perf := true } })).ownerKeeps id q ser c.id (q.accs.map fun a => { a with perf := true })) := by
    show execTxAbortMessage gs L sl s = _
    unfold execTxAbortMessage
    simp only [ha]
    have e : ∀ F : Req → Req, (((s.ownerDecides q ser c).2.releaseWords gs L sl).updReq id F) = { (s.ownerDecides q ser c).2.releaseWords gs L sl with reqs := Tbl.put s.reqs id (F q) } :=
      fun F => upd_req (by exact hq) F
    rw [e, e]
  generalize hu : (s.ownerDecides q ser c).2.releaseWords gs L sl = u at hx
  have hu1 : u.mem = s.mem ∧ u.groups = s.groups ∧ u.reqs = s.reqs ∧ u.locks = s.locks.filter (fun l => !(txSlice l.1 == sl && l.2 == (gs, L))) := by
    rw [← hu]; exact ⟨rfl, rfl, rfl, rfl⟩
  have hf := upd_req (s := u) (rq := id) (by rw [hu1.2.2.1]; exact hq) (fun q => { q with stage := .performed, accs := q.accs.map fun a => { a with perf := true } })
  generalize hw : (u.updReq id fun q => { q with stage := .performed, accs := q.accs.map fun a => { a with perf := true } }) = w at hx hf
  have hw1 : w.mem = s.mem ∧ w.groups = s.groups ∧ w.locks = u.locks ∧ Tbl.find w.reqs id = some { q with stage := .performed, accs := q.accs.map fun a => { a with perf := true } } := by
    rw [hf]; exact ⟨hu1.1, hu1.2.1, rfl, find_put_self _ _ _⟩
  obtain ⟨⟨e1, e2, e3⟩, p, p1, p2, p3, p4, _⟩ := keeps_spec hw1.2.2.2 hr q ser c.id (q.accs.map fun a => { a with perf := true })
  refine ⟨_, hx, ⟨e1.trans hw1.1, fun k _ => by rw [e2, hw1.2.1]⟩, ?_, ⟨g, by rw [e2, hw1.2.1]; exact hg, ht⟩, p, p1, p2, by rw [p4, p3]⟩
  intro x
  rw [e3, hw1.2.2.1, hu1.2.2.2]
  refine (find_filter_pos _ _ _).trans (and_congr_right fun _ => not_congr ?_)
  simp

theorem commits_spillHits (s : State) (q : Req) : Commits s (s.spillHits q) ∧ (s.spillHits q).locks = s.locks := by
  have one : ∀ (s : State) (spid va : Nat), Commits s (s.spillHit spid va) ∧ (s.spillHit spid va).locks = s.locks := by
    intro s spid va
    have up : ∀ (gs wid : Nat), Commits s (s.updGroup gs fun g => if g.wg = wid then g.loseStacks s.free else g) := by
      intro gs wid k g hg
      by_cases hk : k = gs
      · subst hk
        rw [updGroup_found hg]
        refine ⟨_, find_put_self _ _ _, ?_⟩
        split <;> rfl
      · exact ⟨g, (find_upd_other _ _ hk).trans hg, rfl⟩
    unfold State.spillHit
    split
    · exact ⟨.same rfl, rfl⟩
    · rename_i wid k _
      dsimp only
      split
      · rename_i gs _
        exact ⟨(up gs wid).trans (.same rfl), rfl⟩
      · exact ⟨.same rfl, rfl⟩
  unfold State.spillHits
  induction q.accs generalizing s with
  | nil => exact ⟨.same rfl, rfl⟩
  | cons a t ih => exact ⟨(one ..).1.trans (ih _).1, (ih _).2.trans (one ..).2⟩

theorem laneList_bit {L : Nat} (h : L < 32) : laneList (1#32 <<< L) = [L] := by
  have : ∀ n : Fin 32, laneList (1#32 <<< n.val) = [n.val] := by decide
  exact this ⟨L, h⟩

/-- The bytes that a lane's transaction writes in a sector. -/
def txCells (t : TxLane) (n : Nat) : List (Nat × Byte) := (t.words.filter (fun w => w.pa / 64 == n)).flatMap fun w =>
  ((List.range 8).filter (fun i => w.wmask.getLsbD i)).map fun i => (w.pa + i, w.wdata.extractLsb' (8 * i) 8)

theorem txWrite_spec {s : State} {gs n L : Nat} {g : Group} {r : TxRun} {q : Req} (hm : q.mask = 1#32 <<< L) (hL : L < 32) (hrec : (s.space q.spid).records = false)
    (hrep : (s.space q.spid).replay = none) (hmode : r.mode = 0#2) (ho : ∀ a ∈ (q.txSector g r n).accs, s.overlap (q.txSector g r n) a = none)
    (hb : ∀ e ∈ txCells (g.txLane L) n, s.barred e.1 = false) :
    (s.txWrite gs g r q n).mem = (txCells (g.txLane L) n).foldl (fun m c => Tbl.set 0#8 m c.1 c.2) s.mem ∧ (s.txWrite gs g r q n).reqs = s.reqs ∧
      (s.txWrite gs g r q n).locks = s.locks ∧
      ∀ h, Tbl.find s.groups gs = some h → h.txe = some r → ∃ k seen, Tbl.find (s.txWrite gs g r q n).groups gs = some k ∧ k.txe = some { r with seen := seen } := by
  unfold State.txWrite
  have h0 : (r.mode != 0#2) = false := by simp [hmode]
  simp only [h0, Bool.and_false, Bool.false_eq_true, if_false]
  rw [hm, laneList_bit hL]
  have hc : ([L].flatMap fun L => ((g.txLane L).words.filter (fun w => w.pa / 64 == n)).flatMap fun w =>
      ((List.range 8).filter (fun i => w.wmask.getLsbD i)).map fun i => (w.pa + i, BitVec.ofNat 8 (w.wdata.toNat / 2 ^ (8 * i) % 256))) = txCells (g.txLane L) n := by
    rw [List.flatMap_singleton]
    unfold txCells
    congr 1
    funext w
    congr 1
    funext i
    congr 1
    apply BitVec.eq_of_toNat_eq
    simp [BitVec.extractLsb', Nat.shiftRight_eq_div_pow]
  rw [hc]
  have hx : (q.txSector g r n).mode = q.mode := rfl
  have e := homeWrite_spec hrec hrep q.part true (txCells (g.txLane L) n)
  have sp := spoil_none (s := s.homeWrite q.spid q.part true (txCells (g.txLane L) n)) (cells := txCells (g.txLane L) n)
    (fun x hx => by unfold State.barred; rw [e.sec, e.queues]; exact hb x hx)
  rw [sp]
  rw [clashes_none (fun a ha => ho a (List.mem_filter.mp ha).1), blurAll_nil]
  generalize (q.txSector g r n).accs.filter (fun a => inMask (1#32 <<< L) a.lane) = mine
  generalize s.homeWrite q.spid q.part true (txCells (g.txLane L) n) = y at e
  have c1 := (caches_record y { q.txSector g r n with head := true } n false (coverOf (q.txSector g r n).accs n)).trans (caches_l1Drop _ q.core (n / 2))
  have k1 : Commits y ((y.recordSector { q.txSector g r n with head := true } n false (coverOf (q.txSector g r n).accs n)).l1Drop q.core (n / 2)) := by
    refine (commits_record y { q.txSector g r n with head := true } n false (coverOf (q.txSector g r n).accs n)).trans (commits_l1Drop _ _ _)
  generalize (y.recordSector { q.txSector g r n with head := true } n false (coverOf (q.txSector g r n).accs n)).l1Drop q.core (n / 2) = z at c1 k1
  have c2 := Caches.foldl (fun s a => s.noteStrong { q.txSector g r n with accs := [a] } n) (fun s x => caches_noteStrong s _ n) mine z
  have k2 : Commits z (mine.foldl (fun s a => s.noteStrong { q.txSector g r n with accs := [a] } n) z) := by
    clear c2 c1 k1
    induction mine generalizing z with
    | nil => exact .same rfl
    | cons a t ih =>
      exact .trans (commits_noteStrong _ _ _) (ih _)
  generalize mine.foldl (fun s a => s.noteStrong { q.txSector g r n with accs := [a] } n) z = u at c2 k2
  have c3 := spillHits_spec u { q.txSector g r n with accs := mine }
  have k3 := commits_spillHits u { q.txSector g r n with accs := mine }
  refine ⟨?_, ?_, ?_, ?_⟩
  · show State.mem _ = _
    exact c3.1.trans (c2.mem.trans (c1.mem.trans e.mem))
  · exact c3.2.trans (c2.reqs.trans (c1.reqs.trans e.reqs))
  · exact k3.2.trans (c2.locks.trans (c1.locks.trans e.locks))
  · intro h hh ht
    obtain ⟨x, hx, hxe⟩ := ((k1.trans k2).trans k3.1) gs h (by rw [e.groups]; exact hh)
    exact ⟨_, _, updTxe_has hx (hxe.trans ht) _, rfl⟩

/-- TX_COMMIT_MESSAGE performed on one sector. -/
theorem commit_message {s : State} {gs L sl id n : Nat} {g : Group} {r : TxRun} {q : Req} {c : Copy} {ser : BitVec 16} (hg : Tbl.find s.groups gs = some g)
    (ht : g.txe = some r) (ha : s.txArrived gs (· == .commit sl L) = some (id, q, c, ser)) (hq : Tbl.find s.reqs id = some q) (hr : q.reply = none)
    (hn : q.txSectors g = [n]) (hm : q.mask = 1#32 <<< L) (hL : L < 32) (hown : ∀ l ∈ q.lines, Tbl.find s.owners l = none)
    (hmay : s.mayPerform id q (.sector n) = true) (hov : ∀ a ∈ q.accs, s.overlap q.asOwn a = none) (hrec : (s.space q.spid).records = false)
    (hrep : (s.space q.spid).replay = none) (hmode : r.mode = 0#2) (ho : ∀ a ∈ (q.txSector g r n).accs, s.overlap (q.txSector g r n) a = none)
    (hb : ∀ e ∈ txCells (g.txLane L) n, s.barred e.1 = false) :
    ∃ t, exec (.txCommitMessage gs L sl) s = .next t ∧
      (∀ pa, t.byte pa = (((txCells (g.txLane L) n).reverse.find? (fun c => c.1 == pa)).map (·.2)).getD (s.byte pa)) ∧
      (∀ e, e ∈ t.locks ↔ e ∈ s.locks ∧ ¬ (txSlice e.1 = sl ∧ e.2 = (gs, L))) ∧
      (∃ seen h, Tbl.find t.groups gs = some h ∧ h.txe = some { r with seen := seen }) ∧
        ∃ p : Req, Tbl.find t.reqs id = some p ∧ p.stage = .performed ∧ p.reply = some (.value p.accs) := by
  obtain ⟨b, hd⟩ := decides_frame s q ser c
  generalize hs1 : ({ s with rcache := b, holds := s.holds.filter (fun h => h.2.1 != id) } : State) = s1
  have e1 : s1.mem = s.mem ∧ s1.groups = s.groups ∧ s1.reqs = s.reqs ∧ s1.locks = s.locks ∧ s1.strong = s.strong ∧ s1.sec = s.sec ∧ s1.spaces = s.spaces ∧ s1.queues = s.queues := by
    rw [← hs1]; exact ⟨rfl, rfl, rfl, rfl, rfl, rfl, rfl, rfl⟩
  have eo : ∀ q a, s1.overlap q a = s.overlap q a := by
    intro q a; rw [← hs1]; rfl
  have hx : exec (.txCommitMessage gs L sl) s = .next (s1.txCommitGo id gs sl L g q ser c.id) := by
    show execTxCommitMessage gs L sl s = _
    unfold execTxCommitMessage
    simp only [ha, hg, Option.bind_some, ht, Option.map_some, hn, List.all_cons, hmay, List.all_nil, Bool.and_self, Bool.not_true, Bool.false_eq_true, if_false]
    rw [hd, recallLines_free (by exact hown)]
    dsimp only
    rw [hs1]
    have hbad : q.accs.filter (fun a => s1.mixed q.asOwn g a) = [] := by
      rw [List.filter_eq_nil_iff]; intro a h; unfold State.mixed; simp [eo, hov a h]
    have hck : s1.txCheck q g r = true := by unfold State.txCheck; simp [hmode]
    simp only [hbad, hck, hmode, List.isEmpty_nil, Bool.not_true, Bool.false_eq_true, if_false]
    rfl
  obtain ⟨w1, w2, w3, w4⟩ := txWrite_spec (s := s1) (gs := gs) (n := n) (g := g) hm hL (by rw [space_congr e1.2.2.2.2.2.2.1]; exact hrec)
    (by rw [space_congr e1.2.2.2.2.2.2.1]; exact hrep) hmode (fun a h => by rw [eo]; exact ho a h)
    (fun x h => by have := hb x h; unfold State.barred at this ⊢; rw [e1.2.2.2.2.2.1, e1.2.2.2.2.2.2.2]; exact this)
  obtain ⟨k, seen, w5, w6⟩ := w4 g (by rw [e1.2.1]; exact hg) ht
  have hgo : s1.txCommitGo id gs sl L g q ser c.id = (((s1.txWrite gs g r q n).releaseWords gs L sl).updReq id fun q =>
      { q with stage := .performed, accs := q.accs.map fun a => { a with perf := true } }).ownerKeeps id q ser c.id (q.accs.map fun a => { a with perf := true }) := by
    unfold State.txCommitGo
    simp only [hn, List.foldl_cons, List.foldl_nil, e1.2.1, hg, Option.bind_some, ht]
    have e : ∀ F : Req → Req, (((s1.txWrite gs g r q n).releaseWords gs L sl).updReq id F) =
        { (s1.txWrite gs g r q n).releaseWords gs L sl with reqs := Tbl.put (s1.txWrite gs g r q n).reqs id (F q) } :=
      fun F => upd_req (by show Tbl.find (s1.txWrite gs g r q n).reqs id = _; rw [w2, e1.2.2.1]; exact hq) F
    rw [e, e]
  rw [hgo] at hx
  generalize hu : (s1.txWrite gs g r q n).releaseWords gs L sl = u at hx
  have hu1 : u.mem = (s1.txWrite gs g r q n).mem ∧ u.groups = (s1.txWrite gs g r q n).groups ∧ u.reqs = s.reqs ∧
      u.locks = s.locks.filter (fun l => !(txSlice l.1 == sl && l.2 == (gs, L))) := by
    rw [← hu]; exact ⟨rfl, rfl, w2.trans e1.2.2.1, by unfold State.releaseWords; rw [w3, e1.2.2.2.1]⟩
  have hf := upd_req (s := u) (rq := id) (by rw [hu1.2.2.1]; exact hq) (fun q => { q with stage := .performed, accs := q.accs.map fun a => { a with perf := true } })
  generalize hw : (u.updReq id fun q => { q with stage := .performed, accs := q.accs.map fun a => { a with perf := true } }) = w at hx hf
  have hw1 : w.mem = u.mem ∧ w.groups = u.groups ∧ w.locks = u.locks ∧ Tbl.find w.reqs id = some { q with stage := .performed, accs := q.accs.map fun a => { a with perf := true } } := by
    rw [hf]; exact ⟨rfl, rfl, rfl, find_put_self _ _ _⟩
  obtain ⟨⟨f1, f2, f3⟩, p, p1, p2, p3, p4, _⟩ := keeps_spec hw1.2.2.2 hr q ser c.id (q.accs.map fun a => { a with perf := true })
  refine ⟨_, hx, ?_, ?_, ⟨seen, k, by rw [f2, hw1.2.1, hu1.2.1]; exact w5, w6⟩, p, p1, p2, by rw [p4, p3]⟩
  · intro pa
    show Tbl.get 0#8 (State.mem _) pa = _
    rw [f1, hw1.1, hu1.1, w1, e1.1]
    exact get_cells _ _ _
  · intro x
    rw [f3, hw1.2.2.1, hu1.2.2.2]
    refine (find_filter_pos _ _ _).trans (and_congr_right fun _ => not_congr ?_)
    simp

/-- A request is answered with a code for its lanes. -/
def Answered (t : State) (id : Nat) (q : Req) (c : Copy) (code : Nat) : Prop := ∃ p : Req, Tbl.find t.reqs id = some p ∧ p.stage = .performed ∧
  p.accs = q.accs.map (fun a => { a with perf := true, err := code }) ∧ p.reply = some (.value p.accs) ∧ p.copies = q.copies.filter (fun x => x.id != c.id)

/-- The accesses of a lane's packet once it has a code. -/
theorem prepareCode_spec {s : State} {gs id L code : Nat} {g : Group} {r : TxRun} {q : Req} (hg : Tbl.find s.groups gs = some g) (ht : g.txe = some r)
    (hq : Tbl.find s.reqs id = some q) (ha : ∀ a ∈ q.accs, a.lane = L) :
    s.prepareCode gs id L code = { s with
      reqs := Tbl.put s.reqs id { q with accs := q.accs.map fun a => { a with perf := true, err := code } }
      groups := Tbl.put s.groups gs { g with txe := some { r with waiting := r.waiting.filter (fun x => x.1 != L) } } } := by
  unfold State.prepareCode
  rw [upd_req hq]
  unfold State.updTxe
  rw [updGroup_found (by exact hg)]
  simp only [ht, Option.map_some]
  have e : (q.accs.map fun a => if a.lane = L then { a with perf := true, err := code } else a) = q.accs.map fun a => { a with perf := true, err := code } :=
    List.map_congr_left fun a h => if_pos (ha a h)
  rw [e]

/-- A lane's packet all of whose accesses have a code is answered. -/
theorem prepareDone_spec {u : State} {id : Nat} {q q0 : Req} {c : Copy} {ser : BitVec 16} {code : Nat} (hq : Tbl.find u.reqs id = some q) (hr : q.reply = none)
    (ha : q.accs = q0.accs.map fun a => { a with perf := true, err := code }) (hc : q.copies = q0.copies) :
    ((u.prepareDone id ser c.id).mem = u.mem ∧ (u.prepareDone id ser c.id).groups = u.groups ∧ (u.prepareDone id ser c.id).locks = u.locks) ∧
      Answered (u.prepareDone id ser c.id) id q0 c code := by
  have hall : q.accs.all (·.perf) = true := by
    rw [ha, List.all_map, List.all_eq_true]; intro a _; rfl
  unfold State.prepareDone
  simp only [hq, hall, if_true]
  rw [upd_req hq]
  obtain ⟨f, p, p1, p2, p3, p4, p5⟩ := keeps_spec (u := { u with reqs := Tbl.put u.reqs id { q with stage := .performed } }) (id := id) (find_put_self _ _ _) hr q ser c.id q.accs
  exact ⟨f, p, p1, p2, by rw [p3, ← ha], by rw [p4, p3], by rw [p5, ← hc]⟩

theorem filter_wait {l : List (Nat × Nat)} {L : Nat} (h : l.all (fun x => x.1 != L) = true) : l.filter (fun x => x.1 != L) = l :=
  List.filter_eq_self.mpr fun a ha => List.all_eq_true.mp h a ha

theorem dups_one {α : Type} {L : Nat} (f : α → Nat) : ∀ (l : List α), l ≠ [] → (∀ a ∈ l, f a = L) → (l.map f).eraseDups = [L] := by
  intro l hn h
  have e : l.map f = List.replicate l.length L := by
    rw [List.eq_replicate_iff]
    exact ⟨List.length_map _, fun b hb => by obtain ⟨a, ha, rfl⟩ := List.mem_map.mp hb; exact h a ha⟩
  rw [e]
  cases hl : l.length with
  | zero => exact absurd (List.length_eq_zero_iff.mp hl) hn
  | succ k =>
    rw [List.replicate_succ, List.eraseDups_cons, List.filter_eq_nil_iff.mpr (fun a ha => by simp [List.eq_of_mem_replicate ha])]
    rfl

theorem prepare_one {s : State} {gs L id : Nat} {g : Group} {r : TxRun} {q : Req} {c : Copy} {ser : BitVec 16} (hg : Tbl.find s.groups gs = some g) (ht : g.txe = some r)
    (ha : s.txArrived gs TxMsg.isPrepare = some (id, q, c, ser)) (hq : Tbl.find s.reqs id = some q) (hown : ∀ l ∈ q.lines, Tbl.find s.owners l = none)
    (hr : q.reply = none) (hne : q.accs ≠ []) (hacc : ∀ a ∈ q.accs, a.lane = L ∧ a.perf = false ∧ a.err = 0) (hin : inMask r.lanes L = true)
    (hw : r.waiting.all (fun x => x.1 != L) = true) :
    let does := fun (e : Instr) (t : State) => exec e s = .next t
    let others := fun (t : State) => t.mem = s.mem ∧ ∀ k, k ≠ gs → Tbl.find t.groups k = Tbl.find s.groups k
    let has := fun (t : State) (x : TxRun) => ∃ h, Tbl.find t.groups gs = some h ∧ h.txe = some x
    let sl := txSlice (q.memAt.getD 0)
    let ws := (g.txLane L).at_ sl
    let fits := (s.locks.filter (fun l => txSlice l.1 == sl)).length + ws.length ≤ 1024 ∧
      ∀ x ∈ ws, Tbl.find s.locks x.pa = none ∨ Tbl.find s.locks x.pa = some (gs, L)
    (fits → (∀ x ∈ ws, ∀ v ∈ x.rd, v = s.rd8 x.pa) → r.prepared.find? (fun p => p.1 == sl) = none →
      ∃ t, does (.txPrepare gs) t ∧ others t ∧ (∀ x ∈ ws, Tbl.find t.locks x.pa = some (gs, L)) ∧ Answered t id q c 0 ∧
        has t { r with prepared := r.prepared ++ [(sl, 1#32 <<< L)] }) ∧
    (fits → (∃ x ∈ ws, ∃ v ∈ x.rd, v ≠ s.rd8 x.pa) → ∃ t, does (.txPrepare gs) t ∧ others t ∧ t.locks = s.locks ∧ Answered t id q c 1 ∧ has t r) ∧
    (¬ fits → s.txQueue sl < 64 → ∃ t, does (.txPrepare gs) t ∧ others t ∧ t.locks = s.locks ∧ t.reqs = s.reqs ∧
      has t { r with waiting := r.waiting ++ [(L, s.clock)] }) ∧
    (¬ fits → 64 ≤ s.txQueue sl → ∃ t, does (.txPrepare gs) t ∧ others t ∧ t.locks = s.locks ∧ Answered t id q c 5 ∧ has t r) := by
  intro does others has sl ws fits
  obtain ⟨b, hd⟩ := decides_frame s q ser c
  generalize hs1 : ({ s with rcache := b } : State) = s1 at hd
  have e1 : s1.mem = s.mem ∧ s1.groups = s.groups ∧ s1.reqs = s.reqs ∧ s1.locks = s.locks ∧ s1.clock = s.clock ∧ s1.owners = s.owners ∧ s1.txQueue sl = s.txQueue sl := by
    rw [← hs1]; exact ⟨rfl, rfl, rfl, rfl, rfl, rfl, rfl⟩
  have er : ∀ a, s1.rd8 a = s.rd8 a := by intro a; rw [← hs1]; rfl
  have g1 : Tbl.find s1.groups gs = some g := by rw [e1.2.1]; exact hg
  have q1 : Tbl.find s1.reqs id = some q := by rw [e1.2.2.1]; exact hq
  have he : exec (.txPrepare gs) s = .next ((s1.prepareLane gs sl id L).prepareDone id ser c.id) := by
    show execTxPrepare gs s = _
    unfold execTxPrepare
    simp only [ha, hd]
    rw [recallLines_free (by rw [e1.2.2.2.2.2.1]; exact hown)]
    dsimp only
    have hf : q.accs.filter (fun a => !a.perf) = q.accs := List.filter_eq_self.mpr fun a h => by simp [(hacc a h).2.1]
    rw [hf, dups_one _ _ hne fun a h => (hacc a h).1]
    rfl
  -- an answer at once
  have fin : ∀ (code : Nat) (u : State) (lk : Tbl (Nat × Nat)) (x : TxRun), s1.prepareLane gs sl id L = u → u.mem = s.mem → u.locks = lk →
      Tbl.find u.reqs id = some { q with accs := q.accs.map fun a => { a with perf := true, err := code } } → Tbl.find u.groups gs = some { g with txe := some x } →
      (∀ k, k ≠ gs → Tbl.find u.groups k = Tbl.find s.groups k) →
      ∃ t, does (.txPrepare gs) t ∧ others t ∧ t.locks = lk ∧ Answered t id q c code ∧ has t x := by
    intro code u lk x hu h1 h2 h3 h4 h5
    obtain ⟨⟨f1, f2, f3⟩, f4⟩ := prepareDone_spec (u := u) (id := id) (q0 := q) (c := c) (ser := ser) (code := code) h3 hr rfl rfl
    refine ⟨_, he.trans (by rw [hu]), ⟨f1.trans h1, fun k hk => by rw [f2]; exact h5 k hk⟩, f3.trans h2, f4, _, by rw [f2]; exact h4, rfl⟩
  have turned : ∀ code : Nat, s1.prepareLane gs sl id L = s1.prepareCode gs id L code →
      ∃ t, does (.txPrepare gs) t ∧ others t ∧ t.locks = s.locks ∧ Answered t id q c code ∧ has t r := by
    intro code hu
    rw [prepareCode_spec g1 ht q1 fun a h => (hacc a h).1, filter_wait hw] at hu
    exact fin code _ s.locks r hu e1.1 e1.2.2.2.1 (find_put_self _ _ _) (find_put_self _ _ _) (fun k hk => (find_put_other _ _ hk).trans (by rw [e1.2.1]))
  have lane : s1.prepareLane gs sl id L = (if (ws.any (fun x => match Tbl.find s.locks x.pa with | some o => o != (gs, L) | none => false) ||
        decide (1024 < (s.locks.filter (fun l => txSlice l.1 == sl)).length + ws.length)) = true then
      (if s.txQueue sl ≥ 64 then s1.prepareCode gs id L 5 else s1.updTxe gs fun r => { r with waiting := r.waiting ++ [(L, s.clock)] })
    else if ws.all (fun x => x.rd.all (· == s.rd8 x.pa)) = true then
      (({ s1 with locks := ws.foldl (fun (t : Tbl (Nat × Nat)) (x : TxWord) => Tbl.put t x.pa (gs, L)) s1.locks } : State).prepareCode gs id L 0).updTxe
        gs fun r => { r with
          prepared := match r.prepared.find? (fun p => p.1 == sl) with
            | some p => r.prepared.filter (fun p => p.1 != sl) ++ [(sl, p.2 ||| (1#32 <<< L))]
            | none => r.prepared ++ [(sl, 1#32 <<< L)] }
    else s1.prepareCode gs id L 1) := by
    have hnw : r.waiting.any (fun x => x.1 == L) = false := by
      rw [List.any_eq_false]; intro x hx; simpa using List.all_eq_true.mp hw x hx
    unfold State.prepareLane
    simp only [g1, Option.bind_some, ht, Option.map_some, hin, Bool.not_true, Bool.false_eq_true, if_false, hnw, e1.2.2.2.1, e1.2.2.2.2.1, e1.2.2.2.2.2.2, er]
    rfl
  have hfits : fits ↔ ¬ ((ws.any (fun x => match Tbl.find s.locks x.pa with | some o => o != (gs, L) | none => false) ||
        decide (1024 < (s.locks.filter (fun l => txSlice l.1 == sl)).length + ws.length)) = true) := by
    rw [Bool.or_eq_true, not_or, Bool.not_eq_true, List.any_eq_false, decide_eq_true_iff, Nat.not_lt]
    constructor
    · rintro ⟨h1, h2⟩
      refine ⟨fun x hx => ?_, h1⟩
      rcases h2 x hx with e | e <;> simp [e]
    · rintro ⟨h1, h2⟩
      refine ⟨h2, fun x hx => ?_⟩
      have := h1 x hx
      cases e : Tbl.find s.locks x.pa with
      | none => exact .inl rfl
      | some o => rw [e] at this; exact .inr (by simpa using this)
  refine ⟨fun h1 h2 h3 => ?_, fun h1 ⟨x, hx, v, hv, hne⟩ => ?_, fun h1 h2 => ?_, fun h1 h2 => ?_⟩
  · rw [if_neg (hfits.mp h1), if_pos (by rw [List.all_eq_true]; intro x hx; rw [List.all_eq_true]; intro v hv; simp [h2 x hx v hv])] at lane
    generalize hs2 : ({ s1 with locks := ws.foldl (fun (t : Tbl (Nat × Nat)) (x : TxWord) => Tbl.put t x.pa (gs, L)) s1.locks } : State) = s2 at lane
    have e2 : s2.mem = s1.mem ∧ s2.groups = s1.groups ∧ s2.reqs = s1.reqs ∧
        s2.locks = ws.foldl (fun (t : Tbl (Nat × Nat)) (x : TxWord) => Tbl.put t x.pa (gs, L)) s1.locks := by rw [← hs2]; exact ⟨rfl, rfl, rfl, rfl⟩
    have pc := prepareCode_spec (s := s2) (code := 0) (by rw [e2.2.1]; exact g1) ht (by rw [e2.2.2.1]; exact q1) fun a h => (hacc a h).1
    rw [filter_wait hw] at pc
    generalize s2.prepareCode gs id L 0 = s3 at lane pc
    have e3 : s3.mem = s2.mem ∧ s3.locks = s2.locks ∧ Tbl.find s3.reqs id = some { q with accs := q.accs.map fun a => { a with perf := true, err := 0 } } ∧
        Tbl.find s3.groups gs = some { g with txe := some { r with waiting := r.waiting } } ∧ ∀ k, k ≠ gs → Tbl.find s3.groups k = Tbl.find s.groups k := by
      rw [pc]
      exact ⟨rfl, rfl, find_put_self _ _ _, find_put_self _ _ _, fun k hk => (find_put_other _ _ hk).trans (by rw [e2.2.1, e1.2.1])⟩
    unfold State.updTxe at lane
    rw [updGroup_found e3.2.2.2.1] at lane
    obtain ⟨t, t1, t2, t3, t4, t5⟩ := fin 0 _ (ws.foldl (fun (t : Tbl (Nat × Nat)) (x : TxWord) => Tbl.put t x.pa (gs, L)) s1.locks)
      { r with prepared := r.prepared ++ [(sl, 1#32 <<< L)] } lane (e3.1.trans (e2.1.trans e1.1)) (e3.2.1.trans e2.2.2.2) e3.2.2.1
      ((find_put_self _ _ _).trans (by simp only [Option.map_some]; rw [h3]))
      (fun k hk => (find_put_other _ _ hk).trans (e3.2.2.2.2 k hk))
    exact ⟨t, t1, t2, fun x hx => by rw [t3]; exact put_fold _ _ _ _ (.inl ⟨x, hx, rfl⟩), t4, t5⟩
  · refine turned 1 ?_
    rw [lane, if_neg (hfits.mp h1), if_neg]
    intro h
    have := List.all_eq_true.mp (List.all_eq_true.mp h x hx) v hv
    exact hne (by simpa using this)
  · rw [if_pos (Decidable.not_not.mp (fun h => h1 (hfits.mpr h))), if_neg (by omega)] at lane
    unfold State.updTxe at lane
    rw [updGroup_found g1] at lane
    have hnd : ∀ u : State, Tbl.find u.reqs id = some q → u.prepareDone id ser c.id = u := by
      intro u hu
      unfold State.prepareDone
      rw [hu]
      dsimp only
      rw [if_neg]
      intro h
      cases hl : q.accs with
      | nil => exact hne hl
      | cons a l =>
        have := List.all_eq_true.mp h a (by rw [hl]; exact List.mem_cons_self ..)
        rw [(hacc a (by rw [hl]; exact List.mem_cons_self ..)).2.1] at this
        cases this
    refine ⟨_, he.trans (by rw [lane, hnd _ (by exact q1)]), ?_⟩
    exact ⟨⟨e1.1, fun k hk => (find_put_other _ _ hk).trans (by rw [e1.2.1])⟩, e1.2.2.2.1, e1.2.2.1, _, find_put_self _ _ _, by simp [ht]⟩
  · refine turned 5 ?_
    rw [lane, if_pos (Decidable.not_not.mp (fun h => h1 (hfits.mpr h))), if_pos h2]

/-- TX_PREPARE_TIMEOUT for the one lane that waits. -/
theorem prepare_timeout {s : State} {gs L id b : Nat} {g : Group} {r : TxRun} {q : Req} {c : Copy} {ser : BitVec 16} (hg : Tbl.find s.groups gs = some g) (ht : g.txe = some r)
    (ha : s.txArrived gs TxMsg.isPrepare = some (id, q, c, ser)) (hq : Tbl.find s.reqs id = some q) (hw : r.waiting = [(L, b)]) (hr : q.reply = none) :
    (s.clock < b + 4096 → exec (.txPrepareTimeout gs L) s = .next s) ∧
    (b + 4096 ≤ s.clock → (∀ a ∈ q.accs, a.lane = L ∧ a.perf = false) → ∃ t, exec (.txPrepareTimeout gs L) s = .next t ∧
      (t.mem = s.mem ∧ ∀ k, k ≠ gs → Tbl.find t.groups k = Tbl.find s.groups k) ∧ Answered t id q c 5 ∧
      ∃ h, Tbl.find t.groups gs = some h ∧ h.txe = some { r with waiting := [] }) := by
  have hx : exec (.txPrepareTimeout gs L) s = .next (if r.waiting.any (fun x => x.1 == L && decide (x.2 + 4096 ≤ s.clock)) then
      (s.prepareCode gs id L 5).prepareDone id ser c.id else s) := by
    show execTxPrepareTimeout gs L s = _
    unfold execTxPrepareTimeout
    simp only [hg, Option.bind_some, ht, ha]
  rw [hw] at hx
  refine ⟨fun h => ?_, fun h hacc => ?_⟩
  · rw [hx, if_neg (by simp; omega)]
  · rw [if_pos (by simp; omega)] at hx
    have pc := prepareCode_spec (code := 5) hg ht hq fun a h => (hacc a h).1
    generalize s.prepareCode gs id L 5 = u at hx pc
    have e : u.mem = s.mem ∧ Tbl.find u.reqs id = some { q with accs := q.accs.map fun a => { a with perf := true, err := 5 } } ∧
        Tbl.find u.groups gs = some { g with txe := some { r with waiting := r.waiting.filter (fun x => x.1 != L) } } ∧
        ∀ k, k ≠ gs → Tbl.find u.groups k = Tbl.find s.groups k := by
      rw [pc]; exact ⟨rfl, find_put_self _ _ _, find_put_self _ _ _, fun k hk => find_put_other _ _ hk⟩
    obtain ⟨⟨f1, f2, f3⟩, f4⟩ := prepareDone_spec (u := u) (id := id) (q0 := q) (c := c) (ser := ser) (code := 5) e.2.1 hr rfl rfl
    exact ⟨_, hx, ⟨f1.trans e.1, fun k hk => by rw [f2]; exact e.2.2.2 k hk⟩, f4, _, by rw [f2]; exact e.2.2.1, by simp [hw]⟩

/-- A packet about a transaction goes out under a new number. -/
theorem txSend_spec {s : State} {gs : Nat} {g : Group} (hg : Tbl.find s.groups gs = some g) (m : TxMsg) (lanes : Mask) (accs : List LaneAcc) :
    ∃ p : Req, s.txSend gs m lanes accs = { s with fresh := s.fresh + 1, reqs := Tbl.put s.reqs (s.fresh + 1) p } ∧ p.txMsg = some (gs, m) ∧ p.core = coreOf gs ∧ p.accs = accs := by
  unfold State.txSend State.putReq State.newId
  simp only [hg]
  exact ⟨_, rfl, rfl, rfl, rfl⟩

theorem dropReq_frame (s : State) (id : Nat) : (s.dropReq id).mem = s.mem ∧ (s.dropReq id).groups = s.groups ∧ (s.dropReq id).fresh = s.fresh ∧
    (s.dropReq id).spaces = s.spaces ∧ (s.dropReq id).wgs = s.wgs ∧ (s.dropReq id).grids = s.grids := by
  unfold State.dropReq
  dsimp only
  split <;> exact ⟨rfl, rfl, rfl, rfl, rfl, rfl⟩

theorem maskOf_true : maskOf (fun _ => true) = BitVec.allOnes 32 := by decide

/-- What the reply to a prepare does before the next packet or the decision. -/
def backRun (r : TxRun) (out : List (Nat × Nat)) : TxRun :=
  { r with lanes := r.lanes &&& maskOf fun L => !out.any (fun x => x.1 == L), waiting := [] }

theorem prepareReply_eq {s : State} {gs id : Nat} {g : Group} {r : TxRun} {q : Req} (hg : Tbl.find s.groups gs = some g) (ht : g.txe = some r)
    (hb : (s.txMsgs gs TxMsg.isPrepare).find? (fun e => e.2.stage == .performed && e.2.serial.isNone) = some (id, q)) :
    let out := (q.accs.filter (fun a => a.err != 0)).map fun a => (a.lane, a.err)
    let g1 := out.foldl (fun g x => if ((g.txLane x.1).open_) then g.txAbort [x.1] x.2 0 false else g) g
    g1.txe = some r ∧ ∃ u : State, u.mem = s.mem ∧ u.fresh = s.fresh ∧ u.spaces = s.spaces ∧ u.wgs = s.wgs ∧ u.grids = s.grids ∧
      (∀ k, k ≠ gs → Tbl.find u.groups k = Tbl.find s.groups k) ∧ Tbl.find u.groups gs = some { g1 with txe := some (backRun r out) } ∧
      exec (.txPrepareReply gs) s = .next (match (r.todo.drop 1).filter (fun sl => (laneList (backRun r out).lanes).any (fun L => !((g1.txLane L).at_ sl).isEmpty)) with
        | [] => u.takeDecision gs
        | sl :: l => (u.updTxe gs fun r => { r with todo := sl :: l }).sendPrepare gs sl) := by
  intro out g1
  have h1 : ∀ (l : List (Nat × Nat)) (g : Group), g.txe = some r → (l.foldl (fun g x => if ((g.txLane x.1).open_) then g.txAbort [x.1] x.2 0 false else g) g).txe = some r := by
    intro l
    induction l with
    | nil => exact fun _ h => h
    | cons x l ih =>
      intro g h
      refine ih _ ?_
      dsimp only
      split
      · obtain ⟨y, hy⟩ := txAbort_tx g [x.1] x.2 0 false
        rw [hy]; exact h
      · exact h
  have hg1 : g1.txe = some r := h1 out g ht
  obtain ⟨d1, d2, d3, d4, d5, d6⟩ := dropReq_frame s id
  have hx : exec (.txPrepareReply gs) s = .next (let s2 := ((s.dropReq id).updGroup gs fun _ => g1).updTxe gs fun r => backRun r out
      match (Tbl.find s2.groups gs).bind fun g => g.txe.map fun r => (g, r) with
      | none => s2
      | some (g, r) =>
        let todo := (r.todo.drop 1).filter (fun sl => (laneList r.lanes).any (fun L => !((g.txLane L).at_ sl).isEmpty))
        match todo with
        | [] => s2.takeDecision gs
        | sl :: _ => (s2.updTxe gs fun r => { r with todo }).sendPrepare gs sl) := by
    show execTxPrepareReply gs s = _
    unfold execTxPrepareReply
    simp only [hb]
    rw [updGroup_found (s := s.dropReq id) (by rw [d2]; exact hg), updGroup_found (s := s.dropReq id) (by rw [d2]; exact hg)]
    rfl
  rw [updGroup_found (s := s.dropReq id) (by rw [d2]; exact hg)] at hx
  generalize hv : ({ s.dropReq id with groups := Tbl.put (s.dropReq id).groups gs g1 } : State) = v at hx
  have hvg : Tbl.find v.groups gs = some g1 := by rw [← hv]; exact find_put_self _ _ _
  have hvo : ∀ k, k ≠ gs → Tbl.find v.groups k = Tbl.find s.groups k := by
    intro k hk; rw [← hv]; exact (find_put_other _ _ hk).trans (by rw [d2])
  have hu := updTxe_has hvg hg1 fun r => backRun r out
  refine ⟨hg1, v.updTxe gs (fun r => backRun r out), ?_, ?_, ?_, ?_, ?_, fun k hk => (updTxe_other _ _ _ hk).trans (hvo k hk), hu, ?_⟩
  · rw [← hv]; exact d1
  · rw [← hv]; exact d3
  · rw [← hv]; exact d4
  · rw [← hv]; exact d5
  · rw [← hv]; exact d6
  · rw [hx]
    dsimp only
    rw [hu]
    dsimp only [Option.bind_some, Option.map_some]
    cases h : (r.todo.drop 1).filter (fun sl => (laneList (backRun r out).lanes).any (fun L => !((g1.txLane L).at_ sl).isEmpty)) with
    | nil =>
      have h' : ((backRun r out).todo.drop 1).filter (fun sl => (laneList (backRun r out).lanes).any (fun L => !((({ g1 with txe := some (backRun r out) } : Group).txLane L).at_ sl).isEmpty)) = [] := h
      rw [h']
    | cons sl l =>
      have h' : ((backRun r out).todo.drop 1).filter (fun sl => (laneList (backRun r out).lanes).any (fun L => !((({ g1 with txe := some (backRun r out) } : Group).txLane L).at_ sl).isEmpty)) = sl :: l := h
      rw [h']

/-- The next slice's packet. -/
theorem sendPrepare_spec {s : State} {gs sl : Nat} {g : Group} {r : TxRun} (hg : Tbl.find s.groups gs = some g) (ht : g.txe = some r) :
    ∃ p : Req, s.sendPrepare gs sl = { s with fresh := s.fresh + 1, reqs := Tbl.put s.reqs (s.fresh + 1) p } ∧ p.txMsg = some (gs, .prepare sl) ∧ p.core = coreOf gs ∧
      ∀ a, (∃ b ∈ p.accs, a = (b.lane, b.locs)) ↔ ∃ L, inMask r.lanes L = true ∧ L < 32 ∧ ∃ x ∈ (g.txLane L).at_ sl, a = (L, [.mem x.pa]) := by
  unfold State.sendPrepare
  simp only [hg, Option.bind_some, ht, Option.map_some]
  obtain ⟨p, p1, p2, p3, p4⟩ := txSend_spec hg (.prepare sl) (maskOf (((laneList r.lanes).filter (fun L => !((g.txLane L).at_ sl).isEmpty)).contains ·))
    (((laneList r.lanes).filter (fun L => !((g.txLane L).at_ sl).isEmpty)).flatMap fun L => ((g.txLane L).at_ sl).map fun x =>
      { lane := L, ga := x.ga, locs := [.mem x.pa], len := 8, tx := true })
  refine ⟨p, p1, p2, p3, fun a => ?_⟩
  rw [p4]
  constructor
  · rintro ⟨b, hb, rfl⟩
    obtain ⟨L, hL, hb⟩ := List.mem_flatMap.mp hb
    obtain ⟨x, hx, rfl⟩ := List.mem_map.mp hb
    have := mem_laneList.mp (List.mem_filter.mp hL).1
    exact ⟨L, this.2, this.1, x, hx, rfl⟩
  · rintro ⟨L, h1, h2, x, hx, rfl⟩
    refine ⟨_, List.mem_flatMap.mpr ⟨L, List.mem_filter.mpr ⟨mem_laneList.mpr ⟨h2, h1⟩, ?_⟩, List.mem_map.mpr ⟨x, hx, rfl⟩⟩, rfl⟩
    cases h : (g.txLane L).at_ sl with
    | nil => rw [h] at hx; cases hx
    | cons _ _ => rfl

theorem reply_next {s : State} {gs id sl : Nat} {l : List Nat} {g : Group} {r : TxRun} {q : Req} (hg : Tbl.find s.groups gs = some g) (ht : g.txe = some r)
    (hb : (s.txMsgs gs TxMsg.isPrepare).find? (fun e => e.2.stage == .performed && e.2.serial.isNone) = some (id, q)) (herr : ∀ a ∈ q.accs, a.err = 0)
    (hl : (r.todo.drop 1).filter (fun sl => (laneList r.lanes).any (fun L => !((g.txLane L).at_ sl).isEmpty)) = sl :: l) :
    ∃ t, exec (.txPrepareReply gs) s = .next t ∧ (t.mem = s.mem ∧ ∀ k, k ≠ gs → Tbl.find t.groups k = Tbl.find s.groups k) ∧
      (∃ h, Tbl.find t.groups gs = some h ∧ h.txe = some { r with todo := sl :: l, waiting := [] }) ∧
      ∃ p : Req, Tbl.find t.reqs (s.fresh + 1) = some p ∧ p.txMsg = some (gs, .prepare sl) ∧ p.core = coreOf gs ∧
        ∀ a, (∃ b ∈ p.accs, a = (b.lane, b.locs)) ↔ ∃ L, inMask r.lanes L = true ∧ L < 32 ∧ ∃ x ∈ (g.txLane L).at_ sl, a = (L, [.mem x.pa]) := by
  have ho : (q.accs.filter (fun a => a.err != 0)).map (fun a => (a.lane, a.err)) = [] := by
    rw [List.map_eq_nil_iff, List.filter_eq_nil_iff]; intro a h; simp [herr a h]
  have := prepareReply_eq hg ht hb
  simp only [ho, List.foldl_nil] at this
  obtain ⟨_, u, u1, u2, u3, u4, u5, u6, u7, u8⟩ := this
  have hlm : (backRun r []).lanes = r.lanes := by
    unfold backRun
    simp only [List.any_nil, Bool.not_false, maskOf_true, BitVec.and_allOnes]
  rw [hlm, hl] at u8
  have hv := updTxe_has u7 rfl fun r => { r with todo := sl :: l }
  have ho : ∀ k, k ≠ gs → Tbl.find (u.updTxe gs fun r => { r with todo := sl :: l }).groups k = Tbl.find s.groups k := fun k hk => (updTxe_other _ _ _ hk).trans (u6 k hk)
  have hm : (u.updTxe gs fun r => { r with todo := sl :: l }).mem = s.mem ∧ (u.updTxe gs fun r => { r with todo := sl :: l }).fresh = s.fresh := ⟨u1, u2⟩
  simp only at u8
  generalize u.updTxe gs (fun r => { r with todo := sl :: l }) = v at u8 hv ho hm
  obtain ⟨p, p1, p2, p3, p4⟩ := sendPrepare_spec (sl := sl) hv rfl
  refine ⟨_, u8, ?_⟩
  rw [p1]
  refine ⟨⟨hm.1, ho⟩, ⟨_, hv, ?_⟩, p, by rw [← hm.2]; exact find_put_self _ _ _, p2, p3, ?_⟩
  · unfold backRun at hlm ⊢
    simp only at hlm
    rw [hlm]
  · have e : ({ backRun r [] with todo := sl :: l } : TxRun).lanes = r.lanes := hlm
    rw [e] at p4
    exact p4

/-- Packets move requests only; those sent stay. -/
structure Sends (s u : State) : Prop where
  mem    : u.mem = s.mem
  groups : u.groups = s.groups
  cores  : u.cores = s.cores
  locks  : u.locks = s.locks
  fresh  : s.fresh ≤ u.fresh
  kept   : ∀ k q, k ≤ s.fresh → Tbl.find s.reqs k = some q → Tbl.find u.reqs k = some q
theorem Sends.refl (s : State) : Sends s s := ⟨rfl, rfl, rfl, rfl, Nat.le_refl _, fun _ _ _ h => h⟩
theorem Sends.trans {a b c : State} (h : Sends a b) (k : Sends b c) : Sends a c :=
  ⟨k.mem.trans h.mem, k.groups.trans h.groups, k.cores.trans h.cores, k.locks.trans h.locks, Nat.le_trans h.fresh k.fresh,
    fun n q hn hq => k.kept n q (Nat.le_trans hn h.fresh) (h.kept n q hn hq)⟩
theorem sends_txSend {s : State} {gs : Nat} {g : Group} (hg : Tbl.find s.groups gs = some g) (m : TxMsg) (lanes : Mask) (accs : List LaneAcc) :
    Sends s (s.txSend gs m lanes accs) ∧ ∃ k q, k ≤ (s.txSend gs m lanes accs).fresh ∧ Tbl.find (s.txSend gs m lanes accs).reqs k = some q ∧ q.txMsg = some (gs, m) := by
  obtain ⟨p, p1, p2, _, _⟩ := txSend_spec hg m lanes accs
  rw [p1]
  refine ⟨⟨rfl, rfl, rfl, rfl, Nat.le_succ _, fun k q hk hq => (find_put_other _ _ (by omega)).trans hq⟩, _, p, Nat.le_refl _, find_put_self _ _ _, p2⟩

theorem sends_fold {α : Type} (f : α → TxMsg × Mask × List LaneAcc) (gs : Nat) (g : Group) : ∀ (l : List α) (s : State), Tbl.find s.groups gs = some g →
    let t := l.foldl (fun s x => s.txSend gs (f x).1 (f x).2.1 (f x).2.2) s
    Sends s t ∧ ∀ x ∈ l, ∃ k q, k ≤ t.fresh ∧ Tbl.find t.reqs k = some q ∧ q.txMsg = some (gs, (f x).1) := by
  intro l
  induction l with
  | nil => exact fun s _ => ⟨.refl s, fun _ h => by cases h⟩
  | cons x l ih =>
    intro s hg
    obtain ⟨h1, k, q, hk, hq, hm⟩ := sends_txSend hg (f x).1 (f x).2.1 (f x).2.2
    obtain ⟨h2, h3⟩ := ih (s.txSend gs (f x).1 (f x).2.1 (f x).2.2) (by rw [h1.groups]; exact hg)
    refine ⟨h1.trans h2, fun y hy => ?_⟩
    rcases List.mem_cons.mp hy with rfl | hy
    · exact ⟨k, q, Nat.le_trans hk h2.fresh, h2.kept k q hk hq, hm⟩
    · exact h3 y hy

theorem sends_aborts (gs : Nat) (g : Group) : ∀ (l : List (Nat × Nat)) (s : State), Tbl.find s.groups gs = some g → Sends s (s.sendAborts gs l) := by
  intro l
  unfold State.sendAborts
  induction l with
  | nil => exact fun s _ => .refl s
  | cons x l ih =>
    intro s hg
    rw [List.foldl_cons]
    dsimp only
    split
    · exact ih s hg
    · obtain ⟨h1, _⟩ := sends_txSend hg (.abort x.1 x.2) (1#32 <<< x.2) ((s.heldWords gs x.2 x.1).map fun pa => ({ lane := x.2, ga := BitVec.ofNat 64 pa, locs := [.mem pa], len := 8, tx := true } : LaneAcc))
      exact h1.trans (ih _ (by rw [h1.groups]; exact hg))

theorem decideTxe_spec {s : State} {gs : Nat} {g : Group} {r : TxRun} (hg : Tbl.find s.groups gs = some g) (ht : g.txe = some r) (m : Mask) :
    (s.decideTxe gs m).mem = s.mem ∧ (s.decideTxe gs m).cores = s.cores ∧ (∀ k, k ≠ gs → Tbl.find (s.decideTxe gs m).groups k = Tbl.find s.groups k) ∧
      Tbl.find (s.decideTxe gs m).groups gs = some { g with txe := some { r with lanes := m, decided := true } } ∧
      ∀ L sl, inMask m L = true → L < 32 → sl ∈ txSlices g [L] → ∃ k q, Tbl.find (s.decideTxe gs m).reqs k = some q ∧ q.txMsg = some (gs, .commit sl L) := by
  unfold State.decideTxe
  simp only [hg, Option.bind_some, ht, Option.map_some]
  have h1 := updTxe_has hg ht fun r => { r with lanes := m, decided := true }
  have h2 : ∀ k, k ≠ gs → Tbl.find (s.updTxe gs fun r => { r with lanes := m, decided := true }).groups k = Tbl.find s.groups k := fun k hk => updTxe_other _ _ _ hk
  have h3 : (s.updTxe gs fun r => { r with lanes := m, decided := true }).mem = s.mem ∧ (s.updTxe gs fun r => { r with lanes := m, decided := true }).cores = s.cores := ⟨rfl, rfl⟩
  generalize s.updTxe gs (fun r => { r with lanes := m, decided := true }) = u at h1 h2 h3 ⊢
  obtain ⟨k1, k2⟩ := sends_fold (fun x : Nat × Nat => (.commit x.1 x.2, 1#32 <<< x.2, (g.txLane x.2).accs x.1 x.2)) gs _
    ((laneList m).flatMap fun L => (txSlices g [L]).map fun sl => (sl, L)) u h1
  dsimp only at k1 k2
  generalize List.foldl (fun (s : State) (x : Nat × Nat) => s.txSend gs (.commit x.1 x.2) (1#32 <<< x.2) ((g.txLane x.2).accs x.1 x.2)) u
    ((laneList m).flatMap fun L => (txSlices g [L]).map fun sl => (sl, L)) = v at k1 k2 ⊢
  have k3 := sends_aborts gs _ (r.prepared.flatMap fun p => ((laneList p.2).filter (fun L => !inMask m L)).map fun L => (p.1, L)) v (by rw [k1.groups]; exact h1)
  refine ⟨k3.mem.trans (k1.mem.trans h3.1), k3.cores.trans (k1.cores.trans h3.2), fun k hk => by rw [k3.groups, k1.groups]; exact h2 k hk,
    by rw [k3.groups, k1.groups]; exact h1, fun L sl hi hL hs => ?_⟩
  obtain ⟨k, q, hk, hq, hm⟩ := k2 (sl, L) (List.mem_flatMap.mpr ⟨L, mem_laneList.mpr ⟨hL, hi⟩, List.mem_map.mpr ⟨sl, hs, rfl⟩⟩)
  exact ⟨k, q, k3.kept k q hk hq, hm⟩

theorem reply_decide {s : State} {gs id : Nat} {g : Group} {r : TxRun} {q : Req} {p : PcSlot} (hg : Tbl.find s.groups gs = some g) (ht : g.txe = some r)
    (hb : (s.txMsgs gs TxMsg.isPrepare).find? (fun e => e.2.stage == .performed && e.2.serial.isNone) = some (id, q)) (herr : ∀ a ∈ q.accs, a.err = 0)
    (hl : (r.todo.drop 1).filter (fun sl => (laneList r.lanes).any (fun L => !((g.txLane L).at_ sl).isEmpty)) = [])
    (hp : g.slot (txSlot g) = some p) (hc : p.phase = .commit) (hrec : (s.space (s.spidOf g)).records = false) (hrep : (s.space (s.spidOf g)).replay = none)
    (h0 : r.lanes ≠ 0#32) :
    ∃ t, exec (.txPrepareReply gs) s = .next t ∧ (t.mem = s.mem ∧ ∀ k, k ≠ gs → Tbl.find t.groups k = Tbl.find s.groups k) ∧
      (t.core (coreOf gs)).l1 = [] ∧ (∃ h, Tbl.find t.groups gs = some h ∧ h.txe = some { r with waiting := [], decided := true }) ∧
      ∀ L sl, inMask r.lanes L = true → L < 32 → sl ∈ txSlices g [L] → ∃ k q, Tbl.find t.reqs k = some q ∧ q.txMsg = some (gs, .commit sl L) := by
  have ho : (q.accs.filter (fun a => a.err != 0)).map (fun a => (a.lane, a.err)) = [] := by
    rw [List.map_eq_nil_iff, List.filter_eq_nil_iff]; intro a h; simp [herr a h]
  have := prepareReply_eq hg ht hb
  simp only [ho, List.foldl_nil] at this
  obtain ⟨_, u, u1, u2, u3, u4, u5, u6, u7, u8⟩ := this
  have hlm : (backRun r []).lanes = r.lanes := by
    unfold backRun
    simp only [List.any_nil, Bool.not_false, maskOf_true, BitVec.and_allOnes]
  rw [hlm, hl] at u8
  have hbr : backRun r [] = { r with waiting := [] } := by
    unfold backRun at hlm ⊢
    simp only at hlm
    rw [hlm]
  rw [hbr] at u7
  simp only at u8
  have hsp : u.spidOf { g with txe := some { r with waiting := [] } } = s.spidOf g := spidOf_same u4 u5 g
  have htd : u.takeDecision gs = (((u.tickRc gs).mergePending gs).acquireL1 (coreOf gs) .dev).decideTxe gs r.lanes := by
    unfold State.takeDecision
    simp only [u7]
    rw [if_neg (by
      have e : (({ g with txe := some { r with waiting := [] } } : Group).slot (txSlot { g with txe := some { r with waiting := [] } })) = some p := hp
      rw [e]; simp [hc])]
    unfold State.gated
    rw [hsp, gate_free (by rw [space_congr u3]; exact hrep)]
    dsimp only
    unfold State.logGroup
    rw [hsp, logEvent_off _ _ _ _ _ _ _ _ (by rw [space_congr u3]; exact hrec), if_neg h0]
  obtain ⟨⟨gr, te, di, t1⟩, t2, t3, _⟩ := tickRc_spec u gs _ u7
  have t4 : (u.tickRc gs).mem = u.mem := by rw [t1]
  obtain ⟨⟨gr2, m1⟩, m2, ch, m3, _⟩ := mergePending_spec (u.tickRc gs) gs _ t3
  have m4 : ((u.tickRc gs).mergePending gs).mem = u.mem := by rw [m1]; exact t4
  obtain ⟨a1, a2⟩ := acquireL1_spec ((u.tickRc gs).mergePending gs) (coreOf gs) .dev
  have a3 := a2 (by decide) (by decide)
  obtain ⟨d1, d2, d3, d4, d5⟩ := decideTxe_spec (s := ((u.tickRc gs).mergePending gs).acquireL1 (coreOf gs) .dev) (by rw [a1.2]; exact m3) rfl r.lanes
  refine ⟨_, u8, ?_⟩
  rw [htd]
  refine ⟨⟨d1.trans (a1.1.trans (m4.trans u1)), fun k hk => (d3 k hk).trans (by rw [a1.2, m2 k hk, t2 k hk, u6 k hk])⟩, ?_, ⟨_, d4, rfl⟩, d5⟩
  unfold State.core at a3 ⊢
  rw [d2]
  exact a3

end Sys2Proof.Laws
end

