-- ==== Sys2Proof/Laws/Felts.lean ====
section
/-! SUPPORT. What the Felts' steps leave. -/

namespace Sys2Proof.Laws

open Sys2Proof.Machine

theorem sub_upd {s : State} {c k : Nat} {e : SubEnt} (h : Tbl.find (s.core c).subs k = some e) (f : SubEnt → SubEnt) :
    Tbl.find ((s.updSub c k f).core c).subs k = some (f e) := by
  simp [State.updSub, h]
theorem pub_upd {s : State} {c k : Nat} {e : PubEnt} (h : Tbl.find (s.core c).pubs k = some e) (f : PubEnt → PubEnt) :
    Tbl.find ((s.updPub c k f).core c).pubs k = some (f e) := by
  simp [State.updPub, h]
theorem sub_updPub (s : State) (c k d j : Nat) (f : PubEnt → PubEnt) : Tbl.find ((s.updPub c k f).core d).subs j = Tbl.find (s.core d).subs j := by
  simp only [State.updPub, updCore_core]
  split
  · next h => rw [h]
  · rfl
theorem pub_updSub (s : State) (c k d j : Nat) (f : SubEnt → SubEnt) : Tbl.find ((s.updSub c k f).core d).pubs j = Tbl.find (s.core d).pubs j := by
  simp only [State.updSub, updCore_core]
  split
  · next h => rw [h]
  · rfl
theorem evict_eq {s : State} {core ix : Nat} {e : FeltEnt} {l : List FeltEnt} {p : PubEnt} (hf : (s.core core).felt = e :: l)
    (hp : (s.core core).pubs.filter (fun x => s.pubCovers x.2 e.seg) = [(ix, p)]) (hm : e.mask &&& ~~~(Tbl.get 0#64 e.sent ix) ≠ 0#64) :
    s.feltEvict core = (s.updCore core fun c => { c with felt := l }).sendUpd core ix p (e.upd ix (e.seg - s.pubBase p)) := by
  unfold State.feltEvict
  simp only [hf, hp, List.foldl_cons, List.foldl_nil, Option.bind_some]
  exact if_neg hm

/-- What an eviction leaves for the one publication that covers the oldest entry. -/
theorem evict_one {s : State} {core ix : Nat} {e : FeltEnt} {l : List FeltEnt} {p : PubEnt} (hf : (s.core core).felt = e :: l)
    (hp : (s.core core).pubs.filter (fun x => s.pubCovers x.2 e.seg) = [(ix, p)]) (hm : e.mask &&& ~~~(Tbl.get 0#64 e.sent ix) ≠ 0#64) (hc : core < 768) :
    let t := (s.feltEvict core).getD s
    let mine := fun (u : Upd) => u.src = core ∧ u.dst = s.subCore core p ∧ u.handle = p.shdl ∧ u.seg = e.seg - s.pubBase p ∧
      u.mask = e.mask &&& ~~~(Tbl.get 0#64 e.sent ix) ∧ u.data = e.data ∧ u.ser = (s.rqer core).next ∧ u.snap = false ∧ u.srcs = e.srcs ∧ u.drains = e.drains
    (p.st = .live → (s.rqer core).mustHold (feltOwner (s.subCore core p)) = false →
      ∃ u, t.mem = s.mem ∧ (t.core core).felt = l ∧ t.upds = s.upds ++ [u] ∧ mine u ∧ u.log = none) ∧
    (p.st = .live → (s.rqer core).mustHold (feltOwner (s.subCore core p)) = true → t = s) ∧
    (p.st = .log → p.logn < 4096 → (s.rqer core).mustHold (ownerOf (p.lbase + 128 * p.logn)) = false →
      ∃ (u : Upd) (k : Nat) (q : Req), t.mem = s.mem ∧ (t.core core).felt = l ∧ t.upds = s.upds ++ [u] ∧ mine u ∧
        u.log = some k ∧ Tbl.find t.reqs k = some q ∧ q.logs = true ∧ q.serial = some u.ser ∧ q.core = core ∧ q.stage = .mesh ∧
        q.accs = putAccs false (p.lbase + 128 * p.logn) (spillSlot u.ser u.seg u.mask u.data) ∧
        Tbl.find (t.core core).pubs ix = some { p with logn := p.logn + 1 }) ∧
    (p.st = .log → p.logn < 4096 → (s.rqer core).mustHold (ownerOf (p.lbase + 128 * p.logn)) = true → t = s) ∧
    (p.st = .log → 4096 ≤ p.logn → t.mem = s.mem ∧ (t.core core).felt = l ∧ t.upds = s.upds ∧ Tbl.find (t.core core).pubs ix = some { p with st := .broken }) ∧
    (p.st = .held → t = s) := by
  intro t mine
  have ht : t = ((s.updCore core fun c => { c with felt := l }).sendUpd core ix p (e.upd ix (e.seg - s.pubBase p))).getD s := by
    show (s.feltEvict core).getD s = _
    rw [evict_eq hf hp hm]
  clear_value t
  subst ht
  generalize hs1 : (s.updCore core fun c => { c with felt := l }) = s1
  have e1 : s1.mem = s.mem ∧ s1.upds = s.upds ∧ s1.fresh = s.fresh ∧ s1.reqs = s.reqs ∧ s1.rqers = s.rqers ∧ s1.wgs = s.wgs ∧ (s1.core core).felt = l := by
    rw [← hs1]; exact ⟨rfl, rfl, rfl, rfl, rfl, rfl, by simp⟩
  have r1 : ∀ c, s1.rqer c = s.rqer c := by intro c; unfold State.rqer; rw [e1.2.2.2.2.1]
  have d1 : s1.subCore core p = s.subCore core p := by unfold State.subCore; rw [e1.2.2.2.2.2.1]
  unfold State.sendUpd
  rw [d1]
  simp only [r1]
  refine ⟨fun h k => ?_, fun h k => ?_, fun h n k => ?_, fun h n k => ?_, fun h n => ?_, fun h => ?_⟩
  · simp only [h, k, Bool.false_eq_true, if_false, Option.getD_some]
    exact ⟨_, e1.1, e1.2.2.2.2.2.2, congrArg (· ++ [_]) e1.2.1, ⟨rfl, rfl, rfl, rfl, rfl, rfl, congrArg Requester.next (r1 core), rfl, rfl, rfl⟩, rfl⟩
  · simp [h, k]
  · simp only [h, k, Bool.false_eq_true, if_false, if_neg (Nat.not_le.mpr n), Option.getD_some]
    have hu : (s1.takeSerial core (ownerOf (p.lbase + 128 * p.logn))).1 = (s.rqer core).next := congrArg Requester.next (r1 core)
    generalize hx : s1.takeSerial core (ownerOf (p.lbase + 128 * p.logn)) = x at hu
    have x1 : x.2.mem = s.mem ∧ x.2.upds = s.upds ∧ (x.2.core core).felt = l := by
      rw [← hx]; exact ⟨e1.1, e1.2.1, e1.2.2.2.2.2.2⟩
    generalize hq : ({ x.2.putPacket (s1.logSender core p) (p.lbase + 128 * p.logn) (spillSlot x.1 (e.upd ix (e.seg - s.pubBase p)).seg
      (e.upd ix (e.seg - s.pubBase p)).mask (e.upd ix (e.seg - s.pubBase p)).data) with serial := some x.1 } : Req) = q
    have q1 : q.serial = some x.1 ∧ q.core = core ∧ q.stage = .mesh ∧ q.logs = true ∧ q.accs = putAccs false (p.lbase + 128 * p.logn) (spillSlot x.1
        (e.seg - s.pubBase p) (e.mask &&& ~~~(Tbl.get 0#64 e.sent ix)) e.data) := by
      rw [← hq]
      refine ⟨rfl, rfl, rfl, ?_, rfl⟩
      show (decide (logTag ≤ logTag + core) && decide (logTag + core < hostTag)) = true
      unfold logTag hostTag
      simp; omega
    have hf : Tbl.find (x.2.putReq q).reqs (x.2.fresh + 1) = some { q with nr := x.2.fresh + 1 } := find_put_self _ _ _
    obtain ⟨d, hd, _⟩ := addCopy_spec hf false
    have hd' : (x.2.putReq q).addCopy (x.2.fresh + 1) q false = _ := hd
    rw [hd']
    refine ⟨_, _, _, x1.1, ?_, congrArg (· ++ [_]) x1.2.1, ⟨rfl, rfl, rfl, rfl, rfl, rfl, hu, rfl, rfl, rfl⟩, rfl, find_put_self _ _ _, q1.2.2.2.1, q1.1, q1.2.1, q1.2.2.1,
      q1.2.2.2.2, ?_⟩
    · unfold State.newId State.updCore State.core
      dsimp only
      rw [find_put_self]
      exact x1.2.2
    · unfold State.newId State.updCore State.core
      dsimp only
      rw [find_put_self]
      exact find_put_self _ _ _
  · simp [h, k, Nat.not_le.mpr n]
  · simp only [h, if_pos n, Option.getD_some]
    refine ⟨e1.1, ?_, e1.2.1, ?_⟩
    · rw [updCore_core, if_pos rfl]; exact e1.2.2.2.2.2.2
    · rw [updCore_core, if_pos rfl]; exact find_put_self _ _ _
  · simp [h]

/-- The bytes of an update. -/
theorem upd_cells (b : Nat) (mask : W64) (d : List Byte) (old : Nat → Byte) (x : Nat) :
    ((((updCells b 0 mask d)).reverse.find? (fun c => c.1 == x)).map (·.2)).getD (old x) =
      if b * 64 ≤ x ∧ x < b * 64 + 64 ∧ mask.getLsbD (x - b * 64) = true then d.getD (x - b * 64) 0#8 else old x := by
  unfold updCells
  by_cases h : b * 64 ≤ x ∧ x < b * 64 + 64 ∧ mask.getLsbD (x - b * 64) = true
  · rw [if_pos h, find_single (a := (x, d.getD (x - b * 64) 0#8))]
    · rfl
    · rw [List.mem_reverse]
      exact List.mem_map.mpr ⟨x - b * 64, List.mem_filter.mpr ⟨List.mem_range.mpr (by omega), h.2.2⟩, by simp; omega⟩
    · simp
    · intro y hy hp
      rw [List.mem_reverse] at hy
      obtain ⟨i, _, rfl⟩ := List.mem_map.mp hy
      have e : b * 64 + i = x := by simpa using hp
      have hi : x - b * 64 = i := by omega
      rw [hi, Prod.mk.injEq]
      exact ⟨by omega, rfl⟩
  · rw [if_neg h]
    have : (((List.range 64).filter (fun i => mask.getLsbD i)).map fun i => ((b + 0) * 64 + i, d.getD i 0#8)).reverse.find? (fun c => c.1 == x) = none := by
      rw [List.find?_eq_none]
      intro y hy hp
      rw [List.mem_reverse] at hy
      obtain ⟨i, hi, rfl⟩ := List.mem_map.mp hy
      obtain ⟨h1, h2⟩ := List.mem_filter.mp hi
      have e : b * 64 + i = x := by simpa using hp
      have hi : x - b * 64 = i := by omega
      exact h ⟨by omega, by have := List.mem_range.mp h1; omega, by rw [hi]; exact h2⟩
    rw [this]; rfl

theorem lsWm_set (s : State) (c k : Nat) : (s.setLsWm c k 0#16).lsWm c k = 0#16 := by
  unfold State.setLsWm State.lsWm
  simp only [find_upd_self]
  cases Tbl.find s.cores c with
  | none => rfl
  | some x => simp [Tbl.get, Tbl.set, find_del_self]

theorem takeUpd_new {s : State} {dst h : Nat} {e : SubEnt} {seg : Nat} {mask : W64} {data : List Byte} {ser : BitVec 16} (hs : serLe ser e.last = false)
    (hb : (s.core dst).bad = []) (he : Tbl.find (s.core dst).subs h = some e) :
    let t := s.takeUpd dst h e seg mask data ser
    t.mem = s.mem ∧ t.upds = s.upds ∧ Tbl.find (t.core dst).subs h = some { e with last := ser } ∧ t.lsWm dst (s.subBase e + seg) = 0#16 ∧
      ∀ x, t.lsByte dst x = ((((updCells (s.subBase e + seg) 0 mask data)).reverse.find? (fun c => c.1 == x)).map (·.2)).getD (s.lsByte dst x) := by
  have ht : s.takeUpd dst h e seg mask data ser =
      ((s.updSub dst h fun e => { e with last := ser }).lsPut dst (updCells (s.subBase e) seg mask data)).setLsWm dst (s.subBase e + seg) 0#16 := by
    unfold State.takeUpd
    have hbad : s.lsBadPart dst (updCells (s.subBase e) seg mask data) = false := by unfold State.lsBadPart; rw [hb]; rfl
    rw [hs]
    simp only [hbad, Bool.false_eq_true, if_false]
  simp only
  rw [ht]
  refine ⟨rfl, rfl, ?_, lsWm_set _ _ _, ?_⟩
  · have e1 : ∀ (y : State) (k : Nat), ((y.setLsWm dst k 0#16).core dst).subs = (y.core dst).subs := by
      intro y k
      unfold State.setLsWm State.core
      simp only [find_upd_self]
      cases Tbl.find y.cores dst <;> rfl
    rw [e1]
    have e2 : ∀ (y : State) (l : List (Nat × Byte)), ((y.lsPut dst l).core dst).subs = (y.core dst).subs := by
      intro y l
      unfold State.lsPut
      rw [updCore_core, if_pos rfl]
    rw [e2]
    exact sub_upd he _
  · intro x
    rw [(banks_setLsWm _ _ _ _).2.2, byte_lsPut]
    have e1 : ∀ (y : State) (f : SubEnt → SubEnt), (y.updSub dst h f).lsByte dst x = y.lsByte dst x := by
      intro y f; unfold State.lsByte State.updSub; rw [updCore_core, if_pos rfl]
    rw [e1]
    rfl

theorem apply_one {s : State} {src dst : Nat} {u : Upd} {e : SubEnt} (hu : s.upds.find? (fun x => x.src == src && x.dst == dst && x.log.isNone) = some u)
    (ha : u.ackDetach = false) (hr : u.unreadable = false) (he : Tbl.find (s.core dst).subs u.handle = some e) (hst : e.st = .active) (hb : (s.core dst).bad = []) :
    ((u.ser - e.last).toNat < 2 ^ 15 → u.ser ≠ e.last → ∃ t, exec (.feltUpdateApply src dst) s = .next t ∧ t.mem = s.mem ∧ t.upds = s.upds.filter (fun x => x.id != u.id) ∧
      Tbl.find (t.core dst).subs u.handle = some { e with last := u.ser } ∧ t.lsWm dst (s.subBase e + u.seg) = 0#16 ∧
      (∀ i, i < 64 → t.lsByte dst ((s.subBase e + u.seg) * 64 + i) = if u.mask.getLsbD i then u.data.getD i 0#8 else s.lsByte dst ((s.subBase e + u.seg) * 64 + i)) ∧
      ∀ x, (x < (s.subBase e + u.seg) * 64 ∨ (s.subBase e + u.seg) * 64 + 64 ≤ x) → t.lsByte dst x = s.lsByte dst x) ∧
    (serLe u.ser e.last = true → ∃ t, exec (.feltUpdateApply src dst) s = .next t ∧ t.mem = s.mem ∧ t.upds = s.upds.filter (fun x => x.id != u.id) ∧
      Tbl.find (t.core dst).subs u.handle = some e ∧ ∀ x, t.lsByte dst x = s.lsByte dst x) := by
  have hx : ∃ s0 : State, exec (.feltUpdateApply src dst) s = .next ((s0.takeUpd dst u.handle e u.seg u.mask u.data u.ser).updSub dst u.handle fun e =>
      if u.lastSnap && e.st == .snap then { e with st := .active } else e) ∧ s0.mem = s.mem ∧ s0.cores = s.cores ∧ s0.wgs = s.wgs ∧
        s0.upds = s.upds.filter (fun x => x.id != u.id) := by
    refine ⟨({ s with upds := s.upds.filter (fun x => x.id != u.id) } : State).answerSerial src u.ser, ?_, rfl, rfl, rfl, rfl⟩
    show execFeltUpdateApply src dst s = _
    unfold execFeltUpdateApply
    simp only [hu, ha, Bool.false_eq_true, if_false]
    rw [show Tbl.find (State.core s dst).subs u.handle = some e from he]
    simp only [hst, hr]
    rfl
  obtain ⟨s0, hx, m0, c0, w0, u0⟩ := hx
  have k0 : ∀ c, s0.core c = s.core c := by intro c; unfold State.core; rw [c0]
  have b0 : s0.subBase e = s.subBase e := by unfold State.subBase; rw [w0]
  have l0 : ∀ x, s0.lsByte dst x = s.lsByte dst x := by intro x; unfold State.lsByte; rw [k0]
  have e1 : ∀ (y : State) (f : SubEnt → SubEnt) x, (y.updSub dst u.handle f).lsByte dst x = y.lsByte dst x := by
    intro y f x; unfold State.lsByte State.updSub; rw [updCore_core, if_pos rfl]
  refine ⟨fun h1 h2 => ?_, fun h => ?_⟩
  · have hle : serLe u.ser e.last = false := by
      unfold serLe
      rw [decide_eq_false_iff_not]
      intro h
      apply h2
      bv_omega
    obtain ⟨t1, t2, t3, t4, t5⟩ := takeUpd_new (s := s0) (mask := u.mask) (data := u.data) (seg := u.seg) hle (by rw [k0]; exact hb) (by rw [k0]; exact he)
    rw [b0] at t4 t5
    generalize s0.takeUpd dst u.handle e u.seg u.mask u.data u.ser = y at hx t1 t2 t3 t4 t5
    refine ⟨_, hx, t1.trans m0, t2.trans u0, ?_, ?_, ?_, ?_⟩
    · refine (sub_upd t3 _).trans ?_
      simp [hst]
    · rw [← t4]
      unfold State.lsWm State.updSub State.updCore
      simp only [find_put_self, Option.map_some, Option.getD_some]
      unfold State.core
      cases Tbl.find y.cores dst <;> rfl
    · intro i hi
      rw [e1, t5, l0, upd_cells]
      simp [hi]
    · intro x hxx
      rw [e1, t5, l0, upd_cells, if_neg (by omega)]
  · have ht : s0.takeUpd dst u.handle e u.seg u.mask u.data u.ser = s0 := by unfold State.takeUpd; rw [if_pos h]
    rw [ht] at hx
    refine ⟨_, hx, m0, u0, ?_, ?_⟩
    · refine (sub_upd (e := e) (by rw [k0]; exact he) _).trans ?_
      simp [hst]
    · intro x
      rw [e1, l0]

end Sys2Proof.Laws
end

