-- ==== Sys2Proof/Laws/Engines.lean ====
section
/-! SUPPORT. A step of a copy. -/

namespace Sys2Proof.Laws

open Sys2Proof.Machine

theorem copy_one {s s1 s2 : State} {core so d n : Nat} {op : CopyOp} {x : CopyTgt} {l : List Byte} (hq : (s.core core).cpq = [op]) (hh : s.wgHalted op.wg = false)
    (ht : op.tgts = [x]) (hf : x.fault = none) (hw : x.wait = []) (hn : op.next = some (so, d, n))
    (hsp : s.spent (s.agentOf op.gs op.wg op.sup op.pc op.id).part 6 core = false)
    (hg : (s.spend (s.agentOf op.gs op.wg op.sup op.pc op.id).part 6 core n).getPieces (s.agentOf op.gs op.wg op.sup op.pc op.id) op.ext (op.src.toNat + so) (n / 16) = (.ok l, s1))
    (hp : s1.putPieces (s.agentOf op.gs op.wg op.sup op.pc op.id) op.ext (op.dstAt x.ix d) 0 (piecesAt (op.dstAt x.ix d) l) = .done s2) :
    exec (.copyChunk core) s = .next (if op.step.next = none then s2.finishCopy (s.agentOf op.gs op.wg op.sup op.pc op.id) core op.step else
      s2.updCore core fun c => { c with cpq := c.cpq.map fun y => if y.id = op.id then op.step else y }) := by
  have hst : op.step.tgts = [x] := by unfold CopyOp.step; split <;> exact ht
  have hid : op.step.id = op.id := by unfold CopyOp.step; split <;> rfl
  have hkeep : ({ op with tgts := [x] } : CopyOp) = op := by rw [← ht]
  have hkeep2 : CopyOp.mk op.step.id op.step.cls op.step.gs op.step.wg op.step.pc op.step.dst op.step.src op.step.len op.step.rows op.step.sp op.step.dp
      op.step.row op.step.pos [x] op.step.ext op.step.sup op.step.again = op.step := by rw [← hst]
  have hr : overTargets (fun u t => u.retryTarget (s.agentOf op.gs op.wg op.sup op.pc op.id) op [] t) s op.tgts = ([x], s) := by
    unfold overTargets
    rw [ht]
    simp only [List.foldl_cons, List.foldl_nil, List.nil_append]
    have : s.retryTarget (s.agentOf op.gs op.wg op.sup op.pc op.id) op [] x = (x, s) := by
      unfold State.retryTarget
      rw [hf, hw]
    rw [this]
  have hc : s.copyStep core op = (if op.step.next = none then s2.finishCopy (s.agentOf op.gs op.wg op.sup op.pc op.id) core op.step else
      s2.updCore core fun c => { c with cpq := c.cpq.map fun y => if y.id = op.id then op.step else y }) := by
    have hk : s.keptBefore core op = [] := by
      unfold State.keptBefore
      rw [hq]
      simp
    unfold State.copyStep
    rw [hk]
    simp only [hr]
    rw [hkeep]
    simp only [hn]
    rw [if_neg (by simp [hf]), if_neg (by rw [hsp]; decide), hg]
    have hx : overTargets (fun u t => u.toTarget (s.agentOf op.gs op.wg op.sup op.pc op.id) op [] d l t) s1 [x] = ([x], s2) := by
      unfold overTargets
      simp only [List.foldl_cons, List.foldl_nil, List.nil_append]
      have : s1.toTarget (s.agentOf op.gs op.wg op.sup op.pc op.id) op [] d l x = (x, s2) := by
        unfold State.toTarget
        simp only [hf, hw, Option.isSome_none, Bool.false_eq_true, if_false, List.isEmpty_nil, Bool.not_true, List.contains_nil, Bool.or_self]
        unfold State.deliverChunk
        rw [hp]
        rw [← hw]
      rw [this]
    simp only [hx]
    rw [hkeep2]
    have hend : [x].all (fun t => t.fault.isSome || t.wait.isEmpty) = true := by simp [hw]
    rw [hend, hid]
    simp only [Bool.and_true, Option.isNone_iff_eq_none]
  show execCopyChunk core s = _
  unfold execCopyChunk
  simp only [hq]
  have e1 : [op].filter (fun o => !s.wgHalted o.wg) = [op] := by simp [hh]
  simp only [e1]
  simp only [List.takeWhile_cons, List.find?_cons, hn, Option.isNone_some, Option.isSome_some, Bool.false_eq_true, if_false, List.foldl_nil]
  rw [hc]

end Sys2Proof.Laws
end

