-- ==== Sys2Proof/Laws/Grids.lean ====
section
/-! SUPPORT. What grids and halts do: the quiet parts of a halt line, the workgroup a placement starts. -/

namespace Sys2Proof.Laws

open Sys2Proof.Machine

/-- The halting of a partition leaves these. -/
def Quiet (s t : State) : Prop := t.parts = s.parts ∧ t.spaces = s.spaces ∧ t.mem = s.mem ∧ t.wgs = s.wgs ∧ t.colls = s.colls
theorem Quiet.trans {s t u : State} (h : Quiet s t) (k : Quiet t u) : Quiet s u :=
  ⟨k.1.trans h.1, k.2.1.trans h.2.1, k.2.2.1.trans h.2.2.1, k.2.2.2.1.trans h.2.2.2.1, k.2.2.2.2.trans h.2.2.2.2⟩
theorem Quiet.refl (s : State) : Quiet s s := ⟨rfl, rfl, rfl, rfl, rfl⟩
theorem Quiet.foldl {α : Type} (f : State → α → State) (h : ∀ s x, Quiet s (f s x)) (l : List α) (s : State) : Quiet s (l.foldl f s) := by
  induction l generalizing s with
  | nil => exact .refl s
  | cons a t ih => exact (h s a).trans (ih (f s a))
theorem kept_endWalk (s : State) (k r : Nat) : Quiet s (s.endWalk k r) ∧ (s.endWalk k r).cores = s.cores := by
  cases h : (s.lb k).walk with
  | none => unfold State.endWalk; rw [h]; exact ⟨.refl s, rfl⟩
  | some w =>
    obtain ⟨gr, e, _⟩ := endWalk_eq (res := r) h
    rw [e]
    exact ⟨⟨rfl, rfl, rfl, rfl, rfl⟩, rfl⟩
theorem quiet_txSend (s : State) (gs : Nat) (m : TxMsg) (lanes : Mask) (l : List LaneAcc) : Quiet s (s.txSend gs m lanes l) := by
  unfold State.txSend
  split
  · exact .refl s
  · exact ⟨rfl, rfl, rfl, rfl, rfl⟩
theorem quiet_decideTxe (s : State) (gs : Nat) (m : Mask) : Quiet s (s.decideTxe gs m) := by
  unfold State.decideTxe
  split
  · exact .refl s
  · refine .trans ?_ (Quiet.foldl _ (fun s x => ?_) _ _)
    · exact Quiet.trans ⟨rfl, rfl, rfl, rfl, rfl⟩ (Quiet.foldl _ (fun s x => quiet_txSend ..) _ _)
    · dsimp only
      split
      · exact .refl s
      · exact quiet_txSend ..
theorem quiet_txSettle (s : State) (gs : Nat) : Quiet s (s.txSettle gs) := by
  unfold State.txSettle
  split
  · exact .refl s
  · split
    · exact ⟨rfl, rfl, rfl, rfl, rfl⟩
    · exact .refl s
theorem quiet_txUndo (s : State) (gs : Nat) : Quiet s (s.txUndo gs) := by
  unfold State.txUndo
  split
  · exact .refl s
  · dsimp only
    split
    · exact ⟨rfl, rfl, rfl, rfl, rfl⟩
    · split
      · exact ⟨rfl, rfl, rfl, rfl, rfl⟩
      · split
        · refine Quiet.trans ?_ (quiet_txSettle _ _)
          refine Quiet.trans ?_ (quiet_decideTxe _ _ _)
          exact ⟨rfl, rfl, rfl, rfl, rfl⟩
        · exact ⟨rfl, rfl, rfl, rfl, rfl⟩
theorem kept_stopWalks (s : State) (spids : List Nat) : Quiet s (s.stopWalks spids) ∧ (s.stopWalks spids).cores = s.cores := by
  unfold State.stopWalks
  simp only
  generalize s.lbs.filter _ = l
  have h : ∀ (l : List (Nat × LaneBlock)) (u : State), let v := l.foldl (fun s b => s.endWalk b.1 0) u
      Quiet u v ∧ v.cores = u.cores := by
    intro l
    induction l with
    | nil => intro u; exact ⟨⟨rfl, rfl, rfl, rfl, rfl⟩, rfl⟩
    | cons a l ih =>
      intro u
      have h1 := kept_endWalk u a.1 0
      have h2 := ih (u.endWalk a.1 0)
      exact ⟨h1.1.trans h2.1, h2.2.trans h1.2⟩
  exact h l s
theorem kept_abandon {s : State} (h : ∀ c ∈ s.cores, c.2.eng = []) (cause : Byte) (f : Nat → Bool) :
    Quiet s (s.abandonMat cause f) ∧ (s.abandonMat cause f).cores = s.cores := by
  have h0 : (s.cores.foldl (fun (l : List MatOp) c => l ++ c.2.eng.filter (fun o => f o.wg && !l.any (fun x => x.id == o.id))) []) = [] := by
    revert h
    induction s.cores with
    | nil => intro _; rfl
    | cons a l ih =>
      intro h
      simp only [List.foldl_cons, h a (List.mem_cons_self ..), List.filter_nil, List.append_nil]
      exact ih fun c hc => h c (List.mem_cons_of_mem _ hc)
  unfold State.abandonMat
  simp only [h0, List.foldl_nil]
  exact ⟨⟨rfl, rfl, rfl, rfl, rfl⟩, trivial⟩
theorem kept_discard {s : State} {core : Nat} (h : (s.core core).pubs = []) : Quiet s (s.feltDiscard core) ∧
    ∀ n, ((s.feltDiscard core).core n).pubs = (s.core n).pubs := by
  have h0 : s.haltedPubs core = [] := by unfold State.haltedPubs; rw [h]; rfl
  unfold State.feltDiscard
  simp only [h0, List.filter_nil, List.foldl_nil]
  refine ⟨⟨rfl, rfl, rfl, rfl, rfl⟩, fun n => ?_⟩
  unfold State.updCore State.core
  simp only [find_put]
  split
  · subst_vars; rfl
  · rfl
theorem kept_begin (s : State) (k : Nat) (why : Saving) (forced : Bool) :
    (s.beginSave k why forced).parts = s.parts ∧ (s.beginSave k why forced).mem = s.mem ∧ (s.beginSave k why forced).wgs = s.wgs ∧
      ∀ n, (n = k → (Tbl.find s.spaces n).isSome → (Tbl.find (s.beginSave k why forced).spaces n).map (·.st) = some .preempting) ∧
        (n ≠ k → Tbl.find (s.beginSave k why forced).spaces n = Tbl.find s.spaces n) := by
  refine ⟨rfl, rfl, rfl, fun n => ⟨fun h hs => ?_, fun h => ?_⟩⟩
  · subst h
    obtain ⟨p, hp⟩ := Option.isSome_iff_exists.mp hs
    show (Tbl.find (Tbl.upd s.spaces n _) n).map _ = _
    rw [find_upd_self, hp]; rfl
  · exact find_upd_other _ _ h
theorem kept_begins (why : State → Nat → Saving) (l : List Nat) (s : State) :
    let t := l.foldl (fun s k => s.beginSave k (why s k) true) s
    t.parts = s.parts ∧ t.mem = s.mem ∧ t.wgs = s.wgs ∧
      (∀ n, (Tbl.find s.spaces n).map (·.st) = some .preempting → (Tbl.find t.spaces n).map (·.st) = some .preempting) ∧
      ∀ n ∈ l, (Tbl.find s.spaces n).isSome → (Tbl.find t.spaces n).map (·.st) = some .preempting := by
  induction l generalizing s with
  | nil => exact ⟨rfl, rfl, rfl, fun _ h => h, fun _ h => absurd h (by simp)⟩
  | cons k l ih =>
    have h1 := kept_begin s k (why s k) true
    have h2 := ih (s.beginSave k (why s k) true)
    have hst : ∀ n, (Tbl.find s.spaces n).map (·.st) = some .preempting →
        (Tbl.find (s.beginSave k (why s k) true).spaces n).map (·.st) = some .preempting := by
      intro n hn
      by_cases e : n = k
      · exact (h1.2.2.2 n).1 e (by revert hn; cases Tbl.find s.spaces n <;> simp)
      · rw [(h1.2.2.2 n).2 e]; exact hn
    refine ⟨h2.1.trans h1.1, h2.2.1.trans h1.2.1, h2.2.2.1.trans h1.2.2.1, fun n hn => h2.2.2.2.1 n (hst n hn), fun n hn hs => ?_⟩
    by_cases e : n = k
    · exact h2.2.2.2.1 n ((h1.2.2.2 n).1 e hs)
    · refine h2.2.2.2.2 n ?_ ?_
      · rcases List.mem_cons.mp hn with h | h
        · exact absurd h e
        · exact h
      · rw [(h1.2.2.2 n).2 e]; exact hs
theorem find_of_mem {α : Type} {t : Tbl α} {e : Nat × α} (h : e ∈ t) : (Tbl.find t e.1).isSome = true := by
  induction t with
  | nil => simp at h
  | cons a t ih =>
    obtain ⟨j, b⟩ := a
    unfold Tbl.find
    by_cases hj : j = e.1
    · simp [hj]
    · rcases List.mem_cons.mp h with h | h
      · subst h; simp at hj
      · simpa [hj] using ih h
theorem halt_line {s : State} {part : Nat} {q : Partition} {h : Halt} (hp : Tbl.find s.parts part = some q) (hh : q.halt = some h)
    (hs : h.stopped = false) (he : ∀ c ∈ s.cores, c.2.eng = []) (hpub : ∀ c ∈ s.partCores part, (s.core c).pubs = []) (hc : s.colls = []) :
    ∃ t q1, exec (.haltLine part) s = .next t ∧ t.mem = s.mem ∧ t.wgs = s.wgs ∧ Tbl.find t.parts part = some q1 ∧
      q1.halt = some { h with
        skid := min 128 (s.clock - h.since), stopped := true
        engs := ((s.liveSpaces part).filter fun k => h.causes.any fun c => c.spid == k).flatMap (s.engStops part) } ∧
      ∀ k ∈ s.liveSpaces part, (∀ c ∈ h.causes, c.spid ≠ k) → (t.space k).st = .preempting := by
  have hb : (Tbl.find s.parts part).bind (·.halt) = some h := by rw [hp]; exact hh
  have hx : exec (.haltLine part) s = execHaltLine part s := rfl
  rw [hx]
  unfold execHaltLine
  simp only [hb, hs, Bool.false_eq_true, if_false]
  generalize hm : (s.liveSpaces part).filter (fun k => h.causes.any (fun c => c.spid == k)) = mine
  generalize hs1 : s.updPart part _ = s1
  have k1p : Tbl.find s1.parts part = some { q with halt := some { h with skid := min 128 (s.clock - h.since), engs := mine.flatMap (s.engStops part) } } := by
    rw [← hs1]; unfold State.updPart; simp only [find_upd_self, hp, Option.map_some]; try simp [hs]
  have k1 : s1.spaces = s.spaces ∧ s1.mem = s.mem ∧ s1.wgs = s.wgs ∧ s1.colls = s.colls ∧ s1.cores = s.cores := by
    rw [← hs1]; exact ⟨rfl, rfl, rfl, rfl, rfl⟩
  clear hs1
  have k2 := kept_stopWalks s1 (s.liveSpaces part)
  generalize s1.stopWalks (s.liveSpaces part) = s2 at k2 ⊢
  have he2 : ∀ c ∈ s2.cores, c.2.eng = [] := by rw [k2.2, k1.2.2.2.2]; exact he
  have k3 : ∀ (f : State → Nat → Byte × (Nat → Bool)) (l : List Nat) (u : State), (∀ c ∈ u.cores, c.2.eng = []) →
      Quiet u (l.foldl (fun s k => s.abandonMat (f s k).1 (f s k).2) u) ∧ (l.foldl (fun s k => s.abandonMat (f s k).1 (f s k).2) u).cores = u.cores := by
    intro f l
    induction l with
    | nil => intro u _; exact ⟨⟨rfl, rfl, rfl, rfl, rfl⟩, rfl⟩
    | cons a l ih =>
      intro u hu
      have h1 := kept_abandon hu (f u a).1 (f u a).2
      have h2 := ih (u.abandonMat (f u a).1 (f u a).2) (by rw [h1.2]; exact hu)
      exact ⟨h1.1.trans h2.1, h2.2.trans h1.2⟩
  have k3 := k3 (fun s k => (((h.causes.find? (fun c => c.spid == k)).map (·.cause)).getD 0#8,
    fun wg => ((Tbl.find s.wgs wg).map fun w => s.wgSpid w == k).getD false)) mine s2 he2
  simp only at k3
  generalize mine.foldl _ s2 = s3 at k3 ⊢
  have k4 : ∀ (l : List Nat) (u : State), (∀ c ∈ l, (u.core c).pubs = []) → Quiet u (l.foldl State.feltDiscard u) := by
    intro l
    induction l with
    | nil => intro u _; exact ⟨rfl, rfl, rfl, rfl, rfl⟩
    | cons a l ih =>
      intro u hu
      have h1 := kept_discard (hu a (List.mem_cons_self ..))
      exact h1.1.trans (ih _ fun c hc => by rw [h1.2]; exact hu c (List.mem_cons_of_mem _ hc))
  have k4 := k4 (s.partCores part) s3 (fun c hm => by
    unfold State.core; rw [k3.2, k2.2, k1.2.2.2.2]; exact hpub c hm)
  generalize (s.partCores part).foldl State.feltDiscard s3 = s4 at k4 ⊢
  have k5 := k2.1.trans (k3.1.trans k4)
  have hco : s4.colls = [] := by rw [k5.2.2.2.2, k1.2.2.2.1, hc]
  have ha : ∀ f, s4.abortOf f = s4 := by intro f; unfold State.abortOf; rw [hco]; rfl
  rw [ha]
  have k7 := Quiet.foldl (fun (s : State) (x : Nat × Group) => s.txUndo x.1) (fun s x => quiet_txUndo s x.1)
    (s4.groups.filter (fun x => x.1 % 16 != 15 && ((Tbl.find s.wgs x.2.wg).map fun w => mine.contains (s.wgSpid w)).getD false)) s4
  replace k5 := k5.trans k7
  generalize (s4.groups.filter (fun x => x.1 % 16 != 15 && ((Tbl.find s.wgs x.2.wg).map fun w => mine.contains (s.wgSpid w)).getD false)).foldl
    (fun (s : State) (x : Nat × Group) => s.txUndo x.1) s4 = s5 at k5 k7 ⊢
  have k6 := kept_begins (fun s k => (s.space k).saving.halted) ((s.liveSpaces part).filter fun k => !mine.contains k) s5
  simp only at k6
  generalize List.foldl (fun s k => State.beginSave s k (s.space k).saving.halted true) _ _ = s6 at k6 ⊢
  refine ⟨_, { q with halt := some { h with skid := min 128 (s.clock - h.since), engs := mine.flatMap (s.engStops part), stopped := true } }, rfl, k6.2.1.trans (k5.2.2.1.trans k1.2.1), k6.2.2.1.trans (k5.2.2.2.1.trans k1.2.2.1), ?_, ?_, ?_⟩
  · show Tbl.find (Tbl.upd s6.parts part _) part = _
    rw [find_upd_self, k6.1]
    show (Tbl.find s5.parts part).map _ = _
    rw [k5.1, k1p]; rfl
  · rfl
  · intro k hk hn
    have hsp : s5.spaces = s.spaces := k5.2.1.trans k1.1
    have hk0 : (Tbl.find s5.spaces k).isSome = true := by
      rw [hsp]
      unfold State.liveSpaces at hk
      obtain ⟨e, he, rfl⟩ := List.mem_map.mp hk
      exact find_of_mem (List.mem_filter.mp he).1
    have hkm : k ∈ (s.liveSpaces part).filter fun k => !mine.contains k := by
      refine List.mem_filter.mpr ⟨hk, ?_⟩
      simp only [← hm, Bool.not_eq_true', List.contains_eq_mem, decide_eq_false_iff_not, List.mem_filter, not_and]
      intro _ hh
      obtain ⟨c, hc, he⟩ := List.any_eq_true.mp hh
      exact hn c hc (beq_iff_eq.mp he)
    have h := k6.2.2.2.2 k hkm hk0
    show ((Tbl.find s6.spaces k).getD {}).st = _
    revert h
    cases Tbl.find s6.spaces k <;> simp
theorem startWg_spec {s : State} {gid : Nat} {g : Grid} {p : Place} (hg : Tbl.find s.grids gid = some g)
    (hr : (s.space g.spid).replay = none) (hc : (s.space g.spid).records = false) :
    (∃ w, Tbl.find (s.startWg gid p).wgs (s.fresh + 1) = some w ∧ w.grid = gid ∧ w.wgidx = g.next ∧ w.core = p.core ∧ w.ngrp = g.groups ∧
      w.lsBase = 1024 * p.ls ∧ w.rank = g.next % g.gangSize) ∧ (s.startWg gid p).mem = s.mem ∧
      ∃ g1, Tbl.find (s.startWg gid p).grids gid = some g1 ∧ g1.next = g.next + 1 := by
  unfold State.startWg
  simp only [hg]
  have kg : (s.newId.2.gangFor gid g (clusterOf p.core)).2.grids = s.grids ∧ (s.newId.2.gangFor gid g (clusterOf p.core)).2.spaces = s.spaces ∧
      (s.newId.2.gangFor gid g (clusterOf p.core)).2.mem = s.mem := by
    unfold State.gangFor
    split <;> exact ⟨rfl, rfl, rfl⟩
  generalize s.newId.2.gangFor gid g (clusterOf p.core) = k at kg ⊢
  have ke : ∀ u : State, u.spaces = s.spaces → ∀ name key v, u.deckleEvent g.spid name key v = u := by
    intro u hu name key v
    unfold State.deckleEvent State.nextAt
    simp only [space_congr hu, hr]
    exact logEvent_off u g.spid 4 0xFF name 0#32 key v (by rw [space_congr hu]; exact hc)
  have kf : ∀ (f : State → Nat → State), (∀ u i, (f u i).wgs = u.wgs ∧ (f u i).mem = u.mem ∧ (f u i).grids = u.grids ∧ (f u i).spaces = u.spaces) →
      ∀ (l : List Nat) (u : State), (l.foldl f u).wgs = u.wgs ∧ (l.foldl f u).mem = u.mem ∧ (l.foldl f u).grids = u.grids ∧ (l.foldl f u).spaces = u.spaces := by
    intro f hf l
    induction l with
    | nil => intro u; exact ⟨rfl, rfl, rfl, rfl⟩
    | cons a l ih =>
      intro u
      have h1 := hf u a
      have h2 := ih (f u a)
      exact ⟨h2.1.trans h1.1, h2.2.1.trans h1.2.1, h2.2.2.1.trans h1.2.2.1, h2.2.2.2.trans h1.2.2.2⟩
  generalize hu : State.updGrid _ gid _ = u
  have hw : ∃ w, Tbl.find u.wgs (s.fresh + 1) = some w ∧ w.grid = gid ∧ w.wgidx = g.next ∧ w.core = p.core ∧ w.ngrp = g.groups ∧
      w.lsBase = 1024 * p.ls ∧ w.rank = g.next % g.gangSize := by
    rw [← hu]; exact ⟨_, find_put_self .., rfl, rfl, rfl, rfl, rfl, rfl⟩
  have hgr : ∃ g1, Tbl.find u.grids gid = some g1 ∧ g1.next = g.next + 1 := by
    rw [← hu]
    unfold State.updGrid
    simp only [find_upd_self, kg.1, hg]
    exact ⟨_, rfl, rfl⟩
  have hm : u.mem = s.mem ∧ u.spaces = s.spaces := by rw [← hu]; exact ⟨kg.2.2, kg.2.1⟩
  clear hu
  generalize hv : List.foldl _ u (List.range g.groups) = v
  have k2 : v.wgs = u.wgs ∧ v.mem = u.mem ∧ v.grids = u.grids ∧ v.spaces = u.spaces := by
    rw [← hv]
    refine kf _ ?_ _ _
    exact fun _ _ => ⟨rfl, rfl, rfl, rfl⟩
  clear hv
  have kl : ∀ u : State, (u.l1Clear p.core).wgs = u.wgs ∧ (u.l1Clear p.core).mem = u.mem ∧ (u.l1Clear p.core).grids = u.grids ∧ (u.l1Clear p.core).spaces = u.spaces := by
    intro u
    unfold State.l1Clear
    split <;> exact ⟨rfl, rfl, rfl, rfl⟩
  obtain ⟨l1, l2, l3, l4⟩ := kl (v.clearLswm p.core (1024 * p.ls) (1024 * kib g.lsBytes))
  generalize (v.clearLswm p.core (1024 * p.ls) (1024 * kib g.lsBytes)).l1Clear p.core = y at l1 l2 l3 l4 ⊢
  have k3 : y.wgs = v.wgs ∧ y.mem = v.mem ∧ y.grids = v.grids ∧ y.spaces = v.spaces := ⟨l1, l2, l3, l4⟩
  rw [ke _ (by rw [k3.2.2.2, k2.2.2.2, hm.2])]
  refine ⟨?_, ?_, ?_⟩
  · rw [k3.1, k2.1]; exact hw
  · exact k3.2.1.trans (k2.2.1.trans hm.1)
  · rw [k3.2.2.1, k2.2.2.1]; exact hgr

end Sys2Proof.Laws
end

