-- ==== Sys2Proof/Laws/Queues.lean ====
section
/-! SUPPORT. What queues do: accesses of the Headbox leave queues and packets, a lane takes a packet, a packet is served. -/

namespace Sys2Proof.Laws

open Sys2Proof.Machine

/-- Accesses of the Headbox leave queues and packets. -/
def Tasks (s u : State) : Prop := u.queues = s.queues ∧ u.packets = s.packets
theorem Tasks.trans {a b c : State} (h : Tasks a b) (k : Tasks b c) : Tasks a c := ⟨k.1.trans h.1, k.2.trans h.2⟩
theorem tasks_spend (s : State) (p m i n : Nat) : Tasks s (s.spend p m i n) := by
  unfold State.spend
  split
  · exact ⟨rfl, rfl⟩
  · split <;> exact ⟨rfl, rfl⟩
theorem tasks_log (s : State) (a : Nat) (l : List Byte) : Tasks s (s.logBytes a l) := ⟨rfl, rfl⟩
theorem tasks_space (s : State) (n : Nat) (f : Space → Space) : Tasks s (s.updSpace n f) := ⟨rfl, rfl⟩
theorem tasks_putDbg (s : State) (n : Nat) : Tasks s (s.putDbg n) := tasks_log ..
theorem tasks_undo (s : State) (a b : Nat) : Tasks s (s.undo a b) := by
  unfold State.undo State.overflow
  simp only
  repeat' split
  · exact ⟨rfl, rfl⟩
  · exact (tasks_space ..).trans (tasks_putDbg _ _)
  · exact ((tasks_log ..).trans (tasks_log ..)).trans ((tasks_space ..).trans (tasks_putDbg _ _))
theorem tasks_fold {α : Type} (f : State → α → State) (h : ∀ s a, Tasks s (f s a)) (l : List α) (s : State) : Tasks s (l.foldl f s) := by
  induction l generalizing s with
  | nil => exact ⟨rfl, rfl⟩
  | cons a l ih => exact (h s a).trans (ih _)
theorem tasks_ite {s x y : State} (p : Prop) [Decidable p] (hx : Tasks s x) (hy : Tasks s y) : Tasks s (if p then x else y) := by
  split
  · exact hx
  · exact hy
theorem tasks_l2Place (s : State) (p l : Nat) : Tasks s (s.l2Place p l) := by
  unfold State.l2Place
  dsimp only
  split
  · exact ⟨rfl, rfl⟩
  · split
    · exact ⟨rfl, rfl⟩
    · split
      · exact ⟨rfl, rfl⟩
      · rename_i v _ _
        exact ((show Tasks s { s with free := s.free + 1 } from ⟨rfl, rfl⟩).trans
          ((tasks_spend _ p 0 _ _).trans (show Tasks _ (State.dropLine _ v.1) from ⟨rfl, rfl⟩))).trans ⟨rfl, rfl⟩
theorem tasks_l2Sector (s : State) (p n : Nat) (b : Bool) : Tasks s (s.l2Sector p n b) := by
  unfold State.l2Sector
  dsimp only
  split
  · exact tasks_l2Place ..
  · refine tasks_ite _ (tasks_l2Place ..) ?_
    have h : ∀ x : Tbl L2Line, Tasks s (({ s.l2Place p (n / 2) with l2 := x } : State).clearSector n) := fun x => (tasks_l2Place s p (n / 2)).trans ⟨rfl, rfl⟩
    exact tasks_ite _ ((h _).trans (tasks_spend ..)) (h _)
theorem tasks_touch (s : State) (a b : Nat) (k : Bool) (l : List (Nat × Byte)) (n : Nat) : Tasks s (s.touchSector a b k l n) := by
  unfold State.touchSector
  dsimp only
  have h : Tasks s (if k = true then (s.undo a (n / 2)).l2Sector b n (!coversSector l n)
      else if ((s.undo a (n / 2)).l2Has n || !(s.undo a (n / 2)).ownMem (n / 2 * 128)) = true then s.undo a (n / 2)
      else (s.undo a (n / 2)).dram b (n / 2) ((l.filter (fun c => c.1 / 64 == n)).length)) :=
    tasks_ite _ ((tasks_undo ..).trans (tasks_l2Sector ..)) (tasks_ite _ (tasks_undo ..) ((tasks_undo ..).trans (tasks_spend ..)))
  split
  · exact h
  · exact h.trans ⟨rfl, rfl⟩
theorem tasks_homeWrite (s : State) (a b : Nat) (k : Bool) (l : List (Nat × Byte)) : Tasks s (s.homeWrite a b k l) := by
  unfold State.homeWrite
  dsimp only
  generalize (if (s.space a).reruns = true then l.filter (fun c => s.ownMem c.1) else l) = l
  have h := tasks_fold (fun u x => u.touchSector a b k l x) (fun u x => tasks_touch ..) ((l.map (fun c => c.1 / 64)).eraseDups) s
  exact h.trans ⟨rfl, rfl⟩
theorem tasks_plain (s : State) (a b : Nat) (u : Bool) (pa : Nat) (l : List Byte) : Tasks s (s.plainWrite a b u pa l) := by
  unfold State.plainWrite
  exact (tasks_homeWrite s a b (!u) (cellsAt pa l)).trans ((tasks_fold State.clearSector (fun _ _ => ⟨rfl, rfl⟩) _ _).trans
    (tasks_fold State.dropCopies (fun _ _ => ⟨rfl, rfl⟩) _ _))
theorem tasks_putQcb (s : State) (n : Nat) (c : Qcb) (all : Bool) : (s.putQcb n c all).queues = Tbl.put s.queues n c ∧ (s.putQcb n c all).packets = s.packets := by
  unfold State.putQcb
  simp only
  have h := fun (o x : Nat) (u : State) => tasks_plain u 0 0 false (s.qcbAt n + o) (toBytes 8 x)
  split
  · exact ((((((h 8 _ { s with queues := Tbl.put s.queues n c }).trans (h 0x10 _ _)).trans (h 0x18 _ _)).trans (h 0x20 _ _)).trans (h 0x28 _ _)).trans (h 0x30 _ _))
  · exact ((h 8 _ { s with queues := Tbl.put s.queues n c }).trans (h 0x10 _ _)).trans (h 0x18 _ _)
theorem mem_insertBy {α : Type} (key : α → Nat) (a x : α) (l : List α) (h : x ∈ insertBy key a l) : x = a ∨ x ∈ l := by
  induction l with
  | nil => exact .inl (List.mem_singleton.mp h)
  | cons b t ih =>
    unfold insertBy at h
    split at h
    · exact List.mem_cons.mp h
    · rcases List.mem_cons.mp h with h | h
      · exact .inr (h ▸ List.mem_cons_self ..)
      · exact (ih h).imp id (List.mem_cons_of_mem _)
theorem mem_of_sort {α : Type} {key : α → Nat} {x : α} {l : List α} (h : x ∈ sortBy key l) : x ∈ l := by
  induction l with
  | nil => exact h
  | cons a t ih =>
    rcases mem_insertBy key a x _ h with h | h
    · exact h ▸ List.mem_cons_self ..
    · exact List.mem_cons_of_mem _ (ih h)
theorem cacheQ_found {s : State} {n : Nat} {c : Qcb} (h : Tbl.find s.queues n = some c) (hu : ∀ x ∈ s.queues, x.1 = n → x.2 = c) :
    Tbl.find (s.cacheQ n).queues n = some { c with cached := true } := by
  unfold State.cacheQ
  simp only [h]
  split
  · rename_i hk
    rw [h]
    cases c; simp_all
  · rename_i hk
    unfold State.updQcb
    simp only [find_upd_self]
    split
    · rw [h]; rfl
    · split
      · rename_i v l hv
        have hm : v ∈ s.queues.filter (fun x => x.2.cached && x.2.die == c.die && x.1 % 64 == n % 64) :=
          mem_of_sort (key := fun x : Nat × Qcb => Config.freeKey s.free x.1) (by rw [hv]; exact List.mem_cons_self ..)
        have hn : n ≠ v.1 := by
          intro e
          have := hu v (List.mem_filter.mp hm).1 e.symm
          have hc := (List.mem_filter.mp hm).2
          rw [this] at hc
          simp [hk] at hc
        rw [(tasks_putQcb ..).1, find_put_other _ _ hn]
        show (Tbl.find s.queues n).map _ = _
        rw [h]; rfl
      · rw [h]; rfl
theorem haltQueue_found {s : State} {n : Nat} {c : Qcb} (h : Tbl.find s.queues n = some c) (ha : c.st = .active) (hu : ∀ x ∈ s.queues, x.1 = n → x.2 = c)
    (err det idx : Nat) : Tbl.find (s.haltQueue n err det idx).queues n =
      some { c with st := .halted, err := BitVec.ofNat 8 err, det := BitVec.ofNat 8 det, erridx := idx, cached := true } := by
  unfold State.haltQueue
  simp only [cacheQ_found h hu]
  rw [if_neg (by simp [ha]), (tasks_putQcb ..).1, find_put_self]
theorem lane_take {s : State} {n : Nat} {c : Qcb} (hn : n ≠ safeQueue) (hc : Tbl.find s.queues n = some c) (hr : s.queueReady n c = true)
    (hf : s.queueFirst n c = true) (hk : c.cached = true) :
    exec (.headboxLaneTake n) s = .next (({ s with rr := Tbl.put s.rr (c.die * 4 + c.cls) (n + 1) } : State).takePacket n c) := by
  show execHeadboxLaneTake n s = _
  unfold execHeadboxLaneTake
  rw [if_neg hn]
  have e : s.cacheQ n = s := by unfold State.cacheQ; rw [hc]; simp [hk]
  unfold State.laneTake
  rw [hc]
  simp only [hr, hf, Bool.not_true, Bool.or_self, Bool.false_eq_true, if_false, e, hc]
theorem serve_spec {s : State} {pk : Nat} {p : Packet} {c : Qcb} (hp : Tbl.find s.packets pk = some p) (hs : p.safe = false)
    (hc : Tbl.find s.queues p.queue = some c) (typ : Nat) (k : Packet → Qcb → State → Served) (ht : p.typ = typ) : s.servePk pk typ k =
      if !s.mayStart p c then s else if s.mustWait p c then s.updPk pk fun p => { p with st := .parked, since := 0 } else p.served pk (k p c s) := by
  unfold State.servePk
  rw [hp]
  simp [hs, hc, ht]
theorem doorbell_spec {s : State} {hwq n : Nat} {v : W64} {c : Qcb} (hv : v.toNat < 2 ^ 63)
    (hq : s.queues.find? (fun q => q.2.hb && q.2.hwq == hwq && q.2.st == .active) = some (n, c)) (hc : Tbl.find s.queues n = some c) (hk : c.cached = true) :
    ∃ t, exec (.doorbellWrite hwq v) s = .next t ∧ t.mem = s.mem ∧
      Tbl.find t.queues n = some { c with db := max c.db v.toNat, reread := none } ∧
      ∀ pk p, Tbl.find s.packets pk = some p → Tbl.find t.packets pk =
        some (if p.queue = n ∧ p.safe = false ∧ p.st = .parked then { p with since := 0 } else p) := by
  have e : s.cacheQ n = s := by unfold State.cacheQ; rw [hc]; simp [hk]
  have hx : exec (.doorbellWrite hwq v) s = .next { s.updQcb n fun c => { c with db := max c.db v.toNat, reread := none } with
      packets := s.packets.map fun (p : Nat × Packet) =>
        (p.1, (fun _ (q : Packet) => if q.queue == n && !q.safe && q.st == .parked then { q with since := 0 } else q) p.1 p.2) } := by
    show execDoorbellWrite hwq v s = _
    unfold execDoorbellWrite State.ringDoorbell
    simp only [hq, e]
    rw [if_neg (by omega)]
    rfl
  refine ⟨_, hx, rfl, ?_, fun pk p hp => ?_⟩
  · show Tbl.find (Tbl.upd s.queues n _) n = _
    rw [find_upd_self, hc]; rfl
  · show Tbl.find (List.map _ s.packets) pk = _
    rw [find_map_key s.packets (fun _ (q : Packet) => if q.queue == n && !q.safe && q.st == .parked then { q with since := 0 } else q) pk, hp]
    simp [and_assoc]
theorem tasks_blur (s : State) (a n : Nat) : Tasks s (s.blur a n) := ⟨rfl, rfl⟩
theorem tasks_record (s : State) (q : Req) (n : Nat) (a : Bool) (c : Nat) : Tasks s (s.recordSector q n a c) := by
  have t : ∀ (u : State) (gs : Nat), Tasks u (u.tickRc gs) := by
    intro u gs
    unfold State.tickRc
    split
    · exact ⟨rfl, rfl⟩
    · dsimp only; split <;> exact ⟨rfl, rfl⟩
  have h : ∀ (p : Prop) [Decidable p] (x : Tbl W64), Tasks s (if p then State.tickRc { s with wms := x } q.gs else { s with wms := x }) :=
    fun p _ x => tasks_ite _ (Tasks.trans (b := { s with wms := x }) ⟨rfl, rfl⟩ (t _ _)) ⟨rfl, rfl⟩
  unfold State.recordSector
  refine tasks_ite _ ⟨rfl, rfl⟩ ?_
  split
  · exact ⟨rfl, rfl⟩
  · dsimp only
    refine tasks_ite _ ?_ (tasks_ite _ (h _ _) ((h _ _).trans ⟨rfl, rfl⟩))
    split
    · exact (h _ _).trans ⟨rfl, rfl⟩
    · exact h _ _
theorem tasks_agentPut (s : State) (x : Sender) (pa : Nat) (l : List Byte) : Tasks s (s.agentPut x pa l) := by
  have h : Tasks s ((s.homeWrite x.spid x.part (!x.unc) (cellsAt pa l)).spoil (cellsAt pa l)) :=
    (tasks_homeWrite ..).trans (tasks_fold (fun (s : State) (c : Nat × Byte) => s.blur c.1 1) (fun s c => tasks_blur s c.1 1) _ _)
  unfold State.agentPut
  dsimp only
  refine .trans (.trans h ?_) ⟨rfl, rfl⟩
  split
  · exact tasks_record ..
  · refine .trans (b := State.clearSector _ (pa / 64)) ⟨rfl, rfl⟩ ?_
    unfold State.noteStrong
    split
    · split <;> exact ⟨rfl, rfl⟩
    · exact ⟨rfl, rfl⟩
theorem tasks_recall (s : State) (u pa n : Nat) (t : State) (h : s.recallAll u pa n = some t) : Tasks s t := by
  unfold State.recallAll at h
  revert h
  generalize List.range ((pa % 128 + n + 127) / 128) = l
  suffices ∀ (o : Option State), (∀ u, o = some u → Tasks s u) → ∀ t, l.foldl (fun o i => o.bind fun s => s.recallFor u (pa / 128 + i)) o = some t → Tasks s t from
    fun h => this (some s) (fun u e => by cases e; exact ⟨rfl, rfl⟩) t h
  induction l with
  | nil => exact fun o h t e => h t e
  | cons a l ih =>
    intro o ho t e
    refine ih _ (fun v hv => ?_) t e
    obtain ⟨w, hw, hv⟩ := Option.bind_eq_some_iff.mp hv
    refine (ho w hw).trans ?_
    unfold State.recallFor at hv
    split at hv
    · cases hv; exact ⟨rfl, rfl⟩
    · split at hv
      · cases hv; exact ⟨rfl, rfl⟩
      · split at hv
        · cases hv
        · cases hv; exact ⟨rfl, rfl⟩
theorem tasks_agentAll {s t : State} {x : Sender} {l : List (Nat × List Byte)} (h : s.agentAll x l = .ok t) : Tasks s t := by
  unfold State.agentAll at h
  dsimp only at h
  split at h
  · cases h
  · split at h
    · cases h
    · split at h
      · cases h
      · rename_i s1 hs
        cases h
        have k1 : Tasks s s1 := by
          revert hs
          generalize l.filter (fun p => (s.remoteOwner x.unit p.1).isNone) = near
          suffices ∀ (o : Option State), (∀ u, o = some u → Tasks s u) → ∀ t, near.foldl (fun (o : Option State) p => o.bind fun s =>
              if s.engFree p.1 p.2.length then s.recallAll x.unit p.1 p.2.length else none) o = some t → Tasks s t from
            fun hs => this (some s) (fun u e => by cases e; exact ⟨rfl, rfl⟩) s1 hs
          induction near with
          | nil => exact fun o h t e => h t e
          | cons a l ih =>
            intro o ho t e
            refine ih _ (fun v hv => ?_) t e
            obtain ⟨w, hw, hv⟩ := Option.bind_eq_some_iff.mp hv
            split at hv
            · exact (ho w hw).trans (tasks_recall _ _ _ _ _ hv)
            · cases hv
        refine (k1.trans (tasks_fold _ (fun s p => ?_) _ _)).trans (tasks_fold _ (fun s p => tasks_agentPut ..) _ _)
        split
        · unfold State.dropReq
          dsimp only
          split <;> exact ⟨rfl, rfl⟩
        · exact ⟨rfl, rfl⟩
theorem take_good {s : State} {n pa : Nat} {c : Qcb} {us : List Nat} (hn : n ≠ safeQueue) (hc : Tbl.find s.queues n = some c)
    (hr : s.queueReady n c = true) (hf : s.queueFirst n c = true) (hk : c.cached = true) (ha : s.hbAddr c.hbFor false (c.unit c.rd) = .ok pa)
    (ho : s.owned (headboxUnit c.die) pa 8 = false)
    (h1 : hdrTag (s.rd8 pa) = c.rd % 2 ^ 16) (h2 : hdrType (s.rd8 pa) ≠ 0) (h3 : headerErr c (s.rd8 pa) = none) (hu : s.unitsAt c (hdrLen (s.rd8 pa)) = .ok us) :
    let r := { s with rr := Tbl.put s.rr (c.die * 4 + c.cls) (n + 1) }
    let l := us.flatMap fun pa => (List.range 8).map fun i => s.rd8 (pa + 8 * i)
    let zeroed := r.agentAll ((c.hbFor (zeroTag n)).sender (s.hbUnc c.hbFor (c.unit c.rd))) (us.map fun pa => (pa, toBytes 8 0))
    (∀ e, bodyErr l = some e → exec (.headboxLaneTake n) s = .next (r.haltQueue n e 0 c.rd)) ∧
    (∀ s1, bodyErr l = none → zeroed = .wait s1 → exec (.headboxLaneTake n) s = .next s1) ∧
    (∀ s1, bodyErr l = none → zeroed = .ok s1 → ∃ t pk, exec (.headboxLaneTake n) s = .next t ∧
      Tbl.find t.packets pk = some { queue := n, idx := c.rd, typ := hdrType (s.rd8 pa), bar := bit (s.rd8 pa) 31, words := l } ∧
      Tbl.find t.queues n = some { c with rd := c.rd + hdrLen (s.rd8 pa) }) := by
  intro r l zeroed
  have hx := lane_take hn hc hr hf hk
  have e1 : r.hbGet c.hbFor (c.unit c.rd) 8 (fun s pa => EngRes.ok (s.rd8 pa)) = .ok (s.rd8 pa) := by
    have h1 : r.hbAddr c.hbFor false (c.unit c.rd) = .ok pa := ha
    unfold State.hbGet State.agentReads
    rw [h1]
    dsimp only
    have h2 : r.owned (headboxUnit (c.hbFor).die) pa 8 = false := ho
    rw [h2]
    rfl
  have e2 : r.unitsAt c (hdrLen (s.rd8 pa)) = .ok us := hu
  unfold State.takePacket at hx
  rw [e1] at hx
  dsimp only at hx
  rw [if_neg (by simp [h1, h2]), h3, e2] at hx
  dsimp only at hx
  refine ⟨fun e he => ?_, fun s1 he hz => ?_, fun s1 he hz => ?_⟩
  · have hb : bodyErr (us.flatMap fun pa => (List.range 8).map fun i => r.rd8 (pa + 8 * i)) = some e := he
    rw [hb] at hx
    exact hx
  · have hb : bodyErr (us.flatMap fun pa => (List.range 8).map fun i => r.rd8 (pa + 8 * i)) = none := he
    have hz' : r.agentAll ((c.hbFor (zeroTag n)).sender (r.hbUnc c.hbFor (c.unit c.rd))) (us.map fun pa => (pa, toBytes 8 0)) = .wait s1 := hz
    rw [hb] at hx
    dsimp only at hx
    rw [hz'] at hx
    exact hx
  · have hb : bodyErr (us.flatMap fun pa => (List.range 8).map fun i => r.rd8 (pa + 8 * i)) = none := he
    have hz' : r.agentAll ((c.hbFor (zeroTag n)).sender (r.hbUnc c.hbFor (c.unit c.rd))) (us.map fun pa => (pa, toBytes 8 0)) = .ok s1 := hz
    rw [hb] at hx
    dsimp only at hx
    rw [hz'] at hx
    refine ⟨_, _, hx, find_put_self .., ?_⟩
    show Tbl.find (State.putQcb _ n _ false).queues n = _
    rw [(tasks_putQcb ..).1, find_put_self]
theorem serve_now {s : State} {pk : Nat} {p : Packet} {c : Qcb} (hp : Tbl.find s.packets pk = some p) (hs : p.safe = false)
    (hc : Tbl.find s.queues p.queue = some c) (h1 : s.mayStart p c = true) (h2 : s.mustWait p c = false) (typ : Nat) (k : Packet → Qcb → State → Served) (ht : p.typ = typ) :
    s.servePk pk typ k = p.served pk (k p c s) := by
  rw [serve_spec hp hs hc typ k ht, h1, h2]; rfl

end Sys2Proof.Laws
end

