-- ==== Sys2Proof/Laws/Commands.lean ====
section
/-! SUPPORT. What management commands do: one that starts, one that goes on, and each command's effect. -/

namespace Sys2Proof.Laws

open Sys2Proof.Machine

theorem manage_now {s : State} {pk : Nat} {p : Packet} {c : Qcb} (hp : Tbl.find s.packets pk = some p) (hs : p.safe = false)
    (hc : Tbl.find s.queues p.queue = some c) (ht : p.typ = 0x0F) {cmd : Nat} (hk : p.cmd = cmd) (h1 : s.mayStart p c = true) (h2 : s.mustWait p c = false)
    (k : Packet → Qcb → State → Served) : s.manage pk cmd k = p.served pk (k p c s) := by
  unfold State.manage
  simp only [hp]
  rw [if_pos ⟨ht, hk, hs⟩, serve_now hp hs hc h1 h2 _ _ ht]
theorem command_some {s s1 : State} {pk : Nat} {p : Packet} {c : Qcb} (hp : Tbl.find s.packets pk = some p) (hs : p.safe = false)
    (hc : Tbl.find s.queues p.queue = some c) (ht : p.typ = 0x0F) {cmd : Nat} (hk : p.cmd = cmd) (h1 : s.mayStart p c = true) (h2 : s.mustWait p c = false)
    {k : Packet → Qcb → State → Option State} (h : k p c s = some s1) : s.command pk cmd k = .next (s1.updPk pk fun p => { p with st := .finished }) := by
  unfold State.command
  rw [manage_now hp hs hc ht hk h1 h2, h]; rfl
theorem command_none {s : State} {pk : Nat} {p : Packet} {c : Qcb} (hp : Tbl.find s.packets pk = some p) (hs : p.safe = false)
    (hc : Tbl.find s.queues p.queue = some c) (ht : p.typ = 0x0F) {cmd : Nat} (hk : p.cmd = cmd) (h1 : s.mayStart p c = true) (h2 : s.mustWait p c = false)
    {k : Packet → Qcb → State → Option State} (h : k p c s = none) : s.command pk cmd k = .next ((s.dropPk pk).haltQueue p.queue 5 0 p.idx) := by
  unfold State.command
  rw [manage_now hp hs hc ht hk h1 h2, h]; rfl
theorem goOn_now {s : State} {pk : Nat} {p : Packet} {c : Qcb} (hp : Tbl.find s.packets pk = some p) (hs : p.safe = false)
    (hc : Tbl.find s.queues p.queue = some c) (ht : p.typ = 0x0F) {cmd : Nat} (hk : p.cmd = cmd) (hst : p.st = .started)
    (k : Packet → Qcb → State → Served) : s.goOn pk cmd k = p.served pk (k p c s) := by
  unfold State.goOn
  rw [hp]
  simp only [Option.bind_some, hs, Bool.false_eq_true, if_false, hc, Option.map_some]
  rw [if_neg (by simp [ht, hk, hst])]
theorem goOn_not {s : State} {pk : Nat} {cmd : Nat} (h : ∀ p, Tbl.find s.packets pk = some p → p.st ≠ .started)
    (k : Packet → Qcb → State → Served) : s.goOn pk cmd k = s := by
  unfold State.goOn
  cases hp : Tbl.find s.packets pk with
  | none => rfl
  | some p =>
    simp only [Option.bind_some]
    cases hs : p.safe
    · simp only [Bool.false_eq_true, if_false]
      cases Tbl.find s.queues p.queue with
      | none => rfl
      | some c => simp only [Option.map_some]; rw [if_pos (.inr (.inr (h p hp)))]
    · rfl
theorem manage_started {s : State} {pk : Nat} {p : Packet} {c : Qcb} (hp : Tbl.find s.packets pk = some p) (hs : p.safe = false)
    (hc : Tbl.find s.queues p.queue = some c) (cmd : Nat) (hst : p.st = .started) (k : Packet → Qcb → State → Served) : s.manage pk cmd k = s := by
  unfold State.manage
  simp only [hp]
  split
  · rename_i h
    rw [serve_spec hp hs hc _ _ h.1, if_pos]
    unfold State.mayStart
    simp [hst]
  · rfl
theorem cacheQ_packets (s : State) (n : Nat) : (s.cacheQ n).packets = s.packets := by
  unfold State.cacheQ
  split
  · rfl
  · split
    · rfl
    · simp only [State.updQcb]
      split
      · rfl
      · split
        · exact (tasks_putQcb ..).2
        · rfl
theorem halt_packets (s : State) (n err det idx : Nat) : (s.haltQueue n err det idx).packets = s.packets := by
  unfold State.haltQueue
  simp only
  split
  · rfl
  · split
    · rfl
    · exact (tasks_putQcb ..).2.trans (cacheQ_packets s n)
theorem torn_begunIn (s : State) (n : Nat) : (s.updSpace n fun x => { x with torn := true }).begunIn n = s.begunIn n := by
  unfold State.begunIn
  have h : ((s.updSpace n fun x => { x with torn := true }).space n).st = (s.space n).st ∧
      ((s.updSpace n fun x => { x with torn := true }).space n).gen = (s.space n).gen := by
    unfold State.space State.updSpace
    simp only [find_upd_self]
    cases Tbl.find s.spaces n <;> exact ⟨rfl, rfl⟩
  rw [h.1, h.2]
  rfl
/-- What stood in a table stands there after an entry is written, but for the entry written. -/
theorem stays_put {α : Type} {t : Tbl α} {i : Nat} (a : α) {x : Nat × α} (h : x ∈ t) : x ∈ Tbl.put t i a ∨ Tbl.find t i = some x.2 := by
  induction t with
  | nil => cases h
  | cons e t ih =>
    obtain ⟨k, b⟩ := e
    unfold Tbl.put Tbl.find
    rcases List.mem_cons.mp h with rfl | h
    · split
      · exact .inr rfl
      · split <;> exact .inl (by simp)
    · split
      · exact .inl (List.mem_cons_of_mem _ h)
      · split
        · exact .inl (List.mem_cons_of_mem _ (List.mem_cons_of_mem _ h))
        · exact (ih h).imp (List.mem_cons_of_mem _) id
/-- Marking a management packet started ends no wait for what has begun. -/
theorem started_begunIn {s : State} {n pk : Nat} {p : Packet} (hp : Tbl.find s.packets pk = some p) (ht : p.typ = 0x0F) (h : s.begunIn n = true) :
    (s.updPk pk fun p => { p with st := .started }).begunIn n = true := by
  unfold State.begunIn at h ⊢
  rcases (Bool.or_eq_true _ _).mp h with h | h
  · rw [Bool.or_eq_true]
    left
    obtain ⟨x, hx, hq⟩ := List.any_eq_true.mp h
    have hm : x ∈ Tbl.put s.packets pk { p with st := .started } := by
      refine (stays_put _ hx).resolve_right fun he => ?_
      rw [hp] at he
      rw [← Option.some.inj he, ht] at hq
      simp at hq
    refine List.any_eq_true.mpr ⟨x, ?_, hq⟩
    unfold State.updPk Tbl.upd
    simpa only [hp] using hm
  · rw [Bool.or_eq_true]
    exact .inr h
/-- After its packet's halt or completion, a command does not go on. -/
theorem goOn_halt (s : State) (pk q err det idx cmd : Nat) (k : Packet → Qcb → State → Served) :
    ((s.dropPk pk).haltQueue q err det idx).goOn pk cmd k = (s.dropPk pk).haltQueue q err det idx := by
  refine goOn_not (fun p hp => ?_) k
  rw [halt_packets] at hp
  unfold State.dropPk at hp
  simp at hp
theorem goOn_done (s : State) (pk cmd : Nat) (k : Packet → Qcb → State → Served) :
    (s.updPk pk fun p => { p with st := .finished }).goOn pk cmd k = s.updPk pk fun p => { p with st := .finished } := by
  refine goOn_not (fun p hp => ?_) k
  unfold State.updPk at hp
  simp only [find_upd_self] at hp
  cases hf : Tbl.find s.packets pk with
  | none => rw [hf] at hp; simp at hp
  | some q => rw [hf] at hp; simp only [Option.map_some, Option.some.injEq] at hp; subst hp; simp
/-- A command that has just started goes on at once. -/
theorem goOn_go {s : State} {pk : Nat} {p : Packet} {c : Qcb} (hp : Tbl.find s.packets pk = some p) (hs : p.safe = false)
    (hc : Tbl.find s.queues p.queue = some c) (ht : p.typ = 0x0F) {cmd : Nat} (hk : p.cmd = cmd) (k : Packet → Qcb → State → Served) :
    (s.updPk pk fun p => { p with st := .started }).goOn pk cmd k =
      ({ p with st := .started } : Packet).served pk (k { p with st := .started } c (s.updPk pk fun p => { p with st := .started })) := by
  refine goOn_now (s := s.updPk pk fun p => { p with st := .started }) (p := { p with st := .started }) ?_ hs hc ht hk rfl k
  unfold State.updPk
  simp only [find_upd_self, hp, Option.map_some]
section Commands
variable {s : State} {pk : Nat} {p : Packet} {c : Qcb} (hp : Tbl.find s.packets pk = some p) (hs : p.safe = false)
  (hc : Tbl.find s.queues p.queue = some c) (ht : p.typ = 0x0F) (h1 : s.mayStart p c = true) (h2 : s.mustWait p c = false)
include hp hs hc ht h1 h2
theorem cmd_createQueue (hk : p.cmd = 0x01) :
    (∀ t, s.sec.qtab = some t → (p.op 0x10).toNat < 2 ^ t.2 → (∀ q, Tbl.find s.queues (p.op 0x10).toNat = some q → q.st = .free) → ringOk (p.op 0x18) = true →
      bits (p.op 0x20) 47 42 = 0 → bits (p.op 0x20) 39 0 = 0 → s.holdsSpace c.part (bits (p.op 0x20) 63 56) = true → (s.space (bits (p.op 0x20) 63 56)).torn = false →
      bits (p.op 0x20) 55 48 = (s.space (bits (p.op 0x20) 63 56)).gen.toNat →
      ∃ u : State, exec (.createQueue pk) s = .next (u.updPk pk fun p => { p with st := .finished }) ∧ Tbl.find u.queues (p.op 0x10).toNat = some (
        { base := (p.op 0x18).toNat / 2 ^ 12 * 2 ^ 12, lsz := bits (p.op 0x18) 4 0, spid := bits (p.op 0x20) 63 56, sgen := (s.space (bits (p.op 0x20) 63 56)).gen, part := c.part, cls := bits (p.op 0x20) 41 40, st := .active } : Qcb)) ∧
    (s.holdsSpace c.part (bits (p.op 0x20) 63 56) = false ∨ ringOk (p.op 0x18) = false →
      exec (.createQueue pk) s = .next ((s.dropPk pk).haltQueue p.queue 5 0 p.idx)) := by
  refine ⟨fun t h3 h4 h5 h6 h7 h8 h9 ha hb => ?_, fun h => ?_⟩
  · have hf : ((Tbl.find s.queues (p.op 0x10).toNat).map fun q => q.st == .free).getD true = true := by
      cases hq : Tbl.find s.queues (p.op 0x10).toNat with
      | none => rfl
      | some q => simp [h5 q hq]
    refine ⟨(s.plainWrite 0 c.part false (s.qcbAt (p.op 0x10).toNat) (toBytes 64 0)).putQcb (p.op 0x10).toNat { base := (p.op 0x18).toNat / 2 ^ 12 * 2 ^ 12, lsz := bits (p.op 0x18) 4 0, spid := bits (p.op 0x20) 63 56, sgen := (s.space (bits (p.op 0x20) 63 56)).gen, part := c.part, cls := bits (p.op 0x20) 41 40, st := .active } true,
      command_some hp hs hc ht hk h1 h2 ?_, ?_⟩
    · simp only [h3, Option.map_some, Option.getD_some, h4, decide_true, hf, h6, h7, h8, h9, ha, hb, beq_self_eq_true, Bool.and_self, Bool.not_false, if_true]
    · rw [(tasks_putQcb ..).1, find_put_self]
  · refine command_none hp hs hc ht hk h1 h2 ?_
    simp only
    rw [if_neg]
    intro hh
    simp only [Bool.and_eq_true] at hh
    rcases h with h | h
    · rw [hh.1.1.2] at h; cases h
    · rw [hh.1.1.1.1.1.2] at h; cases h
theorem cmd_bind (hk : p.cmd = 0x02) :
    (∀ q, s.ownQueue c.part (p.op 0x10).toNat = some q → q.hb = false → s.hwqBound (p.op 0x18).toNat = false → s.hwqOk c.part (p.op 0x18).toNat = true →
      exec (.bindQueue pk) s = .next ((s.putQcb (p.op 0x10).toNat { q with hb := true, hwq := (p.op 0x18).toNat } true).updPk pk fun p => { p with st := .finished })) ∧
    (s.ownQueue c.part (p.op 0x10).toNat = none ∨ s.hwqBound (p.op 0x18).toNat = true ∨ s.hwqOk c.part (p.op 0x18).toNat = false →
      exec (.bindQueue pk) s = .next ((s.dropPk pk).haltQueue p.queue 5 0 p.idx)) := by
  refine ⟨fun q hq h3 h4 h5 => command_some hp hs hc ht hk h1 h2 ?_, fun h => command_none hp hs hc ht hk h1 h2 ?_⟩
  · simp only [hq, h3, h4, h5, Bool.not_true, Bool.or_self, Bool.false_eq_true, if_false]
  · simp only
    rcases h with h | h | h
    · rw [h]
    · split
      · simp [h]
      · rfl
    · split
      · simp [h]
      · rfl
theorem cmd_unbind (hk : p.cmd = 0x03) :
    (∀ q, s.ownQueue c.part (p.op 0x10).toNat = some q →
      exec (.unbindQueue pk) s = .next ((s.putQcb (p.op 0x10).toNat { q with hb := false, hwq := 0, cached := false } true).updPk pk fun p => { p with st := .finished })) ∧
    (s.ownQueue c.part (p.op 0x10).toNat = none → exec (.unbindQueue pk) s = .next ((s.dropPk pk).haltQueue p.queue 5 0 p.idx)) := by
  refine ⟨fun q hq => command_some hp hs hc ht hk h1 h2 ?_, fun h => command_none hp hs hc ht hk h1 h2 ?_⟩
  · simp only [hq]
  · simp only [h]
theorem cmd_reset (hk : p.cmd = 0x04) :
    (∀ q, s.ownQueue c.part (p.op 0x10).toNat = some q → (s.rd8 (s.qcbAt (p.op 0x10).toNat)).toNat ≤ (p.op 0x18).toNat → q.st = .halted ∨ q.st = .quiesced →
      exec (.resetQueue pk) s = .next ((((s.dropQueued (p.op 0x10).toNat).plainWrite 0 c.part false (s.qcbAt (p.op 0x10).toNat) (toBytes 8 (p.op 0x18).toNat)).putQcb (p.op 0x10).toNat
        { q with rd := (p.op 0x18).toNat, db := (p.op 0x18).toNat, err := 0#8, det := 0#8, erridx := 0, st := .active, reread := none } true).updPk pk fun p => { p with st := .finished })) ∧
    (∀ q, s.ownQueue c.part (p.op 0x10).toNat = some q → (p.op 0x18).toNat < (s.rd8 (s.qcbAt (p.op 0x10).toNat)).toNat →
      exec (.resetQueue pk) s = .next ((s.dropPk pk).haltQueue p.queue 5 0 p.idx)) ∧
    (s.ownQueue c.part (p.op 0x10).toNat = none → exec (.resetQueue pk) s = .next ((s.dropPk pk).haltQueue p.queue 5 0 p.idx)) := by
  refine ⟨fun q hq h3 h4 => command_some hp hs hc ht hk h1 h2 ?_, fun q hq h3 => command_none hp hs hc ht hk h1 h2 ?_, fun h => command_none hp hs hc ht hk h1 h2 ?_⟩
  · simp only [hq]
    rw [if_neg (by omega), if_neg (by rcases h4 with h | h <;> simp [h])]
  · simp only [hq]
    rw [if_pos h3]
  · simp only [h]
theorem cmd_flush (hk : p.cmd = 0x05) : exec (.flushControlBlocks pk) s = .next
    (((s.queues.filter (fun q => q.2.part == c.part && q.2.cached)).foldl (fun u q => u.putQcb q.1 q.2 true) s).updPk pk fun p => { p with st := .finished }) := by
  show execFlushControlBlocks pk s = _
  unfold execFlushControlBlocks
  exact command_some hp hs hc ht hk h1 h2 rfl
theorem cmd_createSpace (hk : p.cmd = 0x06) :
    (1 ≤ (p.op 0x10).toNat → (p.op 0x10).toNat ≤ 255 → (s.space (p.op 0x10).toNat).inUse = false → (p.op 0x20).toNat ≠ 0 → (p.op 0x20).toNat % 65536 = 0 →
      (p.op 0x28).toNat % 65536 = 0 → (p.op 0x28).toNat ≠ 0 → (p.op 0x30).toNat ≤ 4096 → (p.op 0x18).toNat % 8192 = 0 →
      s.mgmtMem c (p.op 0x18).toNat 8192 = true → s.mgmtMem c (p.op 0x20).toNat (p.op 0x28).toNat = true →
      exec (.createSpace pk) s = .next (({ s with spaces := Tbl.put s.spaces (p.op 0x10).toNat { part := c.part, gen := (s.space (p.op 0x10).toNat).gen, inUse := true, ptroot := p.op 0x18, area := (p.op 0x20).toNat, size := (p.op 0x28).toNat, spn := (p.op 0x30).toNat } }).updPk pk fun p => { p with st := .finished })) ∧
    ((s.space (p.op 0x10).toNat).inUse = true ∨ (p.op 0x18).toNat % 8192 ≠ 0 ∨ 4096 < (p.op 0x30).toNat →
      exec (.createSpace pk) s = .next ((s.dropPk pk).haltQueue p.queue 5 0 p.idx)) := by
  refine ⟨fun a1 a2 a3 a4 a5 a6 a7 a8 a9 b1 b2 => congrArg Host.Outcome.next ((manage_now hp hs hc ht hk h1 h2 _).trans ?_),
    fun h => congrArg Host.Outcome.next ((manage_now hp hs hc ht hk h1 h2 _).trans ?_)⟩
  · have hi : inRange 1 255 (p.op 0x10).toNat = true := by unfold inRange; simp; omega
    simp only [hi, a3, b1, b2]
    rw [if_neg (by simp; omega), if_neg (by decide)]
    rfl
  · simp only
    rw [if_pos (by
      simp only [Bool.or_eq_true, decide_eq_true_eq, bne_iff_ne, Bool.not_eq_true', beq_iff_eq]
      rcases h with h | h | h
      · simp [h]
      · exact .inr h
      · exact .inl (.inr h))]
    rfl
theorem cmd_tear (hk : p.cmd = 0x07) :
    (s.holdsSpace c.part (p.op 0x10).toNat = true → (s.space (p.op 0x10).toNat).torn = false →
      ((s.residentIn (p.op 0x10).toNat || s.begunIn (p.op 0x10).toNat) = false → ∃ t, exec (.tearDownSpace pk) s = .next t ∧
        t.mem = ((s.updSpace (p.op 0x10).toNat fun x => { x with torn := true }).closeSpace (p.op 0x10).toNat).mem ∧
        t.spaces = ((s.updSpace (p.op 0x10).toNat fun x => { x with torn := true }).closeSpace (p.op 0x10).toNat).spaces) ∧
      ((s.residentIn (p.op 0x10).toNat || s.begunIn (p.op 0x10).toNat) = true → ∃ t, exec (.tearDownSpace pk) s = .next t ∧
        t.spaces = (s.updSpace (p.op 0x10).toNat fun x => { x with torn := true }).spaces ∧ t.queues = s.queues ∧ t.mem = s.mem ∧
        Tbl.find t.packets pk = some { p with st := .started })) ∧
    (s.holdsSpace c.part (p.op 0x10).toNat = false → exec (.tearDownSpace pk) s = .next ((s.dropPk pk).haltQueue p.queue 5 0 p.idx)) := by
  refine ⟨fun a1 a2 => ⟨fun hr => ?_, fun hr => ?_⟩, fun h => ?_⟩
  · have hx : exec (.tearDownSpace pk) s = .next (((s.updSpace (p.op 0x10).toNat fun x => { x with torn := true }).closeSpace (p.op 0x10).toNat).updPk pk fun p => { p with st := .finished }) := by
      show execTearDownSpace pk s = _
      unfold execTearDownSpace
      simp only
      rw [manage_now hp hs hc ht hk h1 h2]
      simp only [a1, a2]
      have hr2 : ((s.updSpace (p.op 0x10).toNat fun x => { x with torn := true }).residentIn (p.op 0x10).toNat ||
          (s.updSpace (p.op 0x10).toNat fun x => { x with torn := true }).begunIn (p.op 0x10).toNat) = false := by
        rw [torn_begunIn]; exact hr
      simp only [hr2]
      exact congrArg Host.Outcome.next (goOn_done ..)
    exact ⟨_, hx, rfl, rfl⟩
  · have hx : exec (.tearDownSpace pk) s = .next (((s.updSpace (p.op 0x10).toNat fun x => { x with torn := true }).updPk pk fun p => { p with st := .started }).updPk pk fun p => { p with st := .started }) := by
      show execTearDownSpace pk s = _
      unfold execTearDownSpace
      simp only
      rw [manage_now hp hs hc ht hk h1 h2]
      simp only [a1, a2]
      have hr2 : ((s.updSpace (p.op 0x10).toNat fun x => { x with torn := true }).residentIn (p.op 0x10).toNat ||
          (s.updSpace (p.op 0x10).toNat fun x => { x with torn := true }).begunIn (p.op 0x10).toNat) = true := by
        rw [torn_begunIn]; exact hr
      simp only [hr2]
      refine congrArg Host.Outcome.next ((goOn_go (s := s.updSpace (p.op 0x10).toNat fun x => { x with torn := true }) hp hs hc ht hk _).trans ?_)
      have hr3 : ((((s.updSpace (p.op 0x10).toNat fun x => { x with torn := true }).updPk pk fun p => { p with st := .started })).residentIn (p.op 0x10).toNat ||
          (((s.updSpace (p.op 0x10).toNat fun x => { x with torn := true }).updPk pk fun p => { p with st := .started })).begunIn (p.op 0x10).toNat) = true := by
        rcases (Bool.or_eq_true _ _).mp hr2 with h | h
        · exact (Bool.or_eq_true _ _).mpr (.inl h)
        · exact (Bool.or_eq_true _ _).mpr (.inr (started_begunIn (s := s.updSpace (p.op 0x10).toNat fun x => { x with torn := true }) hp ht h))
      exact congrArg (Packet.served { p with st := .started } pk) (if_pos hr3)
    refine ⟨_, hx, rfl, rfl, rfl, ?_⟩
    show Tbl.find (Tbl.upd (Tbl.upd s.packets pk _) pk _) pk = _
    simp only [find_upd_self, hp, Option.map_some]
  · show execTearDownSpace pk s = _
    unfold execTearDownSpace
    simp only
    rw [manage_now hp hs hc ht hk h1 h2]
    simp only [h]
    exact congrArg Host.Outcome.next (goOn_halt ..)
theorem cmd_raceMode (hk : p.cmd = 0x08) :
    (s.holdsSpace c.part (p.op 0x28).toNat = true → (p.op 0x10).toNat ≤ 2 →
      ((p.op 0x18).toNat = 0 → (p.op 0x10).toNat ≠ 2 →
        exec (.setRaceMode pk) s = .next ((s.updSpace (p.op 0x28).toNat fun x => { x with mode := BitVec.ofNat 2 (p.op 0x10).toNat, log := 0, logSize := 0 }).updPk pk fun p => { p with st := .finished })) ∧
      (∀ i, (p.op 0x18).toNat ≠ 0 → (p.op 0x18).toNat % 128 = 0 → i < 13 → (p.op 0x20).toNat = 2 ^ (12 + i) → s.mgmtMem c (p.op 0x18).toNat (p.op 0x20).toNat = true →
        exec (.setRaceMode pk) s = .next ((s.updSpace (p.op 0x28).toNat fun x =>
          { x with mode := BitVec.ofNat 2 (p.op 0x10).toNat, log := (p.op 0x18).toNat, logSize := (p.op 0x20).toNat }).updPk pk fun p => { p with st := .finished }))) ∧
    (s.holdsSpace c.part (p.op 0x28).toNat = false → exec (.setRaceMode pk) s = .next ((s.dropPk pk).haltQueue p.queue 5 0 p.idx)) := by
  have hx : exec (.setRaceMode pk) s = .next (p.served pk (
      if !s.holdsSpace c.part (p.op 0x28).toNat || decide (2 < (p.op 0x10).toNat) || ((p.op 0x18).toNat == 0 && (p.op 0x10).toNat == 2) ||
        ((p.op 0x18).toNat != 0 && ((p.op 0x18).toNat % 128 != 0 || !(List.range 13).any (fun i => (p.op 0x20).toNat == 2 ^ (12 + i)))) then .halts 5 0 s
      else if (p.op 0x18).toNat != 0 && !s.mgmtMem c (p.op 0x18).toNat (p.op 0x20).toNat then .halts 7 9 s
      else .done (s.updSpace (p.op 0x28).toNat fun x => { x with mode := BitVec.ofNat 2 (p.op 0x10).toNat, log := (p.op 0x18).toNat, logSize := if (p.op 0x18).toNat = 0 then 0 else (p.op 0x20).toNat }))) :=
    congrArg Host.Outcome.next (manage_now hp hs hc ht hk h1 h2 _)
  rw [hx]
  refine ⟨fun a1 a2 => ⟨fun a3 a4 => ?_, fun i a3 a4 a5 a6 a7 => ?_⟩, fun h => ?_⟩
  · rw [if_neg (by simp [a1, a3, a4]; omega), if_neg (by simp [a3])]
    simp only [a3, if_true]
    rfl
  · have hsz : (List.range 13).any (fun i => (p.op 0x20).toNat == 2 ^ (12 + i)) = true :=
      List.any_eq_true.mpr ⟨i, List.mem_range.mpr a5, by rw [a6]; exact beq_self_eq_true _⟩
    rw [hsz, if_neg (by simp [a1, a3, a4]; omega), if_neg (by simp [a7]), if_neg a3]
    rfl
  · rw [if_pos (by simp [h])]
    rfl
theorem cmd_ways (hk : p.cmd = 0x09) :
    (bits (p.op 0x10) 63 28 = 0 → bits (p.op 0x10) 15 12 = 0 → bits (p.op 0x10) 11 0 ≠ 0 → bits (p.op 0x10) 27 16 ≠ 0 →
      exec (.setWayMasks pk) s = .next ((s.updPart c.part fun q =>
        { q with l2mask := BitVec.ofNat 12 (bits (p.op 0x10) 11 0), rdcmask := BitVec.ofNat 12 (bits (p.op 0x10) 27 16) }).updPk pk fun p => { p with st := .finished })) ∧
    (bits (p.op 0x10) 11 0 = 0 ∨ bits (p.op 0x10) 27 16 = 0 → exec (.setWayMasks pk) s = .next ((s.dropPk pk).haltQueue p.queue 5 0 p.idx)) := by
  refine ⟨fun a1 a2 a3 a4 => command_some hp hs hc ht hk h1 h2 ?_, fun h => command_none hp hs hc ht hk h1 h2 ?_⟩
  · simp only
    rw [if_neg (by simp [a1, a2, a3, a4])]
  · simp only
    rw [if_pos (.inr (.inr h))]
theorem cmd_budget (hk : p.cmd = 0x0A) :
    ((p.op 0x10).toNat ≤ 7 → 10 ≤ (p.op 0x18).toNat → (p.op 0x18).toNat ≤ 24 →
      exec (.setBudget pk) s = .next ((s.updPart c.part fun x => { x with
        meters := Tbl.put x.meters (p.op 0x10).toNat { period := (p.op 0x18).toNat, budget := p.op 0x20 }, counts := x.counts.filter (fun e => e.1 / 2 ^ 12 != (p.op 0x10).toNat) }).updPk pk fun p => { p with st := .finished })) ∧
    (7 < (p.op 0x10).toNat ∨ (p.op 0x18).toNat < 10 ∨ 24 < (p.op 0x18).toNat → exec (.setBudget pk) s = .next ((s.dropPk pk).haltQueue p.queue 5 0 p.idx)) := by
  refine ⟨fun a1 a2 a3 => command_some hp hs hc ht hk h1 h2 ?_, fun h => command_none hp hs hc ht hk h1 h2 ?_⟩
  · simp only
    rw [if_neg (by unfold inRange; simp; omega)]
  · simp only
    rw [if_pos (by unfold inRange; simp; omega)]
theorem cmd_preEmpt (hk : p.cmd = 0x0B) (h3 : (s.space (p.op 0x10).toNat).checkpoints = false) (h4 : (s.space (p.op 0x10).toNat).saved = []) :
    (s.holdsSpace c.part (p.op 0x10).toNat = true → (s.space (p.op 0x10).toNat).st = .running → s.needed (p.op 0x10).toNat ≤ (s.space (p.op 0x10).toNat).limit →
      ∀ t, t = ((s.beginSave (p.op 0x10).toNat (.preempt pk) false).updPk pk fun p => { p with st := .started }).finishSave (p.op 0x10).toNat →
      exec (.preEmptContext pk) s = .next (if (t.space (p.op 0x10).toNat).st = .preempting then t.updPk pk fun p => { p with st := .started } else t.updPk pk fun p => { p with st := .finished })) ∧
    (s.holdsSpace c.part (p.op 0x10).toNat = false ∨ (s.space (p.op 0x10).toNat).st ≠ .running ∨ (s.space (p.op 0x10).toNat).limit < s.needed (p.op 0x10).toNat →
      exec (.preEmptContext pk) s = .next ((s.dropPk pk).haltQueue p.queue 5 0 p.idx)) := by
  refine ⟨fun a1 a2 a3 t et => ?_, fun h => ?_⟩ <;> show execPreEmptContext pk s = _ <;> unfold execPreEmptContext <;> simp only <;>
    rw [manage_now hp hs hc ht hk h1 h2] <;> simp only [h3, h4, List.isEmpty_nil, Bool.not_true, Bool.and_false, Bool.or_self, Bool.false_eq_true, if_false]
  · rw [if_neg (by simp [a1, a2]; omega)]
    refine congrArg Host.Outcome.next ((goOn_go (s := s.beginSave (p.op 0x10).toNat (.preempt pk) false) hp hs hc ht hk _).trans ?_)
    subst et
    show Packet.served _ pk (if ((State.finishSave _ (p.op 0x10).toNat).space (p.op 0x10).toNat).st = _ then _ else _) = _
    split <;> rfl
  · rw [if_pos]
    · exact congrArg Host.Outcome.next (goOn_halt ..)
    · simp only [Bool.or_eq_true, Bool.not_eq_true', bne_iff_ne, decide_eq_true_eq]
      rcases h with h | h | h
      · exact .inl (.inl h)
      · exact .inl (.inr h)
      · exact .inr h
theorem cmd_recording (hk : p.cmd = 0x0F) :
    (∀ r, recordingOf p = some r → s.holdsSpace c.part (p.op 0x10).toNat = true →
      exec (.setRecording pk) s = .next (if s.mgmtMem c r.base r.size then (s.updSpace (p.op 0x10).toNat fun x => { x with rcdNext := r }).updPk pk fun p => { p with st := .finished }
        else (s.dropPk pk).haltQueue p.queue 7 9 p.idx)) ∧
    (recordingOf p = none ∨ s.holdsSpace c.part (p.op 0x10).toNat = false → exec (.setRecording pk) s = .next ((s.dropPk pk).haltQueue p.queue 5 0 p.idx)) := by
  refine ⟨fun r hr a1 => congrArg Host.Outcome.next ((manage_now hp hs hc ht hk h1 h2 _).trans ?_), fun h => congrArg Host.Outcome.next ((manage_now hp hs hc ht hk h1 h2 _).trans ?_)⟩
  · simp only [hr, a1]
    cases s.mgmtMem c r.base r.size <;> rfl
  · simp only
    rcases h with h | h
    · rw [h]; rfl
    · cases recordingOf p with
      | none => rfl
      | some r => simp only [h]; rfl
theorem cmd_sample (hk : p.cmd = 0x11) :
    ((p.op 0x10).toNat % 256 ≠ 0 → exec (.sampleCounters pk) s = .next ((s.dropPk pk).haltQueue p.queue 5 0 p.idx)) ∧
    (∀ ks, ks = ((s.partCores c.part).flatMap fun n => (List.range 4).map fun i => 4 * n + i) →
      ∀ own : Nat → Prop, own = (fun pa => s.ownMem pa = true ∧ s.paExists pa = true ∧ ∃ q, Tbl.find s.parts c.part = some q ∧ q.holds pa = true) →
      (p.op 0x10).toNat % 256 = 0 →
      (own (p.op 0x10).toNat → own ((p.op 0x10).toNat + 256 * ks.length - 1) →
        exec (.sampleCounters pk) s = .next ((s.plainWrite 0 c.part false (p.op 0x10).toNat (wordBytes (ks.flatMap s.counterRecord))).updPk pk fun p => { p with st := .finished })) ∧
      (¬ own (p.op 0x10).toNat → exec (.sampleCounters pk) s = .next ((s.dropPk pk).haltQueue p.queue 7 9 p.idx))) := by
  have hown : ∀ pa, (s.ownMem pa && s.paExists pa && ((Tbl.find s.parts c.part).map fun q => q.holds pa).getD false) = true ↔
      (s.ownMem pa = true ∧ s.paExists pa = true ∧ ∃ q, Tbl.find s.parts c.part = some q ∧ q.holds pa = true) := by
    intro pa
    cases Tbl.find s.parts c.part <;> simp [and_assoc]
  refine ⟨fun h => ?_, fun ks hks own ho h => ⟨fun o1 o2 => ?_, fun o => ?_⟩⟩ <;>
    refine congrArg Host.Outcome.next ((manage_now hp hs hc ht hk h1 h2 _).trans ?_) <;> simp only
  · rw [if_pos h]; rfl
  · subst hks ho
    rw [if_neg (by simp [h]), if_neg]
    · rfl
    · rw [(hown _).mpr o1, (hown _).mpr o2]; simp
  · subst ho
    rw [if_neg (by simp [h]), if_pos]
    · rfl
    · cases hq : (s.ownMem (p.op 0x10).toNat && s.paExists (p.op 0x10).toNat && ((Tbl.find s.parts c.part).map fun q => q.holds (p.op 0x10).toNat).getD false)
      · simp
      · exact absurd ((hown _).mp hq) o
theorem cmd_resume (hk : p.cmd = 0x0C) {r : Nat} (hr : r < 2) (h3 : (p.op 0x18).toNat = r) (h4 : s.holdsSpace c.part (p.op 0x10).toNat = true)
    (h5 : (s.space (p.op 0x10).toNat).st = .saved ∨ (s.space (p.op 0x10).toNat).st = .halted) (h6 : (s.space (p.op 0x10).toNat).restart = true)
    (h7 : r = 0 ∨ (s.space (p.op 0x10).toNat).log ≠ 0) :
    (∀ d, s.resumeTest c.part (p.op 0x10).toNat = some d → exec (.resumeContext pk) s = .next ((s.dropPk pk).haltQueue p.queue 6 d p.idx)) ∧
    (∀ u, u = s.resumeNow (p.op 0x10).toNat pk (decide (r = 1)) → s.resumeTest c.part (p.op 0x10).toNat = none → u.packets = s.packets → u.queues = s.queues →
      (u.space (p.op 0x10).toNat).saved ≠ [] → (u.space (p.op 0x10).toNat).st = .running →
      exec (.resumeContext pk) s = .next ((u.updPk pk fun p => { p with st := .started }).updPk pk fun p => { p with st := .started })) := by
  have hb : bit (p.op 0x18) 0 = decide (r = 1) := by
    show (p.op 0x18).toNat.testBit 0 = _
    rw [h3]
    rcases (by omega : r = 0 ∨ r = 1) with h | h <;> subst h <;> rfl
  refine ⟨fun d hd => ?_, fun u hu hd e1 e2 e3 e4 => ?_⟩ <;> show execResumeContext pk s = _ <;> unfold execResumeContext <;> simp only <;>
    rw [manage_now hp hs hc ht hk h1 h2] <;> simp only [hb, hd] <;>
    rw [if_neg (by rw [h4, h6, h3]; rcases h5 with h | h <;> rw [h] <;> rcases (by omega : r = 0 ∨ r = 1) with h | h <;> subst h <;> simp at h7 ⊢ <;> exact h7)]
  · exact congrArg Host.Outcome.next (goOn_halt ..)
  · rw [← hu]
    refine congrArg Host.Outcome.next ((goOn_go (s := u) (by rw [e1]; exact hp) hs (by rw [e2]; exact hc) ht hk _).trans ?_)
    refine congrArg (Packet.served { p with st := .started } pk) (if_neg ?_)
    have k1 : ((u.updPk pk fun p => { p with st := .started }).space (p.op 0x10).toNat).st = .running := e4
    have k2 : ((u.updPk pk fun p => { p with st := .started }).space (p.op 0x10).toNat).saved ≠ [] := e3
    intro hh
    have hh2 := (Bool.and_eq_true _ _ ▸ hh).2
    rw [if_pos (by rw [show ({ p with st := PSt.started } : Packet).op 0x10 = p.op 0x10 from rfl, k1]; rfl)] at hh2
    exact k2 (List.isEmpty_iff.mp hh2)
theorem cmd_release (hk : p.cmd = 0x0D) :
    (s.holdsSpace c.part (p.op 0x10).toNat = false ∨ (s.space (p.op 0x10).toNat).st = .released ∨ s.auditFull 80 = true →
      exec (.releaseContext pk) s = .next ((s.dropPk pk).haltQueue p.queue 5 0 p.idx)) ∧
    (∀ u, u = s.releaseStop (p.op 0x10).toNat → s.holdsSpace c.part (p.op 0x10).toNat = true → (s.space (p.op 0x10).toNat).st ≠ .released → s.auditFull 80 = false →
      u.packets = s.packets → u.queues = s.queues → (u.updPk pk fun p => { p with st := .started }).drained (p.op 0x10).toNat = false →
      exec (.releaseContext pk) s = .next ((u.updPk pk fun p => { p with st := .started }).updPk pk fun p => { p with st := .started })) := by
  refine ⟨fun h => ?_, fun u hu a1 a2 a3 e1 e2 e3 => ?_⟩ <;> show execReleaseContext pk s = _ <;> unfold execReleaseContext <;> simp only <;>
    rw [manage_now hp hs hc ht hk h1 h2]
  · rw [if_pos]
    · exact congrArg Host.Outcome.next (goOn_halt ..)
    · simp only [Bool.or_eq_true, Bool.not_eq_true', beq_iff_eq]
      rcases h with h | h | h
      · exact .inl (.inl h)
      · exact .inl (.inr h)
      · exact .inr h
  · rw [if_neg (by simp [a1, a2, a3]), ← hu]
    refine congrArg Host.Outcome.next ((goOn_go (s := u) (by rw [e1]; exact hp) hs (by rw [e2]; exact hc) ht hk _).trans ?_)
    exact congrArg (Packet.served { p with st := .started } pk) (if_neg (by rw [show ({ p with st := PSt.started } : Packet).op 0x10 = p.op 0x10 from rfl, e3]; simp))
theorem cmd_stop (hk : p.cmd = 0x10) (h : s.holdsSpace c.part (p.op 0x10).toNat = false ∨ ((s.space (p.op 0x10).toNat).st ≠ .saved ∧ (s.space (p.op 0x10).toNat).st ≠ .halted) ∨
    (s.space (p.op 0x10).toNat).valid = false ∨ (s.space (p.op 0x10).toNat).nr = true) :
    exec (.stopAtPoint pk) s = .next ((s.dropPk pk).haltQueue p.queue 5 0 p.idx) := by
  show execStopAtPoint pk s = _
  unfold execStopAtPoint
  simp only
  rw [manage_now hp hs hc ht hk h1 h2]
  rw [if_pos]
  · exact congrArg Host.Outcome.next (goOn_halt ..)
  · simp only [Bool.or_eq_true, Bool.not_eq_true', Bool.or_eq_false_iff, beq_eq_false_iff_ne]
    rcases h with h | h | h | h
    · simp [h]
    · simp [h.1, h.2]
    · simp [h]
    · simp [h]
theorem cmd_rerun (hk : p.cmd = 0x10) (a1 : s.holdsSpace c.part (p.op 0x10).toNat = true) (a2 : (s.space (p.op 0x10).toNat).st = .saved ∨ (s.space (p.op 0x10).toNat).st = .halted)
    (a3 : (s.space (p.op 0x10).toNat).valid = true) (a4 : (s.space (p.op 0x10).toNat).nr = false) (a5 : bits (p.op 0x18) 31 21 = 0) (a6 : bits (p.op 0x18) 63 33 = 0)
    (a7 : (p.op 0x20).toNat < 2 ^ 32) (a8 : (p.op 0x28).toNat < 2 ^ 32) (r r' : Replay) (s2 u : State)
    (e0 : r = { grid := bits (p.op 0x18) 15 0, wgidx := (p.op 0x20).toNat, gidx := bits (p.op 0x18) 20 16, target := (p.op 0x28).setWidth 32, free := bit (p.op 0x18) 32, upto := (s.space (p.op 0x10).toNat).pcnt, ends := ((s.space (p.op 0x10).toNat).replay.map (·.ends)).getD (s.endsOf (p.op 0x10).toNat) })
    (e1 : s2 = (s.applyUndo (p.op 0x10).toNat).updSpace (p.op 0x10).toNat fun p => { p with st := .running, saving := .none, resumePk := none, restart := true, replay := some r })
    (e2 : u = if (s.space (p.op 0x10).toNat).start = 0 then s2.relaunch (p.op 0x10).toNat else ((s.space (p.op 0x10).toNat).begun.map (s2.restoreBase (p.op 0x10).toNat)).getD s2)
    (b1 : Tbl.find u.packets pk = some p) (b2 : Tbl.find u.queues p.queue = some c) (b3 : (u.space (p.op 0x10).toNat).st = .running)
    (b4 : (u.space (p.op 0x10).toNat).replay = some r') (b5 : r'.void = false) :
    exec (.stopAtPoint pk) s = .next ((u.updPk pk fun p => { p with st := .started }).updPk pk fun p => { p with st := .started }) := by
  show execStopAtPoint pk s = _
  unfold execStopAtPoint
  simp only
  rw [manage_now hp hs hc ht hk h1 h2]
  rw [if_neg (by rw [a1, a3, a4, a5, a6]; rcases a2 with h | h <;> rw [h] <;> simp <;> omega), ← e0, ← e1, ← e2]
  refine congrArg Host.Outcome.next ((goOn_go (s := u) b1 hs b2 ht hk _).trans ?_)
  refine congrArg (Packet.served { p with st := .started } pk) (if_neg ?_)
  show ¬ (((u.space (p.op 0x10).toNat).st == .saved || (u.space (p.op 0x10).toNat).st == .halted || (u.space (p.op 0x10).toNat).st == .released ||
    ((u.space (p.op 0x10).toNat).st == .running && ((u.space (p.op 0x10).toNat).replay.map (·.void)).getD true)) = true)
  rw [b3, b4]
  simp [b5]
theorem cmd_invalidate (hk : p.cmd = 0x12) :
    (s.holdsSpace c.part (p.op 0x10).toNat = true → (p.op 0x20).toNat ≤ 1 →
      exec (.invalidateTranslations pk) s = .next ((s.invalidate c.part (p.op 0x10).toNat (if p.op 0x20 = 1#64 then none else some ((p.op 0x18).toNat % 2 ^ 56))).updPk pk fun p => { p with st := .finished })) ∧
    (s.holdsSpace c.part (p.op 0x10).toNat = false ∨ 1 < (p.op 0x20).toNat → exec (.invalidateTranslations pk) s = .next ((s.dropPk pk).haltQueue p.queue 5 0 p.idx)) := by
  refine ⟨fun a1 a2 => command_some hp hs hc ht hk h1 h2 ?_, fun h => command_none hp hs hc ht hk h1 h2 ?_⟩
  · simp only
    rw [if_neg (by simp [a1]; omega)]
  · simp only
    rw [if_pos (by rcases h with h | h <;> simp [h])]
end Commands
section Going
variable {s : State} {pk : Nat} {p : Packet} {c : Qcb} (hp : Tbl.find s.packets pk = some p) (hs : p.safe = false)
  (hc : Tbl.find s.queues p.queue = some c) (ht : p.typ = 0x0F) (hst : p.st = .started)
include hp hs hc ht hst
theorem go_tear (hk : p.cmd = 0x07) : exec (.tearDownSpace pk) s = .next (if s.residentIn (p.op 0x10).toNat || s.begunIn (p.op 0x10).toNat then s.updPk pk fun p => { p with st := .started }
    else (s.closeSpace (p.op 0x10).toNat).updPk pk fun p => { p with st := .finished }) := by
  show execTearDownSpace pk s = _
  unfold execTearDownSpace
  simp only
  rw [manage_started hp hs hc _ hst, goOn_now hp hs hc ht hk hst]
  split <;> rfl
theorem go_preEmpt (hk : p.cmd = 0x0B) : exec (.preEmptContext pk) s = .next (
    if ((s.finishSave (p.op 0x10).toNat).space (p.op 0x10).toNat).st = .preempting then (s.finishSave (p.op 0x10).toNat).updPk pk fun p => { p with st := .started }
    else (s.finishSave (p.op 0x10).toNat).updPk pk fun p => { p with st := .finished }) := by
  show execPreEmptContext pk s = _
  unfold execPreEmptContext
  simp only
  rw [manage_started hp hs hc _ hst, goOn_now hp hs hc ht hk hst]
  split <;> rfl
theorem go_resume (hk : p.cmd = 0x0C) (h1 : (s.space (p.op 0x10).toNat).resumePk = some pk) (h2 : (s.space (p.op 0x10).toNat).st = .running) :
    exec (.resumeContext pk) s = .next (if (s.space (p.op 0x10).toNat).saved = [] then
      (s.updSpace (p.op 0x10).toNat fun p => { p with resumePk := none }).updPk pk fun p => { p with st := .finished } else s.updPk pk fun p => { p with st := .started }) := by
  show execResumeContext pk s = _
  unfold execResumeContext
  simp only
  rw [manage_started hp hs hc _ hst, goOn_now hp hs hc ht hk hst]
  simp only [h1, h2]
  cases hsv : (s.space (p.op 0x10).toNat).saved <;> simp <;> rfl
theorem go_release (hk : p.cmd = 0x0D) : exec (.releaseContext pk) s = .next (if s.drained (p.op 0x10).toNat then
    ((s.scrub (p.op 0x10).toNat).audit 4 (toBytes 8 c.part ++ toBytes 8 (p.op 0x10).toNat)).updPk pk fun p => { p with st := .finished }
    else s.updPk pk fun p => { p with st := .started }) := by
  show execReleaseContext pk s = _
  unfold execReleaseContext
  simp only
  rw [manage_started hp hs hc _ hst, goOn_now hp hs hc ht hk hst]
  split <;> rfl
theorem go_stop (hk : p.cmd = 0x10) : ((s.space (p.op 0x10).toNat).st = .saved ∨ (s.space (p.op 0x10).toNat).st = .halted →
      exec (.stopAtPoint pk) s = .next (s.updPk pk fun p => { p with st := .finished })) ∧
    (∀ r, (s.space (p.op 0x10).toNat).st = .running → (s.space (p.op 0x10).toNat).replay = some r → r.void = false →
      exec (.stopAtPoint pk) s = .next (s.updPk pk fun p => { p with st := .started })) := by
  refine ⟨fun h => ?_, fun r h1 h2 h3 => ?_⟩ <;> show execStopAtPoint pk s = _ <;> unfold execStopAtPoint <;> simp only <;>
    rw [manage_started hp hs hc _ hst, goOn_now hp hs hc ht hk hst]
  · rw [if_pos]
    · rfl
    · rcases h with h | h <;> simp [h]
  · rw [if_neg]
    · rfl
    · simp [h1, h2, h3]
end Going

end Sys2Proof.Laws
end

