-- ==== Sys2Proof/Laws/Decode.lean ====
section
/-! SUPPORT. Decoding undoes encoding: the lemmas over the shapes of words, and the raw round trip. -/

namespace Sys2Proof.Laws

/-- Reading a full word's fields gives the opcode's decoding of its body. -/
theorem decodeRaw_full (h : Hdr) (c op : Nat) (hc : c < 16) (ho : op < 64) (x : BitVec 48) :
    decodeRaw (full h c op x) = dOp h x c op := by
  have h1 : (BitVec.ofNat 4 c).toNat = c := by rw [BitVec.toNat_ofNat]; exact Nat.mod_eq_of_lt hc
  have h2 : (BitVec.ofNat 6 op).toNat = op := by rw [BitVec.toNat_ofNat]; exact Nat.mod_eq_of_lt ho
  have h3 : (BitVec.ofNat 3 h.g.val).toFin = h.g := by
    apply Fin.ext
    show (BitVec.ofNat 3 h.g.val).toNat = h.g.val
    rw [BitVec.toNat_ofNat]; exact Nat.mod_eq_of_lt h.g.isLt
  have h0 : bit1 0#1 = false := rfl
  simp only [decodeRaw, full, hi_cat, lo_cat, h0, bit1_b1, h1, h2, h3]
  rfl

/-- Reading a paired word gives its two slots. -/
theorem decodeRaw_paired (sw : Bool) (x y : Slot) : decodeRaw (paired sw x y) = some (.pairedWord sw x y) := by
  have h1 : bit1 1#1 = true := rfl
  simp [decodeRaw, paired, h1]

end Sys2Proof.Laws
end

