-- ==== Sys2Proof/Laws/Safes.lean ====
section
/-! SUPPORT. What the safe function's commands do. -/

namespace Sys2Proof.Laws

open Sys2Proof.Machine

section Safe
variable {s : State} {pk : Nat} {p : Packet} (hp : Tbl.find s.packets pk = some p) (hs : p.safe = true) (ht : p.st = .taken)
include hp hs ht
theorem safely_off {cmd : Nat} (hk : p.cmd = cmd) (h : s.sec.stage = 0xF1#8) (h3 : cmd ≠ 0x23) (h4 : cmd ≠ 0x24) (k : Packet → State → Option State) :
    s.safely pk cmd k = .next ((s.dropPk pk).haltSafe 5 0) := by
  unfold State.safely
  simp only [hp, hs, ht, hk]
  rw [if_neg (by simp), if_pos ⟨h, h3, h4⟩]
theorem safely_on {cmd : Nat} (hk : p.cmd = cmd) (h : s.sec.stage ≠ 0xF1#8 ∨ cmd = 0x23 ∨ cmd = 0x24) (k : Packet → State → Option State) :
    (∀ u, k p s = some u → s.safely pk cmd k = .next (u.updPk pk fun p => { p with st := .finished })) ∧
    (k p s = none → s.safely pk cmd k = .next ((s.dropPk pk).haltSafe 5 0)) := by
  have e : ¬ (s.sec.stage = 0xF1#8 ∧ cmd ≠ 0x23 ∧ cmd ≠ 0x24) := by
    rintro ⟨a, b, c⟩
    rcases h with h | h | h
    · exact h a
    · exact b h
    · exact c h
  unfold State.safely
  simp only [hp, hs, ht, hk]
  rw [if_neg (by simp), if_neg e]
  refine ⟨fun u hu => ?_, fun hu => ?_⟩ <;> rw [hu]
  rfl
theorem safe_off {cmd : Nat} {k : Packet → State → Option State} {e : Instr} (he : exec e s = s.safely pk cmd k) (hk : p.cmd = cmd)
    (h : s.sec.stage = 0xF1#8) (h3 : cmd ≠ 0x23) (h4 : cmd ≠ 0x24) : exec e s = .next ((s.dropPk pk).haltSafe 5 0) :=
  he.trans (safely_off hp hs ht hk h h3 h4 k)
theorem safe_some {cmd : Nat} {k : Packet → State → Option State} {e : Instr} {u : State} (he : exec e s = s.safely pk cmd k) (hk : p.cmd = cmd)
    (h : s.sec.stage ≠ 0xF1#8 ∨ cmd = 0x23 ∨ cmd = 0x24) (hu : k p s = some u) : exec e s = .next (u.updPk pk fun p => { p with st := .finished }) :=
  he.trans ((safely_on hp hs ht hk h k).1 u hu)
theorem safe_none {cmd : Nat} {k : Packet → State → Option State} {e : Instr} (he : exec e s = s.safely pk cmd k) (hk : p.cmd = cmd)
    (h : s.sec.stage ≠ 0xF1#8 ∨ cmd = 0x23 ∨ cmd = 0x24) (hu : k p s = none) : exec e s = .next ((s.dropPk pk).haltSafe 5 0) :=
  he.trans ((safely_on hp hs ht hk h k).2 hu)
theorem safe_attest (hk : p.cmd = 0x23) :
    ((p.op 0x10).toNat % 64 = 0 → (p.op 0x10).toNat < 2 ^ 51 →
      exec (.attest pk) s = .next ((s.checkpoint.plainWrite 0 0 false (hostPa (p.op 0x10).toNat) (s.checkpoint.report p.digest)).updPk pk fun p => { p with st := .finished })) ∧
    ((p.op 0x10).toNat % 64 ≠ 0 ∨ 2 ^ 51 ≤ (p.op 0x10).toNat → exec (.attest pk) s = .next ((s.dropPk pk).haltSafe 5 0)) := by
  have he : exec (.attest pk) s = execAttest pk s := rfl
  unfold execAttest at he
  refine ⟨fun a1 a2 => safe_some hp hs ht he hk (.inr (.inl rfl)) ?_, fun h => safe_none hp hs ht he hk (.inr (.inl rfl)) ?_⟩
  · simp only
    rw [if_neg (by omega)]
  · simp only
    rw [if_pos h]
theorem safe_read (hk : p.cmd = 0x24) (l : List AuditRec)
    (hl : l = s.sec.audit.filter (fun r => decide ((p.op 0x10).toNat ≤ r.seq) && decide (r.seq < (p.op 0x10).toNat + (p.op 0x18).toNat))) :
    (l.length = (p.op 0x18).toNat → (p.op 0x20).toNat < 2 ^ 51 →
      exec (.readAuditLog pk) s = .next ((s.plainWrite 0 0 false (hostPa (p.op 0x20).toNat) (l.flatMap AuditRec.bytes)).updPk pk fun p => { p with st := .finished })) ∧
    (l.length ≠ (p.op 0x18).toNat → exec (.readAuditLog pk) s = .next ((s.dropPk pk).haltSafe 5 0)) := by
  have he : exec (.readAuditLog pk) s = execReadAuditLog pk s := rfl
  unfold execReadAuditLog at he
  subst hl
  refine ⟨fun a1 a2 => safe_some hp hs ht he hk (.inr (.inr rfl)) ?_, fun h => safe_none hp hs ht he hk (.inr (.inr rfl)) ?_⟩
  · simp only
    rw [if_neg (by rintro (h | h); exact h a1; omega)]
  · simp only
    rw [if_pos (.inl h)]
theorem safe_delete (hk : p.cmd = 0x21) (h1 : s.sec.stage ≠ 0xF1#8) :
    (∀ x, Tbl.find s.parts (p.op 0x10).toNat = some x → s.auditFull 80 = false →
      (∀ e ∈ s.spaces, e.2.part = (p.op 0x10).toNat → e.2.inUse = true → e.2.st = .released) →
      ∀ s2 s3, s2 = x.ranges.foldl (fun u r => u.zeroMem (u.sec.modnum.toNat * 2 ^ 43 + r.1) r.2) (s.scrubCaches (p.op 0x10).toNat) →
      s3 = (s2.queues.filter (fun q => q.2.part == (p.op 0x10).toNat && q.2.st != .free)).foldl (fun u q =>
        ({ u with packets := u.packets.filter (fun k => k.2.safe || k.2.queue != q.1) }.zeroMem (u.qcbAt q.1) 64).putQcb q.1 {} true) s2 →
      exec (.deletePartition pk) s = .next (({ s3 with parts := Tbl.del s3.parts (p.op 0x10).toNat }.audit 3 (toBytes 8 (p.op 0x10).toNat ++ toBytes 8 0)).updPk pk fun p => { p with st := .finished })) ∧
    (Tbl.find s.parts (p.op 0x10).toNat = none ∨ (∃ e ∈ s.spaces, e.2.part = (p.op 0x10).toNat ∧ e.2.inUse = true ∧ e.2.st ≠ .released) →
      exec (.deletePartition pk) s = .next ((s.dropPk pk).haltSafe 5 0)) := by
  have he : exec (.deletePartition pk) s = execDeletePartition pk s := rfl
  unfold execDeletePartition at he
  refine ⟨fun x hx ha hq s2 s3 e2 e3 => safe_some hp hs ht he hk (.inl h1) ?_, fun h => safe_none hp hs ht he hk (.inl h1) ?_⟩
  · subst e3 e2
    simp only [hx]
    rw [if_neg]
    · refine or_ff ha ?_
      refine List.any_eq_false.mpr fun e hm => ?_
      simp only [Bool.and_eq_true, beq_iff_eq, bne_iff_ne, not_and, ne_eq, Decidable.not_not]
      exact fun hh => hq e hm hh.1 hh.2
  · simp only
    rcases h with h | ⟨e, hm, h2, h3, h4⟩
    · rw [h]
    · cases Tbl.find s.parts (p.op 0x10).toNat with
      | none => rfl
      | some x =>
        simp only
        rw [if_pos (or_tt (.inr (List.any_eq_true.mpr ⟨e, hm, by simp [h2, h3, h4]⟩)))]
theorem safe_domain (hk : p.cmd = 0x22) (h1 : s.sec.stage ≠ 0xF1#8) (numbers : List Nat)
    (hn : numbers = (List.range (p.op 0x20).toNat).map fun i => (s.rd8 ((p.op 0x18).toNat + 16 * i)).toNat) :
    ((p.op 0x10).toNat ≤ 255 → 1 ≤ (p.op 0x20).toNat → (p.op 0x20).toNat ≤ 256 → s.paExists (p.op 0x18).toNat = true →
      s.paExists ((p.op 0x18).toNat + 16 * (p.op 0x20).toNat - 1) = true → (p.op 0x10).toNat ∈ numbers → (∀ x ∈ numbers, x ≤ 255) →
      ∀ s1, s1 = s.renumber s.sec.modnum.toNat (p.op 0x10).toNat →
      exec (.setDomain pk) s = .next (({ s1 with sec := { s1.sec with domain := s.domainAt (p.op 0x18).toNat (p.op 0x20).toNat, modnum := BitVec.ofNat 8 (p.op 0x10).toNat } } : State).updPk pk
        fun p => { p with st := .finished })) ∧
    ((p.op 0x10).toNat ∉ numbers → exec (.setDomain pk) s = .next ((s.dropPk pk).haltSafe 5 0)) := by
  have he : exec (.setDomain pk) s = execSetDomain pk s := rfl
  unfold execSetDomain at he
  subst hn
  refine ⟨fun a1 a2 a3 a4 a5 a6 a7 s1 e1 => safe_some hp hs ht he hk (.inl h1) ?_, fun h => safe_none hp hs ht he hk (.inl h1) ?_⟩
  · subst e1
    simp only
    rw [if_neg]
    have c1 : ((List.range (p.op 0x20).toNat).map fun i => (s.rd8 ((p.op 0x18).toNat + 16 * i)).toNat).contains (p.op 0x10).toNat = true := by
      rw [List.contains_eq_mem]; exact decide_eq_true a6
    have c2 : ((List.range (p.op 0x20).toNat).map fun i => (s.rd8 ((p.op 0x18).toNat + 16 * i)).toNat).any (fun x => decide (255 < x)) = false :=
      List.any_eq_false.mpr fun x hx => by have := a7 x hx; simp; omega
    rw [c1, c2, a4, a5]
    simp
    omega
  · simp only
    rw [if_pos]
    have c1 : ((List.range (p.op 0x20).toNat).map fun i => (s.rd8 ((p.op 0x18).toNat + 16 * i)).toNat).contains (p.op 0x10).toNat = false := by
      rw [List.contains_eq_mem]; exact decide_eq_false h
    rw [c1]; simp
theorem safe_reclaim (hk : p.cmd = 0x25) (h1 : s.sec.stage ≠ 0xF1#8) :
    ((∃ r ∈ s.sec.audit, r.seq = (p.op 0x10).toNat ∧ r.typ = 5) → exec (.reclaimAuditLog pk) s = .next
      ((({ s with sec := { s.sec with audit := s.sec.audit.filter (fun r => decide ((p.op 0x10).toNat ≤ r.seq)) } } : State).auditFlush.audit 7 (toBytes 8 (p.op 0x10).toNat)).updPk pk
        fun p => { p with st := .finished })) ∧
    ((∀ r ∈ s.sec.audit, r.seq = (p.op 0x10).toNat → r.typ ≠ 5) → exec (.reclaimAuditLog pk) s = .next ((s.dropPk pk).haltSafe 5 0)) := by
  have he : exec (.reclaimAuditLog pk) s = execReclaimAuditLog pk s := rfl
  unfold execReclaimAuditLog at he
  refine ⟨fun ⟨r, hr, a, b⟩ => safe_some hp hs ht he hk (.inl h1) ?_, fun h => safe_none hp hs ht he hk (.inl h1) ?_⟩
  · simp only
    rw [if_neg]
    rw [List.any_eq_true.mpr ⟨r, hr, by simp [a, b]⟩]; simp
  · simp only
    rw [if_pos]
    rw [List.any_eq_false.mpr fun r hr => by simpa using h r hr]; rfl
theorem safe_table (hk : p.cmd = 0x27) (h1 : s.sec.stage ≠ 0xF1#8) :
    (4 ≤ s.sec.stage.toNat → s.sec.qtab = none → s.parts = [] → 10 ≤ (p.op 0x18).toNat → (p.op 0x18).toNat ≤ 20 → (p.op 0x10).toNat % 65536 = 0 → (p.op 0x10).toNat < 2 ^ 51 →
      s.ownMem (p.op 0x10).toNat = true → (p.op 0x10).toNat % 2 ^ 43 + 64 * 2 ^ (p.op 0x18).toNat ≤ 576 * 2 ^ 30 →
      s.sec.dieup.getLsbD (homeDie (p.op 0x10).toNat) = true → s.sec.dieup.getLsbD (homeDie ((p.op 0x10).toNat + 64 * 2 ^ (p.op 0x18).toNat - 1)) = true →
      exec (.setQueueTable pk) s = .next (({ s.zeroMem (p.op 0x10).toNat (64 * 2 ^ (p.op 0x18).toNat) with sec := { s.sec with qtab := some ((p.op 0x10).toNat, (p.op 0x18).toNat) } } : State).updPk pk
        fun p => { p with st := .finished })) ∧
    (s.sec.qtab.isSome = true ∨ s.parts ≠ [] → exec (.setQueueTable pk) s = .next ((s.dropPk pk).haltSafe 5 0)) := by
  have he : exec (.setQueueTable pk) s = execSetQueueTable pk s := rfl
  unfold execSetQueueTable at he
  refine ⟨fun a1 a2 a3 a4 a5 a6 a7 a8 a9 b1 b2 => safe_some hp hs ht he hk (.inl h1) ?_, fun h => safe_none hp hs ht he hk (.inl h1) ?_⟩
  · simp only
    rw [if_neg]
    rw [a2, a3, a8, b1, b2]
    unfold inRange
    simp
    omega
  · simp only
    rw [if_pos]
    rcases h with h | h
    · simp [h]
    · simp [h]
theorem safe_create (hk : p.cmd = 0x20) (h1 : s.sec.stage ≠ 0xF1#8) (ks : List Nat) (hks : ks = maskClusters (p.op 0x18) (p.op 0x20) (p.op 0x28)) :
    (∀ rs qt t, s.rangeList (p.op 0x40).toNat (p.op 0x48).toNat = some rs → s.qtabRange = some qt → s.sec.qtab = some t → 4 ≤ s.sec.stage.toNat → s.auditFull 80 = false →
      (p.op 0x10).toNat ≤ 63 → Tbl.find s.parts (p.op 0x10).toNat = none → (∀ k ∈ ks, k ∈ s.sec.inService ∧ ∀ x ∈ s.parts, k ∉ x.2.clusters) → disjoint rs = true →
      (∀ r ∈ rs, overlaps r qt = false ∧ ∀ x ∈ s.parts, ∀ o ∈ x.2.ranges, overlaps r o = false) → (p.op 0x50).toNat < 2 ^ t.2 →
      (∀ c, Tbl.find s.queues (p.op 0x50).toNat = some c → c.st = .free) → (p.op 0x60).toNat < 16384 → s.hwqBound (p.op 0x60).toNat = false →
      (∃ k ∈ ks, k / 48 = (p.op 0x60).toNat / 4096) → ringOk (p.op 0x58) = true →
      s.ringPlace rs ((p.op 0x58).toNat / 2 ^ 12 * 2 ^ 12) (bits (p.op 0x58) 4 0) = true →
      exec (.createPartition pk) s = .next (((({ s with parts := Tbl.put s.parts (p.op 0x10).toNat ({ clusters := ks, walkpc := p.op 0x30, ftpc := p.op 0x38, ranges := rs, mq := (p.op 0x50).toNat } : Partition) }.plainWrite 0 (p.op 0x10).toNat false
        (s.qcbAt (p.op 0x50).toNat) (toBytes 64 0)).putQcb (p.op 0x50).toNat
        { base := (p.op 0x58).toNat / 2 ^ 12 * 2 ^ 12, lsz := bits (p.op 0x58) 4 0, part := (p.op 0x10).toNat, st := .active, mgmt := true, hb := true, hwq := (p.op 0x60).toNat } true).audit 3
        (toBytes 8 (p.op 0x10).toNat ++ toBytes 8 1)).updPk pk fun p => { p with st := .finished })) ∧
    ((Tbl.find s.parts (p.op 0x10).toNat).isSome = true ∨ 63 < (p.op 0x10).toNat ∨ s.qtabRange = none → exec (.createPartition pk) s = .next ((s.dropPk pk).haltSafe 5 0)) := by
  have he : exec (.createPartition pk) s = execCreatePartition pk s := rfl
  unfold execCreatePartition at he
  subst hks
  refine ⟨fun rs qt t a1 a2 a3 a4 a5 a6 a7 a8 a9 b1 b2 b3 b4 b5 b6 b7 b8 => safe_some hp hs ht he hk (.inl h1) ?_, fun h => safe_none hp hs ht he hk (.inl h1) ?_⟩
  · simp only [a1, a2]
    rw [if_neg]
    have c1 : (maskClusters (p.op 0x18) (p.op 0x20) (p.op 0x28)).any (fun k => !s.sec.inService.contains k || s.parts.any (fun x => x.2.clusters.contains k)) = false :=
      List.any_eq_false.mpr fun k hk => by
        have := a8 k hk
        simp only [Bool.not_eq_true, Bool.or_eq_false_iff, Bool.not_eq_false', List.contains_eq_mem, decide_eq_true_eq, List.any_eq_false]
        exact ⟨this.1, this.2⟩
    have c2 : rs.any (fun r => (s.parts.flatMap fun x => x.2.ranges).any (overlaps r) || overlaps r qt) = false :=
      List.any_eq_false.mpr fun r hr => by
        have := b1 r hr
        simp only [Bool.not_eq_true, Bool.or_eq_false_iff, List.any_eq_false, List.mem_flatMap, this.1, and_true]
        rintro o ⟨x, hx, ho⟩
        exact this.2 x hx o ho
    have c3 : ((Tbl.find s.queues (p.op 0x50).toNat).map fun c => c.st != .free).getD false = false := by
      cases hq : Tbl.find s.queues (p.op 0x50).toNat with
      | none => rfl
      | some c => simp [b3 c hq]
    have c4 : (maskClusters (p.op 0x18) (p.op 0x20) (p.op 0x28)).any (fun k => k / 48 == (p.op 0x60).toNat / 4096) = true := by
      obtain ⟨k, hk, e⟩ := b6
      exact List.any_eq_true.mpr ⟨k, hk, by simp [e]⟩
    rw [c1, c2, c3, c4, a3, a5, a7, a9, b5, b7, b8]
    simp
    omega
  · simp only
    rcases h with h | h | h
    · split
      · rw [if_pos (by simp [h])]
      · rfl
    · split
      · rw [if_pos (by simp [h])]
      · rfl
    · split
      · rename_i h2; rw [h] at h2; cases h2
      · rfl
end Safe

end Sys2Proof.Laws
end

