-- ==== Sys2Proof/Laws/Hosts.lean ====
section
/-! SUPPORT. What a host access leaves: a packet on its port. -/

namespace Sys2Proof.Laws

open Sys2Proof.Machine

/-- A request entered in the table is there, under the next number, with what it was made with. -/
theorem putReq_spec (s : State) (q : Req) :
    (s.putReq q).mem = s.mem ∧ (s.putReq q).groups = s.groups ∧ Tbl.find (s.putReq q).reqs (s.fresh + 1) = some { q with nr := s.fresh + 1 } :=
  ⟨rfl, rfl, find_put_self ..⟩
/-- A value within one sector is one piece. -/
theorem sectorPieces_one {pa : Nat} {l : List Byte} (h : pa % 64 + l.length ≤ 64) : sectorPieces pa l = [(pa, l)] := by
  unfold sectorPieces
  simp only
  rw [if_pos (by omega)]
theorem host_write {s : State} {port off q : Nat} {ord : Bool} {l : List Byte} (hq : s.portOf port = some q) (hl : l ≠ []) (hn : off + l.length ≤ 576 * 2 ^ 30)
    (hs : (s.sec.modnum.toNat * 2 ^ 43 + off) % 64 + l.length ≤ 64) :
    exec (.hostWrite port ord off l) s = .next (s.putReq { s.putPacket (s.hostSender q (s.aperture off) ord) (s.aperture off) l with head := ord }) := by
  show execHostWrite port ord off l s = _
  unfold execHostWrite
  rw [hq]
  have hpos : 0 < l.length := List.length_pos_iff.mpr hl
  have ht : l.take (apertureEnd - off) = l := List.take_of_length_le (by unfold apertureEnd; omega)
  simp only [ht]
  rw [if_neg (by simp [hl]), if_neg (by unfold windowAt; omega), if_neg (by unfold apertureEnd; omega), sectorPieces_one (by exact hs)]
  rfl
theorem host_atomic {s : State} {port off q : Nat} {op : HostAtom} (hq : s.portOf port = some q) (ha : off % 8 = 0) (hn : off < 576 * 2 ^ 30) :
    exec (.hostAtomic port off op) s = .next (s.putReq { s.packetOf (s.hostSender q (s.aperture off) true) (.rmw hostTag (.atom (HostAtom.atomOp op).1))
      [{ lane := 0, ga := 0#64, locs := [.mem (s.aperture off)], data := (HostAtom.atomOp op).2.1.setWidth 128, alt := (HostAtom.atomOp op).2.2.setWidth 128, len := 8, unc := true }] 8
        with head := true }) := by
  show execHostAtomic port off op s = _
  unfold execHostAtomic
  rw [hq]
  simp only
  rw [if_neg (by unfold windowAt; omega), if_neg (by unfold apertureEnd; omega)]

end Sys2Proof.Laws
end

