-- ==== Sys2Proof/Laws/Progress.lean ====
section
/-! SUPPORT. Words read back from their encodings; the candidates of the round, and the scheduler, always answer a next state. -/

namespace Sys2Proof.Laws

open Sys2Proof.Machine

theorem decodeRaw_encode (i : Instr) (hw : i.wellFormed = true) : decodeRaw (encode i) = some i := by
  cases i
  case red h d m op =>
    have hm : m.rct = 0#4 := by
      have h1 : ((ordSco m.ord m.sco && redOrd m.ord && op.sizes m.sz && m.rct.toNat == 0) && _ && _ && _ && _ && _) = true := hw
      simp only [Bool.and_eq_true, beq_iff_eq] at h1
      exact BitVec.eq_of_toNat_eq h1.1.1.1.1.1.2
    refine (decodeRaw_full h _ _ (by decide) (by decide) _).trans ?_
    have := dMem_body (eR d) m (eROp op)
    rw [hm] at this
    simp [dOp, dClass8, this]
  case pairedWord => exact decodeRaw_paired _ _ _
  all_goals first
    | exact nomatch (show false = true from hw)
    | (refine (decodeRaw_full _ _ _ (by decide) (by decide) _).trans ?_
       simp [dOp, dClass0, dClass1, dClass2, dClass3, dClass4, dClass5, dClass6, dClass7, dClass8, dClass9,
         dClass10, dClass11, dClass12, dClass13])

theorem goesOn_issueSlot (s : State) (gs : Nat) (b : Bool) : ∃ t, s.issueSlot gs b = .next t := by
  unfold State.issueSlot
  simp only
  split
  · exact ⟨_, rfl⟩
  · rename_i g p hgp
    split
    · exact ⟨_, rfl⟩
    · split
      · exact ⟨_, rfl⟩
      · split
        · exact ⟨_, rfl⟩
        · unfold State.fetchAndRun
          obtain ⟨g', hg', hs⟩ := Option.bind_eq_some_iff.mp hgp
          obtain ⟨p', hp', he⟩ := Option.map_eq_some_iff.mp hs
          injection he with h1 h2
          subst h1 h2
          split
          · rename_i w x hf
            have hx : x.groups = Tbl.put (s.settleQuiet gs).groups gs { g' with swPark := false } := by
              unfold State.fetch at hf
              simp only at hf
              split at hf
              · injection hf with _ h; rw [← h]
              · split at hf
                · cases hf
                · cases hf
                · cases hf
                · cases hf
                · split at hf
                  · cases hf
                  · injection hf with _ h
                    rw [← h]
                    unfold State.fetchFrom
                    split
                    · rfl
                    · split
                      · rfl
                      · exact (same_fetch _ _ _ _ true 0).2
            split
            · rename_i i hd
              unfold State.runInstr
              have : ∃ t, exec i { x with cur := some ⟨gs, b⟩ } = .next t := by
                cases hn : i.info with
                | some f =>
                  refine exec_of_slot (g := { g' with swPark := false }) (p := p') hn rfl ?_ ?_
                  · show Tbl.find x.groups gs = _
                    rw [hx]; exact find_put_self _ _ _
                  · cases b <;> exact hp'
                | none => exact exec_of_event hn _
              obtain ⟨t, ht⟩ := this
              rw [ht]
              exact ⟨_, rfl⟩
            · exact ⟨_, rfl⟩
          · exact ⟨_, rfl⟩

theorem goesOn_issueLb (s : State) (k : Nat) : ∃ t, s.issueLb k = .next t := by
  have F : ∀ (l : List (Nat × Bool)) (s : State), ∃ t, s.firstOf l = .next t := by
    intro l
    induction l with
    | nil => exact fun s => ⟨_, rfl⟩
    | cons x l ih =>
      intro s
      unfold State.firstOf
      obtain ⟨t, ht⟩ := goesOn_issueSlot s x.1 x.2
      rw [ht]
      simp only
      split
      · exact ⟨_, rfl⟩
      · exact ih t
  unfold State.issueLb
  split
  · exact ⟨_, rfl⟩
  · exact F _ s

/-- A candidate of the round always answers a next state. -/
def GoesOn (c : State → Host.Outcome State Fault Refusal) : Prop := ∀ s, ∃ t, c s = .next t

/-- All candidates of a list do. -/
def AllGoOn (l : List Cand) : Prop := ∀ c ∈ l, GoesOn c
theorem allGoOn_flatMap {α : Type} (l : List α) (f : α → List Cand) (h : ∀ x, AllGoOn (f x)) : AllGoOn (l.flatMap f) := by
  intro c hc
  obtain ⟨x, hx, hc⟩ := List.mem_flatMap.mp hc
  exact h x c hc
theorem allGoOn_map {α : Type} (l : List α) (f : α → Cand) (h : ∀ x, GoesOn (f x)) : AllGoOn (l.map f) := by
  intro c hc
  obtain ⟨x, -, rfl⟩ := List.mem_map.mp hc
  exact h x
theorem allGoOn_filterMap {α : Type} (l : List α) (f : α → Option Cand) (h : ∀ x c, f x = some c → GoesOn c) : AllGoOn (l.filterMap f) := by
  intro c hc
  obtain ⟨x, -, e⟩ := List.mem_filterMap.mp hc
  exact h x c e
theorem allGoOn_append {l m : List Cand} (h : AllGoOn l) (k : AllGoOn m) : AllGoOn (l ++ m) := by
  intro c hc
  rcases List.mem_append.mp hc with hc | hc
  · exact h c hc
  · exact k c hc
theorem allGoOn_nil : AllGoOn [] := fun c hc => by cases hc
theorem allGoOn_cons {x : Cand} {l : List Cand} (h : GoesOn x) (k : AllGoOn l) : AllGoOn (x :: l) := by
  intro c hc
  rcases List.mem_cons.mp hc with rfl | hc
  · exact h
  · exact k c hc

theorem goesOn_reqCands (s : State) (x : Nat × Req) : AllGoOn (reqCands s x) := by
  unfold reqCands
  repeat' (first
    | exact allGoOn_nil
    | exact fun s => ⟨_, rfl⟩
    | with_reducible refine allGoOn_append ?_ ?_
    | with_reducible refine allGoOn_cons ?_ ?_
    | (with_reducible refine allGoOn_flatMap _ _ ?_; intro _)
    | (with_reducible refine allGoOn_map _ _ ?_; intro _)
    | (with_reducible refine allGoOn_filterMap _ _ ?_; intro _ _ h)
    | split)

theorem goesOn_groupCands (s : State) (x : Nat × Group) : AllGoOn (groupCands s x) := by
  unfold groupCands
  repeat' (first
    | exact allGoOn_nil
    | exact fun s => ⟨_, rfl⟩
    | with_reducible refine allGoOn_append ?_ ?_
    | with_reducible refine allGoOn_cons ?_ ?_
    | (with_reducible refine allGoOn_flatMap _ _ ?_; intro _)
    | (with_reducible refine allGoOn_map _ _ ?_; intro _)
    | (with_reducible refine allGoOn_filterMap _ _ ?_; intro _ _ h)
    | split)
  all_goals
    revert h
    repeat' split
    all_goals intro h; cases h
  all_goals exact fun s => ⟨_, rfl⟩

theorem goesOn_lbCands (s : State) (x : Nat × LaneBlock) : AllGoOn (lbCands s x) := by
  unfold lbCands
  repeat' (first
    | exact allGoOn_nil
    | exact fun s => ⟨_, rfl⟩
    | with_reducible refine allGoOn_append ?_ ?_
    | with_reducible refine allGoOn_cons ?_ ?_
    | (with_reducible refine allGoOn_flatMap _ _ ?_; intro _)
    | (with_reducible refine allGoOn_map _ _ ?_; intro _)
    | (with_reducible refine allGoOn_filterMap _ _ ?_; intro _ _ h)
    | split)

theorem goesOn_coreCands (s : State) (x : Nat × Core) : AllGoOn (coreCands s x) := by
  unfold coreCands
  repeat' (first
    | exact allGoOn_nil
    | exact fun s => ⟨_, rfl⟩
    | with_reducible refine allGoOn_append ?_ ?_
    | with_reducible refine allGoOn_cons ?_ ?_
    | (with_reducible refine allGoOn_flatMap _ _ ?_; intro _)
    | (with_reducible refine allGoOn_map _ _ ?_; intro _)
    | (with_reducible refine allGoOn_filterMap _ _ ?_; intro _ _ h)
    | split)

theorem goesOn_collCands (x : Nat × Coll) : AllGoOn (collCands x) := by
  unfold collCands
  repeat' (first
    | exact allGoOn_nil
    | exact fun s => ⟨_, rfl⟩
    | with_reducible refine allGoOn_append ?_ ?_
    | with_reducible refine allGoOn_cons ?_ ?_
    | (with_reducible refine allGoOn_flatMap _ _ ?_; intro _)
    | (with_reducible refine allGoOn_map _ _ ?_; intro _)
    | (with_reducible refine allGoOn_filterMap _ _ ?_; intro _ _ h)
    | split)
  · obtain ⟨i, -, rfl⟩ := Option.map_eq_some_iff.mp h
    exact fun s => ⟨_, rfl⟩

theorem goesOn_packetCands (x : Nat × Packet) : AllGoOn (packetCands x) := by
  unfold packetCands
  repeat' (first
    | exact allGoOn_nil
    | exact fun s => ⟨_, rfl⟩
    | with_reducible refine allGoOn_append ?_ ?_
    | with_reducible refine allGoOn_cons ?_ ?_
    | (with_reducible refine allGoOn_flatMap _ _ ?_; intro _)
    | (with_reducible refine allGoOn_map _ _ ?_; intro _)
    | (with_reducible refine allGoOn_filterMap _ _ ?_; intro _ _ h)
    | split)

theorem goesOn_dieCands (s : State) (d : Nat) : AllGoOn (dieCands s d) := by
  unfold dieCands
  repeat' (first
    | exact allGoOn_nil
    | exact fun s => ⟨_, rfl⟩
    | with_reducible refine allGoOn_append ?_ ?_
    | with_reducible refine allGoOn_cons ?_ ?_
    | (with_reducible refine allGoOn_flatMap _ _ ?_; intro _)
    | (with_reducible refine allGoOn_map _ _ ?_; intro _)
    | (with_reducible refine allGoOn_filterMap _ _ ?_; intro _ _ h)
    | split)

theorem goesOn_sweepCands (s : State) : AllGoOn (sweepCands s) := by
  unfold sweepCands
  repeat' (first
    | exact allGoOn_nil
    | exact fun s => ⟨_, rfl⟩
    | with_reducible refine allGoOn_append ?_ ?_
    | with_reducible refine allGoOn_cons ?_ ?_
    | (with_reducible refine allGoOn_flatMap _ _ ?_; intro _)
    | (with_reducible refine allGoOn_map _ _ ?_; intro _)
    | (with_reducible refine allGoOn_filterMap _ _ ?_; intro _ _ h)
    | split)

theorem goesOn_cands (s : State) : AllGoOn s.cands := by
  have G : ∀ {f : State → State}, GoesOn (fun s => .next (f s)) := fun s => ⟨_, rfl⟩
  unfold State.cands
  refine allGoOn_append (allGoOn_append ?_ (allGoOn_map _ _ fun p => G)) (allGoOn_map _ _ fun k s => goesOn_issueLb s k)
  refine allGoOn_append ?_ (goesOn_sweepCands s)
  refine allGoOn_append ?_ (allGoOn_map _ _ fun p s => ⟨_, rfl⟩)
  refine allGoOn_append ?_ (allGoOn_flatMap _ _ fun q => allGoOn_cons (fun s => ⟨_, rfl⟩) (allGoOn_cons (fun s => ⟨_, rfl⟩) allGoOn_nil))
  refine allGoOn_append ?_ (allGoOn_flatMap _ _ fun x => goesOn_packetCands x)
  refine allGoOn_append ?_ (allGoOn_flatMap _ _ fun p => allGoOn_append
    (allGoOn_cons (fun s => ⟨_, rfl⟩) (allGoOn_cons (fun s => ⟨_, rfl⟩) allGoOn_nil)) (allGoOn_map _ _ fun c s => ⟨_, rfl⟩))
  refine allGoOn_append ?_ (allGoOn_flatMap _ _ fun g => allGoOn_cons (fun s => ⟨_, rfl⟩) (allGoOn_cons (fun s => ⟨_, rfl⟩)
    (allGoOn_cons (fun s => ⟨_, rfl⟩) (allGoOn_cons (fun s => ⟨_, rfl⟩) allGoOn_nil))))
  refine allGoOn_append ?_ (allGoOn_flatMap _ _ fun d => goesOn_dieCands s d)
  refine allGoOn_append ?_ (allGoOn_map _ _ fun t s => ⟨_, rfl⟩)
  refine allGoOn_append ?_ (allGoOn_flatMap _ _ fun x => goesOn_collCands x)
  refine allGoOn_append ?_ (allGoOn_cons (fun s => ⟨_, rfl⟩) allGoOn_nil)
  refine allGoOn_append ?_ (allGoOn_filterMap _ _ fun e c h => by
    obtain ⟨t, -, rfl⟩ := Option.map_eq_some_iff.mp h
    exact fun s => ⟨_, rfl⟩)
  refine allGoOn_append ?_ (allGoOn_flatMap _ _ fun x => allGoOn_flatMap _ _ fun p =>
    allGoOn_cons (fun s => ⟨_, rfl⟩) (allGoOn_cons (fun s => ⟨_, rfl⟩) allGoOn_nil))
  refine allGoOn_append ?_ (allGoOn_map _ _ fun a s => ⟨_, rfl⟩)
  refine allGoOn_append ?_ (allGoOn_map _ _ fun u s => ⟨_, rfl⟩)
  refine allGoOn_append ?_ (allGoOn_flatMap _ _ fun x => goesOn_coreCands s x)
  refine allGoOn_append ?_ (allGoOn_flatMap _ _ fun x => goesOn_lbCands s x)
  refine allGoOn_append ?_ (allGoOn_map _ _ fun x s => ⟨_, rfl⟩)
  refine allGoOn_append ?_ (allGoOn_map _ _ fun x s => ⟨_, rfl⟩)
  refine allGoOn_append ?_ (allGoOn_map _ _ fun x s => ⟨_, rfl⟩)
  exact allGoOn_append (allGoOn_flatMap _ _ fun x => goesOn_groupCands s x) (allGoOn_flatMap _ _ fun x => goesOn_reqCands s x)

end Sys2Proof.Laws
end

