-- ==== Sys2Proof/Laws/PerInstr.lean ====
section
/-! SUPPORT. Statements made for each instruction: a well-formed instruction of the table is what its word decodes to, before the
check that it is well formed (09, R219 to R237); a row that has no word is not well formed. -/

namespace Sys2Proof.Laws.Coded

/-- The instruction is what its word decodes to. -/
def Statement (i : Instr) : Prop := i.wellFormed = true → decodeRaw (encode i) = some i

theorem iadd (a1 a2 a3 a4 a5) : Statement (.iadd a1 a2 a3 a4 a5) := decodeRaw_encode _
theorem iaddRri (a1 a2 a3 a4 a5) : Statement (.iaddRri a1 a2 a3 a4 a5) := decodeRaw_encode _
theorem isub (a1 a2 a3 a4 a5) : Statement (.isub a1 a2 a3 a4 a5) := decodeRaw_encode _
theorem isubRri (a1 a2 a3 a4 a5) : Statement (.isubRri a1 a2 a3 a4 a5) := decodeRaw_encode _
theorem iadds (a1 a2 a3 a4 a5) : Statement (.iadds a1 a2 a3 a4 a5) := decodeRaw_encode _
theorem iaddsRri (a1 a2 a3 a4 a5) : Statement (.iaddsRri a1 a2 a3 a4 a5) := decodeRaw_encode _
theorem isubs (a1 a2 a3 a4 a5) : Statement (.isubs a1 a2 a3 a4 a5) := decodeRaw_encode _
theorem isubsRri (a1 a2 a3 a4 a5) : Statement (.isubsRri a1 a2 a3 a4 a5) := decodeRaw_encode _
theorem imul (a1 a2 a3 a4 a5) : Statement (.imul a1 a2 a3 a4 a5) := decodeRaw_encode _
theorem imulRri (a1 a2 a3 a4 a5) : Statement (.imulRri a1 a2 a3 a4 a5) := decodeRaw_encode _
theorem imulh (a1 a2 a3 a4 a5) : Statement (.imulh a1 a2 a3 a4 a5) := decodeRaw_encode _
theorem imad (a1 a2 a3 a4 a5 a6) : Statement (.imad a1 a2 a3 a4 a5 a6) := decodeRaw_encode _
theorem imadw (a1 a2 a3 a4 a5 a6) : Statement (.imadw a1 a2 a3 a4 a5 a6) := decodeRaw_encode _
theorem idiv (a1 a2 a3 a4 a5) : Statement (.idiv a1 a2 a3 a4 a5) := decodeRaw_encode _
theorem irem (a1 a2 a3 a4 a5) : Statement (.irem a1 a2 a3 a4 a5) := decodeRaw_encode _
theorem imin (a1 a2 a3 a4 a5) : Statement (.imin a1 a2 a3 a4 a5) := decodeRaw_encode _
theorem iminRri (a1 a2 a3 a4 a5) : Statement (.iminRri a1 a2 a3 a4 a5) := decodeRaw_encode _
theorem imax (a1 a2 a3 a4 a5) : Statement (.imax a1 a2 a3 a4 a5) := decodeRaw_encode _
theorem imaxRri (a1 a2 a3 a4 a5) : Statement (.imaxRri a1 a2 a3 a4 a5) := decodeRaw_encode _
theorem iabs (a1 a2 a3 a4) : Statement (.iabs a1 a2 a3 a4) := decodeRaw_encode _
theorem ineg (a1 a2 a3 a4) : Statement (.ineg a1 a2 a3 a4) := decodeRaw_encode _
theorem lea (a1 a2 a3 a4 a5 a6) : Statement (.lea a1 a2 a3 a4 a5 a6) := decodeRaw_encode _
theorem mov (a1 a2 a3 a4) : Statement (.mov a1 a2 a3 a4) := decodeRaw_encode _
theorem icmp (a1 a2 a3 a4 a5 a6) : Statement (.icmp a1 a2 a3 a4 a5 a6) := decodeRaw_encode _
theorem icmpRri (a1 a2 a3 a4 a5 a6) : Statement (.icmpRri a1 a2 a3 a4 a5 a6) := decodeRaw_encode _
theorem icmpp (a1 a2 a3 a4 a5 a6) : Statement (.icmpp a1 a2 a3 a4 a5 a6) := decodeRaw_encode _
theorem icmppRri (a1 a2 a3 a4 a5 a6) : Statement (.icmppRri a1 a2 a3 a4 a5 a6) := decodeRaw_encode _
theorem pick (a1 a2 a3 a4 a5 a6) : Statement (.pick a1 a2 a3 a4 a5 a6) := decodeRaw_encode _
theorem movi (a1 a2 a3 a4) : Statement (.movi a1 a2 a3 a4) := decodeRaw_encode _
theorem movih (a1 a2 a3) : Statement (.movih a1 a2 a3) := decodeRaw_encode _
theorem and (a1 a2 a3 a4 a5) : Statement (.and a1 a2 a3 a4 a5) := decodeRaw_encode _
theorem andRri (a1 a2 a3 a4 a5) : Statement (.andRri a1 a2 a3 a4 a5) := decodeRaw_encode _
theorem or (a1 a2 a3 a4 a5) : Statement (.or a1 a2 a3 a4 a5) := decodeRaw_encode _
theorem orRri (a1 a2 a3 a4 a5) : Statement (.orRri a1 a2 a3 a4 a5) := decodeRaw_encode _
theorem xor (a1 a2 a3 a4 a5) : Statement (.xor a1 a2 a3 a4 a5) := decodeRaw_encode _
theorem xorRri (a1 a2 a3 a4 a5) : Statement (.xorRri a1 a2 a3 a4 a5) := decodeRaw_encode _
theorem not (a1 a2 a3 a4) : Statement (.not a1 a2 a3 a4) := decodeRaw_encode _
theorem andn (a1 a2 a3 a4 a5) : Statement (.andn a1 a2 a3 a4 a5) := decodeRaw_encode _
theorem andnRri (a1 a2 a3 a4 a5) : Statement (.andnRri a1 a2 a3 a4 a5) := decodeRaw_encode _
theorem shl (a1 a2 a3 a4 a5) : Statement (.shl a1 a2 a3 a4 a5) := decodeRaw_encode _
theorem shlRri (a1 a2 a3 a4 a5) : Statement (.shlRri a1 a2 a3 a4 a5) := decodeRaw_encode _
theorem shr (a1 a2 a3 a4 a5) : Statement (.shr a1 a2 a3 a4 a5) := decodeRaw_encode _
theorem shrRri (a1 a2 a3 a4 a5) : Statement (.shrRri a1 a2 a3 a4 a5) := decodeRaw_encode _
theorem sar (a1 a2 a3 a4 a5) : Statement (.sar a1 a2 a3 a4 a5) := decodeRaw_encode _
theorem sarRri (a1 a2 a3 a4 a5) : Statement (.sarRri a1 a2 a3 a4 a5) := decodeRaw_encode _
theorem rotl (a1 a2 a3 a4 a5) : Statement (.rotl a1 a2 a3 a4 a5) := decodeRaw_encode _
theorem rotlRri (a1 a2 a3 a4 a5) : Statement (.rotlRri a1 a2 a3 a4 a5) := decodeRaw_encode _
theorem funnel (a1 a2 a3 a4 a5 a6) : Statement (.funnel a1 a2 a3 a4 a5 a6) := decodeRaw_encode _
theorem popc (a1 a2 a3 a4) : Statement (.popc a1 a2 a3 a4) := decodeRaw_encode _
theorem clz (a1 a2 a3 a4) : Statement (.clz a1 a2 a3 a4) := decodeRaw_encode _
theorem ctz (a1 a2 a3 a4) : Statement (.ctz a1 a2 a3 a4) := decodeRaw_encode _
theorem brev (a1 a2 a3 a4) : Statement (.brev a1 a2 a3 a4) := decodeRaw_encode _
theorem bfx (a1 a2 a3 a4 a5 a6) : Statement (.bfx a1 a2 a3 a4 a5 a6) := decodeRaw_encode _
theorem bfi (a1 a2 a3 a4 a5 a6) : Statement (.bfi a1 a2 a3 a4 a5 a6) := decodeRaw_encode _
theorem bmrg (a1 a2 a3 a4 a5) : Statement (.bmrg a1 a2 a3 a4 a5) := decodeRaw_encode _
theorem cnvi (a1 a2 a3 a4 a5 a6) : Statement (.cnvi a1 a2 a3 a4 a5 a6) := decodeRaw_encode _
theorem pand (a1 a2 a3 a4) : Statement (.pand a1 a2 a3 a4) := decodeRaw_encode _
theorem por (a1 a2 a3 a4) : Statement (.por a1 a2 a3 a4) := decodeRaw_encode _
theorem pxor (a1 a2 a3 a4) : Statement (.pxor a1 a2 a3 a4) := decodeRaw_encode _
theorem pnot (a1 a2 a3) : Statement (.pnot a1 a2 a3) := decodeRaw_encode _
theorem pmov (a1 a2) : Statement (.pmov a1 a2) := decodeRaw_encode _
theorem pset (a1 a2 a3) : Statement (.pset a1 a2 a3) := decodeRaw_encode _
theorem fadd (a1 a2 a3 a4 a5 a6 a7) : Statement (.fadd a1 a2 a3 a4 a5 a6 a7) := decodeRaw_encode _
theorem fsub (a1 a2 a3 a4 a5 a6 a7) : Statement (.fsub a1 a2 a3 a4 a5 a6 a7) := decodeRaw_encode _
theorem fmul (a1 a2 a3 a4 a5 a6 a7) : Statement (.fmul a1 a2 a3 a4 a5 a6 a7) := decodeRaw_encode _
theorem ffma (a1 a2 a3 a4 a5 a6 a7 a8) : Statement (.ffma a1 a2 a3 a4 a5 a6 a7 a8) := decodeRaw_encode _
theorem fmin (a1 a2 a3 a4 a5 a6) : Statement (.fmin a1 a2 a3 a4 a5 a6) := decodeRaw_encode _
theorem fmax (a1 a2 a3 a4 a5 a6) : Statement (.fmax a1 a2 a3 a4 a5 a6) := decodeRaw_encode _
theorem fminx (a1 a2 a3 a4 a5 a6) : Statement (.fminx a1 a2 a3 a4 a5 a6) := decodeRaw_encode _
theorem fmaxx (a1 a2 a3 a4 a5 a6) : Statement (.fmaxx a1 a2 a3 a4 a5 a6) := decodeRaw_encode _
theorem fdiv (a1 a2 a3 a4 a5 a6 a7) : Statement (.fdiv a1 a2 a3 a4 a5 a6 a7) := decodeRaw_encode _
theorem fsqrt (a1 a2 a3 a4 a5 a6) : Statement (.fsqrt a1 a2 a3 a4 a5 a6) := decodeRaw_encode _
theorem frcp (a1 a2 a3 a4 a5 a6) : Statement (.frcp a1 a2 a3 a4 a5 a6) := decodeRaw_encode _
theorem frsq (a1 a2 a3 a4 a5 a6) : Statement (.frsq a1 a2 a3 a4 a5 a6) := decodeRaw_encode _
theorem fex2 (a1 a2 a3 a4 a5 a6) : Statement (.fex2 a1 a2 a3 a4 a5 a6) := decodeRaw_encode _
theorem flg2 (a1 a2 a3 a4 a5 a6) : Statement (.flg2 a1 a2 a3 a4 a5 a6) := decodeRaw_encode _
theorem fcmpp (a1 a2 a3 a4 a5 a6 a7) : Statement (.fcmpp a1 a2 a3 a4 a5 a6 a7) := decodeRaw_encode _
theorem fclass (a1 a2 a3 a4) : Statement (.fclass a1 a2 a3 a4) := decodeRaw_encode _
theorem frnd (a1 a2 a3 a4 a5 a6) : Statement (.frnd a1 a2 a3 a4 a5 a6) := decodeRaw_encode _
theorem pkadd (a1 a2 a3 a4 a5 a6 a7) : Statement (.pkadd a1 a2 a3 a4 a5 a6 a7) := decodeRaw_encode _
theorem pkmul (a1 a2 a3 a4 a5 a6 a7) : Statement (.pkmul a1 a2 a3 a4 a5 a6 a7) := decodeRaw_encode _
theorem pkfma (a1 a2 a3 a4 a5 a6 a7 a8) : Statement (.pkfma a1 a2 a3 a4 a5 a6 a7 a8) := decodeRaw_encode _
theorem bdot4 (a1 a2 a3 a4 a5 a6 a7 a8) : Statement (.bdot4 a1 a2 a3 a4 a5 a6 a7 a8) := decodeRaw_encode _
theorem pkdot (a1 a2 a3 a4 a5 a6 a7 a8) : Statement (.pkdot a1 a2 a3 a4 a5 a6 a7 a8) := decodeRaw_encode _
theorem fcvt (a1 a2 a3 a4 a5 a6) : Statement (.fcvt a1 a2 a3 a4 a5 a6) := decodeRaw_encode _
theorem ftoi (a1 a2 a3 a4 a5 a6) : Statement (.ftoi a1 a2 a3 a4 a5 a6) := decodeRaw_encode _
theorem itof (a1 a2 a3 a4 a5 a6) : Statement (.itof a1 a2 a3 a4 a5 a6) := decodeRaw_encode _
theorem fpack (a1 a2 a3 a4 a5 a6 a7) : Statement (.fpack a1 a2 a3 a4 a5 a6 a7) := decodeRaw_encode _
theorem funpk (a1 a2 a3 a4 a5) : Statement (.funpk a1 a2 a3 a4 a5) := decodeRaw_encode _
theorem rngk (a1 a2 a3 a4) : Statement (.rngk a1 a2 a3 a4) := decodeRaw_encode _
theorem bra (a1 a2) : Statement (.bra a1 a2) := decodeRaw_encode _
theorem brx (a1 a2) : Statement (.brx a1 a2) := decodeRaw_encode _
theorem call (a1 a2 a3) : Statement (.call a1 a2 a3) := decodeRaw_encode _
theorem ret (a1 a2) : Statement (.ret a1 a2) := decodeRaw_encode _
theorem mjoin (a1 a2) : Statement (.mjoin a1 a2) := decodeRaw_encode _
theorem join (a1) : Statement (.join a1) := decodeRaw_encode _
theorem exit (a1) : Statement (.exit a1) := decodeRaw_encode _
theorem nop (a1) : Statement (.nop a1) := decodeRaw_encode _
theorem region (a1) : Statement (.region a1) := decodeRaw_encode _
theorem yield (a1 a2 a3 a4) : Statement (.yield a1 a2 a3 a4) := decodeRaw_encode _
theorem lxch (a1 a2 a3 a4 a5 a6) : Statement (.lxch a1 a2 a3 a4 a5 a6) := decodeRaw_encode _
theorem lxchRri (a1 a2 a3 a4 a5 a6) : Statement (.lxchRri a1 a2 a3 a4 a5 a6) := decodeRaw_encode _
theorem poll (a1 a2 a3 a4) : Statement (.poll a1 a2 a3 a4) := decodeRaw_encode _
theorem lred (a1 a2 a3 a4 a5) : Statement (.lred a1 a2 a3 a4 a5) := decodeRaw_encode _
theorem peer (a1 a2 a3 a4 a5) : Statement (.peer a1 a2 a3 a4 a5) := decodeRaw_encode _
theorem bcast (a1 a2 a3 a4 a5) : Statement (.bcast a1 a2 a3 a4 a5) := decodeRaw_encode _
theorem regroup (a1 a2 a3 a4 a5) : Statement (.regroup a1 a2 a3 a4 a5) := decodeRaw_encode _
theorem ld (a1 a2 a3) : Statement (.ld a1 a2 a3) := decodeRaw_encode _
theorem st (a1 a2 a3) : Statement (.st a1 a2 a3) := decodeRaw_encode _
theorem lds (a1 a2 a3) : Statement (.lds a1 a2 a3) := decodeRaw_encode _
theorem sts (a1 a2 a3) : Statement (.sts a1 a2 a3) := decodeRaw_encode _
theorem pref (a1 a2 a3) : Statement (.pref a1 a2 a3) := decodeRaw_encode _
theorem cmnt (a1 a2 a3) : Statement (.cmnt a1 a2 a3) := decodeRaw_encode _
theorem fence (a1 a2 a3) : Statement (.fence a1 a2 a3) := decodeRaw_encode _
theorem efence (a1) : Statement (.efence a1) := decodeRaw_encode _
theorem atom (a1 a2 a3 a4 a5 a6 a7 a8 a9) : Statement (.atom a1 a2 a3 a4 a5 a6 a7 a8 a9) := decodeRaw_encode _
theorem red (a1 a2 a3 a4) : Statement (.red a1 a2 a3 a4) := decodeRaw_encode _
theorem redo (a1 a2 a3) : Statement (.redo a1 a2 a3) := decodeRaw_encode _
theorem txb (a1) : Statement (.txb a1) := decodeRaw_encode _
theorem txe (a1) : Statement (.txe a1) := decodeRaw_encode _
theorem txa (a1 a2) : Statement (.txa a1 a2) := decodeRaw_encode _
theorem txq (a1 a2) : Statement (.txq a1 a2) := decodeRaw_encode _
theorem cpy (a1 a2 a3 a4 a5) : Statement (.cpy a1 a2 a3 a4 a5) := decodeRaw_encode _
theorem cpys (a1 a2 a3 a4 a5) : Statement (.cpys a1 a2 a3 a4 a5) := decodeRaw_encode _
theorem cpyx (a1 a2 a3 a4 a5) : Statement (.cpyx a1 a2 a3 a4 a5) := decodeRaw_encode _
theorem batch (a1 a2 a3) : Statement (.batch a1 a2 a3) := decodeRaw_encode _
theorem waitb (a1 a2 a3 a4) : Statement (.waitb a1 a2 a3 a4) := decodeRaw_encode _
theorem waitn (a1 a2 a3) : Statement (.waitn a1 a2 a3) := decodeRaw_encode _
theorem subs (a1 a2 a3 a4 a5 a6) : Statement (.subs a1 a2 a3 a4 a5 a6) := decodeRaw_encode _
theorem unsub (a1 a2 a3) : Statement (.unsub a1 a2 a3) := decodeRaw_encode _
theorem subfl (a1) : Statement (.subfl a1) := decodeRaw_encode _
theorem subq (a1 a2 a3) : Statement (.subq a1 a2 a3) := decodeRaw_encode _
theorem mma (a1 a2 a3 a4 a5 a6 a7 a8 a9) : Statement (.mma a1 a2 a3 a4 a5 a6 a7 a8 a9) := decodeRaw_encode _
theorem mzero (a1 a2) : Statement (.mzero a1 a2) := decodeRaw_encode _
theorem mldt (a1 a2 a3) : Statement (.mldt a1 a2 a3) := decodeRaw_encode _
theorem mstt (a1 a2 a3) : Statement (.mstt a1 a2 a3) := decodeRaw_encode _
theorem mepi (a1 a2 a3 a4 a5) : Statement (.mepi a1 a2 a3 a4 a5) := decodeRaw_encode _
theorem mchk (a1 a2 a3 a4 a5 a6) : Statement (.mchk a1 a2 a3 a4 a5 a6) := decodeRaw_encode _
theorem mzmap (a1 a2 a3) : Statement (.mzmap a1 a2 a3) := decodeRaw_encode _
theorem bar (a1) : Statement (.bar a1) := decodeRaw_encode _
theorem bara (a1) : Statement (.bara a1) := decodeRaw_encode _
theorem barw (a1) : Statement (.barw a1) := decodeRaw_encode _
theorem cbar (a1) : Statement (.cbar a1) := decodeRaw_encode _
theorem gbar (a1) : Statement (.gbar a1) := decodeRaw_encode _
theorem qcnt (a1 a2 a3) : Statement (.qcnt a1 a2 a3) := decodeRaw_encode _
theorem qtry (a1 a2) : Statement (.qtry a1 a2) := decodeRaw_encode _
theorem coll (a1 a2) : Statement (.coll a1 a2) := decodeRaw_encode _
theorem cabort (a1 a2) : Statement (.cabort a1 a2) := decodeRaw_encode _
theorem launch (a1 a2 a3) : Statement (.launch a1 a2 a3) := decodeRaw_encode _
theorem lwait (a1 a2 a3) : Statement (.lwait a1 a2 a3) := decodeRaw_encode _
theorem srd (a1 a2 a3) : Statement (.srd a1 a2 a3) := decodeRaw_encode _
theorem swr (a1 a2 a3) : Statement (.swr a1 a2 a3) := decodeRaw_encode _
theorem trap (a1 a2) : Statement (.trap a1 a2) := decodeRaw_encode _
theorem bpt (a1 a2) : Statement (.bpt a1 a2) := decodeRaw_encode _
theorem mark (a1 a2) : Statement (.mark a1 a2) := decodeRaw_encode _
theorem tlbw (a1 a2 a3 a4) : Statement (.tlbw a1 a2 a3 a4) := decodeRaw_encode _
theorem tlbi (a1 a2 a3 a4) : Statement (.tlbi a1 a2 a3 a4) := decodeRaw_encode _
theorem hret (a1 a2) : Statement (.hret a1 a2) := decodeRaw_encode _
theorem pairedWord (a1 a2 a3) : Statement (.pairedWord a1 a2 a3) := decodeRaw_encode _
theorem longResultReturn (a1) : Statement (.longResultReturn a1) := decodeRaw_encode _
theorem groupPromotion (a1) : Statement (.groupPromotion a1) := decodeRaw_encode _
theorem groupRetirement (a1) : Statement (.groupRetirement a1) := decodeRaw_encode _
theorem gtimeTimer (a1) : Statement (.gtimeTimer a1) := decodeRaw_encode _
theorem walkerStart (a1) : Statement (.walkerStart a1) := decodeRaw_encode _
theorem walkerTimeout (a1) : Statement (.walkerTimeout a1) := decodeRaw_encode _
theorem firstTouchTimeout (a1) : Statement (.firstTouchTimeout a1) := decodeRaw_encode _
theorem homeSliceAccess (a1) : Statement (.homeSliceAccess a1) := decodeRaw_encode _
theorem remoteInvalidation (a1 a2) : Statement (.remoteInvalidation a1 a2) := decodeRaw_encode _
theorem writeAcknowledgement (a1) : Statement (.writeAcknowledgement a1) := decodeRaw_encode _
theorem writeReturnedUnperformed (a1) : Statement (.writeReturnedUnperformed a1) := decodeRaw_encode _
theorem sectorHoldTimeout (a1) : Statement (.sectorHoldTimeout a1) := decodeRaw_encode _
theorem meshPacketArrival (a1 a2) : Statement (.meshPacketArrival a1 a2) := decodeRaw_encode _
theorem negativeAcknowledgement (a1) : Statement (.negativeAcknowledgement a1) := decodeRaw_encode _
theorem meshRetransmit (a1) : Statement (.meshRetransmit a1) := decodeRaw_encode _
theorem watermarkSweep (a1) : Statement (.watermarkSweep a1) := decodeRaw_encode _
theorem incarnationAdvance (a1) : Statement (.incarnationAdvance a1) := decodeRaw_encode _
theorem ownershipRequest (a1 a2) : Statement (.ownershipRequest a1 a2) := decodeRaw_encode _
theorem ownershipRecall (a1 a2) : Statement (.ownershipRecall a1 a2) := decodeRaw_encode _
theorem resultCacheRequest (a1 a2) : Statement (.resultCacheRequest a1 a2) := decodeRaw_encode _
theorem requestReply (a1) : Statement (.requestReply a1) := decodeRaw_encode _
theorem retirePacket (a1 a2) : Statement (.retirePacket a1 a2) := decodeRaw_encode _
theorem retirePacketSend (a1 a2) : Statement (.retirePacketSend a1 a2) := decodeRaw_encode _
theorem busyRetry (a1) : Statement (.busyRetry a1) := decodeRaw_encode _
theorem requestResend (a1) : Statement (.requestResend a1) := decodeRaw_encode _
theorem requestAbandon (a1) : Statement (.requestAbandon a1) := decodeRaw_encode _
theorem ageExpiry (a1 a2) : Statement (.ageExpiry a1 a2) := decodeRaw_encode _
theorem tombstoneExpiry (a1 a2 a3) : Statement (.tombstoneExpiry a1 a2 a3) := decodeRaw_encode _
theorem ownerIncarnationAdvance : Statement (.ownerIncarnationAdvance) := decodeRaw_encode _
theorem incarnationAnnounce (a1 a2 a3) : Statement (.incarnationAnnounce a1 a2 a3) := decodeRaw_encode _
theorem requesterHoldRelease (a1) : Statement (.requesterHoldRelease a1) := decodeRaw_encode _
theorem txPrepare (a1) : Statement (.txPrepare a1) := decodeRaw_encode _
theorem txPrepareReply (a1) : Statement (.txPrepareReply a1) := decodeRaw_encode _
theorem txPrepareTimeout (a1 a2) : Statement (.txPrepareTimeout a1 a2) := decodeRaw_encode _
theorem txCommitMessage (a1 a2 a3) : Statement (.txCommitMessage a1 a2 a3) := decodeRaw_encode _
theorem txAbortMessage (a1 a2 a3) : Statement (.txAbortMessage a1 a2 a3) := decodeRaw_encode _
theorem reductionApplication (a1) : Statement (.reductionApplication a1) := decodeRaw_encode _
theorem gridRetirement (a1) : Statement (.gridRetirement a1) := decodeRaw_encode _
theorem workgroupPlacement (a1) : Statement (.workgroupPlacement a1) := decodeRaw_encode _
theorem snapshotSegment (a1 a2) : Statement (.snapshotSegment a1 a2) := decodeRaw_encode _
theorem feltEviction (a1) : Statement (.feltEviction a1) := decodeRaw_encode _
theorem feltEntryAgeExpiry (a1) : Statement (.feltEntryAgeExpiry a1) := decodeRaw_encode _
theorem feltUpdateApply (a1 a2) : Statement (.feltUpdateApply a1 a2) := decodeRaw_encode _
theorem detachMessage (a1 a2) : Statement (.detachMessage a1 a2) := decodeRaw_encode _
theorem detachAcknowledgement (a1 a2) : Statement (.detachAcknowledgement a1 a2) := decodeRaw_encode _
theorem attachMessage (a1 a2) : Statement (.attachMessage a1 a2) := decodeRaw_encode _
theorem attachReply (a1 a2) : Statement (.attachReply a1 a2) := decodeRaw_encode _
theorem resumeMessage (a1 a2) : Statement (.resumeMessage a1 a2) := decodeRaw_encode _
theorem unsubRemoval (a1 a2) : Statement (.unsubRemoval a1 a2) := decodeRaw_encode _
theorem matrixOperation (a1) : Statement (.matrixOperation a1) := decodeRaw_encode _
theorem quadArrivalTimeout (a1 a2) : Statement (.quadArrivalTimeout a1 a2) := decodeRaw_encode _
theorem copyChunk (a1) : Statement (.copyChunk a1) := decodeRaw_encode _
theorem batchComplete (a1 a2) : Statement (.batchComplete a1 a2) := decodeRaw_encode _
theorem collectivePacket (a1 a2 a3) : Statement (.collectivePacket a1 a2 a3) := decodeRaw_encode _
theorem collectiveComplete (a1) : Statement (.collectiveComplete a1) := decodeRaw_encode _
theorem abortToken (a1 a2) : Statement (.abortToken a1 a2) := decodeRaw_encode _
theorem doorbellWrite (a1 a2) : Statement (.doorbellWrite a1 a2) := decodeRaw_encode _
theorem headboxLaneTake (a1) : Statement (.headboxLaneTake a1) := decodeRaw_encode _
theorem headerRereadTimeout (a1) : Statement (.headerRereadTimeout a1) := decodeRaw_encode _
theorem nopPacket (a1) : Statement (.nopPacket a1) := decodeRaw_encode _
theorem signal (a1) : Statement (.signal a1) := decodeRaw_encode _
theorem wait (a1) : Statement (.wait a1) := decodeRaw_encode _
theorem barrierAnd (a1) : Statement (.barrierAnd a1) := decodeRaw_encode _
theorem barrierOr (a1) : Statement (.barrierOr a1) := decodeRaw_encode _
theorem waitRetest (a1) : Statement (.waitRetest a1) := decodeRaw_encode _
theorem launchPacket (a1) : Statement (.launchPacket a1) := decodeRaw_encode _
theorem copy (a1) : Statement (.copy a1) := decodeRaw_encode _
theorem ckpt (a1) : Statement (.ckpt a1) := decodeRaw_encode _
theorem quiesce (a1) : Statement (.quiesce a1) := decodeRaw_encode _
theorem packetCompletion (a1) : Statement (.packetCompletion a1) := decodeRaw_encode _
theorem createQueue (a1) : Statement (.createQueue a1) := decodeRaw_encode _
theorem bindQueue (a1) : Statement (.bindQueue a1) := decodeRaw_encode _
theorem unbindQueue (a1) : Statement (.unbindQueue a1) := decodeRaw_encode _
theorem resetQueue (a1) : Statement (.resetQueue a1) := decodeRaw_encode _
theorem flushControlBlocks (a1) : Statement (.flushControlBlocks a1) := decodeRaw_encode _
theorem createSpace (a1) : Statement (.createSpace a1) := decodeRaw_encode _
theorem tearDownSpace (a1) : Statement (.tearDownSpace a1) := decodeRaw_encode _
theorem setRaceMode (a1) : Statement (.setRaceMode a1) := decodeRaw_encode _
theorem setWayMasks (a1) : Statement (.setWayMasks a1) := decodeRaw_encode _
theorem setBudget (a1) : Statement (.setBudget a1) := decodeRaw_encode _
theorem meterPeriodStart (a1 a2 a3) : Statement (.meterPeriodStart a1 a2 a3) := decodeRaw_encode _
theorem preEmptContext (a1) : Statement (.preEmptContext a1) := decodeRaw_encode _
theorem preemptionDeadline (a1) : Statement (.preemptionDeadline a1) := decodeRaw_encode _
theorem groupSave (a1) : Statement (.groupSave a1) := decodeRaw_encode _
theorem resumeContext (a1) : Statement (.resumeContext a1) := decodeRaw_encode _
theorem releaseContext (a1) : Statement (.releaseContext a1) := decodeRaw_encode _
theorem invalidateTranslations (a1) : Statement (.invalidateTranslations a1) := decodeRaw_encode _
theorem setInjector (a1) : Statement (.setInjector a1) := decodeRaw_encode _
theorem linkFlitTransmit (a1 a2 a3) : Statement (.linkFlitTransmit a1 a2 a3) := decodeRaw_encode _
theorem linkAcknowledgement (a1 a2) : Statement (.linkAcknowledgement a1 a2) := decodeRaw_encode _
theorem linkTimeoutRetransmit (a1 a2) : Statement (.linkTimeoutRetransmit a1 a2) := decodeRaw_encode _
theorem setRecording (a1) : Statement (.setRecording a1) := decodeRaw_encode _
theorem stopAtPoint (a1) : Statement (.stopAtPoint a1) := decodeRaw_encode _
theorem sampleCounters (a1) : Statement (.sampleCounters a1) := decodeRaw_encode _
theorem automaticCheckpoint (a1) : Statement (.automaticCheckpoint a1) := decodeRaw_encode _
theorem createPartition (a1) : Statement (.createPartition a1) := decodeRaw_encode _
theorem deletePartition (a1) : Statement (.deletePartition a1) := decodeRaw_encode _
theorem setDomain (a1) : Statement (.setDomain a1) := decodeRaw_encode _
theorem attest (a1) : Statement (.attest a1) := decodeRaw_encode _
theorem readAuditLog (a1) : Statement (.readAuditLog a1) := decodeRaw_encode _
theorem reclaimAuditLog (a1) : Statement (.reclaimAuditLog a1) := decodeRaw_encode _
theorem extendMeasurement (a1) : Statement (.extendMeasurement a1) := decodeRaw_encode _
theorem setQueueTable (a1) : Statement (.setQueueTable a1) := decodeRaw_encode _
theorem sqbaseWrite (a1) : Statement (.sqbaseWrite a1) := decodeRaw_encode _
theorem safeQueueDoorbell (a1) : Statement (.safeQueueDoorbell a1) := decodeRaw_encode _
theorem sqridxAtomicAdd (a1) : Statement (.sqridxAtomicAdd a1) := decodeRaw_encode _
theorem registerWrite (a1 a2) : Statement (.registerWrite a1 a2) := decodeRaw_encode _
theorem hostWrite (a1 a2 a3 a4) : Statement (.hostWrite a1 a2 a3 a4) := decodeRaw_encode _
theorem hostRead (a1 a2 a3) : Statement (.hostRead a1 a2 a3) := decodeRaw_encode _
theorem hostAtomic (a1 a2 a3) : Statement (.hostAtomic a1 a2 a3) := decodeRaw_encode _
theorem portFailure (a1) : Statement (.portFailure a1) := decodeRaw_encode _
theorem powerGood : Statement (.powerGood) := decodeRaw_encode _
theorem startStage (a1 a2 a3) : Statement (.startStage a1 a2 a3) := decodeRaw_encode _
theorem firmwareEntryAppend (a1) : Statement (.firmwareEntryAppend a1) := decodeRaw_encode _
theorem selfCheck (a1 a2 a3) : Statement (.selfCheck a1 a2 a3) := decodeRaw_encode _
theorem localStoreBankMigration (a1) : Statement (.localStoreBankMigration a1) := decodeRaw_encode _
theorem registerBankMigration (a1) : Statement (.registerBankMigration a1) := decodeRaw_encode _
theorem steeringRewrite (a1) : Statement (.steeringRewrite a1) := decodeRaw_encode _
theorem sliceEvacuationSet (a1) : Statement (.sliceEvacuationSet a1) := decodeRaw_encode _
theorem channelEvacuationLine (a1) : Statement (.channelEvacuationLine a1) := decodeRaw_encode _
theorem strikeReport (a1 a2) : Statement (.strikeReport a1 a2) := decodeRaw_encode _
theorem thermalThrottle (a1) : Statement (.thermalThrottle a1) := decodeRaw_encode _
theorem overtemperatureShutdown : Statement (.overtemperatureShutdown) := decodeRaw_encode _
theorem haltLine (a1) : Statement (.haltLine a1) := decodeRaw_encode _
theorem haltDrainComplete (a1) : Statement (.haltDrainComplete a1) := decodeRaw_encode _
theorem earlyCheckFlag (a1) : Statement (.earlyCheckFlag a1) := decodeRaw_encode _
theorem tentativeResultCommit (a1) : Statement (.tentativeResultCommit a1) := decodeRaw_encode _
theorem instructionFetch (a1 a2) : Statement (.instructionFetch a1 a2) := decodeRaw_encode _
theorem spillAreaRefill (a1) : Statement (.spillAreaRefill a1) := decodeRaw_encode _
theorem fabricPortRetirement (a1 a2) : Statement (.fabricPortRetirement a1 a2) := decodeRaw_encode _
theorem powerLoss : Statement (.powerLoss) := decodeRaw_encode _

end Sys2Proof.Laws.Coded
end

