-- ==== Sys2Proof/Laws/Repairs.lean ====
section
/-! SUPPORT. What a failed check leaves. -/

namespace Sys2Proof.Laws

open Sys2Proof.Machine

theorem retiring_none {s : State} {die : Nat} (h : (s.die die).pending = []) : s.retiring die = none := by unfold State.retiring; rw [h]; rfl
theorem check_fails {s : State} {u : HwUnit} {why : Reason} (h1 : s.sec.powered = true) (h2 : s.unitLive u = true) (h3 : s.idleWindow u = true)
    (hp : (s.die (hwDie u)).pending = []) (hu : ∃ k i, u = .lane k i ∨ u = .regBank k i ∨ u = .lsBank k i) :
    ∃ t, exec (.selfCheck u why false) s = .next t ∧ t.mem = s.mem ∧ (t.die (hwDie u)).pending = [(u, why)] := by
  have hd : ∀ f : Die → Die, ((({ s with checks := s.checks.filter (· != u) } : State).updDie (hwDie u) f).die (hwDie u)) = f (s.die (hwDie u)) := by
    intro f
    unfold State.updDie State.die
    simp only [find_put_self, Option.getD_some]
  generalize hv : (({ s with checks := s.checks.filter (· != u) } : State).updDie (hwDie u) fun d => { d with pending := d.pending ++ [(u, why)] }) = v
  have e1 : (v.die (hwDie u)).pending = [(u, why)] := by rw [← hv, hd]; show (s.die (hwDie u)).pending ++ _ = _; rw [hp]; rfl
  have e2 : v.mem = s.mem := by rw [← hv]; rfl
  have e3 : v.settleRetired (hwDie u) = v := by
    unfold State.settleRetired State.drainRetired
    rw [e1]
    obtain ⟨k, i, rfl | rfl | rfl⟩ := hu <;> rfl
  refine ⟨v, ?_, e2, e1⟩
  show execSelfCheck u why false s = _
  unfold execSelfCheck
  rw [if_neg (by simp [h1, h2, h3])]
  simp only
  rw [if_neg (by show ¬ (false || (s.die (hwDie u)).pending.any fun p => p.1 == u) = true; rw [hp]; simp)]
  refine congrArg Host.Outcome.next (Eq.trans ?_ e3)
  exact congrArg (fun x => State.settleRetired x (hwDie u)) hv

end Sys2Proof.Laws
end

