-- ==== Sys2Proof/Laws/Rounding.lean ====
section
/-! SUPPORT. Encodings and their values: signs and magnitudes, and that rounding gives a value back its encoding (11, R269, R273). -/

namespace Sys2Proof.Laws

open Sys2Proof.Machine

theorem mag_sgn (t : Fmt) (neg : Bool) {k : Nat} (h : k < t.top) : t.mag (t.sgn neg + k) = k := by
  unfold Fmt.mag Fmt.sgn
  cases neg
  · simp [Nat.mod_eq_of_lt h]
  · simp [Nat.mod_eq_of_lt h]

theorem neg_sgn (t : Fmt) (neg : Bool) {k : Nat} (h : k < t.top) : t.neg (t.sgn neg + k) = neg := by
  have h0 := fmt_pos t
  unfold Fmt.neg Fmt.sgn
  cases neg
  · simp [Nat.div_eq_of_lt h]
  · simp only [if_true]; rw [Nat.add_div_left _ h0, Nat.div_eq_of_lt h]; rfl

/-- An encoding is its sign bit and its magnitude. -/
theorem sgn_mag (t : Fmt) {x : Nat} (h : x < 2 * t.top) : t.sgn (t.neg x) + t.mag x = x := by
  have h0 := fmt_pos t
  have h1 : x / t.top < 2 := (Nat.div_lt_iff_lt_mul h0).mpr h
  have h2 := Nat.div_add_mod x t.top
  unfold Fmt.sgn Fmt.neg Fmt.mag
  have h3 : x / t.top = 0 ∨ x / t.top = 1 := by generalize x / t.top = q at h1; omega
  rcases h3 with e | e
  · rw [e] at h2 ⊢; simp; omega
  · rw [e] at h2 ⊢; simp; omega

/-- What the six formats have in common. -/
structure GoodFmt (t : Fmt) : Prop where
  top  : t.maxFin + 1 < t.top ∨ t.inf = false ∧ t.maxFin + 1 < t.top
  nan  : t.nanEnc < t.top ∧ t.maxFin < t.nanEnc
  inf  : t.inf = true → t.maxFin + 1 < t.nanEnc
  none : t.inf = false → t.nanEnc = t.maxFin + 1 ∧ t.maxFin + 2 = t.top

theorem fmt_good {ty : Ty} (h : ty ∈ [Ty.f64, .f32, .f16, .bf16, .e5m2, .e4m3]) : GoodFmt (fmtOf ty) := by
  simp only [List.mem_cons, List.not_mem_nil, or_false] at h
  rcases h with rfl | rfl | rfl | rfl | rfl | rfl <;> exact ⟨by decide, by decide, by decide, by decide⟩

/-- The magnitude of a finite value rounds to itself. -/
theorem encMag_val (t : Fmt) (rm : Rm) (neg : Bool) (m : Nat) :
    (m / 2 ^ t.f = 0 → t.encMag rm neg m (1 - t.bias - t.f) = m) ∧
    (m / 2 ^ t.f ≠ 0 → t.encMag rm neg (2 ^ t.f + m % 2 ^ t.f) ((m / 2 ^ t.f : Nat) - t.bias - t.f) = m) := by
  have hp : 0 < 2 ^ t.f := Nat.two_pow_pos _
  refine ⟨fun h => ?_, fun h => ?_⟩
  · unfold Fmt.encMag
    split
    · omega
    · rename_i hm
      have hlt : m < 2 ^ t.f := (Nat.div_eq_zero_iff_lt hp).mp h
      have hl : m.log2 < t.f := (Nat.log2_lt hm).mpr hlt
      have hq : max ((m.log2 : Int) + (1 - (t.bias : Int) - t.f) - t.f) (1 - t.bias - t.f) = 1 - (t.bias : Int) - t.f := by omega
      simp only [hq]
      simp
  · unfold Fmt.encMag
    have hr := Nat.mod_lt m hp
    rw [if_neg (by omega)]
    have hl : (2 ^ t.f + m % 2 ^ t.f).log2 = t.f := by
      apply (Nat.log2_eq_iff (by omega)).mpr
      rw [Nat.pow_succ]; omega
    have hq : max (((2 ^ t.f + m % 2 ^ t.f).log2 : Int) + ((m / 2 ^ t.f : Nat) - (t.bias : Int) - t.f) - t.f) (1 - t.bias - t.f) =
        (m / 2 ^ t.f : Nat) - (t.bias : Int) - t.f := by rw [hl]; generalize m / 2 ^ t.f = q at h; omega
    simp only [hq]
    have e1 : (((m / 2 ^ t.f : Nat) : Int) - t.bias - t.f - (1 - t.bias - t.f)).toNat = m / 2 ^ t.f - 1 := by omega
    rw [e1]
    simp only [Int.le_refl, if_true, Int.sub_self, Int.toNat_zero, Nat.pow_zero, Nat.mul_one]
    have h2 := Nat.div_add_mod m (2 ^ t.f)
    obtain ⟨k, hk⟩ : ∃ k, m / 2 ^ t.f = k + 1 := ⟨m / 2 ^ t.f - 1, by omega⟩
    rw [hk] at h2 ⊢
    rw [Nat.mul_add] at h2
    rw [Nat.add_sub_cancel, Nat.mul_comm]
    omega

end Sys2Proof.Laws
end

