-- ==== Sys2Proof/Tests/Slice0.lean ====
section
/-! SUPPORT. Tests of the model, each from the spec's own tables, examples and encodings; and, for every statement with
hypotheses, states and operands that meet them. -/

namespace Sys2Proof.Tests

open Sys2Proof Sys2Proof.Machine

-- One proof after another: evaluated side by side they ask for more memory than the check has.
set_option Elab.async false

/-! ### The words that meet what a statement asks of them -/

/-- The word `i`, at the slot that issues in `s`, meets all that `Goes` asks, and `c` holds as its own effect starts. -/
def meets (s : State) (i : Instr) (c : State → Word → Bool) : Bool :=
  match s.cur with
  | none => false
  | some x =>
    match Tbl.find s.groups x.gs with
    | none => false
    | some g =>
      match g.slot x.b, i.info with
      | some p, some f =>
        let w := mkWord s x.gs x.b g p f
        (i.wellFormed && !misused i g (((s.gridOf g).map Grid.team).getD 0)) && (!(f.priv || restricted i) || w.sup) &&
        (f.dst ++ f.src).all (fun u => u.vregs.all fun n => decide (n < g.n)) && wordPairOk i &&
        (infoRefs f).all (fun r => !g.pend.contains r) && !(infoQuiet f && s.service g && s.mayFaultLate x.gs) &&
        ((Tbl.find s.tents x.gs).getD []).isEmpty && !(pushes f && s.fenceWaits x.gs g.wg .wg) && (s.dirOf x.gs).want.isNone &&
        (queuesOf (f.dst ++ f.src)).all (fun q => decide (q < ((s.gridOf g).map Grid.nq).getD 0)) &&
        (match Tbl.find s.wgs g.wg with
          | some y => (queueStall (((s.gridOf g).map Grid.qdepth).getD 0) y f).isNone
          | none => true) &&
        (s.space (s.spidOf g)).replay.isNone && c (s.entered i f w) (w.entered i f)
      | _, _ => false

/-- What it finds is such a word. -/
theorem meets_goes {s i c} (h : meets s i c = true) :
    ∃ f w, Goes s i f w ∧ c (s.entered i f w) (w.entered i f) = true := by
  unfold meets at h
  split at h
  · cases h
  rename_i x hx
  split at h
  · cases h
  rename_i g hg
  split at h
  · rename_i p f hp hf
    simp only [Bool.and_eq_true, List.all_eq_true, decide_eq_true_eq, Bool.not_eq_true', Option.isNone_iff_eq_none,
      List.isEmpty_iff] at h
    obtain ⟨⟨⟨⟨⟨⟨⟨⟨⟨⟨⟨⟨h2, h3⟩, h4⟩, h5⟩, h6⟩, h7⟩, h8⟩, hu⟩, h9⟩, h10⟩, h11⟩, h12⟩, h13⟩ := h
    refine ⟨f, mkWord s x.gs x.b g p f, ⟨hx, hg, hp, hf, rfl, h2.1, h2.2, ?_, h4, h5, ?_, ?_, fun _ => h8, ?_, .inl h9, h10, ?_, h12⟩, h13⟩
    · intro hm
      have := h3
      rcases hm with hm | hm <;> simpa [hm] using this
    · intro _ r hr hm
      have := h6 r hr
      rw [List.contains_iff_mem.mpr (show r ∈ g.pend from hm)] at this
      cases this
    · intro hq hv
      have hv' : s.service g = true := hv
      rw [hq, hv'] at h7
      exact (by simpa using h7 : s.mayFaultLate x.gs = false)
    · intro hq
      rw [hq] at hu
      exact (by simpa using hu : s.fenceWaits x.gs g.wg .wg = false)
    · intro y hy
      have e : Tbl.find s.wgs g.wg = some y := hy
      rw [e] at h11
      exact Option.isNone_iff_eq_none.mp h11
  · cases h

def hdr : Hdr := ⟨false, 7, false⟩

/-! ### Words as the encoding tables lay them out -/

/-- A word from its fields, each at its lowest bit. -/
def laid (l : List (Nat × Nat)) : W64 := BitVec.ofNat 64 (l.map fun x => x.2 * 2 ^ x.1).sum
/-- A full word without a guard: opcode, D, A, B, the fields of M (09, R220, R221). -/
def full (op d a b : Nat) (m : List (Nat × Nat)) : W64 := laid ([(52, op), (49, 7), (39, d), (30, a), (21, b)] ++ m)
/-- RI and Branch words: the immediate in three pieces (09, R221 Table 2). -/
def wide (op d imm : Nat) (m : List (Nat × Nat)) : W64 :=
  laid ([(52, op), (49, 7), (39, d), (30, imm / 2 ^ 23), (21, imm / 2 ^ 14 % 2 ^ 9), (7, imm % 2 ^ 14)] ++ m)
/-- RRI words: the immediate in two pieces. -/
def short (op d a imm : Nat) (m : List (Nat × Nat)) : W64 :=
  laid ([(52, op), (49, 7), (39, d), (30, a), (21, imm / 2 ^ 13), (8, imm % 2 ^ 13)] ++ m)

def mem32 : MemOp := { base := .s 4, idx := .z, off := 0x3F#6, xs := 0#2, rct := 0#4, sco := .none, ord := .weak, sz := .w32 }

theorem test_decode_integer :
    decode (full 0x001 4 6 8 [(0, 2)]) = some (.iadd hdr (.v 4) (.v 6) (.v 8) .s64) ∧
    decode (short 0x022 4 5 0x3FFFFF [(0, 1)]) = some (.isubRri hdr (.v 4) (.v 5) 0x3FFFFF#22 .l32) ∧
    decode (full 0x00F 2 385 9 [(4, 3), (0, 1)]) = some (.lea hdr (.v 2) (.s 1) (.v 9) 3#3 .l32) ∧
    decode (wide 0x014 383 0x80004001 [(0, 0)]) = some (.movi hdr (.v 383) 0x80004001#32 .s32) ∧
    decode (full 0x013 1 2 3 [(12, 6), (0, 0)]) = some (.pick hdr (.v 1) (.v 2) (.v 3) 6 .s32) := by decide +kernel

theorem test_decode_bits :
    decode (full 0x04A 1 2 3 [(12, 4), (4, 1), (0, 1)]) = some (.funnel hdr (.v 1) (.v 2) (.v 3) (.v 4) true) ∧
    decode (full 0x052 1 2 0 [(8, 1), (4, 0), (0, 6)]) = some (.cnvi hdr (.v 1) (.v 2) .s8 .s32 true) ∧
    decode (full 0x051 384 385 511 [(12, 386), (0, 1)]) = some (.bmrg hdr (.s 0) (.s 1) .z (.s 2)) := by decide +kernel

theorem test_decode_predicate :
    decode (full 0x081 0 1 7 []) = some (.pand hdr 0 1 7) ∧
    decode (full 0x085 1 390 0 [(4, 3)]) = some (.pmov hdr (.bits 1 (.s 6))) ∧
    decode (wide 0x086 3 0xFFFF0001 []) = some (.pset hdr 3 0xFFFF0001#32) := by decide +kernel

theorem test_decode_floating :
    decode (full 0x0C2 10 11 12 [(9, 1), (7, 1), (4, 2), (0, 8)]) =
      some (.fsub hdr (.v 10) (.v 11) (.v 12) { nb := true, aa := true } .f32 .rup) ∧
    decode (full 0x0CF 2 11 12 [(12, 7), (0, 8)]) = some (.fcmpp hdr 2 (.v 11) (.v 12) {} .nan .f32) := by decide +kernel

theorem test_decode_packed :
    decode (full 0x104 1 2 3 [(12, 4), (8, 1), (7, 1), (0, 0)]) = some (.bdot4 hdr (.v 1) (.v 2) (.v 3) (.v 4) false true true) ∧
    decode (full 0x108 1 2 0 [(6, 5), (4, 1), (0, 10)]) = some (.itof hdr (.v 1) (.v 2) .f16 .l16 .rtz) ∧
    decode (full 0x10A 1 2 0 [(6, 3), (0, 12)]) = some (.funpk hdr (.v 1) (.v 2) .e4m3 3#2) := by decide +kernel

theorem test_decode_control :
    decode (wide 0x143 384 0xFFFFFFFF []) = some (.call hdr (.s 0) 0xFFFFFFFF#32) ∧
    decode (full 0x142 0 384 0 []) = some (.brx hdr (.s 0)) ∧
    decode (full 0x14A 511 8 15 []) = some (.yield hdr .z (.v 8) (.v 15)) := by decide +kernel

theorem test_decode_lanes :
    decode (full 0x181 2 1 384 [(2, 3), (0, 1)]) = some (.lxch hdr (.v 2) (.v 1) (.s 0) .back .seg4) ∧
    decode (full 0x182 5 3 0 [(2, 1), (0, 2)]) = some (.poll hdr (.same 5) 3 true) ∧
    decode (full 0x183 384 3 0 [(4, 1), (0, 8)]) = some (.lred hdr (.s 0) (.v 3) .min .f32) ∧
    decode (full 0x186 511 2 4 [(0, 17)]) = some (.regroup hdr .z (.v 2) (.v 4) 17#5) := by decide +kernel

theorem test_decode_memory :
    decode (full 0x1C2 1 388 511 [(15, 63), (0, 4)]) = some (.st hdr (.v 1) mem32) ∧
    decode (full 0x1C3 4 388 0 [(15, 1), (13, 2), (6, 1), (3, 2), (0, 6)]) = some (.lds hdr (.v 4)
      { base := .s 4, idx := .v 0, off := 1#6, xs := 2#2, rct := 0#4, sco := .wg, ord := .acq, sz := .b128 }) ∧
    decode (full 0x1C7 0 0 0 [(6, 2), (3, 5)]) = some (.fence hdr .sc .gang) := by decide +kernel

theorem test_decode_atomics :
    decode (full 0x201 12 388 12 [(9, 4), (6, 3), (3, 1), (0, 6)]) = none ∧
    decode (full 0x201 10 388 12 [(9, 4), (6, 3), (3, 1), (0, 4)]) = some (.atom hdr (.v 10) (.s 4) (.v 12) (.v 0) .min .w32 .rlx .dev) ∧
    decode (short 0x206 0 0 0xA5 []) = some (.txa hdr 0xA5#8) := by decide +kernel

theorem test_decode_copies :
    decode (full 0x242 390 388 391 [(12, 393)]) = some (.cpys hdr (.s 6) (.s 4) (.s 7) (.s 9)) ∧
    decode (full 0x246 0 0 0 []) = some (.waitn hdr 0#22 .cp) := by decide +kernel

theorem test_decode_matrix :
    decode (full 0x281 3 392 393 [(12, 396), (4, 5), (3, 1), (0, 1)]) = some (.mma hdr 3 (.s 8) (.s 9) (.s 12) .pair false true 5) ∧
    decode (full 0x282 15 0 0 []) = some (.mzero hdr 15) ∧ decode (full 0x282 16 0 0 []) = none := by decide +kernel

theorem test_decode_barriers :
    decode (full 0x2C7 5 448 0 [(0, 2)]) = some (.qtry hdr (.pop 2 (.v 5) 0)) ∧
    decode (full 0x2C7 0 455 9 [(3, 1), (0, 2)]) = some (.qtry hdr (.push 2 7 (.v 9))) ∧
    decode (full 0x2C8 0 388 0 []) = some (.coll hdr (.s 4)) := by decide +kernel

theorem test_decode_system :
    decode (short 0x301 394 0 0x03C []) = some (.srd hdr (.s 10) (.stall 12)) ∧ decode (short 0x301 394 0 0x03F []) = none ∧
    decode (short 0x302 0 394 0x002 []) = some (.swr hdr (.s 10) .gtcmp) ∧
    decode (full 0x341 0 384 385 [(0, 2)]) = some (.tlbw hdr (.s 0) (.s 1) 2) ∧ decode (full 0x341 0 384 385 [(0, 3)]) = none ∧
    decode (short 0x343 0 0 0x0B []) = some (.hret hdr 0x0B#8) := by decide +kernel

/-- The swap of V8 and V9, and the second example, which encodes but breaches the bank rule (09, R232 to R234). -/
theorem test_decode_paired :
    decode (laid [(63, 1), (55, 0x01), (46, 8), (37, 9), (24, 0x01), (15, 9), (6, 8)]) =
      some (.pairedWord false ⟨.mov, .v 8, .v 9, 0#6⟩ ⟨.mov, .v 9, .v 8, 0#6⟩) ∧
    wordPairOk (.pairedWord false ⟨.mov, .v 8, .v 9, 0#6⟩ ⟨.mov, .v 9, .v 8, 0#6⟩) = true ∧
    wordPairOk (.pairedWord false ⟨.iadd, .v 4, .v 8, 0#6⟩ ⟨.iadd, .v 12, .v 16, 0#6⟩) = false := by decide +kernel

/-- The switch marker and a negated guard; a guard that is none, negated, is no instruction (09, R220, R237). -/
theorem test_decode_header :
    decode (laid [(62, 1), (52, 0x148), (49, 6), (48, 1)]) = some (.nop ⟨true, 6, true⟩) ∧
    decode (laid [(52, 0x148), (49, 7), (48, 1)]) = none ∧ decode (full 0x380 0 0 0 []) = none := by decide +kernel

/-! ### An ill-formed term for each check -/

/-- A type that the instruction does not accept; a guard where none may stand; an odd pair, a special as a destination; a queue that
takes a long result; a lane's value for the whole group; a slot's shift of 32 (09, R225, R226, R229, R231, R232; 07, R191). -/
theorem test_ill_formed_terms_are_refused :
    (Instr.iadd hdr (.v 1) (.v 2) (.v 3) .f32).wellFormed = false ∧
    (Instr.join ⟨false, 0, false⟩).wellFormed = false ∧ (Instr.nop ⟨false, 7, true⟩).wellFormed = false ∧
    (Instr.iadd hdr (.v 1) (.v 2) (.v 4) .s64).wellFormed = false ∧ (Instr.mov hdr (.sel .lane) (.v 2) .s32).wellFormed = false ∧
    (Instr.fdiv hdr (.q 0) (.v 2) (.v 3) {} .f32 .rne).wellFormed = false ∧
    (Instr.iadd hdr (.s 1) (.v 2) (.s 3) .s32).wellFormed = false ∧
    (Instr.pairedWord false ⟨.shl, .v 1, .v 2, 32#6⟩ ⟨.mov, .v 4, .v 5, 0#6⟩).wellFormed = false ∧
    (Instr.longResultReturn 0).wellFormed = false := by decide +kernel

/-! ### Values from the spec's tables and examples -/

/-- What one step leaves in register `V n` of lane 0: written, or on its way. -/
def vAfter (i : Instr) (s : State) (n : Nat) : Option Nat :=
  match exec i s with
  | .next t =>
    match Tbl.find t.groups 0 with
    | some g =>
      let ws := t.reqs.flatMap fun r => match r.2.kind with
        | .result ws => ws
        | _ => []
      if g.stop.isSome then none else some ((g.writes ws).vget n 0).toNat
    | none => none
  | _ => none

/-- One group of 32 lanes in slot A of slot 0, the word at its place issuing. -/
def st : State := { State.reset.withFetchWord 64 0 with cur := some ⟨0, false⟩ }
/-- With these values in V2, V3 and V4 of lane 0, and in V6 and V7 those of lane 1. -/
def stv (x y z : Nat) : State :=
  st.updGroup 0 fun g => { g with v := Tbl.put (Tbl.put (Tbl.put g.v (32 * 2) (BitVec.ofNat 32 x)) (32 * 3) (BitVec.ofNat 32 y)) (32 * 4) (BitVec.ofNat 32 z) }

def div (ty : Ty) (x y : Nat) : Option Nat × Option Nat :=
  (vAfter (.idiv hdr (.v 5) (.v 2) (.v 3) ty) (stv x y 0) 5, vAfter (.irem hdr (.v 5) (.v 2) (.v 3) ty) (stv x y 0) 5)

/-- 10, R248 Table 2. -/
theorem test_division :
    div .s32 7 0xFFFFFFFE = (some 0xFFFFFFFD, some 1) ∧ div .s32 0xFFFFFFF9 2 = (some 0xFFFFFFFD, some 0xFFFFFFFF) ∧
    div .s32 0x80000000 0xFFFFFFFF = (some 0x80000000, some 0) ∧ div .s32 5 0 = (some 0xFFFFFFFF, some 5) ∧
    div .l32 0xFFFFFFFB 2 = (some 0x7FFFFFFD, some 1) ∧ div .l32 5 0 = (some 0xFFFFFFFF, some 5) := by decide +kernel

/-- 10, R255 and R256 Table 5. -/
theorem test_bytes_and_widths :
    vAfter (.bmrg hdr (.v 5) (.v 2) (.v 3) (.v 4)) (stv 0x44332211 0x88776655 0x171C0006) 5 = some 0xFFAA1177 ∧
    vAfter (.cnvi hdr (.v 5) (.v 2) .s8 .s32 false) (stv 300 0 0) 5 = some 0x2C ∧
    vAfter (.cnvi hdr (.v 5) (.v 2) .s8 .s32 true) (stv 300 0 0) 5 = some 0x7F ∧
    vAfter (.cnvi hdr (.v 5) (.v 2) .s8 .s32 true) (stv 0xFFFFFF38 0 0) 5 = some 0xFFFFFF80 ∧
    vAfter (.cnvi hdr (.v 5) (.v 2) .l16 .s32 true) (stv 0xFFFFFFFF 0 0) 5 = some 0 ∧
    vAfter (.cnvi hdr (.v 6) (.v 2) .s64 .l32 true) (stv 0xFFFFFFFF 0 0) 7 = some 0 := by decide +kernel

def cvt (ty : Ty) (x : Nat) : List (Option Nat) :=
  [Rm.rne, .rtz, .rup, .rdn].map fun rm => vAfter (.fcvt hdr (.v 5) (.v 2) ty .f32 rm) (stv x 0 0) 5

/-- 11, R275 Table 3. -/
theorem test_conversions :
    cvt .bf16 0x3F808000 = [some 0x3F80, some 0x3F80, some 0x3F81, some 0x3F80] ∧
    cvt .bf16 0xBF808000 = [some 0xBF80, some 0xBF80, some 0xBF80, some 0xBF81] ∧
    cvt .e4m3 0x3E99999A = [some 0x2A, some 0x29, some 0x2A, some 0x29] ∧ cvt .e4m3 0x3A83126F = [some 1, some 0, some 1, some 0] ∧
    cvt .e4m3 0xC3FA0000 = [some 0xFE, some 0xFE, some 0xFE, some 0xFE] ∧ cvt .e5m2 0x47C35000 = [some 0x7B, some 0x7B, some 0x7B, some 0x7B] ∧
    cvt .f16 0x4788B800 = [some 0x7BFF, some 0x7BFF, some 0x7BFF, some 0x7BFF] ∧
    cvt .e4m3 0x7F800000 = [some 0x7F, some 0x7F, some 0x7F, some 0x7F] := by decide +kernel

/-- The contrast of R275, and 11, R281's table. -/
theorem test_floats :
    vAfter (.fadd hdr (.v 5) (.v 2) (.v 3) {} .f16 .rne) (stv 0x7BFF 0x5000 0) 5 = some 0x7C00 ∧
    vAfter (.fadd hdr (.v 5) (.v 2) (.v 3) {} .f16 .rtz) (stv 0x7BFF 0x5000 0) 5 = some 0x7BFF ∧
    vAfter (.fmin hdr (.v 5) (.v 2) (.v 3) {} .f32) (stv 0x80000000 0 0) 5 = some 0x80000000 ∧
    vAfter (.fmax hdr (.v 5) (.v 2) (.v 3) {} .f32) (stv 0x7FA00000 0x40400000 0) 5 = some 0x40400000 ∧
    vAfter (.fminx hdr (.v 5) (.v 2) (.v 3) {} .f32) (stv 0x7FA00000 0x40400000 0) 5 = some 0x7FC00000 ∧
    vAfter (.fmin hdr (.v 5) (.v 2) (.v 3) {} .f32) (stv 0xFF800000 0x40000000 0) 5 = some 0xFF800000 := by decide +kernel

def rnd (x : Nat) : List (Option Nat) := [Rm.rne, .rtz, .rup, .rdn].map fun rm => vAfter (.frnd hdr (.v 5) (.v 2) {} .f32 rm) (stv x 0 0) 5

/-- 11, R284's table. -/
theorem test_integral :
    rnd 0x40200000 = [some 0x40000000, some 0x40000000, some 0x40400000, some 0x40000000] ∧
    rnd 0xC0200000 = [some 0xC0000000, some 0xC0000000, some 0xC0000000, some 0xC0400000] ∧
    rnd 0xBE99999A = [some 0x80000000, some 0x80000000, some 0x80000000, some 0xBF800000] := by decide +kernel

/-- Both slots read before either writes: the two registers are swapped (09, R234). -/
theorem test_swap :
    let w := Instr.pairedWord false ⟨.mov, .v 2, .v 3, 0#6⟩ ⟨.mov, .v 3, .v 2, 0#6⟩
    vAfter w (stv 11 22 0) 2 = some 22 ∧ vAfter w (stv 11 22 0) 3 = some 11 := by decide +kernel

/-! ### States and operands that meet what the statements suppose -/

/-- Every word of a list performs at `s`. -/
def allMeet (s : State) (l : List Instr) : Bool := l.all fun i => meets s i fun _ _ => true

theorem test_meets_IntegerSums : allMeet st
    [.iadd hdr (.v 5) (.v 2) (.v 3) .s8, .iaddRri hdr (.s 5) (.s 2) 0x200000#22 .l64, .isub hdr .z (.v 2) (.v 3) .s32,
     .isubRri hdr (.v 5) (.v 2) 1#22 .s16, .imul hdr (.v 6) (.v 2) (.v 4) .s64, .imulRri hdr (.v 5) (.v 2) 1#22 .l32,
     .imad hdr (.v 5) (.v 2) (.sel .lane) .z .l8, .iabs hdr (.v 5) (.v 2) .s32, .ineg hdr (.v 5) (.v 2) .s32,
     .iadds hdr (.v 5) (.v 2) (.v 3) .s8, .iaddsRri hdr (.v 6) (.v 2) 1#22 .l64, .isubs hdr (.v 5) (.v 2) (.v 3) .l16,
     .isubsRri hdr (.v 5) (.v 2) 1#22 .s32] = true := by decide +kernel

theorem test_meets_IntegerDivision : allMeet st
    [.idiv hdr (.v 5) (.v 2) (.v 3) .s8, .irem hdr (.v 6) (.v 2) (.v 4) .l64, .imulh hdr (.v 5) (.v 2) (.v 3) .s32,
     .imadw hdr (.v 6) (.v 2) (.v 3) (.v 8) .l32] = true := by decide +kernel

theorem test_meets_IntegerOrder : allMeet st
    [.imin hdr (.v 5) (.v 2) (.v 3) .s8, .iminRri hdr (.v 6) (.v 2) 1#22 .l64, .imax hdr (.v 5) (.v 2) (.v 3) .s32,
     .imaxRri hdr (.v 5) (.v 2) 1#22 .l32, .icmp hdr (.v 5) (.v 2) (.v 4) .ge .s64, .icmpRri hdr (.v 5) (.v 2) 1#22 .lt .l16,
     .icmpp hdr 7 (.v 2) (.v 3) .eq .s32, .icmppRri hdr 0 (.v 2) 1#22 .ne .l8] = true := by decide +kernel

theorem test_meets_IntegerMoves : allMeet st
    [.mov hdr (.v 5) (.sel .all1) .s32, .pick hdr (.v 6) (.v 2) (.v 4) 7 .l64, .movi hdr (.v 254) 0x80000000#32 .l64,
     .movih hdr (.v 6) 1#32, .lea hdr (.v 6) (.s 4) (.v 2) 7#3 .s32, .cnvi hdr (.v 5) (.v 2) .s8 .l64 true] = true := by decide +kernel

theorem test_meets_LogicAndCounts : allMeet st
    [.and hdr (.v 5) (.v 2) (.v 3) .l32, .andRri hdr (.v 6) (.v 2) 1#22 .l64, .or hdr (.v 5) (.v 2) (.v 3) .l32, .orRri hdr (.v 5) (.v 2) 1#22 .l32,
     .xor hdr (.v 5) (.v 2) (.v 3) .l32, .xorRri hdr (.v 5) (.v 2) 1#22 .l32, .not hdr (.v 5) (.v 2) .l32, .andn hdr (.v 5) (.v 2) (.v 3) .l32,
     .andnRri hdr (.v 5) (.v 2) 1#22 .l32, .popc hdr (.v 5) (.v 2) .l64, .clz hdr (.v 5) (.v 2) .l32, .ctz hdr (.v 5) (.v 2) .l32,
     .brev hdr (.v 6) (.v 2) .l64] = true := by decide +kernel

theorem test_meets_Shifts : allMeet st
    [.shl hdr (.v 5) (.v 2) (.v 3) .l32, .shlRri hdr (.v 6) (.v 2) 255#22 .l64, .shr hdr (.v 5) (.v 2) (.v 3) .l32, .shrRri hdr (.v 5) (.v 2) 32#22 .l32,
     .sar hdr (.v 5) (.v 2) (.v 3) .s32, .sarRri hdr (.v 5) (.v 2) 31#22 .s32, .rotl hdr (.v 5) (.v 2) (.v 3) .l32,
     .rotlRri hdr (.v 5) (.v 2) 33#22 .l32, .funnel hdr (.v 5) (.v 2) (.v 3) (.v 4) true] = true := by decide +kernel

theorem test_meets_BitFields : allMeet st
    [.bfx hdr (.v 5) (.v 2) (.v 3) (.v 4) .s32, .bfi hdr (.v 6) (.v 2) (.v 4) (.v 8) .l64, .bmrg hdr (.v 5) (.v 2) (.v 3) (.v 4)] = true := by decide +kernel

theorem test_meets_Predicates : allMeet st
    [.pand hdr 0 1 7, .por hdr 6 1 2, .pxor hdr 7 1 2, .pnot hdr 0 1, .pset hdr 0 0xFFFFFFFF#32, .pmov hdr (.pp 0 1), .pmov hdr (.rd (.s 1) 2),
     .pmov hdr (.nz 0 (.v 2)), .pmov hdr (.bits 0 (.sel .active))] = true := by decide +kernel

theorem test_meets_FloatSums : allMeet st
    [.fadd hdr (.v 5) (.v 2) (.v 3) { ab := true } .f16 .rup, .fsub hdr (.v 6) (.v 2) (.v 4) {} .f64 .rdn, .fmul hdr (.v 5) (.v 2) (.v 3) {} .bf16 .rtz,
     .ffma hdr (.v 5) (.v 2) (.v 3) (.v 4) { nc := true } .f32 .rne] = true := by decide +kernel

theorem test_meets_FloatFunctions : allMeet st
    [.fdiv hdr (.v 5) (.v 2) (.v 3) {} .f32 .rne, .fsqrt hdr (.v 6) (.v 2) {} .f64 .rtz, .frcp hdr (.v 5) (.v 2) {} .f16 .rup, .frsq hdr (.v 5) (.v 2) {} .bf16 .rdn,
     .fex2 hdr (.v 5) (.v 2) {} .f32 .rne, .flg2 hdr (.v 5) (.v 2) {} .f16 .rne, .frnd hdr (.v 5) (.v 2) {} .f32 .rdn] = true := by decide +kernel

theorem test_meets_FloatOrder : allMeet st
    [.fmin hdr (.v 5) (.v 2) (.v 3) {} .f32, .fmax hdr (.v 6) (.v 2) (.v 4) {} .f64, .fminx hdr (.v 5) (.v 2) (.v 3) {} .f16, .fmaxx hdr (.v 5) (.v 2) (.v 3) {} .bf16,
     .fcmpp hdr 0 (.v 2) (.v 3) { na := true } .nan .f32, .fclass hdr (.v 5) (.v 2) .f32] = true := by decide +kernel

theorem test_meets_PackedAndConversions : allMeet st
    [.pkadd hdr (.v 5) (.v 2) (.v 3) {} .f16 .rne, .pkmul hdr (.v 5) (.v 2) (.v 3) {} .bf16 .rne, .pkfma hdr (.v 5) (.v 2) (.v 3) (.v 4) {} .f16 .rne,
     .pkdot hdr (.v 5) (.v 2) (.v 3) (.v 4) {} .bf16 .rne, .bdot4 hdr (.v 5) (.v 2) (.v 3) (.v 4) true false true, .fcvt hdr (.v 5) (.v 2) .e4m3 .f64 .rup,
     .itof hdr (.v 5) (.v 2) .f16 .s64 .rne, .ftoi hdr (.v 5) (.v 2) .s8 .e5m2 .rne, .fpack hdr (.v 5) (.v 2) (.v 3) .e4m3 .rne true, .funpk hdr (.v 5) (.v 2) .bf16 1#2,
     .rngk hdr (.v 6) (.s 8) (.v 2)] = true := by decide +kernel

theorem test_meets_LaneExchange : allMeet st
    [.lxch hdr (.v 5) (.v 2) (.v 3) .from .seg32, .lxchRri hdr (.v 5) (.v 2) 1#22 .flip .seg2] = true := by decide +kernel

theorem test_meets_PollsAndReductions : allMeet st
    [.poll hdr (.some 0) 1 false, .poll hdr (.every 0) 1 true, .poll hdr (.same 7) 7 false, .poll hdr (.mask (.s 1)) 1 false, .lred hdr (.s 1) (.v 2) .add .f32,
     .peer hdr (.v 5) (.v 2) .l64 true, .bcast hdr (.s 1) (.v 2) (.s 2) false] = true := by decide +kernel

theorem test_meets_PairedWord : allMeet st
    [.pairedWord false ⟨.mov, .v 8, .v 9, 0#6⟩ ⟨.mov, .v 9, .v 8, 0#6⟩, .pairedWord true ⟨.shl, .s 1, .s 2, 31#6⟩ ⟨.movk, .v 1, .v 0, 63#6⟩] = true := by decide +kernel

/-! The helpers of the next witnesses: a group, its workgroup or a word of its launch's descriptor changed; lane 0 alone in P0; a
private frame of 16 bytes a lane at 0x100000; S4 an address in the page, S5 to S7 others; a local store of 1 MiB. -/

def gr (s : State) (f : Group → Group) : State := s.updGroup 0 f
def wd (s : State) (off : Nat) (v : W64) : State := s.updGrid 1 fun g => { g with desc := Tbl.put g.desc (off / 8) v }
def hg : Hdr := ⟨false, 0, false⟩
def one (s : State) : State := gr s fun g => { g with p := [(0, 1#32)] }
def narrow (s : State) (m : Mask) : State := gr s fun g => { g with slotA := g.slotA.map fun p => { p with mask := m } }
def other (s : State) : State := gr s fun g => { g with slotB := some { pc := 0x100100#64, mask := 2#32 } }
def pv : State := wd (wd st 0x30 0x100000#64) 0x38 0x10001#64
def sr (s : State) (n : Nat) (x : Nat) : State := gr s fun g => { g with s := Tbl.put g.s n (BitVec.ofNat 64 x) }
def sm : State := sr st 4 0x100000
def ls (s : State) : State := s.updWg 1 fun w => { w with lsSize := 0x80000 }
def okTr (t : Tr) : Bool := match t with
  | .ok _ _ => true
  | _ => false
def okAt (t : Tr) (pa : Nat) : Bool := match t with
  | .ok [.mem p] _ => p == pa
  | _ => false
def trs (s : State) (w : Word) (acc : Acc) (n : Nat) (l : List (Nat × W64)) : Bool :=
  l.all fun x => x.2.toNat % n == 0 && okTr (s.trans (w.ask acc) x.2.toNat n x.1)
def lone (w : Word) : Bool := (w.g.path (!w.b)).isNone
def atStack (s : State) (w : Word) (acc : Acc) (o pa : Nat) : Bool := okAt (s.transGlobal (w.ask acc) (s.frameBase w.g + 32 * s.privOf w + o)) pa
def noTx (w : Word) : Bool := w.lanes.all fun L => (w.g.txLane L).depth == 0

theorem test_meets_Branches : [
    meets st (.bra hdr 0xFFFFFFFF#32) fun _ w => w.act = w.slot.mask,
    meets st (.bra hg 0#32) fun _ w => w.act = 0#32 ∧ w.slot.mask ≠ 0#32,
    meets (one st) (.bra hg 0#32) fun _ w => w.act ≠ 0#32 ∧ w.act ≠ w.slot.mask ∧ lone w,
    meets (one (other (narrow pv 5#32))) (.bra hg 0#32) fun s w => w.act ≠ 0#32 ∧ w.act ≠ w.slot.mask ∧ (w.g.path (!w.b)).isSome ∧ s.privOf w ≠ 0 ∧
      w.g.spill.length < 128 ∧ atStack s w .store (16 * w.g.spill.length) 0x100200,
    meets (one (other (narrow st 5#32))) (.bra hg 0#32) fun s w => w.act ≠ 0#32 ∧ w.act ≠ w.slot.mask ∧ (w.g.path (!w.b)).isSome ∧ s.privOf w = 0,
    meets st (.call hdr (.s 1) 0#32) fun _ w => w.act = w.slot.mask,
    meets st (.call hg (.v 2) 0#32) fun _ w => w.act = 0#32 ∧ w.slot.mask ≠ 0#32,
    meets (one st) (.call hg (.s 1) 0#32) fun _ w => w.act ≠ 0#32 ∧ w.act ≠ w.slot.mask ∧ lone w,
    meets st (.brx hg (.s 4)) fun _ w => w.act = 0#32 ∧ w.slot.mask ≠ 0#32,
    meets sm (.ret hdr (.s 4)) fun _ w => w.act ≠ 0#32 ∧ w.lanes.all (fun L => (w.target L).toNat % 8 == 0) ∧ w.same = w.slot.mask,
    meets (gr st fun g => { g with v := [(64, 0x100000#32)] }) (.brx hdr (.v 2)) fun _ w =>
      w.act ≠ 0#32 ∧ w.lanes.all (fun L => (w.target L).toNat % 8 == 0) ∧ w.same ≠ w.slot.mask ∧ lone w,
    meets (sr st 4 0x100004) (.brx hdr (.s 4)) fun _ w => w.lanes.any fun L => (w.target L).toNat % 8 != 0].all id = true := by decide +kernel

def je (m a : Mask) : JoinEntry := { rejoin := 0x100080#64, mask := m, arr := a }

theorem test_meets_Merges : [
    meets st (.mjoin hdr 0#32) fun _ w => w.g.join.length < 4,
    meets (gr pv fun g => { g with join := List.replicate 4 (je 1#32 0#32) }) (.mjoin hdr 0#32) fun s w => (w.g.join[3]?).isSome ∧ w.g.join.length < 132 ∧
      s.privOf w ≠ 0 ∧ atStack s w .store (2048 + 16 * (w.g.join.length - 4)) 0x100A00,
    meets (gr (narrow st 1#32) fun g => { g with join := [je 3#32 0#32] }) (.join hdr) fun _ w => w.g.join = [je 3#32 0#32] ∧
      w.slot.mask &&& ~~~3#32 = 0#32 ∧ w.slot.mask &&& 0#32 = 0#32 ∧ 0#32 ||| w.slot.mask ≠ 3#32 ∧ w.g.spill = [],
    meets (gr (narrow st 1#32) fun g => { g with join := [je 3#32 2#32] }) (.join hdr) fun _ w => w.g.join = [je 3#32 2#32] ∧
      w.slot.mask &&& ~~~3#32 = 0#32 ∧ w.slot.mask &&& 2#32 = 0#32 ∧ 2#32 ||| w.slot.mask = 3#32,
    meets st (.join hdr) fun _ w => w.g.join = [],
    meets (gr (narrow st 5#32) fun g => { g with join := [je 3#32 0#32] }) (.join hdr) fun _ w => w.slot.mask &&& ~~~3#32 ≠ 0#32,
    meets st (.exit hg) fun _ w => w.act = 0#32,
    meets (one st) (.exit hg) fun _ w => w.act ≠ 0#32 ∧ noTx w ∧ w.slot.mask &&& ~~~w.act ≠ 0#32 ∧ w.g.join = [] ∧ w.g.spill = [] ∧ w.g.live &&& ~~~w.act ≠ 0#32 ∧
      w.g.refill = [],
    meets st (.exit hdr) fun _ w => w.act ≠ 0#32 ∧ noTx w ∧ w.g.live &&& ~~~w.act = 0#32 ∧ w.g.join = [] ∧ w.g.spill = [] ∧ w.slot.mask &&& ~~~w.act = 0#32,
    meets (narrow st 1#32) (.exit hdr) fun _ w => w.act ≠ 0#32 ∧ noTx w ∧ w.slot.mask &&& ~~~w.act = 0#32 ∧ w.g.join = [] ∧ w.g.spill = [] ∧
      w.g.live &&& ~~~w.act ≠ 0#32 ∧ w.g.refill = [],
    meets (gr (narrow st 1#32) fun g => { g with join := [je 3#32 2#32] }) (.exit hdr) fun _ w => w.act ≠ 0#32 ∧ noTx w ∧ w.slot.mask &&& ~~~w.act = 0#32 ∧
      w.g.join = [je 3#32 2#32] ∧ w.g.spill = [] ∧ w.g.live &&& ~~~w.act ≠ 0#32 ∧ w.g.refill = [] ∧ 2#32 &&& ~~~w.act = 3#32 &&& ~~~w.act ∧ 3#32 &&& ~~~w.act ≠ 0#32,
    meets (gr (other (narrow pv 1#32)) fun g => { g with spill := [⟨0x100040#64, 4#32⟩] }) (.exit hdr) fun s w => w.act ≠ 0#32 ∧ noTx w ∧
      w.slot.mask &&& ~~~w.act = 0#32 ∧ w.g.join = [] ∧ w.g.spill = [⟨0x100040#64, 4#32⟩] ∧ w.g.live &&& ~~~w.act ≠ 0#32 ∧ w.g.refill = [] ∧ w.g.ft = none ∧
      ¬ lone w ∧ atStack s w .load 0 0x100200,
    meets (gr st fun g => { g with tx := [(31, { depth := 1 })] }) (.exit hdr) fun _ w => w.g.join = [] ∧ w.g.spill = [] ∧ ¬ noTx w].all id = true := by decide +kernel

theorem test_meets_Pauses : [
    meets st (.nop hg) fun _ _ => true,
    meets (other st) (.region hdr) fun _ w => ¬ lone w,
    meets st (.region hdr) fun s w => s.service w.g = true ∧ lone w ∧ w.b = false ∧ w.g.spill = [],
    meets st (.yield hdr (.s 1) (.v 2) (.v 9)) fun _ w => w.g.preq = false,
    meets (gr (other st) fun g => { g with preq := true }) (.yield hdr .z .z .z) fun _ w => w.g.preq = true ∧ ¬ lone w,
    meets (gr st fun g => { g with preq := true }) (.yield hdr (.s 1) (.v 2) (.v 9)) fun _ w => w.g.preq = true ∧ lone w ∧ w.slot.phase = .idle].all id = true := by
  decide +kernel

def mo (b : Reg) (sz : Sz) : MemOp := { mem32 with base := b, off := 0#6, sz }

theorem test_meets_Loads : [
    meets sm (.ld hdr (.v 8) (mo (.s 4) .b128)) fun s w => w.g.tx = [] ∧ trs s w .load 16 (w.eas (.ld hdr (.v 8) (mo (.s 4) .b128)) (mo (.s 4) .b128)),
    meets (ls st) (.lds hdr (.v 1) (mo (.s 9) .s8)) fun s w => w.g.tx = [] ∧
      (s.localPlaces w .load 1 (w.eas (.lds hdr (.v 1) (mo (.s 9) .s8)) (mo (.s 9) .s8))).all fun x => okTr x.tr].all id = true := by decide +kernel

theorem test_meets_Stores : [
    meets sm (.st hdr (.v 2) (mo (.s 4) .d64)) fun s w => w.g.tx = [] ∧ trs s w .store 8 (w.eas (.st hdr (.v 2) (mo (.s 4) .d64)) (mo (.s 4) .d64)),
    meets (ls st) (.sts hdr (.v 1) (mo (.s 9) .l16)) fun s w => w.g.tx = [] ∧
      (s.localPlaces w .store 2 (w.eas (.sts hdr (.v 1) (mo (.s 9) .l16)) (mo (.s 9) .l16))).all fun x => okTr x.tr].all id = true := by decide +kernel

def rlx (b : Reg) (sz : Sz) : MemOp := { mo b sz with ord := .rlx, sco := .dev }
/-- A launch whose reduction log is at 0x101000, with 64 slots of the first chunk at its core. -/
def logged : State := (wd sm 0x48 0x101000#64).updGrid 1 fun g => { g with chunks := [(0, [(0, 64)])] }
theorem test_meets_Atomics : [
    meets sm (.atom hdr (.v 8) (.s 4) (.v 12) (.v 16) .cas .b128 .ar .dev) fun s w =>
      trs s w .atomic 16 (w.bases (.atom hdr (.v 8) (.s 4) (.v 12) (.v 16) .cas .b128 .ar .dev)),
    meets sm (.red hdr (.v 8) (rlx (.s 4) .w32) .add) fun s w => trs s w .atomic 4 (w.eas (.red hdr (.v 8) (rlx (.s 4) .w32) .add) (rlx (.s 4) .w32)),
    meets logged (.redo hdr (.v 8) (rlx (.s 4) .w32)) fun s w =>
      let l := s.places w .store 4 (w.eas (.redo hdr (.v 8) (rlx (.s 4) .w32)) (rlx (.s 4) .w32))
      match s.gridOf w.g with
      | none => false
      | some grid =>
        let mine := Tbl.get [] grid.chunks (coreOf w.gs)
        trs s w .store 4 (w.eas (.redo hdr (.v 8) (rlx (.s 4) .w32)) (rlx (.s 4) .w32)) && !l.isEmpty &&
        l.all (fun x => decide (x.ga.toNat < localWin) && decide ((Tbl.get 0#32 w.g.seq x.lane).toNat < 2 ^ 24)) && grid.word 0x48 != 0#64 &&
        okAt (s.trans (w.ask .atomic) (grid.word 0x48).toNat 8 0) 0x101000 && decide (l.length ≤ (mine.map fun r => r.2 - r.1).sum) &&
        (redoSlots l.length mine).1.all (fun k => okTr (s.trans (w.ask .store) ((grid.word 0x48).toNat + 64 + 32 * k) 32 0)),
    meets sm (.redo hdr (.v 8) (rlx (.s 4) .w32)) fun s w =>
      let l := w.eas (.redo hdr (.v 8) (rlx (.s 4) .w32)) (rlx (.s 4) .w32)
      trs s w .store 4 l && !l.isEmpty && l.all (fun x => decide (x.2.toNat < localWin)) && s.service w.g && (s.gridOf w.g).map (·.word 0x48) == some 0#64
    ].all id = true := by decide +kernel

/-- The translation of a global address is the same for every lane, which the witness of REDO leaves to be said. -/
theorem test_lanes_translate_alike (s : State) (q : Ask) (ga n L : Nat) (h : ga < physWin) : s.trans q ga n L = s.trans q ga n 0 := by
  unfold State.trans
  split
  · rfl
  · rfl

theorem test_meets_LineMaintenance : [
    meets sm (.pref hdr true (mo (.s 4) .w32)) fun _ _ => true,
    meets st (.cmnt hdr .z .inva) fun _ w => w.act ≠ 0#32,
    meets st (.cmnt hg .z .inva) fun _ w => w.act = 0#32,
    meets sm (.cmnt hdr (.s 4) .inv) fun s w => trs s w .load 1 (w.bases (.cmnt hdr (.s 4) .inv)),
    meets sm (.cmnt hdr (.s 4) .drop) fun s w => trs s w .store 128 (w.bases (.cmnt hdr (.s 4) .drop))].all id = true := by decide +kernel

/-- A store that waits at the core port: an access of the group that may still fault. -/
def waits : State := { st with reqs := [(1,
  { gs := 0, wg := 1, core := 0, spid := 1, kind := .store, accs := [{ lane := 0, ga := 0#64, locs := [.mem 0], len := 4 }], size := 4, ord := .weak, sco := .none,
    stage := .mesh, pc := 0#64, mask := 1#32, rwc := 0#32 })] }
def fenced (s : State) : State := wd s 0x18 (BitVec.ofNat 64 (32 * 2 ^ 58 + 2 ^ 28))
def bf (n : W32) : Batch := { num := n, ops := [{ id := 1, pc := 0x100008#64, fin := true, fault := some ⟨0x12#8, 0#8, 0x100040#64⟩, fail := 1#16 }], complete := true }

/-- Its requests still in the core's port. -/
def heldW (s : State) : State := { s with reqs := s.reqs.map fun e => (e.1, { e.2 with stage := .held }) }
def allDone (s : State) (w : Word) : Bool :=
  !s.unperformed w.gs && !s.fenceWaits w.gs w.g.wg .sys && !w.g.opsBusy && !(s.startDrain w.gs true).draining w.gs

theorem test_meets_Fences : [
    meets st (.fence hg .sc .sys) fun _ w => w.act = 0#32,
    meets st (.fence hdr .rel .dev) fun s w => w.act ≠ 0#32 ∧ s.fenceWaits w.gs w.g.wg .dev = false,
    meets waits (.fence hdr .rel .wg) fun s w => w.act ≠ 0#32 ∧ s.fenceWaits w.gs w.g.wg .wg = false,
    meets (heldW waits) (.fence hdr .rel .wg) fun s w => w.act ≠ 0#32 ∧ s.fenceWaits w.gs w.g.wg .wg = true,
    meets st (.efence hg) fun _ w => w.act = 0#32,
    meets waits (.fence hdr .sc .sys) fun s w => w.act ≠ 0#32 ∧ s.fenceWaits w.gs w.g.wg .sys = true,
    meets waits (.efence hdr) fun s w => w.act ≠ 0#32 ∧ s.fenceWaits w.gs w.g.wg .sys = true,
    meets st (.efence hdr) fun s w => w.act ≠ 0#32 ∧ allDone s w ∧
      w.g.held = none ∧ [Cls.cp, .mx, .gc, .cl].all fun k => ((w.g.cls k).faulted fun _ => true) == none,
    meets (gr st fun g => { g with mx := { last := 1#32, closed := [bf 1#32] } }) (.efence hdr) fun s w =>
      w.act ≠ 0#32 ∧ allDone s w ∧ w.g.held = none ∧
      ((w.g.cls .mx).faulted fun _ => true) = some (bf 1#32) ∧ (batchRecord .mx (bf 1#32)).isSome ∧ s.service w.g = true ∧
      ((w.g.cls .cp).faulted fun _ => true) = none].all id = true := by decide +kernel

def txs (l : List (Nat × TxLane)) : State := gr st fun g => { g with tx := l }
def run (f : TxRun → TxRun) : TxRun := f { lanes := 1#32, todo := [], prepared := [], waiting := [], decided := true }
def inTx (n : Nat) : Tbl TxLane := (List.range 32).map fun L => (L, { depth := n })
def ending (r : Option TxRun) (n : Nat) (s : State) : State := gr s fun g => { g with tx := inTx n, txe := r }
def inside (w : Word) : Bool := w.lanes.all fun L => (w.g.txLane L).depth != 0
def runs (w : Word) : List Nat := w.lanes.filter fun L => (w.g.txLane L).depth == 1 && !(w.g.txLane L).doomed

theorem test_meets_Transactions : [
    meets (txs [(0, { depth := 3 })]) (.txb hdr) fun _ w => w.lanes.all fun L => (w.g.txLane L).depth != 4,
    meets (txs [(31, { depth := 4 })]) (.txb hdr) fun _ w => w.lanes.any fun L => (w.g.txLane L).depth == 4,
    meets st (.txa hdr 0xFF#8) fun _ w => w.g.tx = [],
    meets (txs [(31, { depth := 4 })]) (.txa hdr 0xFF#8) fun _ w => w.g.tx ≠ [],
    meets st (.txq hdr (.v 1)) fun _ _ => true,
    meets (ending none 2 st) (.txe hdr) fun _ w => w.g.txe = none ∧ inside w ∧ runs w = [],
    meets st (.txe hdr) fun _ w => w.g.txe = none ∧ ¬ inside w,
    meets (ending none 1 (fenced waits)) (.txe hdr) fun s w => w.g.txe = none ∧ inside w ∧ runs w ≠ [] ∧ s.fenceWaits w.gs w.g.wg .dev = true,
    meets (ending none 1 st) (.txe hdr) fun s w => w.g.txe = none ∧ inside w ∧ runs w ≠ [] ∧ s.fenceWaits w.gs w.g.wg .dev = false,
    meets (ending (some (run fun r => { r with decided := false })) 1 st) (.txe hdr) fun _ w => w.g.txe = some (run fun r => { r with decided := false }),
    meets (ending (some (run fun r => { r with lanes := 0#32 })) 1 st) (.txe hdr) fun s w => w.g.txe = some (run fun r => { r with lanes := 0#32 }) ∧ s.reqs = [],
    meets (ending (some (run id)) 1 st) (.txe hdr) fun s w => w.g.txe = some (run id) ∧ s.reqs = []].all id = true := by decide +kernel

/-- S4 the source, S5 the length, S6 the destination, S7 the shape or the members of CPYS. -/
def cp (s : State) (src len dst sh : Nat) : State := sr (sr (sr (sr s 4 src) 5 len) 6 dst) 7 sh
def cpyw (c : Reg) : Instr := .cpy hdr (.s 6) (.s 4) (.s 5) c
def ext : State := st.updGrid 1 fun g => { g with extents := [{ base := 0x100000, len := 64, rw := true, runs := [⟨0x100000, 0x100000, 64, []⟩] }] }
def fitc (s : State) (w : Word) : Bool := w.act != 0#32 && !s.opWaits w.gs w.g.wg && decide ((s.core (coreOf w.gs)).cpq.length < 256)
def sized (c : Copying) : Bool := c.dst % 16 == 0 && c.src % 16 == 0 && c.len % 16 == 0 && c.sp % 16 == 0 && c.dp % 16 == 0 && c.len != 0 && c.rows != 0
def open16 : ClsState := { last := 16#32, closed := (List.range 16).map fun i => { num := BitVec.ofNat 32 (i + 1), ops := [{ id := i, pc := 0#64 }] } }

theorem test_meets_CopiesAndBatches : [
    meets (cp st 0x100000 16 0x101000 (2 + 16 * 2 ^ 16 + 32 * 2 ^ 40)) (cpyw (.s 7)) fun s w => fitc s w ∧ sized (w.copying (.s 7)) ∧
      s.copySide w (w.copying (.s 7)).dst (sideSpan (w.copying (.s 7)).len (w.copying (.s 7)).rows (w.copying (.s 7)).dp) = none ∧
      s.copySide w (w.copying (.s 7)).src (sideSpan (w.copying (.s 7)).len (w.copying (.s 7)).rows (w.copying (.s 7)).sp) = none,
    meets (cp (ls ext) (0xE00 * 2 ^ 48) 64 localWin 0) (.cpyx hdr (.s 6) (.s 4) (.s 5) .z) fun s w => fitc s w ∧ sized (w.copying .z) ∧ 2 ^ 56 ≤ (w.copying .z).src ∧
      s.extSide w true (w.copying .z).dst 64 = none ∧ s.extSide w false (w.copying .z).src 64 = none,
    meets (cp (ls st) 0x100000 64 0x7FFC0 1) (.cpys hdr (.s 6) (.s 4) (.s 5) (.s 7)) fun s w => fitc s w ∧ isWalker w.gs = false ∧ w.src 3 0 = 0x7FFC0 ∧ w.src 0 0 = 0x100000 ∧
      (w.opnd32 1 0).toNat = 64 ∧ (List.range 64).filter (fun i => (w.src 2 0).testBit i) = [0] ∧ s.localSide w 0 0x7FFC0 64 = none ∧ s.copySide w 0x100000 64 = none,
    meets (cp st 0x100000 16 0x101008 0) (cpyw .z) fun _ w => w.act ≠ 0#32 ∧ (w.copying .z).dst % 16 ≠ 0,
    meets (cp st 0x100000 16 (2 ^ 56) 0) (cpyw .z) fun s w => w.act ≠ 0#32 ∧ sized (w.copying .z) ∧ s.service w.g = true ∧
      s.copySide w (w.copying .z).dst 16 = some (0x09, 0x01) ∧ s.copySide w (w.copying .z).src 16 = none,
    meets st (.batch hdr (.s 1) .cl) fun _ w => w.act ≠ 0#32 ∧ ((w.g.cls .cl).closed.filter fun b => !b.complete).length < 16,
    meets (gr st fun g => { g with cp := open16 }) (.batch hdr .z .cp) fun _ w => w.act ≠ 0#32 ∧ 16 ≤ ((w.g.cls .cp).closed.filter fun b => !b.complete).length,
    meets st (.waitb hdr (.s 4) 0#22 .gc) fun _ w => w.act ≠ 0#32 ∧ (w.g.cls .gc).closed = [],
    meets (sr (gr st fun g => { g with cp := open16 }) 4 1) (.waitb hdr (.s 4) 0#22 .cp) fun _ w => w.act ≠ 0#32 ∧
      (w.g.cls .cp).closed.any fun b => !b.complete && batchLe b.num (if 2 ^ 31 ≤ ((w.g.cls .cp).last - (w.opnd32 0 0 + 0#32)).toNat then (w.g.cls .cp).last else w.opnd32 0 0 + 0#32),
    meets st (.waitn hdr 0#22 .mx) fun _ w => w.act ≠ 0#32 ∧ (w.g.cls .mx).closed = [],
    meets (gr st fun g => { g with cp := open16 }) (.waitn hdr 15#22 .cp) fun _ w => w.act ≠ 0#32 ∧
      (w.g.cls .cp).closed.any fun b => !b.complete && batchLe b.num ((w.g.cls .cp).last - 15#32),
    meets (gr st fun g => { g with mx := { last := 1#32, closed := [bf 1#32] } }) (.waitn hdr 0#22 .mx) fun s w => w.act ≠ 0#32 ∧ s.service w.g = true ∧
      (w.g.cls .mx).closed.all (·.complete) ∧ (w.g.cls .mx).faulted (fun n => batchLe n ((w.g.cls .mx).last - 0#32)) = some (bf 1#32) ∧
      (batchRecord .mx (bf 1#32)).isSome].all id = true := by decide +kernel
/-! A second workgroup, resident on core 1 in the same gang of two, and pairs. -/

def gang2 : State :=
  let s := (ls st).updWg 1 fun w => { w with resident := true }
  { s with
    gangs := Tbl.put s.gangs 1 { grid := 1, cluster := 0, size := 2, wgs := [(0, 1), (1, 2)] }
    wgs := Tbl.put s.wgs 2 { grid := 1, wgidx := 1, core := 1, ngrp := 1, lsBase := 0, lsSize := 0x80000, qSize := 0, frame := 1, gang := 1, rank := 1 } }
def paired (s : State) : State := wd s 0x18 (BitVec.ofNat 64 (32 * 2 ^ 58 + 2 ^ 31))
/-- S4 the two offsets, S5 the length, S6 the member. -/
def sub (s : State) (so po len m : Nat) : State := sr (sr (sr s 4 (so + po * 2 ^ 32)) 5 len) 6 m
def phased (s : State) (ph : Phase) : State := gr s fun g => { g with slotA := g.slotA.map fun p => { p with phase := ph } }
def ent (st_ : SubSt) : SubEnt := { poff := 0, plead := 64, pcore := 1, pair := false, pidx := 1, len := 1, soff := 0, slead := 0, st := st_, wg := 1, pwg := 2, handle := 15 }
def subbed (s : State) (e : SubEnt) : State := s.updCore 0 fun c => { c with subs := [(15, e)] }
def sb (pair : Bool) : Instr := .subs hdr (.s 1) (.s 4) (.s 5) (if pair then .z else .s 6) pair
def nosubs (s : State) (w : Word) : Bool := (s.core (coreOf w.gs)).subs.isEmpty

theorem test_meets_Subscriptions : [
    meets (sub gang2 0 0x7FFC0 64 1) (sb false) fun s w => w.act ≠ 0#32 ∧ w.slot.phase = .idle ∧ w.src 2 0 % 16 = 1 ∧ 1 < (s.gangOf w.g.wg).2 ∧
      ((Tbl.find s.wgs w.g.wg).bind fun me => s.memberWg me 1) = some 2 ∧ ((Tbl.find s.wgs 2).map fun x => x.reachable && x.core != coreOf w.gs) = some true ∧
      (Tbl.find s.wgs w.g.wg).map (fun me => regionsOk me.lsSize (w.src 0 0) (w.src 1 0)) = some true ∧
      s.subOverlap 0 1 0 1 = false ∧ Tbl.find (s.core 0).subs 0 = none ∧ Tbl.find (s.core 1).pubs 0 = none,
    meets (sub (paired gang2) 0 0 0x10000 0) (sb true) fun s w => w.act ≠ 0#32 ∧ w.slot.phase = .idle ∧ s.pairPartner w.g.wg = some 2 ∧
      ((Tbl.find s.wgs 2).map fun x => x.reachable && x.core != coreOf w.gs) = some true ∧
      (Tbl.find s.wgs w.g.wg).map (fun me => regionsOk me.lsSize (w.src 0 0) (w.src 1 0)) = some true ∧
      s.subOverlap 0 1 0 1024 = false ∧ Tbl.find (s.core 0).subs 0 = none ∧ Tbl.find (s.core 1).pubs 0 = none,
    meets (phased st (.sub 15)) (sb false) fun s w => w.act ≠ 0#32 ∧ w.slot.phase = .sub 15 ∧ nosubs s w,
    meets (subbed (phased st (.sub 15)) (ent .snap)) (sb false) fun s w => w.act ≠ 0#32 ∧ w.slot.phase = .sub 15 ∧
      (Tbl.find (s.core (coreOf w.gs)).subs 15).map SubEnt.st = some .snap,
    meets (sub gang2 0 0 32 0) (sb true) fun s w => w.act ≠ 0#32 ∧ w.slot.phase = .idle ∧
      (Tbl.find s.wgs w.g.wg).map (fun me => regionsOk me.lsSize (w.src 0 0) (w.src 1 0)) = some false,
    meets st (.unsub hdr (.s 1) (.s 4)) fun s w => w.act ≠ 0#32 ∧ w.slot.phase = .idle ∧ s.heldSub w (w.src 0 0 % 16) = none,
    meets (phased st (.sub 15)) (.unsub hdr (.s 1) (.s 4)) fun s w => w.act ≠ 0#32 ∧ w.slot.phase = .sub 15 ∧ s.heldSub w (w.src 0 0 % 16) = none,
    meets (sr (subbed st (ent .active)) 4 15) (.unsub hdr (.s 1) (.s 4)) fun s w => w.act ≠ 0#32 ∧ s.heldSub w (w.src 0 0 % 16) = some (ent .active),
    meets st (.subfl hg) fun _ w => w.act = 0#32,
    meets (phased st (.drain [])) (.subfl hdr) fun s w => w.act ≠ 0#32 ∧ w.slot.phase ≠ .idle ∧ s.unperformed w.gs = false ∧ s.draining w.gs = false,
    meets (st.updCore 0 fun c => { c with felt := [{ id := 1, seg := 0, mask := 1#64, data := [], srcs := [.own 0], born := 0 }] }) (.subfl hdr) fun s w =>
      w.act ≠ 0#32 ∧ w.slot.phase = .idle ∧ s.unperformed w.gs = false ∧ (s.startDrain w.gs false).draining w.gs = true,
    meets st (.subq hdr (.s 1) (.s 4)) fun s w => s.heldSub w (w.src 0 0 % 16) = none,
    meets (sr (subbed st (ent .spilled)) 4 15) (.subq hdr (.s 1) (.s 4)) fun s w => s.heldSub w (w.src 0 0 % 16) = some (ent .spilled)].all id = true := by
  decide +kernel

/-- The core's array is there and the workgroup holds it. -/
def arrayed (s : State) : State := (ls s).updCore 0 fun c => { c with holder := some 1 }
def teamAlone (s : State) (w : Word) : Bool :=
  decide (s.teamSize w.g < 2) && w.slot.phase == .idle && lone w && (s.core 0).cols != 0 && (s.core 0).holder == some w.g.wg && (s.core 0).lent.isNone &&
  !s.opWaits w.gs w.g.wg && decide (w.g.gidx < 32) &&
  (match Tbl.find s.wgs w.g.wg with
    | some x => (Tbl.find x.teams w.g.gidx).isNone && Tbl.find x.slots w.g.gidx == some w.gs
    | none => false) && decide (((s.teamed w).core (coreOf w.gs)).eng.length < 64)
def matWord (s : State) (i : Instr) (c : State → Word → Bool) : Bool := meets s i fun s w => teamAlone s w && c (s.teamed w) (w.teamed i s)
/-- S8 and S9 descriptors of operands and images, S10 on the formats: binary16 without scales. -/
def mats : State := sr (sr (sr (sr (arrayed st) 8 (256 * 2 ^ 24)) 9 (0x10000 + 256 * 2 ^ 24)) 12 0xA) 13 0xA
def mma1 : Instr := .mma hdr 15 (.s 8) (.s 9) (.s 12) .single false true 0
def descs (s : State) (w : Word) (n : Nat) : Bool := (breachCause [s.checkDesc w (w.s64 0) 64 32 n] false w.slot.mask).isNone && s.membersHere w [w.s64 0]

theorem test_meets_MatrixWords : [
    matWord mats (.mzero hdr 15) fun _ _ => true,
    matWord mats (.mldt hdr 0 (.s 8)) fun s w => descs s w 4,
    matWord mats (.mstt hdr 0 (.s 8)) fun s w => descs s w 4,
    matWord mats mma1 fun s w =>
      let fa := w.sNext (.s 12) 0
      let fb := w.sNext (.s 12) 1
      (breachCause [s.checkDesc w (w.s64 0) 64 128 (efSize (fmtEf fa)), s.checkDesc w (w.s64 1) 128 32 (efSize (fmtEf fb)),
        s.checkScale w fa (w.sNext (.s 12) 2) (aScales (fmtBl fa)), s.checkScale w fb (w.sNext (.s 12) 3) (bScales (fmtBl fb) 32),
        { desc := fmtBad fa false || fmtBad fb false || isI8 fa != isI8 fb }] false w.slot.mask).isNone &&
      s.membersHere w ([w.s64 0, w.s64 1] ++ ((if fmtSf fa = 1 then [w.sNext (.s 12) 2] else []) ++ (if fmtSf fb = 1 then [w.sNext (.s 12) 3] else []))),
    matWord (sr mats 5 8) (.mepi hdr 0 (.s 8) (.s 5) (.s 6)) fun s w =>
      (breachCause [s.checkDesc w (w.s64 0) 64 32 (epiSize (w.s64 1)), {}, { desc := epiBad (w.s64 1) (w.sNext (.s 6) 1) }] false w.slot.mask).isNone &&
      !bit (w.s64 1) 6 && s.membersHere w ([w.s64 0] ++ (if bit (w.s64 1) 6 then [w.sNext (.s 6) 0] else [])),
    matWord (sr mats 9 0x10000) (.mchk hdr 3 4 (.s 9) 63#6 false) fun s w => s.membersHere w [w.s64 0] ∧
      (breachCause [{ perm := s.localRange w (bits (w.s64 0) 23 0) 32, desc := descBad (w.s64 0) || descTr (w.s64 0) || descPitch (w.s64 0) != 0 }] false w.slot.mask).isNone,
    meets (phased mats (.answered 1#64)) (.mzero hdr 0) fun _ w => w.slot.phase = .answered 1#64,
    meets (other mats) mma1 fun _ w => w.slot.phase = .idle ∧ ¬ lone w,
    meets (mats.updCore 0 fun c => { c with lostCols := List.range 64 }) (.mzero hdr 0) fun s w => w.slot.phase = .idle ∧ lone w ∧ s.service w.g = true ∧
      (s.core (coreOf w.gs)).cols = 0,
    meets mats (.mzmap hdr (.s 2) 15) fun s w => (s.core (coreOf w.gs)).cols ≠ 0,
    meets (mats.updCore 0 fun c => { c with lostCols := List.range 64 }) (.mzmap hdr .z 0) fun s w => s.service w.g = true ∧ (s.core (coreOf w.gs)).cols = 0].all id = true := by
  decide +kernel

def cosch (s : State) : State := wd s 0x18 (BitVec.ofNat 64 (32 * 2 ^ 58 + 2 ^ 27))
def bars : List (Instr × BarKind) := [(.bar hdr, .bar), (.cbar hdr, .cbar), (.gbar hdr, .gbar)]
/-- Two groups in the workgroup: the barrier waits for the other. -/
def two (s : State) : State := s.updWg 1 fun w => { w with ngrp := 2 }
def beforeBar (w : Word) : Bool := lone w && w.slot.phase == .idle && w.g.arrival.isNone
def past (k : BarKind) (w : Word) (s : State) : Bool := match Tbl.find s.groups w.gs with
  | some g => s.barDone g k
  | none => false
def calmW (k : BarKind) (s : State) (w : Word) : Bool := !s.unperformed w.gs && !s.fenceWaits w.gs w.g.wg (scopeOfBar k) && !(s.startDrain w.gs false).draining w.gs
def arrived (s : State) (k : BarKind) : State := gr (phased s .arrived) fun g => { g with arrival := some k }
def marked (s : State) : State := s.updWg 1 fun w => { w with warr := 1#32, garr := 1#32, darr := 1#32 }

theorem test_meets_Barriers : [
    bars.all fun x => meets (arrived (cosch st) x.2) x.1 fun s w => lone w ∧ w.slot.phase = .arrived ∧ s.barDone w.g x.2 = true,
    bars.all fun x => meets (marked (arrived (cosch st) x.2)) x.1 fun s w => lone w ∧ w.slot.phase = .arrived ∧ s.barDone w.g x.2 = false,
    bars.all fun x => meets (cosch st) x.1 fun s w => beforeBar w ∧ calmW x.2 s w ∧ past x.2 w (w.notes .arrived ((s.startDrain w.gs false).arriveBar w.gs x.2)),
    bars.all fun x => meets (two (cosch st)) x.1 fun s w => beforeBar w ∧ calmW x.2 s w ∧ ¬ past x.2 w (w.notes .arrived ((s.startDrain w.gs false).arriveBar w.gs x.2)),
    bars.all fun x => meets (fenced (wd waits 0x18 0#64)) x.1 fun s w => x.2 = .gbar ∨ (beforeBar w ∧ s.unperformed w.gs = true),
    meets (wd waits 0x18 (BitVec.ofNat 64 (32 * 2 ^ 58 + 2 ^ 28 + 2 ^ 27))) (.gbar hdr) fun s w => beforeBar w ∧ s.unperformed w.gs = true,
    bars.all fun x => meets (other (cosch st)) x.1 fun _ w => ¬ lone w,
    bars.all fun x => meets (gr (cosch st) fun g => { g with arrival := some .bara }) x.1 fun _ w => w.slot.phase ≠ .arrived ∧ w.g.arrival ≠ none,
    meets st (.bara hdr) fun s w => beforeBar w ∧ calmW .bara s w,
    meets (gr st fun g => { g with arrival := some .bara }) (.bara hdr) fun _ w => w.g.arrival ≠ none,
    meets (gr st fun g => { g with arrival := some .bara }) (.barw hdr) fun s w => lone w ∧ w.g.arrival = some .bara ∧ s.barDone w.g .bara = true,
    meets (marked (gr st fun g => { g with arrival := some .bara })) (.barw hdr) fun s w => lone w ∧ w.g.arrival = some .bara ∧ s.barDone w.g .bara = false,
    meets st (.barw hdr) fun _ w => w.g.arrival ≠ some .bara,
    meets st (.gbar hdr) fun s w => ((s.gridOf w.g).map fun g => bit (g.word 0x18) 27) ≠ some true].all id = true := by decide +kernel

/-- One queue of depth 2: Q0. -/
def q1 (q : QState) : State := (wd st 0x18 (BitVec.ofNat 64 (32 * 2 ^ 58 + 2 ^ 44))).updWg 1 fun w => { w with qs := [(0, q)] }
def qe : QEntry := ⟨List.replicate 32 7#32, 0xFFFFFFFF#64⟩
def hasQ (s : State) (w : Word) (c : QState → Nat → Bool) : Bool :=
  decide (0 < (s.queues_ w.g).1) && (match Tbl.find s.wgs w.g.wg with
    | some x => c (x.queue 0) (s.queues_ w.g).2
    | none => false)

theorem test_meets_QueueTests : [
    meets (q1 {}) (.qcnt hdr (.s 1) 0) fun s w => hasQ s w fun _ _ => true,
    meets (q1 { entries := [qe], rsv := 1 }) (.qtry hdr (.pop 7 (.v 1) 0)) fun s w => hasQ s w fun q _ => decide (q.entries.length ≤ q.rsv),
    meets (q1 { entries := [qe, qe], rsv := 1 }) (.qtry hdr (.pop 0 (.v 1) 0)) fun s w => hasQ s w fun q _ => q.entries[q.rsv]? == some qe,
    meets (q1 { entries := [qe], room := 1 }) (.qtry hdr (.push 0 0 (.v 1))) fun s w => !s.fenceWaits w.gs w.g.wg .wg && hasQ s w fun q n => decide (n ≤ q.entries.length + q.room),
    meets (heldW { wd (q1 {}) 0x18 (BitVec.ofNat 64 (32 * 2 ^ 58 + 2 ^ 44 + 2 ^ 28)) with reqs := waits.reqs }) (.qtry hdr (.push 0 0 (.v 1))) fun s w => !s.service w.g && s.fenceWaits w.gs w.g.wg .wg && hasQ s w fun _ _ => true,
    meets (q1 { entries := [qe] }) (.qtry hdr (.push 0 0 (.v 1))) fun s w => !s.fenceWaits w.gs w.g.wg .wg && hasQ s w fun q n => decide (q.entries.length + q.room < n),
    [Instr.qcnt hdr .z 0, .qtry hdr (.pop 0 (.v 1) 7), .qtry hdr (.push 0 7 (.v 1))].all fun i => meets st i fun s w => (s.queues_ w.g).1 ≤ 0].all id = true := by
  decide +kernel
/-- A second group of the workgroup, in slot 1, with `m` its live lanes; what group 17 asked of REGROUP, where it did. -/
def pair2 (m : Mask) (ask : List (Nat × Nat × Nat × Nat)) : State :=
  let g2 : Group := { newGroup placedGrid 1 0 1 0 2 with live := m, slotA := some { pc := 0x100000#64, mask := m, phase := .asked } }
  { (narrow st 1#32) with
    groups := [(0, { (newGroup placedGrid 1 0 0 0 1) with live := 1#32, slotA := some { pc := 0x100000#64, mask := 1#32 } }), (1, g2)]
    wgs := Tbl.upd st.wgs 1 fun w => { w with ngrp := 2, slots := [(0, 0), (1, 1)], regroup := ask } }
def rgw (g : BitVec 5) : Instr := .regroup hdr (.s 1) (.v 2) (.v 5) g
def rgTests (s : State) (w : Word) (g : Nat) (c : Workgroup → Bool) : Bool := match Tbl.find s.wgs w.g.wg with
  | some x => (Tbl.find x.answers w.g.gidx).isNone && (regroupBad w).isNone && !inMask x.savedG g && c x
  | none => false
def finds (s : State) (w : Word) (x : Workgroup) : Bool := decide (1 < w.ngrp) && Tbl.find x.slots 1 == some 1 && (match Tbl.find s.groups 1 with
  | some p => !p.retiring && p.wg == w.g.wg
  | none => false)
def lanesOf (s : State) (w : Word) : Nat := (laneList w.g.live).length + (match Tbl.find s.groups 1 with
  | some p => (laneList p.live).length
  | none => 0)

theorem test_meets_Regroups : [
    meets (st.updWg 1 fun w => { w with answers := [(0, 1)] }) (rgw 1#5) fun s w => ((Tbl.find s.wgs w.g.wg).bind fun x => Tbl.find x.answers w.g.gidx) = some 1,
    meets st (rgw 1#5) fun s w => rgTests s w 1 fun x => decide (w.ngrp ≤ 1) && (Tbl.find x.slots 1).isNone,
    meets (pair2 1#32 []) (rgw 1#5) fun s w => rgTests s w 1 fun x => finds s w x && (Tbl.find x.regroup 1).isNone,
    meets (pair2 0xFFFFFFFF#32 [(1, 0, 2, 5)]) (rgw 1#5) fun s w => rgTests s w 1 fun x => finds s w x && Tbl.find x.regroup 1 == some (0, 2, 5) && decide (32 < lanesOf s w),
    meets (pair2 0x7FFFFFFF#32 [(1, 0, 2, 5)]) (rgw 1#5) fun s w => rgTests s w 1 fun x => finds s w x && Tbl.find x.regroup 1 == some (0, 2, 5) &&
      decide (lanesOf s w ≤ 32) && !w.b,
    meets (gr st fun g => { g with pend := [.v 9] }) (rgw 1#5) fun s w =>
      ((Tbl.find s.wgs w.g.wg).bind fun x => Tbl.find x.answers w.g.gidx) = none ∧ (regroupBad w).isSome].all id = true := by decide +kernel

/-- A collective's descriptor at 0x102000: `w2` its third word, `w3` the fourth (14, R349 Table 4). -/
def coll (w2 w3 : Nat) : State :=
  (sr st 4 0x102000).wrBytes 0x102000 (wordBytes [0x103000#64, 0x104000#64, BitVec.ofNat 64 w2, BitVec.ofNat 64 w3, 0#64, 0#64, 0#64, 0#64])
def collDesc (s : State) : CollDesc := parseColl ((List.range 8).map fun i => s.rd8 (0x102000 + 8 * i))
def spot (s : State) (w : Word) : Bool := w.act != 0#32 && w.src 0 0 % 64 == 0 && okAt (s.collTr w .store (w.src 0 0)).tr 0x102000
def collLies (s : State) (w : Word) : Bool :=
  let d := collDesc s
  let n := min d.count (2 ^ 24) * collSize d.fmt
  d.src % 16 == 0 && d.dst % 16 == 0 && (rangePages d.src n).all (fun x => okTr (s.collTr w .load x).tr) && (rangePages d.dst n).all (fun x => okTr (s.collTr w .store x).tr)

theorem test_meets_Collectives : [
    meets (coll (2 ^ 32 * 4) (2 ^ 16 * 2)) (.coll hdr (.s 4)) fun s w => !s.opWaits w.gs w.g.wg && spot s w && !s.poisoned 0x102000 64 && collLies s w &&
      !(collDesc s).bad && !s.collStale (collDesc s).comm (collDesc s).att && decide ((s.collsOf (dieOf (coreOf w.gs))).length < 64),
    meets (coll (2 ^ 32 * 4) 0) (.coll hdr (.s 4)) fun s w => !s.opWaits w.gs w.g.wg && spot s w && !s.poisoned 0x102000 64 && collLies s w && (collDesc s).bad,
    meets (sr st 4 0x102020) (.coll hdr (.s 4)) fun s w => !s.opWaits w.gs w.g.wg && w.act != 0#32 && w.src 0 0 % 64 != 0,
    meets { coll 0 0 with poison := [0x102000 / 4 + 15] } (.coll hdr (.s 4)) fun s w => !s.opWaits w.gs w.g.wg && spot s w && s.poisoned 0x102000 64 && s.service w.g,
    meets (phased st .token) (.cabort hdr (.s 4)) fun s w => w.slot.phase = .token ∧ Tbl.find s.tokens w.gs = none,
    meets { phased st .token with tokens := [(0, 1#32, 0#8)] } (.cabort hdr (.s 4)) fun s w => w.slot.phase = .token ∧ Tbl.find s.tokens w.gs ≠ none,
    meets (coll (2 ^ 32 * 4) (2 ^ 16 * 2)) (.cabort hdr (.s 4)) fun s w => w.slot.phase = .idle ∧ spot s w ∧ ¬ s.poisoned 0x102000 64].all id = true := by decide +kernel

/-- A block of LAUNCH at 0x102000: one workgroup of one group of 8 registers, CLS 0, code at 0x100000 (08, R208 Table 4). -/
def block (w18 : Nat) : State :=
  (sr st 4 0x102000).wrBytes 0x102000 (wordBytes ([0#64, BitVec.ofNat 64 (1 + 2 ^ 32), BitVec.ofNat 64 (1 + 32 * 2 ^ 17 + 2 ^ 28 + 2 ^ 39), BitVec.ofNat 64 w18,
    0x100000#64] ++ List.replicate 11 0#64))
def goodBlock : Nat := 2 ^ 58 + 10 * 2 ^ 20
def blockTrs (s : State) (w : Word) : List LaneTr :=
  (execLaunch.rangeFirst (w.src 0 0) 128).map fun x => ⟨w.lanes.headD 0, BitVec.ofNat 64 x, s.trans (w.ask .load) x 1 0⟩
def childOf (s : State) (w : Word) (p : Grid) : Grid :=
  mkGrid p.part p.spid p.sgen (p.depth + 1) (descWords s (w.src 0 0) (blockTrs s w) 16) (fun c => max c p.cls)
    (some ((((Tbl.find s.wgs w.g.wg).map (·.grid)).getD 0), s.wgidOf w.g, w.g.gidx, (freeHandle w.g).getD 0)) none
def launches (s : State) (w : Word) (c : Grid → Grid → Bool) : Bool := match s.gridOf w.g with
  | none => false
  | some p =>
    decide (p.team < 2) && w.act != 0#32 && p.depth != 10 && w.src 0 0 % 64 == 0 && !s.unperformed w.gs && (blockTrs s w).all (fun x => okTr x.tr) &&
    bits (Tbl.get 0#64 (descWords s (w.src 0 0) (blockTrs s w) 16) 11) 4 0 == 0 && c p (childOf s w p)
def goodChild (c : Grid) : Bool := !descReserved c && !descRange c
def la : Instr := .launch hdr (.s 1) (.s 4)
def carried (s : State) (g : Grid) : Bool := match s.carryLaunch g with
  | .ok _ _ => true
  | _ => false

theorem test_meets_ChildGrids : [
    meets (block (goodBlock + 1)) la fun s w => launches s w fun _ c => descReserved c,
    meets (block 0) la fun s w => launches s w fun _ c => descRange c,
    meets (block (goodBlock + 2 * 2 ^ 37)) la fun s w => launches s w fun _ c => goodChild c && s.refusal c == some 3,
    meets (gr (block goodBlock) fun g => { g with kids := (List.range 16).map fun k => (k, 9) }) la fun s w => launches s w fun _ c => goodChild c &&
      (s.refusal c).isNone && (freeHandle w.g).isNone,
    meets (block goodBlock) la fun s w => launches s w fun _ c => goodChild c && (s.refusal c).isNone && freeHandle w.g == some 0 && carried s c,
    meets (st.updGrid 1 fun g => { g with depth := 10 }) la fun s w => w.act ≠ 0#32 ∧ ((s.gridOf w.g).map fun p => decide (p.team < 2) && p.depth == 10) = some true,
    meets (sr st 4 0x102020) la fun s w => w.act ≠ 0#32 ∧ ((s.gridOf w.g).map fun p => decide (p.team < 2) && p.depth + 1 != 11) = some true ∧ w.src 0 0 % 64 ≠ 0,
    meets (gr st fun g => { g with kids := [(0, 9)] }) (.lwait hdr (.s 1) (.s 4)) fun s w => w.act ≠ 0#32 ∧ w.g.kids.filter (fun k => k.1 == w.src 0 0 % 16) = [(0, 9)] ∧
      Tbl.find s.grids 9 = none,
    meets st (.lwait hdr (.s 1) .z) fun _ w => w.act ≠ 0#32 ∧ w.g.kids = [],
    meets st (.lwait hdr (.s 1) (.s 4)) fun _ w => w.act ≠ 0#32 ∧ w.g.kids.filter (fun k => k.1 == w.src 0 0 % 16) = [],
    meets (gr st fun g => { g with kids := [(15, 1)] }) (.lwait hdr (.s 1) .z) fun s w => w.act ≠ 0#32 ∧ w.g.kids = [(15, 1)] ∧
      (Tbl.find s.grids 1).map (·.retired) = some false].all id = true := by decide +kernel

/-- The walker's group of lane block 0, its routine under way for a miss; a group in a first-touch handler. -/
def walk : WalkRun := { miss := { va := 0x200000, access := 1, sup := false, spid := 1, gen := 0#8, groups := [(0, false)] }, start := 0 }
def walker (r : WalkRun) : State :=
  { st with
    cur := some ⟨15, false⟩
    groups := Tbl.put st.groups 15 { (newGroup placedGrid 0 0 0 0 1) with n := 8 }
    lbs := Tbl.put st.lbs 0 { walk := some r } }
def ft (m : Mask) (done : Tbl Byte) : FtRun := { mask := m, addrs := [(0, 0x200000#64)], kinds := [(0, 0#2)], slot := false, slotA := none, slotB := none, bankS := [], bankP := [], done, start := 0, sd := 0, refill := [] }
def touch (s : State) (r : FtRun) : State := gr s fun g => { g with ft := some r }
/-- S4 an address, S5 an entry. -/
def pte (s : State) (gs : Nat) (x : Nat) : State := s.updGroup gs fun g => { g with s := Tbl.put (Tbl.put g.s 4 0x200000#64) 5 (BitVec.ofNat 64 x) }
def tlbw : Instr := .tlbw hdr (.s 4) (.s 5) 0
def fitsW (s : State) (w : Word) : Bool := bit (w.opnd64 1 0) 0 && !pteMalformed (w.opnd64 1 0) 0 && (s.space (s.servedSpace w.gs w.g).1).gen == (s.servedSpace w.gs w.g).2
def walks (s : State) (w : Word) : Bool := w.act != 0#32 && isWalker w.gs && ((s.lb (lbOf w.gs)).walk).isSome
def dropped : WalkRun := { walk with dropped := [(1, none)] }

theorem test_meets_SpecialRegisters : [
    meets st (.srd hdr (.v 2) .ctx) fun _ w => sregLogged .ctx = false ∧ isWalker w.gs = false,
    meets (walker walk) (.srd hdr (.s 1) .cycle) fun _ w => isWalker w.gs = true,
    meets (touch st (ft 1#32 [])) (.srd hdr (.v 2) .ftva) fun _ w => isWalker w.gs = false,
    meets st (.srd hdr (.s 1) (.hist 15)) fun _ w => isWalker w.gs = false ∧ sregLogged (.hist 15) = true,
    meets (walker walk) (.srd hdr (.v 2) .ftva) fun _ w => SReg.ftva.perLane = true ∧ isWalker w.gs = true,
    meets st (.swr hdr (.s 4) .gtcmp) fun _ w => w.act ≠ 0#32,
    meets st (.swr hg .z .gtcmp) fun _ w => w.act = 0#32].all id = true := by decide +kernel

theorem test_meets_TrapsAndMarks : [
    meets st (.trap hdr 0xFFFFFFFE#32) fun _ w => w.act ≠ 0#32, meets st (.bpt hdr 0#32) fun _ w => w.act ≠ 0#32,
    meets st (.mark hdr 0#32) fun _ w => w.act ≠ 0#32, [Instr.trap hg 0#32, .bpt hg 0#32, .mark hg 0#32].all fun i => meets st i fun _ w => w.act = 0#32].all id = true := by
  decide +kernel

theorem test_meets_SupervisorWords : [
    meets (pte (walker walk) 15 0x20000F) tlbw fun s w => walks s w && fitsW s w && !walk.drops (s.servedSpace w.gs w.g).1 (w.src 0 0 % 2 ^ 56) 0,
    meets (pte (walker walk) 15 0) tlbw fun s w => walks s w && !fitsW s w,
    meets (pte (walker dropped) 15 0x20000F) tlbw fun s w => walks s w && dropped.drops (s.servedSpace w.gs w.g).1 (w.src 0 0 % 2 ^ 56) 0,
    meets (pte (touch st (ft 1#32 [])) 0 0x20000F) tlbw fun s w => w.act ≠ 0#32 ∧ isWalker w.gs = false ∧ fitsW s w,
    meets (pte (touch st (ft 1#32 [])) 0 0x20002F) tlbw fun _ w => w.act ≠ 0#32 ∧ isWalker w.gs = false ∧ pteMalformed (w.opnd64 1 0) 0 = true,
    meets (walker walk) (.tlbi hdr (.s 4) (.s 5) false) fun _ w => w.act ≠ 0#32,
    allMeet (walker walk) [.iadd hdr (.v 1) (.v 2) (.v 3) .s32, .pairedWord false ⟨.mov, .v 4, .v 5, 0#6⟩ ⟨.mov, .v 5, .v 4, 0#6⟩],
    meets (walker walk) (.hret hdr 0#8) fun s w => walks s w,
    meets (narrow (touch st (ft 1#32 [])) 1#32) (.hret hdr 0#8) fun _ w => w.act ≠ 0#32 ∧ isWalker w.gs = false ∧ w.g.ft = some (ft 1#32 []) ∧ w.lanes = [0],
    meets (narrow (touch st (ft 3#32 [])) 1#32) (.hret hdr 0xFF#8) fun _ w => w.act ≠ 0#32 ∧ isWalker w.gs = false ∧ w.g.ft = some (ft 3#32 []) ∧ w.lanes = [0] ∧
      laneList 3#32 = [0, 1]].all id = true := by decide +kernel
/-! ### States of the other statements -/

def part0 (s : State) : Partition := (Tbl.find s.parts 0).getD { clusters := [], walkpc := 0#64, ftpc := 0#64, ranges := [], mq := 0 }
def g0 (s : State) : Group := (Tbl.find s.groups 0).getD (newGroup placedGrid 0 0 0 0 1)
/-- The facts that decide the decode cause of a word at slot A of group 0: well formed, its mode, its registers, its pair, no pending bit. -/
def causes (s : State) (i : Instr) : List Bool := match i.info, (g0 s).slotA with
  | some f, some p =>
    let w := mkWord s 0 false (g0 s) p f
    [i.wellFormed && !misused i (g0 s) ((((s.gridOf (g0 s))).map Grid.team).getD 0), (!f.priv && !restricted i) || w.sup, (f.dst ++ f.src).all (fun u => u.vregs.all fun n => decide (n < (g0 s).n)), wordPairOk i,
      (infoRefs f).all (fun r => !(g0 s).pend.contains r)]
  | _, _ => []

theorem test_meets_DecodeCauses :
    causes st (.iadd hdr (.v 1) (.v 2) (.v 3) .f32) = [false, true, true, true, true] ∧
    causes st (rgw 0#5) = [false, true, true, true, true] ∧
    causes (gr (wd st 0x18 (BitVec.ofNat 64 (32 * 2 ^ 58 + 2 * 2 ^ 37))) fun g => { g with gidx := 1 }) la = [false, true, true, true, true] ∧
    causes st (.tlbw hdr (.s 4) (.s 5) 0) = [true, false, true, true, true] ∧
    causes st (.iadd hdr (.v 256) (.v 2) (.v 3) .s32) = [true, true, false, true, true] ∧
    causes st (.pairedWord false ⟨.iadd, .v 4, .v 8, 0#6⟩ ⟨.iadd, .v 12, .v 16, 0#6⟩) = [true, true, true, false, true] ∧
    causes (gr st fun g => { g with pend := [.v 3] }) (.iadd hdr (.v 1) (.v 2) (.v 3) .s32) = [true, true, true, true, false] := by decide +kernel

/-- What every clause of `ExceptionsTaken` about a group asks. -/
def taken (s : State) (c : Group → Bool) : Bool :=
  (match Tbl.find s.groups 0, Tbl.find s.parts 0 with
    | some g, some q => q.halt.isNone && g.stop.isNone && c g
    | _, _ => false) && (s.space 1).st != .released && (s.space 1).part == 0

theorem test_meets_ExceptionsTaken : [
    isWalker 15,
    taken st fun g => g.ft.isNone && g.slotA.isSome && !lateKind 0x30,
    taken st fun g => g.ft.isNone && g.slotA.isSome && lateKind 0x10 && decide (g.nissue ≤ 0 + 1),
    taken (gr st fun g => { g with nissue := 2 }) fun g => g.ft.isNone && lateKind 0x10 && decide (0 + 1 < g.nissue) && g.rv,
    taken (gr st fun g => { g with nissue := 2, rv := false }) fun g => g.ft.isNone && lateKind 0x10 && decide (0 + 1 < g.nissue) && !g.rv,
    taken (fenced st) fun g => g.ft.isNone && lateKind 0x10 && ((fenced st).gridOf g).map (·.fenced) == some true,
    taken (touch st { (ft 1#32 []) with slotA := some { pc := 0x100000#64, mask := 1#32 } }) fun g =>
      g.ft.isSome && (g.endHandler { (ft 1#32 []) with slotA := some { pc := 0x100000#64, mask := 1#32 } }).stop.isNone &&
        ((g.endHandler { (ft 1#32 []) with slotA := some { pc := 0x100000#64, mask := 1#32 } }).slot false).isSome].all id = true := by decide +kernel

/-- The hypotheses of a step that issues the word of slot A of group 0. -/
def issues (s : State) (c : State → PcSlot → Bool) : Bool :=
  s.agenda == [.issue 0 false] && decide ((s.lb 0).busy ≤ s.clock) &&
    (let v := ({ s with agenda := [] } : State).settleQuiet 0
     match Tbl.find v.groups 0 with
     | none => false
     | some g0 => match g0.slot false with
       | none => false
       | some p => !v.blocked 0 false g0 p && (v.parks 0 g0).isNone && (v.replayAt 0 false g0 p).isNone && (v.timerAt 0 false g0 p).isNone &&
         c { v with groups := Tbl.put v.groups 0 { g0 with swPark := false } } p)
def fetched (s : State) (x : Option W64) : State := gr s fun g => { g with slotA := g.slotA.map fun p => { p with fetched := x } }
def fetchAsk (u : State) : Ask := ⟨0, g0 u, [], false, .fetch⟩
def fetchedAt (u : State) : Bool := okAt (u.fetchTr (fetchAsk u) placedPc) 0x100000 && !u.poisoned 0x100000 8

theorem test_meets_StepsOfWords :
    let s : State := State.reset.withFetchWord 64 0x148E000000000000
    [issues (fetched s (some 0#64)) fun _ p => p.fetched == some 0#64 && (decode 0#64).isNone,
     issues (fetched s (some 0x148E000000000000#64)) fun _ p => p.fetched.isSome,
     issues s fun u p => p.fetched.isNone && fetchedAt u && u.ownMem 0x100000 && (u.l1Line 0 (0x100000 / 128)).isNone &&
       decode (u.rd8 0x100000) == some (.nop hdr),
     issues (s.updCore 0 fun c => { c with l1 := [(0x100000 / 128, { bytes := [], wm := [], count := 0 })] }) fun u p => p.fetched.isNone && fetchedAt u &&
       u.ownMem 0x100000 && (u.l1Line 0 (0x100000 / 128)).isSome,
     issues { s with sec := { s.sec with modnum := 1#8 } } fun u p => p.fetched.isNone && fetchedAt u && !u.ownMem 0x100000].all id = true := by decide +kernel

/-- A state in which each of the agenda's moves stands first; none of them makes the agenda give a word as a step of an agent. -/
theorem test_meets_StepsOfAgents :
    ({ st with agenda := [.event .powerGood] } : State).agenda = [.event .powerGood] ∧ (∀ m ∈ [Move.event .powerGood, .own, .elapse 5], ∀ i, m = .event i → i.info = none) := by
  refine ⟨rfl, fun m hm i he => ?_⟩
  subst he
  simp only [List.mem_cons, Move.event.injEq, reduceCtorEq, List.not_mem_nil, or_false] at hm
  rw [hm]; rfl

theorem test_meets_MemoryForm : Memory.wf st.mem = true ∧ Memory.wf (step (State.reset.withFetchWord 64 0x148E000000000000) |> fun
    | .next t => t.mem
    | _ => []) = true := by decide +kernel

/-! ### The steps of the agents -/

/-- An access of lane 0 to `n` bytes at `pa`; one to its local store; a request with it; the state with that one request. -/
def acc (pa n : Nat) : LaneAcc := { lane := 0, ga := BitVec.ofNat 64 pa, locs := [.mem pa], len := n }
def lacc (o n : Nat) : LaneAcc := { lane := 0, ga := 0#64, locs := [.ls 0 o 1], len := n }
def rq (k : ReqKind) (a : LaneAcc) (st : RStage) : Req :=
  { gs := 0, wg := 1, core := 0, spid := 1, kind := k, accs := [a], size := a.len, ord := .weak, sco := .none, mode := 0#2, stage := st, pc := 0#64, mask := 1#32, rwc := 0#32 }
def withRq (s : State) (q : Req) : State := { s with reqs := [(1, q)] }
/-- The fields of group 0, its slot A and its space. -/
def gOk (s : State) (c : Group → Bool) : Bool := ((Tbl.find s.groups 0).map c).getD false
def tent (pt : Option (W64 × Mask × Nat × Nat)) : Tent := { nth := 1, before := g0 st, born := 10, reqs := [1], n := 1, point := pt }
def late (s : State) (n : Nat) : State := { s with clock := n }
def tents1 (s : State) : State := { s with tents := [(0, [tent none])] }
def opn (f : Bool) (x : Option BatchFault) : ClsState := { last := 1#32, closed := [{ num := 1#32, ops := [{ id := 1, pc := 0#64, fin := f, fault := x }] }] }
def leaving (s : State) : State := gr s fun g => { g with retiring := true, slotA := none }
def kindFetch (s : State) : Option Bool := (g0 s).slotA.bind fun p => match s.fetch 0 (g0 s) p with
  | .word _ _ => some true
  | .miss _ => some false
  | _ => none
def drained (s : State) : Bool := s.batchFault { gs := 0, b := false, g := (g0 s).closeBatches, slot := { pc := (g0 s).exitPc, mask := 0#32 }, act := 0#32, ngrp := 0, srcs := [] }
  [.cp, .mx, .gc, .cl] (fun _ => true) == none
def sp1 (s : State) (f : Space → Space) : State := { s with spaces := Tbl.upd s.spaces 1 f }

theorem test_meets_GroupSteps : [
    (withRq st (rq (.result [.v 2 0 7#32]) (acc 0 4) .answered)).reqs.all (fun e => e.2.gs == 0 && e.2.stage == .answered && e.2.serial.isNone && e.2.ord == .weak && e.2.pops.isEmpty),
    (withRq st (rq (.load (.v 2) .w32) { acc 0x100000 4 with perf := true } .answered)).reqs.all (fun e => e.2.stage == .answered && e.2.accs.all (fun a => a.perf && a.err == 0) &&
      e.2.mode == 0#2),
    gOk (tents1 (late st 20)) (fun g => g.quietAt.isNone && decide (20 < (tent none).born + 48)), gOk (tents1 (late st 58)) (fun g => g.quietAt.isNone && (tent none).point.isNone),
    gOk (gr (late st 64) fun g => { g with eligible := some 0 }) (fun g => g.eligible == some 0) && !isWalker 0,
    (let s := gr st fun g => { g with gtcmp := 5#64, gtime := 5#64 }
     gOk s (fun g => g.nextSlot == some false && (g.slot false).isSome && g.ft.isNone && g.stop.isNone && !g.retiring && g.gtcmp != 0#64 && decide (g.gtcmp.toNat ≤ g.gtime.toNat) &&
       s.spidOf g == 1) && (s.space 1).replay.isNone && !(s.space 1).records && (Tbl.find s.tents 0).isNone),
    kindFetch st == some true && gOk st (fun g => (g.slot false).any fun p => !p.missing && p.fetched.isNone),
    kindFetch (st.updCore 0 fun c => { c with tlb := [] }) == some false,
    gOk (gr st fun g => { g with slotA := none, refill := [(false, ⟨0x100040#64, 4#32⟩)] }) (fun g => (g.slot false).isNone && 4#32 &&& g.live != 0#32),
    gOk (touch (late st (2 ^ 20)) (ft 1#32 [])) (fun g => g.ft.isSome), gOk (touch st (ft 1#32 [])) (fun g => g.ft.isSome),
    [opn true none, opn true (some ⟨0x12#8, 0#8, 0#64⟩)].all fun c => c.open_.length == 1 && (c.open_.all fun b => b.ops.all (·.fin)),
    (let s := leaving { st with reqs := (withRq st (rq .store (acc 0x100000 4) .mesh)).reqs }
     gOk s (fun g => g.retiring && g.stop.isNone && !g.forced && !s.allDone 0 g.closeBatches) && (part0 s).halt.isNone && ((Tbl.find s.wgs 1).all fun w => w.teams.isEmpty)),
    (let s := leaving st
     gOk s (fun g => s.allDone 0 g.closeBatches && s.reportHeld 0 g.exitPc == none) && drained s && (s.space 1).replay.isNone),
    (let s := sp1 (gr st fun g => { g with forced := true, slotA := none }) fun x => { x with st := .preempting }
     gOk s (fun g => g.stop.isNone && g.forced && s.groupRest 0 g && (s.space (s.spidOf g)).st == .preempting) && s.colls.isEmpty &&
       ((Tbl.find s.wgs 1).all fun w => !inMask w.savedG 0)),
    (let s := { st with dir := [(0, { want := some .batchWait })] }
     (s.dirOf 0).want.isSome && s.mayAdvance 0),
    !({ st with dir := [(0, { since := 5, want := some .batchWait })] } : State).mayAdvance 0].all id = true := by decide +kernel

def miss1 : Miss := { va := 0x200000, access := 1, sup := false, spid := 1, gen := 0#8, groups := [(0, false)] }
theorem test_meets_WalkerSteps : [
    (let s := st.updLb 0 fun b => { b with misses := [miss1] }
     (s.lb 0).walk.isNone && (s.lb 0).misses == [miss1] && (s.space 1).part == 0 && (part0 s).halt.isNone),
    ((walker walk).lb 0).walk == some walk && decide ((walker walk).clock < walk.start + 2 ^ 20) && decide walk.miss.groups.Nodup,
    decide (walk.start + 2 ^ 20 ≤ (late (walker walk) (2 ^ 20)).clock) && gOk (late (walker walk) (2 ^ 20)) (fun g => (g.slot false).isSome)].all id = true := by decide +kernel

def sct : Nat := 0x100000 / 64
def ready (s : State) (h : Home) (c : Req → Bool) : Bool := match Tbl.find s.reqs 1 with
  | some q => q.homesLeft == [h] && s.mayPerform 1 q h && c q && !(s.space q.spid).records && (s.space q.spid).replay.isNone && (s.space q.spid).log == 0
  | none => false
def alone (s : State) (q : Req) : Bool :=
  q.accs.all (fun a => s.overlap q a == none) && (accCells q.accs).all (fun c => !s.barred c.1) && !s.raceBars 1 q (g0 s)
def stores (s : State) (q : Req) : Bool := (s.serialOwner q).isNone && q.stage == .atHome && q.accs.all fun a => !s.mixed q (g0 s) a && !s.poisoned a.pa a.len
def goes (c : Check) : Bool := match c with
  | .go _ => true
  | _ => false
/-- A second group of the workgroup, which wrote the first sector of the page. -/
def wrote : State := { pair2 1#32 [] with wms := [(sct, mkWm 0#4 1 0#4 {} 0 15)] }
def wback : Req := { rq .store (acc 0x100000 4) .unperformed with wms := [(sct, mkWm 0#4 1 0#4 {} 0 15)], mode := 1#2 }
def atomQ (k : ReqKind) : Req := { rq k (acc 0x100000 4) .mesh with ord := .rlx, sco := .dev }
def addQ : Req := atomQ (.atom (.v 8) .w32 .add)
def owned (s : State) (core : Nat) : State := { s with owners := [(0x100000 / 128, core)], cores := Tbl.upd s.cores core fun c => { c with owned := [0x100000 / 128] } }
def swept (wm : W64) : State := { pair2 1#32 [] with wms := [(0, wm)] }

theorem test_meets_HomeSteps : [
    (let s := withRq st (rq (.load (.v 2) .w32) (acc 0x100000 4) .atHome)
     ready s (.sector sct) fun q => q.stage == .atHome && s.copyAt q sct == none && q.accs.all (fun a => s.ownMem a.pa && !a.tx && s.overlap q a == none)),
    (let s := withRq st (rq (.load (.v 2) .w32) (lacc 64 4) .mesh)
     ready s (.bank 0 1) (fun q => q.stage == .mesh) && (s.core 0).subs.isEmpty),
    (let s := withRq st (rq .store (acc 0x100000 4) .atHome)
     ready s (.sector sct) fun q => stores s q && alone s q && goes (s.homeCheck q (g0 s) q.sector (q.ord != .weak)) && q.accs.all (fun a => !a.pa.testBit 51)),
    (let s := withRq st { rq .store (acc 0x100000 4) .atHome with mode := 1#2, verified := some 1#64, returns := 2 }
     ready s (.sector sct) fun q => stores s q && s.homeCheck q (g0 s) q.sector (q.ord != .weak) == .back && decide (3 ≤ q.returns + 1)),
    (let s := withRq st (rq .store (lacc 64 4) .mesh)
     ready s (.bank 0 1) (fun q => (s.serialOwner q).isNone && !q.head && !s.raceBars 1 q (g0 s) && q.accs.all fun a => !s.broken 0 a.pa a.len) && (s.core 0).bad.isEmpty && (s.core 0).pubs.isEmpty),
    (let s := owned (withRq st addQ) 0
     ready s (.sector sct) fun q => s.canOwn q 0x100000 && q.serial.isNone && s.owns q.core (sct / 2) && alone s q && (List.range 4).all (fun i => !s.barred (0x100000 + i)) && !s.poisoned 0x100000 4 &&
       s.homeCheck q (g0 s) sct (q.ord != .weak) == .go .pass),
    (let q := rq .store (acc 0x100000 4) .performed
     q.stage == .performed && q.serial.isNone && q.txMsg.isNone && q.tag.isNone && (withRq st q).invs.isEmpty && gOk (withRq st q) fun g => g.quietAt.isNone),
    (rq .store (acc 0x100000 4) .performed).lines == [0x100000 / 128] && wback.txMsg.isNone,
    (((withRq st wback).sectorVerdict wback (g0 st) sct 0#64 (wback.ord != .weak)).1 != .race),
    ((withRq wrote wback).sectorVerdict wback (g0 wrote) sct (mkWm 0#4 1 0#4 {} 0 15) (wback.ord != .weak)).1 == .race,
    (let s := { late st 1024 with holds := [(sct, 1, 0)] }
     Tbl.find s.holds sct == some (1, 0) && decide (0 + 1024 ≤ s.clock) && decide (st.clock < 0 + 1024)),
    Tbl.wf (swept 0#64).wms,
    Tbl.wf wrote.wms && (swept (mkWm 0#4 1 0#4 {} 0 15)).wmLive (mkWm 0#4 1 0#4 {} 0 15) && bit (mkWm 0#4 1 0#4 {} 0 15) 7,
    !((swept (mkWm 0#4 2 0#4 {} 0 15)).wmLive (mkWm 0#4 2 0#4 {} 0 15)) && decide (recSlice 0 < 64),
    !bit (0x400#64) 7 && recSlice 0 != 1 * 64 + 3].all id = true := by decide +kernel

def cpy1 : Copy := { id := 1, rtx := false, ack := 0xFFFF#16, inc := 0#8, sent := 0, node := 0, trip := { way := .there } }
/-- A request whose owner is a slice of die 1, with one copy at die 0. -/
def far (c : Copy) : Req := { rq .store (acc (144 * 2 ^ 30) 4) .mesh with serial := some 0#16, copies := [c] }
/-- A store from core 191, eleven routers away from its home; `h` is where it is latched. -/
def onWay (w : Way) (h : Option (Nat × Nat)) : Req := { rq .store (acc 0x100000 4) .mesh with core := 191, slack := 1, trip := { hop := h, way := w } }
def farQ : Req := onWay .going none
/-- Where its first segment ends, and that input with both its buffers taken. -/
def farEnd : Nat × Nat := segment (sliceStop (homeLs 0x100000)) 8 (unitStop 191, 0)
def jammed : State := { st with reqs := [(1, farQ), (2, onWay .going (some farEnd)), (3, onWay .going (some farEnd))] }
/-- Whether request 1 may go, does or does not win its router's output, and what is asked of its segment and of the room there. -/
def sends (s : State) (win : Bool) (c : Leg → Nat × Nat → Bool → Bool) : Bool := match Tbl.find s.reqs 1 with
  | some q => q.stage == .mesh && !s.atSource q && !s.injectHeld q && q.trip.way == .going && (match s.reqLeg q with
      | some l => s.wins l q.trip q q.first == win && c l (segment l.dest 8 (q.trip.at_ l)) (s.inputRoom l.die (segment l.dest 8 (q.trip.at_ l)) q.cls)
      | none => false)
  | none => false
theorem test_meets_MeshSteps : [
    sends (withRq st (rq .store (acc 0x100000 4) .mesh)) true fun l e _ => e.1 == l.dest, sends (withRq st farQ) true fun l e r => e.1 != l.dest && r, sends jammed true fun l e r => e.1 != l.dest && !r,
    (withRq st addQ).atSource addQ,
    [Way.nacked, .backoff 0].all fun w => (onWay w none).trip.way == w,
    sends { withRq st farQ with reqs := [(1, farQ), (2, { farQ with slack := 0 })] } false fun _ _ _ => true,
    (let s := { withRq st addQ with l2 := [(0x100000 / 128, { dirs := 5#4, count := 1, way := 0 })] }
     s.ownerBusy 0 (0x100000 / 128) && (Tbl.find s.owners (0x100000 / 128)).isNone && decide ((s.core 0).owned.length < 16) && Tbl.find s.l2 (0x100000 / 128) ==
       some { dirs := 5#4, count := 1, way := 0 }),
    (let s := owned (withRq st addQ) 1
     s.ownerBusy 0 (0x100000 / 128) && Tbl.find s.owners (0x100000 / 128) == some 1 && !s.ownerBusy 1 (0x100000 / 128)),
    !st.ownerBusy 0 (0x100000 / 128) && (owned (withRq st addQ) 0).owns 0 (0x100000 / 128),
    (let s := owned (withRq st addQ) 1
     s.owns 1 (0x100000 / 128) && !s.ownerBusy 1 (0x100000 / 128) && (s.recallers 1 (0x100000 / 128)).1),
    (let s := owned (withRq st addQ) 0
     !st.owns 0 (0x100000 / 128) && s.ownerBusy 0 (0x100000 / 128)),
    (st.canPass (far cpy1) 8 cpy1).isSome && (Tbl.find st.injs 8).isNone && homeDie (144 * 2 ^ 30) == 1,
    otherEnd 8 1 == some 0,
    (let c := { cpy1 with node := 1, lost := true, kept := [(8, 0)] }
     c.lost && otherEnd 8 0 == some 1 && st.linkLive 8 && decide (st.clock < c.sent + 2 ^ 14) && decide (c.sent + 2 ^ 14 ≤ (late st (2 ^ 14)).clock)),
    ({ st with sec := { st.sec with powered := true } } : State).sec.powered].all id = true := by decide +kernel

def owner1 : Nat := ownerOf (144 * 2 ^ 30)
def there : Copy := { cpy1 with node := 1 }
def place1 : Nat := st.rcAt owner1 (far cpy1).lineSet
def entry1 (t : Option Nat) : RcEntry := ⟨owner1, place1, 0, 0#16, t, []⟩
/-- The copy has reached its owner; what the cache holds, or which owners have lost theirs. -/
def came (c : Copy) (l : List RcEntry) (lost : List Nat) (k : State → Req → Copy → Bool) : Bool :=
  let q := far c
  let s := { withRq st q with rcache := l, sec := { st.sec with incLost := lost } }
  q.serial == some 0#16 && q.copies == [c] && s.arrived q c && q.reply.isNone && !q.gone && k (s.retireAt (s.rcAll owner1) q.core c.ack) q c
def replied (r : Reply) : Bool :=
  let q := { far cpy1 with reply := some r, rnode := 0 }
  q.rnode == unitDie q.core && !q.gone && decide (st.clock < q.replied + 2 ^ 14) && q.serial.isSome && !q.isAtomic
def unsentQ : Req := { far cpy1 with serial := none, copies := [] }
def rqer0 (s : State) (r : Requester) : State := { s with rqers := [(0, r)] }

/-- The owner's slice is evacuated: the sets below 512 have left it, and the entry lies where the others still are. -/
def evacuated (e : RcEntry) : Bool :=
  let s := st.updDie 1 fun d => { d with evacs := [{ slice := true, logical := owner1 % 64, src := owner1 % 64, dst := (owner1 + 1) % 64, why := .early, ptr := 512 }] }
  s.rcAt owner1 (far cpy1).lineSet != s.rcAt owner1 1023 &&
    ({ s with rcache := [{ e with place := s.rcAt owner1 1023 }] } : State).rcFind (s.rcAt owner1 (far cpy1).lineSet) 0 0#16 == none

theorem test_meets_ResultSteps : [
    came there [entry1 none] [] fun u q _ => u.rcFind place1 q.core 0#16 == some (entry1 none),
    came there [entry1 (some 0)] [] fun u q _ => u.rcFind place1 q.core 0#16 == some (entry1 (some 0)),
    came { there with rtx := true, inc := 1#8 } [] [] fun u q c => u.rcFind place1 q.core 0#16 == none && c.inc != u.ownerInc owner1 && c.rtx,
    came there [] [owner1] fun u q _ => u.rcFind place1 q.core 0#16 == none && u.sec.incLost.contains owner1,
    came there [] [] fun u q c => u.rcFind place1 q.core 0#16 == none && c.inc == u.ownerInc owner1 && !u.rcFull place1 && alone u q && q.stage == .mesh && (Tbl.find u.owners (q.sector / 2)).isNone &&
      u.mayPerform 1 q (.sector q.sector) && q.kind == .store && !(u.space q.spid).records && (u.space q.spid).log == 0 &&
      q.accs.all (fun a => !u.poisoned a.pa a.len) && goes (u.homeCheck q (g0 u) q.sector (q.ord != .weak)),
    evacuated (entry1 none), replied (.value []), replied .busy, replied .unknown,
    (let q := { far cpy1 with kind := .put 1 none, reply := some .unknown, rnode := 0 }
     q.kind == .put 1 none && q.rnode == unitDie q.core && decide (q.core < 768)),
    ({ far cpy1 with reply := some .busy, rnode := 4 }).rnode != dieOf 0 && decide (0 + 2 ^ 14 ≤ (late st (2 ^ 14)).clock),
    ({ far cpy1 with parked := true }).parked && !(far cpy1).parked && decide ((late st (2 ^ 23)).clock ≥ (far cpy1).first + 2 ^ 23),
    ((rqer0 st { retirePk := [(owner1, 0#16, 0)] }).rqer 0).retirePk == [(owner1, 0#16, 0)],
    ({ st with sec := { st.sec with incLost := [0] } } : State).sec.incLost != [],
    Tbl.find st.sec.domain 0 == some [] && Tbl.find ({ st with sec := { st.sec with domain := [(0, []), (3, [])] } } : State).sec.domain 3 == some [] && st.sec.modnum != 3#8,
    (let s := withRq st unsentQ
     s.unsent 0 == [(1, unsentQ)] && s.serialOwner unsentQ == some owner1 && !s.injectHeld unsentQ && !(s.rqer 0).mustHold owner1 && (s.rqer 0).retirePk.isEmpty &&
       ((rqer0 s { next := 0x8001#16, ack := 0#16 }).rqer 0).mustHold owner1)].all id = true := by decide +kernel

def txw (r : List W64) : TxWord := { pa := 0x100000, ga := 0x100000#64, rd := r, wmask := 0xFF#8, wdata := 5#64 }
def sl0 : Nat := txSlice 0x100000
def committing (x : TxWord) (r : TxRun) : State := gr st fun g => { g with tx := [(0, { depth := 1, words := [x] })], txe := some r }
def preparing : TxRun := { run id with todo := [sl0], decided := false }
/-- A message of group 0 about the word, whose one copy has come to its slice. -/
def txq (m : TxMsg) (k : Nat → Nat) : Req :=
  { rq (.tx 0 m) { acc 0x100000 8 with err := k 0 } .mesh with mask := 1#32, serial := some 0#16, copies := [cpy1] }
def txArrives (s : State) (m : TxMsg) : State := withRq s (txq m id)
def arrives (s : State) (m : TxMsg) (c : Req → Bool) : Bool := match s.txArrived 0 (· == m), Tbl.find s.reqs 1 with
  | some (1, q, _, _), some p => q == p && q.reply.isNone && !q.accs.isEmpty && q.lines.all (fun l => (Tbl.find s.owners l).isNone) &&
      q.accs.all (fun a => a.lane == 0 && !a.perf && a.err == 0) && c q
  | _, _ => false
def prepares (s : State) (c : Bool) : Bool :=
  let ws := ((g0 s).txLane 0).at_ sl0
  arrives s (.prepare sl0) (fun _ => true) && gOk s (fun g => g.txe == some preparing) && preparing.waiting.isEmpty && preparing.prepared.isEmpty &&
    (decide ((s.locks.filter (fun l => txSlice l.1 == sl0)).length + ws.length ≤ 1024) && ws.all fun x =>
      Tbl.find s.locks x.pa == none || Tbl.find s.locks x.pa == some (0, 0)) == c
/-- A prepare's answer has come back, with a code. -/
def back (s : State) (code : Nat) : State := withRq s { txq (.prepare sl0) fun _ => code with stage := .performed, serial := none, copies := [] }
def replies (s : State) (code : Nat) (r : TxRun) : Bool := match (s.txMsgs 0 TxMsg.isPrepare).find? (fun e => e.2.stage == .performed && e.2.serial.isNone) with
  | some (_, q) => q.accs.all (fun a => a.lane == 0 && a.err == code) && !q.accs.isEmpty && gOk s fun g => g.txe == some r
  | none => false
theorem test_meets_CommitSteps : [
    prepares (txArrives (committing (txw [st.rd8 0x100000]) preparing) (.prepare sl0)) true,
    prepares (txArrives (committing (txw [7#64]) preparing) (.prepare sl0)) true && st.rd8 0x100000 != 7#64,
    prepares { txArrives (committing (txw []) preparing) (.prepare sl0) with locks := [(0x100000, 5, 0)] } false && decide (st.txQueue sl0 < 64),
    (let r := { preparing with waiting := [(0, 0)] }
     let s := txArrives (committing (txw []) r) (.prepare sl0)
     arrives s (.prepare sl0) (fun _ => true) && gOk s (fun g => g.txe == some r) && decide (0 + 4096 ≤ (late s 4096).clock)),
    (let r := { preparing with todo := [sl0 + 1, sl0] }
     replies (back (committing (txw []) r) 0) 0 r && (laneList 1#32).any fun L => !(((g0 (committing (txw []) r)).txLane L).at_ sl0).isEmpty),
    (let r := { preparing with lanes := 3#32, todo := [sl0 + 1, sl0] }
     let s := gr (committing (txw []) r) fun g => { g with tx := [(0, { depth := 1, words := [txw []] }), (1, { depth := 1, words := [txw []] })] }
     replies (back s 1) 1 r && ((g0 s).txLane 0).open_ && (laneList 2#32).any fun L => !(((g0 s).txLane L).at_ sl0).isEmpty),
    (let s := back (phased (committing (txw []) preparing) .commit) 0
     replies s 0 preparing && gOk s (fun g => ((g.slot (txSlot g)).map (·.phase)) == some .commit) && (preparing.todo.drop 1).isEmpty && preparing.lanes != 0#32 &&
       !(st.space 1).records && (st.space 1).replay.isNone),
    (let s := txArrives (committing (txw []) (run id)) (.abort sl0 0)
     arrives s (.abort sl0 0) (fun _ => true) && gOk s (fun g => g.txe == some (run id))),
    (let r := run fun r => { r with mode := 0#2 }
     let s := txArrives (committing (txw []) r) (.commit sl0 0)
     arrives s (.commit sl0 0) (fun q => q.txSectors (g0 s) == [sct] && q.mask == 1#32 && s.mayPerform 1 q (.sector sct) && q.accs.all (fun a => s.overlap q.asOwn a == none) &&
       (q.txSector (g0 s) r sct).accs.all (fun a => s.overlap (q.txSector (g0 s) r sct) a == none) &&
       (List.range 8).all (fun i => !s.barred (0x100000 + i))) && gOk s (fun g => g.txe == some r) && r.mode == 0#2 && !(s.space 1).records && (s.space 1).replay.isNone && (txw []).wmask != 0#8)
    ].all id = true := by decide +kernel

/-- The publication of workgroup 1 on core 0, its subscription by workgroup 2 on core 1, an update. -/
def pub1 : PubEnt := { poff := 0, len := 2, plead := 0, score := 1, shdl := 3, st := .live, wg := 1, swg := 2 }
def sub1 : SubEnt := { poff := 0, plead := 0, pcore := 0, pair := false, pidx := 0, len := 2, soff := 0, slead := 1, st := .active, wg := 2, pwg := 1, handle := 3 }
def upd1 : Upd := { id := 1, src := 0, dst := 1, handle := 3, swg := 2, seg := 0, mask := 1#64, data := List.replicate 64 7#8, ser := 1#16 }
def felt1 (d : Bool) : FeltEnt := { id := 1, seg := 0, mask := 1#64, data := List.replicate 64 7#8, srcs := [], born := 0, due := d }
def felts (p : PubEnt) (e : SubEnt) (f : List FeltEnt) (u : List Upd) : State :=
  { st with
    wgs := Tbl.put st.wgs 2 { grid := 1, wgidx := 1, core := 1, ngrp := 1, lsBase := 0, lsSize := 128, qSize := 0, frame := 0, gang := 1, rank := 1 }
    cores := [(0, { (st.core 0) with pubs := [(0, p)], felt := f }), (1, { subs := [(3, e)] })]
    upds := u }
def linked (s : State) (p : PubEnt) (e : SubEnt) : Bool :=
  Tbl.find (s.core 1).subs 3 == some e && s.pubCore 1 e == 0 && s.pubOf 1 3 e == some (0, p) && Tbl.find (s.core 0).pubs 0 == some p
/-- A requester whose window is taken. -/
def fullRq : Requester := { next := 0x8001#16, ack := 0#16 }
theorem test_meets_FeltSteps : [
    (let s := felts pub1 sub1 [] []
     Tbl.find (s.core 0).pubs 0 == some pub1 && pub1.st == .live && !pub1.remove && decide (pub1.next < pub1.len) && !s.wgHalted pub1.wg && (s.core 0).bad.isEmpty &&
       !(s.rqer 0).mustHold (feltOwner (s.subCore 0 pub1)) && ((rqer0 s fullRq).rqer 0).mustHold (feltOwner ((rqer0 s fullRq).subCore 0 pub1))),
    [true, false].all (fun d => let s := felts pub1 sub1 [felt1 d] []
      (s.core 0).felt == [felt1 d] && s.haltedPubs 0 == [] && (s.core 0).pubs.filter (fun x => s.pubCovers x.2 0) == [(0, pub1)] && (felt1 d).due == d &&
        (felt1 d).mask &&& ~~~(Tbl.get 0#64 (felt1 d).sent 0) != 0#64 && !(s.rqer 0).mustHold (feltOwner (s.subCore 0 pub1)) &&
        ((rqer0 s fullRq).rqer 0).mustHold (feltOwner ((rqer0 s fullRq).subCore 0 pub1))),
    [0, 4096].all (fun n => let p := { pub1 with st := .log, lbase := 0x104000, logn := n }
      let s := felts p sub1 [felt1 true] []
      s.haltedPubs 0 == [] && (s.core 0).pubs.filter (fun x => s.pubCovers x.2 0) == [(0, p)] && !(s.rqer 0).mustHold (ownerOf (p.lbase + 128 * p.logn)) &&
        ((rqer0 s fullRq).rqer 0).mustHold (ownerOf (p.lbase + 128 * p.logn))),
    (let p := { pub1 with st := .held }
     let s := felts p sub1 [felt1 true] []
     s.haltedPubs 0 == [] && (s.core 0).pubs.filter (fun x => s.pubCovers x.2 0) == [(0, p)]),
    (let s := felts pub1 sub1 [] [upd1]
     s.upds.find? (fun x => x.src == 0 && x.dst == 1 && x.log.isNone) == some upd1 && !upd1.ackDetach && !upd1.unreadable && Tbl.find (s.core 1).subs 3 == some sub1 && decide ((upd1.ser - sub1.last).toNat < 2 ^ 15) && upd1.ser != sub1.last &&
       (s.core 1).bad.isEmpty),
    serLe upd1.ser 2#16,
    (let e := { sub1 with st := .detaching, msg := msgDetach }
     linked (felts pub1 e [] []) pub1 e && e.pwg == 1),
    (let e := { sub1 with st := .detaching }
     let u := { upd1 with ackDetach := true }
     let s := felts pub1 e [] [u]
     s.upds.find? (fun u => u.src == s.pubCore 1 e && u.dst == 1 && u.log.isNone) == some u && u.handle == 3),
    (let e := { sub1 with st := .replay, msg := msgAttach }
     let s := felts pub1 e [] []
     linked s pub1 e && (Tbl.find s.wgs e.pwg).all (fun w => w.resident || w.gone) && s.upds.isEmpty &&
       ((felts pub1 e [] [{ upd1 with log := some 9 }]).upds.any fun u => u.log.isSome && u.swg == e.wg && u.handle == 3) && linked (felts { pub1 with st := .broken } e [] []) { pub1 with st := .broken } e),
    [0, 1].all (fun a => Tbl.find ((felts pub1 { sub1 with st := .replay, msg := msgReply, acks := a } [] []).core 1).subs 3 == some { sub1 with st := .replay, msg := msgReply, acks := a } && sub1.logn == 0 && !sub1.lost),
    (let e := { sub1 with st := .replay, msg := msgResume }
     linked (felts pub1 e [] []) pub1 e && (felts { pub1 with shdl := 4 } e [] []).pubOf 1 3 e == none),
    (let e := { sub1 with st := .drain, msg := msgRemove }
     linked (felts pub1 e [] []) pub1 e),
    (let e := { sub1 with st := .drain, msg := msgDrain }
     let s := felts pub1 e [felt1 false] []
     linked s pub1 e && !((s.core 0).felt.any (fun f => f.due && s.pubCovers pub1 f.seg)) && !(s.upds.any fun u => u.dst == 1 && u.handle == 3 && u.log.isNone))].all id = true := by decide +kernel

def matq (k : MatKind) (o : Option (List (Nat × List Byte))) : MatOp := { id := 1, kind := k, wg := 1, gs := 0, pc := 0x100000#64, mems := [0], cores := [0], out := o }
def eng (op : MatOp) : State := st.updCore 0 fun c => { c with eng := [op] }
def mok (r : MRes MatEff) : Option Bool := match r with
  | .ok _ => some true
  | .bad _ _ => some false
  | .wait => none
def part1 : QuadPart := { core := 0, wg := 1, gs := 0, pc := 0#64, t := 0, da := 0#64, db := 0#64, fa := 0#64, fb := 0#64, sa := 0#64, sb := 0#64, sp := false }
def arr1 : QuadArr := { quad := 0, qj := 0#16, count := 0#32, spid := 1, parts := [part1], since := 0 }
def copy1 (len : Nat) : CopyOp := { id := 1, cls := .cp, gs := 0, wg := 1, pc := 0x100000#64, dst := 0x101000#64, src := 0x100000#64, len, rows := 1, sp := len, dp := len, tgts := [{ ix := 0 }] }
def copies (op : CopyOp) : Bool :=
  let s := st.updCore 0 fun c => { c with cpq := [op] }
  let a := s.agentOf op.gs op.wg op.sup op.pc op.id
  (s.core 0).cpq == [op] && op.tgts.all (fun x => x.fault.isNone && x.wait.isEmpty) && !s.wgHalted op.wg && op.next == some (0, 0, min 128 op.len) && !s.spent a.part 6 0 &&
  match (s.spend a.part 6 0 (min 128 op.len)).getPieces a op.ext op.src.toNat (min 128 op.len / 16) with
  | (.ok l, s1) => (match s1.putPieces a op.ext (op.dstAt 0 0) 0 (piecesAt (op.dstAt 0 0) l) with
      | .done _ => true
      | _ => false)
  | _ => false
def collP (f : Bool) : CollPart := { rank := 0, gs := 0, wg := 1, id := 1, pc := 0x100000#64, sup := false, desc := 0x102000, src := 0x100000, dst := 0x101000, len := 16, fin := f }
def coll1 (f : Bool) (n : Nat) (parts : List (Nat × Nat)) : Coll := { comm := 1#32, att := 0#8, nth := 0, count := 4, op := 0, fmt := 0, fx := 0, npart := n, root := 0, joined := [collP f], parts }
def collS (c : Coll) : State := { gr st (fun g => { g with cl := { last := 0#32, opened := [{ id := 1, pc := 0x100000#64 }] } }) with colls := [(5, c)] }
theorem test_meets_EngineSteps : [
    (st.core 0).eng.isEmpty,
    (let s := st.updCore 0 fun c => { c with eng := [{ matq (.zero 0) none with cores := [0, 1] }] }
     [0, 1].any fun c => ((s.core c).eng.head?.map (·.id)) != some 1),
    [some [], none].all (fun o => let op := matq (.zero 0) o
      ((eng op).core 0).eng == [op] && !(eng op).wgHalted 1 && op.cores.all (fun c => ((eng op).core c).eng.head?.map (·.id) == some op.id) && op.out == o),
    mok ((eng (matq (.zero 0) none)).matCompute (matq (.zero 0) none)) == some true,
    mok (((eng (matq (.store 0 0#64) none)).updCore 0 fun c => { c with badTiles := [0] }).matCompute (matq (.store 0 0#64) none)) == some false,
    (let s := { late st (2 ^ 24) with quads := [arr1] }
     s.quads == [arr1] && arr1.parts == [part1] && decide (arr1.since + 2 ^ 24 ≤ s.clock) && decide (st.clock < arr1.since + 2 ^ 24)),
    copies (copy1 16) && (copy1 16).step.next == none, copies (copy1 256) && (copy1 256).step.next != none,
    (let c := coll1 false 1 []
     Tbl.find (collS c).colls 5 == some c && c.joined == [collP false] && c.code == 0 && decide (0 < c.chunks) && c.needs 0 && !(collS c).wgHalted 1 && !c.parts.contains (0, 0) &&
       (coll1 false 1 [(0, 0)]).parts.contains (0, 0) &&
       match (collS c).getPieces ((collS c).agentOf 0 1 false 0x100000#64 1) false 0x100000 ((min 128 16 + 15) / 16) with
       | (.ok _, s1) => s1.colls == (collS c).colls
       | _ => false),
    !(coll1 false 1 []).ready && (coll1 true 1 [(0, 0)]).ready && (coll1 true 1 []).joined.all (·.fin),
    (let c := coll1 false 1 [(0, 0)]
     let s := { collS c with colls := [(5, { c with acc := [(0, 1), (1, 2), (2, 3), (3, 4)] })] }
     c.ready && ((Tbl.find (s.collPart 5 (collP false)).colls 5).map fun c => c.joined.all (·.fin) && decide (c.npart ≤ c.joined.length)) == some true),
    ({ st with tokens := [(0, 1#32, 0#8)] } : State).tokens.any (fun t => t.2 == (1#32, 0#8)),
    !st.tokens.any (fun t => t.2 == (1#32, 0#8)) && decide (st.sec.domain.length < 2)].all id = true := by decide +kernel

def eOk {α : Type} (x : EngRes α) : Bool := match x with
  | .ok _ => true
  | _ => false
/-- Space 1 with tables: a page of the second level at address 0 (01, R20, R21). -/
def tabled (s : State) : State :=
  ((sp1 s fun x => { x with ptroot := 0x200000#64 }).wrBytes 0x200000 (wordBytes [0x202001#64])).wrBytes 0x202000 (wordBytes [7#64])
def onGrid (s : State) (f : Grid → Grid) : State := s.updGrid 1 f
def more (s : State) : State := onGrid s fun g => { g with total := 2 }
def grid1 (s : State) : Grid := (Tbl.find s.grids 1).getD placedGrid
def lg (s : State) : State := onGrid s fun g => { g with done := 1, desc := Tbl.put g.desc 9 0x101000#64, rlog := [⟨0x101000, 0x101000, 0x1000, []⟩] }
/-- A log of one entry, for the word at 0x100100. -/
def redLog : State := ((lg st).wrBytes 0x101000 (wordBytes [1#64, 1#64])).wrBytes 0x101040 (wordBytes [BitVec.ofNat 64 (2 ^ 63 + 0x100100), BitVec.ofNat 64 (7 * 2 ^ 32), 0#64, 0#64])
/-- The entry that is applied next. -/
def next1 (s : State) (pa : Nat) : State := onGrid s fun g => { g with reds := some [(pa, 7#32)] }
def applies (s : State) (c : EngRes (Nat × State) → Bool) : Bool := match (grid1 s).reds with
  | some (e :: _) => c (s.agentRmw (s.redSender 1 (grid1 s)) e.1 4 .sum e.2.toNat 0)
  | _ => false
def appliedAt (s : State) : EngRes State :=
  s.agentAll { s.redSender 1 (grid1 s) with unc := runUnc (grid1 s).rlog 0x101010, strong := false } [(0x101010, toBytes 8 (s.redEntries (grid1 s)).length)]
def subOf (s : State) : EngRes State :=
  s.csig { spid := 1, part := 0, phys := false, die := (s.redSender 1 (grid1 s)).unit - 768, cls := (grid1 s).cls, tag := 2 ^ 42 + 1 } ((grid1 s).word 0x40).toNat
def isOver (s : State) : Bool := s.gridOver 1 (grid1 s) && !s.gridWrites 1 && (s.space 1).st == .running && !(grid1 s).applied && !(grid1 s).retired && (part0 s).halt.isNone && (s.resvLeft 1).isEmpty
def aloneG (s : State) : Bool := s.grids.all (fun x => x.1 == 1) && !s.restorable 1 (grid1 s)
def part (s : State) (f : Partition → Partition) : State := { s with parts := Tbl.upd s.parts 0 f }
def halt1 (b : Bool) (l : List HaltCause) : Halt := { causes := l, since := 0, stopped := b }
def meter1 (s : State) : State := part s fun p => { p with counts := [(meterKey 2 3, 0, 9)] }
def quietUnits (s : State) : Bool := (s.cores.all fun c => c.2.eng.isEmpty) && ((s.partCores 0).all fun c => (s.core c).pubs.isEmpty) && s.colls.isEmpty

theorem test_meets_GridSteps : [
    (Tbl.find st.grids 2).isNone, aloneG st && !st.placeable placedGrid,
    [true, false].all (fun b => let s := onGrid (part (more st) fun p => { p with clusters := [] }) fun g => { g with desc := if b then Tbl.put g.desc 3 (BitVec.ofNat 64 (32 * 2 ^ 58 + 2 ^ 31)) else g.desc }
      aloneG s && s.placeable (grid1 s) && s.nextPlaces 1 (grid1 s) == none),
    (let s := more st
     aloneG s && s.placeable (grid1 s) && ((s.nextPlaces 1 (grid1 s)).map List.length) == some 1 && (s.space 1).replay.isNone && !(s.space 1).records),
    !st.gridOver 1 placedGrid,
    (let s := { lg st with poison := [0x101000 / 4] }
     isOver s && (grid1 s).reds.isNone && s.logPoisoned (grid1 s)),
    isOver redLog && (grid1 redLog).reds.isNone && !redLog.logPoisoned (grid1 redLog) && redLog.owners.isEmpty && (redLog.redEntries (grid1 redLog)).length == 1,
    (let s := next1 redLog 0x100100
     isOver s && s.paExists 0x100100 && (s.remoteOwner (s.redSender 1 (grid1 s)).unit 0x100100).isNone && s.engFree 0x100100 4 && s.owners.isEmpty && !s.poisoned 0x100100 4 &&
       (List.range 4).all (fun i => !s.barred (0x100100 + i)) && applies s fun r => match r with
         | .ok _ => true
         | _ => false),
    (let s := next1 redLog (2 ^ 42)
     isOver s && !s.paExists (2 ^ 42)),
    (let s := next1 { redLog with poison := [0x100100 / 4] } 0x100100
     isOver s && applies s fun r => match r with
       | .bad _ _ => true
       | _ => false),
    (let s := next1 { redLog with locks := [(0x100100, 0, 0)] } 0x100100
     isOver s && applies s fun r => match r with
       | .wait _ => true
       | _ => false),
    (let s := onGrid redLog fun g => { g with reds := some [] }
     isOver s && runPa (grid1 s).rlog (((grid1 s).word 0x48).toNat + 0x10) == some 0x101010 && eOk (appliedAt s)),
    (let s := onGrid st fun g => { g with done := 1, reds := some [] }
     isOver s && runPa (grid1 s).rlog (((grid1 s).word 0x48).toNat + 0x10) == none),
    [some 4, none].all (fun pk => let s := onGrid st fun g => { g with done := 1, applied := true, packet := pk }
      s.gridOver 1 (grid1 s) && !s.gridWrites 1 && !(grid1 s).retired && (s.space 1).saved.isEmpty && (grid1 s).packet == pk && eOk (subOf s)),
    (let s := onGrid { tabled st with locks := [(0x100100, 0, 0)] } fun g => { g with done := 1, applied := true, packet := none, desc := Tbl.put g.desc 8 0x100100#64 }
     s.gridOver 1 (grid1 s) && match subOf s with
       | .wait _ => true
       | _ => false),
    (let s := sp1 (onGrid (late st 5) fun g => { g with deadline := some 5 }) fun x => { x with st := .preempting }
     (s.space 1).st == .preempting && (grid1 s).deadline == some 5 && decide (5 ≤ s.clock) && gOk s fun g => ((Tbl.find s.wgs g.wg).map (·.grid)) == some 1),
    (sp1 st fun x => { x with st := .preempting, saving := .ckpt none 1#32 2 }).space 1 |>.checkpoints,
    (let s := sp1 st fun x => { x with rcd := { ul := 16, pl := 16, on := true }, valid := true, ucnt := 500 }
     !(s.space 1).checkpoints && s.ckptDue 1 && s.mayCkpt 1),
    !(st.space 1).checkpoints && !st.ckptDue 1,
    (let s := meter1 (late st 65536)
     Tbl.find (part0 s).counts (meterKey 2 3) == some (0, 9) && decide (0 + 2 ^ ((part0 s).meter 2).period ≤ s.clock) && decide ((meter1 st).clock < 0 + 2 ^ ((part0 (meter1 st)).meter 2).period)),
    (part0 st).halt.isNone,
    (let s := part st fun p => { p with halt := some (halt1 true [{ spid := 1, eng := 0, unit := 0, cause := 0x28#8, det := 0#8 }]) }
     s.liveSpaces 0 == [1] && (s.liveSpaces 0).all (fun k => s.drained k)),
    (let s := part st fun p => { p with halt := some (halt1 false []) }
     s.liveSpaces 0 == [1] && quietUnits s)].all id = true := by decide +kernel

def pw (s : State) : State := { s with sec := { s.sec with powered := true } }
def stage (s : State) (n : Byte) : State := { pw s with sec := { (pw s).sec with stage := n } }
/-- A packet of the host, whose one copy has come to its owner. -/
def hostQ (k : ReqKind) (l : List LaneAcc) : Req :=
  { rq k (acc 0x100040 4) .mesh with
    gs := noGroup, wg := 0, core := 772, spid := noSpace, sup := true, accs := l, mask := 0#32, serial := some 0#16, copies := [cpy1] }
def hostGoes (q : Req) (c : State → Bool) : Bool :=
  let s := withRq st q
  s.arrived q cpy1 && (s.ownerDecides q 0#16 cpy1).1 == .perform && q.reply.isNone && !q.gone && q.stage == .mesh && (Tbl.find s.owners (q.sector / 2)).isNone &&
    q.homesLeft.all (fun h => s.mayPerform 1 q h) && (s.spaces.all fun x => !x.2.records) && !(s.space q.spid).records && (s.space q.spid).replay.isNone && !q.logs && c s
def hostBack (e : Nat) : Req := { hostQ (.rmw hostTag (.atom .add)) [{ acc 0x100040 8 with err := e }] with stage := .performed, serial := none }
theorem test_meets_HostSteps : [
    st.portOf 0 == none && (pw st).portOf 0 == some 0, (pw st).sec.modnum == 0#8 && 0x100040 % 64 == 0,
    !(pw st).owned 772 0x100040 64 && (owned (pw st) 0).owned 772 0x100040 64, !(pw st).portBusy 0 && ({ pw st with reqs := [(1, hostQ (.put 0 none) [acc 0x100040 4])] } : State).portBusy 0,
    !(pw st).poisoned 0x100008 8,
    hostGoes (hostQ (.put 0 none) (putAccs true 0x100040 (List.replicate 20 7#8))) fun s =>
      (accCells (putAccs true 0x100040 (List.replicate 20 7#8))).all fun e => !s.barred e.1,
    hostGoes (hostQ (.rmw hostTag (.atom .add)) [acc 0x100040 8]) fun s => !s.poisoned 0x100040 8 && (List.range 8).all fun i => !s.barred (0x100040 + i),
    [0, 0x28].all fun e => (hostBack e).accs.map (·.err) == [e] && (hostBack e).serial.isNone && (withRq st (hostBack e)).invs.isEmpty,
    !(pw st).sec.ports.contains 1 && ({ pw st with sec := { (pw st).sec with ports := [1] } } : State).sec.ports.contains 1, (pw st).sec.powered && !st.sec.powered,
    [1#8, 2#8, 3#8, 4#8, 5#8, 0xF1#8].all fun n => (stage st n).sec.stage == n && (stage st n).sec.powered].all id = true := by decide +kernel

def pend1 (s : State) (u : HwUnit) : State := s.updDie 0 fun d => { d with pending := [(u, .early)] }
def evac (b : Bool) (p c : Nat) : Evac := { slice := b, logical := 0, src := 0, dst := 1, why := .early, ptr := p, count := c }
def evacs (s : State) (e : Evac) : State := s.updDie 0 fun d => { d with evacs := [e] }
def nextLine (s : State) (e : Evac) : Option Nat := ((List.range 256).map (· + e.ptr)).find? (fun n => decide (n < dieLines) && (s.die 0).chanOf 0 n == e.src)
theorem test_meets_RepairSteps : [
    !st.unitLive (.lane 0 36) && !st.idleWindow (.lane 0 0), (pw st).unitLive (.lane 4 0) && (pw st).idleWindow (.lane 4 0) && (st.die (hwDie (.lane 4 0))).pending.isEmpty,
    (pw st).unitLive (.slice 0 0) && (pw st).checks.isEmpty && st.flagDue (.slice 0 0) && !st.flagDue (.lane 0 0),
    (let s := pend1 st (.lane 0 3)
     s.retiring 0 == some (.lane 0 3, .early) && decide ((s.lb 0).busy ≤ s.clock) && ((s.updLb 0 fun b => { b with lost := insertBy id 3 b.lost }).lb 0).width != 0),
    (let s := pend1 st (.regBank 0 3)
     let s1 := s.updLb 0 fun b => b.loseBank 3
     s.retiring 0 == some (.regBank 0 3, .early) && decide (((s.lbGroups 0).map fun gs => ((Tbl.find s.groups gs).map (·.n)).getD 0).sum ≤ (s1.lb 0).capacity)),
    (let s := pend1 st (.lsBank 0 3)
     s.retiring 0 == some (.lsBank 0 3, .early) && decide (32 ≤ ((s.updCore 0 fun k => { k with lostBanks := 3 :: k.lostBanks }).core 0).banks)),
    [evac true 5 0, evac true 1024 0, evac false 0 0].all fun e => ((evacs st e).die 0).evacs == [e],
    (let e := evac false (dieLines - 1) 0
     let s := (evacs st { e with src := 999 })
     nextLine s { e with src := 999 } == none && decide (dieLines ≤ e.ptr + 256) && nextLine (evacs st { e with src := 999, ptr := 0 }) { e with src := 999, ptr := 0 } == none),
    (let e := evac false 0 7
     let room := (List.range 128).filter (fun c => !((evacs st e).die 0).lostChans.contains c && decide (Tbl.get 0 ((evacs st e).die 0).reserve c < reserveLines))
     (nextLine (evacs st e) e).isSome && room[e.count % max 1 room.length]? == some 7),
    (pw st).ownMem 0x100000 && decide (homeDie 0x100000 ≤ 3)].all id = true := by decide +kernel

/-- Queue 5, a management queue of partition 0 whose ring is at 0x110000, in a lane of the first Headbox; a packet of it. -/
def q5 : Qcb := { base := 0x110000, lsz := 12, spid := 1, part := 0, st := .active, mgmt := true, hb := true, db := 1, cached := true }
def header (t n x : Nat) : W64 := BitVec.ofNat 64 (t * 2 ^ 40 + n * 2 ^ 32 + x)
def ring (l : List W64) : State := ({ st with queues := [(5, q5)] } : State).wrBytes 0x110000 (wordBytes l)
def takes (s : State) (k : State → Qcb → W64 → Bool) : Bool := match Tbl.find s.queues 5 with
  | some c => s.queueReady 5 c && s.queueFirst 5 c && c.cached && (match s.hbAddr c.hbFor false (c.unit c.rd) with
      | .ok pa => k s c (s.rd8 pa)
      | .error _ => false)
  | none => false
def unitWords (s : State) (c : Qcb) (h : W64) : Option (List W64) := match s.unitsAt c (hdrLen h) with
  | .ok us => some (us.flatMap fun pa => (List.range 8).map fun i => s.rd8 (pa + 8 * i))
  | .error _ => none
/-- A packet of the words `l` after its header, in queue 5; it may start. -/
def pk5 (t : Nat) (l : List Nat) : Packet := { queue := 5, idx := 0, typ := t, bar := false, words := header t 1 0 :: l.map (BitVec.ofNat 64) }
def served (p : Packet) : State := { st with queues := [(5, q5)], packets := [(1, p)] }
def starts (s : State) (p : Packet) : Bool := Tbl.find s.packets 1 == some p && Tbl.find s.queues 5 == some q5 && s.mayStart p q5 && !s.mustWait p q5
def isBad {α : Type} (x : EngRes α) : Bool := match x with
  | .bad _ _ => true
  | _ => false
def isWait {α : Type} (x : EngRes α) : Bool := match x with
  | .wait _ => true
  | _ => false
def isOk {α : Type} (x : Except Nat α) : Bool := match x with
  | .ok _ => true
  | .error _ => false
def launch6 (g : Nat) : Packet := pk5 6 [1 + 2 ^ 32, 1 + 32 * 2 ^ 17 + 2 ^ 28 + 2 ^ 39, 32 * 2 ^ 58 + g, 0x100000, 0, 0]
def child6 (g : Nat) : Grid := { pkGrid (launch6 g).words with part := 0, spid := 1, sgen := 0#8, packet := some 1 }
def with_ (p : Packet) (st : PSt) : Packet := { p with st }

theorem test_meets_QueueSteps : [
    st.queues.isEmpty, (served (pk5 1 [])).queues.find? (fun q => q.2.hb && q.2.hwq == 0 && q.2.st == .active) == some (5, q5),
    (let s := ring [0#64]
     takes s fun _ c h => hdrTag h == c.rd % 2 ^ 16 && hdrType h == 0),
    (let s := ({ st with queues := [(5, { q5 with base := 0x2000000 })] } : State)
     match Tbl.find s.queues 5 with
     | some c => s.queueReady 5 c && s.queueFirst 5 c && !isOk (s.hbAddr c.hbFor false (c.unit c.rd))
     | none => false),
    takes (ring [header 1 0 0]) fun _ c h => hdrTag h == c.rd % 2 ^ 16 && hdrType h != 0 && headerErr c h == some 1,
    takes (ring [header 1 1 1]) fun s c h => (headerErr c h).isNone && ((unitWords s c h).bind bodyErr) == some 3,
    takes (ring [header 1 1 0]) fun s c h => (headerErr c h).isNone && ((unitWords s c h).map bodyErr) == some none,
    !(served (pk5 1 [])).queueReady 5 { q5 with rd := 1 }, q5.st == .active, ({ q5 with reread := some 0 }).reread == some 0 && decide (0 + 1024 ≤ (late st 1024).clock),
    [1, 2, 3, 4, 5, 9].all (fun t => starts (served (pk5 t [])) (pk5 t [])),
    [1, 9].all (fun t => !(served (with_ (pk5 t []) .parked)).mayStart { pk5 t [] with st := .parked, since := 1 } q5),
    (let p := { pk5 1 [] with idx := 1, bar := true }
     let s := { served p with packets := [(1, p), (2, { pk5 1 [] with st := .started })] }
     s.mayStart p q5 && s.mustWait p q5),
    (let s := served (pk5 3 [0x100100, 0, 0])
     let w := owned { s with locks := [(0x100100, 0, 0)] } 0
     eOk (s.sigRead q5.hbFor 0x100100) && isBad (s.sigRead q5.hbFor 0x2000000) && isWait (w.sigRead q5.hbFor 0x100040) &&
       eOk (s.signalsOf q5.hbFor [0x100100, 0x100108]) && isBad (s.signalsOf q5.hbFor [0x2000000]) && isWait (w.signalsOf q5.hbFor [0x100040]) &&
       eOk (s.sigUpdate (q5.hbFor 1) 0x100100 .add 1) && isBad (s.sigUpdate (q5.hbFor 1) 0x2000000 .exch 1) && isWait (w.sigUpdate (q5.hbFor 1) 0x100100 .add 1) && waitHolds 0 0 0 && !waitHolds 1 0 0),
    starts (served (launch6 0)) (launch6 0) && ((served (launch6 0)).refusal (child6 0)).isNone && carried ((served (launch6 0)).beginInterval 1 0 1#32 (launch6 0).words) (child6 0),
    starts (served (launch6 (2 * 2 ^ 37))) (launch6 (2 * 2 ^ 37)) && ((served (launch6 (2 * 2 ^ 37))).refusal (child6 (2 * 2 ^ 37))) == some 3,
    starts (served (pk5 7 [])) (pk5 7 []), starts (served (pk5 8 [])) (pk5 8 []) && (served (pk5 8 [])).mayCkpt 1,
    (let p := with_ (pk5 7 [0x100000, 0x100200, 64]) .started
     let s := served p
     (part0 s).halt.isNone && decide (0 < bits (pkWord p.words 0x18) 39 0 - p.pos) && isOk (s.hbAddr q5.hbFor false 0x100000) && isOk (s.hbAddr q5.hbFor true 0x100200) &&
       !s.poisoned 0x100000 64 && !s.owned (headboxUnit q5.die) 0x100000 64 && copyPiece 0x100000 0x100200 64 == 64 && !s.spent 0 6 (headboxUnit q5.die) && !s.copyBehind p &&
       eOk ((s.readsAt 1 (.mem 0x100000)).hbPut (q5.hbFor 1) 0x100200 (s.rdBytes 0x100000 64)) &&
       isWait ((({ s with locks := [(0x100200, 0, 0)] } : State).readsAt 1 (.mem 0x100000)).hbPut (q5.hbFor 1) 0x100200 (s.rdBytes 0x100000 64)) && ({ s with poison := [0x100000 / 4] } : State).poisoned 0x100000 64),
    bits (pkWord (with_ (pk5 7 []) .started).words 0x18) 39 0 == 0,
    (let s := (served (with_ (pk5 8 []) .started)).finishSave 1
     (s.space 1).st == .running && (s.space 1).saving == .none && (s.space 1).saved.isEmpty),
    (let s := ((served (with_ (pk5 1 []) .finished)).dropPk 1).updQcb 5 fun c => { c with done := c.done + 1 }
     eOk (s.csig (q5.hbFor 1) 0) && isBad (s.csig (q5.hbFor 1) 0x2000000) && isWait (({ s with locks := [(0x100100, 0, 0)] } : State).csig (q5.hbFor 1) 0x100100) && ((Tbl.find s.queues 5).map (·.st)) == some .active),
    (let p := { pk5 3 [] with st := .parked, since := 1 }
     p.st == .parked && p.since != 0 && decide ((st.clock + 1 < p.since + 2048)) && decide (p.since + 2048 ≤ (late st 2048).clock + 1))].all id = true := by decide +kernel

def mg (cmd : Nat) (l : List Nat) : Packet := pk5 0x0F (cmd :: l)
def mgS (s : State) (p : Packet) : State := { s with queues := [(5, q5)], packets := [(1, p)], sec := { s.sec with qtab := some (0x200000, 10) } }
def mgOk (s : State) (p : Packet) (c : State → Bool) : Bool := let u := mgS s p
  Tbl.find u.packets 1 == some p && !p.safe && p.typ == 0x0F && u.mayStart p q5 && !u.mustWait p q5 && c u
def on6 (s : State) (q : Qcb) : State := { s with queues := [(5, q5), (6, q)] }
def own6 : Qcb := { base := 0x120000, lsz := 12, spid := 1, part := 0, st := .halted }
def savedSt : State := sp1 { (st.updWg 1 fun w => { w with resident := false }) with groups := [] } fun x =>
  { x with st := .saved, log := 0x300000, logSize := 4096, saved := [{ wg := 1, groups := [(0, g0 st)] }] }
def resumes (s : State) (r : Bool) : Bool :=
  let u := s.resumeNow 1 1 r
  (s.resumeTest 0 1).isNone && u.packets == s.packets && u.queues == s.queues && (u.space 1).saved != [] && (u.space 1).st == .running
def stopP : Packet := mg 0x10 [1, 0, 0, 0]
def replays (s : State) : Bool :=
  let p := stopP
  let r : Replay := { grid := 0, wgidx := 0, gidx := 0, target := 0#32, free := false, upto := (s.space 1).pcnt, ends := ((s.space 1).replay.map (·.ends)).getD (s.endsOf 1) }
  let s2 := (s.applyUndo 1).updSpace 1 fun p => { p with st := .running, saving := .none, resumePk := none, restart := true, replay := some r }
  let u := if (s.space 1).start = 0 then s2.relaunch 1 else ((s.space 1).begun.map (s2.restoreBase 1)).getD s2
  Tbl.find u.packets 1 == some p && Tbl.find u.queues 5 == some q5 && (u.space 1).st == .running && ((u.space 1).replay.map (·.void)) == some false

theorem test_meets_ManagementPackets : [
    mgOk st (mg 1 [6, 12, 2 ^ 56]) fun s => s.sec.qtab == some (0x200000, 10) && (Tbl.find s.queues 6).isNone && ringOk 12#64 && s.holdsSpace 0 1 && !(s.space 1).torn && (s.space 1).gen == 0#8 && !s.holdsSpace 0 2,
    mgOk st (mg 2 [6, 7]) fun s => (on6 s own6).ownQueue 0 6 == some own6 && !own6.hb && !(on6 s own6).hwqBound 7 && (on6 s own6).hwqOk 0 7 && (s.ownQueue 0 6).isNone && s.hwqBound 0,
    mgOk st (mg 3 [6]) fun _ => true,
    mgOk st (mg 4 [6, 9]) fun s => decide ((s.rd8 (s.qcbAt 6)).toNat ≤ 9) && decide (9 < ((s.wrBytes (s.qcbAt 6) (wordBytes [10#64])).rd8 (s.qcbAt 6)).toNat),
    mgOk st (mg 5 []) fun _ => true,
    mgOk st (mg 6 [2, 0x400000, 0x500000, 65536, 0]) fun s => !(s.space 2).inUse && s.mgmtMem q5 0x400000 8192 && s.mgmtMem q5 0x500000 65536 && (s.space 1).inUse,
    mgOk st (mg 7 [1]) fun s => s.residentIn 1 && !({ s with wgs := [] } : State).residentIn 1 && s.holdsSpace 0 1 && !(s.space 1).torn,
    mgOk st (mg 8 [2, 0x300000, 4096, 1]) fun s => s.holdsSpace 0 1 && s.mgmtMem q5 0x300000 4096,
    mgOk st (mg 9 [0x10001]) fun _ => true, mgOk st (mg 0x0A [2, 16, 100]) fun _ => true,
    mgOk (sp1 st fun x => { x with size := 2 ^ 20 }) (mg 0x0B [1]) fun s => !(s.space 1).checkpoints && (s.space 1).saved.isEmpty && s.holdsSpace 0 1 && (s.space 1).st == .running && decide (s.needed 1 ≤ (s.space 1).limit),
    [0, 1].all (fun r => mgOk savedSt (mg 0x0C [1, r]) fun s => s.holdsSpace 0 1 && (s.space 1).st == .saved && (s.space 1).restart && (s.space 1).log != 0 && resumes s (r == 1)),
    mgOk (part savedSt fun p => { p with clusters := [] }) (mg 0x0C [1, 0]) fun s => s.resumeTest 0 1 == some 4,
    mgOk (withRq st (rq .store (acc 0x100000 4) .mesh)) (mg 0x0D [1]) fun s => s.holdsSpace 0 1 && (s.space 1).st != .released && !s.auditFull 80 && (s.releaseStop 1).packets == s.packets && (s.releaseStop 1).queues == s.queues &&
      !({ s.releaseStop 1 with packets := [(1, { mg 0x0D [1] with st := .started })] } : State).drained 1,
    mgOk st (mg 0x0F [1, 0x600000, 2 ^ 20, 16 + 16 * 2 ^ 8 + 2 ^ 32]) fun s => (recordingOf (mg 0x0F [1, 0x600000, 2 ^ 20, 16 + 16 * 2 ^ 8 + 2 ^ 32])).isSome && s.mgmtMem q5 0x600000 (2 ^ 20),
    (recordingOf (mg 0x0F [1, 0x600000, 2 ^ 20, 0])).isNone,
    mgOk st stopP fun s => (s.space 1).st != .saved,
    mgOk (sp1 savedSt fun x => { x with valid := true, start := 2, begun := some { saved := [], grids := [(1, placedGrid)], wgs := st.wgs, gangs := st.gangs } }) stopP replays,
    mgOk st (mg 0x11 [0x700000]) fun s => s.ownMem 0x700000 && s.paExists 0x700000 && (part0 s).holds 0x700000 && (part0 s).holds (0x700000 + 256 * ((s.partCores 0).length * 4) - 1) && !(part0 s).holds (2 ^ 24),
    mgOk st (mg 0x12 [1, 0x100000, 0]) fun s => s.holdsSpace 0 1,
    (let s := mgS savedSt (with_ (mg 0x0C [1, 0]) .started)
     let u := sp1 s fun x => { x with st := .running, resumePk := some 1 }
     (u.space 1).resumePk == some 1 && (u.space 1).st == .running),
    (savedSt.space 1).st == .saved,
    (let s := sp1 st fun x => { x with replay := some { grid := 0, wgidx := 0, gidx := 0, target := 0#32, free := false, upto := 0 } }
     (s.space 1).st == .running && ((s.space 1).replay.map (·.void)) == some false)].all id = true := by decide +kernel

def sf (cmd : Nat) (l : List Nat) : Packet := { mg cmd l with safe := true }
def sfS (s : State) (p : Packet) : State := { stage s 4#8 with packets := [(1, p)] }
/-- A module that serves: clusters 0 and 1, no partition; its queue table at 0x200000; the list of one range at 0x300000. -/
def fresh0 : State := ({ stage State.reset 4#8 with sec := { (stage State.reset 4#8).sec with qtab := some (0x200000, 10), inService := [0, 1], dieup := 0xF#4 } } : State).wrBytes 0x300000 (wordBytes [0x1000000#64, 0x100000#64])
def newPart : Packet := sf 0x20 [0, 3, 0, 0, 0, 0, 0x300000, 1, 6, 0x1000000 + 12, 9]
def injPk (act : Nat) : Packet := sf 0x0E [3 * 2 ^ 48 + 0xFF * 2 ^ 40 + act * 2 ^ 38, 1, 0]
theorem test_meets_SafePackets : [
    (let s := { fresh0 with packets := [(1, newPart)] }
     let rs := [(0x1000000, 0x100000)]
     s.rangeList 0x300000 1 == some rs && s.qtabRange == some (0x200000, 65536) && decide (4 ≤ s.sec.stage.toNat) && !s.auditFull 80 && s.parts.isEmpty && maskClusters 3#64 0#64 0#64 == [0, 1] &&
       [0, 1].all (fun k => s.sec.inService.contains k) && disjoint rs && rs.all (fun r => !overlaps r (0x200000, 65536)) && (Tbl.find s.queues 6).isNone && !s.hwqBound 9 && ringOk (newPart.op 0x58) &&
       s.ringPlace rs 0x1000000 12 && (newPart.op 0x50).toNat == 6 && (newPart.op 0x60).toNat == 9 && newPart.st == .taken && newPart.safe && newPart.cmd == 0x20 && s.sec.stage != 0xF1#8),
    (sfS st (sf 0x21 [0])).parts.length == 1 && !(sfS st (sf 0x21 [0])).auditFull 80 &&
      ((sp1 (sfS st (sf 0x21 [0])) fun x => { x with st := .released }).spaces.all fun e => e.2.st == .released) && st.spaces.any (fun e => e.2.part == 0 && e.2.inUse && e.2.st != .released),
    (let s := fresh0.wrBytes 0x300000 (wordBytes [5#64, 0#64])
     s.paExists 0x300000 && s.paExists (0x300000 + 15) && (s.rd8 0x300000).toNat == 5),
    (sfS st (sf 0x23 [0x40])).sec.stage == 4#8 && (0x40 % 64 == 0) && decide (0x40 < 2 ^ 51),
    (let s := (stage State.reset 4#8).audit 6 []
     (s.sec.audit.filter (fun r => decide (0 ≤ r.seq) && decide (r.seq < 0 + 1))).length == 1),
    (let s := { stage State.reset 4#8 with sec := { (stage State.reset 4#8).sec with audit := [{ seq := 3, typ := 5, len := 80, flag := false, prev := 0#384, body := [] }] } }
     s.sec.audit.any (fun r => r.seq == 3 && r.typ == 5) && s.sec.audit.all (fun r => r.seq != 4)),
    (let s := { fresh0 with sec := { fresh0.sec with qtab := none } }
     s.sec.qtab.isNone && s.parts.isEmpty && s.ownMem 0x200000 && decide (0x200000 % 2 ^ 43 + 64 * 2 ^ 10 ≤ 576 * 2 ^ 30) && s.sec.dieup.getLsbD (homeDie 0x200000) && s.sec.dieup.getLsbD (homeDie (0x200000 + 64 * 2 ^ 10 - 1))),
    (injectorOf (injPk 0)).isSome && (injectorOf (injPk 2)).isSome && (injectorOf (sf 0x0E [0, 0, 0])).isNone,
    !st.safeReady, st.sec.sqreread.isNone, (pw st).sec.powered && !(pw st).sec.sqhalt && !st.sec.powered,
    (stage st 0xF1#8).sec.stage == 0xF1#8].all id = true := by decide +kernel

theorem test_meets_Rounding :
    (fmtOf .f32).val ((fmtOf .f32).round .rne .nan) = .nan ∧ (fmtOf .f32).val ((fmtOf .f32).conv .rne .nan) = .nan ∧ (fmtOf .f32).val 1 ≠ .nan ∧ 1 < 2 * (fmtOf .f32).top ∧
    (fmtOf .f32).maxFin < (fmtOf .f32).encMag .rne false 1 200 := by decide +kernel

theorem test_meets_RoundTrip : (Instr.nop hdr).wellFormed = true ∧ decode 0x148E000000000000#64 = some (.nop hdr) := by decide +kernel

theorem test_meets_EveryStepGoesOn : ∀ i, Move.event i ∈ st.agenda → i.info = none := by
  intro i hi
  have e : st.agenda = [.issue 0 false] := rfl
  rw [e] at hi
  simp at hi

end Sys2Proof.Tests
end

section
/-! SUPPORT. Memory keeps its canonical form (01, R19): for every function of the model that answers with a state, one lemma that
says so of that state, from the writes of bytes up to the step. Each proof follows the function's own branches; a term such as
`.putDbg (.updSpace (.wrWords h))` reads as the updates that the branch makes, the last one first. -/

namespace Sys2Proof.Proofs
open Sys2Proof.Machine Sys2Proof.Laws

/-- The state in which an answer ends, where it ends in one, has its memory in canonical form; `f` gives that state. -/
def Ends {α : Type} (f : α → Option State) (a : α) : Prop := ∀ s ∈ f a, Memory.wf s.mem = true
/-- Memory has its canonical form. -/
abbrev Formed (s : State) : Prop := Ends some s

/-- The state that a word's own effect leaves. -/
def effState : Eff → Option State
  | .done s | .moved s _ | .trap _ s | .wait _ s | .again s => some s
/-- The state in which an agent's access ends; `f` gives that of its value. -/
def resState {α : Type} (f : α → Option State) : EngRes α → Option State
  | .ok x => f x
  | .wait s => some s
  | .bad _ _ => none
/-- The state that the delivery of a chunk leaves. -/
def putState : Put → Option State
  | .done s | .later _ s | .fail _ _ _ s => some s
/-- The state that a launch leaves, unless it is refused. -/
def launchState : Launched → Option State
  | .refused _ => none
  | .failed _ _ s | .ok _ s => some s
/-- The state that serving a packet leaves. -/
def servedState : Served → Option State
  | .done s | .go s | .parks s | .halts _ _ s | .stay s => some s
/-- The state that a fetch leaves, where it brings a word. -/
def fetchState : Fetch → Option State
  | .word _ s => some s
  | _ => none
/-- The next state, where there is one. -/
def outState : Out → Option State
  | .next s => some s
  | _ => none

/-- The state of a pair. -/
def sndState {α : Type} : α × State → Option State
  | (_, s) => some s
def fstState {α : Type} : State × α → Option State
  | (s, _) => some s

theorem formed_iff {s : State} : Formed s ↔ Memory.wf s.mem = true :=
  ⟨fun h => h s rfl, fun h t e => by cases e; exact h⟩
theorem Ends.of_mem {s t : State} (e : t.mem = s.mem) (h : Formed s) : Formed t :=
  formed_iff.2 (e ▸ formed_iff.1 h)

/-- A state in which every field but memory may be another. -/
theorem Ends.same {x : State}
    {agenda} {turn} {free} {cur} {clock} {fresh} {wms} {recs} {invs} {poison} {strong} {l2} {locks} {holds} {owners} {groups}
    {tents} {dir} {wgs} {gangs} {grids} {spaces} {parts} {queues} {packets} {rr} {lbs} {cores} {dies} {reqs} {rqers} {rcache}
    {upds} {colls} {curAtt} {tokens} {injs} {quads} {reach} {checks} {passes} {hostOut} {sec}
    (h : Formed x) : Formed
      { agenda, turn, free, cur, clock, fresh, mem := x.mem, wms, recs, invs, poison, strong, l2, locks, holds, owners, groups,
        tents, dir, wgs, gangs, grids, spaces, parts, queues, packets, rr, lbs, cores, dies, reqs, rqers, rcache, upds, colls,
        curAtt, tokens, injs, quads, reach, checks, passes, hostOut, sec } :=
  .of_mem (s := x) rfl h

section
variable {α β : Type} {f : α → Option State} {g : β → Option State}

theorem Ends.of_state {a : α} {s : State} (e : f a = some s) (h : Formed s) : Ends f a := fun t ht => h t (e ▸ ht)
theorem Ends.of_none {a : α} (e : f a = none) : Ends f a := fun t ht => by rw [e] at ht; cases ht
theorem Ends.of_eq {a b : α} {s : State} (h : Ends f a) (e : a = b) (r : f b = some s) : Formed s := by
  subst e; exact formed_iff.2 (h s r)
theorem Ends.snd {x : β × State} (h : Ends sndState x) : Formed x.2 := h
theorem Ends.fst {x : State × β} (h : Ends fstState x) : Formed x.1 := h
theorem Ends.pair {b : β} {s : State} (h : Formed s) : Ends sndState (b, s) := h
theorem Ends.pair' {b : β} {s : State} (h : Formed s) : Ends fstState (s, b) := h
theorem Ends.ok {a : α} (h : Ends f a) : Ends (resState f) (.ok a) := h
theorem Ends.ite {c : Prop} [Decidable c] {a b : α} (h : Ends f a) (k : Ends f b) : Ends f (if c then a else b) := by
  split <;> assumption
theorem Ends.foldl {r : α → β → α} {l : List β} {a : α} (hr : ∀ a x, Ends f a → Ends f (r a x)) (h : Ends f a) :
    Ends f (l.foldl r a) :=
  List.foldlRecOn (motive := Ends f) l r h fun t ht x _ => hr t x ht
theorem Ends.getD {o : Option State} {s : State} (k : Ends id o) (h : Formed s) : Formed (o.getD s) := by
  cases o with
  | none => exact h
  | some t => exact k
theorem Ends.bind {o : Option State} {r : State → Option State} (hr : ∀ s, Formed s → Ends id (r s)) (h : Ends id o) :
    Ends id (o.bind r) := by
  cases o with
  | none => exact .of_none rfl
  | some t => exact hr t h
theorem Ends.bind_any {o : Option α} {r : α → Option β} {k : Option β → Option State} (hr : ∀ x, Ends k (r x))
    (e : k none = none) : Ends k (o.bind r) := by
  cases o with
  | none => exact .of_none e
  | some t => exact hr t
theorem Ends.map_any {o : Option α} {r : α → State} (hr : ∀ x, Formed (r x)) : Ends id (o.map r) := by
  cases o with
  | none => exact .of_none rfl
  | some t => exact hr t
theorem Ends.orElse {o : Option State} {r : Unit → Option State} (h : Ends id o) (k : ∀ u, Ends id (r u)) : Ends id (o.orElse r) := by
  cases o with
  | none => exact k ()
  | some t => exact h
end

/-- From a state in canonical form every candidate of a list ends in one. -/
def AllEnd (l : List Cand) : Prop := ∀ c ∈ l, ∀ {s : State}, Formed s → Ends outState (c s)

theorem AllEnd.nil : AllEnd [] := by simp [AllEnd]
theorem AllEnd.cons {c : Cand} {l : List Cand} (h : ∀ {s : State}, Formed s → Ends outState (c s)) (k : AllEnd l) :
    AllEnd (c :: l) := by
  intro x hx
  rcases List.mem_cons.mp hx with rfl | hx
  · exact h
  · exact k x hx
theorem AllEnd.append {l m : List Cand} (h : AllEnd l) (k : AllEnd m) : AllEnd (l ++ m) := by
  intro c hc
  rcases List.mem_append.mp hc with hc | hc
  · exact h c hc
  · exact k c hc
theorem AllEnd.ite {p : Prop} [Decidable p] {l m : List Cand} (h : AllEnd l) (k : AllEnd m) : AllEnd (if p then l else m) := by
  split <;> assumption
theorem AllEnd.map {α : Type} {l : List α} {f : α → Cand} (h : ∀ x {s : State}, Formed s → Ends outState (f x s)) :
    AllEnd (l.map f) := by
  intro c hc
  obtain ⟨x, -, rfl⟩ := List.mem_map.mp hc
  exact h x
theorem AllEnd.flatMap {α : Type} {l : List α} {f : α → List Cand} (h : ∀ x, AllEnd (f x)) : AllEnd (l.flatMap f) := by
  intro c hc
  obtain ⟨x, -, hx⟩ := List.mem_flatMap.mp hc
  exact h x c hx
theorem AllEnd.filterMap {α : Type} {l : List α} {f : α → Option Cand}
    (h : ∀ x c, f x = some c → ∀ {s : State}, Formed s → Ends outState (c s)) :
    AllEnd (l.filterMap f) := by
  intro c hc
  obtain ⟨x, -, e⟩ := List.mem_filterMap.mp hc
  exact h x c e

/-! ### Check -/

theorem Ends.wantAdvance {s : State} {gs : Nat} {why : Stall} (h : Formed s) : Formed (s.wantAdvance gs why) :=
  .same h
theorem Ends.tickRc {s : State} {gs : Nat} (h : Formed s) : Formed (s.tickRc gs) := by
  unfold State.tickRc
  split
  · exact h
  · exact .ite (.wantAdvance (.same h)) (.same h)
theorem Ends.passGen {s : State} {gs : Nat} {k : Gen} (h : Formed s) : Formed (s.passGen gs k) := by
  unfold State.passGen
  split
  · exact h
  · exact .ite (.wantAdvance (.same h)) (.same h)
theorem Ends.advance {s : State} {gs : Nat} (h : Formed s) : Formed (s.advance gs) :=
  .same h
theorem Ends.enterSlot {s : State} {gs : Nat} (h : Formed s) : Formed (s.enterSlot gs) :=
  .same (.advance h)
theorem Ends.setLsWm {s : State} {core seg : Nat} {x : BitVec 16} (h : Formed s) : Formed (s.setLsWm core seg x) :=
  .same h
theorem Ends.useRec {s : State} {sector : Nat} (h : Formed s) : Formed (s.useRec sector) :=
  .same h
theorem Ends.putRec {s : State} {sector : Nat} {setOf : Nat → Nat} {r : RelRec} (h : Formed s) : Formed (s.putRec sector setOf r) :=
  .same h

/-! ### Ops -/

theorem Ends.draw {s : State} (h : Formed s) : Ends sndState s.draw :=
  .pair (.same h)
theorem Ends.updSpace {s : State} {spid : Nat} {f : Space → Space} (h : Formed s) : Formed (s.updSpace spid f) :=
  .same h
theorem Ends.updGroup {s : State} {gs : Nat} {f : Machine.Group → Machine.Group} (h : Formed s) : Formed (s.updGroup gs f) :=
  .same h
theorem Ends.updWg {s : State} {w : Nat} {f : Workgroup → Workgroup} (h : Formed s) : Formed (s.updWg w f) :=
  .same h
theorem Ends.updGrid {s : State} {w : Nat} {f : Grid → Grid} (h : Formed s) : Formed (s.updGrid w f) :=
  .same h
theorem Ends.updCore {s : State} {c : Nat} {f : Core → Core} (h : Formed s) : Formed (s.updCore c f) :=
  .same h
theorem Ends.updLb {s : State} {k : Nat} {f : LaneBlock → LaneBlock} (h : Formed s) : Formed (s.updLb k f) :=
  .same h
theorem Ends.updDie {s : State} {d : Nat} {f : Die → Die} (h : Formed s) : Formed (s.updDie d f) :=
  .same h
theorem Ends.updPart {s : State} {p : Nat} {f : Machine.Partition → Machine.Partition} (h : Formed s) : Formed (s.updPart p f) :=
  .same h
theorem Ends.updReq {s : State} {r : Nat} {f : Req → Req} (h : Formed s) : Formed (s.updReq r f) :=
  .same h
theorem Ends.newId {s : State} (h : Formed s) : Ends sndState s.newId :=
  .pair (.same h)
theorem Ends.push {s : State} {gs q : Nat} {m : Mask} {vals : List W32} (h : Formed s) : Formed (s.push gs q m vals) := by
  unfold State.push
  dsimp only
  split
  · exact h
  · exact .updWg (.tickRc h)
theorem Ends.nest {s : State} {spid wg kind cause : Nat} (h : Formed s) : Formed (s.nest spid wg kind cause) :=
  .updPart h
theorem Ends.haltBy {s : State} {spid eng unit cause det : Nat} {addr info : W64} (h : Formed s) :
    Formed (s.haltBy spid eng unit cause det addr info) :=
  .ite h (.ite (.nest h) (.updPart h))
theorem Ends.endWalk {s : State} {k res : Nat} (h : Formed s) : Formed (s.endWalk k res) := by
  unfold State.endWalk
  split
  · exact h
  · exact .same (.updLb (.foldl (fun _ _ h1 => .ite (.updGroup h1) (.updGroup h1)) h))
theorem Ends.faultTents {s : State} {gs : Nat} {a : At} {rolled : Bool} (h : Formed s) : Formed (s.faultTents gs a rolled) :=
  .ite (.same (.foldl (fun _ _ h1 => .updReq h1) (.same h))) (.same (.same h))
theorem Ends.raise {s : State} {gs : Nat} {a : At} {c : Cause} (h : Formed s) : Formed (s.raise gs a c) := by
  unfold State.raise
  refine .ite (.endWalk h) ?_
  split
  · exact h
  · refine .ite h ?_
    refine .ite (.nest h) ?_
    split
    · exact .haltBy (.same h)
    · exact .ite (.faultTents (.same h)) (.haltBy (.faultTents (.same h)))
theorem memPut_wf {m : Memory} (h : Memory.wf m = true) (pa : Nat) (l : List Byte) : Memory.wf (memPut m pa l) = true :=
  List.foldlRecOn (motive := fun r : Memory × Nat => Memory.wf r.1 = true) l _ h fun _ hr _ _ => canon_set _ _ _ _ hr

/-- Bytes set one after another, each at its own key. -/
theorem setEach_wf {α : Type} {key : α → Nat} {val : α → Byte} {m : Memory} (h : Memory.wf m = true) (l : List α) :
    Memory.wf (l.foldl (fun m c => Tbl.set 0#8 m (key c) (val c)) m) = true :=
  List.foldlRecOn (motive := fun m : Memory => Memory.wf m = true) l _ h fun _ hm _ _ => canon_set _ _ _ _ hm

/-! ### Record -/

theorem Ends.wrBytes {s : State} {pa : Nat} {l : List Byte} (h : Formed s) : Formed (s.wrBytes pa l) :=
  formed_iff.2 (memPut_wf (formed_iff.1 h) pa l)
theorem Ends.logBytes {s : State} {pa : Nat} {l : List Byte} (h : Formed s) : Formed (s.logBytes pa l) :=
  .same (.wrBytes h)
theorem Ends.wrWords {s : State} {pa : Nat} {l : List W64} (h : Formed s) : Formed (s.wrWords pa l) :=
  .logBytes h
theorem Ends.putDbg {s : State} {spid : Nat} (h : Formed s) : Formed (s.putDbg spid) :=
  .wrWords h
theorem Ends.overflow {s : State} {spid : Nat} (h : Formed s) : Formed (s.overflow spid) :=
  .putDbg (.updSpace h)
theorem Ends.notReplayable {s : State} {spid : Nat} (h : Formed s) : Formed (s.notReplayable spid) :=
  .ite (.putDbg (.updSpace h)) h
theorem Ends.readsAt {s : State} {spid : Nat} {x2 : Loc} (h : Formed s) : Formed (s.readsAt spid x2) := by
  unfold State.readsAt
  split
  · exact .ite h (.notReplayable h)
  · exact h
theorem Ends.undo {s : State} {spid line : Nat} (h : Formed s) : Formed (s.undo spid line) :=
  .ite h (.ite (.overflow h) (.putDbg (.updSpace (.logBytes (.wrWords h)))))
theorem Ends.logEvent {s : State} {spid kind lane : Nat} {name : Nat × Nat × Nat} {rwc : W32} {key : Nat} {value : W64}
    (h : Formed s) :
    Formed (s.logEvent spid kind lane name rwc key value) :=
  .ite h (.ite (.overflow h) (.putDbg (.updSpace (.wrWords h))))
theorem Ends.logGroup {s : State} {g : Machine.Group} {kind lane : Nat} {rwc : W32} {key : Nat} {value : W64} (h : Formed s) :
    Formed (s.logGroup g kind lane rwc key value) :=
  .logEvent h
theorem Ends.traceMark {s : State} {gs : Nat} {g : Machine.Group} {pc : W64} {imm : W32} {act : Mask} (h : Formed s) :
    Formed (s.traceMark gs g pc imm act) :=
  .ite h (.ite (.putDbg (.updSpace h)) (.putDbg (.updSpace (.wrWords h))))
theorem Ends.useEvent {s : State} {spid ix : Nat} (h : Formed s) : Formed (s.useEvent spid ix) :=
  .updSpace h
theorem Ends.parting {s : State} {spid gs : Nat} {a : At} {ix : Nat} {found : List W64} (h : Formed s) :
    Formed (s.parting spid gs a ix found) :=
  .ite (.updSpace (.wrWords h)) (.raise (.updSpace (.wrWords h)))
theorem Ends.gated {s : State} {spid gs : Nat} {g : Machine.Group} {a : At} {kind lane key : Nat} {w : State}
    {k : Option W64 → State → State} (h : Formed s) (hw : Formed w) (hk : ∀ x0 x1, Formed x1 → Formed (k x0 x1)) :
    Formed (s.gated spid gs g a kind lane key w k) := by
  unfold State.gated
  split
  · exact hk _ _ h
  · exact hk _ _ (.useEvent h)
  · exact hw
  · exact .parting h

/-! ### Issue -/

theorem Ends.settle {s : State} {gs nth : Nat} {f : Machine.Group → Machine.Group} (h : Formed s) : Formed (s.settle gs nth f) :=
  .same (.updGroup h)
theorem Ends.park {s : State} {gs : Nat} {b : Bool} {why : Stall} (h : Formed s) : Formed (s.park gs b why) :=
  .updGroup h
theorem Ends.settleQuiet {s : State} {gs : Nat} (h : Formed s) : Formed (s.settleQuiet gs) := by
  unfold State.settleQuiet
  split
  · exact h
  · split
    · exact h
    · exact .ite h (.updGroup h)
theorem Ends.retire {s s0 : State} {w : Word} {f : Info} {atOnce advance : Bool} {n : Nat} (h : Formed s) :
    Formed (s.retire s0 w f atOnce advance n) := by
  unfold State.retire
  dsimp only
  split
  · exact .updLb h
  · exact .ite (.settleQuiet (.same (.updLb h))) (.same (.updLb h))
theorem Ends.applyW {s : State} {gs : Nat} {x : RegW} (h : Formed s) : Formed (s.applyW gs x) := by
  unfold State.applyW
  split
  · exact .push h
  · exact .updGroup h
theorem Ends.applyWs {s : State} {gs : Nat} {l : List RegW} (h : Formed s) : Formed (s.applyWs gs l) :=
  .foldl (fun _ _ h1 => .applyW h1) h
theorem Ends.sendResult {s : State} {w : Word} {f : Info} {ws : List RegW} {pops : List Nat} (h : Formed s) :
    Formed (s.sendResult w f ws pops) :=
  .updGroup (.same (.snd (.newId h)))
theorem Ends.deliver {s : State} {w : Word} {f : Info} {ws : List RegW} (h : Formed s) : Formed (s.deliver w f ws) :=
  .ite (.sendResult (.updWg h)) (.applyWs h)
theorem Ends.logPop {s : State} {g : Machine.Group} {rwc : W32} {q : Nat} (h : Formed s) : Formed (s.logPop g rwc q) := by
  unfold State.logPop
  split
  · exact .useEvent h
  · exact .logGroup h
theorem Ends.logPops {s : State} {g : Machine.Group} {rwc : W32} {pops : List Nat} (h : Formed s) : Formed (s.logPops g rwc pops) :=
  .foldl (fun _ _ h1 => .logPop h1) h
theorem Ends.runWord {s : State} {gs : Nat} {b : Bool} {g : Machine.Group} {slot : PcSlot} {i : Instr} {f : Info}
    {k : Word → State → Eff} (h : Formed s) (hk : ∀ x0 x1, Formed x1 → Ends effState (k x0 x1)) :
    Formed (s.runWord gs b g slot i f k) := by
  unfold State.runWord
  dsimp only
  split
  · exact .raise h
  · refine .ite (.park h) ?_
    refine .ite (.park h) ?_
    refine .ite (.raise h) ?_
    split
    · exact .park h
    · split
      · exact .park h
      · exact .parting h
      · split
        · rename_i e1
          exact .ite (.retire (.raise (.of_eq (hk _ _ (.same h)) e1 rfl))) (.raise (.of_eq (hk _ _ (.same h)) e1 rfl))
        · rename_i e2
          exact .park (.of_eq (hk _ _ (.same h)) e2 rfl)
        · rename_i e3
          exact .of_eq (hk _ _ (.same h)) e3 rfl
        · rename_i e4
          exact .retire (.logPops (.of_eq (hk _ _ (.same h)) e4 rfl))
        · rename_i e5
          exact .retire (.logPops (.of_eq (hk _ _ (.same h)) e5 rfl))
theorem Ends.issue {s : State} {i : Instr} {k : Word → State → Eff} (h : Formed s)
    (hk : ∀ x0 x1, Formed x1 → Ends effState (k x0 x1)) :
    Ends outState (s.issue i k) := by
  unfold State.issue
  split
  · split
    · exact .of_none rfl
    · split
      · exact .of_none rfl
      · exact .of_state rfl (.runWord h (fun _ _ h1 => hk _ _ h1))
  · exact .of_none rfl
theorem Ends.alu {i : Instr} {k : Word → List RegW} {s : State} (h : Formed s) : Ends outState (Machine.alu i k s) := by
  unfold Machine.alu
  refine .issue h (fun _ _ h1 => ?_)
  split
  · exact .of_state rfl (.deliver h1)
  · exact .of_state rfl h1

/-! ### Operands -/

theorem Ends.int2 {i : Instr} {t : Ty} {d : Reg} {op : Int → Int → Int} {x4 : State} (h : Formed x4) :
    Ends outState (Machine.int2 i t d op x4) :=
  .alu h
theorem Ends.intI {i : Instr} {t : Ty} {d : Reg} {imm : BitVec 22} {op : Int → Int → Int} {x5 : State} (h : Formed x5) :
    Ends outState (Machine.intI i t d imm op x5) :=
  .alu h
theorem Ends.int1 {i : Instr} {t : Ty} {d : Reg} {op : Int → Int} {x4 : State} (h : Formed x4) :
    Ends outState (Machine.int1 i t d op x4) :=
  .alu h

/-! ### Address -/

theorem Ends.spillHit {s : State} {spid va : Nat} (h : Formed s) : Formed (s.spillHit spid va) := by
  unfold State.spillHit
  split
  · exact h
  · refine .same ?_
    split
    · exact .updGroup h
    · exact h
theorem Ends.queueMiss {s : State} {q : Ask} {code : Nat} {b : Bool} {va : Nat} (h : Formed s) : Formed (s.queueMiss q code b va) :=
  .updGroup (.updLb h)
theorem Ends.draws {s : State} {n : Nat} (h : Formed s) : Ends sndState (s.draws n) := by
  induction n generalizing s with
  | zero => exact .pair h
  | succ n ih => exact .pair (ih (.snd (.draw h))).snd
theorem Ends.keepMisses {s : State} {gs : Nat} (h : Formed s) : Formed (s.keepMisses gs) := by
  unfold State.keepMisses
  exact .updLb h
theorem Ends.startHandler {s : State} {gs : Nat} {b : Bool} {g : Machine.Group} {code : Nat → Nat} {lanes : List (Nat × W64)}
    (h : Formed s) :
    Formed (s.startHandler gs b g code lanes) :=
  .same (.snd (.draws (.keepMisses h)))
theorem Ends.withCodes {s : State} {w : Word} {once : Bool} {acc : Machine.Acc} {code : Nat → Nat} {l : List LaneTr}
    {k : List LaneTr → Eff} (h : Formed s) (hk : ∀ x0, Ends effState (k x0)) :
    Ends effState (s.withCodes w once acc code l k) := by
  unfold State.withCodes
  dsimp only
  split
  · exact .of_state rfl h
  · split
    · exact .of_state rfl (.queueMiss h)
    · split
      · exact .of_state rfl h
      · exact .ite (.of_state rfl (.startHandler h)) (.ite (.of_state rfl h) (hk _))
theorem Ends.withLanes {s : State} {w : Word} {once : Bool} {acc : Machine.Acc} {l : List LaneTr} {k : List LaneTr → Eff}
    (h : Formed s) (hk : ∀ x0, Ends effState (k x0)) :
    Ends effState (s.withLanes w once acc l k) :=
  .withCodes h (fun _ => hk _)
theorem Ends.accessAs {s : State} {w : Word} {once : Bool} {acc : Machine.Acc} {code : Nat → Nat} {n : Nat}
    {l : List (Nat × W64)} {k : List LaneTr → Eff} (h : Formed s) (hk : ∀ x0, Ends effState (k x0)) :
    Ends effState (s.accessAs w once acc code n l k) :=
  .withCodes h (fun _ => hk _)
theorem Ends.access {s : State} {w : Word} {once : Bool} {acc : Machine.Acc} {n : Nat} {l : List (Nat × W64)}
    {k : List LaneTr → Eff} (h : Formed s) (hk : ∀ x0, Ends effState (k x0)) :
    Ends effState (s.access w once acc n l k) :=
  .accessAs h (fun _ => hk _)
theorem Ends.fillTlb {s : State} {gs : Nat} {e : TlbEnt} (h : Formed s) : Formed (s.fillTlb gs e) := by
  unfold State.fillTlb
  exact .updCore (.updLb h)
theorem Ends.dropTlb {s : State} {core spid : Nat} {va : Option Nat} (h : Formed s) : Formed (s.dropTlb core spid va) := by
  unfold State.dropTlb
  exact .updCore (.foldl (fun _ _ h1 => .updLb h1) h)

/-! ### Meter -/

theorem Ends.spend {s : State} {part m i n : Nat} (h : Formed s) : Formed (s.spend part m i n) := by
  unfold State.spend
  split
  · exact h
  · exact .ite h (.same h)
theorem Ends.execMeterPeriodStart {part meter inst : Nat} {s : State} (h : Formed s) :
    Ends outState (Machine.execMeterPeriodStart part meter inst s) :=
  .of_state rfl (.updPart h)

/-! ### Store -/

theorem Ends.clearSector {s : State} {sector : Nat} (h : Formed s) : Formed (s.clearSector sector) :=
  .same h
theorem Ends.dropLine {s : State} {line : Nat} (h : Formed s) : Formed (s.dropLine line) :=
  .same h
theorem Ends.dram {s : State} {part line n : Nat} (h : Formed s) : Formed (s.dram part line n) :=
  .spend h
theorem Ends.l2Evict {s : State} {part : Nat} {v : Nat × L2Line} (h : Formed s) : Formed (s.l2Evict part v) :=
  .dropLine (.dram h)
theorem Ends.l2Place {s : State} {part line : Nat} (h : Formed s) : Formed (s.l2Place part line) := by
  unfold State.l2Place
  dsimp only
  refine .ite h ?_
  split
  · exact .same h
  · split
    · exact h
    · exact .same (.l2Evict (.same h))
theorem Ends.l2Sector {s : State} {part sector : Nat} {fill : Bool} (h : Formed s) : Formed (s.l2Sector part sector fill) := by
  unfold State.l2Sector
  dsimp only
  split
  · exact .l2Place h
  · exact .ite (.l2Place h) (.ite (.dram (.clearSector (.same (.l2Place h)))) (.clearSector (.same (.l2Place h))))
theorem Ends.touchSector {s : State} {spid part : Nat} {cached : Bool} {cells : List (Nat × Byte)} {sector : Nat} (h : Formed s) :
    Formed (s.touchSector spid part cached cells sector) := by
  unfold State.touchSector
  dsimp only
  split
  · exact .ite (.l2Sector (.undo h)) (.ite (.undo h) (.dram (.undo h)))
  · exact .same (.ite (.l2Sector (.undo h)) (.ite (.undo h) (.dram (.undo h))))
theorem Ends.homeWrite {s : State} {spid part : Nat} {cached : Bool} {cells : List (Nat × Byte)} (h : Formed s) :
    Formed (s.homeWrite spid part cached cells) := by
  unfold State.homeWrite
  refine formed_iff.2 (setEach_wf (formed_iff.1 ?_) _)
  exact .foldl (fun _ _ h => .touchSector h) h
theorem Ends.blur {s : State} {pa n : Nat} (h : Formed s) : Formed (s.blur pa n) :=
  formed_iff.2 (memPut_wf (formed_iff.1 h) pa _)
theorem Ends.spoil {s : State} {cells : List (Nat × Byte)} (h : Formed s) : Formed (s.spoil cells) :=
  .foldl (fun _ _ h1 => .blur h1) h
theorem Ends.dropCopies {s : State} {line : Nat} (h : Formed s) : Formed (s.dropCopies line) :=
  .same h
theorem Ends.plainWrite {s : State} {spid part : Nat} {unc : Bool} {pa : Nat} {l : List Byte} (h : Formed s) :
    Formed (s.plainWrite spid part unc pa l) :=
  .foldl (fun _ _ h2 => .dropCopies h2) (.foldl (fun _ _ h2 => .clearSector h2) (.homeWrite h))
theorem Ends.l1Drop {s : State} {core line : Nat} (h : Formed s) : Formed (s.l1Drop core line) := by
  unfold State.l1Drop
  split
  · exact h
  · exact .updCore h
theorem Ends.l1Clear {s : State} {core : Nat} (h : Formed s) : Formed (s.l1Clear core) :=
  .ite h (.updCore h)
theorem Ends.l1Fill {s : State} {core line : Nat} {x : L1Line} (h : Formed s) : Formed (s.l1Fill core line x) := by
  unfold State.l1Fill
  refine .updCore ?_
  refine .ite h ?_
  split
  · exact .l1Drop (.same h)
  · exact h
theorem Ends.l1Update {s : State} {core : Nat} {cells : List (Nat × Byte)} (h : Formed s) : Formed (s.l1Update core cells) := by
  unfold State.l1Update
  refine .foldl (fun _ _ h1 => ?_) h
  split
  · exact h1
  · exact .updCore h1
theorem Ends.l1Past {s : State} {core line : Nat} (h : Formed s) : Formed (s.l1Past core line) := by
  unfold State.l1Past
  split
  · exact h
  · exact .updCore h
theorem Ends.l1Count {s : State} {core line : Nat} (h : Formed s) : Formed (s.l1Count core line) := by
  unfold State.l1Count
  split
  · exact h
  · exact .ite h (.ite (.l1Drop h) (.updCore h))
theorem Ends.l2Count {s : State} {line : Nat} (h : Formed s) : Formed (s.l2Count line) := by
  unfold State.l2Count
  split
  · exact h
  · exact .ite h (.ite (.dropLine h) (.same h))
theorem Ends.rdcPlace {s : State} {d part line : Nat} (h : Formed s) : Ends (·.bind sndState) (s.rdcPlace d part line) := by
  unfold State.rdcPlace
  dsimp only
  split
  · exact .of_state rfl h
  · split
    · exact .of_state rfl h
    · split
      · exact .of_none rfl
      · exact .of_state rfl (.updDie (.same h))
theorem Ends.rdcFill {s : State} {core part sector count : Nat} (h : Formed s) : Formed (s.rdcFill core part sector count) := by
  unfold State.rdcFill
  dsimp only
  split
  · exact h
  · rename_i e
    exact .same (.updDie (.of_eq (.bind_any (fun _ => .rdcPlace h) rfl) e rfl))
theorem Ends.rdcCount {s : State} {d line : Nat} (h : Formed s) : Formed (s.rdcCount d line) := by
  unfold State.rdcCount
  split
  · exact h
  · exact .ite h (.ite (.updDie h) (.updDie h))
theorem Ends.supply {s : State} {core part sector count : Nat} (h : Formed s) :
    Ends sndState (s.supply core part sector count) := by
  unfold State.supply
  split
  · exact .pair h
  · exact .pair (.ite (.rdcFill (.l2Sector h)) (.l2Sector h))
theorem Ends.fetchLine {s : State} {core part line : Nat} {near : Bool} {count : Nat} (h : Formed s) :
    Formed (s.fetchLine core part line near count) :=
  .ite h (.ite (.snd (.supply (.snd (.supply h)))) (.l1Fill (.snd (.supply (.snd (.supply h))))))
theorem Ends.bumpLog {s : State} {log off : Nat} (h : Formed s) : Formed (s.bumpLog log off) :=
  .wrWords h
theorem Ends.countCheck {s : State} {spid : Nat} {v : Verdict} (h : Formed s) : Formed (s.countCheck spid v) := by
  unfold State.countCheck
  refine .ite h ?_
  split
  · exact .bumpLog h
  · exact .bumpLog (.bumpLog h)
  · exact .bumpLog (.bumpLog h)
theorem Ends.appendRace {s : State} {spid : Nat} {rcd : List W64} (h : Formed s) : Formed (s.appendRace spid rcd) :=
  .ite h (.ite (.wrWords (.wrWords h)) (.bumpLog h))

/-! ### Serial -/

theorem Ends.updRqer {s : State} {u : Nat} {f : Requester → Requester} (h : Formed s) : Formed (s.updRqer u f) :=
  .same h
theorem Ends.takeSerial {s : State} {u owner : Nat} (h : Formed s) : Ends sndState (s.takeSerial u owner) :=
  .pair (.updRqer h)
theorem Ends.answerSerial {s : State} {u : Nat} {ser : BitVec 16} (h : Formed s) : Formed (s.answerSerial u ser) :=
  .updRqer h
theorem Ends.retireAt {s : State} {places : List Nat} {u : Nat} {ack : BitVec 16} (h : Formed s) :
    Formed (s.retireAt places u ack) :=
  .same h
theorem Ends.rcEnter {s : State} {owner set u : Nat} {ser : BitVec 16} {value : List LaneAcc} (h : Formed s) :
    Formed (s.rcEnter owner set u ser value) :=
  .same h

/-! ### Felt -/

theorem Ends.lsPut {s : State} {core : Nat} {cells : List (Nat × Byte)} (h : Formed s) : Formed (s.lsPut core cells) :=
  .updCore h
theorem Ends.coverFelt {s : State} {gs : Nat} {cls : Cls} {covers : W32 → Bool} (h : Formed s) :
    Formed (s.coverFelt gs cls covers) :=
  .same h
theorem Ends.startDrain {s : State} {gs : Nat} {all : Bool} (h : Formed s) : Formed (s.startDrain gs all) :=
  .same (.foldl (fun _ _ h1 => .ite (.updCore h1) h1) h)

/-! ### Tx -/

theorem Ends.execTxb {x0 : Hdr} {s : State} (h : Formed s) : Ends outState (Machine.execTxb x0 s) :=
  .issue h (fun _ _ h1 => .ite (.of_state rfl h1) (.of_state rfl (.updGroup h1)))
theorem Ends.execTxa {x0 : Hdr} {code : Byte} {s : State} (h : Formed s) : Ends outState (Machine.execTxa x0 code s) :=
  .issue h (fun _ _ h1 => .of_state rfl (.updGroup h1))
theorem Ends.execTxq {x0 : Hdr} {d : Reg} {s : State} (h : Formed s) : Ends outState (Machine.execTxq x0 d s) := by
  unfold Machine.execTxq
  refine .issue h (fun _ _ h1 => ?_)
  split
  · exact .of_state rfl (.deliver h1)
  · exact .of_state rfl h1

/-! ### Memory -/

theorem Ends.putReq {s : State} {q : Req} (h : Formed s) : Formed (s.putReq q) :=
  .same (.snd (.newId h))
theorem Ends.pendOn {s : State} {gs : Nat} {l : List RegRef} (h : Formed s) : Formed (s.pendOn gs l) :=
  .updGroup h
theorem Ends.sendWrites {s : State} {w : Word} {kind : ReqKind} {accs : List LaneAcc} {size : Nat} {ord : Ord} {sco : Sco}
    {once held : Bool} {refs : List RegRef} (h : Formed s) :
    Formed (s.sendWrites w kind accs size ord sco once held refs) :=
  .ite (.pendOn (.foldl (fun _ _ h2 => .putReq h2) h)) (.updGroup (.pendOn (.foldl (fun _ _ h2 => .putReq h2) h)))
theorem Ends.popResult {s : State} {w : Word} {f : Info} (h : Formed s) : Formed (s.popResult w f) :=
  .ite h (.sendResult (.updWg h))
theorem Ends.countRead {s : State} {core line : Nat} (h : Formed s) : Formed (s.countRead core line) :=
  .ite (.rdcCount (.l1Count h)) (.l2Count (.l1Count h))
theorem Ends.l1Serve {s : State} {q : Req} (h : Formed s) : Ends sndState (s.l1Serve q) :=
  .ite (.pair h) (.pair (.foldl (fun _ _ h1 => .countRead h1) h))
theorem Ends.loadFrom {s : State} {w : Word} {f : Info} {once : Bool} {d : Reg} {m : MemOp} {l : List LaneTr} (h : Formed s) :
    Ends effState (s.loadFrom w f once d m l) :=
  .of_state rfl (.pendOn (.putReq (.snd (.l1Serve (.updGroup h)))))
theorem Ends.storeTo {s : State} {w : Word} {f : Info} {once : Bool} {m : MemOp} {l : List LaneTr} (h : Formed s) :
    Ends effState (s.storeTo w f once m l) :=
  .of_state rfl (.popResult (.sendWrites (.updGroup h)))
theorem Ends.execLd {x0 : Hdr} {d : Reg} {m : MemOp} {s : State} (h : Formed s) : Ends outState (Machine.execLd x0 d m s) := by
  unfold Machine.execLd
  refine .issue h (fun _ _ h1 => ?_)
  split
  · exact .accessAs h1 (fun _ => .loadFrom h1)
  · exact .of_state rfl h1
theorem Ends.execLds {x0 : Hdr} {d : Reg} {m : MemOp} {s : State} (h : Formed s) : Ends outState (Machine.execLds x0 d m s) := by
  unfold Machine.execLds
  refine .issue h (fun _ _ h1 => ?_)
  split
  · exact .withLanes h1 (fun _ => .loadFrom h1)
  · exact .of_state rfl h1
theorem Ends.execSt {x0 : Hdr} {d : Reg} {m : MemOp} {s : State} (h : Formed s) : Ends outState (Machine.execSt x0 d m s) := by
  unfold Machine.execSt
  refine .issue h (fun _ _ h1 => ?_)
  split
  · exact .accessAs h1 (fun _ => .storeTo h1)
  · exact .of_state rfl h1
theorem Ends.execSts {x0 : Hdr} {d : Reg} {m : MemOp} {s : State} (h : Formed s) : Ends outState (Machine.execSts x0 d m s) := by
  unfold Machine.execSts
  refine .issue h (fun _ _ h1 => ?_)
  split
  · exact .withLanes h1 (fun _ => .storeTo h1)
  · exact .of_state rfl h1
theorem Ends.execCmnt {x0 : Hdr} {a : Reg} {op : CmntOp} {s : State} (h : Formed s) :
    Ends outState (Machine.execCmnt x0 a op s) := by
  unfold Machine.execCmnt
  refine .issue h (fun _ _ h1 => ?_)
  split
  · split
    · exact .of_state rfl (.ite h1 (.l1Clear h1))
    · refine .access h1 (fun _ => ?_)
      refine .of_state rfl ?_
      refine .foldl (fun _ _ h2 => ?_) h1
      split
      · exact .l1Drop h2
      · exact h2
    · exact .access h1 (fun _ => .of_state rfl (.sendWrites h1))
  · exact .of_state rfl h1
theorem Ends.acquireL1 {s : State} {core : Nat} {sco : Sco} (h : Formed s) : Formed (s.acquireL1 core sco) :=
  .ite h (.l1Clear h)
theorem Ends.mergePending {s : State} {gs : Nat} (h : Formed s) : Formed (s.mergePending gs) := by
  unfold State.mergePending
  split
  · exact h
  · exact .updGroup h
theorem Ends.releaseFence {s : State} {gs : Nat} (h : Formed s) : Formed (s.releaseFence gs) :=
  .updGroup (.tickRc h)
theorem Ends.fenceNow {s : State} {gs : Nat} {ord : Ord} {sco : Sco} (h : Formed s) : Formed (s.fenceNow gs ord sco) :=
  .ite (.updGroup (.ite (.acquireL1 (.mergePending (.ite (.releaseFence h) h))) (.ite (.releaseFence h) h))) (.ite (.acquireL1
    (.mergePending (.ite (.releaseFence h) h))) (.ite (.releaseFence h) h))
theorem Ends.execFence {x0 : Hdr} {ord : Ord} {sco : Sco} {s : State} (h : Formed s) :
    Ends outState (Machine.execFence x0 ord sco s) :=
  .issue h (fun _ _ h1 => .ite (.of_state rfl h1) (.ite (.of_state rfl h1) (.of_state rfl (.fenceNow h1))))
theorem Ends.batchFault {s : State} {w : Word} {ks : List Cls} {upto : W32 → Bool} (h : Formed s) :
    Ends (·.bind sndState) (s.batchFault w ks upto) := by
  unfold State.batchFault
  induction ks with
  | nil => exact .of_none rfl
  | cons k t ih =>
    rw [List.findSome?_cons]
    split
    · rename_i e
      split at e
      · cases e
      · obtain ⟨b, -, e⟩ := Option.bind_eq_some_iff.mp e
        obtain ⟨r, -, rfl⟩ := Option.map_eq_some_iff.mp e
        exact .of_state rfl (.updGroup h)
    · exact ih
theorem Ends.reportHeld {s : State} {gs : Nat} {rpc : W64} (h : Formed s) : Ends id (s.reportHeld gs rpc) :=
  .bind_any (fun _ => .map_any (fun _ => .haltBy (.updGroup h))) rfl
theorem Ends.execEfence {x0 : Hdr} {s : State} (h : Formed s) : Ends outState (Machine.execEfence x0 s) := by
  unfold Machine.execEfence
  dsimp only
  refine .issue h (fun _ _ h1 => ?_)
  refine .ite (.of_state rfl h1) ?_
  refine .ite (.of_state rfl (.startDrain h1)) ?_
  split
  · rename_i e1
    exact .of_state rfl (.of_eq (.reportHeld (.fenceNow (.startDrain h1))) e1 rfl)
  · split
    · rename_i e2
      exact .of_state rfl (.of_eq (.batchFault (.fenceNow (.startDrain h1))) e2 rfl)
    · exact .of_state rfl (.fenceNow (.startDrain h1))

/-! ### Owner -/

theorem Ends.predict {s : State} {core pa : Nat} {d : Int} (h : Formed s) : Formed (s.predict core pa d) :=
  .updCore h
theorem Ends.disown {s : State} {core line : Nat} (h : Formed s) : Formed (s.disown core line) :=
  .same (.updCore h)
theorem Ends.recallHome {s : State} {u line : Nat} (h : Formed s) : Ends id (s.recallHome u line) := by
  unfold State.recallHome
  split
  · exact .of_state rfl h
  · exact .ite (.of_none rfl) (.ite (.of_state rfl (.disown h)) (.of_state rfl (.predict (.disown h))))
theorem Ends.recallFor {s : State} {u line : Nat} (h : Formed s) : Ends id (s.recallFor u line) := by
  unfold State.recallFor
  split
  · exact .of_state rfl h
  · exact .ite (.of_state rfl h) (.ite (.of_none rfl) (.of_state rfl (.predict (.disown h))))
theorem Ends.recallAll {s : State} {u pa n : Nat} (h : Formed s) : Ends id (s.recallAll u pa n) :=
  .foldl (fun _ _ h2 => .bind (fun _ h2 => .recallFor h2) h2) (.of_state rfl h)
theorem Ends.ownerDecides {s : State} {q : Req} {ser : BitVec 16} {c : Copy} (h : Formed s) :
    Ends sndState (s.ownerDecides q ser c) :=
  .pair (.retireAt h)
theorem Ends.sendReply {s : State} {id : Nat} {x : Reply} (h : Formed s) : Formed (s.sendReply id x) :=
  .updReq h
theorem Ends.copyGone {s : State} {id copy : Nat} (h : Formed s) : Formed (s.copyGone id copy) :=
  .updReq h
theorem Ends.ownerKeeps {s : State} {id : Nat} {q : Req} {ser : BitVec 16} {copy : Nat} {value : List LaneAcc} (h : Formed s) :
    Formed (s.ownerKeeps id q ser copy value) :=
  .sendReply (.copyGone (.rcEnter h))
theorem Ends.execPref {x0 : Hdr} {near : Bool} {m : MemOp} {s : State} (h : Formed s) :
    Ends outState (Machine.execPref x0 near m s) := by
  unfold Machine.execPref
  refine .issue h (fun _ _ h1 => ?_)
  split
  · refine .of_state rfl ?_
    refine .foldl (fun _ _ h2 => ?_) h1
    split
    · rename_i e
      exact .fetchLine (.of_eq (.recallFor h2) e rfl)
    · exact h2
  · exact .of_state rfl h1

/-! ### Forward -/

theorem Ends.addCopy {s : State} {id : Nat} {q : Req} {rtx : Bool} (h : Formed s) : Formed (s.addCopy id q rtx) :=
  .updReq (.snd (.newId h))
theorem Ends.sendUpd {s : State} {core pix : Nat} {p : PubEnt} {u : Upd} (h : Formed s) : Ends id (s.sendUpd core pix p u) := by
  unfold State.sendUpd
  split
  · exact .ite (.of_none rfl) (.of_state rfl (.same (.snd (.newId (.snd (.takeSerial h))))))
  · exact .ite (.of_state rfl (.updCore h)) (.ite (.of_none rfl) (.of_state rfl (.same (.snd (.newId (.updCore (.addCopy (.putReq
      (.snd (.takeSerial h))))))))))
  · exact .of_none rfl
  · exact .of_state rfl h
theorem Ends.logAcked {s : State} {rq : Nat} (h : Formed s) : Formed (s.logAcked rq) :=
  .same h
theorem Ends.feltEvict {s : State} {core : Nat} (h : Formed s) : Ends id (s.feltEvict core) := by
  unfold State.feltEvict
  split
  · exact .of_state rfl h
  · exact .foldl (fun _ _ h1 => .bind (fun _ h2 => .ite (.of_state rfl h2) (.sendUpd h2)) h1) (.of_state rfl (.updCore h))
theorem Ends.feltTake {s : State} {core : Nat} {srcs : List FeltSrc} {cells : List (Nat × Byte)} {seg : Nat} (h : Formed s) :
    Ends id (s.feltTake core srcs cells seg) :=
  .orElse (.map_any (fun _ => .same (.updCore h))) (fun _ => .bind (fun _ h1 => .map_any (fun _ => .same (.updCore h1))) (.feltEvict
    h))
theorem Ends.lsWrite {s : State} {core : Nat} {srcs : List FeltSrc} {cells : List (Nat × Byte)} (h : Formed s) :
    Ends id (s.lsWrite core srcs cells) :=
  .foldl (fun _ _ h2 => .bind (fun _ h2 => .feltTake h2) h2) (.of_state rfl (.lsPut h))
theorem Ends.feltNeed {s : State} {core : Nat} (h : Formed s) : Formed (s.feltNeed core) :=
  .updCore h

/-! ### Home -/

theorem Ends.clearPend {s : State} {id : Nat} {q : Req} (h : Formed s) : Formed (s.clearPend id q) :=
  .ite h (.updGroup h)
theorem Ends.dropReq {s : State} {id : Nat} (h : Formed s) : Formed (s.dropReq id) := by
  unfold State.dropReq
  split
  · exact .answerSerial (.same h)
  · exact .same h
theorem Ends.lateFault {s : State} {id : Nat} {q : Req} {c : Cause} (h : Formed s) : Formed (s.lateFault id q c) :=
  .raise (.clearPend (.ite (.same (.updGroup (.foldl (fun _ _ h2 => .dropReq h2) h))) (.foldl (fun _ _ h2 => .dropReq h2) h)))
theorem Ends.raceFault {s : State} {id : Nat} {q : Req} {g : Machine.Group} {l : List RaceAcc} (h : Formed s) :
    Formed (s.raceFault id q g l) := by
  unfold State.raceFault
  split
  · exact h
  · exact .lateFault (.foldl (fun _ _ h1 => .countCheck h1) h)
theorem Ends.blurAll {s : State} {l : List (Nat × Nat)} (h : Formed s) : Formed (s.blurAll l) :=
  .foldl (fun _ _ h1 => .blur h1) h
theorem Ends.noteStrong {s : State} {q : Req} {sector : Nat} (h : Formed s) : Formed (s.noteStrong q sector) := by
  unfold State.noteStrong
  split
  · exact .ite (.same h) h
  · exact h
theorem Ends.logSubRead {s : State} {q : Req} {core pos : Nat} (h : Formed s) : Formed (s.logSubRead q core pos) := by
  unfold State.logSubRead
  split
  · exact .ite h (.updGroup (.logGroup h))
  · exact h
theorem Ends.loadBank {s : State} {id : Nat} {q : Req} {core owner : Nat} (h : Formed s) : Formed (s.loadBank id q core owner) := by
  unfold State.loadBank
  refine .ite h ?_
  refine .updReq ?_
  refine .ite ?_ ?_
  · refine .acquireL1 ?_
    refine .foldl (fun _ _ h2 => .logSubRead h2) ?_
    refine .foldl (fun _ _ h2 => ?_) h
    split
    · exact .useEvent h2
    · exact .parting h2
    · exact h2
  · refine .foldl (fun _ _ h3 => .logSubRead h3) ?_
    refine .foldl (fun _ _ h4 => ?_) h
    split
    · exact .useEvent h4
    · exact .parting h4
    · exact h4
theorem Ends.logForeign {s : State} {q : Req} {a : LaneAcc} (h : Formed s) : Formed (s.logForeign q a) := by
  unfold State.logForeign
  refine .ite h ?_
  split
  · refine .foldl (fun _ _ h1 => ?_) h
    split
    · exact .useEvent h1
    · exact .logGroup h1
  · exact h
theorem Ends.readHome {s : State} {part sector : Nat} {l : List LaneAcc} (h : Formed s) : Formed (s.readHome part sector l) :=
  .ite h (.ite (.dram h) (.l2Sector h))
theorem Ends.fillNear {s : State} {q : Req} {sector : Nat} {copy : Bool} (h : Formed s) : Formed (s.fillNear q sector copy) :=
  .ite (.ite h (.rdcFill h)) (.fetchLine (.ite h (.rdcFill h)))
theorem Ends.countLoad {s : State} {q : Req} {line : Nat} {near copy had hadFar : Bool} (h : Formed s) :
    Formed (s.countLoad q line near copy had hadFar) :=
  .ite (.ite (.rdcCount h) h) (.ite (.ite (.l2Count (.ite (.rdcCount h) h)) (.ite (.rdcCount h) h)) (.ite (.ite (.dropLine (.ite
    (.rdcCount h) h)) (.same (.ite (.rdcCount h) h))) (.ite (.rdcCount h) h)))
theorem Ends.loadSector {s : State} {id : Nat} {q : Req} {sector : Nat} (h : Formed s) : Formed (s.loadSector id q sector) :=
  .updReq (.ite (.useRec (.ite (.acquireL1 (.ite (.l1Past (.countLoad (.ite (.fillNear (.readHome (.foldl (fun _ _ h16 =>
    .logForeign h16) (.ite (.settle (.blurAll h)) (.blurAll h))))) (.readHome (.foldl (fun _ _ h16 => .logForeign h16) (.ite
    (.settle (.blurAll h)) (.blurAll h))))))) (.countLoad (.ite (.fillNear (.readHome (.foldl (fun _ _ h16 => .logForeign h16) (.ite
    (.settle (.blurAll h)) (.blurAll h))))) (.readHome (.foldl (fun _ _ h16 => .logForeign h16) (.ite (.settle (.blurAll h))
    (.blurAll h)))))))) (.ite (.l1Past (.countLoad (.ite (.fillNear (.readHome (.foldl (fun _ _ h16 => .logForeign h16) (.ite
    (.settle (.blurAll h)) (.blurAll h))))) (.readHome (.foldl (fun _ _ h16 => .logForeign h16) (.ite (.settle (.blurAll h))
    (.blurAll h))))))) (.countLoad (.ite (.fillNear (.readHome (.foldl (fun _ _ h16 => .logForeign h16) (.ite (.settle (.blurAll h))
    (.blurAll h))))) (.readHome (.foldl (fun _ _ h16 => .logForeign h16) (.ite (.settle (.blurAll h)) (.blurAll h))))))))) (.ite
    (.acquireL1 (.ite (.l1Past (.countLoad (.ite (.fillNear (.readHome (.foldl (fun _ _ h16 => .logForeign h16) (.ite (.settle
    (.blurAll h)) (.blurAll h))))) (.readHome (.foldl (fun _ _ h16 => .logForeign h16) (.ite (.settle (.blurAll h)) (.blurAll
    h))))))) (.countLoad (.ite (.fillNear (.readHome (.foldl (fun _ _ h16 => .logForeign h16) (.ite (.settle (.blurAll h)) (.blurAll
    h))))) (.readHome (.foldl (fun _ _ h16 => .logForeign h16) (.ite (.settle (.blurAll h)) (.blurAll h)))))))) (.ite (.l1Past
    (.countLoad (.ite (.fillNear (.readHome (.foldl (fun _ _ h16 => .logForeign h16) (.ite (.settle (.blurAll h)) (.blurAll h)))))
    (.readHome (.foldl (fun _ _ h16 => .logForeign h16) (.ite (.settle (.blurAll h)) (.blurAll h))))))) (.countLoad (.ite (.fillNear
    (.readHome (.foldl (fun _ _ h16 => .logForeign h16) (.ite (.settle (.blurAll h)) (.blurAll h))))) (.readHome (.foldl (fun _ _
    h16 => .logForeign h16) (.ite (.settle (.blurAll h)) (.blurAll h)))))))))
theorem Ends.arriveLoad {s : State} {id : Nat} {q : Req} {sector : Nat} (h : Formed s) : Formed (s.arriveLoad id q sector) := by
  unfold State.arriveLoad
  split
  · exact .loadSector h
  · exact .ite (.loadSector h) (.lateFault h)
theorem Ends.recordSector {s : State} {q : Req} {sector : Nat} {atomic : Bool} {covered : Nat} (h : Formed s) :
    Formed (s.recordSector q sector atomic covered) := by
  unfold State.recordSector
  refine .ite (.clearSector h) ?_
  split
  · exact .clearSector h
  · refine .ite ?_ (.ite (.ite (.tickRc (.same h)) (.same h)) (.same (.ite (.tickRc (.same h)) (.same h))))
    split
    · exact .putRec (.ite (.tickRc (.same h)) (.same h))
    · exact .ite (.tickRc (.same h)) (.same h)
theorem Ends.returnWrite {s : State} {id : Nat} {q : Req} {sector : Nat} (h : Formed s) : Formed (s.returnWrite id q sector) :=
  .ite (.same (.updReq h)) (.updReq h)
theorem Ends.laneOrder {s : State} {l : List LaneAcc} (h : Formed s) : Ends sndState (s.laneOrder l) :=
  .ite (.pair h) (.pair (.same h))
theorem Ends.atomTake {s : State} {q : Req} {a : LaneAcc} (h : Formed s) : Ends sndState (s.atomTake q a) := by
  unfold State.atomTake
  split
  · exact .pair h
  · split
    · exact .pair (.useEvent h)
    · exact .pair (.parting h)
    · exact .pair h
theorem Ends.atomLane {put : State → List (Nat × Byte) → State} {q : Req} {s : State} {a : LaneAcc} (h : Formed s)
    (hput : ∀ x0 x1, Formed x0 → Formed (put x0 x1)) :
    Ends fstState (State.atomLane put q s a) := by
  unfold State.atomLane
  refine .pair' ?_
  split
  · exact .logGroup (hput _ _ (.snd (.atomTake h)))
  · exact hput _ _ (.snd (.atomTake h))
theorem Ends.atomLanes {put : State → List (Nat × Byte) → State} {s : State} {q : Req} (h : Formed s)
    (hput : ∀ x0 x1, Formed x0 → Formed (put x0 x1)) :
    Ends fstState (State.atomLanes put s q) :=
  .foldl (fun _ _ h2 => .pair' (.fst (.atomLane h2.fst (fun _ _ h2 => hput _ _ h2)))) (.pair' (.snd (.laneOrder h)))
theorem Ends.doWrite {s : State} {id : Nat} {q : Req} {v : Verdict} (h : Formed s) : Formed (s.doWrite id q v) := by
  unfold State.doWrite
  split
  · refine .updReq ?_
    refine .l1Drop ?_
    split
    · exact .ite (.same (.dropCopies (.clearSector (.blur (.undo (.ite (.countCheck h) h)))))) (.same (.dropCopies (.clearSector
        (.blur (.undo (.ite (.countCheck h) h))))))
    · exact .dropCopies (.clearSector (.blur (.undo (.ite (.countCheck h) h))))
  · exact .updReq (.noteStrong (.blurAll (.clearSector (.spoil (.homeWrite h)))))
  · exact .updReq (.ite (.acquireL1 (.noteStrong (.blurAll (.l1Drop (.recordSector (.fst (.atomLanes (.blurAll (.ite (.countCheck h)
      h)) (fun _ _ h1 => .spoil (.homeWrite h1))))))))) (.noteStrong (.blurAll (.l1Drop (.recordSector (.fst (.atomLanes (.blurAll
      (.ite (.countCheck h) h)) (fun _ _ h2 => .spoil (.homeWrite h2)))))))))
  · exact .updReq (.ite (.acquireL1 (.noteStrong (.blurAll (.l1Drop (.recordSector (.fst (.atomLanes (.blurAll (.ite (.countCheck h)
      h)) (fun _ _ h3 => .spoil (.homeWrite h3))))))))) (.noteStrong (.blurAll (.l1Drop (.recordSector (.fst (.atomLanes (.blurAll
      (.ite (.countCheck h) h)) (fun _ _ h4 => .spoil (.homeWrite h4)))))))))
  · exact .updReq (.noteStrong (.blurAll (.l1Update (.recordSector (.spoil (.homeWrite (.ite (.countCheck h) h)))))))
theorem Ends.spillHits {s : State} {q : Req} (h : Formed s) : Formed (s.spillHits q) :=
  .foldl (fun _ _ h1 => .spillHit h1) h
theorem Ends.writeSector {s : State} {id : Nat} {q : Req} (h : Formed s) : Formed (s.writeSector id q) := by
  unfold State.writeSector
  dsimp only
  split
  · exact .dropReq (.same h)
  · refine .ite (.lateFault (.same h)) ?_
    refine .ite (.lateFault (.same h)) ?_
    split
    · exact .returnWrite (.same h)
    · exact .ite (.same h) (.spillHits (.doWrite (.same h)))
theorem Ends.hostTouches {s : State} {pa : Nat} (h : Formed s) : Formed (s.hostTouches pa) :=
  .foldl (fun _ _ h1 => .ite (.undo h1) (.putDbg (.updSpace (.undo h1)))) h
theorem Ends.agentSector {s : State} {id : Nat} {q : Req} (h : Formed s) : Formed (s.agentSector id q) := by
  unfold State.agentSector
  dsimp only
  split
  · exact .updReq (.ite (.ite (.hostTouches h) h) (.noteStrong (.clearSector (.spoil (.homeWrite (.ite (.hostTouches h) h))))))
  · refine .updReq ?_
    split
    · exact .recordSector (.spoil (.homeWrite (.ite (.hostTouches h) h)))
    · exact .noteStrong (.foldl (fun _ _ h1 => .clearSector h1) (.spoil (.homeWrite (.ite (.hostTouches h) h))))
  · exact .ite (.hostTouches h) h
theorem Ends.bankGo {s : State} {id : Nat} {q : Req} {core owner : Nat} {atomic : Bool} {segs : List (Nat × Nat)} {weak : Bool}
    {vs : List (Nat × Verdict)} (h : Formed s) :
    Formed (s.bankGo id q core owner atomic segs weak vs) := by
  unfold State.bankGo
  dsimp only
  split
  · exact .feltNeed h
  · rename_i e
    refine .updReq ?_
    refine .ite ?_ ?_
    · refine .acquireL1 ?_
      refine .ite ?_ ?_
      · refine .tickRc ?_
        refine .foldl (fun _ _ h1 => ?_) (.of_eq (.lsWrite (.fst (.ite (.atomLanes (.foldl (fun _ _ h2 => .countCheck h2) h) (fun _
          _ h3 => .lsPut h3)) (.pair' (.foldl (fun _ _ h4 => .countCheck h4) h))))) e rfl)
        split <;> exact .setLsWm h1
      · refine .foldl (fun _ _ h5 => ?_) (.of_eq (.lsWrite (.fst (.ite (.atomLanes (.foldl (fun _ _ h2 => .countCheck h2) h) (fun _
          _ h3 => .lsPut h3)) (.pair' (.foldl (fun _ _ h4 => .countCheck h4) h))))) e rfl)
        split <;> exact .setLsWm h5
    · refine .ite ?_ ?_
      · refine .tickRc ?_
        refine .foldl (fun _ _ h6 => ?_) (.of_eq (.lsWrite (.fst (.ite (.atomLanes (.foldl (fun _ _ h2 => .countCheck h2) h) (fun _
          _ h3 => .lsPut h3)) (.pair' (.foldl (fun _ _ h4 => .countCheck h4) h))))) e rfl)
        split <;> exact .setLsWm h6
      · refine .foldl (fun _ _ h7 => ?_) (.of_eq (.lsWrite (.fst (.ite (.atomLanes (.foldl (fun _ _ h2 => .countCheck h2) h) (fun _
          _ h3 => .lsPut h3)) (.pair' (.foldl (fun _ _ h4 => .countCheck h4) h))))) e rfl)
        split <;> exact .setLsWm h7
theorem Ends.writeBank {s : State} {id : Nat} {q : Req} {core owner : Nat} (h : Formed s) :
    Formed (s.writeBank id q core owner) := by
  unfold State.writeBank
  dsimp only
  split
  · exact .dropReq h
  · split
    · exact .ite (.raceFault h) (.ite (.bankGo h) (.ite h (.bankGo (.updReq (.foldl (fun _ _ h1 => .appendRace h1) h)))))
    · exact .ite h (.ite (.lateFault h) (.ite (.lateFault h) (.bankGo h)))

/-! ### Engine -/

theorem Ends.engMiss {s : State} {a : Agent} {acc : Machine.Acc} {va : Nat} (h : Formed s) : Formed (s.engMiss a acc va) :=
  .ite (.updLb h) (.ite (.updLb h) (.updLb h))
theorem Ends.engUsed {s : State} {a : Agent} {va : Nat} (h : Formed s) : Formed (s.engUsed a va) :=
  .updLb h
theorem Ends.agentReads {α : Type} {s : State} {u pa n : Nat} {k : State → EngRes α} {f : α → Option Machine.State}
    (h : Formed s) (hk : ∀ x0, Formed x0 → Ends (resState f) (k x0)) :
    Ends (resState f) (s.agentReads u pa n k) :=
  .ite (.of_state rfl (.getD (.recallAll h) h)) (hk _ h)
theorem Ends.engRead {s : State} {u : Nat} {x : Loc} {n : Nat} (h : Formed s) :
    Ends (resState fun _ => none) (s.engRead u x n) := by
  unfold State.engRead
  split
  · exact .agentReads h (fun _ h1 => .ite (.of_none rfl) (.of_none rfl))
  · exact .ite (.of_none rfl) (.ite (.of_none rfl) (.of_none rfl))
theorem Ends.agentPut {s : State} {x : Sender} {pa : Nat} {l : List Byte} (h : Formed s) : Formed (s.agentPut x pa l) := by
  unfold State.agentPut
  refine .dropCopies ?_
  split
  · exact .recordSector (.spoil (.homeWrite h))
  · exact .noteStrong (.clearSector (.spoil (.homeWrite h)))
theorem Ends.agentAll {s : State} {x : Sender} {l : List (Nat × List Byte)} (h : Formed s) :
    Ends (resState some) (s.agentAll x l) := by
  unfold State.agentAll
  dsimp only
  refine .ite (.of_state rfl (.foldl (fun _ _ h1 => .putReq h1) h)) ?_
  refine .ite (.of_state rfl h) ?_
  split
  · exact .of_state rfl h
  · rename_i e
    refine .of_state rfl ?_
    refine .foldl (fun _ _ h2 => .agentPut h2) ?_
    refine .foldl (fun _ _ h5 => ?_) (.of_eq (.foldl (fun _ _ h5 => .bind (fun _ h5 => .ite (.recallAll h5) (.of_none rfl)) h5)
      (.of_state rfl h)) e rfl)
    split
    · exact .dropReq h5
    · exact h5
theorem Ends.agentRmw {s : State} {x : Sender} {pa n : Nat} {op : Rmw} {b c : Nat} (h : Formed s) :
    Ends (resState sndState) (s.agentRmw x pa n op b c) := by
  unfold State.agentRmw
  refine .ite ?_ ?_
  · split
    · exact .of_state rfl (.putReq h)
    · exact .ite (.of_state rfl h) (.ite (.of_none rfl) (.ok (.pair (.dropReq h))))
  · refine .ite (.of_state rfl h) ?_
    split
    · exact .of_state rfl h
    · rename_i e
      exact .ite (.of_none rfl) (.ok (.pair (.agentPut (.of_eq (.recallAll h) e rfl))))
theorem Ends.engPut {s : State} {a : Agent} {x : Loc} {uncached : Bool} {l : List Byte} (h : Formed s) :
    Ends (resState some) (s.engPut a x uncached l) := by
  unfold State.engPut
  split
  · exact .agentAll h
  · refine .ite (.of_none rfl) ?_
    refine .ite (.of_none rfl) ?_
    split
    · exact .of_state rfl h
    · rename_i e
      split
      · exact .of_state rfl (.of_eq (.lsWrite h) e rfl)
      · exact .of_state rfl (.foldl (fun _ _ h1 => .setLsWm h1) (.of_eq (.lsWrite h) e rfl))
theorem Ends.engWait {s : State} {x : Loc} (h : Formed s) : Formed (s.engWait x) := by
  unfold State.engWait
  split
  · exact .ite h (.feltNeed h)
  · exact h
theorem Ends.smear {s : State} {x : Loc} {n : Nat} (h : Formed s) : Formed (s.smear x n) := by
  unfold State.smear
  split
  · exact formed_iff.2 (memPut_wf (formed_iff.1 h) _ _)
  · exact .lsPut (.same h)
theorem Ends.smearAt {s : State} {a : Agent} {ext : Bool} {ga n : Nat} (h : Formed s) : Formed (s.smearAt a ext ga n) := by
  unfold State.smearAt
  dsimp only
  split
  · exact .smear h
  · split
    · exact .ite (.smear h) h
    · exact h
  · split
    · exact .ite (.smear h) h
    · exact h
  · exact h
theorem Ends.opDone {s : State} {gs : Nat} {k : Cls} {id : Nat} {f : OpRec → OpRec} (h : Formed s) : Formed (s.opDone gs k id f) :=
  .updGroup h

/-! ### Atomic -/

theorem Ends.sendAtomics {s : State} {w : Word} {f : Info} {kind : ReqKind} {accs : List LaneAcc} {size : Nat} {ord : Ord}
    {sco : Sco} {once : Bool} (h : Formed s) :
    Formed (s.sendAtomics w f kind accs size ord sco once) :=
  .updGroup (.ite (.foldl (fun _ _ h4 => .foldl (fun _ _ h4 => .putReq h4) h4) h) (.pendOn (.foldl (fun _ _ h4 => .foldl (fun _ _ h4
    => .putReq h4) h4) h)))
theorem Ends.execAtom {x0 : Hdr} {d a b c : Reg} {op : AOp} {sz : Sz} {ord : Ord} {sco : Sco} {s : State} (h : Formed s) :
    Ends outState (Machine.execAtom x0 d a b c op sz ord sco s) := by
  unfold Machine.execAtom
  refine .issue h (fun _ _ h1 => ?_)
  split
  · exact .access h1 (fun _ => .of_state rfl (.popResult (.sendAtomics h1)))
  · exact .of_state rfl h1
theorem Ends.execRed {x0 : Hdr} {d : Reg} {m : MemOp} {op : ROp} {s : State} (h : Formed s) :
    Ends outState (Machine.execRed x0 d m op s) := by
  unfold Machine.execRed
  refine .issue h (fun _ _ h1 => ?_)
  split
  · exact .access h1 (fun _ => .of_state rfl (.popResult (.sendAtomics h1)))
  · exact .of_state rfl h1

/-! ### Issue -/

theorem Ends.reserve {s : State} {w : Word} {gid : Nat} {grid : Grid} {hdr k : Nat} (h : Formed s) :
    Ends (resState id) (s.reserve w gid grid hdr k) := by
  unfold State.reserve
  refine .ite (.ok (.of_state rfl h)) ?_
  split
  · exact .of_state rfl (.putReq h)
  · exact .ite (.of_state rfl h) (.ite (.of_none rfl) (.ok (.ite (.of_none rfl) (.of_state rfl (.updGrid (.dropReq h))))))

/-! ### Atomic -/

theorem Ends.redoAppend {s : State} {w : Word} {f : Info} {grid : Grid} {m : MemOp} {once : Bool} {hdr : Nat} {l : List LaneTr}
    (h : Formed s) :
    Ends effState (s.redoAppend w f grid m once hdr l) := by
  unfold State.redoAppend
  dsimp only
  split
  · rename_i e1
    exact .of_state rfl (.of_eq (.reserve h) e1 rfl)
  · refine .of_state rfl ?_
    split
    · exact .dropReq h
    · exact h
  · refine .of_state rfl ?_
    split
    · exact .dropReq h
    · exact h
  · rename_i e2
    exact .withLanes (.of_eq (.reserve h) e2 rfl) (fun _ => .of_state rfl (.popResult (.updGroup (.foldl (fun _ _ h1 => .putReq h1)
      (.updGrid (.of_eq (.reserve h) e2 rfl))))))
theorem Ends.execRedo {x0 : Hdr} {d : Reg} {m : MemOp} {s : State} (h : Formed s) : Ends outState (Machine.execRedo x0 d m s) := by
  unfold Machine.execRedo
  refine .issue h (fun _ _ h1 => ?_)
  split
  · refine .withLanes h1 (fun _ => ?_)
    split
    · exact .of_state rfl h1
    · exact .ite (.of_state rfl (.popResult h1)) (.ite (.of_state rfl h1) (.ite (.of_state rfl h1) (.withLanes h1 (fun _ =>
        .redoAppend h1))))
  · exact .of_state rfl h1

/-! ### Control -/

theorem Ends.carry {s : State} {w : Word} {p : Plan} {own : Option Cause} (h : Formed s) : Ends effState (s.carry w p own) := by
  unfold State.carry
  extract_lets acts finish
  have hf : Ends effState finish := by
    unfold finish
    split
    · exact .of_state rfl h
    · exact .ite (.of_state rfl h) (.of_state rfl (.updGroup h))
  clear_value finish
  refine .ite hf (.withLanes h fun l => .withLanes h fun _ => ?_)
  split
  · exact .of_state rfl (.foldl (fun _ _ h => .plainWrite h) (.of_eq hf rfl rfl))
  · exact hf
theorem Ends.execBra {x0 : Hdr} {off : W32} {s : State} (h : Formed s) : Ends outState (Machine.execBra x0 off s) :=
  .issue h (fun _ _ h1 => .carry h1)
theorem Ends.branchRegs {s : State} {w : Word} (h : Formed s) : Ends effState (s.branchRegs w) := by
  unfold State.branchRegs
  split
  · exact .carry h
  · exact .ite (.of_state rfl h) (.carry h)
theorem Ends.execBrx {x0 : Hdr} {a : Reg} {s : State} (h : Formed s) : Ends outState (Machine.execBrx x0 a s) :=
  .issue h (fun _ _ h1 => .branchRegs h1)
theorem Ends.execRet {x0 : Hdr} {a : Reg} {s : State} (h : Formed s) : Ends outState (Machine.execRet x0 a s) :=
  .issue h (fun _ _ h1 => .branchRegs h1)
theorem Ends.execCall {x0 : Hdr} {d : Reg} {off : W32} {s : State} (h : Formed s) : Ends outState (Machine.execCall x0 d off s) :=
  .issue h (fun _ _ h1 => .carry h1)
theorem Ends.execMjoin {x0 : Hdr} {off : W32} {s : State} (h : Formed s) : Ends outState (Machine.execMjoin x0 off s) :=
  .issue h (fun _ _ h1 => .carry h1)
theorem Ends.execJoin {x0 : Hdr} {s : State} (h : Formed s) : Ends outState (Machine.execJoin x0 s) := by
  unfold Machine.execJoin
  refine .issue h (fun _ _ h1 => ?_)
  split
  · exact .of_state rfl h1
  · exact .ite (.of_state rfl h1) (.ite (.carry h1) (.carry h1))
theorem Ends.execExit {x0 : Hdr} {s : State} (h : Formed s) : Ends outState (Machine.execExit x0 s) :=
  .issue h (fun _ _ h1 => .ite (.of_state rfl h1) (.carry h1))
theorem Ends.execNop {x0 : Hdr} {s : State} (h : Formed s) : Ends outState (Machine.execNop x0 s) :=
  .issue h (fun _ _ h1 => .of_state rfl h1)
theorem Ends.execRegion {x0 : Hdr} {s : State} (h : Formed s) : Ends outState (Machine.execRegion x0 s) :=
  .issue h (fun _ _ h1 => .ite (.of_state rfl (.updGroup h1)) (.of_state rfl h1))
theorem Ends.execYield {x0 : Hdr} {d a b : Reg} {s : State} (h : Formed s) : Ends outState (Machine.execYield x0 d a b s) := by
  unfold Machine.execYield
  dsimp only
  refine .issue h (fun _ _ h1 => ?_)
  split
  · exact .of_state rfl (.updGroup (.useEvent h1))
  · exact .of_state rfl h1
  · exact .of_state rfl (.parting h1)
  · exact .ite (.of_state rfl (.updGroup (.logGroup h1))) (.ite (.of_state rfl h1) (.of_state rfl (.updGroup (.logGroup h1))))

/-! ### Copy -/

theorem Ends.enterCopy {s : State} {w : Word} {k : Cls} {ext : Bool} {dst src len rows sp dp : Nat} {ixs : List Nat}
    (h : Formed s) :
    Ends effState (s.enterCopy w k ext dst src len rows sp dp ixs) :=
  .ite (.of_state rfl (.updGroup (.snd (.newId h)))) (.ite (.of_state rfl h) (.ite (.of_state rfl h) (.of_state rfl (.updGroup
    (.updCore (.snd (.newId h)))))))
theorem Ends.copyWord {s : State} {w : Word} {ext : Bool} {c : Reg} (h : Formed s) : Ends effState (s.copyWord w ext c) := by
  unfold State.copyWord
  dsimp only
  refine .ite (.of_state rfl h) ?_
  split
  · exact .of_state rfl h
  · split
    · exact .of_state rfl h
    · exact .enterCopy h
theorem Ends.execCpy {x0 : Hdr} {d a b c : Reg} {s : State} (h : Formed s) : Ends outState (Machine.execCpy x0 d a b c s) :=
  .issue h (fun _ _ h1 => .copyWord h1)
theorem Ends.execCpyx {x0 : Hdr} {d a b c : Reg} {s : State} (h : Formed s) : Ends outState (Machine.execCpyx x0 d a b c s) :=
  .issue h (fun _ _ h1 => .copyWord h1)
theorem Ends.execCpys {x0 : Hdr} {d a b c : Reg} {s : State} (h : Formed s) : Ends outState (Machine.execCpys x0 d a b c s) := by
  unfold Machine.execCpys
  dsimp only
  refine .issue h (fun _ _ h1 => ?_)
  refine .ite (.of_state rfl h1) ?_
  split
  · exact .of_state rfl h1
  · split
    · exact .of_state rfl h1
    · exact .enterCopy h1
theorem Ends.putPieces {s : State} {a : Agent} {ext : Bool} {ga n : Nat} {l : List (List Byte)} (h : Formed s) :
    Ends putState (s.putPieces a ext ga n l) := by
  induction l generalizing s ga n with
  | nil => exact .of_state rfl h
  | cons x t ih =>
    unfold State.putPieces
    split
    · exact .of_state rfl h
    · exact .of_state rfl (.engMiss h)
    · exact .of_state rfl (.engUsed h)
    · split
      · rename_i e
        exact .of_state rfl (.engWait (.of_eq (.engPut h) e rfl))
      · exact .of_state rfl h
      · rename_i e
        exact ih (.spillHit (.of_eq (.engPut h) e rfl))
theorem Ends.getPieces {s : State} {a : Agent} {ext : Bool} {ga n : Nat} (h : Formed s) :
    Ends sndState (s.getPieces a ext ga n) := by
  induction n generalizing s ga with
  | zero => exact .pair h
  | succ n ih =>
    unfold State.getPieces
    split
    · exact .pair h
    · exact .pair (.engMiss h)
    · exact .pair (.engUsed h)
    · split
      · rename_i e
        exact .pair (.of_eq (.engRead h) e rfl)
      · exact .pair h
      · exact .pair (ih (.readsAt (.ite (.same h) h))).snd
theorem Ends.deliverChunk {s : State} {a : Agent} {op : CopyOp} {t : CopyTgt} {off : Nat} {l : List Byte}
    {rest : List (Nat × List Byte)} (h : Formed s) :
    Ends sndState (s.deliverChunk a op t off l rest) := by
  unfold State.deliverChunk
  split
  · rename_i e3
    exact .pair (.of_eq (.putPieces h) e3 rfl)
  · rename_i e3
    exact .pair (.of_eq (.putPieces h) e3 rfl)
  · rename_i e3
    exact .pair (.of_eq (.putPieces h) e3 rfl)
theorem Ends.toTarget {s : State} {a : Agent} {op : CopyOp} {held : List Nat} {off : Nat} {l : List Byte} {t : CopyTgt}
    (h : Formed s) :
    Ends sndState (s.toTarget a op held off l t) :=
  .ite (.pair h) (.ite (.pair h) (.deliverChunk h))
theorem Ends.retryTarget {s : State} {a : Agent} {op : CopyOp} {held : List Nat} {t : CopyTgt} (h : Formed s) :
    Ends sndState (s.retryTarget a op held t) := by
  unfold State.retryTarget
  split
  · exact .ite (.pair h) (.deliverChunk h)
  · exact .pair h
theorem Ends.overTargets {f : State → CopyTgt → CopyTgt × State} {s : State} {l : List CopyTgt} (h : Formed s)
    (hf : ∀ x0 x1, Formed x0 → Ends sndState (f x0 x1)) :
    Ends sndState (Machine.overTargets f s l) :=
  .foldl (fun _ _ h1 => .pair (.snd (hf _ _ h1.snd))) (.pair h)
theorem Ends.smearTarget {s : State} {a : Agent} {op : CopyOp} {ix : Nat} (h : Formed s) : Formed (s.smearTarget a op ix) :=
  .foldl (fun _ _ h1 => .smearAt h1) h
theorem Ends.finishCopy {s : State} {a : Agent} {core : Nat} {op : CopyOp} (h : Formed s) : Formed (s.finishCopy a core op) :=
  .opDone (.updCore (.foldl (fun _ _ h2 => .smearAt h2) (.foldl (fun _ _ h2 => .smearTarget h2) h)))
theorem Ends.copyStep {s : State} {core : Nat} {op : CopyOp} (h : Formed s) : Formed (s.copyStep core op) := by
  unfold State.copyStep
  dsimp only
  split
  · exact .ite (.finishCopy (.snd (.overTargets h (fun _ _ h1 => .retryTarget h1)))) (.updCore (.snd (.overTargets h (fun _ _ h2 =>
      .retryTarget h2))))
  · refine .ite (.finishCopy (.snd (.overTargets h (fun _ _ h3 => .retryTarget h3)))) ?_
    refine .ite (.updCore (.snd (.overTargets h (fun _ _ h4 => .retryTarget h4)))) ?_
    split
    · rename_i e1
      exact .updCore (.of_eq (.getPieces (.spend (.snd (.overTargets h (fun _ _ h5 => .retryTarget h5))))) e1 rfl)
    · rename_i e2
      exact .finishCopy (.of_eq (.getPieces (.spend (.snd (.overTargets h (fun _ _ h6 => .retryTarget h6))))) e2 rfl)
    · rename_i e3
      exact .ite (.finishCopy (.snd (.overTargets (.of_eq (.getPieces (.spend (.snd (.overTargets h (fun _ _ h7 => .retryTarget
        h7))))) e3 rfl) (fun _ _ h8 => .toTarget h8)))) (.updCore (.snd (.overTargets (.of_eq (.getPieces (.spend (.snd
        (.overTargets h (fun _ _ h7 => .retryTarget h7))))) e3 rfl) (fun _ _ h9 => .toTarget h9))))
theorem Ends.execCopyChunk {core : Nat} {s : State} (h : Formed s) : Ends outState (Machine.execCopyChunk core s) := by
  unfold Machine.execCopyChunk
  dsimp only
  refine .of_state rfl ?_
  split
  · exact .copyStep (.foldl (fun _ _ h1 => .copyStep h1) h)
  · exact .foldl (fun _ _ h2 => .copyStep h2) h
theorem Ends.execBatch {x0 : Hdr} {d : Reg} {cls : Cls} {s : State} (h : Formed s) : Ends outState (Machine.execBatch x0 d cls s) :=
  .issue h (fun _ _ h1 => .ite (.of_state rfl h1) (.ite (.of_state rfl h1) (.of_state rfl (.updGroup h1))))
theorem Ends.waitBatches {s : State} {w : Word} {cls : Cls} {covers : W32 → Bool} (h : Formed s) :
    Ends effState (s.waitBatches w cls covers) := by
  unfold State.waitBatches
  dsimp only
  refine .ite (.of_state rfl h) ?_
  refine .ite (.of_state rfl h) ?_
  split
  · rename_i e
    exact .of_state rfl (.of_eq (.batchFault (.coverFelt (.l1Clear h))) e rfl)
  · exact .of_state rfl (.coverFelt (.l1Clear h))
theorem Ends.execWaitb {x0 : Hdr} {a : Reg} {imm : BitVec 22} {cls : Cls} {s : State} (h : Formed s) :
    Ends outState (Machine.execWaitb x0 a imm cls s) :=
  .issue h (fun _ _ h1 => .waitBatches h1)
theorem Ends.execWaitn {x0 : Hdr} {imm : BitVec 22} {cls : Cls} {s : State} (h : Formed s) :
    Ends outState (Machine.execWaitn x0 imm cls s) :=
  .issue h (fun _ _ h1 => .waitBatches h1)
theorem Ends.execBatchComplete {gs : Nat} {cls : Cls} {s : State} (h : Formed s) :
    Ends outState (Machine.execBatchComplete gs cls s) :=
  .of_state rfl (.updGroup h)

/-! ### Subs -/

theorem Ends.updSub {s : State} {core x2 : Nat} {f : SubEnt → SubEnt} (h : Formed s) : Formed (s.updSub core x2 f) :=
  .updCore h
theorem Ends.updPub {s : State} {core p : Nat} {f : PubEnt → PubEnt} (h : Formed s) : Formed (s.updPub core p f) :=
  .updCore h
theorem Ends.freeSub {s : State} {core x2 : Nat} (h : Formed s) : Formed (s.freeSub core x2) := by
  unfold State.freeSub
  split
  · exact h
  · refine .same ?_
    refine .updCore ?_
    split
    · exact .updCore h
    · exact h
theorem Ends.smearSub {s : State} {core : Nat} {e : SubEnt} (h : Formed s) : Formed (s.smearSub core e) :=
  .smear h
theorem Ends.breakSub {s : State} {core x2 : Nat} (h : Formed s) : Formed (s.breakSub core x2) := by
  unfold State.breakSub
  split
  · exact h
  · exact .smearSub (.updSub h)
theorem Ends.maybeBreak {s : State} {core x2 : Nat} {e : SubEnt} (h : Formed s) : Formed (s.maybeBreak core x2 e) :=
  .ite (.breakSub h) h
theorem Ends.updSubOf {s : State} {p : PubEnt} {f : SubEnt → SubEnt} (h : Formed s) : Formed (s.updSubOf p f) := by
  unfold State.updSubOf
  split
  · exact .updSub h
  · exact .same h
theorem Ends.acceptSub {s : State} {w : Word} {core : Nat} {me pub : Workgroup} {pid x6 p : Nat} {pair : Bool}
    {pidx so po len : Nat} (h : Formed s) :
    Formed (s.acceptSub w core me pub pid x6 p pair pidx so po len) := by
  unfold State.acceptSub
  exact .updCore (.updCore h)
theorem Ends.execSubs {x0 : Hdr} {d a b c : Reg} {pair : Bool} {s : State} (h : Formed s) :
    Ends outState (Machine.execSubs x0 d a b c pair s) := by
  unfold Machine.execSubs
  refine .issue h (fun _ _ h1 => ?_)
  refine .ite (.of_state rfl h1) ?_
  split
  · split
    · exact .of_state rfl h1
    · exact .of_state rfl (.updGroup h1)
  · exact .of_state rfl h1
  · refine .ite (.of_state rfl h1) ?_
    refine .ite (.of_state rfl (.updGroup h1)) ?_
    split
    · exact .of_state rfl (.updGroup h1)
    · refine .ite (.of_state rfl (.updGroup h1)) ?_
      refine .ite (.of_state rfl (.updGroup h1)) ?_
      split
      · exact .of_state rfl (.updGroup h1)
      · exact .of_state rfl (.updGroup h1)
      · exact .of_state rfl (.updGroup (.acceptSub h1))
theorem Ends.execUnsub {x0 : Hdr} {d a : Reg} {s : State} (h : Formed s) : Ends outState (Machine.execUnsub x0 d a s) := by
  unfold Machine.execUnsub
  refine .issue h (fun _ _ h1 => ?_)
  refine .ite (.of_state rfl h1) ?_
  split
  · exact .of_state rfl (.updGroup h1)
  · exact .of_state rfl (.updGroup h1)
  · split
    · exact .of_state rfl (.updGroup (.freeSub h1))
    · exact .of_state rfl (.updGroup (.freeSub h1))
    · exact .of_state rfl (.updGroup (.updSub h1))
    · exact .of_state rfl (.updGroup (.updSub h1))
    · exact .of_state rfl (.updGroup h1)
theorem Ends.execSubfl {x0 : Hdr} {s : State} (h : Formed s) : Ends outState (Machine.execSubfl x0 s) :=
  .issue h (fun _ _ h1 => .ite (.of_state rfl h1) (.ite (.of_state rfl h1) (.ite (.of_state rfl (.updGroup (.ite (.startDrain h1)
    h1))) (.of_state rfl (.ite (.startDrain h1) h1)))))
theorem Ends.execSubq {x0 : Hdr} {d a : Reg} {s : State} (h : Formed s) : Ends outState (Machine.execSubq x0 d a s) :=
  .issue h (fun _ _ h1 => .of_state rfl (.updGroup h1))
theorem Ends.execSnapshotSegment {core pub : Nat} {s : State} (h : Formed s) :
    Ends outState (Machine.execSnapshotSegment core pub s) := by
  unfold Machine.execSnapshotSegment
  refine .of_state rfl ?_
  split
  · exact h
  · refine .ite h ?_
    refine .ite ?_ ?_
    · split
      · exact h
      · rename_i e1
        exact .updPub (.of_eq (.ite (.sendUpd h) (.of_state rfl h)) e1 rfl)
    · split
      · exact h
      · rename_i e2
        exact .updCore (.of_eq (.sendUpd h) e2 rfl)
theorem Ends.feltStop {s : State} {spid core handles : Nat} (h : Formed s) : Formed (s.feltStop spid core handles) :=
  .updPart h
theorem Ends.feltDiscard {s : State} {core : Nat} (h : Formed s) : Formed (s.feltDiscard core) := by
  unfold State.feltDiscard
  refine .foldl (fun _ _ h1 => ?_) (.updCore h)
  split
  · exact .ite (.smearSub (.updSubOf (.feltStop (.feltStop h1)))) (.updSubOf (.feltStop (.feltStop h1)))
  · exact .updSubOf (.feltStop (.feltStop h1))
theorem Ends.execFeltEviction {core : Nat} {s : State} (h : Formed s) : Ends outState (Machine.execFeltEviction core s) := by
  unfold Machine.execFeltEviction
  refine .of_state rfl ?_
  split
  · exact .ite h (.ite (.feltDiscard h) (.getD (.feltEvict h) h))
  · exact h
theorem Ends.execFeltEntryAgeExpiry {core : Nat} {s : State} (h : Formed s) :
    Ends outState (Machine.execFeltEntryAgeExpiry core s) := by
  unfold Machine.execFeltEntryAgeExpiry
  refine .of_state rfl ?_
  split
  · exact .ite (.getD (.feltEvict h) h) h
  · exact h
theorem Ends.takeUpd {s : State} {core x2 : Nat} {e : SubEnt} {seg : Nat} {mask : W64} {data : List Byte} {ser : BitVec 16}
    (h : Formed s) :
    Formed (s.takeUpd core x2 e seg mask data ser) :=
  .ite h (.ite (.maybeBreak (.updSub h)) (.setLsWm (.lsPut (.updSub h))))
theorem Ends.execFeltUpdateApply {src dst : Nat} {s : State} (h : Formed s) :
    Ends outState (Machine.execFeltUpdateApply src dst s) := by
  unfold Machine.execFeltUpdateApply
  refine .of_state rfl ?_
  split
  · exact h
  · refine .ite h ?_
    split
    · exact .answerSerial (.same h)
    · exact .ite (.answerSerial (.same h)) (.ite (.maybeBreak (.answerSerial (.same h))) (.updSub (.takeUpd (.answerSerial (.same
        h)))))
theorem Ends.execDetachMessage {core sub : Nat} {s : State} (h : Formed s) :
    Ends outState (Machine.execDetachMessage core sub s) := by
  unfold Machine.execDetachMessage
  refine .of_state rfl ?_
  split
  · exact h
  · refine .ite h ?_
    refine .updSub ?_
    refine .same ?_
    refine .snd ?_
    refine .newId ?_
    split
    · exact .ite h (.updPub h)
    · exact h
theorem Ends.execDetachAcknowledgement {core sub : Nat} {s : State} (h : Formed s) :
    Ends outState (Machine.execDetachAcknowledgement core sub s) := by
  unfold Machine.execDetachAcknowledgement
  refine .of_state rfl ?_
  split
  · exact h
  · split
    · exact .ite (.updSub (.same h)) h
    · exact h
theorem Ends.execAttachMessage {core sub : Nat} {s : State} (h : Formed s) :
    Ends outState (Machine.execAttachMessage core sub s) := by
  unfold Machine.execAttachMessage
  refine .of_state rfl ?_
  split
  · exact h
  · refine .ite h ?_
    refine .ite h ?_
    split
    · exact .ite (.updSub h) (.ite (.updPub h) (.updSub (.updPub h)))
    · exact .ite h (.updSub h)
theorem Ends.replaySlots {s : State} {core sub : Nat} {l : List Nat} (h : Formed s) : Formed (s.replaySlots core sub l) := by
  induction l generalizing s with
  | nil => exact h
  | cons i t ih =>
    unfold State.replaySlots
    split
    · exact h
    · exact .ite (.breakSub h) (ih (.takeUpd h))
theorem Ends.loseSub {s : State} {core sub : Nat} (h : Formed s) : Formed (s.loseSub core sub) := by
  unfold State.loseSub
  split
  · exact .ite (.smearSub (.updSub h)) h
  · exact h
theorem Ends.execAttachReply {core sub : Nat} {s : State} (h : Formed s) : Ends outState (Machine.execAttachReply core sub s) := by
  unfold Machine.execAttachReply
  refine .of_state rfl ?_
  split
  · exact h
  · exact .ite h (.ite (.breakSub h) (.loseSub (.updSub (.replaySlots h))))
theorem Ends.execResumeMessage {core sub : Nat} {s : State} (h : Formed s) :
    Ends outState (Machine.execResumeMessage core sub s) := by
  unfold Machine.execResumeMessage
  refine .of_state rfl ?_
  split
  · exact h
  · refine .ite h ?_
    split
    · exact .updSub (.updCore (.updPub h))
    · exact .updSub h
theorem Ends.execUnsubRemoval {core sub : Nat} {s : State} (h : Formed s) :
    Ends outState (Machine.execUnsubRemoval core sub s) := by
  unfold Machine.execUnsubRemoval
  refine .of_state rfl ?_
  split
  · exact h
  · refine .ite h ?_
    split
    · exact .ite h (.freeSub h)
    · exact .ite (.updSub (.updCore (.updPub h))) (.ite h (.freeSub h))
theorem Ends.freeSubs {s : State} {wid core : Nat} (h : Formed s) : Formed (s.freeSubs wid core) :=
  .foldl (fun _ _ h1 => .freeSub h1) h
theorem Ends.releasePubs {s : State} {wid core : Nat} (h : Formed s) : Formed (s.releasePubs wid core) :=
  .foldl (fun _ _ h1 => .updSubOf (.ite (.same (.updCore h1)) (.updCore h1))) h

/-! ### Barrier -/

theorem Ends.wgCheck {s : State} {wid : Nat} (h : Formed s) : Formed (s.wgCheck wid) := by
  unfold State.wgCheck
  split
  · exact h
  · exact .ite (.updWg h) h
theorem Ends.gangCheck {s : State} {wid : Nat} (h : Formed s) : Formed (s.gangCheck wid) := by
  unfold State.gangCheck
  split
  · exact h
  · exact .ite h (.foldl (fun _ _ h1 => .updWg h1) h)
theorem Ends.gridCheck {s : State} {wid : Nat} (h : Formed s) : Formed (s.gridCheck wid) := by
  unfold State.gridCheck
  split
  · exact h
  · exact .ite h (.foldl (fun _ _ h1 => .updWg h1) h)
theorem Ends.barCheck {s : State} {wid : Nat} (h : Formed s) : Formed (s.barCheck wid) :=
  .gridCheck (.gangCheck (.wgCheck h))
theorem Ends.arriveBar {s : State} {gs : Nat} {k : BarKind} (h : Formed s) : Formed (s.arriveBar gs k) := by
  unfold State.arriveBar
  dsimp only
  split
  · exact h
  · exact .barCheck (.updWg (.updGroup (.tickRc h)))
theorem Ends.depart {s : State} {gs : Nat} {k : BarKind} (h : Formed s) : Formed (s.depart gs k) := by
  unfold State.depart
  split
  · exact h
  · split
    · exact h
    · exact .acquireL1 (.ite (.updGroup h) (.passGen (.updGroup h)))
theorem Ends.beforeArrival {s : State} {w : Word} {sco : Sco} {k : State → Eff} (h : Formed s)
    (hk : ∀ x0, Formed x0 → Ends effState (k x0)) :
    Ends effState (s.beforeArrival w sco k) := by
  unfold State.beforeArrival
  split
  · exact .ite (.of_state rfl h) (hk _ h)
  · exact .ite (.of_state rfl h) (.ite (.of_state rfl (.updGroup (.startDrain h))) (hk _ (.startDrain h)))
theorem Ends.barrier {s : State} {w : Word} {k : BarKind} (h : Formed s) : Ends effState (s.barrier w k) := by
  unfold State.barrier
  dsimp only
  refine .ite (.of_state rfl h) ?_
  refine .ite (.ite (.of_state rfl (.depart h)) (.of_state rfl h)) ?_
  refine .ite (.of_state rfl h) ?_
  refine .beforeArrival h (fun _ h1 => ?_)
  split
  · exact .ite (.of_state rfl (.depart (.updGroup (.arriveBar h1)))) (.of_state rfl (.updGroup (.arriveBar h1)))
  · exact .of_state rfl (.updGroup (.arriveBar h1))
theorem Ends.execBar {x0 : Hdr} {s : State} (h : Formed s) : Ends outState (Machine.execBar x0 s) :=
  .issue h (fun _ _ h1 => .barrier h1)
theorem Ends.execCbar {x0 : Hdr} {s : State} (h : Formed s) : Ends outState (Machine.execCbar x0 s) :=
  .issue h (fun _ _ h1 => .barrier h1)
theorem Ends.execBara {x0 : Hdr} {s : State} (h : Formed s) : Ends outState (Machine.execBara x0 s) :=
  .issue h (fun _ _ h2 => .ite (.of_state rfl h2) (.beforeArrival h2 (fun _ h2 => .of_state rfl (.arriveBar h2))))
theorem Ends.execBarw {x0 : Hdr} {s : State} (h : Formed s) : Ends outState (Machine.execBarw x0 s) :=
  .issue h (fun _ _ h1 => .ite (.of_state rfl h1) (.ite (.of_state rfl (.depart h1)) (.of_state rfl h1)))
theorem Ends.execGbar {x0 : Hdr} {s : State} (h : Formed s) : Ends outState (Machine.execGbar x0 s) :=
  .issue h (fun _ _ h1 => .ite (.of_state rfl h1) (.barrier h1))
theorem Ends.execQcnt {x0 : Hdr} {d : Reg} {q : Fin 8} {s : State} (h : Formed s) : Ends outState (Machine.execQcnt x0 d q s) :=
  .issue h (fun _ _ h1 => .ite (.of_state rfl h1) (.of_state rfl (.updGroup h1)))
theorem Ends.qtryEvent {s : State} {w : Word} {q : Nat} {can : Bool} {k : Bool → State → Eff} (h : Formed s)
    (hk : ∀ x0 x1, Formed x1 → Ends effState (k x0 x1)) :
    Ends effState (s.qtryEvent w q can k) := by
  unfold State.qtryEvent
  dsimp only
  split
  · exact .of_state rfl h
  · exact .of_state rfl (.parting h)
  · exact .ite (.of_state rfl h) (hk _ _ (.useEvent h))
  · exact hk _ _ (.logGroup h)
theorem Ends.setPred {s : State} {w : Word} {p : Pred} {v : Bool} (h : Formed s) : Formed (s.setPred w p v) :=
  .updGroup h
theorem Ends.execQtry {x0 : Hdr} {op : QTry} {s : State} (h : Formed s) : Ends outState (Machine.execQtry x0 op s) := by
  unfold Machine.execQtry
  refine .issue h (fun _ _ h1 => ?_)
  refine .ite (.of_state rfl h1) ?_
  split
  · exact .qtryEvent h1 (fun _ _ h2 => .ite (.of_state rfl (.setPred h2)) (.of_state rfl (.sendResult (.updWg (.setPred h2)))))
  · exact .ite (.of_state rfl h1) (.qtryEvent h1 (fun _ _ h3 => .of_state rfl (.ite (.push (.setPred h3)) (.setPred h3))))

/-! ### Bits -/

theorem Ends.bits2 {i : Instr} {t : Ty} {d : Reg} {op : Nat → Nat → Nat} {x4 : State} (h : Formed x4) :
    Ends outState (Machine.bits2 i t d op x4) :=
  .alu h
theorem Ends.bitsI {i : Instr} {t : Ty} {d : Reg} {imm : BitVec 22} {op : Nat → Nat → Nat} {x5 : State} (h : Formed x5) :
    Ends outState (Machine.bitsI i t d imm op x5) :=
  .alu h
theorem Ends.bits1 {i : Instr} {t : Ty} {d : Reg} {op : Nat → Nat} {x4 : State} (h : Formed x4) :
    Ends outState (Machine.bits1 i t d op x4) :=
  .alu h
theorem Ends.shiftR {i : Instr} {t : Ty} {d : Reg} {op : Nat → Nat → Nat} {x4 : State} (h : Formed x4) :
    Ends outState (Machine.shiftR i t d op x4) :=
  .alu h
theorem Ends.shiftI {i : Instr} {t : Ty} {d : Reg} {imm : BitVec 22} {op : Nat → Nat → Nat} {x5 : State} (h : Formed x5) :
    Ends outState (Machine.shiftI i t d imm op x5) :=
  .alu h
theorem Ends.execAnd {x0 : Hdr} {d a b : Reg} {ty : Ty} {x5 : State} (h : Formed x5) :
    Ends outState (Machine.execAnd x0 d a b ty x5) :=
  .bits2 h
theorem Ends.execAndRri {x0 : Hdr} {d a : Reg} {imm : BitVec 22} {ty : Ty} {x5 : State} (h : Formed x5) :
    Ends outState (Machine.execAndRri x0 d a imm ty x5) :=
  .bitsI h
theorem Ends.execOr {x0 : Hdr} {d a b : Reg} {ty : Ty} {x5 : State} (h : Formed x5) :
    Ends outState (Machine.execOr x0 d a b ty x5) :=
  .bits2 h
theorem Ends.execOrRri {x0 : Hdr} {d a : Reg} {imm : BitVec 22} {ty : Ty} {x5 : State} (h : Formed x5) :
    Ends outState (Machine.execOrRri x0 d a imm ty x5) :=
  .bitsI h
theorem Ends.execXor {x0 : Hdr} {d a b : Reg} {ty : Ty} {x5 : State} (h : Formed x5) :
    Ends outState (Machine.execXor x0 d a b ty x5) :=
  .bits2 h
theorem Ends.execXorRri {x0 : Hdr} {d a : Reg} {imm : BitVec 22} {ty : Ty} {x5 : State} (h : Formed x5) :
    Ends outState (Machine.execXorRri x0 d a imm ty x5) :=
  .bitsI h
theorem Ends.execNot {x0 : Hdr} {d a : Reg} {ty : Ty} {x4 : State} (h : Formed x4) : Ends outState (Machine.execNot x0 d a ty x4) :=
  .bits1 h
theorem Ends.execAndn {x0 : Hdr} {d a b : Reg} {ty : Ty} {x5 : State} (h : Formed x5) :
    Ends outState (Machine.execAndn x0 d a b ty x5) :=
  .bits2 h
theorem Ends.execAndnRri {x0 : Hdr} {d a : Reg} {imm : BitVec 22} {ty : Ty} {x5 : State} (h : Formed x5) :
    Ends outState (Machine.execAndnRri x0 d a imm ty x5) :=
  .bitsI h
theorem Ends.execShl {x0 : Hdr} {d a b : Reg} {ty : Ty} {x5 : State} (h : Formed x5) :
    Ends outState (Machine.execShl x0 d a b ty x5) :=
  .shiftR h
theorem Ends.execShlRri {x0 : Hdr} {d a : Reg} {imm : BitVec 22} {ty : Ty} {x5 : State} (h : Formed x5) :
    Ends outState (Machine.execShlRri x0 d a imm ty x5) :=
  .shiftI h
theorem Ends.execShr {x0 : Hdr} {d a b : Reg} {ty : Ty} {x5 : State} (h : Formed x5) :
    Ends outState (Machine.execShr x0 d a b ty x5) :=
  .shiftR h
theorem Ends.execShrRri {x0 : Hdr} {d a : Reg} {imm : BitVec 22} {ty : Ty} {x5 : State} (h : Formed x5) :
    Ends outState (Machine.execShrRri x0 d a imm ty x5) :=
  .shiftI h
theorem Ends.execSar {x0 : Hdr} {d a b : Reg} {ty : Ty} {x5 : State} (h : Formed x5) :
    Ends outState (Machine.execSar x0 d a b ty x5) :=
  .shiftR h
theorem Ends.execSarRri {x0 : Hdr} {d a : Reg} {imm : BitVec 22} {ty : Ty} {x5 : State} (h : Formed x5) :
    Ends outState (Machine.execSarRri x0 d a imm ty x5) :=
  .shiftI h
theorem Ends.execRotl {x0 : Hdr} {d a b : Reg} {ty : Ty} {x5 : State} (h : Formed x5) :
    Ends outState (Machine.execRotl x0 d a b ty x5) :=
  .shiftR h
theorem Ends.execRotlRri {x0 : Hdr} {d a : Reg} {imm : BitVec 22} {ty : Ty} {x5 : State} (h : Formed x5) :
    Ends outState (Machine.execRotlRri x0 d a imm ty x5) :=
  .shiftI h
theorem Ends.execFunnel {x0 : Hdr} {d a b c : Reg} {right : Bool} {x6 : State} (h : Formed x6) :
    Ends outState (Machine.execFunnel x0 d a b c right x6) :=
  .alu h
theorem Ends.execPopc {x0 : Hdr} {d a : Reg} {ty : Ty} {x4 : State} (h : Formed x4) :
    Ends outState (Machine.execPopc x0 d a ty x4) :=
  .alu h
theorem Ends.execClz {x0 : Hdr} {d a : Reg} {ty : Ty} {x4 : State} (h : Formed x4) : Ends outState (Machine.execClz x0 d a ty x4) :=
  .alu h
theorem Ends.execCtz {x0 : Hdr} {d a : Reg} {ty : Ty} {x4 : State} (h : Formed x4) : Ends outState (Machine.execCtz x0 d a ty x4) :=
  .alu h
theorem Ends.execBrev {x0 : Hdr} {d a : Reg} {ty : Ty} {x4 : State} (h : Formed x4) :
    Ends outState (Machine.execBrev x0 d a ty x4) :=
  .bits1 h
theorem Ends.execBfx {x0 : Hdr} {d a b c : Reg} {ty : Ty} {x6 : State} (h : Formed x6) :
    Ends outState (Machine.execBfx x0 d a b c ty x6) :=
  .alu h
theorem Ends.execBfi {x0 : Hdr} {d a b c : Reg} {ty : Ty} {x6 : State} (h : Formed x6) :
    Ends outState (Machine.execBfi x0 d a b c ty x6) :=
  .alu h
theorem Ends.execBmrg {x0 : Hdr} {d a b c : Reg} {x5 : State} (h : Formed x5) : Ends outState (Machine.execBmrg x0 d a b c x5) :=
  .alu h
theorem Ends.execCnvi {x0 : Hdr} {d a : Reg} {ty sty : Ty} {sat : Bool} {x6 : State} (h : Formed x6) :
    Ends outState (Machine.execCnvi x0 d a ty sty sat x6) :=
  .alu h

/-! ### Collective -/

theorem Ends.withColl {s : State} {w : Word} {ranges : Bool} {k : CollDesc → Nat → Bool → Eff} (h : Formed s)
    (hk : ∀ x0 x1 x2, Ends effState (k x0 x1 x2)) :
    Ends effState (s.withColl w ranges k) :=
  .ite (.of_state rfl h) (.ite (.of_state rfl h) (.withLanes h (fun _ => .ite (.of_state rfl h) (.ite (hk _ _ _) (.ite (.of_state
    rfl h) (.withLanes h (fun _ => .withLanes h (fun _ => hk _ _ _))))))))
theorem Ends.joinColl {s : State} {w : Word} {d : CollDesc} {n id : Nat} (h : Formed s) : Formed (s.joinColl w d n id) := by
  unfold State.joinColl
  split
  · exact .same (.snd (.newId h))
  · exact .same h
theorem Ends.execColl {x0 : Hdr} {a : Reg} {s : State} (h : Formed s) : Ends outState (Machine.execColl x0 a s) := by
  unfold Machine.execColl
  dsimp only
  refine .issue h (fun _ _ h1 => ?_)
  refine .ite (.of_state rfl h1) ?_
  refine .withColl h1 (fun _ _ _ => ?_)
  refine .ite (.of_state rfl h1) ?_
  refine .ite ?_ (.ite (.of_state rfl h1) (.of_state rfl (.updGroup (.joinColl (.snd (.newId (.notReplayable h1)))))))
  split
  · rename_i e1
    exact .of_state rfl (.updGroup (.of_eq (.engPut (.snd (.newId (.notReplayable h1)))) e1 rfl))
  · rename_i e2
    exact .of_state rfl (.of_eq (.engPut (.snd (.newId (.notReplayable h1)))) e2 rfl)
  · exact .of_state rfl h1
theorem Ends.execCabort {x0 : Hdr} {a : Reg} {s : State} (h : Formed s) : Ends outState (Machine.execCabort x0 a s) :=
  .issue h (fun _ _ h1 => .ite (.ite (.of_state rfl h1) (.of_state rfl h1)) (.withColl h1 (fun _ _ _ => .of_state rfl (.updGroup
    (.same (.sendWrites h1))))))
theorem Ends.abortColls {s : State} {comm : W32} {att : Byte} (h : Formed s) : Formed (s.abortColls comm att) :=
  .same h
theorem Ends.execAbortToken {comm : W32} {att : Byte} {s : State} (h : Formed s) :
    Ends outState (Machine.execAbortToken comm att s) :=
  .of_state rfl (.ite (.same (.abortColls h)) h)
theorem Ends.updColl {s : State} {k : Nat} {f : Coll → Coll} (h : Formed s) : Formed (s.updColl k f) :=
  .same h
theorem Ends.failPart {s : State} {k : Nat} {p : CollPart} {code det addr : Nat} (h : Formed s) :
    Formed (s.failPart k p code det addr) :=
  .opDone (.updColl h)
theorem Ends.execCollectivePacket {coll rank chunk : Nat} {s : State} (h : Formed s) :
    Ends outState (Machine.execCollectivePacket coll rank chunk s) := by
  unfold Machine.execCollectivePacket
  dsimp only
  refine .of_state rfl ?_
  split
  · exact h
  · split
    · exact h
    · refine .ite h ?_
      split
      · rename_i e1
        exact .of_eq (.getPieces h) e1 rfl
      · rename_i e2
        exact .failPart (.of_eq (.getPieces h) e2 rfl)
      · rename_i e3
        exact .updColl (.of_eq (.getPieces h) e3 rfl)
theorem Ends.collWrite {s : State} {k : Nat} {p : CollPart} {a : Agent} {l : List (Nat × List Byte)} (h : Formed s) :
    Ends fstState (s.collWrite k p a l) := by
  induction l generalizing s with
  | nil => exact .pair' h
  | cons x t ih =>
    unfold State.collWrite
    refine .ite (ih h) ?_
    split
    · rename_i e
      exact ih (.updColl (.of_eq (.putPieces h) e rfl))
    · rename_i e
      exact .pair' (.updColl (.of_eq (.putPieces h) e rfl))
    · rename_i e
      exact .pair' (.failPart (.of_eq (.putPieces h) e rfl))
theorem Ends.collFinish {s : State} {k : Nat} {p : CollPart} {a : Agent} {c : Coll} (h : Formed s) :
    Formed (s.collFinish k p a c) := by
  unfold State.collFinish
  split
  · rename_i e3
    exact .opDone (.updColl (.of_eq (.putPieces h) e3 rfl))
  · rename_i e3
    exact .of_eq (.putPieces h) e3 rfl
  · rename_i e3
    exact .failPart (.of_eq (.putPieces h) e3 rfl)
theorem Ends.collSmear {s : State} {a : Agent} {p : CollPart} (h : Formed s) : Formed (s.collSmear a p) :=
  .foldl (fun _ _ h1 => .smearAt h1) h
theorem Ends.collPart {s : State} {k : Nat} {p : CollPart} (h : Formed s) : Formed (s.collPart k p) := by
  unfold State.collPart
  split
  · exact h
  · refine .ite h ?_
    refine .ite (.collFinish (.collSmear h)) ?_
    split
    · rename_i e1
      exact .collFinish (.of_eq (.collWrite h) e1 rfl)
    · rename_i e2
      exact .of_eq (.collWrite h) e2 rfl
theorem Ends.execCollectiveComplete {coll : Nat} {s : State} (h : Formed s) :
    Ends outState (Machine.execCollectiveComplete coll s) := by
  unfold Machine.execCollectiveComplete
  dsimp only
  refine .of_state rfl ?_
  split
  · exact h
  · refine .ite h ?_
    split
    · exact .foldl (fun _ _ h1 => .collPart h1) h
    · exact .ite (.same (.foldl (fun _ _ h2 => .collPart h2) h)) (.foldl (fun _ _ h3 => .collPart h3) h)

/-! ### Commit -/

theorem Ends.txSend {s : State} {gs : Nat} {m : TxMsg} {lanes : Mask} {accs : List LaneAcc} (h : Formed s) :
    Formed (s.txSend gs m lanes accs) := by
  unfold State.txSend
  split
  · exact h
  · exact .putReq h
theorem Ends.updTxe {s : State} {gs : Nat} {f : TxRun → TxRun} (h : Formed s) : Formed (s.updTxe gs f) :=
  .updGroup h
theorem Ends.sendPrepare {s : State} {gs sl : Nat} (h : Formed s) : Formed (s.sendPrepare gs sl) := by
  unfold State.sendPrepare
  split
  · exact h
  · exact .txSend h
theorem Ends.sendAborts {s : State} {gs : Nat} {l : List (Nat × Nat)} (h : Formed s) : Formed (s.sendAborts gs l) :=
  .foldl (fun _ _ h1 => .ite h1 (.txSend h1)) h
theorem Ends.decideTxe {s : State} {gs : Nat} {commit : Mask} (h : Formed s) : Formed (s.decideTxe gs commit) := by
  unfold State.decideTxe
  split
  · exact h
  · exact .sendAborts (.foldl (fun _ _ h1 => .txSend h1) (.updTxe h))
theorem Ends.txSettle {s : State} {gs : Nat} (h : Formed s) : Formed (s.txSettle gs) := by
  unfold State.txSettle
  split
  · exact h
  · exact .ite (.updGroup h) h
theorem Ends.txUndo {s : State} {gs : Nat} (h : Formed s) : Formed (s.txUndo gs) := by
  unfold State.txUndo
  split
  · exact h
  · split
    · exact .updGroup h
    · exact .ite (.updGroup h) (.ite (.txSettle (.decideTxe (.updGroup h))) (.updGroup h))
theorem Ends.takeDecision {s : State} {gs : Nat} (h : Formed s) : Formed (s.takeDecision gs) := by
  unfold State.takeDecision
  split
  · exact h
  · split
    · exact h
    · refine .ite (.txSettle (.decideTxe h)) ?_
      refine .gated h h (fun _ _ h1 => ?_)
      split
      · exact .ite (.decideTxe (.ite (.updGroup h1) (.acquireL1 (.mergePending (.tickRc (.updGroup h1)))))) (.parting h1)
      · exact .decideTxe (.ite (.logGroup h1) (.acquireL1 (.mergePending (.tickRc (.logGroup h1)))))
theorem Ends.beginTxe {s : State} {w : Word} {lanes : List Nat} (h : Formed s) : Formed (s.beginTxe w lanes) := by
  unfold State.beginTxe
  dsimp only
  split
  · exact .takeDecision (.updGroup h)
  · exact .sendPrepare (.updGroup h)
theorem Ends.execTxe {x0 : Hdr} {s : State} (h : Formed s) : Ends outState (Machine.execTxe x0 s) := by
  unfold Machine.execTxe
  refine .issue h (fun _ _ h1 => ?_)
  split
  · exact .ite (.of_state rfl (.ite (.updGroup (.updGroup h1)) (.updGroup (.acquireL1 (.mergePending (.updGroup (.updGroup h1)))))))
      (.of_state rfl h1)
  · exact .ite (.of_state rfl h1) (.ite (.of_state rfl (.updGroup h1)) (.ite (.of_state rfl h1) (.of_state rfl (.beginTxe h1))))
theorem Ends.recallLines {s : State} {q : Req} (h : Formed s) : Ends id (s.recallLines q) :=
  .foldl (fun _ _ h2 => .bind (fun _ h2 => .recallHome h2) h2) (.of_state rfl h)
theorem Ends.prepareCode {s : State} {gs id L code : Nat} (h : Formed s) : Formed (s.prepareCode gs id L code) :=
  .updTxe (.updReq h)
theorem Ends.prepareLane {s : State} {gs sl id L : Nat} (h : Formed s) : Formed (s.prepareLane gs sl id L) := by
  unfold State.prepareLane
  split
  · exact h
  · exact .ite (.prepareCode h) (.ite (.ite h (.ite (.prepareCode h) (.updTxe h))) (.ite (.updTxe (.prepareCode (.same h)))
      (.prepareCode h)))
theorem Ends.prepareDone {s : State} {id : Nat} {ser : BitVec 16} {copy : Nat} (h : Formed s) :
    Formed (s.prepareDone id ser copy) := by
  unfold State.prepareDone
  split
  · exact h
  · exact .ite (.ownerKeeps (.updReq h)) h
theorem Ends.execTxPrepare {gs : Nat} {s : State} (h : Formed s) : Ends outState (Machine.execTxPrepare gs s) := by
  unfold Machine.execTxPrepare
  refine .of_state rfl ?_
  split
  · exact h
  · split
    · exact h
    · rename_i e
      exact .prepareDone (.foldl (fun _ _ h1 => .prepareLane h1) (.of_eq (.recallLines (.snd (.ownerDecides h))) e rfl))
theorem Ends.execTxPrepareReply {gs : Nat} {s : State} (h : Formed s) : Ends outState (Machine.execTxPrepareReply gs s) := by
  unfold Machine.execTxPrepareReply
  dsimp only
  refine .of_state rfl ?_
  split
  · exact h
  · split
    · exact .updTxe (.updGroup (.dropReq h))
    · split
      · exact .takeDecision (.updTxe (.updGroup (.dropReq h)))
      · exact .sendPrepare (.updTxe (.updTxe (.updGroup (.dropReq h))))
theorem Ends.execTxPrepareTimeout {gs lane : Nat} {s : State} (h : Formed s) :
    Ends outState (Machine.execTxPrepareTimeout gs lane s) := by
  unfold Machine.execTxPrepareTimeout
  refine .of_state rfl ?_
  split
  · exact .ite (.prepareDone (.prepareCode h)) h
  · exact h
theorem Ends.releaseWords {s : State} {gs lane sl : Nat} (h : Formed s) : Formed (s.releaseWords gs lane sl) :=
  .same h
theorem Ends.txFault {s : State} {gs : Nat} {g : Machine.Group} {r : TxRun} {c : Cause} (h : Formed s) :
    Formed (s.txFault gs g r c) :=
  .txSettle (.raise (.updGroup (.sendAborts (.updTxe (.foldl (fun _ _ h1 => .dropReq h1) h)))))
theorem Ends.txReturn {s : State} {id : Nat} {q : Req} {g : Machine.Group} (h : Formed s) : Formed (s.txReturn id q g) :=
  .ite (.same (.updReq h)) (.updReq h)
theorem Ends.txReturned {s : State} {id gs : Nat} {g : Machine.Group} {r : TxRun} {q : Req} (h : Formed s) :
    Formed (s.txReturned id gs g r q) := by
  unfold State.txReturned
  dsimp only
  split
  · exact .txFault h
  · exact .updReq (.updTxe (.foldl (fun _ _ h1 => .appendRace h1) h))
theorem Ends.txWrite {s : State} {gs : Nat} {g : Machine.Group} {r : TxRun} {q : Req} {n : Nat} (h : Formed s) :
    Formed (s.txWrite gs g r q n) :=
  .updTxe (.spillHits (.foldl (fun _ _ h1 => .noteStrong h1) (.blurAll (.l1Drop (.recordSector (.spoil (.homeWrite (.ite
    (.countCheck h) h))))))))
theorem Ends.txCommitGo {s : State} {id gs sl lane : Nat} {g : Machine.Group} {q : Req} {ser : BitVec 16} {copy : Nat}
    (h : Formed s) :
    Formed (s.txCommitGo id gs sl lane g q ser copy) := by
  unfold State.txCommitGo
  refine .ownerKeeps ?_
  refine .updReq ?_
  refine .releaseWords ?_
  refine .foldl (fun _ _ h1 => ?_) h
  split
  · exact .txWrite h1
  · exact h1
theorem Ends.execTxCommitMessage {gs lane slice : Nat} {s : State} (h : Formed s) :
    Ends outState (Machine.execTxCommitMessage gs lane slice s) := by
  unfold Machine.execTxCommitMessage
  refine .of_state rfl ?_
  split
  · refine .ite h ?_
    split
    · exact h
    · rename_i e
      exact .ite (.txFault (.same (.of_eq (.recallLines (.snd (.ownerDecides h))) e rfl))) (.ite (.copyGone (.txReturn (.same
        (.of_eq (.recallLines (.snd (.ownerDecides h))) e rfl)))) (.ite h (.txCommitGo (.same (.of_eq (.recallLines (.snd
        (.ownerDecides h))) e rfl)))))
  · exact h
theorem Ends.execTxAbortMessage {gs lane slice : Nat} {s : State} (h : Formed s) :
    Ends outState (Machine.execTxAbortMessage gs lane slice s) := by
  unfold Machine.execTxAbortMessage
  refine .of_state rfl ?_
  split
  · exact h
  · exact .ownerKeeps (.updReq (.releaseWords (.snd (.ownerDecides h))))

/-! ### CrossLane -/

theorem Ends.execLxch {x0 : Hdr} {d a b : Reg} {mode : LxMode} {seg : Seg} {x6 : State} (h : Formed x6) :
    Ends outState (Machine.execLxch x0 d a b mode seg x6) :=
  .alu h
theorem Ends.execLxchRri {x0 : Hdr} {d a : Reg} {imm : BitVec 22} {mode : LxMode} {seg : Seg} {x6 : State} (h : Formed x6) :
    Ends outState (Machine.execLxchRri x0 d a imm mode seg x6) :=
  .alu h
theorem Ends.execPoll {x0 : Hdr} {d : PollDst} {a : Pred} {inv : Bool} {x4 : State} (h : Formed x4) :
    Ends outState (Machine.execPoll x0 d a inv x4) :=
  .alu h
theorem Ends.execLred {x0 : Hdr} {d a : Reg} {op : LOp} {ty : Ty} {x5 : State} (h : Formed x5) :
    Ends outState (Machine.execLred x0 d a op ty x5) :=
  .alu h
theorem Ends.execPeer {x0 : Hdr} {d a : Reg} {ty : Ty} {whole : Bool} {x5 : State} (h : Formed x5) :
    Ends outState (Machine.execPeer x0 d a ty whole x5) :=
  .alu h
theorem Ends.execBcast {x0 : Hdr} {d a b : Reg} {first : Bool} {x5 : State} (h : Formed x5) :
    Ends outState (Machine.execBcast x0 d a b first x5) :=
  .alu h
theorem Ends.meet {s : State} {w : Word} {d : Reg} {pgs : Nat} {p : Machine.Group} {same : Bool} {range : Option (Nat × Nat)}
    (h : Formed s) :
    Ends effState (s.meet w d pgs p same range) :=
  .ite (.of_state rfl (.raise (.updWg h))) (.ite (.of_state rfl (.updGroup (.updWg (.updWg h)))) (.ite (.of_state rfl (.updGroup
    (.updGroup (.same (.updGroup (.updWg h)))))) (.of_state rfl (.updGroup (.updWg (.updGroup (.same (.updWg h))))))))
theorem Ends.execRegroup {x0 : Hdr} {d a b : Reg} {gi : BitVec 5} {s : State} (h : Formed s) :
    Ends outState (Machine.execRegroup x0 d a b gi s) := by
  unfold Machine.execRegroup
  dsimp only
  refine .issue h (fun _ _ h1 => ?_)
  split
  · exact .of_state rfl h1
  · split
    · exact .of_state rfl (.updGroup (.updWg h1))
    · split
      · exact .of_state rfl h1
      · refine .ite (.of_state rfl (.updWg h1)) ?_
        split
        · exact .of_state rfl (.updGroup (.updWg h1))
        · split
          · exact .ite (.meet h1) (.of_state rfl (.updWg h1))
          · exact .of_state rfl (.updWg h1)

/-! ### Audit -/

theorem Ends.extend {s : State} {m : Nat} {x : BitVec 384} (h : Formed s) : Formed (s.extend m x) :=
  .same h
theorem Ends.auditPut {s : State} {typ : Nat} {body : List Byte} (h : Formed s) : Formed (s.auditPut typ body) :=
  .same h
theorem Ends.auditOne {s : State} {typ : Nat} {body : List Byte} (h : Formed s) : Formed (s.auditOne typ body) :=
  .ite (.auditPut h) (.ite (.same h) (.same h))
theorem Ends.audit {s : State} {typ : Nat} {body : List Byte} (h : Formed s) : Formed (s.audit typ body) :=
  .ite (.auditOne (.auditOne h)) (.auditOne h)
theorem Ends.checkpoint {s : State} (h : Formed s) : Formed s.checkpoint :=
  .audit h
theorem Ends.auditFlush {s : State} (h : Formed s) : Formed s.auditFlush :=
  .foldl (fun _ _ h1 => .audit h1) (.same h)
theorem Ends.notice {s : State} {rcd : List Byte} (h : Formed s) : Formed (s.notice rcd) :=
  .ite h (.same (.wrBytes h))
theorem Ends.retireRecord {s : State} {kind reason action die core lb index live spare parts : Nat} (h : Formed s) :
    Formed (s.retireRecord kind reason action die core lb index live spare parts) :=
  .same (.notice (.audit h))

/-! ### Matrix -/

theorem Ends.putTile {s : State} {u : TileUpd} (h : Formed s) : Formed (s.putTile u) :=
  .updCore h
theorem Ends.smearTile {s : State} {core : Nat} {ixs : List Nat} (h : Formed s) : Formed (s.smearTile core ixs) :=
  .foldl (fun _ _ h1 => .updCore (.snd (.draw h1))) h
theorem Ends.setPhase {s : State} {gs : Nat} {ph : Phase} (h : Formed s) : Formed (s.setPhase gs ph) :=
  .updGroup h
theorem Ends.clearTeam {s : State} {wid k : Nat} (h : Formed s) : Formed (s.clearTeam wid k) :=
  .updWg h
theorem Ends.teamFault {s : State} {wid k : Nat} (h : Formed s) : Formed (s.teamFault wid k) := by
  unfold State.teamFault
  split
  · exact h
  · refine .foldl (fun _ _ h1 => ?_) (.clearTeam h)
    split
    · exact h1
    · split
      · exact .raise h1
      · exact h1
theorem Ends.takeArray {s : State} {core wid : Nat} (h : Formed s) : Formed (s.takeArray core wid) :=
  .updCore h
theorem Ends.logEntry {s : State} {iss core : Nat} (h : Formed s) : Formed (s.logEntry iss core) := by
  unfold State.logEntry
  split
  · exact h
  · split
    · exact .useEvent h
    · exact .logGroup h
theorem Ends.startMat {s : State} {k : MatKind} {pc : W64} {wg iss : Nat} {cores : List Nat} {teams : List Team} (h : Formed s) :
    Formed (s.startMat k pc wg iss cores teams) :=
  .foldl (fun _ _ h4 => .setPhase (.updGroup h4)) (.foldl (fun _ _ h4 => .clearTeam h4) (.foldl (fun _ _ h4 => .updCore h4) (.foldl
    (fun _ _ h4 => .logEntry h4) (.snd (.newId h)))))
theorem Ends.arriveQuad {s : State} {q : QuadPart} {qj : BitVec 16} {count : W32} {spid : Nat} (h : Formed s) :
    Formed (s.arriveQuad q qj count spid) :=
  .ite h (.ite (.startMat (.same h)) (.same h))
theorem Ends.startTeam {s : State} {w : Word} {f : Info} {k iss : Nat} {mems : List Nat} {prep : Word → State → Prep}
    (h : Formed s) :
    Ends effState (s.startTeam w f k iss mems prep) := by
  unfold State.startTeam
  dsimp only
  split
  · exact .of_state rfl h
  · split
    · exact .of_state rfl h
    · split
      · exact .ite (.of_state rfl (.foldl (fun _ _ h1 => .setPhase h1) (.clearTeam h))) (.of_state rfl (.raise (.foldl (fun _ _ h2
          => .setPhase h2) (.clearTeam h))))
      · exact .of_state rfl h
      · refine .ite (.of_state rfl h) ?_
        split
        · exact .of_state rfl h
        · exact .of_state rfl (.parting h)
        · refine .of_state rfl ?_
          refine .startMat ?_
          split
          · exact .updCore (.ite h (.takeArray h))
          · exact h
      · exact .ite (.of_state rfl (.arriveQuad h)) (.of_state rfl (.arriveQuad h))
theorem Ends.teamIssue {s : State} {w : Word} {f : Info} {prep : Word → State → Prep} (h : Formed s) :
    Ends effState (s.teamIssue w f prep) := by
  unfold State.teamIssue
  dsimp only
  split
  · exact .of_state rfl h
  · refine .ite (.of_state rfl h) ?_
    refine .ite (.of_state rfl h) ?_
    refine .ite (.of_state rfl h) ?_
    refine .ite (.of_state rfl (.ite (.takeArray h) h)) ?_
    refine .ite (.of_state rfl (.ite (.takeArray h) h)) ?_
    split
    · exact .of_state rfl (.teamFault (.ite (.takeArray h) h))
    · refine .ite ?_ (.of_state rfl (.updGroup (.updWg (.ite (.takeArray h) h))))
      split
      · exact .of_state rfl (.updGroup (.updWg (.ite (.takeArray h) h)))
      · exact .startTeam (.updGroup (.updWg (.ite (.takeArray h) h)))
theorem Ends.matIssue {i : Instr} {prep : Word → State → Prep} {s : State} (h : Formed s) :
    Ends outState (Machine.matIssue i prep s) := by
  unfold Machine.matIssue
  refine .issue h (fun _ _ h1 => ?_)
  split
  · exact .teamIssue h1
  · exact .of_state rfl h1
theorem Ends.execMma {x0 : Hdr} {t : Tile} {a b c : Reg} {form : MForm} {sp ck : Bool} {ckt : Tile} {x9 : State} (h : Formed x9) :
    Ends outState (Machine.execMma x0 t a b c form sp ck ckt x9) :=
  .matIssue h
theorem Ends.execMzero {x0 : Hdr} {t : Tile} {x2 : State} (h : Formed x2) : Ends outState (Machine.execMzero x0 t x2) :=
  .matIssue h
theorem Ends.execMldt {x0 : Hdr} {t : Tile} {a : Reg} {x3 : State} (h : Formed x3) : Ends outState (Machine.execMldt x0 t a x3) :=
  .matIssue h
theorem Ends.execMstt {x0 : Hdr} {t : Tile} {a : Reg} {x3 : State} (h : Formed x3) : Ends outState (Machine.execMstt x0 t a x3) :=
  .matIssue h
theorem Ends.execMepi {x0 : Hdr} {t : Tile} {a b c : Reg} {x5 : State} (h : Formed x5) :
    Ends outState (Machine.execMepi x0 t a b c x5) :=
  .matIssue h
theorem Ends.execMchk {x0 : Hdr} {t k : Tile} {b : Reg} {te : BitVec 6} {i8 : Bool} {x6 : State} (h : Formed x6) :
    Ends outState (Machine.execMchk x0 t k b te i8 x6) :=
  .matIssue h
theorem Ends.execMzmap {x0 : Hdr} {d : Reg} {t : Tile} {s : State} (h : Formed s) : Ends outState (Machine.execMzmap x0 d t s) :=
  .issue h (fun _ _ h1 => .ite (.of_state rfl h1) (.of_state rfl (.updGroup h1)))
theorem Ends.leaveMat {s : State} {op : MatOp} (h : Formed s) : Formed (s.leaveMat op) :=
  .foldl (fun _ _ h1 => .updCore h1) h
theorem Ends.smearMat {s : State} {op : MatOp} (h : Formed s) : Formed (s.smearMat op) := by
  unfold State.smearMat
  refine .foldl (fun _ _ h1 => ?_) (.foldl (fun _ _ h2 => .smearTile h2) h)
  split
  · exact .smear h1
  · exact h1
theorem Ends.failMat {s : State} {op : MatOp} {code addr : Nat} (h : Formed s) : Formed (s.failMat op code addr) :=
  .foldl (fun _ _ h1 => .opDone h1) (.leaveMat (.smearMat h))
theorem Ends.finishMat {s : State} {op : MatOp} (h : Formed s) : Formed (s.finishMat op) :=
  .foldl (fun _ _ h1 => .opDone h1) (.leaveMat h)
theorem Ends.matOut {s : State} {a : Agent} {op : MatOp} {l : List (Nat × List Byte)} (h : Formed s) :
    Formed (s.matOut a op l) := by
  induction l generalizing s with
  | nil => exact .finishMat h
  | cons x t ih =>
    unfold State.matOut
    split
    · rename_i e
      exact ih (.of_eq (.putPieces h) e rfl)
    · rename_i e
      exact .foldl (fun _ _ h => .updCore h) (.of_eq (.putPieces h) e rfl)
    · rename_i e
      exact .failMat (.of_eq (.putPieces h) e rfl)
theorem Ends.execMatrixOperation {core : Nat} {s : State} (h : Formed s) : Ends outState (Machine.execMatrixOperation core s) := by
  unfold Machine.execMatrixOperation
  refine .of_state rfl ?_
  split
  · exact h
  · refine .ite h ?_
    split
    · exact .matOut h
    · split
      · exact h
      · exact .failMat h
      · exact .matOut (.foldl (fun _ _ h1 => .putTile h1) h)
theorem Ends.execQuadArrivalTimeout {quad : Nat} {qj : BitVec 16} {s : State} (h : Formed s) :
    Ends outState (Machine.execQuadArrivalTimeout quad qj s) :=
  .of_state rfl (.foldl (fun _ _ h2 => .foldl (fun _ _ h2 => .teamFault h2) h2) (.same h))

/-! ### Placement -/

theorem Ends.clearLswm {s : State} {core base size : Nat} (h : Formed s) : Formed (s.clearLswm core base size) :=
  .updCore h
theorem Ends.gangFor {s : State} {gid : Nat} {g : Grid} {cluster : Nat} (h : Formed s) :
    Ends sndState (s.gangFor gid g cluster) := by
  unfold State.gangFor
  split
  · exact .pair h
  · exact .pair (.same (.snd (.newId h)))
theorem Ends.deckleEvent {s : State} {spid : Nat} {name : Nat × Nat × Nat} {key : Nat} {v : W64} (h : Formed s) :
    Formed (s.deckleEvent spid name key v) := by
  unfold State.deckleEvent
  split
  · exact .useEvent h
  · exact .logEvent h
theorem Ends.startWg {s : State} {gid : Nat} {p : Place} (h : Formed s) : Formed (s.startWg gid p) := by
  unfold State.startWg
  split
  · exact h
  · exact .deckleEvent (.l1Clear (.clearLswm (.foldl (fun _ _ h1 => .same (.enterSlot h1)) (.updGrid (.same (.snd (.gangFor (.snd
      (.newId h)))))))))

/-! ### Launch -/

theorem Ends.handOver {s : State} {g : Grid} {l : List Run} {es : List Extent} (h : Formed s) :
    Ends launchState (s.handOver g l es) :=
  .of_state rfl (.deckleEvent (.updSpace (.same (.snd (.newId h)))))
theorem Ends.putCap {s : State} {g : Grid} {l : List Run} (h : Formed s) : Formed (s.putCap g l) := by
  unfold State.putCap
  dsimp only
  split
  · exact .plainWrite h
  · exact h
theorem Ends.carryLaunch {s : State} {g : Grid} (h : Formed s) : Ends launchState (s.carryLaunch g) := by
  unfold State.carryLaunch
  dsimp only
  split
  · exact .of_none rfl
  · refine .ite (.handOver h) ?_
    split
    · exact .of_state rfl (.haltBy h)
    · split
      · exact .of_state rfl (.haltBy (.putCap h))
      · exact .ite (.of_state rfl (.haltBy (.putCap h))) (.handOver (.putCap h))
theorem Ends.launchNow {s : State} {w : Word} {d : Reg} {p : Grid} {desc : Tbl W64} (h : Formed s) :
    Ends effState (s.launchNow w d p desc) := by
  unfold State.launchNow
  refine .ite (.of_state rfl (.updGroup h)) ?_
  split
  · exact .of_state rfl (.updGroup h)
  · exact .of_state rfl (.updGroup h)
  · split
    · exact .of_state rfl (.updGroup h)
    · rename_i e1
      exact .of_state rfl (.of_eq (.carryLaunch h) e1 rfl)
    · rename_i e2
      exact .of_state rfl (.updGroup (.updGroup (.of_eq (.carryLaunch h) e2 rfl)))
theorem Ends.execLaunch {x0 : Hdr} {d a : Reg} {s : State} (h : Formed s) : Ends outState (Machine.execLaunch x0 d a s) := by
  unfold Machine.execLaunch
  refine .issue h (fun _ _ h1 => ?_)
  split
  · exact .of_state rfl h1
  · exact .ite (.of_state rfl h1) (.ite (.of_state rfl h1) (.ite (.of_state rfl h1) (.ite (.of_state rfl h1) (.withLanes h1 (fun _
      => .withLanes h1 (fun _ => .launchNow h1))))))
theorem Ends.dropGrid {s : State} {k : Nat} (h : Formed s) : Formed (s.dropGrid k) :=
  .same h
theorem Ends.execLwait {x0 : Hdr} {d a : Reg} {s : State} (h : Formed s) : Ends outState (Machine.execLwait x0 d a s) :=
  .issue h (fun _ _ h2 => .ite (.of_state rfl h2) (.ite (.of_state rfl (.updGroup h2)) (.ite (.of_state rfl h2) (.of_state rfl
    (.updGroup (.acquireL1 (.updGroup (.foldl (fun _ _ h2 => .dropGrid h2) h2))))))))

/-! ### Signal -/

theorem Ends.hbPut {s : State} {q : HbFor} {ga : Nat} {l : List Byte} (h : Formed s) : Ends (resState some) (s.hbPut q ga l) := by
  unfold State.hbPut
  split
  · exact .of_none rfl
  · exact .agentAll h
theorem Ends.hbGet {α : Type} {s : State} {q : HbFor} {ga n : Nat} {k : State → Nat → EngRes α} {f : α → Option Machine.State}
    (h : Formed s) (hk : ∀ x0 x1, Formed x0 → Ends (resState f) (k x0 x1)) :
    Ends (resState f) (s.hbGet q ga n k) := by
  unfold State.hbGet
  split
  · exact .of_none rfl
  · exact .agentReads h (fun _ h1 => hk _ _ h1)
theorem Ends.sigUpdate {s : State} {q : HbFor} {ga : Nat} {op : AOp} {v : Nat} (h : Formed s) :
    Ends (resState some) (s.sigUpdate q ga op v) := by
  unfold State.sigUpdate
  split
  · exact .of_none rfl
  · split
    · rename_i e1
      exact .of_state rfl (.of_eq (.agentRmw h) e1 rfl)
    · rename_i e2
      exact .of_state rfl (.of_eq (.agentRmw h) e2 rfl)
    · exact .of_none rfl
theorem Ends.sigRead {s : State} {q : HbFor} {ga : Nat} (h : Formed s) : Ends (resState fun _ => none) (s.sigRead q ga) :=
  .hbGet h (fun _ _ _ => .of_none rfl)
theorem Ends.csig {s : State} {q : HbFor} {ga : Nat} (h : Formed s) : Ends (resState some) (s.csig q ga) :=
  .ite (.of_state rfl h) (.sigUpdate h)

/-! ### System -/

theorem Ends.execSrd {x0 : Hdr} {d : Reg} {r : SReg} {s : State} (h : Formed s) : Ends outState (Machine.execSrd x0 d r s) := by
  unfold Machine.execSrd
  refine .issue h (fun _ _ h1 => ?_)
  split
  · refine .ite (.of_state rfl h1) ?_
    refine .ite (.of_state rfl (.deliver h1)) ?_
    split
    · exact .of_state rfl (.deliver (.logGroup h1))
    · exact .of_state rfl (.deliver (.useEvent h1))
    · exact .of_state rfl h1
    · exact .of_state rfl (.parting h1)
  · exact .of_state rfl h1
theorem Ends.execSwr {x0 : Hdr} {a : Reg} {r : SReg} {s : State} (h : Formed s) : Ends outState (Machine.execSwr x0 a r s) :=
  .issue h (fun _ _ h1 => .ite (.of_state rfl h1) (.of_state rfl (.updGroup h1)))
theorem Ends.execTrap {x0 : Hdr} {imm : W32} {s : State} (h : Formed s) : Ends outState (Machine.execTrap x0 imm s) :=
  .issue h (fun _ _ h1 => .ite (.of_state rfl h1) (.of_state rfl h1))
theorem Ends.execBpt {x0 : Hdr} {imm : W32} {s : State} (h : Formed s) : Ends outState (Machine.execBpt x0 imm s) :=
  .issue h (fun _ _ h1 => .ite (.of_state rfl h1) (.of_state rfl (.traceMark h1)))
theorem Ends.execMark {x0 : Hdr} {imm : W32} {s : State} (h : Formed s) : Ends outState (Machine.execMark x0 imm s) :=
  .issue h (fun _ _ h1 => .ite (.of_state rfl h1) (.of_state rfl (.traceMark h1)))

/-! ### Supervisor -/

theorem Ends.execTlbw {x0 : Hdr} {a b : Reg} {lvl : Fin 3} {s : State} (h : Formed s) :
    Ends outState (Machine.execTlbw x0 a b lvl s) := by
  unfold Machine.execTlbw
  refine .issue h (fun _ _ h1 => ?_)
  refine .ite (.of_state rfl h1) ?_
  split
  · exact .of_state rfl (.ite (.fillTlb (.updLb h1)) (.updLb h1))
  · exact .ite (.of_state rfl h1) (.of_state rfl (.ite (.fillTlb h1) h1))
theorem Ends.invalidate {s : State} {part spid : Nat} {va : Option Nat} (h : Formed s) : Formed (s.invalidate part spid va) :=
  .foldl (fun _ _ h2 => .foldl (fun _ _ h2 => .dropTlb h2) h2) h
theorem Ends.execTlbi {x0 : Hdr} {a b : Reg} {space : Bool} {s : State} (h : Formed s) :
    Ends outState (Machine.execTlbi x0 a b space s) :=
  .issue h (fun _ _ h1 => .ite (.of_state rfl h1) (.of_state rfl (.invalidate h1)))
theorem Ends.endTouch {s : State} {gs : Nat} {g : Machine.Group} {r : FtRun} (h : Formed s) : Formed (s.endTouch gs g r) := by
  unfold State.endTouch
  dsimp only
  split
  · exact .raise (.same h)
  · exact .raise (.same h)
  · exact .same h
theorem Ends.execHret {x0 : Hdr} {status : Byte} {s : State} (h : Formed s) : Ends outState (Machine.execHret x0 status s) := by
  unfold Machine.execHret
  refine .issue h (fun _ _ h1 => ?_)
  refine .ite (.of_state rfl h1) ?_
  refine .ite ?_ ?_
  · split
    · exact .of_state rfl (.endWalk h1)
    · exact .of_state rfl h1
  · split
    · exact .of_state rfl h1
    · exact .ite (.of_state rfl (.endTouch h1)) (.of_state rfl (.updGroup h1))

/-! ### Retire -/

theorem Ends.stopHit {s : State} {gs : Nat} {a : At} {spid info : Nat} (h : Formed s) : Formed (s.stopHit gs a spid info) :=
  .raise (.updSpace h)
theorem Ends.leaveSlot {s : State} {gs : Nat} {g : Machine.Group} (h : Formed s) : Formed (s.leaveSlot gs g) :=
  .barCheck (.updWg (.same (.foldl (fun _ _ h1 => .dropGrid h1) h)))
theorem Ends.endGang {s : State} {gang : Nat} (h : Formed s) : Formed (s.endGang gang) :=
  .same (.foldl (fun _ _ h1 => .releasePubs h1) h)
theorem Ends.endWg {s : State} {wid : Nat} (h : Formed s) : Formed (s.endWg wid) := by
  unfold State.endWg
  dsimp only
  split
  · exact h
  · refine .ite h ?_
    split
    · exact .barCheck (.updGrid (.updWg (.freeSubs (.foldl (fun _ _ h1 => .ite (.updCore h1) h1) h))))
    · exact .ite (.endGang (.barCheck (.updGrid (.updWg (.freeSubs (.foldl (fun _ _ h2 => .ite (.updCore h2) h2) h)))))) (.barCheck
        (.updGrid (.updWg (.freeSubs (.foldl (fun _ _ h3 => .ite (.updCore h3) h3) h)))))
theorem Ends.retireGroup {s : State} {gs : Nat} {g : Machine.Group} (h : Formed s) : Formed (s.retireGroup gs g) := by
  unfold State.retireGroup
  dsimp only
  split
  · rename_i e1
    exact .of_eq (.reportHeld h) e1 rfl
  · split
    · rename_i e2
      exact .raise (.of_eq (.batchFault h) e2 rfl)
    · refine .ite (.stopHit h) ?_
      split
      · exact .parting h
      · exact .endWg (.leaveSlot h)
theorem Ends.execGroupRetirement {gs : Nat} {s : State} (h : Formed s) : Ends outState (Machine.execGroupRetirement gs s) := by
  unfold Machine.execGroupRetirement
  refine .of_state rfl ?_
  split
  · exact h
  · exact .ite h (.ite (.teamFault h) (.ite (.retireGroup h) (.startDrain (.updGroup h))))
theorem Ends.readLog {s : State} {gid : Nat} {g : Grid} (h : Formed s) : Formed (s.readLog gid g) := by
  unfold State.readLog
  dsimp only
  refine .ite (.haltBy (.foldl (fun _ _ h1 => .dropReq h1) h)) ?_
  split
  · exact .getD (.recallAll (.foldl (fun _ _ h2 => .dropReq h2) h)) (.foldl (fun _ _ h3 => .dropReq h3) h)
  · exact .updGrid (.same (.foldl (fun _ _ h4 => .dropReq h4) h))
theorem Ends.applyNext {s : State} {gid : Nat} {g : Grid} {x3 : List (Nat × W32)} (h : Formed s) :
    Formed (s.applyNext gid g x3) := by
  unfold State.applyNext
  dsimp only
  split
  · refine .ite (.haltBy h) ?_
    split
    · exact .haltBy h
    · rename_i e1
      exact .of_eq (.agentRmw h) e1 rfl
    · rename_i e2
      exact .updGrid (.of_eq (.agentRmw h) e2 rfl)
  · split
    · exact .updGrid h
    · split
      · rename_i e3
        exact .updGrid (.of_eq (.agentAll h) e3 rfl)
      · rename_i e4
        exact .of_eq (.agentAll h) e4 rfl
      · exact .haltBy h
theorem Ends.execReductionApplication {grid : Nat} {s : State} (h : Formed s) :
    Ends outState (Machine.execReductionApplication grid s) := by
  unfold Machine.execReductionApplication
  refine .of_state rfl ?_
  split
  · exact h
  · refine .ite h ?_
    split
    · exact .readLog h
    · exact .applyNext h
theorem Ends.execGridRetirement {grid : Nat} {s : State} (h : Formed s) : Ends outState (Machine.execGridRetirement grid s) := by
  unfold Machine.execGridRetirement
  dsimp only
  refine .of_state rfl ?_
  split
  · exact h
  · refine .ite h ?_
    split
    · exact .dropGrid (.same h)
    · split
      · rename_i e1
        exact .ite (.updGrid (.of_eq (.csig h) e1 rfl)) (.dropGrid (.of_eq (.csig h) e1 rfl))
      · rename_i e2
        exact .of_eq (.csig h) e2 rfl
      · exact .ite (.updGrid h) (.dropGrid h)

/-! ### Interval -/

theorem Ends.beginInterval {s : State} {spid start : Nat} {number : W32} {lpkt : List W64} (h : Formed s) :
    Formed (s.beginInterval spid start number lpkt) :=
  .ite (.updSpace h) (.putDbg (.wrWords (.same (.updSpace h))))

/-! ### Headbox -/

theorem Ends.putQcb {s : State} {n : Nat} {c : Qcb} {all : Bool} (h : Formed s) : Formed (s.putQcb n c all) :=
  .ite (.plainWrite (.plainWrite (.plainWrite (.plainWrite (.plainWrite (.plainWrite (.same h))))))) (.plainWrite (.plainWrite
    (.plainWrite (.same h))))
theorem Ends.updQcb {s : State} {n : Nat} {f : Qcb → Qcb} (h : Formed s) : Formed (s.updQcb n f) :=
  .same h
theorem Ends.cacheQ {s : State} {n : Nat} (h : Formed s) : Formed (s.cacheQ n) := by
  unfold State.cacheQ
  split
  · exact h
  · refine .ite h ?_
    refine .updQcb ?_
    refine .ite h ?_
    split
    · exact .putQcb (.same h)
    · exact h
theorem Ends.haltQueue {s : State} {n err det idx : Nat} (h : Formed s) : Formed (s.haltQueue n err det idx) := by
  unfold State.haltQueue
  dsimp only
  split
  · exact h
  · exact .ite h (.putQcb (.cacheQ h))
theorem Ends.ringDoorbell {s : State} {hwq : Nat} {value : W64} (h : Formed s) : Formed (s.ringDoorbell hwq value) := by
  unfold State.ringDoorbell
  split
  · exact h
  · exact .ite h (.same (.updQcb (.cacheQ h)))
theorem Ends.execDoorbellWrite {hwq : Nat} {value : W64} {s : State} (h : Formed s) :
    Ends outState (Machine.execDoorbellWrite hwq value s) :=
  .of_state rfl (.ringDoorbell h)
theorem Ends.rereadDue {s : State} {queue : Nat} (h : Formed s) : Formed (s.rereadDue queue) :=
  .updQcb h
theorem Ends.laneCycles {s : State} (h : Formed s) : Formed s.laneCycles := by
  unfold State.laneCycles
  refine .foldl (fun _ _ h1 => ?_) h
  split
  · exact .spend h1
  · exact h1
theorem Ends.takePacket {s : State} {n : Nat} {c : Qcb} (h : Formed s) : Formed (s.takePacket n c) := by
  unfold State.takePacket
  dsimp only
  split
  · exact .haltQueue h
  · rename_i e
    exact .of_eq (.hbGet (f := fun _ => none) h fun _ _ _ => .of_none rfl) e rfl
  · refine .ite (.updQcb h) ?_
    split
    · exact .haltQueue h
    · exact .haltQueue h
    · split
      · exact .haltQueue h
      · split
        · exact .haltQueue h
        · rename_i e
          exact .of_eq (.agentAll h) e rfl
        · rename_i e
          exact .same (.putQcb (.snd (.newId (.of_eq (.agentAll h) e rfl))))
theorem Ends.laneTake {s : State} {queue : Nat} (h : Formed s) : Formed (s.laneTake queue) := by
  unfold State.laneTake
  dsimp only
  split
  · exact h
  · refine .ite h ?_
    split
    · exact .takePacket (.same (.cacheQ h))
    · exact .same (.cacheQ h)
theorem Ends.updPk {s : State} {pk : Nat} {f : Packet → Packet} (h : Formed s) : Formed (s.updPk pk f) :=
  .same h
theorem Ends.dropPk {s : State} {pk : Nat} (h : Formed s) : Formed (s.dropPk pk) :=
  .same h
theorem Ends.Packet_served {p : Packet} {pk : Nat} {x2 : Served} (hx2 : Ends servedState x2) : Formed (Packet.served p pk x2) := by
  unfold Packet.served
  split
  · exact .updPk (.of_eq hx2 rfl rfl)
  · exact .updPk (.of_eq hx2 rfl rfl)
  · exact .updPk (.of_eq hx2 rfl rfl)
  · exact .haltQueue (.dropPk (.of_eq hx2 rfl rfl))
  · exact .of_eq hx2 rfl rfl
theorem Ends.servePk {s : State} {pk typ : Nat} {k : Packet → Qcb → State → Served} (h : Formed s)
    (hk : ∀ x0 x1 x2, Formed x2 → Ends servedState (k x0 x1 x2)) :
    Formed (s.servePk pk typ k) := by
  unfold State.servePk
  split
  · exact h
  · exact .ite h (.ite (.updPk h) (.Packet_served (hk _ _ _ h)))
theorem Ends.execNopPacket {pk : Nat} {s : State} (h : Formed s) : Ends outState (Machine.execNopPacket pk s) :=
  .of_state rfl (.servePk h (fun _ _ _ h1 => .of_state rfl h1))
theorem Ends.execSignal {pk : Nat} {s : State} (h : Formed s) : Ends outState (Machine.execSignal pk s) := by
  unfold Machine.execSignal
  dsimp only
  refine .of_state rfl ?_
  refine .servePk h (fun _ _ _ h1 => ?_)
  split
  · rename_i e1
    exact .of_state rfl (.of_eq (.sigUpdate h1) e1 rfl)
  · rename_i e2
    exact .of_state rfl (.of_eq (.sigUpdate h1) e2 rfl)
  · exact .of_state rfl h1
theorem Ends.serveWait {s : State} {pk : Nat} (h : Formed s) : Formed (s.serveWait pk) := by
  unfold State.serveWait
  refine .servePk h (fun _ _ _ h1 => ?_)
  split
  · exact .of_state rfl h1
  · rename_i e
    exact .of_state rfl (.of_eq (.sigRead h1) e rfl)
  · exact .ite (.of_state rfl h1) (.of_state rfl h1)
theorem Ends.execWait {pk : Nat} {s : State} (h : Formed s) : Ends outState (Machine.execWait pk s) :=
  .of_state rfl (.serveWait h)
theorem Ends.signalsOf {s : State} {q : HbFor} {l : List Nat} (h : Formed s) : Ends (resState fun _ => none) (s.signalsOf q l) := by
  induction l with
  | nil => exact .of_none rfl
  | cons a t ih =>
    unfold State.signalsOf
    split
    · exact .of_none rfl
    · rename_i e
      exact .of_state rfl (.of_eq (.sigRead h) e rfl)
    · split
      · exact .of_none rfl
      · exact ih
theorem Ends.serveBarrier {s : State} {pk typ : Nat} {holds : List Nat → Bool} (h : Formed s) :
    Formed (s.serveBarrier pk typ holds) := by
  unfold State.serveBarrier
  refine .servePk h (fun _ _ _ h1 => ?_)
  split
  · exact .of_state rfl h1
  · rename_i e
    exact .of_state rfl (.of_eq (.signalsOf h1) e rfl)
  · exact .ite (.of_state rfl h1) (.of_state rfl h1)
theorem Ends.execBarrierAnd {pk : Nat} {s : State} (h : Formed s) : Ends outState (Machine.execBarrierAnd pk s) :=
  .of_state rfl (.serveBarrier h)
theorem Ends.execBarrierOr {pk : Nat} {s : State} (h : Formed s) : Ends outState (Machine.execBarrierOr pk s) :=
  .of_state rfl (.serveBarrier h)
theorem Ends.execWaitRetest {pk : Nat} {s : State} (h : Formed s) : Ends outState (Machine.execWaitRetest pk s) := by
  unfold Machine.execWaitRetest
  refine .of_state rfl ?_
  split
  · exact h
  · refine .ite ?_ h
    split
    · exact .serveWait (.updPk h)
    · exact .serveBarrier (.updPk h)
    · exact .serveBarrier (.updPk h)
    · exact .updPk h
theorem Ends.execLaunchPacket {pk : Nat} {s : State} (h : Formed s) : Ends outState (Machine.execLaunchPacket pk s) := by
  unfold Machine.execLaunchPacket
  dsimp only
  refine .of_state rfl ?_
  refine .servePk h (fun _ _ _ h1 => ?_)
  split
  · exact .of_state rfl h1
  · split
    · exact .of_state rfl h1
    · rename_i e1
      exact .of_state rfl (.of_eq (.carryLaunch (.beginInterval h1)) e1 rfl)
    · rename_i e2
      exact .of_state rfl (.of_eq (.carryLaunch (.beginInterval h1)) e2 rfl)
theorem Ends.copyOnce {s : State} {pk : Nat} {p : Packet} {c : Qcb} (h : Formed s) : Ends servedState (s.copyOnce pk p c) := by
  unfold State.copyOnce
  refine .ite (.of_state rfl h) ?_
  refine .ite (.of_state rfl h) ?_
  split
  · exact .of_state rfl h
  · split
    · exact .of_state rfl h
    · rename_i e1
      exact .of_state rfl (.of_eq (.hbGet h (fun _ _ h1 => .ite (.of_none rfl) (.ok (.pair' (.readsAt h1))))) e1 rfl)
    · rename_i e2
      split
      · exact .of_state rfl h
      · rename_i e3
        exact .of_state rfl (.of_eq (.hbPut (.of_eq (.hbGet h (fun _ _ h2 => .ite (.of_none rfl) (.ok (.pair' (.readsAt h2))))) e2
          rfl)) e3 rfl)
      · rename_i e4
        exact .of_state rfl (.updPk (.spend (.of_eq (.hbPut (.of_eq (.hbGet h (fun _ _ h2 => .ite (.of_none rfl) (.ok (.pair'
          (.readsAt h2))))) e2 rfl)) e4 rfl)))
theorem Ends.execCopy {pk : Nat} {s : State} (h : Formed s) : Ends outState (Machine.execCopy pk s) := by
  unfold Machine.execCopy
  refine .of_state rfl ?_
  split
  · exact h
  · exact .ite h (.ite (.servePk h (fun _ _ _ h1 => .of_state rfl h1)) (.ite h (.Packet_served (.copyOnce h))))
theorem Ends.execQuiesce {pk : Nat} {s : State} (h : Formed s) : Ends outState (Machine.execQuiesce pk s) :=
  .of_state rfl (.servePk h (fun _ _ _ h1 => .of_state rfl h1))
theorem Ends.packetDone {s : State} {pk : Nat} (h : Formed s) : Formed (s.packetDone pk) := by
  unfold State.packetDone
  split
  · exact h
  · refine .ite h ?_
    split
    · exact .haltQueue (.updQcb (.cacheQ (.dropPk h)))
    · rename_i e1
      exact .of_eq (.csig h) e1 rfl
    · rename_i e2
      refine .ite ?_ (.updQcb (.cacheQ (.dropPk (.of_eq (.csig h) e2 rfl))))
      split
      · exact .ite (.putQcb (.updQcb (.cacheQ (.dropPk (.of_eq (.csig h) e2 rfl))))) (.updQcb (.cacheQ (.dropPk (.of_eq (.csig h) e2
          rfl))))
      · exact .updQcb (.cacheQ (.dropPk (.of_eq (.csig h) e2 rfl)))

/-! ### Manage -/

theorem Ends.manage {s : State} {pk cmd : Nat} {k : Packet → Qcb → State → Served} (h : Formed s)
    (hk : ∀ x0 x1 x2, Formed x2 → Ends servedState (k x0 x1 x2)) :
    Formed (s.manage pk cmd k) := by
  unfold State.manage
  split
  · exact h
  · exact .ite (.servePk h (fun _ _ _ h1 => hk _ _ _ h1)) h
theorem Ends.goOn {s : State} {pk cmd : Nat} {k : Packet → Qcb → State → Served} (h : Formed s)
    (hk : ∀ x0 x1 x2, Formed x2 → Ends servedState (k x0 x1 x2)) :
    Formed (s.goOn pk cmd k) := by
  unfold State.goOn
  split
  · exact h
  · exact .ite h (.Packet_served (hk _ _ _ h))
theorem Ends.command {s : State} {pk cmd : Nat} {k : Packet → Qcb → State → Option State} (h : Formed s)
    (hk : ∀ x0 x1 x2, Formed x2 → Ends id (k x0 x1 x2)) :
    Ends outState (s.command pk cmd k) := by
  unfold State.command
  refine .of_state rfl ?_
  refine .manage h (fun _ _ _ h1 => ?_)
  split
  · rename_i e
    exact .of_state rfl (.of_eq (hk _ _ _ h1) e rfl)
  · exact .of_state rfl h1
theorem Ends.execCreateQueue {pk : Nat} {s : State} (h : Formed s) : Ends outState (Machine.execCreateQueue pk s) :=
  .command h (fun _ _ _ h1 => .ite (.of_state rfl (.putQcb (.plainWrite h1))) (.of_none rfl))
theorem Ends.execBindQueue {pk : Nat} {s : State} (h : Formed s) : Ends outState (Machine.execBindQueue pk s) := by
  unfold Machine.execBindQueue
  refine .command h (fun _ _ _ h1 => ?_)
  split
  · exact .ite (.of_none rfl) (.of_state rfl (.putQcb h1))
  · exact .of_none rfl
theorem Ends.execUnbindQueue {pk : Nat} {s : State} (h : Formed s) : Ends outState (Machine.execUnbindQueue pk s) := by
  unfold Machine.execUnbindQueue
  refine .command h (fun _ _ _ h1 => ?_)
  split
  · exact .of_state rfl (.putQcb h1)
  · exact .of_none rfl
theorem Ends.dropQueued {s : State} {n : Nat} (h : Formed s) : Formed (s.dropQueued n) :=
  .same h
theorem Ends.execResetQueue {pk : Nat} {s : State} (h : Formed s) : Ends outState (Machine.execResetQueue pk s) := by
  unfold Machine.execResetQueue
  dsimp only
  refine .command h (fun _ _ _ h1 => ?_)
  split
  · exact .of_none rfl
  · exact .ite (.of_none rfl) (.ite (.of_state rfl h1) (.of_state rfl (.putQcb (.plainWrite (.dropQueued h1)))))
theorem Ends.execFlushControlBlocks {pk : Nat} {s : State} (h : Formed s) : Ends outState (Machine.execFlushControlBlocks pk s) :=
  .command h (fun _ _ _ h2 => .of_state rfl (.foldl (fun _ _ h2 => .putQcb h2) h2))
theorem Ends.execCreateSpace {pk : Nat} {s : State} (h : Formed s) : Ends outState (Machine.execCreateSpace pk s) :=
  .of_state rfl (.manage h (fun _ _ _ h1 => .ite (.of_state rfl h1) (.ite (.of_state rfl h1) (.of_state rfl (.same h1)))))
theorem Ends.closeSpace {s : State} {spid : Nat} (h : Formed s) : Formed (s.closeSpace spid) :=
  .foldl (fun _ _ h1 => .putQcb (.dropQueued h1)) (.updSpace (.same h))
theorem Ends.execTearDownSpace {pk : Nat} {s : State} (h : Formed s) : Ends outState (Machine.execTearDownSpace pk s) :=
  .of_state rfl (.goOn (.manage h (fun _ _ _ h2 => .ite (.of_state rfl h2) (.ite (.of_state rfl (.updSpace h2)) (.of_state rfl
    (.closeSpace (.updSpace h2)))))) (fun _ _ _ h2 => .ite (.of_state rfl h2) (.of_state rfl (.closeSpace h2))))
theorem Ends.execSetRaceMode {pk : Nat} {s : State} (h : Formed s) : Ends outState (Machine.execSetRaceMode pk s) :=
  .of_state rfl (.manage h (fun _ _ _ h1 => .ite (.of_state rfl h1) (.ite (.of_state rfl h1) (.of_state rfl (.updSpace h1)))))
theorem Ends.execSetWayMasks {pk : Nat} {s : State} (h : Formed s) : Ends outState (Machine.execSetWayMasks pk s) :=
  .command h (fun _ _ _ h1 => .ite (.of_none rfl) (.of_state rfl (.updPart h1)))
theorem Ends.execSetBudget {pk : Nat} {s : State} (h : Formed s) : Ends outState (Machine.execSetBudget pk s) :=
  .command h (fun _ _ _ h1 => .ite (.of_none rfl) (.of_state rfl (.updPart h1)))
theorem Ends.execInvalidateTranslations {pk : Nat} {s : State} (h : Formed s) :
    Ends outState (Machine.execInvalidateTranslations pk s) :=
  .command h (fun _ _ _ h1 => .ite (.of_none rfl) (.of_state rfl (.invalidate h1)))

/-! ### Image -/

theorem Ends.areaWrite {s : State} {part pa : Nat} {l : List Byte} (h : Formed s) : Formed (s.areaWrite part pa l) :=
  .ite h (.plainWrite h)
theorem Ends.writeImage {s : State} {q : ImageReq} (h : Formed s) : Ends sndState (s.writeImage q) :=
  .pair (.foldl (fun _ _ h1 => .ite (.areaWrite h1) h1) (.areaWrite (.areaWrite (.areaWrite h))))

/-! ### Deliver -/

theorem Ends.writeBack {s : State} {id : Nat} {q : Req} {g : Machine.Group} (h : Formed s) : Formed (s.writeBack id q g) :=
  .dropReq (.ite (.settle (.settle h)) (.settle h))
theorem Ends.returnLoad {s : State} {id : Nat} {q : Req} {g : Machine.Group} (h : Formed s) : Formed (s.returnLoad id q g) := by
  unfold State.returnLoad
  dsimp only
  split
  · exact .lateFault (.foldl (fun _ _ h1 => .countCheck h1) h)
  · split
    · exact .lateFault (.foldl (fun _ _ h2 => .countCheck h2) h)
    · exact .writeBack (.foldl (fun _ _ h3 => .appendRace h3) (.foldl (fun _ _ h4 => .countCheck h4) h))
theorem Ends.popDone {s : State} {q : Req} {k : Nat} (h : Formed s) : Formed (s.popDone q k) := by
  unfold State.popDone
  split
  · exact h
  · refine .updWg ?_
    split
    · exact .settle h
    · exact h
theorem Ends.returnResult {s : State} {id : Nat} {q : Req} {g : Machine.Group} (h : Formed s) : Formed (s.returnResult id q g) := by
  unfold State.returnResult
  refine .foldl (fun _ _ h1 => ?_) (.writeBack (.foldl (fun _ _ h2 => .popDone h2) h))
  split
  · exact .push (.updWg h1)
  · exact h1
theorem Ends.unspill {s : State} {q : Req} (h : Formed s) : Ends sndState (s.unspill q) :=
  .ite (.pair (.same h)) (.pair h)
theorem Ends.execLongResultReturn {rq : Nat} {s : State} (h : Formed s) : Ends outState (Machine.execLongResultReturn rq s) := by
  unfold Machine.execLongResultReturn
  refine .of_state rfl ?_
  split
  · exact h
  · refine .ite h ?_
    split
    · exact .dropReq h
    · split
      · exact .ite (.returnLoad (.snd (.unspill h))) h
      · exact .ite h (.writeBack (.snd (.unspill h)))
      · exact .ite h (.returnResult h)
      · exact h
theorem Ends.commitOne {s : State} {gs : Nat} {t : Tent} {rest : List Tent} (h : Formed s) : Formed (s.commitOne gs t rest) :=
  .settle (.foldl (fun _ _ h1 => .updReq h1) (.snd (.newId (.same h))))
theorem Ends.execTentativeResultCommit {gs : Nat} {s : State} (h : Formed s) :
    Ends outState (Machine.execTentativeResultCommit gs s) := by
  unfold Machine.execTentativeResultCommit
  refine .of_state rfl ?_
  split
  · exact h
  · exact .ite (.settleQuiet (.commitOne h)) h
theorem Ends.execGroupPromotion {gs : Nat} {s : State} (h : Formed s) : Ends outState (Machine.execGroupPromotion gs s) :=
  .of_state rfl (.updGroup h)
theorem Ends.timerFire {s : State} {gs : Nat} {b : Bool} {g : Machine.Group} {p : PcSlot} (h : Formed s) :
    Formed (s.timerFire gs b g p) := by
  unfold State.timerFire
  refine .raise ?_
  refine .updGroup ?_
  split
  · exact .useEvent h
  · exact .logGroup h
theorem Ends.execGtimeTimer {gs : Nat} {s : State} (h : Formed s) : Ends outState (Machine.execGtimeTimer gs s) := by
  unfold Machine.execGtimeTimer
  refine .of_state rfl ?_
  split
  · exact h
  · split
    · exact h
    · exact .ite h (.timerFire h)
theorem Ends.fetchFrom {s : State} {core part pa : Nat} {uncached : Bool} (h : Formed s) :
    Ends sndState (s.fetchFrom core part pa uncached) := by
  unfold State.fetchFrom
  refine .ite (.pair h) ?_
  split
  · exact .pair h
  · exact .pair (.fetchLine h)
theorem Ends.fetch {s : State} {gs : Nat} {g : Machine.Group} {p : PcSlot} (h : Formed s) : Ends fetchState (s.fetch gs g p) := by
  unfold State.fetch
  dsimp only
  split
  · exact .of_state rfl h
  · split
    · exact .of_none rfl
    · exact .of_none rfl
    · exact .of_none rfl
    · exact .of_none rfl
    · exact .ite (.of_none rfl) (.of_state rfl (.snd (.fetchFrom h)))
theorem Ends.fetchFail {s : State} {gs : Nat} {b : Bool} {g : Machine.Group} {p : PcSlot} {x5 : Fetch} (h : Formed s)
    (hx5 : Ends fetchState x5) :
    Formed (s.fetchFail gs b g p x5) := by
  unfold State.fetchFail
  split
  · exact .of_eq hx5 rfl rfl
  · exact .ite (.updGroup (.raise h)) (.raise h)
  · exact .park (.queueMiss h)
  · exact .startHandler h
theorem Ends.execInstructionFetch {gs : Nat} {slotB : Bool} {s : State} (h : Formed s) :
    Ends outState (Machine.execInstructionFetch gs slotB s) := by
  unfold Machine.execInstructionFetch
  refine .of_state rfl ?_
  split
  · exact h
  · refine .ite h ?_
    split
    · rename_i e
      exact .updGroup (.of_eq (.fetch h) e rfl)
    · exact .fetchFail h (.fetch h)
theorem Ends.execSpillAreaRefill {gs : Nat} {s : State} (h : Formed s) : Ends outState (Machine.execSpillAreaRefill gs s) :=
  .of_state rfl (.updGroup h)
theorem Ends.execWalkerStart {lb : Nat} {s : State} (h : Formed s) : Ends outState (Machine.execWalkerStart lb s) := by
  unfold Machine.execWalkerStart
  refine .of_state rfl ?_
  split
  · exact .ite h (.same (.updLb h))
  · exact h
theorem Ends.execWalkerTimeout {lb : Nat} {s : State} (h : Formed s) : Ends outState (Machine.execWalkerTimeout lb s) := by
  unfold Machine.execWalkerTimeout
  refine .of_state rfl ?_
  split
  · exact .ite (.endWalk h) h
  · exact h
theorem Ends.execFirstTouchTimeout {gs : Nat} {s : State} (h : Formed s) : Ends outState (Machine.execFirstTouchTimeout gs s) := by
  unfold Machine.execFirstTouchTimeout
  refine .of_state rfl ?_
  split
  · exact .ite (.raise h) h
  · exact h

/-! ### Mesh -/

theorem Ends.reached {s : State} {q : Req} (h : Formed s) : Formed (s.reached q) := by
  unfold State.reached
  split
  · exact .same h
  · exact h
theorem Ends.rings {s : State} {q : Req} (h : Formed s) : Formed (s.rings q) :=
  .foldl (fun _ _ h1 => .ringDoorbell h1) h
theorem Ends.performAt {s : State} {id : Nat} {q : Req} {x3 : Home} (h : Formed s) : Formed (s.performAt id q x3) := by
  unfold State.performAt
  refine .ite h ?_
  split
  · exact .loadBank h
  · exact .arriveLoad h
  · exact .agentSector h
  · exact .agentSector (.reached h)
  · exact .ite (.rings (.writeSector h)) (.writeSector h)
  · exact .writeBank h
  · exact .writeSector (.reached h)
theorem Ends.execHomeSliceAccess {rq : Nat} {s : State} (h : Formed s) : Ends outState (Machine.execHomeSliceAccess rq s) := by
  unfold Machine.execHomeSliceAccess
  refine .of_state rfl ?_
  split
  · exact h
  · refine .ite h ?_
    refine .ite h ?_
    split
    · exact h
    · split
      · exact .ite h (.performAt h)
      · exact .performAt h
theorem Ends.reply {s : State} {l : List Byte} (h : Formed s) : Formed (s.reply l) :=
  .same h
theorem Ends.hostAnswer {s : State} {rq : Nat} {q : Req} (h : Formed s) : Formed (s.hostAnswer rq q) :=
  .dropReq (.ite (.reply h) (.same (.reply h)))
theorem Ends.execWriteAcknowledgement {rq : Nat} {s : State} (h : Formed s) :
    Ends outState (Machine.execWriteAcknowledgement rq s) := by
  unfold Machine.execWriteAcknowledgement
  refine .of_state rfl ?_
  split
  · exact h
  · refine .ite (.dropReq h) ?_
    refine .ite h ?_
    split
    · exact h
    · exact .txSettle (.dropReq h)
    · exact .ite (.hostAnswer h) (.ite (.logAcked (.dropReq h)) (.ite (.dropReq h) (.updReq h)))
    · exact .ite (.hostAnswer h) (.ite (.logAcked (.dropReq h)) (.ite (.dropReq h) (.updReq h)))
    · exact .settleQuiet (.dropReq h)
theorem Ends.resend {s : State} {rq : Nat} {q : Req} (h : Formed s) : Formed (s.resend rq q) :=
  .ite (.addCopy h) h
theorem Ends.execWriteReturnedUnperformed {rq : Nat} {s : State} (h : Formed s) :
    Ends outState (Machine.execWriteReturnedUnperformed rq s) := by
  unfold Machine.execWriteReturnedUnperformed
  refine .of_state rfl ?_
  split
  · exact h
  · split
    · exact .resend (.txReturned h)
    · exact .ite (.raceFault h) (.ite h (.updReq (.resend (.ite (.appendRace h) h))))
    · exact h
theorem Ends.execSectorHoldTimeout {sector : Nat} {s : State} (h : Formed s) :
    Ends outState (Machine.execSectorHoldTimeout sector s) := by
  unfold Machine.execSectorHoldTimeout
  refine .of_state rfl ?_
  split
  · exact .ite (.same h) h
  · exact h
theorem Ends.execRemoteInvalidation {die line : Nat} {s : State} (h : Formed s) :
    Ends outState (Machine.execRemoteInvalidation die line s) :=
  .of_state rfl (.ite (.same (.updDie h)) h)
theorem Ends.updCopy {s : State} {rq copy : Nat} {f : Copy → Copy} (h : Formed s) : Formed (s.updCopy rq copy f) :=
  .updReq h
theorem Ends.execMeshPacketArrival {rq : Nat} {room : Bool} {s : State} (h : Formed s) :
    Ends outState (Machine.execMeshPacketArrival rq room s) := by
  unfold Machine.execMeshPacketArrival
  dsimp only
  refine .of_state rfl ?_
  split
  · exact h
  · refine .ite ?_ ?_
    · refine .ite h ?_
      split
      · exact .updReq (.ite (.spend h) h)
      · exact .ite h (.updReq (.ite (.spend h) h))
    · split
      · exact h
      · exact .ite h (.updCopy h)
theorem Ends.execNegativeAcknowledgement {rq : Nat} {s : State} (h : Formed s) :
    Ends outState (Machine.execNegativeAcknowledgement rq s) :=
  .of_state rfl (.updReq h)
theorem Ends.execMeshRetransmit {rq : Nat} {s : State} (h : Formed s) : Ends outState (Machine.execMeshRetransmit rq s) :=
  .of_state rfl (.updReq h)
theorem Ends.execOwnershipRequest {core line : Nat} {s : State} (h : Formed s) :
    Ends outState (Machine.execOwnershipRequest core line s) := by
  unfold Machine.execOwnershipRequest
  refine .of_state rfl ?_
  refine .ite h ?_
  split
  · exact .ite h (.predict (.disown h))
  · refine .ite ?_ ?_
    · refine .ite ?_ h
      split
      · exact .ite h (.predict (.disown h))
      · exact h
    · refine .updCore ?_
      refine .same ?_
      refine .ite ?_ h
      split
      · exact .ite h (.predict (.disown h))
      · exact h
theorem Ends.execOwnershipRecall {core line : Nat} {s : State} (h : Formed s) :
    Ends outState (Machine.execOwnershipRecall core line s) :=
  .of_state rfl (.ite h (.ite (.predict (.disown h)) (.disown h)))
theorem Ends.sweepPass {s : State} {u : SweepUnit} (h : Formed s) : Formed (s.sweepPass u) := by
  unfold State.sweepPass
  split
  · exact .same h
  · exact .updDie h
  · exact .same (.updCore h)
  · exact .updCore h
theorem Ends.execWatermarkSweep {u : SweepUnit} {s : State} (h : Formed s) : Ends outState (Machine.execWatermarkSweep u s) :=
  .of_state rfl (.same (.sweepPass h))
theorem Ends.execIncarnationAdvance {gs : Nat} {s : State} (h : Formed s) : Ends outState (Machine.execIncarnationAdvance gs s) :=
  .of_state rfl (.ite (.advance h) h)

/-! ### Save -/

theorem Ends.abortOf {s : State} {f : CollPart → Bool} (h : Formed s) : Formed (s.abortOf f) :=
  .foldl (fun _ _ h1 => .abortColls h1) h
theorem Ends.stopWalks {s : State} {spids : List Nat} (h : Formed s) : Formed (s.stopWalks spids) :=
  .same (.foldl (fun _ _ h1 => .endWalk h1) h)
theorem Ends.abandonMat {s : State} {cause : Byte} {f : Nat → Bool} (h : Formed s) : Formed (s.abandonMat cause f) :=
  .same (.foldl (fun _ _ h2 => .foldl (fun _ _ h2 => .opDone h2) (.leaveMat (.ite (.smearMat h2) h2))) h)
theorem Ends.capture_ {s : State} {wid : Nat} {w : Workgroup} (h : Formed s) : Ends sndState (s.capture_ wid w) :=
  .pair (.updWg (.same (.foldl (fun _ _ h4 => .dropReq h4) (.foldl (fun _ _ h4 => .same h4) (.updCore (.foldl (fun _ _ h4 => .disown
    h4) (.foldl (fun _ _ h4 => .settleQuiet h4) h)))))))
theorem Ends.saveWg {s : State} {wid : Nat} (h : Formed s) : Formed (s.saveWg wid) := by
  unfold State.saveWg
  split
  · exact h
  · exact .updSpace (.snd (.capture_ h))
theorem Ends.finishPk {s : State} {pk : Nat} (h : Formed s) : Formed (s.finishPk pk) :=
  .updPk h
theorem Ends.beginBase {s : State} {spid : Nat} (h : Formed s) : Formed (s.beginBase spid) :=
  .updSpace h
theorem Ends.writeBase {s : State} {spid : Nat} (h : Formed s) : Formed (s.writeBase spid) :=
  .ite h (.ite (.notReplayable (.beginBase (.updSpace (.snd (.writeImage h))))) (.beginBase (.updSpace (.snd (.writeImage h)))))
theorem Ends.finishSave {s : State} {spid : Nat} (h : Formed s) : Formed (s.finishSave spid) := by
  unfold State.finishSave
  dsimp only
  refine .ite h ?_
  split
  · exact .finishPk (.updSpace (.snd (.writeImage h)))
  · exact .updSpace (.snd (.writeImage h))
  · exact .updSpace (.snd (.writeImage h))
  · split
    · exact .haltQueue (.dropPk (.updSpace (.snd (.writeImage h))))
    · exact .updSpace (.snd (.writeImage h))
  · exact .writeBase (.beginInterval (.updSpace h))
theorem Ends.markSaved {s : State} {gs : Nat} {g : Machine.Group} (h : Formed s) : Formed (s.markSaved gs g) := by
  unfold State.markSaved
  split
  · exact .updWg h
  · exact .updWg (.same h)
theorem Ends.restFelts {s : State} {wid : Nat} {w : Workgroup} (h : Formed s) : Formed (s.restFelts wid w) := by
  unfold State.restFelts
  refine .updCore ?_
  refine .foldl (fun _ _ h2 => .updSub h2) ?_
  refine .foldl (fun _ _ h2 => ?_) h
  split
  · exact .updPub (.updSub h2)
  · exact .updSub h2
theorem Ends.tryWg {s : State} {wid : Nat} (h : Formed s) : Formed (s.tryWg wid) := by
  unfold State.tryWg
  split
  · exact h
  · exact .ite h (.ite h (.ite (.finishSave (.saveWg h)) (.restFelts h)))
theorem Ends.execGroupSave {gs : Nat} {s : State} (h : Formed s) : Ends outState (Machine.execGroupSave gs s) := by
  unfold Machine.execGroupSave
  refine .of_state rfl ?_
  split
  · exact h
  · exact .ite h (.ite (.tryWg h) (.ite h (.ite (.abortOf h) (.ite (.startDrain (.abortOf h)) (.tryWg (.markSaved (.abortOf h)))))))
theorem Ends.beginSave {s : State} {spid : Nat} {why : Saving} {forced : Bool} (h : Formed s) :
    Formed (s.beginSave spid why forced) :=
  .updSpace (.same h)
theorem Ends.execPreEmptContext {pk : Nat} {s : State} (h : Formed s) : Ends outState (Machine.execPreEmptContext pk s) :=
  .of_state rfl (.goOn (.manage h (fun _ _ _ h2 => .ite (.of_state rfl h2) (.ite (.of_state rfl h2) (.of_state rfl (.beginSave
    h2))))) (fun _ _ _ h2 => .ite (.of_state rfl (.finishSave h2)) (.of_state rfl (.finishSave h2))))
theorem Ends.execPreemptionDeadline {grid : Nat} {s : State} (h : Formed s) :
    Ends outState (Machine.execPreemptionDeadline grid s) := by
  unfold Machine.execPreemptionDeadline
  refine .of_state rfl ?_
  split
  · exact h
  · exact .ite h (.updGrid (.same h))
theorem Ends.execHaltLine {part : Nat} {s : State} (h : Formed s) : Ends outState (Machine.execHaltLine part s) := by
  unfold Machine.execHaltLine
  refine .of_state rfl ?_
  split
  · exact h
  · exact .ite h (.updPart (.foldl (fun _ _ h1 => .beginSave h1) (.foldl (fun _ _ h2 => .txUndo h2) (.abortOf (.foldl (fun _ _ h3 =>
      .feltDiscard h3) (.foldl (fun _ _ h4 => .abandonMat h4) (.stopWalks (.updPart h))))))))
theorem Ends.dump {s : State} {spid : Nat} (h : Formed s) : Formed (s.dump spid) := by
  unfold State.dump
  split
  · exact .finishPk (.updSpace (.snd (.writeImage (.foldl (fun _ _ h1 => .saveWg h1) (.foldl (fun _ _ h2 => .feltDiscard h2) h)))))
  · exact .finishPk (.updSpace (.snd (.writeImage (.foldl (fun _ _ h3 => .saveWg h3) (.foldl (fun _ _ h4 => .feltDiscard h4) h)))))
  · exact .updSpace (.snd (.writeImage (.foldl (fun _ _ h5 => .saveWg h5) (.foldl (fun _ _ h6 => .feltDiscard h6) h))))
theorem Ends.execHaltDrainComplete {part : Nat} {s : State} (h : Formed s) :
    Ends outState (Machine.execHaltDrainComplete part s) := by
  unfold Machine.execHaltDrainComplete
  refine .of_state rfl ?_
  split
  · exact h
  · exact .ite h (.ite (.foldl (fun _ _ h1 => .finishSave h1) h) (.updPart (.foldl (fun _ _ h2 => .dump h2) (.foldl (fun _ _ h3 =>
      .finishSave h3) h))))

/-! ### Resume -/

theorem Ends.restoreCore {s : State} {v : SavedWg} {c base : Nat} {newGs : Nat → Nat} (h : Formed s) :
    Formed (s.restoreCore v c base newGs) :=
  .foldl (fun _ _ h1 => .loseSub h1) (.updCore (.clearLswm (.lsPut h)))
theorem Ends.restoreWg {s : State} {spid : Nat} {x : Put_} (h : Formed s) : Formed (s.restoreWg spid x) := by
  unfold State.restoreWg
  split
  · exact h
  · exact .deckleEvent (.updSpace (.same (.l1Clear (.restoreCore (.foldl (fun _ _ h1 => .same (.enterSlot h1)) (.updWg h))))))
theorem Ends.fixFelts {s : State} {wids : List Nat} (h : Formed s) : Formed (s.fixFelts wids) :=
  .same h
theorem Ends.restoreNext {s : State} {gid : Nat} {g : Grid} (h : Formed s) : Formed (s.restoreNext gid g) := by
  unfold State.restoreNext
  dsimp only
  split
  · exact .updGrid (.fixFelts (.foldl (fun _ _ h1 => .restoreWg h1) h))
  · refine .ite (.updGrid h) ?_
    refine .ite ?_ h
    split
    · exact .same h
    · exact h
theorem Ends.execWorkgroupPlacement {grid : Nat} {s : State} (h : Formed s) :
    Ends outState (Machine.execWorkgroupPlacement grid s) := by
  unfold Machine.execWorkgroupPlacement
  refine .of_state rfl ?_
  split
  · exact h
  · refine .ite h ?_
    refine .ite (.restoreNext h) ?_
    refine .ite h ?_
    split
    · exact .ite (.updGrid h) h
    · exact .updGrid (.foldl (fun _ _ h1 => .startWg h1) h)
theorem Ends.appendHeld {s : State} {spid : Nat} (h : Formed s) : Formed (s.appendHeld spid) :=
  .foldl (fun _ _ h1 => .ite (.appendRace h1) h1) h
theorem Ends.overlay {s : State} {spid area : Nat} (h : Formed s) : Formed (s.overlay spid area) := by
  unfold State.overlay
  refine .foldl (fun _ _ h1 => ?_) h
  split
  · exact h1
  · exact .updSpace (.same h1)
theorem Ends.resumeInterval {s : State} {spid : Nat} (h : Formed s) : Formed (s.resumeInterval spid) :=
  .ite h (.ite (.beginInterval (.updSpace h)) (.ite (.notReplayable (.beginBase (.beginInterval (.updSpace h)))) (.beginBase
    (.areaWrite (.beginInterval (.updSpace h))))))
theorem Ends.resumeNow {s : State} {spid pk : Nat} {report : Bool} (h : Formed s) : Formed (s.resumeNow spid pk report) :=
  .updSpace (.same (.resumeInterval (.ite (.appendHeld (.overlay h)) (.overlay h))))
theorem Ends.execResumeContext {pk : Nat} {s : State} (h : Formed s) : Ends outState (Machine.execResumeContext pk s) := by
  unfold Machine.execResumeContext
  refine .of_state rfl ?_
  refine .goOn ?_ (fun _ _ _ h1 => .ite (.of_state rfl (.updSpace h1)) (.of_state rfl h1))
  refine .manage h (fun _ _ _ h2 => ?_)
  refine .ite (.of_state rfl h2) ?_
  split
  · exact .of_state rfl h2
  · exact .of_state rfl (.resumeNow h2)
theorem Ends.recheckResumes {s : State} {part : Nat} (h : Formed s) : Formed (s.recheckResumes part) := by
  unfold State.recheckResumes
  refine .foldl (fun _ _ h1 => ?_) h
  split
  · exact .finishSave (.beginSave h1)
  · exact h1
theorem Ends.execCkpt {pk : Nat} {s : State} (h : Formed s) : Ends outState (Machine.execCkpt pk s) := by
  unfold Machine.execCkpt
  refine .of_state rfl ?_
  split
  · exact h
  · exact .ite h (.ite (.ite (.finishPk (.finishSave h)) (.finishSave h)) (.ite h (.servePk h (fun _ _ _ h1 => .ite (.of_state rfl
      (.beginSave h1)) (.of_state rfl (.beginInterval h1))))))
theorem Ends.execAutomaticCheckpoint {spid : Nat} {s : State} (h : Formed s) :
    Ends outState (Machine.execAutomaticCheckpoint spid s) :=
  .of_state rfl (.ite (.finishSave h) (.ite (.beginSave h) h))

/-! ### Release -/

theorem Ends.zeroMem {s : State} {pa n : Nat} (h : Formed s) : Formed (s.zeroMem pa n) :=
  formed_iff.2 (canon_filter _ _ _ (formed_iff.1 h))
theorem Ends.releaseStop {s : State} {spid : Nat} (h : Formed s) : Formed (s.releaseStop spid) :=
  .foldl (fun _ _ h2 => .txUndo h2) (.foldl (fun _ _ h2 => .feltDiscard h2) (.abortOf (.abandonMat (.stopWalks (.updSpace h)))))
theorem Ends.scrubWg {s : State} {wid : Nat} {w : Workgroup} (h : Formed s) : Formed (s.scrubWg wid w) :=
  .ite (.same h) (.updCore (.same h))
theorem Ends.scrubCaches {s : State} {part : Nat} (h : Formed s) : Formed (s.scrubCaches part) := by
  unfold State.scrubCaches
  split
  · exact h
  · exact .same (.foldl (fun _ _ h1 => .disown h1) h)
theorem Ends.scrubLbs {s : State} {part spid : Nat} (h : Formed s) : Formed (s.scrubLbs part spid) :=
  .same h
theorem Ends.scrubQueues {s : State} {spid : Nat} (h : Formed s) : Formed (s.scrubQueues spid) :=
  .foldl (fun _ _ h1 => .putQcb (.zeroMem (.same h1))) h
theorem Ends.scrubLogs {s : State} {spid : Nat} (h : Formed s) : Formed (s.scrubLogs spid) :=
  .foldl (fun _ _ h2 => .foldl (fun _ _ h2 => .zeroMem h2) h2) h
theorem Ends.scrub {s : State} {spid : Nat} (h : Formed s) : Formed (s.scrub spid) :=
  .same (.ite (.zeroMem (.zeroMem (.zeroMem (.scrubQueues (.scrubLbs (.scrubCaches (.same (.scrubLogs (.foldl (fun _ _ h2 =>
    .scrubWg h2) h))))))))) (.zeroMem (.zeroMem (.zeroMem (.zeroMem (.scrubQueues (.scrubLbs (.scrubCaches (.same (.scrubLogs
    (.foldl (fun _ _ h2 => .scrubWg h2) h)))))))))))
theorem Ends.execReleaseContext {pk : Nat} {s : State} (h : Formed s) : Ends outState (Machine.execReleaseContext pk s) :=
  .of_state rfl (.goOn (.manage h (fun _ _ _ h2 => .ite (.of_state rfl h2) (.of_state rfl (.releaseStop h2)))) (fun _ _ _ h2 => .ite
    (.of_state rfl (.audit (.scrub h2))) (.of_state rfl h2)))

/-! ### Debug -/

theorem Ends.execSetRecording {pk : Nat} {s : State} (h : Formed s) : Ends outState (Machine.execSetRecording pk s) := by
  unfold Machine.execSetRecording
  refine .of_state rfl ?_
  refine .manage h (fun _ _ _ h1 => ?_)
  split
  · exact .of_state rfl h1
  · exact .ite (.of_state rfl h1) (.ite (.of_state rfl h1) (.of_state rfl (.updSpace h1)))
theorem Ends.applyUndo {s : State} {spid : Nat} (h : Formed s) : Formed (s.applyUndo spid) :=
  .foldl (fun _ _ h1 => .plainWrite h1) h
theorem Ends.dropContext {s : State} {spid : Nat} (h : Formed s) : Formed (s.dropContext spid) :=
  .updSpace (.same h)
theorem Ends.restoreBase {s : State} {spid : Nat} {b : Base} (h : Formed s) : Formed (s.restoreBase spid b) :=
  .updSpace (.overlay (.updSpace (.same (.dropContext h))))
theorem Ends.relaunch {s : State} {spid : Nat} (h : Formed s) : Formed (s.relaunch spid) := by
  unfold State.relaunch
  dsimp only
  split
  · exact .getD (.map_any (fun _ => .updPk (.updSpace (.dropContext h)))) (.updSpace (.dropContext h))
  · rename_i e1
    exact .of_eq (.carryLaunch (.getD (.map_any (fun _ => .updPk (.updSpace (.dropContext h)))) (.updSpace (.dropContext h)))) e1
      rfl
  · rename_i e2
    exact .of_eq (.carryLaunch (.getD (.map_any (fun _ => .updPk (.updSpace (.dropContext h)))) (.updSpace (.dropContext h)))) e2
      rfl
theorem Ends.execStopAtPoint {pk : Nat} {s : State} (h : Formed s) : Ends outState (Machine.execStopAtPoint pk s) :=
  .of_state rfl (.goOn (.manage h (fun _ _ _ h1 => .ite (.of_state rfl h1) (.of_state rfl (.ite (.relaunch (.updSpace (.applyUndo
    h1))) (.getD (.map_any (fun _ => .restoreBase (.updSpace (.applyUndo h1)))) (.updSpace (.applyUndo h1))))))) (fun _ _ _ h2 =>
    .ite (.of_state rfl h2) (.of_state rfl h2)))
theorem Ends.execSampleCounters {pk : Nat} {s : State} (h : Formed s) : Ends outState (Machine.execSampleCounters pk s) :=
  .of_state rfl (.manage h (fun _ _ _ h1 => .ite (.of_state rfl h1) (.ite (.of_state rfl h1) (.of_state rfl (.plainWrite h1)))))

/-! ### Floating -/

theorem Ends.float2 {i : Instr} {t : Ty} {m : FMods} {d : Reg} {op : Nat → Nat → Nat} {x5 : State} (h : Formed x5) :
    Ends outState (Machine.float2 i t m d op x5) :=
  .alu h
theorem Ends.float1 {i : Instr} {t : Ty} {m : FMods} {d : Reg} {op : Nat → Nat} {x5 : State} (h : Formed x5) :
    Ends outState (Machine.float1 i t m d op x5) :=
  .alu h
theorem Ends.execFadd {x0 : Hdr} {d a b : Reg} {m : FMods} {ty : Ty} {rm : Rm} {x7 : State} (h : Formed x7) :
    Ends outState (Machine.execFadd x0 d a b m ty rm x7) :=
  .float2 h
theorem Ends.execFsub {x0 : Hdr} {d a b : Reg} {m : FMods} {ty : Ty} {rm : Rm} {x7 : State} (h : Formed x7) :
    Ends outState (Machine.execFsub x0 d a b m ty rm x7) :=
  .float2 h
theorem Ends.execFmul {x0 : Hdr} {d a b : Reg} {m : FMods} {ty : Ty} {rm : Rm} {x7 : State} (h : Formed x7) :
    Ends outState (Machine.execFmul x0 d a b m ty rm x7) :=
  .float2 h
theorem Ends.execFfma {x0 : Hdr} {d a b c : Reg} {m : FMods} {ty : Ty} {rm : Rm} {x8 : State} (h : Formed x8) :
    Ends outState (Machine.execFfma x0 d a b c m ty rm x8) :=
  .alu h
theorem Ends.execFmin {x0 : Hdr} {d a b : Reg} {m : FMods} {ty : Ty} {x6 : State} (h : Formed x6) :
    Ends outState (Machine.execFmin x0 d a b m ty x6) :=
  .float2 h
theorem Ends.execFmax {x0 : Hdr} {d a b : Reg} {m : FMods} {ty : Ty} {x6 : State} (h : Formed x6) :
    Ends outState (Machine.execFmax x0 d a b m ty x6) :=
  .float2 h
theorem Ends.execFminx {x0 : Hdr} {d a b : Reg} {m : FMods} {ty : Ty} {x6 : State} (h : Formed x6) :
    Ends outState (Machine.execFminx x0 d a b m ty x6) :=
  .float2 h
theorem Ends.execFmaxx {x0 : Hdr} {d a b : Reg} {m : FMods} {ty : Ty} {x6 : State} (h : Formed x6) :
    Ends outState (Machine.execFmaxx x0 d a b m ty x6) :=
  .float2 h
theorem Ends.execFdiv {x0 : Hdr} {d a b : Reg} {m : FMods} {ty : Ty} {rm : Rm} {x7 : State} (h : Formed x7) :
    Ends outState (Machine.execFdiv x0 d a b m ty rm x7) :=
  .float2 h
theorem Ends.execFsqrt {x0 : Hdr} {d a : Reg} {m : FMods} {ty : Ty} {rm : Rm} {x6 : State} (h : Formed x6) :
    Ends outState (Machine.execFsqrt x0 d a m ty rm x6) :=
  .float1 h
theorem Ends.execFrcp {x0 : Hdr} {d a : Reg} {m : FMods} {ty : Ty} {rm : Rm} {x6 : State} (h : Formed x6) :
    Ends outState (Machine.execFrcp x0 d a m ty rm x6) :=
  .float1 h
theorem Ends.execFrsq {x0 : Hdr} {d a : Reg} {m : FMods} {ty : Ty} {rm : Rm} {x6 : State} (h : Formed x6) :
    Ends outState (Machine.execFrsq x0 d a m ty rm x6) :=
  .float1 h
theorem Ends.execFex2 {x0 : Hdr} {d a : Reg} {m : FMods} {ty : Ty} {rm : Rm} {x6 : State} (h : Formed x6) :
    Ends outState (Machine.execFex2 x0 d a m ty rm x6) :=
  .float1 h
theorem Ends.execFlg2 {x0 : Hdr} {d a : Reg} {m : FMods} {ty : Ty} {rm : Rm} {x6 : State} (h : Formed x6) :
    Ends outState (Machine.execFlg2 x0 d a m ty rm x6) :=
  .float1 h
theorem Ends.execFcmpp {x0 : Hdr} {d : Pred} {a b : Reg} {m : FMods} {cc : FCmp} {ty : Ty} {x7 : State} (h : Formed x7) :
    Ends outState (Machine.execFcmpp x0 d a b m cc ty x7) :=
  .alu h
theorem Ends.execFclass {x0 : Hdr} {d a : Reg} {ty : Ty} {x4 : State} (h : Formed x4) :
    Ends outState (Machine.execFclass x0 d a ty x4) :=
  .alu h
theorem Ends.execFrnd {x0 : Hdr} {d a : Reg} {m : FMods} {ty : Ty} {rm : Rm} {x6 : State} (h : Formed x6) :
    Ends outState (Machine.execFrnd x0 d a m ty rm x6) :=
  .float1 h

/-! ### Safe -/

theorem Ends.haltSafe {s : State} {err det : Nat} (h : Formed s) : Formed (s.haltSafe err det) :=
  .same h
theorem Ends.takeSafe {s : State} (h : Formed s) : Formed s.takeSafe := by
  unfold State.takeSafe
  dsimp only
  refine .ite h ?_
  refine .ite (.same h) ?_
  split
  · exact .haltSafe h
  · exact .same (.snd (.newId (.foldl (fun _ _ h1 => .plainWrite h1) h)))
theorem Ends.execHeadboxLaneTake {queue : Nat} {s : State} (h : Formed s) : Ends outState (Machine.execHeadboxLaneTake queue s) :=
  .of_state rfl (.ite (.takeSafe h) (.laneTake h))
theorem Ends.execHeaderRereadTimeout {queue : Nat} {s : State} (h : Formed s) :
    Ends outState (Machine.execHeaderRereadTimeout queue s) := by
  unfold Machine.execHeaderRereadTimeout
  refine .of_state rfl ?_
  refine .ite ?_ (.rereadDue h)
  split
  · exact .ite (.same h) h
  · exact h
theorem Ends.execPacketCompletion {pk : Nat} {s : State} (h : Formed s) : Ends outState (Machine.execPacketCompletion pk s) := by
  unfold Machine.execPacketCompletion
  refine .of_state rfl ?_
  split
  · exact h
  · exact .ite (.ite (.dropPk h) h) (.packetDone h)
theorem Ends.safely {s : State} {pk cmd : Nat} {k : Packet → State → Option State} (h : Formed s)
    (hk : ∀ x0 x1, Formed x1 → Ends id (k x0 x1)) :
    Ends outState (s.safely pk cmd k) := by
  unfold State.safely
  refine .of_state rfl ?_
  split
  · exact h
  · refine .ite h ?_
    split
    · rename_i e
      exact .finishPk (.of_eq (.ite (.of_none rfl) (hk _ _ h)) e rfl)
    · exact .haltSafe (.dropPk h)
theorem Ends.execCreatePartition {pk : Nat} {s : State} (h : Formed s) : Ends outState (Machine.execCreatePartition pk s) := by
  unfold Machine.execCreatePartition
  refine .safely h (fun _ _ h1 => ?_)
  split
  · exact .ite (.of_none rfl) (.of_state rfl (.audit (.putQcb (.plainWrite (.same h1)))))
  · exact .of_none rfl
theorem Ends.execDeletePartition {pk : Nat} {s : State} (h : Formed s) : Ends outState (Machine.execDeletePartition pk s) := by
  unfold Machine.execDeletePartition
  dsimp only
  refine .safely h (fun _ _ h1 => ?_)
  split
  · exact .of_none rfl
  · exact .ite (.of_none rfl) (.of_state rfl (.audit (.same (.foldl (fun _ _ h2 => .putQcb (.zeroMem (.same h2))) (.foldl (fun _ _
      h3 => .zeroMem h3) (.scrubCaches h1))))))
theorem Ends.execSetQueueTable {pk : Nat} {s : State} (h : Formed s) : Ends outState (Machine.execSetQueueTable pk s) :=
  .safely h (fun _ _ h1 => .ite (.of_none rfl) (.of_state rfl (.same (.zeroMem h1))))
theorem Ends.renumber {s : State} {old new : Nat} (h : Formed s) : Formed (s.renumber old new) :=
  .ite h (formed_iff.2 (setEach_wf (m := []) rfl s.mem))
theorem Ends.execSetDomain {pk : Nat} {s : State} (h : Formed s) : Ends outState (Machine.execSetDomain pk s) :=
  .safely h (fun _ _ h1 => .ite (.of_none rfl) (.of_state rfl (.same (.renumber h1))))
theorem Ends.execExtendMeasurement {pk : Nat} {s : State} (h : Formed s) : Ends outState (Machine.execExtendMeasurement pk s) :=
  .safely h (fun _ _ h1 => .ite (.of_state rfl (.extend h1)) (.of_none rfl))
theorem Ends.execAttest {pk : Nat} {s : State} (h : Formed s) : Ends outState (Machine.execAttest pk s) :=
  .safely h (fun _ _ h1 => .ite (.of_none rfl) (.of_state rfl (.plainWrite (.checkpoint h1))))
theorem Ends.execReadAuditLog {pk : Nat} {s : State} (h : Formed s) : Ends outState (Machine.execReadAuditLog pk s) :=
  .safely h (fun _ _ h1 => .ite (.of_none rfl) (.of_state rfl (.plainWrite h1)))
theorem Ends.execReclaimAuditLog {pk : Nat} {s : State} (h : Formed s) : Ends outState (Machine.execReclaimAuditLog pk s) :=
  .safely h (fun _ _ h1 => .ite (.of_none rfl) (.of_state rfl (.audit (.auditFlush (.same h1)))))
theorem Ends.execSetInjector {pk : Nat} {s : State} (h : Formed s) : Ends outState (Machine.execSetInjector pk s) :=
  .safely h (fun _ _ h1 => .map_any (fun _ => .same h1))

/-! ### HostLink -/

theorem Ends.putSqbase {s : State} {value : W64} (h : Formed s) : Formed (s.putSqbase value) :=
  .ite h (.ite (.same h) (.same h))
theorem Ends.execSqbaseWrite {value : W64} {s : State} (h : Formed s) : Ends outState (Machine.execSqbaseWrite value s) :=
  .of_state rfl (.putSqbase h)
theorem Ends.putSqdb {s : State} {value : W64} (h : Formed s) : Formed (s.putSqdb value) :=
  .ite h (.same h)
theorem Ends.execSafeQueueDoorbell {value : W64} {s : State} (h : Formed s) :
    Ends outState (Machine.execSafeQueueDoorbell value s) :=
  .of_state rfl (.putSqdb h)
theorem Ends.addSqridx {s : State} {n : W64} (h : Formed s) : Formed (s.addSqridx n) :=
  .ite h (.same (.reply h))
theorem Ends.execSqridxAtomicAdd {n : W64} {s : State} (h : Formed s) : Ends outState (Machine.execSqridxAtomicAdd n s) :=
  .of_state rfl (.addSqridx h)
theorem Ends.putReg {s : State} {off : Nat} {value : W64} (h : Formed s) : Formed (s.putReg off value) :=
  .ite (.same h) h
theorem Ends.execRegisterWrite {off : Nat} {value : W64} {s : State} (h : Formed s) :
    Ends outState (Machine.execRegisterWrite off value s) :=
  .of_state rfl (.putReg h)
theorem Ends.putWindow {s : State} {o : Nat} {x : W64} (h : Formed s) : Formed (s.putWindow o x) :=
  .ite (.putSqbase h) (.ite (.putSqdb h) (.ite (.ringDoorbell h) (.putReg h)))
theorem Ends.execHostWrite {port : Nat} {ordered : Bool} {off : Nat} {bytes : List Byte} {s : State} (h : Formed s) :
    Ends outState (Machine.execHostWrite port ordered off bytes s) := by
  unfold Machine.execHostWrite
  refine .of_state rfl ?_
  split
  · exact h
  · exact .ite h (.ite (.ite h (.ite (.putWindow h) h)) (.ite h (.foldl (fun _ _ h1 => .putReq h1) h)))
theorem Ends.execHostRead {port off len : Nat} {s : State} (h : Formed s) :
    Ends outState (Machine.execHostRead port off len s) := by
  unfold Machine.execHostRead
  refine .of_state rfl ?_
  split
  · exact h
  · exact .ite (.getD (.recallAll h) h) (.reply (.same h))
theorem Ends.execHostAtomic {port off : Nat} {op : HostAtom} {s : State} (h : Formed s) :
    Ends outState (Machine.execHostAtomic port off op s) := by
  unfold Machine.execHostAtomic
  refine .of_state rfl ?_
  split
  · exact h
  · refine .ite ?_ (.ite h (.putReq h))
    split
    · exact .ite (.addSqridx h) h
    · exact h
theorem Ends.execPortFailure {port : Nat} {s : State} (h : Formed s) : Ends outState (Machine.execPortFailure port s) :=
  .of_state rfl (.ite h (.same h))
theorem Ends.unpowered {s : State} (h : Formed s) : Formed s.unpowered :=
  formed_iff.2 (canon_filter _ _ _ (formed_iff.1 h))
theorem Ends.execPowerGood {s : State} (h : Formed s) : Ends outState (Machine.execPowerGood s) :=
  .of_state rfl (.ite h (.same (.unpowered h)))
theorem Ends.execPowerLoss {s : State} (h : Formed s) : Ends outState (Machine.execPowerLoss s) :=
  .of_state rfl (.unpowered h)
theorem Ends.verify {s : State} {image reg : Nat} {ok : Bool} {d : BitVec 384} (h : Formed s) : Formed (s.verify image reg ok d) :=
  .audit (.ite (.extend h) h)
theorem Ends.joinUnit {s : State} {u : Nat} (h : Formed s) : Formed (s.joinUnit u) :=
  .notice (.same h)
theorem Ends.setDieup {s : State} {ok : Nat → Bool} (h : Formed s) : Formed (s.setDieup ok) :=
  .same h
theorem Ends.execStartStage {verified : List Bool} {units : List Nat} {digests : List (BitVec 384)} {s : State} (h : Formed s) :
    Ends outState (Machine.execStartStage verified units digests s) := by
  unfold Machine.execStartStage
  refine .of_state rfl ?_
  refine .ite h ?_
  split
  · exact .ite (.same (.extend (.verify h))) (.same (.verify h))
  · exact .same h
  · exact .same (.setDieup (.foldl (fun _ _ h1 => .joinUnit h1) (.foldl (fun _ _ h2 => .verify h2) h)))
  · exact .same (.foldl (fun _ _ h3 => .joinUnit h3) h)
  · exact .same (.foldl (fun _ _ h4 => .joinUnit h4) h)
  · exact h
theorem Ends.execFirmwareEntryAppend {body : List Byte} {s : State} (h : Formed s) :
    Ends outState (Machine.execFirmwareEntryAppend body s) :=
  .of_state rfl (.ite h (.audit h))
theorem Ends.execThermalThrottle {on : Bool} {s : State} (h : Formed s) : Ends outState (Machine.execThermalThrottle on s) :=
  .of_state rfl (.same h)
theorem Ends.execOvertemperatureShutdown {s : State} (h : Formed s) : Ends outState (Machine.execOvertemperatureShutdown s) :=
  .of_state rfl (.ite h (.unpowered (.audit h)))

/-! ### Integer -/

theorem Ends.execIadd {x0 : Hdr} {d a b : Reg} {ty : Ty} {x5 : State} (h : Formed x5) :
    Ends outState (Machine.execIadd x0 d a b ty x5) :=
  .int2 h
theorem Ends.execIaddRri {x0 : Hdr} {d a : Reg} {imm : BitVec 22} {ty : Ty} {x5 : State} (h : Formed x5) :
    Ends outState (Machine.execIaddRri x0 d a imm ty x5) :=
  .intI h
theorem Ends.execIsub {x0 : Hdr} {d a b : Reg} {ty : Ty} {x5 : State} (h : Formed x5) :
    Ends outState (Machine.execIsub x0 d a b ty x5) :=
  .int2 h
theorem Ends.execIsubRri {x0 : Hdr} {d a : Reg} {imm : BitVec 22} {ty : Ty} {x5 : State} (h : Formed x5) :
    Ends outState (Machine.execIsubRri x0 d a imm ty x5) :=
  .intI h
theorem Ends.execIadds {x0 : Hdr} {d a b : Reg} {ty : Ty} {x5 : State} (h : Formed x5) :
    Ends outState (Machine.execIadds x0 d a b ty x5) :=
  .int2 h
theorem Ends.execIaddsRri {x0 : Hdr} {d a : Reg} {imm : BitVec 22} {ty : Ty} {x5 : State} (h : Formed x5) :
    Ends outState (Machine.execIaddsRri x0 d a imm ty x5) :=
  .intI h
theorem Ends.execIsubs {x0 : Hdr} {d a b : Reg} {ty : Ty} {x5 : State} (h : Formed x5) :
    Ends outState (Machine.execIsubs x0 d a b ty x5) :=
  .int2 h
theorem Ends.execIsubsRri {x0 : Hdr} {d a : Reg} {imm : BitVec 22} {ty : Ty} {x5 : State} (h : Formed x5) :
    Ends outState (Machine.execIsubsRri x0 d a imm ty x5) :=
  .intI h
theorem Ends.execImul {x0 : Hdr} {d a b : Reg} {ty : Ty} {x5 : State} (h : Formed x5) :
    Ends outState (Machine.execImul x0 d a b ty x5) :=
  .int2 h
theorem Ends.execImulRri {x0 : Hdr} {d a : Reg} {imm : BitVec 22} {ty : Ty} {x5 : State} (h : Formed x5) :
    Ends outState (Machine.execImulRri x0 d a imm ty x5) :=
  .intI h
theorem Ends.execImulh {x0 : Hdr} {d a b : Reg} {ty : Ty} {x5 : State} (h : Formed x5) :
    Ends outState (Machine.execImulh x0 d a b ty x5) :=
  .int2 h
theorem Ends.execImad {x0 : Hdr} {d a b c : Reg} {ty : Ty} {x6 : State} (h : Formed x6) :
    Ends outState (Machine.execImad x0 d a b c ty x6) :=
  .alu h
theorem Ends.execImadw {x0 : Hdr} {d a b c : Reg} {ty : Ty} {x6 : State} (h : Formed x6) :
    Ends outState (Machine.execImadw x0 d a b c ty x6) :=
  .alu h
theorem Ends.execIdiv {x0 : Hdr} {d a b : Reg} {ty : Ty} {x5 : State} (h : Formed x5) :
    Ends outState (Machine.execIdiv x0 d a b ty x5) :=
  .int2 h
theorem Ends.execIrem {x0 : Hdr} {d a b : Reg} {ty : Ty} {x5 : State} (h : Formed x5) :
    Ends outState (Machine.execIrem x0 d a b ty x5) :=
  .int2 h
theorem Ends.execImin {x0 : Hdr} {d a b : Reg} {ty : Ty} {x5 : State} (h : Formed x5) :
    Ends outState (Machine.execImin x0 d a b ty x5) :=
  .int2 h
theorem Ends.execIminRri {x0 : Hdr} {d a : Reg} {imm : BitVec 22} {ty : Ty} {x5 : State} (h : Formed x5) :
    Ends outState (Machine.execIminRri x0 d a imm ty x5) :=
  .intI h
theorem Ends.execImax {x0 : Hdr} {d a b : Reg} {ty : Ty} {x5 : State} (h : Formed x5) :
    Ends outState (Machine.execImax x0 d a b ty x5) :=
  .int2 h
theorem Ends.execImaxRri {x0 : Hdr} {d a : Reg} {imm : BitVec 22} {ty : Ty} {x5 : State} (h : Formed x5) :
    Ends outState (Machine.execImaxRri x0 d a imm ty x5) :=
  .intI h
theorem Ends.execIabs {x0 : Hdr} {d a : Reg} {ty : Ty} {x4 : State} (h : Formed x4) :
    Ends outState (Machine.execIabs x0 d a ty x4) :=
  .int1 h
theorem Ends.execIneg {x0 : Hdr} {d a : Reg} {ty : Ty} {x4 : State} (h : Formed x4) :
    Ends outState (Machine.execIneg x0 d a ty x4) :=
  .int1 h
theorem Ends.execLea {x0 : Hdr} {d a b : Reg} {sh : BitVec 3} {ty : Ty} {x6 : State} (h : Formed x6) :
    Ends outState (Machine.execLea x0 d a b sh ty x6) :=
  .alu h
theorem Ends.execMov {x0 : Hdr} {d a : Reg} {ty : Ty} {x4 : State} (h : Formed x4) : Ends outState (Machine.execMov x0 d a ty x4) :=
  .int1 h
theorem Ends.execIcmp {x0 : Hdr} {d a b : Reg} {cc : Cmp} {ty : Ty} {x6 : State} (h : Formed x6) :
    Ends outState (Machine.execIcmp x0 d a b cc ty x6) :=
  .alu h
theorem Ends.execIcmpRri {x0 : Hdr} {d a : Reg} {imm : BitVec 22} {cc : Cmp} {ty : Ty} {x6 : State} (h : Formed x6) :
    Ends outState (Machine.execIcmpRri x0 d a imm cc ty x6) :=
  .alu h
theorem Ends.execIcmpp {x0 : Hdr} {d : Pred} {a b : Reg} {cc : Cmp} {ty : Ty} {x6 : State} (h : Formed x6) :
    Ends outState (Machine.execIcmpp x0 d a b cc ty x6) :=
  .alu h
theorem Ends.execIcmppRri {x0 : Hdr} {d : Pred} {a : Reg} {imm : BitVec 22} {cc : Cmp} {ty : Ty} {x6 : State} (h : Formed x6) :
    Ends outState (Machine.execIcmppRri x0 d a imm cc ty x6) :=
  .alu h
theorem Ends.execPick {x0 : Hdr} {d a b : Reg} {c : Pred} {ty : Ty} {x6 : State} (h : Formed x6) :
    Ends outState (Machine.execPick x0 d a b c ty x6) :=
  .alu h
theorem Ends.execMovi {x0 : Hdr} {d : Reg} {imm : W32} {ty : Ty} {x4 : State} (h : Formed x4) :
    Ends outState (Machine.execMovi x0 d imm ty x4) :=
  .alu h
theorem Ends.execMovih {x0 : Hdr} {d : Reg} {imm : W32} {x3 : State} (h : Formed x3) :
    Ends outState (Machine.execMovih x0 d imm x3) :=
  .alu h

/-! ### Packed -/

theorem Ends.execPkadd {x0 : Hdr} {d a b : Reg} {m : FMods} {ty : Ty} {rm : Rm} {x7 : State} (h : Formed x7) :
    Ends outState (Machine.execPkadd x0 d a b m ty rm x7) :=
  .alu h
theorem Ends.execPkmul {x0 : Hdr} {d a b : Reg} {m : FMods} {ty : Ty} {rm : Rm} {x7 : State} (h : Formed x7) :
    Ends outState (Machine.execPkmul x0 d a b m ty rm x7) :=
  .alu h
theorem Ends.execPkfma {x0 : Hdr} {d a b c : Reg} {m : FMods} {ty : Ty} {rm : Rm} {x8 : State} (h : Formed x8) :
    Ends outState (Machine.execPkfma x0 d a b c m ty rm x8) :=
  .alu h
theorem Ends.execBdot4 {x0 : Hdr} {d a b c : Reg} {sa sb sat : Bool} {x8 : State} (h : Formed x8) :
    Ends outState (Machine.execBdot4 x0 d a b c sa sb sat x8) :=
  .alu h
theorem Ends.execPkdot {x0 : Hdr} {d a b c : Reg} {m : FMods} {ty : Ty} {rm : Rm} {x8 : State} (h : Formed x8) :
    Ends outState (Machine.execPkdot x0 d a b c m ty rm x8) :=
  .alu h
theorem Ends.execFcvt {x0 : Hdr} {d a : Reg} {ty sty : Ty} {rm : Rm} {x6 : State} (h : Formed x6) :
    Ends outState (Machine.execFcvt x0 d a ty sty rm x6) :=
  .alu h
theorem Ends.execFtoi {x0 : Hdr} {d a : Reg} {ty sty : Ty} {rm : Rm} {x6 : State} (h : Formed x6) :
    Ends outState (Machine.execFtoi x0 d a ty sty rm x6) :=
  .alu h
theorem Ends.execItof {x0 : Hdr} {d a : Reg} {ty sty : Ty} {rm : Rm} {x6 : State} (h : Formed x6) :
    Ends outState (Machine.execItof x0 d a ty sty rm x6) :=
  .alu h
theorem Ends.execFpack {x0 : Hdr} {d a b : Reg} {ty : Ty} {rm : Rm} {hi : Bool} {x7 : State} (h : Formed x7) :
    Ends outState (Machine.execFpack x0 d a b ty rm hi x7) :=
  .alu h
theorem Ends.execFunpk {x0 : Hdr} {d a : Reg} {ty : Ty} {ix : BitVec 2} {x5 : State} (h : Formed x5) :
    Ends outState (Machine.execFunpk x0 d a ty ix x5) :=
  .alu h
theorem Ends.execRngk {x0 : Hdr} {d a b : Reg} {x4 : State} (h : Formed x4) : Ends outState (Machine.execRngk x0 d a b x4) :=
  .alu h

/-! ### Paired -/

theorem Ends.execPairedWord {sw : Bool} {s0 s1 : Slot} {x3 : State} (h : Formed x3) :
    Ends outState (Machine.execPairedWord sw s0 s1 x3) :=
  .alu h

/-! ### Predicate -/

theorem Ends.execPand {x0 : Hdr} {d a b : Pred} {x4 : State} (h : Formed x4) : Ends outState (Machine.execPand x0 d a b x4) :=
  .alu h
theorem Ends.execPor {x0 : Hdr} {d a b : Pred} {x4 : State} (h : Formed x4) : Ends outState (Machine.execPor x0 d a b x4) :=
  .alu h
theorem Ends.execPxor {x0 : Hdr} {d a b : Pred} {x4 : State} (h : Formed x4) : Ends outState (Machine.execPxor x0 d a b x4) :=
  .alu h
theorem Ends.execPnot {x0 : Hdr} {d a : Pred} {x3 : State} (h : Formed x3) : Ends outState (Machine.execPnot x0 d a x3) :=
  .alu h
theorem Ends.execPmov {x0 : Hdr} {m : PMov} {x2 : State} (h : Formed x2) : Ends outState (Machine.execPmov x0 m x2) :=
  .alu h
theorem Ends.execPset {x0 : Hdr} {d : Pred} {imm : W32} {x3 : State} (h : Formed x3) :
    Ends outState (Machine.execPset x0 d imm x3) :=
  .alu h

/-! ### Remote -/

theorem Ends.reap {s : State} {id : Nat} (h : Formed s) : Formed (s.reap id) := by
  unfold State.reap
  split
  · exact .ite (.same h) h
  · exact h
theorem Ends.inject {s : State} {l n lane flits : Nat} (h : Formed s) : Ends fstState (s.inject l n lane flits) :=
  .ite (.pair' h) (.pair' (.same h))
theorem Ends.passLink {s : State} {id : Nat} {q : Req} {c : Copy} {l lane e : Nat} (h : Formed s) :
    Formed (s.passLink id q c l lane e) :=
  .updReq (.fst (.inject (.ite (.spend h) h)))
theorem Ends.execLinkFlitTransmit {link lane rq : Nat} {s : State} (h : Formed s) :
    Ends outState (Machine.execLinkFlitTransmit link lane rq s) := by
  unfold Machine.execLinkFlitTransmit
  refine .of_state rfl ?_
  split
  · exact h
  · split
    · exact .passLink h
    · refine .ite ?_ (.ite (.fst (.inject h)) h)
      split
      · exact .ite (.fst (.inject h)) (.updReq (.fst (.inject h)))
      · exact h
theorem Ends.execLinkAcknowledgement {link rq : Nat} {s : State} (h : Formed s) :
    Ends outState (Machine.execLinkAcknowledgement link rq s) := by
  unfold Machine.execLinkAcknowledgement
  refine .of_state rfl ?_
  split
  · exact h
  · split
    · exact h
    · exact .ite (.fst (.inject h)) (.updReq (.fst (.inject h)))
theorem Ends.execLinkTimeoutRetransmit {link rq : Nat} {s : State} (h : Formed s) :
    Ends outState (Machine.execLinkTimeoutRetransmit link rq s) := by
  unfold Machine.execLinkTimeoutRetransmit
  refine .of_state rfl ?_
  split
  · exact h
  · refine .ite (.reap (.updReq h)) ?_
    split
    · exact .updReq h
    · exact .updReq (.fst (.inject (.snd (.newId (.updReq h)))))
theorem Ends.execRequesterHoldRelease {runit : Nat} {s : State} (h : Formed s) :
    Ends outState (Machine.execRequesterHoldRelease runit s) := by
  unfold Machine.execRequesterHoldRelease
  refine .of_state rfl ?_
  split
  · exact h
  · exact .ite h (.addCopy (.updRqer (.updReq (.snd (.takeSerial (.ite (.spend h) h))))))
theorem Ends.performCopy {s : State} {id : Nat} {q : Req} {ser : BitVec 16} {copy : Nat} (h : Formed s) :
    Formed (s.performCopy id q ser copy) := by
  unfold State.performCopy
  dsimp only
  split
  · exact .ite (.agentSector (.reached h)) (.ite (.doWrite (.reached h)) (.writeSector (.reached h)))
  · exact .ite (.copyGone (.ite (.agentSector (.reached h)) (.ite (.doWrite (.reached h)) (.writeSector (.reached h))))) (.ite
      (.reap (.ownerKeeps (.updReq (.ite (.agentSector (.reached h)) (.ite (.doWrite (.reached h)) (.writeSector (.reached h)))))))
      (.ite (.agentSector (.reached h)) (.ite (.doWrite (.reached h)) (.writeSector (.reached h)))))
theorem Ends.execResultCacheRequest {rq copy : Nat} {s : State} (h : Formed s) :
    Ends outState (Machine.execResultCacheRequest rq copy s) := by
  unfold Machine.execResultCacheRequest
  dsimp only
  refine .of_state rfl ?_
  split
  · exact h
  · refine .ite h ?_
    split
    · exact .reap (.copyGone (.sendReply (.snd (.ownerDecides h))))
    · exact .reap (.copyGone (.snd (.ownerDecides h)))
    · exact .reap (.copyGone (.sendReply (.snd (.ownerDecides h))))
    · exact .reap (.copyGone (.sendReply (.snd (.ownerDecides h))))
    · exact .ite (.snd (.ownerDecides h)) (.performCopy (.snd (.ownerDecides h)))
theorem Ends.txUnknown {s : State} {id gs : Nat} {m : TxMsg} {c : Cause} (h : Formed s) : Formed (s.txUnknown id gs m c) := by
  unfold State.txUnknown
  split
  · exact .dropReq h
  · refine .txSettle ?_
    refine .raise ?_
    split
    · exact .txUndo (.dropReq h)
    · exact .releaseWords (.dropReq h)
    · exact .releaseWords (.dropReq h)
theorem Ends.unknownOutcome {s : State} {id : Nat} {q : Req} {ser : BitVec 16} (h : Formed s) :
    Formed (s.unknownOutcome id q ser) := by
  unfold State.unknownOutcome
  split
  · exact .txUnknown h
  · exact .ite (.dropReq h) (.ite (.updReq (.answerSerial h)) (.updReq (.answerSerial (.haltBy h))))
  · exact .ite (.dropReq h) (.ite (.logAcked (.dropReq (.haltBy h))) (.ite (.dropReq (.haltBy h)) (.updReq (.answerSerial (.haltBy
      h)))))
  · exact .lateFault h
theorem Ends.viewReply {s : State} {q : Req} (h : Formed s) : Formed (s.viewReply q) := by
  unfold State.viewReply
  exact .updDie h
theorem Ends.execRequestReply {rq : Nat} {s : State} (h : Formed s) : Ends outState (Machine.execRequestReply rq s) := by
  unfold Machine.execRequestReply
  refine .of_state rfl ?_
  split
  · exact h
  · refine .ite h ?_
    split
    · exact .updReq (.viewReply h)
    · exact .unknownOutcome (.viewReply h)
    · exact .ite (.predict (.updReq (.answerSerial (.viewReply h)))) (.updReq (.answerSerial (.viewReply h)))
theorem Ends.execBusyRetry {rq : Nat} {s : State} (h : Formed s) : Ends outState (Machine.execBusyRetry rq s) := by
  unfold Machine.execBusyRetry
  refine .of_state rfl ?_
  split
  · exact .ite (.updReq (.addCopy h)) h
  · exact h
theorem Ends.execRequestResend {rq : Nat} {s : State} (h : Formed s) : Ends outState (Machine.execRequestResend rq s) := by
  unfold Machine.execRequestResend
  refine .of_state rfl ?_
  split
  · exact .ite (.addCopy h) h
  · exact h
theorem Ends.leaveCopies {s : State} {q : Req} (h : Formed s) : Formed (s.leaveCopies q) :=
  .ite h (.same (.snd (.newId h)))
theorem Ends.execRequestAbandon {rq : Nat} {s : State} (h : Formed s) : Ends outState (Machine.execRequestAbandon rq s) := by
  unfold Machine.execRequestAbandon
  refine .of_state rfl ?_
  split
  · exact .ite h (.unknownOutcome (.leaveCopies h))
  · exact h
theorem Ends.execAgeExpiry {rq copy : Nat} {s : State} (h : Formed s) : Ends outState (Machine.execAgeExpiry rq copy s) :=
  .of_state rfl (.reap (.updReq h))
theorem Ends.execRetirePacketSend {runit owner : Nat} {s : State} (h : Formed s) :
    Ends outState (Machine.execRetirePacketSend runit owner s) :=
  .of_state rfl (.ite (.updRqer h) h)
theorem Ends.execRetirePacket {runit owner : Nat} {s : State} (h : Formed s) :
    Ends outState (Machine.execRetirePacket runit owner s) := by
  unfold Machine.execRetirePacket
  refine .of_state rfl ?_
  split
  · exact h
  · exact .updRqer (.ite (.retireAt h) h)
theorem Ends.execTombstoneExpiry {owner runit : Nat} {ser : BitVec 16} {s : State} (h : Formed s) :
    Ends outState (Machine.execTombstoneExpiry owner runit ser s) :=
  .of_state rfl (.same h)
theorem Ends.execOwnerIncarnationAdvance {s : State} (h : Formed s) : Ends outState (Machine.execOwnerIncarnationAdvance s) :=
  .of_state rfl (.ite h (.same h))
theorem Ends.execIncarnationAnnounce {die modul : Nat} {inc : Byte} {s : State} (h : Formed s) :
    Ends outState (Machine.execIncarnationAnnounce die modul inc s) :=
  .of_state rfl (.ite h (.updDie h))

/-! ### Shrink -/

theorem Ends.lostStop {s : State} {gs : Nat} (h : Formed s) : Formed (s.lostStop gs) := by
  unfold State.lostStop
  split
  · exact h
  · exact .ite h (.updGroup h)
theorem Ends.loseUnit {s : State} {gss : List Nat} (h : Formed s) : Formed (s.loseUnit gss) := by
  unfold State.loseUnit
  refine .foldl (fun _ _ h1 => ?_) (.foldl (fun _ _ h2 => .lostStop h2) h)
  split
  · exact .haltBy h1
  · exact h1
theorem Ends.loseCtxs {s : State} {spids : List Nat} {code : Nat} (h : Formed s) : Formed (s.loseCtxs spids code) :=
  .foldl (fun _ _ h1 => .haltBy h1) h
theorem Ends.retestGrid {s : State} {k : Nat} {g : Grid} (h : Formed s) : Formed (s.retestGrid k g) := by
  unfold State.retestGrid
  refine .ite h ?_
  split
  · exact .updGrid h
  · split
    · exact .haltQueue (.dropPk (.dropGrid h))
    · exact h
theorem Ends.retest {s : State} {core : Nat} (h : Formed s) : Formed (s.retest core) :=
  .foldl (fun _ _ h2 => .recheckResumes h2) (.foldl (fun _ _ h2 => .retestGrid h2) h)
theorem Ends.retireColumn {s : State} {core i why : Nat} (h : Formed s) : Formed (s.retireColumn core i why) :=
  .retireRecord (.loseUnit (.updCore h))
theorem Ends.retireSlice {s : State} {die q : Nat} {why : Reason} (h : Formed s) : Formed (s.retireSlice die q why) :=
  .ite (.retireRecord (.loseCtxs (.updDie (.updDie h)))) (.ite (.retireRecord (.retireRecord (.updDie (.updDie h)))) (.retireRecord
    (.updDie (.updDie h))))
theorem Ends.retireChannel {s : State} {die c : Nat} {why : Reason} (h : Formed s) : Formed (s.retireChannel die c why) :=
  .ite (.retireRecord h) (.retireRecord (.updDie h))
theorem Ends.retireLink {s : State} {die i why : Nat} (h : Formed s) : Formed (s.retireLink die i why) :=
  .retireRecord (.updDie h)
theorem Ends.drainRetired {s : State} {die n : Nat} (h : Formed s) : Formed (s.drainRetired die n) := by
  induction n generalizing s with
  | zero => exact h
  | succ n ih =>
    unfold State.drainRetired
    split
    · exact h
    · split
      · exact ih (.updDie (.retireColumn h))
      · exact ih (.updDie (.retireLink h))
      · exact .ite (ih (.updDie (.retireSlice h))) h
      · exact .ite (ih (.updDie (.retireChannel h))) h
      · exact h
theorem Ends.settleRetired {s : State} {die : Nat} (h : Formed s) : Formed (s.settleRetired die) :=
  .drainRetired h
theorem Ends.execSelfCheck {u : HwUnit} {why : Reason} {pass : Bool} {s : State} (h : Formed s) :
    Ends outState (Machine.execSelfCheck u why pass s) :=
  .of_state rfl (.ite h (.ite (.same h) (.settleRetired (.updDie (.same h)))))
theorem Ends.execEarlyCheckFlag {u : HwUnit} {s : State} (h : Formed s) : Ends outState (Machine.execEarlyCheckFlag u s) :=
  .of_state rfl (.ite h (.same h))
theorem Ends.retired {s : State} {die : Nat} (h : Formed s) : Formed (s.retired die) :=
  .settleRetired (.updDie h)
theorem Ends.execSteeringRewrite {lb : Nat} {s : State} (h : Formed s) : Ends outState (Machine.execSteeringRewrite lb s) := by
  unfold Machine.execSteeringRewrite
  refine .of_state rfl ?_
  split
  · exact .ite h (.retest (.retired (.retireRecord (.ite (.loseUnit (.updLb (.endWalk (.updLb h)))) (.updLb h)))))
  · exact h
theorem Ends.execRegisterBankMigration {lb : Nat} {s : State} (h : Formed s) :
    Ends outState (Machine.execRegisterBankMigration lb s) := by
  unfold Machine.execRegisterBankMigration
  refine .of_state rfl ?_
  split
  · exact .ite h (.retest (.retired (.retireRecord (.loseUnit (.updLb h)))))
  · exact h
theorem Ends.execLocalStoreBankMigration {core : Nat} {s : State} (h : Formed s) :
    Ends outState (Machine.execLocalStoreBankMigration core s) := by
  unfold Machine.execLocalStoreBankMigration
  refine .of_state rfl ?_
  split
  · exact .ite h (.retest (.retired (.retireRecord (.loseUnit (.updCore h)))))
  · exact h
theorem Ends.updEvac {s : State} {die : Nat} {f : Evac → Evac} (h : Formed s) : Formed (s.updEvac die f) :=
  .updDie h
theorem Ends.endEvac {s : State} {die : Nat} {e : Evac} (h : Formed s) : Formed (s.endEvac die e) :=
  .ite (.updDie h) (.settleRetired (.retireRecord (.updDie h)))
theorem Ends.execSliceEvacuationSet {die : Nat} {s : State} (h : Formed s) :
    Ends outState (Machine.execSliceEvacuationSet die s) := by
  unfold Machine.execSliceEvacuationSet
  refine .of_state rfl ?_
  split
  · exact h
  · exact .ite h (.ite (.endEvac (.same h)) (.updEvac (.foldl (fun _ _ h1 => .dropLine h1) h)))
theorem Ends.execChannelEvacuationLine {die : Nat} {s : State} (h : Formed s) :
    Ends outState (Machine.execChannelEvacuationLine die s) := by
  unfold Machine.execChannelEvacuationLine
  dsimp only
  refine .of_state rfl ?_
  split
  · exact h
  · refine .ite h ?_
    split
    · exact .ite (.endEvac h) (.updEvac h)
    · split
      · exact .endEvac h
      · exact .updEvac (.updDie h)
theorem Ends.discard {s : State} {gs : Nat} {f : Tent → Bool} (h : Formed s) : Formed (s.discard gs f) := by
  unfold State.discard
  dsimp only
  split
  · exact .same (.foldl (fun _ _ h1 => .dropReq h1) h)
  · exact h
theorem Ends.strikeRecord {s : State} {ok : Bool} {die core zone parts : Nat} (h : Formed s) :
    Formed (s.strikeRecord ok die core zone parts) :=
  .retireRecord h
theorem Ends.unrecovered {s : State} {spids : List Nat} {die core zone : Nat} (h : Formed s) :
    Formed (s.unrecovered spids die core zone) :=
  .strikeRecord (.loseCtxs h)
theorem Ends.strikePort {s : State} {core age zone : Nat} (h : Formed s) : Formed (s.strikePort core age zone) :=
  .ite (.unrecovered h) (.strikeRecord (.foldl (fun _ _ h1 => .discard h1) h))
theorem Ends.execStrikeReport {z : Zone} {age : Nat} {s : State} (h : Formed s) :
    Ends outState (Machine.execStrikeReport z age s) := by
  unfold Machine.execStrikeReport
  refine .of_state rfl ?_
  refine .ite h ?_
  split
  · exact .ite h (.ite (.unrecovered h) (.strikeRecord (.foldl (fun _ _ h1 => .discard h1) h)))
  · exact .ite h (.strikePort h)
  · exact .ite h (.strikePort h)
  · exact .ite h (.strikeRecord (.ite h (.updCore h)))
  · exact .ite h (.strikeRecord (.ite h (.updCore h)))
  · exact .ite h (.ite (.unrecovered h) (.strikeRecord h))
  · exact .ite h (.ite (.unrecovered (.l1Clear h)) (.strikeRecord (.l1Clear h)))
  · exact .ite h (.strikeRecord (.ite h (.same h)))
  · exact .ite h (.unrecovered (.same h))
  · exact .ite h (.unrecovered h)
theorem Ends.execFabricPortRetirement {link : Bool} {i : Nat} {s : State} (h : Formed s) :
    Ends outState (Machine.execFabricPortRetirement link i s) :=
  .of_state rfl (.ite h (.ite (.ite h (.same h)) (.ite h (.same h))))

/-! ### Dispatch -/

theorem Ends.exec {i : Instr} {s : State} (h : Formed s) : Ends outState (Machine.exec i s) := by
  unfold Machine.exec
  split
  · exact .execIadd h
  · exact .execIaddRri h
  · exact .execIsub h
  · exact .execIsubRri h
  · exact .execIadds h
  · exact .execIaddsRri h
  · exact .execIsubs h
  · exact .execIsubsRri h
  · exact .execImul h
  · exact .execImulRri h
  · exact .execImulh h
  · exact .execImad h
  · exact .execImadw h
  · exact .execIdiv h
  · exact .execIrem h
  · exact .execImin h
  · exact .execIminRri h
  · exact .execImax h
  · exact .execImaxRri h
  · exact .execIabs h
  · exact .execIneg h
  · exact .execLea h
  · exact .execMov h
  · exact .execIcmp h
  · exact .execIcmpRri h
  · exact .execIcmpp h
  · exact .execIcmppRri h
  · exact .execPick h
  · exact .execMovi h
  · exact .execMovih h
  · exact .execAnd h
  · exact .execAndRri h
  · exact .execOr h
  · exact .execOrRri h
  · exact .execXor h
  · exact .execXorRri h
  · exact .execNot h
  · exact .execAndn h
  · exact .execAndnRri h
  · exact .execShl h
  · exact .execShlRri h
  · exact .execShr h
  · exact .execShrRri h
  · exact .execSar h
  · exact .execSarRri h
  · exact .execRotl h
  · exact .execRotlRri h
  · exact .execFunnel h
  · exact .execPopc h
  · exact .execClz h
  · exact .execCtz h
  · exact .execBrev h
  · exact .execBfx h
  · exact .execBfi h
  · exact .execBmrg h
  · exact .execCnvi h
  · exact .execPand h
  · exact .execPor h
  · exact .execPxor h
  · exact .execPnot h
  · exact .execPmov h
  · exact .execPset h
  · exact .execFadd h
  · exact .execFsub h
  · exact .execFmul h
  · exact .execFfma h
  · exact .execFmin h
  · exact .execFmax h
  · exact .execFminx h
  · exact .execFmaxx h
  · exact .execFdiv h
  · exact .execFsqrt h
  · exact .execFrcp h
  · exact .execFrsq h
  · exact .execFex2 h
  · exact .execFlg2 h
  · exact .execFcmpp h
  · exact .execFclass h
  · exact .execFrnd h
  · exact .execPkadd h
  · exact .execPkmul h
  · exact .execPkfma h
  · exact .execBdot4 h
  · exact .execPkdot h
  · exact .execFcvt h
  · exact .execFtoi h
  · exact .execItof h
  · exact .execFpack h
  · exact .execFunpk h
  · exact .execRngk h
  · exact .execBra h
  · exact .execBrx h
  · exact .execCall h
  · exact .execRet h
  · exact .execMjoin h
  · exact .execJoin h
  · exact .execExit h
  · exact .execNop h
  · exact .execRegion h
  · exact .execYield h
  · exact .execLxch h
  · exact .execLxchRri h
  · exact .execPoll h
  · exact .execLred h
  · exact .execPeer h
  · exact .execBcast h
  · exact .execRegroup h
  · exact .execLd h
  · exact .execSt h
  · exact .execLds h
  · exact .execSts h
  · exact .execPref h
  · exact .execCmnt h
  · exact .execFence h
  · exact .execEfence h
  · exact .execAtom h
  · exact .execRed h
  · exact .execRedo h
  · exact .execTxb h
  · exact .execTxe h
  · exact .execTxa h
  · exact .execTxq h
  · exact .execCpy h
  · exact .execCpys h
  · exact .execCpyx h
  · exact .execBatch h
  · exact .execWaitb h
  · exact .execWaitn h
  · exact .execSubs h
  · exact .execUnsub h
  · exact .execSubfl h
  · exact .execSubq h
  · exact .execMma h
  · exact .execMzero h
  · exact .execMldt h
  · exact .execMstt h
  · exact .execMepi h
  · exact .execMchk h
  · exact .execMzmap h
  · exact .execBar h
  · exact .execBara h
  · exact .execBarw h
  · exact .execCbar h
  · exact .execGbar h
  · exact .execQcnt h
  · exact .execQtry h
  · exact .execColl h
  · exact .execCabort h
  · exact .execLaunch h
  · exact .execLwait h
  · exact .execSrd h
  · exact .execSwr h
  · exact .execTrap h
  · exact .execBpt h
  · exact .execMark h
  · exact .execTlbw h
  · exact .execTlbi h
  · exact .execHret h
  · exact .execPairedWord h
  · exact .execLongResultReturn h
  · exact .execGroupPromotion h
  · exact .execGroupRetirement h
  · exact .execGtimeTimer h
  · exact .execWalkerStart h
  · exact .execWalkerTimeout h
  · exact .execFirstTouchTimeout h
  · exact .execHomeSliceAccess h
  · exact .execRemoteInvalidation h
  · exact .execWriteAcknowledgement h
  · exact .execWriteReturnedUnperformed h
  · exact .execSectorHoldTimeout h
  · exact .execMeshPacketArrival h
  · exact .execNegativeAcknowledgement h
  · exact .execMeshRetransmit h
  · exact .execWatermarkSweep h
  · exact .execIncarnationAdvance h
  · exact .execOwnershipRequest h
  · exact .execOwnershipRecall h
  · exact .execResultCacheRequest h
  · exact .execRequestReply h
  · exact .execRetirePacket h
  · exact .execRetirePacketSend h
  · exact .execBusyRetry h
  · exact .execRequestResend h
  · exact .execRequestAbandon h
  · exact .execAgeExpiry h
  · exact .execTombstoneExpiry h
  · exact .execOwnerIncarnationAdvance h
  · exact .execIncarnationAnnounce h
  · exact .execRequesterHoldRelease h
  · exact .execTxPrepare h
  · exact .execTxPrepareReply h
  · exact .execTxPrepareTimeout h
  · exact .execTxCommitMessage h
  · exact .execTxAbortMessage h
  · exact .execReductionApplication h
  · exact .execGridRetirement h
  · exact .execWorkgroupPlacement h
  · exact .execSnapshotSegment h
  · exact .execFeltEviction h
  · exact .execFeltEntryAgeExpiry h
  · exact .execFeltUpdateApply h
  · exact .execDetachMessage h
  · exact .execDetachAcknowledgement h
  · exact .execAttachMessage h
  · exact .execAttachReply h
  · exact .execResumeMessage h
  · exact .execUnsubRemoval h
  · exact .execMatrixOperation h
  · exact .execQuadArrivalTimeout h
  · exact .execCopyChunk h
  · exact .execBatchComplete h
  · exact .execCollectivePacket h
  · exact .execCollectiveComplete h
  · exact .execAbortToken h
  · exact .execDoorbellWrite h
  · exact .execHeadboxLaneTake h
  · exact .execHeaderRereadTimeout h
  · exact .execNopPacket h
  · exact .execSignal h
  · exact .execWait h
  · exact .execBarrierAnd h
  · exact .execBarrierOr h
  · exact .execWaitRetest h
  · exact .execLaunchPacket h
  · exact .execCopy h
  · exact .execCkpt h
  · exact .execQuiesce h
  · exact .execPacketCompletion h
  · exact .execCreateQueue h
  · exact .execBindQueue h
  · exact .execUnbindQueue h
  · exact .execResetQueue h
  · exact .execFlushControlBlocks h
  · exact .execCreateSpace h
  · exact .execTearDownSpace h
  · exact .execSetRaceMode h
  · exact .execSetWayMasks h
  · exact .execSetBudget h
  · exact .execMeterPeriodStart h
  · exact .execPreEmptContext h
  · exact .execPreemptionDeadline h
  · exact .execGroupSave h
  · exact .execResumeContext h
  · exact .execReleaseContext h
  · exact .execInvalidateTranslations h
  · exact .execSetInjector h
  · exact .execLinkFlitTransmit h
  · exact .execLinkAcknowledgement h
  · exact .execLinkTimeoutRetransmit h
  · exact .execSetRecording h
  · exact .execStopAtPoint h
  · exact .execSampleCounters h
  · exact .execAutomaticCheckpoint h
  · exact .execCreatePartition h
  · exact .execDeletePartition h
  · exact .execSetDomain h
  · exact .execAttest h
  · exact .execReadAuditLog h
  · exact .execReclaimAuditLog h
  · exact .execExtendMeasurement h
  · exact .execSetQueueTable h
  · exact .execSqbaseWrite h
  · exact .execSafeQueueDoorbell h
  · exact .execSqridxAtomicAdd h
  · exact .execRegisterWrite h
  · exact .execHostWrite h
  · exact .execHostRead h
  · exact .execHostAtomic h
  · exact .execPortFailure h
  · exact .execPowerGood h
  · exact .execStartStage h
  · exact .execFirmwareEntryAppend h
  · exact .execSelfCheck h
  · exact .execLocalStoreBankMigration h
  · exact .execRegisterBankMigration h
  · exact .execSteeringRewrite h
  · exact .execSliceEvacuationSet h
  · exact .execChannelEvacuationLine h
  · exact .execStrikeReport h
  · exact .execThermalThrottle h
  · exact .execOvertemperatureShutdown h
  · exact .execHaltLine h
  · exact .execHaltDrainComplete h
  · exact .execEarlyCheckFlag h
  · exact .execTentativeResultCommit h
  · exact .execInstructionFetch h
  · exact .execSpillAreaRefill h
  · exact .execFabricPortRetirement h
  · exact .execPowerLoss h

/-! ### Record -/

theorem Ends.replayAt {s : State} {gs : Nat} {b : Bool} {g : Machine.Group} {p : PcSlot} (h : Formed s) :
    Ends id (s.replayAt gs b g p) := by
  unfold State.replayAt
  dsimp only
  split
  · exact .of_none rfl
  · refine .ite (.of_none rfl) ?_
    refine .ite (.ite (.of_state rfl h) (.of_state rfl (.updGroup (.stopHit h)))) ?_
    split
    · exact .of_state rfl (.parting h)
    · exact .of_none rfl

/-! ### Schedule -/

theorem Ends.timerAt {s : State} {gs : Nat} {b : Bool} {g : Machine.Group} {p : PcSlot} (h : Formed s) :
    Ends id (s.timerAt gs b g p) :=
  .ite (.of_none rfl) (.ite (.of_state rfl h) (.of_state rfl (.timerFire h)))
theorem Ends.runInstr {s : State} {gs : Nat} {b : Bool} {i : Instr} (h : Formed s) : Ends outState (s.runInstr gs b i) := by
  unfold State.runInstr
  split
  · rename_i e
    exact .of_state rfl (.same (.of_eq (.exec (.same h)) e rfl))
  · exact .exec (.same h)
theorem Ends.fetchAndRun {s : State} {gs : Nat} {b : Bool} {g : Machine.Group} {p : PcSlot} (h : Formed s) :
    Ends outState (s.fetchAndRun gs b g p) := by
  unfold State.fetchAndRun
  split
  · rename_i e
    split
    · exact .runInstr (.of_eq (.fetch h) e rfl)
    · exact .of_state rfl (.raise (.of_eq (.fetch h) e rfl))
  · exact .of_state rfl (.fetchFail h (.fetch h))
theorem Ends.issueSlot {s0 : State} {gs : Nat} {b : Bool} (h : Formed s0) : Ends outState (s0.issueSlot gs b) := by
  unfold State.issueSlot
  dsimp only
  split
  · exact .of_state rfl h
  · refine .ite (.of_state rfl h) ?_
    split
    · exact .of_state rfl (.park (.settleQuiet h))
    · split
      · rename_i e
        exact .of_state rfl (.of_eq (.orElse (.replayAt (.settleQuiet h)) (fun _ => .timerAt (.settleQuiet h))) e rfl)
      · exact .fetchAndRun (.same (.settleQuiet h))
theorem Ends.issueMove {s : State} {gs : Nat} {b : Bool} (h : Formed s) : Ends outState (s.issueMove gs b) := by
  unfold State.issueMove
  refine .ite (.of_state rfl h) ?_
  split
  · rename_i e
    exact .ite (.of_state rfl (.updLb (.of_eq (.issueSlot h) e rfl))) (.of_state rfl (.of_eq (.issueSlot h) e rfl))
  · exact .issueSlot h
theorem Ends.firstOf {s : State} {l : List (Nat × Bool)} (h : Formed s) : Ends outState (s.firstOf l) := by
  induction l generalizing s with
  | nil => exact .of_state rfl h
  | cons x t ih =>
    unfold State.firstOf
    split
    · rename_i e
      have hs := Ends.of_eq (.issueSlot h) e rfl
      exact .ite (.of_state rfl (.updLb hs)) (ih hs)
    · exact .issueSlot h
theorem Ends.issueLb {s : State} {k : Nat} (h : Formed s) : Ends outState (s.issueLb k) :=
  .ite (.of_state rfl h) (.firstOf h)
theorem Ends.tickLb {s0 s : State} {k : Nat} (hs : Formed s) : Formed (s0.tickLb s k) := by
  unfold State.tickLb
  exact .updLb (.same hs)
theorem Ends.tick {s : State} (h : Formed s) : Formed s.tick :=
  .laneCycles (.same (.foldl (fun _ _ h1 => .tickLb h1) (.same h)))
theorem Ends.elapse {s : State} {n : Nat} (h : Formed s) : Formed (s.elapse n) := by
  induction n generalizing s with
  | zero => exact h
  | succ n ih => exact ih (.tick h)
theorem Ends.endReplay {s : State} {spid : Nat} (h : Formed s) : Formed (s.endReplay spid) := by
  unfold State.endReplay
  dsimp only
  split
  · exact h
  · refine .ite h ?_
    refine .ite (.ite h (.beginSave (.updSpace h))) ?_
    refine .ite h ?_
    refine .ite ?_ (.beginSave (.updSpace h))
    split
    · exact .stopHit h
    · exact .haltBy (.updSpace h)
theorem allEnd_reqCands (s : State) (x : Nat × Req) : AllEnd (reqCands s x) := by
  unfold reqCands
  refine .append (.append (.append
    (.cons .execLongResultReturn <| .cons .execHomeSliceAccess <| .cons .execWriteAcknowledgement <|
     .cons .execWriteReturnedUnperformed <| .cons .execMeshPacketArrival <| .cons .execNegativeAcknowledgement <|
     .cons .execMeshRetransmit <| .cons .execRequesterHoldRelease <| .cons .execBusyRetry <| .cons .execRequestReply <|
     .cons .execRequestResend <| .cons .execRequestAbandon .nil)
    (.ite .nil (.map fun _ => .execLinkFlitTransmit)))
    (.flatMap fun _ => .append (.cons .execResultCacheRequest <| .cons .execAgeExpiry .nil) (.map fun _ => ?_))) ?_
  · split
    · exact .execLinkTimeoutRetransmit
    · exact .execLinkAcknowledgement
  · split
    · exact .ite (.cons .execOwnershipRequest .nil) .nil
    · exact .nil
theorem allEnd_groupCands (s : State) (x : Nat × Machine.Group) : AllEnd (groupCands s x) := by
  unfold groupCands
  refine .append
    (.cons .execTentativeResultCommit <| .cons .execGroupPromotion <| .cons .execSpillAreaRefill <| .cons .execFirstTouchTimeout <|
     .cons .execIncarnationAdvance <| .cons .execGroupRetirement <| .cons .execGroupSave <| .cons .execBatchComplete <|
     .cons .execBatchComplete <| .cons .execBatchComplete <| .cons .execBatchComplete .nil) ?_
  split
  · exact .nil
  · refine .append (.append (.cons .execTxPrepare <| .cons .execTxPrepareReply .nil) (.map fun _ => .execTxPrepareTimeout))
      (.filterMap fun _ _ e => ?_)
    split at e
    · cases e; exact .execTxCommitMessage
    · cases e; exact .execTxAbortMessage
    · cases e
theorem allEnd_lbCands (s : State) (x : Nat × LaneBlock) : AllEnd (lbCands s x) :=
  .append (.cons .execWalkerStart <| .cons .execWalkerTimeout .nil)
    (.ite (.append (.map fun _ => .execEarlyCheckFlag) (.map fun _ => .execEarlyCheckFlag)) .nil)
theorem allEnd_coreCands (s : State) (x : Nat × Core) : AllEnd (coreCands s x) :=
  .append (.append (.append (.append
    (.cons .execFeltEntryAgeExpiry <| .cons .execFeltEviction <| .cons .execMatrixOperation <| .cons .execCopyChunk .nil)
    (.flatMap fun _ =>
      .cons .execDetachMessage <| .cons .execDetachAcknowledgement <| .cons .execAttachMessage <| .cons .execAttachReply <|
      .cons .execResumeMessage <| .cons .execUnsubRemoval .nil))
    (.map fun _ => .execSnapshotSegment)) (.ite (.map fun _ => .execEarlyCheckFlag) .nil)) (.ite (.map fun _ => .execEarlyCheckFlag)
      .nil)
theorem allEnd_collCands (x : Nat × Coll) : AllEnd (collCands x) := by
  refine .append (.filterMap fun _ _ e => ?_) (.cons .execCollectiveComplete .nil)
  obtain ⟨i, -, rfl⟩ := Option.map_eq_some_iff.mp e
  exact .execCollectivePacket
theorem allEnd_packetCands (x : Nat × Packet) : AllEnd (packetCands x) := by
  unfold packetCands
  refine .append ?_ (.cons .execWaitRetest <| .cons .execPacketCompletion .nil)
  split
  · exact .cons .execNopPacket .nil
  · exact .cons .execSignal .nil
  · exact .cons .execWait .nil
  · exact .cons .execBarrierAnd .nil
  · exact .cons .execBarrierOr .nil
  · exact .cons .execLaunchPacket .nil
  · exact .cons .execCopy .nil
  · exact .cons .execCkpt .nil
  · exact .cons .execQuiesce .nil
  · exact
      .cons .execCreateQueue <| .cons .execBindQueue <| .cons .execUnbindQueue <| .cons .execResetQueue <|
      .cons .execFlushControlBlocks <| .cons .execCreateSpace <| .cons .execTearDownSpace <| .cons .execSetRaceMode <|
      .cons .execSetWayMasks <| .cons .execSetBudget <| .cons .execPreEmptContext <| .cons .execResumeContext <|
      .cons .execReleaseContext <| .cons .execInvalidateTranslations <| .cons .execSetInjector <| .cons .execSetRecording <|
      .cons .execStopAtPoint <| .cons .execSampleCounters <| .cons .execCreatePartition <| .cons .execDeletePartition <|
      .cons .execSetDomain <| .cons .execAttest <| .cons .execReadAuditLog <| .cons .execReclaimAuditLog <|
      .cons .execExtendMeasurement <| .cons .execSetQueueTable .nil
theorem allEnd_dieCands (s : State) (d : Nat) : AllEnd (dieCands s d) := by
  unfold dieCands
  refine .append ?_ (.cons .execSliceEvacuationSet <| .cons .execChannelEvacuationLine <| .cons .execIncarnationAnnounce .nil)
  split
  · exact .cons .execSteeringRewrite .nil
  · exact .cons .execRegisterBankMigration .nil
  · exact .cons .execLocalStoreBankMigration .nil
  · exact .nil
theorem allEnd_sweepCands (s : State) : AllEnd (sweepCands s) := .ite .nil (.map fun _ => .execWatermarkSweep)
theorem allEnd_cands (s : State) : AllEnd s.cands := by
  unfold State.cands
  refine .append (.append ?_ (.map fun _ _ h => .of_state rfl (.endReplay h))) (.map fun _ => .issueLb)
  refine .append ?_ (allEnd_sweepCands s)
  refine .append ?_ (.map fun _ => .execAutomaticCheckpoint)
  refine .append ?_ (.flatMap fun _ => .cons .execHeadboxLaneTake <| .cons .execHeaderRereadTimeout .nil)
  refine .append ?_ (.flatMap allEnd_packetCands)
  refine .append ?_ (.flatMap fun _ => .append (.cons .execHaltLine <| .cons .execHaltDrainComplete .nil) (.map fun _ =>
    .execMeterPeriodStart))
  refine .append ?_ (.flatMap fun _ =>
    .cons .execWorkgroupPlacement <| .cons .execPreemptionDeadline <| .cons .execReductionApplication <| .cons .execGridRetirement
      .nil)
  refine .append ?_ (.flatMap (allEnd_dieCands s))
  refine .append ?_ (.map fun _ => .execAbortToken)
  refine .append ?_ (.flatMap allEnd_collCands)
  refine .append ?_ (.cons .execOwnerIncarnationAdvance .nil)
  refine .append ?_ (.filterMap fun _ _ e => ?_)
  · refine .append ?_ (.flatMap fun _ => .flatMap fun _ => .cons .execRetirePacketSend <| .cons .execRetirePacket .nil)
    refine .append ?_ (.map fun _ => .execQuadArrivalTimeout)
    refine .append ?_ (.map fun _ => .execFeltUpdateApply)
    refine .append ?_ (.flatMap (allEnd_coreCands s))
    refine .append ?_ (.flatMap (allEnd_lbCands s))
    refine .append ?_ (.map fun _ => .execOwnershipRecall)
    refine .append ?_ (.map fun _ => .execSectorHoldTimeout)
    refine .append ?_ (.map fun _ => .execRemoteInvalidation)
    exact .append (.flatMap (allEnd_groupCands s)) (.flatMap (allEnd_reqCands s))
  · obtain ⟨_, -, rfl⟩ := Option.map_eq_some_iff.mp e
    exact .execTombstoneExpiry
theorem Ends.tryFrom {s : State} {l : List Cand} {n : Nat} (h : Formed s) (hl : AllEnd l) : Ends outState (s.tryFrom l n) := by
  induction l generalizing n with
  | nil => exact .of_state rfl (.same (.tick h))
  | cons c t ih =>
    have hc : Ends outState (c s) := hl c List.mem_cons_self h
    unfold State.tryFrom
    split
    · rename_i e
      exact .ite (ih fun c hc => hl c (List.mem_cons_of_mem _ hc)) (.of_state rfl (.same (.of_eq hc e rfl)))
    · exact hc
theorem Ends.ownMove {s : State} (h : Formed s) : Ends outState s.ownMove :=
  .tryFrom h fun c hc => allEnd_cands s c (List.mem_of_mem_drop hc)
theorem Ends.move {s : State} {x1 : Move} (h : Formed s) : Ends outState (s.move x1) := by
  unfold State.move
  split
  · exact .issueMove h
  · exact .exec h
  · exact .of_state rfl (.elapse h)
  · exact .ownMove h

/-! ### Copy -/

theorem Ends.step {s : State} (h : Formed s) : Ends outState (Machine.step s) := by
  unfold Machine.step
  split
  · exact .ownMove h
  · exact .move (.same h)

/-- Settles O44: a step is a move of the agenda or of the module's own, and each keeps the form. -/
theorem memoryForm : Obligations.MemoryForm := by
  intro s t h e
  exact formed_iff.1 (.of_eq (.step (formed_iff.2 h)) e rfl)

end Sys2Proof.Proofs
end

section
/-! The reset state and the management commands (18, R408; 01, R36 to R40; 15, R372 to R376). -/

namespace Sys2Proof.Proofs
open Sys2Proof.Machine Sys2Proof.Laws

/-- Settles O45: every table of the reset state is empty by definition. -/
theorem resetState : Obligations.ResetState := by
  unfold Obligations.ResetState
  refine ⟨rfl, rfl, rfl, rfl, rfl, rfl, rfl, rfl, rfl, rfl, rfl, rfl, fun _ => rfl, rfl, fun _ => rfl⟩

/-- Settles O55: each clause is the law of its command. -/
theorem managementPackets : Obligations.ManagementPackets := by
  unfold Obligations.ManagementPackets
  intro s pk p c hp hs hc ht
  refine ⟨fun h1 h2 => ?_, fun hst => ?_⟩
  · refine ⟨cmd_createQueue hp hs hc ht h1 h2, cmd_bind hp hs hc ht h1 h2, cmd_unbind hp hs hc ht h1 h2, cmd_reset hp hs hc ht h1 h2,
      cmd_flush hp hs hc ht h1 h2, cmd_createSpace hp hs hc ht h1 h2, cmd_tear hp hs hc ht h1 h2, cmd_raceMode hp hs hc ht h1 h2,
      cmd_ways hp hs hc ht h1 h2, cmd_budget hp hs hc ht h1 h2, ?_, ?_, ?_, cmd_recording hp hs hc ht h1 h2, ?_, ?_, cmd_invalidate hp hs hc ht h1 h2⟩
    · intro hk h3 h4
      exact ⟨fun a1 a2 a3 => (cmd_preEmpt hp hs hc ht h1 h2 hk h3 h4).1 a1 a2 a3 _ rfl, (cmd_preEmpt hp hs hc ht h1 h2 hk h3 h4).2⟩
    · intro hk r hr h3 h4 h5 h6 h7
      exact ⟨(cmd_resume hp hs hc ht h1 h2 hk hr h3 h4 h5 h6 h7).1, (cmd_resume hp hs hc ht h1 h2 hk hr h3 h4 h5 h6 h7).2 _ rfl⟩
    · intro hk
      exact ⟨(cmd_release hp hs hc ht h1 h2 hk).1, (cmd_release hp hs hc ht h1 h2 hk).2 _ rfl⟩
    · intro hk
      exact ⟨cmd_stop hp hs hc ht h1 h2 hk, fun a1 a2 a3 a4 a5 a6 a7 a8 r' b1 b2 b3 b4 b5 =>
        cmd_rerun hp hs hc ht h1 h2 hk a1 a2 a3 a4 a5 a6 a7 a8 _ r' _ _ rfl rfl rfl b1 b2 b3 b4 b5⟩
    · intro hk
      have hcs := cmd_sample hp hs hc ht h1 h2 hk
      exact ⟨hcs.1, fun hm => (hcs.2 _ rfl _ rfl hm).1, fun hm => (hcs.2 _ rfl _ rfl hm).2⟩
  · exact ⟨go_tear hp hs hc ht hst, go_preEmpt hp hs hc ht hst, go_resume hp hs hc ht hst, go_release hp hs hc ht hst, go_stop hp hs hc ht hst⟩
end Sys2Proof.Proofs
end

section
/-! The supervisor's words: entries of the TLBs, their invalidation, and the handler's return (14, R358 to R360). -/

namespace Sys2Proof.Proofs
open Sys2Proof.Machine Sys2Proof.Laws

/-! ### TLBW and TLBI -/

/-- What TLBW enters is the page of its operands, in the space that its code serves. -/
def tlbwEnters (t s : State) (w : Word) (lvl : Nat) : State :=
  t.fillTlb w.gs (tlbEntry (s.servedSpace w.gs w.g).1 (s.servedSpace w.gs w.g).2 (w.src 0 0 % 2 ^ 56) lvl (w.opnd64 1 0))
/-- The page is there, its entry well formed, and the space's generation the current one. -/
def tlbwFits (s : State) (w : Word) (lvl : Nat) : Prop :=
  bit (w.opnd64 1 0) 0 = true ∧ pteMalformed (w.opnd64 1 0) lvl = false ∧ (s.space (s.servedSpace w.gs w.g).1).gen = (s.servedSpace w.gs w.g).2

section Tlbw
variable {h : Hdr} {a b : Reg} {lvl : Fin 3} {r : WalkRun}

theorem tlbw_walks_enters : Performs (.tlbw h a b lvl)
    (fun s w => (w.some ∧ isWalker w.gs = true ∧ (s.lb (lbOf w.gs)).walk = some r) ∧ tlbwFits s w lvl.val ∧
      r.drops (s.servedSpace w.gs w.g).1 (w.src 0 0 % 2 ^ 56) lvl.val = false)
    (fun w s => tlbwEnters (s.updLb (lbOf w.gs) fun x => { x with walk := some (r.take (w.src 0 0 % 2 ^ 56) lvl.val (w.opnd64 1 0)) }) s w lvl.val) := by
  refine performs_of _ (fun _ => rfl) fun s w _ hc => ?_
  obtain ⟨⟨hsome, hwalker, hrun⟩, ⟨hpresent, hgood, hnow⟩, hkept⟩ := hc
  simp only
  rw [if_neg hsome, if_pos hwalker, hrun]
  refine congrArg Eff.done (if_pos ?_)
  rw [Word.opnd64] at hpresent hgood
  rw [hpresent, hgood, hkept]
  simp [hnow]
theorem tlbw_walks_counts : Performs (.tlbw h a b lvl)
    (fun s w => (w.some ∧ isWalker w.gs = true ∧ (s.lb (lbOf w.gs)).walk = some r) ∧ (¬ tlbwFits s w lvl.val ∨
      r.drops (s.servedSpace w.gs w.g).1 (w.src 0 0 % 2 ^ 56) lvl.val = true))
    (fun w s => s.updLb (lbOf w.gs) fun x => { x with walk := some (r.take (w.src 0 0 % 2 ^ 56) lvl.val (w.opnd64 1 0)) }) := by
  refine performs_of _ (fun _ => rfl) fun s w _ hc => ?_
  obtain ⟨⟨hsome, hwalker, hrun⟩, hnot⟩ := hc
  simp only
  rw [if_neg hsome, if_pos hwalker, hrun]
  refine congrArg Eff.done (if_neg fun hall => ?_)
  simp only [Bool.and_eq_true, Bool.not_eq_true', bne_eq_false_iff_eq] at hall
  obtain ⟨⟨⟨hpresent, hgood⟩, hnow⟩, hkept⟩ := hall
  rcases hnot with hnot | hdrops
  · exact hnot ⟨hpresent, hgood, hnow⟩
  · exact Bool.noConfusion (hdrops.symm.trans hkept)
theorem tlbw_enters : Performs (.tlbw h a b lvl) (fun s w => w.some ∧ isWalker w.gs = false ∧ tlbwFits s w lvl.val)
    (fun w s => tlbwEnters s s w lvl.val) := by
  refine performs_of _ (fun _ => rfl) fun s w _ hc => ?_
  obtain ⟨hsome, hwalker, hpresent, hgood, hnow⟩ := hc
  rw [Word.opnd64] at hpresent hgood
  simp only
  rw [if_neg hsome, if_neg (by simp [hwalker])]
  simp only [hgood, hpresent, hnow]
  simp
  rfl
theorem tlbw_malformed : Traps (.tlbw h a b lvl)
    (fun _ w => w.some ∧ isWalker w.gs = false ∧ pteMalformed (w.opnd64 1 0) lvl.val = true)
    (fun w => { code := 0x09, det := 0x04, lanes := w.act, addr := BitVec.ofNat 64 (w.src 0 0 % 2 ^ 56) }) (fun _ s => s) := by
  refine traps_of _ (fun _ => rfl) (fun s w _ hc => ?_) fun _ _ _ => .inl rfl
  obtain ⟨hsome, hwalker, hbad⟩ := hc
  simp only
  rw [if_neg hsome, if_neg (by simp [hwalker])]
  exact if_pos hbad
theorem tlbi_invalidates {space : Bool} : Performs (.tlbi h a b space) (fun _ w => w.some) (fun w s =>
    s.invalidate (if isWalker w.gs then (s.space (s.servedSpace w.gs w.g).1).part else s.partOf w.g) (w.src 1 0 % 256)
      (if space then none else some (w.src 0 0 % 2 ^ 56))) :=
  performs_of _ (fun _ => rfl) fun _ _ _ hsome => if_neg hsome
end Tlbw

/-! ### HRET -/

section Hret
variable {h : Hdr} {status : Byte}

theorem hret_walks {r : WalkRun} : Steers (.hret h status) (fun s w => w.some ∧ isWalker w.gs = true ∧ (s.lb (lbOf w.gs)).walk = some r)
    (fun _ => 1) (fun w s => s.endWalk (lbOf w.gs) (walkResult r status)) := by
  refine steers_of _ (fun _ => rfl) fun s w _ hc => ?_
  obtain ⟨hsome, hwalker, hrun⟩ := hc
  simp only
  rw [if_neg hsome, if_pos hwalker, hrun]

/-- The record of a handler whose active lanes have finished with the status. -/
def ftFinish (f : FtRun) (status : Byte) (w : Word) : FtRun := { f with done := w.lanes.foldl (fun t L => Tbl.put t L status) f.done }
/-- The group without the lanes that HRET has taken from the slot. -/
def hretLeft (w : Word) : Group :=
  w.g.setSlot w.b (if w.slot.mask &&& ~~~w.act = 0#32 then none else some { w.slot with pc := w.slot.pc + 8#64, mask := w.slot.mask &&& ~~~w.act })

/-- HRET has finished every lane of the handler's record. -/
theorem hret_touch_ends {f : FtRun} : Steers (.hret h status)
    (fun _ w => w.some ∧ isWalker w.gs = false ∧ w.g.ft = some f ∧ ∀ L ∈ laneList f.mask, Tbl.find (ftFinish f status w).done L ≠ none)
    (fun _ => 1) (fun w s => s.endTouch w.gs { hretLeft w with ft := some (ftFinish f status w) } (ftFinish f status w)) := by
  refine steers_of _ (fun _ => rfl) fun s w _ hc => ?_
  obtain ⟨hsome, hwalker, hft, hall⟩ := hc
  simp only
  rw [if_neg hsome, if_neg (by simp [hwalker]), hft]
  exact if_pos (List.all_eq_true.mpr fun L hL => Option.isSome_iff_ne_none.mpr (hall L hL))
/-- Some lane of the handler's record goes on. -/
theorem hret_touch_stays {f : FtRun} : Steers (.hret h status)
    (fun _ w => w.some ∧ isWalker w.gs = false ∧ w.g.ft = some f ∧ ∃ L ∈ laneList f.mask, Tbl.find (ftFinish f status w).done L = none)
    (fun _ => 1) (fun w s => w.now s { hretLeft w with ft := some (ftFinish f status w) }) := by
  refine steers_of _ (fun _ => rfl) fun s w _ hc => ?_
  obtain ⟨hsome, hwalker, hft, L, hL, hnone⟩ := hc
  simp only
  rw [if_neg hsome, if_neg (by simp [hwalker]), hft]
  exact if_neg fun hall => Option.isSome_iff_ne_none.mp (List.all_eq_true.mp hall L hL) hnone
end Hret

/-! ### The TLBs after an invalidation -/

theorem core_updCore_self (s : State) (c : Nat) (f : Core → Core) : (s.updCore c f).core c = f (s.core c) := by
  show (Tbl.find (Tbl.put s.cores c _) c).getD {} = _
  rw [find_put_self]
  rfl

theorem dropTlb_leaves (s : State) (c spid : Nat) (va : Option Nat) {e : TlbEnt} (he : e ∈ ((s.dropTlb c spid va).core c).tlb) (hs : e.spid = spid) :
    ∃ x, va = some x ∧ ¬ (e.va ≤ x ∧ x < e.va + e.size) := by
  unfold State.dropTlb at he
  rw [core_updCore_self] at he
  have hkept := (List.mem_filter.mp he).2
  subst hs
  cases va with
  | none =>
    have hkeep : (!(e.spid == e.spid && true)) = true := hkept
    rw [beq_self_eq_true] at hkeep
    exact Bool.noConfusion hkeep
  | some x =>
    have hkeep : (!(e.spid == e.spid && (decide (e.va ≤ x) && decide (x < e.va + e.size)))) = true := hkept
    refine ⟨x, rfl, fun ⟨hlow, hhigh⟩ => ?_⟩
    rw [beq_self_eq_true, decide_eq_true hlow, decide_eq_true hhigh] at hkeep
    exact Bool.noConfusion hkeep

/-- Settles O36: one law per word and place of its code. -/
theorem supervisorWords : Obligations.SupervisorWords := by
  unfold Obligations.SupervisorWords
  intro h a b lvl space status r f
  refine ⟨tlbw_walks_enters, tlbw_walks_counts, tlbw_enters, tlbw_malformed, tlbi_invalidates, hret_walks, ?_, fun s c spid va e => dropTlb_leaves s c spid va⟩
  rintro _ rfl _ rfl
  exact ⟨hret_touch_ends, hret_touch_stays⟩
end Sys2Proof.Proofs
end

section
/-! Taking an exception (15, R361 to R368): what the group's own record takes, and what of the state the halt line changes. -/

namespace Sys2Proof.Proofs
open Sys2Proof.Machine Sys2Proof.Laws

/-! ### What the group takes -/

/-- The stop record of a cause that is taken at once or late. -/
def stopOf (a : At) (c : Cause) (rpc : W64) (late restart rolled : Bool) : Stop :=
  { cause := BitVec.ofNat 8 c.code, det := BitVec.ofNat 8 c.det, pc := a.pc, rpc, addr := c.addr, info := c.info, lanes := c.lanes, late, restart, rolled,
    rwc := a.rwc, ext := c.ext }
/-- The slot as the cause leaves it, at the word that restarts it. -/
def stoodAt (p : PcSlot) (next : W64) : PcSlot := { p with pc := next, fetched := none, phase := .idle, missing := false, walked := [] }

section Take
variable {g : Group} {fenced : Bool} {a : At} {c : Cause}

theorem take_held (hl : lateKind c.code = true) (hf : fenced = true) : g.take fenced a c = g.hold a c := by
  unfold Group.take
  exact if_pos (by simp [hl, hf])
theorem take_at_once (hs : g.stop = none) {p : PcSlot} (hp : g.slot a.b = some p)
    (hl : lateKind c.code = false ∨ fenced = false ∧ g.nissue ≤ a.nth + 1) :
    g.take fenced a c = { g.setSlot a.b (some (stoodAt p (if restartsNext c then a.pc + 8#64 else a.pc))) with
      stop := some (stopOf a c (if restartsNext c then a.pc + 8#64 else a.pc) false (!noRestart c.code) false) } := by
  have hfence : (lateKind c.code && fenced) = false := by
    rcases hl with h | ⟨h, -⟩ <;> simp [h]
  have hlate : (lateKind c.code && decide (a.nth + 1 < g.nissue)) = false := by
    rcases hl with h | ⟨-, h⟩
    · simp [h]
    · simp [Nat.not_lt.mpr h]
  unfold Group.take
  simp only [hfence, hlate, hs, hp]
  rfl
theorem take_late (hs : g.stop = none) (hl : lateKind c.code = true) (hf : fenced = false) (hn : a.nth + 1 < g.nissue) :
    g.take fenced a c = if g.rv then { g.rollBack with stop := some (stopOf a c g.regpc true (!noRestart c.code) true) }
      else { g with stop := some (stopOf a c a.pc true false false) } := by
  unfold Group.take
  simp only [hl, hf, hs, hn]
  cases g.rv <;> rfl
end Take

/-! ### What the state keeps -/

/-- Nothing but the group `gs` and what hangs on it differs. -/
def Undisturbed (s t : State) (gs : Nat) : Prop :=
  (∀ k, k ≠ gs → Tbl.find t.groups k = Tbl.find s.groups k) ∧ t.mem = s.mem ∧ t.spaces = s.spaces ∧ t.wgs = s.wgs
/-- The halt line of partition `k` has gone up for a core's cause, and for no other partition's. -/
def HaltRaised (s t : State) (k : Nat) (q : Partition) (spid unit code det : Nat) : Prop :=
  (∀ j, j ≠ k → Tbl.find t.parts j = Tbl.find s.parts j) ∧
    Tbl.find t.parts k = some { q with
      halt := some { causes := [{ spid, eng := 0, unit, cause := BitVec.ofNat 8 code, det := BitVec.ofNat 8 det }], since := s.clock } }

section Raise
variable {s : State} {gs : Nat} {a : At} {c : Cause} {g : Group} {r : Grid} {q : Partition} (hw : isWalker gs = false)
  (hg : Tbl.find s.groups gs = some g) (hr : s.gridOf g = some r) (hs : (s.space r.spid).st ≠ .released)
  (hq : Tbl.find s.parts (s.space r.spid).part = some q) (hh : q.halt = none)
include hw hg hr hs hq hh

theorem raise_halts (hf : g.ft = none) (hl : lateKind c.code = false ∨ r.fenced = false) :
    Tbl.find (s.raise gs a c).groups gs = some (g.take r.fenced a c) ∧ Undisturbed s (s.raise gs a c) gs ∧
      HaltRaised s (s.raise gs a c) (s.space r.spid).part q r.spid (coreOf gs) c.code c.det := by
  obtain ⟨te, rq, he⟩ := raise_open (a := a) (c := c) hw hg hr hs hq hh hf
  rw [if_neg (by rcases hl with h | h <;> simp [h])] at he
  rw [he]
  exact ⟨find_put_self _ _ _, ⟨fun k hk => find_put_other _ _ hk, rfl, rfl, rfl⟩, fun k hk => find_put_other _ _ hk, find_put_self _ _ _⟩
theorem raise_holds (hf : g.ft = none) (hl : lateKind c.code = true) (hfen : r.fenced = true) :
    Tbl.find (s.raise gs a c).groups gs = some (g.hold a c) ∧ Undisturbed s (s.raise gs a c) gs ∧ (s.raise gs a c).parts = s.parts := by
  obtain ⟨te, rq, he⟩ := raise_open (a := a) (c := c) hw hg hr hs hq hh hf
  rw [if_pos (by simp [hl, hfen]), take_held hl hfen] at he
  rw [he]
  exact ⟨find_put_self _ _ _, ⟨fun k hk => find_put_other _ _ hk, rfl, rfl, rfl⟩, rfl⟩

/-- The cause that a handler's end raises, whatever ended it: the fault of the word that started it. -/
def touchCause (m : FtRun) : Cause := { code := 0x09, det := 0x05, lanes := m.mask, addr := Tbl.get 0#64 m.addrs ((laneList m.mask).headD 0) }

theorem raise_ends_handler {m : FtRun} (hf : g.ft = some m) :
    Tbl.find (s.raise gs a c).groups gs = some ((g.endHandler m).take r.fenced
        ⟨(((g.endHandler m).slot m.slot).map (·.pc)).getD a.pc, a.rwc, a.nth, m.slot⟩ (touchCause m)) ∧
      Undisturbed s (s.raise gs a c) gs ∧ HaltRaised s (s.raise gs a c) (s.space r.spid).part q r.spid (coreOf gs) 0x09 0x05 := by
  have hst : s.stopped (s.space r.spid).part = false := by unfold State.stopped; rw [hq]; simp [hh]
  have he : s.raise gs a c = State.haltBy { s with groups := Tbl.put s.groups gs ((g.endHandler m).take r.fenced
      ⟨(((g.endHandler m).slot m.slot).map (·.pc)).getD a.pc, a.rwc, a.nth, m.slot⟩ (touchCause m)) } r.spid 0 (coreOf gs) 0x09 0x05 := by
    unfold State.raise
    simp only [hw, hg, hr, hf, hst, Option.map_some, Option.getD_some, Bool.false_eq_true, if_false, Bool.false_and, beq_eq_false_iff_ne.mpr hs]
    rfl
  rw [he]
  rw [haltBy_raises (s := { s with groups := Tbl.put s.groups gs _ }) hs hq hh]
  exact ⟨find_put_self _ _ _, ⟨fun k hk => find_put_other _ _ hk, rfl, rfl, rfl⟩, fun k hk => find_put_other _ _ hk, find_put_self _ _ _⟩
end Raise

/-- A slot that stands at the word that restarts it; the rest of the group is as it was. -/
theorem stood_slots (g : Group) (b : Bool) (p : PcSlot) (next : W64) (x : Stop) {h : Group}
    (hh : h = { g.setSlot b (some (stoodAt p next)) with stop := some x }) :
    h.at b = some (next, p.mask) ∧ h.at (!b) = g.at (!b) ∧ h = { g with slotA := h.slotA, slotB := h.slotB, stop := h.stop } := by
  subst hh
  cases b <;> exact ⟨rfl, rfl, rfl⟩

/-- Settles O38: what the group takes is `Group.take` in its branches, what the state keeps is said once for all of them. -/
theorem exceptionsTaken : Obligations.ExceptionsTaken := by
  unfold Obligations.ExceptionsTaken
  intro s gs a c
  refine ⟨fun hw => if_pos hw, fun g r q hw hg hr hs hq hh => ⟨?_, ?_, ?_, ?_, ?_⟩⟩
  · intro p hf hstop hp hl
    obtain ⟨hgroup, hothers, hraised⟩ := raise_halts (a := a) (c := c) hw hg hr hs hq hh hf (hl.imp id And.left)
    rw [take_at_once hstop hp hl] at hgroup
    obtain ⟨hhere, hthere, hrest⟩ := stood_slots g a.b p _ _ rfl
    exact ⟨⟨_, _, hgroup, rfl, ⟨rfl, rfl, rfl, rfl, rfl, rfl, rfl, rfl, rfl⟩, rfl, rfl, rfl, rfl, hhere, hthere, hrest⟩, hothers, hraised⟩
  · intro hf hstop hl hfen hn hrv
    obtain ⟨hgroup, hothers, hraised⟩ := raise_halts (a := a) (c := c) hw hg hr hs hq hh hf (.inr hfen)
    rw [take_late hstop hl hfen hn, if_pos hrv] at hgroup
    exact ⟨⟨_, _, hgroup, rfl, ⟨rfl, rfl, rfl, rfl, rfl, rfl, rfl, rfl, rfl⟩, rfl, rfl, rfl, rfl, rfl, rfl, rfl, rfl, rfl, rfl⟩, hothers, hraised⟩
  · intro hf hstop hl hfen hn hrv
    obtain ⟨hgroup, hothers, hraised⟩ := raise_halts (a := a) (c := c) hw hg hr hs hq hh hf (.inr hfen)
    rw [take_late hstop hl hfen hn, if_neg (by simp [hrv])] at hgroup
    exact ⟨⟨_, hgroup, ⟨rfl, rfl, rfl, rfl, rfl, rfl, rfl, rfl, rfl⟩, rfl, rfl, rfl, rfl⟩, hothers, hraised⟩
  · intro hf hl hfen
    obtain ⟨hgroup, hothers, hparts⟩ := raise_holds (a := a) (c := c) hw hg hr hs hq hh hf hl hfen
    refine ⟨⟨_, hgroup, fun hnone => ?_, fun y hy => ?_⟩, hothers, hparts⟩
    · rw [hnone]
      exact ⟨rfl, rfl, rfl, rfl, rfl, rfl, rfl⟩
    · rw [hy]
  · intro m hf hstop p hp
    obtain ⟨hgroup, hothers, hraised⟩ := raise_ends_handler (a := a) (c := c) hw hg hr hs hq hh hf
    rw [hp, take_at_once hstop hp (.inl rfl)] at hgroup
    obtain ⟨hhere, -, -⟩ := stood_slots (g.endHandler m) m.slot p p.pc _ rfl
    exact ⟨⟨_, _, hgroup, rfl, rfl, rfl, rfl, rfl, rfl, rfl, rfl, by cases m.slot <;> rfl, hhere⟩, hothers, hraised⟩
end Sys2Proof.Proofs
end

section
/-! Copies at their issue, and the words that close batches and wait for them (12, R304 to R307). -/

namespace Sys2Proof.Proofs
open Sys2Proof.Machine Sys2Proof.Laws

/-! ### The checks of a copy -/

/-- Where the destination alone lies where it may not, the cause and its address are the destination's. -/
theorem sideCause_dst (w : Word) (x : Nat × Nat) (dst src : Nat) :
    sideCause w [(dst, some x), (src, none)] = some { code := x.1, det := x.2, lanes := w.act, addr := BitVec.ofNat 64 dst } := by
  unfold sideCause
  simp [leastOf]
/-- A destination that is no multiple of 16 is the misaligned number that is reported. -/
theorem copyWord_misaligned (s : State) (w : Word) (ext : Bool) (c : Reg) (ha : w.some) (hd : (w.copying c).dst % 16 ≠ 0) :
    s.copyWord w ext c = .trap { code := 0x08, lanes := w.act, addr := BitVec.ofNat 64 (w.copying c).dst } s := by
  have hdst : (w.copying c).dst = w.src 3 0 := by unfold Word.copying; split <;> rfl
  rw [hdst] at hd ⊢
  unfold State.copyWord
  simp only
  rw [if_neg ha, List.find?_cons_of_pos (by simpa using hd)]
  simp only [if_pos hd]

section Copies
variable {h : Hdr} {d a b c : Reg}

theorem cpy_starts : Performs (.cpy h d a b c)
    (fun s w => w.some ∧ (w.copying c).even ∧ (w.copying c).some ∧ (s.opWaits w.gs w.g.wg = false ∧ (s.core (coreOf w.gs)).cpq.length < 256) ∧
      s.copySide w (w.copying c).dst (sideSpan (w.copying c).len (w.copying c).rows (w.copying c).dp) = none ∧
      s.copySide w (w.copying c).src (sideSpan (w.copying c).len (w.copying c).rows (w.copying c).sp) = none)
    (fun w s => s.copyStarted w .cp false (w.copying c) [0]) := by
  refine performs_of _ (fun _ => rfl) fun s w _ hc => ?_
  obtain ⟨hsome, heven, hcopy, ⟨hearly, hroom⟩, hdst, hsrc⟩ := hc
  rw [copyWord_eq s w false c hsome heven, if_neg (by decide), hdst, hsrc, sides_none]
  exact enterCopy_ok hcopy (by simp) hearly hroom
theorem cpyx_starts : Performs (.cpyx h d a b c)
    (fun s w => w.some ∧ (w.copying c).even ∧ (w.copying c).some ∧ (s.opWaits w.gs w.g.wg = false ∧ (s.core (coreOf w.gs)).cpq.length < 256) ∧
      (2 ^ 56 ≤ (w.copying c).dst ∨ 2 ^ 56 ≤ (w.copying c).src) ∧
      s.extSide w true (w.copying c).dst (sideSpan (w.copying c).len (w.copying c).rows (w.copying c).dp) = none ∧
      s.extSide w false (w.copying c).src (sideSpan (w.copying c).len (w.copying c).rows (w.copying c).sp) = none)
    (fun w s => s.copyStarted w .cp true (w.copying c) [0]) := by
  refine performs_of _ (fun _ => rfl) fun s w _ hc => ?_
  obtain ⟨hsome, heven, hcopy, ⟨hearly, hroom⟩, hext, hdst, hsrc⟩ := hc
  rw [copyWord_eq s w true c hsome heven, if_pos rfl, hdst, hsrc, sides_none]
  simp only
  rw [if_neg (by omega)]
  exact enterCopy_ok hcopy (by simp) hearly hroom
theorem cpy_misaligned : Traps (.cpy h d a b c) (fun _ w => w.some ∧ (w.copying c).dst % 16 ≠ 0)
    (fun w => { code := 0x08, lanes := w.act, addr := BitVec.ofNat 64 (w.copying c).dst }) (fun _ s => s) :=
  traps_of _ (fun _ => rfl) (fun s w _ hc => copyWord_misaligned s w false c hc.1 hc.2) fun _ _ _ => .inl rfl
theorem cpy_bad_destination {x : Nat × Nat} : Traps (.cpy h d a b c)
    (fun s w => w.some ∧ (w.copying c).even ∧ s.service w.g = true ∧
      s.copySide w (w.copying c).dst (sideSpan (w.copying c).len (w.copying c).rows (w.copying c).dp) = some x ∧
      s.copySide w (w.copying c).src (sideSpan (w.copying c).len (w.copying c).rows (w.copying c).sp) = none)
    (fun w => { code := x.1, det := x.2, lanes := w.act, addr := BitVec.ofNat 64 (w.copying c).dst }) (fun _ s => s) := by
  refine traps_of _ (fun _ => rfl) (fun s w _ hc => ?_) fun _ _ hc => .inr hc.2.2.1
  obtain ⟨hsome, heven, -, hdst, hsrc⟩ := hc
  rw [copyWord_eq s w false c hsome heven, if_neg (by decide), hdst, hsrc, sideCause_dst]

/-- The copy of CPYS, one row, and the members that it names. -/
def spread (w : Word) : Copying := { dst := w.src 3 0, src := w.src 0 0, len := (w.opnd32 1 0).toNat }
def members (w : Word) : List Nat := (List.range 64).filter (fun i => (w.src 2 0).testBit i)

theorem cpys_starts : Performs (.cpys h d a b c)
    (fun s w => w.some ∧ (spread w).even ∧ (spread w).some ∧ (s.opWaits w.gs w.g.wg = false ∧ (s.core (coreOf w.gs)).cpq.length < 256) ∧
      members w ≠ [] ∧ isWalker w.gs = false ∧ (∀ m ∈ members w, m < (s.gangOf w.g.wg).2) ∧
      s.localSide w 0 (spread w).dst (spread w).len = none ∧ s.copySide w (spread w).src (spread w).len = none)
    (fun w s => s.copyStarted w .gc false (spread w) (members w)) := by
  refine performs_of _ (fun _ => rfl) fun s w _ hc => ?_
  obtain ⟨hsome, ⟨hdst16, hsrc16, hlen16, -, -⟩, hcopy, ⟨hearly, hroom⟩, hmem, hwalker, hin, hlocal, hsrc⟩ := hc
  have hlen : w.src 1 0 % 2 ^ 32 = (spread w).len := (BitVec.toNat_ofNat ..).symm
  have hfind : [w.src 3 0, w.src 0 0, w.src 1 0 % 2 ^ 32].find? (fun x => x % 16 != 0) = none := by
    rw [hlen]
    simp only [spread] at hdst16 hsrc16 hlen16
    simp [hdst16, hsrc16, hlen16, spread]
  have hbeyond : (members w).find? (fun m => decide ((s.gangOf w.g.wg).2 ≤ m)) = none := by
    simpa using hin
  have hempty : (members w).isEmpty = false := by simpa using hmem
  simp only
  rw [if_neg hsome, hfind, hlen]
  show (match sideCause w [(_, match (members w).find? _ with
      | some _ => some (0x0A, 0x04)
      | none => if (members w).isEmpty then none else if isWalker w.gs then some (0x09, 0x05) else s.localSide w 0 (spread w).dst (spread w).len),
    (_, s.copySide w (spread w).src (spread w).len)] with
    | some c => Eff.trap c s
    | none => s.enterCopy w .gc false (spread w).dst (spread w).src (spread w).len 1 0 0 (members w)) = _
  rw [hbeyond, hempty, hwalker, hsrc]
  simp only [Bool.false_eq_true, if_false, hlocal, sides_none]
  exact enterCopy_ok hcopy hmem hearly hroom
end Copies

/-! ### Batches -/

/-- A closed batch that is not complete and that the wait names. -/
def awaits (w : Word) (cls : Cls) (named : W32 → Bool) : Prop := ∃ b ∈ (w.g.cls cls).closed, b.complete = false ∧ named b.num = true

theorem open_any_iff (c : ClsState) (named : W32 → Bool) :
    c.open_.any (fun b => named b.num) = true ↔ ∃ b ∈ c.closed, b.complete = false ∧ named b.num = true := by
  unfold ClsState.open_
  simp

theorem coverFelt_l1Clear_groups (s : State) (core gs : Nat) (cls : Cls) (named : W32 → Bool) :
    ((s.l1Clear core).coverFelt gs cls named).groups = s.groups := by
  show (s.l1Clear core).groups = s.groups
  unfold State.l1Clear
  split <;> rfl

section Waits
variable {s : State} {w : Word} {cls : Cls} {named : W32 → Bool}

theorem waitBatches_parks (hsome : w.some) (hwait : awaits w cls named) : s.waitBatches w cls named = .wait .batchWait s := by
  unfold State.waitBatches
  rw [if_neg hsome, if_pos ((open_any_iff _ _).mpr hwait)]
/-- Once what it waits for is complete, a wait empties L1, covers the batches' writes and looks for a fault. -/
theorem waitBatches_over (hsome : w.some) (hover : ¬ awaits w cls named) : s.waitBatches w cls named =
    (match ((s.l1Clear (coreOf w.gs)).coverFelt w.gs cls named).batchFault w [cls] named with
     | some r => .trap r.1 r.2
     | none => .done ((s.l1Clear (coreOf w.gs)).coverFelt w.gs cls named)) := by
  unfold State.waitBatches
  exact (if_neg hsome).trans (if_neg fun h => hover ((open_any_iff _ _).mp h))
theorem waitBatches_done (hf : Found s w) (hsome : w.some) (hover : ¬ awaits w cls named) (hgood : (w.g.cls cls).faulted named = none) :
    s.waitBatches w cls named = .done ((s.l1Clear (coreOf w.gs)).coverFelt w.gs cls named) := by
  rw [waitBatches_over hsome hover]
  unfold State.batchFault
  simp only [coverFelt_l1Clear_groups, hf.group, List.findSome?_cons, hgood, Option.bind_none, List.findSome?_nil]
theorem waitBatches_faults {x : Batch} {r : Nat × List W64 × W64} (hf : Found s w) (hsome : w.some) (hover : ¬ awaits w cls named)
    (hbad : (w.g.cls cls).faulted named = some x) (hrec : batchRecord cls x = some r) :
    s.waitBatches w cls named = .trap { code := r.1, lanes := w.slot.mask, addr := r.2.2, ext := r.2.1 }
      (((s.l1Clear (coreOf w.gs)).coverFelt w.gs cls named).updGroup w.gs fun g => g.setCls cls ((g.cls cls).report x.num)) := by
  rw [waitBatches_over hsome hover]
  unfold State.batchFault
  simp only [coverFelt_l1Clear_groups, hf.group, List.findSome?_cons, hbad, Option.bind_some, hrec, Option.map_some]
end Waits

/-- Two changes of a group in turn are one. -/
theorem says_now {s : State} {w : Word} (hf : Found s w) (d : Reg) (v : Nat) (g : Group) :
    w.says d v (w.now s g) = s.updGroup w.gs fun _ => g.writes (w.put64 d fun _ => v) := by
  unfold Word.says Word.now
  rw [updGroup_found hf.group, updGroup_found hf.group, updGroup_found (find_put_self _ _ _)]
  simp only [put_put]

section Batches
variable {h : Hdr} {d a : Reg} {imm : BitVec 22} {cls : Cls}

theorem batch_closes : Performs (.batch h d cls) (fun _ w => w.some ∧ ((w.g.cls cls).closed.filter fun b => !b.complete).length < 16)
    (fun w s => w.says d ((w.g.cls cls).last + 1#32).toNat (w.now s (w.g.setCls cls (w.g.cls cls).close))) := by
  refine performs_of _ (fun _ => rfl) fun s w hf hc => ?_
  obtain ⟨hsome, hroom⟩ := hc
  have hfew : ¬ 16 ≤ (w.g.cls cls).open_.length := Nat.not_le.mpr hroom
  simp only
  rw [if_neg hsome, if_neg hfew, says_now hf, upd_found hf]
  rfl
theorem batch_parks : Parks (.batch h d cls) (fun _ w => w.some ∧ 16 ≤ ((w.g.cls cls).closed.filter fun b => !b.complete).length) .batchWait
    (fun _ s => s) := by
  refine parks_of _ (fun _ => rfl) fun s w _ hc => ?_
  obtain ⟨hsome, hfull⟩ := hc
  simp only
  rw [if_neg hsome]
  exact if_pos hfull
/-- The batches that WAITB and WAITN name: up to a number, and up to so many before the last. -/
def upToB (cls : Cls) (imm : BitVec 22) (w : Word) (n : W32) : Bool :=
  batchLe n (if 2 ^ 31 ≤ ((w.g.cls cls).last - (w.opnd32 0 0 + imm.signExtend 32)).toNat then (w.g.cls cls).last else w.opnd32 0 0 + imm.signExtend 32)
def upToN (cls : Cls) (imm : BitVec 22) (w : Word) (n : W32) : Bool := batchLe n ((w.g.cls cls).last - imm.setWidth 32)

theorem waitb_done : Performs (.waitb h a imm cls)
    (fun _ w => w.some ∧ ¬ awaits w cls (upToB cls imm w) ∧ (w.g.cls cls).faulted (upToB cls imm w) = none)
    (fun w s => (s.l1Clear (coreOf w.gs)).coverFelt w.gs cls (upToB cls imm w)) :=
  performs_of _ (fun _ => rfl) fun _ _ hf ⟨hsome, hover, hgood⟩ => waitBatches_done hf hsome hover hgood
theorem waitb_parks : Parks (.waitb h a imm cls) (fun _ w => w.some ∧ awaits w cls (upToB cls imm w)) .batchWait (fun _ s => s) :=
  parks_of _ (fun _ => rfl) fun _ _ _ ⟨hsome, hwait⟩ => waitBatches_parks hsome hwait
theorem waitn_done : Performs (.waitn h imm cls)
    (fun _ w => w.some ∧ ¬ awaits w cls (upToN cls imm w) ∧ (w.g.cls cls).faulted (upToN cls imm w) = none)
    (fun w s => (s.l1Clear (coreOf w.gs)).coverFelt w.gs cls (upToN cls imm w)) :=
  performs_of _ (fun _ => rfl) fun _ _ hf ⟨hsome, hover, hgood⟩ => waitBatches_done hf hsome hover hgood
theorem waitn_parks : Parks (.waitn h imm cls) (fun _ w => w.some ∧ awaits w cls (upToN cls imm w)) .batchWait (fun _ s => s) :=
  parks_of _ (fun _ => rfl) fun _ _ _ ⟨hsome, hwait⟩ => waitBatches_parks hsome hwait
theorem waitn_faults {x : Batch} {r : Nat × List W64 × W64} : Traps (.waitn h imm cls)
    (fun s w => w.some ∧ s.service w.g = true ∧ ¬ awaits w cls (upToN cls imm w) ∧ (w.g.cls cls).faulted (upToN cls imm w) = some x ∧
      batchRecord cls x = some r)
    (fun w => { code := r.1, lanes := w.slot.mask, addr := r.2.2, ext := r.2.1 })
    (fun w s => ((s.l1Clear (coreOf w.gs)).coverFelt w.gs cls (upToN cls imm w)).updGroup w.gs fun g => g.setCls cls ((g.cls cls).report x.num)) :=
  traps_of _ (fun _ => rfl) (fun _ _ hf ⟨hsome, _, hover, hbad, hrec⟩ => waitBatches_faults hf hsome hover hbad hrec) fun _ _ hc => .inr hc.2.1
end Batches

/-- Settles O26: one law per word and outcome. -/
theorem copiesAndBatches : Obligations.CopiesAndBatches := by
  unfold Obligations.CopiesAndBatches
  exact ⟨fun _ _ _ _ _ _ => ⟨cpy_starts, cpyx_starts, cpys_starts, cpy_misaligned, cpy_bad_destination⟩,
    fun _ _ _ _ _ _ _ => ⟨batch_closes, batch_parks, waitb_done, waitb_parks, waitn_done, waitn_parks, waitn_faults⟩⟩
end Sys2Proof.Proofs
end

section
/-! Steps of a lane block's groups and of its walker (07, R189, R193, R195; 16, R386; 14, R356; 01, R26 to R30; 03, R95; 10, R263). -/

namespace Sys2Proof.Proofs
open Sys2Proof.Machine Sys2Proof.Laws

/-! ### Long results -/

/-- Bytes outside every spill area come back as they were read. -/
theorem unspill_plain {s : State} {q : Req} (h : ∀ a ∈ q.accs, s.spillOwner q.spid a.ga.toNat = none) : s.unspill q = (q, s) := by
  unfold State.unspill
  refine if_neg ?_
  simp only [List.any_eq_true, not_exists, not_and, Bool.not_eq_true]
  intro a ha
  rw [h a ha]
  rfl
/-- A load of good bytes, of a supervisor's or in a context that tests nothing, writes its registers. -/
theorem returnLoad_plain {s : State} {id : Nat} {q : Req} {g : Group} (hm : q.sup = true ∨ q.mode = 0#2) (he : ∀ a ∈ q.accs, a.err = 0) :
    s.returnLoad id q g = s.writeBack id q g := by
  unfold State.returnLoad
  simp only [loadVerdicts_off hm, dataCause_none he]
  rfl
/-- A result that pops and pushes nothing writes its registers. -/
theorem returnResult_plain {s : State} {id : Nat} {q : Req} {g : Group} {ws : List RegW} (hk : q.kind = .result ws)
    (hw : ∀ k m v, RegW.push k m v ∉ ws) (hp : q.pops = []) : s.returnResult id q g = s.writeBack id q g := by
  have hws : q.regWrites = ws := by unfold Req.regWrites; rw [hk]
  unfold State.returnResult
  simp only [hp, hws, List.foldl_nil]
  exact pushes_none hw (fun s k m vals => (s.updWg q.wg fun w => let y := w.queue k; w.setQueue k { y with room := y.room - 1 }).push q.gs k m vals) _
theorem popsFirst_none {s : State} {id : Nat} {q : Req} (hp : q.pops = []) : s.popsFirst id q = false := by
  unfold State.popsFirst
  simp [hp]

/-- An answered result of registers, or of bytes that are all there, is written back. -/
theorem longResult_writesBack {s : State} {rq : Nat} {q : Req} {g : Group} (hq : Tbl.find s.reqs rq = some q) (hg : Tbl.find s.groups q.gs = some g)
    (hst : q.stage = .answered) (hser : q.serial = none) (hp : q.pops = [])
    (hk : (∃ ws, q.kind = .result ws ∧ ∀ k m v, RegW.push k m v ∉ ws) ∨
      (∃ d sz, q.kind = .load d sz) ∧ q.accs.all (·.perf) = true ∧ (q.sup = true ∨ q.mode = 0#2) ∧ ∀ a ∈ q.accs, a.err = 0)
    (hsp : ∀ a ∈ q.accs, s.spillOwner q.spid a.ga.toNat = none) :
    exec (.longResultReturn rq) s = .next (s.writeBack rq q g) := by
  refine congrArg Host.Outcome.next ?_
  simp only [hq]
  rw [if_neg (by simp [hst, hser])]
  simp only [hg]
  rcases hk with ⟨ws, hk, hw⟩ | ⟨⟨d, sz, hk⟩, hperf, hm, he⟩
  · simp only [hk]
    rw [popsFirst_none hp]
    exact returnResult_plain hk hw hp
  · simp only [hk]
    rw [if_pos hperf, unspill_plain hsp]
    exact returnLoad_plain hm he

/-! ### Commitment -/

/-- What becomes of a request that the core port held for a word that is committed. -/
def sentReq (s : State) (n : Nat) (q : Req) : Req :=
  if q.stage = .held then { q with stage := .mesh, since := s.clock, first := s.clock, nr := n, slack := s.slackOf q.core } else q
theorem sentReq_twice (s : State) (n : Nat) (q : Req) : sentReq s n (sentReq s n q) = sentReq s n q := by
  unfold sentReq
  split <;> simp [*]

/-- The clock and the groups, from which a request takes its times and its slack, do not change as others go out. -/
theorem sends_eq (s : State) (n : Nat) (l : List Nat) {x : State} (hc : x.clock = s.clock) (hg : x.groups = s.groups) :
    l.foldl (fun s r => s.updReq r fun q =>
      if q.stage = .held then { q with stage := .mesh, since := s.clock, first := s.clock, nr := n, slack := s.slackOf q.core } else q) x =
      l.foldl (fun y r => y.updReq r (sentReq s n)) x := by
  induction l generalizing x with
  | nil => rfl
  | cons r t ih =>
    have hsent : x.updReq r (fun q =>
        if q.stage = .held then { q with stage := .mesh, since := x.clock, first := x.clock, nr := n, slack := x.slackOf q.core } else q) =
        x.updReq r (sentReq s n) := by
      unfold sentReq State.slackOf
      rw [hc, hg]
    rw [List.foldl_cons, List.foldl_cons, hsent]
    exact ih hc hg

theorem settleQuiet_none {s : State} {gs : Nat} {g : Group} (hg : Tbl.find s.groups gs = some g) (hq : g.quietAt = none) : s.settleQuiet gs = s := by
  unfold State.settleQuiet
  simp only [hg, hq]

/-- The tentative words that are left, their oldest gone. -/
theorem tents_left (t : Tbl (List Tent)) (gs : Nat) (l : List Tent) (f : Tent → Tent) :
    ((Tbl.find (Tbl.upd (if l.isEmpty then Tbl.del t gs else Tbl.put t gs l) gs fun l => l.map f) gs).getD []).length = l.length := by
  rw [find_upd_self]
  cases l with
  | nil => simp
  | cons x l => simp

/-- The state in which a committed word's requests go out. -/
def committing (s : State) (gs : Nat) (l : List Tent) : State :=
  { s with tents := if l.isEmpty then Tbl.del s.tents gs else Tbl.put s.tents gs l, fresh := s.fresh + 1 }
/-- The oldest tentative word, with no restart point of its own, counts as retired and its requests go out. -/
theorem commitOne_spec {s : State} {gs : Nat} {g : Group} {w : Tent} {l : List Tent} (hg : Tbl.find s.groups gs = some g) (hp : w.point = none) :
    Tbl.find (s.commitOne gs w l).groups gs = some { g with rwc := g.rwc + BitVec.ofNat 32 w.n } ∧
      ((Tbl.find (s.commitOne gs w l).tents gs).getD []).length = l.length ∧ (s.commitOne gs w l).mem = s.mem ∧
      ∀ id, Tbl.find (s.commitOne gs w l).reqs id = if id ∈ w.reqs then (Tbl.find s.reqs id).map (sentReq s (s.fresh + 1)) else Tbl.find s.reqs id := by
  obtain ⟨rq, hrest⟩ := updReqs_rest (sentReq s (s.fresh + 1)) w.reqs (committing s gs l)
  have hreqs := updReqs_find (sentReq s (s.fresh + 1)) (sentReq_twice s _) w.reqs (committing s gs l)
  have he : s.commitOne gs w l = State.settle { committing s gs l with reqs := rq } gs w.nth fun g => { g with rwc := g.rwc + BitVec.ofNat 32 w.n } := by
    unfold State.commitOne
    simp only [hp]
    rw [← hrest]
    exact congrArg (State.settle · gs w.nth _) (sends_eq s (s.fresh + 1) w.reqs rfl rfl)
  rw [he]
  rw [hrest] at hreqs
  exact ⟨settle_found hg w.nth _, tents_left _ _ _ _, rfl, hreqs⟩

theorem commit_waits {s : State} {gs : Nat} {w : Tent} {l : List Tent} (ht : Tbl.find s.tents gs = some (w :: l)) (hc : s.clock < w.born + 48) :
    exec (.tentativeResultCommit gs) s = .next s := by
  refine congrArg Host.Outcome.next ?_
  simp only [ht, Option.getD_some]
  exact if_neg (Nat.not_le.mpr hc)
theorem commit_due {s : State} {gs : Nat} {g : Group} {w : Tent} {l : List Tent} (hg : Tbl.find s.groups gs = some g)
    (ht : Tbl.find s.tents gs = some (w :: l)) (hc : w.born + 48 ≤ s.clock) (hq : g.quietAt = none) (hp : w.point = none) :
    exec (.tentativeResultCommit gs) s = .next (s.commitOne gs w l) := by
  refine congrArg Host.Outcome.next ?_
  simp only [ht, Option.getD_some]
  rw [if_pos hc]
  exact settleQuiet_none (commitOne_spec hg hp).1 hq

/-! ### Promotion, the timer, fetch and refills -/

section Group
variable {s : State} {gs : Nat} {g : Group} (hg : Tbl.find s.groups gs = some g)
include hg

theorem promotion_due {c : Nat} (he : g.eligible = some c) (hc : c + 64 ≤ s.clock) (hw : isWalker gs = false) :
    exec (.groupPromotion gs) s = .next { s with groups := Tbl.put s.groups gs { g with promoted := true } } := by
  refine congrArg Host.Outcome.next ((updGroup_found hg _).trans ?_)
  simp [he, hc, hw]

/-- Outside re-execution and records, the timer is due by the group's own time, and fires without a trace. -/
theorem timer_fires {b : Bool} {p : PcSlot} (hb : g.nextSlot = some b) (hp : g.slot b = some p) (hw : isWalker gs = false) (hf : g.ft = none)
    (hstop : g.stop = none) (hret : g.retiring = false) (hplay : (s.space (s.spidOf g)).replay = none) (hrec : (s.space (s.spidOf g)).records = false)
    (ht : Tbl.find s.tents gs = none) (hset : g.gtcmp ≠ 0#64) (hdue : g.gtcmp.toNat ≤ g.gtime.toNat) :
    exec (.gtimeTimer gs) s = .next (State.raise { s with groups := Tbl.put s.groups gs { g with gtcmp := 0#64 } } gs ⟨p.pc, s.rwcNow gs g, g.nissue, b⟩
      { code := 0x30, lanes := p.mask, info := 0xFFFFFFFF#64 }) := by
  have hreruns : (s.space (s.spidOf g)).reruns = false := by unfold Space.reruns; rw [hplay]; rfl
  have htimer : s.timerDue gs g = true := by
    unfold State.timerDue
    simp [hw, hf, hreruns, hset, hdue]
  have hnext : s.nextAt (s.spidOf g) (s.nameOf g) (s.rwcNow gs g) 5 0x101 = none := by
    unfold State.nextAt
    simp [hplay]
  have hlog : s.logGroup g 5 0xFF (s.rwcNow gs g) 0x101 g.gtime = s := by
    unfold State.logGroup State.logEvent
    simp [hrec]
  have hfire : s.timerFire gs b g p = State.raise { s with groups := Tbl.put s.groups gs { g with gtcmp := 0#64 } } gs
      ⟨p.pc, s.rwcNow gs g, g.nissue, b⟩ { code := 0x30, lanes := p.mask, info := 0xFFFFFFFF#64 } := by
    unfold State.timerFire
    simp only [hnext, hlog, updGroup_found hg]
  rw [← hfire]
  refine congrArg Host.Outcome.next ?_
  simp only [hg, hb, hp, Option.bind_some, Option.map_some, hstop, hret, htimer, ht]
  rfl

section Fetch
variable {b : Bool} {p : PcSlot} (hp : g.slot b = some p) (hstop : g.stop = none) (hret : g.retiring = false) (hm : p.missing = false)
  (hn : p.fetched = none)
include hp hstop hret hm hn

theorem instructionFetch_eq : exec (.instructionFetch gs b) s = .next (match s.fetch gs g p with
    | .word w u => u.updGroup gs fun g => g.setSlot b (some { p with fetched := some w })
    | x => s.fetchFail gs b g p x) := by
  refine congrArg Host.Outcome.next ?_
  simp only [hg, hp, Option.bind_some, Option.map_some, hstop, hm, hn, hret]
  rfl
theorem fetch_word {w : W64} {u : State} (h : s.fetch gs g p = .word w u) :
    exec (.instructionFetch gs b) s = .next (u.updGroup gs fun g => g.setSlot b (some { p with fetched := some w })) := by
  rw [instructionFetch_eq hg hp hstop hret hm hn, h]
theorem fetch_miss {va : Nat} (h : s.fetch gs g p = .miss va) : exec (.instructionFetch gs b) s =
    .next ((s.queueMiss ⟨gs, g, p.walked, isWalker gs || g.ft.isSome, .fetch⟩ 3 b va).park gs b .walker) := by
  rw [instructionFetch_eq hg hp hstop hret hm hn, h]
  rfl
end Fetch

theorem refill_fills {b : Bool} {e : SpillEntry} {l : List (Bool × SpillEntry)} (hr : g.refill = (b, e) :: l) (hp : g.slot b = none)
    (hm : e.mask &&& g.live ≠ 0#32) : exec (.spillAreaRefill gs) s =
      .next { s with groups := Tbl.put s.groups gs ({ g with refill := l }.setSlot b (some { pc := e.pc, mask := e.mask &&& g.live })) } := by
  refine congrArg Host.Outcome.next ((updGroup_found hg _).trans ?_)
  simp [hr, hp, hm]

theorem touchTimeout_eq {r : FtRun} (hf : g.ft = some r) : exec (.firstTouchTimeout gs) s = .next (if r.start + 2 ^ 20 ≤ s.clock then
      s.raise gs ⟨((g.slot (g.nextSlot.getD false)).map (·.pc)).getD 0#64, s.rwcNow gs g, g.nissue, false⟩ { code := 0x09, det := 0x05, lanes := r.mask }
    else s) := by
  refine congrArg Host.Outcome.next ?_
  simp only [hg, Option.bind_some, hf, Option.map_some]

/-! ### Batches -/

theorem batchComplete_eq (k : Cls) : exec (.batchComplete gs k) s = .next { s with groups := Tbl.put s.groups gs (g.setCls k (g.cls k).complete) } :=
  congrArg Host.Outcome.next (updGroup_found hg _)
end Group

/-- The oldest open batch whose operations have finished is complete; it stays for its faults, the others as they were. -/
theorem complete_spec {c : ClsState} {b : Batch} {l : List Batch} (ho : c.open_ = b :: l) (hfin : b.ops.all (·.fin) = true) :
    c.complete.last = c.last ∧ c.complete.opened = c.opened ∧ (∀ x ∈ c.complete.closed, x.num = b.num → x.complete = true) ∧
      (∀ x ∈ c.closed, x.num ≠ b.num → x.complete = false → x ∈ c.complete.closed) ∧
      (b.ops.any (·.fault.isSome) = true → { b with complete := true } ∈ c.complete.closed) := by
  have he : c.complete = { c with
      closed := (c.closed.map fun x => if x.num = b.num then { x with complete := true } else x).filter fun x => !x.complete || x.ops.any (·.fault.isSome) } := by
    unfold ClsState.complete
    rw [ho]
    exact if_pos hfin
  have hb : b ∈ c.closed := (List.mem_filter.mp (ho ▸ List.mem_cons_self : b ∈ c.open_)).1
  rw [he]
  refine ⟨rfl, rfl, fun x hx hnum => ?_, fun x hx hnum hopen => ?_, fun hfault => ?_⟩
  · obtain ⟨y, -, rfl⟩ := List.mem_map.mp (List.mem_filter.mp hx).1
    by_cases hy : y.num = b.num
    · rw [if_pos hy]
    · rw [if_neg hy] at hnum
      exact absurd hnum hy
  · exact List.mem_filter.mpr ⟨List.mem_map.mpr ⟨x, hx, if_neg hnum⟩, by simp [hopen]⟩
  · exact List.mem_filter.mpr ⟨List.mem_map.mpr ⟨b, hb, if_pos rfl⟩, by simp [hfault]⟩

/-! ### Groups that leave, groups that are saved -/

/-- Closing what is open changes the group's batches alone. -/
theorem closeBatches_frame (g : Group) : ∃ cp mx gc cl, g.closeBatches = { g with cp, mx, gc, cl } := by
  unfold Group.closeBatches
  generalize [Cls.cp, .mx, .gc, .cl] = l
  induction l generalizing g with
  | nil => exact ⟨g.cp, g.mx, g.gc, g.cl, rfl⟩
  | cons k t ih =>
    rw [List.foldl_cons]
    split
    · exact ih g
    · obtain ⟨cp, mx, gc, cl, h⟩ := ih (g.setCls k (g.cls k).close)
      exact ⟨cp, mx, gc, cl, by rw [h]; cases k <;> rfl⟩

/-- A group that holds and reports nothing, outside re-execution, leaves. -/
theorem retireGroup_leaves {s : State} {gs : Nat} {g : Group} (hheld : s.reportHeld gs g.exitPc = none) (hplay : (s.space (s.spidOf g)).replay = none)
    (hbatch : s.batchFault { gs, b := false, g, slot := { pc := g.exitPc, mask := 0#32 }, act := 0#32, ngrp := 0, srcs := [] }
      [.cp, .mx, .gc, .cl] (fun _ => true) = none) : s.retireGroup gs g = (s.leaveSlot gs g).endWg g.wg := by
  have htarget : s.isTarget g = false := by unfold State.isTarget; rw [hplay]; rfl
  have hreruns : (s.space (s.spidOf g)).reruns = false := by unfold Space.reruns; rw [hplay]; rfl
  unfold State.retireGroup
  simp only [hheld, hbatch, htarget, hreruns]
  rfl

section Leaves
variable {s : State} {gs : Nat} {g : Group} (hg : Tbl.find s.groups gs = some g)
include hg

theorem retirement_eq (hret : g.retiring = true) (hw : isWalker gs = false) (hstop : g.stop = none) (hforced : g.forced = false)
    (hhalt : ∀ q, Tbl.find s.parts (s.partOf g) = some q → q.halt = none)
    (hteam : ∀ w, Tbl.find s.wgs g.wg = some w → Tbl.find w.teams (teamIx (s.teamSize g) g.gidx) = none) :
    exec (.groupRetirement gs) s = .next (if s.allDone gs g.closeBatches then s.retireGroup gs g.closeBatches
      else (s.updGroup gs Group.closeBatches).startDrain gs true) := by
  have hrun : ((Tbl.find s.parts (s.partOf g)).map fun p => p.halt.isSome).getD false = false := by
    cases hq : Tbl.find s.parts (s.partOf g) with
    | none => rfl
    | some q => simp [hhalt q hq]
  have hnone : (Tbl.find s.wgs g.wg).bind (fun w => Tbl.find w.teams (teamIx (s.teamSize g) g.gidx)) = none := by
    cases hq : Tbl.find s.wgs g.wg with
    | none => rfl
    | some w => exact hteam w hq
  refine congrArg Host.Outcome.next ?_
  simp only [hg, hret, hw, hstop, hforced, hrun, hnone]
  rfl

/-- A group that a pre-emption saves by force, with nothing outstanding and no collective open. -/
theorem groupSave_forced (hw : isWalker gs = false) (hst : (s.space (s.spidOf g)).st = .preempting)
    (hsaved : ∀ w, Tbl.find s.wgs g.wg = some w → inMask w.savedG g.gidx = false) (hstop : g.stop = none) (hforced : g.forced = true)
    (hcolls : s.colls = []) (hrest : s.groupRest gs g = true) : exec (.groupSave gs) s = .next ((s.markSaved gs g).tryWg g.wg) := by
  have hnot : ((Tbl.find s.wgs g.wg).map fun w => inMask w.savedG g.gidx).getD false = false := by
    cases hq : Tbl.find s.wgs g.wg with
    | none => rfl
    | some w => exact hsaved w hq
  have habort : s.abortOf (fun p => p.gs == gs) = s := by unfold State.abortOf; rw [hcolls]; rfl
  refine congrArg Host.Outcome.next ?_
  simp only [hg, hw, hst, hnot, hstop, hforced, habort, hcolls, hrest]
  simp
end Leaves

/-! ### The walker -/

/-- A queued miss enters the walker: it leaves the queue and is the one that is served. -/
theorem walkerStart_eq {s : State} {lb : Nat} {m : Miss} {l : List Miss} (hfree : (s.lb lb).walk = none) (hm : (s.lb lb).misses = m :: l)
    (hhalt : ∀ q, Tbl.find s.parts (s.space m.spid).part = some q → q.halt = none) :
    exec (.walkerStart lb) s = .next { s.updLb lb (fun b => { b with misses := l, walk := some { miss := m, start := s.clock } }) with
      groups := Tbl.put s.groups (lb * 16 + 15) (walkerGroup m (((Tbl.find s.parts (s.space m.spid).part).map (·.walkpc)).getD 0#64)
        (s.space m.spid).ptroot s.free), free := s.free + 324 } := by
  have hrun : ((Tbl.find s.parts (s.space m.spid).part).map fun p => p.halt.isSome).getD false = false := by
    cases hq : Tbl.find s.parts (s.space m.spid).part with
    | none => rfl
    | some q => simp [hhalt q hq]
  refine congrArg Host.Outcome.next ?_
  simp only [hfree, hm]
  exact if_neg (by simp [hrun])
theorem walkerTimeout_waits {s : State} {lb : Nat} {r : WalkRun} (hr : (s.lb lb).walk = some r) (hc : s.clock < r.start + 2 ^ 20) :
    exec (.walkerTimeout lb) s = .next s := by
  refine congrArg Host.Outcome.next ?_
  simp only [hr]
  exact if_neg (Nat.not_le.mpr hc)
theorem walkerTimeout_due {s : State} {lb : Nat} {r : WalkRun} (hr : (s.lb lb).walk = some r) (hc : r.start + 2 ^ 20 ≤ s.clock) :
    exec (.walkerTimeout lb) s = .next (s.endWalk lb 5) := by
  refine congrArg Host.Outcome.next ?_
  simp only [hr]
  exact if_pos hc

/-- The end of a walk: the routine's group is gone, and a slot that waited, in a group that is there, is told its result. -/
theorem endWalk_spec {s : State} {lb res : Nat} {r : WalkRun} (hr : (s.lb lb).walk = some r) :
    ((s.endWalk lb res).lb lb).walk = none ∧ Tbl.find (s.endWalk lb res).groups (lb * 16 + 15) = none ∧ (s.endWalk lb res).mem = s.mem ∧
      ∀ k g, k ≠ lb * 16 + 15 → k < heldSlot → r.miss.groups.Nodup → Tbl.find s.groups k = some g → ∃ h, Tbl.find (s.endWalk lb res).groups k = some h ∧
        ∀ b p, (k, b) ∈ r.miss.groups → (k + heldSlot, b) ∉ r.miss.groups → g.slot b = some p →
          h.slot b = some (toldSlot (r.miss.va / 2 ^ 16) res p) := by
  obtain ⟨gr, he, htold⟩ := endWalk_eq (res := res) hr
  rw [he]
  refine ⟨?_, find_del_self _ _, rfl, fun k g hk hlow hnodup hg => ?_⟩
  · exact congrArg LaneBlock.walk (lb_updLb { s with groups := gr } lb fun b => { b with
      walk := none, engWalks := if r.miss.eng && res != 0 then b.engWalks ++ [(r.miss.spid, r.miss.gen, r.miss.va / 2 ^ 16, res)] else b.engWalks })
  · obtain ⟨h, hfind, hslots, -⟩ := tell_fold (r.miss.va / 2 ^ 16) res r.miss.groups hnodup s k g hlow hg
    rw [htold] at hfind
    exact ⟨h, (find_del_other _ hk).trans hfind, hslots⟩

/-! ### The statement -/

/-- Settles O46: one law per step of a group, and two of the walker. -/
theorem groupSteps : Obligations.GroupSteps := by
  unfold Obligations.GroupSteps
  refine ⟨fun s gs g hg => ⟨?_, ?_, ?_, ?_, ?_, ?_, ?_, ?_, ?_, ?_, ?_, ?_⟩, fun s lb => ⟨?_, ?_⟩⟩
  case refine_1 =>
    rintro rq q hq rfl hst hser - hp hk hlast hsp
    obtain ⟨h, hgroup, hregs, hpend, hreq, hmem, hothers⟩ := writeBack_spec (g0 := g) hg hq hser hlast
    exact ⟨_, h, longResult_writesBack hq hg hst hser hp hk hsp, hgroup, hregs, hpend, hreq, hmem, hothers⟩
  case refine_2 =>
    intro w l ht
    refine ⟨commit_waits ht, fun hc hq hp => ?_⟩
    obtain ⟨hgroup, htents, hmem, hreqs⟩ := commitOne_spec (l := l) hg hp
    refine ⟨_, commit_due hg ht hc hq hp, hgroup, htents, hmem, fun id q hid hfind hheld => ?_, fun id hid => ?_⟩
    · rw [hreqs, if_pos hid, hfind]
      exact congrArg some (if_pos hheld)
    · rw [hreqs, if_neg hid]
  case refine_3 => exact fun c he hc hw => promotion_due hg he hc hw
  case refine_4 => exact fun b p hb hp hw hf hstop hret hplay hrec ht hset hdue => timer_fires hg hb hp hw hf hstop hret hplay hrec ht hset hdue
  case refine_5 => exact fun b p hp hstop hret hm hn => ⟨fun w u => fetch_word hg hp hstop hret hm hn, fun va => fetch_miss hg hp hstop hret hm hn⟩
  case refine_6 => exact fun b e l hr hp hm => refill_fills hg hr hp hm
  case refine_7 =>
    intro r hf
    exact ⟨fun hc => (touchTimeout_eq hg hf).trans (congrArg _ (if_pos hc)),
      fun hc => (touchTimeout_eq hg hf).trans (congrArg _ (if_neg (Nat.not_le.mpr hc)))⟩
  case refine_8 => exact fun k b l ho hfin => ⟨_, batchComplete_eq hg k, complete_spec ho hfin⟩
  case refine_9 =>
    intro hret hw hstop hforced hhalt hteam
    have hx := retirement_eq hg hret hw hstop hforced hhalt hteam
    refine ⟨fun hbusy => hx.trans (congrArg _ (if_neg (by simp [hbusy]))), fun hdone hheld hplay hbatch => hx.trans (congrArg _ ((if_pos hdone).trans ?_))⟩
    obtain ⟨cp, mx, gc, cl, hclosed⟩ := closeBatches_frame g
    rw [hclosed] at hbatch ⊢
    exact retireGroup_leaves hheld hplay hbatch
  case refine_10 => exact fun hw hst hsaved hstop hforced hcolls hrest => groupSave_forced hg hw hst hsaved hstop hforced hcolls hrest
  case refine_11 => exact fun hwant hmay => congrArg Host.Outcome.next (if_pos (by rw [hwant, hmay]; rfl))
  case refine_12 => exact fun hnot => congrArg Host.Outcome.next (if_neg (by rcases hnot with h | h <;> simp [h]))
  case refine_13 =>
    intro m l hfree hm hhalt
    refine ⟨_, _, walkerStart_eq hfree hm hhalt, find_put_self _ _ _, rfl, rfl, rfl, rfl, rfl, rfl, fun q hq => ?_, ?_, ?_, rfl, fun k hk => find_put_other _ _ hk⟩
    · rw [hq]
      rfl
    · exact congrArg LaneBlock.misses (lb_updLb s lb fun b => { b with misses := l, walk := some { miss := m, start := s.clock } })
    · exact congrArg (fun b => b.walk.map (·.miss)) (lb_updLb s lb fun b => { b with misses := l, walk := some { miss := m, start := s.clock } })
  case refine_14 =>
    intro r hr
    refine ⟨walkerTimeout_waits hr, fun hc => ?_⟩
    obtain ⟨hwalk, hgone, hmem, htold⟩ := endWalk_spec (res := 5) hr
    exact ⟨_, walkerTimeout_due hr hc, hwalk, hgone, hmem, htold⟩
end Sys2Proof.Proofs
end

section
/-! Child grids: LAUNCH and LWAIT (14, R353, R354; 08, R208 to R210, R215; 03, R85). -/

namespace Sys2Proof.Proofs
open Sys2Proof.Machine Sys2Proof.Laws

/-! ### The block and the child of a LAUNCH -/

/-- The pages of the first `n` bytes of a LAUNCH's block, translated. -/
def launchPages (s : State) (w : Word) (n : Nat) : List LaneTr :=
  (execLaunch.rangeFirst (w.src 0 0) n).map fun x => ⟨w.lanes.headD 0, BitVec.ofNat 64 x, s.trans (w.ask .load) x 1 0⟩
/-- The bytes of the block, with the extents that its word 11 counts, and its words (08, R208 Table 4). -/
def launchSize (s : State) (w : Word) : Nat :=
  128 + 16 * min (bits (Tbl.get 0#64 (descWords s (w.src 0 0) (launchPages s w 128) 16) 11) 4 0) 16
def launchDesc (s : State) (w : Word) : Tbl W64 := descWords s (w.src 0 0) (launchPages s w (launchSize s w)) (launchSize s w / 8)
/-- The child that a descriptor makes, as its parent `p` hands it over but for its mode. -/
def launchChild (p : Grid) (w : Word) (s : State) (desc : Tbl W64) : Grid :=
  mkGrid p.part p.spid p.sgen (p.depth + 1) desc (fun c => max c p.cls)
    (some ((((Tbl.find s.wgs w.g.wg).map (·.grid)).getD 0), s.wgidOf w.g, w.g.gidx, (freeHandle w.g).getD 0)) none
/-- A child runs in its parent's mode, whatever its descriptor says. -/
def inModeOf (p g : Grid) : Grid :=
  { g with desc := Tbl.put g.desc 3 (BitVec.ofNat 64 ((g.word 0x18).toNat - fld 1 28 (b2n g.fenced) + fld 1 28 (b2n p.fenced))) }
/-- The word stands in a grid `p` that is not at the last depth. -/
def mayLaunch (p : Grid) (s : State) (w : Word) : Prop := s.gridOf w.g = some p ∧ w.some ∧ p.depth + 1 ≠ 11
/-- Nothing that the launch releases is under way, and its block lies where it may be read. -/
def launchReads (p : Grid) (s : State) (w : Word) : Prop :=
  mayLaunch p s w ∧ w.src 0 0 % 64 = 0 ∧ s.unperformed w.gs = false ∧ s.matesWrite w.gs w.g.wg = false ∧
    allOk (launchPages s w 128) ∧ allOk (launchPages s w (launchSize s w))
/-- The descriptor sets no reserved bit and has every field in its range. -/
def goodDesc (g : Grid) : Prop := descReserved g = false ∧ descRange g = false

/-! ### The outcomes of a block that has been read -/

section LaunchNow
variable {s : State} {w : Word} {d : Reg} {p : Grid} {desc : Tbl W64}

theorem launchNow_malformed (hbad : descReserved (launchChild p w s desc) = true ∨ descRange (launchChild p w s desc) = true) :
    s.launchNow w d p desc = .done (w.says d 0x10 s) := if_pos (or_tt hbad)
/-- A good descriptor is checked for its fit; then it takes a handle, and only then is it carried out. -/
theorem launchNow_good (hgood : goodDesc (launchChild p w s desc)) : s.launchNow w d p desc =
    (match s.refusal (inModeOf p (launchChild p w s desc)), freeHandle w.g with
     | some r, _ => .done (w.says d r s)
     | none, none => .done (w.says d 0x11 s)
     | none, some k =>
       match s.carryLaunch (inModeOf p (launchChild p w s desc)) with
       | .refused r => .done (w.says d r s)
       | .failed _ _ t => .wait .batchWait t
       | .ok gid t => .done (w.says d (fld 4 8 k) (t.updGroup w.gs fun g => { g with kids := Tbl.put g.kids k gid }))) :=
  if_neg (or_ff hgood.1 hgood.2)
theorem launchNow_refused {r : Nat} (hgood : goodDesc (launchChild p w s desc))
    (hfit : s.refusal (inModeOf p (launchChild p w s desc)) = some r) : s.launchNow w d p desc = .done (w.says d r s) := by
  rw [launchNow_good hgood, hfit]
theorem launchNow_noHandle (hgood : goodDesc (launchChild p w s desc)) (hfit : s.refusal (inModeOf p (launchChild p w s desc)) = none)
    (hfull : freeHandle w.g = none) : s.launchNow w d p desc = .done (w.says d 0x11 s) := by
  rw [launchNow_good hgood, hfit, hfull]
theorem launchNow_handsOver {k gid : Nat} {t : State} (hgood : goodDesc (launchChild p w s desc))
    (hfit : s.refusal (inModeOf p (launchChild p w s desc)) = none) (hfree : freeHandle w.g = some k)
    (hcarry : s.carryLaunch (inModeOf p (launchChild p w s desc)) = .ok gid t) :
    s.launchNow w d p desc = .done (w.says d (k % 16 * 2 ^ 8) (t.updGroup w.gs fun g => { g with kids := Tbl.put g.kids k gid })) := by
  rw [launchNow_good hgood, hfit, hfree]
  simp only [hcarry]
  rfl
end LaunchNow

/-! ### LAUNCH -/

section Launch
variable {h : Hdr} {d a : Reg} {p : Grid}

/-- A LAUNCH that can read its block performs as the block's words say. -/
theorem launch_performs {c : State → Word → Prop} {e : Word → State → State} (hreads : ∀ s w, c s w → launchReads p s w)
    (hnow : ∀ s w, c s w → s.launchNow w d p (launchDesc s w) = .done (e w s)) : Performs (.launch h d a) c e := by
  refine performs_of _ (fun _ => rfl) fun s w _ hc => ?_
  obtain ⟨⟨hgrid, hsome, hdepth⟩, haligned, hown, hmates, hhead, hall⟩ := hreads s w hc
  simp only [hgrid]
  rw [if_neg hsome, if_neg hdepth, if_neg (not_not_intro haligned), if_neg (or_ff hown hmates)]
  exact (withLanes_ok hhead).trans ((withLanes_ok hall).trans (hnow s w hc))

theorem launch_malformed : Performs (.launch h d a)
    (fun s w => launchReads p s w ∧ (descReserved (launchChild p w s (launchDesc s w)) = true ∨ descRange (launchChild p w s (launchDesc s w)) = true))
    (fun w s => w.says d 0x10 s) :=
  launch_performs (fun _ _ hc => hc.1) fun _ _ ⟨_, hbad⟩ => launchNow_malformed hbad
theorem launch_refused {r : Nat} : Performs (.launch h d a)
    (fun s w => (launchReads p s w ∧ goodDesc (launchChild p w s (launchDesc s w))) ∧
      s.refusal (inModeOf p (launchChild p w s (launchDesc s w))) = some r)
    (fun w s => w.says d r s) :=
  launch_performs (fun _ _ hc => hc.1.1) fun _ _ ⟨⟨_, hgood⟩, hfit⟩ => launchNow_refused hgood hfit
theorem launch_noHandle : Performs (.launch h d a)
    (fun s w => (launchReads p s w ∧ goodDesc (launchChild p w s (launchDesc s w))) ∧
      s.refusal (inModeOf p (launchChild p w s (launchDesc s w))) = none ∧ freeHandle w.g = none)
    (fun w s => w.says d 0x11 s) :=
  launch_performs (fun _ _ hc => hc.1.1) fun _ _ ⟨⟨_, hgood⟩, hfit, hfull⟩ => launchNow_noHandle hgood hfit hfull
theorem launch_handsOver {k gid : Nat} {t : State} : Performs (.launch h d a)
    (fun s w => (launchReads p s w ∧ goodDesc (launchChild p w s (launchDesc s w))) ∧
      s.refusal (inModeOf p (launchChild p w s (launchDesc s w))) = none ∧ freeHandle w.g = some k ∧
      s.carryLaunch (inModeOf p (launchChild p w s (launchDesc s w))) = .ok gid t)
    (fun w _ => w.says d (k % 16 * 2 ^ 8) (t.updGroup w.gs fun g => { g with kids := Tbl.put g.kids k gid })) :=
  launch_performs (fun _ _ hc => hc.1.1) fun _ _ ⟨⟨_, hgood⟩, hfit, hfree, hcarry⟩ => launchNow_handsOver hgood hfit hfree hcarry
theorem launch_waits : Parks (.launch h d a)
    (fun s w => mayLaunch p s w ∧ w.src 0 0 % 64 = 0 ∧ (s.unperformed w.gs = true ∨ s.matesWrite w.gs w.g.wg = true)) .batchWait (fun _ s => s) := by
  refine parks_of _ (fun _ => rfl) fun s w _ hc => ?_
  obtain ⟨⟨hgrid, hsome, hdepth⟩, haligned, hunder⟩ := hc
  simp only [hgrid]
  rw [if_neg hsome, if_neg hdepth, if_neg (not_not_intro haligned)]
  exact if_pos (or_tt hunder)
theorem launch_deepest : Traps (.launch h d a) (fun s w => s.gridOf w.g = some p ∧ w.some ∧ p.depth = 10)
    (fun w => { code := 0x21, lanes := w.act }) (fun _ s => s) := by
  refine traps_of _ (fun _ => rfl) (fun s w _ hc => ?_) fun _ _ _ => .inl rfl
  obtain ⟨hgrid, hsome, hdepth⟩ := hc
  simp only [hgrid]
  rw [if_neg hsome]
  exact if_pos (congrArg (· + 1) hdepth)
theorem launch_misaligned : Traps (.launch h d a) (fun s w => mayLaunch p s w ∧ w.src 0 0 % 64 ≠ 0)
    (fun w => { code := 0x08, lanes := w.act, addr := w.opnd64 0 0 }) (fun _ s => s) := by
  refine traps_of _ (fun _ => rfl) (fun s w _ hc => ?_) fun _ _ _ => .inl rfl
  obtain ⟨⟨hgrid, hsome, hdepth⟩, hodd⟩ := hc
  simp only [hgrid]
  rw [if_neg hsome, if_neg hdepth]
  exact if_pos hodd
end Launch

/-! ### LWAIT -/

/-- The children that LWAIT names: every one, or the one under a handle. -/
def awaited (a : Reg) (w : Word) : Tbl Nat := if a = .z then w.g.kids else w.g.kids.filter (fun k => k.1 == w.src 0 0 % 16)
theorem awaited_eq (a : Reg) :
    awaited a = if a = .z then fun w => w.g.kids else fun w => w.g.kids.filter (fun k => k.1 == w.src 0 0 % 16) := by
  funext w
  unfold awaited
  split <;> rfl
/-- One of the named children is there and has not retired. -/
def childRuns (s : State) (l : Tbl Nat) : Bool := l.any fun k => ((Tbl.find s.grids k.2).map fun g => !g.retired).getD false

theorem childRuns_iff {s : State} {l : Tbl Nat} : childRuns s l = true ↔ ∃ k ∈ l, ∃ g, Tbl.find s.grids k.2 = some g ∧ g.retired = false := by
  have hone : ∀ o : Option Grid, (o.map fun g => !g.retired).getD false = true ↔ ∃ g, o = some g ∧ g.retired = false := by
    rintro (_ | g) <;> simp
  unfold childRuns
  simp only [List.any_eq_true, hone]

section Lwait
variable {h : Hdr} {d a : Reg}

theorem lwait_acquires : Performs (.lwait h d a)
    (fun s w => w.some ∧ (a = .z ∨ awaited a w ≠ []) ∧ ∀ k ∈ awaited a w, ∀ g, Tbl.find s.grids k.2 = some g → g.retired = true)
    (fun w s => w.says d 0 (((((awaited a w).foldl (fun s k => s.dropGrid k.2) s).updGroup w.gs fun g =>
      { g with kids := g.kids.filter (fun k => !(awaited a w).contains k) }).acquireL1 (coreOf w.gs) .dev))) := by
  refine performs_of _ (fun _ => rfl) fun s w _ hc => ?_
  obtain ⟨hsome, hnamed, hretired⟩ := hc
  have hvalid : ¬ ((awaited a w).isEmpty && a != .z) = true := by
    rcases hnamed with hall | hheld
    · simp [hall]
    · simp [hheld]
  have hover : ¬ childRuns s (awaited a w) = true := fun hrun => by
    obtain ⟨k, hk, g, hg, hruns⟩ := childRuns_iff.mp hrun
    exact Bool.noConfusion (hruns.symm.trans (hretired k hk g hg))
  exact (if_neg hsome).trans ((if_neg hvalid).trans (if_neg hover))
theorem lwait_noChild : Performs (.lwait h d a) (fun _ w => w.some ∧ a ≠ .z ∧ awaited a w = []) (fun w s => w.says d 1 s) := by
  refine performs_of _ (fun _ => rfl) fun s w _ hc => ?_
  obtain ⟨hsome, hhandle, hnone⟩ := hc
  have hempty : ((awaited a w).isEmpty && a != .z) = true := by simp [hnone, hhandle]
  exact (if_neg hsome).trans (if_pos hempty)
theorem lwait_parks : Parks (.lwait h d a)
    (fun s w => w.some ∧ ∃ k ∈ awaited a w, ∃ g, Tbl.find s.grids k.2 = some g ∧ g.retired = false) .batchWait (fun _ s => s) := by
  refine parks_of _ (fun _ => rfl) fun s w _ hc => ?_
  obtain ⟨hsome, hruns⟩ := hc
  have hvalid : ¬ ((awaited a w).isEmpty && a != .z) = true := by
    obtain ⟨k, hk, -⟩ := hruns
    simp [List.ne_nil_of_mem hk]
  exact (if_neg hsome).trans ((if_neg hvalid).trans (if_pos (childRuns_iff.mpr hruns)))
end Lwait

/-- Settles O33: one law per word and outcome. -/
theorem childGrids : Obligations.ChildGrids := by
  unfold Obligations.ChildGrids
  intro h d a p gid r k t
  refine ⟨launch_malformed, launch_refused, launch_noHandle, launch_handsOver, launch_waits, launch_deepest, launch_misaligned, ?_⟩
  rintro _ rfl
  rw [← awaited_eq]
  exact ⟨lwait_acquires, lwait_noChild, lwait_parks⟩
end Sys2Proof.Proofs
end

section
/-! The barriers (14, R345 to R347): which words run the common barrier, and what BARA and BARW do by themselves. -/

namespace Sys2Proof.Proofs
open Sys2Proof.Machine Sys2Proof.Laws

/-- The grid was launched co-scheduled (08, R214). -/
def coscheduled (s : State) (w : Word) : Prop := ((s.gridOf w.g).map fun g => bit (g.word 0x18) 27) = some true
/-- Another path is there, or an arrival is open that this word has not made. -/
def barrierMisused (w : Word) : Prop := ¬ w.alone ∨ w.slot.phase ≠ .arrived ∧ w.g.arrival ≠ none

/-! ### GBAR's test of its grid -/

theorem gbar_test_passes {s : State} {w : Word} (hgrid : coscheduled s w ∨ barrierMisused w) :
    (!((s.gridOf w.g).map fun g => bit (g.word 0x18) 27).getD false && (w.g.path (!w.b)).isNone && w.g.arrival.isNone) = false := by
  rcases hgrid with hgrid | hpath | ⟨-, harrival⟩
  · rw [coscheduled] at hgrid
    simp [hgrid]
  · rw [Word.alone] at hpath
    simp [hpath]
  · simp [Option.isSome_iff_ne_none.mpr harrival]

theorem gbar_test_fails {s : State} {w : Word} (hgrid : ¬ coscheduled s w) (halone : w.alone) (harrival : w.g.arrival = none) :
    (!((s.gridOf w.g).map fun g => bit (g.word 0x18) 27).getD false && (w.g.path (!w.b)).isNone && w.g.arrival.isNone) = true := by
  rw [coscheduled] at hgrid
  rw [Word.alone] at halone
  rw [halone, harrival]
  cases hbit : (s.gridOf w.g).map fun g => bit (g.word 0x18) 27 with
  | none => rfl
  | some b =>
    cases b with
    | false => rfl
    | true => exact absurd hbit hgrid

/-- BAR, CBAR and GBAR run the common barrier, GBAR where its grid is co-scheduled or the barrier is an exception anyway. -/
theorem barrier_word {h : Hdr} {i : Instr} {k : BarKind} (hword : (i, k) ∈ [(Instr.bar h, BarKind.bar), (.cbar h, .cbar), (.gbar h, .gbar)]) :
    ∃ f, (∀ s, exec i s = s.issue i f) ∧ ∀ s w, (k = .gbar → coscheduled s w) ∨ barrierMisused w → f w s = s.barrier w k := by
  simp only [List.mem_cons, Prod.mk.injEq, List.not_mem_nil, or_false] at hword
  rcases hword with ⟨rfl, rfl⟩ | ⟨rfl, rfl⟩ | ⟨rfl, rfl⟩
  · exact ⟨_, fun _ => rfl, fun _ _ _ => rfl⟩
  · exact ⟨_, fun _ => rfl, fun _ _ _ => rfl⟩
  · exact ⟨_, fun _ => rfl, fun _ _ hgrid => if_neg (by rw [gbar_test_passes (hgrid.imp_left fun h => h rfl)]; exact Bool.noConfusion)⟩

theorem gbar_not_coscheduled {h : Hdr} : Traps (.gbar h) (fun s w => ¬ coscheduled s w ∧ w.alone ∧ w.g.arrival = none)
    (fun w => { code := 0x20, lanes := w.slot.mask }) (fun _ s => s) :=
  traps_of _ (fun _ => rfl) (fun _ _ _ ⟨hgrid, halone, harrival⟩ => if_pos (gbar_test_fails hgrid halone harrival)) fun _ _ _ => .inl rfl

/-! ### BARA and BARW -/

theorem not_alone_or {w : Word} {b : Bool} : ((w.g.path (!w.b)).isSome || b) = true ↔ ¬ w.alone ∨ b = true := by
  rw [Bool.or_eq_true, Option.isSome_iff_ne_none, Word.alone]

theorem beforeArrival_calm {s : State} {w : Word} {sco : Sco} {k : State → Eff} (hidle : w.slot.phase = .idle)
    (hearly : ¬ (s.unperformed w.gs = true ∨ s.fenceWaits w.gs w.g.wg sco = true)) (hdrained : (s.startDrain w.gs false).draining w.gs = false) :
    s.beforeArrival w sco k = k (s.startDrain w.gs false) := by
  rw [← Bool.or_eq_true] at hearly
  unfold State.beforeArrival
  rw [hidle]
  simp only
  rw [if_neg hearly, hdrained]
  rfl

theorem bara_arrives {h : Hdr} : Performs (.bara h)
    (fun s w => (w.alone ∧ w.slot.phase = .idle ∧ w.g.arrival = none) ∧
      ¬ (s.unperformed w.gs = true ∨ s.fenceWaits w.gs w.g.wg (scopeOfBar .bara) = true) ∧ (s.startDrain w.gs false).draining w.gs = false)
    (fun w s => (s.startDrain w.gs false).arriveBar w.gs .bara) := by
  refine performs_of _ (fun _ => rfl) fun s w _ hc => ?_
  obtain ⟨⟨halone, hidle, harrival⟩, hearly, hdrained⟩ := hc
  have hfine : ¬ ((w.g.path (!w.b)).isSome || w.g.arrival.isSome) = true := by
    rw [not_alone_or, harrival]
    exact fun hbad => hbad.elim (· halone) Bool.noConfusion
  exact (if_neg hfine).trans (beforeArrival_calm hidle hearly hdrained)

theorem bara_misused {h : Hdr} : Traps (.bara h) (fun _ w => ¬ w.alone ∨ w.g.arrival ≠ none)
    (fun w => { code := 0x01, lanes := w.slot.mask }) (fun _ s => s) :=
  traps_of _ (fun _ => rfl) (fun _ _ _ hbad => if_pos (not_alone_or.mpr (hbad.imp_right Option.isSome_iff_ne_none.mpr))) fun _ _ _ => .inl rfl

theorem barw_waits_rightly {w : Word} (halone : w.alone) (harrival : w.g.arrival = some .bara) :
    ¬ ((w.g.path (!w.b)).isSome || w.g.arrival != some .bara) = true := by
  rw [not_alone_or, harrival]
  exact fun hbad => hbad.elim (· halone) (by decide)

theorem barw_departs {h : Hdr} : Performs (.barw h) (fun s w => w.alone ∧ w.g.arrival = some .bara ∧ s.barDone w.g .bara = true)
    (fun w s => s.depart w.gs .bara) :=
  performs_of _ (fun _ => rfl) fun _ _ _ ⟨halone, harrival, hdone⟩ => (if_neg (barw_waits_rightly halone harrival)).trans (if_pos hdone)

theorem barw_parks {h : Hdr} : Parks (.barw h) (fun s w => w.alone ∧ w.g.arrival = some .bara ∧ s.barDone w.g .bara = false) .barrier
    (fun _ s => s) :=
  parks_of _ (fun _ => rfl) fun _ _ _ ⟨halone, harrival, hdone⟩ =>
    (if_neg (barw_waits_rightly halone harrival)).trans (if_neg (by rw [hdone]; exact Bool.noConfusion))

theorem barw_misused {h : Hdr} : Traps (.barw h) (fun _ w => ¬ w.alone ∨ w.g.arrival ≠ some .bara)
    (fun w => { code := 0x01, lanes := w.slot.mask }) (fun _ s => s) :=
  traps_of _ (fun _ => rfl) (fun _ _ _ hbad => if_pos (not_alone_or.mpr (hbad.imp_right bne_iff_ne.mpr))) fun _ _ _ => .inl rfl

/-- Settles O29: the three parking barriers are one barrier, BARA and BARW have their own laws, a departure is `depart_spec`. -/
theorem barriers : Obligations.Barriers := by
  unfold Obligations.Barriers
  intro h cosched came past before early calm
  refine ⟨fun i k hword => ?_, bara_arrives, bara_misused, barw_departs, barw_parks, barw_misused, gbar_not_coscheduled, depart_spec⟩
  obtain ⟨f, hexec, hbarrier⟩ := barrier_word hword
  obtain ⟨hdeparts, hstays, hpasses, harrives, hearly, -⟩ := barrier_all (fun s w => k = .gbar → coscheduled s w) f hexec fun s w hok => hbarrier s w (.inl hok)
  exact ⟨hdeparts, hstays, hpasses, harrives, hearly,
    traps_of f hexec (fun s w _ hbad => (hbarrier s w (.inr hbad)).trans (barrier_bad hbad)) fun _ _ _ => .inl rfl⟩
end Sys2Proof.Proofs
end

section
/-! The Felts' steps (06, R159 to R171; 04, R101; 05, R130): snapshots, evictions, updates, and the messages by which a subscription
detaches, attaches and ends. -/

namespace Sys2Proof.Proofs
open Sys2Proof.Machine Sys2Proof.Laws

/-! ### Tables that a change of a core leaves alone -/

theorem core_congr {s t : State} (h : s.cores = t.cores) (c : Nat) : s.core c = t.core c := by rw [State.core, State.core, h]
theorem subs_mapFelt (s : State) (c d : Nat) (f : FeltEnt → FeltEnt) :
    ((s.updCore c fun x => { x with felt := x.felt.map f }).core d).subs = (s.core d).subs := by
  rw [updCore_core]
  split
  · next hd => rw [hd]
  · rfl
theorem pubs_mapFelt (s : State) (c d : Nat) (f : FeltEnt → FeltEnt) :
    ((s.updCore c fun x => { x with felt := x.felt.map f }).core d).pubs = (s.core d).pubs := by
  rw [updCore_core]
  split
  · next hd => rw [hd]
  · rfl
theorem subs_smearSub (s : State) (c d : Nat) (e : SubEnt) : ((s.smearSub c e).core d).subs = (s.core d).subs := by
  unfold State.smearSub State.smear State.lsPut
  simp only [updCore_core]
  split
  · next hd => rw [hd]; rfl
  · rfl

/-- A subscription that breaks keeps its entry but for the state and the message (06, R167). -/
theorem breakSub_spec {s : State} {c k : Nat} {e : SubEnt} (he : Tbl.find (s.core c).subs k = some e) :
    (s.breakSub c k).mem = s.mem ∧ Tbl.find ((s.breakSub c k).core c).subs k = some { e with st := .broken, msg := 0 } := by
  unfold State.breakSub
  simp only [he]
  exact ⟨rfl, by rw [subs_smearSub, sub_upd he]⟩

/-! ### Snapshots (06, R159) -/

theorem sendUpd_held_back {s : State} {core ix : Nat} {p : PubEnt} {u : Upd} (hlive : p.st = .live)
    (hfull : (s.rqer core).mustHold (feltOwner (s.subCore core p)) = true) : s.sendUpd core ix p u = none := by
  simp [State.sendUpd, hlive, hfull]

/-- A live publication sends an update under its core's next serial (05, R130; 06, R161). -/
theorem sendUpd_live {s : State} {core ix : Nat} {p : PubEnt} {u : Upd} (hlive : p.st = .live)
    (hroom : (s.rqer core).mustHold (feltOwner (s.subCore core p)) = false) : ∃ t, s.sendUpd core ix p u = some t ∧ t.mem = s.mem ∧ t.cores = s.cores ∧
      t.upds = s.upds ++ [{ u with id := s.fresh + 1, src := core, dst := s.subCore core p, handle := p.shdl, swg := p.swg, ser := (s.rqer core).next, log := none }] := by
  unfold State.sendUpd
  simp only [hlive, hroom, Bool.false_eq_true, if_false]
  exact ⟨_, rfl, rfl, rfl, rfl⟩

section Snapshot
variable {s : State} {core ix : Nat} {p : PubEnt} (hp : Tbl.find (s.core core).pubs ix = some p) (hlive : p.st = .live) (hstays : p.remove = false)
  (hmore : p.next < p.len) (hruns : s.wgHalted p.wg = false) (hgood : (s.core core).bad = [])
include hp hlive hstays hmore hruns hgood

/-- A readable segment goes out as the publication sends updates; one that must stay is not passed. -/
theorem snapshotSegment_eq {o : Option State} (ho : s.sendUpd core ix p (s.snapUpd core p (s.pubBase p + p.next) false) = o) :
    exec (.snapshotSegment core ix) s = .next ((o.map fun t => t.updCore core fun c =>
      { c with pubs := Tbl.upd c.pubs ix fun p => { p with next := p.next + 1 }, felt := c.felt.map (FeltEnt.carried ix (s.pubBase p + p.next)) }).getD s) := by
  show execSnapshotSegment core ix s = _
  have hgoes : ¬ (s.wgHalted p.wg || (p.st != .live && p.st != .log) || p.remove || decide (p.len ≤ p.next)) = true := by
    simp [hruns, hlive, hstays, hmore]
  have hreadable : ¬ s.lsBad core ((s.pubBase p + p.next) * 64) 64 = true := by simp [State.lsBad, hgood]
  unfold execSnapshotSegment
  simp only [hp]
  rw [if_neg hgoes, if_neg hreadable, ho]
  cases o <;> rfl

theorem snapshotSegment_waits (hfull : (s.rqer core).mustHold (feltOwner (s.subCore core p)) = true) : exec (.snapshotSegment core ix) s = .next s :=
  snapshotSegment_eq hp hlive hstays hmore hruns hgood (sendUpd_held_back hlive hfull)

theorem snapshotSegment_sends (hroom : (s.rqer core).mustHold (feltOwner (s.subCore core p)) = false) :
    ∃ t u, exec (.snapshotSegment core ix) s = .next t ∧ t.mem = s.mem ∧ t.upds = s.upds ++ [u] ∧ u.src = core ∧ u.dst = s.subCore core p ∧ u.handle = p.shdl ∧
      u.seg = p.next ∧ u.mask = BitVec.allOnes 64 ∧ u.data = s.lsBytes core ((s.pubBase p + p.next) * 64) 64 ∧ u.ser = (s.rqer core).next ∧ u.snap = true ∧
      (u.lastSnap = true ↔ p.next + 1 = p.len) ∧ Tbl.find (t.core core).pubs ix = some { p with next := p.next + 1 } := by
  obtain ⟨v, hv, hmem, hcores, hupds⟩ := sendUpd_live (ix := ix) (u := s.snapUpd core p (s.pubBase p + p.next) false) hlive hroom
  have hpv : Tbl.find (v.core core).pubs ix = some p := by rw [core_congr hcores, hp]
  refine ⟨_, _, snapshotSegment_eq hp hlive hstays hmore hruns hgood hv, hmem, hupds, rfl, rfl, rfl, rfl, rfl, rfl, rfl, rfl, ?_, ?_⟩
  · simp [State.snapUpd]
  · simp [hpv]
end Snapshot

/-! ### Evictions (06, R161, R165, R167) -/

section Evictions
variable {s : State} {core : Nat} {e : FeltEnt} {l : List FeltEnt} (hfelt : (s.core core).felt = e :: l) (hruns : s.haltedPubs core = [])
include hfelt

theorem feltEviction_stays (hdue : e.due = false) : exec (.feltEviction core) s = .next s := by
  show execFeltEviction core s = _
  unfold execFeltEviction
  simp only [hfelt, hdue, Bool.not_false, if_true]
theorem ageExpiry_stays (hyoung : s.clock < e.born + 256) : exec (.feltEntryAgeExpiry core) s = .next s := by
  show execFeltEntryAgeExpiry core s = _
  have hnot : decide (e.born + 256 ≤ s.clock) = false := decide_eq_false (Nat.not_le.mpr hyoung)
  unfold execFeltEntryAgeExpiry
  simp only [hfelt, hnot, Bool.false_and, Bool.false_eq_true, if_false]

include hruns
theorem feltEviction_evicts (hdue : e.due = true) : exec (.feltEviction core) s = .next ((s.feltEvict core).getD s) := by
  show execFeltEviction core s = _
  unfold execFeltEviction
  simp only [hfelt, hdue, hruns, List.any_nil, Bool.not_true, Bool.false_eq_true, if_false]
theorem ageExpiry_evicts (hold : e.born + 256 ≤ s.clock) : exec (.feltEntryAgeExpiry core) s = .next ((s.feltEvict core).getD s) := by
  show execFeltEntryAgeExpiry core s = _
  unfold execFeltEntryAgeExpiry
  simp only [hfelt, decide_eq_true hold, hruns, List.any_nil, Bool.not_false, Bool.and_true, if_true]
end Evictions

/-! ### Updates (06, R162, R171) -/

/-- The segment could not be read: an active subscription breaks. -/
theorem updateApply_unreadable {s : State} {src dst : Nat} {u : Upd} {e : SubEnt}
    (hu : s.upds.find? (fun x => x.src == src && x.dst == dst && x.log.isNone) = some u) (hack : u.ackDetach = false)
    (he : Tbl.find (s.core dst).subs u.handle = some e) (hactive : e.st = .active) (hbad : u.unreadable = true) :
    ∃ t, exec (.feltUpdateApply src dst) s = .next t ∧ t.mem = s.mem ∧ Tbl.find (t.core dst).subs u.handle = some { e with st := .broken, msg := 0 } := by
  generalize hs0 : ({ s with upds := s.upds.filter (fun x => x.id != u.id) } : State).answerSerial src u.ser = s0
  have hx : exec (.feltUpdateApply src dst) s = .next (s0.breakSub dst u.handle) := by
    show execFeltUpdateApply src dst s = _
    unfold execFeltUpdateApply
    simp only [hu, hack, hs0, he]
    simp [hactive, hbad, State.maybeBreak]
  have he0 : Tbl.find (s0.core dst).subs u.handle = some e := by rw [← hs0]; exact he
  obtain ⟨hmem, hentry⟩ := breakSub_spec he0
  exact ⟨_, hx, hmem.trans (by rw [← hs0]; rfl), hentry⟩

/-! ### A subscription and its publication on another core -/

/-- The acknowledgement that follows the updates sent before a detaching (06, R164). -/
def detachAck (id src dst handle swg : Nat) : Upd :=
  { id, src, dst, handle, swg, seg := 0, mask := 0#64, data := [], ser := 0#16, ackDetach := true }
/-- What a removal does to an entry of the publisher's Felt: all up to the youngest that the publication covers must leave (06, R170). -/
def removalMark (s : State) (core : Nat) (p : PubEnt) (f : FeltEnt) : FeltEnt :=
  if ((s.core core).felt.reverse.dropWhile fun f => !s.pubCovers p f.seg).any (fun m => m.id == f.id) then { f with due := true } else f

section Linked
variable {s : State} {core k ix : Nat} {e : SubEnt} {p : PubEnt} (he : Tbl.find (s.core core).subs k = some e)
include he

/-! #### Answers that the subscriber's core takes alone (06, R164, R166, R167) -/

theorem detachAcknowledgement_ends {u : Upd} (hst : e.st = .detaching)
    (hu : s.upds.find? (fun u => u.src == s.pubCore core e && u.dst == core && u.log.isNone) = some u) (hack : u.ackDetach = true) (hmine : u.handle = k) :
    ∃ t, exec (.detachAcknowledgement core k) s = .next t ∧ t.mem = s.mem ∧ Tbl.find (t.core core).subs k = some { e with st := .spilled, msg := 0 } ∧
      t.upds = s.upds.filter (fun x => x.id != u.id) := by
  have hx : exec (.detachAcknowledgement core k) s =
      .next (({ s with upds := s.upds.filter (fun x => x.id != u.id) } : State).updSub core k fun e => { e with st := .spilled, msg := 0 }) := by
    show execDetachAcknowledgement core k s = _
    simp [execDetachAcknowledgement, he, hu, hack, hmine, hst]
  exact ⟨_, hx, rfl, sub_upd (by exact he) _, rfl⟩

theorem detachAcknowledgement_waits {u : Upd}
    (hu : s.upds.find? (fun u => u.src == s.pubCore core e && u.dst == core && u.log.isNone) = some u) (hack : u.ackDetach = false) :
    exec (.detachAcknowledgement core k) s = .next s := by
  show execDetachAcknowledgement core k s = _
  simp [execDetachAcknowledgement, he, hu, hack]

theorem attachReply_broken (hst : e.st = .replay) (hmsg : e.msg = msgReply) (hbroken : e.acks = 1) :
    ∃ t, exec (.attachReply core k) s = .next t ∧ t.mem = s.mem ∧ Tbl.find (t.core core).subs k = some { e with st := .broken, msg := 0 } := by
  have hx : exec (.attachReply core k) s = .next (s.breakSub core k) := by
    show execAttachReply core k s = _
    simp [execAttachReply, he, hst, hmsg, hbroken]
  exact ⟨_, hx, breakSub_spec he⟩

theorem attachReply_empty (hst : e.st = .replay) (hmsg : e.msg = msgReply) (hwhole : e.acks ≠ 1) (hempty : e.logn = 0) (hkept : e.lost = false) :
    ∃ t, exec (.attachReply core k) s = .next t ∧ t.mem = s.mem ∧ Tbl.find (t.core core).subs k = some { e with msg := msgResume } := by
  have hreplayed : Tbl.find ((s.updSub core k fun e => if e.st == .replay then { e with msg := msgResume, logn := 0 } else e).core core).subs k =
      some { e with msg := msgResume } := by
    rw [sub_upd he]
    simp [hst, ← hempty]
  have hx : exec (.attachReply core k) s =
      .next (s.updSub core k fun e => if e.st == .replay then { e with msg := msgResume, logn := 0 } else e) := by
    show execAttachReply core k s = _
    unfold execAttachReply
    simp only [he]
    rw [if_neg (by simp [hst, hmsg]), if_neg hwhole, hempty]
    unfold State.loseSub
    simp only [List.range_zero, State.replaySlots, hreplayed]
    rw [if_neg (by simp [hkept])]
  exact ⟨_, hx, rfl, hreplayed⟩

theorem resumeMessage_detached (hst : e.st = .replay) (hmsg : e.msg = msgResume) (hof : s.pubOf core k e = none) :
    ∃ t, exec (.resumeMessage core k) s = .next t ∧ t.mem = s.mem ∧ Tbl.find (t.core core).subs k = some { e with st := .detached, msg := 0 } := by
  have hx : exec (.resumeMessage core k) s = .next (s.updSub core k fun e => { e with st := .detached, msg := 0 }) := by
    show execResumeMessage core k s = _
    simp [execResumeMessage, he, hst, hmsg, hof]
  exact ⟨_, hx, rfl, sub_upd he _⟩

/-! #### Messages to the publisher's core (06, R164, R166, R170) -/

variable (hof : s.pubOf core k e = some (ix, p)) (hp : Tbl.find (s.core (s.pubCore core e)).pubs ix = some p)
include hof

theorem freeSub_cores : (s.freeSub core k).cores = ((s.updCore (s.pubCore core e) fun c => { c with pubs := Tbl.del c.pubs ix }).updCore core fun c =>
    { c with subs := Tbl.del c.subs k }).cores := by
  unfold State.freeSub
  simp only [he, hof]

/-- Nothing of the publication is left in its Felt or on the way: both entries are freed. -/
theorem unsubRemoval_frees (hfar : s.pubCore core e ≠ core) (hst : e.st = .drain) (hmsg : e.msg ≠ msgRemove)
    (hdrained : (s.core (s.pubCore core e)).felt.any (fun f => f.due && s.pubCovers p f.seg) = false)
    (hsent : s.upds.any (fun u => u.dst == core && u.handle == k && u.log.isNone) = false) :
    ∃ t, exec (.unsubRemoval core k) s = .next t ∧ t.mem = s.mem ∧ Tbl.find (t.core core).subs k = none ∧
      Tbl.find (t.core (s.pubCore core e)).pubs ix = none := by
  have hx : exec (.unsubRemoval core k) s = .next (s.freeSub core k) := by
    show execUnsubRemoval core k s = _
    unfold execUnsubRemoval
    simp only [he]
    rw [if_neg (by simp [hst])]
    simp only [hof]
    rw [if_neg hmsg, if_neg (by simp only [hdrained, hsent]; exact Bool.noConfusion)]
  have hcores := core_congr (freeSub_cores he hof)
  refine ⟨_, hx, ?_, ?_, ?_⟩
  · unfold State.freeSub
    simp only [he, hof]
    rfl
  · rw [hcores, core_updCore_self]
    exact find_del_self _ _
  · rw [hcores, updCore_core, if_neg hfar, core_updCore_self]
    exact find_del_self _ _

section Attach
variable (hst : e.st = .replay) (hmsg : e.msg = msgAttach) (hthere : ∀ w, Tbl.find s.wgs e.pwg = some w → w.resident = true ∨ w.gone = true)
include hst hmsg hthere

/-- The publisher's workgroup is not saved: the publication answers broken, or is held and answers once no append is open. -/
theorem attachMessage_eq : exec (.attachMessage core k) s = .next (if p.st == .broken then s.updSub core k fun e => { e with msg := msgReply, acks := 1 }
      else if s.upds.any (fun u => u.log.isSome && u.swg == e.wg && u.handle == k) then s.updPub (s.pubCore core e) ix fun x => { x with st := .held }
      else (s.updPub (s.pubCore core e) ix fun x => { x with st := .held }).updSub core k fun e =>
        { e with msg := msgReply, acks := 0, logn := p.logn, spill := p.lbase }) := by
  have hsaved : ¬ ((Tbl.find s.wgs e.pwg).map fun w => !w.resident && !w.gone).getD false = true := by
    cases hw : Tbl.find s.wgs e.pwg with
    | none => exact Bool.noConfusion
    | some w => rcases hthere w hw with h | h <;> simp [h]
  show execAttachMessage core k s = _
  unfold execAttachMessage
  simp only [he]
  rw [if_neg (by simp [hst, hmsg]), if_neg hsaved]
  simp only [hof]

theorem attachMessage_broken (hbroken : p.st = .broken) :
    ∃ t, exec (.attachMessage core k) s = .next t ∧ t.mem = s.mem ∧ Tbl.find (t.core core).subs k = some { e with msg := msgReply, acks := 1 } := by
  refine ⟨_, attachMessage_eq he hof hst hmsg hthere, ?_⟩
  rw [if_pos (beq_iff_eq.mpr hbroken)]
  exact ⟨rfl, sub_upd he _⟩

include hp

theorem attachMessage_holds (hwhole : p.st ≠ .broken)
    (hopen : s.upds.any (fun u => u.log.isSome && u.swg == e.wg && u.handle == k) = true) :
    ∃ t, exec (.attachMessage core k) s = .next t ∧ t.mem = s.mem ∧ Tbl.find (t.core core).subs k = some e ∧
      Tbl.find (t.core (s.pubCore core e)).pubs ix = some { p with st := .held } := by
  refine ⟨_, attachMessage_eq he hof hst hmsg hthere, ?_⟩
  rw [if_neg (by simp [hwhole]), if_pos hopen]
  exact ⟨rfl, (sub_updPub _ _ _ _ _ _).trans he, pub_upd hp _⟩

theorem attachMessage_answers (hwhole : p.st ≠ .broken)
    (hclosed : s.upds.any (fun u => u.log.isSome && u.swg == e.wg && u.handle == k) = false) :
    ∃ t, exec (.attachMessage core k) s = .next t ∧ t.mem = s.mem ∧
      Tbl.find (t.core core).subs k = some { e with msg := msgReply, acks := 0, logn := p.logn, spill := p.lbase } ∧
      Tbl.find (t.core (s.pubCore core e)).pubs ix = some { p with st := .held } := by
  refine ⟨_, attachMessage_eq he hof hst hmsg hthere, ?_⟩
  rw [if_neg (by simp [hwhole]), if_neg (by simp only [hclosed]; exact Bool.noConfusion)]
  exact ⟨rfl, sub_upd ((sub_updPub _ _ _ _ _ _).trans he) _, (pub_updSub _ _ _ _ _ _).trans (pub_upd hp _)⟩

end Attach

include hp

theorem detachMessage_logs (hst : e.st = .detaching) (hmsg : e.msg = msgDetach) (hlive : p.st = .live) :
    ∃ t u, exec (.detachMessage core k) s = .next t ∧ t.mem = s.mem ∧ Tbl.find (t.core core).subs k = some { e with msg := 2 } ∧ t.upds = s.upds ++ [u] ∧
      u.ackDetach = true ∧ u.dst = core ∧ u.handle = k ∧ Tbl.find (t.core (s.pubCore core e)).pubs ix = some { p with st := .log, logn := 0, lbase := e.spill } := by
  generalize hs1 : (s.updPub (s.pubCore core e) ix fun x => { x with st := .log, logn := 0, lbase := e.spill }) = s1
  have he1 : Tbl.find (s1.core core).subs k = some e := by rw [← hs1, sub_updPub, he]
  have hp1 : Tbl.find (s1.core (s.pubCore core e)).pubs ix = some { p with st := .log, logn := 0, lbase := e.spill } := by rw [← hs1, pub_upd hp]
  have hkept : s1.mem = s.mem ∧ s1.upds = s.upds := by rw [← hs1]; exact ⟨rfl, rfl⟩
  have hx : exec (.detachMessage core k) s = .next (({ s1.newId.2 with upds := s1.newId.2.upds ++ [detachAck s1.newId.1 (s.pubCore core e) core k e.wg] } : State).updSub
      core k fun e => { e with msg := 2 }) := by
    show execDetachMessage core k s = _
    unfold execDetachMessage
    simp only [he]
    rw [if_neg (by simp [hst, hmsg])]
    simp only [hof]
    rw [if_neg (by simp [hlive]), hs1]
    rfl
  exact ⟨_, _, hx, hkept.1, sub_upd (by exact he1) _, congrArg (· ++ [_]) hkept.2, rfl, rfl, rfl, (pub_updSub _ _ _ _ _ _).trans hp1⟩

theorem resumeMessage_lives (hst : e.st = .replay) (hmsg : e.msg = msgResume) :
    ∃ t, exec (.resumeMessage core k) s = .next t ∧ t.mem = s.mem ∧
      Tbl.find (t.core core).subs k = some { e with st := if p.len ≤ p.next then .active else .snap, msg := 0 } ∧
      Tbl.find (t.core (s.pubCore core e)).pubs ix = some { p with st := .live, lbase := 0, logn := 0 } := by
  generalize hs1 : (s.updPub (s.pubCore core e) ix fun x => { x with st := .live, lbase := 0, logn := 0 }) = s1
  have he1 : Tbl.find (s1.core core).subs k = some e := by rw [← hs1, sub_updPub, he]
  have hp1 : Tbl.find (s1.core (s.pubCore core e)).pubs ix = some { p with st := .live, lbase := 0, logn := 0 } := by rw [← hs1, pub_upd hp]
  have hmem : s1.mem = s.mem := by rw [← hs1]; rfl
  have hx : exec (.resumeMessage core k) s = .next ((s1.updCore (s.pubCore core e) fun c =>
      { c with felt := c.felt.map fun f => if s1.pubCovers p f.seg then { f with due := true } else f }).updSub core k fun e =>
        { e with st := if p.len ≤ p.next then .active else .snap, msg := 0 }) := by
    show execResumeMessage core k s = _
    unfold execResumeMessage
    simp only [he]
    rw [if_neg (by simp [hst, hmsg])]
    simp only [hof, hs1]
  refine ⟨_, hx, hmem, sub_upd ?_ _, (pub_updSub _ _ _ _ _ _).trans ?_⟩
  · rw [subs_mapFelt, he1]
  · rw [pubs_mapFelt, hp1]

theorem unsubRemoval_drains (hst : e.st = .drain) (hmsg : e.msg = msgRemove) :
    ∃ t, exec (.unsubRemoval core k) s = .next t ∧ t.mem = s.mem ∧ Tbl.find (t.core core).subs k = some { e with msg := msgDrain } ∧
      Tbl.find (t.core (s.pubCore core e)).pubs ix = some { p with remove := true, next := p.len } := by
  have he1 : Tbl.find ((s.updPub (s.pubCore core e) ix fun x => { x with remove := true, next := x.len }).core core).subs k = some e := by
    rw [sub_updPub, he]
  have hx : exec (.unsubRemoval core k) s = .next (((s.updPub (s.pubCore core e) ix fun x => { x with remove := true, next := x.len }).updCore (s.pubCore core e)
      fun c => { c with felt := c.felt.map (removalMark s (s.pubCore core e) p) }).updSub core k fun e => { e with msg := msgDrain }) := by
    show execUnsubRemoval core k s = _
    unfold execUnsubRemoval
    simp only [he]
    rw [if_neg (by simp [hst])]
    simp only [hof]
    exact congrArg _ (if_pos hmsg)
  refine ⟨_, hx, rfl, sub_upd ?_ _, (pub_updSub _ _ _ _ _ _).trans ?_⟩
  · rw [subs_mapFelt, he1]
  · rw [pubs_mapFelt, pub_upd hp]

end Linked

/-- Settles O51: one law per step and outcome; what the oldest entry leaves is `evict_one`, what an update that can be read writes `apply_one`. -/
theorem feltSteps : Obligations.FeltSteps := by
  unfold Obligations.FeltSteps
  intro s does entry
  refine ⟨fun core ix p hp hlive hstays hmore hruns hgood => ?_, fun core e l ix p hfelt hruns hcovers hmask hcore => ?_,
    fun src dst u e hu hack he hactive hgood => ?_, fun core k e ix p he hst hfar hof hp hlive hmsg => ?_, fun core k e u he hst hu => ?_,
    fun core k e ix p he hst hmsg hfar hof hthere hp => ?_, fun core k e he hst hmsg => ?_, fun core k e ix p he hst hmsg hfar hof hp => ?_,
    fun core k e he hst hmsg hof => ?_, fun core k e ix p he hst hfar hof hp => ?_⟩
  · exact ⟨snapshotSegment_waits hp hlive hstays hmore hruns hgood, snapshotSegment_sends hp hlive hstays hmore hruns hgood⟩
  · intro mine leaves logs full evicts
    obtain ⟨hleaves, hwaits, hlogs, hlogWaits, hfull, hheld⟩ := evict_one hfelt hcovers hmask hcore
    have hevicts : ∀ i, exec i s = .next ((s.feltEvict core).getD s) → evicts i := fun i hi =>
      ⟨fun hst hroom => let ⟨u, hu⟩ := hleaves hst hroom; ⟨_, u, hi, hu⟩,
        fun hst hroom => hi.trans (by rw [hwaits hst hroom]),
        fun hst hn hroom => let ⟨u, n, q, hu⟩ := hlogs hst hn hroom; ⟨_, u, n, q, hi, hu⟩,
        fun hst hn hroom => hi.trans (by rw [hlogWaits hst hn hroom]),
        fun hst hn => ⟨_, hi, hfull hst hn⟩, fun hst => hi.trans (by rw [hheld hst])⟩
    exact ⟨fun hdue => hevicts _ (feltEviction_evicts hfelt hruns hdue), feltEviction_stays hfelt,
      fun hold => hevicts _ (ageExpiry_evicts hfelt hruns hold), ageExpiry_stays hfelt⟩
  · exact ⟨updateApply_unreadable hu hack he hactive, fun hbad => (apply_one hu hack hbad he hactive hgood).1,
      fun hbad => (apply_one hu hack hbad he hactive hgood).2⟩
  · exact detachMessage_logs he hof hp hst hmsg hlive
  · exact ⟨detachAcknowledgement_ends he hst hu, detachAcknowledgement_waits he hu⟩
  · exact ⟨attachMessage_holds he hof hp hst hmsg hthere, attachMessage_answers he hof hp hst hmsg hthere, attachMessage_broken he hof hst hmsg hthere⟩
  · exact ⟨attachReply_broken he hst hmsg, attachReply_empty he hst hmsg⟩
  · exact resumeMessage_lives he hof hp hst hmsg
  · exact resumeMessage_detached he hst hmsg hof
  · exact ⟨unsubRemoval_drains he hof hp hst, unsubRemoval_frees he hof hfar hst⟩
end Sys2Proof.Proofs
end

section
/-! Subscriptions at their words (12, R308; 06, R156 to R159, R163, R170, R172): what SUBS accepts and refuses, how UNSUB and SUBFL
wait, and what SUBQ reads. -/

namespace Sys2Proof.Proofs
open Sys2Proof.Machine Sys2Proof.Laws

/-! ### SUBS -/

/-- The word names another member of its workgroup's gang. -/
def namesMember (pair : Bool) (s : State) (w : Word) : Prop :=
  pair = false ∧ w.src 2 0 % 16 ≠ 0 ∧ w.src 2 0 % 16 < (s.gangOf w.g.wg).2
/-- The publisher of a word that names one: the pair partner, or a member of the gang. -/
def publisher (pair : Bool) (me : Workgroup) (s : State) (w : Word) : Option Nat :=
  if pair then s.pairPartner w.g.wg else s.memberWg me (w.src 2 0 % 16)
/-- Where the two regions start in their local stores, and how long they are, in segments (12, R308). -/
def subStart (w : Word) : Nat := w.src 0 0 % 2 ^ 20 / 64
def pubStart (w : Word) : Nat := w.src 0 0 / 2 ^ 32 % 2 ^ 20 / 64
def subSegs (w : Word) : Nat := w.src 1 0 % 2 ^ 17 / 64
/-- A word of a resident workgroup that has not asked yet. -/
def asksFirst (me : Workgroup) (s : State) (w : Word) : Prop :=
  w.some ∧ w.slot.phase = .idle ∧ Tbl.find s.wgs w.g.wg = some me
def lowestFree {α : Type} (t : Tbl α) (n : Nat) : Prop := n < 16 ∧ Tbl.find t n = none ∧ ∀ m, m < n → ¬ Tbl.find t m = none

/-- The word's own test of the member that it names. -/
theorem namesMember_iff {pair : Bool} {s : State} {w : Word} :
    (!pair && w.src 2 0 % 16 != 0 && decide (w.src 2 0 % 16 < (s.gangOf w.g.wg).2)) = true ↔ namesMember pair s w := by
  unfold namesMember
  simp [and_assoc]
theorem publisher_of_named {pair : Bool} {me : Workgroup} {s : State} {w : Word} (hnamed : pair = true ∨ namesMember pair s w) :
    (if pair then s.pairPartner w.g.wg
      else if !pair && w.src 2 0 % 16 != 0 && decide (w.src 2 0 % 16 < (s.gangOf w.g.wg).2) then s.memberWg me (w.src 2 0 % 16) else none) =
    publisher pair me s w := by
  rcases hnamed with rfl | hmember
  · rfl
  · rw [if_pos (namesMember_iff.mpr hmember)]
    rfl

section Subs
variable {h : Hdr} {d a b c : Reg} {pair : Bool} {k p i : Nat} {me x : Workgroup}

/-- Good regions of a reachable publisher elsewhere, with a free entry on either side, are accepted. -/
theorem subs_accepts : Parks (.subs h d a b c pair)
    (fun s w => asksFirst me s w ∧ (pair = true ∨ namesMember pair s w) ∧ publisher pair me s w = some i ∧ Tbl.find s.wgs i = some x ∧
      x.reachable = true ∧ regionsOk me.lsSize (w.src 0 0) (w.src 1 0) = true ∧ x.core ≠ coreOf w.gs ∧
      s.subOverlap (coreOf w.gs) w.g.wg (subStart w) (subSegs w) = false ∧
      lowestFree (s.core (coreOf w.gs)).subs k ∧ lowestFree (s.core x.core).pubs p) .subFlush
    (fun w s => w.notes (.sub k)
      (s.acceptSub w (coreOf w.gs) me x i k p pair (w.src 2 0 % 16) (subStart w) (pubStart w) (subSegs w))) := by
  refine parks_of _ (fun _ => rfl) fun s w _ hc => ?_
  obtain ⟨⟨hsome, hidle, hme⟩, hnamed, hpub, hx, hreach, hregions, hfar, halone, hsub, hpubs⟩ := hc
  have hentry : ((publisher pair me s w).bind fun i => (Tbl.find s.wgs i).map fun x => (i, x)) = some (i, x) := by
    rw [hpub, Option.bind_some, hx, Option.map_some]
  rw [subStart, subSegs] at halone
  simp only [hidle, hme]
  rw [if_neg hsome, publisher_of_named hnamed, hentry]
  simp only [Option.map_some, Option.getD_some, hreach, hregions, halone, Bool.not_true, Bool.and_false, Bool.false_eq_true, if_false]
  rw [if_neg hfar, freeIx_some hsub, freeIx_some hpubs]
  rfl

/-- Once the snapshot is over, however it went, the word returns its handle. -/
theorem subs_returns_handle : Performs (.subs h d a b c pair)
    (fun s w => w.some ∧ w.slot.phase = .sub k ∧ (Tbl.find (s.core (coreOf w.gs)).subs k).map SubEnt.st ≠ some .snap)
    (fun w s => w.says d (256 * k) s) := by
  refine performs_of _ (fun _ => rfl) fun s w _ hc => ?_
  obtain ⟨hsome, hphase, hover⟩ := hc
  -- `hover` rules the match's first alternative out.
  simp only [hphase]
  exact if_neg hsome

theorem subs_awaits_snapshot : Parks (.subs h d a b c pair)
    (fun s w => w.some ∧ w.slot.phase = .sub k ∧ (Tbl.find (s.core (coreOf w.gs)).subs k).map SubEnt.st = some .snap) .subFlush
    (fun _ s => s) := by
  refine parks_of _ (fun _ => rfl) fun s w _ hc => ?_
  obtain ⟨hsome, hphase, hsnap⟩ := hc
  simp only [hphase, hsnap]
  exact if_neg hsome

/-- Regions that break R156 are refused; a word that names its pair partner has no member to wait for first. -/
theorem subs_bad_regions : Performs (.subs h d a b c pair)
    (fun s w => asksFirst me s w ∧ pair = true ∧ regionsOk me.lsSize (w.src 0 0) (w.src 1 0) = false) (fun w s => w.says d 5 s) := by
  refine performs_of _ (fun _ => rfl) fun s w _ hc => ?_
  obtain ⟨⟨hsome, hidle, hme⟩, rfl, hregions⟩ := hc
  simp only [hidle, hme, hregions]
  rw [if_neg hsome]
  rfl
end Subs

/-! ### UNSUB -/

section Unsub
variable {h : Hdr} {d a : Reg} {k : Nat} {e : SubEnt}

theorem unsub_none_held : Performs (.unsub h d a)
    (fun s w => w.some ∧ w.slot.phase = .idle ∧ s.heldSub w (w.src 0 0 % 16) = none) (fun w s => w.says d 1 s) := by
  refine performs_of _ (fun _ => rfl) fun s w _ hc => ?_
  obtain ⟨hsome, hidle, hgone⟩ := hc
  simp only [hidle, hgone]
  exact if_neg hsome

theorem unsub_removed : Performs (.unsub h d a)
    (fun s w => w.some ∧ w.slot.phase = .sub k ∧ s.heldSub w (w.src 0 0 % 16) = none) (fun w s => w.says d 0 s) := by
  refine performs_of _ (fun _ => rfl) fun s w _ hc => ?_
  obtain ⟨hsome, hphase, hgone⟩ := hc
  simp only [hphase, hgone]
  exact if_neg hsome

/-- A subscription that still takes updates starts to drain, and the word waits for its removal. -/
theorem unsub_drains : Parks (.unsub h d a)
    (fun s w => w.some ∧ s.heldSub w (w.src 0 0 % 16) = some e ∧ (e.st = .snap ∨ e.st = .active)) .subFlush
    (fun w s => w.notes (.sub (w.src 0 0 % 16))
      (s.updSub (coreOf w.gs) (w.src 0 0 % 16) fun e => { e with st := .drain, msg := msgRemove })) := by
  refine parks_of _ (fun _ => rfl) fun s w _ hc => ?_
  obtain ⟨hsome, hheld, hsnap | hactive⟩ := hc
  · simp only [hheld, hsnap]
    exact if_neg hsome
  · simp only [hheld, hactive]
    exact if_neg hsome
end Unsub

/-! ### SUBFL -/

section Subfl
variable {h : Hdr}

theorem subfl_no_lane : Performs (.subfl h) (fun _ w => w.none) (fun _ s => s) :=
  performs_of _ (fun _ => rfl) fun _ _ _ hnone => if_pos hnone

theorem subfl_drained : Performs (.subfl h)
    (fun s w => w.some ∧ w.slot.phase ≠ .idle ∧ s.unperformed w.gs = false ∧ s.draining w.gs = false) (fun _ s => s) := by
  refine performs_of _ (fun _ => rfl) fun s w _ hc => ?_
  obtain ⟨hsome, hbegun, hperformed, hdrained⟩ := hc
  simp only [if_neg hsome, hperformed, beq_false_of_ne hbegun, Bool.false_eq_true, if_false, hdrained]

theorem subfl_drains : Parks (.subfl h)
    (fun s w => w.some ∧ w.slot.phase = .idle ∧ s.unperformed w.gs = false ∧ (s.startDrain w.gs false).draining w.gs = true) .subFlush
    (fun w s => w.notes (.drain []) (s.startDrain w.gs false)) := by
  refine parks_of _ (fun _ => rfl) fun s w _ hc => ?_
  obtain ⟨hsome, hidle, hperformed, hdrains⟩ := hc
  simp only [if_neg hsome, hperformed, beq_iff_eq.mpr hidle, Bool.false_eq_true, if_false, if_true, hdrains]
  rfl
end Subfl

/-! ### SUBQ -/

/-- The serial, the log's length in lines and the state, side by side (06, R172 Table 7). -/
theorem subWord_some (e : SubEnt) : subWord (some e) = e.last.toNat * 2 ^ 16 + e.logn / 8 % 2 ^ 10 * 2 ^ 4 + subCode e.st := by
  show e.last.toNat % 2 ^ 16 * 2 ^ 16 + _ + _ = _
  rw [Nat.mod_eq_of_lt e.last.isLt]
  rfl

section Subq
variable {h : Hdr} {d a : Reg} {e : SubEnt}

theorem subq_none_held : Performs (.subq h d a) (fun s w => s.heldSub w (w.src 0 0 % 16) = none) (fun w s => w.says d 0 s) := by
  refine performs_of _ (fun _ => rfl) fun s w _ hgone => ?_
  simp only [hgone]
  rfl

theorem subq_held : Performs (.subq h d a) (fun s w => s.heldSub w (w.src 0 0 % 16) = some e)
    (fun w s => w.says d (e.last.toNat * 2 ^ 16 + e.logn / 8 % 2 ^ 10 * 2 ^ 4 + subCode e.st) s) := by
  refine performs_of _ (fun _ => rfl) fun s w _ hheld => ?_
  simp only [hheld, subWord_some]
  rfl
end Subq

/-- Settles O27: one law per word and outcome. -/
theorem subscriptions : Obligations.Subscriptions := by
  unfold Obligations.Subscriptions
  exact fun _ _ _ _ _ _ _ _ _ _ _ _ => ⟨subs_accepts, subs_returns_handle, subs_awaits_snapshot, subs_bad_regions, unsub_none_held,
    unsub_removed, unsub_drains, subfl_no_lane, subfl_drained, subfl_drains, subq_none_held, subq_held⟩
end Sys2Proof.Proofs
end

section
/-! Branches, splits and jumps (07, R186, R189; 10, R258 to R261, R267): each is one branch of some lanes of the slot, which differs by the
word only in the lanes, the target and the group that it starts from. -/

namespace Sys2Proof.Proofs
open Sys2Proof.Machine Sys2Proof.Laws

/-! ### A word that branches -/

/-- Where `c` holds, the word branches from the group that `link` leaves: the lanes `m` of its slot go to `t`, the others on at `rest`. -/
def Jumps (i : Instr) (c : State → Word → Prop) (link : Word → Group) (m : Word → Mask) (t rest : Word → W64) : Prop :=
  ∃ k, (∀ s, exec i s = s.issue i k) ∧ ∀ s w, c s w →
    k w s = s.carry w (({ g := link w } : Plan).branch (s.privOf w) w.b w.slot (m w) (t w) (rest w)) none
/-- Some of the slot's lanes branch, and others stay. -/
def splitsSlot (m : Mask) (w : Word) : Prop := m ≠ 0#32 ∧ m ≠ w.slot.mask

section Jumps
variable {i : Instr} {c : State → Word → Prop} {link : Word → Group} {m : Word → Mask} {t rest : Word → W64}
  (hjumps : Jumps i c link m t rest)
include hjumps

theorem Jumps.all_go (hall : ∀ s w, c s w → m w = w.slot.mask) :
    Steers i c (fun _ => 1) (fun w s => w.now s (w.goto (link w) (t w))) := by
  obtain ⟨k, hexec, hk⟩ := hjumps
  refine steers_of k hexec fun s w _ hc => ?_
  rw [hk s w hc, branch_all (hall s w hc)]
  exact carry_plain rfl rfl rfl

theorem Jumps.all_stay (hnone : ∀ s w, c s w → m w = 0#32 ∧ w.slot.mask ≠ 0#32) :
    Steers i c (fun _ => 1) (fun w s => w.now s (w.goto (link w) (rest w))) := by
  obtain ⟨k, hexec, hk⟩ := hjumps
  refine steers_of k hexec fun s w _ hc => ?_
  obtain ⟨hnone, hlanes⟩ := hnone s w hc
  rw [hk s w hc, hnone, branch_none hlanes]
  exact carry_plain rfl rfl rfl

theorem Jumps.fork (hsplit : ∀ s w, c s w → splitsSlot (m w) w ∧ (link w).path (!w.b) = none) :
    Steers i c (fun _ => 1) (fun w s => w.now s (w.fork (link w) (m w) (t w) (rest w))) := by
  obtain ⟨k, hexec, hk⟩ := hjumps
  refine steers_of k hexec fun s w _ hc => ?_
  obtain ⟨⟨hsome, hother⟩, halone⟩ := hsplit s w hc
  rw [hk s w hc, branch_fork hother hsome halone]
  exact carry_plain rfl rfl rfl

/-- The path of the other slot is written to the spill area first, where the divergence spill stack has room for it. -/
theorem Jumps.push {e : SpillEntry} {pa : Nat} {unc : Bool}
    (hsplit : ∀ s w, c s w → splitsSlot (m w) w ∧ (link w).path (!w.b) = some e ∧ s.privOf w ≠ 0 ∧ (link w).spill.length < 128 ∧
      s.stackAt w .store (16 * (link w).spill.length) pa unc) :
    Steers i c (fun _ => 1) (fun w s =>
      (w.now s (w.fork { link w with spill := e :: (link w).spill } (m w) (t w) (rest w))).plainWrite (s.spidOf w.g) (s.partOf w.g) unc pa
        (wordBytes (stackWords e.pc e.mask 0#32))) := by
  obtain ⟨k, hexec, hk⟩ := hjumps
  refine steers_of k hexec fun s w _ hc => ?_
  obtain ⟨⟨hsome, hother⟩, hpath, hpriv, hroom, hplace⟩ := hsplit s w hc
  rw [hk s w hc, branch_push hother hsome hpath hpriv hroom]
  exact carry_write rfl rfl rfl hplace

theorem Jumps.overflow
    (hsplit : ∀ s w, c s w → splitsSlot (m w) w ∧ w.some ∧ (∃ e, (link w).path (!w.b) = some e) ∧
      (s.privOf w = 0 ∨ 128 ≤ (link w).spill.length)) :
    Traps i c (fun w => { code := 0x21, lanes := w.act }) (fun _ s => s) := by
  obtain ⟨k, hexec, hk⟩ := hjumps
  refine traps_of k hexec (fun s w _ hc => ?_) fun _ _ _ => .inl rfl
  obtain ⟨⟨hlanes, hother⟩, hsome, ⟨e, hpath⟩, hfull⟩ := hsplit s w hc
  obtain ⟨hwrites, hreads, hpast⟩ := branch_past (t := t w) (rest := rest w) hother hlanes hpath hfull
  rw [hk s w hc]
  exact carry_past hwrites hreads hpast hsome
end Jumps

/-! ### Which words branch -/

section Words
variable {h : Hdr} {d a : Reg} {off : W32} {c : State → Word → Prop} {i : Instr}

/-- The link of a CALL is the address of the next word. -/
def linked (d : Reg) (w : Word) : Group := w.gets w.g d (w.slot.pc + 8#64)
/-- Every lane's target is aligned. -/
def alignedTargets (w : Word) : Prop := ∀ L, L < 32 → inMask w.act L = true → (w.target L).toNat % 8 = 0
/-- Where the lanes that have another target than the first go on: at the same word, as long as there are any (10, R260). -/
def otherTargets (w : Word) : W64 := if w.act &&& ~~~w.same = 0#32 then w.slot.pc + 8#64 else w.slot.pc

theorem bra_jumps : Jumps (.bra h off) c Word.g Word.act (fun w => branchTarget w.slot.pc off) (fun w => w.slot.pc + 8#64) :=
  ⟨_, fun _ => rfl, fun _ _ _ => rfl⟩

theorem call_jumps : Jumps (.call h d off) c (linked d) Word.act (fun w => branchTarget w.slot.pc off) (fun w => w.slot.pc + 8#64) :=
  ⟨_, fun _ => rfl, fun _ _ _ => rfl⟩

theorem linked_path (w : Word) (b : Bool) : (linked d w).path b = w.g.path b := writes_path _ _ _

theorem branchRegs_word (hword : i = .brx h a ∨ i = .ret h a) : ∀ s, exec i s = s.issue i fun w s => s.branchRegs w := by
  rcases hword with rfl | rfl
  · exact fun _ => rfl
  · exact fun _ => rfl

theorem brx_jumps_none (hword : i = .brx h a ∨ i = .ret h a) (hnone : ∀ s w, c s w → w.none) :
    Jumps i c Word.g (fun _ => 0#32) (fun _ => 0#64) (fun w => w.slot.pc + 8#64) :=
  ⟨_, branchRegs_word hword, fun s w hc => branchRegs_none (hnone s w hc)⟩

theorem brx_jumps_aligned (hword : i = .brx h a ∨ i = .ret h a) (hsome : ∀ s w, c s w → w.some ∧ alignedTargets w) :
    Jumps i c Word.g Word.same Word.first otherTargets :=
  ⟨_, branchRegs_word hword, fun s w hc => branchRegs_aligned (hsome s w hc).1 (hsome s w hc).2⟩

theorem brx_misaligned (hword : i = .brx h a ∨ i = .ret h a) : Traps i (fun _ w => ¬ alignedTargets w)
    (fun w => { code := 0x08, lanes := maskOf fun L => inMask w.act L && (w.target L).toNat % 8 != 0
                addr := w.target ((lanes32.filter fun L => inMask w.act L && (w.target L).toNat % 8 != 0).headD 0) }) (fun _ s => s) :=
  traps_of _ (branchRegs_word hword) (fun _ _ _ hbad => branchRegs_bad hbad) fun _ _ _ => .inl rfl
end Words

/-- Settles O17: every word is a branch of its own lanes, target and group, and a branch does one of five things. -/
theorem branches : Obligations.Branches := by
  unfold Obligations.Branches
  intro h d a off pa unc t next one split aligned stay
  refine ⟨?bra, ?braNone, ?braFork, fun e => ?braPush, ?braOverflow, ?call, ?callNone, ?callFork, fun i hword =>
    ⟨?brxNone, ?brx, ?brxFork, brx_misaligned hword⟩⟩
  case bra => exact bra_jumps.all_go fun _ _ hall => hall
  case braNone => exact bra_jumps.all_stay fun _ _ hnone => hnone
  case braFork => exact bra_jumps.fork fun _ _ hc => hc
  case braPush => exact bra_jumps.push fun _ _ hc => hc
  case braOverflow => exact bra_jumps.overflow fun _ _ ⟨hsplit, hpath, hfull⟩ => ⟨hsplit, hsplit.1, hpath, hfull⟩
  case call => exact call_jumps.all_go fun _ _ hall => hall
  case callNone => exact call_jumps.all_stay fun _ _ hnone => hnone
  case callFork => exact call_jumps.fork fun _ w hc => ⟨hc.1, (linked_path w _).trans hc.2⟩
  case brxNone => exact (brx_jumps_none hword fun _ _ hc => hc.1).all_stay fun _ _ hc => ⟨rfl, hc.2⟩
  case brx => exact (brx_jumps_aligned hword fun _ _ ⟨hsome, hall, _⟩ => ⟨hsome, hall⟩).all_go fun _ _ ⟨_, _, hsame⟩ => hsame
  case brxFork =>
    exact (brx_jumps_aligned hword fun _ _ ⟨hsome, hall, _⟩ => ⟨hsome, hall⟩).fork
      fun _ _ ⟨hsome, _, hother, halone⟩ => ⟨⟨same_some hsome, hother⟩, halone⟩
end Sys2Proof.Proofs
end

section
/-! Joins and exits (07, R187, R188; 10, R262, R263; 17, R398): what MJOIN pushes, when a JOIN waits, merges or is an exception, and what an
EXIT leaves of the group's paths. -/

namespace Sys2Proof.Proofs
open Sys2Proof.Machine Sys2Proof.Laws

/-! ### MJOIN -/

section Mjoin
variable {h : Hdr} {off : W32}

/-- The entry that MJOIN pushes, and the group once it has. -/
def mjoinEntry (off : W32) (w : Word) : JoinEntry := { rejoin := branchTarget w.slot.pc off, mask := w.slot.mask, arr := 0#32 }
def mjoined (off : W32) (w : Word) : Group := w.goto { w.g with join := mjoinEntry off w :: w.g.join } (w.slot.pc + 8#64)

theorem pushJoin_near {p : Plan} {priv : Nat} {e : JoinEntry} (hroom : p.g.join.length < 4) :
    p.pushJoin priv e = { p with g := { p.g with join := e :: p.g.join } } := if_pos hroom

theorem mjoin_pushes : Steers (.mjoin h off) (fun _ w => w.g.join.length < 4) (fun _ => 1) (fun w s => w.now s (mjoined off w)) := by
  refine steers_of _ (fun _ => rfl) fun s w _ hroom => ?_
  simp only [pushJoin_near (p := { g := w.g }) hroom]
  exact carry_plain rfl rfl rfl

/-- A fifth entry moves the lowest one on chip to memory. -/
theorem mjoin_moves {o : JoinEntry} {pa : Nat} {unc : Bool} : Steers (.mjoin h off)
    (fun s w => w.g.join[3]? = some o ∧ w.g.join.length < 132 ∧ s.privOf w ≠ 0 ∧
      s.stackAt w .store (2048 + 16 * (w.g.join.length - 4)) pa unc) (fun _ => 1)
    (fun w s => (w.now s (mjoined off w)).plainWrite (s.spidOf w.g) (s.partOf w.g) unc pa
      (wordBytes (stackWords o.rejoin o.mask o.arr))) := by
  refine steers_of _ (fun _ => rfl) fun s w _ hc => ?_
  obtain ⟨hlowest, hroom, hpriv, hplace⟩ := hc
  simp only [pushJoin_far (p := { g := w.g }) hlowest hroom hpriv]
  exact carry_write rfl rfl rfl hplace
end Mjoin

/-! ### JOIN -/

section Join
variable {h : Hdr} {e : JoinEntry} {l : List JoinEntry}

/-- The slot's lanes are lanes of the entry that have not arrived there. -/
def fitsEntry (w : Word) (e : JoinEntry) : Prop := w.slot.mask &&& ~~~e.mask = 0#32 ∧ w.slot.mask &&& e.arr = 0#32

theorem misfit_iff {w : Word} : (w.slot.mask &&& ~~~e.mask != 0#32 || w.slot.mask &&& e.arr != 0#32) = true ↔ ¬ fitsEntry w e := by
  rw [fitsEntry, Bool.or_eq_true, bne_iff_ne, bne_iff_ne, Classical.not_and_iff_not_or_not]

theorem join_arrives : Steers (.join h)
    (fun _ w => w.g.join = e :: l ∧ fitsEntry w e ∧ e.arr ||| w.slot.mask ≠ e.mask ∧ w.g.spill = []) (fun _ => 0)
    (fun w s => w.now s { w.g.setSlot w.b none with join := { e with arr := e.arr ||| w.slot.mask, joins := e.joins + 1 } :: l }) := by
  refine steers_of _ (fun _ => rfl) fun s w _ hc => ?_
  obtain ⟨htop, hfits, hwaits, hspill⟩ := hc
  simp only [htop]
  rw [if_neg (mt misfit_iff.mp (not_not_intro hfits)), if_neg hwaits, popSpill_nil ((setSlot_spill _ _ _).trans hspill)]
  exact carry_plain rfl rfl rfl

/-- The last arrival merges: the entry's lanes go on in this slot, and the JOIN words that led here retire. -/
theorem join_merges : Steers (.join h)
    (fun _ w => w.g.join = e :: l ∧ fitsEntry w e ∧ e.arr ||| w.slot.mask = e.mask ∧ l.length < 4) (fun _ => e.joins + 1)
    (fun w s => w.now s ({ w.g with join := l }.setSlot w.b (some { pc := e.rejoin, mask := e.mask }))) := by
  refine steers_of _ (fun _ => rfl) fun s w _ hc => ?_
  obtain ⟨htop, hfits, hlast, hnear⟩ := hc
  have hpop : ({ g := w.g } : Plan).popJoin = { g := { w.g with join := l } } := by
    unfold Plan.popJoin
    simp only [htop, List.length_cons, List.drop_succ_cons, List.drop_zero]
    rw [if_neg (by omega)]
  simp only [htop]
  rw [if_neg (mt misfit_iff.mp (not_not_intro hfits)), if_pos hlast, hpop]
  exact carry_plain rfl rfl rfl

theorem join_misfits : Traps (.join h) (fun _ w => ∀ e, w.g.join.head? = some e → ¬ fitsEntry w e)
    (fun w => { code := 0x01, lanes := w.slot.mask }) (fun _ s => s) := by
  refine traps_of _ (fun _ => rfl) (fun s w _ hc => ?_) fun _ _ _ => .inl rfl
  cases htop : w.g.join with
  | nil => rfl
  | cons e l => exact if_pos (misfit_iff.mpr (hc e (by rw [htop]; rfl)))
end Join

/-! ### EXIT -/

section Exit
variable {h : Hdr}

/-- No active lane is in a transaction. -/
def outsideTx (w : Word) : Prop := ∀ L, L < 32 → inMask w.act L = true → (w.g.txLane L).depth = 0
/-- The lanes of the slot that stay. -/
def staying (w : Word) : Mask := w.slot.mask &&& ~~~w.act
/-- The group's live lanes once the active ones have left. -/
def remaining (w : Word) : Mask := w.g.live &&& ~~~w.act
/-- An EXIT's plan, and the slot, the paths on their way and the group that it leaves where there are no stack entries. -/
def exitPlan (s : State) (w : Word) : Plan := ({ g := w.g } : Plan).exit (s.privOf w) w.b w.slot w.act
def slotLeft (w : Word) : Option PcSlot :=
  if staying w = 0#32 then none else some { w.slot with pc := w.slot.pc + 8#64, mask := staying w }
def refillLeft (w : Word) : List (Bool × SpillEntry) := w.g.refill.map fun e => (e.1, { e.2 with mask := e.2.mask &&& ~~~w.act })
def groupLeft (w : Word) : Group := { w.g with live := remaining w, refill := refillLeft w }.setSlot w.b (slotLeft w)
/-- A group with no live lane goes on to retire (10, R263). -/
def ended (w : Word) (g : Group) : Group :=
  if g.live = 0#32 then { g with retiring := true, exitPc := w.slot.pc, slotA := none, slotB := none, refill := [] } else g

theorem ended_live {w : Word} {g : Group} (hlive : g.live ≠ 0#32) : ended w g = g := if_neg hlive
theorem ended_groupLeft {w : Word} (hlive : remaining w ≠ 0#32) (hrefill : w.g.refill = []) :
    ended w (groupLeft w) = { w.g with live := remaining w }.setSlot w.b (slotLeft w) := by
  rw [ended_live (by rwa [groupLeft, setSlot_live])]
  have hsame : refillLeft w = w.g.refill := by rw [refillLeft, hrefill, List.map_nil]
  rw [groupLeft, hsame]

theorem exit_none : Performs (.exit h) (fun _ w => w.none) (fun _ s => s) :=
  performs_of _ (fun _ => rfl) fun _ _ _ hnone => if_pos hnone

/-- An EXIT of lanes outside transactions carries out its plan. -/
theorem exit_steers {c : State → Word → Prop} {n : Word → Nat} {e : Word → Group} (houtside : ∀ s w, c s w → w.some ∧ outsideTx w)
    (hplan : ∀ s w, c s w → s.carry w { exitPlan s w with g := ended w (exitPlan s w).g } none = .moved (w.now s (e w)) (n w)) :
    Steers (.exit h) c n (fun w s => w.now s (e w)) := by
  refine steers_of _ (fun _ => rfl) fun s w _ hc => ?_
  obtain ⟨hsome, houtside⟩ := houtside s w hc
  simp only [deep_nil houtside]
  exact (if_neg hsome).trans (hplan s w hc)

/-- Without stack entries no path but the slot's own is concerned. -/
theorem exit_plainly {c : State → Word → Prop} {e : Word → Group} (houtside : ∀ s w, c s w → w.some ∧ outsideTx w)
    (hbare : ∀ s w, c s w → w.g.join = [] ∧ w.g.spill = []) (hleft : ∀ s w, c s w → ended w (groupLeft w) = e w) :
    Steers (.exit h) c (fun _ => 1) (fun w s => w.now s (e w)) := by
  refine exit_steers houtside fun s w hc => ?_
  obtain ⟨hjoin, hspill⟩ := hbare s w hc
  have hplan : exitPlan s w = { g := groupLeft w } := exit_plain hjoin hspill
  rw [hplan, ← hleft s w hc]
  exact carry_plain rfl rfl rfl

/-- Some of the slot's lanes stay. -/
theorem exit_stays : Steers (.exit h)
    (fun _ w => w.some ∧ outsideTx w ∧ staying w ≠ 0#32 ∧ w.g.join = [] ∧ w.g.spill = [] ∧ remaining w ≠ 0#32 ∧ w.g.refill = [])
    (fun _ => 1) (fun w s => w.now s ({ w.g with live := remaining w }.setSlot w.b
      (some { w.slot with pc := w.slot.pc + 8#64, mask := staying w }))) := by
  refine exit_plainly (fun _ _ hc => ⟨hc.1, hc.2.1⟩) (fun _ _ ⟨_, _, _, hjoin, hspill, _⟩ => ⟨hjoin, hspill⟩) ?_
  rintro s w ⟨-, -, hstay, -, -, hlive, hrefill⟩
  rw [ended_groupLeft hlive hrefill, slotLeft, if_neg hstay]

/-- The last live lanes end the group. -/
theorem exit_ends : Steers (.exit h)
    (fun _ w => w.some ∧ outsideTx w ∧ remaining w = 0#32 ∧ w.g.join = [] ∧ w.g.spill = [] ∧ staying w = 0#32)
    (fun _ => 1) (fun w s => w.now s { w.g with
      live := 0#32, retiring := true, exitPc := w.slot.pc, slotA := none, slotB := none, refill := [] }) := by
  refine exit_plainly (fun _ _ hc => ⟨hc.1, hc.2.1⟩) (fun _ _ ⟨_, _, _, hjoin, hspill, _⟩ => ⟨hjoin, hspill⟩) ?_
  rintro s w ⟨-, -, hlive, -, -, -⟩
  rw [ended, groupLeft, hlive, setSlot_live, if_pos rfl]
  cases w.b <;> rfl

/-- All lanes of the slot leave, and others are live elsewhere. -/
theorem exit_empties : Steers (.exit h)
    (fun _ w => w.some ∧ outsideTx w ∧ staying w = 0#32 ∧ w.g.join = [] ∧ w.g.spill = [] ∧ remaining w ≠ 0#32 ∧ w.g.refill = [])
    (fun _ => 1) (fun w s => w.now s ({ w.g with live := remaining w }.setSlot w.b none)) := by
  refine exit_plainly (fun _ _ hc => ⟨hc.1, hc.2.1⟩) (fun _ _ ⟨_, _, _, hjoin, hspill, _⟩ => ⟨hjoin, hspill⟩) ?_
  rintro s w ⟨-, -, hstay, -, -, hlive, hrefill⟩
  rw [ended_groupLeft hlive hrefill, slotLeft, if_pos hstay]

/-- The lanes that leave were the last that the group's one join entry waited for: its other lanes merge in the slot. -/
theorem exit_completes {e : JoinEntry} : Steers (.exit h)
    (fun _ w => w.some ∧ outsideTx w ∧ staying w = 0#32 ∧ w.g.join = [e] ∧ w.g.spill = [] ∧ remaining w ≠ 0#32 ∧ w.g.refill = [] ∧
      e.arr &&& ~~~w.act = e.mask &&& ~~~w.act ∧ e.mask &&& ~~~w.act ≠ 0#32) (fun _ => 1 + e.joins)
    (fun w s => w.now s ({ w.g with live := remaining w, join := [] }.setSlot w.b (some { pc := e.rejoin, mask := e.mask &&& ~~~w.act }))) := by
  refine exit_steers (fun _ _ hc => ⟨hc.1, hc.2.1⟩) fun s w ⟨_, _, hstay, hjoin, hspill, hlive, hrefill, hfull, hmerged⟩ => ?_
  rw [exitPlan, exit_merge hstay hjoin hspill hrefill hfull hmerged, ended_live (by rwa [setSlot_live])]
  exact carry_plain rfl rfl rfl

/-- The emptied slot takes the one spilled path, once its entry has been read. -/
theorem exit_takes_spilled {e : SpillEntry} {pa : Nat} {unc : Bool} : Steers (.exit h)
    (fun s w => w.some ∧ outsideTx w ∧ staying w = 0#32 ∧ w.g.join = [] ∧ w.g.spill = [e] ∧ remaining w ≠ 0#32 ∧ w.g.refill = [] ∧
      w.g.ft = none ∧ ¬ w.alone ∧ s.stackAt w .load 0 pa unc) (fun _ => 1)
    (fun w s => w.now s { w.g.setSlot w.b none with
      live := remaining w, spill := [], refill := [(w.b, { e with mask := e.mask &&& ~~~w.act })] }) := by
  refine exit_steers (fun _ _ hc => ⟨hc.1, hc.2.1⟩) fun s w ⟨_, _, hstay, hjoin, hspill, hlive, hrefill, hft, hpath, hplace⟩ => ?_
  obtain ⟨p, hother⟩ : ∃ p, w.g.slot (!w.b) = some p := by
    cases hslot : w.g.slot (!w.b) with
    | some p => exact ⟨p, rfl⟩
    | none => exact absurd (by simp [Word.alone, Group.path, hslot, hrefill]) hpath
  rw [exitPlan, exit_refill hstay hjoin hspill hrefill hft hother, ended_live hlive]
  exact carry_read rfl rfl rfl hplace

theorem exit_inTx : Traps (.exit h)
    (fun _ w => w.g.join = [] ∧ w.g.spill = [] ∧ ∃ L, L < 32 ∧ inMask w.act L = true ∧ 0 < (w.g.txLane L).depth)
    (fun w => { code := 0x11, lanes := maskOf fun L => inMask w.act L && decide (0 < (w.g.txLane L).depth) }) (fun _ s => s) := by
  refine traps_of _ (fun _ => rfl) (fun s w _ hc => ?_) fun _ _ _ => .inl rfl
  obtain ⟨hjoin, hspill, hdeep⟩ := hc
  have hsome : w.act ≠ 0#32 := by
    obtain ⟨L, -, hactive, -⟩ := hdeep
    intro hnone
    simp [hnone, inMask] at hactive
  obtain ⟨hany, hlanes⟩ := deep_some hdeep
  simp only [hany, hlanes, exit_plain hjoin hspill]
  exact (if_neg hsome).trans (carry_own rfl rfl)
end Exit

/-- Settles O18: one law per word and outcome. -/
theorem merges : Obligations.Merges := by
  unfold Obligations.Merges
  exact fun _ _ _ _ => ⟨mjoin_pushes, fun _ => mjoin_moves, fun _ _ => join_arrives, fun _ _ => join_merges, join_misfits, exit_none, exit_stays,
    exit_ends, exit_empties, fun _ => exit_completes, fun _ => exit_takes_spilled, exit_inTx⟩
end Sys2Proof.Proofs
end

section
/-! REGROUP (07, R190; 14, R344 Table 3): what a group finds of the group that it names, and how the two meet. -/

namespace Sys2Proof.Proofs
open Sys2Proof.Machine Sys2Proof.Laws

section Regroup
variable {h : Hdr} {d a b : Reg} {gi : BitVec 5} {x : Workgroup} {v pgs : Nat} {p : Group} {c : Cause}

/-! ### What a REGROUP names and finds -/

/-- The register range of the word, and what it asks of its workgroup: the other group and the range. -/
def regroupRange (a b : Reg) : Option (Nat × Nat) := match a, b with
  | .v x, .v y => some (x.val, y.val)
  | _, _ => none
def regroupKey (a b : Reg) (gi : BitVec 5) : Nat × Nat × Nat :=
  (gi.toNat, ((regroupRange a b).map (·.1)).getD 1000, ((regroupRange a b).map (·.2)).getD 1000)
/-- The group's wish stands in its workgroup. -/
def regroupAsked (a b : Reg) (gi : BitVec 5) (s : State) (w : Word) : State :=
  s.updWg w.g.wg fun x => { x with regroup := Tbl.put x.regroup w.g.gidx (regroupKey a b gi) }
/-- The partner's wish is gone. -/
def wishCleared (p : Group) (s : State) (w : Word) : State :=
  s.updWg w.g.wg fun x => { x with regroup := Tbl.del x.regroup p.gidx }
/-- No answer waits for the group, the word is no exception, and the group that it names is not saved. -/
def regroupsFirst (x : Workgroup) (gi : BitVec 5) (s : State) (w : Word) : Prop :=
  Tbl.find s.wgs w.g.wg = some x ∧ Tbl.find x.answers w.g.gidx = none ∧ regroupBad w = none ∧ inMask x.savedG gi.toNat = false
/-- The group that it names is there. -/
def findsPartner (x : Workgroup) (pgs : Nat) (p : Group) (gi : BitVec 5) (s : State) (w : Word) : Prop :=
  regroupsFirst x gi s w ∧ gi.toNat < w.ngrp ∧ Tbl.find x.slots gi.toNat = some pgs ∧ Tbl.find s.groups pgs = some p ∧
    p.retiring = false ∧ p.wg = w.g.wg
/-- It waits for this group, with the same range. -/
def meetsPartner (x : Workgroup) (pgs : Nat) (p : Group) (a b : Reg) (gi : BitVec 5) (s : State) (w : Word) : Prop :=
  findsPartner x pgs p gi s w ∧ Tbl.find x.regroup gi.toNat = some (w.g.gidx, (regroupKey a b gi).2)
/-- The live lanes of the two groups together. -/
def lanesOfBoth (w : Word) (p : Group) : Nat := (laneList w.g.live).length + (laneList p.live).length

/-- The word's own search for the group that it names. -/
def partnerOf (x : Workgroup) (gi : BitVec 5) (s : State) (w : Word) : Option (Nat × Group) :=
  if w.ngrp ≤ gi.toNat then none
  else (Tbl.find x.slots gi.toNat).bind fun pgs => (Tbl.find s.groups pgs).bind fun p =>
    if p.retiring || p.wg != w.g.wg then none else some (pgs, p)

theorem partnerOf_none {s : State} {w : Word} (hgone : w.ngrp ≤ gi.toNat ∨ Tbl.find x.slots gi.toNat = none) :
    partnerOf x gi s w = none := by
  unfold partnerOf
  rcases hgone with hbeyond | hempty
  · exact if_pos hbeyond
  · rw [hempty, Option.bind_none, ite_self]

theorem partnerOf_found {s : State} {w : Word} (hfinds : findsPartner x pgs p gi s w) : partnerOf x gi s w = some (pgs, p) := by
  obtain ⟨-, hgroups, hslot, hpartner, hretiring, hwg⟩ := hfinds
  rw [partnerOf, if_neg (Nat.not_le.mpr hgroups), hslot, Option.bind_some, hpartner, Option.bind_some, hretiring, hwg]
  simp

/-! ### The outcomes -/

theorem regroup_answered : Performs (.regroup h d a b gi)
    (fun s w => Tbl.find s.wgs w.g.wg = some x ∧ Tbl.find x.answers w.g.gidx = some v)
    (fun w s => w.says d v (s.updWg w.g.wg fun x => { x with answers := Tbl.del x.answers w.g.gidx })) := by
  refine performs_of _ (fun _ => rfl) fun s w _ hc => ?_
  obtain ⟨hx, hanswer⟩ := hc
  simp only [hx, hanswer]
  rfl

theorem regroup_misused : Traps (.regroup h d a b gi)
    (fun s w => Tbl.find s.wgs w.g.wg = some x ∧ Tbl.find x.answers w.g.gidx = none ∧ regroupBad w = some c) (fun _ => c) (fun _ s => s) := by
  refine traps_of _ (fun _ => rfl) (fun s w _ hc => ?_) fun _ _ hc => .inl (regroupBad_early hc.2.2)
  obtain ⟨hx, hanswer, hbad⟩ := hc
  simp only [hx, hanswer, hbad]

/-- A first REGROUP goes on with what it finds of its partner. -/
theorem regroup_first : ∃ k, (∀ s, exec (.regroup h d a b gi) s = s.issue (.regroup h d a b gi) k) ∧
    ∀ x s w, regroupsFirst x gi s w → k w s = (match partnerOf x gi s w with
      | none => .done (w.says d 2 (s.updWg w.g.wg fun x => { x with regroup := Tbl.del x.regroup w.g.gidx }))
      | some (pgs, p) => match Tbl.find x.regroup gi.toNat with
        | some (whom, pa, pb) =>
          if whom = w.g.gidx then
            s.meet w d pgs p (pa == (regroupKey a b gi).2.1 && pb == (regroupKey a b gi).2.2) (regroupRange a b)
          else .wait .barrier (regroupAsked a b gi s w)
        | none => .wait .barrier (regroupAsked a b gi s w)) := by
  refine ⟨_, fun _ => rfl, fun x s w hfirst => ?_⟩
  obtain ⟨hx, hanswer, hbad, hsaved⟩ := hfirst
  simp only [hx, hanswer, hbad, hsaved, Bool.false_and]
  rfl

theorem regroup_alone : Performs (.regroup h d a b gi)
    (fun s w => regroupsFirst x gi s w ∧ (w.ngrp ≤ gi.toNat ∨ Tbl.find x.slots gi.toNat = none))
    (fun w s => w.says d 2 (s.updWg w.g.wg fun x => { x with regroup := Tbl.del x.regroup w.g.gidx })) := by
  obtain ⟨k, hexec, hk⟩ := regroup_first (h := h) (d := d) (a := a) (b := b) (gi := gi)
  refine performs_of k hexec fun s w _ ⟨hfirst, hgone⟩ => ?_
  rw [hk x s w hfirst, partnerOf_none hgone]

theorem regroup_waits : Parks (.regroup h d a b gi)
    (fun s w => findsPartner x pgs p gi s w ∧ ∀ y, Tbl.find x.regroup gi.toNat = some y → y.1 ≠ w.g.gidx) .barrier
    (fun w s => regroupAsked a b gi s w) := by
  obtain ⟨k, hexec, hk⟩ := regroup_first (h := h) (d := d) (a := a) (b := b) (gi := gi)
  refine parks_of k hexec fun s w _ ⟨hfinds, helsewhere⟩ => ?_
  rw [hk x s w hfinds.1, partnerOf_found hfinds]
  cases hwish : Tbl.find x.regroup gi.toNat with
  | none => rfl
  | some y => exact if_neg (helsewhere y hwish)

/-- A REGROUP whose partner waits for it performs as the two groups meet. -/
theorem regroup_meets {c : State → Word → Prop} {e : Word → State → State} (hmeets : ∀ s w, c s w → meetsPartner x pgs p a b gi s w)
    (hmeet : ∀ s w, c s w → s.meet w d pgs p true (regroupRange a b) = .done (e w s)) : Performs (.regroup h d a b gi) c e := by
  obtain ⟨k, hexec, hk⟩ := regroup_first (h := h) (d := d) (a := a) (b := b) (gi := gi)
  refine performs_of k hexec fun s w _ hc => ?_
  obtain ⟨hfinds, hwish⟩ := hmeets s w hc
  rw [hk x s w hfinds.1, partnerOf_found hfinds, hwish]
  simp only [if_true, beq_self_eq_true, Bool.and_self]
  exact hmeet s w hc

theorem regroup_tooMany : Performs (.regroup h d a b gi) (fun s w => meetsPartner x pgs p a b gi s w ∧ 32 < lanesOfBoth w p)
    (fun w s => w.says d 1 ((wishCleared p s w).updWg w.g.wg fun x => { x with answers := Tbl.put x.answers p.gidx 1 })) :=
  regroup_meets (fun _ _ hc => hc.1) fun _ _ ⟨_, hmany⟩ => if_pos hmany

/-- The group of the lower index survives: it takes the other's lanes, and the other leaves. -/
theorem regroup_fuses : Performs (.regroup h d a b gi)
    (fun s w => meetsPartner x pgs p a b gi s w ∧ lanesOfBoth w p ≤ 32 ∧ w.g.gidx < p.gidx ∧ w.b = false)
    (fun w s => w.says d 0 (w.now { (wishCleared p s w).updGroup pgs Group.donate with free := s.free + 32 * w.g.n }
      ((s.fuse w.g p pgs (regroupRange a b)).setSlot false
        (some { w.slot with mask := (s.fuse w.g p pgs (regroupRange a b)).live })))) := by
  refine regroup_meets (fun _ _ hc => hc.1) fun s w ⟨_, hfew, hlower, hslot⟩ => ?_
  unfold State.meet
  simp only [hslot, Bool.not_true, Bool.false_eq_true, if_false]
  exact (if_neg (Nat.not_lt.mpr hfew)).trans (if_pos hlower)
end Regroup

/-- Settles O31: one law per outcome. -/
theorem regroups : Obligations.Regroups := by
  unfold Obligations.Regroups
  exact fun _ _ _ _ _ _ _ _ _ _ => ⟨regroup_answered, regroup_alone, regroup_waits, regroup_tooMany, regroup_fuses, regroup_misused⟩
end Sys2Proof.Proofs
end

section
/-! The decode causes of a word in the order of their table (09, R237 Table 12; 07, R194). -/

namespace Sys2Proof.Proofs
open Sys2Proof.Machine Sys2Proof.Laws

section DecodeCause
variable {i : Instr} {f : Info} {g : Group} {sup : Bool} {team : Nat} {mask act : Mask}

/-! ### The five tests -/

/-- A word of the table that its group may use. -/
def legalWord (i : Instr) (g : Group) (team : Nat) : Prop := i.wellFormed = true ∧ misused i g team = false
/-- Its mode may execute it. -/
def modeFits (i : Instr) (f : Info) (sup : Bool) : Prop := f.priv = false ∧ restricted i = false ∨ sup = true
/-- Its V registers are allocated. -/
def allocated (f : Info) (g : Group) : Prop := ∀ u ∈ f.dst ++ f.src, ∀ n ∈ u.vregs, n < g.n
/-- The word reads its registers now: it is no member of a team that waits for its issuer (13, R311). -/
def readsNow (f : Info) (g : Group) (team : Nat) : Prop := f.team = false ∨ isIssuer team g.gidx = true

theorem illegal_iff : (!i.wellFormed || misused i g team) = true ↔ ¬ legalWord i g team := by
  rw [legalWord, Bool.or_eq_true, Bool.not_eq_true', Classical.not_and_iff_not_or_not, Bool.not_eq_true, Bool.not_eq_false]
theorem wrongMode_iff : ((f.priv || restricted i) && !sup) = true ↔ ¬ modeFits i f sup := by
  rw [modeFits, Bool.and_eq_true, Bool.or_eq_true, Bool.not_eq_true', not_or, Classical.not_and_iff_not_or_not, Bool.not_eq_false, Bool.not_eq_false,
    Bool.not_eq_true]
theorem unallocated_iff : ((f.dst ++ f.src).flatMap Use.vregs).any (fun n => decide (g.n ≤ n)) = true ↔ ¬ allocated f g := by
  simp only [allocated, List.any_eq_true, List.mem_flatMap, decide_eq_true_eq, Classical.not_forall, Nat.not_lt, exists_prop]
  exact ⟨fun ⟨n, ⟨u, hu, hn⟩, hle⟩ => ⟨u, hu, n, hn, hle⟩, fun ⟨u, hu, n, hn, hle⟩ => ⟨n, ⟨u, hu, hn⟩, hle⟩⟩
theorem pending_of (hnow : readsNow f g team) (hpend : ∃ r ∈ infoRefs f, r ∈ g.pend) :
    ((!f.team || isIssuer team g.gidx) && (infoRefs f).any (fun r => g.pend.contains r)) = true := by
  simpa only [readsNow, Bool.and_eq_true, Bool.or_eq_true, Bool.not_eq_true', List.any_eq_true, List.contains_iff_mem] using
    And.intro hnow hpend

/-! ### The first that applies -/

theorem decodeCause_illegal (hbad : ¬ legalWord i g team) : decodeCause i f g sup team mask act = some (0x01, mask) :=
  if_pos (illegal_iff.mpr hbad)

theorem decodeCause_mode (hlegal : legalWord i g team) (hbad : ¬ modeFits i f sup) :
    decodeCause i f g sup team mask act = some (0x02, mask) :=
  (if_neg (mt illegal_iff.mp (not_not_intro hlegal))).trans (if_pos (wrongMode_iff.mpr hbad))

theorem decodeCause_unallocated (hlegal : legalWord i g team) (hmode : modeFits i f sup) (hbad : ¬ allocated f g) :
    decodeCause i f g sup team mask act = some (0x03, mask) :=
  (if_neg (mt illegal_iff.mp (not_not_intro hlegal))).trans ((if_neg (mt wrongMode_iff.mp (not_not_intro hmode))).trans
    (if_pos (unallocated_iff.mpr hbad)))

/-- A word that is legal, in its mode and of allocated registers is left with the last two tests. -/
theorem decodeCause_fields (hlegal : legalWord i g team) (hmode : modeFits i f sup) (halloc : allocated f g) :
    decodeCause i f g sup team mask act =
      if !wordPairOk i then some (0x05, mask)
      else if (!f.team || isIssuer team g.gidx) && (infoRefs f).any (fun r => g.pend.contains r) then some (0x04, act)
      else none :=
  (if_neg (mt illegal_iff.mp (not_not_intro hlegal))).trans ((if_neg (mt wrongMode_iff.mp (not_not_intro hmode))).trans
    (if_neg (mt unallocated_iff.mp (not_not_intro halloc))))

theorem decodeCause_pair (hlegal : legalWord i g team) (hmode : modeFits i f sup) (halloc : allocated f g) (hbad : wordPairOk i = false) :
    decodeCause i f g sup team mask act = some (0x05, mask) := by
  rw [decodeCause_fields hlegal hmode halloc, hbad]
  rfl

theorem decodeCause_pending (hlegal : legalWord i g team) (hmode : modeFits i f sup) (halloc : allocated f g) (hpair : wordPairOk i = true)
    (hnow : readsNow f g team) (hpend : ∃ r ∈ infoRefs f, r ∈ g.pend) : decodeCause i f g sup team mask act = some (0x04, act) := by
  rw [decodeCause_fields hlegal hmode halloc, hpair, pending_of hnow hpend]
  rfl
end DecodeCause

/-- Settles O37: the first test that fails gives the cause, and the cause of a test is raised for its lanes. -/
theorem decodeCauses : Obligations.DecodeCauses := by
  unfold Obligations.DecodeCauses
  intro i f s gs b g p hi hcur hgroup hslot w takes mode inN legal
  have hraises : ∀ code lanes, decodeCause i f g w.sup (((s.gridOf g).map Grid.team).getD 0) p.mask (g.guard f.h p.mask) = some (code, lanes) →
      takes code lanes := fun _ _ => decode_cause_raises hi hcur hgroup hslot
  exact ⟨fun hbad => hraises _ _ (decodeCause_illegal hbad), fun hlegal hbad => hraises _ _ (decodeCause_mode hlegal hbad),
    fun hlegal hmode hbad => hraises _ _ (decodeCause_unallocated hlegal hmode hbad),
    fun hlegal hmode hin hbad => hraises _ _ (decodeCause_pair hlegal hmode hin hbad),
    fun hlegal hmode hin hpair hnow hpend => hraises _ _ (decodeCause_pending hlegal hmode hin hpair hnow hpend)⟩
end Sys2Proof.Proofs
end

section
/-! Moves of the agenda other than the issue of a word (07, R184; 14, R356). -/

namespace Sys2Proof.Proofs
open Sys2Proof.Machine Sys2Proof.Laws

theorem step_of_agenda {s : State} {m : Move} {rest : List Move} (hagenda : s.agenda = m :: rest) :
    step s = ({ s with agenda := rest } : State).move m := by
  rw [step, hagenda]

theorem step_of_no_agenda {s : State} (hagenda : s.agenda = []) : step s = s.ownMove := by
  rw [step, hagenda]

/-- Its own time and the mark of its wait for issue apart, a group is the same group. -/
theorem sameGroup_ticked (g : Group) (t : W64) (e : Option Nat) : SameGroup { g with gtime := t } { g with gtime := t, eligible := e } :=
  ⟨rfl, rfl, rfl, rfl, rfl, rfl, rfl, rfl, ⟨rfl, rfl, rfl⟩, ⟨rfl, rfl, rfl⟩, ⟨rfl, rfl, rfl, rfl⟩, ⟨rfl, rfl⟩, ⟨rfl, rfl, rfl, rfl⟩, ⟨rfl, rfl⟩⟩

/-- Settles O40: a step performs the move at the head of the agenda; what cycles leave is `elapse_spec`. -/
theorem stepsOfAgents : Obligations.StepsOfAgents := by
  unfold Obligations.StepsOfAgents
  refine fun s rest => ⟨fun e hagenda => step_of_agenda hagenda, fun hagenda => step_of_agenda hagenda, step_of_no_agenda, fun n hagenda => ?_⟩
  obtain ⟨hclock, hmem, hhalt, hreqs, hgroups⟩ := elapse_spec n { s with agenda := rest }
  refine ⟨_, step_of_agenda hagenda, hclock, hmem, hreqs, hhalt, fun gs g hg => ?_⟩
  obtain ⟨e, hticked⟩ := hgroups gs g hg
  refine ⟨_, hticked, rfl, sameGroup_ticked g _ e, fun hwalker hsaved => if_neg ?_⟩
  rw [hwalker, Bool.false_or]
  exact ne_true_of_eq_false hsaved
end Sys2Proof.Proofs
end

section
/-! Queues and their packets: doorbells, lanes, the service of a packet and its completion (08, R199 to R207). -/

namespace Sys2Proof.Proofs
open Sys2Proof.Machine Sys2Proof.Laws

/-! ### Reads of the Headbox -/

section HbGet
variable {α : Type} {s : State} {q : HbFor} {ga n : Nat} {k : State → Nat → EngRes α}

theorem hbGet_untranslated {d : Nat} (haddr : s.hbAddr q false ga = .error d) : s.hbGet q ga n k = .bad 7 d := by
  unfold State.hbGet
  rw [haddr]
theorem hbGet_owned {pa : Nat} (haddr : s.hbAddr q false ga = .ok pa) (howned : s.owned (headboxUnit q.die) pa n = true) :
    s.hbGet q ga n k = .wait ((s.recallAll (headboxUnit q.die) pa n).getD s) := by
  unfold State.hbGet
  rw [haddr]
  exact if_pos howned
theorem hbGet_reads {pa : Nat} (haddr : s.hbAddr q false ga = .ok pa) (hfree : s.owned (headboxUnit q.die) pa n = false) :
    s.hbGet q ga n k = k s pa := by
  unfold State.hbGet
  rw [haddr]
  exact if_neg (ne_true_of_eq_false hfree)
end HbGet

/-! ### Doorbells and lanes (08, R199 to R204) -/

/-- A doorbell has no effect where its value is out of range or no active queue has its number. -/
theorem doorbell_ignored {s : State} {hwq : Nat} {v : W64}
    (hnot : 2 ^ 63 ≤ v.toNat ∨ ∀ q ∈ s.queues, q.2.hb = false ∨ q.2.hwq ≠ hwq ∨ q.2.st ≠ .active) :
    exec (.doorbellWrite hwq v) s = .next s := by
  refine congrArg Host.Outcome.next (?_ : s.ringDoorbell hwq v = s)
  unfold State.ringDoorbell
  split
  · rfl
  · rename_i n c hfind
    refine if_pos (hnot.resolve_right fun hnone => ?_)
    have hrings := List.find?_some hfind
    simp only [Bool.and_eq_true, beq_iff_eq] at hrings
    obtain ⟨⟨hbound, hnumber⟩, hactive⟩ := hrings
    rcases hnone _ (List.mem_of_find?_eq_some hfind) with hunbound | hother | hstopped
    · exact Bool.noConfusion (hunbound.symm.trans hbound)
    · exact hother hnumber
    · exact hstopped hactive

section TakePacket
variable {s : State} {n pa : Nat} {c : Qcb}

theorem takePacket_untranslated {d : Nat} (haddr : s.hbAddr c.hbFor false (c.unit c.rd) = .error d) :
    s.takePacket n c = s.haltQueue n 7 d c.rd := by
  unfold State.takePacket
  rw [hbGet_untranslated haddr]
theorem takePacket_owned (haddr : s.hbAddr c.hbFor false (c.unit c.rd) = .ok pa) (howned : s.owned (headboxUnit c.die) pa 8 = true) :
    s.takePacket n c = (s.recallAll (headboxUnit c.die) pa 8).getD s := by
  unfold State.takePacket
  rw [hbGet_owned haddr howned]
  rfl

variable (haddr : s.hbAddr c.hbFor false (c.unit c.rd) = .ok pa) (hfree : s.owned (headboxUnit c.die) pa 8 = false)
include haddr hfree
theorem takePacket_invalid (hinvalid : hdrTag (s.rd8 pa) ≠ c.rd % 2 ^ 16 ∨ hdrType (s.rd8 pa) = 0) :
    s.takePacket n c = s.updQcb n fun c => { c with reread := some s.clock } := by
  unfold State.takePacket
  rw [hbGet_reads haddr hfree]
  exact if_pos hinvalid
theorem takePacket_badHeader {e : Nat} (htag : hdrTag (s.rd8 pa) = c.rd % 2 ^ 16) (htype : hdrType (s.rd8 pa) ≠ 0)
    (hbad : headerErr c (s.rd8 pa) = some e) : s.takePacket n c = s.haltQueue n e 0 c.rd := by
  unfold State.takePacket
  rw [hbGet_reads haddr hfree]
  simp only [hbad]
  exact if_neg (not_or.mpr ⟨not_not_intro htag, htype⟩)
end TakePacket

theorem updQcb_congr {s : State} {n : Nat} {c : Qcb} {f g : Qcb → Qcb} (hc : Tbl.find s.queues n = some c) (hfg : f c = g c) :
    s.updQcb n f = s.updQcb n g := by
  unfold State.updQcb Tbl.upd
  rw [hc]
  exact congrArg (fun e => { s with queues := Tbl.put s.queues n e }) hfg

section Lane
variable {s : State} {n : Nat} {c : Qcb} (hn : n ≠ safeQueue) (hc : Tbl.find s.queues n = some c)
include hn hc

theorem lane_idle (hidle : s.queueReady n c = false ∨ s.queueFirst n c = false) : exec (.headboxLaneTake n) s = .next s := by
  refine congrArg Host.Outcome.next ((if_neg hn).trans ?_)
  unfold State.laneTake
  rw [hc]
  exact if_pos (by rcases hidle with h | h <;> simp [h])
theorem reread_due {since : Nat} (hreread : c.reread = some since) (hdue : since + 1024 ≤ s.clock) :
    exec (.headerRereadTimeout n) s = .next (s.updQcb n fun c => { c with reread := none }) := by
  refine congrArg Host.Outcome.next ((if_neg hn).trans (updQcb_congr hc ?_))
  simp only [hreread]
  exact if_pos hdue
theorem reread_none (hreread : c.reread = none) : exec (.headerRereadTimeout n) s = .next (s.updQcb n id) := by
  refine congrArg Host.Outcome.next ((if_neg hn).trans (updQcb_congr hc ?_))
  simp only [hreread]
  rfl
end Lane

/-! ### The service of a packet (08, R205, R207) -/

/-- What serving comes to, once an access of the Headbox has answered. -/
def answered {α : Type} (s : State) (k : α → Served) : EngRes α → Served
  | .ok x => k x
  | .wait t => .stay t
  | .bad e d => .halts e d s

/-- Where serving comes to what an access of the Headbox answers, each answer has its outcome. -/
theorem answered_outcomes {α : Type} {s : State} {pk : Nat} {p : Packet} {i : Instr} {k : α → Served} {r : EngRes α}
    (hserves : exec i s = .next (p.served pk (answered s k r))) :
    (∀ x, r = .ok x → exec i s = .next (p.served pk (k x))) ∧ (∀ t, r = .wait t → exec i s = .next t) ∧
      (∀ e d, r = .bad e d → exec i s = .next ((s.dropPk pk).haltQueue p.queue e d p.idx)) := by
  refine ⟨fun x hr => ?_, fun t hr => ?_, fun e d hr => ?_⟩ <;> (subst hr; exact hserves)

/-- A choice of what serving comes to is a choice of what it leaves. -/
theorem served_ite (p : Packet) (pk : Nat) {b : Bool} {q : Prop} [Decidable q] (hq : b = true ↔ q) (x y : Served) :
    p.served pk (if b = true then x else y) = if q then p.served pk x else p.served pk y := by
  by_cases h : q
  · rw [if_pos (hq.mpr h), if_pos h]
  · rw [if_neg (mt hq.mp h), if_neg h]

theorem allZero_iff (l : List Nat) : allZero l = true ↔ ∀ x ∈ l, x = 0 := by
  unfold allZero
  simp
theorem someZero_iff (l : List Nat) : someZero l = true ↔ l = [] ∨ ∃ x ∈ l, x = 0 := by
  unfold someZero
  simp

/-- The update of a SIGNAL packet: a store, an add, or a subtract (08, R206). -/
def signalOp (p : Packet) : AOp × Nat :=
  if bits (pkWord p.words 0x18) 1 0 = 0 then (.exch, (pkWord p.words 0x10).toNat)
  else if bits (pkWord p.words 0x18) 1 0 = 1 then (.add, (pkWord p.words 0x10).toNat) else (.add, 2 ^ 64 - (pkWord p.words 0x10).toNat)
/-- The addresses that a BARRIER packet names (08, R206). -/
def barrierSignals (p : Packet) : List Nat :=
  ([8, 0x10, 0x18, 0x20, 0x28, 0x30].map fun o => (pkWord p.words o).toNat).filter (· != 0)
/-- The grid of a LAUNCH packet, for its queue. -/
def launchedGrid (pk : Nat) (p : Packet) (c : Qcb) : Grid :=
  { pkGrid p.words with part := c.part, spid := c.spid, sgen := c.sgen, packet := some pk }

section Serve
variable {s : State} {pk : Nat} {p : Packet} {c : Qcb} (hp : Tbl.find s.packets pk = some p) (hs : p.safe = false)
  (hc : Tbl.find s.queues p.queue = some c)
include hp hs hc

theorem serve_idle {typ : Nat} {k : Packet → Qcb → State → Served} (hstart : s.mayStart p c = false) (ht : p.typ = typ) :
    s.servePk pk typ k = s := by
  rw [serve_spec hp hs hc typ k ht, hstart]
  rfl
theorem serve_defers {typ : Nat} {k : Packet → Qcb → State → Served} (hstart : s.mayStart p c = true) (hwait : s.mustWait p c = true)
    (ht : p.typ = typ) : s.servePk pk typ k = s.updPk pk fun p => { p with st := .parked, since := 0 } := by
  rw [serve_spec hp hs hc typ k ht, hstart, hwait]
  rfl

variable (hstart : s.mayStart p c = true) (hnow : s.mustWait p c = false)
include hstart hnow

theorem serves {typ : Nat} {k : Packet → Qcb → State → Served} {o : Served} (ht : p.typ = typ) (ho : k p c s = o) :
    Host.Outcome.next (s.servePk pk typ k) = (.next (p.served pk o) : Out) := by
  rw [serve_now hp hs hc hstart hnow typ k ht, ho]
theorem nop_serves (ht : p.typ = 1) : exec (.nopPacket pk) s = .next (p.served pk (.done s)) := serves hp hs hc hstart hnow ht rfl
theorem quiesce_serves (ht : p.typ = 9) : exec (.quiesce pk) s = .next (p.served pk (.done s)) := serves hp hs hc hstart hnow ht rfl
theorem signal_serves (ht : p.typ = 2) : exec (.signal pk) s = .next (p.served pk
    (answered s .done (s.sigUpdate (c.hbFor pk) (pkWord p.words 8).toNat (signalOp p).1 (signalOp p).2))) := by
  refine serves hp hs hc hstart hnow ht ?_
  unfold signalOp
  generalize bits (pkWord p.words 0x18) 1 0 = op
  rcases op with _ | _ | op
  · simp only [if_pos]
    cases s.sigUpdate (c.hbFor pk) (pkWord p.words 8).toNat .exch (pkWord p.words 0x10).toNat <;> rfl
  · simp only [if_pos, if_neg (Nat.succ_ne_zero 0)]
    cases s.sigUpdate (c.hbFor pk) (pkWord p.words 8).toNat .add (pkWord p.words 0x10).toNat <;> rfl
  · simp only [if_neg (Nat.succ_ne_zero _), if_neg (show op + 1 + 1 ≠ 1 by omega)]
    cases s.sigUpdate (c.hbFor pk) (pkWord p.words 8).toNat .add (2 ^ 64 - (pkWord p.words 0x10).toNat) <;> rfl
theorem wait_serves (ht : p.typ = 3) : s.serveWait pk = p.served pk (answered s
    (fun x => if waitHolds (bits (pkWord p.words 0x18) 1 0) x (pkWord p.words 0x10).toNat = true then .done s else .parks s)
    (s.sigRead c.hbFor (pkWord p.words 8).toNat)) := by
  refine (serve_now hp hs hc hstart hnow 3 _ ht).trans (congrArg _ ?_)
  cases s.sigRead c.hbFor (pkWord p.words 8).toNat <;> rfl
theorem barrier_serves {typ : Nat} (ht : p.typ = typ) (holds : List Nat → Bool) : s.serveBarrier pk typ holds = p.served pk (answered s
    (fun l => if holds l = true then .done s else .parks s) (s.signalsOf c.hbFor (barrierSignals p))) := by
  refine (serve_now hp hs hc hstart hnow typ _ ht).trans (congrArg _ ?_)
  unfold barrierSignals
  cases s.signalsOf c.hbFor _ <;> rfl
theorem wait_outcomes (ht : p.typ = 3) :
    (∀ x, s.sigRead c.hbFor (pkWord p.words 8).toNat = .ok x → exec (.wait pk) s = .next
      (if waitHolds (bits (pkWord p.words 0x18) 1 0) x (pkWord p.words 0x10).toNat = true then p.served pk (.done s) else p.served pk (.parks s))) ∧
    (∀ t, s.sigRead c.hbFor (pkWord p.words 8).toNat = .wait t → exec (.wait pk) s = .next t) ∧
    (∀ e d, s.sigRead c.hbFor (pkWord p.words 8).toNat = .bad e d →
      exec (.wait pk) s = .next ((s.dropPk pk).haltQueue p.queue e d p.idx)) := by
  obtain ⟨hok, hwaits, hbad⟩ := answered_outcomes (i := .wait pk) (congrArg Host.Outcome.next (wait_serves hp hs hc hstart hnow ht))
  exact ⟨fun x hx => (hok x hx).trans (congrArg Host.Outcome.next (served_ite p pk Iff.rfl _ _)), hwaits, hbad⟩
/-- Both BARRIERs: `q` is what the signals have to meet, `i` the instruction that serves the packet. -/
theorem barrier_outcomes {typ : Nat} {i : Instr} {holds : List Nat → Bool} {q : List Nat → Prop} [∀ l, Decidable (q l)]
    (hq : ∀ l, holds l = true ↔ q l) (hi : exec i s = .next (s.serveBarrier pk typ holds)) (ht : p.typ = typ) :
    (∀ l, s.signalsOf c.hbFor (barrierSignals p) = .ok l → exec i s = .next (if q l then p.served pk (.done s) else p.served pk (.parks s))) ∧
    (∀ t, s.signalsOf c.hbFor (barrierSignals p) = .wait t → exec i s = .next t) ∧
    (∀ e d, s.signalsOf c.hbFor (barrierSignals p) = .bad e d → exec i s = .next ((s.dropPk pk).haltQueue p.queue e d p.idx)) := by
  obtain ⟨hok, hwaits, hbad⟩ := answered_outcomes (hi.trans (congrArg Host.Outcome.next (barrier_serves hp hs hc hstart hnow ht holds)))
  exact ⟨fun l hl => (hok l hl).trans (congrArg Host.Outcome.next (served_ite p pk (hq l) _ _)), hwaits, hbad⟩
theorem launchPacket_refused {d : Nat} (ht : p.typ = 6) (hfit : s.refusal (launchedGrid pk p c) = some d) :
    exec (.launchPacket pk) s = .next (p.served pk (.halts 6 d s)) := by
  refine serves hp hs hc hstart hnow ht ?_
  simp only
  rw [launchedGrid] at hfit
  rw [hfit]
theorem launchPacket_starts {a : Nat} {t : State} (ht : p.typ = 6) (hfit : s.refusal (launchedGrid pk p c) = none)
    (hcarry : (s.beginInterval c.spid 0 ((s.space c.spid).interval + 1#32) p.words).carryLaunch (launchedGrid pk p c) = .ok a t) :
    exec (.launchPacket pk) s = .next (p.served pk (.go t)) := by
  refine serves hp hs hc hstart hnow ht ?_
  simp only
  rw [launchedGrid] at hfit hcarry
  rw [hfit]
  simp only [hcarry]
theorem copy_starts (ht : p.typ = 7) (hfresh : p.st ≠ .started) : exec (.copy pk) s = .next (p.served pk (.go s)) := by
  refine (congrArg Host.Outcome.next ?_).trans (serves hp hs hc hstart hnow ht (k := fun _ _ s => .go s) rfl)
  rw [hp]
  simp [hs, hc, ht, hfresh]
theorem ckpt_starts (ht : p.typ = 8) (hfresh : p.st ≠ .started) (hmay : s.mayCkpt c.spid = true) : exec (.ckpt pk) s = .next (p.served pk
    (if (s.space c.spid).rcdNext.on = true then .go (s.beginSave c.spid (.ckpt (some pk) ((pkWord p.words 8).setWidth 32) 1) true)
      else .done (s.beginInterval c.spid 1 ((pkWord p.words 8).setWidth 32) []))) := by
  show execCkpt pk s = _
  unfold execCkpt
  rw [hp]
  simp only [Option.bind_some, hs, Bool.false_eq_true, if_false, hc, Option.map_some]
  rw [if_neg (not_not_intro ht), if_neg hfresh, if_neg (by simp [hmay])]
  exact serves hp hs hc hstart hnow ht rfl
end Serve

/-! ### COPY and CKPT packets that have started (08, R206; 03, R96; 17, R396) -/

section CopyPiece
variable {s : State} {pk : Nat} {p : Packet} {c : Qcb}

/-- Where the next bytes of a COPY packet come from and go to, and how many are left. -/
abbrev copySrc (p : Packet) : Nat := (pkWord p.words 8).toNat + p.pos
abbrev copyDst (p : Packet) : Nat := (pkWord p.words 0x10).toNat + p.pos
abbrev copyLeft (p : Packet) : Nat := bits (pkWord p.words 0x18) 39 0 - p.pos
/-- The bytes of the next piece. -/
abbrev pieceLen (p : Packet) : Nat := copyPiece (copySrc p) (copyDst p) (copyLeft p)

theorem pieceLen_eq_zero_iff : pieceLen p = 0 ↔ copyLeft p = 0 := by
  simp only [copyPiece]
  omega
theorem copyOnce_over (hleft : copyLeft p = 0) : s.copyOnce pk p c = .done s := if_pos (pieceLen_eq_zero_iff.mpr hleft)
theorem copyOnce_stays (hleft : 0 < copyLeft p) (hnot : s.spent c.part 6 (headboxUnit c.die) = true ∨ s.copyBehind p = true) :
    s.copyOnce pk p c = .stay s :=
  (if_neg (mt pieceLen_eq_zero_iff.mp (Nat.ne_of_gt hleft))).trans (if_pos (or_tt hnot))

variable (hleft : 0 < copyLeft p) (hbudget : s.spent c.part 6 (headboxUnit c.die) = false) (hfirst : s.copyBehind p = false)
include hleft hbudget hfirst

theorem copyOnce_badTarget {d : Nat} (hdst : s.hbAddr c.hbFor true (copyDst p) = .error d) : s.copyOnce pk p c = .halts 7 d s := by
  refine (if_neg (mt pieceLen_eq_zero_iff.mp (Nat.ne_of_gt hleft))).trans ((if_neg (or_ff hbudget hfirst)).trans ?_)
  rw [hdst]

variable {a b : Nat} (hdst : s.hbAddr c.hbFor true (copyDst p) = .ok b) (hsrc : s.hbAddr c.hbFor false (copySrc p) = .ok a)
  (hfree : s.owned (headboxUnit c.die) a (pieceLen p) = false)
include hdst hsrc hfree

theorem copyOnce_poisoned (hpoison : s.poisoned a (pieceLen p) = true) : s.copyOnce pk p c = .halts 7 0 s := by
  refine (if_neg (mt pieceLen_eq_zero_iff.mp (Nat.ne_of_gt hleft))).trans ((if_neg (or_ff hbudget hfirst)).trans ?_)
  rw [hdst]
  simp only
  rw [hbGet_reads hsrc hfree, if_pos hpoison]
theorem copyOnce_puts (hgood : s.poisoned a (pieceLen p) = false) : s.copyOnce pk p c = answered s
    (fun t => .go ((t.spend c.part 6 (headboxUnit c.die) (pieceLen p)).updPk pk fun x => { x with pos := x.pos + pieceLen p }))
    ((s.readsAt c.spid (.mem a)).hbPut (c.hbFor pk) (copyDst p) (s.rdBytes a (pieceLen p))) := by
  refine (if_neg (mt pieceLen_eq_zero_iff.mp (Nat.ne_of_gt hleft))).trans ((if_neg (or_ff hbudget hfirst)).trans ?_)
  rw [hdst]
  simp only
  rw [hbGet_reads hsrc hfree, if_neg (ne_true_of_eq_false hgood)]
  simp only
  cases (s.readsAt c.spid (.mem a)).hbPut (c.hbFor pk) (copyDst p) (s.rdBytes a (pieceLen p)) <;> rfl
end CopyPiece

section Started
variable {s : State} {pk : Nat} {p : Packet} {c : Qcb} (hp : Tbl.find s.packets pk = some p) (hs : p.safe = false)
  (hc : Tbl.find s.queues p.queue = some c) (hst : p.st = .started)
include hp hs hc hst

theorem copy_goes {q : Partition} (ht : p.typ = 7) (hq : Tbl.find s.parts c.part = some q) (hruns : q.halt = none) :
    exec (.copy pk) s = .next (p.served pk (s.copyOnce pk p c)) := by
  show execCopy pk s = _
  unfold execCopy
  simp [hp, hs, hc, ht, hst, hq, hruns]
theorem ckpt_over (ht : p.typ = 8) (hrun : ((s.finishSave c.spid).space c.spid).st = .running)
    (hnone : ((s.finishSave c.spid).space c.spid).saving = .none) (hkept : ((s.finishSave c.spid).space c.spid).saved = []) :
    exec (.ckpt pk) s = .next ((s.finishSave c.spid).finishPk pk) := by
  show execCkpt pk s = _
  unfold execCkpt
  simp [hp, hs, hc, ht, hst, hrun, hnone, hkept]
end Started

/-! ### Completion, and the retest of a parked condition (08, R206, R207) -/

/-- A packet has left its queue and counts in DONE. -/
def countDone (s : State) (pk queue : Nat) : State := ((s.dropPk pk).cacheQ queue).updQcb queue fun c => { c with done := c.done + 1 }

section Completion
variable {s : State} {pk : Nat} {p : Packet} {c : Qcb} (hp : Tbl.find s.packets pk = some p) (hs : p.safe = false)
  (hc : Tbl.find s.queues p.queue = some c)
include hp hs

theorem completion_eq : exec (.packetCompletion pk) s = .next (s.packetDone pk) := by
  show execPacketCompletion pk s = _
  unfold execPacketCompletion
  simp [hp, hs]

include hc

theorem completion_early (hst : p.st ≠ .finished) : exec (.packetCompletion pk) s = .next s := by
  rw [completion_eq hp hs]
  unfold State.packetDone
  simp [hp, hs, hc, hst]

variable (hst : p.st = .finished)
include hst

theorem completion_bad {e d : Nat} (hsub : s.csig (c.hbFor pk) (pkCsig p) = .bad e d) :
    exec (.packetCompletion pk) s = .next ((countDone s pk p.queue).haltQueue p.queue e d p.idx) := by
  rw [completion_eq hp hs]
  unfold State.packetDone
  simp [hp, hs, hc, hst, hsub, countDone]
theorem completion_waits {t : State} (hsub : s.csig (c.hbFor pk) (pkCsig p) = .wait t) : exec (.packetCompletion pk) s = .next t := by
  rw [completion_eq hp hs]
  unfold State.packetDone
  simp [hp, hs, hc, hst, hsub]
theorem completion_counts {t : State} (ht : p.typ ≠ 9) (hsub : s.csig (c.hbFor pk) (pkCsig p) = .ok t) :
    exec (.packetCompletion pk) s = .next (countDone t pk p.queue) := by
  rw [completion_eq hp hs]
  unfold State.packetDone
  simp [hp, hs, hc, hst, hsub, ht, countDone]
theorem completion_quiesces {t : State} {c2 : Qcb} (ht : p.typ = 9) (hsub : s.csig (c.hbFor pk) (pkCsig p) = .ok t)
    (hc2 : Tbl.find (countDone t pk p.queue).queues p.queue = some c2) (hactive : c2.st = .active) :
    exec (.packetCompletion pk) s = .next ((countDone t pk p.queue).putQcb p.queue { c2 with st := .quiesced } false) := by
  rw [countDone] at hc2 ⊢
  rw [completion_eq hp hs]
  unfold State.packetDone
  simp [hp, hs, hc, hst, hsub, ht, hc2, hactive]
end Completion

section Retest
variable {s : State} {pk : Nat} {p : Packet} (hp : Tbl.find s.packets pk = some p)
include hp

theorem waitRetest_early (hearly : s.clock + 1 < p.since + 2048) : exec (.waitRetest pk) s = .next s := by
  show execWaitRetest pk s = _
  unfold execWaitRetest
  rw [hp]
  exact congrArg Host.Outcome.next (if_neg (by simp; omega))
theorem waitRetest_due (hst : p.st = .parked) (hsince : p.since ≠ 0) (hdue : p.since + 2048 ≤ s.clock + 1) :
    (p.typ = 3 → exec (.waitRetest pk) s = .next ((s.updPk pk fun p => { p with since := 0 }).serveWait pk)) ∧
    (p.typ = 4 → exec (.waitRetest pk) s = .next ((s.updPk pk fun p => { p with since := 0 }).serveBarrier pk 4 allZero)) ∧
    (p.typ = 5 → exec (.waitRetest pk) s = .next ((s.updPk pk fun p => { p with since := 0 }).serveBarrier pk 5 someZero)) := by
  refine ⟨fun ht => ?_, fun ht => ?_, fun ht => ?_⟩ <;>
    (show execWaitRetest pk s = _; unfold execWaitRetest; simp [hp, hst, hsince, hdue, ht])
end Retest

/-- Settles O54: one law per event of a queue and per type of packet. -/
theorem queueSteps : Obligations.QueueSteps := by
  unfold Obligations.QueueSteps
  intro s does finished started parked
  refine ⟨fun hwq v => doorbell_ignored, fun hwq v n c => doorbell_spec, fun n c hn hc => ⟨lane_idle hn hc, ?_,
    fun err det idx hst hall => haltQueue_found hc hst hall err det idx, fun _ => reread_due hn hc, reread_none hn hc⟩, fun pk p c hp hs hc =>
    ⟨fun hstart hst => ?_, fun hstart hwait => ?_, fun hstart hnow => ?_, fun q ht hst hq hruns => ?_, fun ht hst => ckpt_over hp hs hc hst ht,
    fun hst _ => ?_, fun hst hsince => ⟨waitRetest_early hp, waitRetest_due hp hst hsince⟩⟩⟩
  · intro hready hfirst hcached r
    have htakes {t : State} (ht : r.takePacket n c = t) : does (.headboxLaneTake n) t :=
      (lane_take hn hc hready hfirst hcached).trans (congrArg Host.Outcome.next ht)
    exact ⟨fun d haddr => htakes (takePacket_untranslated (s := r) haddr), fun pa haddr howned => htakes (takePacket_owned (s := r) haddr howned),
      fun pa haddr hfree => ⟨fun hinvalid => htakes (takePacket_invalid (s := r) haddr hfree hinvalid),
        fun e htag htype hbad => htakes (takePacket_badHeader (s := r) haddr hfree htag htype hbad),
        fun us htag htype hgood hus => take_good hn hc hready hfirst hcached haddr hfree htag htype hgood hus⟩⟩
  · have hidle {typ : Nat} (k : Packet → Qcb → State → Served) (ht : p.typ = typ) :=
      congrArg (Host.Outcome.next : State → Out) (serve_idle hp hs hc (k := k) hstart ht)
    exact ⟨completion_early hp hs hc hst, hidle _, hidle _, hidle _, hidle _⟩
  · have hdefers {typ : Nat} (k : Packet → Qcb → State → Served) (ht : p.typ = typ) :=
      congrArg (Host.Outcome.next : State → Out) (serve_defers hp hs hc (k := k) hstart hwait ht)
    exact ⟨hdefers _, hdefers _, hdefers _, hdefers _, hdefers _, hdefers _, hdefers _⟩
  · exact ⟨nop_serves hp hs hc hstart hnow, quiesce_serves hp hs hc hstart hnow,
      fun ht => answered_outcomes (signal_serves hp hs hc hstart hnow ht), wait_outcomes hp hs hc hstart hnow,
      barrier_outcomes hp hs hc hstart hnow allZero_iff rfl, barrier_outcomes hp hs hc hstart hnow someZero_iff rfl,
      fun ht => ⟨fun d => launchPacket_refused hp hs hc hstart hnow ht, fun a t => launchPacket_starts hp hs hc hstart hnow ht⟩,
      copy_starts hp hs hc hstart hnow, fun ht hfresh hmay =>
        (ckpt_starts hp hs hc hstart hnow ht hfresh hmay).trans (congrArg Host.Outcome.next (served_ite p pk Iff.rfl _ _))⟩
  · have hgoes {o : Served} (ho : s.copyOnce pk p c = o) :=
      (copy_goes hp hs hc hst ht hq hruns).trans (congrArg (fun o => (.next (p.served pk o) : Out)) ho)
    refine ⟨fun hleft => hgoes (copyOnce_over hleft), fun hleft hnot => hgoes (copyOnce_stays hleft hnot), fun hleft hbudget hfirst =>
      ⟨fun d hdst => hgoes (copyOnce_badTarget hleft hbudget hfirst hdst), fun a b hdst hsrc hfree => ?_⟩⟩
    have hputs (hgood : s.poisoned a (pieceLen p) = false) :=
      answered_outcomes (hgoes (copyOnce_puts hleft hbudget hfirst hdst hsrc hfree hgood))
    exact ⟨fun hpoison => hgoes (copyOnce_poisoned hleft hbudget hfirst hdst hsrc hfree hpoison), fun t hgood => (hputs hgood).1 t,
      fun t hgood => (hputs hgood).2.1 t⟩
  · exact ⟨fun t ht => completion_counts hp hs hc hst ht, fun t => completion_waits hp hs hc hst, fun e d => completion_bad hp hs hc hst,
      fun t c2 ht => completion_quiesces hp hs hc hst ht⟩
end Sys2Proof.Proofs
end

section
/-! Encodings (09, R219 to R237): what a word decodes to, and the words that the spec writes out. -/

namespace Sys2Proof.Proofs
open Sys2Proof.Machine Sys2Proof.Laws

/-- A word is its instruction's only where that is well formed (R237, order 1). -/
theorem decode_eq_some_iff {w : W64} {i : Instr} : decode w = some i ↔ decodeRaw w = some i ∧ i.wellFormed = true := by
  unfold decode
  cases decodeRaw w with
  | none => simp
  | some j =>
    simp only [Option.ite_none_right_eq_some, Option.some.injEq]
    exact ⟨fun ⟨hwf, hij⟩ => ⟨hij, hij ▸ hwf⟩, fun ⟨hij, hwf⟩ => ⟨hij ▸ hwf, hij⟩⟩

theorem decode_encode {i : Instr} (hwf : i.wellFormed = true) : decode (encode i) = some i :=
  decode_eq_some_iff.mpr ⟨decodeRaw_encode i hwf, hwf⟩

/-- A word that a well-formed instruction encodes to decodes to it. -/
theorem decode_of_encode {w : W64} {i : Instr} (hwf : i.wellFormed = true) (hw : encode i = w) : decode w = some i :=
  hw ▸ decode_encode hwf

/-- Settles O42: decoding undoes encoding before the check of the fields, and what decodes has passed that check. -/
theorem roundTrip : Obligations.RoundTrip := by
  unfold Obligations.RoundTrip
  exact ⟨fun _ => decode_encode, fun _ _ hdec => (decode_eq_some_iff.mp hdec).2⟩

/-- Settles O41: each word is the encoding of its instruction; the zero word has no operation of its class, the last word no class. -/
theorem decodeWords : Obligations.DecodeWords := by
  unfold Obligations.DecodeWords
  have hpair : ∃ x y, decode 0x810100A011048183#64 = some (.pairedWord false x y) :=
    ⟨⟨.iadd, .v 4, .v 5, 0#6⟩, ⟨.shl, .v 9, .v 6, 3#6⟩, decode_of_encode rfl rfl⟩
  refine ⟨?_, ?_, ?_, ?_, ?_, ?_, ?_, ?_, ?_, ?_, ?_, ?_, ?_, ?_, ?_, ?_, ?_, ?_, ?_, ?_, hpair, rfl, rfl⟩ <;>
    exact decode_of_encode rfl rfl

end Sys2Proof.Proofs
end

section
/-! Loads (12, R294 to R296; 09, R230): LD and LDS ask for their lanes' accesses, and asking writes nothing. -/

namespace Sys2Proof.Proofs
open Sys2Proof.Machine Sys2Proof.Laws

/-- Lanes that all reach their places perform there, whatever access code each has. -/
theorem accessAs_reaches {s : State} {w : Word} {i : Instr} {m : MemOp} {once : Bool} {acc : Acc} {code : Nat → Nat} {n : Nat}
    {k : List LaneTr → Eff} (hreach : s.reaches w acc n (w.eas i m)) :
    s.accessAs w once acc code n (w.addrs (onceOf i) m) k = k (s.places w acc n (w.eas i m)) := by
  rw [addrs_eq]
  exact accessAs_ok hreach

/-- The same of places in the gang's local stores. -/
theorem withLanes_localPlaces {s : State} {w : Word} {i : Instr} {m : MemOp} {once : Bool} {acc : Acc} {n : Nat}
    {k : List LaneTr → Eff} (hok : allOk (s.localPlaces w acc n (w.eas i m))) :
    s.withLanes w once acc ((w.addrs (onceOf i) m).map (s.localTr w acc n)) k = k (s.localPlaces w acc n (w.eas i m)) := by
  rw [addrs_eq]
  exact withLanes_ok hok

section Asking
variable {h : Hdr} {d : Reg} {m : MemOp}

theorem ld_performs : Performs (.ld h d m) (fun s w => w.g.tx = [] ∧ s.reaches w .load m.sz.bytes (w.eas (.ld h d m) m))
    (fun w s => s.asked w (.ld h d m) d m (s.places w .load m.sz.bytes (w.eas (.ld h d m) m))) := by
  refine performs_of _ (fun _ => rfl) fun _ _ hfound hc => ?_
  obtain ⟨htx, hreach⟩ := hc
  exact (accessAs_reaches (i := .ld h d m) hreach).trans (loadFrom_plain (i := .ld h d m) hfound htx rfl)

theorem lds_performs : Performs (.lds h d m)
    (fun s w => w.g.tx = [] ∧ allOk (s.localPlaces w .load m.sz.bytes (w.eas (.lds h d m) m)))
    (fun w s => s.asked w (.lds h d m) d m (s.localPlaces w .load m.sz.bytes (w.eas (.lds h d m) m))) := by
  refine performs_of _ (fun _ => rfl) fun _ _ hfound hc => ?_
  obtain ⟨htx, hok⟩ := hc
  exact (withLanes_localPlaces (i := .lds h d m) hok).trans (loadFrom_plain (i := .lds h d m) hfound htx rfl)

theorem asked_unwritten {s : State} {w : Word} {i : Instr} {l : List LaneTr} (hg : Tbl.find s.groups w.gs = some w.g) :
    Unwritten s (s.asked w i d m l) w := by
  unfold State.asked
  exact unwritten_pend (unwritten_kept (unwritten_refl hg) ((kept_l1Serve s _).trans (kept_putReq _ _))) _
end Asking

/-- Settles O20: a load whose lanes translate performs its request, and that writes nothing. -/
theorem loads : Obligations.Loads := by
  unfold Obligations.Loads
  exact fun h d m => ⟨ld_performs, lds_performs, fun s w i l => asked_unwritten⟩

end Sys2Proof.Proofs
end

section
/-! Paired words (09, R232 to R234): each slot's writes hold what the slot gives, and neither slot disturbs the other's. -/

namespace Sys2Proof.Proofs
open Sys2Proof.Machine Sys2Proof.Laws

/-! ### What a slot accepts and gives -/

theorem slotOk_shift {z : Slot} (hz : z.ok = true) (hop : z.op = .shl ∨ z.op = .shr ∨ z.op = .sar ∨ z.op = .rotl) : z.k.toNat < 32 := by
  unfold Slot.ok at hz
  simp only [Bool.and_eq_true] at hz
  obtain ⟨⟨hk, -⟩, -⟩ := hz
  rcases hop with hop | hop | hop | hop <;> simpa only [hop, decide_eq_true_eq] using hk
theorem slotOk_noQueue {z : Slot} (hz : z.ok = true) : z.d.isQ = false := by
  unfold Slot.ok at hz
  simp only [Bool.and_eq_true, Bool.not_eq_true'] at hz
  obtain ⟨⟨-, hd⟩, -⟩ := hz
  exact hd

/-- A slot's register is 32 bits wide, so reading it loses nothing. -/
theorem slotReg_toNat (w : Word) (r : Reg) (L : Nat) : (w.slotReg r L).toNat = w.reg (u32 r) [] L :=
  Nat.mod_eq_of_lt (reg_lt32 w (u32 r) [] L rfl)

theorem slotOp_pairValue (w : Word) {z : Slot} (hz : z.ok = true) (L : Nat) :
    BitVec.ofNat 32 (slotOp z (w.reg (u32 z.d) [] L) (w.reg (u32 z.a) [] L)) =
      pairValue z.op z.k (w.slotReg z.d L) (w.slotReg z.a L) := by
  rw [← slotReg_toNat, ← slotReg_toNat]
  exact slotOp_eq z _ _ (slotOk_shift hz)

theorem slotWs_noPush (w : Word) {z : Slot} (hz : z.ok = true) : NoPush (w.slotWs z) := by
  rintro r hr q n vals rfl
  rcases put_kinds w (u32 z.d) _ _ hr with ⟨_, _, _, he, _⟩ | ⟨_, _, he, _⟩ | ⟨_, _, _, _, k, hk⟩
  · cases he
  · cases he
  · have hq := slotOk_noQueue hz
    rw [show z.d = .q k from hk] at hq
    cases hq

/-! ### The writes of both slots -/

/-- The group `g` holds, in the slot's destination, what the slot gives from the registers as the word found them. -/
def SlotGave (w : Word) (g : Group) (z : Slot) : Prop :=
  match z.d with
  | .v n => ∀ L, L < 32 → inMask w.act L = true → g.vget n.val L = pairValue z.op z.k (w.slotReg z.d L) (w.slotReg z.a L)
  | .s n => w.act ≠ 0#32 → g.sget n.val = (pairValue z.op z.k (w.slotReg z.d 0) (w.slotReg z.a 0)).setWidth 64
  | _ => True

/-- A slot's own writes leave in its destination what it gives. -/
theorem slotGave_own (w : Word) (g : Group) {z : Slot} (hz : z.ok = true) (hsel : ∀ e, z.d ≠ .sel e) :
    SlotGave w (g.writes (w.slotWs z)) z := by
  have hown := slot_last w g z hsel (slotOp_pairValue w hz)
  unfold slotHolds at hown
  unfold SlotGave
  cases hd : z.d <;> simp only [hd] at hown ⊢ <;> exact hown

/-- Destinations in different banks are different registers (R233, rule 1). -/
theorem pairOk_banks {x y : Slot} (hp : pairOk x y = true) {a b : Nat} (hx : bankOf x.d = some a) (hy : bankOf y.d = some b) : a ≠ b := by
  unfold pairOk at hp
  simp only [hx, hy, Bool.and_eq_true, bne_iff_ne] at hp
  exact hp.1

theorem pairOk_otherV {x y : Slot} (hp : pairOk x y = true) {n : Fin 384} (hd : x.d = .v n) : n.val ∉ (u32 y.d).vregs := by
  intro hn
  cases he : y.d with
  | v k =>
    rw [he] at hn
    have hk : n.val = k.val := List.mem_singleton.mp hn
    exact pairOk_banks hp (by rw [hd]; rfl) (by rw [he]; rfl) (by rw [hk])
  | _ => rw [he] at hn; cases hn
theorem pairOk_otherS {x y : Slot} (hp : pairOk x y = true) {n : Fin 64} (hd : x.d = .s n) : n.val ∉ (u32 y.d).sregs := by
  intro hn
  cases he : y.d with
  | s k => exact pairOk_banks hp (by rw [hd]; rfl) (by rw [he]; rfl) rfl
  | _ => rw [he] at hn; cases hn

/-- The second slot's writes leave the first one's destination. -/
theorem slotGave_other {w : Word} {g : Group} {x y : Slot} (hp : pairOk x y = true) (hx : SlotGave w g x) :
    SlotGave w (g.writes (w.slotWs y)) x := by
  unfold SlotGave at hx ⊢
  cases hd : x.d with
  | v n =>
    simp only [hd] at hx ⊢
    exact fun L hL hact => (put_other_v w (u32 y.d) _ g n.val L hL (pairOk_otherV hp hd)).trans (hx L hL hact)
  | s n =>
    simp only [hd] at hx ⊢
    exact fun hact => (put_other_s w (u32 y.d) _ g n.val (pairOk_otherS hp hd)).trans (hx hact)
  | _ => trivial

/-- Writes that keep what is no destination do so one after the other. -/
theorem keeps_append {w : Word} {f : Info} {a b : List RegW} (ha : w.Keeps f a)
    (hb : Word.Keeps { w with g := w.g.writes a } f b) : w.Keeps f (a ++ b) := by
  refine ⟨fun n L hL hn => ?_, fun n hn => ?_, fun p L hL hn => ?_⟩ <;> rw [writes_append]
  · exact (hb.v n L hL hn).trans (ha.v n L hL hn)
  · exact (hb.s n hn).trans (ha.s n hn)
  · exact (hb.p p L hL hn).trans (ha.p p L hL hn)

theorem slotWs_keeps {w : Word} {f : Info} {z : Slot} (g : Group) (hdst : u32 z.d ∈ f.dst) :
    Word.Keeps { w with g } f (w.slotWs z) :=
  put_keeps { w with g } (u32 z.d) _ f hdst

/-- Settles O16: the first slot's writes hold what it gives, the second slot writes in another bank, and both read the word's own registers. -/
theorem pairedWord : Obligations.PairedWord := by
  unfold Obligations.PairedWord
  intro sw x y s f w hgoes
  obtain rfl := Option.some.inj hgoes.info
  obtain ⟨hx, hy⟩ : x.ok = true ∧ y.ok = true := Bool.and_eq_true_iff.mp (info_ok hgoes)
  have hdstX : u32 x.d ∈ [u32 x.d, u32 y.d] := .head _
  have hdstY : u32 y.d ∈ [u32 x.d, u32 y.d] := .tail _ (.head _)
  have hpush : NoPush (w.slotWs x ++ w.slotWs y) := fun r hr =>
    (List.mem_append.mp hr).elim (slotWs_noPush w hx r) (slotWs_noPush w hy r)
  obtain ⟨t, hperf⟩ := alu_performed hgoes (fun w => w.slotWs x ++ w.slotWs y) (fun _ => rfl) rfl (.inl hpush)
  have hgaveX : SlotGave w (w.g.writes (w.slotWs x ++ w.slotWs y)) x := by
    rw [writes_append]
    exact slotGave_other hgoes.pairs (slotGave_own w w.g hx (dst_not_sel hgoes.formed hgoes.info hdstX))
  have hgaveY : SlotGave w (w.g.writes (w.slotWs x ++ w.slotWs y)) y := by
    rw [writes_append]
    exact slotGave_own w _ hy (dst_not_sel hgoes.formed hgoes.info hdstY)
  refine ⟨t, _, hperf, keeps_append (slotWs_keeps w.g hdstX) (slotWs_keeps _ hdstY), fun z hz => ?_⟩
  rcases List.mem_cons.mp hz with rfl | hlast
  · exact hgaveX
  · obtain rfl := List.mem_singleton.mp hlast
    exact hgaveY

end Sys2Proof.Proofs
end

section
/-! Integer words (10, R245 to R251, R256): an operation of integers, reduced to the width of its type, is the operation of bit vectors
that a statement names; a word that writes such a result computes it. -/

namespace Sys2Proof.Proofs
open Sys2Proof.Machine Sys2Proof.Laws

/-! ### The words that write in the role of a type -/

section Ty
variable {i : Instr} {f : Info} {ty : Ty} {d : Reg}

/-- What a word writes as an integer, the destination holds as bits of the type's width. -/
theorem putTy_computes {op : Word → Nat → Int} (val : Word → Nat → BitVec ty.bits) (hinfo : i.info = some f) (hdst : uty ty d ∈ f.dst)
    (hexec : ∀ s, exec i s = alu i (fun w => w.putTy ty d (op w)) s) (htx : ∀ w x, op { w with g := { w.g with tx := x } } = op w)
    (hval : ∀ w L, BitVec.ofInt ty.bits (op w L) = val w L) : Computes i (uty ty d) (fun w L => widened ty (val w L)) :=
  computes hinfo hdst (val' := fun w L => tyRes ty (op w L)) hexec (fun w x => by rw [htx w x])
    fun _ w _ L _ => by rw [tyRes_eq, hval]

/-- `op` on the integers that two operands stand for gives what `bop` gives on their bits. -/
def Agrees (ty : Ty) (op : Int → Int → Int) (bop : BitVec ty.bits → BitVec ty.bits → BitVec ty.bits) : Prop :=
  ∀ x y, BitVec.ofInt ty.bits (op (tyInt ty x) (tyInt ty y)) = bop x y

variable {op : Int → Int → Int} {bop : BitVec ty.bits → BitVec ty.bits → BitVec ty.bits}

theorem int2_computes (hop : Agrees ty op bop) (hinfo : i.info = some f) (hdst : uty ty d ∈ f.dst)
    (hexec : ∀ s, exec i s = int2 i ty d op s) :
    Computes i (uty ty d) (fun w L => widened ty (bop (w.opnd ty 0 L) (w.opnd ty 1 L))) :=
  putTy_computes _ hinfo hdst hexec (fun _ _ => rfl) fun w L => by rw [int_eq, int_eq, hop]

theorem intI_computes {imm : BitVec 22} (hop : Agrees ty op bop) (hinfo : i.info = some f) (hdst : uty ty d ∈ f.dst)
    (hexec : ∀ s, exec i s = intI i ty d imm op s) :
    Computes i (uty ty d) (fun w L => widened ty (bop (w.opnd ty 0 L) (immOf ty imm))) :=
  putTy_computes _ hinfo hdst hexec (fun _ _ => rfl) fun w L => by rw [int_eq, immVal_eq, hop]

theorem int1_computes {op : Int → Int} {bop : BitVec ty.bits → BitVec ty.bits}
    (hop : ∀ x, BitVec.ofInt ty.bits (op (tyInt ty x)) = bop x) (hinfo : i.info = some f) (hdst : uty ty d ∈ f.dst)
    (hexec : ∀ s, exec i s = int1 i ty d op s) : Computes i (uty ty d) (fun w L => widened ty (bop (w.opnd ty 0 L))) :=
  putTy_computes _ hinfo hdst hexec (fun _ _ => rfl) fun w L => by rw [int_eq, hop]

/-- A word that accepts types of 32 and 64 bits only extends nothing. -/
theorem computes_unwidened {val : Word → Nat → BitVec ty.bits} (hinfo : i.info = some f) (hword : f.ok = true → ty.isWord = true)
    (h : Computes i (uty ty d) (fun w L => widened ty (val w L))) : Computes i (uty ty d) (fun w L => (val w L).toNat) := by
  intro s f' w hgoes
  obtain rfl : f = f' := Option.some.inj (hinfo.symm.trans hgoes.info)
  have hfull := word_widened (hword (info_ok hgoes))
  simpa only [hfull] using h s f w hgoes
end Ty

/-! ### Sums and products -/

theorem agrees_add (ty : Ty) : Agrees ty (· + ·) (· + ·) := fun x y => by
  rw [BitVec.ofInt_add, ofInt_tyInt, ofInt_tyInt]
theorem agrees_sub (ty : Ty) : Agrees ty (· - ·) (· - ·) := fun x y => by
  rw [ofInt_sub, ofInt_tyInt, ofInt_tyInt]
theorem agrees_mul (ty : Ty) : Agrees ty (· * ·) (· * ·) := fun x y => by
  rw [BitVec.ofInt_mul, ofInt_tyInt, ofInt_tyInt]

/-- An integer clamped to the range of a type (10, R247 "Sat"). -/
def clamp (ty : Ty) (x : Int) : Int :=
  let lo : Int := if ty.isSigned then -2 ^ (ty.bits - 1) else 0
  let hi : Int := if ty.isSigned then 2 ^ (ty.bits - 1) - 1 else 2 ^ ty.bits - 1
  if x < lo then lo else if hi < x then hi else x
theorem tySat_clamp (ty : Ty) (x : Int) : tySat ty x = clamp ty x := tySat_eq ty x

theorem agrees_adds (ty : Ty) : Agrees ty (fun x y => tySat ty (x + y))
    (fun x y => BitVec.ofInt ty.bits (clamp ty (tyInt ty x + tyInt ty y))) := fun _ _ => congrArg _ (tySat_clamp ty _)
theorem agrees_subs (ty : Ty) : Agrees ty (fun x y => tySat ty (x - y))
    (fun x y => BitVec.ofInt ty.bits (clamp ty (tyInt ty x - tyInt ty y))) := fun _ _ => congrArg _ (tySat_clamp ty _)

theorem imad_computes (h : Hdr) (d a b c : Reg) (ty : Ty) : Computes (.imad h d a b c ty) (uty ty d)
    (fun w L => widened ty (w.opnd ty 0 L * w.opnd ty 1 L + w.opnd ty 2 L)) :=
  putTy_computes _ rfl (.head _) (fun _ => rfl) (fun _ _ => rfl) fun w L => by
    rw [BitVec.ofInt_add, BitVec.ofInt_mul, ofInt_int, ofInt_int, ofInt_int]

/-- IABS is of signed types only (10, R247), so the magnitude of the integer is that of the bits. -/
theorem iabs_computes (h : Hdr) (d a : Reg) (ty : Ty) : Computes (.iabs h d a ty) (uty ty d)
    (fun w L => widened ty (w.opnd ty 0 L).abs) := by
  refine computes rfl (.head _) (val' := fun w L => tyRes ty ((w.int ty 0 L).natAbs : Int)) (fun _ => rfl) (fun _ _ => rfl) ?_
  intro s w hgoes L _
  have hsigned : ty.isSigned = true := (Bool.and_eq_true_iff.mp (info_ok hgoes)).2
  rw [tyRes_eq, int_eq, tyInt, if_pos hsigned, ofInt_abs]

theorem ineg_computes (h : Hdr) (d a : Reg) (ty : Ty) : Computes (.ineg h d a ty) (uty ty d)
    (fun w L => widened ty (-(w.opnd ty 0 L))) :=
  int1_computes (bop := fun x => -x) (fun x => by rw [BitVec.ofInt_neg, ofInt_tyInt]) rfl (.head _) fun _ => rfl

/-- Settles O1: each word's operation agrees with the exact one, reduced or clamped. (`apply`: the operation on bits comes from the
`Agrees` law, not from the goal.) -/
theorem integerSums : Obligations.IntegerSums := by
  unfold Obligations.IntegerSums
  refine ⟨fun h d a b c imm ty => ⟨?iadd, ?iaddRri, ?isub, ?isubRri, ?imul, ?imulRri, imad_computes h d a b c ty, iabs_computes h d a ty,
    ineg_computes h d a ty⟩, fun h d a b imm ty => ⟨?iadds, ?iaddsRri, ?isubs, ?isubsRri⟩⟩
  case iadd => apply int2_computes (agrees_add ty) rfl (.head _) fun _ => rfl
  case iaddRri => apply intI_computes (agrees_add ty) rfl (.head _) fun _ => rfl
  case isub => apply int2_computes (agrees_sub ty) rfl (.head _) fun _ => rfl
  case isubRri => apply intI_computes (agrees_sub ty) rfl (.head _) fun _ => rfl
  case imul => apply int2_computes (agrees_mul ty) rfl (.head _) fun _ => rfl
  case imulRri => apply intI_computes (agrees_mul ty) rfl (.head _) fun _ => rfl
  case iadds => apply int2_computes (agrees_adds ty) rfl (.head _) fun _ => rfl
  case iaddsRri => apply intI_computes (agrees_adds ty) rfl (.head _) fun _ => rfl
  case isubs => apply int2_computes (agrees_subs ty) rfl (.head _) fun _ => rfl
  case isubsRri => apply intI_computes (agrees_subs ty) rfl (.head _) fun _ => rfl

/-! ### Quotients and wide products -/

theorem agrees_idiv (ty : Ty) : Agrees ty idivOp
    (fun x y => if y = 0 then BitVec.allOnes _ else if ty.isSigned then x.sdiv y else x.udiv y) := idiv_eq ty
theorem agrees_irem (ty : Ty) : Agrees ty iremOp (fun x y => if y = 0 then x else if ty.isSigned then x.srem y else x.umod y) :=
  irem_eq ty

/-- An operand extended to any width stands for the same integer, reduced. -/
theorem ofInt_extended (ty : Ty) (n : Nat) (x : BitVec ty.bits) :
    BitVec.ofInt n (tyInt ty x) = if ty.isSigned then x.signExtend n else x.setWidth n := by
  unfold tyInt
  split
  · rfl
  · exact (BitVec.ofInt_natCast n _).trans (BitVec.ofNat_toNat n x)

/-- So the exact product, reduced, is the product of the extended operands. -/
theorem ofInt_product (ty : Ty) (n : Nat) (x y : BitVec ty.bits) : BitVec.ofInt n (tyInt ty x * tyInt ty y) =
    if ty.isSigned then x.signExtend n * y.signExtend n else x.setWidth n * y.setWidth n := by
  rw [BitVec.ofInt_mul, ofInt_extended, ofInt_extended]
  split <;> rfl

/-- The high half of an integer of 2n bits. -/
theorem ofInt_high (n : Nat) (z : Int) : BitVec.ofInt n (z / (2 ^ n : Nat)) = (BitVec.ofInt (2 * n) z).extractLsb' n n := by
  have hpos : 0 < 2 ^ (2 * n) := Nat.two_pow_pos (2 * n)
  have hwide : (0 : Int) ≤ z % ((2 ^ (2 * n) : Nat) : Int) := Int.emod_nonneg z (by omega)
  apply BitVec.eq_of_toNat_eq
  rw [BitVec.toNat_ofInt, BitVec.extractLsb'_toNat, BitVec.toNat_ofInt, Nat.shiftRight_eq_div_pow, ← emod_div]
  obtain ⟨k, hk⟩ := Int.eq_ofNat_of_zero_le hwide
  rw [hk]
  norm_cast

theorem agrees_imulh (ty : Ty) : Agrees ty (imulhOp ty) (fun x y =>
    (if ty.isSigned then x.signExtend (2 * ty.bits) * y.signExtend (2 * ty.bits)
      else x.setWidth (2 * ty.bits) * y.setWidth (2 * ty.bits)).extractLsb' ty.bits ty.bits) := fun x y => by
  rw [imulhOp, ofInt_high, ofInt_product]

/-- A 32-bit operand in the 64 bits of IMADW and LEA. -/
theorem opnd32_extended {ty : Ty} (h32 : ty.is32 = true) (w : Word) (k L : Nat) :
    BitVec.ofInt 64 (w.int ty k L) = if ty.isSigned then (w.opnd32 k L).signExtend 64 else (w.opnd32 k L).setWidth 64 := by
  rw [int_eq, ofInt_extended]
  cases ty with
  | s32 | l32 => rfl
  | _ => cases h32

theorem ofInt_src64 (w : Word) (k L : Nat) : BitVec.ofInt 64 (w.src k L : Int) = w.opnd64 k L := BitVec.ofInt_natCast 64 _

theorem imadw_computes (h : Hdr) (d a b c : Reg) (ty : Ty) : Computes (.imadw h d a b c ty) (u64 d) (fun w L =>
    let x := w.opnd32 0 L
    let y := w.opnd32 1 L
    ((if ty.isSigned then x.signExtend 64 * y.signExtend 64 else x.setWidth 64 * y.setWidth 64) + w.opnd64 2 L).toNat) := by
  refine computes rfl (.head _)
    (val' := fun w L => (BitVec.ofInt 64 (w.int ty 0 L * w.int ty 1 L + (w.src 2 L : Int))).toNat) (fun _ => rfl) (fun _ _ => rfl) ?_
  intro s w hgoes L _
  have h32 : ty.is32 = true := info_ok hgoes
  rw [BitVec.ofInt_add, BitVec.ofInt_mul, opnd32_extended h32, opnd32_extended h32, ofInt_src64]
  cases ty.isSigned <;> rfl

/-- Settles O2: quotient and remainder agree with those of bit vectors, and the wide products are of extended operands. -/
theorem integerDivision : Obligations.IntegerDivision := by
  unfold Obligations.IntegerDivision
  refine fun h d a b c ty => ⟨?idiv, ?irem, ?imulh, imadw_computes h d a b c ty⟩
  case idiv => apply int2_computes (agrees_idiv ty) rfl (.head _) fun _ => rfl
  case irem => apply int2_computes (agrees_irem ty) rfl (.head _) fun _ => rfl
  case imulh => apply computes_unwidened rfl id (int2_computes (agrees_imulh ty) rfl (.head _) fun _ => rfl)

/-! ### Order -/

theorem agrees_min (ty : Ty) : Agrees ty min (fun x y => if compared .lt ty.isSigned x y then x else y) := ofInt_min ty
theorem agrees_max (ty : Ty) : Agrees ty max (fun x y => if compared .gt ty.isSigned x y then x else y) := ofInt_max ty

section Compare
variable {h : Hdr} {d a b : Reg} {p : Pred} {imm : BitVec 22} {cc : Cmp} {ty : Ty}

theorem int_compared (w : Word) (L : Nat) :
    cmpHolds cc (w.int ty 0 L) (w.int ty 1 L) = compared cc ty.isSigned (w.opnd ty 0 L) (w.opnd ty 1 L) := by
  rw [int_eq, int_eq, cmp_eq]
theorem imm_compared (w : Word) (L : Nat) :
    cmpHolds cc (w.int ty 0 L) (immVal ty imm) = compared cc ty.isSigned (w.opnd ty 0 L) (immOf ty imm) := by
  rw [int_eq, immVal_eq, cmp_eq]

theorem icmp_computes : Computes (.icmp h d a b cc ty) (u32 d)
    (fun w L => if compared cc ty.isSigned (w.opnd ty 0 L) (w.opnd ty 1 L) then 1 else 0) :=
  computes rfl (.head _) (fun _ => rfl) (fun _ _ => rfl) fun _ w _ L _ => congrArg b2n (int_compared w L)
theorem icmpRri_computes : Computes (.icmpRri h d a imm cc ty) (u32 d)
    (fun w L => if compared cc ty.isSigned (w.opnd ty 0 L) (immOf ty imm) then 1 else 0) :=
  computes rfl (.head _) (fun _ => rfl) (fun _ _ => rfl) fun _ w _ L _ => congrArg b2n (imm_compared w L)
theorem icmpp_decides : Decides (.icmpp h p a b cc ty) p (fun w L => compared cc ty.isSigned (w.opnd ty 0 L) (w.opnd ty 1 L)) :=
  decides rfl (.head _) (fun _ => rfl) (fun _ _ => rfl) fun _ w _ L _ => int_compared w L
theorem icmppRri_decides : Decides (.icmppRri h p a imm cc ty) p
    (fun w L => compared cc ty.isSigned (w.opnd ty 0 L) (immOf ty imm)) :=
  decides rfl (.head _) (fun _ => rfl) (fun _ _ => rfl) fun _ w _ L _ => imm_compared w L
end Compare

/-- Settles O3: the order of the integers is the order of the bits that the type says. -/
theorem integerOrder : Obligations.IntegerOrder := by
  unfold Obligations.IntegerOrder
  refine fun h d a b p imm cc ty => ⟨?imin, ?iminRri, ?imax, ?imaxRri, icmp_computes, icmpRri_computes, icmpp_decides, icmppRri_decides⟩
  case imin => apply int2_computes (agrees_min ty) rfl (.head _) fun _ => rfl
  case iminRri => apply intI_computes (agrees_min ty) rfl (.head _) fun _ => rfl
  case imax => apply int2_computes (agrees_max ty) rfl (.head _) fun _ => rfl
  case imaxRri => apply intI_computes (agrees_max ty) rfl (.head _) fun _ => rfl

/-! ### Moves -/

section Moves
variable {h : Hdr} {d a b : Reg} {p : Pred} {imm : W32} {sh : BitVec 3} {ty st : Ty} {sat : Bool}

theorem mov_computes : Computes (.mov h d a ty) (uty ty d) (fun w L => (w.opnd ty 0 L).toNat) :=
  computes_unwidened rfl id (int1_computes (bop := id) (ofInt_tyInt ty) rfl (.head _) fun _ => rfl)

theorem pick_computes : Computes (.pick h d a b p ty) (uty ty d)
    (fun w L => (if inMask (w.g.pred p) L then w.opnd ty 0 L else w.opnd ty 1 L).toNat) := by
  refine computes_unwidened rfl (fun hok => (Bool.and_eq_true_iff.mp hok).1)
    (putTy_computes _ rfl (.head _) (fun _ => rfl) (fun _ _ => rfl) fun w L => ?_)
  rw [apply_ite (BitVec.ofInt ty.bits), ofInt_int, ofInt_int]

theorem movi_computes : Computes (.movi h d imm ty) (uty ty d)
    (fun _ _ => (if ty.isSigned then imm.signExtend ty.bits else imm.setWidth ty.bits).toNat) := by
  refine computes_unwidened rfl id (putTy_computes _ rfl (.head _) (fun _ => rfl) (fun _ _ => rfl) fun w L => ?_)
  rw [apply_ite (BitVec.ofInt ty.bits), BitVec.ofInt_natCast, BitVec.ofNat_toNat]
  rfl

/-- MOVIH reads its own destination: the low half stays (10, R251). -/
theorem movih_computes : Computes (.movih h d imm) (u64 d) (fun w L => (imm ++ w.opnd32 0 L).toNat) :=
  computes rfl (.head _) (fun _ => rfl) (fun _ _ => rfl) fun _ w _ L _ => pool_eq (w.opnd32 0 L) imm

theorem ofInt_scaled (z : Int) (n : Nat) : BitVec.ofInt 64 (z * (2 ^ n : Nat)) = BitVec.ofInt 64 z <<< n := by
  rw [BitVec.ofInt_mul, BitVec.shiftLeft_eq_mul_twoPow, BitVec.ofInt_natCast]
  congr 1
  apply BitVec.eq_of_toNat_eq
  rw [BitVec.toNat_ofNat, BitVec.toNat_twoPow]

theorem lea_computes : Computes (.lea h d a b sh ty) (u64 d) (fun w L =>
    let y := w.opnd32 1 L
    (w.opnd64 0 L + ((if ty.isSigned then y.signExtend 64 else y.setWidth 64) <<< sh.toNat)).toNat) := by
  refine computes rfl (.head _)
    (val' := fun w L => (BitVec.ofInt 64 ((w.src 0 L : Int) + w.int ty 1 L * (2 ^ sh.toNat : Nat))).toNat) (fun _ => rfl) (fun _ _ => rfl) ?_
  intro s w hgoes L _
  rw [BitVec.ofInt_add, ofInt_scaled, ofInt_src64, opnd32_extended (info_ok hgoes)]

theorem cnvi_computes : Computes (.cnvi h d a ty st sat) (uty ty d) (fun w L =>
    let x := tyInt st (w.opnd st 0 L)
    widened ty (BitVec.ofInt ty.bits (if sat then clamp ty x else x))) :=
  putTy_computes _ rfl (.head _) (fun _ => rfl) (fun _ _ => rfl) fun w L => by rw [tySat_clamp, int_eq]
end Moves

/-- Settles O4: one law per word. -/
theorem integerMoves : Obligations.IntegerMoves := by
  unfold Obligations.IntegerMoves
  exact fun h d a b p imm sh ty st sat =>
    ⟨mov_computes, pick_computes, movi_computes, movih_computes, lea_computes, cnvi_computes⟩

end Sys2Proof.Proofs
end

section
/-! Bit words (10, R252 to R255): an operation of numbers below 2^w is the operation of w-bit vectors that a statement names. -/

namespace Sys2Proof.Proofs
open Sys2Proof.Machine Sys2Proof.Laws

/-- A 32-bit source field reads as its 32 bits. -/
theorem opnd32_toNat {s : State} {i : Instr} {f : Info} {w : Word} {k : Nat} {r : Reg} (hgoes : Goes s i f w)
    (hfield : f.src[k]? = some (u32 r)) (L : Nat) : (w.opnd32 k L).toNat = w.src k L := by
  refine Nat.mod_eq_of_lt (src_lt32 hgoes k L fun u hu => ?_)
  obtain rfl := Option.some.inj (hfield.symm.trans hu)
  rfl

section Bits
variable {i : Instr} {f : Info} {ty : Ty} {d : Reg} {imm : BitVec 22}

/-- `op` on the numbers of two operands gives the number that `bop` gives on their bits. -/
def AgreesBits (ty : Ty) (op : Nat → Nat → Nat) (bop : BitVec ty.bits → BitVec ty.bits → BitVec ty.bits) : Prop :=
  ∀ x y, op x.toNat y.toNat = (bop x y).toNat
/-- The same of an operand and a count. -/
def AgreesShift (ty : Ty) (op : Nat → Nat → Nat) (bop : BitVec ty.bits → Nat → BitVec ty.bits) : Prop :=
  ∀ x n, op x.toNat n = (bop x n).toNat

section Bits2
variable {op : Nat → Nat → Nat} {bop : BitVec ty.bits → BitVec ty.bits → BitVec ty.bits}

theorem bits2_computes (hop : AgreesBits ty op bop) (hinfo : i.info = some f) (hdst : uty ty d ∈ f.dst)
    (hexec : ∀ s, exec i s = bits2 i ty d op s) :
    Computes i (uty ty d) (fun w L => (bop (w.opnd ty 0 L) (w.opnd ty 1 L)).toNat) :=
  computes hinfo hdst hexec (fun _ _ => rfl) fun _ w _ L _ => by rw [low_eq, low_eq, hop]

theorem bitsI_computes (hop : AgreesBits ty op bop) (hinfo : i.info = some f) (hdst : uty ty d ∈ f.dst)
    (hexec : ∀ s, exec i s = bitsI i ty d imm op s) :
    Computes i (uty ty d) (fun w L => (bop (w.opnd ty 0 L) (immOf ty imm)).toNat) :=
  computes hinfo hdst hexec (fun _ _ => rfl) fun _ w _ L _ => by rw [low_eq, immBits_eq, hop]
end Bits2

theorem bits1_computes {op : Nat → Nat} {bop : BitVec ty.bits → BitVec ty.bits} (hop : ∀ x, op x.toNat = (bop x).toNat)
    (hinfo : i.info = some f) (hdst : uty ty d ∈ f.dst) (hexec : ∀ s, exec i s = bits1 i ty d op s) :
    Computes i (uty ty d) (fun w L => (bop (w.opnd ty 0 L)).toNat) :=
  computes hinfo hdst hexec (fun _ _ => rfl) fun _ w _ L _ => by rw [low_eq, hop]

/-- A count of bits is written in 32 bits, whatever the type counted in. -/
theorem count_computes {op : Nat → Nat} {bop : BitVec ty.bits → BitVec ty.bits} (hop : ∀ x, op x.toNat = (bop x).toNat)
    (hinfo : i.info = some f) (hdst : u32 d ∈ f.dst)
    (hexec : ∀ s, exec i s = alu i (fun w => w.put32 d fun L => op (w.low ty 0 L)) s) :
    Computes i (u32 d) (fun w L => (bop (w.opnd ty 0 L)).toNat) :=
  computes hinfo hdst hexec (fun _ _ => rfl) fun _ w _ L _ => by rw [low_eq, hop]

section Shift
variable {op : Nat → Nat → Nat} {bop : BitVec ty.bits → Nat → BitVec ty.bits}

theorem shiftR_computes (hop : AgreesShift ty op bop) (hinfo : i.info = some f) (hdst : uty ty d ∈ f.dst)
    (hexec : ∀ s, exec i s = shiftR i ty d op s) :
    Computes i (uty ty d) (fun w L => (bop (w.opnd ty 0 L) ((w.opnd32 1 L).toNat % 256)).toNat) :=
  computes hinfo hdst hexec (fun _ _ => rfl) fun _ w _ L _ => by rw [low_eq, count_eq, hop]

theorem shiftI_computes (hop : AgreesShift ty op bop) (hinfo : i.info = some f) (hdst : uty ty d ∈ f.dst)
    (hexec : ∀ s, exec i s = shiftI i ty d imm op s) :
    Computes i (uty ty d) (fun w L => (bop (w.opnd ty 0 L) (imm.setWidth 8).toNat).toNat) :=
  computes hinfo hdst hexec (fun _ _ => rfl) fun _ w _ L _ => by rw [low_eq, immCount_eq, hop]
end Shift
end Bits

/-! ### Logic and counts -/

theorem agrees_and (ty : Ty) : AgreesBits ty Nat.land (· &&& ·) := fun x y => (BitVec.toNat_and x y).symm
theorem agrees_or (ty : Ty) : AgreesBits ty Nat.lor (· ||| ·) := fun x y => (BitVec.toNat_or x y).symm
theorem agrees_xor (ty : Ty) : AgreesBits ty Nat.xor (· ^^^ ·) := fun x y => (BitVec.toNat_xor x y).symm
theorem agrees_andn (ty : Ty) : AgreesBits ty (andnOp ty.bits) (fun x y => x &&& ~~~y) := fun x y => by
  rw [andnOp, notOp_eq]
  exact agrees_and ty x (~~~y)

/-- Settles O5: each operation agrees with that of bit vectors. -/
theorem logicAndCounts : Obligations.LogicAndCounts := by
  unfold Obligations.LogicAndCounts
  refine ⟨fun h d a b imm ty => ⟨?and, ?andRri, ?or, ?orRri, ?xor, ?xorRri, ?not, ?andn, ?andnRri⟩,
    fun h d a ty => ⟨?popc, ?clz, ?ctz, ?brev⟩⟩
  case and => exact bits2_computes (agrees_and ty) rfl (.head _) fun _ => rfl
  case andRri => exact bitsI_computes (agrees_and ty) rfl (.head _) fun _ => rfl
  case or => exact bits2_computes (agrees_or ty) rfl (.head _) fun _ => rfl
  case orRri => exact bitsI_computes (agrees_or ty) rfl (.head _) fun _ => rfl
  case xor => exact bits2_computes (agrees_xor ty) rfl (.head _) fun _ => rfl
  case xorRri => exact bitsI_computes (agrees_xor ty) rfl (.head _) fun _ => rfl
  case not => exact bits1_computes notOp_eq rfl (.head _) fun _ => rfl
  case andn => exact bits2_computes (agrees_andn ty) rfl (.head _) fun _ => rfl
  case andnRri => exact bitsI_computes (agrees_andn ty) rfl (.head _) fun _ => rfl
  case popc => exact count_computes popc_eq rfl (.head _) fun _ => rfl
  case clz => exact count_computes clz_eq rfl (.head _) fun _ => rfl
  case ctz => exact count_computes ctz_eq rfl (.head _) fun _ => rfl
  case brev => exact bits1_computes brev_eq rfl (.head _) fun _ => rfl

/-! ### Shifts -/

theorem agrees_shl (ty : Ty) : AgreesShift ty (shlOp ty.bits) (· <<< ·) := shl_eq
theorem agrees_shr (ty : Ty) : AgreesShift ty shrOp (· >>> ·) := shr_eq
theorem agrees_sar (ty : Ty) : AgreesShift ty (sarOp ty.bits) BitVec.sshiftRight := sar_eq
theorem agrees_rotl (ty : Ty) : AgreesShift ty (rotlOp ty.bits) BitVec.rotateLeft := fun x => rotl_eq x (bits_pos ty)

/-- FUNNEL shifts the 64 bits of both sources and takes a half (10, R253). -/
theorem funnelOp_eq (right : Bool) (x y z : W32) : funnelOp right x.toNat y.toNat z.toNat =
    if right then (((x ++ y) >>> (z.toNat % 32)).extractLsb' 0 32).toNat else (((x ++ y) <<< (z.toNat % 32)).extractLsb' 32 32).toNat := by
  have hpool : x.toNat * 2 ^ 32 + y.toNat = (x ++ y).toNat := by rw [← pool_eq y x]; omega
  unfold funnelOp
  simp only [hpool]
  cases right with
  | true => simp [Nat.shiftRight_eq_div_pow]
  | false =>
    have hhalf : (x ++ y).toNat * 2 ^ (z.toNat % 32) % 2 ^ 64 / 2 ^ 32 < 2 ^ 32 := by omega
    simp only [Bool.false_eq_true, if_false, BitVec.extractLsb'_toNat, BitVec.toNat_shiftLeft, Nat.shiftLeft_eq, Nat.shiftRight_eq_div_pow]
    exact (Nat.mod_eq_of_lt hhalf).symm

theorem funnel_computes (h : Hdr) (d a b c : Reg) (right : Bool) : Computes (.funnel h d a b c right) (u32 d) (fun w L =>
    let u := w.opnd32 0 L ++ w.opnd32 1 L
    let z := (w.opnd32 2 L).toNat % 32
    if right then ((u >>> z).extractLsb' 0 32).toNat else ((u <<< z).extractLsb' 32 32).toNat) := by
  refine computes rfl (.head _) (fun _ => rfl) (fun _ _ => rfl) fun s w hgoes L _ => ?_
  rw [← opnd32_toNat (k := 0) hgoes rfl, ← opnd32_toNat (k := 1) hgoes rfl, ← opnd32_toNat (k := 2) hgoes rfl]
  exact funnelOp_eq right _ _ _

/-- Settles O6: each shift agrees with that of bit vectors, for every count. -/
theorem shifts : Obligations.Shifts := by
  unfold Obligations.Shifts
  refine fun h d a b c imm ty right => ⟨?shl, ?shlRri, ?shr, ?shrRri, ?sar, ?sarRri, ?rotl, ?rotlRri, funnel_computes h d a b c right⟩
  case shl => exact shiftR_computes (agrees_shl ty) rfl (.head _) fun _ => rfl
  case shlRri => exact shiftI_computes (agrees_shl ty) rfl (.head _) fun _ => rfl
  case shr => exact shiftR_computes (agrees_shr ty) rfl (.head _) fun _ => rfl
  case shrRri => exact shiftI_computes (agrees_shr ty) rfl (.head _) fun _ => rfl
  case sar => exact shiftR_computes (agrees_sar ty) rfl (.head _) fun _ => rfl
  case sarRri => exact shiftI_computes (agrees_sar ty) rfl (.head _) fun _ => rfl
  case rotl => exact shiftR_computes (agrees_rotl ty) rfl (.head _) fun _ => rfl
  case rotlRri => exact shiftI_computes (agrees_rotl ty) rfl (.head _) fun _ => rfl

/-! ### Fields and bytes -/

section Fields
variable {h : Hdr} {d a b c : Reg} {ty : Ty}

theorem bfx_computes : Computes (.bfx h d a b c ty) (uty ty d) (fun w L =>
    (bitField ty.isSigned (w.opnd ty 0 L) ((w.opnd32 1 L).toNat % 256) ((w.opnd32 2 L).toNat % 256)).toNat) :=
  computes rfl (.head _) (fun _ => rfl) (fun _ _ => rfl) fun s w hgoes L _ => by
    rw [opnd32_toNat (k := 1) hgoes rfl, opnd32_toNat (k := 2) hgoes rfl, low_eq, bfx_eq]

theorem bfi_computes : Computes (.bfi h d a b c ty) (uty ty d) (fun w L =>
    let z := w.opnd32 2 L
    (fieldInto (w.opnd ty 0 L) (w.opnd ty 1 L) (z.extractLsb' 0 8).toNat (z.extractLsb' 8 8).toNat).toNat) :=
  computes rfl (.head _) (fun _ => rfl) (fun _ _ => rfl) fun s w hgoes L _ => by
    rw [low_eq, low_eq, ← opnd32_toNat (k := 2) hgoes rfl, bfi_eq]

theorem bmrg_computes : Computes (.bmrg h d a b c) (u32 d) (fun w L =>
    let pool := w.opnd32 1 L ++ w.opnd32 0 L
    let k := fun i => mergedByte pool ((w.opnd32 2 L).extractLsb' (8 * i) 8)
    (k 3 ++ k 2 ++ k 1 ++ k 0).toNat) :=
  computes rfl (.head _) (fun _ => rfl) (fun _ _ => rfl) fun _ _ hgoes L _ =>
    bmrg_eq _ _ _ _ _ _ (opnd32_toNat (k := 0) hgoes rfl L).symm (opnd32_toNat (k := 1) hgoes rfl L).symm
      (opnd32_toNat (k := 2) hgoes rfl L).symm
end Fields

/-- Settles O7: one law per word. -/
theorem bitFields : Obligations.BitFields := by
  unfold Obligations.BitFields
  exact fun h d a b c ty => ⟨bfx_computes, bfi_computes, bmrg_computes⟩

end Sys2Proof.Proofs
end

section
/-! Predicate words (10, R257): each bit of the destination is a function of the same lane's bits and values. -/

namespace Sys2Proof.Proofs
open Sys2Proof.Machine Sys2Proof.Laws

section Predicates
variable {h : Hdr} {p x y : Pred} {d a : Reg} {imm : W32}

theorem pand_decides : Decides (.pand h p x y) p (fun w L => inMask (w.g.pred x) L && inMask (w.g.pred y) L) :=
  decides rfl (.head _) (fun _ => rfl) (fun _ _ => rfl) fun _ _ _ _ _ => rfl
theorem por_decides : Decides (.por h p x y) p (fun w L => inMask (w.g.pred x) L || inMask (w.g.pred y) L) :=
  decides rfl (.head _) (fun _ => rfl) (fun _ _ => rfl) fun _ _ _ _ _ => rfl
theorem pxor_decides : Decides (.pxor h p x y) p (fun w L => inMask (w.g.pred x) L ^^ inMask (w.g.pred y) L) :=
  decides rfl (.head _) (fun _ => rfl) (fun _ _ => rfl) fun _ _ _ _ _ => rfl
theorem pnot_decides : Decides (.pnot h p x) p (fun w L => !(inMask (w.g.pred x) L)) :=
  decides rfl (.head _) (fun _ => rfl) (fun _ _ => rfl) fun _ _ _ _ _ => rfl
theorem pset_decides : Decides (.pset h p imm) p (fun _ L => imm.getLsbD L) :=
  decides rfl (.head _) (fun _ => rfl) (fun _ _ => rfl) fun _ _ _ _ _ => rfl

theorem pmov_pp_decides : Decides (.pmov h (.pp p x)) p (fun w L => inMask (w.g.pred x) L) :=
  decides rfl (.head _) (fun _ => rfl) (fun _ _ => rfl) fun _ _ _ _ _ => rfl
theorem pmov_rd_computes : Computes (.pmov h (.rd d x)) (uvs d) (fun w _ => (w.g.pred x).toNat) :=
  computes rfl (.head _) (fun _ => rfl) (fun _ _ => rfl) fun _ _ _ _ _ => rfl

/-- A 32-bit source is not zero where its number is not. -/
theorem pmov_nz_decides : Decides (.pmov h (.nz p a)) p (fun w L => decide (w.opnd32 0 L ≠ 0#32)) :=
  decides rfl (.head _) (fun _ => rfl) (fun _ _ => rfl) fun _ w hgoes L _ => by
    have hzero : w.src 0 L = 0 ↔ w.opnd32 0 L = 0#32 := by
      rw [← opnd32_toNat (k := 0) hgoes rfl, BitVec.toNat_eq]; rfl
    rw [Bool.eq_iff_iff, bne_iff_ne, decide_eq_true_eq]
    exact not_congr hzero
theorem pmov_bits_decides : Decides (.pmov h (.bits p a)) p (fun w L => (w.opnd32 0 L).getLsbD L) :=
  decides rfl (.head _) (fun _ => rfl) (fun _ _ => rfl) fun _ w hgoes L _ => by
    rw [← opnd32_toNat (k := 0) hgoes rfl]; rfl
end Predicates

/-- Settles O8: one law per word and use. -/
theorem predicates : Obligations.Predicates := by
  unfold Obligations.Predicates
  exact fun h p x y d a imm => ⟨pand_decides, por_decides, pxor_decides, pnot_decides, pset_decides, pmov_pp_decides, pmov_rd_computes,
    pmov_nz_decides, pmov_bits_decides⟩

end Sys2Proof.Proofs
end

section
/-! Pauses (10, R264 to R266; 15, R364; 16, R389; 17, R400): NOP, REGION's restart point, and what YIELD answers. -/

namespace Sys2Proof.Proofs
open Sys2Proof.Machine Sys2Proof.Laws

theorem nop_performs {h : Hdr} : Performs (.nop h) (fun _ _ => True) (fun _ s => s) :=
  performs_of _ (fun _ => rfl) fun _ _ _ _ => rfl

/-- A word whose own effect is done retires from the state that this leaves. -/
theorem exec_done {s u : State} {i : Instr} {f : Info} {w : Word} {k : Word → State → Eff} (hgoes : Goes s i f w)
    (hexec : exec i s = s.issue i k) (heff : k (w.entered i f) (s.entered i f w) = .done u) :
    exec i s = .next ((u.popped s f w).retire s w f (s.settledWord (s.spidOf w.g) i f) true 1) := by
  have hnext := hexec.trans (issue_goes hgoes k)
  rw [show k { w with g := restrictTx i f w.g w.act } { s with groups := Tbl.put s.groups w.gs (restrictTx i f w.g w.act) } = _
    from heff] at hnext
  exact hnext

/-! ### REGION -/

section Region
variable {h : Hdr}

/-- A group of service mode stands in slot A alone: where REGION asks for a point. -/
def asksPoint (s : State) (w : Word) : Prop := s.service w.g = true ∧ w.alone ∧ w.b = false ∧ w.g.spill = []

/-- The fields of REGION: none, and no guard (10, R265). -/
def regionInfo (h : Hdr) : Info := { h, unguarded := true }

/-- The state in which the point has been asked for. -/
def regionAsked (w : Word) (s : State) : State := s.updGroup w.gs fun g => { g with regAsk := true }
/-- REGION's own effect, which execRegion issues. -/
def regionEff (w : Word) (s : State) : Eff :=
  if s.service w.g && (w.g.path (!w.b)).isNone && !w.b && w.g.spill.isEmpty then
    .done (regionAsked w s)
  else .done s
theorem exec_region (s : State) : exec (.region h) s = s.issue (.region h) regionEff := rfl

theorem asksPoint_iff {s : State} {w : Word} :
    (s.service w.g && (w.g.path (!w.b)).isNone && !w.b && w.g.spill.isEmpty) = true ↔ asksPoint s w := by
  rw [Bool.and_eq_true, Bool.and_eq_true, Bool.and_eq_true, Option.isNone_iff_eq_none, Bool.not_eq_true', List.isEmpty_iff,
    and_assoc, and_assoc]
  rfl

theorem region_elsewhere : Performs (.region h) (fun s w => ¬ asksPoint s w) (fun _ s => s) :=
  performs_of _ exec_region fun _ _ _ hnot => if_neg (mt asksPoint_iff.mp hnot)

/-- REGION is neither a quiet point nor another word that settles at once, so its word is tentative (16, R386). -/
theorem region_asks {s : State} {f : Info} {w : Word} (hgoes : Goes s (.region h) f w) (hasks : asksPoint s w) :
    exec (.region h) s = .next ((regionAsked w (s.entered (.region h) (regionInfo h) w)).retire s w f false true 1) := by
  obtain rfl : f = regionInfo h := (Option.some.inj hgoes.info).symm
  have heff : regionEff (w.entered (.region h) (regionInfo h)) (s.entered (.region h) (regionInfo h) w) =
      .done (regionAsked w (s.entered (.region h) (regionInfo h) w)) := if_pos (asksPoint_iff.mpr hasks)
  exact exec_done hgoes (exec_region s) heff

/-- The tentative word of REGION holds the point, at REGION's own address. -/
theorem region_point {s : State} {f : Info} {w : Word} (hgoes : Goes s (.region h) f w) (hasks : asksPoint s w) : ∃ t l x,
    exec (.region h) s = .next t ∧ Tbl.find t.tents w.gs = some (l ++ [x]) ∧
      x.point = some (w.slot.pc, w.slot.mask, w.g.join.length, 0) := by
  obtain rfl : f = regionInfo h := (Option.some.inj hgoes.info).symm
  have hgroup : Tbl.find (regionAsked w (s.entered (.region h) (regionInfo h) w)).groups w.gs = some { w.g with regAsk := true } :=
    (find_upd_self _ _ _).trans (congrArg _ (found hgoes).group)
  obtain ⟨l, x, htents, hpoint⟩ := retire_point _ s w (regionInfo h) hgroup rfl
  refine ⟨_, l, x, region_asks hgoes hasks, htents, hpoint.trans ?_⟩
  obtain ⟨-, -, -, hspill⟩ := hasks
  exact congrArg (fun n => some (w.slot.pc, w.slot.mask, w.g.join.length, n)) (congrArg List.length hspill)
end Region

/-! ### YIELD -/

section Yield
variable {h : Hdr} {d a b : Reg}

/-- Where the status of a save goes, and the only V registers that it keeps (10, R266). -/
def statusTo (d : Reg) : Option Nat :=
  match d with
  | .s n => some n.val
  | _ => none
def rangeOf (a b : Reg) : Option (Nat × Nat) :=
  match a, b with
  | .v x, .v y => some (x.val, y.val)
  | _, _ => none

/-- The answer is logged (17, R400). -/
def yieldLogged (w : Word) (s : State) (v : W64) : State := s.logGroup w.g 5 0xFF (s.rwcNow w.gs w.g) 0x100 v

theorem yield_nothing_asked : Performs (.yield h d a b) (fun _ w => w.g.preq = false)
    (fun w s => (yieldLogged w s 0#64).updGroup w.gs fun g => w.gets g d 0#64) := by
  refine performs_of _ (fun _ => rfl) fun s w hfound hpreq => ?_
  simp only [gate_group hfound, hpreq]
  rfl

theorem yield_forbidden : Performs (.yield h d a b) (fun _ w => w.g.preq = true ∧ ¬ w.alone)
    (fun w s => (yieldLogged w s 2#64).updGroup w.gs fun g => w.gets g d 2#64) := by
  refine performs_of _ (fun _ => rfl) fun s w hfound hc => ?_
  obtain ⟨hpreq, hpath⟩ := hc
  have hother : (w.g.path (!w.b)).isSome = true := Option.isSome_iff_ne_none.mpr hpath
  simp only [gate_group hfound, hpreq, hother]
  rfl

theorem yield_parks : Parks (.yield h d a b) (fun _ w => w.g.preq = true ∧ w.alone ∧ w.slot.phase = .idle) .switchPark
    (fun w s => (yieldLogged w s 1#64).updGroup w.gs fun g => g.setSlot w.b (some { w.slot with phase := .saving (statusTo d) (rangeOf a b) })) := by
  refine parks_of _ (fun _ => rfl) fun s w hfound hc => ?_
  obtain ⟨hpreq, halone, hphase⟩ := hc
  have hother : (w.g.path (!w.b)).isSome = false := by rw [halone]; rfl
  simp only [gate_group hfound, hpreq, hother, hphase]
  rfl
end Yield

/-- Settles O19: one law per word and outcome. -/
theorem pauses : Obligations.Pauses := by
  unfold Obligations.Pauses
  exact fun h d a b => ⟨nop_performs, region_elsewhere, fun s f w hgoes hservice halone hb hspill =>
    region_point hgoes ⟨hservice, halone, hb, hspill⟩, yield_nothing_asked, yield_forbidden, yield_parks⟩

end Sys2Proof.Proofs
end

section
/-! Rounding (11, R269 to R275): an inversion of the value of an encoding and one of the encodings that results have; the obligation
over the six formats follows from the two. -/

namespace Sys2Proof.Proofs
open Sys2Proof.Machine Sys2Proof.Laws

/-! ### The value of an encoding -/

/-- An encoding stands for NaN, for an infinity of its sign, or for a finite value of its sign that every mode rounds back to the
encoding's magnitude (11, R270, R273). -/
theorem val_cases (t : Fmt) (x : Nat) :
    (t.val x = .nan ∧ t.maxFin < t.mag x) ∨
    (t.val x = .inf (t.neg x) ∧ t.inf = true ∧ t.mag x = t.maxFin + 1) ∨
    ∃ m e, t.val x = .fin (t.neg x) m e ∧ t.mag x ≤ t.maxFin ∧ ∀ rm, t.encMag rm (t.neg x) m e = t.mag x := by
  by_cases hbig : t.maxFin < t.mag x
  · by_cases hinf : (t.inf && t.mag x == t.maxFin + 1) = true
    · obtain ⟨hhas, hmag⟩ := Bool.and_eq_true_iff.mp hinf
      exact .inr (.inl ⟨(if_pos hbig).trans (if_pos hinf), hhas, beq_iff_eq.mp hmag⟩)
    · exact .inl ⟨(if_pos hbig).trans (if_neg hinf), hbig⟩
  · refine .inr (.inr ?_)
    have hrounds := fun rm => encMag_val t rm (t.neg x) (t.mag x)
    by_cases hsub : t.mag x / 2 ^ t.f = 0
    · exact ⟨_, _, (if_neg hbig).trans (if_pos hsub), Nat.le_of_not_lt hbig, fun rm => (hrounds rm).1 hsub⟩
    · exact ⟨_, _, (if_neg hbig).trans (if_neg hsub), Nat.le_of_not_lt hbig, fun rm => (hrounds rm).2 hsub⟩

section Format
variable {t : Fmt}

theorem maxFin_lt_top (hgood : GoodFmt t) : t.maxFin + 1 < t.top := hgood.top.elim id And.right

theorem val_finite_ne_nan (hgood : GoodFmt t) {k : Nat} (hk : k ≤ t.maxFin) (neg : Bool) : t.val (t.sgn neg + k) ≠ .nan := by
  intro hnan
  have hmag : t.mag (t.sgn neg + k) = k := mag_sgn t neg (by have := maxFin_lt_top hgood; omega)
  rcases val_cases t (t.sgn neg + k) with ⟨-, hbig⟩ | ⟨hval, -, -⟩ | ⟨m, e, hval, -, -⟩
  · omega
  · exact absurd (hval.symm.trans hnan) (by simp)
  · exact absurd (hval.symm.trans hnan) (by simp)

theorem infEnc_of_inf (hinf : t.inf = true) (neg : Bool) : t.infEnc neg = t.sgn neg + (t.maxFin + 1) := if_pos hinf

theorem infEnc_of_no_inf (hinf : ¬ t.inf = true) (neg : Bool) : t.infEnc neg = t.nanEnc := if_neg hinf

theorem val_infEnc (hgood : GoodFmt t) (hinf : t.inf = true) (neg : Bool) : t.val (t.infEnc neg) = .inf neg := by
  have hmag : t.mag (t.infEnc neg) = t.maxFin + 1 := by rw [infEnc_of_inf hinf]; exact mag_sgn t neg (maxFin_lt_top hgood)
  have hneg : t.neg (t.infEnc neg) = neg := by rw [infEnc_of_inf hinf]; exact neg_sgn t neg (maxFin_lt_top hgood)
  simp [Fmt.val, hmag, hneg, hinf]

/-! ### The encodings of results -/

/-- What an arithmetic result or a conversion of `v` may be: the canonical NaN of a NaN, the encoding of an infinity, or a sign and a
magnitude that is finite. -/
def resultOf (t : Fmt) (v : FVal) (x : Nat) : Prop :=
  (v = .nan ∧ x = t.nanEnc) ∨ (∃ neg, x = t.infEnc neg) ∨ ∃ neg k, k ≤ t.maxFin ∧ x = t.sgn neg + k

theorem round_overflow {rm : Rm} {neg : Bool} {m : Nat} {e : Int} (hbig : t.maxFin < t.encMag rm neg m e) :
    t.round rm (.fin neg m e) =
      if rm = .rne ∨ rm = .rup ∧ neg = false ∨ rm = .rdn ∧ neg = true then t.infEnc neg else t.sgn neg + t.maxFin := by
  refine (if_neg (Nat.not_le_of_lt hbig)).trans ?_
  cases rm <;> cases neg <;> rfl

theorem round_finite {rm : Rm} {neg : Bool} {m : Nat} {e : Int} (hfits : t.encMag rm neg m e ≤ t.maxFin) :
    t.round rm (.fin neg m e) = t.sgn neg + t.encMag rm neg m e := if_pos hfits

theorem round_resultOf (t : Fmt) (rm : Rm) (v : FVal) : resultOf t v (t.round rm v) := by
  cases v with
  | nan => exact .inl ⟨rfl, rfl⟩
  | inf neg => exact .inr (.inl ⟨neg, rfl⟩)
  | fin neg m e =>
    refine .inr ?_
    by_cases hfits : t.encMag rm neg m e ≤ t.maxFin
    · exact .inr ⟨neg, _, hfits, round_finite hfits⟩
    · rw [round_overflow (Nat.lt_of_not_le hfits)]
      split
      · exact .inl ⟨neg, rfl⟩
      · exact .inr ⟨neg, _, Nat.le_refl _, rfl⟩

theorem conv_resultOf (t : Fmt) (rm : Rm) (v : FVal) : resultOf t v (t.conv rm v) := by
  cases v with
  | nan => exact .inl ⟨rfl, rfl⟩
  | inf neg => exact .inr (.inl ⟨neg, rfl⟩)
  | fin neg m e => exact .inr (.inr ⟨neg, _, Nat.min_le_right _ _, rfl⟩)

/-- A result that is NaN is the canonical one, and only a format without infinities makes one of a value that is none. -/
theorem resultOf_nan (hgood : GoodFmt t) {v : FVal} {x : Nat} (hx : resultOf t v x) (hnan : t.val x = .nan) :
    x = t.nanEnc ∧ (t.inf = true → v = .nan) := by
  rcases hx with ⟨hv, hx⟩ | ⟨neg, rfl⟩ | ⟨neg, k, hk, rfl⟩
  · exact ⟨hx, fun _ => hv⟩
  · by_cases hinf : t.inf = true
    · exact absurd ((val_infEnc hgood hinf neg).symm.trans hnan) (by simp)
    · exact ⟨infEnc_of_no_inf hinf neg, fun h => absurd h hinf⟩
  · exact absurd hnan (val_finite_ne_nan hgood hk neg)

/-- An encoding that is no NaN is its own rounded value (11, R273, R275). -/
theorem round_conv_val {x : Nat} (hx : x < 2 * t.top) (hnan : t.val x ≠ .nan) (rm : Rm) :
    t.round rm (t.val x) = x ∧ t.conv rm (t.val x) = x := by
  have hsplit : t.sgn (t.neg x) + t.mag x = x := sgn_mag t hx
  rcases val_cases t x with ⟨hval, -⟩ | ⟨hval, hinf, hmag⟩ | ⟨m, e, hval, hfin, hrounds⟩
  · exact absurd hval hnan
  · have henc : t.infEnc (t.neg x) = x := by rw [infEnc_of_inf hinf, ← hmag, hsplit]
    rw [hval]
    exact ⟨henc, henc⟩
  · rw [hval, round_finite ((hrounds rm).trans_le hfin), Fmt.conv, hrounds, Nat.min_eq_left hfin]
    exact ⟨hsplit, hsplit⟩
end Format

theorem fmtOf_inf {ty : Ty} (hty : ty ≠ .e4m3) : (fmtOf ty).inf = true := by
  cases ty with
  | e4m3 => exact absurd rfl hty
  | _ => rfl

/-- Settles O13: from what a result may be (`resultOf`) and what an encoding stands for (`val_cases`). -/
theorem rounding : Obligations.Rounding := by
  unfold Obligations.Rounding
  refine ⟨rfl, fun ty hty rm v => ⟨fun hnan => ?round_nan, fun hnan => ?conv_nan, fun x hx hnan => round_conv_val hx hnan rm, ?overflow⟩⟩
  case round_nan =>
    obtain ⟨hcanon, hv⟩ := resultOf_nan (fmt_good hty) (round_resultOf _ rm v) hnan
    exact ⟨hcanon, fun hne => hv (fmtOf_inf hne)⟩
  case conv_nan =>
    exact (resultOf_nan (fmt_good hty) (conv_resultOf _ rm v) hnan).1
  case overflow =>
    rintro neg m e rfl hbig
    exact ⟨congrArg _ (Nat.min_eq_right (Nat.le_of_lt hbig)), round_overflow hbig⟩

end Sys2Proof.Proofs
end

section
/-! Floating words (11, R276 to R284): an operation on encodings is a function of their values, rounded once, or a choice between
the encodings by their order. -/

namespace Sys2Proof.Proofs
open Sys2Proof.Machine Sys2Proof.Laws

/-! ### Sums, products and functions -/

section Values
variable {h : Hdr} {d a b c : Reg} {m : FMods} {ty : Ty} {rm : Rm}

theorem fadd_computes : Computes (.fadd h d a b m ty rm) (uty ty d) (fun w L =>
    (fmtOf ty).round rm (fsum rm [(fmtOf ty).val (w.fa ty m L), (fmtOf ty).val (w.fb ty m L)])) :=
  computes rfl (.head _) (fun _ => rfl) (fun _ _ => rfl) fun _ _ _ _ _ => rfl

/-- FSUB turns the sign bit of B, which turns the sign of its value (11, R280). -/
theorem fsub_computes : Computes (.fsub h d a b m ty rm) (uty ty d) (fun w L =>
    (fmtOf ty).round rm (fsum rm [(fmtOf ty).val (w.fa ty m L), ((fmtOf ty).val (w.fb ty m L)).opp])) :=
  computes rfl (.head _) (fun _ => rfl) (fun _ _ => rfl) fun _ w _ L _ =>
    congrArg (fun v => (fmtOf ty).round rm (fsum rm [(fmtOf ty).val (w.fa ty m L), v])) (val_opp (fmtOf ty) (w.fb ty m L))

theorem fmul_computes : Computes (.fmul h d a b m ty rm) (uty ty d) (fun w L =>
    (fmtOf ty).round rm (((fmtOf ty).val (w.fa ty m L)).mul ((fmtOf ty).val (w.fb ty m L)))) :=
  computes rfl (.head _) (fun _ => rfl) (fun _ _ => rfl) fun _ _ _ _ _ => rfl

theorem ffma_computes : Computes (.ffma h d a b c m ty rm) (uty ty d) (fun w L =>
    (fmtOf ty).round rm (fsum rm [((fmtOf ty).val (w.fa ty m L)).mul ((fmtOf ty).val (w.fb ty m L)), (fmtOf ty).val (w.fc ty m L)])) :=
  computes rfl (.head _) (fun _ => rfl) (fun _ _ => rfl) fun _ _ _ _ _ => rfl

theorem fdiv_computes : Computes (.fdiv h d a b m ty rm) (uty ty d) (fun w L =>
    (fmtOf ty).round rm (((fmtOf ty).val (w.fa ty m L)).div ((fmtOf ty).val (w.fb ty m L)))) :=
  computes rfl (.head _) (fun _ => rfl) (fun _ _ => rfl) fun _ _ _ _ _ => rfl

/-- A word of one source that rounds a function `g` of its value computes that. -/
theorem rounded_computes {i : Instr} {f : Info} {g : FVal → FVal} (hinfo : i.info = some f) (hdst : uty ty d ∈ f.dst)
    (hexec : ∀ s, exec i s = float1 i ty m d (fun x => (fmtOf ty).round rm (g ((fmtOf ty).val x))) s) :
    Computes i (uty ty d) (fun w L => (fmtOf ty).round rm (g ((fmtOf ty).val (w.fa ty m L)))) :=
  computes hinfo hdst hexec (fun _ _ => rfl) fun _ _ _ _ _ => rfl
end Values

/-- Settles O9: one law per word. -/
theorem floatSums : Obligations.FloatSums := by
  unfold Obligations.FloatSums
  exact fun h d a b c m ty rm => ⟨fadd_computes, fsub_computes, fmul_computes, ffma_computes⟩

/-- Settles O10: each word rounds its function of the value, FEX2 and FLG2 the model's own approximations (log entry 115). -/
theorem floatFunctions : Obligations.FloatFunctions := by
  unfold Obligations.FloatFunctions
  refine fun h d a b m ty rm => ⟨fdiv_computes, ?fsqrt, ?frcp, ?frsq, ?fex2, ?flg2, ?frnd⟩
  case fsqrt => exact rounded_computes (g := FVal.sqrt) rfl (.head _) fun _ => rfl
  case frcp => exact rounded_computes (g := FVal.div (.fin false 1 0)) rfl (.head _) fun _ => rfl
  case frsq => exact rounded_computes (g := FVal.rsqrt) rfl (.head _) fun _ => rfl
  case fex2 => exact rounded_computes (g := FVal.exp2) rfl (.head _) fun _ => rfl
  case flg2 => exact rounded_computes (g := FVal.log2) rfl (.head _) fun _ => rfl
  case frnd => exact rounded_computes (g := FVal.integral rm) rfl (.head _) fun _ => rfl

/-! ### Order -/

section Order
variable (t : Fmt) (greater : Bool) (x y : Nat)

/-- Of two encodings that are no NaN, the one that the order asks for. Where the keys are equal so are the encodings, and it does not
matter which is taken. -/
def chosen : Nat := if t.key x < t.key y then (bif greater then y else x) else (bif greater then x else y)

theorem chosen_eq : (if (t.key x < t.key y) = greater then y else x) = chosen t greater x y := by
  by_cases hlt : t.key x < t.key y <;> cases greater <;> simp [chosen, hlt]

/-- FMIN and FMAX pass over a NaN (11, R281). -/
theorem pickBy_number : t.pickBy greater false x y =
    if t.val x = .nan then (if t.val y = .nan then t.nanEnc else y) else if t.val y = .nan then x else chosen t greater x y := by
  rw [← chosen_eq]
  by_cases hx : t.val x = .nan <;> by_cases hy : t.val y = .nan <;> simp [Fmt.pickBy, isNan_iff, hx, hy]

/-- In FMINX and FMAXX a NaN wins (11, R281). -/
theorem pickBy_strict : t.pickBy greater true x y = if t.val x = .nan ∨ t.val y = .nan then t.nanEnc else chosen t greater x y := by
  rw [← chosen_eq]
  by_cases hx : t.val x = .nan <;> by_cases hy : t.val y = .nan <;> simp [Fmt.pickBy, isNan_iff, hx, hy]

theorem either_isNan : ((t.val x).isNan || (t.val y).isNan) = true ↔ t.val x = .nan ∨ t.val y = .nan := by
  rw [Bool.or_eq_true, isNan_iff, isNan_iff, decide_eq_true_eq, decide_eq_true_eq]

/-- A floating condition, of whether two encodings are unordered, rising or equal (11, R282 Table 6). -/
def conditionOf (cc : FCmp) (un lt eq : Bool) : Bool :=
  match cc with
  | .eq => !un && eq
  | .ne => un || !eq
  | .lt => !un && lt
  | .le => !un && (lt || eq)
  | .gt => !un && !lt && !eq
  | .ge => !un && !lt
  | .num => !un
  | .nan => un

theorem fcmpHolds_rel (cc : FCmp) : fcmpHolds cc (t.rel x y) =
    conditionOf cc (decide (t.val x = .nan ∨ t.val y = .nan)) (decide (t.key0 x < t.key0 y)) (decide (t.key0 x = t.key0 y)) := by
  unfold Fmt.rel
  by_cases hnan : t.val x = .nan ∨ t.val y = .nan
  · rw [if_pos ((either_isNan t x y).mpr hnan), decide_eq_true hnan]
    cases cc <;> rfl
  · rw [if_neg (mt (either_isNan t x y).mp hnan), decide_eq_false hnan]
    rcases Int.lt_trichotomy (t.key0 x) (t.key0 y) with hlt | heq | hgt
    · rw [if_pos hlt, decide_eq_true hlt, decide_eq_false (Int.ne_of_lt hlt)]
      cases cc <;> rfl
    · rw [if_neg (by omega), if_pos heq, decide_eq_false (by omega), decide_eq_true heq]
      cases cc <;> rfl
    · rw [if_neg (by omega), if_neg (by omega), decide_eq_false (by omega), decide_eq_false (by omega)]
      cases cc <;> rfl
end Order

section OrderWords
variable {h : Hdr} {p : Pred} {d a b : Reg} {m : FMods} {cc : FCmp} {ty : Ty} {i : Instr} {f : Info} {greater : Bool}

theorem number_computes (hinfo : i.info = some f) (hdst : uty ty d ∈ f.dst)
    (hexec : ∀ s, exec i s = float2 i ty m d ((fmtOf ty).pickBy greater false) s) : Computes i (uty ty d) (fun w L =>
      if (fmtOf ty).val (w.fa ty m L) = .nan then (if (fmtOf ty).val (w.fb ty m L) = .nan then (fmtOf ty).nanEnc else w.fb ty m L)
      else if (fmtOf ty).val (w.fb ty m L) = .nan then w.fa ty m L else chosen (fmtOf ty) greater (w.fa ty m L) (w.fb ty m L)) :=
  computes hinfo hdst hexec (fun _ _ => rfl) fun _ _ _ _ _ => pickBy_number _ _ _ _

theorem strict_computes (hinfo : i.info = some f) (hdst : uty ty d ∈ f.dst)
    (hexec : ∀ s, exec i s = float2 i ty m d ((fmtOf ty).pickBy greater true) s) : Computes i (uty ty d) (fun w L =>
      if (fmtOf ty).val (w.fa ty m L) = .nan ∨ (fmtOf ty).val (w.fb ty m L) = .nan then (fmtOf ty).nanEnc
      else chosen (fmtOf ty) greater (w.fa ty m L) (w.fb ty m L)) :=
  computes hinfo hdst hexec (fun _ _ => rfl) fun _ _ _ _ _ => pickBy_strict _ _ _ _

theorem fcmpp_decides : Decides (.fcmpp h p a b m cc ty) p (fun w L => conditionOf cc
    (decide ((fmtOf ty).val (w.fa ty m L) = .nan ∨ (fmtOf ty).val (w.fb ty m L) = .nan))
    (decide ((fmtOf ty).key0 (w.fa ty m L) < (fmtOf ty).key0 (w.fb ty m L)))
    (decide ((fmtOf ty).key0 (w.fa ty m L) = (fmtOf ty).key0 (w.fb ty m L)))) :=
  decides rfl (.head _) (fun _ => rfl) (fun _ _ => rfl) fun _ _ _ _ _ => fcmpHolds_rel _ _ _ _

theorem fclass_computes : Computes (.fclass h d a ty) (u32 d) (fun w L => (fmtOf ty).cls (w.src 0 L % 2 ^ ty.bits)) :=
  computes rfl (.head _) (fun _ => rfl) (fun _ _ => rfl) fun _ _ _ _ _ => rfl
end OrderWords

/-- Settles O11: each word chooses by `chosen` or tests by `conditionOf`. -/
theorem floatOrder : Obligations.FloatOrder := by
  unfold Obligations.FloatOrder
  refine fun h p d a b m cc ty => ⟨?fmin, ?fmax, ?fminx, ?fmaxx, fcmpp_decides, fclass_computes⟩
  case fmin => exact number_computes (greater := false) rfl (.head _) fun _ => rfl
  case fmax => exact number_computes (greater := true) rfl (.head _) fun _ => rfl
  case fminx => exact strict_computes (greater := false) rfl (.head _) fun _ => rfl
  case fmaxx => exact strict_computes (greater := true) rfl (.head _) fun _ => rfl

end Sys2Proof.Proofs
end

section
/-! Packed words and conversions (11, R275, R285 to R292): the elements of a register are its bit fields; what a conversion gives fits
the bits of its type. -/

namespace Sys2Proof.Proofs
open Sys2Proof.Machine Sys2Proof.Laws

/-! ### Elements -/

/-- An element of a 32-bit source is a field of its bits. -/
theorem elem_src {s : State} {i : Instr} {f : Info} {w : Word} {k : Nat} {r : Reg} (hgoes : Goes s i f w)
    (hfield : f.src[k]? = some (u32 r)) (n L j : Nat) : elem n (w.src k L) j = ((w.opnd32 k L).extractLsb' (n * j) n).toNat := by
  rw [← opnd32_toNat hgoes hfield, elem_extract]

/-- Element `j` of 16 bits of source `k` in a format, negated where `neg` says so (11, R285). -/
def half (w : Word) (ty : Ty) (k : Nat) (neg : Bool) (L j : Nat) : FVal :=
  (fmtOf ty).val ((fmtOf ty).modify neg false ((w.opnd32 k L).extractLsb' (16 * j) 16).toNat)

theorem val_pk {s : State} {i : Instr} {f : Info} {w : Word} {k : Nat} {r : Reg} (hgoes : Goes s i f w)
    (hfield : f.src[k]? = some (u32 r)) (ty : Ty) (neg : Bool) (L j : Nat) :
    (fmtOf ty).val (w.pk ty k neg L j) = half w ty k neg L j := by
  rw [Word.pk, elem_src hgoes hfield, half]

section Packed
variable {h : Hdr} {d a b c : Reg} {m : FMods} {ty : Ty} {rm : Rm}

theorem pkadd_computes : Computes (.pkadd h d a b m ty rm) (u32 d) (fun w L => pack2 fun j =>
    (fmtOf ty).round rm (fsum rm [half w ty 0 m.na L j, half w ty 1 m.nb L j])) :=
  computes rfl (.head _) (fun _ => rfl) (fun _ _ => rfl) fun _ w hgoes L _ => by
    simp only [Fmt.add, val_pk (k := 0) hgoes rfl, val_pk (k := 1) hgoes rfl]

theorem pkmul_computes : Computes (.pkmul h d a b m ty rm) (u32 d) (fun w L => pack2 fun j =>
    (fmtOf ty).round rm ((half w ty 0 m.na L j).mul (half w ty 1 m.nb L j))) :=
  computes rfl (.head _) (fun _ => rfl) (fun _ _ => rfl) fun _ w hgoes L _ => by
    simp only [Fmt.mulEnc, val_pk (k := 0) hgoes rfl, val_pk (k := 1) hgoes rfl]

theorem pkfma_computes : Computes (.pkfma h d a b c m ty rm) (u32 d) (fun w L => pack2 fun j =>
    (fmtOf ty).round rm (fsum rm [(half w ty 0 m.na L j).mul (half w ty 1 m.nb L j), half w ty 2 m.nc L j])) :=
  computes rfl (.head _) (fun _ => rfl) (fun _ _ => rfl) fun _ w hgoes L _ => by
    simp only [Fmt.fma, val_pk (k := 0) hgoes rfl, val_pk (k := 1) hgoes rfl, val_pk (k := 2) hgoes rfl]

theorem pkdot_computes : Computes (.pkdot h d a b c m ty rm) (u32 d) (fun w L => f32.round rm
    (fsum rm [f32.val (f32.modify m.nc false (w.src 2 L)), (half w ty 0 m.na L 0).mul (half w ty 1 m.nb L 0),
      (half w ty 0 m.na L 1).mul (half w ty 1 m.nb L 1)])) :=
  computes rfl (.head _) (fun _ => rfl) (fun _ _ => rfl) fun _ w hgoes L _ => by
    simp only [val_pk (k := 0) hgoes rfl, val_pk (k := 1) hgoes rfl]
end Packed

/-! ### BDOT4 -/

/-- A byte of 32 bits, signed or unsigned. -/
def byteOf (sgn : Bool) (x : W32) (k : Nat) : Int :=
  let e := x.extractLsb' (8 * k) 8
  if sgn then e.toInt else (e.toNat : Int)

/-- The accumulator and four products of bytes (11, R286). -/
def dot4 (sa sb : Bool) (x y z : W32) : Int :=
  z.toInt + (byteOf sa x 0 * byteOf sb y 0 + byteOf sa x 1 * byteOf sb y 1 + byteOf sa x 2 * byteOf sb y 2 + byteOf sa x 3 * byteOf sb y 3)

theorem bdot4Op_eq (sa sb sat : Bool) (x y z : W32) : bdot4Op sa sb sat x.toNat y.toNat z.toNat =
    if sat then clamp .s32 (dot4 sa sb x y z) else dot4 sa sb x y z := by
  have hacc : signed 32 z.toNat = z.toInt := by rw [signed_eq, BitVec.ofInt_natCast, BitVec.ofNat_toNat, BitVec.setWidth_eq]
  have hsum : signed 32 z.toNat + ((List.range 4).map fun k => byteVal sa (elem 8 x.toNat k) * byteVal sb (elem 8 y.toNat k)).sum =
      dot4 sa sb x y z := by
    simp only [byteVal_eq, hacc, List.range, List.range.loop, List.map_cons, List.map_nil, List.sum_cons, List.sum_nil, dot4, byteOf]
    omega
  rw [bdot4Op, hsum, tySat_clamp]

theorem bdot4_computes {h : Hdr} {d a b c : Reg} {sa sb sat : Bool} : Computes (.bdot4 h d a b c sa sb sat) (u32 d) (fun w L =>
    (BitVec.ofInt 32 (if sat then clamp .s32 (dot4 sa sb (w.opnd32 0 L) (w.opnd32 1 L) (w.opnd32 2 L))
      else dot4 sa sb (w.opnd32 0 L) (w.opnd32 1 L) (w.opnd32 2 L))).toNat) := by
  refine computes rfl (.head _) (val' := fun w L => tyRes .s32 (bdot4Op sa sb sat (w.src 0 L) (w.src 1 L) (w.src 2 L)))
    (fun _ => rfl) (fun _ _ => rfl) fun _ w hgoes L _ => ?_
  rw [← bdot4Op_eq, opnd32_toNat (k := 0) hgoes rfl, opnd32_toNat (k := 1) hgoes rfl, opnd32_toNat (k := 2) hgoes rfl, tyRes_eq]
  rfl

/-! ### Conversions of one value -/

section Conversions
variable {h : Hdr} {d a b : Reg} {ty sty : Ty} {rm : Rm} {hi : Bool} {ix : BitVec 2}

theorem fcvt_computes : Computes (.fcvt h d a ty sty rm) (uty ty d)
    (fun w L => (fmtOf ty).conv rm ((fmtOf sty).val (w.opnd sty 0 L).toNat)) :=
  computes rfl (.head _) (fun _ => rfl) (fun _ _ => rfl) fun _ w _ L _ => by rw [mod_role]

theorem itof_computes : Computes (.itof h d a ty sty rm) (uty ty d) (fun w L =>
    let x := tyInt sty (w.opnd sty 0 L)
    (fmtOf ty).conv rm (.fin (decide (x < 0)) x.natAbs 0)) :=
  computes rfl (.head _) (fun _ => rfl) (fun _ _ => rfl) fun _ w _ L _ => by rw [int_eq, intVal]

/-- The integer of a value that is integral, clamped to the range of a type (11, R289). -/
def clampedInt (ty : Ty) (v : FVal) : Int :=
  let lo : Int := if ty.isSigned then -2 ^ (ty.bits - 1) else 0
  let hi : Int := if ty.isSigned then 2 ^ (ty.bits - 1) - 1 else 2 ^ ty.bits - 1
  match v with
  | .nan => 0
  | .inf n => if n then lo else hi
  | .fin n m e => clamp ty ((if n then -1 else 1) * (m * 2 ^ e.toNat))

theorem toInt_clampedInt (ty : Ty) (rm : Rm) (v : FVal) : v.toInt ty rm = clampedInt ty (v.integral rm) := by
  unfold FVal.toInt clampedInt
  cases v.integral rm with
  | nan => rfl
  | inf n => simp [tyMin, tyMax]
  | fin n m e => simp [tySat_clamp]

theorem ftoi_computes : Computes (.ftoi h d a ty sty rm) (uty ty d) (fun w L =>
    widened ty (BitVec.ofInt ty.bits (clampedInt ty (((fmtOf sty).val (w.opnd sty 0 L).toNat).integral rm)))) :=
  putTy_computes _ rfl (.head _) (fun _ => rfl) (fun _ _ => rfl) fun w L => by rw [toInt_clampedInt, mod_role]

theorem funpk_computes : Computes (.funpk h d a ty ix) (u32 d) (fun w L =>
    f32.conv .rne ((fmtOf ty).val ((w.opnd32 0 L).extractLsb' (ty.bits * ix.toNat) ty.bits).toNat)) :=
  computes rfl (.head _) (fun _ => rfl) (fun _ _ => rfl) fun _ w hgoes L _ => by rw [elem_src (k := 0) hgoes rfl]

theorem rngk_computes : Computes (.rngk h d a b) (u32 d) (fun w L => (rngk (w.opnd64 0 L) (w.opnd64 1 L)).toNat) :=
  computes rfl (.head _) (fun _ => rfl) (fun _ _ => rfl) fun _ _ _ _ _ => rfl

/-! ### FPACK -/

theorem append_toNat {n k : Nat} (x : BitVec n) (y : BitVec k) : (y ++ x).toNat = x.toNat + 2 ^ n * y.toNat := by
  rw [BitVec.toNat_append, ← Nat.shiftLeft_add_eq_or_of_lt x.isLt, Nat.shiftLeft_eq, Nat.add_comm, Nat.mul_comm]

/-- What a conversion gives is a number of its type's bits. -/
theorem conv_toNat {n : Nat} (hany : ty.isAnyFloat = true) (hn : ty.bits = n) (v : FVal) :
    (BitVec.ofNat n ((fmtOf ty).conv rm v)).toNat = (fmtOf ty).conv rm v := by
  subst hn
  exact Nat.mod_eq_of_lt (conv_bits ty rm v hany)

/-- The register that FPACK writes of two converted values and its old destination (11, R290). -/
def packed (ty : Ty) (hi : Bool) (x y : Nat) (old : W32) : Nat :=
  if ty.bits = 16 then (BitVec.ofNat 16 y ++ BitVec.ofNat 16 x).toNat
  else if hi then (BitVec.ofNat 8 y ++ BitVec.ofNat 8 x ++ old.extractLsb' 0 16).toNat
  else (old.extractLsb' 16 16 ++ BitVec.ofNat 8 y ++ BitVec.ofNat 8 x).toNat

theorem packed_16 (hany : ty.isAnyFloat = true) (h16 : ty.bits = 16) (u v : FVal) (old : W32) :
    packed ty hi ((fmtOf ty).conv rm u) ((fmtOf ty).conv rm v) old = (fmtOf ty).conv rm u + 2 ^ 16 * (fmtOf ty).conv rm v := by
  rw [packed, if_pos h16, append_toNat, conv_toNat hany h16, conv_toNat hany h16]

theorem packed_8 (hany : ty.isAnyFloat = true) (h8 : ty.bits = 8) (u v : FVal) (old : W32) :
    packed ty hi ((fmtOf ty).conv rm u) ((fmtOf ty).conv rm v) old =
      let two := (fmtOf ty).conv rm u + 2 ^ 8 * (fmtOf ty).conv rm v
      if hi then old.toNat % 2 ^ 16 + 2 ^ 16 * two else old.toNat / 2 ^ 16 * 2 ^ 16 + two := by
  have hold := old.isLt
  rw [packed, if_neg (by omega)]
  simp only [append_toNat, conv_toNat hany h8, BitVec.extractLsb'_toNat, Nat.shiftRight_eq_div_pow]
  split <;> omega

theorem fpack_computes : Computes (.fpack h d a b ty rm hi) (u32 d) (fun w L =>
    packed ty hi ((fmtOf ty).conv rm (f32.val (w.src 0 L))) ((fmtOf ty).conv rm (f32.val (w.src 1 L))) (w.opnd32 2 L)) := by
  refine computes rfl (.head _) (fun _ => rfl) (fun _ _ => rfl) fun s w hgoes L _ => ?_
  have hok := info_ok hgoes
  simp only [Bool.and_eq_true, bne_iff_ne] at hok
  obtain ⟨⟨⟨hany, h32⟩, h64⟩, -⟩ := hok
  by_cases h8 : ty.bits = 8
  · have hold : (w.opnd32 2 L).toNat = w.src 2 L := opnd32_toNat (r := d) hgoes (by simp [h8]) L
    rw [packed_8 hany h8, hold]
    exact if_pos h8
  · rw [packed_16 hany (bits16 hany h8 h32 h64)]
    exact if_neg h8
end Conversions

/-- Settles O12: one law per word. -/
theorem packedAndConversions : Obligations.PackedAndConversions := by
  unfold Obligations.PackedAndConversions
  exact ⟨fun h d a b c m ty rm sa sb sat => ⟨pkadd_computes, pkmul_computes, pkfma_computes, pkdot_computes, bdot4_computes⟩,
    fun h d a b ty sty rm hi ix => ⟨fcvt_computes, itof_computes, ftoi_computes, fpack_computes, funpk_computes, rngk_computes⟩⟩

end Sys2Proof.Proofs
end

section
/-! Words across lanes: LXCH, POLL, LRED, PEER and BCAST (14, R338 to R343). -/

namespace Sys2Proof.Proofs
open Sys2Proof.Machine Sys2Proof.Laws

/-! ### LXCH -/

/-- Settles O14: `lxch_eq` is the lane that mode and segment name, `Word.laneVal` its value where it is live. -/
theorem laneExchange : Obligations.LaneExchange := by
  unfold Obligations.LaneExchange
  intro h d a b imm mode seg size lane value
  have hlane : ∀ k L, lxchSrc mode (segSize seg) k L = lane k L := lxch_eq mode seg
  exact ⟨computes rfl (.head _) (fun _ => rfl) (fun _ _ => rfl) fun _ w _ _ _ => congrArg w.laneVal (hlane _ _),
    computes rfl (.head _) (fun _ => rfl) (fun _ _ => rfl) fun _ w _ _ _ => congrArg w.laneVal (hlane _ _)⟩

/-! ### POLL -/

/-- Lane `L` is active and has the predicate, or, where it is inverted, has not. -/
def polled (w : Word) (a : Pred) (inv : Bool) (L : Nat) : Bool := inMask w.act L && (inMask (w.g.pred a) L != inv)

theorem any_polled (w : Word) (a : Pred) (inv : Bool) : lanes32.any (polled w a inv) = (w.pollMask a inv != 0#32) := by
  rw [any_mask, poll_mask]
  rfl
theorem all_polled (w : Word) (a : Pred) (inv : Bool) :
    lanes32.all (fun L => !(inMask w.act L) || polled w a inv L) = (w.pollMask a inv == w.act) :=
  (all_mask w.act fun L => inMask (w.g.pred a) L != inv).trans (by rw [poll_mask])

section Poll
variable {h : Hdr} {p a : Pred} {r : Reg} {inv : Bool}

theorem poll_some : Decides (.poll h (.some p) a inv) p (fun w _ => lanes32.any (polled w a inv)) :=
  decides rfl (.head _) (val' := fun w _ => w.pollMask a inv != 0#32) (fun _ => rfl) (fun _ _ => rfl) fun _ w _ _ _ => (any_polled w a inv).symm
theorem poll_every : Decides (.poll h (.every p) a inv) p (fun w _ => lanes32.all (fun L => !(inMask w.act L) || polled w a inv L)) :=
  decides rfl (.head _) (val' := fun w _ => w.pollMask a inv == w.act) (fun _ => rfl) (fun _ _ => rfl) fun _ w _ _ _ => (all_polled w a inv).symm
theorem poll_same : Decides (.poll h (.same p) a inv) p
    (fun w _ => lanes32.all (fun L => !(inMask w.act L) || polled w a inv L) || !(lanes32.any (polled w a inv))) :=
  decides rfl (.head _) (val' := fun w _ => w.pollMask a inv == w.act || w.pollMask a inv == 0#32) (fun _ => rfl) (fun _ _ => rfl)
    fun _ w _ _ _ => by rw [all_polled, any_polled, bne, Bool.not_not]
theorem poll_mask_computes : Computes (.poll h (.mask r) a inv) (uvs r) (fun w _ => (maskOf (polled w a inv)).toNat) :=
  computes rfl (.head _) (val' := fun w _ => (w.pollMask a inv).toNat) (fun _ => rfl) (fun _ _ => rfl)
    fun _ w _ _ _ => congrArg BitVec.toNat (poll_mask w a inv)
end Poll

/-! ### LRED -/

section Lred
variable {h : Hdr} {d a : Reg} {op : LOp} {ty : Ty}

/-- The value of the reduction over the active lanes, where there is one. -/
def reduced (op : LOp) (ty : Ty) (w : Word) : Option Nat :=
  lred (lredOp op ty) fun L => if inMask w.act L then some (w.src 0 L) else none

/-- With no lane active a V or S register is not written. -/
theorem put_inactive {w : Word} (hnone : w.act = 0#32) (hok : (uvs d).ok true = true) (v : Nat → Nat) : w.put (uvs d) v = [] := by
  have hlanes : w.lanes = [] := by rw [Word.lanes, hnone]; decide
  cases d with
  | v n => exact congrArg (List.map _) hlanes
  | s n => exact if_pos hnone
  | q k => exact Bool.noConfusion hok
  | sel x => rfl
  | z => rfl

theorem lred_computes : Computes (.lred h d a op ty) (uvs d) (fun w _ => (reduced op ty w).getD 0) := by
  refine computesK rfl (.head _) (fun w => match reduced op ty w with
    | some x => w.put (uvs d) fun _ => x
    | none => []) (fun _ => rfl) (fun _ _ => rfl) fun s w hgoes => ?_
  cases hred : reduced op ty w with
  | some x => exact ⟨fun _ => x, rfl, fun _ _ => rfl⟩
  | none =>
    have hfields := formed_fields hgoes.formed hgoes.info
    rw [Info.fieldsOk, Bool.and_eq_true, List.all_eq_true] at hfields
    exact ⟨fun _ => 0, (put_inactive (lanes_none _ _ hred) (hfields.1 _ (.head _)) _).symm, fun _ _ => rfl⟩
end Lred

/-! ### PEER and BCAST -/

section Peer
variable {h : Hdr} {d a b : Reg} {ty : Ty} {whole first : Bool}

theorem peer_computes : Computes (.peer h d a ty whole) (uv d) (fun w L =>
    let same := maskOf fun K => inMask w.act K && w.src 0 K == w.src 0 L
    if whole = false then same.toNat else if same = w.act then w.act.toNat else 0) := by
  refine computes rfl (.head _) (fun _ => rfl) (fun _ _ => rfl) fun _ w _ L _ => ?_
  cases whole <;> rfl
theorem bcast_computes : Computes (.bcast h d a b first) (uvs d) (fun w _ =>
    w.laneVal (if first then (laneList w.act).headD 0 else w.src 1 0 % 32)) :=
  computes rfl (.head _) (fun _ => rfl) (fun _ _ => rfl) fun _ _ _ _ _ => rfl
end Peer

/-- Settles O15: one law per word; `lred_eq` is the order of the reduction. -/
theorem pollsAndReductions : Obligations.PollsAndReductions := by
  unfold Obligations.PollsAndReductions
  refine ⟨fun h p a r inv => ⟨poll_some, poll_every, poll_same, poll_mask_computes⟩,
    fun h d a b op ty whole first => ⟨?_, peer_computes, bcast_computes⟩⟩
  have hlred := @lred_computes h d a op ty
  simp only [reduced, lred_eq] at hlred
  exact hlred

end Sys2Proof.Proofs
end

section
/-! Special registers, traps and marks (14, R355 to R357). -/

namespace Sys2Proof.Proofs
open Sys2Proof.Machine Sys2Proof.Laws

/-! ### SRD and SWR -/

section Special
variable {h : Hdr} {d a : Reg} {r : SReg}

/-- A register that is not logged, or that the walker routine reads, gives its value in each lane. -/
theorem srd_reads : Performs (.srd h d r)
    (fun _ w => (r.perLane = true → isWalker w.gs = false) ∧ (sregLogged r = false ∨ isWalker w.gs = true))
    (fun w s => s.deliver w (fieldsOf (.srd h d r)) (w.put ⟨d, r.role, .vs⟩ (s.sreg w r))) := by
  refine performs_of _ (fun _ => rfl) fun s w _ hc => ?_
  obtain ⟨hallowed, hunlogged⟩ := hc
  have hlane : ¬ (r.perLane && isWalker w.gs) = true := fun hbad => by
    rw [Bool.and_eq_true] at hbad
    exact Bool.noConfusion ((hallowed hbad.1).symm.trans hbad.2)
  have hplain : (!sregLogged r || isWalker w.gs) = true := or_tt (hunlogged.imp_left fun hoff => by rw [hoff]; rfl)
  exact (if_neg hlane).trans (if_pos hplain)
/-- A counter is read once, and the read is in the record. -/
theorem srd_logs : Performs (.srd h d r) (fun _ w => isWalker w.gs = false ∧ sregLogged r = true)
    (fun w s => (s.logGroup w.g 5 0xFF (s.rwcNow w.gs w.g) (sregNum r) (BitVec.ofNat 64 (s.sreg w r 0))).deliver w
      (fieldsOf (.srd h d r)) (w.put ⟨d, r.role, .vs⟩ fun _ => s.sreg w r 0)) := by
  refine performs_of _ (fun _ => rfl) fun s w hfound hc => ?_
  obtain ⟨hgroup, hlogged⟩ := hc
  have hlane : ¬ (r.perLane && isWalker w.gs) = true := by simp [hgroup]
  have hrecords : ¬ (!sregLogged r || isWalker w.gs) = true := by simp [hlogged, hgroup]
  refine (if_neg hlane).trans ((if_neg hrecords).trans ?_)
  simp only [gate_group hfound]
  rfl
theorem srd_walker : Traps (.srd h d r) (fun _ w => r.perLane = true ∧ isWalker w.gs = true)
    (fun w => { code := 0x02, lanes := w.slot.mask }) (fun _ s => s) :=
  traps_of _ (fun _ => rfl) (fun _ _ _ hc => if_pos ((Bool.and_eq_true _ _).mpr hc)) fun _ _ _ => .inl rfl

theorem swr_writes : Performs (.swr h a r) (fun _ w => w.some) (fun w s => w.now s { w.g with gtcmp := w.opnd64 0 0 }) :=
  performs_of _ (fun _ => rfl) fun _ _ hfound hsome => (if_neg hsome).trans (congrArg Eff.done (upd_found hfound _))
theorem swr_inactive : Performs (.swr h a r) (fun _ w => w.none) (fun _ s => s) :=
  performs_of _ (fun _ => rfl) fun _ _ _ hnone => if_pos hnone
end Special

/-- Settles O34: one law per word and kind of register. -/
theorem specialRegisters : Obligations.SpecialRegisters := by
  unfold Obligations.SpecialRegisters
  exact fun h d a r => ⟨srd_reads, srd_logs, srd_walker, swr_writes, swr_inactive⟩

/-! ### TRAP, BPT and MARK -/

section Marks
variable {h : Hdr} {imm : W32}

theorem trap_raises : Traps (.trap h imm) (fun _ w => w.some) (fun w => { code := 0x30, lanes := w.act, info := imm.setWidth 64 }) (fun _ s => s) :=
  traps_of _ (fun _ => rfl) (fun _ _ _ hsome => if_neg hsome) fun _ _ _ => .inl rfl
theorem bpt_raises : Traps (.bpt h imm) (fun _ w => w.some) (fun w => { code := 0x31, lanes := w.act, info := imm.setWidth 64 })
    (fun w s => s.traceMark w.gs w.g w.slot.pc imm w.act) :=
  traps_of _ (fun _ => rfl) (fun _ _ _ hsome => if_neg hsome) fun _ _ _ => .inl rfl
theorem mark_traces : Performs (.mark h imm) (fun _ w => w.some) (fun w s => s.traceMark w.gs w.g w.slot.pc imm w.act) :=
  performs_of _ (fun _ => rfl) fun _ _ _ hsome => if_neg hsome
theorem marks_inactive {i : Instr} (hi : i ∈ [Instr.trap h imm, .bpt h imm, .mark h imm]) : Performs i (fun _ w => w.none) (fun _ s => s) := by
  simp only [List.mem_cons, List.not_mem_nil, or_false] at hi
  rcases hi with rfl | rfl | rfl <;> exact performs_of _ (fun _ => rfl) fun _ _ _ hnone => if_pos hnone
end Marks

/-- Settles O35: one law per word, and one for a word with no active lane. -/
theorem trapsAndMarks : Obligations.TrapsAndMarks := by
  unfold Obligations.TrapsAndMarks
  exact fun h imm => ⟨trap_raises, bpt_raises, mark_traces, fun _ => marks_inactive⟩
end Sys2Proof.Proofs
end

section
/-! Every step leaves a state (15, R361): a move is a word's issue, a step of an agent, cycles, or a turn of the round. -/

namespace Sys2Proof.Proofs
open Sys2Proof.Machine Sys2Proof.Laws

/-- A round whose candidates all go on finds a next state; past the last of them a cycle passes. -/
theorem tryFrom_goesOn (s : State) : ∀ (l : List Cand) (n : Nat), AllGoOn l → ∃ t, s.tryFrom l n = .next t
  | [], _, _ => ⟨_, rfl⟩
  | c :: l, n, hall => by
    obtain ⟨u, hu⟩ := hall c (.head _) s
    rw [State.tryFrom, hu]
    by_cases hsame : u = s
    · simp only [if_pos hsame]
      exact tryFrom_goesOn s l (n + 1) fun x hx => hall x (.tail _ hx)
    · simp only [if_neg hsame]
      exact ⟨_, rfl⟩

theorem ownMove_goesOn (s : State) : ∃ t, s.ownMove = .next t :=
  tryFrom_goesOn s _ _ fun c hc => goesOn_cands s c (List.mem_of_mem_drop hc)

theorem issueMove_goesOn (s : State) (gs : Nat) (b : Bool) : ∃ t, s.issueMove gs b = .next t := by
  unfold State.issueMove
  obtain ⟨u, hu⟩ := goesOn_issueSlot s gs b
  rw [hu]
  split
  · exact ⟨_, rfl⟩
  · simp only
    split <;> exact ⟨_, rfl⟩

theorem move_goesOn (s : State) (m : Move) (hagent : ∀ i, m = .event i → i.info = none) : ∃ t, s.move m = .next t := by
  cases m with
  | issue gs b => exact issueMove_goesOn s gs b
  | event i => exact exec_of_event (hagent i rfl) s
  | elapse n => exact ⟨_, rfl⟩
  | own => exact ownMove_goesOn s

/-- Settles O43: a step is the agenda's first move, or one of the module's own. -/
theorem everyStepGoesOn : Obligations.EveryStepGoesOn := by
  unfold Obligations.EveryStepGoesOn
  intro s hagents
  cases hagenda : s.agenda with
  | nil =>
    rw [step_of_no_agenda hagenda]
    exact ownMove_goesOn s
  | cons m rest =>
    rw [step_of_agenda hagenda]
    refine move_goesOn _ m fun i hi => hagents i ?_
    rw [hagenda, hi]
    exact .head _
end Sys2Proof.Proofs
end

section
/-! The safe function: its commands and the registers of its queue (16, R390; 18, R409, R414, R415, R418 to R421, R440). -/

namespace Sys2Proof.Proofs
open Sys2Proof.Machine Sys2Proof.Laws

/-! ### Commands -/

theorem extendMeasurement_safely (pk : Nat) (s : State) : exec (.extendMeasurement pk) s = s.safely pk 0x26 fun p s =>
    if (p.op 0x10).toNat = 6 ∨ (p.op 0x10).toNat = 7 then some (s.extend (p.op 0x10).toNat p.digest) else none := rfl
theorem setInjector_safely (pk : Nat) (s : State) : exec (.setInjector pk) s = s.safely pk 0x0E fun p s =>
    (injectorOf p).map fun x => { s with injs := if x.2.act = 0 then Tbl.del s.injs x.1 else Tbl.put s.injs x.1 [x.2] } := rfl

section SafeCommands
variable {s : State} {pk : Nat} {p : Packet} (hp : Tbl.find s.packets pk = some p) (hs : p.safe = true)
include hp hs

theorem packetCompletion_drops (hdone : p.st = .finished) : exec (.packetCompletion pk) s = .next (s.dropPk pk) := by
  refine congrArg Host.Outcome.next ?_
  simp only [hp]
  exact (if_pos hs).trans (if_pos hdone)

variable (ht : p.st = .taken)
include ht

/-- In stage 0xF1 a command other than attest and read audit log is not there. -/
theorem safe_stageF1 (hstage : s.sec.stage = 0xF1#8) :
    let fails := (.next ((s.dropPk pk).haltSafe 5 0) : Out)
    (p.cmd = 0x20 → exec (.createPartition pk) s = fails) ∧ (p.cmd = 0x21 → exec (.deletePartition pk) s = fails) ∧
    (p.cmd = 0x22 → exec (.setDomain pk) s = fails) ∧ (p.cmd = 0x25 → exec (.reclaimAuditLog pk) s = fails) ∧
    (p.cmd = 0x26 → exec (.extendMeasurement pk) s = fails) ∧ (p.cmd = 0x27 → exec (.setQueueTable pk) s = fails) ∧
    (p.cmd = 0x0E → exec (.setInjector pk) s = fails) := by
  have hoff : ∀ {cmd : Nat} {k : Packet → State → Option State}, p.cmd = cmd → cmd ≠ 0x23 → cmd ≠ 0x24 →
      s.safely pk cmd k = .next ((s.dropPk pk).haltSafe 5 0) := fun hk h23 h24 => safely_off hp hs ht hk hstage h23 h24 _
  refine ⟨fun hk => ?_, fun hk => ?_, fun hk => ?_, fun hk => ?_, fun hk => ?_, fun hk => ?_, fun hk => ?_⟩
  · exact (show execCreatePartition pk s = _ from hoff hk (by decide) (by decide))
  · exact (show execDeletePartition pk s = _ from hoff hk (by decide) (by decide))
  · exact (show execSetDomain pk s = _ from hoff hk (by decide) (by decide))
  · exact (show execReclaimAuditLog pk s = _ from hoff hk (by decide) (by decide))
  · exact (show execExtendMeasurement pk s = _ from hoff hk (by decide) (by decide))
  · exact (show execSetQueueTable pk s = _ from hoff hk (by decide) (by decide))
  · exact (show execSetInjector pk s = _ from hoff hk (by decide) (by decide))

variable (hstage : s.sec.stage ≠ 0xF1#8)
include hstage

theorem extendMeasurement_extends (hk : p.cmd = 0x26) (hreg : (p.op 0x10).toNat = 6 ∨ (p.op 0x10).toNat = 7) :
    exec (.extendMeasurement pk) s = .next ((s.extend (p.op 0x10).toNat p.digest).updPk pk fun p => { p with st := .finished }) :=
  safe_some hp hs ht (extendMeasurement_safely pk s) hk (.inl hstage) (if_pos hreg)
theorem extendMeasurement_fails (hk : p.cmd = 0x26) (h6 : (p.op 0x10).toNat ≠ 6) (h7 : (p.op 0x10).toNat ≠ 7) :
    exec (.extendMeasurement pk) s = .next ((s.dropPk pk).haltSafe 5 0) :=
  safe_none hp hs ht (extendMeasurement_safely pk s) hk (.inl hstage) (if_neg (not_or.mpr ⟨h6, h7⟩))
theorem setInjector_sets {x : Nat × Injector} (hk : p.cmd = 0x0E) (hlegal : injectorOf p = some x) :
    exec (.setInjector pk) s = .next (({ s with injs := if x.2.act = 0 then Tbl.del s.injs x.1 else Tbl.put s.injs x.1 [x.2] } : State).updPk pk
      fun p => { p with st := .finished }) :=
  safe_some hp hs ht (setInjector_safely pk s) hk (.inl hstage) (congrArg (Option.map _) hlegal)
theorem setInjector_fails (hk : p.cmd = 0x0E) (hillegal : injectorOf p = none) :
    exec (.setInjector pk) s = .next ((s.dropPk pk).haltSafe 5 0) :=
  safe_none hp hs ht (setInjector_safely pk s) hk (.inl hstage) (congrArg (Option.map _) hillegal)
end SafeCommands

/-! ### The registers of the safe queue -/

section SafeQueue
variable {s : State}

theorem safe_laneTake_idle (hidle : s.safeReady = false) : exec (.headboxLaneTake safeQueue) s = .next s :=
  congrArg Host.Outcome.next ((if_pos rfl).trans (if_pos (by rw [hidle]; rfl)))
theorem safe_reread_none (hnone : s.sec.sqreread = none) : exec (.headerRereadTimeout safeQueue) s = .next s := by
  refine congrArg Host.Outcome.next ((if_pos rfl).trans ?_)
  rw [hnone]

section Powered
variable (hpower : s.sec.powered = true) (v : W64)
include hpower

theorem sqbase_places (hsize : bits v 4 0 ≠ 0) : exec (.sqbaseWrite v) s = .next { s with sec := { s.sec with sqbase := ringReg v } } :=
  congrArg Host.Outcome.next ((if_neg (by rw [hpower]; decide)).trans (if_neg hsize))
theorem sqbase_resets (hsize : bits v 4 0 = 0) : exec (.sqbaseWrite v) s = .next { s with
    packets := s.packets.filter (fun p => !p.2.safe)
    sec := { s.sec with sqbase := ringReg v, sqrd := s.sec.sqdb, sqridx := s.sec.sqdb, sqerr := 0#8, sqdet := 0#8, sqhalt := false, sqreread := none } } :=
  congrArg Host.Outcome.next ((if_neg (by rw [hpower]; decide)).trans (if_pos hsize))
theorem safeDoorbell_raises (hruns : s.sec.sqhalt = false) (hv : v.toNat < 2 ^ 63) :
    exec (.safeQueueDoorbell v) s = .next { s with sec := { s.sec with sqdb := max s.sec.sqdb v.toNat, sqreread := none } } :=
  congrArg Host.Outcome.next (if_neg (by rw [hpower, hruns]; simpa using hv))
theorem sqridx_adds : exec (.sqridxAtomicAdd v) s = .next { s with
    hostOut := s.hostOut ++ [toBytes 8 s.sec.sqridx], sec := { s.sec with sqridx := (s.sec.sqridx + v.toNat) % 2 ^ 64 } } :=
  congrArg Host.Outcome.next (if_neg (by rw [hpower]; decide))
theorem nrbase_written : exec (.registerWrite 0x30 v) s = .next { s with sec := { s.sec with nrbase := ringReg v } } :=
  congrArg Host.Outcome.next (if_pos (by rw [hpower]; rfl))
end Powered

theorem safeDoorbell_ignored (v : W64) (hbad : s.sec.sqhalt = true ∨ 2 ^ 63 ≤ v.toNat) : exec (.safeQueueDoorbell v) s = .next s :=
  congrArg Host.Outcome.next (if_pos (or_tt (hbad.imp (or_tt <| .inr ·) decide_eq_true)))
/-- No other register is written so. -/
theorem register_ignored {off : Nat} (v : W64) (hoff : off ≠ 0x30) : exec (.registerWrite off v) s = .next s :=
  congrArg Host.Outcome.next (if_neg (by simp [hoff]))
/-- Without power the registers take nothing. -/
theorem unpowered_ignores (hpower : s.sec.powered = false) (v : W64) (off : Nat) :
    exec (.sqbaseWrite v) s = .next s ∧ exec (.safeQueueDoorbell v) s = .next s ∧ exec (.sqridxAtomicAdd v) s = .next s ∧
      exec (.registerWrite off v) s = .next s := by
  refine ⟨congrArg Host.Outcome.next (if_pos ?_), congrArg Host.Outcome.next (if_pos ?_), congrArg Host.Outcome.next (if_pos ?_),
    congrArg Host.Outcome.next (if_neg ?_)⟩ <;> simp [hpower]
end SafeQueue

/-- Settles O56: one law per command and register. -/
theorem safePackets : Obligations.SafePackets := by
  unfold Obligations.SafePackets
  refine fun s => ⟨fun pk p hp hs => ⟨packetCompletion_drops hp hs, safe_stageF1 hp hs, safe_attest hp hs, fun ht hk => safe_read hp hs ht hk _ rfl,
      fun ht hstage => ⟨fun hk => ?_, fun hk => ?_, fun hk => ?_, fun hk => ?_, fun hk => ?_, fun hk => ?_, fun hk => ?_⟩⟩,
    safe_laneTake_idle, safe_reread_none, fun v hpower => ⟨sqbase_places hpower v, sqbase_resets hpower v, safeDoorbell_raises hpower v,
      safeDoorbell_ignored v, sqridx_adds hpower v, nrbase_written hpower v, fun _ => register_ignored v⟩,
    fun v off hpower => unpowered_ignores hpower v off⟩
  · exact safe_create hp hs ht hk hstage _ rfl
  · obtain ⟨hdeletes, hfails⟩ := safe_delete hp hs ht hk hstage
    exact ⟨fun x hx hroom hreleased => hdeletes x hx hroom hreleased _ _ rfl rfl, hfails⟩
  · obtain ⟨hsets, hfails⟩ := safe_domain hp hs ht hk hstage _ rfl
    exact ⟨fun h1 h2 h3 h4 h5 h6 h7 => hsets h1 h2 h3 h4 h5 h6 h7 _ rfl, hfails⟩
  · exact safe_reclaim hp hs ht hk hstage
  · exact ⟨extendMeasurement_extends hp hs ht hstage hk, extendMeasurement_fails hp hs ht hstage hk⟩
  · exact safe_table hp hs ht hk hstage
  · exact ⟨fun _ => setInjector_sets hp hs ht hstage hk, setInjector_fails hp hs ht hstage hk⟩
end Sys2Proof.Proofs
end

section
/-! Matrix words: what a team of one starts, and the zero map (13, R309 to R336). -/

namespace Sys2Proof.Proofs
open Sys2Proof.Machine Sys2Proof.Laws

/-! ### Words that start an operation -/

/-- The word's group is a team of its own, its core's queue has room, and its operands are good. -/
def teamReady (i : Instr) (good : State → Word → Prop) (s : State) (w : Word) : Prop :=
  s.TeamAlone w ∧ ((s.teamed w).core (coreOf w.gs)).eng.length < 64 ∧ good (s.teamed w) (w.teamed i s)

/-- A matrix word whose good operands come to one operation of its core starts it. -/
theorem team_starts {i : Instr} {prep : Word → State → Prep} (he : ∀ s, exec i s = matIssue i prep s) (hi : i.info = some (fieldsOf i))
    {good : State → Word → Prop} {kind : Word → MatKind} (hprep : ∀ s w, good s w → prep w s = .go (kind w) [coreOf w.gs] none) :
    Performs i (teamReady i good) (fun w s => s.matStarted w (kind (w.teamed i s))) :=
  team_performs he hi (fun s w => kind (w.teamed i s)) fun _ _ ⟨halone, hroom, hgood⟩ => ⟨halone, hroom, hprep _ _ hgood⟩

/-- The descriptor of a tile image is good, and the member that it names is there. -/
def imageGood (s : State) (w : Word) : Prop :=
  breachCause [s.checkDesc w (w.s64 0) 64 32 4] false w.slot.mask = none ∧ s.membersHere w [w.s64 0] = true
theorem prepImage_goes (k : W64 → MatKind) {s : State} {w : Word} (hgood : imageGood s w) :
    prepImage k w s = .go (k (w.s64 0)) [coreOf w.gs] none := by
  obtain ⟨hdesc, hhere⟩ := hgood
  unfold prepImage
  rw [hdesc]
  exact if_pos hhere

/-- The operands of an MMA of one core are good. -/
def mmaGood (c : Reg) (s : State) (w : Word) : Prop :=
  let fa := w.sNext c 0
  let fb := w.sNext c 1
  breachCause [s.checkDesc w (w.s64 0) 64 128 (efSize (fmtEf fa)), s.checkDesc w (w.s64 1) 128 32 (efSize (fmtEf fb)),
    s.checkScale w fa (w.sNext c 2) (aScales (fmtBl fa)), s.checkScale w fb (w.sNext c 3) (bScales (fmtBl fb) 32),
    { desc := fmtBad fa false || fmtBad fb false || isI8 fa != isI8 fb }] false w.slot.mask = none ∧
  s.membersHere w ([w.s64 0, w.s64 1] ++ ((if fmtSf fa = 1 then [w.sNext c 2] else []) ++ (if fmtSf fb = 1 then [w.sNext c 3] else []))) = true
theorem prepMma_goes {t k : Nat} {c : Reg} {sp ck : Bool} {s : State} {w : Word} (hgood : mmaGood c s w) :
    prepMma t c .single sp ck k w s =
      .go (.mma t (w.s64 0) (w.s64 1) (w.sNext c 0) (w.sNext c 1) (w.sNext c 2) (w.sNext c 3) false sp ck k) [coreOf w.gs] none := by
  obtain ⟨hdesc, hhere⟩ := hgood
  unfold prepMma
  simp only [show (MForm.single == .pair) = false from rfl, show (MForm.single == .quad) = false from rfl, reduceCtorEq, if_false,
    Bool.false_and, Bool.or_self, hdesc]
  exact if_neg (by rw [hhere]; decide)

/-- The operation of an MMA of one core. -/
def mmaKind (t k : Tile) (c : Reg) (sp ck : Bool) (w : Word) : MatKind :=
  .mma t.val (w.s64 0) (w.s64 1) (w.sNext c 0) (w.sNext c 1) (w.sNext c 2) (w.sNext c 3) false sp ck k.val
/-- The operation of an MEPI. -/
def epiKind (t : Tile) (c : Reg) (w : Word) : MatKind := .epi t.val (w.s64 0) (w.s64 1) (w.sNext c 0) (w.sNext c 1)

/-- The operands of an MEPI are good. -/
def epiGood (c : Reg) (s : State) (w : Word) : Prop :=
  let bias := w.sNext c 0
  breachCause [s.checkDesc w (w.s64 0) 64 32 (epiSize (w.s64 1)),
    if bit (w.s64 1) 6 then { perm := s.localRange w (bits bias 23 0) 128, desc := bits bias 1 0 != 0 } else {},
    { desc := epiBad (w.s64 1) (w.sNext c 1) }] false w.slot.mask = none ∧
  s.membersHere w ([w.s64 0] ++ (if bit (w.s64 1) 6 then [bias] else [])) = true
/-- The report's descriptor of an MCHK is good. -/
def chkGood (s : State) (w : Word) : Prop :=
  breachCause [{ perm := s.localRange w (bits (w.s64 0) 23 0) 32, desc := descBad (w.s64 0) || descTr (w.s64 0) || descPitch (w.s64 0) != 0 }]
    false w.slot.mask = none ∧ s.membersHere w [w.s64 0] = true

section Starts
variable {h : Hdr} {t k : Tile} {a b c : Reg} {sp ck : Bool} {te : BitVec 6} {i8 : Bool}

theorem mzero_starts : Performs (.mzero h t) (teamReady (.mzero h t) fun _ _ => True) (fun w s => s.matStarted w (.zero t.val)) :=
  team_starts (fun _ => rfl) rfl (kind := fun _ => .zero t.val) fun _ _ _ => rfl
theorem mldt_starts : Performs (.mldt h t a) (teamReady (.mldt h t a) imageGood)
    (fun w s => s.matStarted w (.load t.val ((w.teamed (.mldt h t a) s).s64 0))) :=
  team_starts (fun _ => rfl) rfl (kind := fun w => .load t.val (w.s64 0)) fun _ _ => prepImage_goes (.load t.val)
theorem mstt_starts : Performs (.mstt h t a) (teamReady (.mstt h t a) imageGood)
    (fun w s => s.matStarted w (.store t.val ((w.teamed (.mstt h t a) s).s64 0))) :=
  team_starts (fun _ => rfl) rfl (kind := fun w => .store t.val (w.s64 0)) fun _ _ => prepImage_goes (.store t.val)
theorem mma_starts : Performs (.mma h t a b c .single sp ck k) (teamReady (.mma h t a b c .single sp ck k) (mmaGood c))
    (fun w s => s.matStarted w (mmaKind t k c sp ck (w.teamed (.mma h t a b c .single sp ck k) s))) :=
  team_starts (fun _ => rfl) rfl (kind := mmaKind t k c sp ck) fun _ _ => prepMma_goes
theorem mepi_starts : Performs (.mepi h t a b c) (teamReady (.mepi h t a b c) (epiGood c))
    (fun w s => s.matStarted w (epiKind t c (w.teamed (.mepi h t a b c) s))) :=
  team_starts (fun _ => rfl) rfl (kind := epiKind t c) fun s w ⟨hdesc, hhere⟩ => by
    simp only [hdesc]
    exact if_pos hhere
theorem mchk_starts : Performs (.mchk h t k b te i8) (teamReady (.mchk h t k b te i8) chkGood)
    (fun w s => s.matStarted w (.chk t.val k.val ((w.teamed (.mchk h t k b te i8) s).s64 0) te.toNat i8)) :=
  team_starts (fun _ => rfl) rfl (kind := fun w => .chk t.val k.val (w.s64 0) te.toNat i8) fun s w ⟨hdesc, hhere⟩ => by
    simp only [hdesc]
    exact if_pos hhere

/-- Every matrix word has the common frame of its team. -/
theorem matrix_word {form : MForm} {i : Instr}
    (hi : i ∈ [Instr.mma h t a b c form sp ck k, .mzero h t, .mldt h t a, .mstt h t a, .mepi h t a b c, .mchk h t k b te i8]) :
    ∃ prep, (∀ s, exec i s = matIssue i prep s) ∧ i.info = some (fieldsOf i) := by
  simp only [List.mem_cons, List.not_mem_nil, or_false] at hi
  rcases hi with rfl | rfl | rfl | rfl | rfl | rfl <;> exact ⟨_, fun _ => rfl, rfl⟩
end Starts

/-! ### MZMAP -/

section Mzmap
variable {h : Hdr} {d : Reg} {t : Tile}

theorem mzmap_reads : Performs (.mzmap h d t) (fun s w => (s.core (coreOf w.gs)).cols ≠ 0)
    (fun w s => w.now s (w.g.writes (w.put ⟨d, .r128, .sOnly⟩ fun _ =>
      if (s.core (coreOf w.gs)).holder = some w.g.wg then (Tbl.get 0#128 (s.core (coreOf w.gs)).zmaps t.val).toNat else 0))) := by
  refine performs_of _ (fun _ => rfl) fun s w hfound hcols => ?_
  refine (if_neg hcols).trans (congrArg Eff.done ((upd_found hfound _).trans ?_))
  refine congrArg (fun z => w.now s (w.g.writes (w.put ⟨d, .r128, .sOnly⟩ fun _ => z))) ?_
  exact apply_ite BitVec.toNat _ _ _
theorem mzmap_noArray : Traps (.mzmap h d t) (fun s w => s.service w.g = true ∧ (s.core (coreOf w.gs)).cols = 0)
    (fun w => { code := 0x28, lanes := w.slot.mask }) (fun _ s => s) :=
  traps_of _ (fun _ => rfl) (fun _ _ _ hc => if_pos hc.2) fun _ _ hc => .inr hc.1
end Mzmap

/-- Settles O28: one law per word for the start of its operation, and one for the common frame. -/
theorem matrixWords : Obligations.MatrixWords := by
  unfold Obligations.MatrixWords
  refine ⟨fun h t k a b c form sp ck te i8 => ⟨mzero_starts, mldt_starts, mstt_starts, mma_starts, mepi_starts, mchk_starts, fun i hi => ?_,
    fun s w kind _ => matStarted_eng s w kind⟩, fun h d t => ⟨mzmap_reads, mzmap_noArray⟩⟩
  obtain ⟨prep, hexec, hinfo⟩ := matrix_word hi
  exact team_answered hexec hinfo
end Sys2Proof.Proofs
end

section
/-! COLL and CABORT at their issue (14, R349, R352). -/

namespace Sys2Proof.Proofs
open Sys2Proof.Machine Sys2Proof.Laws

/-- The descriptor whose bytes begin at a place. -/
def collDesc (pa : Nat) (s : State) : CollDesc := parseColl ((List.range 8).map fun i => s.rd8 (pa + 8 * i))
/-- The operand is an aligned address, and its place is `pa`, on a page that is uncached or not. -/
def collSpot (pa : Nat) (u : Bool) (s : State) (w : Word) : Prop :=
  w.some ∧ w.src 0 0 % 64 = 0 ∧ (s.collTr w .store (w.src 0 0)).tr = .ok [.mem pa] u
/-- The descriptor is there and its bytes are good. -/
def collFound (pa : Nat) (u : Bool) (s : State) (w : Word) : Prop := collSpot pa u s w ∧ s.poisoned pa 64 = false
/-- Source and destination are aligned and translate. -/
def collLies (pa : Nat) (s : State) (w : Word) : Prop :=
  let len := min (collDesc pa s).count (2 ^ 24) * collSize (collDesc pa s).fmt
  (collDesc pa s).src % 16 = 0 ∧ (collDesc pa s).dst % 16 = 0 ∧
    allOk ((rangePages (collDesc pa s).src len).map (s.collTr w .load)) ∧ allOk ((rangePages (collDesc pa s).dst len).map (s.collTr w .store))
/-- The number of a collective among the group's in its communicator and attempt. -/
def collNth (pa : Nat) (s : State) (w : Word) : Nat :=
  ((w.g.collSeq.find? (fun c => c.1 == (collDesc pa s).comm && c.2.1 == (collDesc pa s).att)).map (·.2.2)).getD 0

/-- The state after a collective is entered: its participant has joined, and it stands in the open batch of its class. -/
def collEntered (pa : Nat) (w : Word) (s : State) : State :=
  let d := collDesc pa s
  let x := (s.notReplayable (s.spidOf w.g)).newId
  (x.2.joinColl w d (collNth pa s w) x.1).updGroup w.gs fun g =>
    { g.addOp .cl { id := x.1, pc := w.slot.pc } with
      collSeq := (d.comm, d.att, collNth pa s w + 1) :: g.collSeq.filter (fun c => !(c.1 == d.comm && c.2.1 == d.att)) }

section WithColl
variable {s : State} {w : Word} {k : CollDesc → Nat → Bool → Eff} {pa : Nat} {u : Bool}

theorem withColl_misaligned {ranges : Bool} (hsome : w.some) (hodd : w.src 0 0 % 64 ≠ 0) :
    s.withColl w ranges k = .trap { code := 0x08, lanes := w.act, addr := w.opnd64 0 0 } s := (if_neg hsome).trans (if_pos hodd)
theorem withColl_poisoned {ranges : Bool} (hspot : collSpot pa u s w) (hbytes : s.poisoned pa 64 = true) :
    s.withColl w ranges k = .trap { code := 0x28, lanes := w.act, addr := w.opnd64 0 0 } s := by
  obtain ⟨hsome, haligned, htr⟩ := hspot
  refine (if_neg hsome).trans ((if_neg (not_not_intro haligned)).trans ((withLanes_ok fun x hx => ?_).trans ?_))
  · rw [List.mem_singleton.mp hx]
    exact ⟨_, _, htr⟩
  · have hplace : (([s.collTr w .store (w.src 0 0)].head?.bind fun x => x.locs.head?).map Loc.pa).getD 0 = pa := by
      simp [LaneTr.locs, htr, Loc.pa]
    exact if_pos (by rw [hplace]; exact hbytes)
end WithColl

/-! ### COLL -/

section Coll
variable {h : Hdr} {a : Reg} {pa : Nat} {u : Bool}

/-- A COLL behind which no earlier write of its workgroup is under way does not wait. -/
theorem coll_proceeds {s : State} {w : Word} {k : Eff} (hearly : s.opWaits w.gs w.g.wg = false) :
    (if (w.act != 0#32 && s.opWaits w.gs w.g.wg) = true then Eff.wait .switchPark s else k) = k :=
  if_neg (by rw [hearly, Bool.and_false]; exact Bool.noConfusion)

theorem coll_enters : Performs (.coll h a) (fun s w => s.opWaits w.gs w.g.wg = false ∧ collFound pa u s w ∧ collLies pa s w ∧
      (collDesc pa s).bad = false ∧ s.collStale (collDesc pa s).comm (collDesc pa s).att = false ∧ (s.collsOf (dieOf (coreOf w.gs))).length < 64)
    (collEntered pa) := by
  refine performs_of _ (fun _ => rfl) fun s w _ hc => ?_
  obtain ⟨hearly, ⟨⟨hsome, haligned, htr⟩, hbytes⟩, hlies, hgood, hfresh, hroom⟩ := hc
  refine (coll_proceeds hearly).trans ((withColl_ok hsome haligned htr hbytes fun _ => hlies).trans ?_)
  exact (if_neg (ne_true_of_eq_false hgood)).trans ((if_neg (ne_true_of_eq_false hfresh)).trans (if_neg (not_le.mpr hroom)))
theorem coll_badDescriptor : Traps (.coll h a)
    (fun s w => s.opWaits w.gs w.g.wg = false ∧ collFound pa u s w ∧ collLies pa s w ∧ (collDesc pa s).bad = true)
    (fun w => { code := 0x22, lanes := w.act, addr := w.opnd64 0 0 }) (fun _ s => s) := by
  refine traps_of _ (fun _ => rfl) (fun s w _ hc => ?_) fun _ _ _ => .inl rfl
  obtain ⟨hearly, ⟨⟨hsome, haligned, htr⟩, hbytes⟩, hlies, hbad⟩ := hc
  exact (coll_proceeds hearly).trans ((withColl_ok hsome haligned htr hbytes fun _ => hlies).trans (if_pos hbad))
theorem coll_misaligned : Traps (.coll h a) (fun s w => s.opWaits w.gs w.g.wg = false ∧ w.some ∧ w.src 0 0 % 64 ≠ 0)
    (fun w => { code := 0x08, lanes := w.act, addr := w.opnd64 0 0 }) (fun _ s => s) :=
  traps_of _ (fun _ => rfl) (fun _ _ _ ⟨hearly, hsome, hodd⟩ => (coll_proceeds hearly).trans (withColl_misaligned hsome hodd))
    fun _ _ _ => .inl rfl
theorem coll_poisoned : Traps (.coll h a)
    (fun s w => s.opWaits w.gs w.g.wg = false ∧ collSpot pa u s w ∧ s.poisoned pa 64 = true ∧ s.service w.g = true)
    (fun w => { code := 0x28, lanes := w.act, addr := w.opnd64 0 0 }) (fun _ s => s) :=
  traps_of _ (fun _ => rfl) (fun _ _ _ ⟨hearly, hspot, hbytes, _⟩ => (coll_proceeds hearly).trans (withColl_poisoned hspot hbytes))
    fun _ _ ⟨_, _, _, hservice⟩ => .inr hservice

/-! ### CABORT -/

theorem cabort_ends : Performs (.cabort h a) (fun s w => w.slot.phase = .token ∧ Tbl.find s.tokens w.gs = none) (fun _ s => s) :=
  performs_of _ (fun _ => rfl) fun _ _ _ ⟨htoken, hgone⟩ => (if_pos htoken).trans (if_neg (by rw [hgone]; exact Bool.noConfusion))
theorem cabort_waits : Parks (.cabort h a) (fun s w => w.slot.phase = .token ∧ Tbl.find s.tokens w.gs ≠ none) .batchWait (fun _ s => s) :=
  parks_of _ (fun _ => rfl) fun _ _ _ ⟨htoken, hthere⟩ => (if_pos htoken).trans (if_pos (Option.isSome_iff_ne_none.mpr hthere))

/-- The weak store that raises ATT in the descriptor. -/
def attRaise (pa : Nat) (u : Bool) (w : Word) (s : State) : LaneAcc :=
  { lane := w.lanes.headD 0, ga := BitVec.ofNat 64 (w.src 0 0 + 0x13), locs := [.mem (pa + 0x13)], len := 1
    data := ((collDesc pa s).att + 1#8).setWidth 128, unc := u }
/-- The state after the store and the token are sent. -/
def tokenSent (pa : Nat) (u : Bool) (w : Word) (s : State) : State :=
  { s.sendWrites w .store [attRaise pa u w s] 1 .weak .none true false [] with
    tokens := Tbl.put (s.sendWrites w .store [attRaise pa u w s] 1 .weak .none true false []).tokens w.gs ((collDesc pa s).comm, (collDesc pa s).att) }
theorem cabort_sends : Parks (.cabort h a) (fun s w => w.slot.phase = .idle ∧ collFound pa u s w) .batchWait
    (fun w s => w.notes .token (tokenSent pa u w s)) := by
  refine parks_of _ (fun _ => rfl) fun s w _ hc => ?_
  obtain ⟨hidle, ⟨hsome, haligned, htr⟩, hbytes⟩ := hc
  exact (if_neg (by rw [hidle]; decide)).trans (withColl_ok hsome haligned htr hbytes Bool.noConfusion)
end Coll

/-- Settles O32: one law per word and outcome. -/
theorem collectives : Obligations.Collectives := by
  unfold Obligations.Collectives
  exact fun h a pa u => ⟨coll_enters, coll_badDescriptor, coll_misaligned, coll_poisoned, cabort_ends, cabort_waits, cabort_sends⟩
end Sys2Proof.Proofs
end

section
/-! The steps of the engines: matrix queues, quads, copies, collectives and abort tokens (12, R304 to R306; 13, R314, R327; 14, R350 to
R352). -/

namespace Sys2Proof.Proofs
open Sys2Proof.Machine Sys2Proof.Laws

/-! ### Matrix queues and quads -/

section Matrix
variable {s : State} {core : Nat} {op : MatOp}

/-- What an operation comes to that may run: the rest of its output, or what it computes. -/
def matRuns (s : State) (op : MatOp) : State :=
  match op.out with
  | some l => s.matOut (s.agentOf op.gs op.wg false op.pc op.id) op l
  | none =>
    match s.matCompute op with
    | .wait => s
    | .bad c ad => s.failMat op c ad
    | .ok e => (e.tiles.foldl State.putTile s).matOut (s.agentOf op.gs op.wg false op.pc op.id) op (e.out.flatMap fun x => sectorPieces x.1 x.2)

theorem matrixOperation_idle (hidle : (s.core core).eng = [] ∨ ∃ op l, (s.core core).eng = op :: l ∧
      (s.wgHalted op.wg = true ∨ ∃ c ∈ op.cores, ((s.core c).eng.head?.map (·.id)) ≠ some op.id)) :
    exec (.matrixOperation core) s = .next s := by
  refine congrArg Host.Outcome.next ?_
  rcases hidle with hempty | ⟨op, l, hqueue, hbarred⟩
  · simp only [hempty]
  · simp only [hqueue]
    refine if_pos (or_tt (hbarred.imp_right fun ⟨c, hc, hother⟩ => List.any_eq_true.mpr ⟨c, hc, bne_iff_ne.mpr hother⟩))

variable {l : List MatOp} (hqueue : (s.core core).eng = op :: l) (hruns : s.wgHalted op.wg = false)
  (hheads : ∀ c ∈ op.cores, ((s.core c).eng.head?.map (·.id)) = some op.id)
include hqueue hruns hheads

theorem matrixOperation_runs : exec (.matrixOperation core) s = .next (matRuns s op) := by
  refine congrArg Host.Outcome.next ?_
  simp only [hqueue]
  refine if_neg (or_ff hruns (List.any_eq_false.mpr fun c hc => ?_))
  simp [hheads c hc]
theorem matrixOperation_sends {w : List (Nat × List Byte)} (hout : op.out = some w) :
    exec (.matrixOperation core) s = .next (s.matOut (s.agentOf op.gs op.wg false op.pc op.id) op w) := by
  rw [matrixOperation_runs hqueue hruns hheads, matRuns, hout]
theorem matrixOperation_computes (hout : op.out = none) {e : MatEff} (hok : s.matCompute op = .ok e) :
    exec (.matrixOperation core) s = .next ((e.tiles.foldl State.putTile s).matOut (s.agentOf op.gs op.wg false op.pc op.id) op
      (e.out.flatMap fun x => sectorPieces x.1 x.2)) := by
  rw [matrixOperation_runs hqueue hruns hheads, matRuns, hout, hok]
theorem matrixOperation_fails (hout : op.out = none) {c ad : Nat} (hbad : s.matCompute op = .bad c ad) :
    exec (.matrixOperation core) s = .next (s.failMat op c ad) := by
  rw [matrixOperation_runs hqueue hruns hheads, matRuns, hout, hbad]
end Matrix

section Quads
variable {s : State}

/-- An arrival at a quad has waited 2^24 cycles and is not complete. -/
def quadLate (quad : Nat) (qj : BitVec 16) (s : State) (a : QuadArr) : Bool :=
  a.quad == quad && a.qj == qj && decide (a.parts.length < 16) && decide (a.since + 2 ^ 24 ≤ s.clock)
/-- The late arrivals leave, and the teams of their parts take the fault. -/
theorem quadTimeout_eq (quad : Nat) (qj : BitVec 16) : exec (.quadArrivalTimeout quad qj) s = .next
    ((s.quads.filter (quadLate quad qj s)).foldl (fun s a => a.parts.foldl (fun s p => s.teamFault p.wg ((s.teamOfPart p).ix)) s)
      { s with quads := s.quads.filter fun a => !quadLate quad qj s a }) := rfl

theorem quadTimeout_none {quad : Nat} {qj : BitVec 16} (hyoung : ∀ a ∈ s.quads, a.quad = quad → a.qj = qj → s.clock < a.since + 2 ^ 24) :
    exec (.quadArrivalTimeout quad qj) s = .next s := by
  have hlate : ∀ a ∈ s.quads, quadLate quad qj s a = false := fun a ha => by
    unfold quadLate
    by_cases hsame : a.quad = quad ∧ a.qj = qj
    · rw [decide_eq_false (not_le.mpr (hyoung a ha hsame.1 hsame.2)), Bool.and_false]
    · rcases not_and_or.mp hsame with h | h <;> simp [h]
  rw [quadTimeout_eq, List.filter_eq_nil_iff.mpr fun a ha => ne_true_of_eq_false (hlate a ha),
    List.filter_eq_self.mpr fun a ha => by rw [hlate a ha]; rfl]
  rfl
theorem quadTimeout_one {a : QuadArr} {p : QuadPart} (hquads : s.quads = [a]) (hparts : a.parts = [p]) (hold : a.since + 2 ^ 24 ≤ s.clock) :
    exec (.quadArrivalTimeout a.quad a.qj) s =
      .next (({ s with quads := [] } : State).teamFault p.wg (({ s with quads := [] } : State).teamOfPart p).ix) := by
  have hlate : quadLate a.quad a.qj s a = true := by
    rw [quadLate, decide_eq_true hold, hparts]
    simp
  rw [quadTimeout_eq, hquads, List.filter_cons_of_pos hlate, List.filter_cons_of_neg (by rw [hlate]; decide)]
  simp only [List.filter_nil, List.foldl_cons, List.foldl_nil, hparts]
end Quads

/-! ### Copies -/

theorem copyChunk_idle {s : State} {core : Nat} (hempty : (s.core core).cpq = []) : exec (.copyChunk core) s = .next s := by
  refine congrArg Host.Outcome.next ?_
  simp only [hempty]
  rfl

/-! ### Chunks of a collective -/

section Chunks
variable {s : State} {k : Nat} {c : Coll} {p : CollPart} {chunk : Nat}

theorem joined_part (hjoined : c.joined = [p]) (hopen : p.fin = false) : c.joined.find? (fun q => q.rank == p.rank && !q.fin) = some p := by
  rw [hjoined]
  exact List.find?_cons_of_pos (by simp [hopen])

variable (hcoll : Tbl.find s.colls k = some c) (hjoined : c.joined = [p]) (hopen : p.fin = false)
include hcoll hjoined hopen

theorem collectivePacket_again (htaken : c.parts.contains (p.rank, chunk) = true) : exec (.collectivePacket k p.rank chunk) s = .next s := by
  refine congrArg Host.Outcome.next ?_
  simp only [hcoll, joined_part hjoined hopen]
  exact if_pos (by simp only [htaken, Bool.or_true, Bool.true_or])

theorem collectivePacket_takes (hgood : c.code = 0) (hchunk : chunk < c.chunks) (hneeds : c.needs p.rank = true) (hruns : s.wgHalted p.wg = false)
    (hfirst : c.parts.contains (p.rank, chunk) = false) {l : List Byte} {s1 : State}
    (hread : s.getPieces (s.agentOf p.gs p.wg p.sup p.pc p.id) false (p.src + 128 * chunk) ((min 128 (p.len - 128 * chunk) + 15) / 16) = (.ok l, s1)) :
    exec (.collectivePacket k p.rank chunk) s =
      .next (s1.updColl k fun c => c.take p.rank chunk (collElems c.fmt (l.take (min 128 (p.len - 128 * chunk))))) := by
  refine congrArg Host.Outcome.next ?_
  simp only [hcoll, joined_part hjoined hopen]
  refine (if_neg ?_).trans ?_
  · rw [hfirst]
    simp [hgood, hchunk, hneeds, hruns]
  · rw [hread]
end Chunks

/-! ### The end of a collective -/

section Ends
variable {s : State} {k : Nat} {c : Coll}

theorem collPart_finished {p : CollPart} (hfin : p.fin = true) : s.collPart k p = s := by
  unfold State.collPart
  split
  · rfl
  · exact if_pos (by rw [hfin]; rfl)
/-- Participants that have finished are left alone. -/
theorem collParts_finished : ∀ l : List CollPart, l.all (·.fin) = true → l.foldl (fun s p => s.collPart k p) s = s
  | [], _ => rfl
  | p :: l, hall => by
    rw [List.all_cons, Bool.and_eq_true] at hall
    rw [List.foldl_cons, collPart_finished hall.1]
    exact collParts_finished l hall.2

theorem collectiveComplete_early (hcoll : Tbl.find s.colls k = some c) (hgood : c.code = 0) (hopen : c.ready = false) :
    exec (.collectiveComplete k) s = .next s := by
  refine congrArg Host.Outcome.next ?_
  simp only [hcoll]
  exact if_pos (by rw [hgood, hopen]; rfl)

/-- Once its participants have been served and all of them have finished, a collective that has ended or has all its ranks is gone. -/
theorem collectiveComplete_gone {c1 : Coll} (hcoll : Tbl.find s.colls k = some c) (hover : c.code ≠ 0 ∨ c.ready = true) {s1 : State}
    (hserved : c.joined.foldl (fun s p => s.collPart k p) s = s1) (hleft : Tbl.find s1.colls k = some c1) (hfin : c1.joined.all (·.fin) = true)
    (hlast : c1.code = 0x23 ∨ c1.npart ≤ c1.joined.length) :
    exec (.collectiveComplete k) s = .next { s1 with colls := Tbl.del s1.colls k } := by
  refine congrArg Host.Outcome.next ?_
  have hdue : ¬ (decide (c.code = 0) && !c.ready) = true := by
    rcases hover with h | h <;> simp [h]
  have hgoes : (c1.joined.all (·.fin) && (c1.code == 0x23 || decide (c1.npart ≤ c1.joined.length))) = true := by
    rw [hfin, Bool.true_and]
    exact or_tt (hlast.imp beq_iff_eq.mpr decide_eq_true)
  simp only [hcoll, hserved, hleft]
  exact (if_neg hdue).trans (if_pos hgoes)
end Ends

/-! ### Abort tokens -/

section Tokens
variable {s : State} {comm : W32} {att : Byte}

theorem abortToken_reaches (hsent : s.tokens.any (fun t => t.2 == (comm, att)) = true ∨ 2 ≤ s.sec.domain.length) :
    exec (.abortToken comm att) s = .next { s.abortColls comm att with tokens := s.tokens.filter (fun t => t.2 != (comm, att)) } :=
  congrArg Host.Outcome.next (if_pos (or_tt (hsent.imp_right decide_eq_true)))
theorem abortToken_none (hnone : s.tokens.any (fun t => t.2 == (comm, att)) = false) (hsole : s.sec.domain.length < 2) :
    exec (.abortToken comm att) s = .next s :=
  congrArg Host.Outcome.next (if_neg (or_ff hnone (decide_eq_false (not_le.mpr hsole))))

/-- What an abort makes of a collective. -/
theorem abortColls_find {k : Nat} {c : Coll} (hcoll : Tbl.find s.colls k = some c) : Tbl.find (s.abortColls comm att).colls k =
    some (if c.comm = comm ∧ c.att = att ∧ c.code = 0 then { c with code := 0x23 } else c) := by
  refine (find_map_key s.colls (fun _ c => if c.comm == comm && c.att == att && c.code == 0 then { c with code := 0x23 } else c) k).trans ?_
  rw [hcoll, Option.map_some]
  simp only [Bool.and_eq_true, beq_iff_eq, and_assoc]
end Tokens

/-- Settles O52: one law per step and outcome. -/
theorem engineSteps : Obligations.EngineSteps := by
  unfold Obligations.EngineSteps
  refine fun s => ⟨fun core => matrixOperation_idle, fun core op l hqueue hruns hheads => ⟨fun w => matrixOperation_sends hqueue hruns hheads,
      fun hout => ⟨fun e => matrixOperation_computes hqueue hruns hheads hout, fun c ad => matrixOperation_fails hqueue hruns hheads hout⟩⟩,
    fun quad qj => quadTimeout_none, fun a p => quadTimeout_one, fun core op x so d n l s1 s2 => copy_one, fun core => copyChunk_idle,
    fun k c p chunk hcoll hjoined hopen hgood hchunk hneeds hruns => ⟨collectivePacket_again hcoll hjoined hopen, fun l s1 hfirst hread hcolls => ?_⟩,
    fun k c hcoll => ⟨collectiveComplete_early hcoll, fun hover hfin hlast => ?_, fun p c1 hover hjoined hleft hfin hlast => ?_⟩,
    fun comm att hsent => ⟨_, abortToken_reaches hsent, rfl, find_put_self _ _ _, fun e he => ?_, fun k c => abortColls_find⟩,
    fun comm att => abortToken_none⟩
  · refine ⟨_, collectivePacket_takes hcoll hjoined hopen hgood hchunk hneeds hruns hfirst hread, rfl, (find_upd_self _ _ _).trans ?_⟩
    rw [hcolls, hcoll]
    rfl
  · exact collectiveComplete_gone hcoll hover (collParts_finished c.joined hfin) hcoll hfin hlast
  · exact collectiveComplete_gone hcoll hover (by rw [hjoined]; rfl) hleft hfin (.inr hlast)
  · exact bne_iff_ne.mp (List.mem_filter.mp he).2
end Sys2Proof.Proofs
end

section
/-! Stores (12, R295, R296): ST and STS send their lanes' data to the homes, and sending writes nothing. -/

namespace Sys2Proof.Proofs
open Sys2Proof.Machine Sys2Proof.Laws

section Storing
variable {h : Hdr} {d : Reg} {m : MemOp}

theorem st_performs : Performs (.st h d m) (fun s w => w.g.tx = [] ∧ s.reaches w .store m.sz.bytes (w.eas (.st h d m) m))
    (fun w s => (s.sendWrites w .store (w.storing m.sz.bytes (s.places w .store m.sz.bytes (w.eas (.st h d m) m))) m.sz.bytes m.ord m.sco
      (onceOf (.st h d m)) (!infoQuiet (fieldsOf (.st h d m))) []).popResult w (fieldsOf (.st h d m))) := by
  refine performs_of _ (fun _ => rfl) fun _ _ hfound hc => ?_
  obtain ⟨htx, hreach⟩ := hc
  exact (accessAs_reaches (i := .st h d m) hreach).trans (storeTo_plain (i := .st h d m) hfound htx rfl)

theorem sts_performs : Performs (.sts h d m)
    (fun s w => w.g.tx = [] ∧ allOk (s.localPlaces w .store m.sz.bytes (w.eas (.sts h d m) m)))
    (fun w s => (s.sendWrites w .store (w.storing m.sz.bytes (s.localPlaces w .store m.sz.bytes (w.eas (.sts h d m) m))) m.sz.bytes m.ord m.sco
      (onceOf (.sts h d m)) (!infoQuiet (fieldsOf (.sts h d m))) []).popResult w (fieldsOf (.sts h d m))) := by
  refine performs_of _ (fun _ => rfl) fun _ _ hfound hc => ?_
  obtain ⟨htx, hok⟩ := hc
  exact (withLanes_localPlaces (i := .sts h d m) hok).trans (storeTo_plain (i := .sts h d m) hfound htx rfl)
end Storing

/-- Settles O21: a store whose lanes translate sends its writes, and that writes nothing. -/
theorem stores : Obligations.Stores := by
  unfold Obligations.Stores
  exact fun h d m => ⟨st_performs, sts_performs, fun s w i l hg _ => unwritten_pops (unwritten_sends hg ..)⟩

end Sys2Proof.Proofs
end

section
/-! Atomics (12, R300 to R302; 05, R145 to R147): ATOM and RED send their lanes' operations, REDO appends entries to the launch's log. -/

namespace Sys2Proof.Proofs
open Sys2Proof.Machine Sys2Proof.Laws

/-- The launch's reduction log (05, R145). -/
def redoLog (s : State) (w : Word) : W64 := ((s.gridOf w.g).map fun g => g.word 0x48).getD 0#64

/-- The entry slots that a REDO of `n` lanes takes from its core's ranges, and the ranges that are left (05, R147). -/
abbrev redoTaken (w : Word) (grid : Grid) (n : Nat) : List Nat × List (Nat × Nat) := redoSlots n (Tbl.get [] grid.chunks (coreOf w.gs))

/-- The request that appends a lane's entry at a slot of the log, of a word that made its translations in `s` (05, R146). -/
def redoRequest (s : State) (w : Word) (f : Info) (m : MemOp) (once : Bool) (t : State) (x : LaneTr) (k : Nat) : Req :=
  let va := (redoLog s w).toNat + 64 + 32 * k
  let e := redoEntry ((x.locs.head?.map Loc.pa).getD 0) (w.src 2 x.lane % 2 ^ 32) (Tbl.get 0#32 w.g.seq x.lane).toNat
    (Tbl.get 0#10 w.g.origin x.lane).toNat (s.wgidOf w.g)
  { t.reqOf w (.append k e) [{ lane := x.lane, ga := x.ga, locs := (⟨x.lane, 0#64, s.trans (w.ask .store) va 32 x.lane⟩ : LaneTr).locs, len := 32 }]
      32 m.ord m.sco once (if infoQuiet f then .mesh else .held) with head := w.heads m.ord }

/-- What a REDO leaves whose lanes' targets are `l`. -/
def redone (s : State) (w : Word) (f : Info) (grid : Grid) (m : MemOp) (once : Bool) (l : List LaneTr) : State :=
  let slots := redoTaken w grid l.length
  let s1 := s.updGrid (((Tbl.find s.wgs w.g.wg).map (·.grid)).getD 0) fun g => { g with chunks := Tbl.put g.chunks (coreOf w.gs) slots.2 }
  let s2 := (l.zip slots.1).foldl (fun t x => t.putReq (redoRequest s w f m once t x.1 x.2)) s1
  (s2.updGroup w.gs fun g => { g with
    seq := l.foldl (fun t x => Tbl.put t x.lane (Tbl.get 0#32 t x.lane + 1#32)) g.seq
    chk := { g.chk with relFence := false } }).popResult w f

/-- The ranges that a core holds cover the appends: nothing is reserved. -/
theorem reserve_held {s : State} {w : Word} {gid hdr k : Nat} {grid : Grid}
    (hroom : k ≤ ((Tbl.get [] grid.chunks (coreOf w.gs)).map fun r => r.2 - r.1).sum) :
    s.reserve w gid grid hdr k = .ok (some s) := by
  unfold State.reserve
  exact if_pos hroom

theorem gridOf_find {s : State} {g : Group} {grid : Grid} (h : s.gridOf g = some grid) :
    Tbl.find s.grids (((Tbl.find s.wgs g.wg).map (·.grid)).getD 0) = some grid := by
  unfold State.gridOf at h
  cases hw : Tbl.find s.wgs g.wg with
  | none => rw [hw] at h; cases h
  | some x => rw [hw] at h; exact h

/-- The appends of a REDO whose core holds slots enough, each of which translates. -/
theorem redoAppend_held {s : State} {w : Word} {f : Info} {grid : Grid} {m : MemOp} {once : Bool} {hdr : Nat} {l : List LaneTr}
    (hgrid : s.gridOf w.g = some grid)
    (hroom : l.length ≤ ((Tbl.get [] grid.chunks (coreOf w.gs)).map fun r => r.2 - r.1).sum)
    (hslots : ∀ k ∈ (redoTaken w grid l.length).1, ∀ L, ∃ p v, s.trans (w.ask .store) ((redoLog s w).toNat + 64 + 32 * k) 32 L = .ok p v) :
    s.redoAppend w f grid m once hdr l = .done (redone s w f grid m once l) := by
  have hlog : redoLog s w = grid.word 0x48 := by unfold redoLog; rw [hgrid]; rfl
  unfold State.redoAppend
  simp only [reserve_held hroom, gridOf_find hgrid, Option.map_some, Option.getD_some]
  rw [withLanes_ok]
  · unfold redone redoRequest tentative
    simp only [hlog, Bool.not_eq_true', List.foldl_map, LaneTr.locs]
    cases infoQuiet f <;> rfl
  · intro x hx
    obtain ⟨y, hy, rfl⟩ := List.mem_map.mp hx
    obtain ⟨z, hz, rfl⟩ := List.mem_map.mp hy
    have := hslots z.2 (List.of_mem_zip hz).2 z.1.lane
    rw [hlog] at this
    exact this

section Atomics
variable {h : Hdr} {d a b c : Reg} {m : MemOp} {op : AOp} {ro : ROp} {sz : Sz} {ord : Ord} {sco : Sco}

theorem atom_performs : Performs (.atom h d a b c op sz ord sco)
    (fun s w => s.reaches w .atomic sz.bytes (w.bases (.atom h d a b c op sz ord sco)))
    (fun w s => (s.sendAtomics w (fieldsOf (.atom h d a b c op sz ord sco)) (.atom d sz op)
      (atomAccs sz.bytes (w.src 1) (w.src 2) (s.places w .atomic sz.bytes (w.bases (.atom h d a b c op sz ord sco)))) sz.bytes ord sco
      (onceOf (.atom h d a b c op sz ord sco))).popResult w (fieldsOf (.atom h d a b c op sz ord sco))) :=
  performs_of _ (fun _ => rfl) fun _ _ _ hreach => access_ok hreach

theorem red_performs : Performs (.red h d m ro) (fun s w => s.reaches w .atomic m.sz.bytes (w.eas (.red h d m ro) m))
    (fun w s => (s.sendAtomics w (fieldsOf (.red h d m ro)) (.red m.sz ro)
      (atomAccs m.sz.bytes (w.src 2) (fun _ => 0) (s.places w .atomic m.sz.bytes (w.eas (.red h d m ro) m))) m.sz.bytes m.ord m.sco
      (onceOf (.red h d m ro))).popResult w (fieldsOf (.red h d m ro))) :=
  performs_of _ (fun _ => rfl) fun _ _ _ hreach => perfect (i := .red h d m ro) hreach

theorem redo_performs {grid : Grid} {hdr : Nat} {u : Bool} : Performs (.redo h d m)
    (fun s w =>
      let l := s.places w .store 4 (w.eas (.redo h d m) m)
      let mine := Tbl.get [] grid.chunks (coreOf w.gs)
      s.gridOf w.g = some grid ∧ s.reaches w .store 4 (w.eas (.redo h d m) m) ∧ l ≠ [] ∧
      (∀ x ∈ l, x.ga.toNat < localWin ∧ (Tbl.get 0#32 w.g.seq x.lane).toNat < 2 ^ 24) ∧ redoLog s w ≠ 0#64 ∧
      s.trans (w.ask .atomic) (redoLog s w).toNat 8 0 = .ok [.mem hdr] u ∧ l.length ≤ (mine.map fun r => r.2 - r.1).sum ∧
      ∀ k ∈ (redoSlots l.length mine).1, ∀ L, ∃ p v, s.trans (w.ask .store) ((redoLog s w).toNat + 64 + 32 * k) 32 L = .ok p v)
    (fun w s => redone s w (fieldsOf (.redo h d m)) grid m (onceOf (.redo h d m)) (s.places w .store 4 (w.eas (.redo h d m) m))) := by
  refine performs_of _ (fun _ => rfl) fun s w _ hc => ?_
  obtain ⟨hgrid, hreach, hsome, hlanes, hlog, hhead, hroom, hslots⟩ := hc
  have hword : redoLog s w = grid.word 0x48 := by unfold redoLog; rw [hgrid]; rfl
  have htargets := redo_targets (i := .redo h d m) hreach fun x hx => (hlanes x hx).1
  have hlane : ∀ y ∈ [(⟨((s.places w .store 4 (w.eas (.redo h d m) m)).head?.map (·.lane)).getD 0, grid.word 0x48,
      s.trans (w.ask .atomic) (grid.word 0x48).toNat 8 0⟩ : LaneTr)], ∃ p u, y.tr = .ok p u := by
    intro y hy
    rw [List.mem_singleton] at hy
    subst hy
    exact ⟨_, _, hword ▸ hhead⟩
  refine (congrArg (s.withLanes w (onceOf (.redo h d m)) .store · _) htargets).trans ?_
  rw [withLanes_ok (places_ok hreach)]
  simp only [hgrid]
  rw [if_neg (by simpa using hsome), if_neg (hword ▸ hlog), if_neg (by rw [redo_small fun x hx => (hlanes x hx).2]; simp), withLanes_ok hlane]
  exact redoAppend_held hgrid hroom hslots

theorem redo_without_log : Traps (.redo h d m)
    (fun s w => s.reaches w .store 4 (w.eas (.redo h d m) m) ∧ w.eas (.redo h d m) m ≠ [] ∧
      (∀ x ∈ w.eas (.redo h d m) m, x.2.toNat < localWin) ∧ s.service w.g = true ∧ redoLog s w = 0#64)
    (fun w => { code := 0x13, lanes := if onceOf (.redo h d m) then w.act else maskOf fun L => (w.eas (.redo h d m) m).any (fun x => x.1 == L) })
    (fun _ s => s) := by
  refine traps_of _ (fun _ => rfl) (fun s w _ hc => ?_) fun _ _ hc => .inr hc.2.2.2.1
  obtain ⟨hreach, hsome, hwin, hservice, hlog⟩ := hc
  have htargets := redo_targets (i := .redo h d m) hreach fun x hx => by
    obtain ⟨y, hy, rfl⟩ := List.mem_map.mp hx
    exact hwin y hy
  refine (congrArg (s.withLanes w (onceOf (.redo h d m)) .store · _) htargets).trans ?_
  rw [withLanes_ok (places_ok hreach)]
  unfold redoLog at hlog
  unfold State.service at hservice
  cases hgrid : s.gridOf w.g with
  | none => rw [hgrid] at hservice; cases hservice
  | some grid =>
    rw [hgrid] at hlog
    simp only
    rw [if_neg (by simpa [State.places] using hsome), if_pos (show grid.word 0x48 = 0#64 from hlog)]
    simp only [State.places, List.any_map]
    rfl
end Atomics

/-- Settles O22: ATOM and RED send what their lanes' places ask, REDO with slots enough its entries; none of them without a log. -/
theorem atomics : Obligations.Atomics := by
  unfold Obligations.Atomics
  exact fun h d a b c m op ro sz ord sco => ⟨atom_performs, red_performs, fun grid hdr u => redo_performs, redo_without_log⟩

end Sys2Proof.Proofs
end

section
/-! Prefetch and line management (12, R297, R298; 02, R47, R48; 05, R124). -/

namespace Sys2Proof.Proofs
open Sys2Proof.Machine Sys2Proof.Laws

section Lines
variable {h : Hdr} {near : Bool} {m : MemOp} {a : Reg}

/-- The lines of a PREF: those of its lanes' addresses that are aligned, translate and may be cached (12, R297). -/
def prefetched (s : State) (w : Word) (i : Instr) (m : MemOp) : List Nat :=
  ((w.eas i m).filterMap fun x =>
    if x.2.toNat % m.sz.bytes ≠ 0 then none
    else match s.trans (w.ask .load) x.2.toNat m.sz.bytes x.1 with
      | .ok [.mem pa] false => if pa.testBit 51 then none else some (pa / 128)
      | _ => none).eraseDups

theorem pref_performs : Performs (.pref h near m) (fun _ _ => True) (fun w s =>
    (prefetched s w (.pref h near m) m).foldl (fun s l => match s.recallFor (coreOf w.gs) l with
      | some s1 => s1.fetchLine (coreOf w.gs) (s.partOf w.g) l near 0
      | none => s) s) := by
  refine performs_of _ (fun _ => rfl) fun s w _ _ => ?_
  unfold prefetched
  rw [← addrs_eq w (.pref h near m) m]
  rfl

theorem inva_performs : Performs (.cmnt h a .inva) (fun _ w => w.some) (fun w s => s.l1Clear (coreOf w.gs)) :=
  performs_of _ (fun _ => rfl) fun _ _ _ hsome => congrArg Eff.done (if_neg hsome)

theorem inva_without_lanes : Performs (.cmnt h a .inva) (fun _ w => w.none) (fun _ s => s) :=
  performs_of _ (fun _ => rfl) fun _ _ _ hnone => congrArg Eff.done (if_pos hnone)

theorem inv_performs : Performs (.cmnt h a .inv) (fun s w => s.reaches w .load 1 (w.bases (.cmnt h a .inv))) (fun w s =>
    ((s.places w .load 1 (w.bases (.cmnt h a .inv))).flatMap (·.locs)).foldl (fun s x => match x with
      | .mem pa => s.l1Drop (coreOf w.gs) (pa / 128)
      | .ls _ _ _ => s) s) :=
  performs_of _ (fun _ => rfl) fun _ _ _ hreach => access_ok hreach

theorem drop_performs : Performs (.cmnt h a .drop) (fun s w => s.reaches w .store 128 (w.bases (.cmnt h a .drop))) (fun w s =>
    let mine := (s.places w .store 128 (w.bases (.cmnt h a .drop))).filter (fun x => decide (x.ga.toNat < physWin) && s.txPlace x)
    s.sendWrites w .drop
      (mine.flatMap fun x => (x.locs.take 1).flatMap fun p => (List.range 2).map fun i =>
        { lane := x.lane, ga := x.ga + BitVec.ofNat 64 (64 * i), locs := [.mem (p.pa + 64 * i)], len := 64 }) 128 .weak .none
      (onceOf (.cmnt h a .drop)) (!infoQuiet (fieldsOf (.cmnt h a .drop))) []) :=
  performs_of _ (fun _ => rfl) fun _ _ _ hreach => access_ok hreach

/-- A line that was dropped is not there. -/
theorem l1Drop_absent (s : State) (c l : Nat) : Tbl.find ((s.l1Drop c l).core c).l1 l = none := by
  unfold State.l1Drop
  cases hline : s.l1Line c l with
  | none => exact hline
  | some x => simp [State.updCore, State.core]
end Lines

/-- Settles O23: one law per word; what a fetch and a drop leave alone is `same_fetch` and `same_l1Drop`. -/
theorem lineMaintenance : Obligations.LineMaintenance := by
  unfold Obligations.LineMaintenance
  refine fun h near m a => ⟨pref_performs, inva_performs, inva_without_lanes, inv_performs, drop_performs,
    fun s c p l b n => same_fetch s c p l b n, fun s c l => ⟨l1Drop_absent s c l, l1Clear_l1 s c, (same_l1Drop s c l).1, ?_⟩⟩
  unfold State.l1Clear
  split <;> rfl

end Sys2Proof.Proofs
end

section
/-! Fences (12, R299, R306; 03, R83, R92, R93; 04, R106, R110, R112; 15, R367): what they wait for, what they order, what EFENCE reports. -/

namespace Sys2Proof.Proofs
open Sys2Proof.Machine Sys2Proof.Laws

/-! ### What a fence waits for -/

theorem mayFaultLate_iff {s : State} {gs : Nat} : s.mayFaultLate gs = true ↔ ∃ e ∈ s.reqs, e.2.gs = gs ∧ ∀ ws, e.2.kind ≠ .result ws := by
  unfold State.mayFaultLate State.reqsOf
  rw [List.any_eq_true]
  constructor
  · rintro ⟨e, he, hk⟩
    obtain ⟨hmem, hgs⟩ := List.mem_filter.mp he
    refine ⟨e, hmem, by simpa using hgs, fun ws h => ?_⟩
    rw [h] at hk
    cases hk
  · rintro ⟨e, hmem, hgs, hk⟩
    refine ⟨e, List.mem_filter.mpr ⟨hmem, by simpa using hgs⟩, ?_⟩
    cases hkind : e.2.kind with
    | result ws => exact absurd hkind (hk ws)
    | _ => rfl

theorem fenceWaits_iff {s : State} {gs wg : Nat} {sco : Sco} : s.fenceWaits gs wg sco = true ↔ ∃ e ∈ s.reqs,
    if sco = .wg then e.2.gs = gs ∧ (e.2.reads = true ∨ e.2.writes = true ∧ e.2.stage = .held)
    else e.2.gs = gs ∧ (∀ ws, e.2.kind ≠ .result ws) ∨ e.2.wg = wg ∧ e.2.gs ≠ gs ∧ e.2.writes = true ∧ e.2.stage ≠ .held := by
  unfold State.fenceWaits
  by_cases hsco : sco = .wg
  · simp [hsco]
  · have hmates : s.matesWrite gs wg = true ↔ ∃ e ∈ s.reqs, e.2.wg = wg ∧ e.2.gs ≠ gs ∧ e.2.writes = true ∧ e.2.stage ≠ .held := by
      unfold State.matesWrite
      rw [List.any_eq_true]
      simp only [Bool.and_eq_true, beq_iff_eq, bne_iff_ne, and_assoc]
    simp only [if_neg hsco, State.opWaits, Bool.or_eq_true, mayFaultLate_iff, hmates, ← exists_or, ← and_or_left]

section Fences
variable {h : Hdr} {ord : Ord} {sco : Sco}

theorem fence_without_lanes : Performs (.fence h ord sco) (fun _ w => w.none) (fun _ s => s) :=
  performs_of _ (fun _ => rfl) fun _ _ _ hnone => if_pos hnone

theorem fence_waits : Parks (.fence h ord sco) (fun s w => w.some ∧ s.fenceWaits w.gs w.g.wg sco = true) .batchWait (fun _ s => s) :=
  parks_of _ (fun _ => rfl) fun _ _ _ hc => (if_neg hc.1).trans (if_pos hc.2)

theorem fence_performs : Performs (.fence h ord sco) (fun s w => w.some ∧ s.fenceWaits w.gs w.g.wg sco = false)
    (fun w s => s.fenceNow w.gs ord sco) :=
  performs_of _ (fun _ => rfl) fun _ _ _ hc => (if_neg hc.1).trans (if_neg (by simp [hc.2]))
end Fences

/-! ### EFENCE -/

theorem startDrain_groups (s : State) (gs : Nat) (all : Bool) : (s.startDrain gs all).groups = s.groups := by
  unfold State.startDrain
  refine (kept_fold _ (fun t i => ?_) (List.range 4) s).2.2.1
  split
  · exact ⟨rfl, rfl, rfl, rfl⟩
  · exact .refl t

/-- The group after the fence of an EFENCE: its check state alone may differ. -/
theorem efenced_group {s : State} {w : Word} (hfound : Found s w) : ∃ c, Tbl.find ((s.startDrain w.gs true).fenceNow w.gs .sc .sys).groups w.gs =
    some { w.g with chk := c } := by
  have hg : Tbl.find (s.startDrain w.gs true).groups w.gs = some w.g := by rw [startDrain_groups]; exact hfound.group
  obtain ⟨-, -, -, c, hc, -⟩ := fenceNow_spec (s.startDrain w.gs true) w.gs .sc .sys w.g hg
  exact ⟨c, hc⟩

theorem cls_of_chk (g : Group) (c : CheckState) (k : Cls) : ({ g with chk := c } : Group).cls k = g.cls k := by cases k <;> rfl

theorem reportHeld_none {s : State} {gs : Nat} {g : Group} {pc : W64} (hg : Tbl.find s.groups gs = some g) (hheld : g.held = none) :
    s.reportHeld gs pc = none := by
  unfold State.reportHeld
  rw [hg, Option.bind_some, hheld]
  rfl

/-- A wait over classes none of which has a faulted batch reports nothing. -/
theorem batchFault_none {s : State} {w : Word} {g : Group} {ks : List Cls} {upto : W32 → Bool} (hg : Tbl.find s.groups w.gs = some g)
    (hno : ∀ k ∈ ks, (g.cls k).faulted upto = none) : s.batchFault w ks upto = none := by
  unfold State.batchFault
  rw [List.findSome?_eq_none_iff]
  intro k hk
  simp only [hg, hno k hk, Option.bind_none]

/-- Of classes in order, the first with a faulted batch reports it. -/
theorem batchFault_first {s : State} {w : Word} {g : Group} {ks : List Cls} {upto : W32 → Bool} {k : Cls} {before after : List Cls} {b : Batch}
    {r : Nat × List W64 × W64} (hg : Tbl.find s.groups w.gs = some g) (hks : ks = before ++ k :: after)
    (hno : ∀ j ∈ before, (g.cls j).faulted upto = none) (hb : (g.cls k).faulted upto = some b) (hr : batchRecord k b = some r) :
    s.batchFault w ks upto = some ({ code := r.1, lanes := w.slot.mask, addr := r.2.2, ext := r.2.1 },
      s.updGroup w.gs fun g => g.setCls k ((g.cls k).report b.num)) := by
  have hnone := batchFault_none hg hno
  unfold State.batchFault at hnone ⊢
  rw [hks, List.findSome?_append, hnone, Option.none_or, List.findSome?_cons]
  simp only [hg, hb, hr, Option.bind_some, Option.map_some]

/-- EFENCE's classes in the order of their codes (12, R306). -/
theorem classes_split (k : Cls) : ∃ before after, [Cls.cp, .mx, .gc, .cl] = before ++ k :: after ∧ ∀ j ∈ before, clsCode j < clsCode k := by
  cases k with
  | cp => exact ⟨[], [.mx, .gc, .cl], rfl, by decide⟩
  | mx => exact ⟨[.cp], [.gc, .cl], rfl, by decide⟩
  | gc => exact ⟨[.cp, .mx], [.cl], rfl, by decide⟩
  | cl => exact ⟨[.cp, .mx, .gc], [], rfl, by decide⟩

/-- Something that an EFENCE waits for is under way (12, R299). -/
def efenceDue (s : State) (w : Word) : Prop := s.unperformed w.gs = true ∨ s.fenceWaits w.gs w.g.wg .sys = true ∨ w.g.opsBusy = true ∨
  (s.startDrain w.gs true).draining w.gs = true

section Efence
variable {h : Hdr}

/-- EFENCE as its conditions say, whatever follows its fence. -/
theorem efenceDue_iff {s : State} {w : Word} : (s.unperformed w.gs || s.fenceWaits w.gs w.g.wg .sys || w.g.opsBusy ||
    (s.startDrain w.gs true).draining w.gs) = true ↔ efenceDue s w := by
  simp only [Bool.or_eq_true, efenceDue, or_assoc]

theorem efence_without_lanes : Performs (.efence h) (fun _ w => w.none) (fun _ s => s) :=
  performs_of _ (fun _ => rfl) fun _ _ _ hnone => if_pos hnone

theorem efence_waits : Parks (.efence h) (fun s w => w.some ∧ efenceDue s w) .batchWait (fun w s => s.startDrain w.gs true) :=
  parks_of _ (fun _ => rfl) fun _ _ _ hc => (if_neg hc.1).trans (if_pos (efenceDue_iff.2 hc.2))

theorem efence_performs : Performs (.efence h)
    (fun s w => (w.some ∧ ¬ efenceDue s w) ∧ w.g.held = none ∧ ∀ k x, ((w.g.cls k).faulted fun _ => true) ≠ some x)
    (fun w s => (s.startDrain w.gs true).fenceNow w.gs .sc .sys) := by
  refine performs_of _ (fun _ => rfl) fun s w hfound hc => ?_
  obtain ⟨⟨hsome, hready⟩, hheld, hno⟩ := hc
  obtain ⟨c, hg⟩ := efenced_group hfound
  have hnone : ∀ k ∈ [Cls.cp, .mx, .gc, .cl], (({ w.g with chk := c } : Group).cls k).faulted (fun _ => true) = none := fun k _ => by
    rw [cls_of_chk]
    exact Option.eq_none_iff_forall_ne_some.mpr (hno k)
  refine (if_neg hsome).trans ((if_neg (mt efenceDue_iff.1 hready)).trans ?_)
  dsimp only
  rw [reportHeld_none hg hheld, batchFault_none hg hnone]

theorem efence_reports {k : Cls} {b : Batch} {r : Nat × List W64 × W64} : Traps (.efence h)
    (fun s w => (w.some ∧ ¬ efenceDue s w) ∧ w.g.held = none ∧ ((w.g.cls k).faulted fun _ => true) = some b ∧ batchRecord k b = some r ∧
      s.service w.g = true ∧ ∀ j, clsCode j < clsCode k → ((w.g.cls j).faulted fun _ => true) = none)
    (fun w => { code := r.1, lanes := w.slot.mask, addr := r.2.2, ext := r.2.1 })
    (fun w s => ((s.startDrain w.gs true).fenceNow w.gs .sc .sys).updGroup w.gs fun g => g.setCls k ((g.cls k).report b.num)) := by
  refine traps_of _ (fun _ => rfl) (fun s w hfound hc => ?_) fun _ _ hc => .inr hc.2.2.2.2.1
  obtain ⟨⟨hsome, hready⟩, hheld, hb, hr, -, hfirst⟩ := hc
  obtain ⟨c, hg⟩ := efenced_group hfound
  obtain ⟨before, after, hks, hcodes⟩ := classes_split k
  refine (if_neg hsome).trans ((if_neg (mt efenceDue_iff.1 hready)).trans ?_)
  dsimp only
  rw [reportHeld_none hg hheld,
    batchFault_first hg hks (fun j hj => by rw [cls_of_chk]; exact hfirst j (hcodes j hj)) (by rw [cls_of_chk]; exact hb) hr]
end Efence

/-- Settles O24: one law per word and outcome; what a fence leaves is `fenceNow_spec`. -/
theorem fences : Obligations.Fences := by
  unfold Obligations.Fences
  refine ⟨fun h ord sco => ⟨fence_without_lanes, fence_waits, fence_performs, fun s gs wg => fenceWaits_iff, fun s gs g hg => ?_⟩,
    fun h => ⟨efence_without_lanes, efence_waits, efence_performs, fun k b r => efence_reports⟩⟩
  obtain ⟨hmem, hl1, hothers, c, hgroup, hrc, hrel, hacq, hic⟩ := fenceNow_spec s gs ord sco g hg
  exact ⟨hmem, hl1, hothers, _, hgroup, rfl, rfl, hrc, hrel, hacq, hic⟩

end Sys2Proof.Proofs
end

section
/-! Transactions (12, R303; 05, R137 to R144): how TXB, TXA, TXQ and TXE begin, abort, report and end them. -/

namespace Sys2Proof.Proofs
open Sys2Proof.Machine Sys2Proof.Laws

/-! ### Masks of lanes -/

/-- Lanes of a word that satisfy `f`, as a mask. -/
theorem maskOf_filter_lanes (w : Word) (f : Nat → Bool) : maskOf ((w.lanes.filter f).contains ·) = maskOf fun L => inMask w.act L && f L := by
  exact maskOf_congr fun L hL => filter_lanes w f hL

theorem filter_isEmpty_iff {l : List Nat} {f : Nat → Bool} : (l.filter f).isEmpty = true ↔ ∀ L ∈ l, f L = false := by
  simp [List.filter_eq_nil_iff]

/-! ### TXB, TXA, TXQ -/

/-- TXB of a lane (05, R137). -/
def txBegun (t : TxLane) : TxLane := if t.depth = 0 then { depth := 1, status := 7#32 } else { t with depth := t.depth + 1 }
/-- TXA of a lane, with its user code (05, R137, R140). -/
def txAborted (code : Byte) (t : TxLane) : TxLane := if t.depth = 0 ∨ t.doomed = true then t
  else { t with doomed := true, words := [], status := BitVec.ofNat 32 (code.toNat * 2 ^ 24 + t.depth % 8 * 2 ^ 21 + 4) }

theorem txAborted_eq (t : TxLane) (code : Byte) : t.abort 4 code.toNat false = txAborted code t := abort_eq t code

section Words
variable {h : Hdr} {d : Reg} {code : Byte}

theorem txb_performs : Performs (.txb h) (fun _ w => ∀ L ∈ w.lanes, (w.g.txLane L).depth ≠ 4)
    (fun w s => w.now s (w.g.each w.lanes txBegun)) := by
  refine performs_of _ (fun _ => rfl) fun s w hfound hc => ?_
  have hdeep : (w.lanes.filter fun L => (w.g.txLane L).depth == 4).isEmpty = true :=
    filter_isEmpty_iff.2 fun L hL => by simpa using hc L hL
  simp only [hdeep, Bool.not_true, Bool.false_eq_true, if_false]
  rw [upd_found hfound]
  rfl

theorem txb_too_deep : Traps (.txb h) (fun _ w => ∃ L ∈ w.lanes, (w.g.txLane L).depth = 4)
    (fun w => { code := 0x11, lanes := maskOf fun L => inMask w.act L && (w.g.txLane L).depth == 4 }) (fun _ s => s) := by
  refine traps_of _ (fun _ => rfl) (fun s w _ hc => ?_) fun _ _ _ => .inl rfl
  obtain ⟨L, hL, hdepth⟩ := hc
  have hdeep : (w.lanes.filter fun L => (w.g.txLane L).depth == 4).isEmpty = false := by
    rw [Bool.eq_false_iff, ne_eq, filter_isEmpty_iff]
    intro hno
    simpa [hdepth] using hno L hL
  simp only [hdeep, Bool.not_false, if_true, maskOf_filter_lanes]

theorem txa_outside : Performs (.txa h code) (fun _ w => w.g.tx = []) (fun _ s => s) := by
  refine performs_of _ (fun _ => rfl) fun s w hfound hc => ?_
  have hsame : w.g.txAbort w.lanes 4 code.toNat false = w.g := by
    unfold Group.txAbort
    rw [if_pos (by rw [hc]; rfl)]
  rw [upd_found hfound, hsame]
  exact congrArg Eff.done hfound.same

theorem txa_performs : Performs (.txa h code) (fun _ w => w.g.tx ≠ []) (fun w s => w.now s { w.g with
    tx := w.lanes.foldl (fun t L => Tbl.upd t L (txAborted code)) w.g.tx }) := by
  refine performs_of _ (fun _ => rfl) fun s w hfound hc => ?_
  have haborted : w.g.txAbort w.lanes 4 code.toNat false = { w.g with tx := w.lanes.foldl (fun t L => Tbl.upd t L (txAborted code)) w.g.tx } := by
    unfold Group.txAbort
    rw [if_neg (by simpa using hc)]
    simp only [txAborted_eq]
  rw [upd_found hfound, haborted]

theorem txq_performs : Performs (.txq h d) (fun _ _ => True)
    (fun w s => s.deliver w (fieldsOf (.txq h d)) (w.put (uv d) fun L => (w.g.txLane L).status.toNat)) :=
  performs_of _ (fun _ => rfl) fun _ _ _ _ => rfl
end Words

/-! ### TXE -/

/-- The lanes of a word whose outermost transaction is open: those that commit (05, R141). -/
def txCommitting (w : Word) : List Nat := w.lanes.filter fun L => (w.g.txLane L).depth == 1 && !(w.g.txLane L).doomed
/-- Every lane of the word is in a transaction. -/
def txInside (w : Word) : Prop := ∀ L ∈ w.lanes, (w.g.txLane L).depth ≠ 0

theorem txInside_iff {w : Word} : (w.lanes.filter fun L => (w.g.txLane L).depth == 0).isEmpty = true ↔ txInside w := by
  simp [List.filter_eq_nil_iff, txInside]

theorem open_of_depth (t : TxLane) : (t.depth == 1 && t.open_) = (t.depth == 1 && !t.doomed) := by
  unfold TxLane.open_
  cases h : t.depth == 1
  · rfl
  · simp [eq_of_beq h]

theorem txCommitting_eq (w : Word) : (w.lanes.filter fun L => (w.g.txLane L).depth == 1 && (w.g.txLane L).open_) = txCommitting w := by
  unfold txCommitting
  simp only [open_of_depth]

/-- The commit of a TXE is over: it is decided and every message about it has gone (05, R141). -/
def txEnded (s : State) (w : Word) (r : TxRun) : Prop := r.decided = true ∧ ∀ e ∈ s.reqs, ∀ m, e.2.kind ≠ .tx w.gs m

theorem txEnded_iff {s : State} {w : Word} {r : TxRun} : s.txOver w.gs r = true ↔ txEnded s w r := by
  have hmsgs : (s.txMsgs w.gs fun _ => true).isEmpty = true ↔ ∀ e ∈ s.reqs, ∀ m, e.2.kind ≠ .tx w.gs m := by
    rw [List.isEmpty_iff, State.txMsgs, List.filter_eq_nil_iff]
    refine forall₂_congr fun e _ => ?_
    unfold Req.txMsg
    cases hk : e.2.kind with
    | tx k m =>
      simp only [Bool.and_true, beq_iff_eq, ne_eq, ReqKind.tx.injEq, not_and]
      exact ⟨fun h _ hk => absurd hk h, fun h hk => h m hk rfl⟩
    | _ => simp
  unfold State.txOver txEnded
  rw [Bool.and_eq_true, hmsgs]

section Txe
variable {h : Hdr} {r : TxRun}

/-- TXE of lanes outside every commit: one by one what it checks before a commit begins. -/
theorem txe_nested : Performs (.txe h) (fun _ w => w.g.txe = none ∧ txInside w ∧ txCommitting w = [])
    (fun w s => w.now s (w.g.each w.lanes endTxLane)) := by
  refine performs_of _ (fun _ => rfl) fun s w hfound hc => ?_
  obtain ⟨hfree, hinside, hrun⟩ := hc
  simp only [hfree, txInside_iff.2 hinside, txCommitting_eq, hrun, List.isEmpty_nil, Bool.not_true, Bool.false_eq_true, if_false, if_true]
  rw [upd_found hfound]
  rfl

theorem txe_outside : Traps (.txe h) (fun _ w => w.g.txe = none ∧ ¬ txInside w)
    (fun w => { code := 0x11, lanes := maskOf fun L => inMask w.act L && (w.g.txLane L).depth == 0 }) (fun _ s => s) := by
  refine traps_of _ (fun _ => rfl) (fun s w _ hc => ?_) fun _ _ _ => .inl rfl
  obtain ⟨hfree, houtside⟩ := hc
  simp only [hfree, Bool.eq_false_iff.2 (mt txInside_iff.1 houtside), Bool.not_false, if_true, maskOf_filter_lanes]

theorem txe_waits : Parks (.txe h)
    (fun s w => w.g.txe = none ∧ txInside w ∧ txCommitting w ≠ [] ∧ s.fenceWaits w.gs w.g.wg .dev = true) .txCommit (fun _ s => s) := by
  refine parks_of _ (fun _ => rfl) fun s w _ hc => ?_
  obtain ⟨hfree, hinside, hrun, hwaits⟩ := hc
  simp only [hfree, txInside_iff.2 hinside, txCommitting_eq, mt List.isEmpty_iff.1 hrun, hwaits, Bool.not_true, Bool.false_eq_true, if_false, if_true]

theorem txe_begins : Parks (.txe h)
    (fun s w => w.g.txe = none ∧ txInside w ∧ txCommitting w ≠ [] ∧ s.fenceWaits w.gs w.g.wg .dev = false) .txCommit
    (fun w s => s.beginTxe w (txCommitting w)) := by
  refine parks_of _ (fun _ => rfl) fun s w _ hc => ?_
  obtain ⟨hfree, hinside, hrun, hwaits⟩ := hc
  simp only [hfree, txInside_iff.2 hinside, txCommitting_eq, mt List.isEmpty_iff.1 hrun, hwaits, Bool.not_true, Bool.false_eq_true, if_false]

theorem txe_underway : Parks (.txe h) (fun s w => w.g.txe = some r ∧ ¬ txEnded s w r) .txCommit (fun _ s => s) := by
  refine parks_of _ (fun _ => rfl) fun s w _ hc => ?_
  obtain ⟨hr, hmore⟩ := hc
  simp only [hr]
  exact if_neg (mt txEnded_iff.1 hmore)

theorem txe_aborted : Performs (.txe h) (fun s w => w.g.txe = some r ∧ txEnded s w r ∧ r.lanes = 0#32)
    (fun w s => w.now s ({ w.g with txe := none }.each w.lanes endTxLane)) := by
  refine performs_of _ (fun _ => rfl) fun s w hfound hc => ?_
  obtain ⟨hr, hended, hlanes⟩ := hc
  simp only [hr, txEnded_iff.2 hended, hlanes, if_true, tx_finish hfound]

theorem txe_committed : Performs (.txe h) (fun s w => w.g.txe = some r ∧ txEnded s w r ∧ r.lanes ≠ 0#32)
    (fun w s => (((w.now s ({ w.g with txe := none }.each w.lanes endTxLane)).mergePending w.gs).acquireL1 (coreOf w.gs) .dev).updGroup w.gs
      fun g => { g with chk := { g.chk with relFence := true } }) := by
  refine performs_of _ (fun _ => rfl) fun s w hfound hc => ?_
  obtain ⟨hr, hended, hlanes⟩ := hc
  simp only [hr, txEnded_iff.2 hended, hlanes, if_true, if_false, tx_finish hfound]
end Txe

/-- Settles O25: one law per word and outcome. -/
theorem transactions : Obligations.Transactions := by
  unfold Obligations.Transactions
  exact ⟨fun h d code => ⟨txb_performs, txb_too_deep, txa_outside, txa_performs, txq_performs, fun g f l L hl => each_lane g f l L hl⟩,
    fun h r => ⟨txe_nested, txe_outside, txe_waits, txe_begins, txe_underway, txe_aborted, txe_committed⟩⟩

end Sys2Proof.Proofs
end

section
/-! A step that issues a word (07, R184, R185, R195; 09, R219, R237; 02, R47): what is fetched decodes, and `exec` says what the step is. -/

namespace Sys2Proof.Proofs
open Sys2Proof.Machine Sys2Proof.Laws

/-- The lane block notes an issue in the cycle in which its slot took up the word (07, R195). -/
def noted (s : State) (gs : Nat) (b : Bool) (t : State) : State :=
  if s.took gs b t then t.updLb (lbOf gs) fun k => { k with issued := some (s.clock, gs) } else t

/-- The group once its switch marker's park has ended, in the state in which its slot takes up a word. -/
def taking (s : State) (gs : Nat) (g : Group) : State := { s with groups := Tbl.put s.groups gs { g with swPark := false } }

/-- A lane block that is free issues what its slot takes up, and notes it. -/
theorem issueMove_takes {s t : State} {gs : Nat} {b : Bool} (hfree : (s.lb (lbOf gs)).busy ≤ s.clock) (hslot : s.issueSlot gs b = .next t) :
    s.issueMove gs b = .next (noted s gs b t) := by
  unfold State.issueMove noted
  rw [if_neg (Nat.not_lt.mpr hfree), hslot]
  exact (apply_ite Host.Outcome.next _ _ _).symm

theorem step_of_issue {s t : State} {gs : Nat} {b : Bool} {rest : List Move} (hagenda : s.agenda = .issue gs b :: rest)
    (hfree : (s.lb (lbOf gs)).busy ≤ s.clock) (hslot : ({ s with agenda := rest } : State).issueSlot gs b = .next t) :
    step s = .next (noted { s with agenda := rest } gs b t) :=
  (step_of_agenda hagenda).trans (issueMove_takes (s := { s with agenda := rest }) hfree hslot)

/-- A slot that nothing keeps from its next word fetches and runs it. -/
theorem issueSlot_takes {s0 : State} {gs : Nat} {b : Bool} {g : Group} {p : PcSlot}
    (hg : Tbl.find (s0.settleQuiet gs).groups gs = some g) (hp : g.slot b = some p) (hblocked : (s0.settleQuiet gs).blocked gs b g p = false)
    (hparks : (s0.settleQuiet gs).parks gs g = none) (hreplay : (s0.settleQuiet gs).replayAt gs b g p = none)
    (htimer : (s0.settleQuiet gs).timerAt gs b g p = none) :
    s0.issueSlot gs b = (taking (s0.settleQuiet gs) gs g).fetchAndRun gs b { g with swPark := false } p := by
  unfold State.issueSlot
  simp only [hg, hp, Option.bind_some, Option.map_some, hblocked, hparks, hreplay, htimer, Bool.false_eq_true, if_false]
  rfl

/-- A fetched word that decodes is executed by its slot, and goes on. -/
theorem fetchAndRun_decoded {u x : State} {gs : Nat} {b : Bool} {g : Group} {p : PcSlot} {w : W64} {i : Instr}
    (hfetch : u.fetch gs g p = .word w x) (hdecode : decode w = some i) (hg : Tbl.find x.groups gs = some g) (hp : g.slot b = some p) :
    ∃ t, exec i { x with cur := some ⟨gs, b⟩ } = .next t ∧ u.fetchAndRun gs b g p = .next { t with cur := none } := by
  obtain ⟨t, ht⟩ : ∃ t, exec i { x with cur := some ⟨gs, b⟩ } = .next t := by
    cases hinfo : i.info with
    | some f => exact exec_of_slot (g := g) (p := p) hinfo rfl hg hp
    | none => exact exec_of_event hinfo _
  refine ⟨t, ht, ?_⟩
  unfold State.fetchAndRun State.runInstr
  simp only [hfetch, hdecode, ht]

/-- Bits that are no instruction raise 0x01 (09, R237). -/
theorem fetchAndRun_undecoded {u x : State} {gs : Nat} {b : Bool} {g : Group} {p : PcSlot} {w : W64}
    (hfetch : u.fetch gs g p = .word w x) (hdecode : decode w = none) :
    u.fetchAndRun gs b g p = .next (x.raise gs ⟨p.pc, x.rwcNow gs g, g.nissue, b⟩ { code := 0x01, lanes := p.mask }) := by
  unfold State.fetchAndRun
  simp only [hfetch, hdecode]

/-! ### What a fetch brings -/

section Fetch
variable {u : State} {gs : Nat} {g : Group} {p : PcSlot} {pa : Nat} {un : Bool}

theorem fetch_ahead {w : W64} (h : p.fetched = some w) : u.fetch gs g p = .word w u := by
  unfold State.fetch
  simp only [h]

theorem fetch_read (hp : p.fetched = none)
    (htr : u.fetchTr ⟨gs, g, p.walked, isWalker gs || g.ft.isSome, .fetch⟩ p.pc.toNat = .ok [.mem pa] un) (hgood : u.poisoned pa 8 = false) :
    u.fetch gs g p = .word (u.fetchFrom (coreOf gs) (u.partOf g) pa un).1 (u.fetchFrom (coreOf gs) (u.partOf g) pa un).2 := by
  unfold State.fetch
  simp only [hp, htr]
  rw [if_neg (by simpa [Loc.pa] using hgood)]
  rfl

theorem fetchFrom_uncached {core part : Nat} (h : un = true ∨ u.ownMem pa = false) : u.fetchFrom core part pa un = (u.rd8 pa, u) := by
  unfold State.fetchFrom
  rw [if_pos (by simpa using h)]

theorem fetchFrom_hit {core part : Nat} {l : L1Line} (hu : un = false) (hown : u.ownMem pa = true) (hl : u.l1Line core (pa / 128) = some l) :
    u.fetchFrom core part pa un = (BitVec.ofNat 64 (ofBytes ((l.bytes.drop (pa % 128)).take 8)), u) := by
  unfold State.fetchFrom
  rw [if_neg (by simp [hu, hown]), hl]

theorem fetchFrom_miss {core part : Nat} (hu : un = false) (hown : u.ownMem pa = true) (hl : u.l1Line core (pa / 128) = none) :
    u.fetchFrom core part pa un = (u.rd8 pa, u.fetchLine core part (pa / 128) true 0) := by
  unfold State.fetchFrom
  rw [if_neg (by simp [hu, hown]), hl]
end Fetch

/-- Settles O39: the slot takes up its word, the fetch brings it in one of four ways, and it decodes or does not. -/
theorem stepsOfWords : Obligations.StepsOfWords := by
  unfold Obligations.StepsOfWords
  intro s gs b rest g0 p hagenda hfree v hg hp hblocked hparks hreplay htimer g u q counted runs
  have htakes : ({ s with agenda := rest } : State).issueSlot gs b = u.fetchAndRun gs b g p :=
    issueSlot_takes hg hp hblocked hparks hreplay htimer
  have hslot : g.slot b = some p := by cases b <;> exact hp
  have hgroup : Tbl.find u.groups gs = some g := find_put_self _ _ _
  have hruns : ∀ w x, u.fetch gs g p = .word w x → x.groups = u.groups → runs w x := by
    intro w x hfetch hgroups
    refine ⟨fun i hdecode => ?_, fun hdecode => ?_⟩
    · obtain ⟨t, hexec, hrun⟩ := fetchAndRun_decoded hfetch hdecode (hgroups ▸ hgroup) hslot
      exact ⟨t, hexec, step_of_issue hagenda hfree (htakes.trans hrun)⟩
    · exact step_of_issue hagenda hfree (htakes.trans (fetchAndRun_undecoded hfetch hdecode))
  refine ⟨fun w hw => hruns w u (fetch_ahead hw) rfl, fun pa un hnone htr hgood => ?_⟩
  have hread := fetch_read hnone htr hgood
  refine ⟨fun h => hruns _ _ (by rw [hread, fetchFrom_uncached h]) rfl, fun hu hown => ⟨fun l hl => ?_, fun hl => ?_⟩⟩
  · exact hruns _ _ (by rw [hread, fetchFrom_hit hu hown hl]) rfl
  · exact hruns _ _ (by rw [hread, fetchFrom_miss hu hown hl]) (same_fetch u _ _ _ true 0).2

end Sys2Proof.Proofs
end

section
/-! Repair (16, R381 to R389; 02, R46, R59 to R62; 07, R180 to R182): checks, retirements at a boundary, evacuations, strikes. -/

namespace Sys2Proof.Proofs
open Sys2Proof.Machine Sys2Proof.Laws

section Units
variable {s : State}

/-! ### Checks of units -/

theorem selfCheck_idle {u : HwUnit} {why : Reason} {pass : Bool}
    (h : s.sec.powered = false ∨ s.unitLive u = false ∨ s.idleWindow u = false) : exec (.selfCheck u why pass) s = .next s := by
  show execSelfCheck u why pass s = _
  unfold execSelfCheck
  rw [if_pos (by simpa [or_assoc] using h)]

theorem selfCheck_passes {u : HwUnit} {why : Reason} (hpower : s.sec.powered = true) (hlive : s.unitLive u = true)
    (hidle : s.idleWindow u = true) : exec (.selfCheck u why true) s = .next { s with checks := s.checks.filter (· != u) } := by
  show execSelfCheck u why true s = _
  unfold execSelfCheck
  rw [if_neg (by simp [hpower, hlive, hidle])]
  exact congrArg Host.Outcome.next (if_pos rfl)

theorem earlyCheckFlag_due {u : HwUnit} (hpower : s.sec.powered = true) (hlive : s.unitLive u = true) (hfresh : u ∉ s.checks)
    (hdue : s.flagDue u = true) : exec (.earlyCheckFlag u) s = .next { s with checks := u :: s.checks } :=
  congrArg Host.Outcome.next (if_neg (by simp [hpower, hlive, hfresh, hdue]))

theorem earlyCheckFlag_early {u : HwUnit} (hdue : s.flagDue u = false) : exec (.earlyCheckFlag u) s = .next s :=
  congrArg Host.Outcome.next (if_pos (by simp [hdue]))

/-! ### Retirements at a boundary -/

/-- Where no group loses anything, no context is named and no state changes. -/
theorem partsOf_none (s : State) : s.partsOf (s.ctxsOf []) = 0 := rfl
theorem loseUnit_none (s : State) : s.loseUnit [] = s := rfl

theorem steeringRewrite_none {lb : Nat} (h : (s.die (dieOf (lb / 4))).pending = []) : exec (.steeringRewrite lb) s = .next s := by
  show execSteeringRewrite lb s = _
  unfold execSteeringRewrite
  simp only [retiring_none h]

theorem registerBankMigration_none {lb : Nat} (h : (s.die (dieOf (lb / 4))).pending = []) : exec (.registerBankMigration lb) s = .next s := by
  show execRegisterBankMigration lb s = _
  unfold execRegisterBankMigration
  simp only [retiring_none h]

theorem localStoreBankMigration_none {core : Nat} (h : (s.die (dieOf core)).pending = []) : exec (.localStoreBankMigration core) s = .next s := by
  show execLocalStoreBankMigration core s = _
  unfold execLocalStoreBankMigration
  simp only [retiring_none h]

/-- A lane retires between words while others are left (07, R181). -/
theorem steeringRewrite_lane {lb i : Nat} {why : Reason} (hnext : s.retiring (dieOf (lb / 4)) = some (.lane lb i, why))
    (hfree : (s.lb lb).busy ≤ s.clock) (hleft : ((s.updLb lb fun b => { b with lost := insertBy id i b.lost }).lb lb).width ≠ 0) :
    let s1 := s.updLb lb fun b => { b with lost := insertBy id i b.lost }
    let n := (s1.lb lb).width
    exec (.steeringRewrite lb) s = .next
      (((s1.retireRecord 1 (reasonCode why) 0 (dieOf (lb / 4)) (lb / 4) (lb % 4) i n (n - 32) 0).retired (dieOf (lb / 4))).retest (lb / 4)) := by
  show execSteeringRewrite lb s = _
  unfold execSteeringRewrite
  simp only [hnext]
  rw [if_neg (by simpa using hfree)]
  simp only [if_neg hleft, partsOf_none]
  rfl

/-- A register bank retires between words where the groups there still fit (07, R180). -/
theorem registerBankMigration_fits {lb i : Nat} {why : Reason} (hnext : s.retiring (dieOf (lb / 4)) = some (.regBank lb i, why))
    (hfree : (s.lb lb).busy ≤ s.clock)
    (hfit : ((s.lbGroups lb).map fun gs => ((Tbl.find s.groups gs).map (·.n)).getD 0).sum ≤ ((s.updLb lb fun b => b.loseBank i).lb lb).capacity) :
    let s1 := s.updLb lb fun b => b.loseBank i
    let n := (s1.lb lb).banks
    exec (.registerBankMigration lb) s = .next
      (((s1.retireRecord 2 (reasonCode why) (if 16 ≤ n then 1 else 0) (dieOf (lb / 4)) (lb / 4) (lb % 4) i n (n - 16) 0).retired
        (dieOf (lb / 4))).retest (lb / 4)) := by
  show execRegisterBankMigration lb s = _
  unfold execRegisterBankMigration
  simp only [hnext]
  rw [if_neg (by simpa using hfree)]
  simp only [if_neg (Nat.not_lt.mpr hfit), loseUnit_none, partsOf_none]
  rfl

/-- A local-store bank retires where 32 are left (02, R46). -/
theorem localStoreBankMigration_spare {core i : Nat} {why : Reason} (hnext : s.retiring (dieOf core) = some (.lsBank core i, why))
    (hleft : 32 ≤ ((s.updCore core fun k => { k with lostBanks := i :: k.lostBanks }).core core).banks) :
    let s1 := s.updCore core fun k => { k with lostBanks := i :: k.lostBanks }
    let n := (s1.core core).banks
    exec (.localStoreBankMigration core) s = .next
      (((s1.retireRecord 3 (reasonCode why) 1 (dieOf core) core 0 i n (n - 32) 0).retired (dieOf core)).retest core) := by
  show execLocalStoreBankMigration core s = _
  unfold execLocalStoreBankMigration
  simp only [hnext, if_neg (Nat.not_lt.mpr hleft), loseUnit_none, partsOf_none, if_pos hleft]
  exact congrArg Host.Outcome.next (if_neg (not_not.mpr rfl))

/-! ### Evacuations -/

section Evacuations
variable {die : Nat} {e : Evac} {l : List Evac}

theorem evacuations_none (h : (s.die die).evacs = []) :
    exec (.sliceEvacuationSet die) s = .next s ∧ exec (.channelEvacuationLine die) s = .next s := by
  constructor
  · show execSliceEvacuationSet die s = _
    unfold execSliceEvacuationSet
    simp only [h, List.head?_nil]
  · show execChannelEvacuationLine die s = _
    unfold execChannelEvacuationLine
    simp only [h, List.head?_nil]

section Slice
variable (he : (s.die die).evacs = e :: l)
include he

theorem channelEvacuationLine_other (hs : e.slice = true) : exec (.channelEvacuationLine die) s = .next s := by
  show execChannelEvacuationLine die s = _
  unfold execChannelEvacuationLine
  simp only [he, List.head?_cons, hs, if_true]

theorem sliceEvacuationSet_other (hs : e.slice = false) : exec (.sliceEvacuationSet die) s = .next s := by
  show execSliceEvacuationSet die s = _
  unfold execSliceEvacuationSet
  simp only [he, List.head?_cons, hs, Bool.not_false, if_true]

theorem sliceEvacuationSet_drops (hs : e.slice = true) (hptr : e.ptr < 1024) : exec (.sliceEvacuationSet die) s = .next
    (((s.l2.filter (fun x => homeDie (x.1 * 128) == die && homeLs (x.1 * 128) == e.logical && homeSet (x.1 * 128) == e.ptr)).foldl
      (fun u x => u.dropLine x.1) s).updEvac die fun e => { e with ptr := e.ptr + 1 }) := by
  show execSliceEvacuationSet die s = _
  unfold execSliceEvacuationSet
  simp only [he, List.head?_cons, hs, Bool.not_true, Bool.false_eq_true, if_false, if_neg (Nat.not_le.mpr hptr)]

theorem sliceEvacuationSet_ends (hs : e.slice = true) (hptr : 1024 ≤ e.ptr) :
    let owner := (s.sec.modnum.toNat * 4 + die) * 64 + e.logical
    exec (.sliceEvacuationSet die) s = .next (({ s with
      rcache := s.rcache.filter (fun x => x.owner != owner || x.place != s.rcPlaceOf die e.src)
      sec := { s.sec with incLost := (owner :: s.sec.incLost).eraseDups } } : State).endEvac die e) := by
  show execSliceEvacuationSet die s = _
  unfold execSliceEvacuationSet
  simp only [he, List.head?_cons, hs, Bool.not_true, Bool.false_eq_true, if_false, if_pos hptr]

/-- The next line of a retiring channel, among the 256 that a step looks at (02, R61). -/
def channelNext (s : State) (die : Nat) (e : Evac) : Option Nat :=
  ((List.range 256).map (· + e.ptr)).find? (fun n => decide (n < dieLines) && (s.die die).chanOf die n == e.src)

/-- The channels with room in their reserves. -/
def channelRoom (s : State) (die : Nat) : List Nat :=
  (List.range 128).filter (fun c => !(s.die die).lostChans.contains c && decide (Tbl.get 0 (s.die die).reserve c < reserveLines))

theorem channelEvacuationLine_skips (hs : e.slice = false) (hnext : channelNext s die e = none) (hptr : e.ptr + 256 < dieLines) :
    exec (.channelEvacuationLine die) s = .next (s.updEvac die fun e => { e with ptr := e.ptr + 256 }) := by
  show execChannelEvacuationLine die s = _
  unfold channelNext at hnext
  unfold execChannelEvacuationLine
  simp only [he, List.head?_cons, hs, Bool.false_eq_true, if_false, hnext, if_neg (Nat.not_le.mpr hptr)]

theorem channelEvacuationLine_ends (hs : e.slice = false) (hnext : channelNext s die e = none) (hptr : dieLines ≤ e.ptr + 256) :
    exec (.channelEvacuationLine die) s = .next (s.endEvac die e) := by
  show execChannelEvacuationLine die s = _
  unfold channelNext at hnext
  unfold execChannelEvacuationLine
  simp only [he, List.head?_cons, hs, Bool.false_eq_true, if_false, hnext, if_pos hptr]

theorem channelEvacuationLine_moves {n c : Nat} (hs : e.slice = false) (hnext : channelNext s die e = some n)
    (hroom : (channelRoom s die)[e.count % max 1 (channelRoom s die).length]? = some c) :
    exec (.channelEvacuationLine die) s = .next ((s.updDie die fun d =>
      { d with moved := Tbl.put d.moved n c, reserve := Tbl.put d.reserve c (Tbl.get 0 d.reserve c + 1) }).updEvac die
        fun e => { e with ptr := n + 1, count := e.count + 1 }) := by
  show execChannelEvacuationLine die s = _
  unfold channelNext at hnext
  unfold channelRoom at hroom
  unfold execChannelEvacuationLine
  simp only [he, List.head?_cons, hs, Bool.false_eq_true, if_false, hnext, hroom]
end Slice
end Evacuations

/-! ### Strikes -/

theorem strikeReport_unpowered {z : Zone} {age : Nat} (h : s.sec.powered = false) : exec (.strikeReport z age) s = .next s :=
  congrArg Host.Outcome.next (if_pos (by simp [h]))

section Strikes
variable {age : Nat} (hpower : s.sec.powered = true)
include hpower

theorem powered_not : ¬ (!s.sec.powered) = true := by simp [hpower]

theorem strike_laneBlock {lb : Nat} (hlb : lb < 3072) :
    (age < 48 → exec (.strikeReport (.laneBlock lb) age) s = .next
      ((((s.groups.map (·.1)).filter (fun gs => gs / 16 == lb)).foldl (fun u gs => u.discard gs (fun _ => true)) s).strikeRecord
        true (dieOf (lb / 4)) (lb / 4) (lb % 4) 0)) ∧
    (48 ≤ age → exec (.strikeReport (.laneBlock lb) age) s = .next
      (s.unrecovered (s.ctxsOf (s.lbGroups lb)) (dieOf (lb / 4)) (lb / 4) (lb % 4))) :=
  ⟨fun hage => congrArg Host.Outcome.next ((if_neg (powered_not hpower)).trans ((if_neg (Nat.not_le.mpr hlb)).trans (if_neg (Nat.not_le.mpr hage)))),
    fun hage => congrArg Host.Outcome.next ((if_neg (powered_not hpower)).trans ((if_neg (Nat.not_le.mpr hlb)).trans (if_pos hage)))⟩

section Cores
variable {core : Nat} (hcore : core < 768)
include hcore

/-- A young strike in a core: what is held there is discarded, or what was struck is cleared (16, R387). -/
theorem strike_core_young (hage : age < 48) :
    exec (.strikeReport (.corePort core) age) s = .next
      (((s.coreGroups core).foldl (fun u gs => u.discard gs (fun t => !t.reqs.isEmpty)) s).strikeRecord true (dieOf core) core 4 0) ∧
    exec (.strikeReport (.felt core) age) s = .next
      (((s.coreGroups core).foldl (fun u gs => u.discard gs (fun t => !t.reqs.isEmpty)) s).strikeRecord true (dieOf core) core 7 0) ∧
    exec (.strikeReport (.matrix core) age) s = .next (s.strikeRecord true (dieOf core) core 6 0) ∧
    exec (.strikeReport (.l1 core) age) s = .next ((s.l1Clear core).strikeRecord true (dieOf core) core 8 0) :=
  have hyoung := Nat.not_le.mpr hage
  have hthere := Nat.not_le.mpr hcore
  ⟨congrArg Host.Outcome.next ((if_neg (powered_not hpower)).trans ((if_neg hthere).trans (if_neg hyoung))),
    congrArg Host.Outcome.next ((if_neg (powered_not hpower)).trans ((if_neg hthere).trans (if_neg hyoung))),
    congrArg Host.Outcome.next ((if_neg (powered_not hpower)).trans ((if_neg hthere).trans (if_neg hyoung))),
    congrArg Host.Outcome.next ((if_neg (powered_not hpower)).trans ((if_neg hthere).trans (if_neg hyoung)))⟩

theorem strike_corePort_old (hage : 48 ≤ age) : exec (.strikeReport (.corePort core) age) s = .next
    (s.unrecovered (s.ctxsOf (s.coreGroups core)) (dieOf core) core 4) :=
  congrArg Host.Outcome.next ((if_neg (powered_not hpower)).trans ((if_neg (Nat.not_le.mpr hcore)).trans (if_pos hage)))

theorem strike_localStore {off : Nat} (hoff : off < 2 ^ 19) :
    exec (.strikeReport (.localStore core off true) age) s = .next (s.strikeRecord true (dieOf core) core 5 0) ∧
    exec (.strikeReport (.localStore core off false) age) s = .next
      ((s.updCore core fun c => { c with bad := (off / 4 :: c.bad).eraseDups }).strikeRecord false (dieOf core) core 5 0) :=
  have hthere : ¬ (768 ≤ core ∨ 2 ^ 19 ≤ off) := not_or.mpr ⟨Nat.not_le.mpr hcore, Nat.not_le.mpr hoff⟩
  ⟨congrArg Host.Outcome.next ((if_neg (powered_not hpower)).trans (if_neg hthere)),
    congrArg Host.Outcome.next ((if_neg (powered_not hpower)).trans (if_neg hthere))⟩

theorem strike_tileWord {i : Nat} (hi : i < 32768) : exec (.strikeReport (.tileWord core i false) age) s = .next
    ((s.updCore core fun c => { c with badTiles := (i :: c.badTiles).eraseDups }).strikeRecord false (dieOf core) core 5 0) :=
  have hthere : ¬ (768 ≤ core ∨ 16 * 2048 ≤ i) := not_or.mpr ⟨Nat.not_le.mpr hcore, Nat.not_le.mpr hi⟩
  congrArg Host.Outcome.next ((if_neg (powered_not hpower)).trans (if_neg hthere))
end Cores

theorem strike_sliceData {pa : Nat} (hown : s.ownMem pa = true) (hdie : homeDie pa ≤ 3) :
    exec (.strikeReport (.sliceData pa true) age) s = .next (s.strikeRecord true (homeDie pa) 0 9 0) ∧
    exec (.strikeReport (.sliceData pa false) age) s = .next
      (({ s with poison := (pa / 4 :: s.poison).eraseDups } : State).strikeRecord false (homeDie pa) 0 9 0) :=
  have hthere : ¬ (!s.ownMem pa || decide (3 < homeDie pa)) = true := by simp [hown, hdie]
  ⟨congrArg Host.Outcome.next ((if_neg (powered_not hpower)).trans (if_neg hthere)),
    congrArg Host.Outcome.next ((if_neg (powered_not hpower)).trans (if_neg hthere))⟩

theorem strike_sliceDir {die ls : Nat} (hdie : die ≤ 3) (hls : ls ≤ 63) :
    let owners := ((s.die die).servedBy ls).map fun l => (s.sec.modnum.toNat * 4 + die) * 64 + l
    exec (.strikeReport (.sliceDir die ls) age) s = .next (({ s with
      rcache := s.rcache.filter (fun x => x.place != s.rcPlaceOf die ls)
      sec := { s.sec with incLost := (owners ++ s.sec.incLost).eraseDups } } : State).unrecovered (s.ctxsAt die) die 0 9) :=
  have hthere : ¬ (3 < die ∨ 63 < ls) := not_or.mpr ⟨Nat.not_lt.mpr hdie, Nat.not_lt.mpr hls⟩
  congrArg Host.Outcome.next ((if_neg (powered_not hpower)).trans (if_neg hthere))

theorem strike_headbox {die : Nat} (hdie : die ≤ 3) :
    exec (.strikeReport (.headbox die) age) s = .next (s.unrecovered (s.ctxsOn die) die 0 10) :=
  congrArg Host.Outcome.next ((if_neg (powered_not hpower)).trans (if_neg (Nat.not_lt.mpr hdie)))
end Strikes
end Units

/-- Settles O58: one law per event of a unit, an evacuation and a zone. -/
theorem repairSteps : Obligations.RepairSteps := by
  unfold Obligations.RepairSteps
  intro s
  refine ⟨fun u why pass => ⟨selfCheck_idle, fun hpower hlive hidle => ⟨fun hpass => hpass ▸ selfCheck_passes hpower hlive hidle,
      fun hpass hnone hu => hpass ▸ check_fails hpower hlive hidle hnone hu⟩⟩,
    fun u => ⟨earlyCheckFlag_due, earlyCheckFlag_early⟩, fun lb h => ⟨steeringRewrite_none h, registerBankMigration_none h⟩,
    fun lb i why => steeringRewrite_lane, fun lb i why => registerBankMigration_fits, fun core i why => localStoreBankMigration_spare,
    fun core => localStoreBankMigration_none, fun die => evacuations_none, fun die e l he => ?_, fun z age => strikeReport_unpowered,
    fun age hpower => ⟨fun lb => strike_laneBlock hpower, fun core hcore => ⟨strike_core_young hpower hcore, strike_corePort_old hpower hcore,
        fun off => strike_localStore hpower hcore, fun i => strike_tileWord hpower hcore⟩,
      fun pa => strike_sliceData hpower, fun die ls => strike_sliceDir hpower, fun die => strike_headbox hpower⟩⟩
  exact ⟨channelEvacuationLine_other he, sliceEvacuationSet_other he, sliceEvacuationSet_drops he, sliceEvacuationSet_ends he,
    fun hs => ⟨channelEvacuationLine_skips he hs, channelEvacuationLine_ends he hs, fun n c => channelEvacuationLine_moves he hs⟩⟩

end Sys2Proof.Proofs
end


section
/-! The host's accesses: where a window read finds an owned line. -/

namespace Sys2Proof.Proofs

open Sys2Proof.Machine Sys2Proof.Laws

/-- A powered module whose table of owners holds a line beyond all memory, in the range of the window's offsets. -/
def windowLineOwned : State := { State.reset with sec := { State.reset.sec with powered := true }, owners := [(2 ^ 53, 0)] }

theorem windowLineOwned_portOf : windowLineOwned.portOf 0 = some 0 := rfl

/-- A window read recalls that line first, as `State.owned` counts the line of the first byte even where no byte is read. -/
theorem windowLineOwned_hostRead : ∃ t : State, exec (.hostRead 0 (2 ^ 60 + 8) 8) windowLineOwned = .next t ∧ t.hostOut = [] :=
  ⟨_, rfl, by decide⟩

/-- Refutes O57: a host read of the window at an offset that is no multiple of 128 answers nothing where the table of owners holds the line of
that offset; it recalls the line instead. -/
theorem not_hostSteps : ¬ Obligations.HostSteps := by
  unfold Obligations.HostSteps
  intro h
  obtain ⟨-, hread, -⟩ := h windowLineOwned
  obtain ⟨-, hanswer⟩ := hread 0 (2 ^ 60 + 8) 8 0 windowLineOwned_portOf
  obtain ⟨t, l, hstep, hout, -⟩ := hanswer (.inl (by decide))
  obtain ⟨u, hrun, hnone⟩ := windowLineOwned_hostRead
  have htu : t = u := Host.Outcome.next.inj (hstep.symm.trans hrun)
  rw [htu, hnone] at hout
  exact absurd hout (by simp)

end Sys2Proof.Proofs
end


section
/-! The life of a grid: placement, the application of its reduction log, retirement, deadlines and halts. -/

namespace Sys2Proof.Proofs

open Sys2Proof.Machine Sys2Proof.Laws

/-! ### Placement (08, R211 to R214) -/

/-- Outside re-execution no record names a place. -/
theorem loggedGo_none {s : State} {g : Grid} {l : List Place} {vs : List CoreView} {k : Nat} (hr : (s.space g.spid).replay = none) :
    (s.loggedGo g k vs l.length).getD l = l := by
  have hnext : ∀ name rwc kind key, s.nextAt g.spid name rwc kind key = none := fun name rwc kind key => by unfold State.nextAt; simp [hr]
  cases l with
  | nil => rfl
  | cons p l => simp [State.loggedGo, hnext]

section Placement
variable {s : State} {grid : Nat} {g : Grid} (hgrid : Tbl.find s.grids grid = some g)
  (halone : ∀ x ∈ s.grids, x.1 ≠ grid → x.2.part ≠ g.part) (hfresh : s.restorable grid g = false)
include hgrid halone hfresh

omit hgrid hfresh in
/-- No other grid of the partition asks. -/
theorem no_other_grid (asks : Nat × Grid → Bool) : s.grids.any (fun x => x.1 != grid && x.2.part == g.part && asks x) = false := by
  refine List.any_eq_false.mpr fun x hx => ?_
  by_cases hself : x.1 = grid
  · simp [hself]
  · simp [halone x hx hself]

theorem workgroupPlacement_unplaceable (hp : s.placeable g = false) : exec (.workgroupPlacement grid) s = .next s := by
  show execWorkgroupPlacement grid s = _
  unfold execWorkgroupPlacement
  simp only [hgrid]
  rw [if_neg (by rw [no_other_grid halone]; decide), if_neg (by simp [hfresh]), if_pos (by simp [hp])]

theorem workgroupPlacement_waits (hp : s.placeable g = true) (hl : s.nextPlaces grid g = none) :
    exec (.workgroupPlacement grid) s = .next (if g.cosched then s.updGrid grid fun g => { g with waits := true } else s) := by
  show execWorkgroupPlacement grid s = _
  unfold execWorkgroupPlacement
  simp only [hgrid]
  rw [if_neg (by rw [no_other_grid halone]; decide), if_neg (by simp [hfresh]), if_neg (by simp [hp]), hl]

theorem workgroupPlacement_places {l : List Place} (hp : s.placeable g = true) (hl : s.nextPlaces grid g = some l) (hr : (s.space g.spid).replay = none) :
    exec (.workgroupPlacement grid) s = .next ((l.foldl (fun u p => u.startWg grid p) s).updGrid grid fun g => { g with waits := false }) := by
  show execWorkgroupPlacement grid s = _
  unfold execWorkgroupPlacement
  simp only [hgrid]
  rw [if_neg (by rw [no_other_grid halone]; decide), if_neg (by simp [hfresh]), if_neg (by simp [hp]), hl]
  simp only [loggedGo_none hr]

/-- One workgroup more, with the grid's next index. -/
theorem workgroupPlacement_one {p : Place} (hp : s.placeable g = true) (hl : s.nextPlaces grid g = some [p]) (hr : (s.space g.spid).replay = none)
    (hrec : (s.space g.spid).records = false) : ∃ (t : State) (w : Workgroup), exec (.workgroupPlacement grid) s = .next t ∧
      Tbl.find t.wgs (s.fresh + 1) = some w ∧ w.grid = grid ∧ w.wgidx = g.next ∧ w.core = p.core ∧ w.ngrp = g.groups ∧ w.lsBase = 1024 * p.ls ∧
      w.rank = g.next % g.gangSize ∧ t.mem = s.mem ∧ ∃ g1, Tbl.find t.grids grid = some g1 ∧ g1.next = g.next + 1 ∧ g1.waits = false := by
  obtain ⟨⟨w, hw, h1, h2, h3, h4, h5, h6⟩, hmem, g1, hg1, hnext⟩ := startWg_spec (p := p) hgrid hr hrec
  refine ⟨_, w, workgroupPlacement_places hgrid halone hfresh hp hl hr, hw, h1, h2, h3, h4, h5, h6, hmem, { g1 with waits := false }, ?_, hnext, rfl⟩
  show Tbl.find (Tbl.upd (s.startWg grid p).grids grid _) grid = _
  rw [find_upd_self, hg1]
  rfl

end Placement

/-! ### A write of some bytes at a home -/

/-- Of the cells of some bytes in a row, the one at a place holds its byte. -/
theorem find_cellsAt {pa i : Nat} {l : List Byte} (hi : i < l.length) :
    (cellsAt pa l).reverse.find? (fun c => c.1 == pa + i) = some (pa + i, l.getD i 0#8) := by
  refine find_single _ _ _ ?_ (by simp) ?_
  · exact List.mem_reverse.mpr (List.mem_map.mpr ⟨i, List.mem_range.mpr hi, rfl⟩)
  · intro b hb hpa
    obtain ⟨j, -, rfl⟩ := List.mem_map.mp (List.mem_reverse.mp hb)
    have hj : j = i := Nat.add_left_cancel (beq_iff_eq.mp hpa)
    rw [hj]

theorem find_cellsAt_outside {pa a : Nat} {l : List Byte} (ha : a < pa ∨ pa + l.length ≤ a) :
    (cellsAt pa l).reverse.find? (fun c => c.1 == a) = none := by
  refine List.find?_eq_none.mpr fun b hb => ?_
  obtain ⟨j, hj, rfl⟩ := List.mem_map.mp (List.mem_reverse.mp hb)
  have hlt := List.mem_range.mp hj
  simp only [beq_iff_eq]
  omega

theorem toBytes_length (n x : Nat) : (toBytes n x).length = n := by
  induction n generalizing x with
  | zero => rfl
  | succ n ih => simp [toBytes, ih]

/-- An agent's write at its home stores its bytes and nothing else. -/
theorem agentPut_spec {s : State} {x : Sender} {pa : Nat} {l : List Byte} (hwho : x.who = none) (hrec : (s.space x.spid).records = false)
    (hr : (s.space x.spid).replay = none) (hb : ∀ i, i < l.length → s.barred (pa + i) = false) :
    (s.agentPut x pa l).grids = s.grids ∧ (∀ i, i < l.length → (s.agentPut x pa l).byte (pa + i) = l.getD i 0#8) ∧
      ∀ a, a < pa ∨ pa + l.length ≤ a → (s.agentPut x pa l).byte a = s.byte a := by
  have hw := homeWrite_spec hrec hr x.part (!x.unc) (cellsAt pa l)
  have hspoil : (s.homeWrite x.spid x.part (!x.unc) (cellsAt pa l)).spoil (cellsAt pa l) = s.homeWrite x.spid x.part (!x.unc) (cellsAt pa l) := by
    refine spoil_none fun c hc => ?_
    obtain ⟨j, hj, rfl⟩ := List.mem_map.mp hc
    unfold State.barred
    rw [hw.sec, hw.queues]
    exact hb j (List.mem_range.mp hj)
  have hrest : ∀ q : Req, Caches (s.homeWrite x.spid x.part (!x.unc) (cellsAt pa l))
      (((s.homeWrite x.spid x.part (!x.unc) (cellsAt pa l)).clearSector (pa / 64)).noteStrong q (pa / 64)) :=
    fun q => (caches_clear _ _).trans (caches_noteStrong _ q _)
  have hput : s.agentPut x pa l = ((((s.homeWrite x.spid x.part (!x.unc) (cellsAt pa l)).clearSector (pa / 64)).noteStrong
      (s.putPacket x pa l) (pa / 64)).dropCopies (pa / 128)) := by
    unfold State.agentPut
    simp only [hspoil, hwho]
  have hmem : ∀ a, (s.agentPut x pa l).byte a = ((((cellsAt pa l).reverse.find? (fun c => c.1 == a)).map (·.2)).getD (s.byte a)) := by
    intro a
    rw [hput]
    show Tbl.get 0#8 (State.noteStrong _ _ _).mem a = _
    rw [(hrest _).mem, hw.mem]
    exact get_cells _ _ _
  refine ⟨?_, fun i hi => by rw [hmem, find_cellsAt hi]; rfl, fun a ha => by rw [hmem, find_cellsAt_outside ha]; rfl⟩
  rw [hput]
  exact (hrest _).grids.trans hw.grids

theorem recallFor_unowned {s : State} (howners : s.owners = []) (u line : Nat) : s.recallFor u line = some s := by
  unfold State.recallFor
  rw [howners]
  rfl

/-- Where no line is owned there is nothing to recall. -/
theorem recallAll_unowned {s : State} (howners : s.owners = []) (u pa n : Nat) : s.recallAll u pa n = some s := by
  unfold State.recallAll
  exact foldl_same _ _ _ fun i _ => recallFor_unowned howners u _

theorem owned_unowned {s : State} (howners : s.owners = []) (u pa n : Nat) : s.owned u pa n = false := by
  unfold State.owned
  rw [howners]
  rfl

/-- A sum of an agent at a home of its own die, on a word that nothing bars, is done at once. -/
theorem agentRmw_near {s : State} {x : Sender} {pa v : Nat} (hnear : s.remoteOwner x.unit pa = none) (hfree : s.engFree pa 4 = true)
    (howners : s.owners = []) (hgood : s.poisoned pa 4 = false) :
    s.agentRmw x pa 4 .sum v 0 = .ok (s.rd pa 4, s.agentPut { x with strong := true } pa (toBytes 4 (f32.add .rne (s.rd pa 4) v))) := by
  unfold State.agentRmw
  rw [if_neg (by simp [hnear]), if_neg (by simp [hfree]), recallAll_unowned howners]
  simp only
  rw [if_neg (by simp [hgood])]
  rfl

/-! ### The reduction log (05, R148, R149) -/

section Reduction
variable {s : State} {grid : Nat} {g : Grid} {q : Partition}

theorem reductionApplication_early (hgrid : Tbl.find s.grids grid = some g) (hover : s.gridOver grid g = false) :
    exec (.reductionApplication grid) s = .next s := by
  show execReductionApplication grid s = _
  unfold execReductionApplication
  simp only [hgrid]
  rw [if_pos (by simp [hover])]

theorem gridRetirement_early (hgrid : Tbl.find s.grids grid = some g) (hover : s.gridOver grid g = false) :
    exec (.gridRetirement grid) s = .next s := by
  show execGridRetirement grid s = _
  unfold execGridRetirement
  simp only [hgrid]
  rw [if_pos (by simp [hover])]

/-- A grid whose log may be applied now. -/
structure Applies (s : State) (grid : Nat) (g : Grid) (q : Partition) : Prop where
  found : Tbl.find s.grids grid = some g
  applied : g.applied = false
  retired : g.retired = false
  ended : s.gridOver grid g = true
  quiet : s.gridWrites grid = false
  runs : (s.space g.spid).st = .running
  inPart : Tbl.find s.parts g.part = some q
  halt : q.halt = none
  resv : s.resvLeft grid = []

variable (h : Applies s grid g q)
include h

theorem reductionApplication_reads (hreds : g.reds = none) : exec (.reductionApplication grid) s = .next (s.readLog grid g) := by
  show execReductionApplication grid s = _
  unfold execReductionApplication
  simp only [h.found]
  rw [if_neg (by simp [h.applied, h.retired, h.ended, h.quiet, h.runs, h.inPart, h.halt, h.resv]), hreds]

theorem reductionApplication_applies {l : List (Nat × W32)} (hreds : g.reds = some l) :
    exec (.reductionApplication grid) s = .next (s.applyNext grid g l) := by
  show execReductionApplication grid s = _
  unfold execReductionApplication
  simp only [h.found]
  rw [if_neg (by simp [h.applied, h.retired, h.ended, h.quiet, h.runs, h.inPart, h.halt, h.resv]), hreds]

theorem readLog_spoilt (hreds : g.reds = none) (hbad : s.logPoisoned g = true) :
    exec (.reductionApplication grid) s = .next (s.haltBy g.spid 7 0 0x28 0) := by
  rw [reductionApplication_reads h hreds]
  simp only [State.readLog, h.resv, List.foldl_nil]
  rw [if_pos hbad]

theorem readLog_reads (hreds : g.reds = none) (hgood : s.logPoisoned g = false) (howners : s.owners = []) :
    exec (.reductionApplication grid) s = .next ({ s with free := s.free + 1 }.updGrid grid fun g => { g with
      reds := some ((redOrder s.free (s.redEntries g)).map fun (e : RedEntry) => (e.pa, BitVec.ofNat 32 e.val)) }) := by
  rw [reductionApplication_reads h hreds]
  simp only [State.readLog, h.resv, List.foldl_nil]
  rw [if_neg (by simp [hgood]), List.find?_eq_none.mpr fun x _ => by simp [owned_unowned howners]]

section Entry
variable {e : Nat × W32} {l : List (Nat × W32)} (hreds : g.reds = some (e :: l))
include hreds

theorem applyNext_outside (hout : s.paExists e.1 = false) : exec (.reductionApplication grid) s = .next (s.haltBy g.spid 7 0 0x09 0x09) := by
  rw [reductionApplication_applies h hreds]
  simp only [State.applyNext]
  rw [if_pos (by simp [hout])]

theorem applyNext_sum (hin : s.paExists e.1 = true) :
    (∀ c d, s.agentRmw (s.redSender grid g) e.1 4 .sum e.2.toNat 0 = .bad c d →
      exec (.reductionApplication grid) s = .next (s.haltBy g.spid 7 0 c d)) ∧
    (∀ s1, s.agentRmw (s.redSender grid g) e.1 4 .sum e.2.toNat 0 = .wait s1 → exec (.reductionApplication grid) s = .next s1) ∧
    (∀ old s1, s.agentRmw (s.redSender grid g) e.1 4 .sum e.2.toNat 0 = .ok (old, s1) →
      exec (.reductionApplication grid) s = .next (s1.updGrid grid fun g => { g with reds := some l })) := by
  have hin' : ¬ (!s.paExists e.1) = true := by simp [hin]
  rw [reductionApplication_applies h hreds]
  refine ⟨fun c d hsum => ?_, fun s1 hsum => ?_, fun old s1 hsum => ?_⟩ <;> simp only [State.applyNext, if_neg hin', hsum]

/-- An entry whose target lies on the applying die is added there at once. -/
theorem applyNext_near (hin : s.paExists e.1 = true) (hnear : s.remoteOwner (s.redSender grid g).unit e.1 = none) (hfree : s.engFree e.1 4 = true)
    (howners : s.owners = []) (hgood : s.poisoned e.1 4 = false) (hrec : (s.space g.spid).records = false) (hr : (s.space g.spid).replay = none)
    (hb : ∀ i, i < 4 → s.barred (e.1 + i) = false) :
    ∃ t, exec (.reductionApplication grid) s = .next t ∧ Tbl.find t.grids grid = some { g with reds := some l } ∧
      (∀ i, i < 4 → t.byte (e.1 + i) = (toBytes 4 (f32.add .rne (s.rd e.1 4) e.2.toNat)).getD i 0#8) ∧
      ∀ a, (a < e.1 ∨ e.1 + 4 ≤ a) → t.byte a = s.byte a := by
  have hlen : (toBytes 4 (f32.add .rne (s.rd e.1 4) e.2.toNat)).length = 4 := toBytes_length ..
  obtain ⟨hgrids, hbytes, hother⟩ := agentPut_spec (x := { s.redSender grid g with strong := true }) (pa := e.1)
    (l := toBytes 4 (f32.add .rne (s.rd e.1 4) e.2.toNat)) rfl hrec hr (by rw [hlen]; exact hb)
  rw [hlen] at hbytes hother
  refine ⟨_, (applyNext_sum h hreds hin).2.2 _ _ (agentRmw_near hnear hfree howners hgood), ?_, hbytes, hother⟩
  show Tbl.find (Tbl.upd (State.agentPut _ _ _ _).grids grid _) grid = _
  rw [find_upd_self, hgrids, h.found]
  rfl

end Entry

theorem applied_unmapped (hreds : g.reds = some []) (hmap : runPa g.rlog ((g.word 0x48).toNat + 0x10) = none) :
    exec (.reductionApplication grid) s = .next (s.updGrid grid fun g => { g with applied := true }) := by
  rw [reductionApplication_applies h hreds]
  simp only [State.applyNext, hmap]

theorem applied_written {pa : Nat} {s1 : State} (hreds : g.reds = some []) (hmap : runPa g.rlog ((g.word 0x48).toNat + 0x10) = some pa)
    (hput : s.agentAll { s.redSender grid g with unc := runUnc g.rlog ((g.word 0x48).toNat + 0x10), strong := false }
      [(pa, toBytes 8 (s.redEntries g).length)] = .ok s1) :
    exec (.reductionApplication grid) s = .next (s1.updGrid grid fun g => { g with applied := true, reds := none }) := by
  rw [reductionApplication_applies h hreds]
  simp only [State.applyNext, hmap, hput]

end Reduction

/-! ### Retirement (08, R215) -/

section Retirement
variable {s : State} {grid : Nat} {g : Grid} (hgrid : Tbl.find s.grids grid = some g) (hretired : g.retired = false) (happlied : g.applied = true)
  (hover : s.gridOver grid g = true) (hquiet : s.gridWrites grid = false) (hruns : (s.space g.spid).st = .running)
  (hsaved : (s.space g.spid).saved = [])
include hgrid hretired happlied hover hquiet hruns hsaved

theorem gridRetirement_packet {pk : Nat} (hpk : g.packet = some pk) : exec (.gridRetirement grid) s = .next
    { s with packets := Tbl.upd s.packets pk fun p => { p with st := .finished }, grids := Tbl.del s.grids grid } := by
  show execGridRetirement grid s = _
  unfold execGridRetirement
  simp only [hgrid, hpk]
  rw [if_neg (by simp [hretired, happlied, hover, hquiet, hruns, hsaved])]
  rfl

/-- A child grid ends with its completion signal's subtraction. -/
theorem gridRetirement_child (hpk : g.packet = none) :
    let sub := s.csig { spid := g.spid, part := g.part, phys := false, die := (s.redSender grid g).unit - 768, cls := g.cls, tag := 2 ^ 42 + grid }
      (g.word 0x40).toNat
    (∀ s1, sub = .ok s1 → exec (.gridRetirement grid) s = .next (if s1.parentLives g then s1.updGrid grid fun g => { g with retired := true }
      else { s1 with grids := Tbl.del s1.grids grid })) ∧
    (∀ s1, sub = .wait s1 → exec (.gridRetirement grid) s = .next s1) := by
  have hgoes : ¬ (g.retired || !g.applied || !s.gridOver grid g || s.gridWrites grid || (s.space g.spid).st != .running ||
      !(s.space g.spid).saved.isEmpty) = true := by simp [hretired, happlied, hover, hquiet, hruns, hsaved]
  refine ⟨fun s1 hsub => ?_, fun s1 hsub => ?_⟩ <;> show execGridRetirement grid s = _ <;> unfold execGridRetirement <;>
    simp only [hgrid, hpk, if_neg hgoes, hsub]
  rfl

end Retirement

/-! ### Deadlines (15, R374) -/

section Deadline
variable {s : State} {grid d : Nat} {g : Grid} (hgrid : Tbl.find s.grids grid = some g)
include hgrid

theorem preemptionDeadline_off (h : (s.space g.spid).st ≠ .preempting ∨ g.deadline = none) : exec (.preemptionDeadline grid) s = .next s := by
  show execPreemptionDeadline grid s = _
  unfold execPreemptionDeadline
  simp only [hgrid]
  rw [if_pos]
  rcases h with h | h <;> simp [h]

theorem preemptionDeadline_early (hd : g.deadline = some d) (hearly : s.clock < d) : exec (.preemptionDeadline grid) s = .next s := by
  show execPreemptionDeadline grid s = _
  unfold execPreemptionDeadline
  simp only [hgrid]
  rw [if_pos (by simp [hd, hearly])]

/-- Past the deadline every group of the grid takes a forced save. -/
theorem preemptionDeadline_forces (hst : (s.space g.spid).st = .preempting) (hd : g.deadline = some d) (hpast : d ≤ s.clock) :
    ∃ t, exec (.preemptionDeadline grid) s = .next t ∧ t.mem = s.mem ∧ t.wgs = s.wgs ∧ Tbl.find t.grids grid = some { g with deadline := none } ∧
      ∀ gs u w, Tbl.find s.groups gs = some u → gs % 16 ≠ 15 → Tbl.find s.wgs u.wg = some w → w.grid = grid →
        Tbl.find t.groups gs = some { u.txStop with forced := true } := by
  have hx : exec (.preemptionDeadline grid) s = execPreemptionDeadline grid s := rfl
  rw [hx]
  unfold execPreemptionDeadline
  simp only [hgrid]
  rw [if_neg (by simp [hst, hd, hpast])]
  refine ⟨_, rfl, rfl, rfl, ?_, ?_⟩
  · show Tbl.find (Tbl.upd s.grids grid _) grid = _
    rw [find_upd_self, hgrid]
    rfl
  · intro gs u w hu hwalker hw hmine
    refine (find_map_key s.groups (fun gs u => if gs % 16 != 15 && ((Tbl.find s.wgs u.wg).map fun w => w.grid == grid).getD false then
      { u.txStop with forced := true } else u) gs).trans ?_
    rw [hu]
    simp [hw, hmine, hwalker]

end Deadline

/-! ### Checkpoints, meters and halts -/

section Checkpoints
variable {s : State} {spid : Nat}

theorem automaticCheckpoint_finishes (h : (s.space spid).checkpoints = true) : exec (.automaticCheckpoint spid) s = .next (s.finishSave spid) :=
  congrArg Host.Outcome.next (if_pos h)

theorem automaticCheckpoint_begins (h : (s.space spid).checkpoints = false) (hdue : s.ckptDue spid = true) (hmay : s.mayCkpt spid = true) :
    exec (.automaticCheckpoint spid) s = .next (s.beginSave spid (.ckpt none ((s.space spid).interval + 1#32) 2) true) :=
  congrArg Host.Outcome.next ((if_neg (by simp [h])).trans (if_pos (by simp [hdue, hmay])))

theorem automaticCheckpoint_early (h : (s.space spid).checkpoints = false) (hdue : s.ckptDue spid = false) :
    exec (.automaticCheckpoint spid) s = .next s :=
  congrArg Host.Outcome.next ((if_neg (by simp [h])).trans (if_neg (by simp [hdue])))

end Checkpoints

section Meters
variable {s : State} {part meter inst since n : Nat} {q : Partition} (hpart : Tbl.find s.parts part = some q)
  (hcount : Tbl.find q.counts (meterKey meter inst) = some (since, n))
include hpart hcount

theorem meterPeriodStart_over (hover : since + 2 ^ (q.meter meter).period ≤ s.clock) :
    ∃ t, exec (.meterPeriodStart part meter inst) s = .next t ∧ t.mem = s.mem ∧
      ∃ q1, Tbl.find t.parts part = some q1 ∧ q1.halt = q.halt ∧ q1.meters = q.meters ∧
        Tbl.find q1.counts (meterKey meter inst) = some (since + 2 ^ (q.meter meter).period, 0) := by
  refine ⟨_, rfl, rfl, { q with counts := Tbl.put q.counts (meterKey meter inst) (since + 2 ^ (q.meter meter).period, 0) }, ?_, rfl, rfl,
    find_put_self _ _ _⟩
  show Tbl.find (Tbl.upd s.parts part _) part = _
  rw [find_upd_self, hpart]
  simp only [Option.map_some, hcount]
  rw [if_pos hover]

theorem meterPeriodStart_running (hearly : s.clock < since + 2 ^ (q.meter meter).period) :
    ∃ t, exec (.meterPeriodStart part meter inst) s = .next t ∧ Tbl.find t.parts part = some q := by
  refine ⟨_, rfl, ?_⟩
  show Tbl.find (Tbl.upd s.parts part _) part = _
  rw [find_upd_self, hpart]
  simp only [Option.map_some, hcount]
  rw [if_neg (Nat.not_le.mpr hearly)]

end Meters

section Halts
variable {s : State} {part : Nat} {q : Partition} {h : Halt} (hpart : Tbl.find s.parts part = some q)
include hpart

theorem halt_off (hhalt : q.halt = none) : exec (.haltLine part) s = .next s ∧ exec (.haltDrainComplete part) s = .next s := by
  have hnone : (Tbl.find s.parts part).bind (·.halt) = none := by rw [hpart]; exact hhalt
  constructor
  · show execHaltLine part s = _
    unfold execHaltLine
    simp only [hnone]
  · show execHaltDrainComplete part s = _
    unfold execHaltDrainComplete
    simp only [hnone]

variable (hhalt : q.halt = some h)
include hhalt

theorem haltLine_stopped (hstop : h.stopped = true) : exec (.haltLine part) s = .next s := by
  have hsome : (Tbl.find s.parts part).bind (·.halt) = some h := by rw [hpart]; exact hhalt
  show execHaltLine part s = _
  unfold execHaltLine
  simp only [hsome]
  rw [if_pos hstop]

theorem haltDrainComplete_unstopped (hstop : h.stopped = false) : exec (.haltDrainComplete part) s = .next s := by
  have hsome : (Tbl.find s.parts part).bind (·.halt) = some h := by rw [hpart]; exact hhalt
  show execHaltDrainComplete part s = _
  unfold execHaltDrainComplete
  simp only [hsome]
  rw [if_pos (by simp [hstop])]

/-- The halt is over once every context of the partition has a cause and nothing of it is on its way. -/
theorem haltDrainComplete_drained (hstop : h.stopped = true) (hcauses : ∀ k ∈ s.liveSpaces part, ∃ c ∈ h.causes, c.spid = k)
    (hdrained : ∀ k ∈ s.liveSpaces part, s.drained k = true) :
    exec (.haltDrainComplete part) s = .next (((s.liveSpaces part).foldl State.dump s).updPart part fun p => { p with halt := none }) := by
  have hsome : (Tbl.find s.parts part).bind (·.halt) = some h := by rw [hpart]; exact hhalt
  have hmine : (s.liveSpaces part).filter (fun k => h.causes.any (fun c => c.spid == k)) = s.liveSpaces part := by
    refine List.filter_eq_self.mpr fun k hk => ?_
    obtain ⟨c, hc, hck⟩ := hcauses k hk
    exact List.any_eq_true.mpr ⟨c, hc, by simp [hck]⟩
  have hothers : (s.liveSpaces part).filter (fun k => !(s.liveSpaces part).contains k) = [] := by
    refine List.filter_eq_nil_iff.mpr fun k hk => ?_
    simp [hk]
  have hdone : ((s.liveSpaces part).any (fun k => !(s.liveSpaces part).contains k) || !((s.liveSpaces part).all s.drained)) = false := by
    simp only [Bool.or_eq_false_iff, List.any_eq_false, Bool.not_eq_false', List.all_eq_true]
    exact ⟨fun k hk => by simp [hk], hdrained⟩
  show execHaltDrainComplete part s = _
  unfold execHaltDrainComplete
  simp only [hsome]
  rw [if_neg (by simp [hstop])]
  simp only [hmine, hothers, List.foldl_nil, hdone, Bool.false_eq_true, if_false]

end Halts

/-- Settles O53: a law for each outcome of each event of a grid's life; an entry of a log is added at its home as an agent's write of four
bytes. -/
theorem gridSteps : Obligations.GridSteps := by
  unfold Obligations.GridSteps
  intro s grid
  refine ⟨fun hnone => ?_, fun g hg halone hfresh => ⟨fun hp => workgroupPlacement_unplaceable hg halone hfresh hp,
    fun hp hl => workgroupPlacement_waits hg halone hfresh hp hl, fun l hp hl hr => workgroupPlacement_places hg halone hfresh hp hl hr,
    fun p hp hl hr hrec => workgroupPlacement_one hg halone hfresh hp hl hr hrec⟩,
    fun g hg => ⟨fun hover => ⟨reductionApplication_early hg hover, gridRetirement_early hg hover⟩,
      fun q happlied hretired hover hquiet hruns hpart hhalt hresv => ?_, fun hretired happlied hover hquiet hruns hsaved =>
        ⟨fun pk hpk => gridRetirement_packet hg hretired happlied hover hquiet hruns hsaved hpk,
          fun s1 hpk => (gridRetirement_child hg hretired happlied hover hquiet hruns hsaved hpk).1 s1,
          fun s1 hpk => (gridRetirement_child hg hretired happlied hover hquiet hruns hsaved hpk).2 s1⟩,
      fun h => preemptionDeadline_off hg h, fun d _ hd hearly => preemptionDeadline_early hg hd hearly,
      fun d hst hd hpast => preemptionDeadline_forces hg hst hd hpast⟩,
    fun spid => ⟨fun h => automaticCheckpoint_finishes h, fun hc hdue hmay => automaticCheckpoint_begins hc hdue hmay,
      fun hc hdue => automaticCheckpoint_early hc hdue⟩,
    fun part q meter inst since n hpart hcount => ⟨fun hover => meterPeriodStart_over hpart hcount hover,
      fun hearly => meterPeriodStart_running hpart hcount hearly⟩,
    fun part q hpart => ⟨fun hhalt => halt_off hpart hhalt, fun h hhalt => ⟨fun hstop => haltLine_stopped hpart hhalt hstop,
      fun hstop => haltDrainComplete_unstopped hpart hhalt hstop,
      fun hstop hcauses hdrained => haltDrainComplete_drained hpart hhalt hstop hcauses hdrained,
      fun hstop heng hpubs hcolls => halt_line hpart hhalt hstop heng hpubs hcolls⟩⟩⟩
  · have hmatch : ∀ (f : Grid → State), (match Tbl.find s.grids grid with | none => s | some g => f g) = s := fun f => by rw [hnone]
    exact ⟨congrArg Host.Outcome.next (hmatch _), congrArg Host.Outcome.next (hmatch _), congrArg Host.Outcome.next (hmatch _),
      congrArg Host.Outcome.next (hmatch _)⟩
  · have h : Applies s grid g q := ⟨hg, happlied, hretired, hover, hquiet, hruns, hpart, hhalt, hresv⟩
    exact ⟨fun hreds hbad => readLog_spoilt h hreds hbad, fun hreds hgood howners => readLog_reads h hreds hgood howners,
      fun e l hreds => ⟨fun hout => applyNext_outside h hreds hout, fun hin => applyNext_sum h hreds hin,
        fun hin hnear hfree howners hgood _ hrec hr hb => applyNext_near h hreds hin hnear hfree howners hgood hrec hr hb⟩,
      fun hreds => ⟨fun hmap => applied_unmapped h hreds hmap, fun pa s1 hmap hput => applied_written h hreds hmap hput⟩⟩

end Sys2Proof.Proofs
end


section
/-! Accesses at their homes: loads, stores, atomics, returned writes, invalidations and sweeps. -/

namespace Sys2Proof.Proofs

open Sys2Proof.Machine Sys2Proof.Laws

/-! ### Accesses that are left -/

theorem mem_homesLeft {q : Req} {h : Home} (hh : h ∈ q.homesLeft) : ∃ a ∈ q.accs, a.home = h ∧ a.perf = false := by
  unfold Req.homesLeft homesOf at hh
  obtain ⟨a, ha, hhome⟩ := List.mem_map.mp (List.mem_eraseDups.mp hh)
  obtain ⟨ha, hperf⟩ := List.mem_filter.mp ha
  exact ⟨a, ha, hhome, by simpa using hperf⟩

/-- The accesses of one home changed, the others as they were. -/
theorem getElem_at_home {l : List LaneAcc} {h : Home} {f : LaneAcc → LaneAcc} {i : Nat} {a : LaneAcc} (hi : l[i]? = some a) :
    (a.home = h ∧ a.perf = false → (l.map fun a => if a.home = h ∧ a.perf = false then f a else a)[i]? = some (f a)) ∧
      (¬ (a.home = h ∧ a.perf = false) → (l.map fun a => if a.home = h ∧ a.perf = false then f a else a)[i]? = some a) := by
  rw [List.getElem?_map, hi]
  exact ⟨fun hc => congrArg some (if_pos hc), fun hc => congrArg some (if_neg hc)⟩

/-! ### Loads -/

section Loads
variable {s : State} {rq : Nat} {q : Req} {l : List Home} {d : Reg} {sz : Sz} (hq : Tbl.find s.reqs rq = some q) (hk : q.kind = .load d sz)
include hq hk

/-- A load that stands at its home reads there, whatever its order. -/
theorem homeSliceAccess_loadBank {c o : Nat} (hst : q.stage = .mesh ∨ q.stage = .atHome) (hh : q.homesLeft = .bank c o :: l)
    (hm : s.mayPerform rq q (.bank c o) = true) : exec (.homeSliceAccess rq) s = .next (s.loadBank rq q c o) := by
  have howner : s.serialOwner q = none := by unfold State.serialOwner; rw [hk]
  have hatom : q.isAtomic = false := by unfold Req.isAtomic; rw [hk]
  rw [access_write hq howner hst hh hm (fun n hn => by cases hn) (fun n hn => by cases hn)]
  simp only [State.performAt, hm, hatom, hk, Bool.not_true, Bool.false_and, Bool.or_self, Bool.false_eq_true, if_false]

theorem load_at_sector {n : Nat} (hsingle : ∀ a ∈ q.accs, ∀ b ∈ q.accs, a.lane = b.lane → a.part = b.part → a = b) (htx : ∀ a ∈ q.accs, a.tx = false)
    (hst : q.stage = .atHome) (hh : q.homesLeft = .sector n :: l) (hm : s.mayPerform rq q (.sector n) = true) (hcopy : s.copyAt q n = none)
    (hacc : ∀ a ∈ q.accs, s.overlap q a = none ∧ (a.home = .sector n → s.ownMem a.pa = true)) :
    ∃ (t : State) (p : Req), exec (.homeSliceAccess rq) s = .next t ∧ Tbl.find t.reqs rq = some p ∧ t.mem = s.mem ∧
      p.accs.length = q.accs.length ∧ p.wms = q.wms ++ [(n, Tbl.get 0#64 s.wms n)] ∧
      (∀ (i : Nat) (a : LaneAcc), q.accs[i]? = some a → (a.home = .sector n ∧ a.perf = false → p.accs[i]? = some { a with
          got := bytesNum (s.rdBytes a.pa a.len), err := if s.poisoned a.pa a.len then 0x28 else 0, perf := true }) ∧
        (¬ (a.home = .sector n ∧ a.perf = false) → p.accs[i]? = some a)) ∧
      (p.accs.all (·.perf) = true → p.stage = .answered) ∧ (p.accs.all (·.perf) = false → p.stage = .atHome) := by
  have hmine := mem_homesLeft (q := q) (h := .sector n) (by rw [hh]; exact List.mem_cons_self ..)
  obtain ⟨p, hp, hmem, haccs, hwms, hstage⟩ := loadSector_spec hq hsingle htx hcopy (fun a ha => (hacc a ha).1) (fun a ha => (hacc a ha).2) hmine
  refine ⟨_, p, access_load hq hk (.inr hst) hh hm (fun _ _ => hst) (fun a ha => (hacc a ha).1), hp, hmem, by rw [haccs, List.length_map], hwms,
    fun i a hi => by rw [haccs]; exact getElem_at_home hi, fun hall => by rw [hstage, if_pos hall], fun hall => ?_⟩
  rw [hstage, if_neg (by simp [hall]), hst]

theorem load_at_bank {c o : Nat} (hr : (s.space q.spid).replay = none) (hst : q.stage = .mesh ∨ q.stage = .atHome)
    (hh : q.homesLeft = .bank c o :: l) (hm : s.mayPerform rq q (.bank c o) = true) (hsubs : (s.core c).subs = []) :
    ∃ (t : State) (p : Req), exec (.homeSliceAccess rq) s = .next t ∧ Tbl.find t.reqs rq = some p ∧ t.mem = s.mem ∧
      (q.acquires = false → t.cores = s.cores) ∧
      ∀ (i : Nat) (a : LaneAcc), q.accs[i]? = some a → (a.home = .bank c o ∧ a.perf = false → p.accs[i]? = some { a with
          got := bytesNum (s.lsBytes c a.pa a.len), err := if s.lsBad c a.pa a.len then 0x28 else 0, perf := true }) ∧
        (¬ (a.home = .bank c o ∧ a.perf = false) → p.accs[i]? = some a) := by
  obtain ⟨p, hp, hmem, hcores, haccs, -⟩ := loadBank_spec (o := o) hq hr hsubs
  exact ⟨_, p, homeSliceAccess_loadBank hq hk hst hh hm, hp, hmem, hcores, fun i a hi => by rw [haccs]; exact getElem_at_home hi⟩

end Loads

/-! ### Writes -/

/-- The state with a write's hold on its sector ended. -/
def unheld (s : State) (rq : Nat) : State := { s with holds := s.holds.filter (fun h => h.2.1 != rq) }

theorem unheld_holds (s : State) (rq : Nat) : (unheld s rq).holds.filter (fun h => h.2.1 != rq) = (unheld s rq).holds := by
  show (s.holds.filter _).filter _ = s.holds.filter _
  rw [List.filter_filter]
  simp only [Bool.and_self]

/-- A write ends its hold as it arrives. -/
theorem writeSector_unheld (s : State) (rq : Nat) (q : Req) : s.writeSector rq q = (unheld s rq).writeSector rq q := by
  have hsame : ({ unheld s rq with holds := (unheld s rq).holds.filter (fun h => h.2.1 != rq) } : State) = unheld s rq := by
    rw [unheld_holds]
  show State.writeSector s rq q = _
  unfold State.writeSector
  rw [hsame]
  rfl

section Stores
variable {s : State} {rq n : Nat} {q : Req} {g : Group} {l : List Home} (hq : Tbl.find s.reqs rq = some q) (hk : q.kind = .store)
  (howner : s.serialOwner q = none) (hg : Tbl.find s.groups q.gs = some g)
include hq hk howner hg

omit hg in
/-- A store that stands at its home is written, and rings the doorbell that it names. -/
theorem homeSliceAccess_store (hst : q.stage = .atHome) (hh : q.homesLeft = .sector n :: l) (hm : s.mayPerform rq q (.sector n) = true) :
    exec (.homeSliceAccess rq) s = .next (if ((Tbl.find (s.writeSector rq q).reqs rq).map fun x => x.stage == .performed).getD false then
      (s.writeSector rq q).rings q else s.writeSector rq q) := by
  have hatom : q.isAtomic = false := by unfold Req.isAtomic; rw [hk]
  rw [access_write hq howner (.inr hst) hh hm (fun _ _ => .inl hst) (fun n _ => by rw [hatom]; rfl), performAt_store hk hm]

omit hq howner in
theorem writeSector_goes {v : Verdict} (hacc : ∀ a ∈ q.accs, s.mixed q g a = false ∧ (s.poisoned a.pa a.len = true → 4 ≤ a.len))
    (hgo : s.homeCheck q g q.sector (q.ord != .weak) = .go v) (hrace : s.raceBars rq q g = false) :
    s.writeSector rq q = ((unheld s rq).doWrite rq q v).spillHits q := by
  have hcheck : (unheld s rq).homeCheck q g q.sector (q.ord != .weak) = .go v := hgo
  have hbars : ¬ (unheld s rq).raceBars rq q g = true := by
    rw [show (unheld s rq).raceBars rq q g = false from hrace]
    exact Bool.false_ne_true
  rw [writeSector_unheld, writeSector_go (s := unheld s rq) hg hk (unheld_holds s rq) hacc, hcheck]
  exact if_neg hbars

omit hq howner in
theorem writeSector_returns (hacc : ∀ a ∈ q.accs, s.mixed q g a = false ∧ (s.poisoned a.pa a.len = true → 4 ≤ a.len))
    (hback : s.homeCheck q g q.sector (q.ord != .weak) = .back) : s.writeSector rq q = (unheld s rq).returnWrite rq q q.sector := by
  have hcheck : (unheld s rq).homeCheck q g q.sector (q.ord != .weak) = .back := hback
  rw [writeSector_unheld, writeSector_go (s := unheld s rq) hg hk (unheld_holds s rq) hacc, hcheck]

theorem store_performs {v : Verdict} (hrec : (s.space q.spid).records = false) (hr : (s.space q.spid).replay = none)
    (hlog : (s.space q.spid).log = 0) (hst : q.stage = .atHome) (hh : q.homesLeft = .sector n :: l) (hm : s.mayPerform rq q (.sector n) = true)
    (hacc : ∀ a ∈ q.accs, s.mixed q g a = false ∧ (s.poisoned a.pa a.len = true → 4 ≤ a.len)) (hover : ∀ a ∈ q.accs, s.overlap q a = none)
    (hb : ∀ c ∈ accCells q.accs, s.barred c.1 = false) (hrace : s.raceBars rq q g = false)
    (hgo : s.homeCheck q g q.sector (q.ord != .weak) = .go v) :
    ∃ (t : State) (p : Req), exec (.homeSliceAccess rq) s = .next (t.rings q) ∧
      (∀ pa, t.byte pa = (((accCells q.accs).reverse.find? (fun c => c.1 == pa)).map (·.2)).getD (s.byte pa)) ∧ Tbl.find t.reqs rq = some p ∧
      p.stage = .performed ∧ (∀ a ∈ p.accs, a.perf = true) ∧ ((∀ a ∈ q.accs, a.pa.testBit 51 = false) → t.rings q = t) := by
  obtain ⟨hbytes, hreq⟩ := doWrite_store (s := unheld s rq) hq hk hrec hr hlog hover hb v
  obtain ⟨hmem, hreqs⟩ := spillHits_spec ((unheld s rq).doWrite rq q v) q
  have hw := writeSector_goes hk hg hacc hgo hrace
  have hfind : Tbl.find (((unheld s rq).doWrite rq q v).spillHits q).reqs rq =
      some { q with stage := .performed, accs := q.accs.map fun a => { a with perf := true } } := by rw [hreqs]; exact hreq
  refine ⟨((unheld s rq).doWrite rq q v).spillHits q, _, ?_, fun pa => ?_, hfind, rfl, fun a ha => ?_, rings_none⟩
  · rw [homeSliceAccess_store hq hk howner hst hh hm, hw, hfind]
    rfl
  · rw [← (show (unheld s rq).byte pa = s.byte pa from rfl), ← hbytes pa]
    exact congrArg (fun m => Tbl.get 0#8 m pa) hmem
  · obtain ⟨b, -, rfl⟩ := List.mem_map.mp ha
    rfl

/-- A store that the home cannot pass goes back; at its third return its sector is held for it. -/
theorem store_returned (hst : q.stage = .atHome) (hh : q.homesLeft = .sector n :: l) (hm : s.mayPerform rq q (.sector n) = true)
    (hacc : ∀ a ∈ q.accs, s.mixed q g a = false ∧ (s.poisoned a.pa a.len = true → 4 ≤ a.len))
    (hback : s.homeCheck q g q.sector (q.ord != .weak) = .back) :
    ∃ t, exec (.homeSliceAccess rq) s = .next t ∧ t.mem = s.mem ∧ Tbl.find t.reqs rq = some { q with
        stage := .unperformed, wms := [(q.sector, Tbl.get 0#64 s.wms q.sector)], returns := q.returns + 1 } ∧
      (3 ≤ q.returns + 1 → Tbl.find t.holds q.sector = some (rq, s.clock)) := by
  have hw := writeSector_returns (rq := rq) hk hg hacc hback
  have hret : (unheld s rq).returnWrite rq q q.sector = { unheld s rq with
      reqs := Tbl.put s.reqs rq { q with stage := .unperformed, wms := [(q.sector, Tbl.get 0#64 s.wms q.sector)], returns := q.returns + 1 }
      holds := if 3 ≤ q.returns + 1 then Tbl.put (unheld s rq).holds q.sector (rq, s.clock) else (unheld s rq).holds } := by
    unfold State.returnWrite
    rw [upd_req (s := unheld s rq) hq]
    split <;> rfl
  have hfind : Tbl.find ((unheld s rq).returnWrite rq q q.sector).reqs rq = some { q with
      stage := .unperformed, wms := [(q.sector, Tbl.get 0#64 s.wms q.sector)], returns := q.returns + 1 } := by
    rw [hret]; exact find_put_self _ _ _
  refine ⟨_, ?_, ?_, hfind, fun hthird => ?_⟩
  · rw [homeSliceAccess_store hq hk howner hst hh hm, hw, hfind]
    rfl
  · rw [hret]; rfl
  · rw [hret]
    simp only [if_pos hthird]
    exact find_put_self _ _ _

theorem store_at_bank {c o : Nat} (hst : q.stage = .mesh ∨ q.stage = .atHome) (hh : q.homesLeft = .bank c o :: l)
    (hm : s.mayPerform rq q (.bank c o) = true) (hmode : q.sup = true ∨ q.mode = 0#2) (hhead : q.head = false)
    (hbroken : ∀ a ∈ q.accs, s.broken c a.pa a.len = false) (hbad : (s.core c).bad = []) (hpubs : (s.core c).pubs = [])
    (hrace : s.raceBars rq q g = false) :
    ∃ (t : State) (p : Req), exec (.homeSliceAccess rq) s = .next t ∧ t.mem = s.mem ∧
      (∀ x, t.lsByte c x = (((accCells q.accs).reverse.find? (fun e => e.1 == x)).map (·.2)).getD (s.lsByte c x)) ∧
      Tbl.find t.reqs rq = some p ∧ p.stage = .performed ∧ ∀ a ∈ p.accs, a.perf = true := by
  obtain ⟨segs, weak, hw⟩ := writeBank_store (o := o) hg hk hmode hbroken hbad hrace
  obtain ⟨hmem, hbytes, p, hp, hstage, hperf⟩ := bankGo_store (o := o) (weak := weak) hq hk hpubs hhead segs
  refine ⟨_, p, ?_, hmem, hbytes, hp, hstage, hperf⟩
  rw [access_write hq howner hst hh hm (fun n hn => by cases hn) (fun n hn => by cases hn), performAt_bank hk hm, hw]

end Stores

/-! ### Atomics on owned lines (05, R122) -/

theorem mem_cellsAt {pa : Nat} {l : List Byte} {c : Nat × Byte} (hc : c ∈ cellsAt pa l) : ∃ i, i < l.length ∧ c.1 = pa + i := by
  obtain ⟨i, hi, rfl⟩ := List.mem_map.mp hc
  exact ⟨i, List.mem_range.mp hi, rfl⟩

section Atomics
variable {s : State} {rq n pa : Nat} {q : Req} {g : Group} {l : List Home} {d : Reg} {sz : Sz} {op : AOp} {a : LaneAcc}
  (hq : Tbl.find s.reqs rq = some q) (hk : q.kind = .atom d sz op) (hg : Tbl.find s.groups q.gs = some g)
  (hturn : (s.space (s.spidOf g)).replay = none) (haccs : q.accs = [a]) (hloc : a.locs = [.mem pa])
include hq hk hg hturn haccs hloc

/-- An atomic whose core owns the line is performed there. -/
theorem homeSliceAccess_owned (hcan : s.canOwn q pa = true) (hser : q.serial = none) (howns : s.owns q.core (n / 2) = true)
    (hst : q.stage = .mesh ∨ q.stage = .atHome) (hh : q.homesLeft = .sector n :: l) (hm : s.mayPerform rq q (.sector n) = true) :
    exec (.homeSliceAccess rq) s = .next ((s.reached q).writeSector rq q) := by
  have hat : q.memAt = some pa := by unfold Req.memAt; simp [haccs, hloc]
  have howner : s.serialOwner q = none := by
    unfold State.serialOwner
    simp only [hk, hat, hser, hcan, Option.isSome_none, Bool.false_eq_true, if_false, if_true, ite_self]
  rw [access_write hq howner hst hh hm (fun _ hn => by cases hn; exact .inr howns) (fun _ hn => by cases hn; simp [howns]),
    performAt_atom hk hm (atomTurn_free hg hturn)]

theorem atom_performs_owned (hrec : (s.space q.spid).records = false) (hr : (s.space q.spid).replay = none) (hlog : (s.space q.spid).log = 0)
    (hgrec : (s.space (s.spidOf g)).records = false) (hcan : s.canOwn q pa = true) (hser : q.serial = none) (howns : s.owns q.core (n / 2) = true)
    (hst : q.stage = .mesh ∨ q.stage = .atHome) (hh : q.homesLeft = .sector n :: l) (hm : s.mayPerform rq q (.sector n) = true)
    (hgood : s.poisoned pa a.len = false) (hgo : s.homeCheck q g (pa / 64) (q.ord != .weak) = .go .pass) (hover : s.overlap q a = none)
    (hb : ∀ i, i < a.len → s.barred (pa + i) = false) (hrace : s.raceBars rq q g = false) :
    ∃ (t : State) (p : Req), exec (.homeSliceAccess rq) s = .next t ∧
      (∀ x, t.byte x = (((cellsAt pa (toBytes a.len (q.newVal a (s.rd pa a.len) % 2 ^ 128))).reverse.find? (fun c => c.1 == x)).map (·.2)).getD (s.byte x)) ∧
      Tbl.find t.reqs rq = some p ∧ p.stage = .answered ∧ p.accs = [{ a with got := BitVec.ofNat 128 (s.rd pa a.len), perf := true }] := by
  obtain ⟨-, -, -, -, -, -, -, -, r, hreached⟩ := ownMem_reached s q
  have hmixed : s.mixed q g a = false := by unfold State.mixed; simp [hover]
  have hw : (s.reached q).writeSector rq q = ((unheld (s.reached q) rq).doWrite rq q .pass).spillHits q := by
    rw [writeSector_unheld]
    rw [hreached]
    exact writeSector_atom (s := unheld { s with reach := r } rq) hg hk haccs hloc hmixed hgood hgo (unheld_holds _ rq) hrace
  have hcells : ∀ e ∈ cellsAt pa (toBytes a.len (q.newVal a (s.rd pa a.len) % 2 ^ 128)), s.barred e.1 = false := by
    intro e he
    obtain ⟨i, hi, hpa⟩ := mem_cellsAt he
    rw [hpa]
    exact hb i (by rwa [toBytes_length] at hi)
  have hdone := doWrite_atom (s := unheld (s.reached q) rq) (by rw [hreached]; exact hq) hk (by rw [hreached]; exact hrec) (by rw [hreached]; exact hr)
    (by rw [hreached]; exact hlog) (g := g) (by rw [hreached]; exact hg) (by rw [hreached]; exact hturn) (by rw [hreached]; exact hgrec) haccs hloc
    (by rw [hreached, haccs]; exact List.forall_mem_singleton.mpr hover) (by rw [hreached]; exact hcells) .pass
  obtain ⟨hbytes, p, hp, hstage, hgot⟩ := hdone
  obtain ⟨hmem, hreqs⟩ := spillHits_spec ((unheld (s.reached q) rq).doWrite rq q .pass) q
  refine ⟨_, p, (homeSliceAccess_owned hq hk hg hturn haccs hloc hcan hser howns hst hh hm).trans (congrArg _ hw), fun x => ?_, by rw [hreqs]; exact hp, hstage,
    by rw [hgot, hreached]; rfl⟩
  have hx := hbytes x
  rw [hreached] at hx ⊢
  rw [hreached] at hmem
  exact (congrArg (fun m => Tbl.get 0#8 m x) hmem).trans hx

end Atomics

/-! ### Acknowledgements and returns (02, R67; 04, R114) -/

section Acknowledgements
variable {s : State} {rq : Nat} {q : Req} (hq : Tbl.find s.reqs rq = some q) (hst : q.stage = .performed)
include hq hst

omit hst in
theorem dropReq_unserialed (hser : q.serial = none) :
    s.dropReq rq = { s with reqs := Tbl.del s.reqs rq, holds := s.holds.filter (fun e => e.2.1 != rq) } := by
  unfold State.dropReq
  simp only [hq, Option.bind_some, hser, Option.map_none, ite_self]

theorem writeAcknowledgement_done (hser : q.serial = none) (htx : q.txMsg = none) (htag : q.tag = none) (hinvs : ∀ x ∈ s.invs, x.2 ∉ q.lines)
    (hquiet : ∀ g, Tbl.find s.groups q.gs = some g → g.quietAt = none) :
    exec (.writeAcknowledgement rq) s = .next { s with reqs := Tbl.del s.reqs rq, holds := s.holds.filter (fun e => e.2.1 != rq) } := by
  have hans : q.isAnswered = false := by unfold Req.isAnswered; simp [hst]
  have hinv : s.invs.any (fun x => q.lines.contains x.2) = false := List.any_eq_false.mpr fun x hx => by simpa using hinvs x hx
  have hsettle : (s.dropReq rq).settleQuiet q.gs = s.dropReq rq := by
    rw [dropReq_unserialed hq hser]
    unfold State.settleQuiet
    cases hgr : Tbl.find s.groups q.gs with
    | none => rfl
    | some g => simp only [hquiet g hgr]
  rw [← dropReq_unserialed hq hser, ← hsettle]
  show execWriteAcknowledgement rq s = _
  unfold execWriteAcknowledgement
  simp only [hq]
  rw [if_neg (by simp [hans]), if_neg (by simp only [hst, hser, hinv]; decide)]
  cases hk : q.kind with
  | tx gs m => exact absurd htx (by simp [Req.txMsg, hk])
  | put tag who => exact absurd htag (by simp [Req.tag, hk])
  | rmw tag op => exact absurd htag (by simp [Req.tag, hk])
  | _ => rfl

theorem writeAcknowledgement_waits (hinvs : ∃ x ∈ s.invs, x.2 ∈ q.lines) : exec (.writeAcknowledgement rq) s = .next s := by
  have hans : q.isAnswered = false := by unfold Req.isAnswered; simp [hst]
  obtain ⟨x, hx, hline⟩ := hinvs
  have hinv : s.invs.any (fun x => q.lines.contains x.2) = true := List.any_eq_true.mpr ⟨x, hx, by simpa using hline⟩
  show execWriteAcknowledgement rq s = _
  unfold execWriteAcknowledgement
  simp only [hq]
  rw [if_neg (by simp [hans]), if_pos (by simp only [hinv, Bool.or_true])]

end Acknowledgements

section Returns
variable {s : State} {rq n : Nat} {q : Req} {g : Group} {wm : W64} {r : List (Nat × W64)} (hq : Tbl.find s.reqs rq = some q) (hst : q.stage = .unperformed)
  (htx : q.txMsg = none) (hwms : q.wms = (n, wm) :: r) (hg : Tbl.find s.groups q.gs = some g)
include hq hst htx hwms hg

omit hst hwms in
/-- The group for which a returned write is tested again. -/
theorem returned_write : ((Tbl.find s.reqs rq).bind fun q => (Tbl.find s.groups q.own).map fun g => (q, g)) = some (q, g) := by
  have hown : q.own = q.gs := by
    unfold Req.own
    cases hk : q.kind with
    | tx gs m => exact absurd htx (by simp [Req.txMsg, hk])
    | _ => rfl
  simp only [hq, Option.bind_some, hown, hg, Option.map_some]

/-- A returned write that is no race comes again with the watermark that it was given. -/
theorem writeReturnedUnperformed_again (hser : q.serial = none) (hv : (s.sectorVerdict q g n wm (q.ord != .weak)).1 ≠ .race) :
    ∃ (t : State) (p : Req), exec (.writeReturnedUnperformed rq) s = .next t ∧ t.mem = s.mem ∧ Tbl.find t.reqs rq = some p ∧ p.stage = .mesh ∧
      p.verified = some wm ∧ p.wms = [] := by
  have hx : exec (.writeReturnedUnperformed rq) s = execWriteReturnedUnperformed rq s := rfl
  rw [hx]
  unfold execWriteReturnedUnperformed
  simp only [returned_write hq htx hg, hst, htx, hwms]
  simp only [hv, decide_false, Bool.false_and, Bool.false_eq_true, if_false]
  unfold State.resend
  simp only [hser, Option.isSome_none, Bool.false_eq_true, if_false]
  rw [upd_req hq]
  exact ⟨_, _, rfl, rfl, find_put_self _ _ _, rfl, rfl, rfl⟩

theorem writeReturnedUnperformed_races (hmode : q.mode = 1#2) (hv : (s.sectorVerdict q g n wm (q.ord != .weak)).1 = .race) :
    exec (.writeReturnedUnperformed rq) s = .next (s.raceFault rq q g [q.race false n wm (s.sectorVerdict q g n wm (q.ord != .weak)).2]) := by
  show execWriteReturnedUnperformed rq s = _
  unfold execWriteReturnedUnperformed
  simp only [returned_write hq htx hg, hst, htx, hwms]
  rw [if_pos (by simp [hv, hmode])]

end Returns

section Races
variable {s : State} {rq : Nat} {q : Req} {g : Group} (hsib : s.siblings rq q = [])
include hsib

theorem siblingRaces_none : s.siblingRaces rq q g = [] := by
  unfold State.siblingRaces
  rw [hsib]
  rfl

theorem raceFault_none : s.raceFault rq q g [] = s := by
  unfold State.raceFault
  rw [siblingRaces_none hsib]
  rfl

theorem raceFault_one (r : RaceAcc) : s.raceFault rq q g [r] = ((s.countCheck q.spid .race).lateFault rq q
    { code := 0x10, lanes := r.lanes, addr := r.addr, ext := s.raceWords q.gs g r }) := by
  unfold State.raceFault
  rw [siblingRaces_none hsib]
  rfl

/-- Of two racing sectors the one with the lowest lane is recorded, and both sectors' lanes are named (04, R118, R120). -/
theorem raceFault_two {r x : RaceAcc} (hlow : r.lowest < x.lowest) : s.raceFault rq q g [x, r] =
    (((s.countCheck q.spid .race).countCheck q.spid .race).lateFault rq q
      { code := 0x10, lanes := r.lanes ||| x.lanes, addr := r.addr, ext := s.raceWords q.gs g r }) := by
  have hsort : sortBy RaceAcc.lowest ([x, r] ++ []) = [r, x] := by
    show (if x.lowest < r.lowest then [x, r] else [r, x]) = [r, x]
    exact if_neg (by omega)
  unfold State.raceFault
  rw [siblingRaces_none hsib, hsort]
  rfl

end Races

/-! ### Holds, invalidations and sweeps -/

theorem sectorHoldTimeout_cases {s : State} {n i c : Nat} (h : Tbl.find s.holds n = some (i, c)) :
    (c + 1024 ≤ s.clock → exec (.sectorHoldTimeout n) s = .next { s with holds := Tbl.del s.holds n }) ∧
      (s.clock < c + 1024 → exec (.sectorHoldTimeout n) s = .next s) := by
  have hx : exec (.sectorHoldTimeout n) s = .next (if c + 1024 ≤ s.clock then { s with holds := Tbl.del s.holds n } else s) := by
    show execSectorHoldTimeout n s = _
    unfold execSectorHoldTimeout
    simp only [h]
  rw [hx]
  exact ⟨fun hover => by rw [if_pos hover], fun hearly => by rw [if_neg (by omega)]⟩

theorem remoteInvalidation_confirmed {s : State} {die line : Nat} (h : (die, line) ∈ s.invs) :
    ∃ t, exec (.remoteInvalidation die line) s = .next t ∧ (die, line) ∉ t.invs ∧ t.mem = s.mem ∧ Tbl.find (t.die die).rdc line = none := by
  refine ⟨_, congrArg Host.Outcome.next (if_pos (by simpa using h)), ?_, rfl, ?_⟩
  · show (die, line) ∉ s.invs.filter _
    simp
  · unfold State.updDie State.die
    simp only [find_put_self, Option.getD_some]
    exact (find_del ..).trans (if_pos rfl)

/-- A pass over a slice clears V of the watermarks of its sectors whose writer is gone, and leaves the others. -/
theorem watermarkSweep_slice (s : State) (die ls : Nat) :
    ∃ t, exec (.watermarkSweep (.slice die ls)) s = .next t ∧ t.mem = s.mem ∧ Tbl.find t.passes (sweepKey (.slice die ls)) = some (s.fresh + 1) ∧
      ∀ k x, Tbl.wf s.wms = true → Tbl.find s.wms k = some x → x ≠ 0#64 →
        (recSlice k ≠ die * 64 + ls ∨ bit x 7 = false ∨ s.wmLive x = true → Tbl.get 0#64 t.wms k = x) ∧
        (recSlice k = die * 64 + ls → bit x 7 = true → s.wmLive x = false → Tbl.get 0#64 t.wms k = x &&& ~~~(1#64 <<< 7)) := by
  refine ⟨_, rfl, rfl, find_put_self _ _ _, fun k x hwf hx _ => ?_⟩
  have hget : Tbl.get 0#64 (mapTbl 0#64 (fun k x => if recSlice k == die * 64 + ls then s.sweepWm x else x) s.wms) k =
      if recSlice k == die * 64 + ls then s.sweepWm x else x := get_mapTbl _ _ _ hwf hx
  refine ⟨fun hkeep => hget.trans ?_, fun hmine hvalid hgone => hget.trans ?_⟩
  · unfold State.sweepWm
    rcases hkeep with h | h | h <;> simp [h]
  · unfold State.sweepWm
    simp [hmine, hvalid, hgone]

/-- Settles O47: the accesses at their homes by the laws of loads, stores and atomics there; a write's own hold ends as it arrives and bears on
nothing else. -/
theorem homeSteps : Obligations.HomeSteps := by
  unfold Obligations.HomeSteps
  intro s rq n q l hq
  refine ⟨fun d sz hk _ hsingle htx hst ⟨hh, hm⟩ hcopy hacc => load_at_sector hq hk hsingle htx hst hh hm hcopy hacc,
    fun d sz c o hk ⟨_, hr, _⟩ hst ⟨hh, hm⟩ hsubs => load_at_bank hq hk hr hst hh hm hsubs,
    fun g hk ⟨hrec, hr, hlog⟩ howner hst ⟨hh, hm⟩ hg hacc => ⟨fun v ⟨hover, hb, hrace⟩ hgo =>
        store_performs hq hk howner hg hrec hr hlog hst hh hm hacc hover hb hrace hgo,
      fun hback => store_returned hq hk howner hg hst hh hm hacc hback⟩,
    fun g c o hk _ howner hst ⟨hh, hm⟩ hg hmode hhead hbroken hbad hpubs hrace =>
      store_at_bank hq hk howner hg hst hh hm hmode hhead hbroken hbad hpubs hrace,
    fun g d sz op a pa hk ⟨hrec, hr, hlog⟩ hturn hgrec hcan hser howns haccs hloc hst ⟨hh, hm⟩ hg hgood hgo hover hb hrace => ?_,
    fun hst hser hgs htx htag hinvs hquiet => writeAcknowledgement_done hq hst hser htx htag hinvs (by rw [hgs]; exact hquiet),
    fun hst hinvs => writeAcknowledgement_waits hq hst hinvs,
    fun g wm r hst htx hwms hser hg hv => writeReturnedUnperformed_again hq hst htx hwms hg hser hv,
    fun g wm r hst htx hwms hmode hg hv => writeReturnedUnperformed_races hq hst htx hwms hg hmode hv,
    fun g r x _ hsib => ⟨raceFault_one hsib r, raceFault_none hsib, fun hlow => raceFault_two hsib hlow⟩,
    fun i c h => sectorHoldTimeout_cases h, fun die line h => remoteInvalidation_confirmed h, fun die ls => watermarkSweep_slice s die ls⟩
  have hnew : ∀ old, q.newVal a old =
      atomNew op sz.bytes old (a.data.toNat % 2 ^ (8 * sz.bytes)) (a.alt.toNat % 2 ^ (8 * sz.bytes)) := fun old => by unfold Req.newVal; rw [hk]
  simp only [← hnew]
  exact atom_performs_owned hq hk hg hturn haccs hloc hrec hr hlog hgrec hcan hser howns hst hh hm hgood hgo hover hb hrace

end Sys2Proof.Proofs
end


section
/-! Packets on the mesh, owners of lines, and links. -/

namespace Sys2Proof.Proofs

open Sys2Proof.Machine Sys2Proof.Laws

/-! ### One request changes -/

/-- An update of a request that is there leaves memory and the other requests. -/
theorem updReq_only {s : State} {rq : Nat} {q : Req} (hq : Tbl.find s.reqs rq = some q) (f : Req → Req) :
    Tbl.find (s.updReq rq f).reqs rq = some (f q) ∧ (s.updReq rq f).mem = s.mem ∧
      ∀ k, k ≠ rq → Tbl.find (s.updReq rq f).reqs k = Tbl.find s.reqs k := by
  rw [upd_req hq]
  exact ⟨find_put_self _ _ _, rfl, fun k hk => find_put_other _ _ hk⟩

/-! ### Packets on the mesh (02, R63 to R66) -/

section Arrival
variable {s : State} {rq : Nat} {q : Req} {l : Leg} {room : Bool} (hq : Tbl.find s.reqs rq = some q)
include hq

/-- The charge for a packet's injection. -/
def injected (s : State) (q : Req) : State := if q.trip.hop.isNone then s.spend q.part (1 + q.cls) q.core 1 else s

omit hq in
theorem injected_caches (s : State) (q : Req) : Caches s (injected s q) := .ite _ (caches_spend ..) (.refl s)

/-- A packet that may be sent and wins its output flies on a segment. -/
theorem meshPacketArrival_flies (hst : q.stage = .mesh) (hsource : s.atSource q = false) (hheld : s.injectHeld q = false) (hway : q.trip.way = .going)
    (hleg : s.reqLeg q = some l) (hwins : s.wins l q.trip q q.first = true) {p : Req}
    (hp : (if (s.fly l q.trip q room).way = .there then { q with trip := s.fly l q.trip q room, stage := .atHome }
      else { q with trip := s.fly l q.trip q room }) = p) :
    ∃ t, exec (.meshPacketArrival rq room) s = .next t ∧ Tbl.find t.reqs rq = some p ∧ t.mem = s.mem ∧
      ∀ k, k ≠ rq → Tbl.find t.reqs k = Tbl.find s.reqs k := by
  have hcaches := injected_caches s q
  obtain ⟨hfind, hmem, hother⟩ := updReq_only (s := injected s q) (rq := rq) (q := q) (by rw [hcaches.reqs]; exact hq) fun q =>
    if (s.fly l q.trip q room).way = .there then { q with trip := s.fly l q.trip q room, stage := .atHome } else { q with trip := s.fly l q.trip q room }
  rw [upd_req (by rw [hcaches.reqs]; exact hq)] at hfind hmem hother
  refine ⟨{ injected s q with reqs := Tbl.put (injected s q).reqs rq p }, ?_, find_put_self _ _ _, hcaches.mem, fun k hk =>
    (find_put_other _ _ hk).trans (by rw [hcaches.reqs])⟩
  show execMeshPacketArrival rq room s = _
  unfold execMeshPacketArrival
  simp only [hq]
  rw [if_pos (by simp [hst, hsource]), if_neg (by simp [hheld, hway])]
  simp only [hleg]
  rw [if_neg (by simp [hwins]), ← hp]
  exact congrArg Host.Outcome.next (upd_req (s := injected s q) (by rw [hcaches.reqs]; exact hq) _)

/-- A packet that is held, not on its way, or loses its contest stays. -/
theorem meshPacketArrival_stays (hst : q.stage = .mesh) (hsource : s.atSource q = false)
    (h : s.injectHeld q = true ∨ q.trip.way ≠ .going ∨ ∃ l, s.reqLeg q = some l ∧ s.wins l q.trip q q.first = false) :
    exec (.meshPacketArrival rq room) s = .next s := by
  show execMeshPacketArrival rq room s = _
  unfold execMeshPacketArrival
  simp only [hq]
  rw [if_pos (by simp [hst, hsource])]
  by_cases hgoes : (s.injectHeld q || q.trip.way != .going) = true
  · rw [if_pos hgoes]
  · rw [if_neg hgoes]
    rcases h with h | h | ⟨l, hleg, hloses⟩
    · exact absurd (by simp [h]) hgoes
    · exact absurd (by simp [h]) hgoes
    · simp only [hleg]
      rw [if_pos (by simp [hloses])]

theorem meshPacketArrival_without_copies (h : q.stage ≠ .mesh ∨ s.atSource q = true) (hc : q.copies = []) :
    exec (.meshPacketArrival rq room) s = .next s := by
  show execMeshPacketArrival rq room s = _
  unfold execMeshPacketArrival
  simp only [hq]
  rw [if_neg (by rcases h with h | h <;> simp [h])]
  simp only [hc, List.findSome?_nil]

/-- A negative acknowledgement begins the wait of a packet that was dropped. -/
theorem negativeAcknowledgement_backs_off : ∃ t, exec (.negativeAcknowledgement rq) s = .next t ∧
    (t.mem = s.mem ∧ ∀ k, k ≠ rq → Tbl.find t.reqs k = Tbl.find s.reqs k) ∧
    ∃ p, Tbl.find t.reqs rq = some p ∧ p.stage = q.stage ∧ p.copies.length = q.copies.length ∧
      (q.trip.way = .nacked → p.trip = { q.trip with way := .backoff s.clock, nacks := q.trip.nacks + 1 }) ∧ (q.trip.way ≠ .nacked → p.trip = q.trip) := by
  obtain ⟨hfind, hsame⟩ := updReq_only hq fun q =>
    let f := fun (t : Trip) => if t.way = .nacked then { t with way := .backoff s.clock, nacks := t.nacks + 1 } else t
    { q with trip := f q.trip, copies := q.copies.map fun c => { c with trip := f c.trip } }
  exact ⟨_, rfl, hsame, _, hfind, rfl, List.length_map .., fun h => if_pos h, fun h => if_neg h⟩

theorem meshRetransmit_resumes {c : Nat} (hway : q.trip.way = .backoff c) : ∃ t, exec (.meshRetransmit rq) s = .next t ∧
    (t.mem = s.mem ∧ ∀ k, k ≠ rq → Tbl.find t.reqs k = Tbl.find s.reqs k) ∧
    ∃ p, Tbl.find t.reqs rq = some p ∧ p.stage = q.stage ∧
      p.trip = if c + 4 * min q.trip.nacks 16 ≤ s.clock then { q.trip with way := .going } else q.trip := by
  obtain ⟨hfind, hsame⟩ := updReq_only hq fun q =>
    let f := fun (t : Trip) => match t.way with
      | .backoff c => if c + 4 * min t.nacks 16 ≤ s.clock then { t with way := .going } else t
      | _ => t
    { q with trip := f q.trip, copies := q.copies.map fun c => { c with trip := f c.trip } }
  refine ⟨_, rfl, hsame, _, hfind, rfl, ?_⟩
  simp only [hway]

end Arrival

/-- A contest goes to the packet that has waited longer, then to the lower port. -/
theorem contestKey_order {s : State} (q : Req) {first first' port port' : Nat} (hp : port < 5) (hw : min 255 (s.clock - first) < 255)
    (hw' : min 255 (s.clock - first') < 255) :
    (min 255 (s.clock - first') < min 255 (s.clock - first) → s.contestKey q first port < s.contestKey q first' port') ∧
      (min 255 (s.clock - first') = min 255 (s.clock - first) → port < port' → s.contestKey q first port < s.contestKey q first' port') := by
  unfold State.contestKey State.waitCount
  generalize min 255 (s.clock - first) = w at hw ⊢
  generalize min 255 (s.clock - first') = w' at hw' ⊢
  simp only [if_neg (Nat.ne_of_lt hw), if_neg (Nat.ne_of_lt hw')]
  constructor <;> intros <;> omega

/-! ### Owners of lines (05, R122, R123) -/

/-- Ownership that has ended is in neither table. -/
theorem disown_spec (s : State) (core line : Nat) :
    Tbl.find (s.disown core line).owners line = none ∧ line ∉ ((s.disown core line).core core).owned := by
  unfold State.disown State.updCore State.core
  simp only [find_put_self, Option.getD_some]
  exact ⟨(find_del ..).trans (if_pos rfl), by simp⟩

theorem predict_owned (s : State) (core pa : Nat) (d : Int) : ((s.predict core pa d).core core).owned = (s.core core).owned := by
  unfold State.predict State.updCore State.core
  simp only [find_put_self, Option.getD_some]

theorem disown_pred (s : State) (core line : Nat) : ((s.disown core line).core core).pred = (s.core core).pred := by
  unfold State.disown State.updCore State.core
  simp only [find_put_self, Option.getD_some]

/-- The predictor moves by 2 towards the home, and saturates. -/
theorem predict_home (s : State) (core pa : Nat) :
    Tbl.get 0#3 ((s.predict core pa 2).core core).pred (predIx pa) =
      if 5 ≤ (Tbl.get 0#3 (s.core core).pred (predIx pa)).toNat then 7#3 else Tbl.get 0#3 (s.core core).pred (predIx pa) + 2#3 := by
  have hsat : ∀ x : BitVec 3, BitVec.ofNat 3 (max 0 (min 7 ((x.toNat : Int) + 2))).toNat = if 5 ≤ x.toNat then 7#3 else x + 2#3 := by decide
  unfold State.predict State.updCore
  rw [← hsat]
  show Tbl.get 0#3 ((Tbl.find (Tbl.put s.cores core _) core).getD {}).pred _ = _
  simp only [find_put_self, Option.getD_some, get_set_self]

section Owners
variable {s : State} {core other line : Nat}

theorem ownershipRequest_idle (h : s.ownerBusy core line = false ∨ s.owns core line = true) : exec (.ownershipRequest core line) s = .next s :=
  congrArg Host.Outcome.next (if_pos (by rcases h with h | h <;> simp [h]))

theorem not_owns {c : Option Nat} (hown : Tbl.find s.owners line = c) (hc : c ≠ some core) : s.owns core line = false := by
  unfold State.owns
  rw [hown]
  simpa using hc

/-- A core whose atomics wait for a free line gets it; the remote copies are invalidated. -/
theorem ownershipRequest_free (hbusy : s.ownerBusy core line = true) (hown : Tbl.find s.owners line = none) (hroom : (s.core core).owned.length < 16) :
    ∃ t, exec (.ownershipRequest core line) s = .next t ∧ t.owns core line = true ∧ (t.core core).owned = (s.core core).owned ++ [line] ∧ t.mem = s.mem ∧
      (∀ e d, Tbl.find s.l2 line = some e → d < 4 → e.dirs.getLsbD d = true → (d, line) ∈ t.invs) ∧
      ∀ k, k ≠ line → Tbl.find t.owners k = Tbl.find s.owners k := by
  have hx : exec (.ownershipRequest core line) s = execOwnershipRequest core line s := rfl
  have hfull : ¬ 16 ≤ (s.core core).owned.length := Nat.not_le.mpr hroom
  rw [hx]
  unfold execOwnershipRequest
  rw [if_neg (by simp [hbusy, not_owns hown])]
  simp only [hown, if_neg hfull]
  refine ⟨_, rfl, ?_, ?_, rfl, fun e d he hd hbit => ?_, fun k hk => find_put_other _ _ hk⟩
  · unfold State.owns
    simp only [State.updCore, find_put_self]
    exact beq_self_eq_true _
  · unfold State.updCore State.core
    simp only [find_put_self, Option.getD_some]
  · refine List.mem_append_right _ (List.mem_map.mpr ⟨d, List.mem_filter.mpr ⟨List.mem_range.mpr hd, ?_⟩, rfl⟩)
    simpa [he] using hbit

/-- An owner with no atomic of its own waiting loses the line to the recall. -/
theorem ownershipRequest_recalls (hbusy : s.ownerBusy core line = true) (hown : Tbl.find s.owners line = some other) (hne : other ≠ core)
    (hidle : s.ownerBusy other line = false) :
    ∃ t, exec (.ownershipRequest core line) s = .next t ∧ Tbl.find t.owners line = none ∧ line ∉ (t.core other).owned ∧ t.mem = s.mem ∧
      Tbl.get 0#3 (t.core other).pred (predIx (line * 128)) = if 5 ≤ (Tbl.get 0#3 (s.core other).pred (predIx (line * 128))).toNat then 7#3
        else Tbl.get 0#3 (s.core other).pred (predIx (line * 128)) + 2#3 := by
  obtain ⟨hgone, hlist⟩ := disown_spec s other line
  refine ⟨(s.disown other line).predict other (line * 128) 2, ?_, hgone, by rwa [predict_owned], rfl, by rw [predict_home, disown_pred]⟩
  show execOwnershipRequest core line s = _
  unfold execOwnershipRequest
  rw [if_neg (by simp [hbusy, not_owns hown (core := core) (by simpa using hne)])]
  simp only [hown]
  rw [if_neg (by simp [hidle])]

theorem ownershipRecall_idle (h : s.owns core line = false ∨ s.ownerBusy core line = true ∨ s.recallers core line = (false, false)) :
    exec (.ownershipRecall core line) s = .next s :=
  congrArg Host.Outcome.next (if_pos (by rcases h with h | h | h <;> simp [h]))

theorem ownershipRecall_other (hown : s.owns core line = true) (hidle : s.ownerBusy core line = false) (hcall : (s.recallers core line).1 = true) :
    exec (.ownershipRecall core line) s = .next ((s.disown core line).predict core (line * 128) 2) :=
  congrArg Host.Outcome.next ((if_neg (by simp [hown, hidle, hcall])).trans (if_pos hcall))

theorem ownershipRecall_own (hown : s.owns core line = true) (hidle : s.ownerBusy core line = false) (hothers : (s.recallers core line).1 = false)
    (hcall : (s.recallers core line).2 = true) : exec (.ownershipRecall core line) s = .next (s.disown core line) :=
  congrArg Host.Outcome.next ((if_neg (by simp [hown, hidle, hcall])).trans (if_neg (by simp [hothers])))

end Owners

/-! ### Links (18, R413) -/

section Links
variable {s : State} {link rq n e : Nat} {q : Req} {c : Copy} (hq : Tbl.find s.reqs rq = some q) (hc : q.copies = [c])
include hq hc

omit hc in
/-- The copies of a request whose one copy is changed. -/
theorem copies_of_updReq {u : State} (hu : u.reqs = s.reqs) (f : Req → List Copy) :
    (Tbl.find (u.updReq rq fun q => { q with copies := f q }).reqs rq).map (·.copies) = some (f q) := by
  rw [(updReq_only (by rw [hu]; exact hq) _).1]
  rfl

/-- A copy passes a link between dies, which keeps one of its own. -/
theorem linkFlitTransmit_passes {lane : Nat} (hpass : s.canPass q link c = some e) (hdie : link < 12) (hinj : Tbl.find s.injs link = none) :
    ∃ t, exec (.linkFlitTransmit link lane rq) s = .next t ∧ t.mem = s.mem ∧ (Tbl.find t.reqs rq).map (·.copies) =
      some [{ c with node := e, trip := {}, kept := (link, c.node) :: c.kept, lost := false, until_ := s.clock }] := by
  have hsent : exec (.linkFlitTransmit link lane rq) s = .next (s.passLink rq q c link lane e) := by
    show execLinkFlitTransmit link lane rq s = _
    unfold execLinkFlitTransmit
    simp only [hq, hc, List.findSome?_cons, hpass, Option.map_some]
  refine ⟨_, hsent, ?_, ?_⟩ <;> unfold State.passLink <;> simp only [if_neg (Nat.not_le.mpr hdie), inject_none hinj]
  · exact (updReq_only hq _).2.1
  · rw [copies_of_updReq hq rfl, hc]
    simp

/-- An acknowledgement frees the copy that a link kept. -/
theorem linkAcknowledgement_frees (hlost : c.lost = false) (hkept : c.kept = [(link, n)]) (hend : otherEnd link n = some e)
    (hinj : Tbl.find s.injs link = none) : ∃ t, exec (.linkAcknowledgement link rq) s = .next t ∧ t.mem = s.mem ∧
      (Tbl.find t.reqs rq).map (·.copies) = some [{ c with kept := [] }] := by
  have hacked : exec (.linkAcknowledgement link rq) s = .next (s.updReq rq fun q =>
      { q with copies := q.copies.map fun x => if x.id = c.id then { x with kept := x.kept.filter (· != (link, n)) } else x }) := by
    show execLinkAcknowledgement link rq s = _
    unfold execLinkAcknowledgement
    simp only [hq, Option.bind_some, hc, List.findSome?_cons, hlost, Bool.false_eq_true, if_false, hkept, List.find?_cons, beq_self_eq_true,
      Option.map_some, hend, inject_none hinj]
    rfl
  refine ⟨_, hacked, (updReq_only hq _).2.1, ?_⟩
  rw [copies_of_updReq hq rfl, hc]
  simp [hkept]

/-- The request without the lost copy that the link kept. -/
def unkept (s : State) (rq : Nat) (c : Copy) (k : Nat × Nat) : State := s.updReq rq fun q =>
  { q with copies := (q.copies.map fun x => if x.id = c.id then { x with kept := x.kept.filter (· != k) } else x).filter (fun x => !(x.lost && x.kept.isEmpty)) }

theorem unkept_req (hlost : c.lost = true) (hkept : c.kept = [(link, n)]) :
    unkept s rq c (link, n) = { s with reqs := Tbl.put s.reqs rq { q with copies := [] } } := by
  have hgone : (([c].map fun x => if x.id = c.id then { x with kept := x.kept.filter (· != (link, n)) } else x).filter
      fun x => !(x.lost && x.kept.isEmpty)) = [] := by
    simp [hlost, hkept]
  unfold unkept
  rw [upd_req hq, hc, hgone]

omit hq in
/-- What a link's time-out finds. -/
theorem kept_copy (hq : Tbl.find s.reqs rq = some q) (hkept : c.kept = [(link, n)]) : ((Tbl.find s.reqs rq).bind fun q =>
    (q.copies.findSome? fun c => (c.kept.find? (fun k => k.1 == link)).map fun k => (c, k)).map fun x => (q, x.1, x.2)) = some (q, c, (link, n)) := by
  simp only [hq, Option.bind_some, hc, List.findSome?_cons, hkept, List.find?_cons, beq_self_eq_true, Option.map_some]

/-- The copy that a link sends again. -/
def resentCopy (c : Copy) (id clock link n e : Nat) : Copy :=
  { c with id, rtx := true, node := e, trip := {}, kept := [(link, n)], lost := false, until_ := clock }

theorem linkTimeoutRetransmit_resends (hlost : c.lost = true) (hkept : c.kept = [(link, n)]) (hend : otherEnd link n = some e)
    (hinj : Tbl.find s.injs link = none) (hlive : s.linkLive link = true) (hage : s.clock < c.sent + 2 ^ 14) :
    ∃ t d, exec (.linkTimeoutRetransmit link rq) s = .next t ∧ t.mem = s.mem ∧ (Tbl.find t.reqs rq).map (·.copies) = some [d] ∧ d.rtx = true ∧
      d.node = e ∧ d.kept = [(link, n)] ∧ d.sent = c.sent ∧ d.ack = c.ack ∧ d.inc = c.inc ∧ d.lost = false := by
  have hreqs := unkept_req hq hc hlost hkept
  have hsent : exec (.linkTimeoutRetransmit link rq) s = .next (((unkept s rq c (link, n)).newId.2).updReq rq fun q =>
      { q with copies := q.copies ++ [resentCopy c (unkept s rq c (link, n)).newId.1 s.clock link n e] }) := by
    show execLinkTimeoutRetransmit link rq s = _
    unfold execLinkTimeoutRetransmit
    simp only [kept_copy hc hq hkept]
    rw [if_neg (by simp [hlive]; omega)]
    simp only [hend]
    have hnone : Tbl.find (unkept s rq c (link, n)).newId.2.injs link = none := by rw [hreqs]; exact hinj
    exact congrArg (fun r : State × Nat × Nat => Host.Outcome.next (r.1.updReq rq fun q => { q with copies := q.copies ++ [{ c with
      id := (unkept s rq c (link, n)).newId.1, rtx := true, node := e, trip := {}, kept := [(link, n)], lost := r.2.1 == 1 || r.2.1 == 2,
      until_ := s.clock + r.2.2 }] })) (inject_none hnone)
  have hfind : Tbl.find ((unkept s rq c (link, n)).newId.2).reqs rq = some { q with copies := [] } := by rw [hreqs]; exact find_put_self _ _ _
  obtain ⟨hnew, hmem, -⟩ := updReq_only hfind fun q => { q with copies := q.copies ++ [resentCopy c (unkept s rq c (link, n)).newId.1 s.clock link n e] }
  exact ⟨_, resentCopy c (unkept s rq c (link, n)).newId.1 s.clock link n e, hsent, hmem.trans (by rw [hreqs]; rfl), (congrArg (Option.map (·.copies)) hnew).trans (by simp only [Option.map_some, List.nil_append]), rfl, rfl, rfl, rfl, rfl, rfl, rfl⟩

theorem linkTimeoutRetransmit_drops (hgone : q.gone = false) (hlost : c.lost = true) (hkept : c.kept = [(link, n)]) (hage : c.sent + 2 ^ 14 ≤ s.clock) :
    ∃ t, exec (.linkTimeoutRetransmit link rq) s = .next t ∧ t.mem = s.mem ∧ (Tbl.find t.reqs rq).map (·.copies) = some [] := by
  have hreqs := unkept_req hq hc hlost hkept
  have hfind : Tbl.find (unkept s rq c (link, n)).reqs rq = some { q with copies := [] } := by rw [hreqs]; exact find_put_self _ _ _
  have hdropped : exec (.linkTimeoutRetransmit link rq) s = .next ((unkept s rq c (link, n)).reap rq) := by
    show execLinkTimeoutRetransmit link rq s = _
    unfold execLinkTimeoutRetransmit
    simp only [kept_copy hc hq hkept]
    rw [if_pos (by simp; omega)]
    rfl
  refine ⟨_, hdropped, ?_, ?_⟩ <;> rw [reap_live hfind hgone]
  · rw [hreqs]
  · rw [hfind]
    rfl

end Links

/-- A port or a link that leaves service takes what it kept with it; the others are as they were. -/
theorem fabricPortRetirement_ends {s : State} {link : Bool} {ix : Nat} (hpower : s.sec.powered = true) (hix : ix < (if link then 12 else 32)) :
    ∃ t, exec (.fabricPortRetirement link ix) s = .next t ∧ t.mem = s.mem ∧ t.reqs = s.reqs ∧ t.linkLive (if link then ix else 12 + ix) = false ∧
      ∀ l, l ≠ (if link then ix else 12 + ix) → t.linkLive l = s.linkLive l := by
  have hon : ¬ (!s.sec.powered) = true := by simp [hpower]
  cases link with
  | true =>
    have hix : ix < 12 := hix
    refine ⟨_, congrArg Host.Outcome.next ((if_neg hon).trans ((if_pos rfl).trans (if_neg (Nat.not_le.mpr hix)))), rfl, rfl, ?_, fun l hl => ?_⟩
    · simp [State.linkLive, hix]
    · have hl : l ≠ ix := hl
      simp [State.linkLive, hl]
  | false =>
    have hix : ix < 32 := hix
    refine ⟨_, congrArg Host.Outcome.next ((if_neg hon).trans ((if_neg Bool.false_ne_true).trans (if_neg (Nat.not_le.mpr hix)))), rfl, rfl, ?_,
      fun l hl => ?_⟩
    · simp [State.linkLive]
    · have hl : l ≠ 12 + ix := hl
      unfold State.linkLive
      by_cases h12 : l < 12
      · simp [h12]
      · have hport : l - 12 ≠ ix := by omega
        simp [h12, hport]

/-- Settles O48: the flight of a packet by the three ends of its segment, the tables of owners, and the one copy of a request on its links. -/
theorem meshSteps : Obligations.MeshSteps := by
  unfold Obligations.MeshSteps
  intro s
  refine ⟨fun rq q l room hq hst hsource hheld hway hleg hwins => ⟨fun hroom hdest => ?_, fun hroom hdest hlatch => ?_, fun hdrop => ?_⟩,
    fun rq q room hq hst hsource h => meshPacketArrival_stays hq hst hsource h,
    fun rq q room hq h hc => meshPacketArrival_without_copies hq h hc,
    fun q first port first' port' _ hp _ hw hw' => contestKey_order q hp hw hw',
    fun rq q hq => negativeAcknowledgement_backs_off hq,
    fun rq q c hq hway => meshRetransmit_resumes hq hway,
    fun core line hbusy hown hroom => ownershipRequest_free hbusy hown hroom,
    fun core other line hbusy hown hne hidle => ownershipRequest_recalls hbusy hown hne hidle,
    fun core line h => ownershipRequest_idle h,
    fun core line hown hidle hcall => ⟨_, ownershipRecall_other hown hidle hcall, (disown_spec s core line).1,
      by rw [predict_owned]; exact (disown_spec s core line).2, rfl, rfl, rfl⟩,
    fun core line hown hidle hothers hcall => ownershipRecall_own hown hidle hothers hcall,
    fun core line h => ownershipRecall_idle h,
    fun link lane rq q c e hq hc hpass hdie hinj => linkFlitTransmit_passes hq hc hpass hdie hinj,
    fun link rq q c n e hq hc hlost hkept hend hinj => linkAcknowledgement_frees hq hc hlost hkept hend hinj,
    fun link rq q c n e hq hc hlost hkept hend hinj hlive hage => linkTimeoutRetransmit_resends hq hc hlost hkept hend hinj hlive hage,
    fun link rq q c n hq hgone hc hlost hkept hage => linkTimeoutRetransmit_drops hq hc hgone hlost hkept hage,
    fun link ix hpower hix => fabricPortRetirement_ends hpower hix⟩
  · refine meshPacketArrival_flies hq hst hsource hheld hway hleg hwins ?_
    have hfly : s.fly l q.trip q room = { q.trip with hop := none, way := .there } := by
      unfold State.fly
      simp [hroom, hdest]
    rw [hfly, if_pos rfl]
  · refine meshPacketArrival_flies hq hst hsource hheld hway hleg hwins ?_
    have hfly : s.fly l q.trip q room = { q.trip with hop := some (segment l.dest 8 (q.trip.at_ l)) } := by
      unfold State.fly
      simp [hroom, hdest, hlatch]
    rw [hfly, if_neg (by simp [hway])]
  · refine meshPacketArrival_flies hq hst hsource hheld hway hleg hwins ?_
    have hfly : s.fly l q.trip q room = { q.trip with hop := none, way := .nacked } := by
      unfold State.fly
      rcases hdrop with hroom | ⟨hdest, hfull⟩
      · simp [hroom]
      · simp [hdest, hfull]
    rw [hfly, if_neg (by simp)]

end Sys2Proof.Proofs
end


section
/-! The slices that serve addresses, which no access at a home moves. -/

namespace Sys2Proof.Proofs

open Sys2Proof.Machine Sys2Proof.Laws

/-- The slices of every die, and what of them is evacuated, are as they were. -/
structure SameSlices (s u : State) : Prop where
  sec   : u.sec = s.sec
  evacs : ∀ n, (u.die n).evacs = (s.die n).evacs
  place : ∀ n, (u.die n).slices = (s.die n).slices

theorem SameSlices.refl (s : State) : SameSlices s s := ⟨rfl, fun _ => rfl, fun _ => rfl⟩
theorem SameSlices.trans {a b c : State} (h : SameSlices a b) (k : SameSlices b c) : SameSlices a c :=
  ⟨k.sec.trans h.sec, fun n => (k.evacs n).trans (h.evacs n), fun n => (k.place n).trans (h.place n)⟩
theorem SameSlices.of_dies {s u : State} (hsec : u.sec = s.sec) (hdies : u.dies = s.dies) : SameSlices s u :=
  ⟨hsec, fun n => by unfold State.die; rw [hdies], fun n => by unfold State.die; rw [hdies]⟩
theorem SameSlices.foldl {α : Type} (f : State → α → State) (h : ∀ s x, SameSlices s (f s x)) (l : List α) (s : State) : SameSlices s (l.foldl f s) := by
  induction l generalizing s with
  | nil => exact .refl s
  | cons a t ih => exact (h s a).trans (ih _)
theorem SameSlices.ite {s x y : State} (p : Prop) [Decidable p] (hx : SameSlices s x) (hy : SameSlices s y) : SameSlices s (if p then x else y) := by
  split
  · exact hx
  · exact hy

/-- The result cache at which an owner's operation is decided depends on nothing else. -/
theorem SameSlices.rcAt {s u : State} (h : SameSlices s u) (owner set : Nat) : u.rcAt owner set = s.rcAt owner set := by
  unfold State.rcAt Die.sliceAt Die.slice
  rw [h.sec, h.evacs, h.place]

theorem slices_spend (s : State) (p m i n : Nat) : SameSlices s (s.spend p m i n) := by
  unfold State.spend
  split
  · exact .refl s
  · exact .ite _ (.refl s) (.of_dies rfl rfl)

theorem slices_dropLine (s : State) (l : Nat) : SameSlices s (s.dropLine l) := by
  have hdie : ∀ n, ∃ x, (s.dropLine l).die n = { s.die n with rdc := x } := by
    intro n
    have hfind : Tbl.find (s.dropLine l).dies n = (Tbl.find s.dies n).map fun d => { d with rdc := Tbl.del d.rdc l } :=
      find_map_key s.dies (fun _ d => { d with rdc := Tbl.del d.rdc l }) n
    unfold State.die
    rw [hfind]
    cases Tbl.find s.dies n with
    | none => exact ⟨_, rfl⟩
    | some d => exact ⟨_, rfl⟩
  refine ⟨rfl, fun n => ?_, fun n => ?_⟩ <;> obtain ⟨x, hx⟩ := hdie n <;> rw [hx]

theorem slices_l2Evict (s : State) (p : Nat) (v : Nat × L2Line) : SameSlices s (s.l2Evict p v) :=
  (slices_spend s p 0 _ _).trans (slices_dropLine _ v.1)

theorem slices_l2Place (s : State) (p l : Nat) : SameSlices s (s.l2Place p l) := by
  unfold State.l2Place
  dsimp only
  split
  · exact .refl s
  · split
    · exact .of_dies rfl rfl
    · split
      · exact .refl s
      · rename_i v _ _
        have hdrawn : SameSlices s { s with free := s.free + 1 } := .of_dies rfl rfl
        exact (hdrawn.trans (slices_l2Evict _ p v)).trans (.of_dies rfl rfl)

theorem slices_l2Sector (s : State) (p n : Nat) (b : Bool) : SameSlices s (s.l2Sector p n b) := by
  unfold State.l2Sector
  dsimp only
  have hplace := slices_l2Place s p (n / 2)
  split
  · exact hplace
  · have hfilled : ∀ x : Tbl L2Line, SameSlices s (({ s.l2Place p (n / 2) with l2 := x } : State).clearSector n) := fun x => hplace.trans (.of_dies rfl rfl)
    exact .ite _ hplace (.ite _ ((hfilled _).trans (slices_spend ..)) (hfilled _))

theorem slices_touch {s : State} {spid : Nat} (h : (s.space spid).records = false) (part : Nat) (b : Bool) (cells : List (Nat × Byte)) (n : Nat) :
    SameSlices s (s.touchSector spid part b cells n) := by
  unfold State.touchSector
  dsimp only
  rw [undo_off h]
  have htouched : SameSlices s (if b = true then s.l2Sector part n (!coversSector cells n)
      else if (s.l2Has n || !s.ownMem (n / 2 * 128)) = true then s
      else s.dram part (n / 2) ((cells.filter (fun c => c.1 / 64 == n)).length)) :=
    .ite _ (slices_l2Sector ..) (.ite _ (.refl s) (slices_spend ..))
  split
  · exact htouched
  · exact htouched.trans (.of_dies rfl rfl)

/-- A write at a home, in a context that neither records nor is re-executed. -/
theorem slices_homeWrite {s : State} {spid : Nat} (h : (s.space spid).records = false) (hr : (s.space spid).replay = none) (part : Nat) (b : Bool)
    (cells : List (Nat × Byte)) : SameSlices s (s.homeWrite spid part b cells) := by
  have hre : (s.space spid).reruns = false := by unfold Space.reruns; rw [hr]; rfl
  have htouch : ∀ (l : List Nat) (u : State), u.spaces = s.spaces → SameSlices u (l.foldl (fun s n => s.touchSector spid part b cells n) u) := by
    intro l
    induction l with
    | nil => exact fun u _ => .refl u
    | cons n l ih =>
      intro u hu
      have hrec : (u.space spid).records = false := by rw [space_congr hu]; exact h
      exact (slices_touch hrec part b cells n).trans (ih _ ((caches_touch hrec part b cells n).1.spaces.trans hu))
  unfold State.homeWrite
  simp only [hre, Bool.false_eq_true, if_false]
  exact (htouch _ s rfl).trans (.of_dies rfl rfl)

theorem slices_tickRc (s : State) (gs : Nat) : SameSlices s (s.tickRc gs) := by
  unfold State.tickRc
  split
  · exact .refl s
  · exact .ite _ (.of_dies rfl rfl) (.of_dies rfl rfl)

theorem slices_record (s : State) (q : Req) (n : Nat) (a : Bool) (c : Nat) : SameSlices s (s.recordSector q n a c) := by
  unfold State.recordSector
  refine .ite _ (.of_dies rfl rfl) ?_
  split
  · exact .of_dies rfl rfl
  · dsimp only
    have hticked : ∀ (p : Prop) [Decidable p] (x : Tbl W64), SameSlices s (if p then State.tickRc { s with wms := x } q.gs else { s with wms := x }) :=
      fun p _ x => .ite _ (SameSlices.trans (b := { s with wms := x }) (.of_dies rfl rfl) (slices_tickRc ..)) (.of_dies rfl rfl)
    refine .ite _ ?_ (.ite _ (hticked _ _) ((hticked _ _).trans (.of_dies rfl rfl)))
    split
    · exact (hticked _ _).trans (.of_dies rfl rfl)
    · exact hticked _ _

theorem slices_l1Update (s : State) (c : Nat) (l : List (Nat × Byte)) : SameSlices s (s.l1Update c l) := by
  unfold State.l1Update
  refine SameSlices.foldl _ (fun s x => ?_) _ s
  split
  · exact .refl s
  · exact .of_dies rfl rfl

theorem slices_noteStrong (s : State) (q : Req) (n : Nat) : SameSlices s (s.noteStrong q n) := by
  unfold State.noteStrong
  split
  · exact .ite _ (.of_dies rfl rfl) (.refl s)
  · exact .refl s

theorem slices_spillHits (s : State) (q : Req) : SameSlices s (s.spillHits q) := by
  refine SameSlices.foldl _ (fun s a => ?_) _ s
  unfold State.spillHit
  split
  · exact .refl s
  · dsimp only
    split <;> exact .of_dies rfl rfl

/-- A store at its home moves no slice. -/
theorem slices_doWrite_store {s : State} {rq : Nat} {q : Req} (hk : q.kind = .store) (hrec : (s.space q.spid).records = false)
    (hr : (s.space q.spid).replay = none) (hlog : (s.space q.spid).log = 0) (hover : ∀ a ∈ q.accs, s.overlap q a = none)
    (hb : ∀ c ∈ accCells q.accs, s.barred c.1 = false) (v : Verdict) : SameSlices s (s.doWrite rq q v) := by
  have hwrote := homeWrite_spec hrec hr q.part (q.accs.any (!·.unc)) (accCells q.accs)
  have hspoil : (s.homeWrite q.spid q.part (q.accs.any (!·.unc)) (accCells q.accs)).spoil (accCells q.accs) =
      s.homeWrite q.spid q.part (q.accs.any (!·.unc)) (accCells q.accs) :=
    spoil_none fun c hc => by unfold State.barred; rw [hwrote.sec, hwrote.queues]; exact hb c hc
  unfold State.doWrite
  simp only [hk, countCheck_off hlog, clashes_none hover, blurAll_nil, ite_self, hspoil]
  exact ((((slices_homeWrite hrec hr ..).trans (slices_record ..)).trans (slices_l1Update ..)).trans (slices_noteStrong ..)).trans (.of_dies rfl rfl)

end Sys2Proof.Proofs
end

section
/-! Operations that carry serials: their copies, results and replies. -/

namespace Sys2Proof.Proofs

open Sys2Proof.Machine Sys2Proof.Laws

/-! ### A copy at its owner (05, R131, R132) -/

/-- Only the request changes. -/
def OnlyReq (s t : State) (rq : Nat) (p : Req) : Prop := Tbl.find t.reqs rq = some p ∧ ∀ k, k ≠ rq → Tbl.find t.reqs k = Tbl.find s.reqs k

theorem mem_retireAt {s : State} {places : List Nat} {u : Nat} {ack : BitVec 16} (x : RcEntry) :
    x ∈ (s.retireAt places u ack).rcache ↔ ∃ e ∈ s.rcache, x = if e.place ∈ places ∧ e.runit = u ∧ e.tomb = none ∧ (ack - e.ser).toNat < 2 ^ 15 then
      { e with tomb := some s.clock } else e := by
  have hcond : ∀ e : RcEntry, (places.contains e.place && e.runit == u && e.tomb.isNone && serLe e.ser ack) = true ↔
      (e.place ∈ places ∧ e.runit = u ∧ e.tomb = none ∧ (ack - e.ser).toNat < 2 ^ 15) := by
    intro e
    unfold serLe
    simp only [Bool.and_eq_true, List.contains_eq_mem, decide_eq_true_eq, beq_iff_eq, Option.isNone_iff_eq_none, and_assoc]
  have hstep : ∀ e : RcEntry, (if (places.contains e.place && e.runit == u && e.tomb.isNone && serLe e.ser ack) = true then
      ({ e with tomb := some s.clock } : RcEntry) else e) = if e.place ∈ places ∧ e.runit = u ∧ e.tomb = none ∧ (ack - e.ser).toNat < 2 ^ 15 then
      { e with tomb := some s.clock } else e := fun e => if_congr (hcond e) rfl rfl
  unfold State.retireAt
  constructor
  · intro hx
    obtain ⟨e, he, rfl⟩ := List.mem_map.mp hx
    exact ⟨e, he, hstep e⟩
  · rintro ⟨e, he, rfl⟩
    exact List.mem_map.mpr ⟨e, he, hstep e⟩

section Decisions
variable {s : State} {owner set runit : Nat} {ser : BitVec 16} {c : Copy} {e : RcEntry}

theorem decide132_live (hfind : s.rcFind (s.rcAt owner set) runit ser = some e) (hlive : e.tomb = none) :
    s.decide132 owner set runit ser c = .duplicate e.value := by
  unfold State.decide132
  simp only [hfind, hlive]

theorem decide132_late (hfind : s.rcFind (s.rcAt owner set) runit ser = some e) (htomb : e.tomb ≠ none) :
    s.decide132 owner set runit ser c = .late := by
  obtain ⟨n, hn⟩ := Option.ne_none_iff_exists'.mp htomb
  unfold State.decide132
  simp only [hfind, hn]

theorem decide132_evacuated (hnone : s.rcFind (s.rcAt owner set) runit ser = none) (hfind : s.rcFind (s.rcAt owner 1023) runit ser = some e)
    (hlive : e.tomb = none) : s.decide132 owner set runit ser c = .duplicate e.value := by
  unfold State.decide132
  simp only [hnone, hfind, Option.bind_some, hlive, Option.isNone_none, if_true]

/-- No cache of the owner answers for the operation. -/
def Missing (s : State) (owner set runit : Nat) (ser : BitVec 16) : Prop :=
  s.rcFind (s.rcAt owner set) runit ser = none ∧ ∀ e, s.rcFind (s.rcAt owner 1023) runit ser = some e → e.tomb ≠ none

/-- The copy names an incarnation of the owner that is past. -/
def Stale (s : State) (owner : Nat) (c : Copy) : Prop := c.inc ≠ s.ownerInc owner ∧ (c.rtx = true ∨ s.clock < s.sec.incAt + 2 ^ 14)

theorem decide132_missing (hmissing : Missing s owner set runit ser) : s.decide132 owner set runit ser c =
    if s.sec.incLost.contains owner then .busy
    else if c.inc ≠ s.ownerInc owner ∧ (c.rtx ∨ s.clock < s.sec.incAt + 2 ^ 14) then .unknown
    else if s.rcFull (s.rcAt owner set) then .busy else .perform := by
  obtain ⟨hnone, hold⟩ := hmissing
  have hother : ((s.rcFind (s.rcAt owner 1023) runit ser).bind fun e => if e.tomb.isNone then some e.value else none) = none := by
    cases hfind : s.rcFind (s.rcAt owner 1023) runit ser with
    | none => rfl
    | some e =>
      have htomb := hold e hfind
      rw [Option.bind_some, if_neg (by simpa using htomb)]
  unfold State.decide132
  simp only [hnone, hother]

end Decisions

section Copies
variable {s : State} {rq : Nat} {q : Req} {ser : BitVec 16} {c : Copy} (hq : Tbl.find s.reqs rq = some q) (hser : q.serial = some ser)
  (hc : q.copies = [c]) (harr : s.arrived q c = true) (hreply : q.reply = none) (hgone : q.gone = false)

/-- The state once the copy's ACK has retired what it names. -/
def retired (s : State) (q : Req) (c : Copy) : State := s.retireAt (s.rcAll (ownerOf (q.memAt.getD 0))) q.core c.ack

/-- The decision on the copy. -/
def decided (s : State) (q : Req) (ser : BitVec 16) (c : Copy) : Decision :=
  (retired s q c).decide132 (ownerOf (q.memAt.getD 0)) q.lineSet q.core ser c

include hq hser hc harr

section Answers
include hreply hgone

omit hser harr in
/-- An answer goes back, and the copy is done with. -/
theorem answer_goes (r : Reply) (hx : exec (.resultCacheRequest rq c.id) s = .next ((((retired s q c).sendReply rq r).copyGone rq c.id).reap rq)) :
    ∃ t, exec (.resultCacheRequest rq c.id) s = .next t ∧ t.mem = s.mem ∧ OnlyReq s t rq
      { q with copies := [], reply := some r, replied := s.clock, rnode := s.targetNode q, back := s.ownerInc (ownerOf (q.memAt.getD 0)) } := by
  obtain ⟨u, hu, hmem, hfind, hother⟩ := reply_gone (s := retired s q c) hq hc rfl hreply hgone r
  exact ⟨u, hx.trans (congrArg _ hu), hmem, hfind, hother⟩

theorem copy_duplicate {v : List LaneAcc} (hd : decided s q ser c = .duplicate v) :
    ∃ t, exec (.resultCacheRequest rq c.id) s = .next t ∧ t.mem = s.mem ∧ OnlyReq s t rq
      { q with copies := [], reply := some (.value v), replied := s.clock, rnode := s.targetNode q, back := s.ownerInc (ownerOf (q.memAt.getD 0)) } := by
  unfold decided retired at hd
  refine answer_goes hq hc hreply hgone _ ((rc_request hq hser hc harr).trans ?_)
  simp only [hd]
  rfl

theorem copy_unknown (hd : decided s q ser c = .unknown) :
    ∃ t, exec (.resultCacheRequest rq c.id) s = .next t ∧ t.mem = s.mem ∧ OnlyReq s t rq
      { q with copies := [], reply := some .unknown, replied := s.clock, rnode := s.targetNode q, back := s.ownerInc (ownerOf (q.memAt.getD 0)) } := by
  unfold decided retired at hd
  refine answer_goes hq hc hreply hgone _ ((rc_request hq hser hc harr).trans ?_)
  simp only [hd]
  rfl

theorem copy_busy (hd : decided s q ser c = .busy) :
    ∃ t, exec (.resultCacheRequest rq c.id) s = .next t ∧ t.mem = s.mem ∧ OnlyReq s t rq
      { q with copies := [], reply := some .busy, replied := s.clock, rnode := s.targetNode q, back := s.ownerInc (ownerOf (q.memAt.getD 0)) } := by
  unfold decided retired at hd
  refine answer_goes hq hc hreply hgone _ ((rc_request hq hser hc harr).trans ?_)
  simp only [hd]
  rfl

omit hreply in
/-- A copy of what a tombstone stands for is dropped. -/
theorem copy_late (hd : decided s q ser c = .late) :
    ∃ t, exec (.resultCacheRequest rq c.id) s = .next t ∧ t.mem = s.mem ∧ OnlyReq s t rq { q with copies := [] } := by
  unfold decided retired at hd
  have hdropped : (retired s q c).copyGone rq c.id = { retired s q c with reqs := Tbl.put s.reqs rq { q with copies := [] } } := by
    unfold State.copyGone
    rw [upd_req (s := retired s q c) hq]
    simp only [hc]
    simp [retired, State.retireAt]
  have hfind : Tbl.find ((retired s q c).copyGone rq c.id).reqs rq = some { q with copies := [] } := by rw [hdropped]; exact find_put_self _ _ _
  refine ⟨(retired s q c).copyGone rq c.id, (rc_request hq hser hc harr).trans ?_, by rw [hdropped]; rfl, hfind, fun k hk => ?_⟩
  · simp only [hd]
    exact congrArg _ (reap_live (s := (retired s q c).copyGone rq c.id) hfind hgone)
  · rw [hdropped]
    exact find_put_other _ _ hk

end Answers

/-- A store that may be performed is. -/
theorem copy_performs (hd : decided s q ser c = .perform) (hst : q.stage = .mesh ∨ q.stage = .atHome) (hown : Tbl.find s.owners (q.sector / 2) = none)
    (hmay : ∀ h ∈ q.homesLeft, s.mayPerform rq q h = true) (hk : q.kind = .store) :
    exec (.resultCacheRequest rq c.id) s = .next ((retired s q c).performCopy rq q ser c.id) := by
  unfold decided retired at hd
  have htx : q.txMsg = none := by unfold Req.txMsg; rw [hk]
  have hatom : q.isAtomic = false := by unfold Req.isAtomic; rw [hk]
  have hall : q.homesLeft.all ((retired s q c).mayPerform rq q) = true := List.all_eq_true.mpr hmay
  have hblocked : ¬ (q.txMsg.isSome || decide (q.stage ≠ .mesh ∧ q.stage ≠ .atHome) || (Tbl.find (retired s q c).owners (q.sector / 2)).isSome ||
      !q.homesLeft.all ((retired s q c).mayPerform rq q) || (q.isAtomic && !(retired s q c).atomTurn q)) = true := by
    rw [hall, htx, hatom, show Tbl.find (retired s q c).owners (q.sector / 2) = none from hown]
    rcases hst with h | h <;> simp [h]
  refine (rc_request hq hser hc harr).trans ?_
  simp only [hd]
  exact congrArg _ (if_neg hblocked)

end Copies

/-- The answer for a performed copy leaves open whether its requester still waits. -/
theorem gone_ownerKeeps {u : State} {id copy : Nat} {q P p : Req} {ser : BitVec 16} {v : List LaneAcc} (hP : Tbl.find u.reqs id = some P)
    (hp : Tbl.find (u.ownerKeeps id q ser copy v).reqs id = some p) : p.gone = P.gone := by
  unfold State.ownerKeeps State.sendReply State.copyGone at hp
  simp only [State.updReq, find_upd_self] at hp
  rw [show Tbl.find (u.rcEnter (ownerOf (q.memAt.getD 0)) q.lineSet q.core ser v).reqs id = some P from hP] at hp
  simp only [Option.map_some, Option.some.injEq] at hp
  rw [← hp]
  split <;> rfl

/-- A copy whose write is performed is entered and answered. -/
theorem performCopy_kept {s : State} {rq copy : Nat} {q P : Req} {ser : BitVec 16} (hm : q.modifies = false) (htag : q.tag = none) (hgone : q.gone = false)
    (hw : Tbl.find (s.writeSector rq q).reqs rq = some P) (hst : P.stage = .performed) (hreply : P.reply = none) (hPgone : P.gone = false) :
    ∃ (u : State) (p : Req), s.performCopy rq q ser copy = u ∧ u.mem = (s.writeSector rq q).mem ∧ Tbl.find u.reqs rq = some p ∧ p.stage = .performed ∧
      p.accs = P.accs ∧ p.reply = some (.value P.accs) ∧ p.copies = P.copies.filter (fun x => x.id != copy) ∧
      ⟨ownerOf (q.memAt.getD 0), (s.writeSector rq q).rcAt (ownerOf (q.memAt.getD 0)) q.lineSet, q.core, ser, none, P.accs⟩ ∈ u.rcache := by
  generalize hy : s.writeSector rq q = y at hw
  have hcontended : Tbl.find (y.updReq rq fun x => { x with contended := y.isContended (q.sector / 2) }).reqs rq =
      some { P with contended := y.isContended (q.sector / 2) } := by rw [upd_req hw]; exact find_put_self _ _ _
  obtain ⟨⟨hmem, -, -⟩, p, hp, hpst, hpaccs, hpreply, hpcopies⟩ := keeps_spec hcontended hreply q ser copy P.accs
  have hpgone : p.gone = false := (gone_ownerKeeps hcontended hp).trans hPgone
  have hkept : s.performCopy rq q ser copy =
      (y.updReq rq fun x => { x with contended := y.isContended (q.sector / 2) }).ownerKeeps rq q ser copy P.accs := by
    unfold State.performCopy
    simp only [reached_plain hm, htag, Option.isSome_none, Bool.false_eq_true, if_false, hgone, hy, hw, hst, reduceCtorEq, true_or, if_true]
    exact reap_live hp hpgone
  exact ⟨_, p, hkept, hmem, hp, hpst.trans hst, hpaccs, hpreply, hpcopies, List.mem_append_right _ (List.mem_singleton.mpr rfl)⟩

/-- A store's copy is performed, entered at the cache that its owner decides at, and answered. -/
theorem store_copy_performs {s : State} {rq : Nat} {q : Req} {ser : BitVec 16} {c : Copy} {g : Group} {v : Verdict} (hq : Tbl.find s.reqs rq = some q)
    (hc : q.copies = [c]) (hreply : q.reply = none) (hgone : q.gone = false) (hk : q.kind = .store) (hg : Tbl.find s.groups q.gs = some g)
    (hrec : (s.space q.spid).records = false) (hr : (s.space q.spid).replay = none) (hlog : (s.space q.spid).log = 0)
    (hacc : ∀ a ∈ q.accs, s.overlap q a = none ∧ (s.poisoned a.pa a.len = true → 4 ≤ a.len)) (hb : ∀ e ∈ accCells q.accs, s.barred e.1 = false)
    (hrace : s.raceBars rq q g = false) (hgo : s.homeCheck q g q.sector (q.ord != .weak) = .go v) :
    ∃ (u : State) (p : Req), s.performCopy rq q ser c.id = u ∧
      (∀ pa, u.byte pa = (((accCells q.accs).reverse.find? (fun e => e.1 == pa)).map (·.2)).getD (s.byte pa)) ∧ Tbl.find u.reqs rq = some p ∧
      p.stage = .performed ∧ p.copies = [] ∧ p.reply = some (.value p.accs) ∧
      ⟨ownerOf (q.memAt.getD 0), s.rcAt (ownerOf (q.memAt.getD 0)) q.lineSet, q.core, ser, none, p.accs⟩ ∈ u.rcache := by
  have hm : q.modifies = false := by unfold Req.modifies; rw [hk]
  have htag : q.tag = none := by unfold Req.tag; rw [hk]
  have hover : ∀ a ∈ q.accs, s.overlap q a = none := fun a ha => (hacc a ha).1
  have hwritten := writeSector_goes hk hg (fun a ha => ⟨by unfold State.mixed; simp [hover a ha], (hacc a ha).2⟩) hgo hrace
  obtain ⟨hbytes, hreq⟩ := doWrite_store (s := unheld s rq) hq hk hrec hr hlog hover hb v
  obtain ⟨hmem, hreqs⟩ := spillHits_spec ((unheld s rq).doWrite rq q v) q
  have hslices : SameSlices s (s.writeSector rq q) := by
    rw [hwritten]
    have hun : SameSlices s (unheld s rq) := .of_dies rfl rfl
    exact (hun.trans (slices_doWrite_store (s := unheld s rq) hk hrec hr hlog hover hb v)).trans (slices_spillHits ..)
  obtain ⟨u, p, hu, humem, hp, hst, haccs, hpreply, hcopies, hentry⟩ := performCopy_kept (ser := ser) (copy := c.id)
    (P := { q with stage := .performed, accs := q.accs.map fun a => { a with perf := true } }) hm htag hgone (by rw [hwritten, hreqs]; exact hreq) rfl hreply hgone
  rw [hslices.rcAt] at hentry
  refine ⟨u, p, hu, fun pa => ?_, hp, hst, by rw [hcopies, hc]; simp, by rw [hpreply, haccs], by rw [haccs]; exact hentry⟩
  refine Eq.trans ?_ (hbytes pa)
  exact congrArg (fun m => Tbl.get 0#8 m pa) (humem.trans (by rw [hwritten]; exact hmem))

/-! ### Replies (05, R129, R133, R136) -/

section Replies
variable {s : State} {rq : Nat} {q : Req} {ser : BitVec 16} {r : Reply} (hq : Tbl.find s.reqs rq = some q) (hser : q.serial = some ser)
  (hreply : q.reply = some r)
include hq hser hreply

theorem reply_of : ((Tbl.find s.reqs rq).bind fun q => q.reply.bind fun r => q.serial.map fun n => (q, r, n)) = some (q, r, ser) := by
  simp only [hq, Option.bind_some, hreply, hser, Option.map_some]

theorem requestReply_stays (h : q.gone = true ∨ q.rnode ≠ unitDie q.core ∨ q.replied + 2 ^ 14 ≤ s.clock) : exec (.requestReply rq) s = .next s := by
  show execRequestReply rq s = _
  unfold execRequestReply
  simp only [reply_of hq hser hreply]
  rw [if_pos]
  rcases h with h | h | h
  · simp [h]
  · simp [h]
  · rw [decide_eq_true h]
    simp

section Taken
variable (hgone : q.gone = false) (hnode : q.rnode = unitDie q.core) (hage : s.clock < q.replied + 2 ^ 14)
include hgone hnode hage

omit hq hser hreply in
theorem reply_not_late : ¬ (q.gone || decide (q.rnode ≠ unitDie q.core) || decide (q.replied + 2 ^ 14 ≤ s.clock)) = true := by
  rw [decide_eq_false (Nat.not_le.mpr hage)]
  simp [hgone, hnode]

theorem requestReply_value {v : List LaneAcc} (hv : r = .value v) (hatom : q.isAtomic = false) :
    ∃ t, exec (.requestReply rq) s = .next t ∧ t.mem = s.mem ∧
      OnlyReq s t rq { q with serial := none, reply := none, copies := [], accs := v } ∧ t.rqer q.core = (s.rqer q.core).answer ser := by
  subst hv
  have hx : exec (.requestReply rq) s = .next (((s.viewReply q).answerSerial q.core ser).updReq rq fun q =>
      { q with serial := none, reply := none, copies := [], accs := v }) := by
    show execRequestReply rq s = _
    unfold execRequestReply
    simp only [reply_of hq hser hreply]
    rw [if_neg (reply_not_late hgone hnode hage)]
    simp only [hatom, Bool.false_eq_true, if_false]
  obtain ⟨hfind, hmem, hother⟩ := updReq_only (s := (s.viewReply q).answerSerial q.core ser) hq fun q =>
    { q with serial := none, reply := none, copies := [], accs := v }
  refine ⟨_, hx, hmem, ⟨hfind, hother⟩, ?_⟩
  unfold State.rqer
  rw [show (State.updReq _ rq _).rqers = Tbl.put s.rqers q.core ((s.rqer q.core).answer ser) from rfl, find_put_self]
  rfl

theorem requestReply_busy (hr : r = .busy) : ∃ t, exec (.requestReply rq) s = .next t ∧ t.mem = s.mem ∧
    OnlyReq s t rq { q with reply := none, busy := q.busy + 1, parked := true, since := s.clock } := by
  subst hr
  have hx : exec (.requestReply rq) s = .next ((s.viewReply q).updReq rq fun q =>
      { q with reply := none, busy := q.busy + 1, parked := true, since := s.clock }) := by
    show execRequestReply rq s = _
    unfold execRequestReply
    simp only [reply_of hq hser hreply]
    rw [if_neg (reply_not_late hgone hnode hage)]
  obtain ⟨hfind, hmem, hother⟩ := updReq_only (s := s.viewReply q) hq fun q => { q with reply := none, busy := q.busy + 1, parked := true, since := s.clock }
  exact ⟨_, hx, hmem, hfind, hother⟩

theorem requestReply_unknown (hr : r = .unknown) : exec (.requestReply rq) s = .next ((s.viewReply q).unknownOutcome rq q ser) := by
  subst hr
  show execRequestReply rq s = _
  unfold execRequestReply
  simp only [reply_of hq hser hreply]
  rw [if_neg (reply_not_late hgone hnode hage)]

end Taken
end Replies

/-- A group's word takes the fault of an unknown outcome. -/
theorem unknownOutcome_word (s : State) (rq : Nat) {q : Req} (ser : BitVec 16) (htx : q.txMsg = none) (htag : q.tag = none) :
    s.unknownOutcome rq q ser = s.lateFault rq q (q.unknownCause ser) := by
  unfold State.unknownOutcome
  rw [htx]
  cases hk : q.kind with
  | put tag who => exact absurd htag (by simp [Req.tag, hk])
  | rmw tag op => exact absurd htag (by simp [Req.tag, hk])
  | _ => rfl

/-- An engine's write whose outcome is unknown is a cause of its context, and the engine takes its packet as answered. -/
theorem unknownOutcome_engine (s : State) (rq : Nat) {tag : Nat} {who : Option Nat} {q : Req} (ser : BitVec 16)
    (hk : q.kind = .put tag who) (hcore : q.core < 768) (htag : tag ≠ 0) (hlog : tag < 2 ^ 43) :
    s.unknownOutcome rq q ser =
      ((s.haltBy q.spid (s.agentEng q) q.core 0x24 0 (BitVec.ofNat 64 (q.sector * 64)) (ser.setWidth 64)).answerSerial q.core ser).updReq rq fun q =>
        { q with stage := .answered, serial := none, reply := none, copies := [], accs := q.accs.map fun a => { a with err := 0 } } := by
  have htx : q.txMsg = none := by unfold Req.txMsg; rw [hk]
  have hlogs : q.logs = false := by
    unfold Req.logs logTag
    rw [hk]
    simp only [decide_eq_false (Nat.not_le.mpr hlog), Bool.false_and]
  unfold State.unknownOutcome
  rw [htx, hk]
  simp only [if_neg (Nat.not_le.mpr (Nat.lt_of_lt_of_le hcore (by decide : 768 ≤ 772))), hlogs, Bool.false_eq_true, if_false, if_neg htag, if_true]
  rfl

/-! ### Copies sent again (05, R133, R134) -/

/-- A further copy of a request that is resent. -/
theorem addCopy_again {s : State} {rq : Nat} {q : Req} (hq : Tbl.find s.reqs rq = some q) : ∃ d : Copy,
    OnlyReq s (s.addCopy rq q true) rq { q with copies := q.copies ++ [d], sent := s.clock } ∧ (s.addCopy rq q true).mem = s.mem ∧
      d.rtx = true ∧ d.sent = s.clock ∧ d.ack = (s.rqer q.core).ack ∧ d.inc = q.inc ∧ d.lost = false := by
  obtain ⟨d, hd, hinc, hrtx, hsent, hack, hlost⟩ := addCopy_spec hq true
  have hinc : d.inc = q.inc := hinc
  rw [hinc] at hd
  rw [hd]
  exact ⟨d, ⟨find_put_self _ _ _, fun k hk => find_put_other _ _ hk⟩, rfl, hrtx, hsent, hack, hinc, hlost⟩

/-- What a copy of a request would be now. -/
def freshCopy (s : State) (q : Req) : Copy := { id := 0, rtx := true, ack := (s.rqer q.core).ack, inc := q.inc, sent := s.clock, node := 0 }

section Resends
variable {s : State} {rq : Nat} {q : Req} {ser : BitVec 16} (hq : Tbl.find s.reqs rq = some q)
include hq

theorem busyRetry_resends (hparked : q.parked = true) : ∃ t d, exec (.busyRetry rq) s = .next t ∧ t.mem = s.mem ∧
    OnlyReq s t rq (if q.since + 64 * min q.busy 16 ≤ s.clock then { q with parked := false, copies := q.copies ++ [d], sent := s.clock } else q) ∧
      d.rtx = true ∧ d.sent = s.clock ∧ d.ack = (s.rqer q.core).ack ∧ d.inc = q.inc ∧ d.lost = false := by
  have hx : exec (.busyRetry rq) s = .next (if q.since + 64 * min q.busy 16 ≤ s.clock then
      (s.addCopy rq q true).updReq rq fun q => { q with parked := false } else s) := by
    show execBusyRetry rq s = _
    unfold execBusyRetry
    simp only [hq, hparked, Bool.true_and, decide_eq_true_eq]
  by_cases hdue : q.since + 64 * min q.busy 16 ≤ s.clock
  · obtain ⟨d, ⟨hfind, hother⟩, hmem, hd⟩ := addCopy_again hq
    obtain ⟨hfind', hmem', hother'⟩ := updReq_only hfind fun q => { q with parked := false }
    refine ⟨_, d, hx.trans (congrArg _ (if_pos hdue)), hmem'.trans hmem, ⟨?_, fun k hk => (hother' k hk).trans (hother k hk)⟩, hd⟩
    rw [if_pos hdue]
    exact hfind'
  · refine ⟨s, freshCopy s q, hx.trans (congrArg _ (if_neg hdue)), rfl, ⟨?_, fun _ _ => rfl⟩, rfl, rfl, rfl, rfl, rfl⟩
    rw [if_neg hdue]
    exact hq

theorem requestResend_resends (hser : q.serial = some ser) (hparked : q.parked = false) (hgone : q.gone = false) (hst : q.stage ≠ .unperformed) :
    ∃ t d, exec (.requestResend rq) s = .next t ∧ t.mem = s.mem ∧
      OnlyReq s t rq (if q.sent + 2 ^ 15 ≤ s.clock then { q with copies := q.copies ++ [d], sent := s.clock } else q) ∧
        d.rtx = true ∧ d.sent = s.clock ∧ d.ack = (s.rqer q.core).ack ∧ d.inc = q.inc ∧ d.lost = false := by
  have hx : exec (.requestResend rq) s = .next (if q.sent + 2 ^ 15 ≤ s.clock then s.addCopy rq q true else s) := by
    have hmay : (q.serial.isSome && !q.parked && !q.gone && q.stage != .unperformed) = true := by simp [hser, hparked, hgone, hst]
    show execRequestResend rq s = _
    unfold execRequestResend
    simp only [hq, hmay, Bool.true_and, decide_eq_true_eq]
  by_cases hdue : q.sent + 2 ^ 15 ≤ s.clock
  · obtain ⟨d, hreq, hmem, hd⟩ := addCopy_again hq
    refine ⟨_, d, hx.trans (congrArg _ (if_pos hdue)), hmem, ?_, hd⟩
    rw [if_pos hdue]
    exact hreq
  · refine ⟨s, freshCopy s q, hx.trans (congrArg _ (if_neg hdue)), rfl, ⟨?_, fun _ _ => rfl⟩, rfl, rfl, rfl, rfl, rfl⟩
    rw [if_neg hdue]
    exact hq

theorem requestAbandon_early (hser : q.serial = some ser) (hearly : s.clock < q.first + 2 ^ 23) : exec (.requestAbandon rq) s = .next s := by
  show execRequestAbandon rq s = _
  unfold execRequestAbandon
  simp only [hq, Option.bind_some, hser, Option.map_some]
  rw [if_pos (by rw [decide_eq_true hearly, Bool.or_true])]

theorem requestAbandon_due (hser : q.serial = some ser) (hgone : q.gone = false) (hdue : q.first + 2 ^ 23 ≤ s.clock) (htx : q.txMsg = none)
    (htag : q.tag = none) : exec (.requestAbandon rq) s = .next ((s.leaveCopies q).lateFault rq q (q.unknownCause ser)) := by
  rw [← unknownOutcome_word _ rq ser htx htag]
  show execRequestAbandon rq s = _
  unfold execRequestAbandon
  simp only [hq, Option.bind_some, hser, Option.map_some]
  rw [if_neg (by rw [decide_eq_false (Nat.not_lt.mpr hdue), hgone]; decide)]

omit hq in
theorem leaveCopies_none (hc : q.copies = []) : s.leaveCopies q = s := by
  unfold State.leaveCopies
  rw [if_pos (by simp [hc])]

omit hq in
/-- Copies that are still in flight stay, as a request that nothing waits for. -/
theorem leaveCopies_stay (hc : q.copies ≠ []) (htx : q.txMsg = none) : (s.leaveCopies q).mem = s.mem ∧ (s.leaveCopies q).groups = s.groups ∧
    ∃ p : Req, Tbl.find (s.leaveCopies q).reqs (s.fresh + 1) = some p ∧ p.gone = true ∧ p.copies = q.copies ∧ p.kind = q.kind ∧ p.accs = q.accs ∧
      p.serial = q.serial ∧ p.gs = noGroup := by
  unfold State.leaveCopies
  rw [if_neg (by simp [hc, htx])]
  exact ⟨rfl, rfl, _, find_put_self _ _ _, rfl, rfl, rfl, rfl, rfl, rfl⟩

/-- Age takes copies, or the reply. -/
theorem ageExpiry_takes (hgone : q.gone = false) (copy : Nat) : ∃ t, exec (.ageExpiry rq copy) s = .next t ∧ t.mem = s.mem ∧ OnlyReq s t rq
    (if copy = 0 then (if q.reply.isSome && decide (q.replied + 2 ^ 14 ≤ s.clock) then { q with reply := none } else q)
      else { q with copies := q.copies.filter (fun c => !(c.id == copy && decide (c.sent + 2 ^ 14 ≤ s.clock))) }) := by
  obtain ⟨hfind, hmem, hother⟩ := updReq_only hq fun q =>
    if copy = 0 then (if q.reply.isSome && decide (q.replied + 2 ^ 14 ≤ s.clock) then { q with reply := none } else q)
    else { q with copies := q.copies.filter (fun c => !(c.id == copy && decide (c.sent + 2 ^ 14 ≤ s.clock))) }
  refine ⟨_, congrArg Host.Outcome.next (reap_live hfind ?_), hmem, hfind, hother⟩
  split
  · split <;> exact hgone
  · exact hgone

end Resends

/-! ### Retire packets, tombstones, incarnations (05, R129, R132, R135) -/

section Requesters
variable {s : State} {u o : Nat} {ack : BitVec 16}

theorem rqer_updRqer (s : State) (u : Nat) (f : Requester → Requester) : (s.updRqer u f).rqer u = f (s.rqer u) := by
  unfold State.updRqer State.rqer
  simp only [find_put_self, Option.getD_some]

theorem retirePacketSend_goes (hpk : (s.rqer u).retirePk = [(o, ack, 0)]) :
    ∃ t, exec (.retirePacketSend u o) s = .next t ∧ t.reqs = s.reqs ∧ (t.rqer u).retirePk = [(o, ack, s.clock + 1)] := by
  refine ⟨_, congrArg Host.Outcome.next (if_pos (by simp [hpk])), rfl, ?_⟩
  rw [rqer_updRqer]
  simp [hpk]

theorem retirePacket_arrives {n : Nat} (hpk : (s.rqer u).retirePk = [(o, ack, n + 1)]) :
    ∃ t, exec (.retirePacket u o) s = .next t ∧ t.reqs = s.reqs ∧ t.mem = s.mem ∧ (t.rqer u).retirePk = [] ∧
      t.rcache = if s.clock < n + 2 ^ 14 then (s.retireAt (s.rcAll o) u ack).rcache else s.rcache := by
  have hage : s.clock + 1 < n + 1 + 2 ^ 14 ↔ s.clock < n + 2 ^ 14 := by omega
  have hx : exec (.retirePacket u o) s = .next ((if s.clock < n + 2 ^ 14 then s.retireAt (s.rcAll o) u ack else s).updRqer u fun r =>
      { r with retirePk := r.retirePk.filter (· != (o, ack, n + 1)) }) := by
    have hfind : (s.rqer u).retirePk.find? (fun p => p.1 == o && p.2.2 != 0) = some (o, ack, n + 1) := by simp [hpk]
    show execRetirePacket u o s = _
    unfold execRetirePacket
    simp only [hfind, hage]
  refine ⟨_, hx, ?_, ?_, ?_, ?_⟩
  · show (if _ then _ else _ : State).reqs = _
    split <;> rfl
  · show (if _ then _ else _ : State).mem = _
    split <;> rfl
  · rw [rqer_updRqer]
    have hsame : (if s.clock < n + 2 ^ 14 then s.retireAt (s.rcAll o) u ack else s).rqer u = s.rqer u := by split <;> rfl
    rw [hsame, hpk]
    simp
  · show (if _ then _ else _ : State).rcache = _
    split <;> rfl

end Requesters

theorem tombstoneExpiry_drops (s : State) (o u : Nat) (n : BitVec 16) : ∃ t, exec (.tombstoneExpiry o u n) s = .next t ∧ t.reqs = s.reqs ∧ t.mem = s.mem ∧
    ∀ e, e ∈ t.rcache ↔ e ∈ s.rcache ∧ ¬ (e.owner = o ∧ e.runit = u ∧ e.ser = n ∧ ∃ c, e.tomb = some c ∧ c + 2 ^ 15 ≤ s.clock) := by
  refine ⟨_, rfl, rfl, rfl, fun e => (find_filter_pos _ _ _).trans (and_congr_right fun _ => not_congr ?_)⟩
  have htomb : (e.tomb.map fun t => decide (t + 2 ^ 15 ≤ s.clock)).getD false = true ↔ ∃ c, e.tomb = some c ∧ c + 2 ^ 15 ≤ s.clock := by
    cases e.tomb with
    | none => simp
    | some c => simp
  rw [Bool.and_eq_true, Bool.and_eq_true, Bool.and_eq_true, beq_iff_eq, beq_iff_eq, beq_iff_eq, htomb, and_assoc, and_assoc]

theorem ownerIncarnationAdvance_due {s : State} (hlost : s.sec.incLost ≠ []) (hdue : s.sec.incAt = 0 ∨ s.sec.incAt + 2 ^ 17 ≤ s.clock) :
    exec .ownerIncarnationAdvance s =
      .next { s with sec := { s.sec with incarn := s.sec.incarn + 1#8, incAt := s.clock, incLost := [] } } := by
  refine congrArg Host.Outcome.next (if_neg ?_)
  rcases hdue with h | h
  · simp [hlost, h]
  · rw [decide_eq_false (Nat.not_lt.mpr h)]
    simp [hlost]

theorem ownerIncarnationAdvance_stays {s : State} (h : s.sec.incLost = [] ∨ s.sec.incAt ≠ 0 ∧ s.clock < s.sec.incAt + 2 ^ 17) :
    exec .ownerIncarnationAdvance s = .next s := by
  refine congrArg Host.Outcome.next (if_pos ?_)
  rcases h with h | ⟨hat, hearly⟩
  · simp [h]
  · rw [decide_eq_true hearly]
    simp [hat]

theorem incarnationAnnounce_taken {s : State} {die m : Nat} {inc : Byte}
    (h : m = s.sec.modnum.toNat ∧ inc = s.sec.incarn ∨ m ≠ s.sec.modnum.toNat ∧ (Tbl.find s.sec.domain m).isSome = true) :
    ∃ t, exec (.incarnationAnnounce die m inc) s = .next t ∧ t.reqs = s.reqs ∧ t.mem = s.mem ∧ Tbl.get 0#8 (t.die die).view m = inc ∧
      ∀ k, k ≠ m → Tbl.get 0#8 (t.die die).view k = Tbl.get 0#8 (s.die die).view k := by
  have hview : ((s.updDie die fun d => { d with view := Tbl.set 0#8 d.view m inc }).die die).view = Tbl.set 0#8 (s.die die).view m inc := by
    unfold State.updDie State.die
    simp only [find_put_self, Option.getD_some]
  refine ⟨_, congrArg Host.Outcome.next (if_neg ?_), rfl, rfl, ?_, fun k hk => ?_⟩
  · rcases h with ⟨hm, hi⟩ | ⟨hm, hi⟩
    · simp [hm, hi]
    · simp [hm, Option.isSome_iff_ne_none.mp hi]
  · rw [hview, get_set_self]
  · rw [hview, get_set, if_neg hk]

/-! ### Held operations (05, R130) -/

section Holds
variable {s : State} {u rq o : Nat} {q : Req} {l : List (Nat × Req)} (hq : Tbl.find s.reqs rq = some q) (hun : s.unsent u = (rq, q) :: l)
  (howner : s.serialOwner q = some o)
include hq hun howner

omit hq in
theorem requesterHoldRelease_waits (hhold : (s.rqer u).mustHold o = true) : exec (.requesterHoldRelease u) s = .next s := by
  show execRequesterHoldRelease u s = _
  unfold execRequesterHoldRelease
  simp only [hun, howner, Option.getD_some]
  rw [if_pos (by simp [hhold])]

/-- The state once the operation has its serial, from one that is charged for its first copy. -/
def served (s : State) (u rq o : Nat) : State :=
  ((s.takeSerial u o).2.updReq rq fun q => { q with serial := some (s.takeSerial u o).1, first := s.clock }).updRqer u fun r =>
    { r with retirePk := r.retirePk.filter (fun p => !(p.1 == o && p.2.2 == 0)) }

/-- The charge for the first copy of a core's request. -/
def charged (s : State) (u : Nat) (q : Req) : State := if u < 768 then s.spend q.part (1 + q.cls) u 1 else s

/-- Only meters have moved. -/
structure Metered (s t : State) : Prop where
  mem   : t.mem = s.mem
  reqs  : t.reqs = s.reqs
  rqers : t.rqers = s.rqers
  clock : t.clock = s.clock
  dies  : t.dies = s.dies
  sec   : t.sec = s.sec

omit hq hun howner in
theorem metered_charged (s : State) (u : Nat) (q : Req) : Metered s (charged s u q) := by
  unfold charged State.spend
  split
  · split
    · exact ⟨rfl, rfl, rfl, rfl, rfl, rfl⟩
    · split <;> exact ⟨rfl, rfl, rfl, rfl, rfl, rfl⟩
  · exact ⟨rfl, rfl, rfl, rfl, rfl, rfl⟩

omit hun howner in
theorem served_req {s0 : State} (hs : Metered s s0) :
    OnlyReq s (served s0 u rq o) rq { q with serial := some (s.rqer u).next, first := s.clock } := by
  refine ⟨?_, fun k hk => (find_upd_other _ _ hk).trans (by rw [← hs.reqs]; rfl)⟩
  show Tbl.find (Tbl.upd s0.reqs rq _) rq = _
  rw [find_upd_self, hs.reqs, hq]
  show some { q with serial := some ((Tbl.find s0.rqers u).getD {}).next, first := s0.clock } = _
  rw [hs.rqers, hs.clock]
  rfl

omit hq hun howner in
theorem served_rqer {s0 : State} (hs : Metered s s0) (hpk : (s.rqer u).retirePk = []) : (served s0 u rq o).rqer u = (s.rqer u).take o := by
  have hrq : s0.rqer u = s.rqer u := by unfold State.rqer; rw [hs.rqers]
  have htaken : ((s0.takeSerial u o).2.updReq rq fun q => { q with serial := some (s0.takeSerial u o).1, first := s0.clock }).rqer u = (s.rqer u).take o := by
    rw [← hrq]
    exact rqer_updRqer s0 u (fun r => r.take o)
  have htold : ((s.rqer u).take o).retirePk = [] := hpk
  unfold served
  rw [rqer_updRqer, htaken, htold]
  exact congrArg (fun l => { (s.rqer u).take o with retirePk := l }) hpk.symm

omit hq hun howner in
/-- A copy does not carry when its request was first sent. -/
theorem addCopy_first (s : State) (rq : Nat) (q : Req) (rtx : Bool) (n : Nat) : s.addCopy rq { q with first := n } rtx = s.addCopy rq q rtx := rfl

omit hq hun howner in
theorem served_frame (s0 : State) : (served s0 u rq o).mem = s0.mem ∧ (served s0 u rq o).clock = s0.clock ∧
    (served s0 u rq o).dies = s0.dies ∧ (served s0 u rq o).sec = s0.sec := ⟨rfl, rfl, rfl, rfl⟩

omit hq in
theorem requesterHoldRelease_goes (hheld : s.injectHeld q = false) (hhold : (s.rqer u).mustHold o = false) :
    exec (.requesterHoldRelease u) s =
      .next ((served (charged s u q) u rq o).addCopy rq { q with serial := some (s.rqer u).next } false) := by
  have hs := metered_charged s u q
  have hnext : (s.rqer u).next = ((charged s u q).takeSerial u o).1 := by
    unfold State.takeSerial State.rqer
    rw [hs.rqers]
  rw [hnext]
  show execRequesterHoldRelease u s = _
  unfold execRequesterHoldRelease served
  rw [hs.clock]
  simp only [hun, howner, Option.getD_some, hhold, hheld, Bool.or_false, Bool.false_eq_true, if_false]
  rfl

theorem requesterHoldRelease_sends (hheld : s.injectHeld q = false) (hhold : (s.rqer u).mustHold o = false) (hcore : q.core = u)
    (hpk : (s.rqer u).retirePk = []) : ∃ t d, exec (.requesterHoldRelease u) s = .next t ∧ t.mem = s.mem ∧
      OnlyReq s t rq
        { q with serial := some (s.rqer u).next, first := s.clock, copies := q.copies ++ [d], inc := s.viewInc (unitDie u) (ownerOf (q.memAt.getD 0)), sent := s.clock } ∧
      t.rqer u = (s.rqer u).take o ∧ d.rtx = false ∧ d.sent = s.clock ∧ d.ack = (s.rqer u).ack ∧ d.inc = s.viewInc (unitDie u) (ownerOf (q.memAt.getD 0)) := by
  have hs := metered_charged s u q
  obtain ⟨hfind, hother⟩ := served_req (u := u) (o := o) hq hs
  obtain ⟨d, hd, hinc, hrtx, hsent, hack, -⟩ := addCopy_spec hfind false
  obtain ⟨hmem, hclock, hdies, hsec⟩ := served_frame (u := u) (rq := rq) (o := o) (charged s u q)
  rw [hs.clock] at hclock
  have hview : (served (charged s u q) u rq o).viewInc (unitDie q.core) (ownerOf (q.memAt.getD 0)) =
      s.viewInc (unitDie u) (ownerOf (q.memAt.getD 0)) := by
    unfold State.viewInc State.die
    rw [hdies, hsec, hs.dies, hs.sec, hcore]
  have hinc : d.inc = s.viewInc (unitDie u) (ownerOf (q.memAt.getD 0)) := hinc.trans hview
  have hx := requesterHoldRelease_goes hun howner hheld hhold
  rw [← addCopy_first _ rq _ false s.clock, hd] at hx
  refine ⟨_, d, hx, hmem.trans hs.mem, ⟨?_, fun k hk => (find_put_other _ _ hk).trans (hother k hk)⟩, served_rqer hs hpk, hrtx, hsent.trans hclock, ?_, hinc⟩
  · rw [hclock, hinc]
    exact find_put_self _ _ _
  · rw [hack, hcore, served_rqer hs hpk]
    rfl

end Holds

/-- Settles O49: the decision at the owner by what its caches hold, and a law for each event of a serial's life; the entry of a performed store
stands at the cache that decided, as no write moves the slices. -/
theorem resultSteps : Obligations.ResultSteps := by
  unfold Obligations.ResultSteps
  intro s rq q ser hq
  refine ⟨fun c hser hc harr hreply hgone => ⟨fun x => mem_retireAt x, fun e hfind hlive => ?_, fun e hnone hfind hlive => ?_, fun e hfind htomb => ?_,
      fun hmissing hkept hstale => ?_, fun hmissing hfull => ?_,
      fun g v hmissing hkept hfresh hroom hst hown hmay hk hg hrec hr hlog hacc hb hrace hgo => ?_⟩,
    fun r hser hreply h => requestReply_stays hq hser hreply h,
    fun r hser hreply hgone hnode hage => ⟨fun v hv hatom => requestReply_value hq hser hreply hgone hnode hage hv hatom,
      fun hr => requestReply_busy hq hser hreply hgone hnode hage hr, fun hr htx htag => ?_, fun tag who hr hk hcore htag hlog => ?_⟩,
    fun hparked => busyRetry_resends hq hparked,
    fun hser hparked hgone hst => requestResend_resends hq hser hparked hgone hst,
    fun hser hgone => ⟨fun hearly => requestAbandon_early hq hser hearly, fun hdue htx htag => ⟨fun hc => ?_, fun hc => ?_⟩⟩,
    fun n hn hgone => ?_, fun r hreply hgone => ?_,
    fun u o ack hpk => retirePacketSend_goes hpk, fun u o ack n hpk => retirePacket_arrives hpk,
    fun o u n => tombstoneExpiry_drops s o u n, fun hlost hdue => ownerIncarnationAdvance_due hlost hdue, fun h => ownerIncarnationAdvance_stays h,
    fun die m inc h => incarnationAnnounce_taken h,
    fun u l o hun howner hheld => ⟨fun hhold => requesterHoldRelease_waits hun howner hhold,
      fun hhold hcore hpk => requesterHoldRelease_sends hq hun howner hheld hhold hcore hpk⟩⟩
  · exact copy_duplicate hq hser hc harr hreply hgone (decide132_live hfind hlive)
  · exact copy_duplicate hq hser hc harr hreply hgone (decide132_evacuated hnone hfind hlive)
  · exact copy_late hq hser hc harr hgone (decide132_late hfind htomb)
  · refine copy_unknown hq hser hc harr hreply hgone ((decide132_missing hmissing).trans ?_)
    exact (if_neg (ne_true_of_eq_false hkept)).trans (if_pos hstale)
  · refine copy_busy hq hser hc harr hreply hgone ((decide132_missing hmissing).trans ?_)
    by_cases hlost : s.sec.incLost.contains (ownerOf (q.memAt.getD 0)) = true
    · exact if_pos hlost
    · obtain ⟨hfresh, hfull⟩ := hfull.resolve_left hlost
      exact (if_neg hlost).trans ((if_neg hfresh).trans (if_pos ((retire_full ..).trans hfull)))
  · have hd : decided s q ser c = .perform := (decide132_missing hmissing).trans ((if_neg (ne_true_of_eq_false hkept)).trans
      ((if_neg hfresh).trans (if_neg (ne_true_of_eq_false ((retire_full ..).trans hroom)))))
    obtain ⟨u, p, hu, hbytes, hp, hst', hcopies, hpreply, hentry⟩ := store_copy_performs (s := retired s q c) (ser := ser) hq hc hreply hgone hk hg
      hrec hr hlog hacc hb hrace hgo
    exact ⟨u, p, (copy_performs hq hser hc harr hd hst hown hmay hk).trans (congrArg _ hu), hbytes, hp, hst', hcopies, hpreply, hentry⟩
  · exact (requestReply_unknown hq hser hreply hgone hnode hage hr).trans (congrArg _ (unknownOutcome_word _ rq ser htx htag))
  · exact (requestReply_unknown hq hser hreply hgone hnode hage hr).trans
      (congrArg _ (unknownOutcome_engine (s.viewReply q) rq ser hk hcore htag hlog))
  · have hx := requestAbandon_due hq hser hgone hdue htx htag
    rw [leaveCopies_none hc] at hx
    exact hx
  · exact ⟨_, requestAbandon_due hq hser hgone hdue htx htag, leaveCopies_stay hc htx⟩
  · obtain ⟨t, hx, hmem, hreq⟩ := ageExpiry_takes hq hgone n
    rw [if_neg hn] at hreq
    exact ⟨t, hx, hmem, hreq⟩
  · obtain ⟨t, hx, hmem, hreq⟩ := ageExpiry_takes hq hgone 0
    rw [if_pos rfl, hreply] at hreq
    simp only [Option.isSome_some, Bool.true_and, decide_eq_true_eq] at hreq
    exact ⟨t, hx, hmem, hreq⟩

end Sys2Proof.Proofs
end


section
/-! The steps of commits (O50): a lane that a slice turns away is aborted and leaves the commit; the others go on to the next slice. -/

namespace Sys2Proof.Proofs

open Sys2Proof.Machine Sys2Proof.Laws

/-! ### The lane that is turned away (05, R141) -/

/-- What one lane's code does to its group. -/
def turnAway (g : Group) (x : Nat × Nat) : Group := if ((g.txLane x.1).open_) then g.txAbort [x.1] x.2 0 false else g

theorem turnAway_closed {g : Group} {L : Nat} (h : (g.txLane L).open_ = false) (code : Nat) : turnAway g (L, code) = g := by
  unfold turnAway
  exact if_neg (ne_true_of_eq_false h)

/-- An open lane has an entry, which the abort dooms; the entries of the other lanes stay. -/
theorem turnAway_open {g : Group} {L : Nat} (h : (g.txLane L).open_ = true) (code : Nat) :
    ((turnAway g (L, code)).txLane L).doomed = true ∧ ∀ k, k ≠ L → (turnAway g (L, code)).txLane k = g.txLane k := by
  cases hL : Tbl.find g.tx L with
  | none =>
    have hshut : (g.txLane L).open_ = false := by
      unfold Group.txLane
      rw [hL]
      rfl
    exact absurd h (ne_true_of_eq_false hshut)
  | some t =>
    have hlane : g.txLane L = t := by
      unfold Group.txLane
      rw [hL, Option.getD_some]
    have hne : g.tx.isEmpty = false := by
      cases htx : g.tx with
      | nil => rw [htx] at hL; cases hL
      | cons _ _ => rfl
    have hab : turnAway g (L, code) = { g with tx := Tbl.upd g.tx L fun x => x.abort code 0 false } := by
      unfold turnAway Group.txAbort
      rw [if_pos h, if_neg (ne_true_of_eq_false hne)]
      rfl
    rw [hab]
    refine ⟨?_, fun k hk => ?_⟩
    · have hdoomed : (t.abort code 0 false).doomed = true := by
        rw [hlane] at h
        unfold TxLane.open_ at h
        unfold TxLane.abort
        split <;> simp_all
      unfold Group.txLane
      rw [find_upd_self, hL]
      exact hdoomed
    · unfold Group.txLane
      rw [find_upd_other _ _ hk]

/-- Further codes of a lane that is doomed change nothing. -/
theorem turnAway_again {g : Group} {L : Nat} (h : (g.txLane L).doomed = true) : ∀ l : List (Nat × Nat), (∀ x ∈ l, x.1 = L) → l.foldl turnAway g = g
  | [], _ => rfl
  | (K, code) :: l, hl => by
    have hK : K = L := hl _ (List.mem_cons_self ..)
    have hshut : (g.txLane K).open_ = false := by
      rw [hK]
      unfold TxLane.open_
      rw [h]
      exact Bool.and_false _
    rw [List.foldl_cons, turnAway_closed hshut]
    exact turnAway_again h l fun x hx => hl x (List.mem_cons_of_mem _ hx)

/-- A lane's codes, one or more, doom it and leave the other lanes. -/
theorem turnAway_fold {g : Group} {L : Nat} (h : (g.txLane L).open_ = true) {l : List (Nat × Nat)} (hne : l ≠ []) (hl : ∀ x ∈ l, x.1 = L) :
    ((l.foldl turnAway g).txLane L).doomed = true ∧ ∀ k, k ≠ L → (l.foldl turnAway g).txLane k = g.txLane k := by
  cases l with
  | nil => exact absurd rfl hne
  | cons x l =>
    obtain ⟨K, code⟩ := x
    obtain rfl : K = L := hl _ (List.mem_cons_self ..)
    have hopen := turnAway_open h code
    rw [List.foldl_cons, turnAway_again hopen.1 l fun x hx => hl x (List.mem_cons_of_mem _ hx)]
    exact hopen

/-- The lanes that stay are those without a code. -/
theorem lanes_without {L : Nat} {l : List (Nat × Nat)} (hL : L < 32) (hne : l ≠ []) (hl : ∀ x ∈ l, x.1 = L) :
    (maskOf fun k => !l.any (fun x => x.1 == k)) = ~~~(1#32 <<< L) := by
  have hany : (fun k => !l.any (fun x => x.1 == k)) = fun k => !(L == k) := by
    funext k
    congr 1
    rw [Bool.eq_iff_iff, List.any_eq_true, beq_iff_eq]
    constructor
    · rintro ⟨x, hx, hk⟩
      rw [← hl x hx]
      exact beq_iff_eq.mp hk
    · rintro rfl
      obtain ⟨x, hx⟩ := List.exists_mem_of_ne_nil l hne
      exact ⟨x, hx, beq_iff_eq.mpr (hl x hx)⟩
  have hmask : ∀ n : Fin 32, (maskOf fun k => !(n.val == k)) = ~~~(1#32 <<< n.val) := by decide
  rw [hany]
  exact hmask ⟨L, hL⟩

/-- What is left to prepare after lane `L` has gone does not depend on lane `L`. -/
theorem left_without {g h : Group} {L : Nat} (m : Mask) (hL : L < 32) (hk : ∀ k, k ≠ L → h.txLane k = g.txLane k) (l : List Nat) :
    (l.filter fun sl => (laneList (m &&& ~~~(1#32 <<< L))).any fun k => !((h.txLane k).at_ sl).isEmpty) =
      l.filter fun sl => (laneList (m &&& ~~~(1#32 <<< L))).any fun k => !((g.txLane k).at_ sl).isEmpty := by
  have hout : L ∉ laneList (m &&& ~~~(1#32 <<< L)) := by
    intro hmem
    have := (mem_laneList.mp hmem).2
    unfold inMask at this
    simp [hL] at this
  refine List.filter_congr fun sl _ => ?_
  rw [Bool.eq_iff_iff, List.any_eq_true, List.any_eq_true]
  refine exists_congr fun k => and_congr_right fun hmem => ?_
  rw [hk k fun he => hout (he ▸ hmem)]

/-- The reply that turns a lane away, with a slice left. -/
theorem reply_turned {s : State} {gs id sl L code : Nat} {l : List Nat} {g : Group} {r : TxRun} {q : Req} (hg : Tbl.find s.groups gs = some g)
    (ht : g.txe = some r) (hb : (s.txMsgs gs TxMsg.isPrepare).find? (fun e => e.2.stage == .performed && e.2.serial.isNone) = some (id, q))
    (hne : q.accs ≠ []) (hacc : ∀ a ∈ q.accs, a.lane = L ∧ a.err = code) (hcode : code ≠ 0) (hL : L < 32) (hopen : (g.txLane L).open_ = true)
    (hl : ((r.todo.drop 1).filter fun sl => (laneList (r.lanes &&& ~~~(1#32 <<< L))).any fun L => !((g.txLane L).at_ sl).isEmpty) = sl :: l) :
    ∃ t h, exec (.txPrepareReply gs) s = .next t ∧ (t.mem = s.mem ∧ ∀ k, k ≠ gs → Tbl.find t.groups k = Tbl.find s.groups k) ∧
      Tbl.find t.groups gs = some h ∧ h.txe = some { r with lanes := r.lanes &&& ~~~(1#32 <<< L), todo := sl :: l, waiting := [] } ∧
      (h.txLane L).doomed = true := by
  have hfold : (fun (g : Group) (x : Nat × Nat) => if (g.txLane x.1).open_ then g.txAbort [x.1] x.2 0 false else g) = turnAway := rfl
  have hreply := prepareReply_eq hg ht hb
  rw [hfold] at hreply
  have hone : ∀ x ∈ (q.accs.filter (fun a => a.err != 0)).map (fun a => (a.lane, a.err)), x.1 = L := by
    intro x hx
    obtain ⟨a, ha, rfl⟩ := List.mem_map.mp hx
    exact (hacc a (List.mem_filter.mp ha).1).1
  have hsome : (q.accs.filter (fun a => a.err != 0)).map (fun a => (a.lane, a.err)) ≠ [] := by
    obtain ⟨a, ha⟩ := List.exists_mem_of_ne_nil _ hne
    refine List.ne_nil_of_mem (List.mem_map.mpr ⟨a, List.mem_filter.mpr ⟨ha, ?_⟩, rfl⟩)
    rw [(hacc a ha).2]
    exact bne_iff_ne.mpr hcode
  generalize (q.accs.filter (fun a => a.err != 0)).map (fun a => (a.lane, a.err)) = out at hreply hone hsome
  obtain ⟨hdoomed, hothers⟩ := turnAway_fold hopen hsome hone
  have hlanes : (backRun r out).lanes = r.lanes &&& ~~~(1#32 <<< L) := congrArg (r.lanes &&& ·) (lanes_without hL hsome hone)
  obtain ⟨-, u, hmem, -, -, -, -, hgroups, hgroup, hx⟩ := hreply
  have hleft := (left_without (h := out.foldl turnAway g) r.lanes hL hothers (r.todo.drop 1)).trans hl
  rw [hlanes, hleft] at hx
  have hv := updTxe_has hgroup rfl fun r => { r with todo := sl :: l }
  obtain ⟨p, hsent, -, -, -⟩ := sendPrepare_spec (sl := sl) hv rfl
  simp only [hsent] at hx
  refine ⟨_, _, hx, ⟨hmem, fun k hk => (updTxe_other _ _ _ hk).trans (hgroups k hk)⟩, hv, ?_, hdoomed⟩
  rw [← hlanes]
  rfl

/-! ### Steps without a packet -/

theorem txPrepare_idle {s : State} {gs : Nat} (h : s.txArrived gs TxMsg.isPrepare = none) : exec (.txPrepare gs) s = .next s := by
  show execTxPrepare gs s = _
  unfold execTxPrepare
  rw [h]

theorem txPrepareReply_idle {s : State} {gs : Nat}
    (h : (s.txMsgs gs TxMsg.isPrepare).find? (fun e => e.2.stage == .performed && e.2.serial.isNone) = none) : exec (.txPrepareReply gs) s = .next s := by
  show execTxPrepareReply gs s = _
  unfold execTxPrepareReply
  rw [h]

theorem txAbortMessage_idle {s : State} {gs L sl : Nat} (h : s.txArrived gs (· == .abort sl L) = none) : exec (.txAbortMessage gs L sl) s = .next s := by
  show execTxAbortMessage gs L sl s = _
  unfold execTxAbortMessage
  rw [h]

/-- Settles O50: what the slice does with a prepare packet, its reply, the time-out, and the commit and abort messages, a law each. -/
theorem commitSteps : Obligations.CommitSteps := by
  unfold Obligations.CommitSteps
  intro s gs g r hg ht
  refine ⟨fun h => txPrepare_idle h,
    fun id q c ser L harr hq hown hreply hne hacc hin hwait => prepare_one hg ht harr hq hown hreply hne hacc hin hwait,
    fun id q c ser L b harr hq hwait hreply => prepare_timeout hg ht harr hq hwait hreply,
    ⟨fun h => txPrepareReply_idle h, fun id q sl l hb herr hl => reply_next hg ht hb herr hl,
      fun id q sl l L code hb hne hacc hcode hL hopen hl => reply_turned hg ht hb hne hacc hcode hL hopen hl,
      fun id q p hb herr hl hp hc hrec hrep h0 => reply_decide hg ht hb herr hl hp hc hrec hrep h0⟩,
    fun L sl id q c ser harr hq hreply => abort_message hg ht harr hq hreply, fun L sl h => txAbortMessage_idle h,
    fun L sl id q c ser n harr hq hreply hn hm hL hown hmay hov hrec hrep hmode ho hb =>
      commit_message hg ht harr hq hreply hn hm hL hown hmay hov hrec hrep hmode ho hb⟩

end Sys2Proof.Proofs
end
